-- ==== Sys2Proof/Word.lean ====
section
/-! DEFINITION. The words of the machine and their plainest arithmetic (00_scope R4, R5, R9; 03 R58). -/

namespace Sys2Proof

/-- One byte of memory. -/
abbrev Byte := BitVec 8
/-- An `x` register, a CSR, an offset formed modulo 2^64 (R58). -/
abbrev Word := BitVec 64
/-- An object reference, the content of an `a` register (R69). -/
abbrev Ref := BitVec 128
/-- A vector register of `vlen.VBITS` = 1,024 bits (R58, R65). -/
abbrev VReg := BitVec 1024
/-- A predicate register of `vlen.PBITS` = 128 bits (R58, R65). -/
abbrev PReg := BitVec 128
/-- An instruction word (R77). -/
abbrev IWord := BitVec 32

/-- Register numbers, one type for each file's size (R58). -/
abbrev Rx := Fin 32
abbrev Ra := Fin 16
abbrev Rv := Fin 32
abbrev Rp := Fin 8
/-- A governing predicate in an F-V or F-VC word: `p0` to `p3` (R80). -/
abbrev Rg := Fin 4
abbrev Rt := Fin 16

/-- The bit field of `len` bits at `lo` of a natural number (R4). -/
def field (w lo len : Nat) : Nat := w / 2 ^ lo % 2 ^ len

/-- The bits `lo` to `lo + len - 1` of a bit vector, as a number (R4). -/
def bits {n : Nat} (v : BitVec n) (lo len : Nat) : Nat := field v.toNat lo len

/-- One bit of a bit vector (R4). -/
def bitAt {n : Nat} (v : BitVec n) (i : Nat) : Bool := v.toNat.testBit i

end Sys2Proof
end

