-- ==== Sys2Proof/Config.lean ====
section
/-! DEFINITION. What the IKT-4400 fixes (R15, R16, R27, R65) and the values its manual leaves open. An opaque
constant has no body: nothing proved about the model rests on its value. -/

namespace Sys2Proof.Config

/-- The hold window W, in cycles (R27). -/
def holdWindow : Nat := 128
/-- Cycles between splits and the number kept (R27, R245). -/
def splitInterval : Nat := 32
def splitsKept : Nat := 5
/-- Entries of one core's hold buffer (R247). -/
def holdEntries : Nat := 128
/-- Inbox slots, overflow queue, spill queue and start queue (R198, R359, R348). -/
def inboxSlots : Nat := 16
def overflowMessages : Nat := 256
def spillMessages : Nat := 4096
def startMessages : Nat := 32
/-- Tasks of one die queue (R350). -/
def queueTasks : Nat := 1024
/-- Physical tiles of one engine and receive slots of one endpoint (R154, R174). -/
def physTiles : Nat := 96
def ringSlots : Nat := 16
/-- The pacer's epoch in cycles (R355). -/
def epoch : Nat := 1000
/-- Drain and seal of a recall, and its shortest restore (R253). -/
def drainCycles : Nat := 24
def restoreCycles : Nat := 16
def sealCycles : Nat := 8
def refillCycles : Nat := 24
/-- Records of a trace ring (R295), of a section log and of the package log (R378). -/
def traceRecords : Nat := 4096
def sectionLogRecords : Nat := 1024
def packageLogRecords : Nat := 65536
/-- Lines of a section's heat store buffer, and of one quad's quota of it (R386). -/
def heatQuota : Nat := 2048
/-- TOUT after reset, in cycles: 50 µs at 1 GHz (R392, R6). -/
def toutReset : Nat := 50000

/-- Ronsol's Falcon-1024 public key in the starting block's ROM: 1,793 bytes, of which the manual gives none (R398). -/
opaque falconKey : List Byte
/-- The starting block's ROM digest, which the manual does not give (R403). -/
opaque romDigest : List Byte
/-- The device certificate (R404), which the manual does not give. -/
opaque certificate : List Byte
/-- The quote signature under the module's own private key: a function of the bytes signed and of a fresh number,
since a Falcon signature is randomised (R404). -/
opaque quoteSignature : List Byte → Nat → List Byte
/-- A choice the manual leaves to firmware (which of several free numbers, frames or units): the n-th such choice. -/
opaque firmwareChoice : Nat → Nat
/-- Offset of the service cores' own fault handler, which the manual leaves to firmware (R229). -/
opaque serviceHandler : Word
/-- A value that the manual leaves open although the machine goes on (log entry 10): the n-th one. -/
opaque freeValue : Nat → BitVec 64
/-- Byte `i` of the 80 in which a section keeps a waiting start message, by its entry number, payload and header: the manual
gives no layout (R348). -/
opaque startByte : Nat → Nat → Nat → Nat → BitVec 8
/-- Byte `i` of the 128 in which a section keeps a queued task, by its control word, payload and FEAT: the manual gives no
layout (R348, R350). -/
opaque taskByte : Nat → Nat → Nat → Nat → BitVec 8

end Sys2Proof.Config
end

