-- ==== Sys2Proof/Syntax.lean ====
section
/-! DEFINITION. The instructions: one constructor for each row of spec/opcode_table.json. The rows with an
encoding take their operands from the fields of 03 R78; the rows without one are the steps the other agents take
(95 "What each step holds") and take the unit, thread or request they are about. -/

namespace Sys2Proof

/-- Element types by type code (R29, R31, R33). -/
inductive Ty where
  | i8 | i16 | i32 | i64 | n8 | n16 | n32 | n64 | f64 | f32 | f16 | bf16 | e4m3 | e5m2 | l6
  deriving DecidableEq, Repr

/-- Access widths `.b .h .w .d` (R188). -/
inductive Width where
  | b | h | w | d
  deriving DecidableEq, Repr

/-- Width codes of `sext`, `zext` (R100) and `ldn` (R188). -/
inductive Width3 where
  | b | h | w
  deriving DecidableEq, Repr

/-- Scopes (R12). -/
inductive Scope where
  | thread | core | quad | sect | die | package | pod | system
  deriving DecidableEq, Repr

/-- Orders (R80). -/
inductive Ord where
  | relaxed | acquire | release | acqrel
  deriving DecidableEq, Repr

/-- Encoded rounding modes: four static ones and the dynamic one (R41, R80). -/
inductive Rm where
  | rne | rtz | rup | rdn | dyn
  deriving DecidableEq, Repr

/-- N:M patterns of `tmmas` (R167). -/
inductive Nm where
  | n2m4 | n1m2 | n1m4 | n2m8
  deriving DecidableEq, Repr

/-- Modes of `tscl` (R169). -/
inductive SclMode where
  | elementwise | column | row
  deriving DecidableEq, Repr

/-- The assigned CSRs (R75). -/
inductive Csr where
  | fcsr | vlen | tdim | tkstep | holdw | coreid | thid | ortb | keysel | lmsplit | smsplit | vpool
  | hdom0 | hdom1 | hdom2 | hdom3 | cpsrc | cpdst | cplen | cpstride | cpshape | cpmode | cplaunch
  | fcause | faddr | fstep | finfo | epc | recallcnt | tstat | budget
  deriving DecidableEq, Repr

/-- Who sends a request or a message: a host or a service core (SENDER 0xFFFF_FFFF, R199), or a gang's thread. -/
inductive Party where
  | host
  | service (sec : Nat)
  | member (gang rank : Nat)
  deriving DecidableEq, Repr

/-- A request to a service core (R343): the sender, the payload words `x10` to `x17`, and the section whose service core it
goes to. -/
structure Request where
  sender : Party
  pay : List Word
  sec : Nat := 0
  deriving DecidableEq, Repr

/-- What a host asks of device memory (R393). -/
inductive HostOp where
  | read (bytes : Nat)
  | write (data : List Byte)
  deriving DecidableEq, Repr

/-- Units that a lasting fault can name (R380). -/
inductive FaultUnit where
  | core (n : Nat) | engine (n : Nat) | copyEngine (sec eng : Nat) | port (n : Nat)
  deriving DecidableEq, Repr

/-- The instructions and the steps of the other agents. -/
inductive Instr where
  -- 04: integer register-register, major 0x01 (R95 to R100); `w` is the W bit
  | add (d a b : Rx) (w : Bool) | sub (d a b : Rx) (w : Bool)
  | and (d a b : Rx) | or (d a b : Rx) | xor (d a b : Rx) | andn (d a b : Rx) | orn (d a b : Rx)
  | sll (d a b : Rx) (w : Bool) | srl (d a b : Rx) (w : Bool) | sra (d a b : Rx) (w : Bool)
  | ror (d a b : Rx) (w : Bool)
  | slt (d a b : Rx) | sltn (d a b : Rx) | min (d a b : Rx) | max (d a b : Rx)
  | minn (d a b : Rx) | maxn (d a b : Rx)
  | mul (d a b : Rx) (w : Bool) | mulh (d a b : Rx) | mulhn (d a b : Rx)
  | div (d a b : Rx) (w : Bool) | divn (d a b : Rx) (w : Bool)
  | rem (d a b : Rx) (w : Bool) | remn (d a b : Rx) (w : Bool)
  | clz (d a : Rx) (w : Bool) | ctz (d a : Rx) (w : Bool) | popc (d a : Rx) (w : Bool)
  | sext (d a : Rx) (s : Width3) | zext (d a : Rx) (s : Width3)
  | sel (d a b c : Rx)
  -- 04: immediate forms, majors 0x02 to 0x09 and 0x0B (R101 to R104)
  | addi (d a : Rx) (imm : BitVec 16) | andi (d a : Rx) (imm : BitVec 16) | ori (d a : Rx) (imm : BitVec 16)
  | xori (d a : Rx) (imm : BitVec 16) | slti (d a : Rx) (imm : BitVec 16) | sltni (d a : Rx) (imm : BitVec 16)
  | slli (d a : Rx) (w : Bool) (sh : Fin 64) | srli (d a : Rx) (w : Bool) (sh : Fin 64)
  | srai (d a : Rx) (w : Bool) (sh : Fin 64) | rori (d a : Rx) (w : Bool) (sh : Fin 64)
  | luis (d a : Rx) (h : Fin 6) (v : BitVec 12)
  | bext (d a : Rx) (pos len1 : Fin 64) | bins (d a : Rx) (pos len1 : Fin 64)
  -- 04: constant window, major 0x0A (R105, R106); `k2` names the even slot 2 × k2
  | kld (d : Rx) (k : Fin 256) | kldIndexed (d a : Rx) (k : Fin 256)
  | kldRef (d : Ra) (k2 : Fin 128) | kldRefIndexed (d : Ra) (a : Rx) (k2 : Fin 128)
  -- 04: branches and jumps, majors 0x0C to 0x14 (R107 to R111)
  | beq (a b : Rx) (disp : BitVec 16) | bne (a b : Rx) (disp : BitVec 16) | blt (a b : Rx) (disp : BitVec 16)
  | bge (a b : Rx) (disp : BitVec 16) | bltn (a b : Rx) (disp : BitVec 16) | bgen (a b : Rx) (disp : BitVec 16)
  | pbrAny (a g : Rp) (disp : BitVec 16) | pbrAll (a g : Rp) (disp : BitVec 16) | pbrNone (a g : Rp) (disp : BitVec 16)
  | jal (d : Rx) (disp : BitVec 21) | jalr (d a : Rx) (imm : BitVec 16)
  -- 04: object references, major 0x15 (R112 to R118)
  | amov (d a : Ra) | aoff (d a : Ra) (b : Rx) (s : Fin 8) | asetf (d a : Ra) (b : Rx) | asetb (d a : Ra) (b : Rx)
  | ageto (d : Rx) (a : Ra) | agetn (d : Rx) (a : Ra) | amake (d : Ra) (a b : Rx)
  | acoord (d a : Ra) (b c : Rx) | achk (d : Rx) (a : Ra) (b : Rx) | aspace (d : Ra) (a : Rx) (sp : Fin 16)
  -- 07: scalar memory, majors 0x16, 0x17 (R188, R189)
  | ld (d : Rx) (r : Ra) (x : Rx) (imm : BitVec 7) (s : Width)
  | ldn (d : Rx) (r : Ra) (x : Rx) (imm : BitVec 7) (s : Width3)
  | lda (d : Ra) (r : Ra) (x : Rx) (imm : BitVec 7)
  | st (d : Rx) (r : Ra) (x : Rx) (imm : BitVec 7) (s : Width)
  | sta (d : Ra) (r : Ra) (x : Rx) (imm : BitVec 7)
  -- 07: atomics, major 0x18 (R191 to R193); `w` selects 64 bits
  | amoswap (d : Rx) (r : Ra) (x : Rx) (s : Scope) (q : Ord) (w : Bool)
  | amoadd (d : Rx) (r : Ra) (x : Rx) (s : Scope) (q : Ord) (w : Bool)
  | amoand (d : Rx) (r : Ra) (x : Rx) (s : Scope) (q : Ord) (w : Bool)
  | amoor (d : Rx) (r : Ra) (x : Rx) (s : Scope) (q : Ord) (w : Bool)
  | amoxor (d : Rx) (r : Ra) (x : Rx) (s : Scope) (q : Ord) (w : Bool)
  | amomin (d : Rx) (r : Ra) (x : Rx) (s : Scope) (q : Ord) (w : Bool)
  | amomax (d : Rx) (r : Ra) (x : Rx) (s : Scope) (q : Ord) (w : Bool)
  | amominn (d : Rx) (r : Ra) (x : Rx) (s : Scope) (q : Ord) (w : Bool)
  | amomaxn (d : Rx) (r : Ra) (x : Rx) (s : Scope) (q : Ord) (w : Bool)
  | amocas (d : Rx) (r : Ra) (x : Rx) (s : Scope) (q : Ord) (w : Bool)
  | amofadd (d : Rx) (r : Ra) (x : Rx) (s : Scope) (q : Ord) (w : Bool)
  -- 07: fences, major 0x19 (R194 to R197)
  | fence (s : Scope) (q : Ord) | pacq (x : Rx) (s : Scope) | hdrain (s : Scope)
  -- 07: messages, major 0x1A (R198 to R204)
  | msend (a b : Rx) | msendv (v : Rv) (a b : Rx) | msenda (a b : Rx) | mrecv (d : Rx) (v : Rv)
  | mwait (d a : Rx) | mpeek (d : Rx) | mcount (d : Rx)
  -- 07: hurdles and exchange, major 0x1B (R205 to R208)
  | hurdle (h : Fin 4) (s : Scope) | harrive (d : Rx) (h : Fin 4) (s : Scope) | hwait (a : Rx) (h : Fin 4) (s : Scope)
  | htest (d a : Rx) (h : Fin 4) (s : Scope) | xphase (d : Rx) | xphaseWait (d a : Rx) | xsend (d a b : Rx)
  -- 07: copy engine, major 0x1C (R209 to R215)
  | cpsetSrc (a : Ra) | cpsetDst (a : Ra) | cpgo (d b : Rx) | cpwp (d a : Rx) | cpstat (d a : Rx) | cpcancel (a : Rx)
  -- 07: tasks, major 0x1D (R217 to R221)
  | spawn (a : Rx) | tqget (d : Rx) | gatedec (a b : Rx)
  -- 05: repeat frame, major 0x1E (R146 to R149); counts less one, `step` is 1, 2 or 4 by its code
  | repf (cnt1 : Fin 16) (len1 : Fin 8) (step : Fin 3) (sd sa sb : Bool)
  -- 05: floating arithmetic, majors 0x20, 0x21 (R125 to R127)
  | vadd (d a b : Rv) (p : Rg) (t : Ty) (fzi fzo : Bool) | vsub (d a b : Rv) (p : Rg) (t : Ty) (fzi fzo : Bool)
  | vmul (d a b : Rv) (p : Rg) (t : Ty) (fzi fzo : Bool) | vmin (d a b : Rv) (p : Rg) (t : Ty) (fzi fzo : Bool)
  | vmax (d a b : Rv) (p : Rg) (t : Ty) (fzi fzo : Bool) | vabd (d a b : Rv) (p : Rg) (t : Ty) (fzi fzo : Bool)
  | vaddmin (d a b : Rv) (p : Rg) (t : Ty) (fzi fzo : Bool)
  | vcopysign (d a b : Rv) (p : Rg) (t : Ty) (fzi fzo : Bool)
  | vfma (d a b : Rv) (p : Rg) (t : Ty) (fzi fzo : Bool) | vfms (d a b : Rv) (p : Rg) (t : Ty) (fzi fzo : Bool)
  | vfnma (d a b : Rv) (p : Rg) (t : Ty) (fzi fzo : Bool) | vfnms (d a b : Rv) (p : Rg) (t : Ty) (fzi fzo : Bool)
  | vdiv (d a b : Rv) (p : Rg) (t : Ty) (fzi fzo : Bool) | vsqrt (d a : Rv) (p : Rg) (t : Ty) (fzi fzo : Bool)
  | vrcpe (d a : Rv) (p : Rg) (t : Ty) (fzi fzo : Bool) | vrsqe (d a : Rv) (p : Rg) (t : Ty) (fzi fzo : Bool)
  -- 05: compare and classify, major 0x22 (R128, R129)
  | vceq (d : Rp) (a b : Rv) (p : Rg) (t : Ty) (fzi : Bool) | vcne (d : Rp) (a b : Rv) (p : Rg) (t : Ty) (fzi : Bool)
  | vclt (d : Rp) (a b : Rv) (p : Rg) (t : Ty) (fzi : Bool) | vcle (d : Rp) (a b : Rv) (p : Rg) (t : Ty) (fzi : Bool)
  | vcgt (d : Rp) (a b : Rv) (p : Rg) (t : Ty) (fzi : Bool) | vcge (d : Rp) (a b : Rv) (p : Rg) (t : Ty) (fzi : Bool)
  | vcun (d : Rp) (a b : Rv) (p : Rg) (t : Ty) (fzi : Bool)
  | vclass (d : Rp) (a : Rv) (m : BitVec 5) (p : Rg) (t : Ty) (fzi : Bool)
  -- 05: integer arithmetic, major 0x23 (R130)
  | viadd (d a b : Rv) (p : Rg) (t : Ty) | visub (d a b : Rv) (p : Rg) (t : Ty) | vimul (d a b : Rv) (p : Rg) (t : Ty)
  | vimulh (d a b : Rv) (p : Rg) (t : Ty) | vimin (d a b : Rv) (p : Rg) (t : Ty) | vimax (d a b : Rv) (p : Rg) (t : Ty)
  | viaddmin (d a b : Rv) (p : Rg) (t : Ty) | viabs (d a : Rv) (p : Rg) (t : Ty)
  -- 05: logic, shift, select, major 0x24 (R131)
  | vand (d a b : Rv) (p : Rg) (t : Ty) | vor (d a b : Rv) (p : Rg) (t : Ty) | vxor (d a b : Rv) (p : Rg) (t : Ty)
  | vandn (d a b : Rv) (p : Rg) (t : Ty) | vsll (d a b : Rv) (p : Rg) (t : Ty) | vsrl (d a b : Rv) (p : Rg) (t : Ty)
  | vsra (d a b : Rv) (p : Rg) (t : Ty) | vsel (d a b : Rv) (p : Rg) (t : Ty)
  -- 05: permutes, major 0x25 (R132)
  | vshup (d a b : Rv) (p : Rg) (t : Ty) | vshdn (d a b : Rv) (p : Rg) (t : Ty)
  | vbcl (d a : Rv) (b : Rx) (p : Rg) (t : Ty) | vperm (d a b : Rv) (p : Rg) (t : Ty)
  | vzip (d a b : Rv) (p : Rg) (t : Ty) (hi : Bool) | vuzp (d a b : Rv) (p : Rg) (t : Ty) (hi : Bool)
  | vrev (d a : Rv) (p : Rg) (t : Ty) | vcompr (d a : Rv) (p : Rg) (t : Ty)
  -- 05: reductions, major 0x26 (R133, R134)
  | vrsum (d : Rx) (a : Rv) (p : Rg) (t : Ty) (fzi : Bool)
  | vrsumo (d : Rx) (a : Rv) (b : Rx) (p : Rg) (t : Ty) (fzi : Bool)
  | vrmax (d : Rx) (a : Rv) (p : Rg) (t : Ty) (fzi : Bool) | vrmin (d : Rx) (a : Rv) (p : Rg) (t : Ty) (fzi : Bool)
  | vrand (d : Rx) (a : Rv) (p : Rg) (t : Ty) | vror (d : Rx) (a : Rv) (p : Rg) (t : Ty)
  | vrcnt (d : Rx) (a : Rv) (p : Rg) (t : Ty) (fzi : Bool)
  -- 05: conversions, major 0x27 (R135, R136)
  | vcvt (d a : Rv) (tin tout : Ty) (p : Rg) (fzi sat : Bool) (rm : Rm) (fzo : Bool)
  | vrnd (d a : Rv) (t : Ty) (p : Rg) (fzi : Bool) (rm : Rm) (fzo : Bool)
  -- 05: block scale, major 0x28 (R137 to R139)
  | vqnt (d a : Rv) (b : Rx) (p : Rg) (t : Ty) (fzi fzo : Bool)
  | vdqnt (d a : Rv) (b : Rx) (p : Rg) (t : Ty) (fzi fzo : Bool)
  | vscale (d a : Rv) (b : Rx) (p : Rg) (t : Ty) (fzi fzo : Bool)
  -- 05: vector memory, major 0x29 (R142 to R145)
  | vld (d : Rv) (r : Ra) (x : Rx) (imm : BitVec 7) (p : Rg) | vst (d : Rv) (r : Ra) (x : Rx) (imm : BitVec 7) (p : Rg)
  | vlds (d : Rv) (r : Ra) (x : Rx) (imm : BitVec 7) (p : Rg) | vsts (d : Rv) (r : Ra) (x : Rx) (imm : BitVec 7) (p : Rg)
  | vldg (d : Rv) (r : Ra) (x : Rv) (imm : BitVec 7) (p : Rg) | vstg (d : Rv) (r : Ra) (x : Rv) (imm : BitVec 7) (p : Rg)
  | vldb (d : Rv) (r : Ra) (x : Rx) (imm : BitVec 7) (p : Rg) | vldff (d : Rv) (r : Ra) (x : Rx) (imm : BitVec 7) (p : Rg)
  -- 05: vector-scalar moves, major 0x2A (R140)
  | vmovx (d : Rx) (a : Rv) (b : Rx) (t : Ty) | vxmov (d : Rv) (a b : Rx) (t : Ty)
  | vsplat (d : Rv) (a : Rx) (p : Rg) (t : Ty) | vsplatk (d : Rv) (k : Fin 256) (p : Rg) (t : Ty)
  | vidx (d : Rv) (a b : Rx) (p : Rg) (t : Ty) | vwhile (d : Rp) (a b : Rx) (t : Ty) | vgetl (d a : Rx) (t : Ty)
  -- 05: predicate operations, major 0x2B (R141)
  | pand (d a b : Rp) | por (d a b : Rp) | pxor (d a b : Rp) | pnot (d a : Rp)
  | pcnt (d : Rx) (a : Rp) (p : Rg) (t : Ty) | pfirst (d a : Rp) (p : Rg) (t : Ty)
  | pset (d : Rp) (a : Rx) (t : Ty) | pmov (d a : Rp)
  -- 06: tile load, store, zero, move, fill, major 0x30 (R158 to R164)
  | tld (d : Rt) (a : Ra) (tr : Bool) (r c : Rx) | tst (d : Rt) (a : Ra) (tr : Bool) (r c : Rx)
  | tzero (d : Rt) | tmov (d a : Rt) | tfill (d : Rt) (k : Width) (x : Rx)
  -- 06: multiplies, majors 0x31, 0x32 (R165 to R168)
  | tmma (d a b : Rt) (t : Ty) (fzi dyn fzo z : Bool) | tmmat (d a b : Rt) (t : Ty) (fzi dyn fzo z : Bool)
  | tmmax (d a b : Rt) (t tb : Ty) (fzi dyn fzo z : Bool)
  | tmmas (d a b m : Rt) (t : Ty) (nm : Nm) (fzi dyn fzo z : Bool)
  -- 06: convert, quantise, scale, add, major 0x33 (R169 to R172)
  | tcvt (d a : Rt) (tout tin : Ty) (rm : Rm) (sat fzi fzo : Bool) (part : Fin 4)
  | tqnt (d a : Rt) (blog : Fin 16) (t : Ty) (rm : Rm) (sat fzi fzo : Bool) (part : Fin 4)
  | tscl (d a b : Rt) (t : Ty) (rm : Rm) (fzi fzo : Bool) (m : SclMode)
  | tadd (d a b : Rt) (t : Ty) (rm : Rm) (fzi fzo : Bool)
  -- 06: rows, columns, transpose, major 0x34 (R173)
  | trdr (a : Rt) (k : Rx) (v : Rv) | twrr (d : Rt) (k : Rx) (v : Rv) | trdc (a : Rt) (t : Ty) (k : Rx) (v : Rv)
  | twrc (d : Rt) (t : Ty) (k : Rx) (v : Rv) | ttrn (d a : Rt) (t : Ty)
  -- 06: the baton ring, major 0x35 (R174 to R178)
  | tring (d a : Rt) | tringS (a : Rt) | tringR (d : Rt) | trjoin (th : Rt) (a d : Rx) | trstat (th : Rt) (d : Rx)
  -- 06: tile save, restore, release, major 0x36 (R180 to R182)
  | tsave (half : Fin 2) (a : Ra) (m : BitVec 8) | trstr (half : Fin 2) (a : Ra) (m : BitVec 8)
  | trel (half : Fin 2) (m : BitVec 8)
  -- 08: system, majors 0x38, 0x39 (R226 to R232)
  | syscall (c : BitVec 15) | trap (a b : Rx) | brk (c : BitVec 15) | eretThread (d a : Rx) | waiti (d a : Rx)
  | csrrd (d : Rx) (n : Csr) | csrwr (d a : Rx) (n : Csr) | csrset (d a : Rx) (n : Csr) | csrclr (d a : Rx) (n : Csr)
  -- 08: privileged unit operations, major 0x3A (R233 to R235)
  | scrubCore (d a : Rx)
  | ctxsave (d a : Rx) (b : Ra) | ctxload (d a : Rx) (b : Ra)
  -- 08: deprecated, major 0x3B (R239 to R241)
  | tgath1 (d : Rt) (a : Ra) (b : Rv) | vdot4 (d a b : Rv)
  -- 08: hints, major 0x3F (R236 to R238); ignored bits are kept
  | nop (g : BitVec 20) | hpref (r : Ra) (x : Rx) (l : BitVec 5) (lvl : BitVec 2) (g : BitVec 4)
  | hstream (r : Ra) (x : Rx) (l : BitVec 5) (g : BitVec 6)
  | hevict (r : Ra) (x : Rx) (l : BitVec 5) (lvl : BitVec 2) (g : BitVec 4)
  | hprio (g : BitVec 18) (n : BitVec 2) | hloop (c dist : BitVec 10) | hint (h : BitVec 6) (g : BitVec 20)
  -- 03: the word that reaches decode without an assigned operation (R82)
  | undefinedInstruction (word : IWord)
  -- 08: the other kinds of `scrub`, which share the word of the first (R233, R234)
  | scrubQuad (d a : Rx) | scrubSection (d a : Rx) | scrubQuadShare (d a : Rx)
  -- the two encoded instructions without operands (R217, R226)
  | tqdone | eret
  -- 07, 09: steps of the hold buffers, inboxes, waits, hurdles and rings
  | holdRelease (core : Nat) | heldRequestReply (core : Nat) | inboxRefill (t : Nat)
  | mwaitWake (t : Nat) | mwaitTimeout (t : Nat) | waitiWake (t : Nat) | waitiTimeout (t : Nat)
  | hurdleCompletion (g : Nat) (dom : Fin 4) (lvl : Scope) (inst : Nat) | phaseClockMatch (t : Nat)
  | ringTileArrival (eng : Nat) | pacqComplete (t : Nat)
  -- 09: splits, checker, recall
  | split (q : Nat) | lateFree (eng : Nat) | checkerRetry (t : Nat) (agrees : Bool) (inEngine : Bool)
  | strikeReport (q sensor estimate : Nat) | recallRestore (q : Nat) | recallSeal (q : Nat) | recallResume (q : Nat)
  | outsideStrikeReport (sec sensor : Nat) | outsideWriteApply (q : Nat)
  -- 10: threads
  | threadStart (core slot : Nat) | startQueueDequeue (core : Nat) | threadEnd (t : Nat)
  -- 07: copy engines
  | linearCopy (sec eng : Nat) | twoDimensionalCopy (sec eng : Nat) | reduce (sec eng : Nat) | finalise (sec eng : Nat)
  | clear (sec eng : Nat) | copyCompletion (sec eng : Nat) | copyFault (sec eng : Nat) (resumed : Bool)
  -- 14: relocation, placement, records, host regions
  | relocationRequest (die : Nat) (desc : List Word) | relocationLine (die : Nat) | relocationRelease (die : Nat)
  | lrhoWrite (die frame : Nat) (v : BitVec 4) | recordChangeInForce
  | transferTransaction (region : Nat) (toHost : Bool) | transferTransactionDone (region : Nat)
  -- 15: requests to a service core
  | load (q : Request) (dxo : List Byte) | teardown (q : Request) | halt (q : Request) | resume (q : Request)
  | step (q : Request) | group (q : Request) | release (q : Request) | create (q : Request) | share (q : Request)
  | unassignedRequest (q : Request) (entry : Nat)
  -- 15: system calls in service
  | endCall (t : Nat) | objnew (t : Nat) | objfree (t : Nat) | reside (t : Nat) | watch (t : Nat) | trace (t : Nat)
  | unassignedSyscall (t : Nat)
  -- 14, 15, 16: service of faults, moves, switches, pacer, heats
  | residencyFaultService (t : Nat) | unserviceableFault (t : Nat) | featureTrap (t : Nat) | coreMove (src dst : Nat)
  | fencing (u : FaultUnit) | sliceExpiry (g : Nat) | switchOut (g : Nat) | switchIn (g : Nat) | pacerEpoch (q : Nat)
  | heatCheckpoint (g : Nat) | heatReplay (g : Nat)
  -- 16: Hjelwa and the pod
  | flitReplay (port : Nat) | laneFailure (port : Nat) (portFails : Bool) | requestTimeout (core : Nat)
  | heartbeat (pkg : Nat) (answered : Bool) | packageLost (pkg : Nat) | routesRestored | hostAccess (addr : Nat) (o : HostOp)
  -- 17: boot, management link, power, cooling, keys
  | moduleReset | stage1Complete (withheld : List Nat) (retired : List Nat) | stage2Complete | mstart (rec : List Byte)
  | mrepair (v : BitVec 32) | ago (v : BitVec 32) | attn (nonce : List Byte) | reportComplete | mstatWrite (v : BitVec 32)
  | managementWrite (addr : BitVec 16) (v : BitVec 32) | powerLimitCheck (avg : Nat) | thermalTrip (temp : Nat)
  | keySlotWrite (slot : Nat) (key : List Byte) | thermalThrottle (temp : Nat) | powerLoss
  deriving DecidableEq, Repr

end Sys2Proof
end

