-- ==== Sys2Proof/WellFormed.lean ====
section
/-! DEFINITION. Which operand values an instruction word may carry: the checks of 03 R80 and R82 step 4 that look at
more than one reserved bit, as the chapter of each group states them. -/

namespace Sys2Proof

/-- Type codes 0x0 to 0x7 (R29). -/
def Ty.isInt : Ty → Bool
  | .i8 | .i16 | .i32 | .i64 | .n8 | .n16 | .n32 | .n64 => true
  | _ => false

/-- Type codes 0x0 to 0x3 (R29). -/
def Ty.signed : Ty → Bool
  | .i8 | .i16 | .i32 | .i64 => true
  | _ => false

/-- Type codes 0x8 to 0xB, the binary formats of the vector unit (R124). -/
def Ty.isBin : Ty → Bool
  | .f64 | .f32 | .f16 | .bf16 => true
  | _ => false

/-- Type codes 0xC to 0xE (R124). -/
def Ty.isNarrow : Ty → Bool
  | .e4m3 | .e5m2 | .l6 => true
  | _ => false

/-- Types of `tmma`: i8 and 0xA to 0xE (R165). -/
def Ty.isMul : Ty → Bool
  | .i8 | .f16 | .bf16 | .e4m3 | .e5m2 | .l6 => true
  | _ => false

/-- The set TT of R169. -/
def Ty.isTile : Ty → Bool
  | .i8 | .i32 | .n8 | .f32 | .f16 | .bf16 | .e4m3 | .e5m2 | .l6 => true
  | _ => false

/-- Element types of one, two or four bytes, but for l6 (R173). -/
def Ty.isRow : Ty → Bool
  | .l6 | .i64 | .n64 | .f64 => false
  | _ => true

/-- Elements of one row of a tile (R151). -/
def Ty.perRow : Ty → Nat
  | .i8 | .n8 | .e4m3 | .e5m2 | .l6 => 128
  | .i16 | .n16 | .f16 | .bf16 => 64
  | .i32 | .n32 | .f32 => 32
  | .i64 | .n64 | .f64 => 16

/-- M/N of a sparse pattern (R167). -/
def Nm.ratio : Nm → Nat
  | .n2m4 | .n1m2 => 2
  | .n1m4 | .n2m8 => 4

/-- The engine half of a tile register (R17). -/
def Rt.half (t : Rt) : Nat := t.val / 8

/-- A scope is wider than or equal to another (R12). -/
def Scope.code : Scope → Nat
  | .thread => 0 | .core => 1 | .quad => 2 | .sect => 3 | .die => 4 | .package => 5 | .pod => 6 | .system => 7

/-- Scopes a hurdle operation accepts (R205). -/
def Scope.hurdle (s : Scope) : Bool := s.code != 0 && s.code != 7

/-- With i8, a tile multiply holds zero in fzi, dyn and fzo (R165). -/
def mulFlags (t : Ty) (fzi dyn fzo : Bool) : Bool := t != .i8 || !(fzi || dyn || fzo)

/-- The parts of a `tcvt`: ρ of R170. -/
def cvtParts (tout tin : Ty) : Nat :=
  if tout.perRow ≤ tin.perRow then tin.perRow / tout.perRow else tout.perRow / tin.perRow

/-- The reserved-operand checks that decode makes on the operands of an instruction (R82 step 4). -/
def Instr.wf : Instr → Bool
  | .slli _ _ w sh | .srli _ _ w sh | .srai _ _ w sh | .rori _ _ w sh => !w || sh.val < 32
  | .luis _ _ h v => h.val != 5 || v.toNat < 16
  | .bext _ _ pos len1 | .bins _ _ pos len1 => pos.val + len1.val + 1 ≤ 64
  | .aspace _ _ sp => sp.val != 0 && sp.val ≤ 5
  | .fence _ q => q != .relaxed
  | .pacq _ s => 3 ≤ s.code
  | .hurdle _ s | .harrive _ _ s | .hwait _ _ s | .htest _ _ _ s => s.hurdle
  | .xphaseWait _ a => a != 0
  | .vadd _ _ _ _ t _ _ | .vsub _ _ _ _ t _ _ | .vmul _ _ _ _ t _ _ | .vmin _ _ _ _ t _ _ | .vmax _ _ _ _ t _ _
  | .vabd _ _ _ _ t _ _ | .vaddmin _ _ _ _ t _ _ | .vcopysign _ _ _ _ t _ _ | .vfma _ _ _ _ t _ _
  | .vfms _ _ _ _ t _ _ | .vfnma _ _ _ _ t _ _ | .vfnms _ _ _ _ t _ _ | .vdiv _ _ _ _ t _ _
  | .vsqrt _ _ _ t _ _ | .vrcpe _ _ _ t _ _ | .vrsqe _ _ _ t _ _ | .vscale _ _ _ _ t _ _
  | .vcun _ _ _ _ t _ | .vclass _ _ _ _ t _ | .vrnd _ _ t _ _ _ _ => t.isBin
  | .vceq _ _ _ _ t fzi | .vcne _ _ _ _ t fzi | .vclt _ _ _ _ t fzi | .vcle _ _ _ _ t fzi | .vcgt _ _ _ _ t fzi
  | .vcge _ _ _ _ t fzi | .vrsum _ _ _ t fzi | .vrsumo _ _ _ _ t fzi | .vrmax _ _ _ t fzi | .vrmin _ _ _ t fzi
  | .vrcnt _ _ _ t fzi => t.isBin || (t.isInt && !fzi)
  | .viadd _ _ _ _ t | .visub _ _ _ _ t | .vimul _ _ _ _ t | .vimulh _ _ _ _ t | .vimin _ _ _ _ t | .vimax _ _ _ _ t
  | .viaddmin _ _ _ _ t | .vsll _ _ _ _ t | .vsrl _ _ _ _ t | .vsra _ _ _ _ t | .vrand _ _ _ t | .vror _ _ _ t
  | .vidx _ _ _ _ t => t.isInt
  | .viabs _ _ _ t => t.signed
  | .vqnt _ _ _ _ t _ _ | .vdqnt _ _ _ _ t _ _ => t.isNarrow
  | .vcvt _ _ tin tout _ _ _ _ _ => tin != tout
  | .vldff _ _ _ _ p => p != 0
  | .tmov d a => d.half == a.half
  | .tmma d a b t fzi dyn fzo _ | .tmmat d a b t fzi dyn fzo _ =>
    t.isMul && mulFlags t fzi dyn fzo && d.half == a.half && d.half == b.half
  | .tmmax d a b t tb _ _ _ _ =>
    (((t == .f16 || t == .bf16) && (tb == .f16 || tb == .bf16))
      || ((t == .e4m3 || t == .e5m2) && (tb == .e4m3 || tb == .e5m2)))
    && d.half == a.half && d.half == b.half
  | .tmmas d a b m t nm fzi dyn fzo _ =>
    t.isMul && mulFlags t fzi dyn fzo && d.half == a.half && d.half == b.half && d.half == m.half
    && b.val % 8 + nm.ratio ≤ 8 && !(b.val ≤ d.val && d.val < b.val + nm.ratio)
  | .tcvt d a tout tin _ _ _ _ p => tout.isTile && tin.isTile && p.val < cvtParts tout tin && d.half == a.half
  | .tqnt d a blog t _ _ _ _ _ => 3 ≤ blog.val && blog.val ≤ 5 && t.isNarrow && d.half == a.half
  | .tscl d a b t _ _ _ _ => t == .f32 && d.half == a.half && d.half == b.half
  | .tadd d a b t rm fzi fzo =>
    (t == .f32 || (t == .i32 && rm == .rne && !fzi && !fzo)) && d.half == a.half && d.half == b.half
  | .trdc _ t _ _ | .twrc _ t _ _ => t.isRow
  | .ttrn d a t => t.isRow && d.half == a.half
  | .tring d a => d.half == a.half
  | .eretThread d a => !(d == 0 && a == 0)
  | .hint h _ => 6 ≤ h.toNat
  | _ => true

/-- The four `scrub` rows are one word (R233), which decode reads as the first of them. -/
def Instr.canon : Instr → Instr
  | .scrubQuad d a | .scrubSection d a | .scrubQuadShare d a => .scrubCore d a
  | i => i

end Sys2Proof
end

