-- ==== Sys2Proof/Decode.lean ====
section
/-! DEFINITION. Decoding of instruction words, total on any word, and the encoder (03 R77 to R84 and the encoding
tables of 04 to 08). A word that is no instruction is rejected as an undefined instruction or a reserved operand. -/

namespace Sys2Proof

/-- Why decode rejects a word (R82 steps 2 and 4). -/
inductive Reject where
  | undefinedInstruction
  | reservedOperand
  deriving DecidableEq, Repr

/-! ### Fields -/

/-- Register fields (R78). -/
def rxAt (n lo : Nat) : Rx := ⟨field n lo 5, Nat.mod_lt _ (by decide)⟩
def raAt (n lo : Nat) : Ra := ⟨field n lo 4, Nat.mod_lt _ (by decide)⟩
def rvAt (n lo : Nat) : Rv := ⟨field n lo 5, Nat.mod_lt _ (by decide)⟩
def rpAt (n lo : Nat) : Rp := ⟨field n lo 3, Nat.mod_lt _ (by decide)⟩
def rgAt (n lo : Nat) : Rg := ⟨field n lo 2, Nat.mod_lt _ (by decide)⟩
def rtAt (n lo : Nat) : Rt := ⟨field n lo 4, Nat.mod_lt _ (by decide)⟩
def fin6At (n lo : Nat) : Fin 64 := ⟨field n lo 6, Nat.mod_lt _ (by decide)⟩
def bitOf (n lo : Nat) : Bool := field n lo 1 == 1
def bvAt (len n lo : Nat) : BitVec len := BitVec.ofNat len (field n lo len)

/-- The code of an element type (R29, R31, R33). -/
def Ty.code : Ty → Nat
  | .i8 => 0 | .i16 => 1 | .i32 => 2 | .i64 => 3 | .n8 => 4 | .n16 => 5 | .n32 => 6 | .n64 => 7
  | .f64 => 8 | .f32 => 9 | .f16 => 10 | .bf16 => 11 | .e4m3 => 12 | .e5m2 => 13 | .l6 => 14

def Ty.ofCode : Nat → Option Ty
  | 0 => some .i8 | 1 => some .i16 | 2 => some .i32 | 3 => some .i64
  | 4 => some .n8 | 5 => some .n16 | 6 => some .n32 | 7 => some .n64
  | 8 => some .f64 | 9 => some .f32 | 10 => some .f16 | 11 => some .bf16
  | 12 => some .e4m3 | 13 => some .e5m2 | 14 => some .l6
  | _ => none

def Scope.ofCode : Nat → Scope
  | 0 => .thread | 1 => .core | 2 => .quad | 3 => .sect | 4 => .die | 5 => .package | 6 => .pod | _ => .system

def Ord.code : Ord → Nat
  | .relaxed => 0 | .acquire => 1 | .release => 2 | .acqrel => 3
def Ord.ofCode : Nat → Ord
  | 0 => .relaxed | 1 => .acquire | 2 => .release | _ => .acqrel

/-- Rounding-mode codes of R80. -/
def Rm.code : Rm → Nat
  | .rne => 0 | .rtz => 1 | .rup => 2 | .rdn => 3 | .dyn => 4
def Rm.ofCode : Nat → Option Rm
  | 0 => some .rne | 1 => some .rtz | 2 => some .rup | 3 => some .rdn | 4 => some .dyn | _ => none

/-- Width codes of R188. -/
def Width.code : Width → Nat
  | .b => 0 | .h => 1 | .w => 2 | .d => 3
def Width.ofCode : Nat → Width
  | 0 => .b | 1 => .h | 2 => .w | _ => .d
def Width3.code : Width3 → Nat
  | .b => 0 | .h => 1 | .w => 2

def Nm.code : Nm → Nat
  | .n2m4 => 0 | .n1m2 => 1 | .n1m4 => 2 | .n2m8 => 3
def Nm.ofCode : Nat → Nm
  | 0 => .n2m4 | 1 => .n1m2 | 2 => .n1m4 | _ => .n2m8

def SclMode.code : SclMode → Nat
  | .elementwise => 0 | .column => 1 | .row => 2

/-- The assigned CSR numbers (R75). -/
def Csr.num : Csr → Nat
  | .fcsr => 0x001 | .vlen => 0x010 | .tdim => 0x011 | .tkstep => 0x012 | .holdw => 0x013
  | .coreid => 0x020 | .thid => 0x021 | .ortb => 0x022 | .keysel => 0x023 | .lmsplit => 0x024
  | .smsplit => 0x025 | .vpool => 0x026 | .hdom0 => 0x028 | .hdom1 => 0x029 | .hdom2 => 0x02A | .hdom3 => 0x02B
  | .cpsrc => 0x040 | .cpdst => 0x041 | .cplen => 0x042 | .cpstride => 0x043 | .cpshape => 0x044
  | .cpmode => 0x045 | .cplaunch => 0x046 | .fcause => 0x060 | .faddr => 0x061 | .fstep => 0x062
  | .finfo => 0x063 | .epc => 0x064 | .recallcnt => 0x080 | .tstat => 0x081 | .budget => 0x082

def Csr.ofNum : Nat → Option Csr
  | 0x001 => some .fcsr | 0x010 => some .vlen | 0x011 => some .tdim | 0x012 => some .tkstep | 0x013 => some .holdw
  | 0x020 => some .coreid | 0x021 => some .thid | 0x022 => some .ortb | 0x023 => some .keysel
  | 0x024 => some .lmsplit | 0x025 => some .smsplit | 0x026 => some .vpool
  | 0x028 => some .hdom0 | 0x029 => some .hdom1 | 0x02A => some .hdom2 | 0x02B => some .hdom3
  | 0x040 => some .cpsrc | 0x041 => some .cpdst | 0x042 => some .cplen | 0x043 => some .cpstride
  | 0x044 => some .cpshape | 0x045 => some .cpmode | 0x046 => some .cplaunch
  | 0x060 => some .fcause | 0x061 => some .faddr | 0x062 => some .fstep | 0x063 => some .finfo | 0x064 => some .epc
  | 0x080 => some .recallcnt | 0x081 => some .tstat | 0x082 => some .budget
  | _ => none

/-! ### Checks -/

/-- An undefined instruction (R82 step 2). -/
def undef : Except Reject Instr := .error .undefinedInstruction

/-- A reserved operand (R82 step 4). -/
def reserved : Except Reject Instr := .error .reservedOperand

/-- The instruction, if its reserved fields are zero and its operand values are accepted. -/
def check (zero : Bool) (i : Instr) : Except Reject Instr := if zero && i.wf then .ok i else reserved

/-- A field of `len` bits at `lo` holds zero. -/
def zf (n lo len : Nat) : Bool := field n lo len == 0

/-- With the element type of a type field; 0xF is a reserved operand (R80). -/
def withTy (n lo : Nat) (k : Ty → Except Reject Instr) : Except Reject Instr :=
  match Ty.ofCode (field n lo 4) with
  | some t => k t
  | none => reserved

/-- With the rounding mode of an rm field; 5 to 7 are reserved operands (R80). -/
def withRm (n lo : Nat) (k : Rm → Except Reject Instr) : Except Reject Instr :=
  match Rm.ofCode (field n lo 3) with
  | some r => k r
  | none => reserved

/-! ### Majors -/

/-- Major 0x01 (R95, R96). -/
def decodeInt (n : Nat) : Except Reject Instr :=
  let d := rxAt n 21; let a := rxAt n 16; let b := rxAt n 11
  let w := bitOf n 10; let c0 := zf n 5 5
  let narrow := fun (r : Except Reject Instr) => if w then undef else r
  let width := fun (k : Width3 → Instr) => match field n 11 5 with
    | 0 => check c0 (k .b) | 1 => check c0 (k .h) | 2 => check c0 (k .w) | _ => reserved
  match field n 0 5 with
  | 0 => check c0 (.add d a b w) | 1 => check c0 (.sub d a b w)
  | 2 => narrow (check c0 (.and d a b)) | 3 => narrow (check c0 (.or d a b)) | 4 => narrow (check c0 (.xor d a b))
  | 5 => narrow (check c0 (.andn d a b)) | 6 => narrow (check c0 (.orn d a b))
  | 7 => check c0 (.sll d a b w) | 8 => check c0 (.srl d a b w) | 9 => check c0 (.sra d a b w)
  | 10 => check c0 (.ror d a b w)
  | 11 => narrow (check c0 (.slt d a b)) | 12 => narrow (check c0 (.sltn d a b))
  | 13 => narrow (check c0 (.min d a b)) | 14 => narrow (check c0 (.max d a b))
  | 15 => narrow (check c0 (.minn d a b)) | 16 => narrow (check c0 (.maxn d a b))
  | 17 => check c0 (.mul d a b w) | 18 => narrow (check c0 (.mulh d a b)) | 19 => narrow (check c0 (.mulhn d a b))
  | 20 => check c0 (.div d a b w) | 21 => check c0 (.divn d a b w)
  | 22 => check c0 (.rem d a b w) | 23 => check c0 (.remn d a b w)
  | 24 => check (c0 && zf n 11 5) (.clz d a w) | 25 => check (c0 && zf n 11 5) (.ctz d a w)
  | 26 => check (c0 && zf n 11 5) (.popc d a w)
  | 27 => narrow (width (.sext d a)) | 28 => narrow (width (.zext d a))
  | 29 => narrow (check true (.sel d a b (rxAt n 5)))
  | _ => undef

/-- Major 0x08 (R102). -/
def decodeShift (n : Nat) : Except Reject Instr :=
  let d := rxAt n 21; let a := rxAt n 16; let w := bitOf n 11; let sh := fin6At n 0; let z := zf n 6 5
  match field n 12 4 with
  | 0 => check z (.slli d a w sh) | 1 => check z (.srli d a w sh)
  | 2 => check z (.srai d a w sh) | 3 => check z (.rori d a w sh)
  | _ => undef

/-- Major 0x09 (R103). -/
def decodeLuis (n : Nat) : Except Reject Instr :=
  if h : field n 12 4 < 6 then check true (.luis (rxAt n 21) (rxAt n 16) ⟨field n 12 4, h⟩ (bvAt 12 n 0)) else undef

/-- Major 0x0A (R105). -/
def decodeKld (n : Nat) : Except Reject Instr :=
  let k : Fin 256 := ⟨field n 3 8, Nat.mod_lt _ (by decide)⟩
  let k2 : Fin 128 := ⟨field n 4 7, Nat.mod_lt _ (by decide)⟩
  if zf n 11 5 then
    match field n 0 3 with
    | 0 => check (zf n 16 5) (.kld (rxAt n 21) k)
    | 1 => check true (.kldIndexed (rxAt n 21) (rxAt n 16) k)
    | 2 => check (zf n 16 5 && zf n 3 1 && zf n 25 1) (.kldRef (raAt n 21) k2)
    | 3 => check (zf n 3 1 && zf n 25 1) (.kldRefIndexed (raAt n 21) (rxAt n 16) k2)
    | _ => undef
  else undef

/-- Major 0x0B (R104). -/
def decodeField (n : Nat) : Except Reject Instr :=
  let d := rxAt n 21; let a := rxAt n 16; let pos := fin6At n 6; let len := fin6At n 0; let z := zf n 12 1
  match field n 13 3 with
  | 0 => check z (.bext d a pos len) | 1 => check z (.bins d a pos len)
  | _ => undef

/-- Major 0x12 (R108). -/
def decodePbr (n : Nat) : Except Reject Instr :=
  let a := rpAt n 21; let g := rpAt n 18; let i := bvAt 16 n 0; let z := zf n 24 2
  match field n 16 2 with
  | 0 => check z (.pbrAny a g i) | 1 => check z (.pbrAll a g i) | 2 => check z (.pbrNone a g i)
  | _ => undef

/-- Major 0x15 (R112). -/
def decodeRef (n : Nat) : Except Reject Instr :=
  let d := raAt n 21; let a := raAt n 16; let b := rxAt n 11
  let hi := zf n 10 1; let d4 := zf n 25 1; let a4 := zf n 20 1; let b0 := zf n 11 5; let e0 := zf n 5 5
  match field n 0 5 with
  | 0 => check (hi && d4 && a4 && b0 && e0) (.amov d a)
  | 1 => check (hi && d4 && a4 && zf n 8 2) (.aoff d a b ⟨field n 5 3, Nat.mod_lt _ (by decide)⟩)
  | 2 => check (hi && d4 && a4 && e0) (.asetf d a b)
  | 3 => check (hi && d4 && a4 && e0) (.asetb d a b)
  | 4 => check (hi && a4 && b0 && e0) (.ageto (rxAt n 21) a)
  | 5 => check (hi && a4 && b0 && e0) (.agetn (rxAt n 21) a)
  | 6 => check (hi && d4 && e0) (.amake d (rxAt n 16) b)
  | 7 => check (hi && d4 && a4) (.acoord d a b (rxAt n 5))
  | 8 => check (hi && a4 && e0) (.achk (rxAt n 21) a b)
  | 9 => check (hi && d4 && b0 && zf n 9 1) (.aspace d (rxAt n 16) ⟨field n 5 4, Nat.mod_lt _ (by decide)⟩)
  | _ => undef

/-- Majors 0x16 and 0x17 (R188). -/
def decodeLoad (n : Nat) : Except Reject Instr :=
  let d := rxAt n 21; let r := raAt n 17; let x := rxAt n 12; let i := bvAt 7 n 5
  match field n 0 5 with
  | 0 => check true (.ld d r x i .b) | 1 => check true (.ld d r x i .h)
  | 2 => check true (.ld d r x i .w) | 3 => check true (.ld d r x i .d)
  | 4 => check true (.ldn d r x i .b) | 5 => check true (.ldn d r x i .h) | 6 => check true (.ldn d r x i .w)
  | 7 => check (zf n 25 1) (.lda (raAt n 21) r x i)
  | _ => undef
def decodeStore (n : Nat) : Except Reject Instr :=
  let d := rxAt n 21; let r := raAt n 17; let x := rxAt n 12; let i := bvAt 7 n 5
  match field n 0 5 with
  | 0 => check true (.st d r x i .b) | 1 => check true (.st d r x i .h)
  | 2 => check true (.st d r x i .w) | 3 => check true (.st d r x i .d)
  | 7 => check (zf n 25 1) (.sta (raAt n 21) r x i)
  | _ => undef

/-- Major 0x18 (R191). -/
def decodeAmo (n : Nat) : Except Reject Instr :=
  let d := rxAt n 21; let r := raAt n 17; let x := rxAt n 12
  let s := Scope.ofCode (field n 5 3); let q := Ord.ofCode (field n 3 2); let w := bitOf n 2
  if zf n 0 2 then
    match field n 8 4 with
    | 0 => check true (.amoswap d r x s q w) | 1 => check true (.amoadd d r x s q w)
    | 2 => check true (.amoand d r x s q w) | 3 => check true (.amoor d r x s q w)
    | 4 => check true (.amoxor d r x s q w) | 5 => check true (.amomin d r x s q w)
    | 6 => check true (.amomax d r x s q w) | 7 => check true (.amominn d r x s q w)
    | 8 => check true (.amomaxn d r x s q w) | 9 => check true (.amocas d r x s q w)
    | 10 => check true (.amofadd d r x s q w)
    | _ => undef
  else undef

/-- Major 0x19 (R194). -/
def decodeFence (n : Nat) : Except Reject Instr :=
  let s := Scope.ofCode (field n 5 3); let z := zf n 17 9 && zf n 0 3
  match field n 8 4 with
  | 0 => check (z && zf n 12 5) (.fence s (Ord.ofCode (field n 3 2)))
  | 1 => check (z && field n 3 2 == 1) (.pacq (rxAt n 12) s)
  | 2 => check (z && zf n 12 5 && zf n 3 2) (.hdrain s)
  | _ => undef

/-- Major 0x1A (R200). -/
def decodeMessage (n : Nat) : Except Reject Instr :=
  let d := rxAt n 21; let a := rxAt n 16; let b := rxAt n 11
  let d0 := zf n 21 5; let a0 := zf n 16 5; let b0 := zf n 11 5
  match field n 0 11 with
  | 0 => check d0 (.msend a b) | 1 => check true (.msendv (rvAt n 21) a b) | 2 => check d0 (.msenda a b)
  | 3 => check a0 (.mrecv d (rvAt n 11)) | 4 => check b0 (.mwait d a)
  | 5 => check (a0 && b0) (.mpeek d) | 6 => check (a0 && b0) (.mcount d)
  | _ => undef

/-- Major 0x1B (R205). -/
def decodeHurdle (n : Nat) : Except Reject Instr :=
  let d := rxAt n 21; let a := rxAt n 16; let b := rxAt n 11
  let h : Fin 4 := ⟨field n 6 2, Nat.mod_lt _ (by decide)⟩; let s := Scope.ofCode (field n 3 3)
  let d0 := zf n 21 5; let a0 := zf n 16 5; let b0 := zf n 11 5; let hs0 := zf n 3 5
  if zf n 8 3 then
    match field n 0 3 with
    | 0 => check (d0 && a0 && b0) (.hurdle h s) | 1 => check (a0 && b0) (.harrive d h s)
    | 2 => check (d0 && b0) (.hwait a h s) | 3 => check b0 (.htest d a h s)
    | 4 => if a0 then check (b0 && hs0) (.xphase d) else check (b0 && hs0) (.xphaseWait d a)
    | 5 => check hs0 (.xsend d a b)
    | _ => undef
  else undef

/-- Major 0x1C (R210). -/
def decodeCopy (n : Nat) : Except Reject Instr :=
  let d := rxAt n 21; let a := rxAt n 16; let b := rxAt n 11
  let d0 := zf n 21 5; let a0 := zf n 16 5; let b0 := zf n 11 5
  match field n 0 11 with
  | 0 => check (d0 && zf n 20 1 && b0) (.cpsetSrc (raAt n 16)) | 1 => check (d0 && zf n 20 1 && b0) (.cpsetDst (raAt n 16))
  | 2 => check a0 (.cpgo d b) | 3 => check b0 (.cpwp d a) | 4 => check b0 (.cpstat d a)
  | 5 => check (d0 && b0) (.cpcancel a)
  | _ => undef

/-- Major 0x1D (R217). -/
def decodeTask (n : Nat) : Except Reject Instr :=
  let d0 := zf n 21 5; let a0 := zf n 16 5; let b0 := zf n 11 5
  match field n 0 11 with
  | 0 => check (d0 && b0) (.spawn (rxAt n 16)) | 1 => check (a0 && b0) (.tqget (rxAt n 21))
  | 2 => check d0 (.gatedec (rxAt n 16) (rxAt n 11)) | 3 => check (d0 && a0 && b0) .tqdone
  | _ => undef

/-- Major 0x1E (R146). -/
def decodeRepf (n : Nat) : Except Reject Instr :=
  if h : field n 7 2 < 3 then
    check (zf n 16 10 && zf n 0 4)
      (.repf ⟨field n 12 4, Nat.mod_lt _ (by decide)⟩ ⟨field n 9 3, Nat.mod_lt _ (by decide)⟩ ⟨field n 7 2, h⟩
        (bitOf n 6) (bitOf n 5) (bitOf n 4))
  else reserved

/-- Majors 0x20 and 0x21 (R125). -/
def decodeFloat (n : Nat) : Except Reject Instr :=
  let d := rvAt n 21; let a := rvAt n 16; let b := rvAt n 11; let p := rgAt n 9
  let i := bitOf n 4; let o := bitOf n 3
  withTy n 5 fun t => match field n 0 3 with
  | 0 => check true (.vadd d a b p t i o) | 1 => check true (.vsub d a b p t i o)
  | 2 => check true (.vmul d a b p t i o) | 3 => check true (.vmin d a b p t i o)
  | 4 => check true (.vmax d a b p t i o) | 5 => check true (.vabd d a b p t i o)
  | 6 => check true (.vaddmin d a b p t i o) | _ => check true (.vcopysign d a b p t i o)
def decodeFused (n : Nat) : Except Reject Instr :=
  let d := rvAt n 21; let a := rvAt n 16; let b := rvAt n 11; let p := rgAt n 9; let b0 := zf n 11 5
  let i := bitOf n 4; let o := bitOf n 3
  withTy n 5 fun t => match field n 0 3 with
  | 0 => check true (.vfma d a b p t i o) | 1 => check true (.vfms d a b p t i o)
  | 2 => check true (.vfnma d a b p t i o) | 3 => check true (.vfnms d a b p t i o)
  | 4 => check true (.vdiv d a b p t i o) | 5 => check b0 (.vsqrt d a p t i o)
  | 6 => check b0 (.vrcpe d a p t i o) | _ => check b0 (.vrsqe d a p t i o)

/-- Major 0x22 (R128, R129). -/
def decodeCompare (n : Nat) : Except Reject Instr :=
  let d := rpAt n 21; let a := rvAt n 16; let b := rvAt n 11; let p := rgAt n 9; let i := bitOf n 4
  let z := zf n 24 2 && zf n 3 1
  withTy n 5 fun t => match field n 0 3 with
  | 0 => check z (.vceq d a b p t i) | 1 => check z (.vcne d a b p t i) | 2 => check z (.vclt d a b p t i)
  | 3 => check z (.vcle d a b p t i) | 4 => check z (.vcgt d a b p t i) | 5 => check z (.vcge d a b p t i)
  | 6 => check z (.vcun d a b p t i) | _ => check z (.vclass d a (bvAt 5 n 11) p t i)

/-- Major 0x23 (R130). -/
def decodeVInt (n : Nat) : Except Reject Instr :=
  let d := rvAt n 21; let a := rvAt n 16; let b := rvAt n 11; let p := rgAt n 9; let z := zf n 3 2
  withTy n 5 fun t => match field n 0 3 with
  | 0 => check z (.viadd d a b p t) | 1 => check z (.visub d a b p t) | 2 => check z (.vimul d a b p t)
  | 3 => check z (.vimulh d a b p t) | 4 => check z (.vimin d a b p t) | 5 => check z (.vimax d a b p t)
  | 6 => check z (.viaddmin d a b p t) | _ => check (z && zf n 11 5) (.viabs d a p t)

/-- Major 0x24 (R131). -/
def decodeVLogic (n : Nat) : Except Reject Instr :=
  let d := rvAt n 21; let a := rvAt n 16; let b := rvAt n 11; let p := rgAt n 9; let z := zf n 3 2
  withTy n 5 fun t => match field n 0 3 with
  | 0 => check z (.vand d a b p t) | 1 => check z (.vor d a b p t) | 2 => check z (.vxor d a b p t)
  | 3 => check z (.vandn d a b p t) | 4 => check z (.vsll d a b p t) | 5 => check z (.vsrl d a b p t)
  | 6 => check z (.vsra d a b p t) | _ => check z (.vsel d a b p t)

/-- Major 0x25 (R132). -/
def decodePermute (n : Nat) : Except Reject Instr :=
  let d := rvAt n 21; let a := rvAt n 16; let b := rvAt n 11; let p := rgAt n 9; let z := zf n 3 2
  withTy n 5 fun t => match field n 0 3 with
  | 0 => check z (.vshup d a b p t) | 1 => check z (.vshdn d a b p t) | 2 => check z (.vbcl d a (rxAt n 11) p t)
  | 3 => check z (.vperm d a b p t) | 4 => check (zf n 4 1) (.vzip d a b p t (bitOf n 3))
  | 5 => check (zf n 4 1) (.vuzp d a b p t (bitOf n 3)) | 6 => check (z && zf n 11 5) (.vrev d a p t)
  | _ => check (z && zf n 11 5) (.vcompr d a p t)

/-- Major 0x26 (R133). -/
def decodeReduce (n : Nat) : Except Reject Instr :=
  let d := rxAt n 21; let a := rvAt n 16; let p := rgAt n 9; let b0 := zf n 11 5; let i := bitOf n 4
  let z := zf n 3 1; let z2 := zf n 3 2
  match field n 0 3 with
  | 0 => withTy n 5 fun t => check (z && b0) (.vrsum d a p t i)
  | 1 => withTy n 5 fun t => check z (.vrsumo d a (rxAt n 11) p t i)
  | 2 => withTy n 5 fun t => check (z && b0) (.vrmax d a p t i)
  | 3 => withTy n 5 fun t => check (z && b0) (.vrmin d a p t i)
  | 4 => withTy n 5 fun t => check (z2 && b0) (.vrand d a p t)
  | 5 => withTy n 5 fun t => check (z2 && b0) (.vror d a p t)
  | 6 => withTy n 5 fun t => check (z && b0) (.vrcnt d a p t i)
  | _ => undef

/-- Major 0x27 (R81, R135, R136). -/
def decodeConvert (n : Nat) : Except Reject Instr :=
  let d := rvAt n 21; let a := rvAt n 16; let p := rgAt n 6
  withTy n 12 fun tin => withTy n 8 fun tout => withRm n 1 fun rm =>
    if tin = tout then check (zf n 4 1) (.vrnd d a tin p (bitOf n 5) rm (bitOf n 0))
    else check true (.vcvt d a tin tout p (bitOf n 5) (bitOf n 4) rm (bitOf n 0))

/-- Major 0x28 (R137 to R139). -/
def decodeScale (n : Nat) : Except Reject Instr :=
  let d := rvAt n 21; let a := rvAt n 16; let b := rxAt n 11; let p := rgAt n 9
  let i := bitOf n 4; let o := bitOf n 3
  match field n 0 3 with
  | 0 => withTy n 5 fun t => check true (.vqnt d a b p t i o)
  | 1 => withTy n 5 fun t => check true (.vdqnt d a b p t i o)
  | 2 => withTy n 5 fun t => check true (.vscale d a b p t i o)
  | _ => undef

/-- Major 0x29 (R142). -/
def decodeVMem (n : Nat) : Except Reject Instr :=
  let d := rvAt n 21; let r := raAt n 17; let x := rxAt n 12; let i := bvAt 7 n 5; let p := rgAt n 3
  match field n 0 3 with
  | 0 => check true (.vld d r x i p) | 1 => check true (.vst d r x i p)
  | 2 => check true (.vlds d r x i p) | 3 => check true (.vsts d r x i p)
  | 4 => check true (.vldg d r (rvAt n 12) i p) | 5 => check true (.vstg d r (rvAt n 12) i p)
  | 6 => check true (.vldb d r x i p) | _ => check true (.vldff d r x i p)

/-- Major 0x2A (R140). -/
def decodeVMove (n : Nat) : Except Reject Instr :=
  let d := rxAt n 21; let vd := rvAt n 21; let a := rxAt n 16; let b := rxAt n 11; let p := rgAt n 9
  let z := zf n 3 2; let p0 := zf n 9 2; let b0 := zf n 11 5
  match field n 0 3 with
  | 0 => withTy n 5 fun t => check (z && p0) (.vmovx d (rvAt n 16) b t)
  | 1 => withTy n 5 fun t => check (z && p0) (.vxmov vd a b t)
  | 2 => withTy n 5 fun t => check (z && b0) (.vsplat vd a p t)
  | 3 => withTy n 5 fun t => check (z && zf n 11 2) (.vsplatk vd ⟨field n 13 8, Nat.mod_lt _ (by decide)⟩ p t)
  | 4 => withTy n 5 fun t => check z (.vidx vd a b p t)
  | 5 => withTy n 5 fun t => check (z && p0 && zf n 24 2) (.vwhile (rpAt n 21) a b t)
  | 6 => withTy n 5 fun t => check (z && p0 && b0) (.vgetl d a t)
  | _ => undef

/-- Major 0x2B (R141). -/
def decodePred (n : Nat) : Except Reject Instr :=
  let d := rpAt n 21; let a := rpAt n 16; let b := rpAt n 11; let p := rgAt n 9
  let z := zf n 3 2; let d4 := zf n 24 2; let a4 := zf n 19 2; let b4 := zf n 14 2; let p0 := zf n 9 2
  let b0 := zf n 11 5; let t0 := zf n 5 4
  match field n 0 3 with
  | 0 => check (z && t0 && p0 && d4 && a4 && b4) (.pand d a b)
  | 1 => check (z && t0 && p0 && d4 && a4 && b4) (.por d a b)
  | 2 => check (z && t0 && p0 && d4 && a4 && b4) (.pxor d a b)
  | 3 => check (z && t0 && p0 && d4 && a4 && b0) (.pnot d a)
  | 4 => withTy n 5 fun t => check (z && a4 && b0) (.pcnt (rxAt n 21) a p t)
  | 5 => withTy n 5 fun t => check (z && d4 && a4 && b0) (.pfirst d a p t)
  | 6 => withTy n 5 fun t => check (z && p0 && d4 && b0) (.pset d (rxAt n 16) t)
  | _ => check (z && t0 && p0 && d4 && a4 && b0) (.pmov d a)

/-- Major 0x30 (R158). -/
def decodeTMem (n : Nat) : Except Reject Instr :=
  let d := rtAt n 22; let a0 := zf n 18 4
  match field n 10 4 with
  | 0 => check (zf n 15 3) (.tld d (raAt n 18) (bitOf n 14) (rxAt n 5) (rxAt n 0))
  | 1 => check (zf n 15 3) (.tst d (raAt n 18) (bitOf n 14) (rxAt n 5) (rxAt n 0))
  | 2 => check (a0 && zf n 14 4 && zf n 0 10) (.tzero d)
  | 3 => check (zf n 14 4 && zf n 0 10) (.tmov d (rtAt n 18))
  | 4 => check (a0 && zf n 16 2 && zf n 0 5) (.tfill d (Width.ofCode (field n 14 2)) (rxAt n 5))
  | _ => undef

/-- Major 0x31 (R165). -/
def decodeTMul (n : Nat) : Except Reject Instr :=
  let d := rtAt n 22; let a := rtAt n 18; let b := rtAt n 14
  let i := bitOf n 3; let y := bitOf n 2; let o := bitOf n 1; let z := bitOf n 0
  match field n 8 2 with
  | 0 => withTy n 10 fun t => check (zf n 4 4) (.tmma d a b t i y o z)
  | 1 => withTy n 10 fun t => check (zf n 4 4) (.tmmat d a b t i y o z)
  | 2 => withTy n 10 fun t => withTy n 4 fun tb => check true (.tmmax d a b t tb i y o z)
  | _ => undef

/-- Major 0x32 (R167). -/
def decodeTSparse (n : Nat) : Except Reject Instr :=
  withTy n 10 fun t =>
    check true (.tmmas (rtAt n 22) (rtAt n 18) (rtAt n 14) (rtAt n 6) t (Nm.ofCode (field n 4 2))
      (bitOf n 3) (bitOf n 2) (bitOf n 1) (bitOf n 0))

/-- Major 0x33 (R169). -/
def decodeTConv (n : Nat) : Except Reject Instr :=
  let d := rtAt n 22; let a := rtAt n 18; let s := bitOf n 4; let i := bitOf n 3; let o := bitOf n 2
  let p : Fin 4 := ⟨field n 0 2, Nat.mod_lt _ (by decide)⟩
  withTy n 10 fun t => withRm n 5 fun rm => match field n 8 2 with
  | 0 => withTy n 14 fun tout => check true (.tcvt d a tout t rm s i o p)
  | 1 => check true (.tqnt d a ⟨field n 14 4, Nat.mod_lt _ (by decide)⟩ t rm s i o p)
  | 2 =>
    match field n 0 2 with
    | 0 => check (zf n 4 1) (.tscl d a (rtAt n 14) t rm i o .elementwise)
    | 1 => check (zf n 4 1) (.tscl d a (rtAt n 14) t rm i o .column)
    | 2 => check (zf n 4 1) (.tscl d a (rtAt n 14) t rm i o .row)
    | _ => reserved
  | _ => check (zf n 4 1 && zf n 0 2) (.tadd d a (rtAt n 14) t rm i o)

/-- Major 0x34 (R173). -/
def decodeTRow (n : Nat) : Except Reject Instr :=
  let d := rtAt n 22; let a := rtAt n 18; let k := rxAt n 5; let v := rvAt n 0
  let d0 := zf n 22 4; let a0 := zf n 18 4; let t0 := zf n 10 4
  match field n 14 4 with
  | 0 => check (d0 && t0) (.trdr a k v) | 1 => check (a0 && t0) (.twrr d k v)
  | 2 => withTy n 10 fun t => check d0 (.trdc a t k v)
  | 3 => withTy n 10 fun t => check a0 (.twrc d t k v)
  | 4 => withTy n 10 fun t => check (zf n 0 10) (.ttrn d a t)
  | _ => undef

/-- Major 0x35 (R175). -/
def decodeRing (n : Nat) : Except Reject Instr :=
  let d := rtAt n 22; let a := rtAt n 18; let d0 := zf n 22 4; let a0 := zf n 18 4; let b0 := zf n 14 4
  match field n 10 4 with
  | 0 => check (b0 && zf n 0 10) (.tring d a) | 1 => check (d0 && b0 && zf n 0 10) (.tringS a)
  | 2 => check (a0 && b0 && zf n 0 10) (.tringR d) | 3 => check (a0 && b0) (.trjoin d (rxAt n 5) (rxAt n 0))
  | 4 => check (a0 && b0 && zf n 5 5) (.trstat d (rxAt n 0))
  | _ => undef

/-- Major 0x36 (R180). -/
def decodeTSave (n : Nat) : Except Reject Instr :=
  let h : Fin 2 := ⟨field n 25 1, Nat.mod_lt _ (by decide)⟩; let a := raAt n 18; let m := bvAt 8 n 0
  let z := zf n 22 3 && zf n 14 4 && zf n 8 2
  match field n 10 4 with
  | 0 => check z (.tsave h a m) | 1 => check z (.trstr h a m) | 2 => check (z && zf n 18 4) (.trel h m)
  | _ => undef

/-- Major 0x38 (R226). -/
def decodeSystem (n : Nat) : Except Reject Instr :=
  let d := rxAt n 21; let a := rxAt n 16; let b0 := zf n 11 5
  match field n 0 11 with
  | 0 => check true (.syscall (bvAt 15 n 11)) | 1 => check (zf n 21 5) (.trap a (rxAt n 11))
  | 2 => check true (.brk (bvAt 15 n 11))
  | 3 => if zf n 16 10 then check b0 .eret else check b0 (.eretThread d a)
  | 4 => check b0 (.waiti d a)
  | _ => undef

/-- Major 0x39 (R231). -/
def decodeCsr (n : Nat) : Except Reject Instr :=
  let d := rxAt n 21; let a := rxAt n 16
  let csr := fun (k : Csr → Except Reject Instr) => match Csr.ofNum (field n 0 12) with
    | some c => k c
    | none => reserved
  match field n 12 4 with
  | 0 => csr fun c => check (zf n 16 5) (.csrrd d c)
  | 1 => csr fun c => check true (.csrwr d a c)
  | 2 => csr fun c => check true (.csrset d a c)
  | 3 => csr fun c => check true (.csrclr d a c)
  | _ => undef

/-- Major 0x3A (R233). -/
def decodePriv (n : Nat) : Except Reject Instr :=
  let d := rxAt n 21; let a := rxAt n 16
  match field n 0 11 with
  | 0 => check (zf n 11 5) (.scrubCore d a) | 1 => check (zf n 15 1) (.ctxsave d a (raAt n 11))
  | 2 => check (zf n 15 1) (.ctxload d a (raAt n 11))
  | _ => undef

/-- Major 0x3B (R239). -/
def decodeLegacy (n : Nat) : Except Reject Instr :=
  match field n 0 11 with
  | 0 => check (zf n 25 1 && zf n 20 1) (.tgath1 (rtAt n 21) (raAt n 16) (rvAt n 11))
  | 1 => check true (.vdot4 (rvAt n 21) (rvAt n 16) (rvAt n 11))
  | _ => undef

/-- Major 0x3F (R84, R237). -/
def decodeHint (n : Nat) : Except Reject Instr :=
  let r := raAt n 16; let x := rxAt n 11; let l := bvAt 5 n 6
  match field n 20 6 with
  | 0 => check true (.nop (bvAt 20 n 0)) | 1 => check true (.hpref r x l (bvAt 2 n 4) (bvAt 4 n 0))
  | 2 => check true (.hstream r x l (bvAt 6 n 0)) | 3 => check true (.hevict r x l (bvAt 2 n 4) (bvAt 4 n 0))
  | 4 => check true (.hprio (bvAt 18 n 2) (bvAt 2 n 0)) | 5 => check true (.hloop (bvAt 10 n 10) (bvAt 10 n 0))
  | _ => check true (.hint (bvAt 6 n 20) (bvAt 20 n 0))

/-- The instruction of a word given as a number (R81). -/
def decodeNat (n : Nat) : Except Reject Instr :=
  let x := rxAt n 21; let a := rxAt n 16; let i := bvAt 16 n 0
  match field n 26 6 with
  | 0x01 => decodeInt n
  | 0x02 => check true (.addi x a i) | 0x03 => check true (.andi x a i) | 0x04 => check true (.ori x a i)
  | 0x05 => check true (.xori x a i) | 0x06 => check true (.slti x a i) | 0x07 => check true (.sltni x a i)
  | 0x08 => decodeShift n | 0x09 => decodeLuis n | 0x0A => decodeKld n | 0x0B => decodeField n
  | 0x0C => check true (.beq x a i) | 0x0D => check true (.bne x a i) | 0x0E => check true (.blt x a i)
  | 0x0F => check true (.bge x a i) | 0x10 => check true (.bltn x a i) | 0x11 => check true (.bgen x a i)
  | 0x12 => decodePbr n | 0x13 => check true (.jal x (bvAt 21 n 0)) | 0x14 => check true (.jalr x a i)
  | 0x15 => decodeRef n | 0x16 => decodeLoad n | 0x17 => decodeStore n | 0x18 => decodeAmo n
  | 0x19 => decodeFence n | 0x1A => decodeMessage n | 0x1B => decodeHurdle n | 0x1C => decodeCopy n
  | 0x1D => decodeTask n | 0x1E => decodeRepf n
  | 0x20 => decodeFloat n | 0x21 => decodeFused n | 0x22 => decodeCompare n | 0x23 => decodeVInt n
  | 0x24 => decodeVLogic n | 0x25 => decodePermute n | 0x26 => decodeReduce n | 0x27 => decodeConvert n
  | 0x28 => decodeScale n | 0x29 => decodeVMem n | 0x2A => decodeVMove n | 0x2B => decodePred n
  | 0x30 => decodeTMem n | 0x31 => decodeTMul n | 0x32 => decodeTSparse n | 0x33 => decodeTConv n
  | 0x34 => decodeTRow n | 0x35 => decodeRing n | 0x36 => decodeTSave n
  | 0x38 => decodeSystem n | 0x39 => decodeCsr n | 0x3A => decodePriv n | 0x3B => decodeLegacy n
  | 0x3F => decodeHint n
  | _ => undef

/-- The instruction of a word (R82 steps 2 and 4). -/
def decode (w : IWord) : Except Reject Instr := decodeNat w.toNat

/-- A privileged encoding, whatever its reserved fields hold (R74, R82 step 3, R233). -/
def privilegedWord (w : IWord) : Bool :=
  let n := w.toNat
  match field n 26 6 with
  | 0x38 => field n 0 11 == 3
  | 0x39 => decide (field n 12 4 < 4) && (decide (0x400 ≤ field n 0 12) || field n 0 12 == 0x022 || field n 0 12 == 0x023)
  | 0x3A => decide (field n 0 11 < 3)
  | _ => false

/-- The number whose bytes these are, lowest address first (R5). -/
def leWord : List Byte → Nat
  | [] => 0
  | b :: bs => b.toNat + 256 * leWord bs

/-- The instruction whose bytes these are, lowest address first (R77). -/
def decodeBytes (bs : List Byte) : Except Reject Instr := decode (BitVec.ofNat 32 (leWord (bs.take 4)))

/-- The instruction of a row of the opcode table, whose bits are `w`. -/
def decodeTableWord (nbits w : Nat) : Option Instr :=
  let v := w % 2 ^ nbits
  match decodeBytes [BitVec.ofNat 8 v, BitVec.ofNat 8 (v / 256), BitVec.ofNat 8 (v / 65536), BitVec.ofNat 8 (v / 16777216)] with
  | .ok i => some i
  | .error _ => none

/-! ### The encoder -/

/-- The formats of R78, as numbers. -/
def fR (op d a b fn : Nat) : Nat := op * 67108864 + d * 2097152 + a * 65536 + b * 2048 + fn
def fI (op d a imm : Nat) : Nat := op * 67108864 + d * 2097152 + a * 65536 + imm
def fM (op d r x imm fn : Nat) : Nat := op * 67108864 + d * 2097152 + r * 131072 + x * 4096 + imm * 32 + fn
def fA (op d r x aop s q w : Nat) : Nat :=
  op * 67108864 + d * 2097152 + r * 131072 + x * 4096 + aop * 256 + s * 32 + q * 8 + w * 4
def fV (op d a b p t i o fn : Nat) : Nat :=
  op * 67108864 + d * 2097152 + a * 65536 + b * 2048 + p * 512 + t * 32 + i * 16 + o * 8 + fn
def fVC (d a tin tout p z s r f : Nat) : Nat :=
  0x27 * 67108864 + d * 2097152 + a * 65536 + tin * 4096 + tout * 256 + p * 64 + z * 32 + s * 16 + r * 2 + f
def fT (op d a b t sub : Nat) : Nat := op * 67108864 + d * 4194304 + a * 262144 + b * 16384 + t * 1024 + sub
def fH (h args : Nat) : Nat := 0x3F * 67108864 + h * 1048576 + args

/-- A bit as a number. -/
def b1 (b : Bool) : Nat := if b then 1 else 0

/-- The word of an instruction as a number; a step of another agent has no word. -/
def Instr.word : Instr → Option Nat
  | .add d a b w => some (fR 1 d a b (b1 w * 1024)) | .sub d a b w => some (fR 1 d a b (b1 w * 1024 + 1))
  | .and d a b => some (fR 1 d a b 2) | .or d a b => some (fR 1 d a b 3) | .xor d a b => some (fR 1 d a b 4)
  | .andn d a b => some (fR 1 d a b 5) | .orn d a b => some (fR 1 d a b 6)
  | .sll d a b w => some (fR 1 d a b (b1 w * 1024 + 7)) | .srl d a b w => some (fR 1 d a b (b1 w * 1024 + 8))
  | .sra d a b w => some (fR 1 d a b (b1 w * 1024 + 9)) | .ror d a b w => some (fR 1 d a b (b1 w * 1024 + 10))
  | .slt d a b => some (fR 1 d a b 11) | .sltn d a b => some (fR 1 d a b 12)
  | .min d a b => some (fR 1 d a b 13) | .max d a b => some (fR 1 d a b 14)
  | .minn d a b => some (fR 1 d a b 15) | .maxn d a b => some (fR 1 d a b 16)
  | .mul d a b w => some (fR 1 d a b (b1 w * 1024 + 17)) | .mulh d a b => some (fR 1 d a b 18)
  | .mulhn d a b => some (fR 1 d a b 19)
  | .div d a b w => some (fR 1 d a b (b1 w * 1024 + 20)) | .divn d a b w => some (fR 1 d a b (b1 w * 1024 + 21))
  | .rem d a b w => some (fR 1 d a b (b1 w * 1024 + 22)) | .remn d a b w => some (fR 1 d a b (b1 w * 1024 + 23))
  | .clz d a w => some (fR 1 d a 0 (b1 w * 1024 + 24)) | .ctz d a w => some (fR 1 d a 0 (b1 w * 1024 + 25))
  | .popc d a w => some (fR 1 d a 0 (b1 w * 1024 + 26))
  | .sext d a s => some (fR 1 d a s.code 27) | .zext d a s => some (fR 1 d a s.code 28)
  | .sel d a b c => some (fR 1 d a b (c.val * 32 + 29))
  | .addi d a i => some (fI 2 d a i.toNat) | .andi d a i => some (fI 3 d a i.toNat)
  | .ori d a i => some (fI 4 d a i.toNat) | .xori d a i => some (fI 5 d a i.toNat)
  | .slti d a i => some (fI 6 d a i.toNat) | .sltni d a i => some (fI 7 d a i.toNat)
  | .slli d a w sh => some (fI 8 d a (b1 w * 2048 + sh.val))
  | .srli d a w sh => some (fI 8 d a (4096 + b1 w * 2048 + sh.val))
  | .srai d a w sh => some (fI 8 d a (8192 + b1 w * 2048 + sh.val))
  | .rori d a w sh => some (fI 8 d a (12288 + b1 w * 2048 + sh.val))
  | .luis d a h v => some (fI 9 d a (h.val * 4096 + v.toNat))
  | .bext d a pos len => some (fI 0x0B d a (pos.val * 64 + len.val))
  | .bins d a pos len => some (fI 0x0B d a (8192 + pos.val * 64 + len.val))
  | .kld d k => some (fI 0x0A d 0 (k.val * 8)) | .kldIndexed d a k => some (fI 0x0A d a (k.val * 8 + 1))
  | .kldRef d k => some (fI 0x0A d 0 (k.val * 16 + 2)) | .kldRefIndexed d a k => some (fI 0x0A d a (k.val * 16 + 3))
  | .beq a b i => some (fI 0x0C a b i.toNat) | .bne a b i => some (fI 0x0D a b i.toNat)
  | .blt a b i => some (fI 0x0E a b i.toNat) | .bge a b i => some (fI 0x0F a b i.toNat)
  | .bltn a b i => some (fI 0x10 a b i.toNat) | .bgen a b i => some (fI 0x11 a b i.toNat)
  | .pbrAny a g i => some (fI 0x12 a (g.val * 4) i.toNat) | .pbrAll a g i => some (fI 0x12 a (g.val * 4 + 1) i.toNat)
  | .pbrNone a g i => some (fI 0x12 a (g.val * 4 + 2) i.toNat)
  | .jal d i => some (0x13 * 67108864 + d.val * 2097152 + i.toNat) | .jalr d a i => some (fI 0x14 d a i.toNat)
  | .amov d a => some (fR 0x15 d a 0 0) | .aoff d a b s => some (fR 0x15 d a b (s.val * 32 + 1))
  | .asetf d a b => some (fR 0x15 d a b 2) | .asetb d a b => some (fR 0x15 d a b 3)
  | .ageto d a => some (fR 0x15 d a 0 4) | .agetn d a => some (fR 0x15 d a 0 5)
  | .amake d a b => some (fR 0x15 d a b 6) | .acoord d a b c => some (fR 0x15 d a b (c.val * 32 + 7))
  | .achk d a b => some (fR 0x15 d a b 8) | .aspace d a sp => some (fR 0x15 d a 0 (sp.val * 32 + 9))
  | .ld d r x i s => some (fM 0x16 d r x i.toNat s.code) | .ldn d r x i s => some (fM 0x16 d r x i.toNat (4 + s.code))
  | .lda d r x i => some (fM 0x16 d r x i.toNat 7)
  | .st d r x i s => some (fM 0x17 d r x i.toNat s.code) | .sta d r x i => some (fM 0x17 d r x i.toNat 7)
  | .amoswap d r x s q w => some (fA 0x18 d r x 0 s.code q.code (b1 w))
  | .amoadd d r x s q w => some (fA 0x18 d r x 1 s.code q.code (b1 w))
  | .amoand d r x s q w => some (fA 0x18 d r x 2 s.code q.code (b1 w))
  | .amoor d r x s q w => some (fA 0x18 d r x 3 s.code q.code (b1 w))
  | .amoxor d r x s q w => some (fA 0x18 d r x 4 s.code q.code (b1 w))
  | .amomin d r x s q w => some (fA 0x18 d r x 5 s.code q.code (b1 w))
  | .amomax d r x s q w => some (fA 0x18 d r x 6 s.code q.code (b1 w))
  | .amominn d r x s q w => some (fA 0x18 d r x 7 s.code q.code (b1 w))
  | .amomaxn d r x s q w => some (fA 0x18 d r x 8 s.code q.code (b1 w))
  | .amocas d r x s q w => some (fA 0x18 d r x 9 s.code q.code (b1 w))
  | .amofadd d r x s q w => some (fA 0x18 d r x 10 s.code q.code (b1 w))
  | .fence s q => some (fA 0x19 0 0 0 0 s.code q.code 0) | .pacq x s => some (fA 0x19 0 0 x 1 s.code 1 0)
  | .hdrain s => some (fA 0x19 0 0 0 2 s.code 0 0)
  | .msend a b => some (fR 0x1A 0 a b 0) | .msendv v a b => some (fR 0x1A v a b 1)
  | .msenda a b => some (fR 0x1A 0 a b 2) | .mrecv d v => some (fR 0x1A d 0 v 3) | .mwait d a => some (fR 0x1A d a 0 4)
  | .mpeek d => some (fR 0x1A d 0 0 5) | .mcount d => some (fR 0x1A d 0 0 6)
  | .hurdle h s => some (fR 0x1B 0 0 0 (h.val * 64 + s.code * 8))
  | .harrive d h s => some (fR 0x1B d 0 0 (h.val * 64 + s.code * 8 + 1))
  | .hwait a h s => some (fR 0x1B 0 a 0 (h.val * 64 + s.code * 8 + 2))
  | .htest d a h s => some (fR 0x1B d a 0 (h.val * 64 + s.code * 8 + 3))
  | .xphase d => some (fR 0x1B d 0 0 4) | .xphaseWait d a => some (fR 0x1B d a 0 4) | .xsend d a b => some (fR 0x1B d a b 5)
  | .cpsetSrc a => some (fR 0x1C 0 a 0 0) | .cpsetDst a => some (fR 0x1C 0 a 0 1) | .cpgo d b => some (fR 0x1C d 0 b 2)
  | .cpwp d a => some (fR 0x1C d a 0 3) | .cpstat d a => some (fR 0x1C d a 0 4) | .cpcancel a => some (fR 0x1C 0 a 0 5)
  | .spawn a => some (fR 0x1D 0 a 0 0) | .tqget d => some (fR 0x1D d 0 0 1) | .gatedec a b => some (fR 0x1D 0 a b 2)
  | .tqdone => some (fR 0x1D 0 0 0 3)
  | .repf c l k sd sa sb =>
    some (fI 0x1E 0 0 (c.val * 4096 + l.val * 512 + k.val * 128 + b1 sd * 64 + b1 sa * 32 + b1 sb * 16))
  | .vadd d a b p t i o => some (fV 0x20 d a b p t.code (b1 i) (b1 o) 0)
  | .vsub d a b p t i o => some (fV 0x20 d a b p t.code (b1 i) (b1 o) 1)
  | .vmul d a b p t i o => some (fV 0x20 d a b p t.code (b1 i) (b1 o) 2)
  | .vmin d a b p t i o => some (fV 0x20 d a b p t.code (b1 i) (b1 o) 3)
  | .vmax d a b p t i o => some (fV 0x20 d a b p t.code (b1 i) (b1 o) 4)
  | .vabd d a b p t i o => some (fV 0x20 d a b p t.code (b1 i) (b1 o) 5)
  | .vaddmin d a b p t i o => some (fV 0x20 d a b p t.code (b1 i) (b1 o) 6)
  | .vcopysign d a b p t i o => some (fV 0x20 d a b p t.code (b1 i) (b1 o) 7)
  | .vfma d a b p t i o => some (fV 0x21 d a b p t.code (b1 i) (b1 o) 0)
  | .vfms d a b p t i o => some (fV 0x21 d a b p t.code (b1 i) (b1 o) 1)
  | .vfnma d a b p t i o => some (fV 0x21 d a b p t.code (b1 i) (b1 o) 2)
  | .vfnms d a b p t i o => some (fV 0x21 d a b p t.code (b1 i) (b1 o) 3)
  | .vdiv d a b p t i o => some (fV 0x21 d a b p t.code (b1 i) (b1 o) 4)
  | .vsqrt d a p t i o => some (fV 0x21 d a 0 p t.code (b1 i) (b1 o) 5)
  | .vrcpe d a p t i o => some (fV 0x21 d a 0 p t.code (b1 i) (b1 o) 6)
  | .vrsqe d a p t i o => some (fV 0x21 d a 0 p t.code (b1 i) (b1 o) 7)
  | .vceq d a b p t i => some (fV 0x22 d a b p t.code (b1 i) 0 0) | .vcne d a b p t i => some (fV 0x22 d a b p t.code (b1 i) 0 1)
  | .vclt d a b p t i => some (fV 0x22 d a b p t.code (b1 i) 0 2) | .vcle d a b p t i => some (fV 0x22 d a b p t.code (b1 i) 0 3)
  | .vcgt d a b p t i => some (fV 0x22 d a b p t.code (b1 i) 0 4) | .vcge d a b p t i => some (fV 0x22 d a b p t.code (b1 i) 0 5)
  | .vcun d a b p t i => some (fV 0x22 d a b p t.code (b1 i) 0 6)
  | .vclass d a m p t i => some (fV 0x22 d a m.toNat p t.code (b1 i) 0 7)
  | .viadd d a b p t => some (fV 0x23 d a b p t.code 0 0 0) | .visub d a b p t => some (fV 0x23 d a b p t.code 0 0 1)
  | .vimul d a b p t => some (fV 0x23 d a b p t.code 0 0 2) | .vimulh d a b p t => some (fV 0x23 d a b p t.code 0 0 3)
  | .vimin d a b p t => some (fV 0x23 d a b p t.code 0 0 4) | .vimax d a b p t => some (fV 0x23 d a b p t.code 0 0 5)
  | .viaddmin d a b p t => some (fV 0x23 d a b p t.code 0 0 6) | .viabs d a p t => some (fV 0x23 d a 0 p t.code 0 0 7)
  | .vand d a b p t => some (fV 0x24 d a b p t.code 0 0 0) | .vor d a b p t => some (fV 0x24 d a b p t.code 0 0 1)
  | .vxor d a b p t => some (fV 0x24 d a b p t.code 0 0 2) | .vandn d a b p t => some (fV 0x24 d a b p t.code 0 0 3)
  | .vsll d a b p t => some (fV 0x24 d a b p t.code 0 0 4) | .vsrl d a b p t => some (fV 0x24 d a b p t.code 0 0 5)
  | .vsra d a b p t => some (fV 0x24 d a b p t.code 0 0 6) | .vsel d a b p t => some (fV 0x24 d a b p t.code 0 0 7)
  | .vshup d a b p t => some (fV 0x25 d a b p t.code 0 0 0) | .vshdn d a b p t => some (fV 0x25 d a b p t.code 0 0 1)
  | .vbcl d a b p t => some (fV 0x25 d a b p t.code 0 0 2) | .vperm d a b p t => some (fV 0x25 d a b p t.code 0 0 3)
  | .vzip d a b p t h => some (fV 0x25 d a b p t.code 0 (b1 h) 4) | .vuzp d a b p t h => some (fV 0x25 d a b p t.code 0 (b1 h) 5)
  | .vrev d a p t => some (fV 0x25 d a 0 p t.code 0 0 6) | .vcompr d a p t => some (fV 0x25 d a 0 p t.code 0 0 7)
  | .vrsum d a p t i => some (fV 0x26 d a 0 p t.code (b1 i) 0 0)
  | .vrsumo d a b p t i => some (fV 0x26 d a b p t.code (b1 i) 0 1)
  | .vrmax d a p t i => some (fV 0x26 d a 0 p t.code (b1 i) 0 2) | .vrmin d a p t i => some (fV 0x26 d a 0 p t.code (b1 i) 0 3)
  | .vrand d a p t => some (fV 0x26 d a 0 p t.code 0 0 4) | .vror d a p t => some (fV 0x26 d a 0 p t.code 0 0 5)
  | .vrcnt d a p t i => some (fV 0x26 d a 0 p t.code (b1 i) 0 6)
  | .vcvt d a tin tout p z s r f => some (fVC d a tin.code tout.code p (b1 z) (b1 s) r.code (b1 f))
  | .vrnd d a t p z r f => some (fVC d a t.code t.code p (b1 z) 0 r.code (b1 f))
  | .vqnt d a b p t i o => some (fV 0x28 d a b p t.code (b1 i) (b1 o) 0)
  | .vdqnt d a b p t i o => some (fV 0x28 d a b p t.code (b1 i) (b1 o) 1)
  | .vscale d a b p t i o => some (fV 0x28 d a b p t.code (b1 i) (b1 o) 2)
  | .vld d r x i p => some (fM 0x29 d r x i.toNat (p.val * 8)) | .vst d r x i p => some (fM 0x29 d r x i.toNat (p.val * 8 + 1))
  | .vlds d r x i p => some (fM 0x29 d r x i.toNat (p.val * 8 + 2)) | .vsts d r x i p => some (fM 0x29 d r x i.toNat (p.val * 8 + 3))
  | .vldg d r x i p => some (fM 0x29 d r x i.toNat (p.val * 8 + 4)) | .vstg d r x i p => some (fM 0x29 d r x i.toNat (p.val * 8 + 5))
  | .vldb d r x i p => some (fM 0x29 d r x i.toNat (p.val * 8 + 6)) | .vldff d r x i p => some (fM 0x29 d r x i.toNat (p.val * 8 + 7))
  | .vmovx d a b t => some (fV 0x2A d a b 0 t.code 0 0 0) | .vxmov d a b t => some (fV 0x2A d a b 0 t.code 0 0 1)
  | .vsplat d a p t => some (fV 0x2A d a 0 p t.code 0 0 2)
  | .vsplatk d k p t => some (0x2A * 67108864 + d.val * 2097152 + k.val * 8192 + p.val * 512 + t.code * 32 + 3)
  | .vidx d a b p t => some (fV 0x2A d a b p t.code 0 0 4) | .vwhile d a b t => some (fV 0x2A d a b 0 t.code 0 0 5)
  | .vgetl d a t => some (fV 0x2A d a 0 0 t.code 0 0 6)
  | .pand d a b => some (fV 0x2B d a b 0 0 0 0 0) | .por d a b => some (fV 0x2B d a b 0 0 0 0 1)
  | .pxor d a b => some (fV 0x2B d a b 0 0 0 0 2) | .pnot d a => some (fV 0x2B d a 0 0 0 0 0 3)
  | .pcnt d a p t => some (fV 0x2B d a 0 p t.code 0 0 4) | .pfirst d a p t => some (fV 0x2B d a 0 p t.code 0 0 5)
  | .pset d a t => some (fV 0x2B d a 0 0 t.code 0 0 6) | .pmov d a => some (fV 0x2B d a 0 0 0 0 0 7)
  | .tld d a u r c => some (fT 0x30 d a (b1 u) 0 (r.val * 32 + c.val)) | .tst d a u r c => some (fT 0x30 d a (b1 u) 1 (r.val * 32 + c.val))
  | .tzero d => some (fT 0x30 d 0 0 2 0) | .tmov d a => some (fT 0x30 d a 0 3 0)
  | .tfill d k x => some (fT 0x30 d 0 k.code 4 (x.val * 32))
  | .tmma d a b t i y o z => some (fT 0x31 d a b t.code (b1 i * 8 + b1 y * 4 + b1 o * 2 + b1 z))
  | .tmmat d a b t i y o z => some (fT 0x31 d a b t.code (256 + b1 i * 8 + b1 y * 4 + b1 o * 2 + b1 z))
  | .tmmax d a b t tb i y o z => some (fT 0x31 d a b t.code (512 + tb.code * 16 + b1 i * 8 + b1 y * 4 + b1 o * 2 + b1 z))
  | .tmmas d a b m t nm i y o z =>
    some (fT 0x32 d a b t.code (m.val * 64 + nm.code * 16 + b1 i * 8 + b1 y * 4 + b1 o * 2 + b1 z))
  | .tcvt d a tout tin r s z f p => some (fT 0x33 d a tout.code tin.code (r.code * 32 + b1 s * 16 + b1 z * 8 + b1 f * 4 + p.val))
  | .tqnt d a bl t r s z f p => some (fT 0x33 d a bl t.code (256 + r.code * 32 + b1 s * 16 + b1 z * 8 + b1 f * 4 + p.val))
  | .tscl d a b t r z f m => some (fT 0x33 d a b t.code (512 + r.code * 32 + b1 z * 8 + b1 f * 4 + m.code))
  | .tadd d a b t r z f => some (fT 0x33 d a b t.code (768 + r.code * 32 + b1 z * 8 + b1 f * 4))
  | .trdr a k v => some (fT 0x34 0 a 0 0 (k.val * 32 + v.val)) | .twrr d k v => some (fT 0x34 d 0 1 0 (k.val * 32 + v.val))
  | .trdc a t k v => some (fT 0x34 0 a 2 t.code (k.val * 32 + v.val)) | .twrc d t k v => some (fT 0x34 d 0 3 t.code (k.val * 32 + v.val))
  | .ttrn d a t => some (fT 0x34 d a 4 t.code 0)
  | .tring d a => some (fT 0x35 d a 0 0 0) | .tringS a => some (fT 0x35 0 a 0 1 0) | .tringR d => some (fT 0x35 d 0 0 2 0)
  | .trjoin h a d => some (fT 0x35 h 0 0 3 (a.val * 32 + d.val)) | .trstat h d => some (fT 0x35 h 0 0 4 d.val)
  | .tsave h a m => some (fT 0x36 (h.val * 8) a 0 0 m.toNat) | .trstr h a m => some (fT 0x36 (h.val * 8) a 0 1 m.toNat)
  | .trel h m => some (fT 0x36 (h.val * 8) 0 0 2 m.toNat)
  | .syscall c => some (0x38 * 67108864 + c.toNat * 2048) | .trap a b => some (fR 0x38 0 a b 1)
  | .brk c => some (0x38 * 67108864 + c.toNat * 2048 + 2)
  | .eret => some (fR 0x38 0 0 0 3) | .eretThread d a => some (fR 0x38 d a 0 3) | .waiti d a => some (fR 0x38 d a 0 4)
  | .csrrd d c => some (fI 0x39 d 0 c.num) | .csrwr d a c => some (fI 0x39 d a (4096 + c.num))
  | .csrset d a c => some (fI 0x39 d a (8192 + c.num)) | .csrclr d a c => some (fI 0x39 d a (12288 + c.num))
  | .scrubCore d a => some (fR 0x3A d a 0 0) | .scrubQuad d a => some (fR 0x3A d a 0 0)
  | .scrubSection d a => some (fR 0x3A d a 0 0) | .scrubQuadShare d a => some (fR 0x3A d a 0 0)
  | .ctxsave d a b => some (fR 0x3A d a b 1) | .ctxload d a b => some (fR 0x3A d a b 2)
  | .tgath1 d a b => some (fR 0x3B d a b 0) | .vdot4 d a b => some (fR 0x3B d a b 1)
  | .nop g => some (fH 0 g.toNat)
  | .hpref r x l v g => some (fH 1 (r.val * 65536 + x.val * 2048 + l.toNat * 64 + v.toNat * 16 + g.toNat))
  | .hstream r x l g => some (fH 2 (r.val * 65536 + x.val * 2048 + l.toNat * 64 + g.toNat))
  | .hevict r x l v g => some (fH 3 (r.val * 65536 + x.val * 2048 + l.toNat * 64 + v.toNat * 16 + g.toNat))
  | .hprio g n => some (fH 4 (g.toNat * 4 + n.toNat)) | .hloop c d => some (fH 5 (c.toNat * 1024 + d.toNat))
  | .hint h g => some (fH h.toNat g.toNat)
  | _ => none

/-- The word of an instruction that has one (R77, R78). -/
def encode (i : Instr) : Option IWord := i.word.map (BitVec.ofNat 32)

end Sys2Proof
end

