-- ==== Sys2Proof/Machine/State.lean ====
section
/-! DEFINITION. Everything the manual gives the machine, as plain data, and its value right after module reset. -/

namespace Sys2Proof.Machine

/-- Why a step stops the model. -/
inductive Fault where
  /-- A record table or residency map whose physical address is no populated storage (R308, R333): the manual does
  not say what such a read returns. Raised by the translation. Safe: the model stops. -/
  | unpopulated (addr : Nat)
  deriving DecidableEq, Repr

/-- Why an instruction has no meaning here. -/
inductive Refusal where
  /-- An arm of exec without a meaning yet. Safe: the model stops. -/
  | notModelled (mnemonic : String)
  deriving DecidableEq, Repr

/-- Memory: the bytes that are not zero, by rising address. One address space holds the physical addresses of the
package (R26, R333) and, above them, each on-die store in a place of its own (see Ops). -/
abbrev Memory := List Host.Cell

/-- A map from numbers to records, by rising number. -/
abbrev Table (α : Type) := List (Nat × α)

/-- A live tile: data, scale side, tag, and the physical tile that holds it (R150, R154). -/
structure Tile where
  data : BitVec 32768
  scale : BitVec 4096
  tag : Nat
  phys : Nat
  deriving DecidableEq, Repr

/-- A message: its header (R199), its payload (eight words or one vector register), who sent it, and whether it came
from outside the receiver's quad (R245). `seq` numbers arrivals. -/
structure Message where
  header : Word
  payload : VReg
  sender : Party
  /-- the scope at which dequeuing it acquires (R290) -/
  scope : Scope
  outside : Bool
  seq : Nat
  /-- which start of a thread the sender is, so that an answer reaches no later thread of its rank (R201) -/
  born : Nat
  deriving DecidableEq, Repr

/-- What a residency or poison fault is about, which the firmware finds from the trap record (R320): object, byte offset, and
the generation of the reference that a residency fault met. -/
structure Miss where
  obj : Nat
  off : Nat
  gen : Nat := 0
  deriving DecidableEq, Repr

/-- What a thread is doing (R222, R229, R256, R263, R265, R357, R368). -/
inductive RunState where
  /-- no thread was ever started in the context -/
  | never
  /-- fetching and executing -/
  | running
  /-- stopped at a fault whose trap record is still held -/
  | trapped
  /-- its trap record has been released to the service core -/
  | service
  /-- stopped by the service core: switch, move, halt or replay -/
  | stopped
  | ended
  deriving DecidableEq, Repr

/-- What a thread that waits for a hurdle generation does at its completion: nothing more, write the generation of a
phase (R207), or write 1 (`htest` in replay mode, R385). -/
inductive HurdleEnd where
  | plain
  | phase (d : Rx)
  | test (d : Rx)
  deriving DecidableEq, Repr

/-- An instruction that has begun and not retired. Deadlines are cycle numbers. -/
inductive Wait where
  | none
  | mwait (d : Rx) (deadline : Option Nat)
  | waiti (d : Rx) (deadline : Option Nat)
  /-- retires when this generation of the domain and level is complete -/
  | hurdle (dom : Fin 4) (lvl : Scope) (gen : Nat) (fin : HurdleEnd)
  | phase (d : Rx) (value : Nat)
  /-- the promoting acquire: entries of the named quad below this number must have become visible -/
  | pacq (quad bound : Nat) (sc : Scope)
  deriving DecidableEq, Repr

/-- A thread's current task (R219). -/
structure CurTask where
  entry : Nat
  done : Nat
  deriving DecidableEq, Repr

/-- The registers a held request writes (R186). -/
inductive DestReg where
  | x (d : Rx) | a (d : Ra) | v (d : Rv) | t (d : Rt)
  deriving DecidableEq, Repr

/-- The state of one hardware thread (03 R58; 07; 08; 10). -/
structure Thread where
  x : Vector Word 32
  a : Vector Ref 16
  v : Vector VReg 32
  p : Vector PReg 8
  t : Vector (Option Tile) 16
  /-- offset of the instruction to run; it keeps 64 bits so that a jump beyond 44 bits is seen by its fetch (R111) -/
  pc : Word
  fcsr : Word
  cpsrc : Ref
  cpdst : Ref
  cplen : Word
  cpshape : Word
  cpstride : Word
  cpmode : Word
  /-- `cplaunch` ENG (R209) -/
  cpeng : BitVec 2
  /-- sequence number of the next `cpgo` (R211) -/
  cpseq : BitVec 16
  fcause : Word
  faddr : Word
  fstep : Word
  finfo : Word
  epc : Word
  /-- poison marks of the registers, with the object, if it was one, and the offset of the held request that set each
  (R187, R379) -/
  poison : List (DestReg × Option Nat × Word)
  /-- registers that a held request will write, with the number of its hold entry (R186) -/
  pend : List (DestReg × Nat)
  /-- numbers of the `tqget` requests whose replies have not come (R219) -/
  tq : List Nat
  /-- the fault record that a residency fault in service has replaced: `fcause` to `epc` (R223) -/
  before : List Word
  /-- level: user or privileged (08) -/
  privileged : Bool
  run : RunState
  wait : Wait
  /-- the wake bit (R204) -/
  wake : Bool
  /-- event latch, bits 2:1 of R230 -/
  latch : BitVec 2
  /-- arrival counts of domain D at level L, at 6D + L − 1 (R206, R358) -/
  counts : Vector Nat 24
  /-- arrivals that have reached the hurdle network: released ones at section or wider (R184) -/
  signalled : Vector Nat 24
  task : Option CurTask
  hprio : BitVec 2
  /-- single-step bit, and a step fault due before the next instruction (R369) -/
  stepBit : Bool
  stepDue : Bool
  /-- a reserved-operand fault due before the next instruction: an entry record has a reserved bit (R262) -/
  entryBad : Bool
  /-- the gang and rank of the context (R260) and the entry at which the thread started (R367) -/
  gang : Nat
  rank : Nat
  entry : Nat
  inbox : List Message
  overflow : List Message
  spill : List Message
  /-- messages that entered the inbox from outside the quad, kept for a recall (R245) -/
  arrivals : List Message
  /-- a release at section or wider: the next held entry waits for older entries of the quad (R287) -/
  relMark : Option Nat
  /-- an acquire: younger loads wait for held requests below the first number and for held stores below the second
  (R195, R284) -/
  loadAfter : Nat
  loadAfterStores : Nat
  /-- the cycle of the newest own write to spaces 1 and 2, and the cycle from which younger loads may go on (R284) -/
  ownAt : Option Nat
  loadFrom : Nat
  /-- a release fence at section or wider: own writes to spaces 1 and 2 wait for the quad's entries below this number
  (R284 to R286) -/
  storeAfter : Nat
  /-- acquires whose older requests have not returned: their bounds and scopes (R195, R296) -/
  acqWaits : List (Nat × Scope)
  /-- cycle of the newest acquire at each scope level or wider (R296) -/
  acquires : Vector Nat 8
  /-- cycle at which the thread stopped (R256), or began its wait at a hurdle (R385) or for the phase clock -/
  stoppedAt : Nat
  /-- requests that the instruction in progress has started (R355) -/
  paid : Nat
  /-- what its residency or poison fault is about -/
  miss : Option Miss
  /-- the service core has begun this thread's system call, and waits for a change to be in force (R363) -/
  inCall : Bool
  /-- the Hjelwa request that the thread's instruction makes gets no response within TOUT (R392) -/
  late : Bool
  /-- events from outside the quad, newest first, by number: bit 0 the wake bit, bits 2:1 the latch (R245) -/
  events : List (Nat × BitVec 3)
  /-- which start of a thread this is, so that handles of an older thread name nothing (R263; the model's own) -/
  born : Nat
  deriving DecidableEq, Repr

/-- How the bytes of one access are encrypted: slot, object, block and the block's storage, and the package whose slot it
is for a block that another package holds (R341). -/
structure Crypt where
  home : Option Nat
  slot : Nat
  obj : Nat
  block : Nat
  base : Nat
  deriving DecidableEq, Repr

/-- Where one byte of an access lies: its address in Memory, its key if stored encrypted, and what names it. -/
structure Loc where
  key : Nat
  crypt : Option Crypt
  /-- the block has DMG set (R330) -/
  dmg : Bool
  /-- space, object number and byte offset, for logs and traces (R295, R378) -/
  space : Nat
  obj : Nat
  off : Nat
  deriving DecidableEq, Repr

/-- Bits written to one byte: those of the mask (an l6 element shares bytes with its neighbours, R36). -/
structure WByte where
  loc : Loc
  val : Byte
  mask : Byte
  deriving DecidableEq, Repr

/-- The part of a loaded byte that goes to a register: `len` bits from bit `lo`, to bit `pos`. -/
structure Piece where
  loc : Loc
  lo : Nat
  len : Nat
  pos : Nat
  deriving DecidableEq, Repr

/-- The operations of major 0x18 (R191). -/
inductive AmoOp where
  | swap | add | and | or | xor | min | max | minn | maxn | cas | fadd
  deriving DecidableEq, Repr

/-- How the bytes that a held load returns become the register's value. -/
inductive LoadForm where
  | signed (bytes : Nat)
  | unsigned (bytes : Nat)
  | whole
  deriving DecidableEq, Repr

/-- A task of a die queue (R218, R350). -/
structure Task where
  control : Word
  payload : BitVec 512
  feat : Nat
  /-- the task's gate has reached 0 since it was pushed (R350) -/
  eligible : Bool
  /-- the scope at which taking it acquires (R290) -/
  scope : Scope
  /-- its place in the order of age (R352, R367) -/
  age : Nat
  deriving DecidableEq, Repr

/-- A message's destination and content before delivery. -/
structure Outgoing where
  gang : Nat
  rank : Nat
  msg : Message
  deriving DecidableEq, Repr

/-- A start message (R202). -/
structure StartMsg where
  gang : Nat
  pos : Nat
  entry : Nat
  payload : BitVec 512
  sender : Party
  /-- the sender's header, returned by a KIND 3 answer -/
  tag : Nat
  /-- which start of a thread the sender is (R201) -/
  born : Nat
  deriving DecidableEq, Repr

/-- A tile image on the ring: data, scale side, tag (R174). -/
structure TileImage where
  data : BitVec 32768
  scale : BitVec 4096
  tag : Nat
  deriving DecidableEq, Repr

/-- A copy transfer (R209 to R216). `done` counts destination bytes, and `ptr` is the write pointer. -/
structure Transfer where
  handle : Word
  /-- `born` of the thread that launched it -/
  owner : Nat
  gang : Nat
  rank : Nat
  core : Nat
  eng : Nat
  kind : Nat
  ty : Nat
  scope : Nat
  notify : Bool
  tag : Nat
  src : Ref
  dst : Ref
  len : Nat
  rows : Nat
  rowb : Nat
  sstr : Nat
  dstr : Nat
  /-- destination bytes written; the write pointer (R213) -/
  done : Nat
  /-- STATE and CAUSE of `cpstat` (R214) -/
  state : Nat
  cause : Nat
  /-- what its fault is about (R215) -/
  miss : Option Miss
  /-- flags gathered by a finalise (R216) -/
  flags : Nat
  /-- memory and the section's heat store buffer as they stood at release, for an overlapping copy (R212) -/
  snap : Option (Memory × List (Loc × Byte))
  /-- a cancel has reached the engine: no unit that begins at or above this count starts (R215) -/
  stopAt : Option Nat
  /-- a halt group pauses it (R368) -/
  paused : Bool
  /-- the heat in which it was launched (R388) -/
  heat : Nat
  /-- its end has set the thread's latch bit (R230), and its completion has been produced -/
  latched : Bool
  completed : Bool
  /-- requests of the next part already started (R355) -/
  paid : Nat
  /-- the cycle of its launch or of its last part -/
  workedAt : Nat
  /-- the destination count once the units of the last part that wait at a bank have applied (R213, R292) -/
  arriving : Option Nat
  /-- destination lines that a replay-mode transfer has written, each of which returns its count once (R386) -/
  wrote : List Nat
  deriving DecidableEq, Repr

/-- The destination of a ring join as one endpoint holds it (R174, R176). -/
structure Join where
  owner : Nat
  mask : Nat
  deriving DecidableEq, Repr

/-- A held effect (R247). -/
inductive HeldEffect where
  /-- the access units of a store, each the bytes of one single-copy-atomic unit (R279) -/
  | store (units : List (List WByte))
  | amo (op : AmoOp) (locs : List Loc) (w : Bool) (operand old : Word) (dest : Rx)
  | loadSE (locs : List Loc) (form : LoadForm) (dest : DestReg)
  /-- element loads from a side-effect object, and the register's bits that they leave (R184) -/
  | loadElems (ps : List Piece) (keep : Nat) (dest : DestReg)
  /-- `trstr` from a side-effect object: the header's bytes, and those of each named tile (R182, R184) -/
  | loadImage (header : List Loc) (tiles : List (Rt × List Loc))
  | message (m : Outgoing)
  | start (m : StartMsg)
  | arrive (dom : Fin 4) (lvl : Scope)
  | xsend (dest : List Loc) (data : List Byte)
  | launch (t : Transfer)
  | cancel (owner : Nat) (handle : Word)
  | spawn (die : Nat) (t : Task)
  | gatedec (gate : Nat) (delta : BitVec 32) (sc : Scope)
  | tqdone
  | tqget (dest : Rx)
  | ringSend (eng : Nat) (img : TileImage)
  | ringCredit (eng : Nat) (slot : Nat)
  | ringJoin (eng : Nat) (j : Option Join)
  | trap
  deriving DecidableEq, Repr

/-- An entry of a hold buffer: its place in the quad's retirement order, the cycle it retired in, its thread, the
physical tiles it names (engine, tile), and the entries it must wait for (R185, R248, R287). -/
structure HoldEntry where
  seq : Nat
  cycle : Nat
  tid : Nat
  after : Nat
  tiles : List (Nat × Nat)
  effect : HeldEffect
  /-- requests of the release already started (R355) -/
  paid : Nat
  /-- the thread's older requests below this number are performed before it: they were followed by an acquire (R283) -/
  acq : Nat
  /-- lines that the effect has taken from its quad's quota (R386) -/
  took : List Nat
  deriving DecidableEq, Repr

/-- A reply of a performed held request (R186): the values of its registers, and its poison, with the object
and offset that the marks name (R187, R379). -/
structure Reply where
  seq : Nat
  tid : Nat
  writes : List (DestReg × Nat)
  poisoned : Bool
  addr : Word
  obj : Option Nat
  task : Option CurTask
  /-- the reply finds a reserved bit in an entry record (R262) -/
  bad : Bool
  /-- the scope at which the reply acquires (R290) -/
  scope : Scope
  /-- the cycle at which the registers were written; the reply is kept W cycles more -/
  written : Option Nat
  deriving DecidableEq, Repr

/-- One byte of a write journal: the cycle of an own write, its place among the hold entries' numbers, the address and the
old byte (R254). -/
structure JournalByte where
  cycle : Nat
  seq : Nat
  key : Nat
  old : Byte
  deriving DecidableEq, Repr

/-- State of one core that is no thread's (R22, R75, R247, R254, R275). -/
structure Core where
  hold : List HoldEntry
  replies : List Reply
  /-- the thread whose instruction waits for hold-buffer entries, which freed entries go to first, and the cycle of its
  last try (R249) -/
  claim : Option (Nat × Nat)
  /-- `lmsplit` L1 (R267) -/
  lmsplit : BitVec 2
  journal : List JournalByte
  /-- cycle at which the phase clock read 0; none before the first phase (R207) -/
  phase : Option Nat
  /-- the cycle of the newest release (R248) -/
  released : Option Nat
  /-- contexts being zeroed: slot, the cycle of the assignment, and the message to start with (R263) -/
  starting : List (Nat × Nat × StartMsg)
  deriving DecidableEq, Repr

/-- A tile in a receive slot, its sender's ring position, and the receive that consumed it (R174, R177). -/
structure RingSlot where
  num : Nat
  img : TileImage
  sender : Nat
  consumed : Bool
  deriving DecidableEq, Repr

/-- A superseded physical tile that waits for its late free (R154, R246). -/
structure LateTile where
  phys : Nat
  cycle : Nat
  splitAt : Option Nat
  deriving DecidableEq, Repr

/-- A thread that waits for physical tiles: the cycle of its last try, how many it needs, and how many it has been granted
(R154). -/
structure TileWait where
  tid : Nat
  last : Nat
  need : Nat
  got : Nat
  deriving DecidableEq, Repr

/-- A tile engine: its ring endpoint and its rename pool (R154, R174). -/
structure Engine where
  /-- the joined thread as the quad's retired instructions left it, and as the ring sees it (R176) -/
  view : Option Join
  ring : Option Join
  /-- credits toward the successor, as the thread sees them and as the ring holds them -/
  credits : Nat
  slots : List RingSlot
  nextSlot : Nat
  foreign : Bool
  /-- tiles on their way to this endpoint: sender's position and image -/
  arriving : List (Nat × TileImage)
  late : List LateTile
  /-- threads that wait for physical tiles, and the slot of the quad that is first in the next grant (R154) -/
  waiting : List TileWait
  turn : Nat
  /-- a cycle, and the free tiles at its start, from the first change of the pool in it on (R155) -/
  snap : Option (Nat × Nat)
  /-- leaves by the end or move of a thread: its number, the bound of its older held effects, and the cycle (R265) -/
  leaves : List (Nat × Nat × Nat)
  deriving DecidableEq, Repr

/-- A report of a strike: sensor and estimated cycle (R251), and the cycle in which it came. -/
structure Strike where
  sensor : Nat
  estimate : Nat
  cycle : Nat
  deriving DecidableEq, Repr

/-- What the service core is told of a report that a recall has resolved: quad, sensor, estimate, the target's cycle, and the
length of steps 1 to 4 (R253). -/
structure RecallRec where
  quad : Nat
  sensor : Nat
  estimate : Nat
  target : Nat
  length : Nat
  deriving DecidableEq, Repr

/-- The recall controller's sequence (R252, R253, R257). -/
inductive RecallPhase where
  | idle
  /-- frozen and draining toward the split of this cycle -/
  | draining (target : Nat) (since : Nat)
  /-- restored; the first cycle of the seal -/
  | sealing (target : Nat) (since : Nat)
  /-- sealed; the cycle in which fetch restarts -/
  | resuming (target : Nat) (since : Nat)
  /-- a containment loss: the quad stays frozen (R382) -/
  | lost
  deriving DecidableEq, Repr

/-- A hurdle generation's key: domain, scope level, instance of the level (R206). -/
structure GenKey where
  dom : Nat
  lvl : Nat
  inst : Nat
  deriving DecidableEq, Repr

/-- A split: the retired state of the quad's threads and of its endpoints at the end of a cycle (R245). -/
structure Split where
  cycle : Nat
  /-- number of the next hold entry at the split -/
  seq : Nat
  threads : Table Thread
  views : List (Option Join)
  /-- completed generations at core and quad scope, by gang -/
  gens : List (Nat × GenKey × Nat)
  deriving DecidableEq, Repr

/-- A write or atomic from outside that waits at a bank of the quad (R292): the core, thread and number of its hold
entry, its gang and rank, its trace kind (R295), and the effect. -/
structure OutsideWrite where
  core : Nat
  seq : Nat
  tid : Nat
  gang : Nat
  rank : Option Nat
  kind : Nat
  effect : HeldEffect
  /-- the cycle in which its instruction retired (R282, R296) -/
  retired : Nat
  /-- owner, handle and unit number of a copy transfer's write (R215) -/
  copy : Option (Nat × Word × Nat)
  deriving DecidableEq, Repr

/-- State of one quad (R15, R75, R245, R251, R254, R355, R386). -/
structure Quad where
  splits : List Split
  /-- the cycle of the next split; 0 for the first multiple of 32 (R245) -/
  nextSplit : Nat
  recallcnt : Word
  phase : RecallPhase
  reports : List Strike
  journal : List JournalByte
  /-- `vpool` POOL (R269) -/
  vpool : Bool
  engines : Vector Engine 2
  outside : List OutsideWrite
  /-- own writes to bytes of the quad that an effect still held, and older, writes too: number and address (R280) -/
  overs : List (Nat × Nat)
  /-- the epoch LEFT belongs to, and LEFT (R354) -/
  epoch : Nat
  left : Nat
  /-- lines of the heat store buffer the quad has taken (R386) -/
  quota : Nat
  deriving DecidableEq, Repr

/-- A record of the trace ring: 128 bits (R295). -/
abbrev TraceRec := BitVec 128

/-- A watched line: its address and the gang that armed it (R295, R363). -/
structure Watch where
  gang : Nat
  line : Nat
  deriving DecidableEq, Repr

/-- An error record of 256 bits (R378). -/
abbrev LogRec := BitVec 256

/-- State of one section (R75, R209, R268, R295, R378, R384). -/
structure Section where
  /-- `smsplit` L2 (R268) -/
  smsplit : BitVec 4
  transfers : List Transfer
  watches : Table Watch
  trace : List TraceRec
  /-- records appended since reset, which numbers the ring's newest record -/
  log : List LogRec
  /-- the reports that recalls have resolved, newest first, as far as the log keeps records (R253) -/
  recalls : List RecallRec
  /-- the heat store buffer: buffered bytes and the quad that wrote their line (R384, R386) -/
  heatBuf : List (Loc × Byte)
  heatLines : List (Nat × Nat)
  deriving DecidableEq, Repr

/-- One die queue and its selection count (R350, R352). -/
structure DieQueue where
  tasks : List Task
  selections : Nat
  deriving DecidableEq, Repr

/-- The slot table: period, and items (position, first cycle, last cycle) (R91). -/
structure Slots where
  period : Nat
  items : List (Nat × Nat × Nat)
  deriving DecidableEq, Repr

/-- A halt group: rank ranges, ENG, whether it is defined and whether it is halted (R368). -/
structure HaltGroup where
  ranges : List (Nat × Nat)
  eng : Bool
  halted : Bool
  deriving DecidableEq, Repr

/-- What a heat checkpoint holds (R385): contexts by rank, task areas, endpoints by place in the gang (a joined thread is
named by its rank), the phase clock's value, and the excused ranks. -/
structure Checkpoint where
  threads : Table Thread
  queues : Table DieQueue
  gates : Table (BitVec 32 × Scope)
  engines : List Engine
  clock : Option Nat
  excused : List Nat
  /-- the completed generations and the start queues -/
  gens : List (GenKey × Nat)
  starts : Table (List StartMsg)
  deriving DecidableEq, Repr

/-- A line of a gang's on-die stores as it stood at the first write of the heat (R383). -/
structure HeatOld where
  key : Nat
  old : Byte
  deriving DecidableEq, Repr

/-- An access that the race detector remembers (R296): rank, the cycle at which it was performed, whether it is an atomic,
and the cycle at which its instruction retired, which is when its quad sees it (R282). -/
structure Seen where
  rank : Nat
  cycle : Nat
  atomic : Bool
  retired : Nat
  deriving DecidableEq, Repr

/-- The race detector's state of one 8-byte word (R296): the last write and read, and the writes that have retired and are
still held, newest first, each of which only its quad sees (R282). -/
structure Shadow where
  writer : Option Seen
  reader : Option Seen
  held : List Seen
  deriving DecidableEq, Repr

/-- A gang (10, 15). -/
structure Gang where
  ctx : Nat
  requester : Party
  /-- level 0 quad, 1 section, 2 die, 3 package (R374), and threads per core -/
  level : Nat
  threads : Nat
  /-- the core at each position (R260, R261) -/
  cores : List Nat
  /-- positions of `hdom1` to `hdom3` (R270) -/
  domains : List (List Nat)
  /-- the entry table (R262) -/
  entries : List Word
  slots : Option Slots
  /-- object number of the code object (R62, R375) -/
  code : Nat
  /-- words `k0` to `k247` (R67) -/
  window : List Word
  slice : Nat
  gpri : Nat
  haltPolicy : Bool
  test : Bool
  heatMode : Bool
  /-- completed generations (R206, R273) -/
  gens : List (GenKey × Nat)
  /-- ranks of member contexts whose thread has ended: they count as having arrived at every later generation (R265) -/
  excused : List Nat
  queues : Table DieQueue
  /-- a gate's count, and the widest scope of the decrements it has counted (R220, R290) -/
  gates : Table (BitVec 32 × Scope)
  groups : Table HaltGroup
  /-- ranks and fault records of the gang's report (R365) -/
  report : List (Nat × List Word)
  /-- switched out: contexts by rank and memory images by unit (R357) -/
  resident : Bool
  /-- it is being switched out: its threads are stopped, and its units drain (R357) -/
  switching : Bool
  /-- core moves under way: from, to (R366) -/
  moves : List (Nat × Nat)
  /-- a trigger of a replay that no thread or transfer shows, with the rank it is charged to (R387) -/
  trigger : Option Nat
  /-- the phase clocks' value while it is switched out (R357) -/
  stoppedClock : Option Nat
  savedThreads : Table Thread
  /-- size, contents and marked lines of each on-die unit of the gang, from its first byte (R357) -/
  savedUnits : List (Nat × Memory × List Nat)
  /-- of each section, the gang's part of the heat store buffer, with the place of the quad that wrote each line (R384) -/
  savedHeat : List (List (Loc × Byte) × List (Nat × Nat))
  /-- of each quad, the lines of its quota that are taken (R386) -/
  savedQuotas : List Nat
  /-- its ring endpoints; a joined thread is named by its rank -/
  savedEngines : List Engine
  /-- `lmsplit` L1, `smsplit` L2 and `vpool` POOL of its load options (R345) -/
  l1 : BitVec 2
  l2 : Nat
  pool : Bool
  /-- storage of its heat save object (R385) -/
  saves : List Nat
  /-- a teardown under way: the request, and whether the context is kept (R347) -/
  closing : Option (Request × Bool)
  /-- the start queue of each position's core, oldest first (R202, R348) -/
  starts : Table (List StartMsg)
  /-- cycle at which the gang was last made resident, or switched out (R356) -/
  since : Nat
  /-- the current heat, its replays, checkpoint and journal (R383 to R388) -/
  heat : Nat
  replays : Nat
  checkpoint : Option Checkpoint
  heatOld : List HeatOld
  /-- outside messages of the heat, by rank (R383) -/
  outsideMsgs : List Outgoing
  shadows : Table Shadow
  /-- by rank: results of system calls recorded in the current heat, and those to return again (R383) -/
  callLog : Table (List (Nat × List Word))
  callReplay : Table (List (Nat × List Word))
  /-- the LOAD that is answered once every member context has started (R346) -/
  loading : Option Request
  deriving DecidableEq, Repr

/-- A context (15): `ortb`, `keysel`, QLIMIT, spawn permission, who created it, generations its entries have held
(R313), and its aliases: (object, source context, source object, source package) (R344). -/
structure Context where
  ortb : Word
  keysel : Word
  qlimit : Nat
  spawnOk : Bool
  owner : Party
  gens : List (Nat × Nat)
  aliases : List (Nat × Nat × Nat × Nat)
  deriving DecidableEq, Repr

/-- A relocation in a base die's queue (R325, R326): the descriptor's words, STATUS, and lines moved. -/
structure Relocation where
  desc : List Word
  status : Nat
  moved : Nat
  deriving DecidableEq, Repr

/-- Frames' LRHO entries and the relocation queue of a base die (R325, R335). -/
structure BaseDie where
  lrho : Table (BitVec 3)
  queue : List Relocation
  deriving DecidableEq, Repr

/-- A host-shared region of 2 MiB (R336) and the accesses that wait on it. -/
structure Region where
  owner : Bool
  busy : Bool
  toHost : Bool
  /-- hold entries below this number drain before the region goes to the host (R337) -/
  bound : Nat
  /-- whose access started the last transfer to the device, and its place: it is performed before the next transfer
  (R338) -/
  owed : Option (Nat × Nat)
  deriving DecidableEq, Repr

/-- A record or residency write that is not yet in force (R323). -/
structure RecordWrite where
  cells : List (Nat × Byte)
  bound : Nat
  deriving DecidableEq, Repr

/-- What the host receives: a reply, a notification or a message (R343, R365, R382). -/
structure HostMsg where
  header : Word
  words : List Word
  deriving DecidableEq, Repr

/-- A Hjelwa port (R389, R391). -/
structure Port where
  halfWidth : Bool
  fenced : Bool
  deriving DecidableEq, Repr

/-- The package-management controller and its non-volatile store (17; fences and log R378, R380). -/
structure Pmc where
  /-- MSTAT STATE (R411) -/
  state : Nat
  bank1 : Bool
  bank2 : Bool
  trip : Bool
  throtPower : Bool
  throtTemp : Bool
  abusy : Bool
  /-- banks 0 and 1 of stage 1, then of stage 2 (R397) -/
  banks : List (List Byte)
  /-- copies A and B of the start record (R400) -/
  recA : List Byte
  recB : List Byte
  /-- bytes of a start record being written through MSTART (R401) -/
  mstart : List Byte
  /-- a copy write in progress: the copy (true = B) and the record (R401) -/
  writing : Option (Bool × List Byte)
  /-- the control word in use (R400, R403) -/
  control : Word
  fuse1 : Nat
  fuse2 : Nat
  version1 : Nat
  version2 : Nat
  /-- M0 to M3 (R403) -/
  meas : List (List Byte)
  nonce : List Byte
  /-- the quote being made: bytes 0 to 319 (R405) -/
  quote : List Byte
  report : List Byte
  limit : BitVec 12
  logIdx : BitVec 32
  temp : Nat
  inlet : Nat
  flow : Nat
  log : List LogRec
  /-- fence bits: unit kind (0 core, 2 quad, 3 copy engine, 6 port) and number (R380, R412) -/
  fences : List (Nat × Nat)
  /-- fences as the units see them, since the last module reset (R412) -/
  fencesInForce : List (Nat × Nat)
  withheld : List Nat
  retired : List Nat
  /-- the compute dies are held in reset: a thermal trip, or no power (R410) -/
  held : Bool
  deriving DecidableEq, Repr

/-- What a host gets for an access or request: the access's data (none for a write), the error response of R393, or the
not-ready response of R407. -/
inductive HostReply where
  | done (bytes : List Byte)
  | error
  | notReady
  deriving DecidableEq, Repr

/-- A read of an in-memory structure in which a reserved field was set, with no context that caused it (R7): a copy of the
start record (true = B), a relocation descriptor in a base die's queue, or the record or residency entry that a relocation
unit reads for an object. -/
inductive ReservedRead where
  | startRecord (copyB : Bool)
  | descriptor (die : Nat)
  | table (die obj : Nat)
  deriving DecidableEq, Repr

/-- A record that the service core rebuilds (R324): context, object, the record to be, and how many of the sequence's three
stores have been made. -/
structure Rebuild where
  ctx : Nat
  obj : Nat
  record : Nat
  stores : Nat
  deriving DecidableEq, Repr

/-- An object of a context of another package that a SHARE may name, as that package's service core answers for it: the
context's requester, the record, and the residency entries (R344). -/
structure PodObject where
  owner : Party
  record : Nat
  entries : List Nat
  deriving DecidableEq, Repr

/-- What the environment and the firmware do that no row of the list of steps names. -/
inductive Occurrence where
  /-- a KIND 0 message of the host to a rank of a gang: TAG and the eight words (R199, R406) -/
  | message (gang rank : Nat) (tag : BitVec 16) (words : List Word)
  /-- the firmware declares a host-shared region, owned by the device (R336) -/
  | share (region : Nat)
  /-- the next read of a line is uncorrectable, and again when it is repeated (R377) -/
  | storageError (line : Nat) (lasts : Bool)
  /-- an error of a line is corrected in place (R244, R376) -/
  | corrected (line : Nat)
  /-- a dirty line is found uncorrectable when it is evicted (R331) -/
  | eviction (line : Nat)
  /-- an entry of a hold buffer or write journal of a quad cannot be read (R377) -/
  | bufferError (quad : Nat)
  /-- a service core writes a CSR that a thread of its section, or the thread's core, quad or context, owns (R75) -/
  | csr (tid : Nat) (n : Csr) (v : Word)
  /-- the inlet temperature and the flow of the coolant (R411) -/
  | coolant (inlet flow : Nat)
  /-- a package or a host socket is a node of the pod (R389) -/
  | podNode (node : Nat) (host : Bool)
  /-- a lost package rejoins after its module reset (R394) -/
  | rejoin (pkg : Nat)
  /-- the service core rebuilds an object's record (R324) -/
  | rebuild (ctx obj record : Nat)
  /-- the answer of another package's service core about an object that SHARE may name (R344) -/
  | podObject (pkg ctx obj : Nat) (o : PodObject)
  /-- a key slot of another package is loaded (R341) -/
  | podKey (pkg slot : Nat) (key : List Byte)
  /-- a write, and an accumulator add of a copy engine, that another package performs at a physical address of this one
  (R216, R389) -/
  | podWrite (addr : Nat) (bytes : List Byte)
  | podAdd (addr ty value : Nat)
  /-- a LOAD whose file could not be read yet, or a SHARE whose source was being moved, is tried again (R343, R344) -/
  | load (q : Request) (dxo : List Byte)
  | shareAgain (q : Request)
  /-- a service core of another package makes, or frees, its alias of an object of this one (R344) -/
  | podShare (ctx obj : Nat)
  | podUnshare (ctx obj : Nat)
  /-- an atomic that a thread of another package performs at a physical address of this one (R192, R396) -/
  | podAtomic (addr : Nat) (op : AmoOp) (w : Bool) (operand old : Word)
  deriving DecidableEq, Repr

/-- The whole machine. -/
structure State where
  /-- the thread whose turn it is, and its number (R16); 4096 + s is the service core of section s -/
  th : Thread
  tid : Nat
  /-- every other thread, by number -/
  parked : Table Thread
  mem : Memory
  /-- lines (address / 256) that carry the poison marker (R329) -/
  poison : List Nat
  cores : Table Core
  quads : Table Quad
  sections : Table Section
  gangs : Table Gang
  contexts : Table Context
  dies : Table BaseDie
  regions : Table Region
  /-- forward markers of moved lines (R326) -/
  forwards : List (Nat × Nat)
  recordWrites : List RecordWrite
  /-- physical key slots: 64 bytes each; a slot not listed holds zeros (R341, R408) -/
  keys : Table (List Byte)
  /-- key slots of other packages, by 256 × package + slot (R341) -/
  podKeys : Table (List Byte)
  /-- storage blocks the firmware has given out: base and size (R312, R320) -/
  storage : List (Nat × Nat)
  /-- lines whose storage holds an error that the code cannot correct, and whether it lasts (R377) -/
  weak : List (Nat × Bool)
  /-- markers set in a frame and their times (R377) -/
  frameMarks : List (Nat × Nat)
  /-- markers set in objects' blocks that the firmware has still to handle: gang, object and offset (R329) -/
  marks : List (Nat × Nat × Nat)
  /-- blocks whose entry has DMG set: context, object and block (R332) -/
  damaged : List (Nat × Nat × Nat)
  rebuilds : List Rebuild
  /-- events of R7 that the hardware has logged to the service cores -/
  reservedReads : List ReservedRead
  pmc : Pmc
  ports : Table Port
  /-- packages marked lost, heartbeats missed, packages reported as not answering (R394), and regions whose ownership
  transfer timed out and waits for the next route restore (R392) -/
  lost : List Nat
  missed : Table Nat
  reported : List Nat
  rerouting : List Nat
  /-- other nodes of the pod and whether each is a host socket; the route table loaded at boot (R389, R397, R406); and
  what other packages answer for their objects, by package, context and object (R344) -/
  pod : Table Bool
  routes : Table Bool
  podObjects : List (Nat × Nat × Nat × PodObject)
  /-- objects of this package that an alias on another package names: context and object (R344) -/
  podAliases : List (Nat × Nat)
  /-- stage 2 is loaded into every service core (R397) -/
  firmware : Bool
  /-- host accesses that wait for the ownership of their region (R337) -/
  hostWaits : List (Nat × HostOp)
  tout : Nat
  /-- package number (R16, R76) -/
  pkg : Nat
  /-- cycles since module reset (R6), and how many turns of the current cycle are over (R242) -/
  cycle : Nat
  round : Nat
  /-- number of the next hold entry, message or choice; the first is 1 -/
  seq : Nat
  fresh : Nat
  /-- what the outside does, in order: each at the first step of its cycle or later (the model's own) -/
  inputs : List (Nat × Instr)
  /-- what else comes about outside, each at the first step of its cycle or later at which it can -/
  occurrences : List (Nat × Occurrence)
  /-- messages of the service cores that wait for room in their receivers' queues, oldest first (R198, R343) -/
  unsent : List (Party × Message)
  /-- what the host has received -/
  hostOut : List HostMsg
  /-- responses to the host's accesses and requests (R393, R407) -/
  hostReplies : List HostReply
  deriving DecidableEq, Repr

/-- A context right after reset and at a thread's start: every register zero, every tile empty (R8, R263). -/
def Thread.zero : Thread :=
  { x := Vector.replicate 32 0, a := Vector.replicate 16 0, v := Vector.replicate 32 0, p := Vector.replicate 8 0,
    t := Vector.replicate 16 none, pc := 0, fcsr := 0, cpsrc := 0, cpdst := 0, cplen := 0, cpshape := 0,
    cpstride := 0, cpmode := 0, cpeng := 0, cpseq := 1, fcause := 0, faddr := 0, fstep := 0, finfo := 0, epc := 0,
    poison := [], pend := [], tq := [], before := [],
    privileged := false, run := .never, wait := .none, wake := false, latch := 0,
    counts := Vector.replicate 24 0, signalled := Vector.replicate 24 0, task := none, hprio := 0,
    stepBit := false, stepDue := false, entryBad := false, gang := 0, rank := 0, entry := 0, inbox := [], overflow := [], spill := [],
    arrivals := [], relMark := none, loadAfter := 0, loadAfterStores := 0, ownAt := none, loadFrom := 0, storeAfter := 0, acqWaits := [],
    acquires := Vector.replicate 8 0, stoppedAt := 0, paid := 0, miss := none, inCall := false, late := false, events := [], born := 0 }

/-- A core with nothing held (reset values of R267 and R207). -/
def Core.zero : Core :=
  { hold := [], replies := [], claim := none, lmsplit := 0, journal := [], phase := none, released := none, starting := [] }

/-- An engine whose endpoint is not joined (R178) and whose tiles are all free (R155). -/
def Engine.zero : Engine :=
  { view := none, ring := none, credits := 0, slots := [], nextSlot := 0, foreign := false, arriving := [],
    late := [], waiting := [], turn := 0, snap := none, leaves := [] }

/-- A quad at reset: no split, `recallcnt` 0 (R259), `vpool` 0 (R269). -/
def Quad.zero : Quad :=
  { splits := [], nextSplit := 0, recallcnt := 0, phase := .idle, reports := [], journal := [], vpool := false,
    engines := Vector.replicate 2 Engine.zero, outside := [], overs := [], epoch := 0, left := 0, quota := 0 }

/-- A section at reset: `smsplit` 0 (R268). -/
def Section.zero : Section :=
  { smsplit := 0, transfers := [], watches := [], trace := [], log := [], recalls := [], heatBuf := [], heatLines := [] }

/-- A base die whose frames all hold LRHO 0 (R335). -/
def BaseDie.zero : BaseDie := { lrho := [], queue := [] }

/-- The PMC at a first reset: STATE 0, LIMIT 2,400 (R411), measurement registers zero (R403), and a non-volatile store
with no image, no start record and no fence, since the manual gives it no content. -/
def Pmc.zero : Pmc :=
  { state := 0, bank1 := false, bank2 := false, trip := false, throtPower := false, throtTemp := false, abusy := false,
    banks := [[], [], [], []], recA := [], recB := [], mstart := [], writing := none, control := 0x40,
    fuse1 := 0, fuse2 := 0, version1 := 0, version2 := 0,
    meas := List.replicate 4 (List.replicate 64 0), nonce := List.replicate 32 0, quote := [], report := [],
    limit := 2400, logIdx := 0, temp := 0, inlet := 0, flow := 0, log := [], fences := [], fencesInForce := [],
    withheld := [], retired := [], held := false }

/-- The machine right after module reset: the boot has not run, nothing is loaded, and the start-up of the PMC is
what happens next (R397). The package's number, which the manual does not give, is 0 (log entry 104). -/
def State.reset : State :=
  { th := Thread.zero, tid := 0, parked := [], mem := [], poison := [], cores := [], quads := [], sections := [],
    gangs := [], contexts := [], dies := [], regions := [], forwards := [], recordWrites := [], keys := [],
    podKeys := [], storage := [], weak := [], frameMarks := [], marks := [], damaged := [], rebuilds := [],
    reservedReads := [], pod := [], routes := [], podObjects := [], podAliases := [], firmware := false, pmc := Pmc.zero, ports := [], lost := [], missed := [], reported := [],
    rerouting := [], hostWaits := [], tout := Config.toutReset, pkg := 0, cycle := 0, round := 0, seq := 1, fresh := 0,
    inputs := [(0, .moduleReset)], occurrences := [], unsent := [], hostOut := [], hostReplies := [] }

end Sys2Proof.Machine
end

