-- ==== Sys2Proof/Machine/Ops.lean ====
section
/-! DEFINITION. The named operations on the machine's tables, memory, registers and hold buffers, taking a fault and
returning from one (R3, R185, R222 to R225, R229), and the shape every meaning has. -/

namespace Sys2Proof.Machine

/-! ### Tables -/

/-- The record of a number, if the table lists one. -/
def Table.get? {α : Type} : Table α → Nat → Option α
  | [], _ => none
  | (i, a) :: rest, k => if i = k then some a else Table.get? rest k

/-- The table with a number's record replaced or inserted in rising order. -/
def Table.put {α : Type} : Table α → Nat → α → Table α
  | [], k, a => [(k, a)]
  | (i, b) :: rest, k, a =>
    if k < i then (k, a) :: (i, b) :: rest
    else if k = i then (k, a) :: rest
    else (i, b) :: Table.put rest k a

/-- The table without a number's record. -/
def Table.drop {α : Type} (t : Table α) (k : Nat) : Table α := t.filter fun e => e.1 != k

/-- The least number of a list that passes a test. -/
def least (p : Nat → Bool) : List Nat → Option Nat
  | [] => none
  | n :: ns => match least p ns with
    | none => if p n then some n else none
    | some m => if p n && n < m then some n else some m

/-! ### Memory -/

/-- What an address reads as: an address that is not listed reads zero. -/
def Memory.read : Memory → Nat → Byte
  | [], _ => 0
  | (i, b) :: rest, k => if i = k then b else Memory.read rest k

/-- The memory with one byte written; a zero byte is not listed. -/
def Memory.write : Memory → Nat → Byte → Memory
  | [], k, b => if b = 0 then [] else [(k, b)]
  | (i, c) :: rest, k, b =>
    if k < i then (if b = 0 then (i, c) :: rest else (k, b) :: (i, c) :: rest)
    else if k = i then (if b = 0 then rest else (k, b) :: rest)
    else (i, c) :: Memory.write rest k b

/-- The canonical form: addresses strictly rise and no listed byte is zero. -/
def Memory.wf : Memory → Bool
  | [] => true
  | [(_, b)] => b != 0
  | (i, b) :: (j, c) :: rest => b != 0 && decide (i < j) && Memory.wf ((j, c) :: rest)

/-- Bytes written at rising addresses from `k`. -/
def Memory.writeList : Memory → Nat → List Byte → Memory
  | m, _, [] => m
  | m, k, b :: bs => Memory.writeList (m.write k b) (k + 1) bs

/-- `n` bytes from address `k` (R5). -/
def Memory.readList (m : Memory) (k n : Nat) : List Byte := (List.range n).map fun i => m.read (k + i)

/-- A little-endian number from its bytes (R5). -/
def leNat : List Byte → Nat
  | [] => 0
  | b :: bs => b.toNat + 256 * leNat bs

/-- The `n` little-endian bytes of a number (R5). -/
def leBytes : Nat → Nat → List Byte
  | 0, _ => []
  | n + 1, v => BitVec.ofNat 8 v :: leBytes n (v / 256)

/-- `n` bytes at `k` read as a little-endian number. -/
def Memory.readNat (m : Memory) (k n : Nat) : Nat := leNat (m.readList k n)

/-- The memory without the bytes from `k` to `k + n - 1`, which then read zero. -/
def Memory.clear (m : Memory) (k n : Nat) : Memory := m.filter fun c => c.1 < k || k + n ≤ c.1

/-- Where the bytes of each on-die store lie in Memory, above every physical address (R26, R22). -/
def localBase (core : Nat) : Nat := 2 ^ 60 + core * 2 ^ 18
def quadBase (q : Nat) : Nat := 2 ^ 60 + 2 ^ 32 + q * 2 ^ 21
def sectionBase (sec : Nat) : Nat := 2 ^ 60 + 2 ^ 40 + sec * 2 ^ 23

/-- Whether a physical address lies in populated storage of its package (R333). -/
def populated (addr : Nat) : Bool :=
  let a := addr % 2 ^ 46
  if a < 2 ^ 39 then a % 2 ^ 36 < 64 * 2 ^ 30
  else a < 2 ^ 39 + 8 * 2 ^ 37 && (a - 2 ^ 39) % 2 ^ 37 < 96 * 2 ^ 30

/-! ### Numbers of units (R16) -/

/-- Thread numbers from 4,096 up are the service cores of the sections. -/
def isService (tid : Nat) : Bool := 4096 ≤ tid
def coreOf (tid : Nat) : Nat := tid / 2
def quadOf (tid : Nat) : Nat := tid / 8
def sectionOf (tid : Nat) : Nat := if isService tid then tid - 4096 else tid / 64
def dieOf (tid : Nat) : Nat := sectionOf tid / 16
def slotOf (tid : Nat) : Nat := tid % 2
def quadOfCore (c : Nat) : Nat := c / 4
def sectionOfCore (c : Nat) : Nat := c / 32
def dieOfCore (c : Nat) : Nat := c / 512
/-- F-dies are dies 0 and 2 (R18). -/
def fdieCore (c : Nat) : Bool := dieOfCore c % 2 == 0
/-- A thread, or a service core, is on an F-die (R18). -/
def onFdie (tid : Nat) : Bool := dieOf tid % 2 == 0
/-- The engine of a quad's half, package-wide (R16, R17). The manual gives the service cores no engine: the tile registers of
eight of them share the two engines of a quad of their own, beyond the 512 of the package (DESIGN CHOICE, log entry 126). -/
def engineOf (tid half : Nat) : Nat := 2 * quadOf tid + half

/-! ### Access to the units -/

/-- A context of which nothing is set (R308, R339). -/
def Context.zero : Context :=
  { ortb := 0, keysel := 0, qlimit := 0, spawnOk := false, owner := .host, gens := [], aliases := [] }

namespace State

def core (s : State) (c : Nat) : Core := (s.cores.get? c).getD Core.zero
def setCore (s : State) (c : Nat) (k : Core) : State := { s with cores := s.cores.put c k }
def quad (s : State) (q : Nat) : Quad := (s.quads.get? q).getD Quad.zero
def setQuad (s : State) (q : Nat) (k : Quad) : State := { s with quads := s.quads.put q k }
def sect (s : State) (n : Nat) : Section := (s.sections.get? n).getD Section.zero
def setSect (s : State) (n : Nat) (k : Section) : State := { s with sections := s.sections.put n k }
def die (s : State) (n : Nat) : BaseDie := (s.dies.get? n).getD BaseDie.zero
def setDie (s : State) (n : Nat) (k : BaseDie) : State := { s with dies := s.dies.put n k }
def setGang (s : State) (g : Nat) (k : Gang) : State := { s with gangs := s.gangs.put g k }
def setContext (s : State) (g : Nat) (k : Context) : State := { s with contexts := s.contexts.put g k }
def setPmc (s : State) (p : Pmc) : State := { s with pmc := p }
def setTh (s : State) (t : Thread) : State := { s with th := t }
def setMem (s : State) (m : Memory) : State := { s with mem := m }

/-- The thread of a number; a context that was never used is as at reset. -/
def thread (s : State) (t : Nat) : Thread := if t = s.tid then s.th else (s.parked.get? t).getD Thread.zero
def setThread (s : State) (t : Nat) (k : Thread) : State :=
  if t = s.tid then { s with th := k } else { s with parked := s.parked.put t k }

/-- Thread `n` gets the turn. -/
def switchTo (s : State) (n : Nat) : State :=
  if n = s.tid then s
  else { s with th := s.thread n, tid := n, parked := (s.parked.put s.tid s.th).drop n }

/-- What a thread does, whoever has the turn. -/
def asThread {α : Type} (s : State) (t : Nat) (f : State → Except α State) : Except α State :=
  match f (s.switchTo t) with
  | .ok s' => .ok (s'.switchTo s.tid)
  | .error e => .error e

/-- A change of a thread that no recall undoes: it is made in the thread and in every kept split of its quad (R245,
R256). -/
def pinWith (s : State) (t : Nat) (f : Thread → Thread) : State :=
  let s := s.setThread t (f (s.thread t))
  if isService t then s
  else
    let q := s.quad (quadOf t)
    s.setQuad (quadOf t) { q with splits := q.splits.map fun k =>
      { k with threads := match k.threads.get? t with
          | some old => k.threads.put t (f old)
          | none => k.threads } }

/-- A thread as it stands, with its inbox and all that has reached it, which no recall takes back (R256). -/
def pin (s : State) (t : Nat) : State := s.pinWith t fun _ => { s.thread t with arrivals := [], events := [] }

/-- A thread that the service core resumes as it stands (R229): no recall takes its registers back, but each split keeps its own
inbox and events, to which a recall adds what came from outside the quad since (R245). -/
def pinResumed (s : State) (t : Nat) : State :=
  let k := s.thread t
  s.pinWith t fun old => if old = k then k else
    { k with inbox := old.inbox, arrivals := old.arrivals, events := old.events, wake := old.wake, latch := old.latch }

/-- An event from outside a thread's quad: the bits it sets are kept through a recall (R245). -/
def event (s : State) (t : Nat) (b : BitVec 3) : State :=
  let k := s.thread t
  { s.setThread t { k with wake := k.wake || b.getLsbD 0, latch := k.latch ||| (b >>> 1).setWidth 2,
                           events := (s.seq, b) :: k.events } with seq := s.seq + 1 }

/-- Every thread number the state lists. -/
def tids (s : State) : List Nat := s.tid :: (s.parked.map (·.1)).filter (· != s.tid)

/-- The engine of package-wide number `e` (R16). -/
def engine (s : State) (e : Nat) : Engine :=
  if e % 2 = 0 then (s.quad (e / 2)).engines[0] else (s.quad (e / 2)).engines[1]
def setEngine (s : State) (e : Nat) (k : Engine) : State :=
  let q := s.quad (e / 2)
  s.setQuad (e / 2)
    { q with engines := if e % 2 = 0 then q.engines.set 0 k else q.engines.set 1 k }

/-- The gang of the current thread. -/
def gang? (s : State) : Option Gang := s.gangs.get? s.th.gang

/-- The service cores run and schedule: stage 2 is loaded and has completed, and the compute dies are not held in reset (R397,
R402, R410). -/
def scheduling (s : State) : Bool := s.firmware && s.pmc.state == 3 && !s.pmc.held

/-- A number the manual leaves to firmware, from a list of the allowed ones (log entry 3). -/
def choose (s : State) (allowed : List Nat) : Option (Nat × State) :=
  match allowed with
  | [] => none
  | a :: as => some ((a :: as).getD (Config.firmwareChoice s.fresh % (as.length + 1)) a, { s with fresh := s.fresh + 1 })

end State

/-! ### The error log -/

/-- What a log record says (R378); `rank` none is 0xFFFF_FFFF. -/
structure Event where
  cls : Nat
  ukind : Nat
  unit : Nat
  detail : Nat := 0
  rank : Option Nat := none
  obj : Nat := 0
  off : Nat := 0
  paddr : Nat := 0

/-- The 256 bits of a record (R378); TIME counts microseconds since module reset. -/
def Event.bits (e : Event) (cycle : Nat) : LogRec :=
  BitVec.ofNat 256
    (cycle / 1000 % 2 ^ 48 * 2 ^ 208 + e.cls % 256 * 2 ^ 200 + e.ukind % 16 * 2 ^ 196 + e.unit % 4096 * 2 ^ 184
      + e.detail % 256 * 2 ^ 176 + (e.rank.getD 0xFFFFFFFF) % 2 ^ 32 * 2 ^ 128 + e.obj % 2 ^ 36 * 2 ^ 92
      + e.off % 2 ^ 44 * 2 ^ 48 + e.paddr % 2 ^ 46)

/-- A record in the log of a section and in the package log; each keeps its newest (R378). -/
def State.logIn (s : State) (sec : Nat) (e : Event) : State :=
  let r := e.bits s.cycle
  let k := s.sect sec
  let s := s.setSect sec { k with log := (r :: k.log).take Config.sectionLogRecords }
  s.setPmc { s.pmc with log := (r :: s.pmc.log).take Config.packageLogRecords }

/-- A record of an error that no section's service core reports: in the package log only. -/
def State.logPackage (s : State) (e : Event) : State :=
  s.setPmc { s.pmc with log := (e.bits s.cycle :: s.pmc.log).take Config.packageLogRecords }

/-! ### Uncorrectable reads (R377) -/

/-- UKIND, UNIT and DETAIL of a line's storage (R378): a stack and its pseudo-channel (R334), a core, a quad, or the
package, by its number, for section memory and host memory. -/
def lineUnit (pkg n : Nat) : Nat × Nat × Nat :=
  let a := 256 * n
  let p := a % 2 ^ 46
  if 2 ^ 57 ≤ a then
    if localBase 0 ≤ a ∧ a < localBase 2048 then (0, (a - localBase 0) / 2 ^ 18, 0)
    else if quadBase 0 ≤ a ∧ a < quadBase 512 then (2, (a - quadBase 0) / 2 ^ 21, 0)
    else (7, pkg % 1024, 0)
  else if p < 2 ^ 39 then (5, p / 2 ^ 36, (n % 64 + p % 2 ^ 36 / 65536) % 64)
  else (5, 8 + (p - 2 ^ 39) / 2 ^ 37, (n % 64 + (p - 2 ^ 39) % 2 ^ 37 / 65536) % 64)

/-- An on-die byte: local memory, scratchpad or section SRAM. -/
def onDie (key : Nat) : Bool := 2 ^ 60 ≤ key

/-- A line's marker is set (R329): the frame of a line of this package's storage counts it (R377), and the firmware is to
handle a line of an object's block. -/
def State.setMarker (s : State) (gang : Nat) (l : Loc) : State :=
  { s with
    poison := l.key / 256 :: s.poison
    frameMarks := if l.key < 2 ^ 56 ∧ l.key / 2 ^ 46 = s.pkg then (l.key / 65536, s.cycle) :: s.frameMarks else s.frameMarks
    marks := if l.space = 0 then (gang, l.obj, l.off) :: s.marks else s.marks }

/-- Lines that a read finds uncorrectable are read again: a transient error is gone, and a lasting one sets the line's
marker (R377). Each line is given by a place in it that the reader read. -/
def State.rereadWith (s : State) (log : State → Event → State) (gang : Nat) (rank : Option Nat) (lines : List Loc) : State :=
  lines.foldl (fun s l => match s.weak.find? fun e => e.1 == l.key / 256 with
    | none => s
    | some (n, lasting) =>
      let u := lineUnit s.pkg n
      let s := { s with weak := s.weak.filter fun e => e.1 != n }
      let s := log s { cls := if lasting then 0x07 else 0x06, ukind := u.1, unit := u.2.1, detail := u.2.2, rank,
                             obj := l.obj, off := l.off, paddr := if n < 2 ^ 49 then 256 * n % 2 ^ 46 else 0 }
      if lasting then s.setMarker gang l else s) s

/-- Lines that an agent of a section reads again. -/
def State.reread (s : State) (sec gang : Nat) (rank : Option Nat) (lines : List Loc) : State :=
  s.rereadWith (fun s e => s.logIn sec e) gang rank lines

/-- Lines that their home reads again for a host or another package. -/
def State.rereadHome (s : State) (lines : List Loc) : State := s.rereadWith State.logPackage 0 none lines

/-! ### Stopping -/

/-- A fault being taken: cause, `faddr`, `finfo`, `fstep` (R224, R225). -/
structure Trap where
  cause : Nat
  addr : Word := 0
  info : Word := 0
  step : Nat := 0
  miss : Option Miss := none
  deriving DecidableEq, Repr

/-- Why an instruction does not complete: it faults (R3), it waits and changes nothing (R3), it waits for hold-buffer
entries and claims those that free (R249), it waits for the ownership of a host-shared region, whose transfer it starts
(R337), it has started some of its requests and waits for the next epoch (R355), a read found uncorrectable lines, which are read
again (R377), it waits for a number of physical tiles of an engine (R154), or the model stops. -/
inductive Stop where
  | trap (t : Trap)
  | stall
  | claim
  | region (r : Nat)
  | pacer (started : Nat)
  | reread (lines : List Loc)
  | tiles (eng need : Nat)
  | machine (f : Fault)
  deriving DecidableEq, Repr

/-- A fault with a cause only. -/
def trapOf {α : Type} (cause : Nat) (addr : Word := 0) (info : Word := 0) : Except Stop α :=
  .error (.trap { cause, addr, info })

/-- Stall unless the condition holds (R3). -/
def await (c : Bool) : Except Stop Unit := if c then .ok () else .error .stall

/-- Fault with a cause unless the condition holds. -/
def require (c : Bool) (cause : Nat) (addr : Word := 0) (info : Word := 0) : Except Stop Unit :=
  if c then .ok () else trapOf cause addr info

/-- A fault of one step of an instruction carries its number (R149, R239). -/
def atStep {α : Type} (n : Nat) : Except Stop α → Except Stop α
  | .error (.trap f) => .error (.trap { f with step := n })
  | r => r

/-! ### Hold-buffer entries -/

/-- Free entries of a thread's core (R247). -/
def freeEntries (s : State) (tid : Nat) : Nat := Config.holdEntries - (s.core (coreOf tid)).hold.length

/-- The thread of a core whose instruction waits for entries: it tried in this cycle or the last (R249). -/
def State.claimant (s : State) (core : Nat) : Option Nat :=
  match (s.core core).claim with
  | some (t, c) => if s.cycle ≤ c + 1 then some t else none
  | none => none

/-- The thread may take `n` entries: they are free, and no instruction of the other thread waits for entries (R249).
The service cores' own effects are not held. -/
def canHold (s : State) (tid n : Nat) : Bool :=
  isService tid || n == 0 || (n ≤ freeEntries s tid && (s.claimant (coreOf tid)).all (· == tid))

/-- Wait for `n` entries of the current thread's core (R185, R249). -/
def needEntries (s : State) (n : Nat) : Except Stop Unit :=
  if canHold s s.tid n then .ok () else .error .claim

/-- Put one effect of a thread at the tail of its core's hold buffer (R185, R247). The entry after a release at section
or wider carries the release's mark (R287). -/
def pushHold (s : State) (tid : Nat) (e : HeldEffect) (tiles : List (Nat × Nat) := []) (took : List Nat := []) : State :=
  let c := s.core (coreOf tid)
  let t := s.thread tid
  let entry : HoldEntry :=
    { seq := s.seq, cycle := s.cycle, tid, after := t.relMark.getD 0, tiles, effect := e, paid := 0, acq := t.loadAfter, took }
  let s := s.setCore (coreOf tid)
    { c with hold := c.hold ++ [entry], claim := c.claim.filter fun k => k.1 != tid }
  { s.setThread tid { t with relMark := none } with seq := s.seq + 1 }

/-- A transfer of a host-shared region starts: BUSY is set, and for a transfer to the host the entries to drain are
those retired so far (R337). A region that is busy, or that the asking side owns, starts none. -/
def State.startTransfer (s : State) (r : Nat) (toHost : Bool) (owed : Option (Nat × Nat)) : State :=
  match s.regions.get? r with
  | none => s
  | some g =>
    if g.busy || g.owner == toHost then s
    else { s with regions := s.regions.put r { g with busy := true, toHost, bound := s.seq, owed } }

/-- The thread claims the entries of its core that free from now on (R249). -/
def State.claimEntries (s : State) : State :=
  if (s.claimant (coreOf s.tid)).all (· == s.tid) then
    s.setCore (coreOf s.tid) { s.core (coreOf s.tid) with claim := some (s.tid, s.cycle) }
  else s

/-! ### Physical tiles (R154, R155, R246) -/

/-- Physical tiles of an engine that a live register of its quad's threads holds (R154). -/
def liveTiles (s : State) (eng : Nat) : List Nat :=
  (List.range 8).flatMap fun i =>
    let t := s.thread (8 * (eng / 2) + i)
    (List.range 8).filterMap fun j =>
      ((t.t.toList.getD (8 * (eng % 2) + j) none).map fun k => k.phys)

/-- Physical tiles that hold-buffer entries of the quad's cores name (R154). -/
def namedTiles (s : State) (eng : Nat) : List Nat :=
  (List.range 4).flatMap fun i =>
    (s.core (4 * (eng / 2) + i)).hold.flatMap fun e => e.tiles.filterMap fun p => if p.1 = eng then some p.2 else none

/-- Free physical tiles of an engine (R154, R155). -/
def freeTiles (s : State) (eng : Nat) : List Nat :=
  let used := liveTiles s eng ++ (s.engine eng).late.map (·.phys)
  (List.range Config.physTiles).filter fun p => !used.contains p

/-- The free tiles that a cycle began with are kept, from the first change of the pool in it on (R155). -/
def Engine.noteSnap (e : Engine) (cycle free : Nat) : Engine :=
  if e.snap.any fun p => p.1 == cycle then e else { e with snap := some (cycle, free) }

/-- The free tiles of a quad's two engines are noted before its pools change. -/
def State.notePools (s : State) (q : Nat) : State :=
  [2 * q, 2 * q + 1].foldl (fun s e => s.setEngine e ((s.engine e).noteSnap s.cycle (freeTiles s e).length)) s

/-- The threads that wait for tiles of an engine: they tried in this cycle or the last. -/
def Engine.waiters (e : Engine) (cycle : Nat) : List TileWait := e.waiting.filter fun w => decide (cycle ≤ w.last + 1)

/-- Tiles that are granted to threads that have not taken them yet. -/
def Engine.granted (e : Engine) (cycle : Nat) : Nat := ((e.waiters cycle).map (·.got)).foldl (· + ·) 0

/-- The place of a thread in the order of the next grants, which begins at the engine's turn (R154). -/
def grantPlace (turn tid : Nat) : Nat := (tid % 8 + 8 - turn % 8) % 8

/-- The thread that the next grant goes to: of those that lack a tile, the first in the order (R154). -/
def Engine.next? (e : Engine) (cycle : Nat) : Option TileWait :=
  let short := (e.waiters cycle).filter fun w => decide (w.got < w.need)
  (List.range 8).findSome? fun i => short.find? fun w => grantPlace e.turn w.tid == i

/-- One grant: a tile goes to the next thread, and the order rotates by one thread (R154). -/
def Engine.grant (e : Engine) (cycle : Nat) : Engine :=
  match e.next? cycle with
  | none => e
  | some w => { e with waiting := e.waiting.map fun v => if v.tid = w.tid then { v with got := v.got + 1 } else v
                       turn := (e.turn + 1) % 8 }

def Engine.grants : Nat → Engine → Nat → Engine
  | 0, e, _ => e
  | n + 1, e, cycle => Engine.grants n (e.grant cycle) cycle

/-- Where every waiting thread lacks tiles and none will return, the first in the order gets those of the others, so that
one of them goes on (R278; DESIGN CHOICE, log entry 127). -/
def Engine.gather (e : Engine) (cycle spare : Nat) : Engine :=
  match e.next? cycle with
  | none => e
  | some w =>
    if spare = 0 ∧ e.late = [] ∧ ((e.waiters cycle).all fun v => decide (v.got < v.need)) then
      let more := min (w.need - w.got) (e.granted cycle - w.got)
      if w.got + more < w.need then e
      else { e with waiting := e.waiting.map fun v => if v.tid = w.tid then { v with got := v.got + more } else { v with got := 0 } }
    else e

/-- The engine after the grants that its free tiles allow (R154, R277). -/
def grantTiles (s : State) (eng : Nat) : Engine :=
  let free := (freeTiles s eng).length
  let e := s.engine eng
  let e := e.grants (free - e.granted s.cycle) s.cycle
  e.gather s.cycle (free - e.granted s.cycle)

/-- Tiles granted to a thread. -/
def Engine.gotOf (e : Engine) (cycle tid : Nat) : Nat :=
  (((e.waiters cycle).find? fun w => w.tid == tid).map (·.got)).getD 0

/-- Tiles that a thread may take: those granted to it, and those that no waiting thread has been granted (R154). -/
def tilesFor (s : State) (eng tid : Nat) : Nat :=
  let e := grantTiles s eng
  (freeTiles s eng).length - (e.granted s.cycle - e.gotOf s.cycle tid)

/-- The thread waits for a number of physical tiles of an engine (R154). -/
def State.awaitTile (s : State) (eng need : Nat) : State :=
  let e := grantTiles s eng
  let old := (e.waiters s.cycle).find? fun w => w.tid == s.tid
  let w : TileWait := { tid := s.tid, last := s.cycle, need := max need ((old.map (·.need)).getD 0), got := e.gotOf s.cycle s.tid }
  let s := s.setEngine eng { e with waiting := w :: e.waiting.filter fun v => v.tid != s.tid }
  s.setEngine eng (grantTiles s eng)

/-! ### Taking a fault -/

/-- The level in bit 8 and the cause in bits 7:0 of `fcause` (R224). -/
def causeWord (privileged : Bool) (cause : Nat) : Word :=
  BitVec.ofNat 64 ((if privileged then 256 else 0) + cause)

/-- The fault record of a thread that takes a fault at `epc` (R222 to R225). A residency fault is serviced without the
thread seeing it (R223), so that the record it replaces is kept. -/
def Thread.record (t : Thread) (f : Trap) (epc : Word) : Thread :=
  { t with before := if f.cause = 0x0A then [t.fcause, t.faddr, t.fstep, t.finfo, t.epc] else []
           fcause := causeWord t.privileged f.cause, faddr := f.addr, finfo := f.info,
           fstep := BitVec.ofNat 64 (f.step % 2 ^ 16), epc := BitVec.ofNat 64 (epc.toNat % 2 ^ 44),
           wait := .none, stepDue := false, entryBad := false, paid := 0, miss := f.miss, inCall := false, late := t.late && f.cause == 0x0B }

/-- Where a service core goes on at a fault: the handler's offset, as a `pc` is (R62). -/
def handlerPc : Word := BitVec.ofNat 64 (Config.serviceHandler.toNat % 2 ^ 44 / 4 * 4)

/-- The current thread takes a fault (R222): it writes its record, stops, and sends a trap record, which is a held
effect of one entry and a release at section (R290); with no entry free it waits. A service core has no service core above it: it goes on in its own
handler at privileged level, from which `eret` returns (R229). -/
def takeFault (s : State) (f : Trap) : State :=
  let t := s.th.record f s.th.pc
  if isService s.tid then
    s.setTh { t with privileged := true, pc := handlerPc }
  else if canHold s s.tid 1 then
    pushHold (s.setTh { t with run := .trapped, stoppedAt := s.cycle, relMark := some s.seq }) s.tid .trap
  else s.claimEntries

/-- The return of `eret` without a thread: `pc := epc; level := fcause.PL; fcause := 0` (R229). -/
def returnFault (s : State) : State :=
  s.setTh { s.th with pc := s.th.epc, privileged := bitAt s.th.fcause 8, fcause := 0 }

/-- The current thread has started `n` requests, the last that its quad may start in this epoch (R355). -/
def State.spendEpoch (s : State) (n : Nat) : State :=
  let q := s.quad (quadOf s.tid)
  (s.setQuad (quadOf s.tid) { q with epoch := s.cycle / Config.epoch, left := 0 }).setTh { s.th with paid := s.th.paid + n }

/-- How a meaning ends: the state it computed, the fault it takes, or a wait that changes nothing (R3, R11). -/
def finish (s : State) (r : Except Stop State) : Host.Outcome State Fault Refusal :=
  match r with
  | .ok s' => .next s'
  | .error (.trap f) => .next (takeFault s f)
  | .error .stall => .next s
  | .error .claim => .next s.claimEntries
  | .error (.region r) => .next (s.startTransfer r false (some (s.tid, s.th.pc.toNat)))
  | .error (.pacer n) => .next (s.spendEpoch n)
  | .error (.reread ls) => .next (s.reread (sectionOf s.tid) s.th.gang (some s.th.rank) ls)
  | .error (.tiles e n) => .next (s.awaitTile e n)
  | .error (.machine f) => .fault f

/-! ### Retirement -/

/-- Retire with the next instruction at `target`: a thread with its step bit set takes a step fault before it (R369). -/
def retireTo (s : State) (target : Word) : State :=
  s.setTh { s.th with pc := target, stepDue := s.th.stepBit, wait := .none, paid := 0, late := false }

/-- Retire and go on at pc + 4. -/
def retire (s : State) : State := retireTo s (s.th.pc + 4)

/-! ### Registers -/

/-- A register is ready when no held request will write it (R186). -/
def Thread.pending (t : Thread) (r : DestReg) : Bool := t.pend.any fun e => e.1 == r

/-- The object and the offset of the held request that poisoned a register, if it is poisoned (R187, R379). -/
def Thread.poisonOf (t : Thread) (r : DestReg) : Option (Option Nat × Word) := (t.poison.find? fun e => e.1 == r).map (·.2)

/-- The check every reader of a register makes (R186, R187). -/
def ready (s : State) (r : DestReg) : Except Stop Unit :=
  if s.th.pending r then .error .stall
  else match s.th.poisonOf r with
    | some (obj, off) => .error (.trap { cause := 0x0B, addr := off, miss := obj.map fun n => { obj := n, off := off.toNat } })
    | none => .ok ()

/-- A write to a register ends its wait for a reply and clears its poison mark (R186, R187). -/
def Thread.clean (t : Thread) (r : DestReg) : Thread :=
  { t with pend := t.pend.filter fun e => e.1 != r, poison := t.poison.filter fun e => e.1 != r }

/-- The value of an `x` register: `x0` is 0 (R58). -/
def Thread.rx (t : Thread) (r : Rx) : Word := if r = 0 then 0 else t.x[r]
/-- An `x` register written; a write to `x0` is discarded (R58). -/
def Thread.wx (t : Thread) (r : Rx) (v : Word) : Thread :=
  if r = 0 then t else { t.clean (.x r) with x := t.x.set r v }
def Thread.ra (t : Thread) (r : Ra) : Ref := t.a[r]
def Thread.wa (t : Thread) (r : Ra) (v : Ref) : Thread := { t.clean (.a r) with a := t.a.set r v }
def Thread.rv (t : Thread) (r : Rv) : VReg := t.v[r]
def Thread.wv (t : Thread) (r : Rv) (v : VReg) : Thread := { t.clean (.v r) with v := t.v.set r v }
/-- `p0` reads as all ones and discards writes (R58). -/
def Thread.rp (t : Thread) (r : Rp) : PReg := if r = 0 then BitVec.allOnes 128 else t.p[r]
def Thread.wp (t : Thread) (r : Rp) (v : PReg) : Thread := if r = 0 then t else { t with p := t.p.set r v }
/-- The governing predicate of an F-V word (R80, R121). -/
def Thread.rg (t : Thread) (g : Rg) : PReg := t.rp ⟨g.val, by omega⟩

/-- Read an `x`, `a` or `v` register as a source (R93, R186, R187). -/
def useX (s : State) (r : Rx) : Except Stop Word := do
  if r = 0 then return 0
  ready s (.x r)
  return s.th.x[r]
def useA (s : State) (r : Ra) : Except Stop Ref := do
  ready s (.a r)
  return s.th.a[r]
def useV (s : State) (r : Rv) : Except Stop VReg := do
  ready s (.v r)
  return s.th.v[r]

namespace State
def wx (s : State) (r : Rx) (v : Word) : State := s.setTh (s.th.wx r v)
def wa (s : State) (r : Ra) (v : Ref) : State := s.setTh (s.th.wa r v)
def wv (s : State) (r : Rv) (v : VReg) : State := s.setTh (s.th.wv r v)
def wp (s : State) (r : Rp) (v : PReg) : State := s.setTh (s.th.wp r v)
end State

/-- Mark a register as one that the next hold entry's reply will write (R186); `x0` takes no reply. -/
def State.markPend (s : State) (r : DestReg) : State :=
  if r = .x 0 then s
  else let t := s.th.clean r
    s.setTh { t with pend := (r, s.seq) :: t.pend }

/-! ### Tile registers -/

/-- The half, and so the engine, of a tile register (R17). -/
def halfOf (r : Rt) : Nat := r.val / 8

/-- The empty tile reads as zero bytes, a zero scale side and tag 0 (R153). -/
def Tile.image (t : Option Tile) : TileImage :=
  match t with
  | none => { data := 0, scale := 0, tag := 0 }
  | some t => { data := t.data, scale := t.scale, tag := t.tag }

/-- Where the scale side, the tag and the live bit of a tile register's number lie, above its 32,768 data bits. -/
def scaleAt : Nat := 32768
def tagAt : Nat := 36864
def liveAt : Nat := 36868

/-- The image in the number of a tile register. -/
def TileImage.ofNat (n : Nat) : TileImage :=
  { data := BitVec.ofNat 32768 n, scale := BitVec.ofNat 4096 (n / 2 ^ scaleAt), tag := field n tagAt 4 }

/-- The old physical tile of a register waits for its late free (R154, R246). -/
def State.supersede (s : State) (eng : Nat) (old : Option Tile) : State :=
  match old with
  | none => s
  | some t =>
    let e := s.engine eng
    s.setEngine eng { e with late := e.late ++ [{ phys := t.phys, cycle := s.cycle, splitAt := none }] }

/-- Read a tile register as a source: its image, and the check of R186 and R187. -/
def useT (s : State) (r : Rt) : Except Stop TileImage := do
  ready s (.t r)
  return Tile.image s.th.t[r]

/-- A thread has taken a tile: one that it was granted, if it was (R154, R155). -/
def Engine.take (e : Engine) (tid cycle free : Nat) : Engine :=
  { (e.noteSnap cycle free) with
    waiting := (e.waiting.map fun w => if w.tid = tid then { w with got := w.got - 1, need := w.need - 1 } else w).filter
      fun w => w.need != 0 }

/-- Wait until the current thread may take a number of tiles of an engine (R154). -/
def needTiles (s : State) (eng n : Nat) : Except Stop Unit := if n ≤ tilesFor s eng s.tid then .ok () else .error (.tiles eng n)

/-- Write a tile register: it takes a fresh physical tile, and waits while there is none for it (R153, R154). -/
def writeTile (s : State) (r : Rt) (img : TileImage) : Except Stop State := do
  let eng := engineOf s.tid (halfOf r)
  needTiles s eng 1
  let free := freeTiles s eng
  let old := s.th.t[r]
  let t := s.th.clean (.t r)
  let e := (grantTiles s eng).take s.tid s.cycle free.length
  let s := s.setTh { t with t := t.t.set r (some { data := img.data, scale := img.scale, tag := img.tag, phys := free.headD 0 }) }
  return (s.setEngine eng e).supersede eng old

/-- Make a tile register empty (R153). -/
def emptyTile (s : State) (r : Rt) : State :=
  let old := s.th.t[r]
  let t := s.th.clean (.t r)
  (s.setTh { t with t := t.t.set r none }).supersede (engineOf s.tid (halfOf r)) old

/-- LIVE of `tstat` (R155). -/
def Thread.live (t : Thread) : Nat :=
  (List.range 16).foldl (fun n i => if (t.t.toList.getD i none).isSome then n + 2 ^ i else n) 0

/-! ### Elements (R30) -/

/-- Element `e` of width `w` bits of a bit vector, as a number. -/
def elem {n : Nat} (w e : Nat) (v : BitVec n) : Nat := v.toNat / 2 ^ (w * e) % 2 ^ w

/-- A bit vector with element `e` of width `w` replaced by the low `w` bits of a number. -/
def setElem {n : Nat} (w e : Nat) (v : BitVec n) (x : Nat) : BitVec n :=
  BitVec.ofNat n (v.toNat - elem w e v * 2 ^ (w * e) + x % 2 ^ w * 2 ^ (w * e))

/-- A number whose element `e` of width `w` is the e-th of the list. -/
def packList (w : Nat) : List Nat → Nat
  | [] => 0
  | x :: xs => x % 2 ^ w + 2 ^ w * packList w xs

/-- The first `n` elements of width `w`. -/
def elems {m : Nat} (w n : Nat) (v : BitVec m) : List Nat := (List.range n).map fun e => elem w e v

/-- A signed number from its low `w` bits (R29). -/
def toSigned (w v : Nat) : Int := if v % 2 ^ w < 2 ^ (w - 1) then (v % 2 ^ w : Nat) else (v % 2 ^ w : Nat) - (2 ^ w : Nat)

/-- The low `w` bits of an integer (R9, R29). -/
def wrap (w : Nat) (v : Int) : Nat := (v % (2 ^ w : Nat)).toNat

/-- Sign-extend a w-bit number into a word. -/
def sextTo (w v : Nat) : Word := BitVec.ofInt 64 (toSigned w v)

end Sys2Proof.Machine
end

