-- ==== Sys2Proof/Machine/Num.lean ====
section
/-! DEFINITION. Number formats, rounding, conversions and exact sums (02 R29 to R51). A finite value is kept exactly,
as a sign, a natural number and a power of two. -/

namespace Sys2Proof

open Machine

namespace Machine

/-- A resolved rounding mode (R41). -/
inductive Mode where
  | rne | rtz | rup | rdn
  deriving DecidableEq, Repr

/-- The `rm` field of `fcsr`, bits 17:16 (R52). -/
def modeOf (fcsr : Word) : Mode :=
  match bits fcsr 16 2 with
  | 0 => .rne | 1 => .rtz | 2 => .rup | _ => .rdn

end Machine

/-- The mode that an encoded rm selects (R80, R54). -/
def Rm.mode (fcsr : Word) : Rm → Mode
  | .rne => .rne | .rtz => .rtz | .rup => .rup | .rdn => .rdn | .dyn => modeOf fcsr

namespace Machine

/-- Flags in the bit order of `fcsr[5:0]` (R52). -/
abbrev Flags := BitVec 6
namespace Flag
def nx : Flags := 1
def uf : Flags := 2
def of : Flags := 4
def dz : Flags := 8
def nv : Flags := 16
def sat : Flags := 32
end Flag

/-- A value of a floating format (R31 to R34): a NaN, an infinity, or (−1)^neg × m × 2^e. -/
inductive FVal where
  | nan (signalling : Bool)
  | inf (neg : Bool)
  | fin (neg : Bool) (m : Nat) (e : Int)
  deriving DecidableEq, Repr

/-! ### Types (R29, R31, R120) -/

end Machine

/-- Bits of an element in a register (R120); an l6 element takes 8 (R36). -/
def Ty.width : Ty → Nat
  | .i8 | .n8 | .e4m3 | .e5m2 | .l6 => 8
  | .i16 | .n16 | .f16 | .bf16 => 16
  | .i32 | .n32 | .f32 => 32
  | .i64 | .n64 | .f64 => 64

/-- Bytes of an element in a register: `s` of R120. -/
def Ty.bytes (t : Ty) : Nat := t.width / 8

/-- Least and greatest value of an integer type (R29). -/
def Ty.intMin (t : Ty) : Int := if t.signed then -(2 ^ (t.width - 1) : Nat) else 0
def Ty.intMax (t : Ty) : Int := if t.signed then (2 ^ (t.width - 1) : Nat) - 1 else (2 ^ t.width : Nat) - 1

namespace Machine

/-- An integer element's value (R29). -/
def intVal (t : Ty) (v : Nat) : Int := if t.signed then toSigned t.width v else (v % 2 ^ t.width : Nat)

/-- A binary format (R31): exponent and fraction bits, bias, precision, exponent of the smallest normal, the largest
finite value `maxM × 2^maxE`, and whether it has an infinity. -/
structure Fmt where
  ebits : Nat
  fbits : Nat
  bias : Int
  p : Nat
  emin : Int
  maxM : Nat
  maxE : Int
  hasInf : Bool

end Machine

/-- The formats of R31; the row of l6 serves only its overflow (R44), and integers have none. -/
def Ty.fmt : Ty → Fmt
  | .f64 => ⟨11, 52, 1023, 53, -1022, 2 ^ 53 - 1, 971, true⟩
  | .f16 => ⟨5, 10, 15, 11, -14, 2 ^ 11 - 1, 5, true⟩
  | .bf16 => ⟨8, 7, 127, 8, -126, 2 ^ 8 - 1, 120, true⟩
  | .e4m3 => ⟨4, 3, 7, 4, -6, 14, 5, false⟩
  | .e5m2 => ⟨5, 2, 15, 3, -14, 7, 13, true⟩
  | .l6 => ⟨0, 5, 0, 16, -4, 55109, -12, false⟩
  | _ => ⟨8, 23, 127, 24, -126, 2 ^ 24 - 1, 104, true⟩

/-- The 8-bit format of an estimate in a type's exponent range (R127). -/
def Ty.estFmt (t : Ty) : Fmt :=
  let f := t.fmt
  { f with p := 8, maxM := 255, maxE := f.maxE + f.p - 8 }

/-- The canonical quiet NaN (R32). -/
def Ty.nan : Ty → Nat
  | .f64 => 0x7FF8000000000000 | .f16 => 0x7E00 | .bf16 => 0x7FC0 | .e4m3 => 0x7F | .e5m2 => 0x7E
  | .l6 => 0x20 | _ => 0x7FC00000

/-- The sign bit's weight. -/
def Ty.signBit : Ty → Nat
  | .l6 => 2 ^ 5
  | t => 2 ^ (t.width - 1)

namespace Machine

def signed (t : Ty) (neg : Bool) (mag : Nat) : Nat := if neg then t.signBit + mag else mag

end Machine

/-- Magnitude bits of the infinity and of the largest finite value (R31, R33). -/
def Ty.infMag (t : Ty) : Nat := (2 ^ t.fmt.ebits - 1) * 2 ^ t.fmt.fbits
def Ty.maxMag : Ty → Nat
  | .e4m3 => 0x7E
  | .l6 => 31
  | t => t.infMag - 1

namespace Machine

/-! ### l6 (R33 to R35) -/

/-- 2^(f/4) in 1.15 fixed point (R34). -/
def linT (f : Nat) : Nat :=
  match f % 4 with
  | 0 => 32768 | 1 => 38968 | 2 => 46341 | _ => 55109

/-- `Lin(m)` as a natural number times 2^(second component) (R34). -/
def lin (m : Nat) : Nat × Int := (linT m, (m / 4 : Nat) - 15)

/-- The linearised magnitude `V(M)` (R34). -/
def l6Val (m : Nat) : Nat × Int := ((lin m).1, (lin m).2 - 4)

/-! ### Reading an element -/

/-- The value of an element's bits (R31 to R34). With `fzi`, a subnormal reads as a zero of its sign (R42). -/
def fval (t : Ty) (fzi : Bool) (b : Nat) : FVal :=
  match t with
  | .l6 =>
    let c := b % 64
    if c = 32 then .nan false
    else if c = 0 then .fin false 0 0
    else .fin (c / 32 = 1) (l6Val (c % 32)).1 (l6Val (c % 32)).2
  | t =>
    let f := t.fmt
    let neg := b / t.signBit % 2 = 1
    let ex := b / 2 ^ f.fbits % 2 ^ f.ebits
    let fr := b % 2 ^ f.fbits
    if t = .e4m3 ∧ b % 128 = 127 then .nan false
    else if f.hasInf ∧ ex = 2 ^ f.ebits - 1 then
      (if fr = 0 then .inf neg else .nan (t ≠ .e5m2 && decide (fr < 2 ^ (f.fbits - 1))))
    else if ex = 0 then
      (if fzi then .fin neg 0 0 else .fin neg fr (f.emin - f.fbits))
    else .fin neg (fr + 2 ^ f.fbits) (ex - f.bias - f.fbits)

def FVal.isZero : FVal → Bool
  | .fin _ m _ => m == 0
  | _ => false

def FVal.neg : FVal → FVal
  | .nan s => .nan s
  | .inf n => .inf !n
  | .fin n m e => .fin (!n) m e

/-- Times a power of two, exactly (R39, R40). -/
def FVal.scale (k : Int) : FVal → FVal
  | .fin n m e => .fin n m (e + k)
  | v => v

/-! ### Rounding (R41 to R44) -/

/-- `a × 2^ea ≤ b × 2^eb`, exactly. -/
def dyLe (a : Nat) (ea : Int) (b : Nat) (eb : Int) : Bool :=
  let k := min ea eb
  a * 2 ^ (ea - k).toNat ≤ b * 2 ^ (eb - k).toNat
def dyLt (a : Nat) (ea : Int) (b : Nat) (eb : Int) : Bool := !dyLe b eb a ea

/-- The integer nearest to m × 2^e / 2^k in a mode, and whether it differs; with `sticky`, the value lies strictly
between m and m + 1 units of 2^e. -/
def roundUnit (mode : Mode) (neg : Bool) (m : Nat) (e : Int) (sticky : Bool) (k : Int) : Nat × Bool :=
  if k ≤ e then
    let n := m * 2 ^ (e - k).toNat
    let up := match mode with
      | .rup => sticky && !neg
      | .rdn => sticky && neg
      | _ => false
    (if up then n + 1 else n, sticky)
  else
    let sh := (k - e).toNat
    let n := m / 2 ^ sh
    let r := m % 2 ^ sh
    let half := 2 ^ (sh - 1)
    let inexact := r != 0 || sticky
    let up := match mode with
      | .rne => r > half || (r == half && (sticky || n % 2 == 1))
      | .rtz => false
      | .rup => inexact && !neg
      | .rdn => inexact && neg
    (if up then n + 1 else n, inexact)

/-- The bits of m × 2^e, which the format holds exactly. -/
def encodeFin (t : Ty) (neg : Bool) (m : Nat) (e : Int) : Nat :=
  let f := t.fmt
  if m = 0 then signed t neg 0
  else
    let top := e + Nat.log2 m
    if f.emin ≤ top then
      let frac := if top - f.fbits ≤ e then m * 2 ^ (e - (top - f.fbits)).toNat else m / 2 ^ ((top - f.fbits) - e).toNat
      signed t neg ((top + f.bias).toNat * 2 ^ f.fbits + frac % 2 ^ f.fbits)
    else
      let q := f.emin - f.fbits
      signed t neg (if q ≤ e then m * 2 ^ (e - q).toNat else m / 2 ^ (q - e).toNat)

/-- The result of an overflow and its flags (R43). -/
def overflow (t : Ty) (mode : Mode) (neg sat : Bool) : Nat × Flags :=
  let toMax := match mode with
    | .rne => false
    | .rtz => true
    | .rup => neg
    | .rdn => !neg
  let big := signed t neg t.maxMag
  if toMax then (big, Flag.of ||| Flag.nx)
  else if sat then (big, Flag.of ||| Flag.nx ||| Flag.sat)
  else (if t.fmt.hasInf then signed t neg t.infMag else t.nan, Flag.of ||| Flag.nx)

/-- Rounding of a nonzero magnitude to l6 (R44). -/
def roundL6 (mode : Mode) (sat neg : Bool) (m : Nat) (e : Int) : Nat × Flags :=
  let le := fun k => dyLe (l6Val k).1 (l6Val k).2 m e
  let lo := ((List.range 32).filter fun k => k != 0 && le k).length
  let exact := lo != 0 && dyLe m e (l6Val lo).1 (l6Val lo).2
  let code := fun k => if k = 0 then 0 else signed .l6 neg k
  if exact then (code lo, 0)
  else
    -- twice the value against the sum of the neighbours (V(0) counts as zero, V(32) as 16)
    let a := if lo = 0 then 0 else (l6Val lo).1 * 2 ^ ((l6Val lo).2 + 19).toNat
    let b := (l6Val (lo + 1)).1 * 2 ^ ((l6Val (lo + 1)).2 + 19).toNat
    let above := dyLt (a + b) (-19) m (e + 1)
    let tie := !above && dyLe (a + b) (-19) m (e + 1)
    let up : Bool := match mode with
      | .rne => above || (tie && lo % 2 == 1)
      | .rtz => false
      | .rup => !neg
      | .rdn => neg
    if lo = 31 ∧ (above ∨ tie ∨ up) then overflow .l6 mode neg sat
    else
      let k := if up then lo + 1 else lo
      (code k, if k = 0 then Flag.nx ||| Flag.uf else Flag.nx)

/-- Round a nonzero exact value to a format written in type `t` (R41 to R43). -/
def roundFmt (f : Fmt) (t : Ty) (mode : Mode) (sat fzo neg : Bool) (m : Nat) (e : Int) (sticky : Bool) : Nat × Flags :=
  let k := e + Nat.log2 m + 1 - f.p
  let r := roundUnit mode neg m e sticky k
  if dyLt f.maxM f.maxE r.1 k then overflow t mode neg sat
  else if dyLt r.1 k 1 f.emin then
    -- tiny (R42)
    let q := f.emin - (f.p - 1 : Nat)
    let r := roundUnit mode neg m e sticky q
    if fzo then (signed t neg 0, Flag.uf ||| Flag.nx)
    else (encodeFin t neg r.1 q, if r.2 then Flag.uf ||| Flag.nx else 0)
  else if dyLt m e 1 f.emin then
    let q := f.emin - (f.p - 1 : Nat)
    let r := roundUnit mode neg m e sticky q
    (encodeFin t neg r.1 q, if r.2 then Flag.nx else 0)
  else (encodeFin t neg r.1 k, if r.2 then Flag.nx else 0)

/-- `Round(v, t, mode)` of a nonzero exact value (R41, R44). -/
def roundFin (t : Ty) (mode : Mode) (sat fzo neg : Bool) (m : Nat) (e : Int) (sticky : Bool) : Nat × Flags :=
  if t = .l6 then roundL6 mode sat neg m e else roundFmt t.fmt t mode sat fzo neg m e sticky

/-- A zero of a sign in a floating type; l6 has no negative zero (R33). -/
def zeroBits (t : Ty) (neg : Bool) : Nat := if t = .l6 then 0 else signed t neg 0

/-! ### Sums of exact terms (R41, R48) -/

/-- A term of a sum: a signalling or quiet NaN operand, an invalid product, an infinity, or a finite value. -/
inductive Term where
  | snan | qnan | invalid
  | inf (neg : Bool)
  | fin (neg : Bool) (m : Nat) (e : Int)
  deriving DecidableEq, Repr

def FVal.term : FVal → Term
  | .nan true => .snan
  | .nan false => .qnan
  | .inf n => .inf n
  | .fin n m e => .fin n m e

/-- The exact product of two values as a term (R47, R48). -/
def mulTerm (a b : FVal) : Term :=
  match a, b with
  | .nan true, _ | _, .nan true => .snan
  | .nan false, _ | _, .nan false => .qnan
  | .inf n, .inf k => .inf (n != k)
  | .inf n, .fin k m _ | .fin k m _, .inf n => if m = 0 then .invalid else .inf (n != k)
  | .fin n m e, .fin k m' e' => .fin (n != k) (m * m') (e + e')

def Term.neg : Term → Term
  | .inf n => .inf !n
  | .fin n m e => .fin (!n) m e
  | t => t

/-- A term times the scales of its operands; a NaN scale gives a NaN (R39, R48). -/
def Term.scaled (k : Int) (nan : Bool) (t : Term) : Term :=
  match t with
  | .snan => .snan
  | t => if nan then .qnan else match t with
    | .fin n m e => .fin n m (e + k)
    | t => t

/-- The smallest exponent of the finite terms. -/
def minExp : List Term → Option Int
  | [] => none
  | .fin _ m e :: ts =>
    if m = 0 then minExp ts
    else some (match minExp ts with
      | none => e
      | some k => min e k)
  | _ :: ts => minExp ts

/-- The exact sum of the finite terms in units of 2^k. -/
def sumUnits (k : Int) : List Term → Int
  | [] => 0
  | .fin n m e :: ts => (if n then -((m * 2 ^ (e - k).toNat : Nat) : Int) else ((m * 2 ^ (e - k).toNat : Nat) : Int)) + sumUnits k ts
  | _ :: ts => sumUnits k ts

/-- The sign of an exact zero sum: −0 when every addend is −0, or in RDN when some addend is other than +0 (R41). -/
def zeroSign (mode : Mode) (ts : List Term) : Bool :=
  (ts.all fun t => match t with
    | .fin n m _ => n && m == 0
    | _ => false)
  || (mode == .rdn && ts.any fun t => match t with
    | .fin n m _ => n || m != 0
    | _ => true)

/-- One rounded sum of exact terms in a floating type, special values first (R48, R41). -/
def roundSum (t : Ty) (mode : Mode) (fzo : Bool) (ts : List Term) : Nat × Flags :=
  if ts.any (· == .snan) then (t.nan, Flag.nv)
  else if ts.any (· == .qnan) then (t.nan, 0)
  else if ts.any (· == .invalid) then (t.nan, Flag.nv)
  else if ts.any (· == .inf true) && ts.any (· == .inf false) then (t.nan, Flag.nv)
  else if ts.any (· == .inf true) then (signed t true t.infMag, 0)
  else if ts.any (· == .inf false) then (signed t false t.infMag, 0)
  else match minExp ts with
    | none => (zeroBits t (zeroSign mode ts), 0)
    | some k =>
      let s := sumUnits k ts
      if s = 0 then (zeroBits t (zeroSign mode ts), 0)
      else roundFin t mode false fzo (s < 0) s.natAbs k false

/-- The product of two l6 elements in a tile multiply (R35). -/
def l6Product (a b : Nat) : Term :=
  let a := a % 64
  let b := b % 64
  if a = 32 ∨ b = 32 then .qnan
  else if a = 0 ∨ b = 0 then .fin (a / 32 != b / 32) 0 0
  else .fin (a / 32 != b / 32) (lin (a % 32 + b % 32)).1 ((lin (a % 32 + b % 32)).2 - 8)

/-! ### Division, square root, estimates (R125, R127, R53) -/

/-- The exact quotient of nonzero magnitudes, to 130 bits or more, and whether a remainder is left. -/
def quotient (m : Nat) (e : Int) (m' : Nat) (e' : Int) : Nat × Int × Bool :=
  let sh := 130 + Nat.log2 m'
  let n := m * 2 ^ sh
  (n / m', e - e' - sh, n % m' != 0)

/-- The square root of a nonzero magnitude, to 130 bits or more. -/
def rootOf (m : Nat) (e : Int) : Nat × Int × Bool :=
  let sh : Nat := if (e - 260) % 2 = 0 then 260 else 261
  let n := m * 2 ^ sh
  let r := Nat.sqrt n
  (r, (e - sh) / 2, r * r != n)

def fdiv (t : Ty) (mode : Mode) (fzo : Bool) (a b : FVal) : Nat × Flags :=
  match a, b with
  | .nan true, _ | _, .nan true => (t.nan, Flag.nv)
  | .nan false, _ | _, .nan false => (t.nan, 0)
  | .inf _, .inf _ => (t.nan, Flag.nv)
  | .inf n, .fin k _ _ => (signed t (n != k) t.infMag, 0)
  | .fin n _ _, .inf k => (zeroBits t (n != k), 0)
  | .fin n m e, .fin k m' e' =>
    if m' = 0 then (if m = 0 then (t.nan, Flag.nv) else (signed t (n != k) t.infMag, Flag.dz))
    else if m = 0 then (zeroBits t (n != k), 0)
    else
      let q := quotient m e m' e'
      roundFin t mode false fzo (n != k) q.1 q.2.1 q.2.2

def fsqrt (t : Ty) (mode : Mode) (fzo : Bool) (a : FVal) : Nat × Flags :=
  match a with
  | .nan s => (t.nan, if s then Flag.nv else 0)
  | .inf true => (t.nan, Flag.nv)
  | .inf false => (signed t false t.infMag, 0)
  | .fin n m e =>
    if m = 0 then (zeroBits t n, 0)
    else if n then (t.nan, Flag.nv)
    else
      let r := rootOf m e
      roundFin t mode false fzo false r.1 r.2.1 r.2.2

/-- `Est(v)`: RNE to the 8-bit format, NX never raised (R127). -/
def estimate (t : Ty) (fzo neg : Bool) (m : Nat) (e : Int) (sticky : Bool) : Nat × Flags :=
  let r := roundFmt t.estFmt t .rne false fzo neg m e sticky
  (r.1, r.2 &&& ~~~Flag.nx)

def frcpe (t : Ty) (fzo : Bool) (a : FVal) : Nat × Flags :=
  match a with
  | .nan s => (t.nan, if s then Flag.nv else 0)
  | .inf n => (zeroBits t n, 0)
  | .fin n m e =>
    if m = 0 then (signed t n t.infMag, Flag.dz)
    else
      let q := quotient 1 0 m e
      estimate t fzo n q.1 q.2.1 q.2.2

def frsqe (t : Ty) (fzo : Bool) (a : FVal) : Nat × Flags :=
  match a with
  | .nan s => (t.nan, if s then Flag.nv else 0)
  | .inf true => (t.nan, Flag.nv)
  | .inf false => (zeroBits t false, 0)
  | .fin n m e =>
    if m = 0 then (signed t n t.infMag, Flag.dz)
    else if n then (t.nan, Flag.nv)
    else
      -- 1/√(m × 2^e) = √(2^(2k) / m) × 2^(−k − e/2), with e made even first
      let me := if e % 2 = 0 then (m, e) else (2 * m, e - 1)
      let k := 140 + Nat.log2 me.1
      let n := 2 ^ (2 * k)
      let r := Nat.sqrt (n / me.1)
      estimate t fzo false r (-(k : Int) - me.2 / 2) (r * r * me.1 != n)

/-! ### Comparison, minimum, maximum (R126, R128) -/

/-- An integer that orders finite values of a common exponent. -/
def alignVal (k : Int) (n : Bool) (m : Nat) (e : Int) : Int :=
  if n then -((m * 2 ^ (e - k).toNat : Nat) : Int) else ((m * 2 ^ (e - k).toNat : Nat) : Int)

/-- `a < b` of values that are no NaN; −0 equals +0. -/
def FVal.lt : FVal → FVal → Bool
  | .inf n, .inf k => n && !k
  | .inf n, .fin _ _ _ => n
  | .fin _ _ _, .inf k => !k
  | .fin n m e, .fin k m' e' => alignVal (min e e') n m e < alignVal (min e e') k m' e'
  | _, _ => false

def FVal.eq (a b : FVal) : Bool :=
  match a, b with
  | .nan _, _ | _, .nan _ => false
  | a, b => !a.lt b && !b.lt a

def FVal.isNan : FVal → Bool
  | .nan _ => true
  | _ => false
def FVal.isSnan : FVal → Bool
  | .nan s => s
  | _ => false
def FVal.isNeg : FVal → Bool
  | .inf n | .fin n _ _ => n
  | .nan _ => false

/-- The bits of a value that the type holds exactly. -/
def bitsOf (t : Ty) : FVal → Nat
  | .nan _ => t.nan
  | .inf n => signed t n t.infMag
  | .fin n m e => encodeFin t n m e

/-- Min (or Max) of two values: NaN first, −0 below +0, `fzo` on the result (R126, R42). -/
def fminmax (t : Ty) (isMax fzo : Bool) (a b : FVal) : Nat × Flags :=
  if a.isNan || b.isNan then (t.nan, if a.isSnan || b.isSnan then Flag.nv else 0)
  else
    let aLess := a.lt b || (!b.lt a && a.isNeg && !b.isNeg)
    let r := if aLess != isMax then a else b
    match r with
    | .fin n m e =>
      if fzo && m != 0 && dyLt m e 1 t.fmt.emin then (signed t n 0, Flag.uf ||| Flag.nx) else (bitsOf t r, 0)
    | r => (bitsOf t r, 0)

/-! ### Conversions (R45, R46) -/

/-- A floating value to an integer type (R46). -/
def toInt (t : Ty) (mode : Mode) (sat : Bool) (v : FVal) : Nat × Flags :=
  match v with
  | .nan _ => (0, Flag.nv)
  | .inf n =>
    if sat then (wrap t.width (if n then t.intMin else t.intMax), Flag.sat) else (0, Flag.nv)
  | .fin n m e =>
    let r := roundUnit mode n m e false 0
    let i : Int := if n then -(r.1 : Int) else r.1
    let nx := if r.2 then Flag.nx else 0
    if t.intMin ≤ i ∧ i ≤ t.intMax then (wrap t.width i, nx)
    else if sat then (wrap t.width (if i < t.intMin then t.intMin else t.intMax), nx ||| Flag.sat)
    else (wrap t.width i, nx ||| Flag.nv)

/-- A floating value to a floating type (R45). -/
def toFloat (t : Ty) (mode : Mode) (sat fzo : Bool) (v : FVal) : Nat × Flags :=
  match v with
  | .nan s => (t.nan, if s then Flag.nv else 0)
  | .inf n =>
    if sat then (signed t n t.maxMag, Flag.sat)
    else if t.fmt.hasInf then (signed t n t.infMag, 0)
    else (t.nan, Flag.nv)
  | .fin n m e => if m = 0 then (zeroBits t n, 0) else roundFin t mode sat fzo n m e false

/-- `Convert(v, t, mode, sat)` of a floating value. -/
def convertF (t : Ty) (mode : Mode) (sat fzo : Bool) (v : FVal) : Nat × Flags :=
  if t.isInt then toInt t mode sat v else toFloat t mode sat fzo v

/-- An integer to any type (R46). -/
def convertI (t : Ty) (mode : Mode) (sat fzo : Bool) (i : Int) : Nat × Flags :=
  if t.isInt then
    (if t.intMin ≤ i ∧ i ≤ t.intMax ∨ sat = false then (wrap t.width i, 0)
     else (wrap t.width (if i < t.intMin then t.intMin else t.intMax), Flag.sat))
  else if i = 0 then (zeroBits t false, 0)
  else roundFin t mode sat fzo (i < 0) i.natAbs 0 false

/-- Conversion of an element's bits (R45, R46). -/
def convert (tin tout : Ty) (mode : Mode) (sat fzi fzo : Bool) (b : Nat) : Nat × Flags :=
  if tin.isInt then convertI tout mode sat fzo (intVal tin b) else convertF tout mode sat fzo (fval tin fzi b)

/-- Rounding to an integral value in the same format (R136). -/
def roundIntegral (t : Ty) (mode : Mode) (v : FVal) : Nat × Flags :=
  match v with
  | .nan s => (t.nan, if s then Flag.nv else 0)
  | .inf n => (signed t n t.infMag, 0)
  | .fin n m e =>
    let r := roundUnit mode n m e false 0
    (encodeFin t n r.1 0, if r.2 then Flag.nx else 0)

/-- A value times 2^k rounded in its type; zeros and infinities keep their value (R137 to R139). -/
def scaleRound (t : Ty) (mode : Mode) (fzo : Bool) (k : Int) (v : FVal) : Nat × Flags :=
  match v with
  | .fin n m e => if m = 0 then (zeroBits t n, 0) else roundFin t mode false fzo n m (e + k) false
  | v => toFloat t mode false fzo v

/-! ### Block scales (R37 to R40) -/

end Machine

/-- emax of a target type (R40). -/
def Ty.emax : Ty → Int
  | .e4m3 => 8 | .e5m2 => 15 | _ => 3

namespace Machine

/-- floor(log2) of a block's amax, or none when no finite value is nonzero (R40). -/
def amaxLog : List FVal → Option Int
  | [] => none
  | .fin _ m e :: vs =>
    if m = 0 then amaxLog vs
    else some (match amaxLog vs with
      | none => e + Nat.log2 m
      | some k => max (e + Nat.log2 m) k)
  | _ :: vs => amaxLog vs

/-- The scale E of a block (R40). -/
def blockScale (t : Ty) (vs : List FVal) : Nat :=
  match amaxLog vs with
  | none => 127
  | some k => (min (max (k - t.emax + 127) 0) 254).toNat

/-- `amofadd`: RoundRNE(m + s) with no flush and no flag (R193). -/
def faddRne (t : Ty) (a b : Nat) : Nat := (roundSum t .rne false [(fval t false a).term, (fval t false b).term]).1

end Machine

end Sys2Proof
end

