-- ==== Sys2Proof/Machine/Flags.lean ====
section
/-! DEFINITION. Raising arithmetic flags (02 R52 to R57). -/

namespace Sys2Proof.Machine

/-- The enable bits of `fcsr`, in the order of the flags (R52). -/
def enables (fcsr : Word) : Flags := BitVec.ofNat 6 (bits fcsr 8 6)

/-- `fcsr` with flags ORed in (R54). -/
def orFlags (fcsr : Word) (f : Flags) : Word := fcsr ||| BitVec.ofNat 64 f.toNat

/-- Raise flags at retirement, or take the numeric fault when one of them is enabled (R54, R56). -/
def raiseFlags (s : State) (f : Flags) (step : Nat := 0) : Except Stop State :=
  if enables s.th.fcsr &&& f = 0 then .ok (s.setTh { s.th with fcsr := orFlags s.th.fcsr f })
  else .error (.trap { cause := 0x0E, info := BitVec.ofNat 64 f.toNat, step })

/-- The flags of many operations together (R55). -/
def gather (fs : List (Nat × Flags)) : Flags := fs.foldl (fun a b => a ||| b.2) 0

end Sys2Proof.Machine
end

