-- ==== Sys2Proof/Machine/Crypto.lean ====
section
/-! DEFINITION. SHAKE256 (FIPS 202), AES-256-XTS (FIPS 197, IEEE 1619) and Falcon-1024 verification, which R341, R398,
R400, R403 and R404 name. -/

namespace Sys2Proof.Machine

/-! ### SHAKE256 -/

/-- Round constants of Keccak-f[1600]. -/
def keccakRC : List Word :=
  [0x0000000000000001, 0x0000000000008082, 0x800000000000808A, 0x8000000080008000, 0x000000000000808B,
   0x0000000080000001, 0x8000000080008081, 0x8000000000008009, 0x000000000000008A, 0x0000000000000088,
   0x0000000080008009, 0x000000008000000A] ++
  [0x000000008000808B, 0x800000000000008B, 0x8000000000008089, 0x8000000000008003, 0x8000000000008002,
   0x8000000000000080, 0x000000000000800A, 0x800000008000000A, 0x8000000080008081, 0x8000000000008080,
   0x0000000080000001, 0x8000000080008008]

/-- Rotation offsets of lane x + 5y. -/
def keccakRot : List Nat :=
  [0, 1, 62, 28, 27, 36, 44, 6, 55, 20, 3, 10, 43, 25, 39, 41, 45, 15, 21, 8, 18, 2, 61, 56, 14]

/-- One round on the 25 lanes (theta, rho and pi, chi, iota). -/
def keccakRound (rc : Word) (a : List Word) : List Word :=
  let l := fun i => a.getD i 0
  let c := (List.range 5).map fun x => l x ^^^ l (x + 5) ^^^ l (x + 10) ^^^ l (x + 15) ^^^ l (x + 20)
  let d := (List.range 5).map fun x => c.getD ((x + 4) % 5) 0 ^^^ (c.getD ((x + 1) % 5) 0).rotateLeft 1
  let t := (List.range 25).map fun i => l i ^^^ d.getD (i % 5) 0
  -- lane (x, y) of the next state before chi comes from lane (x + 3y, x)
  let b := (List.range 25).map fun i =>
    let x := i % 5
    let y := i / 5
    let j := (x + 3 * y) % 5 + 5 * x
    (t.getD j 0).rotateLeft (keccakRot.getD j 0)
  let e := (List.range 25).map fun i =>
    let x := i % 5
    let y := 5 * (i / 5)
    b.getD i 0 ^^^ (~~~(b.getD ((x + 1) % 5 + y) 0) &&& b.getD ((x + 2) % 5 + y) 0)
  match e with
  | [] => []
  | h :: r => (h ^^^ rc) :: r

def keccakF (a : List Word) : List Word := keccakRC.foldl (fun s rc => keccakRound rc s) a

/-- The bytes of a state's lanes. -/
def keccakBytes (a : List Word) : List Byte := a.flatMap fun w => leBytes 8 w.toNat

/-- A block of 136 bytes added to the state. -/
def keccakAbsorb (a : List Word) (block : List Byte) : List Word :=
  keccakF ((List.range 25).map fun i =>
    a.getD i 0 ^^^ (if i < 17 then BitVec.ofNat 64 (leNat ((block.drop (8 * i)).take 8)) else 0))

/-- The padded message in blocks of 136 bytes; `fuel` bounds their number. -/
def shakeBlocks : Nat → List Byte → List (List Byte)
  | 0, _ => []
  | fuel + 1, m =>
    if m.length < 136 then
      let p := m ++ [0x1F] ++ List.replicate (135 - m.length) 0
      [p.take 135 ++ [(p.getD 135 0) ||| 0x80]]
    else m.take 136 :: shakeBlocks fuel (m.drop 136)

def shakeSqueeze : Nat → List Word → List Byte
  | 0, _ => []
  | n + 1, a => (keccakBytes a).take 136 ++ shakeSqueeze n (keccakF a)

/-- SHAKE256 of a byte string, `n` bytes of output. -/
def shake256 (m : List Byte) (n : Nat) : List Byte :=
  let a := (shakeBlocks (m.length / 136 + 1) m).foldl keccakAbsorb (List.replicate 25 0)
  (shakeSqueeze (n / 136 + 1) a).take n

/-! ### AES-256-XTS -/

/-- Multiplication by x in GF(2^8) modulo x^8 + x^4 + x^3 + x + 1. -/
def gfX (a : Byte) : Byte := if bitAt a 7 then (a <<< 1) ^^^ 0x1B else a <<< 1

def gfMul (a b : Byte) : Byte :=
  ((List.range 8).foldl (fun (p : Byte × Byte) i => (if bitAt b i then p.1 ^^^ p.2 else p.1, gfX p.2)) (0, a)).1

/-- a^254, the inverse. -/
def gfInv (a : Byte) : Byte :=
  let a2 := gfMul a a
  let a3 := gfMul a2 a
  let a6 := gfMul a3 a3
  let a12 := gfMul a6 a6
  let a15 := gfMul a12 a3
  let a30 := gfMul a15 a15
  let a60 := gfMul a30 a30
  let a120 := gfMul a60 a60
  let a126 := gfMul a120 a6
  let a127 := gfMul a126 a
  gfMul a127 a127

def sbox (a : Byte) : Byte :=
  let b := gfInv a
  b ^^^ b.rotateLeft 1 ^^^ b.rotateLeft 2 ^^^ b.rotateLeft 3 ^^^ b.rotateLeft 4 ^^^ 0x63

def sboxInv (a : Byte) : Byte := gfInv (a.rotateLeft 1 ^^^ a.rotateLeft 3 ^^^ a.rotateLeft 6 ^^^ 0x05)

def xorBytes (a b : List Byte) : List Byte := List.zipWith (· ^^^ ·) a b

/-- The next word of the key schedule, number i, from the words so far, newest first. -/
def aesWord (i : Nat) (ws : List (List Byte)) : List Byte :=
  let prev := ws.getD 0 []
  let old := ws.getD 7 []
  let rcon := (List.range (i / 8 - 1)).foldl (fun b _ => gfX b) (1 : Byte)
  let t :=
    if i % 8 = 0 then xorBytes ((prev.drop 1 ++ prev.take 1).map sbox) [rcon, 0, 0, 0]
    else if i % 8 = 4 then prev.map sbox
    else prev
  xorBytes old t

/-- The 15 round keys of a 32-byte key. -/
def aesKeys (key : List Byte) : List (List Byte) :=
  let w0 := ((List.range 8).map fun i => (key.drop (4 * i)).take 4).reverse
  let ws := ((List.range 52).foldl (fun ws i => aesWord (i + 8) ws :: ws) w0).reverse
  (List.range 15).map fun r => ((ws.drop (4 * r)).take 4).flatten

/-- Byte r + 4c of a block after ShiftRows comes from column c + r. -/
def aesShift (b : List Byte) : List Byte :=
  (List.range 16).map fun i => b.getD ((i % 4) + 4 * ((i / 4 + i % 4) % 4)) 0
def aesUnshift (b : List Byte) : List Byte :=
  (List.range 16).map fun i => b.getD ((i % 4) + 4 * ((i / 4 + 4 - i % 4) % 4)) 0

/-- A column times the circulant matrix of a row of coefficients. -/
def aesMix (k : List Byte) (b : List Byte) : List Byte :=
  (List.range 16).map fun i =>
    let c := 4 * (i / 4)
    (List.range 4).foldl (fun s j => s ^^^ gfMul (k.getD ((j + 4 - i % 4) % 4) 0) (b.getD (c + j) 0)) 0

def aesEncrypt (keys : List (List Byte)) (b : List Byte) : List Byte :=
  let b := xorBytes b (keys.getD 0 [])
  let b := (List.range 13).foldl
    (fun b r => xorBytes (aesMix [2, 3, 1, 1] (aesShift (b.map sbox))) (keys.getD (r + 1) [])) b
  xorBytes (aesShift (b.map sbox)) (keys.getD 14 [])

def aesDecrypt (keys : List (List Byte)) (b : List Byte) : List Byte :=
  let b := (aesUnshift (xorBytes b (keys.getD 14 []))).map sboxInv
  let b := (List.range 13).foldl
    (fun b r => (aesUnshift (aesMix [14, 11, 13, 9] (xorBytes b (keys.getD (13 - r) [])))).map sboxInv) b
  xorBytes b (keys.getD 0 [])

/-- Multiplication of the tweak by x in GF(2^128). -/
def xtsNext (t : List Byte) : List Byte :=
  let n := 2 * leNat t
  leBytes 16 (if n < 2 ^ 128 then n else (n % 2 ^ 128).xor 0x87)

def xtsBlocks (f : List Byte → List Byte) : Nat → List Byte → List Byte → List Byte
  | 0, _, _ => []
  | n + 1, t, bs => xorBytes (f (xorBytes (bs.take 16) t)) t ++ xtsBlocks f n (xtsNext t) (bs.drop 16)

/-- A 256-byte data unit under a 64-byte key pair and a tweak number (R341). -/
def xtsEncrypt (key : List Byte) (tweak : Nat) (line : List Byte) : List Byte :=
  xtsBlocks (aesEncrypt (aesKeys (key.take 32))) 16 (aesEncrypt (aesKeys (key.drop 32)) (leBytes 16 tweak)) line
def xtsDecrypt (key : List Byte) (tweak : Nat) (line : List Byte) : List Byte :=
  xtsBlocks (aesDecrypt (aesKeys (key.take 32))) 16 (aesEncrypt (aesKeys (key.drop 32)) (leBytes 16 tweak)) line

/-! ### Falcon-1024 verification -/

/-- The modulus and the degree of Falcon-1024, and the bound on a signature's squared norm. -/
def falconQ : Nat := 12289
def falconN : Nat := 1024
def falconBound : Nat := 70265242

/-- Bits of a byte string, the highest of each byte first. -/
def bitsBE (bs : List Byte) : List Bool := bs.flatMap fun b => (List.range 8).map fun i => bitAt b (7 - i)

def natBE (bs : List Bool) : Nat := bs.foldl (fun n b => 2 * n + (if b then 1 else 0)) 0

/-- The public key's polynomial: a header byte, then 1,024 coefficients of 14 bits. -/
def falconPub (pk : List Byte) : Option (List Nat) :=
  match pk with
  | h :: body =>
    let bs := bitsBE body
    let cs := (List.range falconN).map fun i => natBE ((bs.drop (14 * i)).take 14)
    if h = 0x0A ∧ body.length = 1792 ∧ cs.all (· < falconQ) then some cs else none
  | [] => none

/-- Zeros up to a one: how many, and what follows. -/
def unary : Nat → List Bool → Option (Nat × List Bool)
  | _, [] => none
  | n, true :: bs => some (n, bs)
  | n, false :: bs => unary (n + 1) bs

/-- Compressed coefficients: a sign, seven low bits and the rest in unary; −0 is refused, the rest of the bits are zero. -/
def falconCoefs : Nat → List Bool → Option (List Int)
  | 0, bs => if bs.any id then none else some []
  | n + 1, s :: bs =>
    if bs.length < 7 then none
    else match unary 0 (bs.drop 7) with
      | none => none
      | some (hi, rest) =>
        let m := natBE (bs.take 7) + 128 * hi
        if 2047 < m ∨ (m = 0 ∧ s) then none
        else match falconCoefs n rest with
          | none => none
          | some cs => some ((if s then -(m : Int) else m) :: cs)
  | _ + 1, [] => none

/-- The point of a message: 16-bit samples below 5q, modulo q. -/
def falconPoint (bytes : List Byte) : List Nat :=
  let rec go : List Byte → List Nat
    | a :: b :: rest =>
      let t := 256 * a.toNat + b.toNat
      if t < 5 * falconQ then t % falconQ :: go rest else go rest
    | _ => []
  (go bytes).take falconN

/-- Coefficient k of a product modulo x^1024 + 1 and q. -/
def falconMulAt (a : List Int) (h : Array Nat) (k : Nat) : Int :=
  let r := a.foldl (fun (p : Int × Nat) (c : Int) =>
    let j := (k + falconN - p.2) % falconN
    let t : Int := c * ((h.getD j 0 : Nat) : Int)
    ((if p.2 ≤ k then p.1 + t else p.1 - t), p.2 + 1)) ((0 : Int), 0)
  r.1 % (falconQ : Int)

/-- The representative of a residue nearest to zero. -/
def centre (x : Int) : Int :=
  let y := x % (falconQ : Int)
  if y ≤ (falconQ / 2 : Nat) then y else y - falconQ

/-- Whether a signature of header, salt and compressed polynomial verifies. -/
def falconVerify (pk msg sig : List Byte) : Bool :=
  match falconPub pk, falconCoefs falconN (bitsBE (sig.drop 41)) with
  | some h, some s2 =>
    let c := falconPoint (shake256 ((sig.drop 1).take 40 ++ msg) 8192)
    let ha := h.toArray
    let s1 := (List.range falconN).map fun k => centre (((c.getD k 0 : Nat) : Int) - falconMulAt s2 ha k)
    let norm := (s1 ++ s2).foldl (fun n x => n + x.natAbs * x.natAbs) 0
    sig.getD 0 0 == 0x3A && c.length == falconN && norm ≤ falconBound
  | _, _ => false

end Sys2Proof.Machine
end

