-- ==== Sys2Proof/Machine/Trace.lean ====
section
/-! DEFINITION. The watched lines and trace rings (11 R295), and the race detector of test mode (11 R296). -/

namespace Sys2Proof.Machine

/-! ### Trace rings -/

/-- log2 of a size in bytes (R295). -/
def sizeLog (n : Nat) : Nat := Nat.log2 n

/-- A record of a trace ring (R295). -/
def traceBits (cycle kind size rank watch off : Nat) : TraceRec :=
  BitVec.ofNat 128
    (cycle % 2 ^ 40 * 2 ^ 88 + kind * 2 ^ 84 + size % 16 * 2 ^ 80 + rank % 2 ^ 32 * 2 ^ 48 + watch % 16 * 2 ^ 44
      + off % 2 ^ 44)

/-- Records appended to a section's ring; the newest 4,096 stay (R295). -/
def Section.append (k : Section) (rs : List TraceRec) : Section :=
  { k with trace := (rs.reverse ++ k.trace).take Config.traceRecords }

/-- The rank field of a record: 0xFFFF_FFFF for a party that is no thread (R295). -/
def rankField (r : Option Nat) : Nat := r.getD 0xFFFFFFFF

/-- The first place of each run of `n` bytes that some places lie in. -/
def firstsBy (n : Nat) (ls : List Loc) : List Loc :=
  ls.foldl (fun acc l => if acc.any fun k => k.key / n == l.key / n then acc else acc ++ [l]) []

/-- A write of kind 0 to 3 to one line: a record for each section that watches it, under the lowest of its indexes
(R295). -/
def State.traceLine (s : State) (kind : Nat) (rank : Option Nat) (l : Loc) (size : Nat) : State :=
  s.sections.foldl (fun s e =>
    match (s.sect e.1).watches.find? fun w => w.2.line == l.key / 256 with
    | none => s
    | some w => s.setSect e.1 ((s.sect e.1).append [traceBits s.cycle kind (sizeLog size) (rankField rank) w.1 l.off])) s

/-- A write of some bytes, traced on every watched line that it touches (R295). -/
def State.traceWrite (s : State) (kind : Nat) (rank : Option Nat) (ls : List Loc) : State :=
  (firstsBy 256 ls).foldl (fun s l =>
    s.traceLine kind rank l (ls.filter fun k => k.key / 256 == l.key / 256).length) s

/-! ### The race detector -/

/-- The narrowest scope level whose instance holds two cores' threads (R12, R16): 1 core to 5 package. -/
def commonLevel (a b : Nat) : Nat :=
  if a = b then 1
  else if quadOfCore a = quadOfCore b then 2
  else if sectionOfCore a = sectionOfCore b then 3
  else if dieOfCore a = dieOfCore b then 4
  else 5

/-- The core of a rank of a gang (R260). -/
def Gang.coreOfRank (g : Gang) (rank : Nat) : Option Nat := g.cores[rank / 2]?

/-- When the detector looks at an access (R296): at once; for a held one, at its retirement, which is when its quad sees
it, and at its performance, which is when the others do (R282). -/
inductive Moment where
  | whole
  | retired
  | performed
  deriving DecidableEq, Repr

/-- The scope levels of the pairs that are looked at. -/
def Moment.looksAt (m : Moment) (lvl : Nat) : Bool :=
  match m with
  | .whole => true
  | .retired => decide (lvl ≤ 2)
  | .performed => decide (2 < lvl)

/-- The race of an access by a rank against a remembered one, if the detector reports it (R296). -/
def raceWith (g : Gang) (acq : Vector Nat 8) (m : Moment) (me : Seen) (other : Option Seen) : Option Seen :=
  match other with
  | none => none
  | some o =>
    if o.rank = me.rank ∨ (me.atomic ∧ o.atomic) then none
    else match g.coreOfRank me.rank, g.coreOfRank o.rank with
      | some a, some b =>
        let lvl := commonLevel a b
        if m.looksAt lvl && decide (acq.toList.getD lvl 0 < if lvl ≤ 2 then o.retired else o.cycle) then some o else none
      | _, _ => none

/-- What the detector remembers after an access. -/
def Shadow.note (sh : Shadow) (m : Moment) (write : Bool) (me : Seen) : Shadow :=
  if m = .retired then { sh with held := me :: sh.held }
  else
    { writer := if write then some me else sh.writer
      reader := if write && !me.atomic then sh.reader else some me
      held := if m = .performed then sh.held.eraseP fun h => h.rank == me.rank && h.retired == me.retired else sh.held }

/-- The write that a quad sees last in a word: the newest that is still held, and so not performed (R282). -/
def Shadow.inQuad (sh : Shadow) (g : Gang) (core : Nat) : Option Seen :=
  sh.held.find? fun h => (g.coreOfRank h.rank).map quadOfCore == some (quadOfCore core)

/-- The detector's work at one access of a thread to some bytes of an 8-byte word (R296). -/
def State.detectWord (s : State) (tid : Nat) (write : Bool) (m : Moment) (me : Seen) (l : Loc) (n : Nat) : State :=
  let t := s.thread tid
  match s.gangs.get? t.gang with
  | none => s
  | some g =>
    let sh := (g.shadows.get? (l.key / 8)).getD { writer := none, reader := none, held := [] }
    let hits := [raceWith g t.acquires m me sh.writer, raceWith g t.acquires m me (sh.inQuad g (coreOf tid)),
                 if write then raceWith g t.acquires m me sh.reader else none].filterMap id
    let recs := hits.flatMap fun h =>
      [traceBits s.cycle 4 (sizeLog n) t.rank 15 l.off,
       traceBits h.cycle 5 3 h.rank 15 (l.space * 2 ^ 40 + l.obj)]
    let sec := sectionOf tid
    let s := if recs.isEmpty then s else s.setSect sec ((s.sect sec).append recs)
    s.setGang t.gang { g with shadows := g.shadows.put (l.key / 8) (sh.note m write me) }

/-- The detector's work at one access of thread `tid`, which retired at a cycle, to some bytes (R296). -/
def State.detect (s : State) (tid : Nat) (write atomic : Bool) (m : Moment) (retired : Nat) (ls : List Loc) : State :=
  if (s.gangs.get? (s.thread tid).gang).any Gang.test then
    (firstsBy 8 ls).foldl (fun s l =>
      s.detectWord tid write m { rank := (s.thread tid).rank, cycle := s.cycle, atomic, retired } l ls.length) s
  else s

/-- An acquire of a thread at a scope (R296). -/
def Thread.noteAcquire (t : Thread) (sc : Scope) (cycle : Nat) : Thread :=
  { t with acquires := Vector.ofFn fun i => if i.val ≤ sc.code then cycle else t.acquires[i] }

end Sys2Proof.Machine
end

