-- ==== Sys2Proof/Machine/Memory.lean ====
section
/-! DEFINITION. What a byte reads as, to whom, and how a byte is written: held stores (07 R190), write journals
(09 R254, R255), settled reads (11 R291), waiting outside writes (11 R292), marked lines (14 R330), encrypted lines
(14 R341) and the heat store buffers (16 R383, R384). -/

namespace Sys2Proof.Machine

/-- The party of an access: its gang, the core and section it acts at, its thread if it is one, and whether it stands
inside the core's quad, where current values are seen (R190, R291). -/
structure Who where
  gang : Nat
  core : Nat
  sec : Nat
  tid : Option Nat
  inside : Bool
  deriving DecidableEq, Repr

/-- The party that a thread is. -/
def whoIs (s : State) (tid : Nat) : Who :=
  { gang := (s.thread tid).gang, core := coreOf tid, sec := sectionOf tid, tid := some tid, inside := !isService tid }

/-- The party that the current thread is. -/
def whoTh (s : State) : Who := whoIs s s.tid

/-- A gang under `.heat on` (R383). -/
def heatOf (s : State) (gang : Nat) : Bool :=
  match s.gangs.get? gang with
  | some g => g.heatMode
  | none => false

/-! ### Where a byte lies -/

/-- The core whose local memory, or the quad whose scratchpad, holds an address. -/
def keyCore? (key : Nat) : Option Nat :=
  if localBase 0 ≤ key ∧ key < localBase 2048 then some ((key - localBase 0) / 2 ^ 18) else none
def keyQuad? (key : Nat) : Option Nat :=
  if quadBase 0 ≤ key ∧ key < quadBase 512 then some ((key - quadBase 0) / 2 ^ 21) else none

/-- The quad whose journals cover an address (R254). -/
def homeQuad? (key : Nat) : Option Nat :=
  match keyCore? key with
  | some c => some (quadOfCore c)
  | none => keyQuad? key

/-- Host memory lies above the pod's physical addresses (R336). -/
def hostBase : Nat := 2 ^ 57

/-- The package that holds an address, where it is another than this one: it encrypts the lines that it holds (R341). -/
def foreignHome (pkg key : Nat) : Option Nat := if key / 2 ^ 46 = pkg then none else some (key / 2 ^ 46)

/-- Where a location lies after the move of its line: a line that a relocation unit has moved carries a forward marker
at its old home (R326, R327). -/
def forwardLoc (s : State) (l : Loc) : Loc :=
  match s.forwards.find? fun e => e.1 == l.key / 256 with
  | none => l
  | some (o, n) =>
    { l with key := l.key % 256 + 256 * n, crypt := l.crypt.map fun c => { c with base := c.base + 256 * n - 256 * o, home := foreignHome s.pkg (256 * n) } }

/-- A line's place after its move (R326). -/
def forwardLine (s : State) (n : Nat) : Nat :=
  match s.forwards.find? fun e => e.1 == n with
  | none => n
  | some e => e.2

/-- The line of a location carries the poison marker (R329). -/
def marked (s : State) (l : Loc) : Bool := s.poison.contains ((forwardLoc s l).key / 256)

/-! ### Journals -/

/-- The journal that covers an address (R254). -/
def State.journalOf (s : State) (key : Nat) : List JournalByte :=
  match keyCore? key with
  | some c => (s.core c).journal
  | none => match keyQuad? key with
    | some q => (s.quad q).journal
    | none => []

def State.setJournal (s : State) (key : Nat) (j : List JournalByte) : State :=
  match keyCore? key with
  | some c => s.setCore c { s.core c with journal := j }
  | none => match keyQuad? key with
    | some q => s.setQuad q { s.quad q with journal := j }
    | none => s

/-- A record of the last W cycles (R254, R291). -/
def recent (now : Nat) (e : JournalByte) : Bool := now ≤ e.cycle + Config.holdWindow

/-- The settled value of a byte: the value before the oldest own write of the last W cycles (R291). -/
def settled (j : List JournalByte) (now key : Nat) (cur : Byte) : Byte :=
  match ((j.filter fun e => e.key == key && recent now e).getLast?) with
  | some e => e.old
  | none => cur

/-- An own write of a byte is younger than W cycles (R292). -/
def youngWrite (s : State) (key : Nat) : Bool :=
  (s.journalOf key).any fun e => e.key == key && s.cycle < e.cycle + Config.holdWindow

/-- The locations of an effect that waits at a bank (R292). -/
def HeldEffect.locs : HeldEffect → List Loc
  | .store units => units.flatMap fun u => u.map fun c => c.loc
  | .amo _ ls _ _ _ _ => ls
  | _ => []

/-- The locations that a held load reads. -/
def HeldEffect.loads : HeldEffect → List Loc
  | .loadSE ls _ _ => ls
  | .loadElems ps _ _ => ps.map Piece.loc
  | .loadImage h ts => h ++ ts.flatMap (·.2)
  | _ => []

/-- A waiting outside write covers a byte, so that a later write waits behind it (R292). -/
def outsideWaits (s : State) (key : Nat) : Bool :=
  match homeQuad? key with
  | none => false
  | some q => (s.quad q).outside.any fun o => o.effect.locs.any fun l => l.key == key

/-! ### Encrypted lines -/

/-- The key pair of an encrypted block: in this package's slot, or in that of the package that holds a TIER 3 block; a slot
that was never loaded holds zeros (R341). -/
def cryptKey (s : State) (c : Crypt) : List Byte :=
  ((match c.home with
    | none => s.keys.get? c.slot
    | some p => s.podKeys.get? (256 * p + c.slot)).getD (List.replicate 64 0))

/-- The tweak of a line of an encrypted block (R341). -/
def Crypt.tweak (c : Crypt) (line : Nat) : Nat := 2 ^ 64 * c.obj + 2 ^ 18 * c.block + (line - c.base / 256)

/-- The 256 bytes of a stored line in plaintext (R341). -/
def plainLine (s : State) (c : Crypt) (line : Nat) : List Byte :=
  xtsDecrypt (cryptKey s c) (c.tweak line) (s.mem.readList (256 * line) 256)

/-- The memory with one encrypted line replaced by the given plaintext (R341). -/
def State.writePlain (s : State) (c : Crypt) (line : Nat) (bytes : List Byte) : State :=
  s.setMem (s.mem.writeList (256 * line) (xtsEncrypt (cryptKey s c) (c.tweak line) bytes))

/-- What is stored at a location, in plaintext. -/
def storedByte (s : State) (l : Loc) : Byte :=
  match l.crypt with
  | some c => (plainLine s c (l.key / 256)).getD (l.key % 256) 0
  | none => s.mem.read l.key

/-! ### Reading -/

/-- A byte buffered in a section's heat store buffer (R384). -/
def heatByte (s : State) (sec key : Nat) : Option Byte :=
  ((s.sect sec).heatBuf.find? fun e => e.1.key == key).map (·.2)

/-- The value at the coherence point, as a party of a section sees it (R280, R384). -/
def coherentByte (s : State) (sec : Nat) (l : Loc) : Byte :=
  let l := forwardLoc s l
  match heatByte s sec l.key with
  | some b => b
  | none => storedByte s l

/-- A byte after a write of some of its bits. -/
def WByte.onto (c : WByte) (old : Byte) : Byte := (old &&& ~~~c.mask) ||| (c.val &&& c.mask)

/-- The places that an effect writes. -/
def HeldEffect.writes : HeldEffect → List Loc
  | .xsend dest _ => dest
  | e => e.locs

/-- The quad that holds a byte of its own memories has written it after the hold entry of a number (R280). -/
def ownSince (s : State) (seq key : Nat) : Bool :=
  match homeQuad? key with
  | some q => (s.quad q).overs.any fun e => e.2 == key && decide (seq < e.1)
  | none => false

/-- Some effect of a quad that is held, or waits at the quad's own bank, and passes a test, writes a byte. -/
def heldWrites (s : State) (q key : Nat) (p : Nat → Bool) : Bool :=
  ((List.range 4).any fun i => (s.core (4 * q + i)).hold.any fun e => p e.seq && e.effect.writes.any fun l => l.key == key)
    || (s.quad q).outside.any fun o => o.copy.isNone && quadOfCore o.core == q && p o.seq && o.effect.writes.any fun l => l.key == key

/-- The bytes that a held effect of a quad makes visible inside it at an address, in order: those of a store (R190), and
those of an `xsend` to one of the quad's own cores (R250, R276), unless the quad has written the byte of its own memories
since (R280). -/
def HeldEffect.at' (s : State) (q seq : Nat) (e : HeldEffect) (key : Nat) : List WByte :=
  if homeQuad? key = some q ∧ ownSince s seq key then []
  else match e with
    | .store units => units.flatMap fun u => u.filter fun c => c.loc.key == key
    | .xsend dest data =>
      if homeQuad? key = some q then
        ((dest.zip data).filter fun p => p.1.key == key).map fun p => { loc := p.1, val := p.2, mask := 0xFF }
      else []
    | _ => []

/-- A numbered list kept in rising order. -/
def insertBySeq {α : Type} (e : Nat × α) : List (Nat × α) → List (Nat × α)
  | [] => [e]
  | f :: fs => if e.1 ≤ f.1 then e :: f :: fs else f :: insertBySeq e fs

/-- What a quad's held stores and sends, and its released ones that wait at the bank, make of a byte (R190, R250). -/
def heldOver (s : State) (q key : Nat) (base : Byte) : Byte :=
  let held := (List.range 4).flatMap fun i =>
    (s.core (4 * q + i)).hold.flatMap fun e => (e.effect.at' s q e.seq key).map fun c => (e.seq, c)
  let waiting := match homeQuad? key with
    | none => []
    | some h => ((s.quad h).outside.filter fun o => o.copy.isNone && quadOfCore o.core == q).flatMap fun o =>
        (o.effect.at' s q o.seq key).map fun c => (o.seq, c)
  (((held ++ waiting).foldr insertBySeq []).map (·.2)).foldl (fun b c => c.onto b) base

/-- A word that the core supplies to its own threads: `k248` to `k255` (R16, R68). A service core, to which the manual gives
no such numbers, reads what follows from its thread number 4096 + section (DESIGN CHOICE, log entry 105). -/
def identityWord (s : State) (tid n : Nat) : Word :=
  let t := s.thread tid
  BitVec.ofNat 64 (match n with
    | 248 => coreOf tid
    | 249 => quadOf tid
    | 250 => sectionOf tid
    | 251 => dieOf tid
    | 252 => s.pkg % 1024
    | 253 => t.rank % 2 ^ 32
    | 254 => slotOf tid
    | _ => if onFdie tid then 1 else 0)

/-- A word of the constant window as a thread reads it (R66, R67, R68). The manual gives a service core no window: its words
`k0` to `k247` are bytes of Memory that nothing writes, and read zero (DESIGN CHOICE, log entry 129). -/
def windowWord (s : State) (tid n : Nat) : Word :=
  if 248 ≤ n then identityWord s tid n
  else BitVec.ofNat 64 (s.mem.readNat (localBase (coreOf tid) + 8 * n) 8)

/-- A byte as a party reads it, held stores apart (R68, R291, R384). -/
def baseByte (s : State) (w : Who) (l : Loc) : Byte :=
  let own := localBase w.core
  if w.inside ∧ own + 1984 ≤ l.key ∧ l.key < own + 2048 then
    let i := l.key - own
    BitVec.ofNat 8 ((identityWord s (w.tid.getD (2 * w.core)) (i / 8)).toNat / 256 ^ (i % 8))
  else match homeQuad? l.key with
    | some q => if w.inside ∧ q = quadOfCore w.core then s.mem.read l.key
                else settled (s.journalOf l.key) s.cycle l.key (s.mem.read l.key)
    | none => coherentByte s w.sec l

/-- A byte as a party reads it: a thread sees its quad's held stores (R190). -/
def viewByte (s : State) (w : Who) (l : Loc) : Byte :=
  let b := baseByte s w l
  if w.inside then heldOver s (quadOfCore w.core) l.key b else b

/-- The bytes of an access, lowest address first. -/
def viewBytes (s : State) (w : Who) (ls : List Loc) : List Byte := ls.map (viewByte s w)

/-! ### Writing -/

/-- The heat journal of a gang gets a byte's old value before its first write of the heat (R383). -/
def State.heatJournal (s : State) (gang key : Nat) : State :=
  match s.gangs.get? gang with
  | none => s
  | some g =>
    if g.heatMode && onDie key && !(g.heatOld.any fun e => e.key == key) then
      s.setGang gang { g with heatOld := { key, old := s.mem.read key } :: g.heatOld }
    else s

/-- An own write of one byte of local memory or scratchpad, at retirement (R254): it is newer than every effect of the quad
that is still held and writes the byte (R280). The journal's records that have become too old are dropped at the next split. -/
def State.ownWrite (s : State) (gang : Nat) (c : WByte) : State :=
  let key := c.loc.key
  let s := s.heatJournal gang key
  let old := s.mem.read key
  let s := s.setJournal key ({ cycle := s.cycle, seq := s.seq, key, old } :: s.journalOf key)
  let s := match homeQuad? key with
    | some q => if heldWrites s q key fun _ => true then s.setQuad q { s.quad q with overs := (s.seq, key) :: (s.quad q).overs } else s
    | none => s
  s.setMem (s.mem.write key (c.onto old))

/-- A write from outside the quad reaches a byte: the journal drops its older records (R255). -/
def State.outsideByte (s : State) (gang : Nat) (c : WByte) : State :=
  let key := c.loc.key
  let s := s.heatJournal gang key
  let s := s.setJournal key ((s.journalOf key).filter fun e => e.key != key)
  s.setMem (s.mem.write key (c.onto (s.mem.read key)))

/-- A byte of a held store or `xsend` of a quad to its own memories that the quad has written since the effect retired: the
newer write stays, and what its undo restores is the byte of the effect (R255, R276, R280). -/
def State.writeUnder (s : State) (seq : Nat) (c : WByte) : State :=
  let key := c.loc.key
  let mine := (s.journalOf key).filter fun e => e.key == key && decide (seq < e.seq)
  s.setJournal key (((s.journalOf key).filter fun e => e.key != key || decide (seq < e.seq)).map fun e =>
    if some e = mine.getLast? then { e with old := c.onto e.old } else e)

/-- Bytes put into a section's heat store buffer by a quad; of the lines that the write has taken from the quota, those that
already hold the quad's data return their count (R384, R386). -/
def State.heatPut (s : State) (sec q : Nat) (cells : List WByte) (took : List Nat) : State :=
  let k := s.sect sec
  let buf := cells.foldl (fun (b : List (Loc × Byte)) c =>
    let old := match b.find? fun e => e.1.key == c.loc.key with
      | some e => e.2
      | none => storedByte s c.loc
    (c.loc, c.onto old) :: b.filter fun e => e.1.key != c.loc.key) k.heatBuf
  let lines := (cells.map fun c => c.loc.key / 256).dedup
  let again := (lines.filter fun n => k.heatLines.contains (n, q) && took.contains n).length
  let new := (lines.filter fun n => !k.heatLines.contains (n, q)).map fun n => (n, q)
  let s := s.setSect sec { k with heatBuf := buf, heatLines := k.heatLines ++ new }
  let quad := s.quad q
  s.setQuad q { quad with quota := quad.quota - again }

/-- One byte of a line that is not encrypted, written where it is stored. -/
def State.storeByte (s : State) (c : WByte) : State :=
  s.setMem (s.mem.write c.loc.key (c.onto (s.mem.read c.loc.key)))

/-- The bytes of one encrypted line, written with one encryption (R341). -/
def State.storeCryptLine (s : State) (k : Crypt) (line : Nat) (cells : List WByte) : State :=
  s.writePlain k line
    (cells.foldl (fun bs c =>
      if c.loc.key / 256 = line then bs.set (c.loc.key % 256) (c.onto (bs.getD (c.loc.key % 256) 0)) else bs)
      (plainLine s k line))

/-- Bytes written where they are stored (R341). -/
def State.storeCells (s : State) (cells : List WByte) : State :=
  let s := (cells.filter fun c => c.loc.crypt.isNone).foldl State.storeByte s
  let crypted := cells.filter fun c => c.loc.crypt.isSome
  let lines := (cells.filterMap fun c => c.loc.crypt.map fun k => (k, c.loc.key / 256)).dedup
  lines.foldl (fun s e => s.storeCryptLine e.1 e.2 crypted) s

/-- The base die that is the home of a physical address (R333). -/
def baseDieOf (addr : Nat) : Nat :=
  let a := addr % 2 ^ 46
  (if a < 2 ^ 39 then a / 2 ^ 36 else (a - 2 ^ 39) / 2 ^ 37) % 8

/-- UKIND and UNIT of the store that holds an address (R378). -/
def homeUnit (key : Nat) : Nat × Nat :=
  match keyCore? key with
  | some c => (0, c)
  | none => match keyQuad? key with
    | some q => (2, q)
    | none => (4, baseDieOf key)

/-- Marked lines that a write would have touched: the first byte of each (R330). -/
def markedLines (s : State) (cells : List WByte) : List WByte :=
  (cells.filter fun c => marked s c.loc).foldl (fun acc c =>
    if acc.any fun e => e.loc.key / 256 == c.loc.key / 256 then acc else acc ++ [c]) []

/-- A write is performed at its destination: a store or atomic after release, a copy-engine write or an `xsend`
(R248, R255, R330, R384). Bytes in a marked line are not written, which is logged once for each line; a space-0 write
of a replay-mode gang goes to the section's heat store buffer. `kind` is the trace kind of R295; `took` are the lines
that the write has taken from the quad's quota. -/
def performWrite (s : State) (gang sec q : Nat) (rank : Option Nat) (kind : Nat) (units : List (List WByte))
    (took : List Nat := []) : State :=
  let took := took.map (forwardLine s)
  let units := units.map fun u => u.map fun c => { c with loc := forwardLoc s c.loc }
  let cells := units.flatten
  let good := cells.filter fun c => !marked s c.loc
  let traced := units.map fun u => (u.filter fun c => !marked s c.loc).map fun c => c.loc
  let s := (markedLines s cells).foldl (fun s c =>
    s.logIn sec { cls := 0x09, ukind := (homeUnit c.loc.key).1, unit := (homeUnit c.loc.key).2, rank, obj := c.loc.obj, off := c.loc.off,
                  paddr := if onDie c.loc.key then 0 else c.loc.key % 2 ^ 46 }) s
  let s := (good.filter fun c => (homeQuad? c.loc.key).isSome).foldl (fun s c => s.outsideByte gang c) s
  let outer := good.filter fun c => (homeQuad? c.loc.key).isNone
  let s := (outer.filter fun c => onDie c.loc.key).foldl (fun s c => (s.heatJournal gang c.loc.key).storeByte c) s
  let glob := outer.filter fun c => !onDie c.loc.key
  let s := if heatOf s gang then s.heatPut sec q glob took else s.storeCells glob
  traced.foldl (fun s ls => s.traceWrite kind rank ls) s

end Sys2Proof.Machine
end

