-- ==== Sys2Proof/Machine/Operands.lean ====
section
/-! DEFINITION. Reference operands: the checks of 03 R69 to R71, object records and residency (14 R308 to R318), and the
accesses of threads to memory (07 R189, R190; 09 R247; 16 R383, R386). -/

namespace Sys2Proof.Machine

/-! ### References (R69, R70) -/

def refOff (r : Ref) : Nat := bits r 0 44
def refObj (r : Ref) : Nat := bits r 44 36
def refSpace (r : Ref) : Nat := bits r 80 4
def refType (r : Ref) : Nat := bits r 84 4
def refSk (r : Ref) : Nat := bits r 88 2
def refBlog (r : Ref) : Nat := bits r 90 4
def refTag (r : Ref) : Nat := bits r 96 32

/-- The combinations of scale kind, blog and type that R38 permits; kind 00 ignores blog (R70). -/
def scaleOk (sk blog type : Nat) : Bool :=
  sk == 0 || (sk == 1 && (type == 12 || type == 13 || type == 14) && decide (3 ≤ blog))

/-- Steps 1 to 5 of R70, with the type-code check if the instruction reads the format: the cause of the first that
fails. -/
def refFault (r : Ref) (fmt : Bool) : Option Nat :=
  if bits r 94 2 != 0 then some 0x02
  else if 6 ≤ refSpace r then some 0x07
  else if refSpace r != 0 && refObj r != 0 then some 0x02
  else if refBlog r == 1 || refBlog r == 2 then some 0x02
  else if !scaleOk (refSk r) (refBlog r) (refType r) then some 0x02
  else if fmt && refType r == 15 then some 0x02
  else none

/-- Steps 1 to 4 of R70 alone, for instructions that carry no format (R182). -/
def refPlainFault (r : Ref) : Option Nat :=
  if bits r 94 2 != 0 then some 0x02
  else if 6 ≤ refSpace r then some 0x07
  else if refSpace r != 0 && refObj r != 0 then some 0x02
  else if refBlog r == 1 || refBlog r == 2 then some 0x02
  else none

/-- Take the fault of R70 steps 1 to 5, if any. -/
def checkRef (r : Ref) (fmt : Bool) : Except Stop Unit :=
  match refFault r fmt with
  | some c => trapOf c
  | none => .ok ()

/-! ### Object records (R308 to R311) -/

/-- An object record (R309). -/
structure ObjRec where
  tile : List Nat
  stride : List Nat
  ext : List Nat
  map : Nat
  gen : Nat
  valid : Bool
  dims : Nat
  blog : Nat
  sk : Nat
  type : Nat
  rd : Bool
  wr : Bool
  ex : Bool
  se : Bool
  enc : Bool
  key : Nat
  reserved : Bool
  deriving DecidableEq, Repr

/-- The record of 128 bytes (R309). -/
def ObjRec.ofNat (n : Nat) : ObjRec :=
  { tile := (List.range 4).map fun d => field n (512 + 32 * d) 32
    stride := (List.range 4).map fun d => field n (256 + 64 * d) 44
    ext := (List.range 4).map fun d => field n (128 + 32 * d) 32
    map := field n 67 53
    gen := field n 32 32
    valid := field n 31 1 == 1
    dims := field n 29 2
    blog := field n 25 4
    sk := field n 23 2
    type := field n 19 4
    rd := field n 18 1 == 1
    wr := field n 17 1 == 1
    ex := field n 16 1 == 1
    se := field n 15 1 == 1
    enc := field n 14 1 == 1
    key := field n 0 8
    reserved := field n 8 6 != 0 || field n 64 3 != 0 || field n 120 8 != 0 || field n 640 384 != 0
      || (List.range 4).any fun d => field n (300 + 64 * d) 20 != 0 }

/-- The 1,024 bits of a record. -/
def ObjRec.toNat (r : ObjRec) : Nat :=
  let b := fun (x : Bool) => if x then 1 else 0
  let row := fun (l : List Nat) (lo step : Nat) =>
    (List.range 4).foldl (fun n d => n + l.getD d 0 * 2 ^ (lo + step * d)) 0
  row r.tile 512 32 + row r.stride 256 64 + row r.ext 128 32 + r.map * 2 ^ 67 + r.gen * 2 ^ 32 + b r.valid * 2 ^ 31
    + r.dims * 2 ^ 29 + r.blog * 2 ^ 25 + r.sk * 2 ^ 23 + r.type * 2 ^ 19 + b r.rd * 2 ^ 18 + b r.wr * 2 ^ 17
    + b r.ex * 2 ^ 16 + b r.se * 2 ^ 15 + b r.enc * 2 ^ 14 + r.key

/-- Dimensions in use (R309). -/
def ObjRec.d (r : ObjRec) : Nat := r.dims + 1

/-- Bytes of the innermost unit: the element size, or 3 for a group of l6 (R311, R315). -/
def unitBytes (type : Nat) : Nat :=
  match Ty.ofCode type with
  | some .l6 => 3
  | some t => t.bytes
  | none => 1

/-- An extent counted in the units of the innermost dimension: groups of four for l6 (R311). -/
def ObjRec.inUnits (r : ObjRec) (l : List Nat) (i : Nat) : Nat :=
  if r.type = 14 ∧ i + 1 = r.d then l.getD i 0 / 4 else l.getD i 0

/-- Units of one residency block (R316). -/
def ObjRec.blockUnits (r : ObjRec) : Nat :=
  (List.range r.d).foldl (fun n i => n * r.inUnits r.tile i) 1

/-- Bytes of a block's data: P of R316. -/
def ObjRec.dataBytes (r : ObjRec) : Nat := r.blockUnits * r.stride.getD r.dims 0

/-- Elements of the innermost tile extent. -/
def ObjRec.rowElems (r : ObjRec) : Nat := r.tile.getD r.dims 0

/-- Rows of a block in its outer coordinates. -/
def ObjRec.blockRows (r : ObjRec) : Nat := (List.range r.dims).foldl (fun n i => n * r.tile.getD i 0) 1

/-- Scale bytes of a block (R316). -/
def ObjRec.scaleBytes (r : ObjRec) : Nat :=
  if r.sk = 1 then r.blockRows * (r.rowElems / 2 ^ r.blog) else 0

/-- The least k with n ≤ 2^k. -/
def ceilLog2 (n : Nat) : Nat := if n ≤ 1 then 0 else Nat.log2 (n - 1) + 1

/-- log2 of a block's storage in units of 4 KiB (R316, R318). -/
def ObjRec.sizeCode (r : ObjRec) : Nat := ceilLog2 (r.dataBytes + r.scaleBytes) - 12

/-- Bytes of a block's storage (R316). -/
def ObjRec.storage (r : ObjRec) : Nat := 2 ^ (r.sizeCode + 12)

/-- A present record that breaks a row of R311. -/
def ObjRec.malformed (r : ObjRec) : Bool :=
  let dims := List.range r.d
  let e := fun i => r.ext.getD i 0
  let t := fun i => r.tile.getD i 0
  let st := fun i => r.stride.getD i 0
  r.reserved || r.type == 15
  || (dims.any fun i => e i == 0 || t i == 0 || decide (e i < t i))
  || ((List.range 4).any fun i => decide (r.d ≤ i) && (e i != 0 || t i != 0 || st i != 0))
  || st r.dims != unitBytes r.type
  || (r.type == 14 && (e r.dims % 4 != 0 || t r.dims % 4 != 0))
  || ((List.range r.dims).any fun i =>
        st (i + 1) == 0 || st i % st (i + 1) != 0 || decide (st i < st (i + 1) * r.inUnits r.ext (i + 1)))
  || decide (2 ^ 44 < (r.inUnits r.ext 0 - 1) * st 0 + st 0)
  || !scaleOk r.sk r.blog r.type || (r.sk == 0 && r.blog != 0)
  || (r.sk == 1 && r.rowElems % 2 ^ r.blog != 0)
  || decide (2 ^ 26 < r.dataBytes + r.scaleBytes)
  || (r.enc && r.se)

/-! ### Contexts -/

/-- The context of a gang. -/
def contextOf (s : State) (gang : Nat) : Context :=
  match s.gangs.get? gang with
  | some g => (s.contexts.get? g.ctx).getD Context.zero
  | none => (s.contexts.get? 0).getD Context.zero

/-- Physical address of an object's record (R308). -/
def recordAddr (ortb : Word) (obj : Nat) : Nat := bits ortb 7 49 * 128 + 128 * obj

/-- The record of an object, if it is present (R310); a table outside populated storage stops the model. A poison marker of
its line, of which R330 says nothing, is not looked at (DESIGN CHOICE, log entry 108). -/
def objRecord (s : State) (c : Context) (obj : Nat) : Except Fault (Option ObjRec) :=
  let addr := recordAddr c.ortb obj
  if obj = 0 ∨ 2 ^ bits c.ortb 0 6 ≤ obj then .ok none
  else if !populated addr then .error (.unpopulated addr)
  else
    let r := ObjRec.ofNat (s.mem.readNat addr 128)
    .ok (if r.valid && r.gen != 0 then some r else none)

/-! ### Accesses -/

/-- What an access needs (R314 check 4). -/
inductive Acc where
  | load | store | atomic | fetch | gather
  /-- no data is read or written -/
  | probe
  deriving DecidableEq, Repr

def Acc.allowed (a : Acc) (r : ObjRec) : Bool :=
  match a with
  | .load => r.rd
  | .store => r.wr
  | .atomic => r.rd && r.wr
  | .fetch => r.ex
  | .gather => r.rd && !r.se
  | .probe => true

/-- A reference opened for accesses: a non-global space, a present object that passes checks 1 to 5 of R314 with its
physical key slot, the cause of the check that fails, or what stops the checks. -/
inductive Opened where
  | space
  | object (r : ObjRec) (slot : Nat)
  | bad (cause : Nat)
  | broken (e : Stop)
  deriving DecidableEq, Repr

/-- A place in a record table or residency map: a byte of no object. -/
def tableLoc (key : Nat) : Loc := { key, crypt := none, dmg := false, space := 15, obj := 0, off := 0 }

/-- Checks 1 to 5 of R314; a record in a line whose storage holds an uncorrectable error is read again (R377). -/
def openPlain (s : State) (w : Who) (r : Ref) (a : Acc) : Opened :=
  if refSpace r ≠ 0 then .space
  else
    let c := contextOf s w.gang
    if s.weak.any fun e => e.1 == recordAddr c.ortb (refObj r) / 256 then .broken (.reread [tableLoc (recordAddr c.ortb (refObj r))])
    else match objRecord s c (refObj r) with
    | .error f => .broken (.machine f)
    | .ok none => .bad 0x08
    | .ok (some o) =>
      if o.malformed then .bad 0x02
      else if refTag r ≠ o.gen then .bad 0x08
      else if !a.allowed o then .bad 0x09
      else if o.enc && !(bitAt c.keysel 16 && decide (o.key ≤ bits c.keysel 0 8)
          && decide (bits c.keysel 8 8 + o.key ≤ 255)) then .bad 0x09
      else .object o (bits c.keysel 8 8 + o.key)

/-- Checks 1 to 5 of R314, and the rule of replay mode on side-effect objects: any access takes a permission fault (R383). -/
def openRef (s : State) (w : Who) (r : Ref) (a : Acc) : Opened :=
  match openPlain s w r a with
  | .object o slot => if o.se && heatOf s w.gang then .bad 0x09 else .object o slot
  | x => x

/-- The fault of a check of `openRef`; a check-tag fault names the object, whose record may be one that is rebuilt
(R324). -/
def openFault {α : Type} (r : Ref) (cause : Nat) (fa : Word := 0) (fi : Word := 0) : Except Stop α :=
  .error (.trap { cause, addr := fa, info := fi, miss := if cause = 0x08 then some { obj := refObj r, off := refOff r } else none })

/-- The side-effect attribute of an opened object (R184). -/
def Opened.sideEffect : Opened → Bool
  | .object o _ => o.se
  | _ => false

/-- Coordinates of a byte offset and the rest within the unit, if it lies in the shape (R315). -/
def coordsOf (o : ObjRec) (a : Nat) : Option (List Nat × Nat) :=
  let r := (List.range o.d).foldl (fun (p : List Nat × Nat) i =>
    (p.1 ++ [p.2 / o.stride.getD i 1], p.2 % o.stride.getD i 1)) ([], a)
  if (List.range o.d).all fun i => decide (r.1.getD i 0 < o.inUnits o.ext i) then some r else none

/-- The residency block of coordinates (R316). -/
def blockIndex (o : ObjRec) (c : List Nat) : Nat :=
  (List.range o.d).foldl (fun n i =>
    let t := o.inUnits o.tile i
    n * ((o.inUnits o.ext i + t - 1) / t) + c.getD i 0 / t) 0

/-- The offset in the block's storage of coordinates (R316). -/
def blockOffset (o : ObjRec) (c : List Nat) (rem : Nat) : Nat :=
  (List.range o.d).foldl (fun n i => n * o.inUnits o.tile i + c.getD i 0 % o.inUnits o.tile i) 0 * o.stride.getD o.dims 0
    + rem

/-- A residency entry (R318). -/
structure ResEntry where
  valid : Bool
  dmg : Bool
  tier : Nat
  size : Nat
  base : Nat
  reserved : Bool
  deriving DecidableEq, Repr

def ResEntry.ofNat (n : Nat) : ResEntry :=
  { valid := field n 63 1 == 1, dmg := field n 62 1 == 1, tier := field n 60 2, size := field n 44 4,
    base := field n 0 44, reserved := field n 48 12 != 0 }

def ResEntry.toNat (e : ResEntry) : Nat :=
  (if e.valid then 2 ^ 63 else 0) + (if e.dmg then 2 ^ 62 else 0) + e.tier * 2 ^ 60 + e.size * 2 ^ 44 + e.base

/-- An entry with V = 1 that R314 check 9 refuses (R318). -/
def ResEntry.inconsistent (e : ResEntry) (o : ObjRec) (pkg : Nat) : Bool :=
  let addr := e.base * 4096
  e.reserved || e.size == 15 || e.size != o.sizeCode || addr % o.storage != 0
  || (decide (e.tier < 2) && (!populated addr || !populated (addr + o.storage - 1) || addr / 2 ^ 46 != pkg))
  || (e.tier == 3 && addr / 2 ^ 46 == pkg)
  || (e.tier == 2 && o.enc)

/-- Where a block's storage lies in Memory: host memory has a place of its own. -/
def ResEntry.storageKey (e : ResEntry) : Nat := if e.tier = 2 then hostBase + e.base * 4096 else e.base * 4096

/-- The node of the pod at which an address beyond the on-die stores is routed (R389). -/
def nodeOf (key : Nat) : Nat := key % 2 ^ 56 / 2 ^ 46

/-- Number of the 2 MiB region of an address (R336). -/
def regionOf (key : Nat) : Nat := key / 2 ^ 21

/-- Check 11 of R314: a region that is busy, or that the host owns (R337). -/
def ownRegion (s : State) (r : Nat) : Except Stop Unit :=
  match s.regions.get? r with
  | none => .ok ()
  | some g => if g.busy then .error .stall else if g.owner then .error (.region r) else .ok ()

/-- Check 11 for every byte of an access. -/
def ownRegions (s : State) (ls : List Loc) : Except Stop Unit := ((ls.map fun l => regionOf l.key).dedup).forM (ownRegion s)

/-- An entry whose storage lies on a package, or in the memory of a host socket, that is marked lost (R394, R395). -/
def ResEntry.lost (e : ResEntry) (s : State) : Bool := decide (2 ≤ e.tier) && s.lost.contains (nodeOf (e.base * 4096))

/-- Lines of an access whose storage holds an uncorrectable error, by their first place (R377). -/
def weakLines (s : State) (ls : List Loc) : List Loc :=
  if s.weak.isEmpty then []
  else (firstsBy 256 (ls.map (forwardLoc s))).filter fun l => s.weak.any fun e => e.1 == l.key / 256

/-- A fault of an access unit carries the unit's `faddr` and `finfo`. -/
def faultAt {α : Type} (fa fi : Word) : Except Stop α → Except Stop α
  | .error (.trap f) => .error (.trap { f with addr := fa, info := fi })
  | r => r

/-- Checks 7 and 8 of R314: coordinates of the bytes of one access unit, whose two ends lie in one residency block
(R317). -/
def unitCoords (o : ObjRec) (a n : Nat) : Except Stop (List (List Nat × Nat)) :=
  let cs := (List.range n).map fun i => coordsOf o (a + i)
  if cs.any Option.isNone then trapOf 0x06
  else
    let cs := cs.filterMap id
    let block := fun (c : Option (List Nat × Nat)) => c.map fun c => blockIndex o c.1
    if block cs.head? ≠ block cs.getLast? then trapOf 0x05 else .ok cs

/-- Checks 9 and 10 of R314, with the retry of R377: the residency entry of a block, for an access to offset `a` of object
`obj`. -/
def blockEntry (s : State) (o : ObjRec) (obj a b : Nat) : Except Stop ResEntry :=
  let at' := o.map * 8 + 8 * b
  if !populated at' then .error (.machine (.unpopulated at'))
  else if s.weak.any fun w => w.1 == at' / 256 then .error (.reread [tableLoc at'])
  else
    let e := ResEntry.ofNat (s.mem.readNat at' 8)
    if e.valid && e.inconsistent o s.pkg then trapOf 0x02
    else if !e.valid then .error (.trap { cause := if e.lost s then 0x0B else 0x0A, miss := some { obj, off := a, gen := o.gen } })
    else .ok e

/-- Where a byte of an object lies: its coordinates, its offset, and its block's entry (R316, R341). -/
def byteLoc (o : ObjRec) (slot obj : Nat) (c : List Nat × Nat) (off : Nat) (e : ResEntry) : Loc :=
  let base := e.storageKey
  { key := base + blockOffset o c.1 c.2
    crypt := if o.enc then
        some { home := if e.tier = 3 then some (e.base * 4096 / 2 ^ 46) else none, slot, obj, block := blockIndex o c.1, base }
      else none
    dmg := e.dmg, space := 0, obj, off }

/-- An access that reads data before it retires (R330). -/
def Acc.reads (a : Acc) : Bool := a == .load || a == .fetch || a == .gather

/-- Check 12 of R314, with the retry of R377: a load meets the markers of its lines, but for one from a side-effect object,
which meets them at its release (R187), and a store those of a damaged block (R330); `gone` is a request that gets no
response (R392). -/
def poisonCheck (s : State) (acc : Acc) (se gone : Bool) (obj a : Nat) (ls : List Loc) : Except Stop Unit :=
  let reads := acc.reads && !se
  if reads && !(weakLines s ls).isEmpty then .error (.reread (weakLines s ls))
  else if (reads && gone)
      || ls.any (fun l => (reads || (acc == .store && l.dmg)) && (marked s l || gone)) then
    .error (.trap { cause := 0x0B, miss := some { obj, off := a } })
  else .ok ()

/-- The bytes of one access unit of an object, after checks 7 to 12 of R314; `late`: a request that crosses Hjelwa gets no
response (R392). -/
def locateObject (s : State) (o : ObjRec) (slot obj a n : Nat) (acc : Acc) (late : Bool) : Except Stop (List Loc) := do
  let cs ← unitCoords o a n
  let es ← ((cs.map fun c => blockIndex o c.1).dedup).mapM fun b => do return (b, ← blockEntry s o obj a b)
  let entry := fun (c : List Nat) => ((es.find? fun e => e.1 == blockIndex o c).map (·.2)).getD (ResEntry.ofNat 0)
  let ls := (cs.zip (List.range n)).map fun p => byteLoc o slot obj p.1 (a + p.2) (entry p.1.1)
  ownRegions s ls
  poisonCheck s acc o.se (es.any fun e => e.2.lost s || (late && decide (2 ≤ e.2.tier))) obj a ls
  return ls

/-! ### The non-global spaces (R71) -/

/-- Bytes of a core's directly addressed local memory (R267). -/
def directBytes (s : State) (core : Nat) : Nat :=
  2 ^ 18 - (match (s.core core).lmsplit.toNat with
    | 0 => 0 | 1 => 2 ^ 15 | 2 => 2 ^ 16 | _ => 2 ^ 17)

/-- A of R349: section SRAM below the service region. -/
def sramBytes (s : State) (sec : Nat) : Nat := 2 ^ 22 - (s.sect sec).smsplit.toNat * 2 ^ 20

/-- The gang's quads in a section, ascending. -/
def Gang.quadsIn (g : Gang) (sec : Nat) : List Nat :=
  (List.range 8).filterMap fun i => if g.cores.any fun c => quadOfCore c == 8 * sec + i then some (8 * sec + i) else none

/-- Extent of space 3 for a gang in a section (R71, R349). -/
def allotment (s : State) (gang sec : Nat) : Nat :=
  match s.gangs.get? gang with
  | none => 0
  | some g =>
    if (g.quadsIn sec).isEmpty then 0
    else if g.level = 0 then (g.quadsIn sec).length * (sramBytes s sec / 8) else sramBytes s sec

/-- Address of a byte of space 3 (R349). -/
def sramKey (s : State) (gang sec off : Nat) : Nat :=
  match s.gangs.get? gang with
  | none => sectionBase sec + off
  | some g =>
    let share := sramBytes s sec / 8
    if g.level = 0 then sectionBase sec + (g.quadsIn sec).getD (off / share) 0 % 8 * share + off % share
    else sectionBase sec + off

/-- The checks of R71 and R66 for `n` bytes of a non-global space: the cause of the first that fails. Spaces 1, 2, 3 and 5
have no byte for a service core, to which the manual gives no such memory (DESIGN CHOICE, log entry 12). Of two that fail at a
space-4 reference, a core outside the gang comes before an offset beyond its direct part (DESIGN CHOICE, log entry 128). -/
def spaceFault (s : State) (w : Who) (sp a n : Nat) (acc : Acc) : Option Nat :=
  let own := w.tid.all fun t => !isService t
  let core := if sp = 4 then a / 2 ^ 32 else w.core
  let off := if sp = 4 then a % 2 ^ 32 else a
  let extent := match sp with
    | 1 | 4 => directBytes s core
    | 2 => 2 ^ 21
    | 3 => allotment s w.gang w.sec
    | _ => 2048
  let inGang := match s.gangs.get? w.gang with
    | some g => g.cores.contains core
    | none => false
  let writes := acc == .store || acc == .atomic
  if sp = 4 ∧ 2048 ≤ core then some 0x06
  else if sp = 4 ∧ !(sectionOfCore core == w.sec && inGang) then some 0x09
  else if !((own || sp == 4) && decide (off + n ≤ extent)) then some 0x06
  else if writes && ((sp == 5) || ((sp == 1 || sp == 4) && decide (off < 2048))) then some 0x09
  else none

/-- The bytes of one access unit of a non-global space: size and permission checks of R71 and R66, then poison
(R377). -/
def locateSpace (s : State) (w : Who) (sp a n : Nat) (acc : Acc) (fa fi : Word) : Except Stop (List Loc) :=
  match spaceFault s w sp a n acc with
  | some c => trapOf c fa fi
  | none =>
    let key := match sp with
      | 2 => quadBase (quadOfCore w.core) + a
      | 3 => sramKey s w.gang w.sec a
      | 4 => localBase (a / 2 ^ 32) + a % 2 ^ 32
      | _ => localBase w.core + a
    let locs := (List.range n).map fun i =>
      ({ key := key + i, crypt := none, dmg := false, space := sp, obj := 0, off := a + i } : Loc)
    let reads := !(acc == .store || acc == .atomic)
    if (reads || (acc == .atomic && decide (sp ≤ 2))) && !(weakLines s locs).isEmpty then .error (.reread (weakLines s locs))
    else if reads && locs.any (marked s) then trapOf 0x0B fa fi
    else .ok locs

/-- Step 6 of R70 for one access unit of `n` bytes at an offset; the fault carries `faddr` and `finfo`. -/
def locate (s : State) (w : Who) (o : Opened) (r : Ref) (a n : Nat) (acc : Acc) (fa fi : Word) : Except Stop (List Loc) :=
  match o with
  | .bad c => openFault r c fa fi
  | .broken e => .error e
  | .space => locateSpace s w (refSpace r) a n acc fa fi
  | .object rec' slot =>
    faultAt fa fi (locateObject s rec' slot (refObj r) a n acc (w.tid.any fun t => (s.thread t).late))

/-- The address range and alignment of an element's exact address, then step 6 (R143, R162): the address lies below 0 or
has a bit set above bit 43. -/
def elemUnit (s : State) (w : Who) (o : Opened) (r : Ref) (a : Int) (n align : Nat) (acc : Acc) (fi : Word) :
    Except Stop (List Loc) := do
  let fa := BitVec.ofInt 64 a
  require (decide (0 ≤ a) && decide (a < 2 ^ 44)) 0x06 fa fi
  require (a % (align : Int) == 0) 0x05 fa fi
  locate s w o r a.toNat n acc fa fi

/-- The address range and alignment of a scalar access's exact address, then step 6 (R189). -/
def accessUnit (s : State) (w : Who) (o : Opened) (r : Ref) (a : Int) (n align : Nat) (acc : Acc) (fi : Word) :
    Except Stop (List Loc) := do
  let fa := BitVec.ofInt 64 a
  require (decide (0 ≤ a) && decide (a + n ≤ 2 ^ 44)) 0x06 fa fi
  require (a % (align : Int) == 0) 0x05 fa fi
  locate s w o r a.toNat n acc fa fi

/-! ### Order of accesses (R195, R283, R284) -/

/-- A held request whose value has not returned (R186). -/
def HeldEffect.isRequest : HeldEffect → Bool
  | .amo .. | .loadSE .. | .loadElems .. | .loadImage .. | .tqget _ => true
  | _ => false

def HeldEffect.isStore : HeldEffect → Bool
  | .store _ => true
  | _ => false

/-- Effects that have left a hold buffer and wait at a bank (R292). -/
def waitingAtBanks (s : State) (p : OutsideWrite → Bool) : Bool := s.quads.any fun e => e.2.outside.any fun o => o.copy.isNone && p o

/-- Requests of a thread numbered below a bound that have not returned. -/
def outstanding (s : State) (tid bound : Nat) : Bool :=
  let c := s.core (coreOf tid)
  (c.hold.any fun e => e.tid == tid && decide (e.seq < bound) && e.effect.isRequest)
  || (c.replies.any fun r => r.tid == tid && decide (r.seq < bound) && r.written.isNone)
  || waitingAtBanks s fun o => o.tid == tid && decide (o.seq < bound) && o.effect.isRequest

/-- Held stores of a thread numbered below a bound that are not yet visible outside its quad. -/
def heldStores (s : State) (tid bound : Nat) : Bool :=
  ((s.core (coreOf tid)).hold.any fun e => e.tid == tid && decide (e.seq < bound) && e.effect.isStore)
  || waitingAtBanks s fun o => o.tid == tid && decide (o.seq < bound) && o.effect.isStore

/-- An access made at retirement waits for an older acquire (R195, R283), and a load after a wide `fence.acqrel` for
the thread's older stores: the held ones, and its own writes to spaces 1 and 2, which the others see W cycles after their
retirement (R282, R284). -/
def awaitAcquire (s : State) (load : Bool) : Except Stop Unit :=
  await (!outstanding s s.tid s.th.loadAfter
    && !(load && (heldStores s s.tid s.th.loadAfterStores || decide (s.cycle < s.th.loadFrom))))

/-- Every effect of a quad below a number has been performed (R287). -/
def performedBelow (s : State) (q bound : Nat) : Bool :=
  ((List.range 4).all fun i => (s.core (4 * q + i)).hold.all fun e => decide (bound ≤ e.seq))
  && !waitingAtBanks s fun o => quadOfCore o.core == q && decide (o.seq < bound)

/-- The bytes whose value an access of the same quad must not overtake while the effect is held: an atomic's, and for a
write also those of a held load (R280 to R283). -/
def HeldEffect.guards (e : HeldEffect) (write : Bool) : List Loc :=
  match e with
  | .amo _ ls _ _ _ _ => ls
  | e => if write then e.loads else []

/-- Two lists of places share a byte. -/
def sharesByte (as bs : List Loc) : Bool := as.any fun a => bs.any fun b => a.key == b.key

/-- A held request of a thread's quad names a byte, so that an access to it waits until the request has been performed; an
access of a service core waits for that core's own writes that wait at a bank (R280, R282). -/
def requestOver (s : State) (tid : Nat) (write : Bool) (ls : List Loc) : Bool :=
  if isService tid then waitingAtBanks s fun o => o.tid == tid && sharesByte o.effect.locs ls
  else
    ((List.range 4).any fun i => (s.core (4 * quadOf tid + i)).hold.any fun e => sharesByte (e.effect.guards write) ls)
      || waitingAtBanks s fun o => quadOfCore o.core == quadOf tid && sharesByte (o.effect.guards write) ls

/-! ### Changes of records and residency entries (R323) -/

/-- Blocks of an object (R316). -/
def ObjRec.blocks (o : ObjRec) : Nat :=
  (List.range o.d).foldl (fun n i => let t := o.inUnits o.tile i; n * ((o.inUnits o.ext i + t - 1) / t)) 1

/-- A change of a present record or a valid entry is written, to be in force later. -/
def State.changeBytes (s : State) (addr : Nat) (bs : List Byte) : State :=
  { s with recordWrites := s.recordWrites ++ [{ cells := ((List.range bs.length).map (addr + ·)).zip bs, bound := s.seq }] }

/-- A written change that is not yet in force covers an address. -/
def changing (s : State) (addr : Nat) : Bool := s.recordWrites.any fun w => w.cells.any fun c => c.1 == addr

/-- An address lies in the record table of a context, or in the residency map of a present object. -/
def translates (s : State) (key : Nat) : Bool :=
  s.contexts.any fun c =>
    let base := recordAddr c.2.ortb 0
    (decide (base ≤ key) && decide (key < base + 128 * 2 ^ bits c.2.ortb 0 6))
      || (c.2.gens.map (·.1)).any fun n => match objRecord s c.2 n with
        | .ok (some o) => decide (o.map * 8 ≤ key) && decide (key < o.map * 8 + 8 * o.blocks)
        | _ => false

/-- A load at retirement goes on: it waits for acquires, for requests of its quad to the same bytes, and in a service core
for the record changes that it has written there. -/
def awaitLoad (s : State) (ls : List Loc) : Except Stop Unit := do
  awaitAcquire s true
  await (!requestOver s s.tid false ls)
  await (!(isService s.tid && ls.any fun l => changing s l.key))

/-! ### The pacer (R355) -/

/-- LEFT of the current epoch (R354, R355). -/
def quadLeft (s : State) (q limit : Nat) : Nat :=
  let k := s.quad q
  if k.epoch = s.cycle / Config.epoch then k.left else limit

/-- The current thread starts the requests of an instruction that takes `n` of them: those it has not started yet, as
many as its quad may start in this epoch, and the rest in later epochs (R355). -/
def payPacer (s : State) (n : Nat) : Except Stop State :=
  let limit := (contextOf s s.th.gang).qlimit
  if limit = 0 ∨ isService s.tid then .ok s
  else
    let q := quadOf s.tid
    let left := quadLeft s q limit
    let need := n - s.th.paid
    if need ≤ left then .ok (s.setQuad q { s.quad q with epoch := s.cycle / Config.epoch, left := left - need })
    else .error (.pacer left)

/-- A location on a package, or at a host socket, marked lost (R394, R395). -/
def unreachable (s : State) (l : Loc) : Bool :=
  let k := (forwardLoc s l).key
  !onDie k && s.lost.contains (nodeOf k)

/-- The 256-byte lines beyond section memory that locations lie in. -/
def linesOf (ls : List Loc) : List Nat := ((ls.filter fun l => !onDie l.key).map fun l => l.key / 256).dedup

/-! ### Loads and stores of a thread -/

/-- A load at retirement: it waits for acquires, pays the pacer and is seen by the race detector (R190, R296, R355). -/
def loadUnits (s : State) (units : List (List Loc)) : Except Stop (List (List Byte) × State) := do
  awaitLoad s units.flatten
  let s ← payPacer s (linesOf units.flatten).length
  let vals := units.map (viewBytes s (whoTh s))
  return (vals, units.foldl (fun s u => s.detect s.tid false false .whole s.cycle u) s)

/-- Bytes to be written in full. -/
def wbytes (ls : List Loc) (bs : List Byte) : List WByte :=
  List.zipWith (fun l b => { loc := l, val := b, mask := 0xFF }) ls bs

/-- Lines of space 0 that a replay-mode write takes from its quad's quota, or the wait or fault of R386. -/
def takeQuota (s : State) (w : Who) (lines : Nat) (fa : Word) : Except Stop State :=
  if !heatOf s w.gang || lines == 0 then .ok s
  else
    let q := quadOfCore w.core
    let k := s.quad q
    if k.quota + lines ≤ Config.heatQuota then .ok (s.setQuad q { k with quota := k.quota + lines })
    else if (List.range 4).any fun i => !(s.core (4 * q + i)).hold.isEmpty then .error .stall
    else trapOf 0x0D fa

/-- Distinct 256-byte lines of a store (R145, R386). -/
def storeLines (units : List (List WByte)) : List Nat := (units.flatten.map fun c => c.loc.key / 256).dedup

/-- The lines that each of a store's groups takes from the quota: every line once (R386). -/
def groupLines (seen : List Nat) : List (List (List WByte)) → List (List Nat)
  | [] => []
  | g :: gs =>
    let new := (storeLines g).filter fun n => !seen.contains n
    new :: groupLines (seen ++ new) gs

/-- The bytes that units write. -/
def unitLocs (units : List (List WByte)) : List Loc := units.flatMap fun u => u.map fun c => c.loc

/-- The race detector sees the units of a write by a thread (R296). -/
def State.detectUnits (s : State) (tid : Nat) (m : Moment) (retired : Nat) (units : List (List WByte)) : State :=
  units.foldl (fun s u => s.detect tid true false m retired (u.map fun c => c.loc)) s

/-- The lines that a core's held entry has taken from its quad's quota (R386). -/
def tookBy (s : State) (core seq : Nat) : List Nat :=
  match (s.core core).hold.find? fun e => e.seq == seq with
  | some e => e.took
  | none => []

/-- The cycle in which the instruction of a core's held entry retired. -/
def retiredAt (s : State) (core seq : Nat) : Nat :=
  match (s.core core).hold.find? fun e => e.seq == seq with
  | some e => e.cycle
  | none => s.cycle

/-- A unit that reaches a quad's memory waits while one of its bytes has a young own write, or an earlier outside write
waits for the byte (R292). -/
def mustWait (s : State) (u : List WByte) : Bool :=
  u.any fun c => youngWrite s c.loc.key || outsideWaits s c.loc.key

/-- An effect waits at the bank of the quad that one of its places names (R292). -/
def State.waitAtBank (s : State) (ls : List Loc) (o : OutsideWrite) : State :=
  match ls.findSome? fun l => homeQuad? l.key with
  | none => s
  | some q => s.setQuad q { s.quad q with outside := (s.quad q).outside ++ [o] }

/-- Units of a released write, or of a service core's, are performed, or wait at the bank of their quad (R292). -/
def State.arriveUnits (s : State) (core seq tid : Nat) (kind : Nat) (units : List (List WByte)) : State :=
  let t := s.thread tid
  let rank := if isService tid then none else some t.rank
  let retired := retiredAt s core seq
  let took := tookBy s core seq
  let now := units.filter fun u => !mustWait s u
  let later := units.filter fun u => mustWait s u
  let s := s.detectUnits tid .performed retired now
  let s := performWrite s t.gang (sectionOf tid) (quadOfCore core) rank kind now took
  later.foldl (fun s u => s.waitAtBank (u.map fun c => c.loc)
    { core, seq, tid, gang := t.gang, rank, kind, effect := .store [u], retired, copy := none }) s

/-- A write to spaces 1 and 2 goes on: it waits for what a release fence puts before it (R285), and for outside writes and
held requests that name one of its bytes (R280, R292). -/
def awaitOwn (s : State) (ls : List Loc) : Except Stop Unit := do
  await (performedBelow s (quadOf s.tid) s.th.storeAfter)
  await (!requestOver s s.tid true ls)
  await (!(ls.any fun l => outsideWaits s l.key))

/-- A store to spaces 1 and 2, performed at retirement (R184), after older acquires. -/
def ownStore (s : State) (units : List (List WByte)) : Except Stop State := do
  let ls := unitLocs units
  awaitAcquire s false
  awaitOwn s ls
  let kept := units.map fun u => u.filter fun c => !marked s c.loc
  let s := (markedLines s units.flatten).foldl (fun s c =>
    s.logIn (sectionOf s.tid) { cls := 0x09, ukind := (homeUnit c.loc.key).1, unit := (homeUnit c.loc.key).2,
                                rank := some s.th.rank, off := c.loc.off }) s
  let s := kept.flatten.foldl (fun s c => s.ownWrite s.th.gang c) s
  let s := s.setTh { s.th with ownAt := some s.cycle }
  let s := s.detectUnits s.tid .whole s.cycle units
  return kept.foldl (fun s u => s.traceWrite 0 (some s.th.rank) (u.map fun c => c.loc)) s

/-- A store of a service core, which is not held: bytes of records and residency entries change as R323 states, and the
others arrive at their destination. -/
def serviceStore (s : State) (units : List (List WByte)) : Except Stop State := do
  await (!requestOver s s.tid true (unitLocs units))
  let tables := units.filter fun u => u.any fun c => translates s c.loc.key
  let plain := units.filter fun u => !u.any fun c => translates s c.loc.key
  let s := tables.foldl (fun s u => { s with recordWrites := s.recordWrites ++
    [{ cells := u.map fun c => (c.loc.key, c.onto (s.mem.read c.loc.key)), bound := s.seq }] }) s
  return { s with seq := s.seq + 1 }.arriveUnits (coreOf s.tid) s.seq s.tid 0 plain

/-- A store of the current thread (R184): to spaces 1 and 2 it is performed at retirement; elsewhere it takes hold-buffer
entries, one for each group of units, and it waits for held requests of the quad at its bytes, since the quad sees it at
once (R280 to R282). -/
def storeUnits (s : State) (space : Nat) (groups : List (List (List WByte))) (fa : Word)
    (tiles : List (List (Nat × Nat)) := []) : Except Stop State := do
  let units := groups.flatten
  if space = 1 ∨ space = 2 then ownStore s units
  else if isService s.tid then serviceStore s units
  else
    await (!requestOver s s.tid true (unitLocs units))
    needEntries s groups.length
    let lines := if space = 0 then groupLines [] groups else []
    let s ← takeQuota s (whoTh s) lines.flatten.length fa
    let s := s.detectUnits s.tid .retired s.cycle units
    return ((List.range groups.length).zip groups).foldl (fun s g =>
      pushHold s s.tid (.store g.2) (tiles.getD g.1 []) (lines.getD g.1 [])) s

end Sys2Proof.Machine
end

