-- ==== Sys2Proof/Machine/TileImage.lean ====
section
/-! DEFINITION. The image of a half's tiles in memory (06 R181, R182). -/

namespace Sys2Proof.Machine

/-! ### Tile half images (R181, R182) -/

/-- The header byte of a tile: live, saved, tag. -/
def tileHeader (inMask : Bool) (t : Option Tile) : Nat :=
  if !inMask then 0 else match t with
    | some k => 0xC0 + k.tag % 16
    | none => 0x40

/-- The bytes of one tile of an image, 4,608 in all. -/
def tileBytes (t : Option Tile) : List Byte := leBytes 4096 (Tile.image t).data.toNat ++ leBytes 512 (Tile.image t).scale.toNat

/-- The 36,928 bytes of a half with every tile saved; an empty tile's bytes are zero. -/
def halfBytes (t : Thread) (half : Nat) : List Byte :=
  let tiles := (List.range 8).map fun i => t.t.toList.getD (8 * half + i) none
  tiles.map (fun k => BitVec.ofNat 8 (tileHeader true k)) ++ List.replicate 56 0 ++ tiles.flatMap tileBytes

/-- A header byte that `trstr` refuses (R182). -/
def badHeader (h : Nat) : Bool :=
  field h 6 1 == 0 || field h 4 2 != 0 || field h 0 4 == 1 || field h 0 4 == 2 || decide (8 ≤ field h 0 4)

/-- The image of a live tile at its place in a half. -/
def tileFrom (half : List Byte) (i h : Nat) : TileImage :=
  let b := half.drop (64 + 4608 * i)
  { data := BitVec.ofNat 32768 (leNat (b.take 4096)), scale := BitVec.ofNat 4096 (leNat ((b.drop 4096).take 512)),
    tag := field h 0 4 }

/-- A header that `trstr` refuses for a tile: its byte, or the bytes after the eight. -/
def headerBad (h : List Byte) (t : Rt) : Bool :=
  badHeader (h.getD (t.val % 8) 0).toNat || (h.drop 8).any fun b => b != 0

/-- A tile is live in an image's header. -/
def headerLive (h : List Byte) (t : Rt) : Bool := bitAt (h.getD (t.val % 8) 0) 7

end Sys2Proof.Machine
end

