-- ==== Sys2Proof/Machine/Hold.lean ====
section
/-! DEFINITION. What becomes of a held effect at its release (07 R184 to R221; 09 R247, R248; 06 R176, R177; 15 R350 to
R352, R355), the delivery of messages and start messages (R198 to R202, R274, R359), and the hold-buffer's head. -/

namespace Sys2Proof.Machine

/-! ### Messages (R198, R199, R201) -/

/-- The header of a message (R199). -/
def headerWord (kind flags tag sender : Nat) : Word :=
  BitVec.ofNat 64 (2 ^ 63 + kind % 8 * 2 ^ 60 + flags % 64 * 2 ^ 54 + tag % 2 ^ 16 * 2 ^ 32 + sender % 2 ^ 32)

def headerKind (h : Word) : Nat := bits h 60 3
def headerTag (h : Word) : Nat := bits h 32 16

/-- SENDER of the service cores and the host (R199). -/
def noRank : Nat := 0xFFFFFFFF

/-- A payload of words `x10` to `x17`. -/
def wordsPayload (ws : List Word) : VReg := BitVec.ofNat 1024 (packList 64 (ws.map (·.toNat)))

/-- The eight words of a message's payload. -/
def Message.words (m : Message) : List Word := (List.range 8).map fun i => BitVec.ofNat 64 (elem 64 i m.payload)

/-- The thread that a rank of a resident gang names (R260). -/
def Gang.tidOf (g : Gang) (rank : Nat) : Option Nat := (g.cores[rank / 2]?).map fun c => 2 * c + rank % 2

/-- Where the context of a rank is. -/
inductive Place where
  | resident (tid : Nat)
  | saved (t : Thread)
  | nowhere

def placeOf (s : State) (gang rank : Nat) : Place :=
  match s.gangs.get? gang with
  | none => .nowhere
  | some g =>
    if g.resident then (match g.tidOf rank with
      | some t => .resident t
      | none => .nowhere)
    else match g.savedThreads.get? rank with
      | some t => .saved t
      | none => .nowhere

/-- A context that holds no started thread (R260, R265). -/
def Thread.free (t : Thread) : Bool := t.run == .never || t.run == .ended

/-- What became of a delivery. -/
inductive Delivery where
  | done (s : State)
  | full
  | dead

/-- A message enters a thread's inbox, or its overflow queue, and sets the wake bit (R201, R204); the thread of a core
that is being moved gets it in the queue (R366). -/
def Thread.accept (t : Thread) (m : Message) (moving : Bool) : Option Thread :=
  if !moving ∧ t.run ≠ .stopped ∧ t.inbox.length < Config.inboxSlots ∧ t.overflow = [] ∧ t.spill = [] then
    some { t with inbox := t.inbox ++ [m], wake := true,
                  arrivals := if m.outside then t.arrivals ++ [m] else t.arrivals
                  events := if m.outside then (m.seq, 1) :: t.events else t.events }
  else if t.overflow.length < Config.overflowMessages ∧ t.spill = [] then
    some { t with overflow := t.overflow ++ [m], wake := true, events := (m.seq, 1) :: t.events }
  else none

/-- A replay-mode gang keeps the messages that come from outside it; completions and answers that its own transfers and
messages cause are none (R383, R388). -/
def State.keepOutside (s : State) (gang rank : Nat) (m : Message) : State :=
  match s.gangs.get? gang, m.sender with
  | some g, .host | some g, .service _ =>
    if g.heatMode && decide (headerKind m.header < 2) then s.setGang gang { g with outsideMsgs := g.outsideMsgs ++ [{ gang, rank, msg := m }] } else s
  | _, _ => s

/-- A core is being moved (R366). -/
def State.moving (s : State) (gang core : Nat) : Bool :=
  match s.gangs.get? gang with
  | some g => g.moves.any fun m => m.1 == core
  | none => false

/-- Delivery of a message to a gang's rank (R201, R274, R359). -/
def deliver (s : State) (gang rank : Nat) (m : Message) : Delivery :=
  let m := { m with seq := s.seq }
  match placeOf s gang rank with
  | .nowhere => .dead
  | .resident tid =>
    let t := s.thread tid
    if t.free then .dead
    else match t.accept m (s.moving gang (coreOf tid)) with
      | some t' => .done ({ s.setThread tid t' with seq := s.seq + 1 }.keepOutside gang rank m)
      | none => .full
  | .saved t =>
    if t.free then .dead
    else if t.spill.length < Config.spillMessages then
      match s.gangs.get? gang with
      | some g => .done ({ s.setGang gang
          { g with savedThreads := g.savedThreads.put rank { t with spill := t.spill ++ [m], wake := true } } with
          seq := s.seq + 1 }.keepOutside gang rank m)
      | none => .dead
    else .full

/-- Delivery of a message to a party (R199, R201). -/
def State.reach (s : State) (party : Party) (m : Message) : Delivery :=
  match party with
  | .host => .done { s with hostOut := s.hostOut ++ [{ header := m.header, words := m.words }] }
  | .service sec =>
    let t := s.thread (4096 + sec)
    if t.inbox.length < Config.inboxSlots then
      .done (s.setThread (4096 + sec) { t with inbox := t.inbox ++ [m], wake := true })
    else .full
  | .member g r => deliver s g r m

/-- A message of the service core of a section. -/
def serviceMessage (sec : Nat) (header : Word) (ws : List Word) : Message :=
  { header, payload := wordsPayload ws, sender := .service sec, scope := .thread, outside := true, seq := 0, born := 0 }

/-- A KIND 3 message is dropped where its queue is full or its receiver has ended (R201). -/
def State.tellAnswer (s : State) (party : Party) (m : Message) : State :=
  match s.reach party m with
  | .done s' => s'
  | _ => s

/-- The words of a KIND 3 message: the destination as sent and the original header (R199). -/
def answerWords (dest header : Word) : List Word := [dest, header, 0, 0, 0, 0, 0, 0]

/-- The service core of a section sends a message: it is kept while the receiver's queues are full, or older messages to the
same receiver are kept (R198), and answered with a KIND 3 message where the receiver has ended (R201). -/
def State.tell (s : State) (sec : Nat) (party : Party) (header : Word) (ws : List Word) : State :=
  let m := serviceMessage sec header ws
  let keep := { s with unsent := s.unsent ++ [(party, m)] }
  if s.unsent.any fun e => e.1 == party then keep
  else match s.reach party m with
    | .done s' => s'
    | .full => keep
    | .dead => s.tellAnswer (.service sec) (serviceMessage sec (headerWord 3 0 (headerTag header) noRank) (answerWords 0 header))

/-- The first kept message of the service cores that can be delivered now, or that finds no thread. -/
def unsentDue (s : State) : Option (Party × Message) :=
  s.unsent.find? fun e => (s.unsent.find? fun f => f.1 == e.1) == some e && (match s.reach e.1 e.2 with
    | .full => false
    | _ => true)

/-- It is delivered. -/
def State.sendKept (s : State) : State :=
  match unsentDue s with
  | none => s
  | some e => { s with unsent := s.unsent.erase e }.tellAnswer e.1 e.2

/-- The start of the thread that a party is (R263). -/
def bornOf (s : State) : Party → Nat
  | .member g r => match placeOf s g r with
    | .resident tid => (s.thread tid).born
    | .saved t => t.born
    | .nowhere => 0
  | _ => 0

/-- A KIND 3 answer to the sender of a message: the destination as sent and the original header (R199, R201). A later thread
of the sender's rank does not get it: it is dropped. -/
def State.answer (s : State) (party : Party) (born : Nat) (dest header : Word) : State :=
  if bornOf s party ≠ born then s
  else s.tellAnswer party (serviceMessage 0 (headerWord 3 0 (headerTag header) noRank) (answerWords dest header))

/-- The answer for a message that found no thread: a KIND 3 message or a completion that cannot be delivered is answered with
nothing (R265). -/
def State.undeliverable (s : State) (o : Outgoing) : State :=
  if 2 ≤ headerKind o.msg.header then s else s.answer o.msg.sender o.msg.born (BitVec.ofNat 64 o.rank) o.msg.header

/-! ### Start messages (R202, R274) -/

/-- The header by which a start message is answered: the sender's rank and tag (R199, R202). -/
def StartMsg.header (m : StartMsg) : Word :=
  headerWord 0 0 m.tag (match m.sender with
    | .member _ r => r
    | _ => noRank)

/-- The lowest-numbered free context of a core that no start is using; a context that a thread leaves in this cycle is free
from the next one on (R274). -/
def freeSlot (s : State) (core : Nat) : Option Nat :=
  [0, 1].find? fun i =>
    let t := s.thread (2 * core + i)
    t.free && !(t.run == .ended && t.stoppedAt == s.cycle) && !((s.core core).starting.any fun e => e.1 == i)

/-- The start queue of a position (R202, R348). -/
def Gang.startsOf (g : Gang) (pos : Nat) : List StartMsg := (g.starts.get? pos).getD []

def State.queueStart (s : State) (gang : Nat) (g : Gang) (m : StartMsg) : Delivery :=
  if (g.startsOf m.pos).length < Config.startMessages then
    .done (s.setGang gang { g with starts := g.starts.put m.pos (g.startsOf m.pos ++ [m]) })
  else .full

/-- The answer to a start message that is not carried out (R202, R347). -/
def State.refuseStart (s : State) (m : StartMsg) : State :=
  s.answer m.sender m.born (BitVec.ofNat 64 m.pos) m.header

/-- A start message reaches its destination core (R202); a gang that is torn down starts no thread (R347). -/
def deliverStart (s : State) (m : StartMsg) : Delivery :=
  match s.gangs.get? m.gang with
  | none => .dead
  | some g =>
    if g.closing.isSome then .dead
    else if !g.resident || g.switching then s.queueStart m.gang g m
    else match g.cores[m.pos]? with
      | none => .dead
      | some c =>
        if (g.startsOf m.pos) ≠ [] then s.queueStart m.gang g m
        else match freeSlot s c with
          | some i => .done (s.setCore c { s.core c with starting := (s.core c).starting ++ [(i, s.cycle, m)] })
          | none => s.queueStart m.gang g m

/-! ### Atomics (R191, R193) -/

/-- The new memory value of an atomic, from the old value, the operand and the old `xd`, in `n` bits (R191). -/
def amoNew (op : AmoOp) (n m x old : Nat) : Nat :=
  let m := m % 2 ^ n
  let x := x % 2 ^ n
  match op with
  | .swap => x
  | .add => (m + x) % 2 ^ n
  | .and => m &&& x
  | .or => m ||| x
  | .xor => m ^^^ x
  | .min => if toSigned n m < toSigned n x then m else x
  | .max => if toSigned n m < toSigned n x then x else m
  | .minn => if m < x then m else x
  | .maxn => if m < x then x else m
  | .cas => if m = old % 2 ^ n then x else m
  | .fadd => faddRne (if n = 64 then .f64 else .f32) m x

/-- What `xd` receives: the old value, sign-extended but for `amofadd` (R191). -/
def amoResult (op : AmoOp) (n m : Nat) : Word := if op = .fadd then BitVec.ofNat 64 m else sextTo n m

/-! ### Replies (R186, R187) -/

/-- The reply of a performed request waits in its core to be written to the registers (R186). -/
def State.reply (s : State) (core : Nat) (r : Reply) : State :=
  let c := s.core core
  s.setCore core { c with replies := c.replies ++ [r] }

/-- The service core logs a poisoned reply (R187, R376). -/
def State.logPoison (s : State) (tid : Nat) (l : Loc) : State :=
  s.logIn (sectionOf tid)
    { cls := 0x08, ukind := 0, unit := coreOf tid, detail := 0x0B, rank := some (s.thread tid).rank, obj := l.obj,
      off := l.off, paddr := if onDie l.key then 0 else l.key % 2 ^ 46 }

/-- A reply without poison. -/
def okReply (seq tid : Nat) (writes : List (DestReg × Nat)) : Reply :=
  { seq, tid, writes, poisoned := false, addr := 0, obj := none, task := none, bad := false, scope := .thread, written := none }

/-- A reply that carries poison: the registers are written as poisoned (R187). -/
def poisonReply (seq tid : Nat) (l : Loc) (dests : List DestReg) : Reply :=
  { okReply seq tid (dests.map fun d => (d, 0)) with
    poisoned := true, addr := BitVec.ofNat 64 l.off, obj := if l.space = 0 then some l.obj else none }

/-- A request that crosses Hjelwa and gets no response is answered by its own agent, which logs it with its rank, or with none
(R376, R392), and reports the node that did not answer (R394); the manual does not say at which of the 16 ports. -/
def State.logNoResponse (s : State) (sec : Nat) (rank : Option Nat) (l : Loc) : State :=
  let port := (Config.freeValue s.fresh).toNat % 16
  let node := nodeOf (forwardLoc s l).key
  { s with
    fresh := s.fresh + 1
    reported := if node = s.pkg ∨ s.lost.contains node ∨ s.reported.contains node then s.reported else s.reported ++ [node] }.logIn sec
    { cls := 0x0C, ukind := 6, unit := port, detail := port, rank, obj := l.obj, off := l.off, paddr := l.key % 2 ^ 46 }

/-- A thread's request gets no response (R392). -/
def State.logTimeout (s : State) (tid : Nat) (l : Loc) : State :=
  s.logNoResponse (sectionOf tid) (some (s.thread tid).rank) l

/-- A line of a request is marked, or cannot be reached, so that the reply carries poison (R187, R392). -/
def poisons (s : State) (ls : List Loc) : Bool := ls.any fun l => marked s l || unreachable s l

/-- The poisoned reply of a request that reads some bytes, and its log records (R187, R376). -/
def State.replyPoison (s : State) (core seq tid : Nat) (ls : List Loc) (dests : List DestReg) : State :=
  let l := ls.headD { key := 0, crypt := none, dmg := false, space := 0, obj := 0, off := 0 }
  let s := if ls.any (marked s) then s else s.logTimeout tid l
  (s.logPoison tid l).reply core (poisonReply seq tid l dests)

/-- An atomic that retired at a cycle is performed at its coherence point (R191, R192): read and write are one step
(R289). -/
def performAmo (s : State) (core seq tid retired : Nat) (op : AmoOp) (ls : List Loc) (w : Bool) (x old : Word) (d : Rx) : State :=
  let t := s.thread tid
  let s := s.reread (sectionOf tid) t.gang (some t.rank) (weakLines s ls)
  if poisons s ls then s.replyPoison core seq tid ls [.x d]
  else
    let n := if w then 64 else 32
    let m := leNat (ls.map (coherentByte s (sectionOf tid)))
    let m' := amoNew op n m x.toNat old.toNat
    let s := s.detect tid true true .performed retired ls
    let s := performWrite s t.gang (sectionOf tid) (quadOfCore core) (some t.rank) 1 [wbytes ls (leBytes ls.length m')]
      (tookBy s core seq)
    s.reply core (okReply seq tid [(.x d, (amoResult op n m).toNat)])

/-- The value that a held load writes (R188). -/
def loadValue (form : LoadForm) (v : Nat) : Nat :=
  match form with
  | .signed n => (sextTo (8 * n) v).toNat
  | .unsigned n => v % 2 ^ (8 * n)
  | .whole => v

/-- A register's number from the bits it keeps and the pieces of loaded bytes. -/
def assemble (keep : Nat) (ps : List Piece) (bs : List Byte) : Nat :=
  (List.zip ps bs).foldl (fun n e => n + field e.2.toNat e.1.lo e.1.len * 2 ^ e.1.pos) keep

/-- Units of a write whose requests get no response are dropped: one request for each line (R392). -/
def State.dropUnits (s : State) (tid : Nat) (units : List (List WByte)) : State :=
  let first := (units.flatten.foldl (fun (acc : List Loc) c =>
    if acc.any fun l => l.key / 256 == c.loc.key / 256 then acc else acc ++ [c.loc]) [])
  first.foldl (fun s l => s.logTimeout tid l) s

/-- A held load reads at its release (R184); its reply is made of the bytes, or carries poison (R187). -/
def State.readAtRelease (s : State) (core seq tid : Nat) (ls : List Loc) (dests : List DestReg)
    (reply : List Byte → Reply) : State :=
  let t := s.thread tid
  let s := s.reread (sectionOf tid) t.gang (some t.rank) (weakLines s ls)
  if poisons s ls then s.replyPoison core seq tid ls dests
  else (s.detect tid false false .whole s.cycle ls).reply core (reply (ls.map (coherentByte s (sectionOf tid))))

/-! ### Writes that reach their destination -/

/-- The units of a released write of a core reach their destination. A byte of the quad's own memories that the quad has
written since the write retired keeps the newer value (R276, R280). -/
def State.arriveOwn (s : State) (core seq tid kind : Nat) (units : List (List WByte)) : State :=
  let under := fun (c : WByte) => homeQuad? c.loc.key == some (quadOfCore core) && ownSince s seq c.loc.key
  ((units.flatten.filter under).foldl (fun s c => s.writeUnder seq c) s).arriveUnits core seq tid kind
    (units.map fun u => u.filter fun c => !under c)

/-! ### Tasks (R218 to R220, R350 to R352) -/

/-- WAIT, DONE, PRI and ENTRY of a control word (R218). -/
def taskWait (c : Word) : Nat := bits c 20 12
def taskDone (c : Word) : Nat := bits c 32 12
def taskPri (c : Word) : Nat := bits c 16 2
def taskEntry (c : Word) : Nat := bits c 0 16

/-- The count of a gate, and the widest scope of the changes counted in it; every gate starts at 0 (R220, R290). -/
def Gang.gateEntry (g : Gang) (n : Nat) : BitVec 32 × Scope := (g.gates.get? n).getD (0, .thread)
def Gang.gate (g : Gang) (n : Nat) : BitVec 32 := (g.gateEntry n).1

/-- A gate is open at or below 0 (R218). -/
def gateOpen (v : BitVec 32) : Bool := decide (v.toInt ≤ 0)

/-- The die queue of a gang (R349, R350). -/
def Gang.queue (g : Gang) (die : Nat) : DieQueue := (g.queues.get? die).getD { tasks := [], selections := 0 }

/-- The wider of two scopes. -/
def widest (a b : Scope) : Scope := if a.code < b.code then b else a

/-- A task that waits on no gate, or whose gate is open, is eligible, and taking it acquires from the gate's changes (R290,
R350). -/
def Gang.gated (g : Gang) (t : Task) : Task :=
  if taskWait t.control = 0 then { t with eligible := true }
  else if gateOpen (g.gate (taskWait t.control)) then
    { t with eligible := true, scope := widest t.scope (g.gateEntry (taskWait t.control)).2 }
  else t

/-- A task enters a queue (R350). -/
def Gang.push (g : Gang) (die : Nat) (t : Task) : Gang :=
  let q := g.queue die
  { g with queues := g.queues.put die { q with tasks := q.tasks ++ [g.gated { t with eligible := false }] } }

/-- A gate changes, and the tasks that wait on it become eligible when it is at or below 0 (R220, R350). -/
def Gang.gateSub (g : Gang) (n : Nat) (delta : BitVec 32) (sc : Scope) : Gang :=
  let g := { g with gates := g.gates.put n (g.gate n - delta, widest (g.gateEntry n).2 sc) }
  { g with queues := g.queues.map fun e =>
      (e.1, { e.2 with tasks := e.2.tasks.map fun t => if taskWait t.control = n then g.gated t else t }) }

/-- The die of a gang's gate table: that of its lowest-numbered section (R349). -/
def Gang.gateDie (g : Gang) : Option Nat := least (fun _ => true) (g.cores.map dieOfCore)

/-- The scope of a thread's gate change as a release (R290). -/
def gateScope (g : Gang) (tid : Nat) : Scope := if g.gateDie == some (dieOf tid) then .die else .package

/-- The replies to a thread's requests below a number set no task any more: a `tqdone` has cleared it, and a recall that
writes them again does not bring it back (R186, R221). -/
def State.clearTasks (s : State) (tid seq : Nat) : State :=
  let c := s.core (coreOf tid)
  s.setCore (coreOf tid) { c with replies := c.replies.map fun r =>
    if r.tid = tid ∧ r.seq < seq then { r with task := none } else r }

/-- `tqdone`, entry `seq` of its core, at its release, where it follows a `tqget` whose reply it had to wait for (R221). -/
def performTqdone (s : State) (tid seq : Nat) : State :=
  match (s.thread tid).task, s.gangs.get? (s.thread tid).gang with
  | some k, some g =>
    if k.done = 0 then s
    else
      ((s.pinWith tid fun t => { t with task := none }).clearTasks tid seq).setGang (s.thread tid).gang
        (g.gateSub k.done 1 (gateScope g tid))
  | _, _ => s

/-- The tasks of a queue with their place in age order that a core may take (R352). -/
def takeable (q : DieQueue) (fdie : Bool) : List (Nat × Task) :=
  ((List.range q.tasks.length).zip q.tasks).filter fun e => e.2.eligible && (fdie || e.2.feat % 2 == 0)

/-- The first of the highest priority. -/
def highest : List (Nat × Task) → Option (Nat × Task)
  | [] => none
  | e :: es => match highest es with
    | none => some e
    | some f => if taskPri e.2.control < taskPri f.2.control then some f else some e

/-- A selection: every sixteenth takes the oldest task, the others the oldest of the highest priority (R352). -/
def DieQueue.select (q : DieQueue) (fdie : Bool) : Option (Task × DieQueue) :=
  let c := takeable q fdie
  match (if (q.selections + 1) % 16 = 0 then c.head? else highest c) with
  | none => none
  | some (i, t) => some (t, { tasks := q.tasks.eraseIdx i, selections := q.selections + 1 })

/-- `tqget` at its release (R219). With `xd` among `x10` to `x17` the rule gives no order of the two writes: the register
holds the header here (DESIGN CHOICE, log entry 135). -/
def performTqget (s : State) (core seq tid : Nat) (d : Rx) : State :=
  let t := s.thread tid
  match s.gangs.get? t.gang with
  | none => s.reply core (okReply seq tid [(.x d, 0)])
  | some g =>
    match (g.queue (dieOfCore core)).select (fdieCore core) with
    | none => s.reply core (okReply seq tid [(.x d, 0)])
    | some (k, q) =>
      let s := s.setGang t.gang { g with queues := g.queues.put (dieOfCore core) q }
      let rec' := g.entries.getD (taskEntry k.control) 0
      let header := 2 ^ 63 + taskPri k.control * 2 ^ 44 + bits rec' 0 44
      let words := (List.range 8).map fun i => ((DestReg.x (Fin.ofNat 32 (10 + i))), elem 64 i k.payload)
      s.reply core { okReply seq tid ((.x d, header) :: words) with
        scope := k.scope
        task := some { entry := taskEntry k.control, done := taskDone k.control }
        bad := bits rec' 44 4 != 0 || bits rec' 56 8 != 0 }

/-! ### The baton ring (R174 to R177) -/

/-- The next set position above, or below, a position in a mask, wrapping (R174). -/
def ringNext (mask pos : Nat) : Nat :=
  (((List.range 16).map fun i => (pos + 1 + i) % 16).find? fun p => mask.testBit p).getD pos
def ringPrev (mask pos : Nat) : Nat :=
  (((List.range 16).map fun i => (pos + 15 - i) % 16).find? fun p => mask.testBit p).getD pos

/-- The engine of a ring position in an engine's section (R16). -/
def ringEngine (eng pos : Nat) : Nat := eng / 16 * 16 + pos

/-- A credit returns to the endpoint of a position (R177). -/
def State.returnCredit (s : State) (eng pos : Nat) : State :=
  let e := s.engine (ringEngine eng pos)
  s.setEngine (ringEngine eng pos) { e with credits := min 16 (e.credits + 1) }

/-- A tile leaves for the successor's endpoint. -/
def performRingSend (s : State) (eng : Nat) (img : TileImage) : State :=
  match (s.engine eng).ring with
  | none => s
  | some j =>
    let dest := ringEngine eng (ringNext j.mask (eng % 16))
    let e := s.engine dest
    s.setEngine dest { e with arriving := e.arriving ++ [(eng % 16, img)] }

/-- A receive's slot is freed and its credit returned (R177). -/
def performRingCredit (s : State) (eng slot : Nat) : State :=
  let e := s.engine eng
  match e.slots.find? fun k => k.num == slot with
  | none => s
  | some k => (s.setEngine eng { e with slots := e.slots.filter fun k => k.num != slot }).returnCredit eng k.sender

/-- A join or a leave takes effect on the ring (R176). -/
def performRingJoin (s : State) (eng : Nat) (j : Option Join) : State :=
  let e := s.engine eng
  match j with
  | some _ => s.setEngine eng { e with ring := j, credits := 16, foreign := false }
  | none =>
    e.slots.foldl (fun s k => s.returnCredit eng k.sender) (s.setEngine eng { e with ring := none, slots := [] })

/-! ### Copy transfers (R211, R215) -/

/-- A transfer is the one that a thread's handle names. -/
def Transfer.isOf (t : Transfer) (owner : Nat) (h : Word) : Bool := t.owner == owner && t.handle == h

/-- A cancel reaches the engine (R215): a queued transfer ends, and a running one stops at its next boundary of 256
bytes of the destination count. -/
def Transfer.cancel (t : Transfer) : Transfer :=
  if t.state = 0 then { t with state := 5 }
  else if t.state = 1 ∨ t.state = 3 then
    { t with stopAt := some ((t.done + 255) / 256 * 256) }
  else t

def performCancel (s : State) (owner : Nat) (h : Word) : State :=
  { s with sections := s.sections.map fun e =>
      (e.1, { e.2 with transfers := e.2.transfers.map fun x => if x.isOf owner h then x.cancel else x }) }

/-- Memory as the transfer that entry `seq` of a quad launches reads its section: every byte's settled value (R291), but
for the issuer's quad, where the writes before the `cpgo` are seen (R211, R290). -/
def settledMemory (s : State) (sec quad seq : Nat) : Memory :=
  let undo := fun (m : Memory) (q : Nat) (j : List JournalByte) =>
    (j.filter fun e => recent s.cycle e && (q != quad || decide (seq < e.seq))).foldl (fun (m : Memory) e => m.write e.key e.old) m
  let m := (List.range 32).foldl (fun m i => undo m (8 * sec + i / 4) (s.core (32 * sec + i)).journal) s.mem
  (List.range 8).foldl (fun m i => undo m (8 * sec + i) (s.quad (8 * sec + i)).journal) m

/-- A halted group of a gang has its copy transfers as members (R368, R370). -/
def copiesHalted (s : State) (gang : Nat) : Bool :=
  match s.gangs.get? gang with
  | none => false
  | some g => g.groups.any fun e => e.2.halted && e.2.eng

/-- Queued transfers of a gang that is switched out, or about to be, stay queued (R357). -/
def copiesKept (s : State) (gang : Nat) : Bool :=
  match s.gangs.get? gang with
  | none => false
  | some g => g.switching || !g.resident

/-! ### Performing an effect -/

/-- The reply of a `trstr` from the bytes of its header and tiles; a header that it refuses writes no tile (R182). -/
def imageReply (seq tid : Nat) (head : List Loc) (parts : List (Rt × List Loc)) (bs : List Byte) : Reply :=
  let h := bs.take head.length
  let value := fun (i : Nat) (t : Rt) => if headerLive h t then
      leNat ((bs.drop (head.length + 4608 * i)).take 4608) + (h.getD (t.val % 8) 0).toNat % 16 * 2 ^ tagAt + 2 ^ liveAt
    else 0
  if parts.any fun p => headerBad h p.1 then { okReply seq tid [] with bad := true }
  else okReply seq tid (((List.range parts.length).zip parts).map fun p => (DestReg.t p.2.1, value p.1 p.2.1))

/-- An effect of thread `tid`, entry `seq` of a core, is performed at its destination; none where the destination does
not accept it (R248). -/
def performEffect (s : State) (core seq tid : Nat) (e : HeldEffect) : Option State :=
  match e with
  | .store units =>
    let lost := fun (u : List WByte) => u.any fun c => unreachable s c.loc
    some ((s.dropUnits tid (units.filter lost)).arriveOwn core seq tid 0 (units.filter fun u => !lost u))
  | .amo op ls w x old d =>
    if ls.any fun l => youngWrite s l.key || outsideWaits s l.key then
      let t := s.thread tid
      some (s.waitAtBank ls
        { core, seq, tid, gang := t.gang, rank := some t.rank, kind := 1, effect := .amo op ls w x old d,
          retired := retiredAt s core seq, copy := none })
    else some (performAmo s core seq tid (retiredAt s core seq) op ls w x old d)
  | .loadSE ls form d =>
    some (s.readAtRelease core seq tid ls [d] fun bs => okReply seq tid [(d, loadValue form (leNat bs))])
  | .loadElems ps keep d =>
    some (s.readAtRelease core seq tid (ps.map Piece.loc) [d] fun bs => okReply seq tid [(d, assemble keep ps bs)])
  | .loadImage head parts =>
    some (s.readAtRelease core seq tid (head ++ parts.flatMap (·.2)) (parts.map fun p => DestReg.t p.1)
      (imageReply seq tid head parts))
  | .message o =>
    match deliver s o.gang o.rank o.msg with
    | .done s' => some s'
    | .full => none
    | .dead => some (s.undeliverable o)
  | .start m =>
    match deliverStart s m with
    | .done s' => some s'
    | .full => none
    | .dead => some (s.refuseStart m)
  | .arrive dom lvl =>
    let t := s.thread tid
    let i := 6 * dom.val + lvl.code - 1
    some (s.setThread tid { t with signalled := Vector.ofFn fun j => if j.val = i then t.signalled[j] + 1 else t.signalled[j] })
  | .xsend dest data =>
    some (s.arriveOwn core seq tid 3 ((List.range 32).map fun i => ((wbytes dest data).drop (8 * i)).take 8))
  | .launch t =>
    let sec := sectionOf tid
    let k := s.sect sec
    some (s.setSect sec { k with transfers := k.transfers ++
      [{ t with workedAt := s.cycle, snap := t.snap.map fun _ => (settledMemory s sec (quadOfCore core) seq, k.heatBuf), paused := copiesHalted s t.gang || copiesKept s t.gang }] })
  | .cancel owner h => some (performCancel s owner h)
  | .spawn die t =>
    match s.gangs.get? (s.thread tid).gang with
    | none => some s
    | some g =>
      if (g.queue die).tasks.length < Config.queueTasks then
        some { s.setGang (s.thread tid).gang (g.push die { t with age := s.seq }) with seq := s.seq + 1 }
      else none
  | .gatedec n delta sc =>
    match s.gangs.get? (s.thread tid).gang with
    | none => some s
    | some g => some (s.setGang (s.thread tid).gang (g.gateSub n delta sc))
  | .tqdone => some (performTqdone s tid seq)
  | .tqget d => some (performTqget s core seq tid d)
  | .ringSend eng img => some (performRingSend s eng img)
  | .ringCredit eng slot => some (performRingCredit s eng slot)
  | .ringJoin eng j => some (performRingJoin s eng j)
  | .trap =>
    let t := s.thread tid
    some (if t.run = .trapped then s.setThread tid { t with run := .service } else s)

/-- The current thread makes a held effect (R185, R247); a service core's is performed at once (R250 speaks of quads
only). -/
def State.hold (s : State) (e : HeldEffect) (tiles : List (Nat × Nat) := []) (took : List Nat := []) : State :=
  if isService s.tid then
    let n := s.seq
    (performEffect { s with seq := n + 1 } (coreOf s.tid) n s.tid e).getD s
  else pushHold s s.tid e tiles took

/-- A load from a side-effect object: a held request that writes its register at its reply (R184, R186). -/
def heldLoad (s : State) (e : HeldEffect) (dests : List DestReg) : Except Stop State := do
  needEntries s 1
  let s := dests.foldl (fun s d => s.markPend d) s
  return s.hold e

/-! ### Release (R248, R287, R355) -/

/-- The 256-byte requests of a release (R355). -/
def HeldEffect.requests (e : HeldEffect) : Nat :=
  match e with
  | .store units => (linesOf (units.flatMap fun u => u.map fun c => c.loc)).length
  | .amo _ ls _ _ _ _ => (linesOf ls).length
  | .loadSE ls _ _ => (linesOf ls).length
  | .loadElems ps _ _ => (linesOf (ps.map Piece.loc)).length
  | .loadImage h ts => (linesOf (h ++ ts.flatMap (·.2))).length
  | _ => 0

/-- Two effects name a byte that one of them writes. -/
def HeldEffect.conflicts (a b : HeldEffect) : Bool :=
  sharesByte a.writes (b.writes ++ b.loads) || sharesByte a.loads b.writes

/-- An older effect of the quad, of whichever core, has still to be performed at a byte of this one (R280, R286). -/
def olderConflict (s : State) (core : Nat) (e : HoldEntry) : Bool :=
  let q := quadOfCore core
  ((List.range 4).any fun i => (s.core (4 * q + i)).hold.any fun f =>
      decide (f.seq < e.seq) && e.effect.conflicts f.effect)
    || waitingAtBanks s fun o => quadOfCore o.core == q && decide (o.seq < e.seq) && e.effect.conflicts o.effect

/-- Every own write of a quad to its memories up to a number is visible outside it: it is older than W cycles (R282, R291). -/
def ownVisible (s : State) (q n : Nat) : Bool :=
  let old := fun (j : List JournalByte) => j.all fun e => decide (n < e.seq) || !recent s.cycle e
  old (s.quad q).journal && (List.range 4).all fun i => old (s.core (4 * q + i)).journal

/-- The endpoint that an effect acts on (R176, R177). -/
def HeldEffect.endpoint : HeldEffect → Option Nat
  | .ringSend e _ | .ringCredit e _ | .ringJoin e _ => some e
  | _ => none

/-- An effect of a quad, of whichever core, that retired before a number has still to be performed at an endpoint. -/
def heldAtEndpoint (s : State) (q eng seq : Nat) : Bool :=
  (List.range 4).any fun i => (s.core (4 * q + i)).hold.any fun f => decide (f.seq < seq) && f.effect.endpoint == some eng

/-- An older effect of the quad, or a leave, has still to be performed at the endpoint of this one: what happens at an endpoint
happens in the order of retirement (R176, R177, R265). -/
def olderAtEndpoint (s : State) (core : Nat) (e : HoldEntry) : Bool :=
  e.effect.endpoint.any fun n => heldAtEndpoint s (quadOfCore core) n e.seq || (s.engine n).leaves.any fun l => decide (l.2.1 < e.seq)

/-- The head of a core's buffer may be released now, its destination apart (R248, R253): after a release, once older effects
of the quad are performed and its older own writes visible (R282, R286, R287); requests that an acquire follows have been
performed (R283), older effects at its bytes or at its endpoint too, and a `tqdone` waits for older `tqget` replies. -/
def headDue (s : State) (core : Nat) (e : HoldEntry) : Bool :=
  decide (e.cycle + Config.holdWindow ≤ s.cycle) && (s.quad (quadOfCore core)).phase == .idle
    && (e.after == 0 || (performedBelow s (quadOfCore core) e.after && ownVisible s (quadOfCore core) e.seq))
    && !(waitingAtBanks s fun o => o.tid == e.tid && decide (o.seq < e.acq) && o.effect.isRequest)
    && !olderConflict s core e && !olderAtEndpoint s core e
    && !(e.effect == .tqdone && (s.thread e.tid).tq.any fun n => decide (n < e.seq))

/-- One release, if one can happen (R248): the requests it costs are started, as far as the epoch allows (R355), and
the effect is performed when all have started. -/
def releaseHead (s : State) (core : Nat) : Option State :=
  match (s.core core).hold with
  | [] => none
  | e :: rest =>
    if !headDue s core e then none
    else
      let q := quadOfCore core
      let limit := (contextOf s (s.thread e.tid).gang).qlimit
      let left := quadLeft s q limit
      let need := if limit = 0 then 0 else e.effect.requests - e.paid
      if left < need then
        if left = 0 then none
        else some ((s.setQuad q { s.quad q with epoch := s.cycle / Config.epoch, left := 0 }).setCore core
          { s.core core with hold := { e with paid := e.paid + left } :: rest })
      else
        let s := if limit = 0 then s else s.setQuad q { s.quad q with epoch := s.cycle / Config.epoch, left := left - need }
        match performEffect s core e.seq e.tid e.effect with
        | none => none
        | some s' =>
          let c := s'.core core
          some (s'.setCore core { c with hold := c.hold.filter fun f => f.seq != e.seq, released := some s.cycle })

/-- Up to `n` releases in order. -/
def releaseUpTo : Nat → State → Nat → State
  | 0, s, _ => s
  | n + 1, s, core => match releaseHead s core with
    | none => s
    | some s' => releaseUpTo n s' core

/-- A core can release an entry in this cycle and has not released yet in it. -/
def canRelease (s : State) (core : Nat) : Bool :=
  (s.core core).released != some s.cycle && (releaseHead s core).isSome

end Sys2Proof.Machine
end

