-- ==== Sys2Proof/Machine/ScalarMem.lean ====
section
/-! DEFINITION. Scalar loads and stores (07 R184, R188 to R190), majors 0x16 and 0x17. -/

namespace Sys2Proof

/-- Bytes of an access width (R188). -/
def Width.bytes : Width → Nat
  | .b => 1 | .h => 2 | .w => 4 | .d => 8

/-- Bytes of a zero-extending load (R188). -/
def Width3.bytes : Width3 → Nat
  | .b => 1 | .h => 2 | .w => 4

end Sys2Proof

namespace Sys2Proof.Machine

/-- The address of a scalar access (R189), exact. -/
def scalarAddr (r : Ref) (x : Word) (imm : BitVec 7) (size : Nat) : Int := refOff r + (x.toInt + imm.toInt) * size

/-- The checks of a scalar access and the bytes it reaches (R189). -/
def scalarLocs (s : State) (r : Ref) (x : Word) (imm : BitVec 7) (size : Nat) (acc : Acc) :
    Except Stop (Opened × List Loc) := do
  checkRef r false
  let o := openRef s (whoTh s) r acc
  let ls ← accessUnit s (whoTh s) o r (scalarAddr r x imm size) size size acc 0
  return (o, ls)

/-- A register written with a loaded value. -/
def State.writeDest (s : State) (d : DestReg) (v : Nat) : State :=
  match d with
  | .x r => s.wx r (BitVec.ofNat 64 v)
  | .a r => s.wa r (BitVec.ofNat 128 v)
  | .v r => s.wv r (BitVec.ofNat 1024 v)
  | .t _ => s

/-- A scalar load; from an object with the side-effect attribute it is a held request (R184, R189). -/
def scalarLoad (size : Nat) (form : LoadForm) (d : DestReg) (ref : Ra) (x : Rx) (imm : BitVec 7) (s : State) :
    Host.Outcome State Fault Refusal :=
  finish s (do
    let r ← useA s ref
    let i ← useX s x
    let (o, ls) ← scalarLocs s r i imm size .load
    if o.sideEffect then
      let s ← heldLoad s (.loadSE ls form d) [d]
      return retire s
    else
      let (vals, s) ← loadUnits s [ls]
      return retire (s.writeDest d (loadValue form (leNat vals.flatten))))

/-- A scalar store of the low bytes of a value (R189). -/
def scalarStore (size : Nat) (value : State → Except Stop Nat) (ref : Ra) (x : Rx) (imm : BitVec 7) (s : State) :
    Host.Outcome State Fault Refusal :=
  finish s (do
    let r ← useA s ref
    let i ← useX s x
    let v ← value s
    let (_, ls) ← scalarLocs s r i imm size .store
    let s ← storeUnits s (refSpace r) [[wbytes ls (leBytes size v)]] (BitVec.ofInt 64 (scalarAddr r i imm size))
    return retire s)

def execLd (d : Rx) (r : Ra) (x : Rx) (imm : BitVec 7) (k : Width) (s : State) :=
  scalarLoad k.bytes (.signed k.bytes) (.x d) r x imm s
def execLdn (d : Rx) (r : Ra) (x : Rx) (imm : BitVec 7) (k : Width3) (s : State) :=
  scalarLoad k.bytes (.unsigned k.bytes) (.x d) r x imm s
def execLda (d : Ra) (r : Ra) (x : Rx) (imm : BitVec 7) (s : State) := scalarLoad 16 .whole (.a d) r x imm s
def execSt (d : Rx) (r : Ra) (x : Rx) (imm : BitVec 7) (k : Width) (s : State) :=
  scalarStore k.bytes (fun s => do return (← useX s d).toNat) r x imm s
def execSta (d : Ra) (r : Ra) (x : Rx) (imm : BitVec 7) (s : State) :=
  scalarStore 16 (fun s => do return (← useA s d).toNat) r x imm s

end Sys2Proof.Machine
end

