-- ==== Sys2Proof/Machine/WideScope.lean ====
section
/-! DEFINITION. What releases and acquires do to a thread's later effects (07 R195; 11 R284, R285, R287). -/

namespace Sys2Proof.Machine

/-- A release of the current thread: at section scope or wider its next held entry waits for every entry of the quad's
buffers at this moment (R195, R287). -/
def releaseAt (s : State) (sc : Scope) : State :=
  if 3 ≤ sc.code then s.setTh { s.th with relMark := some s.seq } else s

/-- The release half of a fence: at section scope or wider the thread's next write to spaces 1 and 2, which no entry holds,
waits like its next held entry (R284, R285). -/
def releaseFence (s : State) (sc : Scope) : State :=
  if 3 ≤ sc.code then (releaseAt s sc).setTh { (releaseAt s sc).th with storeAfter := s.seq } else s

/-- An acquire of the current thread: younger accesses wait for its older held requests (R195), and the race detector
notes it, now or, with requests that have not returned, when the last of them has (R296). -/
def acquireAt (s : State) (sc : Scope) : State :=
  let t := s.th.noteAcquire sc s.cycle
  s.setTh { t with
    loadAfter := s.seq
    acqWaits := if outstanding s s.tid s.seq then (s.seq, sc) :: t.acqWaits else t.acqWaits }

/-- Acquires whose older requests have all returned are noted again (R296). -/
def State.settleAcquires (s : State) (t : Nat) : State :=
  let k := s.thread t
  let ended := k.acqWaits.filter fun w => !outstanding s t w.1
  if ended.isEmpty then s
  else s.setThread t (ended.foldl (fun k w => k.noteAcquire w.2 s.cycle)
    { k with acqWaits := k.acqWaits.filter fun w => outstanding s t w.1 })

/-- The added wait of an acquire-release at section scope or wider: younger loads wait for older held stores, and until
the thread's own writes to spaces 1 and 2 are visible beyond its quad (R282, R284). -/
def storesThenLoads (s : State) (sc : Scope) : State :=
  if 3 ≤ sc.code then
    s.setTh { s.th with
      loadAfterStores := s.seq
      loadFrom := match s.th.ownAt with
        | some c => max s.th.loadFrom (c + Config.holdWindow + 1)
        | none => s.th.loadFrom }
  else s

end Sys2Proof.Machine
end

