-- ==== Sys2Proof/Machine/Atomic.lean ====
section
/-! DEFINITION. The atomics (07 R191 to R193), major 0x18. -/

namespace Sys2Proof.Machine

/-- An atomic on spaces 1 and 2, performed at retirement (R192): it waits as a load and as a write of its bytes. -/
def amoNow (s : State) (op : AmoOp) (ls : List Loc) (w : Bool) (x old : Word) (d : Rx) : Except Stop State := do
  awaitLoad s ls
  awaitOwn s ls
  let l := ls.headD { key := 0, crypt := none, dmg := false, space := 0, obj := 0, off := 0 }
  require (!(ls.any (marked s))) 0x0B (BitVec.ofNat 64 l.off)
  let n := if w then 64 else 32
  let m := leNat (viewBytes s (whoTh s) ls)
  let cells := wbytes ls (leBytes ls.length (amoNew op n m x.toNat old.toNat))
  let s := cells.foldl (fun s c => s.ownWrite s.th.gang c) s
  let s := s.setTh { s.th with ownAt := some s.cycle }
  let s := (s.detect s.tid true true .whole s.cycle ls).traceWrite 1 (some s.th.rank) ls
  return s.wx d (amoResult op n m)

/-- An atomic (R191, R192): on spaces 1 and 2 it is performed at retirement, elsewhere at release. Its order is that of
a fence on its side (R285). -/
def atomic (op : AmoOp) (d : Rx) (ref : Ra) (x : Rx) (sc : Scope) (q : Ord) (w : Bool) (s : State) :
    Host.Outcome State Fault Refusal :=
  finish s (do
    let r ← useA s ref
    let v ← useX s x
    let old ← (if op = .cas then useX s d else pure 0)
    let size := if w then 8 else 4
    let (_, ls) ← scalarLocs s r 0 0 size .atomic
    let sp := refSpace r
    require (!((sp == 1 || sp == 2) && decide (3 ≤ sc.code))) 0x02
    require (!(sp == 0 && decide (4 ≤ sc.code) && heatOf s s.th.gang)) 0x02
    let s := if q = .release ∨ q = .acqrel then releaseAt s sc else s
    if sp = 1 ∨ sp = 2 then
      let s ← amoNow s op ls w v old d
      return retire (if q = .acquire ∨ q = .acqrel then acquireAt s sc else s)
    else
      needEntries s 1
      let lines := if sp = 0 then linesOf ls else []
      let s ← takeQuota s (whoTh s) lines.length (BitVec.ofNat 64 (refOff r))
      let s := s.detect s.tid true true .retired s.cycle ls
      let s := (s.markPend (.x d)).hold (.amo op ls w v old d) (took := lines)
      return retire (if q = .acquire ∨ q = .acqrel then acquireAt s sc else s))

def execAmoswap (d : Rx) (r : Ra) (x : Rx) (k : Scope) (q : Ord) (w : Bool) (s : State) := atomic .swap d r x k q w s
def execAmoadd (d : Rx) (r : Ra) (x : Rx) (k : Scope) (q : Ord) (w : Bool) (s : State) := atomic .add d r x k q w s
def execAmoand (d : Rx) (r : Ra) (x : Rx) (k : Scope) (q : Ord) (w : Bool) (s : State) := atomic .and d r x k q w s
def execAmoor (d : Rx) (r : Ra) (x : Rx) (k : Scope) (q : Ord) (w : Bool) (s : State) := atomic .or d r x k q w s
def execAmoxor (d : Rx) (r : Ra) (x : Rx) (k : Scope) (q : Ord) (w : Bool) (s : State) := atomic .xor d r x k q w s
def execAmomin (d : Rx) (r : Ra) (x : Rx) (k : Scope) (q : Ord) (w : Bool) (s : State) := atomic .min d r x k q w s
def execAmomax (d : Rx) (r : Ra) (x : Rx) (k : Scope) (q : Ord) (w : Bool) (s : State) := atomic .max d r x k q w s
def execAmominn (d : Rx) (r : Ra) (x : Rx) (k : Scope) (q : Ord) (w : Bool) (s : State) := atomic .minn d r x k q w s
def execAmomaxn (d : Rx) (r : Ra) (x : Rx) (k : Scope) (q : Ord) (w : Bool) (s : State) := atomic .maxn d r x k q w s
def execAmocas (d : Rx) (r : Ra) (x : Rx) (k : Scope) (q : Ord) (w : Bool) (s : State) := atomic .cas d r x k q w s
def execAmofadd (d : Rx) (r : Ra) (x : Rx) (k : Scope) (q : Ord) (w : Bool) (s : State) := atomic .fadd d r x k q w s

end Sys2Proof.Machine
end

