-- ==== Sys2Proof/Machine/Hurdle.lean ====
section
/-! DEFINITION. Positions, domains and hurdle generations of a gang (07 R205 to R207; 10 R260, R270 to R273). -/

namespace Sys2Proof.Machine

/-- The scope of a level number (R12). -/
def scopeOf : Nat → Scope
  | 0 => .thread | 1 => .core | 2 => .quad | 3 => .sect | 4 => .die | 5 => .package | 6 => .pod | _ => .system

/-- The narrowest scope that holds two cores (R290, R264). -/
def commonScope (a b : Nat) : Scope := scopeOf (commonLevel a b)

/-- The scope of a gang's level (R90, R207). -/
def Gang.scope (g : Gang) : Scope := scopeOf (g.level + 2)

/-- The position of a core in a gang (R260). -/
def Gang.posOf (g : Gang) (core : Nat) : Option Nat := g.cores.idxOf? core

/-- The positions of a domain (R270). -/
def Gang.domain (g : Gang) (d : Fin 4) : List Nat :=
  if d.val = 0 then List.range g.cores.length else g.domains.getD (d.val - 1) []

/-- A thread is in a member context of a gang (R260). -/
def Gang.isMember (g : Gang) (tid : Nat) : Bool := !isService tid && g.cores.contains (coreOf tid) && decide (slotOf tid < g.threads)

/-- A core lies in a domain (R270). -/
def Gang.inDomain (g : Gang) (d : Fin 4) (core : Nat) : Bool :=
  match g.posOf core with
  | some p => (g.domain d).contains p
  | none => false

/-- The instance of a scope that a position lies in: positions follow the units of the gang's cores (R260), and keep their
instances when a core moves (R366); a scope as wide as the gang's level or wider has the gang as its instance (R271,
R273). -/
def Gang.instAt (g : Gang) (lvl : Scope) (pos : Nat) : Nat :=
  if g.scope.code ≤ lvl.code then 0
  else match lvl with
    | .thread | .core => pos
    | .quad => pos / 4
    | .sect => pos / 32
    | _ => pos / 512

/-- The instance of a scope that a core of the gang lies in. -/
def Gang.instOf (g : Gang) (lvl : Scope) (core : Nat) : Nat := g.instAt lvl ((g.posOf core).getD 0)

/-- The cores at the positions of an instance. -/
def Gang.instCores (g : Gang) (lvl : Scope) (inst : Nat) : List Nat :=
  (List.range g.cores.length).filterMap fun p => if g.instAt lvl p = inst then g.cores[p]? else none

/-- The members of a hurdle, as thread numbers (R206, R271). -/
def Gang.members (g : Gang) (d : Fin 4) (lvl : Scope) (inst : Nat) : List Nat :=
  ((g.domain d).filter fun p => g.instAt lvl p == inst).flatMap fun p => match g.cores[p]? with
    | some c => (List.range (min 2 g.threads)).map fun i => 2 * c + i
    | none => []

/-- The place of a domain and level in a thread's arrival counts (R206, R358). -/
def countIndex (d : Fin 4) (lvl : Scope) : Nat := 6 * d.val + lvl.code - 1

def Thread.count (t : Thread) (d : Fin 4) (lvl : Scope) : Nat := t.counts.toList.getD (countIndex d lvl) 0
def Thread.signal (t : Thread) (d : Fin 4) (lvl : Scope) : Nat := t.signalled.toList.getD (countIndex d lvl) 0

/-- A count raised by one. -/
def bump (v : Vector Nat 24) (i : Nat) : Vector Nat 24 := Vector.ofFn fun j => if j.val = i then v[j] + 1 else v[j]

/-- The completed generation of a key. -/
def Gang.completed (g : Gang) (d : Fin 4) (lvl : Scope) (inst : Nat) : Nat :=
  ((g.gens.find? fun e => e.1 == { dom := d.val, lvl := lvl.code, inst }).map (·.2)).getD 0

def Gang.setCompleted (g : Gang) (d : Fin 4) (lvl : Scope) (inst n : Nat) : Gang :=
  let k : GenKey := { dom := d.val, lvl := lvl.code, inst }
  { g with gens := (k, n) :: g.gens.filter fun e => e.1 != k }

/-- Every member's arrivals have reached the next generation; a member context whose thread has ended is excused (R206,
R265). -/
def nextComplete (s : State) (g : Gang) (d : Fin 4) (lvl : Scope) (inst : Nat) : Bool :=
  let ms := g.members d lvl inst
  let here := fun t => decide (g.completed d lvl inst < (s.thread t).signal d lvl)
  ms.all (fun t => g.excused.contains (s.thread t).rank || here t) && ms.any here

/-- The pair whose generations are heats (R273). -/
def Gang.isHeatPair (g : Gang) (d : Fin 4) (lvl : Scope) : Bool := d.val == 0 && lvl == g.scope

/-- The clock of a core's phase (R207, R275). -/
def phaseClock (s : State) (core period : Nat) : Option Nat :=
  (s.core core).phase.map fun c => if period = 0 then 0 else (s.cycle - c) % period

end Sys2Proof.Machine
end

