-- ==== Sys2Proof/Machine/Sync.lean ====
section
/-! DEFINITION. Fences, promotion and drain, messages, hurdles and the scheduled exchange (07 R194 to R208), majors 0x19
to 0x1B. -/

namespace Sys2Proof.Machine

/-! ### Fences, promotion and drain (R194 to R197) -/

/-- `fence` retires at once; what it orders waits (R195, R284). A service core's `fence.acqrel` at package or wider retires
once the changes of records and entries that it follows are in force (R323). -/
def execFence (sc : Scope) (q : Ord) (s : State) : Host.Outcome State Fault Refusal :=
  let acq := q = .acquire ∨ q = .acqrel
  let rel := q = .release ∨ q = .acqrel
  finish s (do
    await (!(isService s.tid && q == .acqrel && decide (5 ≤ sc.code)) || s.recordWrites.isEmpty)
    let s := if rel then releaseFence s sc else s
    let s := if acq then acquireAt s sc else s
    let s := if q = .acqrel then storesThenLoads s sc else s
    return retire s)

/-- A quad runs a thread of a gang (R196). -/
def gangInQuad (s : State) (gang q : Nat) : Bool :=
  (List.range 8).any fun i => !(s.thread (8 * q + i)).free && (s.thread (8 * q + i)).gang == gang

/-- Every effect of a quad that was retired when a number was the next has become visible outside it: the held ones are
performed, and the writes to its own memories are older than W cycles (R196, R282, R288). -/
def visibleBelow (s : State) (q bound : Nat) : Bool := performedBelow s q bound && ownVisible s q bound

/-- `pacq` (R196): it asks the named quad, and retires as an acquire once every effect that the quad had retired at that
moment is visible. -/
def execPacq (x : Rx) (sc : Scope) (s : State) : Host.Outcome State Fault Refusal :=
  finish s (do
    let v ← useX s x
    let q := bits v 0 9
    require (bits v 9 7 == 0 && bits v 26 38 == 0) 0x02
    let own := decide (sc.code < 6) || bits v 16 10 == s.pkg % 1024
    require (own && gangInQuad s s.th.gang q) 0x09 v
    if visibleBelow s q s.seq then return retire (acquireAt s sc)
    else return { s.setTh { s.th with wait := .pacq q s.seq sc } with seq := s.seq + 1 })

/-- Held effects of a thread that are not yet visible outside its quad. -/
def undrained (s : State) (tid : Nat) : Bool :=
  ((s.core (coreOf tid)).hold.any fun e => e.tid == tid) || waitingAtBanks s fun o => o.tid == tid

/-- `hdrain` (R197). -/
def execHdrain (sc : Scope) (s : State) : Host.Outcome State Fault Refusal :=
  finish s (do
    await (decide (sc.code < 3) || !undrained s s.tid)
    return retire s)

/-! ### Messages (R198 to R204) -/

/-- The payload registers `x10` to `x17` (R199). -/
def payloadWords (s : State) : Except Stop (List Word) :=
  (List.range 8).mapM fun i => useX s (Fin.ofNat 32 (10 + i))

/-- A quad peer's context can take a message at the sender's retirement (R201). -/
def takesNow (s : State) (o : Outgoing) (dest : Nat) : Bool :=
  let t := s.thread dest
  quadOf dest == quadOf s.tid && !isService s.tid && !t.free && t.run != .stopped && !s.moving o.gang (coreOf dest)
    && decide (t.inbox.length < Config.inboxSlots) && t.overflow.isEmpty && t.spill.isEmpty
    && !((s.core (coreOf s.tid)).hold.any fun e => e.tid == s.tid && (match e.effect with
      | .message p => p.gang == o.gang && p.rank == o.rank
      | _ => false))

/-- Send a message to a rank of the thread's gang (R201): it is delivered at retirement to a quad peer that can take it,
and is otherwise held. -/
def sendMessage (kind : Nat) (payload : State → Except Stop VReg) (a b : Rx) (s : State) :
    Host.Outcome State Fault Refusal :=
  finish s (do
    let dest ← useX s a
    let tag ← useX s b
    let body ← payload s
    match s.gang? with
    | none => trapOf 0x09 dest
    | some g =>
      require (decide (dest.toNat < 2 * g.cores.length)) 0x09 dest
      let rank := dest.toNat
      let sc := match g.cores[rank / 2]? with
        | some c => commonScope (coreOf s.tid) c
        | none => .thread
      let m : Message :=
        { header := headerWord kind 0 (bits tag 0 16) s.th.rank, payload := body, sender := .member s.th.gang s.th.rank,
          scope := sc, outside := true, seq := 0, born := s.th.born }
      let o : Outgoing := { gang := s.th.gang, rank, msg := m }
      let now := match g.tidOf rank with
        | some t => takesNow s o t
        | none => false
      if now then
        match deliver s o.gang o.rank { m with outside := false } with
        | .done s' => return retire s'
        | _ => .error .stall
      else
        needEntries s 1
        return retire ((releaseAt s sc).hold (.message o)))

def execMsend (a b : Rx) (s : State) : Host.Outcome State Fault Refusal :=
  sendMessage 0 (fun s => do return wordsPayload (← payloadWords s)) a b s
def execMsendv (v : Rv) (a b : Rx) (s : State) : Host.Outcome State Fault Refusal :=
  sendMessage 1 (fun s => useV s v) a b s

/-- `msenda` (R202). -/
def execMsenda (a b : Rx) (s : State) : Host.Outcome State Fault Refusal :=
  finish s (do
    let pos ← useX s a
    let ent ← useX s b
    let ws ← payloadWords s
    match s.gang? with
    | none => trapOf 0x09
    | some g =>
      match g.cores[pos.toNat]? with
      | none => trapOf 0x09
      | some c =>
        require (decide (bits ent 0 16 < g.entries.length)) 0x02
        needEntries s 1
        return retire ((releaseAt s (commonScope (coreOf s.tid) c)).hold (.start
          { gang := s.th.gang, pos := pos.toNat, entry := bits ent 0 16,
            payload := BitVec.ofNat 512 (packList 64 (ws.map (·.toNat))), sender := .member s.th.gang s.th.rank,
            tag := bits ent 0 16, born := s.th.born })))

/-- The words of a payload written to `x10` to `x17`. -/
def State.writeWords (s : State) (p : VReg) : State :=
  (List.range 8).foldl (fun s i => s.wx (Fin.ofNat 32 (10 + i)) (BitVec.ofNat 64 (elem 64 i p))) s

/-- `mrecv` (R203). -/
def execMrecv (d : Rx) (v : Rv) (s : State) : Host.Outcome State Fault Refusal :=
  match s.th.inbox with
  | [] => .next (retire (s.wx d 0))
  | m :: rest =>
    let s := s.setTh { s.th with inbox := rest }
    let s := s.wx d m.header
    let s := if headerKind m.header = 1 then s.wv v m.payload else s.writeWords m.payload
    let s := if headerKind m.header = 2 then
        s.setTh { s.th with fcsr := orFlags s.th.fcsr (BitVec.ofNat 6 (bits m.header 54 6)) }
      else s
    .next (retire (acquireAt s m.scope))

/-- `mpeek` (R203). -/
def execMpeek (d : Rx) (s : State) : Host.Outcome State Fault Refusal :=
  .next (retire (s.wx d (match s.th.inbox with
    | [] => 0
    | m :: _ => m.header)))

/-- `mcount` (R203). -/
def execMcount (d : Rx) (s : State) : Host.Outcome State Fault Refusal :=
  .next (retire (s.wx d (BitVec.ofNat 64 (s.th.inbox.length + s.th.overflow.length))))

/-- The cycle at which a wait times out; none for a time-out of 0 (R204, R230). -/
def deadline (s : State) (x : Word) : Option Nat := if x = 0 then none else some (s.cycle + x.toNat)

/-- The test of `mwait` (R204). -/
def mwaitReady (t : Thread) : Bool := !t.inbox.isEmpty || t.wake

/-- `mwait` succeeds: the wake bit is cleared (R204). -/
def mwaitDone (s : State) (d : Rx) : State := retire ((s.setTh { s.th with wake := false }).wx d 0)

/-- `mwait` (R204). -/
def execMwait (d a : Rx) (s : State) : Host.Outcome State Fault Refusal :=
  finish s (do
    let x ← useX s a
    if mwaitReady s.th then return mwaitDone s d
    else return s.setTh { s.th with wait := .mwait d (deadline s x) })

/-! ### Hurdles (R205 to R207) -/

/-- The gang of a thread that may take part in hurdles of a domain, or the fault of R206 and R271. -/
def hurdleGang (s : State) (dom : Fin 4) : Except Stop Gang :=
  match s.gang? with
  | none => trapOf 0x02
  | some g => if g.isMember s.tid && g.inDomain dom (coreOf s.tid) then .ok g else trapOf 0x02

/-- The completed generation of the current thread's instance. -/
def ownCompleted (s : State) (g : Gang) (dom : Fin 4) (lvl : Scope) : Nat :=
  g.completed dom lvl (g.instOf lvl (coreOf s.tid))

/-- An arrival (R206): a release at the scope, held at section scope or wider; the new count is the generation. -/
def arriveAt (s : State) (g : Gang) (dom : Fin 4) (lvl : Scope) : Except Stop (Nat × State) := do
  let n := s.th.count dom lvl
  await (decide (n < ownCompleted s g dom lvl + 2))
  let i := countIndex dom lvl
  if lvl.code < 3 then
    return (n + 1, s.setTh { s.th with counts := bump s.th.counts i, signalled := bump s.th.signalled i })
  else
    needEntries s 1
    let s := s.setTh { s.th with counts := bump s.th.counts i }
    return (n + 1, (releaseAt s lvl).hold (.arrive dom lvl))

/-- `harrive` (R206). -/
def execHarrive (d : Rx) (dom : Fin 4) (lvl : Scope) (s : State) : Host.Outcome State Fault Refusal :=
  finish s (do
    let g ← hurdleGang s dom
    let (n, s) ← arriveAt s g dom lvl
    return retire (s.wx d (BitVec.ofNat 64 n)))

/-- `hurdle` arrives and waits (R206). -/
def execHurdle (dom : Fin 4) (lvl : Scope) (s : State) : Host.Outcome State Fault Refusal :=
  finish s (do
    let g ← hurdleGang s dom
    let (n, s) ← arriveAt s g dom lvl
    return s.setTh { s.th with wait := .hurdle dom lvl n .plain, stoppedAt := s.cycle })

/-- `hwait` (R206): the completion it sees is an acquire. -/
def execHwait (a : Rx) (dom : Fin 4) (lvl : Scope) (s : State) : Host.Outcome State Fault Refusal :=
  finish s (do
    let g ← hurdleGang s dom
    let x ← useX s a
    require (decide (x.toNat ≤ s.th.count dom lvl)) 0x02
    if x.toNat ≤ ownCompleted s g dom lvl then return retire (acquireAt s lvl)
    else return s.setTh { s.th with wait := .hurdle dom lvl x.toNat .plain, stoppedAt := s.cycle })

/-- `htest` (R206); in a replay-mode gang it waits for a generation that ends a heat (R385). -/
def execHtest (d a : Rx) (dom : Fin 4) (lvl : Scope) (s : State) : Host.Outcome State Fault Refusal :=
  finish s (do
    let g ← hurdleGang s dom
    let x ← useX s a
    require (decide (x.toNat ≤ s.th.count dom lvl)) 0x02
    if x.toNat ≤ ownCompleted s g dom lvl then return retire ((acquireAt s lvl).wx d 1)
    else if g.heatMode && g.isHeatPair dom lvl then
      return s.setTh { s.th with wait := .hurdle dom lvl x.toNat (.test d), stoppedAt := s.cycle }
    else return retire (s.wx d 0))

/-- The gang and slot table of a phase instruction, or the fault of R207 and R271. -/
def phaseGang (s : State) : Except Stop (Gang × Slots) := do
  let g ← hurdleGang s 0
  match g.slots with
  | none => trapOf 0x02
  | some t => return (g, t)

/-- `xphase xd` arrives at the gang's level and waits (R207). -/
def execXphase (d : Rx) (s : State) : Host.Outcome State Fault Refusal :=
  finish s (do
    let (g, _) ← phaseGang s
    let (n, s) ← arriveAt s g 0 g.scope
    return s.setTh { s.th with wait := .hurdle 0 g.scope n (.phase d), stoppedAt := s.cycle })

/-- `finfo` of a slot violation before the first phase (R208). -/
def noPhase : Word := 0x10000

/-- `xphase xd, xa` waits for a value of the phase clock (R207). -/
def execXphaseWait (d a : Rx) (s : State) : Host.Outcome State Fault Refusal :=
  finish s (do
    let (_, t) ← phaseGang s
    let x ← useX s a
    match phaseClock s (coreOf s.tid) t.period with
    | none => trapOf 0x0C 0 noPhase
    | some _ =>
      let v := if t.period = 0 then 0 else x.toNat % t.period
      return s.setTh { s.th with wait := .phase d v, stoppedAt := s.cycle })

/-! ### The scheduled exchange (R208) -/

/-- The clock lies in an item of a position (R208, R275). -/
def Slots.owns (t : Slots) (pos clock : Nat) : Bool :=
  t.items.any fun i => i.1 == pos && decide (i.2.1 ≤ clock) && decide (clock ≤ i.2.2)

/-- A core has already retired an `xsend` in this cycle: they issue at one per cycle (R208). -/
def sentNow (s : State) (core : Nat) : Bool :=
  (s.core core).hold.any fun e => e.cycle == s.cycle && (match e.effect with
    | .xsend _ _ => true
    | _ => false)

/-- `xsend` (R208, R276). -/
def execXsend (d a b : Rx) (s : State) : Host.Outcome State Fault Refusal :=
  finish s (do
    let p ← useX s d
    let src ← useX s a
    let dst ← useX s b
    let core := coreOf s.tid
    match s.gang? with
    | none => trapOf 0x09 p
    | some g =>
      match g.cores[p.toNat]? with
      | none => trapOf 0x09 p
      | some c =>
        require (src.toNat % 256 == 0) 0x05 src
        require (dst.toNat % 256 == 0) 0x05 dst
        require (decide (src.toNat + 256 ≤ directBytes s core)) 0x06 src
        require (decide (dst.toNat + 256 ≤ directBytes s c)) 0x06 dst
        require (decide (2048 ≤ src.toNat)) 0x09 src
        require (decide (2048 ≤ dst.toNat)) 0x09 dst
        match g.slots, phaseClock s core ((g.slots.map (·.period)).getD 0) with
        | some t, some clock =>
          require (match g.posOf core with
            | some own => t.owns own clock
            | none => false) 0x0C 0 (BitVec.ofNat 64 (clock % 2 ^ 16))
          await (!sentNow s core)
          let at' := fun (core' off : Nat) => (List.range 256).map fun i =>
            ({ key := localBase core' + off + i, crypt := none, dmg := false, space := 1, obj := 0, off := off + i } : Loc)
          let from' := at' core src.toNat
          if !(weakLines s from').isEmpty then .error (.reread (weakLines s from'))
          require (!(from'.any (marked s))) 0x0B src
          needEntries s 1
          let (vals, s) ← loadUnits s [from']
          let dest := at' c dst.toNat
          return retire ((s.detect s.tid true false .retired s.cycle dest).hold (.xsend dest vals.flatten))
        | _, _ => trapOf 0x0C 0 noPhase)

end Sys2Proof.Machine
end

