-- ==== Sys2Proof/Machine/System.lean ====
section
/-! DEFINITION. System and CSR instructions, hints and undefined words (03 R65, R74 to R76, R82; 08 R226 to R232, R236 to
R238; and the CSRs of R52, R155, R209, R259, R267 to R269, R272, R308, R339, R354), majors 0x38, 0x39 and 0x3F. -/

namespace Sys2Proof.Machine

/-! ### Undefined words and traps (R82, R227, R228) -/

def execUndefinedInstruction (_ : IWord) (s : State) : Host.Outcome State Fault Refusal := finish s (trapOf 0x01)

/-- `syscall` (R227). -/
def execSyscall (c : BitVec 15) (s : State) : Host.Outcome State Fault Refusal := finish s (trapOf 0x11 0 (c.setWidth 64))

/-- `brk` (R228). -/
def execBrk (c : BitVec 15) (s : State) : Host.Outcome State Fault Refusal := finish s (trapOf 0x0F 0 (c.setWidth 64))

/-- `trap` (R228). -/
def execTrap (a b : Rx) (s : State) : Host.Outcome State Fault Refusal :=
  finish s (do
    let x ← useX s a
    let y ← useX s b
    require (x == 0) 0x0F 0 y
    return retire s)

/-! ### Return from a fault (R229) -/

/-- A privileged encoding at user level takes the privilege fault (R82, R233). -/
def requirePrivileged (s : State) : Except Stop Unit := require s.th.privileged 0x04

def execEret (s : State) : Host.Outcome State Fault Refusal :=
  finish s (do
    requirePrivileged s
    return returnFault s)

/-- The fault record that a residency fault had replaced is back (R223). -/
def Thread.recordBack (t : Thread) : Thread :=
  match t.before with
  | [c, a, p, i, e] => { t with fcause := c, faddr := a, fstep := p, finfo := i, epc := e, before := [] }
  | _ => { t with before := [] }

/-- A thread in service goes on at its `epc`; after a system call its step fault, if any, is due (R229, R369). Its first
instruction acts as an acquire at section. -/
def Thread.resumed (t : Thread) (cycle : Nat) : Thread :=
  { t.noteAcquire .sect cycle with
    run := .running, pc := t.epc, wait := .none, stepDue := t.stepBit && bits t.fcause 0 8 == 0x11 }.recordBack

def execEretThread (d a : Rx) (s : State) : Host.Outcome State Fault Refusal :=
  finish s (do
    requirePrivileged s
    if a = 0 then return returnFault s
    else
      let x ← useX s a
      let t := x.toNat
      if 4096 ≤ t ∨ sectionOf t ≠ sectionOf s.tid then return retire (s.wx d 2)
      else if (s.thread t).run ≠ .service then return retire (s.wx d 1)
      else return retire (((s.setThread t ((s.thread t).resumed s.cycle)).pinResumed t).wx d 0))

/-! ### Waiting for an event (R230) -/

/-- The test of `waiti`. -/
def waitiReady (t : Thread) : Bool := t.wake || t.latch != 0

/-- `waiti` succeeds: it reports the wake bit and the latch, and clears the latch. -/
def waitiDone (s : State) (d : Rx) : State :=
  let v := (if s.th.wake then 1 else 0) + 2 * s.th.latch.toNat
  retire ((s.setTh { s.th with latch := 0 }).wx d (BitVec.ofNat 64 v))

def execWaiti (d a : Rx) (s : State) : Host.Outcome State Fault Refusal :=
  finish s (do
    let x ← useX s a
    if waitiReady s.th then return waitiDone s d
    else return s.setTh { s.th with wait := .waiti d (deadline s x) })

/-! ### CSRs (R65, R75, R76, R231, R232) -/

/-- `hdomD` (R272). -/
def hdomWord (s : State) (d : Fin 4) : Word :=
  match s.gang? with
  | none => 0
  | some g =>
    let dom := g.domain d
    let inD := g.inDomain d (coreOf s.tid)
    let index := match g.posOf (coreOf s.tid) with
      | some p => (dom.filter fun q => decide (q < p)).length
      | none => 0
    BitVec.ofNat 64 ((if inD then 2 ^ 63 + index else 0) + (if g.isMember s.tid then 2 ^ 62 else 0) + dom.length * 2 ^ 16)

/-- Free tiles of an engine at the start of the cycle, which every thread that reads them in it sees (R155). -/
def freeAtStart (s : State) (eng : Nat) : Nat :=
  match (s.engine eng).snap with
  | some (c, n) => if c = s.cycle then n else (freeTiles s eng).length
  | none => (freeTiles s eng).length

/-- `tstat` (R155). -/
def tstatWord (s : State) : Word :=
  BitVec.ofNat 64 (freeAtStart s (engineOf s.tid 1) * 2 ^ 40 + freeAtStart s (engineOf s.tid 0) * 2 ^ 32 + s.th.live)

/-- `budget` (R354). -/
def budgetWord (s : State) : Word :=
  let limit := (contextOf s s.th.gang).qlimit
  BitVec.ofNat 64 (limit * 2 ^ 40 + (999 - s.cycle % 1000) * 2 ^ 16
    + (if limit = 0 then 0xFFFF else quadLeft s (quadOf s.tid) limit))

/-- The value of a CSR as the current thread reads it (R75, R76, R232). `coreid` and `thid` of a service core, to which the
manual gives none, follow from its thread number (DESIGN CHOICE, log entry 105). -/
def csrValue (s : State) (n : Csr) : Word :=
  let t := s.th
  match n with
  | .fcsr => t.fcsr
  | .vlen => 0x00800400
  | .tdim => 0x00000C20
  | .tkstep => 0x00100804
  | .holdw => 0x05200080
  | .coreid => BitVec.ofNat 64 (s.pkg % 1024 * 2 ^ 32 + (if onFdie s.tid then 2 ^ 11 else 0) + coreOf s.tid % 2 ^ 11)
  | .thid => BitVec.ofNat 64 (s.tid % 2 ^ 12)
  | .ortb => (contextOf s t.gang).ortb
  | .keysel => (contextOf s t.gang).keysel
  | .lmsplit => (s.core (coreOf s.tid)).lmsplit.setWidth 64
  | .smsplit => (s.sect (sectionOf s.tid)).smsplit.setWidth 64
  | .vpool => if (s.quad (quadOf s.tid)).vpool then 1 else 0
  | .hdom0 => hdomWord s 0
  | .hdom1 => hdomWord s 1
  | .hdom2 => hdomWord s 2
  | .hdom3 => hdomWord s 3
  | .cpsrc => t.cpsrc.setWidth 64
  | .cpdst => t.cpdst.setWidth 64
  | .cplen => t.cplen
  | .cpstride => t.cpstride
  | .cpshape => t.cpshape
  | .cpmode => t.cpmode
  | .cplaunch => 0
  | .fcause => t.fcause
  | .faddr => t.faddr
  | .fstep => t.fstep
  | .finfo => t.finfo
  | .epc => t.epc
  | .recallcnt => (s.quad (quadOf s.tid)).recallcnt
  | .tstat => tstatWord s
  | .budget => budgetWord s

/-- The privileged CSRs of the thread's range (R74). -/
def Csr.privileged : Csr → Bool
  | .ortb | .keysel => true
  | _ => false

/-- The low half of a copy reference replaced (R209). -/
def lowHalf (r : Ref) (v : Word) : Ref := (r >>> 64 <<< 64) ||| v.setWidth 128

/-- `ortb` written: LOGN 37 to 63 is ignored (R8, R308). -/
def ortbWrite (old v : Word) : Word :=
  let base := v &&& 0x00FFFFFFFFFFFF80
  if bits v 0 6 < 37 then base ||| (v &&& 0x3F) else base ||| (old &&& 0x3F)

/-- The context of the current thread with its record changed. -/
def State.ownContext (s : State) (f : Context → Context) : State :=
  let id := match s.gang? with
    | some g => g.ctx
    | none => 0
  s.setContext id (f (contextOf s s.th.gang))

/-- A CSR written (R8, R232): a gang's threads write the fields that are RW or WO, and the rest ignores the write. -/
def csrUserWrite (s : State) (n : Csr) (v : Word) : State :=
  let t := s.th
  match n with
  | .fcsr => s.setTh { t with fcsr := v &&& 0x33F3F }
  | .cpsrc => s.setTh { t with cpsrc := lowHalf t.cpsrc v }
  | .cpdst => s.setTh { t with cpdst := lowHalf t.cpdst v }
  | .cplen => s.setTh { t with cplen := v &&& 0xFFFFFFFFFFF }
  | .cpstride => s.setTh { t with cpstride := v }
  | .cpshape => s.setTh { t with cpshape := v }
  | .cpmode => s.setTh { t with cpmode := v &&& 0x7FF }
  | .cplaunch => if bits v 0 2 = 3 then s else s.setTh { t with cpeng := v.setWidth 2 }
  | _ => s

/-- What privileged level writes besides (R224, R267 to R269, R308, R339); an instruction's offset
is a multiple of 4 (R62). -/
def csrPrivilegedWrite (s : State) (n : Csr) (v : Word) : State :=
  let t := s.th
  match n with
  | .ortb => s.ownContext fun c => { c with ortb := ortbWrite c.ortb v }
  | .keysel => s.ownContext fun c => { c with keysel := v &&& 0x1FFFF }
  | .lmsplit => s.setCore (coreOf s.tid) { s.core (coreOf s.tid) with lmsplit := v.setWidth 2 }
  | .smsplit =>
    if bits v 0 4 ≤ 8 then s.setSect (sectionOf s.tid) { s.sect (sectionOf s.tid) with smsplit := v.setWidth 4 } else s
  | .vpool => s.setQuad (quadOf s.tid) { s.quad (quadOf s.tid) with vpool := bitAt v 0 }
  | .fcause => s.setTh { t with fcause := v &&& 0x1FF }
  | .faddr => s.setTh { t with faddr := v }
  | .fstep => s.setTh { t with fstep := v &&& 0xFFFF }
  | .finfo => s.setTh { t with finfo := v }
  | .epc => s.setTh { t with epc := v &&& 0xFFFFFFFFFFC }
  | n => csrUserWrite s n v

def csrWrite (s : State) (n : Csr) (v : Word) : State :=
  if s.th.privileged then csrPrivilegedWrite s n v else csrUserWrite s n v

/-- A CSR instruction: `xd` receives the old value, and the CSR the new one, if there is one (R231). -/
def csrOp (new : Word → Word → Option Word) (d a : Rx) (n : Csr) (s : State) : Host.Outcome State Fault Refusal :=
  finish s (do
    require (s.th.privileged || !Csr.privileged n) 0x04
    let x ← useX s a
    let old := csrValue s n
    let s := match new old x with
      | some v => csrWrite s n v
      | none => s
    return retire (s.wx d old))

def execCsrrd (d : Rx) (n : Csr) (s : State) := csrOp (fun _ _ => none) d 0 n s
def execCsrwr (d a : Rx) (n : Csr) (s : State) := csrOp (fun _ x => some x) d a n s
def execCsrset (d a : Rx) (n : Csr) (s : State) := csrOp (fun old x => if a = 0 then none else some (old ||| x)) d a n s
def execCsrclr (d a : Rx) (n : Csr) (s : State) := csrOp (fun old x => if a = 0 then none else some (old &&& ~~~x)) d a n s

/-! ### Hints (R84, R236 to R238): they change no register, byte, flag or result -/

def execNop (_ : BitVec 20) (s : State) : Host.Outcome State Fault Refusal := .next (retire s)
def execHstream (_ : Ra) (_ : Rx) (_ : BitVec 5) (_ : BitVec 6) (s : State) : Host.Outcome State Fault Refusal :=
  .next (retire s)
def execHevict (_ : Ra) (_ : Rx) (_ : BitVec 5) (_ : BitVec 2) (_ : BitVec 4) (s : State) :
    Host.Outcome State Fault Refusal := .next (retire s)
/-- `hprio` sets the thread's weight (R238, R245). -/
def execHprio (_ : BitVec 18) (n : BitVec 2) (s : State) : Host.Outcome State Fault Refusal :=
  .next (retire (s.setTh { s.th with hprio := n }))
def execHloop (_ _ : BitVec 10) (s : State) : Host.Outcome State Fault Refusal := .next (retire s)
def execHint (_ : BitVec 6) (_ : BitVec 20) (s : State) : Host.Outcome State Fault Refusal := .next (retire s)

/-- The line that a prefetch fetches for an address, if a load of the byte there would take no fault and need no service
(R236). -/
def prefetchLine (s : State) (o : Opened) (r : Ref) (a : Int) : Option Nat :=
  if a < 0 ∨ 2 ^ 44 ≤ a then none
  else match locate s (whoTh s) o r a.toNat 1 .load 0 0 with
    | .ok (l :: _) => if unreachable s l then none else some (l.key / 256)
    | _ => none

/-- The lines that a prefetch fetches, from the one that its first byte lies in; none of them when a load of one would fault, or
would need a service, or reach an object with the side-effect attribute (R236, R238). -/
def prefetchLines (s : State) (r : Ref) (x : Word) (n : Nat) : List Nat :=
  let o := openRef s (whoTh s) r .load
  if (refFault r false).isSome || refSpace r != 0 || o.sideEffect then []
  else
    let first : Int := refOff r + 256 * x.toInt
    ((List.range n).mapM fun (i : Nat) =>
      prefetchLine s o r (if i = 0 then first else first / 256 * 256 + 256 * (i : Int))).getD []

/-- `hpref` charges the pacer for the lines it fetches, as far as the epoch allows: it never waits (R236, R238, R355). Level 3 names
no store, so the hint is then a no-op (R84, R238). -/
def execHpref (r : Ra) (x : Rx) (l : BitVec 5) (level : BitVec 2) (_ : BitVec 4) (s : State) :
    Host.Outcome State Fault Refusal :=
  let limit := (contextOf s s.th.gang).qlimit
  let usable := level != 3 && !s.th.pending (.a r) && !s.th.pending (.x x) && (s.th.poisonOf (.a r)).isNone
    && (s.th.poisonOf (.x x)).isNone
  if limit = 0 ∨ isService s.tid ∨ !usable then .next (retire s)
  else
    let q := quadOf s.tid
    let n := (prefetchLines s (s.th.ra r) (s.th.rx x) (l.toNat + 1)).dedup.length
    let left := quadLeft s q limit
    .next (retire (s.setQuad q { s.quad q with epoch := s.cycle / Config.epoch, left := left - min left n }))

end Sys2Proof.Machine
end

