-- ==== Sys2Proof/Machine/Context.lean ====
section
/-! DEFINITION. Context images (06 R181, R182; 15 R358) and the privileged unit operations (08 R233 to R235), major
0x3A. -/

namespace Sys2Proof.Machine

/-! ### Thread images (R358) -/

/-- Bytes of a number in a field of `n` bytes. -/
def fieldBytes (n v : Nat) : List Byte := leBytes n v

/-- One slot of an inbox image. -/
def messageBytes (m : Option Message) : List Byte :=
  match m with
  | none => List.replicate 144 0
  | some m => fieldBytes 8 m.header.toNat ++ List.replicate 8 0 ++ fieldBytes 128 m.payload.toNat

/-- Poison marks as bits: `x`, `a` and `t` registers, and the `v` registers (R358). -/
def poisonBits (t : Thread) : Nat × Nat :=
  t.poison.foldl (fun n e => match e.1 with
    | .x r => (n.1 ||| 2 ^ r.val, n.2)
    | .a r => (n.1 ||| 2 ^ (32 + r.val), n.2)
    | .t r => (n.1 ||| 2 ^ (48 + r.val), n.2)
    | .v r => (n.1, n.2 ||| 2 ^ r.val)) (0, 0)

/-- The state word of an image (R358). -/
def stateWord (t : Thread) : Nat :=
  (if t.stepBit then 128 else 0) + t.hprio.toNat * 16 + t.latch.toNat * 2 + (if t.wake then 1 else 0)

/-- The 86,016 bytes of a context image (R358). -/
def contextBytes (t : Thread) : List Byte :=
  ((List.range 32).flatMap fun i => fieldBytes 8 (t.rx (Fin.ofNat 32 i)).toNat)
  ++ ((List.range 16).flatMap fun i => fieldBytes 16 (t.ra (Fin.ofNat 16 i)).toNat)
  ++ ((List.range 8).flatMap fun i => fieldBytes 16 (t.rp (Fin.ofNat 8 i)).toNat)
  ++ fieldBytes 8 t.pc.toNat ++ fieldBytes 8 t.fcsr.toNat
  ++ fieldBytes 8 t.fcause.toNat ++ fieldBytes 8 t.faddr.toNat ++ fieldBytes 8 t.fstep.toNat ++ fieldBytes 8 t.finfo.toNat
  ++ fieldBytes 8 t.epc.toNat
  ++ fieldBytes 8 (stateWord t)
  ++ fieldBytes 8 t.cplen.toNat ++ fieldBytes 8 t.cpshape.toNat ++ fieldBytes 8 t.cpstride.toNat ++ fieldBytes 8 t.cpmode.toNat
  ++ fieldBytes 16 t.cpsrc.toNat ++ fieldBytes 16 t.cpdst.toNat
  ++ fieldBytes 8 (t.cpseq.toNat + t.cpeng.toNat * 2 ^ 16)
  ++ fieldBytes 8 (match t.task with
      | some k => 2 ^ 63 + k.entry % 2 ^ 12 * 2 ^ 12 + k.done % 2 ^ 12
      | none => 0)
  ++ (t.counts.toList.flatMap fun c => fieldBytes 8 c)
  ++ fieldBytes 8 (poisonBits t).1 ++ fieldBytes 8 (poisonBits t).2 ++ List.replicate 32 0
  ++ ((List.range 16).flatMap fun i => messageBytes t.inbox[i]?) ++ List.replicate 768 0
  ++ ((List.range 32).flatMap fun i => fieldBytes 128 (t.rv (Fin.ofNat 32 i)).toNat)
  ++ halfBytes t 0 ++ halfBytes t 1 ++ List.replicate 3968 0

/-- Bytes `at'` to `at' + n - 1` of an image as a number. -/
def imageNat (b : List Byte) (at' n : Nat) : Nat := leNat ((b.drop at').take n)

/-- An inbox slot of an image with a nonzero reserved bit: an empty slot is zero, and of a message bits 53:48 of the header
(R199) and the eight bytes after it. -/
def badSlot (b : List Byte) (at' : Nat) : Bool :=
  let h := imageNat b at' 8
  if h.testBit 63 then field h 48 6 != 0 || imageNat b (at' + 8) 8 != 0 else imageNat b at' 144 != 0

/-- A reserved byte or bit of an image is not zero, or a tile header is one that `trstr` refuses (R358, R182). -/
def badImage (b : List Byte) : Bool :=
  let zero := fun (at' n : Nat) => imageNat b at' n == 0
  let halfBad := fun (h : Nat) =>
    (List.range 8).any (fun i => badHeader (imageNat b (h + i) 1)) || !zero (h + 8) 56
  !zero 0 8 || imageNat b 640 8 / 2 ^ 44 != 0 || imageNat b 640 8 % 4 != 0
  || imageNat b 648 8 &&& 0xFFFFFFFFFFFCC0C0 != 0 || imageNat b 656 8 / 2 ^ 9 != 0 || imageNat b 672 8 / 2 ^ 16 != 0
  || imageNat b 688 8 / 2 ^ 44 != 0 || imageNat b 696 8 / 2 ^ 8 != 0 || field (imageNat b 696 8) 6 1 != 0
  || field (imageNat b 696 8) 3 1 != 0 || imageNat b 704 8 / 2 ^ 44 != 0 || imageNat b 728 8 / 2 ^ 11 != 0
  || imageNat b 768 8 / 2 ^ 18 != 0 || field (imageNat b 776 8) 24 39 != 0
  || imageNat b 976 8 % 2 != 0 || imageNat b 984 8 / 2 ^ 32 != 0 || !zero 992 32
  || ((List.range 16).any fun i => badSlot b (1024 + 144 * i)) || !zero 3328 768
  || halfBad 8192 || halfBad 45120 || !zero 82048 3968

/-- The message of an inbox slot of an image; its sender is the thread that the header's rank names now. -/
def messageFrom (b : List Byte) (gang : Nat) (born : Party → Nat) (i : Nat) : Option Message :=
  let h := BitVec.ofNat 64 (imageNat b (1024 + 144 * i) 8)
  let p : Party := if bits h 0 32 = noRank then .service 0 else .member gang (bits h 0 32)
  if !bitAt h 63 then none
  else some { header := h, payload := BitVec.ofNat 1024 (imageNat b (1024 + 144 * i + 16) 128),
              sender := p, scope := .package, outside := true, seq := 0, born := born p }

/-- The registers of an image but its tiles, in a context of a gang and rank; the thread stays stopped (R235). -/
def threadFrom (b : List Byte) (old : Thread) (born : Party → Nat) : Thread :=
  let w := fun (at' : Nat) => BitVec.ofNat 64 (imageNat b at' 8)
  let st := imageNat b 696 8
  let task := imageNat b 776 8
  let px := imageNat b 976 8
  let pv := imageNat b 984 8
  let marks := fun (n : Nat) (f : Nat → DestReg) (bits lo : Nat) =>
    (List.range n).filterMap fun i => if bits.testBit (lo + i) then some (f i, (none : Option Nat), (0 : Word)) else none
  { Thread.zero with
    x := Vector.ofFn fun i => w (8 * i.val)
    a := Vector.ofFn fun i => BitVec.ofNat 128 (imageNat b (256 + 16 * i.val) 16)
    p := Vector.ofFn fun i => if i.val = 0 then 0 else BitVec.ofNat 128 (imageNat b (512 + 16 * i.val) 16)
    v := Vector.ofFn fun i => BitVec.ofNat 1024 (imageNat b (4096 + 128 * i.val) 128)
    pc := w 640, fcsr := w 648, fcause := w 656, faddr := w 664, fstep := w 672, finfo := w 680, epc := w 688
    stepBit := field st 7 1 == 1, hprio := BitVec.ofNat 2 (field st 4 2), latch := BitVec.ofNat 2 (field st 1 2)
    wake := field st 0 1 == 1
    cplen := w 704, cpshape := w 712, cpstride := w 720, cpmode := w 728
    cpsrc := BitVec.ofNat 128 (imageNat b 736 16), cpdst := BitVec.ofNat 128 (imageNat b 752 16)
    cpseq := BitVec.ofNat 16 (imageNat b 768 2), cpeng := BitVec.ofNat 2 (field (imageNat b 768 8) 16 2)
    task := if field task 63 1 = 1 then some { entry := field task 12 12, done := field task 0 12 } else none
    counts := Vector.ofFn fun i => imageNat b (784 + 8 * i.val) 8
    signalled := Vector.ofFn fun i => imageNat b (784 + 8 * i.val) 8
    poison := marks 32 (fun i => .x (Fin.ofNat 32 i)) px 0 ++ marks 16 (fun i => .a (Fin.ofNat 16 i)) px 32
      ++ marks 16 (fun i => .t (Fin.ofNat 16 i)) px 48 ++ marks 32 (fun i => .v (Fin.ofNat 32 i)) pv 0
    inbox := (List.range 16).filterMap (messageFrom b old.gang born)
    overflow := old.overflow, spill := old.spill
    gang := old.gang, rank := old.rank, entry := old.entry, born := old.born, run := .stopped }

/-- The tile images of a context image, by register; none for an empty one. -/
def tilesFrom (b : List Byte) : List (Option TileImage) :=
  [8192, 45120].flatMap fun at' => (List.range 8).map fun i =>
    let h := imageNat b (at' + i) 1
    if field h 7 1 = 1 then some (tileFrom (b.drop at') i h) else none

/-- Physical tiles for the given tile images of a thread, in its quad; none while a pool is too small (R154). -/
def State.placeTiles (s : State) (tid : Nat) (imgs : List (Option TileImage)) : Option State :=
  ((List.range 16).zip imgs).foldl (fun (o : Option State) e =>
    match o, e.2 with
    | some s, some img =>
      let eng := engineOf tid (e.1 / 8)
      match freeTiles s eng with
      | [] => none
      | p :: _ =>
        let t := s.thread tid
        let k : Tile := { data := img.data, scale := img.scale, tag := img.tag, phys := p }
        some (s.setThread tid { t with t := Vector.ofFn fun j => if j.val = e.1 then some k else t.t[j] })
    | o, _ => o) (some (s.notePools (quadOf tid)))

/-- Size of a context image (R358). -/
def imageSize : Nat := 86016

/-- The image reference of `ctxsave` and `ctxload`: checked as 8-byte accesses in offset order (R235). -/
def imageUnits (s : State) (r : Ref) (acc : Acc) : Except Stop (List (List Loc)) := do
  checkRef r false
  require (refOff r % 4096 == 0) 0x05 (BitVec.ofNat 64 (refOff r))
  let o := openRef s (whoTh s) r acc
  (List.range (imageSize / 8)).mapM fun (i : Nat) => accessUnit s (whoTh s) o r (refOff r + 8 * i : Nat) 8 8 acc 0

/-- A thread number of the current service core's section. -/
def ownThread (s : State) (t : Nat) : Bool := decide (t < 4096) && sectionOf t == sectionOf s.tid

/-- A context is final: stopped for more than W cycles, its held effects performed and its replies written (R256). -/
def contextFinal (s : State) (t : Nat) : Bool :=
  let k := s.thread t
  k.free || ((k.run == .stopped || k.run == .service) && decide (k.stoppedAt + Config.holdWindow < s.cycle)
    && !undrained s t && !outstanding s t s.seq && (s.quad (quadOf t)).phase == .idle)

/-- `ctxsave` (R235): it waits until the context is final (R256), and writes the whole of it. The table has no row for a context
that holds no thread: it is saved as it is, with answer 0 (DESIGN CHOICE, log entry 137). -/
def execCtxsave (d a : Rx) (b : Ra) (s : State) : Host.Outcome State Fault Refusal :=
  finish s (do
    requirePrivileged s
    let x ← useX s a
    let r ← useA s b
    if !ownThread s x.toNat then return retire (s.wx d 2)
    else
      let t := s.thread x.toNat
      if t.run = .running then return retire (s.wx d 1)
      else
        await (contextFinal s x.toNat)
        let units ← imageUnits s r .store
        let cells := wbytes units.flatten (contextBytes t)
        let s ← storeUnits s (refSpace r) [(List.range (imageSize / 8)).map fun i => (cells.drop (8 * i)).take 8]
          (BitVec.ofNat 64 (refOff r))
        return retire (s.wx d 0))

/-- `ctxload` (R235): it fills a free context, which stays stopped. -/
def execCtxload (d a : Rx) (b : Ra) (s : State) : Host.Outcome State Fault Refusal :=
  finish s (do
    requirePrivileged s
    let x ← useX s a
    let r ← useA s b
    if !ownThread s x.toNat then return retire (s.wx d 2)
    else
      let t := s.thread x.toNat
      if !t.free then return retire (s.wx d 1)
      else
        let units ← imageUnits s r .load
        let (vals, s) ← loadUnits s units
        let bytes := vals.flatten
        require (!badImage bytes) 0x02
        match (s.setThread x.toNat (threadFrom bytes t (bornOf s))).placeTiles x.toNat (tilesFrom bytes) with
        | none => .error .stall
        | some s' => return retire ((s'.pin x.toNat).wx d 0))

/-! ### Scrub (R234) -/

/-- A thread runs on one of the cores: a context that is stopped, or in service, counts, since it still holds a started thread; the
manual does not say (DESIGN CHOICE, log entry 136). -/
def occupied (s : State) (cores : List Nat) : Bool :=
  cores.any fun c => !(s.thread (2 * c)).free || !(s.thread (2 * c + 1)).free

/-- A range of an on-die store cleared, with the markers of its lines. -/
def State.clearRange (s : State) (key n : Nat) : State :=
  { s with mem := s.mem.clear key n, poison := s.poison.filter fun l => 256 * l < key || key + n ≤ 256 * l }

/-- A core's local memory, and the inboxes and latches of its contexts, emptied. -/
def State.scrubCore (s : State) (c : Nat) : State :=
  let s := s.clearRange (localBase c) (2 ^ 18)
  let s := s.setCore c { s.core c with journal := [] }
  let empty := fun (t : Thread) => { t with inbox := [], arrivals := [], events := [], latch := 0 }
  let s := s.setThread (2 * c) (empty (s.thread (2 * c)))
  s.setThread (2 * c + 1) (empty (s.thread (2 * c + 1)))

/-- A quad's scratchpad, journal, tiles and endpoints emptied. -/
def State.scrubQuad (s : State) (q : Nat) : State :=
  let s := s.clearRange (quadBase q) (2 ^ 21)
  let s := performRingJoin (performRingJoin s (2 * q) none) (2 * q + 1) none
  let s := s.setQuad q { s.quad q with journal := [], engines := Vector.replicate 2 Engine.zero }
  (List.range 8).foldl (fun s i =>
    s.setThread (8 * q + i) { s.thread (8 * q + i) with t := Vector.replicate 16 none }) s

/-- A section's SRAM below the service region emptied. -/
def State.scrubSection (s : State) (sec : Nat) : State := s.clearRange (sectionBase sec) (sramBytes s sec)

/-- A quad's share of it emptied (R349). -/
def State.scrubShare (s : State) (q : Nat) : State :=
  let share := sramBytes s (q / 8) / 8
  s.clearRange (sectionBase (q / 8) + q % 8 * share) share

/-- A section holds a resident gang at section level or wider. -/
def wideGangIn (s : State) (sec : Nat) : Bool :=
  s.gangs.any fun e => e.2.resident && decide (1 ≤ e.2.level) && e.2.cores.any fun c => sectionOfCore c == sec

/-- What `scrub` answers and clears: the kind and the unit come from the operand (R234). -/
def scrubUnit (s : State) (v : Word) : Nat × State :=
  let kind := bits v 12 4
  let n := bits v 0 12
  let limit := match kind with
    | 0 => 2048
    | 1 | 3 => 512
    | 2 => 64
    | _ => 0
  if bits v 16 48 ≠ 0 ∨ limit ≤ n then (2, s)
  else
    let cores := match kind with
      | 0 => [n]
      | 2 => (List.range 32).map fun i => 32 * n + i
      | _ => (List.range 4).map fun i => 4 * n + i
    if occupied s cores ∨ (kind = 3 ∧ wideGangIn s (n / 8)) then (1, s)
    else match kind with
      | 0 => (0, s.scrubCore n)
      | 1 => (0, s.scrubQuad n)
      | 2 => (0, s.scrubSection n)
      | _ => (0, s.scrubShare n)

/-- `scrub`: one word for every kind (R233). -/
def scrub (d a : Rx) (s : State) : Host.Outcome State Fault Refusal :=
  finish s (do
    requirePrivileged s
    let x ← useX s a
    let (n, s) := scrubUnit s x
    return retire (s.wx d (BitVec.ofNat 64 n)))

def execScrubCore (d a : Rx) (s : State) := scrub d a s
def execScrubQuad (d a : Rx) (s : State) := scrub d a s
def execScrubSection (d a : Rx) (s : State) := scrub d a s
def execScrubQuadShare (d a : Rx) (s : State) := scrub d a s

end Sys2Proof.Machine
end

