-- ==== Sys2Proof/Machine/Fetch.lean ====
section
/-! DEFINITION. Fetching and decoding the current thread's instruction (03 R62, R77, R82; 15 R369). -/

namespace Sys2Proof.Machine

/-- The reference that a fetch at an offset uses: the gang's code object (R62, R375). -/
def codeRef (s : State) (off : Nat) : Ref :=
  match s.gang? with
  | none => BitVec.ofNat 128 (off % 2 ^ 44)
  | some g =>
    let tag := match objRecord s (contextOf s s.th.gang) g.code with
      | .ok (some o) => o.gen
      | _ => 0
    BitVec.ofNat 128 (tag % 2 ^ 32 * 2 ^ 96 + g.code % 2 ^ 36 * 2 ^ 44 + off % 2 ^ 44)

/-- The bytes at the thread's `pc`, or the fault of their fetch with the offset in `faddr` (R62, R82 step 1). -/
def fetchBytes (s : State) : Except Stop (List Byte) := do
  let pc := s.th.pc
  require (decide (pc.toNat + 4 ≤ 2 ^ 44)) 0x06 pc
  let r := codeRef s pc.toNat
  let ls ← locate s (whoTh s) (openRef s (whoTh s) r .fetch) r pc.toNat 4 .fetch pc 0
  return viewBytes s (whoTh s) ls

/-- What fetched bytes are: an instruction, or the fault of R82 steps 2 to 4. A word with no assigned operation is the
undefined instruction, whose meaning takes that fault. -/
def decodeOrTrap (s : State) (bs : List Byte) : Except Stop Instr :=
  match decodeBytes bs with
  | .ok i => .ok i
  | .error .undefinedInstruction => .ok (.undefinedInstruction (BitVec.ofNat 32 (leWord bs)))
  | .error .reservedOperand =>
    if privilegedWord (BitVec.ofNat 32 (leWord bs)) && !s.th.privileged then trapOf 0x04 else trapOf 0x02

/-- The instruction that the current thread runs next, or the fault it takes instead: a step fault that is due
(R369), that of a bad entry record which a reply has found (R262), a fault of the fetch, or a fault of decode. -/
def nextInstr (s : State) : Except Stop Instr := do
  require (!s.th.entryBad) 0x02
  require (!s.th.stepDue) 0x10
  let bs ← fetchBytes s
  decodeOrTrap s bs

end Sys2Proof.Machine
end

