-- ==== Sys2Proof/Machine/Copy.lean ====
section
/-! DEFINITION. The copy instructions (07 R209 to R215), major 0x1C. -/

namespace Sys2Proof.Machine

/-! ### A transfer's shape (R212) -/

/-- Bytes of one destination unit. -/
def copyUnit (kind : Nat) : Nat :=
  match kind with
  | 2 | 4 => 48
  | 3 => 4
  | _ => 1

/-- Bytes of a source element of a reduce (R209). -/
def copyElem (ty : Nat) : Nat := if ty = 11 then 2 else 4

/-- Destination bytes of a transfer. -/
def Transfer.total (t : Transfer) : Nat :=
  match t.kind with
  | 0 => t.len
  | 1 => t.rows * t.rowb
  | 2 => t.len / copyElem t.ty * 48
  | 3 => t.len / 4 * 4
  | _ => t.len / 4 * 48

/-- The transfer has ended (R214). -/
def Transfer.ended (t : Transfer) : Bool := t.state == 2 || t.state == 4 || t.state == 5

/-! ### Overlap (R212) -/

/-- The object that storage belongs to, behind SHARE aliases (R344): package, context, object. -/
def canonicalObj (s : State) (gang obj : Nat) : Nat × Nat × Nat :=
  let id := match s.gangs.get? gang with
    | some g => g.ctx
    | none => 0
  match (contextOf s gang).aliases.find? fun a => a.1 == obj with
  | some (_, ctx, o, pkg) => (pkg, ctx, o)
  | none => (s.pkg, id, obj)

/-- What a reference's bytes are named by, and its offset there: space 4 reaches local memories under another name. -/
def copyHome (s : State) (gang core : Nat) (r : Ref) : (Nat × Nat × Nat × Nat) × Nat :=
  match refSpace r with
  | 0 => let c := canonicalObj s gang (refObj r); ((0, c), refOff r)
  | 1 => ((1, core, 0, 0), refOff r)
  | 4 => ((1, refOff r / 2 ^ 32, 0, 0), refOff r % 2 ^ 32)
  | sp => ((sp, 0, 0, 0), refOff r)

/-- Two runs of `n` bytes share a byte. -/
def runsMeet (a b n : Nat) : Bool := decide (a < b + n) && decide (b < a + n)

/-- Source and destination of a kind 0 or 1 transfer overlap. -/
def Transfer.overlaps (s : State) (t : Transfer) : Bool :=
  let a := copyHome s t.gang t.core t.src
  let b := copyHome s t.gang t.core t.dst
  a.1 == b.1 && (match t.kind with
    | 0 => runsMeet a.2 b.2 t.len
    | 1 => (List.range t.rows).any fun i => (List.range t.rows).any fun j =>
        runsMeet (a.2 + i * t.sstr) (b.2 + j * t.dstr) t.rowb
    | _ => false)

/-! ### Shadows (R209, R210) -/

def execCpsetSrc (a : Ra) (s : State) : Host.Outcome State Fault Refusal :=
  finish s (do
    let r ← useA s a
    return retire (s.setTh { s.th with cpsrc := r }))

def execCpsetDst (a : Ra) (s : State) : Host.Outcome State Fault Refusal :=
  finish s (do
    let r ← useA s a
    return retire (s.setTh { s.th with cpdst := r }))

/-! ### Launch (R211) -/

/-- The checks of R211 on one of the two references. -/
def checkCopyRef (s : State) (r : Ref) (acc : Acc) : Except Stop Unit := do
  checkRef r false
  match openRef s (whoTh s) r acc with
  | .bad c => openFault r c (BitVec.ofNat 64 (refOff r))
  | .broken e => .error e
  | _ => return ()

/-- The shadow values that a launch checks first: KIND, and TYPE for the kind (R209). -/
def modeOk (kind ty : Nat) : Bool := decide (kind ≤ 4) && (if kind = 2 then ty == 9 || ty == 11 else ty == 0)

/-- The checks of R211, in order. -/
def checkCopy (s : State) : Except Stop Unit := do
  let t := s.th
  let kind := bits t.cpmode 0 3
  let len := bits t.cplen 0 44
  require (modeOk kind (bits t.cpmode 4 4)) 0x02
  if kind ≠ 4 then checkCopyRef s t.cpsrc .load
  checkCopyRef s t.cpdst .store
  require (refSpace t.cpdst != 5) 0x09 (BitVec.ofNat 64 (refOff t.cpdst))
  require (!((kind == 2 || kind == 4) && refSpace t.cpdst != 0) && !(kind == 3 && refSpace t.cpsrc != 0)) 0x02
  require (!(kind == 2 && len % copyElem (bits t.cpmode 4 4) != 0) && !((kind == 3 || kind == 4) && len % 4 != 0)) 0x05

/-- The transfers of a thread, held or launched, oldest first. -/
def transfersOf (s : State) (t : Thread) : List Transfer :=
  let run := s.sections.flatMap fun e => e.2.transfers.filter fun x => x.owner == t.born && x.gang == t.gang
  let held := s.cores.flatMap fun e => e.2.hold.filterMap fun h => match h.effect with
    | .launch x => if x.owner = t.born ∧ x.gang = t.gang then some x else none
    | _ => none
  run ++ held

/-- Transfers bound to an engine of a section and not yet ended. -/
def engineLoad (s : State) (sec eng : Nat) : Nat :=
  let held := (List.range 32).flatMap fun i => (s.core (32 * sec + i)).hold.filterMap fun h => match h.effect with
    | .launch x => some x
    | _ => none
  (((s.sect sec).transfers ++ held).filter fun x => x.eng == eng && !x.ended).length

/-- A copy engine of a section is fenced (R380). -/
def fencedEngine (s : State) (sec eng : Nat) : Bool := s.pmc.fencesInForce.contains (3, 2 * sec + eng)

/-- The engine of the next launch (R209): with no choice of the thread, one that is not fenced, if there is one (R380). -/
def chooseEngine (s : State) : Nat :=
  let sec := sectionOf s.tid
  match s.th.cpeng.toNat with
  | 1 => 0
  | 2 => 1
  | _ =>
    if fencedEngine s sec 0 then 1
    else if fencedEngine s sec 1 then 0
    else if engineLoad s (sectionOf s.tid) 1 < engineLoad s (sectionOf s.tid) 0 then 1 else 0

/-- The sequence number after one: 0 is skipped (R211). -/
def nextSeq (n : BitVec 16) : BitVec 16 := if n = 0xFFFF then 1 else n + 1

/-- Lines of 256 bytes that `n` bytes from an offset lie in. -/
def linesIn (off n : Nat) : Nat := if n = 0 then 0 else (off + n - 1) / 256 - off / 256 + 1

/-- Distinct destination lines of a transfer, by offset (R386). -/
def Transfer.lines (t : Transfer) : Nat :=
  let off := refOff t.dst
  if t.kind ≠ 1 then linesIn off t.total
  else ((List.range t.rows).foldl (fun (p : Nat × Nat) r =>
    -- the count so far, and the first line not yet counted
    let a := off + r * t.dstr
    if t.rowb = 0 then p
    else
      let first := max p.2 (a / 256)
      let last := (a + t.rowb - 1) / 256
      if last < first then p else (p.1 + (last + 1 - first), last + 1)) (0, 0)).1

/-- The transfer that the current thread's shadows describe. -/
def describe (s : State) (tag eng : Nat) : Transfer :=
  let t := s.th
  let x : Transfer :=
    { handle := BitVec.ofNat 64 (t.cpseq.toNat + eng * 2 ^ 16), owner := t.born, gang := t.gang, rank := t.rank,
      core := coreOf s.tid, eng, kind := bits t.cpmode 0 3, ty := bits t.cpmode 4 4, scope := max 3 (bits t.cpmode 8 3),
      notify := bitAt t.cpmode 3, tag, src := t.cpsrc, dst := t.cpdst, len := bits t.cplen 0 44,
      rows := bits t.cpshape 32 32, rowb := bits t.cpshape 0 32, sstr := bits t.cpstride 0 32,
      dstr := bits t.cpstride 32 32, done := 0, state := 0, cause := 0, miss := none, flags := 0, snap := none, stopAt := none,
      paused := false, heat := match s.gang? with
        | some g => g.heat
        | none => 0
      latched := false, completed := false, paid := 0, workedAt := 0, arriving := none, wrote := [] }
  -- the images are taken at release (R212)
  if x.overlaps s then { x with snap := some ([], []) } else x

/-- `cpgo` (R211). -/
def execCpgo (d b : Rx) (s : State) : Host.Outcome State Fault Refusal :=
  finish s (do
    let tag ← useX s b
    checkCopy s
    await (decide (((transfersOf s s.th).filter fun x => !x.ended).length < 8))
    needEntries s 1
    let x := describe s (bits tag 0 16) (chooseEngine s)
    let lines := if refSpace x.dst = 0 then x.lines else 0
    let s ← takeQuota s (whoTh s) lines (BitVec.ofNat 64 (refOff x.dst))
    let s := (releaseAt s .sect).hold (.launch x)
    let s := s.setTh { s.th with cpseq := nextSeq s.th.cpseq }
    return retire (s.wx d x.handle))

/-! ### State of a transfer (R213, R214) -/

/-- The transfer of a handle among the thread's last 64 launches. -/
def findTransfer (s : State) (h : Word) : Option Transfer :=
  let all := transfersOf s s.th
  let back := fun (x : Transfer) => (s.th.cpseq.toNat + 65535 - bits x.handle 0 16) % 65535
  (all.filter fun x => x.handle == h && decide (back x ≤ 64)).getLast?

/-- The write pointer of R213: what a replay-mode gang writes to space 0 is visible beyond its section only when the
heat has been committed (R384). -/
def writePointer (s : State) (x : Transfer) : Nat :=
  let hidden := match s.gangs.get? x.gang with
    | some g => g.heatMode && decide (3 < x.scope) && refSpace x.dst == 0 && x.heat == g.heat
    | none => false
  if hidden then 0 else x.done

/-- `cpwp` (R213). -/
def execCpwp (d a : Rx) (s : State) : Host.Outcome State Fault Refusal :=
  finish s (do
    let h ← useX s a
    match findTransfer s h with
    | none => return retire (s.wx d 0)
    | some x => return retire ((acquireAt s (scopeOf x.scope)).wx d (BitVec.ofNat 64 (writePointer s x))))

/-- `cpstat` (R214); STATE 2 is an acquire (R290). -/
def execCpstat (d a : Rx) (s : State) : Host.Outcome State Fault Refusal :=
  finish s (do
    let h ← useX s a
    match findTransfer s h with
    | none => return retire (s.wx d 7)
    | some x =>
      let s := if x.state = 2 then acquireAt s (scopeOf x.scope) else s
      return retire (s.wx d (BitVec.ofNat 64 (x.state + (if x.state = 4 then x.cause else 0) * 2 ^ 8))))

/-- `cpcancel` is held (R215). -/
def execCpcancel (a : Rx) (s : State) : Host.Outcome State Fault Refusal :=
  finish s (do
    let h ← useX s a
    needEntries s 1
    return retire (s.hold (.cancel s.th.born h)))

end Sys2Proof.Machine
end

