-- ==== Sys2Proof/Machine/CopyEngine.lean ====
section
/-! DEFINITION. The copy engines at work (07 R209, R212 to R216; 14 R330; 15 R355, R368): each event moves an engine's
transfer to the next multiple of 256 of its destination count, once a cycle. -/

namespace Sys2Proof.Machine

/-! ### Accumulators (R216) -/

/-- An accumulator's 48 bytes with one value added. -/
def accAdd (acc : List Byte) (v : FVal) : List Byte :=
  let val := toSigned 320 (leNat (acc.take 40))
  let st := leNat (acc.drop 40)
  let (val, st) := match v with
    | .nan sig => (val, st ||| (if sig then 9 else 1))
    | .inf neg => (val, st ||| (if neg then 4 else 2))
    | .fin neg m e =>
      let x : Int := m * 2 ^ (e + 160).toNat
      let sum := if neg then val - x else val + x
      (sum, if -(2 ^ 319 : Int) ≤ sum ∧ sum < 2 ^ 319 then st else st ||| 16)
  leBytes 40 (wrap 320 val) ++ leBytes 8 st

/-- The f32 value of an accumulator and its flags. -/
def accFinal (acc : List Byte) : Nat × Flags :=
  let val := toSigned 320 (leNat (acc.take 40))
  let st := leNat (acc.drop 40)
  let pos := st.testBit 1
  let neg := st.testBit 2
  if st.testBit 0 || st.testBit 3 || (pos && neg) then
    (Ty.nan .f32, if st.testBit 3 || (pos && neg) then Flag.nv else 0)
  else if pos || neg then (signed .f32 neg (Ty.infMag .f32), 0)
  else if st.testBit 4 then (signed .f32 (val < 0) (Ty.infMag .f32), Flag.of ||| Flag.nx)
  else if val = 0 then (0, 0)
  else roundFin .f32 .rne false false (val < 0) val.natAbs (-160) false

/-! ### Units (R212, R215) -/

/-- The party that an engine acts as for a transfer: outside every quad, in the issuer's section. -/
def Transfer.who (t : Transfer) : Who :=
  { gang := t.gang, core := t.core, sec := sectionOfCore t.core, tid := none, inside := false }

/-- Offsets in source and destination of unit `n`, and the source bytes it takes. -/
def Transfer.place (t : Transfer) (n : Nat) : Nat × Nat × Nat :=
  match t.kind with
  | 0 => (n, n, 1)
  | 1 => (n / t.rowb * t.sstr + n % t.rowb, n / t.rowb * t.dstr + n % t.rowb, 1)
  | 2 => (copyElem t.ty * n, 48 * n, copyElem t.ty)
  | 3 => (48 * n, 4 * n, 48)
  | _ => (0, 48 * n, 0)

/-- Dimensions of a mixed-radix number, outermost first. -/
def digits : List Nat → Nat → List Nat × Nat
  | [], n => ([], n)
  | d :: ds, n =>
    let r := digits ds n
    (r.2 % d :: r.1, r.2 / d)

/-- The logical offset of a byte of a block's storage, if it is data of the object: the inverse of R316. -/
def offsetIn (o : ObjRec) (blockCoords : List Nat) (q : Nat) : Option Nat :=
  let unit := o.stride.getD o.dims 1
  let t := (digits ((List.range o.d).map (o.inUnits o.tile)) (q / unit)).1
  let cs := (List.range o.d).map fun i => blockCoords.getD i 0 * o.inUnits o.tile i + t.getD i 0
  if decide (q < o.dataBytes) && (List.range o.d).all fun i => decide (cs.getD i 0 < o.inUnits o.ext i) then
    some ((List.range o.d).foldl (fun n i => n + cs.getD i 0 * o.stride.getD i 0) (q % unit))
  else none

/-- The logical offsets of the 256 bytes of the aligned line that a destination byte lies in. -/
def lineOffsets (s : State) (t : Transfer) (l : Loc) : List (Option Nat) :=
  match openRef s t.who t.dst .store with
  | .object o _ =>
    match coordsOf o l.off with
    | none => []
    | some (cs, rem) =>
      let q := blockOffset o cs rem
      let bs := (List.range o.d).map fun i => cs.getD i 0 / o.inUnits o.tile i
      (List.range 256).map fun i => offsetIn o bs (q - q % 256 + i)
  | _ => (List.range 256).map fun i => some (l.off - l.key % 256 + i)

/-- The last destination count, if any, at which a transfer that stores writes a logical offset of its destination. -/
def Transfer.countOf (t : Transfer) (x : Nat) : Option Nat :=
  let off := refOff t.dst
  if x < off ∨ t.kind = 2 ∨ t.total = 0 then none
  else if t.kind ≠ 1 then (if x < off + t.total then some (x - off) else none)
  else
    let r := if t.dstr = 0 then t.rows - 1 else min ((x - off) / t.dstr) (t.rows - 1)
    let c := x - off - r * t.dstr
    if c < t.rowb then some (r * t.rowb + c) else none

/-- The count after which the whole aligned line has been written, if the transfer writes all of it (R330). -/
def Transfer.wholeLine (s : State) (t : Transfer) (l : Loc) : Option Nat :=
  let cs := (lineOffsets s t l).map fun x => x.bind t.countOf
  if cs.isEmpty || cs.any Option.isNone then none else some ((cs.filterMap id).foldl max 0 + 1)

/-- The poison fault of a transfer at an offset of one of its references, with object 0 in the spaces other than 0 (R215, R378). -/
def copyPoisoned (r : Ref) (off : Nat) (bad : Bool) : Except Stop Unit :=
  if bad then
    .error (.trap { cause := 0x0B, addr := BitVec.ofNat 64 off, miss := some { obj := if refSpace r = 0 then refObj r else 0, off } })
  else .ok ()

/-- The bytes that unit `n` reads and writes, or why it cannot go on (R215). A marked source line stops it, and a marked
destination line, unless the transfer writes all of the line (R330). -/
def Transfer.plan (s : State) (t : Transfer) (n : Nat) : Except Stop (List Loc × List Loc) := do
  let (a, b, k) := t.place n
  let so := openRef s t.who t.src .load
  -- source bytes are read one by one: a copied byte is a unit of its own (R279)
  let src ← if t.kind = 3 then accessUnit s t.who so t.src (refOff t.src + a) 48 1 .load 0
    else do
      let ls ← (List.range k).mapM fun (i : Nat) => accessUnit s t.who so t.src (refOff t.src + a + i : Nat) 1 1 .load 0
      pure ls.flatten
  if !(weakLines s src).isEmpty then .error (.reread (weakLines s src))
  copyPoisoned t.src (refOff t.src + a) (src.any fun l => marked s l || unreachable s l)
  let clean := { s with poison := [] }
  let dst ← accessUnit clean t.who (openRef s t.who t.dst .store) t.dst (refOff t.dst + b) (copyUnit t.kind) 1 .store 0
  -- an accumulator is read before it is written (R216, R377)
  if t.kind = 2 && !(weakLines s dst).isEmpty then .error (.reread (weakLines s dst))
  copyPoisoned t.dst (refOff t.dst + b) (dst.any fun l => (marked s l && (t.wholeLine s l).isNone) || unreachable s l)
  return (src, dst)

/-- The byte whose node is lost that stops a transfer's next unit: its request gets no response (R215, R392). -/
def Transfer.lostPlace (s : State) (t : Transfer) : Option Loc :=
  match t.plan { s with poison := [], weak := [], lost := [] } (t.done / copyUnit t.kind) with
  | .ok u => (u.1 ++ u.2).find? (unreachable s)
  | .error _ => none

/-- The units that begin below a transfer's end and the next multiple of 256. -/
def Transfer.part (t : Transfer) : List Nat :=
  let u := copyUnit t.kind
  let bound := min (min t.total (t.stopAt.getD t.total)) ((t.done / 256 + 1) * 256)
  (List.range 256).filterMap fun i => if (t.done / u + i) * u < bound then some (t.done / u + i) else none

/-- The units of a part that can be carried out, and what stops the first that cannot. -/
def planUnits (s : State) (t : Transfer) : List Nat → List (Nat × List Loc × List Loc) × Option Stop
  | [] => ([], none)
  | n :: ns => match t.plan s n with
    | .error e => ([], some e)
    | .ok u =>
      let r := planUnits s t ns
      ((n, u) :: r.1, r.2)

/-- A source byte: as it stood at release for an overlapping copy (R212). -/
def Transfer.sourceByte (s : State) (t : Transfer) (l : Loc) : Byte :=
  match t.snap with
  | none => viewByte s t.who l
  | some (m, buf) =>
    let sec := sectionOfCore t.core
    coherentByte (({ s with mem := m }).setSect sec { s.sect sec with heatBuf := buf }) sec l

/-- What a unit writes, and the flags of a finalise. -/
def Transfer.unitBytes (s : State) (t : Transfer) (src dst : List Loc) : List Byte × Flags :=
  let data := src.map (t.sourceByte s)
  match t.kind with
  | 2 =>
    let ty : Ty := if t.ty = 11 then .bf16 else .f32
    (accAdd (viewBytes s t.who dst) (fval ty false (leNat data)), 0)
  | 3 => let r := accFinal data; (leBytes 4 r.1, r.2)
  | 4 => (List.replicate 48 0, 0)
  | _ => (data, 0)

/-- One unit is written: a write of a copy engine (R295); a marked line that the transfer writes whole loses its marker
with the last of its bytes (R330). A line of the heat store buffer returns its count with the first of its units (R386). -/
def Transfer.writeUnit (s : State) (t : Transfer) (n : Nat) (dst : List Loc) (bs : List Byte) : State :=
  let lines := (dst.filter (marked s)).map fun l => ((forwardLoc s l).key / 256, t.wholeLine s l)
  let held := (lines.filter fun e => e.2.any fun c => decide ((n + 1) * copyUnit t.kind < c)).map (·.1)
  let before := s.poison.filter fun p => lines.any fun e => e.1 == p
  let s := { s with poison := s.poison.filter fun p => !before.contains p }
  let s := performWrite s t.gang (sectionOfCore t.core) (quadOfCore t.core) none 2 [wbytes dst bs]
    ((linesOf dst).filter fun l => !t.wrote.contains l)
  { s with poison := (before.filter held.contains) ++ s.poison }

/-- One unit is carried out: read, and written, or sent to wait at the bank of its quad (R292). -/
def Transfer.runUnit (p : State × Transfer) (u : Nat × List Loc × List Loc) : State × Transfer :=
  let s := p.1
  let t := p.2
  let r := t.unitBytes s u.2.1 u.2.2
  let cells := wbytes u.2.2 r.1
  let t' := { t with flags := (BitVec.ofNat 6 t.flags ||| r.2).toNat
                     wrote := if heatOf s t.gang then (t.wrote ++ linesOf u.2.2).dedup else t.wrote }
  if mustWait s cells then
    (s.waitAtBank u.2.2 { core := t.core, seq := 0, tid := 2 * t.core, gang := t.gang, rank := none, kind := 2,
                          effect := .store [cells], retired := s.cycle, copy := some (t.owner, t.handle, u.1) }, t')
  else (t.writeUnit s u.1 u.2.2 r.1, t')

/-- Units of a transfer wait at a bank (R292). -/
def Transfer.waits (s : State) (t : Transfer) : Bool :=
  s.quads.any fun e => e.2.outside.any fun o => o.copy.any fun c => c.1 == t.owner && c.2.1 == t.handle

/-! ### The engine's transfer -/

def State.setTransfer (s : State) (sec : Nat) (t : Transfer) : State :=
  let k := s.sect sec
  s.setSect sec { k with transfers := k.transfers.map fun x => if x.isOf t.owner t.handle then t else x }

/-- A unit that waited at a bank has been written: with the last of a part the count goes on (R213). -/
def Transfer.arrived (s : State) (t : Transfer) : State :=
  match t.arriving with
  | some n => if t.waits s then s else s.setTransfer (sectionOfCore t.core) { t with done := n, arriving := none }
  | none => s

/-- The transfer that an engine works on: the oldest that has not ended and is neither suspended nor halted; a fenced
engine works on none (R380). -/
def activeTransfer (s : State) (sec eng : Nat) : Option Transfer :=
  if fencedEngine s sec eng then none
  else (s.sect sec).transfers.find? fun t => t.eng == eng && decide (t.state ≤ 1) && !t.paused

/-- Requests of 256 bytes beyond section memory that a part takes (R355). -/
def partCost (us : List (Nat × List Loc × List Loc)) : Nat :=
  (linesOf (us.flatMap fun u => u.2.1)).length + (linesOf (us.flatMap fun u => u.2.2)).length

/-- What an engine's transfer does next, if it can go on, one part in a cycle: it starts requests as its quad's pacer allows, moves its next
part, ends, or stops at a fault. -/
def Transfer.next (s : State) (sec : Nat) (t : Transfer) : Option State :=
  if t.arriving.isSome then none
  else if t.total ≤ t.done then some (s.setTransfer sec { t with state := 2 })
  else if t.stopAt.any fun b => decide (b ≤ t.done) then some (s.setTransfer sec { t with state := 5 })
  else if s.cycle ≤ t.workedAt then none
  else match planUnits s t t.part with
    | ([], some (.trap f)) =>
      some (s.setTransfer sec { t with state := 3, cause := f.cause, miss := f.miss.or (some { obj := 0, off := f.addr.toNat }), paid := 0 })
    | ([], some (.region r)) => some (s.startTransfer r false (some (8192 + 2 * sec + t.eng, t.done)))
    | ([], some (.reread ls)) => some (s.reread sec t.gang (some t.rank) ls)
    | ([], _) => none
    | (us, _) =>
      let q := quadOfCore t.core
      let limit := (contextOf s t.gang).qlimit
      let left := quadLeft s q limit
      let need := if limit = 0 then 0 else partCost us - t.paid
      if left < need then
        if left = 0 then none
        else some ((s.setQuad q { s.quad q with epoch := s.cycle / Config.epoch, left := 0 }).setTransfer sec
          { t with state := 1, paid := t.paid + left })
      else
        let s := if limit = 0 then s else s.setQuad q { s.quad q with epoch := s.cycle / Config.epoch, left := left - need }
        let r := us.foldl Transfer.runUnit (s, t)
        let n := t.done + us.length * copyUnit t.kind
        let t := { r.2 with state := 1, paid := 0, workedAt := s.cycle }
        some (r.1.setTransfer sec (if t.waits r.1 then { t with arriving := some n } else { t with done := n }))

/-- An engine's event for a transfer of one kind. -/
def engineStep (kind sec eng : Nat) (s : State) : Host.Outcome State Fault Refusal :=
  match activeTransfer s sec eng with
  | none => .next s
  | some t => if t.kind = kind then .next ((t.next s sec).getD s) else .next s

def execLinearCopy (sec eng : Nat) (s : State) := engineStep 0 sec eng s
def execTwoDimensionalCopy (sec eng : Nat) (s : State) := engineStep 1 sec eng s
def execReduce (sec eng : Nat) (s : State) := engineStep 2 sec eng s
def execFinalise (sec eng : Nat) (s : State) := engineStep 3 sec eng s
def execClear (sec eng : Nat) (s : State) := engineStep 4 sec eng s

/-! ### The end of a transfer (R214, R215, R230) -/

/-- The completion message (R199): the status is 0, the cause of a failure, or 0x12 for a cancelled transfer. SENDER is that
of the service core and the host, since the manual gives the copy engine none (log entry 34). -/
def Transfer.message (t : Transfer) : Message :=
  let status := if t.state = 4 then t.cause else if t.state = 5 then 0x12 else 0
  { header := headerWord 2 (if t.notify then t.flags else 0) t.tag noRank
    payload := wordsPayload [t.handle, BitVec.ofNat 64 t.done, BitVec.ofNat 64 status, 0, 0, 0, 0, 0]
    sender := .service (sectionOfCore t.core), scope := scopeOf t.scope, outside := true, seq := 0, born := 0 }

/-- The thread that launched a transfer, if it has not ended. -/
def Transfer.issuer (s : State) (t : Transfer) : Place :=
  match placeOf s t.gang t.rank with
  | .resident tid => if (s.thread tid).born = t.owner ∧ !(s.thread tid).free then .resident tid else .nowhere
  | .saved k => if k.born = t.owner ∧ !k.free then .saved k else .nowhere
  | .nowhere => .nowhere

/-- The end of a transfer sets the latch bit of the thread that launched it (R230). -/
def Transfer.latch (s : State) (sec : Nat) (t : Transfer) : State :=
  let s := s.setTransfer sec { t with latched := true }
  match t.issuer s with
  | .nowhere => s
  | .resident tid => s.event tid 4
  | .saved k => match s.gangs.get? t.gang with
    | some g => s.setGang t.gang { g with savedThreads := g.savedThreads.put t.rank { k with latch := k.latch ||| 2 } }
    | none => s

/-- A completion: the latch bit is set at once, and the message is delivered when the thread's queue takes it. -/
def Transfer.complete (s : State) (sec : Nat) (t : Transfer) : Option State :=
  let latched := if t.latched then s else t.latch s sec
  let done := latched.setTransfer sec { t with latched := true, completed := true }
  let gone := match t.issuer s with
    | .nowhere => true
    | _ => false
  if gone || !(t.notify || t.state == 4) then some done
  else match deliver done t.gang t.rank t.message with
    | .done s' => some s'
    | .dead => some done
    | .full => if t.latched then none else some latched

/-- The ended transfers of an engine whose completion has not been produced. -/
def completing (s : State) (sec eng : Nat) : List Transfer :=
  (s.sect sec).transfers.filter fun t => t.eng == eng && t.ended && !t.completed

/-- The first of an engine's completions that can be produced. -/
def nextCompletion (s : State) (sec eng : Nat) : Option State := (completing s sec eng).findSome? fun t => t.complete s sec

def execCopyCompletion (sec eng : Nat) (s : State) : Host.Outcome State Fault Refusal :=
  .next ((nextCompletion s sec eng).getD s)

end Sys2Proof.Machine
end

