-- ==== Sys2Proof/Machine/Ring.lean ====
section
/-! DEFINITION. The baton ring (06 R174 to R178), major 0x35. -/

namespace Sys2Proof.Machine

/-- Held joins and leaves of an engine's endpoint, oldest first: the thread and what it does (R176). -/
def pendingJoins (s : State) (eng : Nat) : List (Nat × Option Join) :=
  (List.range 4).flatMap fun i => (s.core (4 * (eng / 2) + i)).hold.filterMap fun e => match e.effect with
    | .ringJoin n j => if n = eng then some (e.tid, j) else none
    | _ => none

/-- The engine of a tile field's half. -/
def halfEngine (s : State) (t : Rt) : Nat := engineOf s.tid (halfOf t)

/-- The current thread is joined to an endpoint, as the retired instructions left it (R176). -/
def joinedHere (s : State) (eng : Nat) : Bool := (s.engine eng).view.any fun j => j.owner == s.tid

/-- A position of a mask is an engine of a quad of the gang (R176). -/
def maskInGang (s : State) (eng mask : Nat) : Bool :=
  match s.gang? with
  | none => false
  | some g => (List.range 16).all fun p => !mask.testBit p || g.cores.any fun c => quadOfCore c == ringEngine eng p / 2

/-- A mask that a thread may join with: two bits or more, its own position, and its gang's quads (R176). -/
def joinable (s : State) (eng : Nat) (x : Word) : Bool :=
  let mask := bits x 0 16
  bits x 16 48 == 0 && mask.testBit (eng % 16) && decide (2 ≤ ((List.range 16).filter fun p => mask.testBit p).length)
    && maskInGang s eng mask && (s.engine eng).view.all fun j => j.owner == s.tid

/-- The thread's own view changes, and the change is held (R176). -/
def changeJoin (s : State) (eng : Nat) (j : Option Join) : State :=
  (s.setEngine eng { s.engine eng with view := j }).hold (.ringJoin eng j)

/-- `trjoin`: the first row of R176 that matches. -/
def execTrjoin (th : Rt) (a d : Rx) (s : State) : Host.Outcome State Fault Refusal :=
  finish s (do
    let x ← useX s a
    let eng := halfEngine s th
    if joinable s eng x then
      needEntries s 1
      return retire ((changeJoin s eng (some { owner := s.tid, mask := bits x 0 16 })).wx d 0)
    else if x = 0 then
      if joinedHere s eng then
        needEntries s 1
        return retire ((changeJoin s eng none).wx d 0)
      else return retire (s.wx d 0)
    else if (s.engine eng).view.any fun j => j.owner != s.tid then return retire (s.wx d 1)
    else return retire (s.wx d 2))

/-- The word of `trstat` (R178). JOINED is the thread's own view; a join or leave changes the credits, FOREIGN and the
slots at its release (R176). -/
def trstatWord (s : State) (eng : Nat) : Word :=
  let e := s.engine eng
  let slots := (e.slots.filter fun k => !k.consumed).length
  BitVec.ofNat 64 (eng % 16 * 2 ^ 20 + (if e.foreign then 2 ^ 19 else 0) + (if joinedHere s eng then 2 ^ 18 else 0)
    + e.credits * 2 ^ 8 + slots)

def execTrstat (th : Rt) (d : Rx) (s : State) : Host.Outcome State Fault Refusal :=
  finish s (.ok (retire (s.wx d (trstatWord s (halfEngine s th)))))

/-- What a send or receive needs first: a join that has been released (R176, R177). -/
def ringReady (s : State) (eng : Nat) : Except Stop Unit := do
  require (joinedHere s eng) 0x02
  await (!(pendingJoins s eng).any fun p => p.1 == s.tid)

/-- The oldest tile that waits in an endpoint's slots. -/
def oldestTile (s : State) (eng : Nat) : Option RingSlot := (s.engine eng).slots.find? fun k => !k.consumed

/-- A tile is received: the slot is consumed, and its credit return is held (R177). -/
def receive (s : State) (eng : Nat) (d : Rt) : Except Stop State :=
  match oldestTile s eng with
  | none => .error .stall
  | some k => do
    let e := s.engine eng
    let slots := e.slots.map fun f => if f.num = k.num then { f with consumed := true } else f
    let s := (s.setEngine eng { e with slots }).hold (.ringCredit eng k.num)
    writeTile s d k.img

/-- A tile is sent: a credit is taken, and the copy is held with the physical tile it names (R177). -/
def send (s : State) (eng : Nat) (a : Rt) (img : TileImage) : State :=
  let e := s.engine eng
  let name := match s.th.t[a] with
    | none => []
    | some t => [(eng, t.phys)]
  (s.setEngine eng { e with credits := e.credits - 1 }).hold (.ringSend eng img) name

/-- `tring`: the send takes the old value of ta, and the instruction retires when its receive is done. -/
def execTring (d a : Rt) (s : State) : Host.Outcome State Fault Refusal :=
  finish s (do
    let eng := halfEngine s a
    ringReady s eng
    let img ← useT s a
    await (oldestTile s eng).isSome
    await (decide (0 < (s.engine eng).credits))
    needEntries s 2
    return retire (← receive (send s eng a img) eng d))

/-- `tring.s`. -/
def execTringS (a : Rt) (s : State) : Host.Outcome State Fault Refusal :=
  finish s (do
    let eng := halfEngine s a
    ringReady s eng
    let img ← useT s a
    await (decide (0 < (s.engine eng).credits))
    needEntries s 1
    return retire (send s eng a img))

/-- `tring.r`. -/
def execTringR (d : Rt) (s : State) : Host.Outcome State Fault Refusal :=
  finish s (do
    let eng := halfEngine s d
    ringReady s eng
    await (oldestTile s eng).isSome
    needEntries s 1
    return retire (← receive s eng d))

end Sys2Proof.Machine
end

