-- ==== Sys2Proof/Machine/Task.lean ====
section
/-! DEFINITION. The task instructions (07 R217 to R221; 15 R351), major 0x1D. -/

namespace Sys2Proof.Machine

/-- FEAT of an entry record (R262). -/
def entryFeat (r : Word) : Nat := bits r 48 8

/-- The die of the queue that a task goes to (R351). -/
def taskDie (s : State) (g : Gang) (feat : Nat) : Option Nat :=
  let own := dieOf s.tid
  let fits := fun d => feat % 2 == 0 || d % 2 == 0
  if fits own then some own
  else least (fun d => fits d) (g.cores.map dieOfCore)

/-- `spawn` (R218). -/
def execSpawn (a : Rx) (s : State) : Host.Outcome State Fault Refusal :=
  finish s (do
    let c ← useX s a
    let ws ← payloadWords s
    match s.gang? with
    | none => trapOf 0x09
    | some g =>
      require (contextOf s s.th.gang).spawnOk 0x09
      require (bits c 44 20 == 0 && bits c 18 2 == 0 && decide (taskEntry c < g.entries.length)) 0x02
      let feat := entryFeat (g.entries.getD (taskEntry c) 0)
      match taskDie s g feat with
      | none => trapOf 0x03
      | some d =>
        needEntries s 1
        let sc := if d = dieOf s.tid then .die else .package
        return retire ((releaseAt s sc).hold (.spawn d
          { control := c, payload := BitVec.ofNat 512 (packList 64 (ws.map (·.toNat))), feat, eligible := false, scope := sc, age := 0 })))

/-- `tqget`: a held request for `xd` and `x10` to `x17`, which keep their values when no task is taken (R219). Its reply is
an acquire, which younger loads wait for (R283, R290). -/
def execTqget (d : Rx) (s : State) : Host.Outcome State Fault Refusal :=
  finish s (do
    let payload := (List.range 8).map fun i => DestReg.x (Fin.ofNat 32 (10 + i))
    await (!(payload.any s.th.pending))
    needEntries s 1
    let t := s.th
    let s := s.setTh { t with pend := payload.map (fun r => (r, s.seq)) ++ t.pend, tq := s.seq :: t.tq }
    let s := if payload.contains (.x d) then s else s.markPend (.x d)
    let s := s.hold (.tqget d)
    return retire (s.setTh { s.th with loadAfter := s.seq }))

/-- `gatedec` (R220). -/
def execGatedec (a b : Rx) (s : State) : Host.Outcome State Fault Refusal :=
  finish s (do
    let n ← useX s a
    let v ← useX s b
    require (n != 0 && decide (n.toNat ≤ 4095)) 0x02
    match s.gang? with
    | none => trapOf 0x09
    | some g =>
      needEntries s 1
      return retire ((releaseAt s (gateScope g s.tid)).hold (.gatedec n.toNat (v.setWidth 32) (gateScope g s.tid))))

/-- `tqdone` (R221): a held effect, which changes the gate of the current task if it has one. While a `tqget` is without its
reply, the current task is known at the release only. -/
def execTqdone (s : State) : Host.Outcome State Fault Refusal :=
  finish s (do
    needEntries s 1
    match s.gang? with
    | none => return retire (s.hold .tqdone)
    | some g =>
      let s := releaseAt s (gateScope g s.tid)
      match s.th.task with
      | some k =>
        if s.th.tq.isEmpty && k.done != 0 then
          return retire ((s.setTh { s.th with task := none }).hold (.gatedec k.done 1 (gateScope g s.tid)))
        else return retire (s.hold .tqdone)
      | none => return retire (s.hold .tqdone))

end Sys2Proof.Machine
end

