-- ==== Sys2Proof/Machine/HoldEvents.lean ====
section
/-! DEFINITION. Steps of the hold buffers, inboxes, waits, hurdles and rings (06 R177; 07 R186, R187, R196, R198, R204,
R206, R207, R219; 08 R230; 09 R248; 10 R265, R271, R273). -/

namespace Sys2Proof.Machine

/-- A change of one thread that cannot fail. -/
def State.onThread (s : State) (t : Nat) (f : State → State) : State := (f (s.switchTo t)).switchTo s.tid

/-- A thread runs, and its quad is not frozen (R253). -/
def going (s : State) (t : Nat) : Bool :=
  (s.thread t).run == .running && (isService t || (s.quad (quadOf t)).phase == .idle)

/-- Up to four releases of a core in this cycle (R248). -/
def execHoldRelease (core : Nat) (s : State) : Host.Outcome State Fault Refusal := .next (releaseUpTo 4 s core)

/-! ### Replies (R186, R187, R219) -/

/-- The n-th of the numbers that nothing gives, in 64 × k bits: what a poisoned register holds (R187). -/
def freeBits (n k : Nat) : Nat := packList 64 ((List.range k).map fun i => (Config.freeValue (n + i)).toNat)

/-- A reply's number is written to a register of the current thread. -/
def writeDest (s : State) (d : DestReg) (v : Nat) : Except Stop State :=
  match d with
  | .x r => .ok (s.wx r (BitVec.ofNat 64 v))
  | .a r => .ok (s.wa r (BitVec.ofNat 128 v))
  | .v r => .ok (s.wv r (BitVec.ofNat 1024 v))
  | .t r => if v.testBit liveAt then writeTile s r (TileImage.ofNat v) else .ok (emptyTile s r)

/-- One register of a reply: it is written if it still waits for this reply; a poisoned reply leaves a value that the
manual does not give, and the mark (R187). -/
def replyWrite (r : Reply) (s : State) (e : DestReg × Nat) : Except Stop State :=
  if s.th.pend.contains (e.1, r.seq) then
    if r.poisoned then do
      let s' ← writeDest { s with fresh := s.fresh + 577 } e.1 (freeBits s.fresh 576 % 2 ^ liveAt + 2 ^ liveAt)
      return s'.setTh { s'.th with poison := (e.1, r.obj, r.addr) :: s'.th.poison }
    else writeDest s e.1 e.2
  else .ok s

/-- The tile registers that a reply makes live. -/
def Reply.tiles (r : Reply) (t : Thread) : List Rt :=
  r.writes.filterMap fun e => match e.1 with
    | .t d => if t.pend.contains (e.1, r.seq) && (r.poisoned || e.2.testBit liveAt) then some d else none
    | _ => none

/-- A reply reaches the current thread, or waits while a tile pool has too few tiles for it (R154). The registers that it
does not write keep their values. A task becomes the current one whether or not a register still waits for it, and taking it
acquires (R219, R290); a bad entry record, or image header, is a fault due before the next instruction (R182, R262). -/
def replyArrives (r : Reply) (s : State) : Except Stop State := do
  let mine := (s.th.pend.any fun p => p.2 == r.seq) || s.th.tq.contains r.seq
  if !mine then return s
  match r.tiles s.th with
  | [] => .ok ()
  | d :: ds => needTiles s (engineOf s.tid (halfOf d)) (ds.length + 1)
  let s ← r.writes.foldlM (replyWrite r) s
  let t := s.th
  let s := s.setTh { t with pend := t.pend.filter fun p => p.2 != r.seq, tq := t.tq.filter fun n => n != r.seq,
                            entryBad := t.entryBad || r.bad }
  let s := if r.scope = .thread then s else s.setTh (s.th.noteAcquire r.scope s.cycle)
  match r.task with
  | some k => return s.setTh { s.th with task := some k }
  | none => return s

/-- A thread has noted in this cycle that it waits for so many tiles. -/
def waitsForTiles (s : State) (tid eng n : Nat) : Bool :=
  (s.engine eng).waiting.any fun w => w.tid == tid && w.last == s.cycle && decide (n ≤ w.need)

/-- The oldest reply of a core that can be written now, or that begins to wait for tiles in this cycle; written replies are
kept for W cycles (R186). -/
def writeReply (s : State) (core : Nat) : Option State :=
  let old := (s.core core).replies.filter fun r => r.written.all fun c => decide (s.cycle ≤ c + Config.holdWindow)
  if (s.quad (quadOfCore core)).phase != .idle then none
  else old.findSome? fun r =>
    if r.written.isSome then none
    else match s.asThread r.tid (replyArrives r) with
      | .error (.tiles e n) => if waitsForTiles s r.tid e n then none else some (s.onThread r.tid fun s => s.awaitTile e n)
      | .error _ => none
      | .ok s' =>
        some ((s'.setCore core { s'.core core with
          replies := old.map fun k => if k.seq = r.seq then { k with written := some s.cycle } else k }).settleAcquires r.tid)

def execHeldRequestReply (core : Nat) (s : State) : Host.Outcome State Fault Refusal := .next ((writeReply s core).getD s)

/-! ### Inbox (R198) -/

/-- The oldest message of the spill queue, then of the overflow queue, moves up (R198, R359), but not while the thread's core
is being moved (R366). -/
def Thread.refill (t : Thread) (n : Nat) (moving : Bool) : Option Thread :=
  if t.run = .stopped ∨ t.free ∨ moving then none
  else match t.overflow with
    | m :: rest =>
      if t.inbox.length < Config.inboxSlots then
        let m := { m with seq := n, outside := true }
        some { t with overflow := rest, inbox := t.inbox ++ [m], arrivals := t.arrivals ++ [m] }
      else match t.spill with
        | k :: more =>
          if t.overflow.length < Config.overflowMessages then some { t with overflow := t.overflow ++ [k], spill := more }
          else none
        | [] => none
    | [] => match t.spill with
      | k :: more => some { t with overflow := [k], spill := more }
      | [] => none

def refillInbox (s : State) (t : Nat) : Option State :=
  match (s.thread t).refill s.seq (s.moving (s.thread t).gang (coreOf t)) with
  | none => none
  | some k => some { s.setThread t k with seq := s.seq + 1 }

def execInboxRefill (t : Nat) (s : State) : Host.Outcome State Fault Refusal := .next ((refillInbox s t).getD s)

/-! ### Waits for messages and events (R204, R230) -/

def mwaitWakes (s : State) (t : Nat) : Option Rx :=
  match (s.thread t).wait with
  | .mwait d _ => if going s t && mwaitReady (s.thread t) then some d else none
  | _ => none

def execMwaitWake (t : Nat) (s : State) : Host.Outcome State Fault Refusal :=
  .next (match mwaitWakes s t with
    | some d => s.onThread t fun s => mwaitDone s d
    | none => s)

/-- A deadline has passed. -/
def passed (s : State) (dl : Option Nat) : Bool := dl.any fun c => decide (c ≤ s.cycle)

def mwaitEnds (s : State) (t : Nat) : Option Rx :=
  match (s.thread t).wait with
  | .mwait d dl => if going s t && !mwaitReady (s.thread t) && passed s dl then some d else none
  | _ => none

def execMwaitTimeout (t : Nat) (s : State) : Host.Outcome State Fault Refusal :=
  .next (match mwaitEnds s t with
    | some d => s.onThread t fun s => retire (s.wx d 1)
    | none => s)

def waitiWakes (s : State) (t : Nat) : Option Rx :=
  match (s.thread t).wait with
  | .waiti d _ => if going s t && waitiReady (s.thread t) then some d else none
  | _ => none

def execWaitiWake (t : Nat) (s : State) : Host.Outcome State Fault Refusal :=
  .next (match waitiWakes s t with
    | some d => s.onThread t fun s => waitiDone s d
    | none => s)

def waitiEnds (s : State) (t : Nat) : Option Rx :=
  match (s.thread t).wait with
  | .waiti d dl => if going s t && !waitiReady (s.thread t) && passed s dl then some d else none
  | _ => none

def execWaitiTimeout (t : Nat) (s : State) : Host.Outcome State Fault Refusal :=
  .next (match waitiEnds s t with
    | some d => s.onThread t fun s => retire (s.wx d 8)
    | none => s)

/-! ### Hurdles (R206, R207, R271, R273) -/

/-- A member waits for a generation that is complete, and can go on. -/
def hurdleWaits (s : State) (t : Nat) : Bool :=
  match (s.thread t).wait, s.gangs.get? (s.thread t).gang with
  | .hurdle d l n _, some g => decide (n ≤ g.completed d l (g.instOf l (coreOf t))) && going s t
  | _, _ => false

/-- A waiting member goes on: the completion is an acquire (R290). -/
def hurdleResume (s : State) (t : Nat) : State :=
  s.onThread t fun s => match s.th.wait with
    | .hurdle _ lvl n fin =>
      let s := acquireAt s lvl
      retire (match fin with
        | .plain => s
        | .phase d => s.wx d (BitVec.ofNat 64 n)
        | .test d => s.wx d 1)
    | _ => s

/-- A hurdle narrower than a section stands still while a quad of its members is frozen (R253). -/
def instanceGoes (s : State) (g : Gang) (lvl : Scope) (inst : Nat) : Bool :=
  decide (3 ≤ lvl.code) || (g.instCores lvl inst).all fun c => (s.quad (quadOfCore c)).phase == .idle

/-- Latch bit 1 of a member that arrived at a generation: the event is one inside the quad for a narrow hurdle (R230,
R245). -/
def hurdleEvent (lvl : Scope) (n : Nat) (dom : Fin 4) (s : State) (t : Nat) : State :=
  let k := s.thread t
  if k.free || k.signal dom lvl < n then s
  else if 3 ≤ lvl.code then s.event t 2
  else s.setThread t { k with latch := k.latch ||| 1 }

/-- A generation is complete: the count rises, the latches are set, a phase sets the clocks of the gang's cores to 0
(R207), and a gang-wide completion clears the race detector's words (R296). -/
def completeHurdle (s : State) (gang : Nat) (g : Gang) (dom : Fin 4) (lvl : Scope) (inst : Nat) : State :=
  let n := g.completed dom lvl inst + 1
  let ms := g.members dom lvl inst
  let phase := ms.any fun t => match (s.thread t).wait with
    | .hurdle _ _ k (.phase _) => k == n && g.isHeatPair dom lvl
    | _ => false
  let g' := g.setCompleted dom lvl inst n
  let s := s.setGang gang (if g.isHeatPair dom lvl then { g' with shadows := [] } else g')
  let s := if phase then g.cores.foldl (fun s c => s.setCore c { s.core c with phase := some s.cycle }) s else s
  ms.foldl (hurdleEvent lvl n dom) s

/-- A generation can complete now; those that end a heat under `.heat on` complete in the heat checkpoint (R385). -/
def hurdleDue (s : State) (g : Gang) (dom : Fin 4) (lvl : Scope) (inst : Nat) : Bool :=
  g.resident && nextComplete s g dom lvl inst && instanceGoes s g lvl inst && !(g.heatMode && g.isHeatPair dom lvl)

/-- A completion; the members that wait for it go on in their own turns (R242). -/
def hurdleStep (s : State) (gang : Nat) (dom : Fin 4) (lvl : Scope) (inst : Nat) : State :=
  match s.gangs.get? gang with
  | none => s
  | some g => if hurdleDue s g dom lvl inst then completeHurdle s gang g dom lvl inst else s

def execHurdleCompletion (g : Nat) (dom : Fin 4) (lvl : Scope) (inst : Nat) (s : State) : Host.Outcome State Fault Refusal :=
  .next (hurdleStep s g dom lvl inst)

/-- The clock value that a thread waits for came in the cycle that has ended (R207). -/
def phaseMatches (s : State) (t : Nat) : Option (Rx × Nat) :=
  match (s.thread t).wait, s.gangs.get? (s.thread t).gang with
  | .phase d v, some g =>
    match g.slots, going s t with
    | some k, true => if (s.thread t).stoppedAt < s.cycle ∧ phaseClock { s with cycle := s.cycle - 1 } (coreOf t) k.period = some v then some (d, v) else none
    | _, _ => none
  | _, _ => none

def execPhaseClockMatch (t : Nat) (s : State) : Host.Outcome State Fault Refusal :=
  .next (match phaseMatches s t with
    | some (d, v) => s.onThread t fun s => retire (s.wx d (BitVec.ofNat 64 v))
    | none => s)

/-! ### Ring arrivals (R177) -/

/-- An arriving tile takes a slot, or is discarded, its credit returned and FOREIGN set. One from the predecessor that finds all 16
slots taken, as it can after the sender's credits were set to 16 again by a join, is treated as a foreign one: the manual names no
such arrival (DESIGN CHOICE, log entry 133). -/
def ringArrival (s : State) (eng : Nat) : State :=
  let e := s.engine eng
  match e.arriving with
  | [] => s
  | (pos, img) :: rest =>
    let e := { e with arriving := rest }
    let mine := e.ring.any fun j => ringPrev j.mask (eng % 16) == pos
    if mine && decide (e.slots.length < Config.ringSlots) then
      s.setEngine eng { e with slots := e.slots ++ [{ num := e.nextSlot, img, sender := pos, consumed := false }],
                               nextSlot := e.nextSlot + 1 }
    else (s.setEngine eng { e with foreign := e.foreign || e.ring.isSome }).returnCredit eng pos

def execRingTileArrival (eng : Nat) (s : State) : Host.Outcome State Fault Refusal := .next (ringArrival s eng)

/-- A leave by the end or move of a thread that takes effect now, after the thread's held effects and the endpoint's older
ones (R265). -/
def leaveDue (s : State) (eng : Nat) : Option (Nat × Nat × Nat) :=
  (s.engine eng).leaves.head?.filter fun l =>
    decide (l.2.2 + Config.holdWindow ≤ s.cycle) && !heldAtEndpoint s (eng / 2) eng l.2.1
      && !((s.core (coreOf l.1)).hold.any fun e => e.tid == l.1 && decide (e.seq < l.2.1))

/-- The endpoint is left, if the thread is still the one that has joined it. -/
def ringLeave (s : State) (eng : Nat) : State :=
  match leaveDue s eng with
  | none => s
  | some l =>
    let e := s.engine eng
    let mine := e.ring.any fun j => j.owner == l.1
    let s := s.setEngine eng { e with leaves := e.leaves.drop 1 }
    if mine then performRingJoin s eng none else s

/-! ### Promotion (R196) -/

/-- A `pacq` whose quad's effects are all visible. -/
def pacqDone (s : State) (t : Nat) : Option Scope :=
  match (s.thread t).wait with
  | .pacq q bound sc => if going s t && visibleBelow s q bound then some sc else none
  | _ => none

def execPacqComplete (t : Nat) (s : State) : Host.Outcome State Fault Refusal :=
  .next (match pacqDone s t with
    | some sc => s.onThread t fun s => retire (acquireAt s sc)
    | none => s)

/-! ### Turns of waiting threads (R242) -/

/-- What the current thread waits for has come: its instruction retires in the thread's turn. -/
def waitOver (s : State) (t : Nat) : Bool :=
  match (s.thread t).wait with
  | .none => true
  | .mwait .. => (mwaitWakes s t).isSome || (mwaitEnds s t).isSome
  | .waiti .. => (waitiWakes s t).isSome || (waitiEnds s t).isSome
  | .hurdle .. => hurdleWaits s t
  | .phase .. => (phaseMatches s t).isSome
  | .pacq .. => (pacqDone s t).isSome

/-- The turn of a thread whose wait is over. -/
def waitStep (s : State) : Host.Outcome State Fault Refusal :=
  match s.th.wait with
  | .none => .next s
  | .mwait .. => if (mwaitWakes s s.tid).isSome then execMwaitWake s.tid s else execMwaitTimeout s.tid s
  | .waiti .. => if (waitiWakes s s.tid).isSome then execWaitiWake s.tid s else execWaitiTimeout s.tid s
  | .hurdle .. => .next (if hurdleWaits s s.tid then hurdleResume s s.tid else s)
  | .phase .. => execPhaseClockMatch s.tid s
  | .pacq .. => execPacqComplete s.tid s

end Sys2Proof.Machine
end

