-- ==== Sys2Proof/Machine/Service.lean ====
section
/-! DEFINITION. What the service cores do with threads and gangs: stopping, restarting and ending threads, halt groups,
faults that nobody can resolve, and notifications (08 R222, R223, R229; 10 R265; 15 R361, R365, R368; 16 R379 to
R382). -/

namespace Sys2Proof.Machine

/-! ### Stopping and restarting (R357 step 2, R361, R368) -/

/-- A thread that is stopped inside a wait runs that instruction again later; an arrival at a hurdle stands, so that wait
goes on (R206, R357). -/
def Wait.kept : Wait → Wait
  | .hurdle d l n f => .hurdle d l n f
  | _ => .none

def Thread.squash (t : Thread) : Thread := { t with wait := t.wait.kept, paid := 0 }

/-- A running thread stops (R357 step 2). -/
def Thread.stop (t : Thread) (cycle : Nat) : Thread :=
  if t.run = .running then { t.squash with run := .stopped, stoppedAt := cycle } else t

def State.stopThread (s : State) (t : Nat) : State := s.setThread t ((s.thread t).stop s.cycle)

/-- A rank is a member of a halt group; group 0 is every thread (R368). -/
def HaltGroup.has (n : Nat) (h : HaltGroup) (rank : Nat) : Bool :=
  n == 0 || h.ranges.any fun r => decide (r.1 ≤ rank) && decide (rank ≤ r.2)

/-- A rank is a member of a halted group (R368). -/
def Gang.suspended (g : Gang) (rank : Nat) : Bool := g.groups.any fun e => e.2.halted && HaltGroup.has e.1 e.2 rank

/-- A core is fenced, by its own bit or its quad's (R380). -/
def fencedCore (s : State) (c : Nat) : Bool :=
  s.pmc.fencesInForce.contains (0, c) || s.pmc.fencesInForce.contains (2, quadOfCore c)

/-- A thread that is not in service may run: nothing keeps its gang or its group stopped (R357, R366, R368). -/
def mayRun (s : State) (t : Nat) : Bool :=
  match s.gangs.get? (s.thread t).gang with
  | none => true
  | some g => g.resident && !g.switching && !g.suspended (s.thread t).rank && !fencedCore s (coreOf t)
      && !g.moves.any fun m => m.1 == coreOf t

/-- A stopped thread goes on when it may (R360 step 9, R368); what it was doing at a split stays as the split has it (R256). -/
def State.letRun (s : State) (t : Nat) : State :=
  let k := s.thread t
  if k.run = .stopped ∧ mayRun s t then s.pinWith t fun k => if k.run = .stopped then { k with run := .running } else k else s

/-- A thread in service goes on at its `epc`, or stays stopped there while it may not run (R229, R361). -/
def State.restart (s : State) (t : Nat) : State :=
  let s := s.setThread t ((s.thread t).resumed s.cycle)
  let s := if mayRun s t then s else s.setThread t { s.thread t with run := .stopped, stoppedAt := s.cycle }
  s.pinResumed t

/-- The service core adds 4 to `epc` to go past a system call or a breakpoint (R223). -/
def State.skip (s : State) (t : Nat) : State := s.setThread t { s.thread t with epc := (s.thread t).epc + 4 }

/-! ### Notifications (R382) -/

/-- A KIND 0 message to the host. -/
def State.notifyHost (s : State) (event arg : Nat) : State :=
  s.tell 0 .host (headerWord 0 0 0 noRank) [BitVec.ofNat 64 event, BitVec.ofNat 64 arg, 0, 0, 0, 0, 0, 0]

/-! ### Halt groups (R368) -/

/-- The resident members of a gang. -/
def Gang.tids (g : Gang) : List Nat := g.cores.flatMap fun c => [2 * c, 2 * c + 1]

/-- A group's record; group 0 needs no definition. -/
def Gang.group? (g : Gang) (n : Nat) : Option HaltGroup :=
  match g.groups.get? n with
  | some h => some h
  | none => if n = 0 then some { ranges := [], eng := false, halted := false } else none

/-- The transfers of a gang with their pauses set from its halted groups. -/
def State.pauseCopies (s : State) (gang : Nat) : State :=
  let p := copiesHalted s gang
  let q := copiesKept s gang
  { s with sections := s.sections.map fun e =>
      (e.1, { e.2 with transfers := e.2.transfers.map fun x =>
        if x.gang = gang then { x with paused := p || (q && x.state == 0) } else x }) }

/-- A halt group halts: every member stops. -/
def State.haltGroup (s : State) (gang n : Nat) : State :=
  match s.gangs.get? gang with
  | none => s
  | some g => match g.group? n with
    | none => s
    | some h =>
      let s := s.setGang gang { g with groups := g.groups.put n { h with halted := true } }
      let s := if g.resident then (g.tids.filter fun t => h.has n (s.thread t).rank).foldl State.stopThread s else s
      s.pauseCopies gang

/-- A quad that a containment loss has frozen goes on, with no split that is older (R382). -/
def State.thaw (s : State) (q : Nat) : State :=
  let k := s.quad q
  if k.phase = .lost then s.setQuad q { k with phase := .idle, splits := [], nextSplit := 0 } else s

/-- The quads of some cores. -/
def quadsOf (cs : List Nat) : List Nat := (cs.map quadOfCore).dedup

/-- A halt group is resumed: its members run unless another of their groups is halted. The resumption of every thread is also
that of a lost quad (R382). -/
def State.resumeGroup (s : State) (gang n : Nat) : State :=
  match s.gangs.get? gang with
  | none => s
  | some g => match g.group? n with
    | none => s
    | some h =>
      let s := s.setGang gang { g with groups := g.groups.put n { h with halted := false } }
      let s := if g.resident && n == 0 then (quadsOf g.cores).foldl State.thaw s else s
      let s := if g.resident then g.tids.foldl State.letRun s else s
      s.pauseCopies gang

/-! ### The end of a thread (R265) -/

/-- The sender of a message is a thread of the gang that is still running. -/
def senderRuns (s : State) (gang : Nat) (p : Party) : Bool :=
  match p with
  | .member g r => g == gang && (match placeOf s g r with
    | .resident t => !(s.thread t).free
    | .saved t => !t.free
    | .nowhere => false)
  | _ => false

/-- The messages that a thread leaves behind are answered where their sender, by the given test, gets an answer; a completion
has no sender that is a thread, the host or a service core (R265). -/
def State.answerLeft (s : State) (rank : Nat) (ms : List Message) (who : State → Party → Bool) : State :=
  ms.foldl (fun s m =>
    if who s m.sender && decide (headerKind m.header < 2) then s.answer m.sender m.born (BitVec.ofNat 64 rank) m.header else s) s

/-- The endpoints of a thread's quad that it has joined, as the retired instructions left them (R176). -/
def joinedEngines (s : State) (t : Nat) : List Nat :=
  [2 * quadOf t, 2 * quadOf t + 1].filter fun e => (s.engine e).view.any fun j => j.owner == t

/-- A quad's kept splits with one endpoint not joined. -/
def Quad.unjoin (k : Quad) (half : Nat) : Quad :=
  { k with splits := k.splits.map fun p => { p with views := p.views.set half none } }

/-- A thread leaves its endpoints, as `trjoin` with 0 leaves them (R265, R366): the leave follows the thread's held effects,
takes no entry of the hold buffer, and is not undone by a recall. -/
def State.leaveRings (s : State) (t : Nat) : State :=
  (joinedEngines s t).foldl (fun s e =>
    let k := s.engine e
    let s := s.setEngine e { k with view := none, leaves := k.leaves ++ [(t, s.seq, s.cycle)] }
    { s.setQuad (e / 2) ((s.quad (e / 2)).unjoin (e % 2)) with seq := s.seq + 1 }) s

/-- A thread ends in this cycle (R265). -/
def State.endThread (s : State) (t : Nat) (host : Bool) : State :=
  let k := s.thread t
  if k.free then s
  else
    let left := k.inbox ++ k.overflow ++ k.spill
    let s := s.leaveRings t
    let s := match s.gangs.get? k.gang with
      | some g => if g.isMember t then s.setGang k.gang { g with excused := k.rank :: g.excused } else s
      | none => s
    let s := s.setThread t { s.thread t with
      run := .ended, wait := .none, inbox := [], overflow := [], spill := [], arrivals := [], events := [], pend := [],
      stepDue := false, entryBad := false, paid := 0, relMark := none, stoppedAt := s.cycle }
    let s := s.pin t
    s.answerLeft k.rank left fun s p => senderRuns s k.gang p || (host && (match p with
      | .host | .service _ => true
      | .member _ _ => false))

/-! ### Faults (R365, R379) -/

/-- The cause code of a thread's fault record. -/
def Thread.cause (t : Thread) : Nat := bits t.fcause 0 8

/-- An unserviceable fault of a thread (R365): the one in its fault record, or one of its own cause that no instruction took
(R387). -/
def State.unserviceable (s : State) (t : Nat) (own : Option Nat := none) : State :=
  let k := match own with
    | none => { s.thread t with before := [] }
    | some c => (s.thread t).record { cause := c } (s.thread t).pc
  let s := s.setThread t { s.thread t with before := [] }
  match s.gangs.get? k.gang with
  | none => s.endThread t false
  | some g =>
    let s := if g.haltPolicy then
        let s := s.haltGroup k.gang 0
        if k.run = .service then s.restart t else s
      else
        let s := s.setGang k.gang { g with report := g.report ++ [(k.rank, [k.fcause, k.faddr, k.fstep, k.finfo, k.epc])] }
        s.endThread t false
    s.notifyHost 0x0100 k.rank

/-- A replay-mode gang can replay its heat once more (R387). -/
def canReplay (s : State) (gang : Nat) : Bool :=
  match s.gangs.get? gang with
  | none => false
  | some g => g.heatMode && decide (g.replays < 2)

/-- A quad is lost (R382): in a gang that can replay its heat the replay follows, and after the last replay each of its threads
in the quad has an unserviceable fault (R387), with the cause of a lasting fault of its core (log entry 94); any other
gang halts. -/
def State.containmentLoss (s : State) (q sensor : Nat) : State :=
  let k := s.quad q
  let s := s.setQuad q { k with phase := .lost, reports := [] }
  let s := s.logIn (q / 8) { cls := 0x0A, ukind := 2, unit := q, detail := sensor }
  match s.gangs.find? fun e => e.2.resident && e.2.cores.any fun c => quadOfCore c == q with
  | none => s
  | some (n, g) =>
    if canReplay s n then s.setGang n { g with trigger := some noRank }
    else if g.heatMode then
      ((List.range 8).filter fun i => !(s.thread (8 * q + i)).free).foldl (fun s i => s.unserviceable (8 * q + i) (some 0x13)) s
    else (s.haltGroup n 0).notifyHost 0x0101 q

end Sys2Proof.Machine
end

