-- ==== Sys2Proof/Machine/Recall.lean ====
section
/-! DEFINITION. Splits, late free, checker retries, strike reports and recalls (09 R243, R245, R246, R251 to R257, R259;
06 R154, R179; 11 R292; 16 R376). -/

namespace Sys2Proof.Machine

/-- The threads and cores of a quad. -/
def quadTids (q : Nat) : List Nat := (List.range 8).map fun i => 8 * q + i
def quadCores (q : Nat) : List Nat := (List.range 4).map fun i => 4 * q + i

/-- A quad runs: a resident gang has a core in it (R245). -/
def quadRuns (s : State) (q : Nat) : Bool := s.gangs.any fun e => e.2.resident && e.2.cores.any fun c => quadOfCore c == q

/-! ### Splits (R245) -/

/-- The cycle whose end a due split records: cycle counts multiples of 32 from the quad's start, or from a recall's fresh
split. -/
def splitDue (s : State) (q : Nat) : Option Nat :=
  let k := s.quad q
  if k.phase != .idle || !quadRuns s q then none
  else if k.nextSplit = 0 then
    (if 0 < s.cycle ∧ (s.cycle - 1) % Config.splitInterval = 0 then some (s.cycle - 1) else none)
  else if k.nextSplit < s.cycle then some k.nextSplit else none

/-- A key whose generations a recall of a quad takes back: one at core or quad scope of a resident gang, with every position of
its instance in the quad. The generations of a replay-mode gang's heats stand: their effects are committed (R385). -/
def recalledKey (g : Gang) (q : Nat) (k : GenKey) : Bool :=
  let cores := g.instCores (scopeOf k.lvl) k.inst
  g.resident && decide (k.lvl ≤ 2) && !cores.isEmpty && cores.all (fun c => quadOfCore c == q)
    && !(g.heatMode && k.dom == 0 && k.lvl == g.scope.code)

/-- Completed generations at core and quad scope within a quad. -/
def quadGens (s : State) (q : Nat) : List (Nat × GenKey × Nat) :=
  s.gangs.flatMap fun e => (e.2.gens.filter fun k => recalledKey e.2 q k.1).map fun k => (e.1, k)

/-- Events and arrivals that no kept split can need any more. -/
def Thread.trim (t : Thread) (seq : Nat) : Thread :=
  { t with arrivals := t.arrivals.filter fun m => decide (seq ≤ m.seq), events := t.events.filter fun e => decide (seq ≤ e.1) }

/-- The retired state of a quad at the end of a cycle. -/
def State.splitAt (s : State) (q cycle : Nat) : Split :=
  { cycle, seq := s.seq, threads := (quadTids q).map fun t => (t, s.thread t),
    views := (s.quad q).engines.toList.map Engine.view, gens := quadGens s q }

/-- A superseded tile gets the first split at or after its retirement (R246). -/
def Engine.noteSplit (e : Engine) (cycle : Nat) : Engine :=
  { e with late := e.late.map fun l => if l.splitAt.isNone then { l with splitAt := some cycle } else l }

/-- The records of a quad's journals that have become too old are dropped (R254), and the notes of own writes that no effect
still held is older than (R280). -/
def State.pruneJournals (s : State) (q : Nat) : State :=
  let k := s.quad q
  (quadCores q).foldl (fun s c => if (s.core c).journal.isEmpty then s
    else s.setCore c { s.core c with journal := (s.core c).journal.filter (recent s.cycle) })
    (s.setQuad q { k with journal := k.journal.filter (recent s.cycle)
                          overs := k.overs.filter fun e => heldWrites s q e.2 fun n => decide (n < e.1) })

/-- A split is taken; the newest five are kept. -/
def State.takeSplit (s : State) (q cycle : Nat) : State :=
  let s := s.pruneJournals q
  let k := s.quad q
  let splits := (s.splitAt q cycle :: k.splits).take Config.splitsKept
  let s := s.setQuad q { k with splits, nextSplit := cycle + Config.splitInterval, engines := k.engines.map fun e => e.noteSplit cycle }
  let oldest := ((splits.getLast?).map (·.seq)).getD 0
  (quadTids q).foldl (fun s t => if (s.thread t).arrivals.isEmpty && (s.thread t).events.isEmpty then s
    else s.setThread t ((s.thread t).trim oldest)) s

def execSplit (q : Nat) (s : State) : Host.Outcome State Fault Refusal :=
  .next (match splitDue s q with
    | some c => s.takeSplit q c
    | none => s)

/-! ### Late free (R154, R246) -/

/-- A late tile may return to its pool. -/
def lateFreeable (s : State) (eng : Nat) (l : LateTile) : Bool :=
  (l.splitAt.any fun c => decide (c + Config.holdWindow < s.cycle)) && !(namedTiles s eng).contains l.phys

def execLateFree (eng : Nat) (s : State) : Host.Outcome State Fault Refusal :=
  let e := (s.engine eng).noteSnap s.cycle (freeTiles s eng).length
  .next (s.setEngine eng { e with late := e.late.filter fun l => !lateFreeable s eng l })

/-! ### Checker retry (R243, R259) -/

/-- CHKRETRY plus 1; it holds at 0xFFFF. -/
def countRetry (w : Word) : Word := if bits w 32 16 = 0xFFFF then w else w + 0x100000000

/-- A unit is fenced: its bit is set in the non-volatile store and takes effect at once (R380). -/
def Pmc.fence (p : Pmc) (kind n : Nat) : Pmc :=
  if p.fencesInForce.contains (kind, n) then p
  else { p with fences := if p.fences.contains (kind, n) then p.fences else p.fences ++ [(kind, n)],
                fencesInForce := p.fencesInForce ++ [(kind, n)] }

/-- The engine of its quad that executes an instruction of thread `t`: that of its tile registers (R17). -/
def engineOfInstr (t : Nat) : Instr → Option Nat
  | .tld d .. | .tst d .. | .tzero d | .tmov d _ | .tfill d .. | .tmma d .. | .tmmat d .. | .tmmax d .. | .tmmas d .. | .tcvt d ..
  | .tqnt d .. | .tscl d .. | .tadd d .. | .trdr d .. | .twrr d .. | .trdc d .. | .twrc d .. | .ttrn d .. | .tring d _ | .tringS d
  | .tringR d | .tgath1 d .. => some (engineOf t (halfOf d))
  | .tsave h .. | .trstr h .. | .trel h _ => some (engineOf t h.val)
  | _ => none

/-- The engine that executes a thread's next instruction, if one does. -/
def engineAt (s : State) (t : Nat) : Option Nat :=
  match nextInstr (s.switchTo t) with
  | .ok i => engineOfInstr t i
  | .error _ => none

/-- A mismatch in thread `t`'s next instruction, executed again: an agreeing result retires as the thread's turn runs it,
and is counted and logged; a lasting one is a fault of that instruction, and the unit is fenced (R380): the core, or the quad of
the engine that executes the instruction, where the mismatch is the engine's. -/
def execCheckerRetry (t : Nat) (agrees inEngine : Bool) (s : State) : Host.Outcome State Fault Refusal :=
  let q := quadOf t
  let eng := if inEngine then engineAt s t else none
  let ev : Event := { cls := if agrees then 0x03 else 0x04, ukind := if eng.isSome then 1 else 0, unit := eng.getD (coreOf t),
                      detail := if agrees then 0 else 0x13, rank := some (s.thread t).rank }
  if isService t || !going s t || (s.thread t).wait.kept != .none then .next s
  else if agrees then
    let k := s.quad q
    .next ((s.setQuad q { k with recallcnt := countRetry k.recallcnt }).logIn (sectionOf t) ev)
  else if !canHold s t 1 then .next s   -- the fault waits for an entry; the event stays due (see inputReady)
  else
    let s := (s.onThread t fun s => takeFault s { cause := 0x13 }).logIn (sectionOf t) ev
    .next (s.setPmc (if eng.isSome then s.pmc.fence 2 q else s.pmc.fence 0 (coreOf t)))

/-! ### Strike reports (R251, R252, R257) -/

/-- The newest kept split at or below an estimate less 8. -/
def target? (k : Quad) (estimate : Nat) : Option Nat :=
  ((k.splits.filter fun p => decide (p.cycle + 8 ≤ estimate)).map (·.cycle)).max?

/-- A recall begins, or begins again, toward a target. -/
def Quad.freeze (k : Quad) (target cycle sensor estimate : Nat) (old : List Strike) : Quad :=
  { k with phase := .draining target cycle, reports := old ++ [{ sensor, estimate, cycle }] }

/-- A report reaches a recall controller. -/
def execStrikeReport (q sensor estimate : Nat) (s : State) : Host.Outcome State Fault Refusal :=
  let k := s.quad q
  .next (match k.phase, target? k estimate with
    | .lost, _ => s
    | _, none => s.containmentLoss q sensor
    | .draining t _, some n => s.setQuad q (k.freeze (min t n) s.cycle sensor estimate k.reports)
    | .sealing t _, some n => s.setQuad q (k.freeze (min t n) s.cycle sensor estimate k.reports)
    | _, some n => s.setQuad q (k.freeze n s.cycle sensor estimate []))

/-- A strike outside every quad is logged (R376). -/
def execOutsideStrikeReport (sec _sensor : Nat) (s : State) : Host.Outcome State Fault Refusal :=
  -- the manual does not say which unit the record names
  .next ({ s with fresh := s.fresh + 2 }.logIn sec
    { cls := 0x02, ukind := (Config.freeValue s.fresh).toNat % 8, unit := (Config.freeValue (s.fresh + 1)).toNat })

/-! ### Restore (R245, R253 to R256) -/

/-- Bits that events set after a split. -/
def eventsSince (t : Thread) (seq : Nat) : BitVec 3 :=
  (t.events.filter fun e => decide (seq ≤ e.1)).foldl (fun b e => b ||| e.2) 0

/-- A thread with the inbox, the wake bit and the latch that a split has, and what came from outside the quad since. -/
def Thread.withInbox (t cur old : Thread) (seq : Nat) : Thread :=
  let since := cur.arrivals.filter fun m => decide (seq ≤ m.seq)
  let room := Config.inboxSlots - old.inbox.length
  let b := eventsSince cur seq
  { t with
    inbox := old.inbox ++ since.take room
    overflow := since.drop room ++ cur.overflow
    spill := cur.spill
    arrivals := (cur.arrivals.filter fun m => decide (m.seq < seq)) ++ since.take room
    events := cur.events
    wake := old.wake || b.getLsbD 0
    latch := old.latch ||| (b >>> 1).setWidth 2 }

/-- A thread as a split has it, with what came from outside the quad since. A context that is with the service core is
unchanged (R256), but for the messages of its quad peers, and a thread that the service core has stopped stays stopped, at
its restored position. -/
def Thread.restored (cur old : Thread) (seq : Nat) : Thread :=
  if cur.free then cur
  else if cur.run = .service then cur.withInbox cur old seq
  else
    { old.squash.withInbox cur old seq with
      signalled := Vector.ofFn fun i => if 3 ≤ i.val % 6 + 1 then cur.signalled[i] else old.signalled[i]
      stepBit := cur.stepBit
      run := if cur.run = .stopped then .stopped else old.run
      stoppedAt := if cur.run = .stopped then cur.stoppedAt else old.stoppedAt }

/-- What a discarded held effect gives back: the credit of a send, the slot of a receive (R179), and in a replay-mode
gang the lines of its quota (R386). -/
def discardEffect (s : State) (h : HoldEntry) : State :=
  match h.effect with
  | .ringSend e _ => let k := s.engine e; s.setEngine e { k with credits := k.credits + 1 }
  | .ringCredit e n =>
    let k := s.engine e
    s.setEngine e { k with slots := k.slots.map fun x => if x.num = n then { x with consumed := false } else x }
  | e =>
    if !heatOf s (s.thread h.tid).gang then s
    else
      let n := match e with
        | .launch t => if refSpace t.dst = 0 then t.lines else 0
        | _ => h.took.length
      let q := quadOf h.tid
      s.setQuad q { s.quad q with quota := (s.quad q).quota - n }

/-- The entries of a core's buffer that retired at or after a number are discarded; replies written since the target are
to be written again (R186). -/
def State.cutHold (s : State) (target seq core : Nat) : State :=
  let c := s.core core
  let gone := c.hold.filter fun e => decide (seq ≤ e.seq)
  let s := gone.foldl discardEffect s
  s.setCore core { s.core core with
    hold := c.hold.filter fun e => decide (e.seq < seq), claim := none
    replies := c.replies.map fun r => if r.written.any fun w => decide (target < w) then { r with written := none } else r }

/-- Journal records made after a cycle are undone, newest first; the older ones stay (R254). -/
def undoJournal (m : Memory) (j : List JournalByte) (target : Nat) : Memory × List JournalByte :=
  ((j.filter fun e => decide (target < e.cycle)).foldl (fun m e => m.write e.key e.old) m,
   j.filter fun e => decide (e.cycle ≤ target))

def State.undoCore (s : State) (target core : Nat) : State :=
  let c := s.core core
  let r := undoJournal s.mem c.journal target
  (s.setMem r.1).setCore core { c with journal := r.2 }

def State.undoQuad (s : State) (target q : Nat) : State :=
  let k := s.quad q
  let r := undoJournal s.mem k.journal target
  (s.setMem r.1).setQuad q { k with journal := r.2 }

/-- Cycles that the undo takes: the most records of one core, of up to 128 bytes each, or of one of the 64 banks
(R24, R254). -/
def undoTime (s : State) (q target : Nat) : Nat :=
  let since := fun (j : List JournalByte) => j.filter fun e => decide (target < e.cycle)
  let ofCore := fun c => ((since (s.core c).journal).map fun e => (e.cycle, e.key / 128)).dedup.length
  let words := ((since (s.quad q).journal).map fun e => (e.cycle, e.key / 8)).dedup
  let ofBank := fun (b : Nat) => (words.filter fun w => w.2 % 64 == b).length
  (((quadCores q).map ofCore) ++ (List.range 64).map ofBank).foldl max 0

/-- Tiles that are live again after a restore are no longer waiting to be freed, and those taken after the target are back in the
pool (R253), unless an entry that stays names them. -/
def Engine.revive (e : Engine) (target : Nat) (live named : List Nat) : Engine :=
  { e with late := e.late.filter fun l => !live.contains l.phys && (decide (l.cycle ≤ target) || named.contains l.phys) }

/-- Completed generations at core and quad scope as a split has them. -/
def State.restoreGens (s : State) (q : Nat) (gens : List (Nat × GenKey × Nat)) : State :=
  { s with gangs := s.gangs.map fun e =>
      (e.1, { e.2 with gens :=
        ((gens.filter fun k => k.1 == e.1 && recalledKey e.2 q k.2.1).map fun k => k.2)
          ++ e.2.gens.filter fun k => !recalledKey e.2 q k.1 }) }

/-- The race detector forgets the held writes of a quad that are discarded (R296). -/
def State.forgetHeld (s : State) (q target : Nat) : State :=
  let keeps := fun (g : Gang) (h : Seen) => decide (h.retired ≤ target) || (g.coreOfRank h.rank).map quadOfCore != some q
  { s with gangs := s.gangs.map fun e => if e.2.test then
      (e.1, { e.2 with shadows := e.2.shadows.map fun w => (w.1, { w.2 with held := w.2.held.filter (keeps e.2) }) }) else e }

/-- A quad goes back to a split (R253 step 3). -/
def State.restoreQuad (s : State) (q : Nat) (p : Split) : State :=
  let s := s.notePools q
  let s := (quadCores q).foldl (fun s c => s.cutHold p.cycle p.seq c) (s.forgetHeld q p.cycle)
  let s := p.threads.foldl (fun s e => s.setThread e.1 ((s.thread e.1).restored e.2 p.seq)) s
  let s := (quadCores q).foldl (fun s c => s.undoCore p.cycle c) s
  let s := s.undoQuad p.cycle q
  let s := s.restoreGens q p.gens
  let s := (List.range 2).foldl (fun s h =>
    let e := 2 * q + h
    s.setEngine e { (s.engine e).revive p.cycle (liveTiles s e) (namedTiles s e) with view := p.views.getD h none }) s
  let k := s.quad q
  s.setQuad q { k with splits := k.splits.filter fun x => decide (x.cycle ≤ p.cycle)
                       overs := k.overs.filter fun e => decide (e.1 < p.seq) }

/-- The drain is over (R253). -/
def restoreDue (s : State) (q : Nat) : Option Split :=
  let k := s.quad q
  match k.phase with
  | .draining t since =>
    if since + Config.drainCycles ≤ s.cycle then k.splits.find? fun p => p.cycle == t else none
  | _ => none

def execRecallRestore (q : Nat) (s : State) : Host.Outcome State Fault Refusal :=
  .next (match restoreDue s q with
    | none => s
    | some p =>
      let n := max Config.restoreCycles (undoTime s q p.cycle)
      let s := s.restoreQuad q p
      s.setQuad q { s.quad q with phase := .sealing p.cycle (s.cycle + n) })

/-! ### Seal and resume (R253, R257, R259) -/

/-- The seal's last cycle. -/
def sealDue (s : State) (q : Nat) : Option Nat :=
  match (s.quad q).phase with
  | .sealing t first => if first + Config.sealCycles ≤ s.cycle + 1 then some t else none
  | _ => none

/-- A resolved report in the service core's log (R253, R378). -/
def State.noteRecall (s : State) (r : RecallRec) : State :=
  let k := s.sect (r.quad / 8)
  s.setSect (r.quad / 8) { k with recalls := (r :: k.recalls).take Config.sectionLogRecords }

/-- RECALLS plus a number; it wraps (R259). -/
def countRecalls (w : Word) (n : Nat) : Word :=
  BitVec.ofNat 64 (w.toNat / 2 ^ 32 * 2 ^ 32 + (w.toNat % 2 ^ 32 + n) % 2 ^ 32)

def execRecallSeal (q : Nat) (s : State) : Host.Outcome State Fault Refusal :=
  .next (match sealDue s q with
    | none => s
    | some t =>
      let k := s.quad q
      let s := k.reports.foldl (fun s r => (s.logIn (q / 8) { cls := 0x01, ukind := 2, unit := q, detail := r.sensor }).noteRecall
        { quad := q, sensor := r.sensor, estimate := r.estimate, target := t, length := s.cycle + 1 - r.cycle }) s
      let s := s.takeSplit q s.cycle
      let k' := s.quad q
      s.setQuad q { k' with recallcnt := countRecalls k.recallcnt k.reports.length, reports := [],
                            phase := .resuming t (s.cycle + 1) })

def resumeDue (s : State) (q : Nat) : Bool :=
  match (s.quad q).phase with
  | .resuming _ at' => decide (at' ≤ s.cycle)
  | _ => false

def execRecallResume (q : Nat) (s : State) : Host.Outcome State Fault Refusal :=
  .next (if resumeDue s q then s.setQuad q { s.quad q with phase := .idle } else s)

/-! ### Writes and atomics that wait at a bank (R292) -/

/-- A waiting write may apply: no own write of its bytes is younger than W cycles, and no earlier one waits for them. -/
def outsideReady (s : State) (o : OutsideWrite) (before : List OutsideWrite) : Bool :=
  o.effect.locs.all fun l => !youngWrite s l.key && !(before.any fun p => p.effect.locs.any fun k => k.key == l.key)

/-- The first write of a list that may apply. -/
def firstReady (s : State) : List OutsideWrite → List OutsideWrite → Option OutsideWrite
  | _, [] => none
  | before, o :: rest => if outsideReady s o before then some o else firstReady s (before ++ [o]) rest

/-- It applies to the current value. -/
def applyOutside (s : State) (q : Nat) (o : OutsideWrite) : State :=
  let k := s.quad q
  let s := s.setQuad q { k with outside := k.outside.erase o }
  match o.copy, o.effect with
  | some (owner, h, n), .store units =>
    match (s.sect (sectionOfCore o.core)).transfers.find? fun t => t.isOf owner h with
    | none => s
    | some t => t.arrived (t.writeUnit s n (unitLocs units) (units.flatten.map fun c => c.val))
  | none, .store units =>
    performWrite (s.detectUnits o.tid .performed o.retired units) o.gang (sectionOfCore o.core) (quadOfCore o.core) o.rank
      o.kind units
  | _, .amo op ls w x old d => performAmo s o.core o.seq o.tid o.retired op ls w x old d
  | _, _ => s

def outsideDue (s : State) (q : Nat) : Option OutsideWrite := firstReady s [] (s.quad q).outside

def execOutsideWriteApply (q : Nat) (s : State) : Host.Outcome State Fault Refusal :=
  .next (match outsideDue s q with
    | some o => applyOutside s q o
    | none => s)

end Sys2Proof.Machine
end

