-- ==== Sys2Proof/Machine/Objects.lean ====
section
/-! DEFINITION. What the firmware does with storage, records and residency (14 R312, R313, R316, R320 to R325, R329, R331,
R334, R335; 15 R344; 16 R377). -/

namespace Sys2Proof.Machine

/-! ### Storage -/

/-- Base and size of the stacks of a tier, as places in Memory (R333); of tier 2, the memories of the host sockets that the
routes know (R389). -/
def stacksOf (s : State) (tier : Nat) : List (Nat × Nat) :=
  match tier with
  | 0 => (List.range 8).map fun i => (2 ^ 46 * s.pkg + i * 2 ^ 36, 64 * 2 ^ 30)
  | 1 => (List.range 8).map fun i => (2 ^ 46 * s.pkg + 2 ^ 39 + i * 2 ^ 37, 96 * 2 ^ 30)
  | _ => (s.routes.filter (·.2)).map fun e => (hostBase + 2 ^ 46 * e.1, 2 ^ 46)

/-- Storage of `size` bytes can be given out at a place: aligned, within one stack, in no frame that is retired, and free. -/
def storageFree (s : State) (tier size key : Nat) : Bool :=
  key % size == 0 && (stacksOf s tier).any (fun k => decide (k.1 ≤ key) && decide (key + size ≤ k.1 + k.2))
    && s.storage.all (fun b => decide (b.1 + b.2 ≤ key) || decide (key + size ≤ b.1))
    && s.pmc.retired.all fun f => decide ((f + 1) * 65536 ≤ key) || decide (key + size ≤ f * 65536)

/-- Storage is given out: the firmware chooses the place (log entry 3). -/
def State.allocate (s : State) (tier size : Nat) : Option (Nat × State) :=
  let up := fun (a : Nat) => (a + size - 1) / size * size
  let first := ((stacksOf s tier).map (·.1)).headD 0
  let spots := (first + Config.firmwareChoice s.fresh % 2 ^ 40 / size * size) :: (stacksOf s tier).map (fun k => up k.1)
    ++ s.storage.map (fun b => up (b.1 + b.2)) ++ s.pmc.retired.map fun f => up ((f + 1) * 65536)
  (spots.find? (storageFree s tier size)).map fun k =>
    (k, { s with storage := (k, size) :: s.storage, fresh := s.fresh + 1 })

def State.freeStorage (s : State) (key : Nat) : State := { s with storage := s.storage.filter fun b => b.1 != key }

/-- A power of two of at least 4 KiB. -/
def roundStorage (n : Nat) : Nat := 2 ^ (max 12 (ceilLog2 n))

/-! ### Frame placement (R334, R335) -/

/-- log2 of a block's ρ. -/
def ObjRec.logRho (o : ObjRec) : Nat := min 6 (ceilLog2 (o.inUnits o.tile o.dims * o.stride.getD o.dims 0) - 8)

/-- Base die and frame number of a physical address: the near frames come first. -/
def frameOf (addr : Nat) : Nat × Nat :=
  let a := addr % 2 ^ 46
  (baseDieOf addr, if a < 2 ^ 39 then a % 2 ^ 36 / 65536 else 2 ^ 20 + (a - 2 ^ 39) % 2 ^ 37 / 65536)

def State.setRho (s : State) (die frame : Nat) (v : BitVec 3) : State :=
  let d := s.die die
  s.setDie die { d with lrho := if v = 0 then d.lrho.drop frame else d.lrho.put frame v }

/-- Where a line lies in its stack: pseudo-channel, bank group, bank within the group, column slot and DRAM row (R334). -/
structure LinePlace where
  channel : Nat
  group : Nat
  bank : Nat
  slot : Nat
  row : Nat
  deriving DecidableEq, Repr

/-- The place of line `l` of frame `f` of a stack, in a frame of ρ `rho` (R334). -/
def linePlace (rho f l : Nat) : LinePlace :=
  { channel := (l % 64 + f) % 64, group := (l / 64 + l % 64 / rho) % 4, bank := f % 4, slot := f / 4 % 4, row := f / 16 }

/-- The place of the line of a physical address, by its frame's entry in the frame-placement table (R334, R335). -/
def State.placeOfLine (s : State) (addr : Nat) : LinePlace :=
  let a := addr % 2 ^ 46
  let inStack := if a < 2 ^ 39 then a % 2 ^ 36 else (a - 2 ^ 39) % 2 ^ 37
  let rho := 2 ^ (((s.die (frameOf addr).1).lrho.get? (frameOf addr).2).getD 0).toNat
  linePlace rho (inStack / 65536) (inStack % 65536 / 256)

/-- Storage that holds a record table or a residency map, and no block (R335). -/
def tableStorage (s : State) (key : Nat) : Bool :=
  s.contexts.any fun c => recordAddr c.2.ortb 0 == key
    || (c.2.gens.map (·.1)).any fun n => match objRecord s c.2 n with
      | .ok (some o) => o.map * 8 == key
      | _ => false

/-- The frames of new storage on this package take the ρ of its block; a frame that already holds another block keeps its
own. -/
def State.placeRho (s : State) (key size rho : Nat) : State :=
  if key / 2 ^ 46 ≠ s.pkg then s
  else if 65536 ≤ size then
    (List.range (size / 65536)).foldl (fun s i =>
      let f := frameOf (key + 65536 * i); s.setRho f.1 f.2 (BitVec.ofNat 3 rho)) s
  else if s.storage.any fun b => b.1 != key && b.1 / 65536 == key / 65536 && !tableStorage s b.1 then s
  else let f := frameOf key; s.setRho f.1 f.2 (BitVec.ofNat 3 rho)

/-! ### Records and generations (R308, R312, R313) -/

def State.context (s : State) (c : Nat) : Context := (s.contexts.get? c).getD Context.zero

/-- The residency entry of a block. -/
def entryAt (s : State) (o : ObjRec) (b : Nat) : ResEntry := ResEntry.ofNat (s.mem.readNat (o.map * 8 + 8 * b) 8)

/-- An entry that was not valid becomes valid: nothing was translated with the old content, so it is in force at once
(R323). -/
def State.setEntry (s : State) (o : ObjRec) (b : Nat) (e : ResEntry) : State :=
  s.setMem (s.mem.writeList (o.map * 8 + 8 * b) (leBytes 8 e.toNat))

/-- A record written in place of an absent one. -/
def State.setRecord (s : State) (c obj : Nat) (r : ObjRec) : State :=
  s.setMem (s.mem.writeList (recordAddr (s.context c).ortb obj) (leBytes 128 r.toNat))

/-- Object n of a context is absent (R310). -/
def absent (s : State) (c n : Nat) : Bool :=
  match objRecord s (s.context c) n with
  | .ok (some _) => false
  | _ => true

/-- A free object number of a context, as the firmware chooses. -/
def State.freeNumber (s : State) (c : Nat) : Option (Nat × State) :=
  let k := s.context c
  let n := 2 ^ bits k.ortb 0 6
  let writes := fun (i : Nat) => s.recordWrites.any fun w => w.cells.any fun x => x.1 / 128 == recordAddr k.ortb i / 128
  let spots := Config.firmwareChoice s.fresh % n :: 1 :: k.gens.map fun e => e.1 + 1
  (spots.find? fun i => decide (0 < i) && decide (i < n) && absent s c i && !writes i).map fun i =>
    (i, { s with fresh := s.fresh + 1 })

/-- A generation that an entry has never held, as the firmware chooses (R313). -/
def State.freeGen (s : State) (c obj : Nat) : Option (Nat × State) :=
  let held := ((s.context c).gens.filter fun e => e.1 == obj).map (·.2)
  let spots := Config.firmwareChoice s.fresh % 2 ^ 32 :: 1 :: held.map (· + 1)
  (spots.find? fun g => decide (0 < g) && decide (g < 2 ^ 32) && !held.contains g).map fun g =>
    let k := s.context c
    (g, { s.setContext c { k with gens := (obj, g) :: k.gens } with fresh := s.fresh + 1 })

/-! ### Residency (R316, R320, R321) -/

/-- The party that the firmware of a section acts as for a gang: outside every quad. -/
def firmwareWho (gang sec : Nat) : Who := { gang, core := 32 * sec, sec, tid := none, inside := false }

/-- The physical key slot of an object in a context (R340). -/
def keySlot (k : Context) (o : ObjRec) : Nat := bits k.keysel 8 8 + o.key

/-- First-touch content: zero bytes, and scales of 1 (R321); an encrypted object's lines are stored encrypted (R341). -/
def State.firstTouch (s : State) (o : ObjRec) (slot obj b key : Nat) : State :=
  let s := { s with mem := s.mem.clear key o.storage, poison := s.poison.filter fun l => 256 * l < key || key + o.storage ≤ 256 * l }
  let at' := fun (i : Nat) =>
    ({ key := key + i, crypt := if o.enc then some { home := none, slot, obj, block := b, base := key } else none, dmg := false,
       space := 0, obj, off := i } : Loc)
  let s := if o.enc then
      (List.range (o.storage / 256)).foldl (fun s i =>
        s.writePlain { home := none, slot, obj, block := b, base := key } (key / 256 + i) (List.replicate 256 0)) s
    else s
  s.storeCells ((List.range o.scaleBytes).map fun i => { loc := at' (o.dataBytes + i), val := 0x7F, mask := 0xFF })

/-- A block that is not resident is made resident in a tier, if there is storage for it. -/
def State.makeResident (s : State) (c obj : Nat) (o : ObjRec) (b tier : Nat) : Option State :=
  if 2 ≤ tier && o.enc then none
  else match s.allocate tier o.storage with
    | none => none
    | some (key, s) =>
      let s := s.firstTouch o (keySlot (s.context c) o) obj b key
      let s := s.placeRho key o.storage o.logRho
      some (s.setEntry o b { valid := true, dmg := false, tier, size := o.sizeCode,
                             base := (if tier = 2 then key - hostBase else key) / 4096, reserved := false })

/-- A block is made resident in near or far memory, as the firmware chooses. -/
def State.serveBlock (s : State) (c obj : Nat) (o : ObjRec) (b : Nat) : Option State :=
  let t := Config.firmwareChoice s.fresh % 2
  let s := { s with fresh := s.fresh + 1 }
  match s.makeResident c obj o b t with
  | some s => some s
  | none => s.makeResident c obj o b (1 - t)

/-- The context of a gang, by number. -/
def ctxOf (s : State) (gang : Nat) : Nat := ((s.gangs.get? gang).map (·.ctx)).getD 0

/-- A residency miss of a gang is serviced: the block is made resident, or nothing is left to do, as where the generation has
changed; none where there is no storage (R320). -/
def State.serveMiss (s : State) (gang : Nat) (m : Miss) : Option State :=
  let c := ctxOf s gang
  match objRecord s (s.context c) m.obj with
  | .ok (some o) =>
    if o.malformed || o.gen != m.gen then some s
    else match coordsOf o m.off with
      | none => some s
      | some (cs, _) =>
        let b := blockIndex o cs
        if (entryAt s o b).valid then some s else if (entryAt s o b).lost s then none else s.serveBlock c m.obj o b
  | _ => some s

/-! ### Record changes (R323) -/

/-- An effect names bytes of objects. -/
def touchesGlobal (e : HeldEffect) : Bool :=
  match e with
  | .store us => us.any fun u => u.any fun c => c.loc.space == 0
  | .amo _ ls _ _ _ _ => ls.any fun l => l.space == 0
  | .loadSE .. | .loadElems .. | .loadImage .. => true
  | _ => false

/-- Every access that was translated before a number has been performed; the entries of a lost quad never will be. -/
def drainedBelow (s : State) (bound : Nat) : Bool :=
  s.cores.all fun c => (s.quad (quadOfCore c.1)).phase == .lost ||
    c.2.hold.all fun e => decide (bound ≤ e.seq) || !touchesGlobal e.effect

/-- A residency entry of a present block changes. -/
def State.changeEntry (s : State) (o : ObjRec) (b : Nat) (e : ResEntry) : State :=
  s.changeBytes (o.map * 8 + 8 * b) (leBytes 8 e.toNat)

/-- A byte of a table once the changes that are written are in force. -/
def pendingByte (s : State) (key : Nat) : Byte :=
  ((s.recordWrites.reverse.findSome? fun w => (w.cells.find? fun c => c.1 == key).map (·.2))).getD (s.mem.read key)

/-- The residency entry of a block once the changes that are written are in force. -/
def pendingEntry (s : State) (o : ObjRec) (b : Nat) : ResEntry :=
  ResEntry.ofNat (leNat ((List.range 8).map fun i => pendingByte s (o.map * 8 + 8 * b + i)))

/-- A place of an effect of a gang was translated by bytes that a change writes: those of its object's record, or of its
block's residency entry (R323). -/
def RecordWrite.translated (s : State) (gang : Nat) (w : RecordWrite) (l : Loc) : Bool :=
  let c := contextOf s gang
  let within := fun (a n : Nat) => w.cells.any fun x => decide (a ≤ x.1) && decide (x.1 < a + n)
  l.space == 0 && (within (recordAddr c.ortb l.obj) 128 || match objRecord s c l.obj with
    | .ok (some o) => match coordsOf o l.off with
      | some k => within (o.map * 8 + 8 * blockIndex o k.1) 8
      | none => within (o.map * 8) (8 * o.blocks)
    | _ => false)

/-- No effect that is still held was translated by bytes that a change writes, whenever it was (R323); the entries of a lost
quad will never be performed. -/
def noneTranslated (s : State) (w : RecordWrite) : Bool :=
  s.cores.all fun c => (s.quad (quadOfCore c.1)).phase == .lost || c.2.hold.all fun e =>
    !(e.effect.locs ++ e.effect.loads).any fun l => w.translated s (s.thread e.tid).gang l

/-- Two changes write a byte in common. -/
def RecordWrite.meets (w v : RecordWrite) : Bool := w.cells.any fun c => v.cells.any fun d => c.1 == d.1

/-- The first change of a list that can be performed: after the older ones at its bytes, and once every access that was
translated with the old content has been performed. -/
def firstChange (s : State) : List RecordWrite → List RecordWrite → Option RecordWrite
  | _, [] => none
  | before, w :: rest =>
    if !before.any w.meets && drainedBelow s w.bound && noneTranslated s w then some w else firstChange s (before ++ [w]) rest

def changeDue (s : State) : Option RecordWrite := firstChange s [] s.recordWrites

def execRecordChangeInForce (s : State) : Host.Outcome State Fault Refusal :=
  .next (match changeDue s with
    | none => s
    | some w => { s.setMem (w.cells.foldl (fun m c => m.write c.1 c.2) s.mem) with recordWrites := s.recordWrites.erase w })

/-! ### Relocation (R325, R326, R335) -/

/-- The words of a descriptor: OLD, NEW, OBJ, BLK. -/
def Relocation.word (r : Relocation) (i : Nat) : Word := r.desc.getD i 0
def Relocation.old (r : Relocation) : ResEntry := ResEntry.ofNat (r.word 0).toNat
def Relocation.new (r : Relocation) : ResEntry := ResEntry.ofNat (r.word 1).toNat
def Relocation.obj (r : Relocation) : Nat := bits (r.word 2) 0 36
def Relocation.blk (r : Relocation) : Nat := bits (r.word 3) 0 44

/-- Bytes of storage of an entry. -/
def ResEntry.bytes (e : ResEntry) : Nat := 2 ^ e.size * 4096

/-- The 64 bytes of a descriptor as words: STATUS is bytes 32 to 39 (R325). -/
def Relocation.words (r : Relocation) : List Word := r.desc.take 4 ++ [BitVec.ofNat 64 r.status] ++ (r.desc.drop 5).take 3

/-- The context whose object and block a descriptor is about, with its record: the map's entry passes a test. -/
def Relocation.named (s : State) (r : Relocation) (p : ResEntry → Bool) : Option (Nat × ObjRec) :=
  s.contexts.findSome? fun c => match objRecord s c.2 r.obj with
    | .ok (some o) => if decide (r.blk < o.blocks) && p (entryAt s o r.blk) then some (c.1, o) else none
    | _ => none

/-- Two entries differ in DMG at most: it may change while a block is moved. -/
def ResEntry.sameStorage (a b : ResEntry) : Bool := { a with dmg := b.dmg } == b

/-- The map holds OLD. -/
def Relocation.owner (s : State) (r : Relocation) : Option (Nat × ObjRec) := r.named s (· == r.old)

/-- The map still names the old storage. -/
def Relocation.holder (s : State) (r : Relocation) : Option (Nat × ObjRec) := r.named s r.old.sameStorage

/-- An alias of an object remains, on this package or another (R344). -/
def shared (s : State) (c obj : Nat) : Bool :=
  (s.contexts.any fun k => k.2.aliases.any fun a => a.2 == (c, obj, s.pkg)) || s.podAliases.any fun a => a == (c, obj)

/-- An object has a SHARE alias, or is one: its blocks are pinned (R344). -/
def pinned (s : State) (c obj : Nat) : Bool := ((s.context c).aliases.any fun a => a.1 == obj) || shared s c obj

/-- A host-shared region meets some storage (R336). -/
def sharedStorage (s : State) (key n : Nat) : Bool :=
  s.regions.any fun r => decide (r.1 * 2 ^ 21 < key + n) && decide (key < (r.1 + 1) * 2 ^ 21)

/-- A reserved field of a descriptor is set, those of its two entries among them (R7, R318, R325). -/
def Relocation.reserved (r : Relocation) : Bool :=
  (r.desc.drop 5).any (· != 0) || bits (r.word 2) 49 15 != 0 || bits (r.word 3) 44 20 != 0 || r.old.reserved || r.new.reserved

/-- A record, or the map's entry at the old storage, that the unit reads for a descriptor has a reserved field set (R7). -/
def Relocation.mapReserved (s : State) (r : Relocation) : Bool :=
  (r.named s fun e => e.base == r.old.base && e.tier == r.old.tier).any fun p =>
    p.2.reserved || (entryAt s p.2 r.blk).reserved

/-- A descriptor that moves nothing (R325). -/
def Relocation.fails (s : State) (r : Relocation) : Bool :=
  r.reserved
    || (match r.owner s with
      | none => true
      | some (c, _) => pinned s c r.obj || sharedStorage s r.old.storageKey r.old.bytes)

/-- A descriptor enters the queue of a base die. -/
def State.queueRelocation (s : State) (die : Nat) (desc : List Word) : State :=
  let d := s.die die
  s.setDie die { d with queue := d.queue ++ [{ desc, status := 1, moved := 0 }] }

def execRelocationRequest (die : Nat) (desc : List Word) (s : State) : Host.Outcome State Fault Refusal :=
  .next (s.queueRelocation die desc)

/-- The block of a descriptor has a change written that is not yet in force: the unit looks at the map once it is. -/
def Relocation.waits (s : State) (r : Relocation) : Bool :=
  r.status == 1 && (r.named s r.old.sameStorage).any fun p => changing s (p.2.map * 8 + 8 * r.blk)

/-- The relocation that a base die works on: the first that has not ended, unless it waits. -/
def moving (s : State) (die : Nat) : Option Relocation :=
  ((s.die die).queue.find? fun r => r.status == 1 || r.status == 2).filter fun r => !r.waits s

def State.setRelocation (s : State) (die : Nat) (old new : Relocation) : State :=
  let d := s.die die
  s.setDie die { d with queue := d.queue.map fun r => if r = old then new else r }

/-- A key of one line as a key of another. -/
def moveKey (o n key : Nat) : Nat := if key / 256 = o then 256 * n + key % 256 else key

/-- A location of a moved line. -/
def Loc.moved (pkg : Nat) (l : Loc) (o n : Nat) : Loc :=
  if l.key / 256 = o then
    { l with key := moveKey o n l.key
             crypt := l.crypt.map fun c => { c with base := c.base + 256 * n - 256 * o, home := foreignHome pkg (256 * n) } }
  else l

/-- The bytes of a line copied to another. -/
def Memory.copyLine (m : Memory) (o n : Nat) : Memory := (m.clear (256 * n) 256).writeList (256 * n) (m.readList (256 * o) 256)

/-- How the lines of a descriptor's block are encrypted at one of its two entries (R325, R341). -/
def Relocation.crypt (r : Relocation) (e : ResEntry) : Option Crypt :=
  if bitAt (r.word 2) 48 then
    some { home := if e.tier = 3 then some (e.base * 4096 / 2 ^ 46) else none, slot := bits (r.word 2) 40 8, obj := r.obj,
           block := r.blk, base := e.storageKey }
  else none

/-- Line `i` of a descriptor's block written to the new storage: the new home encrypts it under its own key (R326, R341). -/
def Relocation.copy (s : State) (r : Relocation) (i : Nat) (m : Memory) : Memory :=
  let o := r.old.storageKey / 256 + i
  let n := r.new.storageKey / 256 + i
  match r.crypt r.old, r.crypt r.new with
  | some a, some b =>
    if a.home = b.home then m.copyLine o n
    else (m.clear (256 * n) 256).writeList (256 * n)
      (xtsEncrypt (cryptKey s b) (b.tweak n) (xtsDecrypt (cryptKey s a) (a.tweak o) (m.readList (256 * o) 256)))
  | _, _ => m.copyLine o n

/-- What a section keeps by address follows a moved line: buffered writes, watches, and the images of overlapping
copies. -/
def Section.moveLine (pkg : Nat) (copy : Memory → Memory) (k : Section) (o n : Nat) : Section :=
  { k with heatBuf := k.heatBuf.map fun e => (e.1.moved pkg o n, e.2)
           heatLines := k.heatLines.map fun e => if e.1 = o then (n, e.2) else e
           watches := k.watches.map fun w => (w.1, if w.2.line = o then { w.2 with line := n } else w.2)
           transfers := k.transfers.map fun t => { t with snap := t.snap.map fun p =>
             (copy p.1, p.2.map fun e => (e.1.moved pkg o n, e.2)) } }

/-- One line moves with its marker, and its old home keeps a forward marker (R326). -/
def State.moveLine (s : State) (copy : Memory → Memory) (o n : Nat) : State :=
  { s with mem := copy s.mem
           poison := (if s.poison.contains o then [n] else []) ++ s.poison.filter fun l => l != o && l != n
           weak := (s.weak.filter fun e => e.1 != n).map fun e => if e.1 = o then (n, e.2) else e
           forwards := (o, n) :: (s.forwards.filter fun f => f.1 != n && f.1 != o).map fun f => (f.1, if f.2 = o then n else f.2)
           sections := s.sections.map fun e => (e.1, e.2.moveLine s.pkg copy o n) }

/-- The next line of a relocation: before the first the frames of the new storage take its ρ, and after the last the
service core writes NEW into the map, with the block's DMG as it then is (R326, R329, R335). -/
def relocateLine (s : State) (die : Nat) (r : Relocation) : State :=
  let o := r.old.storageKey
  let n := r.new.storageKey
  let s := if r.moved = 0 ∧ 65536 ≤ r.new.bytes then s.placeRho n r.new.bytes (min 6 (bits (r.word 2) 36 4)) else s
  let own := r.holder s
  let s := s.moveLine (r.copy s r.moved) (o / 256 + r.moved) (n / 256 + r.moved)
  if r.moved + 1 < r.old.bytes / 256 then s.setRelocation die r { r with status := 2, moved := r.moved + 1 }
  else
    let s := s.setRelocation die r { r with status := 3, moved := r.moved + 1 }
    match own with
    | some (_, k) => s.changeEntry k r.blk { r.new with dmg := (pendingEntry s k r.blk).dmg }
    | none => s

/-- A descriptor that moves nothing ends with STATUS 4; what is read with a reserved field set is logged (R7, R325). -/
def State.failRelocation (s : State) (die : Nat) (r : Relocation) : State :=
  { s.setRelocation die r { r with status := 4 } with
    reservedReads := s.reservedReads ++ (if r.reserved then [.descriptor die] else [])
      ++ if r.mapReserved s then [.table die r.obj] else [] }

def execRelocationLine (die : Nat) (s : State) : Host.Outcome State Fault Refusal :=
  .next (match moving s die with
    | some r => if r.status = 1 ∧ r.fails s then s.failRelocation die r else relocateLine s die r
    | none => s)

/-- A flipped relocation whose new entry is in force: the map does not name the old storage any more. -/
def releasable (s : State) (die : Nat) : Option Relocation :=
  (s.die die).queue.find? fun r => r.status == 3 && (r.holder s).isNone

/-- STATUS := 5: the forward markers of the old storage go, and the storage is freed (R326). -/
def execRelocationRelease (die : Nat) (s : State) : Host.Outcome State Fault Refusal :=
  .next (match releasable s die with
    | none => s
    | some r =>
      let o := r.old.storageKey
      let s := s.setRelocation die r { r with status := 5 }
      let s := { s with forwards := s.forwards.filter fun f => 256 * f.1 < o || o + r.old.bytes ≤ 256 * f.1 }
      s.freeStorage o)

/-- A write of a frame's LRHO (R335): 7 is ignored. The re-placement of the frame's lines changes no value. -/
def execLrhoWrite (die frame : Nat) (v : BitVec 4) (s : State) : Host.Outcome State Fault Refusal :=
  .next (if v.toNat % 8 = 7 ∨ 2621440 ≤ frame then s else s.setRho die frame (v.setWidth 3))

/-! ### Damaged blocks and retired frames (R329, R377) -/

/-- Every entry that names the storage of a block: the object's own and its aliases' (R344). -/
def entriesOf (s : State) (e : ResEntry) : List (ObjRec × Nat) :=
  s.contexts.flatMap fun c => (c.2.gens.map (·.1)).dedup.flatMap fun n => match objRecord s c.2 n with
    | .ok (some o) => (List.range o.blocks).filterMap fun b =>
        let f := entryAt s o b
        if f.valid && f.base == e.base && (f.tier == 2) == (e.tier == 2) then some (o, b) else none
    | _ => []

/-- DMG of a block is written, in its entry and its aliases' together (R344). -/
def State.writeDamage (s : State) (o : ObjRec) (b : Nat) (dmg : Bool) : State :=
  (entriesOf s (entryAt s o b)).foldl (fun s p =>
    if (entryAt s p.1 p.2).dmg = dmg then s else s.changeEntry p.1 p.2 { entryAt s p.1 p.2 with dmg }) s

/-- The firmware sets DMG of a block in which a marker was set (R329). -/
def State.damageBlock (s : State) (c obj : Nat) (o : ObjRec) (b : Nat) : State :=
  if !(entryAt s o b).valid then s
  else { s.writeDamage o b true with
    damaged := if s.damaged.contains (c, obj, b) then s.damaged else (c, obj, b) :: s.damaged }

/-- The block of an object that a byte offset lies in, with the object's record. -/
def blockAt (s : State) (c obj off : Nat) : Option (ObjRec × Nat) :=
  match objRecord s (s.context c) obj with
  | .ok (some o) => if o.malformed then none else (coordsOf o off).map fun k => (o, blockIndex o k.1)
  | _ => none

/-- A change of a block's entry is under way. -/
def entryChanging (s : State) (o : ObjRec) (b : Nat) : Bool := changing s (o.map * 8 + 8 * b)

/-- The first marker that the firmware can handle now. -/
def markDue (s : State) : Option (Nat × Nat × Nat) :=
  s.marks.find? fun m => match blockAt s (ctxOf s m.1) m.2.1 m.2.2 with
    | some (o, b) => !entryChanging s o b
    | none => true

/-- Cycles of 24 hours at 1 GHz (R6). -/
def dayCycles : Nat := 86400000000000

/-- Blocks stored in a frame, with context, object, record and block number. -/
def blocksIn (s : State) (frame : Nat) : List (Nat × Nat × ObjRec × Nat) :=
  s.contexts.flatMap fun c => (c.2.gens.map (·.1)).dedup.flatMap fun n => match objRecord s c.2 n with
    | .ok (some o) => (List.range o.blocks).filterMap fun b =>
        let f := entryAt s o b
        let k := f.base * 4096
        if f.valid && decide (f.tier < 2) && decide (k < (frame + 1) * 65536) && decide (frame * 65536 < k + f.bytes) then
          some (c.1, n, o, b)
        else none
    | _ => []

/-- A block is to move to new storage of a tier. -/
def State.moveBlock (s : State) (c obj : Nat) (o : ObjRec) (b tier : Nat) : Option State :=
  let e := pendingEntry s o b
  match s.allocate tier o.storage with
  | none => none
  | some (key, s) =>
    let new : ResEntry := { e with tier, base := (if tier = 2 then key - hostBase else key) / 4096 }
    some (s.queueRelocation (baseDieOf (e.base * 4096))
      [BitVec.ofNat 64 e.toNat, BitVec.ofNat 64 new.toNat,
       BitVec.ofNat 64 (obj + o.logRho * 2 ^ 36 + (keySlot (s.context c) o) % 256 * 2 ^ 40 + (if o.enc then 2 ^ 48 else 0)),
       BitVec.ofNat 64 b, 0, 0, 0, 0])

/-- A frame in which two markers were set within 24 hours is retired: its blocks are relocated, and the frame is given
out no more (R377). -/
def State.retireFrame (s : State) (frame : Nat) : State :=
  let times := (s.frameMarks.filter fun m => m.1 == frame && decide (s.cycle ≤ m.2 + dayCycles)).length
  if times < 2 || s.pmc.retired.contains frame then s
  else
    let s := s.setPmc { s.pmc with retired := frame :: s.pmc.retired }
    let u := lineUnit s.pkg (256 * frame)
    let s := s.logPackage { cls := 0x10, ukind := u.1, unit := u.2.1, paddr := frame * 65536 % 2 ^ 46 }
    (blocksIn s frame).foldl (fun s k => (s.moveBlock k.1 k.2.1 k.2.2.1 k.2.2.2 (entryAt s k.2.2.1 k.2.2.2).tier).getD s) s

/-- Frames in which markers were set that are not retired yet. -/
def framesDue (s : State) : List Nat :=
  (s.frameMarks.map (·.1)).dedup.filter fun f => !s.pmc.retired.contains f
    && decide (2 ≤ (s.frameMarks.filter fun m => m.1 == f && decide (s.cycle ≤ m.2 + dayCycles)).length)

/-- The firmware handles the log record of a marker: DMG of its block, and frames with two markers (R329, R377). -/
def State.handleMark (s : State) : State :=
  match markDue s with
  | none => (framesDue s).foldl State.retireFrame s
  | some m =>
    let s := { s with marks := s.marks.erase m }
    match blockAt s (ctxOf s m.1) m.2.1 m.2.2 with
    | some (o, b) => s.damageBlock (ctxOf s m.1) m.2.1 o b
    | none => s

/-- A line of a block's storage is marked. -/
def blockMarked (s : State) (e : ResEntry) : Bool :=
  s.poison.any fun l => decide (e.storageKey ≤ 256 * l) && decide (256 * l < e.storageKey + e.bytes)

/-- A damaged block with no marked line and no change under way, or one that is gone. -/
def mendDue (s : State) : Option (Nat × Nat × Nat) :=
  s.damaged.find? fun d => match objRecord s (s.context d.1) d.2.1 with
    | .ok (some o) => !(entryAt s o d.2.2).valid
        || ((entryAt s o d.2.2).dmg && !entryChanging s o d.2.2 && !blockMarked s (entryAt s o d.2.2)
          && !(s.forwards.any fun f => decide ((entryAt s o d.2.2).storageKey ≤ 256 * f.1)
            && decide (256 * f.1 < (entryAt s o d.2.2).storageKey + (entryAt s o d.2.2).bytes)))
    | _ => true

/-- The firmware clears DMG once no line of the block is marked (R332). -/
def State.mendBlock (s : State) : State :=
  match mendDue s with
  | none => s
  | some d =>
    let s := { s with damaged := s.damaged.erase d }
    match objRecord s (s.context d.1) d.2.1 with
    | .ok (some o) => if (entryAt s o d.2.2).valid then s.writeDamage o d.2.2 false else s
    | _ => s

/-- The byte of a thread's own request that got no response: it lies beyond the package, and the request was late or its
destination is lost (R392). -/
def lateLoad (s : State) (t : Nat) : Option Loc :=
  let k := s.thread t
  let c := ctxOf s k.gang
  k.miss.bind fun m => (blockAt s c m.obj m.off).bind fun p =>
    let e := entryAt s p.1 p.2
    if 2 ≤ e.tier ∧ (k.late ∨ e.lost s) then
      (coordsOf p.1 m.off).map fun x => byteLoc p.1 (keySlot (s.context c) p.1) m.obj x m.off e
    else none

/-- The firmware's part of a poison fault: the consumption is logged with its rank, object and offset (R379), and so is a
request that got no response (R376). -/
def State.handlePoison (s : State) (t : Nat) : State :=
  let k := s.thread t
  if k.cause ≠ 0x0B then s
  else
    let s := match lateLoad s t with
      | some l => s.logTimeout t l
      | none => s
    (s.setThread t { s.thread t with late := false }).logIn (sectionOf t)
      { cls := 0x08, ukind := 0, unit := coreOf t, detail := 0x0B, rank := some k.rank, obj := (k.miss.map (·.obj)).getD 0,
        off := k.faddr.toNat }

/-! ### Rebuilding a record (R324) -/

/-- The threads of a context's gangs that have taken a check-tag fault on an object and are in a given state. -/
def tagFaulted (s : State) (c obj : Nat) (run : RunState) : List Nat :=
  s.tids.filter fun t =>
    let k := s.thread t
    !isService t && k.run == run && k.cause == 0x08 && ctxOf s k.gang == c && k.miss.any fun m => m.obj == obj

/-- The next store of a record's sequence can be made: the last one is in force. The sequence is over once every thread that has
taken a check-tag fault in the meantime is in service. -/
def rebuildDue (s : State) : Option Rebuild :=
  s.rebuilds.find? fun r => !changing s (recordAddr (s.context r.ctx).ortb r.obj)
    && (decide (r.stores < 3) || (tagFaulted s r.ctx r.obj .trapped).isEmpty)

/-- A record is rebuilt in the order of R324: word 0 with V = 0, the other words, word 0 as it is to be; then the threads
whose uses took a check-tag fault in the meantime go on. -/
def State.rebuildStep (s : State) (r : Rebuild) : State :=
  let addr := recordAddr (s.context r.ctx).ortb r.obj
  let s := { s with rebuilds := s.rebuilds.erase r }
  let more := fun (s : State) => { s with rebuilds := { r with stores := r.stores + 1 } :: s.rebuilds }
  match r.stores with
  | 0 =>
    let w := s.mem.readNat addr 8
    more (s.changeBytes addr (leBytes 8 (w - (if w.testBit 31 then 2 ^ 31 else 0))))
  | 1 => more (s.changeBytes (addr + 8) ((leBytes 128 r.record).drop 8))
  | 2 => more (s.changeBytes addr (leBytes 8 r.record))
  | _ => (tagFaulted s r.ctx r.obj .service).foldl State.restart s

/-! ### Ownership of host-shared regions (R337, R338) -/

/-- An access by the side that does not own a region. -/
def execTransferTransaction (region : Nat) (toHost : Bool) (s : State) : Host.Outcome State Fault Refusal :=
  .next (s.startTransfer region toHost none)

/-- The entries that a transfer to the host waits for: those that name the region and retired before BUSY was set. -/
def namesRegion (r : Nat) (e : HeldEffect) : Bool :=
  let here := fun (l : Loc) => l.key / 2 ^ 21 == r
  match e with
  | .store us => us.any fun u => u.any fun c => here c.loc
  | .amo _ ls _ _ _ _ => ls.any here
  | e => e.loads.any here

def regionDrained (s : State) (r bound : Nat) : Bool :=
  s.cores.all fun c => c.2.hold.all fun e => decide (bound ≤ e.seq) || !namesRegion r e.effect

/-- A transfer whose steps are done; one of a region in the memory of a lost host waits (R392). -/
def transferDone (s : State) (r : Nat) : Bool :=
  match s.regions.get? r with
  | some g => g.busy && !s.rerouting.contains r && !s.lost.contains (nodeOf (2 ^ 21 * r)) && (!g.toHost || regionDrained s r g.bound)
  | none => false

/-- The object, the offset in it and the encryption of a byte of a block's storage, for a party that names it by its physical
address: the first block whose storage holds it. -/
def storedLoc (s : State) (key : Nat) : Loc :=
  let hit := (blocksIn s (key / 65536)).find? fun k =>
    let e := entryAt s k.2.2.1 k.2.2.2
    decide (e.storageKey ≤ key) && decide (key < e.storageKey + e.bytes)
  match hit with
  | none => { key, crypt := none, dmg := false, space := 0, obj := 0, off := 0 }
  | some (c, n, o, b) =>
    let e := entryAt s o b
    let coords := (digits ((List.range o.d).map fun i =>
      let t := o.inUnits o.tile i; (o.inUnits o.ext i + t - 1) / t) b).1
    { key, dmg := e.dmg, space := 0, obj := n, off := (offsetIn o coords (key - e.storageKey)).getD 0
      crypt := if o.enc then some { home := none, slot := keySlot (s.context c) o, obj := n, block := b, base := e.storageKey }
        else none }

/-- The blocks stored over a line, as the firmware's frame table names them. -/
def blocksOver (s : State) (line : Nat) : List (Nat × Nat × ObjRec × Nat) :=
  (blocksIn s (line / 256)).filter fun k =>
    let e := entryAt s k.2.2.1 k.2.2.2
    decide (e.storageKey ≤ 256 * line) && decide (256 * line < e.storageKey + e.bytes)

/-- Lines that their home reads again for a host or another package; the firmware sets DMG of the blocks in which a marker was
set (R329, R377). -/
def State.rereadBlocks (s : State) (ls : List Loc) : State :=
  let lasting := ls.filter fun l => s.weak.contains (l.key / 256, true)
  let s := s.rereadHome (ls.map fun l => { l with space := 15 })
  lasting.foldl (fun s l => (blocksOver s (l.key / 256)).foldl (fun s k => s.damageBlock k.1 k.2.1 k.2.2.1 k.2.2.2) s) s

/-- A host access to a region that the host owns is performed; a write is traced under the object's offset (R295). A marked
line is answered with an error and not written: the manual does not say what a host sees of it. -/
def State.hostPerform (s : State) (addr : Nat) (o : HostOp) : State :=
  let n := match o with
    | .read n => n
    | .write bs => bs.length
  let ls := (List.range n).map fun i => forwardLoc s (storedLoc s (addr + i))
  let s := match o with
    | .read _ => s.rereadBlocks (weakLines s ls)
    | .write _ => s
  let answer := fun (s : State) (a : HostReply) => { s with hostReplies := s.hostReplies ++ [a] }
  if ls.any fun l => s.poison.contains (l.key / 256) then answer s .error
  else match o with
    | .read _ => answer s (.done (ls.map (storedByte s)))
    | .write bs => answer ((s.storeCells (wbytes ls bs)).traceWrite 0 none ls) (.done [])

/-- The host accesses that waited for a region are performed. -/
def State.hostServe (s : State) (region : Nat) : State :=
  let mine := s.hostWaits.filter fun w => w.1 / 2 ^ 21 == region
  let s := { s with hostWaits := s.hostWaits.filter fun w => w.1 / 2 ^ 21 != region }
  mine.foldl (fun s w => s.hostPerform w.1 w.2) s

/-- OWNER flips, BUSY clears, and a host access that waited is performed. -/
def execTransferTransactionDone (region : Nat) (s : State) : Host.Outcome State Fault Refusal :=
  .next (match s.regions.get? region with
    | some g =>
      if transferDone s region then
        let s := { s with regions := s.regions.put region { g with owner := g.toHost, busy := false } }
        if g.toHost then s.hostServe region else s
      else s
    | none => s)

/-- The access that started the last transfer to the device has not been performed yet (R338). -/
def accessOwed (s : State) (g : Region) : Bool :=
  match g.owed with
  | none => false
  | some (w, p) =>
    if w < 8192 then (s.thread w).run == .running && (s.thread w).pc.toNat == p
    else (activeTransfer s ((w - 8192) / 2) ((w - 8192) % 2)).any fun t => t.done == p

end Sys2Proof.Machine
end

