-- ==== Sys2Proof/Machine/Calls.lean ====
section
/-! DEFINITION. System calls and the other faults in service, core moves and fencing (07 R215; 14 R320; 15 R361 to R367;
16 R380, R381). -/

namespace Sys2Proof.Machine

/-! ### Status codes (R363) -/

def stOk : Nat := 0
def stBadSpace : Nat := 1
def stBadRef : Nat := 2
def stNoPerm : Nat := 3
def stNoMem : Nat := 4
def stBusy : Nat := 5
def stGone : Nat := 6

/-! ### Objects made by the firmware (R312, R344, R363) -/

/-- The record of a new object is put in the table, under a free number and a fresh generation, with a residency map of
absent blocks. -/
def State.newRecord (s : State) (c : Nat) (o : ObjRec) : Option (Nat × ObjRec × State) :=
  match s.freeNumber c with
  | none => none
  | some (n, s) => match s.freeGen c n with
    | none => none
    | some (g, s) => match s.allocate 0 (roundStorage (8 * o.blocks)) with
      | none => none
      | some (key, s) =>
        let o := { o with valid := true, gen := g, map := key / 8 }
        let s := s.setMem (s.mem.clear key (roundStorage (8 * o.blocks)))
        some (n, o, s.setRecord c n o)

/-- A new object with every block resident in a tier. -/
def State.createObject (s : State) (c : Nat) (o : ObjRec) (tier : Nat) : Option (Nat × ObjRec × State) :=
  match s.newRecord c o with
  | none => none
  | some (n, o, s) =>
    ((List.range o.blocks).foldlM (fun (s : State) b => s.makeResident c n o b tier) s).map fun s => (n, o, s)

/-- The reference to an object's first byte (R69, R116). -/
def refTo (n : Nat) (o : ObjRec) : Nat :=
  o.gen * 2 ^ 96 + o.blog * 2 ^ 90 + o.sk * 2 ^ 88 + o.type * 2 ^ 84 + n * 2 ^ 44

/-- The record of an object as it stands in the table, present or not. -/
def rawRecord (s : State) (c n : Nat) : ObjRec := ObjRec.ofNat (s.mem.readNat (recordAddr (s.context c).ortb n) 128)

/-- Another alias than object n of context c names a source on this package. -/
def otherAlias (s : State) (c n sc sn : Nat) : Bool :=
  (s.contexts.any fun k => k.2.aliases.any fun a => a.2 == (sc, sn, s.pkg) && !(k.1 == c && a.1 == n)) || s.podAliases.any fun a => a == (sc, sn)

/-- The storage of an object is common to it and its aliases: it becomes free with the last of them, the source among them
(R344). -/
def lastOfStorage (s : State) (c n : Nat) : Bool :=
  match (s.context c).aliases.find? fun a => a.1 == n with
  | none => !shared s c n
  | some (_, sc, sn, pkg) => pkg == s.pkg && absent s sc sn && !otherAlias s c n sc sn

/-- The storage of a freed object's map is free again, and that of its blocks, where no other object names it (R344). -/
def State.freeObject (s : State) (c n : Nat) : State :=
  let o := rawRecord s c n
  let k := s.context c
  let s := if !lastOfStorage s c n then s else (List.range o.blocks).foldl (fun s b =>
    let e := entryAt s o b
    if e.valid then s.freeStorage e.storageKey else s) s
  (s.freeStorage (o.map * 8)).setContext c { k with aliases := k.aliases.filter fun a => a.1 != n }

/-! ### Arguments (R362, R364) -/

def Thread.arg (t : Thread) (i : Nat) : Word := t.rx (Fin.ofNat 32 (10 + i))
def Thread.refArg (t : Thread) : Ref := (t.arg 1 ++ t.arg 0).setWidth 128

/-- Why a call does not go on with an argument: a status, or a wait in a changed state. -/
inductive CallStop where
  | status (n : Nat)
  | wait (s : State)

/-- The status of a failed check (R364). -/
def callStop (s : State) (gang sec : Nat) : Stop → CallStop
  | .trap f => .status (if f.cause = 0x09 then stNoPerm else if f.cause = 0x0A then stNoMem else stBadRef)
  | .region r => .wait (s.startTransfer r false none)
  | .reread ls => .wait (s.reread sec gang none ls)
  | .stall | .claim | .pacer _ | .tiles _ _ => .wait s
  | .machine _ => .status stBadRef

/-- The checks of a reference argument, and the bytes it names with misses serviced (R364). -/
def argBytes (s : State) (gang sec : Nat) (r : Ref) (n : Nat) (acc : Acc) : Except CallStop (List Loc × State) :=
  if refSpace r ≠ 0 then .error (.status stBadSpace)
  else if (refFault r false).isSome then .error (.status stBadRef)
  else
    let w := firmwareWho gang sec
    match openRef s w r acc with
    | .object _ _ =>
      let s := (List.range n).foldl (fun s i => (s.serveMiss gang { obj := refObj r, off := refOff r + i, gen := refTag r }).getD s) s
      let o := openRef s w r acc
      match (List.range n).mapM fun (i : Nat) => accessUnit s w o r (refOff r + i : Nat) 1 1 acc 0 with
      | .ok ls => .ok (ls.flatten, s)
      | .error e => .error (callStop s gang sec e)
    | .bad c => .error (.status (if c = 0x09 then stNoPerm else stBadRef))
    | .broken e => .error (callStop s gang sec e)
    | .space => .error (.status stBadRef)

/-! ### The end of a call -/

/-- The code of a thread's system call that is in service, once the thread's older replies are written. -/
def callOf (s : State) (t : Nat) : Option Nat :=
  let k := s.thread t
  if k.run == .service && k.cause == 0x11 && !outstanding s t s.seq then some (bits k.finfo 0 15) else none

/-- A call returns: status and results go to `x10` and up, and the thread goes on past the call (R223, R362). -/
def State.returnCall (s : State) (t : Nat) (ws : List Word) : State :=
  let k := ((List.range ws.length).zip ws).foldl (fun (k : Thread) e => k.wx (Fin.ofNat 32 (10 + e.1)) e.2) (s.thread t)
  ((s.setThread t { k with inCall := false }).skip t).restart t

/-- What a call comes to: results, or a wait. -/
inductive CallResult where
  | done (s : State) (status : Nat) (results : List Word)
  | wait (s : State)

/-- The calls that a rank's current heat has recorded, and those that a replay returns again. -/
def Gang.callsOf (g : Gang) (rank : Nat) : List (Nat × List Word) := (g.callLog.get? rank).getD []
def Gang.replaysOf (g : Gang) (rank : Nat) : List (Nat × List Word) := (g.callReplay.get? rank).getD []

/-- A call's results are recorded for its rank. -/
def Gang.recordCall (g : Gang) (rank code : Nat) (ws : List Word) : Gang :=
  { g with callLog := g.callLog.put rank (g.callsOf rank ++ [(code, ws)]) }

/-- The results that a rank's next call returns again, if the heat is being replayed. -/
def replayedCall (s : State) (k : Thread) : Option (Nat × List Word) :=
  (s.gangs.get? k.gang).bind fun g => (g.replaysOf k.rank).head?

/-- The object that a waiting call names has another generation, or is gone (R363). -/
def callGone (s : State) (k : Thread) : Bool :=
  k.inCall && refSpace k.refArg == 0 && refTag k.refArg != 0 &&
    (let o := rawRecord s (ctxOf s k.gang) (refObj k.refArg)
     !o.valid || o.gen != refTag k.refArg)

/-- A call that waits has begun. -/
def State.callWaits (s : State) (t : Nat) : State := s.setThread t { s.thread t with inCall := true }

/-- A system call of one code is served. In a replay-mode gang calls 2 to 6 are recorded, and a replay returns the
recorded results (R383). -/
def serveCall (t : Nat) (is : Nat → Bool) (f : State → Thread → CallResult) (s : State) : State :=
  match callOf s t with
  | none => s
  | some code =>
    if !is code then s
    else
      let k := s.thread t
      let keep := heatOf s k.gang && decide (2 ≤ code) && decide (code ≤ 6)
      let note := fun (s : State) (ws : List Word) => match s.gangs.get? k.gang with
        | some g => s.setGang k.gang (g.recordCall k.rank code ws)
        | none => s
      match (if keep then replayedCall s k else none), s.gangs.get? k.gang with
      | some (c, ws), some g =>
        if c = code then
          (note (s.setGang k.gang { g with callReplay := g.callReplay.put k.rank (g.replaysOf k.rank).tail }) ws).returnCall t ws
        else s.returnCall t [BitVec.ofNat 64 stGone]
      | _, _ => match f s k with
        | .wait s => s
        | .done s st ws =>
          let ws := BitVec.ofNat 64 st :: (if st = stOk then ws else [])
          (if keep then note s ws else s).returnCall t ws

/-- A call that only answers a status. -/
def refuseCall (st : Nat) (s : State) (_ : Thread) : CallResult := .done s st []

def execUnassignedSyscall (t : Nat) (s : State) : Host.Outcome State Fault Refusal :=
  .next (serveCall t (fun c => c == 0 || decide (7 ≤ c)) (refuseCall stNoPerm) s)

/-- END (R265, R363). -/
def execEndCall (t : Nat) (s : State) : Host.Outcome State Fault Refusal :=
  .next (if callOf s t = some 1 then s.endThread t false else s)

/-! ### OBJNEW, OBJFREE -/

/-- The template's record: V, GEN and MAP are ignored. -/
def templateOf (bs : List Byte) : ObjRec := { ObjRec.ofNat (leNat bs) with valid := true, gen := 1, map := 0 }

def callObjnew (t : Nat) (s : State) (k : Thread) : CallResult :=
  let r := k.refArg
  let tier := (k.arg 2).toNat
  match argBytes s k.gang (sectionOf t) r 128 .load with
  | .error (.status n) => .done s (if callGone s k then stGone else n) []
  | .error (.wait s) => .wait (s.callWaits t)
  | .ok (ls, s) =>
    let o := templateOf (viewBytes s (firmwareWho k.gang (sectionOf t)) ls)
    if o.malformed || 2 < tier || (tier == 2 && o.enc) then .done s stBadRef []
    else match s.createObject (ctxOf s k.gang) o tier with
      | none => .done s stNoMem []
      | some (n, o, s) => .done s stOk [BitVec.ofNat 64 (refTo n o), BitVec.ofNat 64 (refTo n o / 2 ^ 64)]

def execObjnew (t : Nat) (s : State) : Host.Outcome State Fault Refusal := .next (serveCall t (· == 2) (callObjnew t) s)

/-- A block of an object is being relocated. -/
def relocating (s : State) (c obj : Nat) : Bool :=
  let o := rawRecord s c obj
  s.dies.any fun d => d.2.queue.any fun r => (r.status == 1 || r.status == 2 || r.status == 3) && r.obj == obj
    && (let e := entryAt s o r.blk; e == r.old || e == r.new)

/-- A relocation of a block of an object has begun, and its new entry is not in force yet (R326). -/
def relocationRuns (s : State) (c obj : Nat) : Bool :=
  let o := rawRecord s c obj
  s.dies.any fun d => d.2.queue.any fun r => (r.status == 2 || r.status == 3) && r.obj == obj && entryAt s o r.blk == r.old

/-- OBJFREE: V = 0 is written (R313), and the call ends when that is in force. -/
def callObjfree (t : Nat) (s : State) (k : Thread) : CallResult :=
  let r := k.refArg
  let c := ctxOf s k.gang
  let n := refObj r
  let addr := recordAddr (s.context c).ortb n
  if k.inCall then
    if changing s addr then .wait s
    else if (rawRecord s c n).gen ≠ refTag r then .done s stGone []
    else .done (s.freeObject c n) stOk []
  else if refSpace r = 0 ∧ changing s addr then .wait s
  else match argBytes s k.gang (sectionOf t) r 0 .probe with
    | .error (.status st) => .done s st []
    | .error (.wait s) => .wait s
    | .ok (_, s) =>
      if relocating s c n || shared s c n then .done s stBusy []
      else
        let word0 := s.mem.readNat addr 8
        .wait ((s.changeBytes addr (leBytes 8 (word0 - (if word0.testBit 31 then 2 ^ 31 else 0)))).setThread t
          { k with inCall := true })

def execObjfree (t : Nat) (s : State) : Host.Outcome State Fault Refusal := .next (serveCall t (· == 3) (callObjfree t) s)

/-! ### RESIDE -/

/-- The blocks that a range covers, if every byte of it lies in the shape. -/
def coveredBlocks (o : ObjRec) (off n : Nat) : Option (List Nat) :=
  ((List.range n).mapM fun i => (coordsOf o (off + i)).map fun c => blockIndex o c.1).map List.dedup

/-- What RESIDE does for one block: nothing left, a wait, or a status. -/
def resideBlock (s : State) (c obj : Nat) (o : ObjRec) (tier b : Nat) : CallResult :=
  let e := entryAt s o b
  if changing s (o.map * 8 + 8 * b) then .wait s
  else if e.valid && e.tier == tier then .done s stOk []
  else if !e.valid && e.lost s then .done s stNoMem []
  else if !e.valid then
    match s.makeResident c obj o b tier with
    | some s => .done s stOk []
    | none => .done s stNoMem []
  else if s.dies.any fun d => d.2.queue.any fun r => (r.status == 1 || r.status == 2 || r.status == 3) && r.obj == obj && r.old == e then
    .wait s
  else if pinned s c obj then .done s stNoMem []
  else if sharedStorage s e.storageKey o.storage then .done s stNoMem []
  else match s.moveBlock c obj o b tier with
    | some s => .wait s
    | none => .done s stNoMem []

/-- The blocks of a range, one after another: the first status other than OK ends the call, and a block that waits makes the
call wait. -/
def resideBlocks (c obj : Nat) (o : ObjRec) (tier : Nat) : List Nat → Bool → State → CallResult
  | [], waits, s => if waits then .wait s else .done s stOk []
  | b :: bs, waits, s => match resideBlock s c obj o tier b with
    | .done s st ws => if st = stOk then resideBlocks c obj o tier bs waits s else .done s st ws
    | .wait s => resideBlocks c obj o tier bs true s

def callReside (t : Nat) (s : State) (k : Thread) : CallResult :=
  let r := k.refArg
  let n := (k.arg 2).toNat
  let tier := (k.arg 3).toNat
  let c := ctxOf s k.gang
  match argBytes s k.gang (sectionOf t) r 0 .probe with
  | .error (.status st) => .done s (if callGone s k then stGone else st) []
  | .error (.wait s) => .wait (s.callWaits t)
  | .ok (_, s) =>
    match objRecord s (s.context c) (refObj r) with
    | .ok (some o) =>
      if 2 < tier then .done s stBadRef []
      else if n = 0 then .done s stOk []
      else if 2 ^ 44 < n then .done s stBadRef []
      else match coveredBlocks o (refOff r) n with
        | none => .done s stBadRef []
        | some bs =>
          if tier = 2 ∧ o.enc then .done s stBadRef []
          else match resideBlocks c (refObj r) o tier bs false s with
            | .wait s => .wait (s.callWaits t)
            | .done s' st ws => if st = stOk then .done s' st ws else .done s st ws   -- nothing is written (R364)
    | _ => .done s stBadRef []

def execReside (t : Nat) (s : State) : Host.Outcome State Fault Refusal := .next (serveCall t (· == 4) (callReside t) s)

/-! ### WATCH, TRACE (R295) -/

def callWatch (t : Nat) (s : State) (k : Thread) : CallResult :=
  let r := k.refArg
  let sec := sectionOf t
  match argBytes s k.gang sec r 1 .probe with
  | .error (.status st) => .done s (if callGone s k then stGone else st) []
  | .error (.wait s) => .wait (s.callWaits t)
  | .ok (ls, s) =>
    let i := bits (k.arg 2) 0 3
    let sct := s.sect sec
    if refOff r % 256 ≠ 0 then .done s stBadRef []
    else if (sct.watches.get? i).any fun w => w.gang != k.gang then .done s stBusy []
    else
      let line := ((ls.map fun l => (forwardLoc s l).key / 256).headD 0)
      let ws := if bitAt (k.arg 2) 8 then sct.watches.put i { gang := k.gang, line } else sct.watches.drop i
      .done (s.setSect sec { sct with watches := ws }) stOk []

def execWatch (t : Nat) (s : State) : Host.Outcome State Fault Refusal := .next (serveCall t (· == 5) (callWatch t) s)

def callTrace (t : Nat) (s : State) (k : Thread) : CallResult :=
  let sec := sectionOf t
  match argBytes s k.gang sec k.refArg 65536 .store with
  | .error (.status st) => .done s (if callGone s k then stGone else st) []
  | .error (.wait s) => .wait (s.callWaits t)
  | .ok (ls, s) =>
    if ls.any (marked s) then .done s stBadRef []
    else
      let recs := (s.sect sec).trace.reverse
      let cells := wbytes ls (recs.flatMap fun r => leBytes 16 r.toNat)
      let units := (List.range (2 * recs.length)).map fun i => (cells.drop (8 * i)).take 8
      .done (performWrite s k.gang sec (quadOf t) none 0 units) stOk [BitVec.ofNat 64 recs.length]

def execTrace (t : Nat) (s : State) : Host.Outcome State Fault Refusal := .next (serveCall t (· == 6) (callTrace t) s)

/-! ### Residency faults and unserviceable ones (R320, R365, R368) -/

/-- A residency fault is serviced: the thread runs its instruction again; without storage it is unserviceable. -/
def execResidencyFaultService (t : Nat) (s : State) : Host.Outcome State Fault Refusal :=
  let k := s.thread t
  .next (if k.run == .service && k.cause == 0x0A then
      match k.miss with
      | none => s.restart t
      | some m => match s.serveMiss k.gang m with
        | some s => s.restart t
        | none => s.unserviceable t
    else s)

/-- The defined halt groups of a gang that a rank is a member of (R368). -/
def Gang.groupsOf (g : Gang) (rank : Nat) : List Nat :=
  (g.groups.filter fun e => e.1 != 0 && HaltGroup.has e.1 e.2 rank).map (·.1)

/-- The halt report that the host gets, whose content the manual does not give (R368). -/
def State.haltReport (s : State) : State :=
  { s with hostOut := s.hostOut ++ [{ header := headerWord 0 0 0 noRank,
                                      words := (List.range 8).map fun i => Config.freeValue (s.fresh + i) }]
           fresh := s.fresh + 8 }

/-- A breakpoint or step in a gang with a defined group halts the thread's groups, or group 0 when it is in none, and the
host is told; the thread stays suspended, past a breakpoint (R223, R368). -/
def State.debugHalt (s : State) (t : Nat) (g : Gang) : State :=
  let k := s.thread t
  let own := g.groupsOf k.rank
  let s := (if own.isEmpty then [0] else own).foldl (fun s n => s.haltGroup k.gang n) s
  ((if k.cause = 0x0F then s.skip t else s).restart t).haltReport

/-- A gang has an F-die core (R367). -/
def Gang.hasFdie (g : Gang) : Bool := g.cores.any fdieCore

/-- The causes that a service core cannot resolve, for a thread in service (R365); a poison or lasting fault that a replay
answers is not among them (R387), nor a check-tag fault on an object whose record is being rebuilt (R324). -/
def cannotServe (s : State) (t : Nat) : Bool :=
  let k := s.thread t
  k.run == .service && !isService t &&
    (match k.cause with
    | 0x0A | 0x11 => false
    | 0x03 => !(!fdieCore (coreOf t) && (s.gangs.get? k.gang).any Gang.hasFdie)
    | 0x0B => !canReplay s k.gang
    | 0x08 => !s.rebuilds.any fun r => r.ctx == ctxOf s k.gang && k.miss.any fun m => m.obj == r.obj
    | 0x13 => false
    | _ => true)

def execUnserviceableFault (t : Nat) (s : State) : Host.Outcome State Fault Refusal :=
  let k := s.thread t
  .next (if !cannotServe s t then s
    else match s.gangs.get? k.gang with
      | some g =>
        if (k.cause == 0x0F || k.cause == 0x10) && g.groups.any (fun e => e.1 != 0) then s.debugHalt t g
        else (s.handlePoison t).unserviceable t
      | none => s.unserviceable t)

/-! ### Core moves (R261, R366) -/

/-- Both contexts of a core are free and none is being started. -/
def coreFree (s : State) (c : Nat) : Bool :=
  (s.thread (2 * c)).free && (s.thread (2 * c + 1)).free && (s.core c).starting.isEmpty

/-- A core that can take the occupancy of another: of the same gang, free, not fenced, and in no other move. -/
def moveTargets (s : State) (g : Gang) (src : Nat) : List Nat :=
  g.cores.filter fun c => c != src && coreFree s c && !fencedCore s c && !g.moves.any fun m => m.2 == c || m.1 == c

/-- A move begins: both contexts stop, and their endpoints are left. -/
def State.beginMove (s : State) (gang : Nat) (g : Gang) (src dst : Nat) : State :=
  let s := s.setGang gang { g with moves := g.moves ++ [(src, dst)] }
  [2 * src, 2 * src + 1].foldl (fun s t => if (s.thread t).free then s else (s.stopThread t).leaveRings t) s

/-- A thread's record in another context: its tiles take physical tiles there, and nothing in flight comes with it. -/
def State.place (s : State) (t : Nat) (k : Thread) : Option State :=
  let s := s.setThread t { k with t := Vector.replicate 16 none, arrivals := [], events := [], relMark := none }
  s.placeTiles t (k.t.toList.map fun o => o.map fun i => { data := i.data, scale := i.scale, tag := i.tag })

/-- Local memory of a core copied to another, with its markers and the heat journal's old bytes. -/
def State.copyLocal (s : State) (gang src dst : Nat) : State :=
  let n := directBytes s src
  let a := localBase src
  let b := localBase dst
  let s := { s with
    mem := (s.mem.clear b n).writeList b (s.mem.readList a n)
    poison := ((s.poison.filter fun l => decide (a ≤ 256 * l) && decide (256 * l < a + n)).map fun l => l + b / 256 - a / 256)
      ++ s.poison.filter fun l => decide (256 * l < b) || decide (b + n ≤ 256 * l) }
  match s.gangs.get? gang with
  | none => s
  | some g => s.setGang gang { g with heatOld := g.heatOld.map fun e =>
      if a ≤ e.key ∧ e.key < a + n then { e with key := e.key + b - a } else e }

/-- A held `xsend` to the position of a moved core is written at the core that has the position now (R261). -/
def HeldEffect.afterMove (src dst : Nat) : HeldEffect → HeldEffect
  | .xsend dest data =>
    let shift := fun (k a b : Nat) => if localBase a ≤ k ∧ k < localBase a + 2 ^ 18 then some (k - localBase a + localBase b) else none
    .xsend (dest.map fun l => { l with key := ((shift l.key src dst).or (shift l.key dst src)).getD l.key }) data
  | e => e

/-- The sends of a gang's cores follow a core move. -/
def State.redirectSends (s : State) (g : Gang) (src dst : Nat) : State :=
  g.cores.foldl (fun s c => s.setCore c { s.core c with
    hold := (s.core c).hold.map fun e => { e with effect := e.effect.afterMove src dst } }) s

/-- A task takes its place among others in the order of age. -/
def insertByAge (t : Task) : List Task → List Task
  | [] => [t]
  | u :: us => if t.age < u.age then t :: u :: us else u :: insertByAge t us

/-- The entry whose FEAT a feature trap sets: the task's, or the one the thread started at. -/
def featEntry (k : Thread) : Nat := (k.task.map (·.entry)).getD k.entry

/-- FEAT bit 0 of an entry is set, and its queued tasks move to the lowest-numbered F-die queue, oldest first, where they keep
their relative age (R367). -/
def Gang.setFeat (g : Gang) (ent : Nat) : Gang :=
  let entries := g.entries.set ent ((g.entries.getD ent 0) ||| 0x1000000000000)
  let fd := (least (fun _ => true) ((g.cores.filter fdieCore).map dieOfCore)).getD 0
  let mine := fun (t : Task) => taskEntry t.control == ent
  let moved := (g.queues.filter fun e => e.1 != fd).flatMap fun e => (e.2.tasks.filter mine).map fun t =>
    { t with feat := t.feat ||| 1, scope := widest t.scope .package }
  let marked' := fun (t : Task) => if mine t then { t with feat := t.feat ||| 1 } else t
  let queues := g.queues.map fun e =>
    (e.1, { e.2 with tasks := if e.1 = fd then e.2.tasks.map marked' else e.2.tasks.filter fun t => !mine t })
  let g := { g with entries, queues }
  let q := g.queue fd
  if moved.isEmpty then g else { g with queues := g.queues.put fd { q with tasks := moved.foldl (fun l t => insertByAge t l) q.tasks } }

/-- The occupancy of `src` goes to `dst`, and the two exchange gang positions; the threads go on (R366), and those that a
feature trap stopped set their entries' FEAT (R367). -/
def State.finishMove (s : State) (gang : Nat) (g : Gang) (src dst : Nat) : Option State :=
  let olds := [0, 1].map fun i => s.thread (2 * src + i)
  let frees := [0, 1].map fun i => s.thread (2 * dst + i)
  let s := (s.copyLocal gang src dst).notePools (quadOfCore src)
  let s := [0, 1].foldl (fun s i =>
    let k := frees.getD i Thread.zero
    (s.setThread (2 * src + i) { k with t := Vector.replicate 16 none }).pin (2 * src + i)) s
  match [0, 1].foldlM (fun (s : State) i => s.place (2 * dst + i) (olds.getD i Thread.zero)) s with
  | none => none
  | some s =>
    let g' := (s.gangs.get? gang).getD g
    let s := s.setGang gang { g' with
      moves := g'.moves.filter fun m => m != (src, dst)
      cores := g'.cores.map fun c => if c = src then dst else if c = dst then src else c }
    let s := s.redirectSends g' src dst
    some ([2 * dst, 2 * dst + 1].foldl (fun s t =>
      let k := s.thread t
      if k.run = .service ∧ k.cause = 0x03 then
        match s.gangs.get? gang with
        | some g => (s.setGang gang (g.setFeat (featEntry k))).restart t
        | none => s.restart t
      else if k.run = .service ∧ k.cause = 0x13 then s.restart t
      else (s.letRun t).pin t) s)

/-- A core move of a gang: it begins, or ends once both contexts are final. -/
def coreMoveStep (s : State) (src dst : Nat) : State :=
  match s.gangs.find? fun e => e.2.resident && e.2.cores.contains src && e.2.cores.contains dst with
  | none => s
  | some (n, g) =>
    if g.moves.contains (src, dst) then
      if contextFinal s (2 * src) && contextFinal s (2 * src + 1) && coreFree s dst && (s.core src).starting.isEmpty then
        (s.finishMove n g src dst).getD s
      else s
    else if (moveTargets s g src).contains dst then s.beginMove n g src dst
    else s

def execCoreMove (src dst : Nat) (s : State) : Host.Outcome State Fault Refusal := .next (coreMoveStep s src dst)

/-! ### Feature traps (R367) -/

/-- A feature trap waits for an F-die core of its gang that can take its core's occupancy. -/
def featureTarget (s : State) (t : Nat) : Option (Nat × Gang × Nat) :=
  let k := s.thread t
  if k.run == .service && k.cause == 0x03 && !fdieCore (coreOf t) then
    match s.gangs.get? k.gang with
    | none => none
    | some g =>
      if (g.moves.any fun m => m.1 == coreOf t) then none
      else (((moveTargets s g (coreOf t)).filter fdieCore).head?).map (fun d => (k.gang, g, d))
  else none

/-- The other context of a core. -/
def sibling (t : Nat) : Nat := if slotOf t = 0 then t + 1 else t - 1

/-- A feature trap that no free core can take yet, while the core's other context still runs: it stops too (R366). -/
def featureStops (s : State) (t : Nat) : Bool :=
  let k := s.thread t
  k.run == .service && k.cause == 0x03 && !fdieCore (coreOf t) && (featureTarget s t).isNone
    && (s.gangs.get? k.gang).any (fun g => g.hasFdie && !g.moves.any fun m => m.1 == coreOf t)
    && (s.thread (sibling t)).run == .running

def execFeatureTrap (t : Nat) (s : State) : Host.Outcome State Fault Refusal :=
  .next (match featureTarget s t with
    | none => if featureStops s t then s.stopThread (sibling t) else s
    | some (n, g, d) => s.beginMove n (g.setFeat (featEntry (s.thread t))) (coreOf t) d)

/-! ### Fencing (R243, R380, R381) -/

/-- A gang starts to be switched out: its threads stop, and no more start (R357). -/
def State.beginSwitch (s : State) (gang : Nat) : State :=
  match s.gangs.get? gang with
  | none => s
  | some g =>
    if !g.resident || g.switching then s
    else
      let clock := (g.cores.head?).bind fun c => phaseClock s c ((g.slots.map (·.period)).getD 0)
      let s := s.setGang gang { g with switching := true, stoppedClock := clock }
      (g.tids.foldl State.stopThread s).pauseCopies gang

/-- The occupied fenced cores of a gang that no move takes care of. -/
def strandedCores (s : State) (g : Gang) : List Nat :=
  if !g.resident || g.switching then []
  else g.cores.filter fun c => fencedCore s c && !coreFree s c && !g.moves.any fun m => m.1 == c

/-- The thread of a gang's fenced cores whose lasting checker fault is being dealt with (R243, R381). -/
def checkerFaulted (s : State) (g : Gang) : Option Nat :=
  ((g.cores.filter (fencedCore s)).flatMap fun c => [2 * c, 2 * c + 1]).find? fun t =>
    ((s.thread t).run == .service || (s.thread t).run == .trapped) && (s.thread t).cause == 0x13

/-- The threads of a gang's fenced cores move to free cores of the gang; when one finds none, the gang is switched out, in
replay mode after a replay of its heat, which the thread with the checker fault triggers (R381, R387). -/
def State.moveStranded (s : State) (gang : Nat) : State :=
  match s.gangs.get? gang with
  | none => s
  | some g =>
    (strandedCores s g).foldl (fun s c => match s.gangs.get? gang with
      | none => s
      | some g =>
        if g.switching then s
        else match moveTargets s g c with
          | d :: _ => s.beginMove gang g c d
          | [] =>
            let s := match checkerFaulted s g with
              | none => if canReplay s gang then s.setGang gang { g with trigger := some (s.thread (2 * c)).rank } else s
              | some t =>
                if canReplay s gang then s.setGang gang { g with trigger := some (s.thread t).rank }
                else if g.heatMode then s.unserviceable t else s
            s.beginSwitch gang) s

/-- The unit's bit, and the number that the host's notification gives. -/
def faultBits : FaultUnit → (Nat × Nat) × Option Nat
  | .core n => ((0, n), some n)
  | .engine n => ((2, n / 2), some (0x10000 + n / 2))
  | .copyEngine sec eng => ((3, 2 * sec + eng), none)
  | .port n => ((6, n), none)

/-- A unit is fenced: its threads move, or its gang is switched out, and the host is told; a copy engine's lasting fault is
logged and its running transfers fail, and a fenced port takes no traffic. -/
def execFencing (u : FaultUnit) (s : State) : Host.Outcome State Fault Refusal :=
  let b := faultBits u
  let s := match u with
    | .copyEngine sec eng => s.logIn sec { cls := 0x04, ukind := 3, unit := 2 * sec + eng, detail := 0x13 }
    | _ => s
  let s := s.setPmc (s.pmc.fence b.1.1 b.1.2)
  let s := (s.gangs.map (·.1)).foldl State.moveStranded s
  .next (match u, b.2 with
    | .copyEngine sec eng, _ =>
      let k := s.sect sec
      s.setSect sec { k with transfers := k.transfers.map fun t =>
        if t.eng = eng ∧ (t.state = 1 ∨ t.state = 3) then { t with state := 4, cause := 0x13 } else t }
    | .port n, _ => { s with ports := s.ports.put n { (s.ports.get? n).getD { halfWidth := false, fenced := false } with fenced := true } }
    | _, some n => s.notifyHost 0x0102 n
    | _, none => s)

/-- A fenced core or quad that still has threads to be moved. -/
def unfinishedFence (s : State) : Option FaultUnit :=
  s.pmc.fencesInForce.findSome? fun f =>
    let hit := s.gangs.any fun e => (strandedCores s e.2).any fun c => (f.1 == 0 && c == f.2) || (f.1 == 2 && quadOfCore c == f.2)
    if !hit then none else if f.1 = 0 then some (.core f.2) else some (.engine (2 * f.2))

/-! ### Copy faults (R215) -/

/-- The first transfer of an engine that is suspended for service. -/
def suspendedCopy (s : State) (sec eng : Nat) : Option Transfer :=
  (s.sect sec).transfers.find? fun t => t.eng == eng && t.state == 3

/-- The fault is a residency miss that the firmware can service. -/
def copyServed (s : State) (t : Transfer) : Option State :=
  if t.cause ≠ 0x0A then none else t.miss.bind (s.serveMiss t.gang)

/-- A transfer that met poison triggers a replay of its heat; a third trigger is unserviceable for its thread (R387). -/
def State.copyPoison (s : State) (t : Transfer) : State :=
  match s.gangs.get? t.gang with
  | none => s
  | some g =>
    if t.cause ≠ 0x0B || !g.heatMode || t.heat != g.heat then s
    else if canReplay s t.gang then s.setGang t.gang { g with trigger := some t.rank }
    else match t.issuer s with
      | .resident tid => s.unserviceable tid (some 0x0B)
      | _ => s

/-- A copy fault is resolved and the transfer goes on, or the transfer fails: a marked line that it met is logged as consumed, and a
request that got no response as one (R376, R379, R392). -/
def execCopyFault (sec eng : Nat) (resumed : Bool) (s : State) : Host.Outcome State Fault Refusal :=
  .next (match suspendedCopy s sec eng with
    | none => s
    | some t => match (if resumed then copyServed s t else none) with
      | some s => s.setTransfer sec { t with state := 1, cause := 0, miss := none }
      | none =>
        if resumed then s
        else
          let s := if t.cause ≠ 0x0B then s
            else match t.lostPlace s with
              | some l => s.logNoResponse sec (some t.rank) l
              | none => s.logIn sec { cls := 0x08, ukind := 3, unit := 2 * sec + eng, detail := 0x0B, rank := some t.rank,
                                      obj := (t.miss.map (·.obj)).getD 0, off := (t.miss.map (·.off)).getD 0 }
          (s.setTransfer sec { t with state := 4 }).copyPoison t)

end Sys2Proof.Machine
end

