-- ==== Sys2Proof/Machine/Dxo.lean ====
section
/-! DEFINITION. The DXO file (15 R373 to R375; 03 R88 to R91; 10 R262, R270). -/

namespace Sys2Proof.Machine

/-- A section of a DXO: KIND, COUNT, ARG and content. -/
structure DxoSection where
  kind : Nat
  count : Nat
  arg : Nat
  data : List Byte
  deriving DecidableEq, Repr

/-- What a DXO asks for. -/
structure Dxo where
  heat : Bool
  spawn : Bool
  code : List Byte
  base : Option (List Byte)
  /-- record templates with their tiers -/
  objs : List (ObjRec × Nat)
  /-- ARG of a `.seg` image, and its bytes -/
  segs : List (Nat × List Byte)
  /-- slot and value of each constant -/
  consts : List (Nat × Nat)
  level : Nat
  count : Nat
  threads : Nat
  /-- (domain, first, last) -/
  domains : List (Nat × Nat × Nat)
  entries : List Word
  slots : Option Slots
  deriving DecidableEq, Repr

/-- `n` little-endian bytes at an offset. -/
def fileNat (f : List Byte) (off n : Nat) : Nat := leNat ((f.drop off).take n)

/-- A list cut into numbers of `n` bytes. -/
def numbers (n : Nat) (bs : List Byte) : List Nat := (List.range (bs.length / n)).map fun i => fileNat bs (n * i) n

/-- The header is one that the loader accepts (R373, R374). -/
def headerOk (f : List Byte) : Bool :=
  decide (64 ≤ f.length) && fileNat f 0 4 == 0x014F5844 && decide (fileNat f 4 2 ≤ 1) && decide (fileNat f 6 2 < 4)
    && decide (1 ≤ fileNat f 8 4) && decide (fileNat f 8 4 ≤ 64) && fileNat f 12 4 % 8 == 0
    && decide (fileNat f 12 4 + 32 * fileNat f 8 4 ≤ f.length) && fileNat f 16 48 == 0

/-- The sections of a file; none where one reaches beyond the file. -/
def dxoSections (f : List Byte) : Option (List DxoSection) :=
  (List.range (fileNat f 8 4)).mapM fun i =>
    let e := fileNat f 12 4 + 32 * i
    let off := fileNat f (e + 8) 8
    let size := fileNat f (e + 16) 8
    if off + size ≤ f.length then
      some { kind := fileNat f e 4, count := fileNat f (e + 4) 4, arg := fileNat f (e + 24) 8, data := (f.drop off).take size }
    else none

/-- Items of three numbers. -/
def triples : List Nat → Option (List (Nat × Nat × Nat))
  | [] => some []
  | a :: b :: c :: rest => (triples rest).map fun l => (a, b, c) :: l
  | _ => none

/-- Cores of one instance of a level (R90). -/
def levelCores (level : Nat) : Nat :=
  match level with
  | 0 => 4 | 1 => 32 | 2 => 512 | _ => 2048

/-- Instances of a level in the package. -/
def levelCount (level : Nat) : Nat := 2048 / levelCores level

/-- Positions of a domain, ascending. -/
def domainOf (ds : List (Nat × Nat × Nat)) (n d : Nat) : List Nat :=
  (List.range n).filter fun p => ds.any fun x => x.1 == d && decide (x.2.1 ≤ p) && decide (p ≤ x.2.2)

/-- A domain divides every level from quad up to the gang's evenly (R270). -/
def domainEven (level count : Nat) (dom : List Nat) : Bool :=
  (List.range (level + 1)).all fun l =>
    let per := levelCores l
    let sizes := (List.range (levelCores level * count / per)).map fun i => (dom.filter fun p => p / per == i).length
    let used := sizes.filter (· != 0)
    used.all fun k => some k == used.head?

/-- The `.gang` section, as 8-byte numbers (log entry 37): level, count, threads, domain items. -/
def gangOk (ns : List Nat) : Option (Nat × Nat × Nat × List (Nat × Nat × Nat)) :=
  match ns with
  | level :: count :: threads :: rest =>
    match triples rest with
    | none => none
    | some ds =>
      if level ≤ 3 ∧ 1 ≤ count ∧ count ≤ levelCount level ∧ (threads = 1 ∨ threads = 2)
          ∧ ds.all (fun d => decide (1 ≤ d.1) && decide (d.1 ≤ 3) && decide (d.2.1 ≤ d.2.2)
              && decide (d.2.2 < levelCores level * count))
          ∧ [1, 2, 3].all (fun d => domainEven level count (domainOf ds (levelCores level * count) d)) then
        some (level, count, threads, ds)
      else none
  | _ => none

/-- The `.slots` section, as 8-byte numbers: period, and items whose windows do not meet (R91, R275). -/
def slotsOk (cores : Nat) (ns : List Nat) : Option Slots :=
  match ns with
  | period :: rest =>
    match triples rest with
    | none => none
    | some is =>
      let sorted := (List.range is.length).all fun i => (List.range i).all fun j =>
        let a := is.getD i (0, 0, 0)
        let b := is.getD j (0, 0, 0)
        decide (a.2.2 < b.2.1) || decide (b.2.2 < a.2.1)
      if 64 ≤ period ∧ period ≤ 65536 ∧ is.length ≤ 64 ∧ sorted
          ∧ is.all (fun i => decide (i.1 < cores) && decide (i.2.1 ≤ i.2.2) && decide (i.2.2 < period)) then
        some { period, items := is }
      else none
  | [] => none

/-- The one section of a kind. -/
def oneOf (ss : List DxoSection) (kind : Nat) : Option DxoSection :=
  match ss.filter fun k => k.kind == kind with
  | [k] => some k
  | _ => none

/-- At most one section of a kind: none where there are more. -/
def atMostOne (ss : List DxoSection) (kind : Nat) : Option (Option DxoSection) :=
  match ss.filter fun k => k.kind == kind with
  | [] => some none
  | [k] => some (some k)
  | _ => none

/-- A template of a KIND 3 section, and its tier in the ignored MAP field (log entry 37). -/
def templatesOf (bs : List Byte) : List (ObjRec × Nat) :=
  (List.range (bs.length / 128)).map fun i =>
    let b := (bs.drop (128 * i)).take 128
    ({ templateOf b with se := false }, (ObjRec.ofNat (leNat b)).map % 4)

/-- Slot and value of the items of the KIND 5 sections. -/
def constsOf (bs : List Byte) : List (Nat × Nat) :=
  (List.range (bs.length / 16)).map fun i => (fileNat bs (16 * i) 8, fileNat bs (16 * i + 8) 8)

/-- A constant that names an object: 2⁶³ plus its index. -/
def constObject (objs v : Nat) : Option Nat := if 2 ^ 63 ≤ v ∧ v - 2 ^ 63 < objs then some (v - 2 ^ 63) else none

/-- The slots that constants fill: two for a reference. -/
def filledSlots (objs : Nat) (cs : List (Nat × Nat)) : List Nat :=
  cs.flatMap fun c => if (constObject objs c.2).isSome then [c.1, c.1 + 1] else [c.1]

/-- The DXO of a file, or none where the file has a fault (R374), such as an entry whose CODE is no multiple of 4 (R262). -/
def parseDxo (f : List Byte) : Option Dxo := do
  if !headerOk f then none
  let ss ← dxoSections f
  if ss.any fun k => k.kind == 0 || decide (8 < k.kind) || (k.kind != 4 && k.arg != 0) then none
  let code ← oneOf ss 1
  if code.data.length = 0 ∨ code.data.length % 4 ≠ 0 then none
  let base ← atMostOne ss 2
  let tmpl := ss.filter fun k => k.kind == 3
  if tmpl.any fun k => k.data.length != 128 * k.count then none
  let objs := tmpl.flatMap fun k => templatesOf k.data
  if objs.any fun o => o.1.malformed || decide (2 < o.2) || (o.2 == 2 && o.1.enc) then none
  let segs := (ss.filter fun k => k.kind == 4).map fun k => (k.arg, k.data)
  if segs.any fun k => field k.1 44 18 != 0 then none
  let cons := ss.filter fun k => k.kind == 5
  if cons.any fun k => k.data.length != 16 * k.count then none
  let consts := cons.flatMap fun k => constsOf k.data
  let filled := filledSlots objs.length consts ++ (if base.isSome then [246, 247] else [])
  if !filled.Nodup ∨ (filled.any fun n => decide (247 < n)) then none
  if consts.any fun c => (constObject objs.length c.2).isSome && c.1 % 2 == 1 then none
  let gsec ← oneOf ss 6
  let (level, count, threads, domains) ← gangOk (numbers 8 gsec.data)
  let ent ← oneOf ss 7
  if ent.count = 0 ∨ 4096 < ent.count ∨ ent.data.length ≠ 8 * ent.count then none
  if (numbers 8 ent.data).any fun e => field e 0 44 % 4 != 0 then none
  let sl ← atMostOne ss 8
  let slots ← match sl with
    | none => some none
    | some k => (slotsOk (levelCores level * count) (numbers 8 k.data)).map some
  return { heat := field (fileNat f 6 2) 0 1 == 1, spawn := field (fileNat f 6 2) 1 1 == 1, code := code.data,
           base := base.map (·.data), objs, segs, consts, level, count, threads, domains,
           entries := (numbers 8 ent.data).map (BitVec.ofNat 64), slots }

end Sys2Proof.Machine
end

