-- ==== Sys2Proof/Machine/Schedule.lean ====
section
/-! DEFINITION. Whose turn it is, the cycle count (R6, R242), and how a program comes to run (log entries 5, 6). -/

namespace Sys2Proof.Machine

/-- A thread can run an instruction, or retire the one it has waited in (R242): it is not stopped, its quad is not
frozen (R253), and the package schedules (R397, R402, R410). -/
def runnable (s : State) (tid : Nat) : Bool :=
  let t := s.thread tid
  s.scheduling && t.run == .running && (t.wait == .none || waitOver s tid) && (isService tid || (s.quad (quadOf tid)).phase == .idle)

/-- Turns of a core in one cycle: it retires up to 4 instructions, those of slot 0 before those of slot 1 (R242). A thread
with a running sibling has two of the turns. -/
def inTurn (s : State) (tid : Nat) : Bool :=
  isService tid || (if slotOf tid = 0 then decide (s.round < 2) || (s.thread (tid + 1)).run != .running else decide (2 ≤ s.round))

/-- A thread runs an instruction in the current turn. -/
def runs (s : State) (tid : Nat) : Bool := runnable s tid && inTurn s tid

/-- The turn goes to the next thread by number that runs in it; past the last one the next turn comes, and after the
fourth, or when no thread runs any more, a cycle has passed. -/
def State.advance (s : State) : State :=
  match least (fun n => s.tid < n && runs s n) s.tids with
  | some n => s.switchTo n
  | none =>
    let more := (List.range 4).findSome? fun i =>
      if i ≤ s.round then none
      else (least (runs { s with round := i }) s.tids).map fun n => (i, n)
    match more with
    | some (i, n) => { s with round := i }.switchTo n
    | none =>
      let s := { s with cycle := s.cycle + 1, round := 0 }
      match least (runs s) s.tids with
      | some n => s.switchTo n
      | none => s

/-- The turn passes on after an instruction. -/
def thenAdvance (o : Host.Outcome State Fault Refusal) : Host.Outcome State Fault Refusal :=
  match o with
  | .next s => .next s.advance
  | .fault f => .fault f
  | .refused r => .refused r

/-! ### A program in place -/

/-- A gang of one core with nothing set but its code object (R260, R62). -/
def Gang.zero : Gang :=
  { ctx := 0, requester := .host, level := 0, threads := 1, cores := [], domains := [], entries := [], slots := none,
    code := 0, window := [], slice := 0, gpri := 0, haltPolicy := false, test := false, heatMode := false,
    gens := [], excused := [], queues := [], gates := [], groups := [], report := [], resident := true, switching := false, moves := [], trigger := none, stoppedClock := none, savedThreads := [],
    savedUnits := [], savedHeat := [], savedQuotas := [], savedEngines := [], l1 := 0, l2 := 0, pool := false, saves := [], closing := none, starts := [], since := 0, heat := 0, replays := 0, checkpoint := none, heatOld := [], outsideMsgs := [],
    shadows := [], callLog := [], callReplay := [], loading := none }

/-- The record of a 4 KiB code object of bytes whose map lies at 0x20000 (R309). -/
def codeRecord : ObjRec :=
  { tile := [4096, 0, 0, 0], stride := [1, 0, 0, 0], ext := [4096, 0, 0, 0], map := 0x20000 / 8, gen := 1, valid := true,
    dims := 0, blog := 0, sk := 0, type := 4, rd := true, wr := false, ex := true, se := false, enc := false, key := 0,
    reserved := false }

/-- A word placed as the code of thread 0, which is at its first instruction: gang 1 of context 1, whose object 1 is the
code object, with one resident block at 0x30000. -/
def State.withProgram (s : State) (w : Nat) : State :=
  let mem := s.mem.clear 0x10000 256 |>.clear 0x20000 8 |>.clear 0x30000 4096
  let mem := mem.writeList (0x10000 + 128) (leBytes 128 codeRecord.toNat)
  let mem := mem.writeList 0x20000 (leBytes 8 { valid := true, dmg := false, tier := 0, size := 0, base := 0x30, reserved := false : ResEntry }.toNat)
  let mem := mem.writeList 0x30000 (leBytes 4 w)
  { s with
    th := { Thread.zero with run := .running, gang := 1, rank := 0 }
    tid := 0
    parked := s.parked.drop 0
    mem
    poison := []
    cores := s.cores.put 0 Core.zero
    quads := s.quads.put 0 Quad.zero
    gangs := [(1, { Gang.zero with ctx := 1, cores := [0], code := 1 })]
    contexts := [(1, { Context.zero with ortb := BitVec.ofNat 64 (0x10000 + 8), gens := [(1, 1)] })]
    dies := []
    regions := []
    recordWrites := []
    pmc := { s.pmc with state := 3, held := false }
    firmware := true
    round := 0
    inputs := []
    occurrences := [] }

end Sys2Proof.Machine
end

