-- ==== Sys2Proof/Machine/Threads.lean ====
section
/-! DEFINITION. How threads start and end (07 R202; 10 R262 to R265, R274). -/

namespace Sys2Proof.Machine

/-- Cycles that the zeroing of a context takes (R263). -/
def zeroCycles : Nat := 16

/-- A record of the entry table with a nonzero reserved bit (R262). -/
def badEntry (r : Word) : Bool := bits r 44 4 != 0 || bits r 56 8 != 0

/-- The scope at which a new thread's first instruction acquires (R264). -/
def startScope (s : State) (g : Gang) (core : Nat) (m : StartMsg) : Scope :=
  match m.sender with
  | .member n r => match s.gangs.get? n with
    | some k => match k.cores[r / 2]? with
      | some c => commonScope c core
      | none => g.scope
    | none => g.scope
  | _ => g.scope

/-- The start values of a thread (R263). -/
def startedThread (s : State) (g : Gang) (core slot : Nat) (m : StartMsg) : Thread :=
  let code := g.entries.getD m.entry 0
  let t : Thread :=
    { Thread.zero with
      x := Vector.ofFn fun i => if 10 ≤ i.val ∧ i.val < 18 then BitVec.ofNat 64 (elem 64 (i.val - 10) m.payload) else 0
      pc := BitVec.ofNat 64 (bits code 0 44), run := .running, gang := m.gang, rank := 2 * m.pos + slot, entry := m.entry,
      born := s.seq }
  t.noteAcquire (startScope s g core m) s.cycle

/-- A thread starts in an assigned context (R263); one whose gang or group is stopped starts stopped, and one whose
entry record is bad takes its fault at once (R262). -/
def startThread (s : State) (core slot : Nat) (m : StartMsg) : State :=
  let tid := 2 * core + slot
  let old := s.thread tid
  match s.gangs.get? m.gang with
  | none => s
  | some g =>
    let s := (List.range 16).foldl (fun s i => s.supersede (engineOf tid (i / 8)) (old.t.toList.getD i none)) s
    let s := { s.setThread tid (startedThread s g core slot m) with seq := s.seq + 1 }
    let s := if mayRun s tid then s else s.setThread tid { s.thread tid with run := .stopped, stoppedAt := s.cycle }
    let s := s.pin tid
    if badEntry (g.entries.getD m.entry 0) then s.onThread tid fun s => takeFault s { cause := 0x02 } else s

/-- The start that a core's sequencer can finish now; one that faults at once needs an entry for its trap record. No thread
starts in a gang that is torn down (R347). -/
def startDue (s : State) (core : Nat) : Option (Nat × Nat × StartMsg) :=
  let bad := fun (m : StartMsg) => (s.gangs.get? m.gang).any fun g => badEntry (g.entries.getD m.entry 0)
  let goes := fun (m : StartMsg) => (s.gangs.get? m.gang).all fun g => g.closing.isNone
  (s.core core).starting.find? fun e =>
    decide (e.2.1 + zeroCycles ≤ s.cycle) && (s.quad (quadOfCore core)).phase == .idle
      && goes e.2.2 && (!bad e.2.2 || canHold s (2 * core + e.1) 1)

def execThreadStart (core slot : Nat) (s : State) : Host.Outcome State Fault Refusal :=
  .next (match startDue s core with
    | some (i, c, m) =>
      if i = slot then
        startThread (s.setCore core { s.core core with starting := (s.core core).starting.filter fun e => e != (i, c, m) }) core i m
      else s
    | none => s)

/-- The start message that leaves a core's start queue in this cycle: at most one starts on a core in a cycle, and a
context freed by an end takes one from the next cycle on (R274). -/
def dequeueDue (s : State) (core : Nat) : Option (Nat × Nat × StartMsg × List StartMsg) :=
  if (s.core core).starting.any fun e => e.2.1 == s.cycle then none
  else match s.gangs.find? fun e => e.2.resident && !e.2.switching && e.2.closing.isNone && e.2.cores.contains core with
    | none => none
    | some (n, g) => match g.posOf core, freeSlot s core with
      | some p, some i => match g.startsOf p with
        | [] => none
        | m :: rest => some (n, i, m, rest)
      | _, _ => none

def execStartQueueDequeue (core : Nat) (s : State) : Host.Outcome State Fault Refusal :=
  .next (match dequeueDue s core with
    | none => s
    | some (n, i, m, rest) =>
      let s := match s.gangs.get? n with
        | some g => s.setGang n { g with starts := g.starts.put m.pos rest }
        | none => s
      s.setCore core { s.core core with starting := (s.core core).starting ++ [(i, s.cycle, m)] })

/-- A service core ends a thread (R265). -/
def execThreadEnd (t : Nat) (s : State) : Host.Outcome State Fault Refusal :=
  .next (if isService t then s else s.endThread t false)

end Sys2Proof.Machine
end

