-- ==== Sys2Proof/Machine/Gangs.lean ====
section
/-! DEFINITION. Requests to a service core (15 R343 to R347, R368, R369), and how a gang takes and frees its units (10 R260,
R263, R266; 15 R345, R346, R349). -/

namespace Sys2Proof.Machine

/-! ### Units -/

/-- The cores of an instance of a level. -/
def instanceCores (level i : Nat) : List Nat := (List.range (levelCores level)).map fun j => levelCores level * i + j

/-- A core that a gang holds. -/
def heldCore (s : State) (c : Nat) : Bool := s.gangs.any fun e => e.2.resident && e.2.cores.contains c

/-- An instance whose units are all free, not fenced, and not withheld (R346, R380). -/
def instanceFree (s : State) (level i : Nat) : Bool :=
  let cs := instanceCores level i
  cs.all (fun c => !heldCore s c && !fencedCore s c && !s.pmc.withheld.contains (quadOfCore c))
    && (level == 0 || !(s.pmc.fencesInForce.any fun f => f.1 == 3 && cs.contains (32 * (f.2 / 2))))
    && (level != 3 || !(s.pmc.fencesInForce.any fun f => f.1 == 6))

/-- A list turned, so that its n-th item comes first. -/
def turned {α : Type} (l : List α) (n : Nat) : List α := if l.isEmpty then l else l.drop (n % l.length) ++ l.take (n % l.length)

/-- Cores of `count` free instances, ascending, as the firmware chooses; with an F-die core where one is needed (R346). -/
def State.chooseCores (s : State) (level count : Nat) (fp64 : Bool) : Option (List Nat × State) :=
  let free := turned ((List.range (levelCount level)).filter (instanceFree s level)) (Config.firmwareChoice s.fresh)
  let isF := fun (i : Nat) => (instanceCores level i).any fdieCore
  let free := if fp64 then free.filter isF ++ free.filter (fun i => !isF i) else free
  let take := free.take count
  if take.length < count ∨ (fp64 ∧ !take.any isF) then none
  else some (((List.range (levelCount level)).filter take.contains).flatMap (instanceCores level), { s with fresh := s.fresh + 1 })

/-- The sections of a list of cores. -/
def sectionsOf (cs : List Nat) : List Nat := (cs.map sectionOfCore).dedup

/-- A resident gang holds a core of a section. -/
def sharedSection (s : State) (sec : Nat) : Bool := s.gangs.any fun e => e.2.resident && e.2.cores.any fun c => sectionOfCore c == sec

/-- Units given to a gang: scrubbed, with the settings of its load options (R263 step 1, R346). A gang that shares a
section takes that section's `smsplit` (R345). -/
def State.giveUnits (s : State) (g : Gang) (cores : List Nat) (l2 : Nat → Nat) : State :=
  let s := (sectionsOf cores).foldl (fun s sec =>
    if sharedSection s sec then s else s.setSect sec { s.sect sec with smsplit := BitVec.ofNat 4 (l2 sec) }) s
  let s := (quadsOf cores).foldl (fun s q =>
    (s.setQuad q { Quad.zero with vpool := g.pool && g.l1 != 0, recallcnt := (s.quad q).recallcnt }).scrubQuad q) s
  let s := cores.foldl (fun s c => (s.setCore c { Core.zero with lmsplit := g.l1 }).scrubCore c) s
  let s := if g.level = 0 then (quadsOf cores).foldl State.scrubShare s else (sectionsOf cores).foldl State.scrubSection s
  cores.foldl (fun s c => [2 * c, 2 * c + 1].foldl (fun s t => s.setThread t Thread.zero) s) s

/-- Units taken back: they hold no thread and no buffer, and are not scrubbed (R347). -/
def State.freeUnits (s : State) (cores : List Nat) : State :=
  let s := { s with cores := s.cores.filter fun e => !cores.contains e.1
                    quads := s.quads.map fun e =>
                      if (quadsOf cores).contains e.1 then (e.1, { Quad.zero with recallcnt := e.2.recallcnt }) else e }
  cores.foldl (fun s c => [2 * c, 2 * c + 1].foldl (fun s t => s.setThread t Thread.zero) s) s

/-! ### Replies (R343) -/

/-- The KIND 0 reply to a request, by the service core that it went to. -/
def State.respond (s : State) (q : Request) (status result : Nat) : State :=
  s.tell q.sec q.sender (headerWord 0 0 0 noRank) [BitVec.ofNat 64 status, BitVec.ofNat 64 result, 0, 0, 0, 0, 0, 0]

/-- Word `i` of a request, and its number. -/
def reqWord (q : Request) (i : Nat) : Word := q.pay.getD i 0
def reqNum (q : Request) (i : Nat) : Nat := (reqWord q i).toNat

/-- The outcome of a request: until STATE 3 a host gets a not-ready response, and nothing changes (R407); service cores that
have no firmware, or are held in reset, answer nothing (R397, R402, R410). -/
def served (q : Request) (s r : State) : Host.Outcome State Fault Refusal :=
  .next (if s.scheduling then r
    else if q.sender = .host ∧ !s.pmc.held ∧ s.pmc.state ≠ 3 then { s with hostReplies := s.hostReplies ++ [.notReady] }
    else s)

/-! ### LOAD (R345, R346, R375) -/

/-- A free number from 1 to 65,535, as the firmware chooses. -/
def State.freeId (s : State) (used : List Nat) : Option (Nat × State) :=
  let spots := Config.firmwareChoice s.fresh % 65536 :: 1 :: used.map (· + 1)
  (spots.find? fun n => decide (0 < n) && decide (n < 65536) && !used.contains n).map fun n => (n, { s with fresh := s.fresh + 1 })

/-- A new context: an empty record table of 2^LOGN entries, key slots and budget (R308, R339, R346). -/
def State.newContext (s : State) (owner : Party) (qlimit : Nat) (spawnOk : Bool) (least : Nat) : Option (Nat × State) :=
  match s.freeId (s.contexts.map (·.1)) with
  | none => none
  | some (id, s) =>
    let low := max 5 (ceilLog2 (least + 1))
    match s.choose ((List.range (37 - low)).map (low + ·)) with
    | none => none
    | some (logn, s) =>
      let first := Config.firmwareChoice s.fresh % 256
      let s := { s with fresh := s.fresh + 1 }
      match s.allocate 0 (roundStorage (128 * 2 ^ logn)) with
      | none => none
      | some (key, s) =>
        let s := s.setMem (s.mem.clear key (roundStorage (128 * 2 ^ logn)))
        some (id, s.setContext id { ortb := BitVec.ofNat 64 (key + logn), keysel := BitVec.ofNat 64 (2 ^ 16 + first * 2 ^ 8 + (255 - first)),
                                    qlimit := qlimit % 65536, spawnOk, owner, gens := [], aliases := [] })

/-- A byte object of one dimension. -/
def byteObject (n tile : Nat) (rd wr ex : Bool) : ObjRec :=
  { tile := [tile, 0, 0, 0], stride := [1, 0, 0, 0], ext := [n, 0, 0, 0], map := 0, gen := 1, valid := true, dims := 0, blog := 0,
    sk := 0, type := 4, rd, wr, ex, se := false, enc := false, key := 0, reserved := false }

/-- Bytes written at logical offsets of an object from 0, before any thread runs; none where one lies outside it. -/
def State.fillObject (s : State) (gang n : Nat) (o : ObjRec) (bs : List Byte) : Option State :=
  let w := firmwareWho gang 0
  let slot := keySlot (contextOf s gang) o
  let open' : Opened := .object { o with rd := true, wr := true } slot
  match (List.range bs.length).mapM fun i => locate s w open' (BitVec.ofNat 128 (refTo n o)) i 1 .store 0 0 with
  | .ok ls => some (s.storeCells (wbytes ls.flatten bs))
  | .error _ => none

/-- Bytes written to on-die memory before any thread runs. -/
def State.fillOnDie (s : State) (key : Nat) (bs : List Byte) : State := s.setMem (s.mem.writeList key bs)

/-- A `.seg` image lies within its space (R88, R346). -/
def segOk (d : Dxo) (l1 : BitVec 2) (allot : Nat) (seg : Nat × List Byte) : Bool :=
  let off := field seg.1 0 44
  let n := seg.2.length
  match field seg.1 62 2 with
  | 0 => decide (off < d.objs.length)
  | 1 => decide (2048 ≤ off) && decide (off + n ≤ 2 ^ 18 - (match l1.toNat with
      | 0 => 0 | 1 => 2 ^ 15 | 2 => 2 ^ 16 | _ => 2 ^ 17))
  | 2 => decide (off + n ≤ 2 ^ 21)
  | _ => decide (off + n ≤ allot)

/-- The bytes of space 3 from an offset, one place each (R349). -/
def State.fillAllotment (s : State) (gang sec off : Nat) (bs : List Byte) : State :=
  ((List.range bs.length).zip bs).foldl (fun s e => s.fillOnDie (sramKey s gang sec (off + e.1)) [e.2]) s

/-- One image loaded into every core, quad or section of a gang (R88). -/
def State.loadSeg (s : State) (gang : Nat) (cores : List Nat) (objs : List (Nat × ObjRec)) (seg : Nat × List Byte) : Option State :=
  let off := field seg.1 0 44
  match field seg.1 62 2 with
  | 0 => match objs[off]? with
    | some (n, o) => s.fillObject gang n o seg.2
    | none => none
  | 1 => some (cores.foldl (fun s c => s.fillOnDie (localBase c + off) seg.2) s)
  | 2 => some ((quadsOf cores).foldl (fun s q => s.fillOnDie (quadBase q + off) seg.2) s)
  | _ => some ((sectionsOf cores).foldl (fun s sec => s.fillAllotment gang sec off seg.2) s)

/-- The words `k0` to `k247` (R67, R88, R375). -/
def windowOf (d : Dxo) (objs : List (Nat × ObjRec)) (base : Option (Nat × ObjRec)) : List Word :=
  let put := fun (l : List Word) (n v : Nat) => l.set n (BitVec.ofNat 64 v)
  let ref := fun (l : List Word) (n : Nat) (e : Nat × ObjRec) => put (put l n (refTo e.1 e.2)) (n + 1) (refTo e.1 e.2 / 2 ^ 64)
  let l := d.consts.foldl (fun l c => match (constObject objs.length c.2).bind fun i => objs[i]? with
    | some e => ref l c.1 e
    | none => put l c.1 c.2) (List.replicate 248 0)
  match base with
  | some e => ref l 246 e
  | none => l

/-- Objects made one after another. -/
def State.createAll (s : State) (c : Nat) : List (ObjRec × Nat) → Option (List (Nat × ObjRec) × State)
  | [] => some ([], s)
  | (o, tier) :: rest => match s.createObject c o tier with
    | none => none
    | some (n, o', s) => match s.createAll c rest with
      | none => none
      | some (l, s) => some ((n, o') :: l, s)

/-- The heat save object of a replay-mode gang: 40 MiB for each section (R385). -/
def State.saveStorage (s : State) : Nat → Option (List Nat × State)
  | 0 => some ([], s)
  | n + 1 => match s.allocate 0 (40 * 2 ^ 20) with
    | none => none
    | some (k, s) => (s.saveStorage n).map fun r => (k :: r.1, r.2)

/-- The start of a member context at gang start: entry 0, no payload (R263). -/
def gangStart (gang pos : Nat) : StartMsg := { gang, pos, entry := 0, payload := 0, sender := .service 0, tag := 0, born := 0 }

/-- Every member context is assigned, to start after its zeroing (R263 steps 4 and 5). -/
def State.startMembers (s : State) (gang : Nat) (g : Gang) : State :=
  ((List.range g.cores.length).zip g.cores).foldl (fun s e =>
    s.setCore e.2 { s.core e.2 with starting := (List.range g.threads).map fun i => (i, s.cycle, gangStart gang e.1) }) s

/-- The checkpoint of heat 0: the gang at step 5 of R263 (R385). -/
def firstCheckpoint (s : State) (gang : Nat) (g : Gang) : Checkpoint :=
  { threads := (List.range g.cores.length).flatMap fun p => (List.range g.threads).map fun i =>
      (2 * p + i, startedThread s g (g.cores.getD p 0) i (gangStart gang p))
    queues := [], gates := [], engines := (quadsOf g.cores).flatMap fun _ => [Engine.zero, Engine.zero], clock := none
    excused := [], gens := [], starts := [] }

/-- The section-SRAM allotments that a gang on some cores receives, one for each of its sections (R345, R349). -/
def allotments (s : State) (level l2 : Nat) (cores : List Nat) : List Nat :=
  (sectionsOf cores).map fun sec =>
    let a := if sharedSection s sec then sramBytes s sec else 2 ^ 22 - l2 * 2 ^ 20
    if level = 0 then ((quadsOf cores).filter fun q => q / 8 == sec).length * (a / 8) else a

/-- Step 1 of LOAD: an image that reaches beyond what the gang receives. Where no units are free, the largest allotment that
it could receive counts. -/
def badSegs (s : State) (q : Request) (d : Dxo) (cores : Option (List Nat)) : Bool :=
  let l1 := BitVec.ofNat 2 (field (reqNum q 2) 0 2)
  let allots := match cores with
    | some cs => allotments s d.level (field (reqNum q 2) 5 4) cs
    | none => [if d.level = 0 then min 8 d.count * 2 ^ 19 else 2 ^ 22]
  d.segs.any fun k => allots.any fun a => !segOk d l1 a k

/-- The context that LOAD joins: it exists (R346), and its owner asks. -/
def joinStatus (s : State) (q : Request) : Nat :=
  if reqNum q 4 = 0 then stOk
  else match s.contexts.get? (reqNum q 4) with
    | none => stBadRef
    | some c => if c.owner = q.sender then stOk else stNoPerm

/-- LOAD after the DXO is read: a status, or the loaded gang. -/
def loadGang (s : State) (q : Request) (d : Dxo) : Except Nat (Nat × Nat × State) :=
  let opt := reqNum q 2
  let fp64 := d.entries.any fun e => bitAt e 48
  let units := s.chooseCores d.level d.count fp64
  if badSegs s q d (units.map (·.1)) then .error stBadRef
  else match units with
  | none => .error stNoMem
  | some (cores, s) =>
   if joinStatus s q ≠ stOk then .error (joinStatus s q)
   else match s.freeId (s.gangs.map (·.1)) with
    | none => .error stNoMem
    | some (gid, s) =>
      let join := reqNum q 4
      let ctx : Option (Nat × State) :=
        if join = 0 then s.newContext q.sender (reqNum q 3) d.spawn (d.objs.length + 2) else some (join, s)
      match ctx with
      | none => .error stNoMem
      | some (cid, s) =>
        let g : Gang :=
          { Gang.zero with
            ctx := cid, requester := q.sender, level := d.level, threads := d.threads, cores
            domains := [1, 2, 3].map (domainOf d.domains (levelCores d.level * d.count)), entries := d.entries, slots := d.slots
            slice := if field opt 32 32 = 0 then 10000 else field opt 32 32
            gpri := field opt 12 2, haltPolicy := field opt 11 1 == 1, test := field opt 10 1 == 1, heatMode := d.heat
            l1 := BitVec.ofNat 2 (field opt 0 2), l2 := field opt 5 4, pool := field opt 9 1 == 1, since := s.cycle }
        match s.createAll cid d.objs with
        | none => .error stNoMem
        | some (objs, s) =>
          let codeObj := byteObject d.code.length (min d.code.length 65536) true false true
          match s.createObject cid codeObj 0 with
          | none => .error stNoMem
          | some (cn, co, s) =>
            let extent := fun (n : Nat) => max 4096 ((n + 4095) / 4096 * 4096)
            let base : Option (Option (Nat × ObjRec) × State) := match d.base with
              | none => some (none, s)
              | some bs => (s.createObject cid (byteObject (extent bs.length) (min (extent bs.length) 65536) true true false) 0).map
                  fun r => (some (r.1, r.2.1), r.2.2)
            match base with
            | none => .error stNoMem
            | some (bo, s) =>
              let saves := if d.heat then s.saveStorage (sectionsOf cores).length else some ([], s)
              match saves with
              | none => .error stNoMem
              | some (saves, s) =>
                let window := windowOf d objs bo
                let g := { g with code := cn, window, saves }
                let s := (quadsOf cores).foldl (fun s q => s.setQuad q { s.quad q with recallcnt := 0 }) s
                let s := (s.giveUnits g cores fun _ => g.l2).setGang gid g
                let s := cores.foldl (fun s c => s.fillOnDie (localBase c) (window.flatMap fun w => leBytes 8 w.toNat)) s
                let filled := do
                  let s ← s.fillObject gid cn co d.code
                  let s ← match bo, d.base with
                    | some e, some bs => s.fillObject gid e.1 e.2 bs
                    | _, _ => some s
                  d.segs.foldlM (fun (s : State) k => s.loadSeg gid cores objs k) s
                match filled with
                | none => .error stBadRef
                | some s =>
                  let g := if d.heat then { g with checkpoint := some (firstCheckpoint s gid g) } else g
                  .ok (gid, cid, (s.setGang gid g).startMembers gid g)

/-- The load options are ones that LOAD accepts (R345). -/
def optionsOk (q : Request) : Bool := field (reqNum q 2) 14 18 == 0 && decide (field (reqNum q 2) 5 4 ≤ 4)

/-- The bytes of the DXO that a request's `x10`:`x11` names (R343): the header, the section table, and as far as its sections
reach. -/
def readDxo (s : State) (gang sec : Nat) (r : Ref) : Except CallStop (List Byte × State) :=
  let read := fun (s : State) (n : Nat) => (argBytes s gang sec r n .load).map fun p =>
    (viewBytes p.2 (firmwareWho gang sec) p.1, p.2)
  match read s 64 with
  | .error e => .error e
  | .ok (h, s) =>
    let table := fileNat h 12 4
    let count := min 64 (fileNat h 8 4)
    match read s (max 64 (table + 32 * count)) with
    | .error e => .error e
    | .ok (t, s) =>
      read s (((List.range count).map fun i => fileNat t (table + 32 * i + 8) 8 + fileNat t (table + 32 * i + 16) 8).foldl max t.length)

/-- LOAD of a file: a failure at any step leaves nothing of the earlier ones. The reply waits for the end of step 6. -/
def loadFile (s : State) (q : Request) (dxo : List Byte) : State :=
  match parseDxo dxo with
  | none => s.respond q stBadRef 0
  | some d =>
    if !optionsOk q then s.respond q stBadRef 0
    else match loadGang s q d with
      | .error st => s.respond q st 0
      | .ok (gid, _, s) => match s.gangs.get? gid with
        | some g => s.setGang gid { g with loading := some q }
        | none => s

/-- LOAD: a thread's DXO is read through its reference, with the thread's own rights, and the request is tried again in the
next cycle while a read waits; the bytes of a host's or a service core's come with the request (log entry 116). -/
def execLoad (q : Request) (dxo : List Byte) (s : State) : Host.Outcome State Fault Refusal :=
  served q s (match q.sender with
    | .member gang rank =>
      let sec := match placeOf s gang rank with
        | .resident t => sectionOf t
        | _ => 0
      match readDxo s gang sec ((reqWord q 1 ++ reqWord q 0).setWidth 128) with
      | .error (.status n) => s.respond q n 0
      | .error (.wait s) => { s with occurrences := (s.cycle + 1, .load q dxo) :: s.occurrences }
      | .ok (bs, s) => loadFile s q bs
    | _ => loadFile s q dxo)

/-- Step 6 of a LOAD is over: every member context has been zeroed and has fetched (R263, R346). -/
def loadDone (s : State) (g : Gang) : Bool :=
  g.loading.isSome && decide (g.since + zeroCycles < s.cycle) && g.cores.all fun c => (s.core c).starting.isEmpty

/-- The reply to a LOAD that is done. -/
def loadReply (s : State) (n : Nat) : State :=
  match s.gangs.get? n with
  | none => s
  | some g => match g.loading with
    | none => s
    | some p =>
      if loadDone s g then (s.setGang n { g with loading := none }).respond p stOk (n + g.ctx * 2 ^ 16) else s

/-! ### Contexts: RELEASE, CREATE, SHARE (R343, R344) -/

/-- Every object of a context is freed, and the context is released. -/
def State.releaseContext (s : State) (c : Nat) : State :=
  let k := s.context c
  let s := ((k.gens.map (·.1)).dedup.filter fun n => !absent s c n).foldl (fun s n => s.freeObject c n) s
  let s := s.freeStorage (bits k.ortb 7 49 * 128)
  { s with contexts := s.contexts.drop c }

def execRelease (q : Request) (s : State) : Host.Outcome State Fault Refusal :=
  let c := reqNum q 0
  served q s (match s.contexts.get? c with
    | none => s.respond q stBadRef 0
    | some _ =>
      if s.gangs.any fun e => e.2.ctx == c then s.respond q stBusy 0
      else (s.releaseContext c).respond q stOk 0)

/-- A power of two. -/
def isPow2 (n : Nat) : Bool := n != 0 && 2 ^ Nat.log2 n == n

def execCreate (q : Request) (s : State) : Host.Outcome State Fault Refusal :=
  let c := reqNum q 0
  let size := reqNum q 1
  let block := reqNum q 2
  served q s (match s.contexts.get? c with
    | none => s.respond q stBadRef 0
    | some k =>
      if k.owner ≠ q.sender then s.respond q stNoPerm 0
      else if !(isPow2 block && decide (4096 ≤ block) && decide (block ≤ 2 ^ 26) && decide (block ≤ size) && decide (size < 2 ^ 32)
          && decide (reqNum q 3 < 8) && decide (reqNum q 4 ≤ 1)) then s.respond q stBadRef 0
      else
        let o := byteObject size block (bitAt (reqWord q 3) 2) (bitAt (reqWord q 3) 1) (bitAt (reqWord q 3) 0)
        match s.createObject c o (reqNum q 4) with
        | none => s.respond q stNoMem 0
        | some (n, _, s) => s.respond q stOk n)

/-- Every block of the source is resident. -/
def State.resideAll (s : State) (c n : Nat) (o : ObjRec) : Option State :=
  (List.range o.blocks).foldlM (fun (s : State) b => if (entryAt s o b).valid then some s else s.serveBlock c n o b) s

/-- What an object is as a source of SHARE: its context's owner, its record, and the entries that name its storage. -/
structure ShareSource where
  owner : Party
  record : ObjRec
  entries : List ResEntry

/-- A source on this package, once its blocks are resident, or on another: TIER 3 entries name that storage (R344). -/
def shareSource (s : State) (pkg c n : Nat) : Option ShareSource :=
  if pkg = s.pkg then
    (s.contexts.get? c).bind fun k => match objRecord s k n with
      | .ok (some o) => some { owner := k.owner, record := o, entries := [] }
      | _ => none
  else
    (s.podObjects.find? fun e => (e.1, e.2.1, e.2.2.1) == (pkg, c, n)).map fun e =>
      { owner := e.2.2.2.owner, record := ObjRec.ofNat e.2.2.2.record
        entries := e.2.2.2.entries.map fun w => { ResEntry.ofNat w with tier := 3 } }

/-- A source context of this package, or of another that answers for one of its objects. -/
def shareOwner (s : State) (pkg c : Nat) : Option Party :=
  if pkg = s.pkg then (s.contexts.get? c).map (·.owner)
  else (s.podObjects.find? fun e => (e.1, e.2.1) == (pkg, c)).map fun e => e.2.2.2.owner

/-- SHARE: a new record whose map names the source's storage (R344). Where a block of the source is being moved the request is
tried again in the next cycle; a relocation that has not begun then fails, since the block is pinned (R325). -/
def execShare (q : Request) (s : State) : Host.Outcome State Fault Refusal :=
  let src := reqNum q 0
  let n := reqNum q 1
  let pkg := reqNum q 2
  let dst := reqNum q 3
  served q s (match shareOwner s pkg src, s.contexts.get? dst with
    | some own, some b =>
      if own ≠ q.sender ∨ b.owner ≠ q.sender then s.respond q stNoPerm 0
      else match shareSource s pkg src n with
        | none => s.respond q stBadRef 0
        | some a =>
          let o := a.record
          if pkg = s.pkg ∧ relocationRuns s src n then { s with occurrences := (s.cycle + 1, .shareAgain q) :: s.occurrences }
          else if !o.valid then s.respond q stBadRef 0
          else if o.enc then s.respond q stNoPerm 0
          else match (if pkg = s.pkg then s.resideAll src n o else some s) with
            | none => s.respond q stNoMem 0
            | some s' =>
              let p := reqWord q 4
              match s'.newRecord dst { o with rd := o.rd && bitAt p 2, wr := o.wr && bitAt p 1, ex := o.ex && bitAt p 0 } with
              | none => s.respond q stNoMem 0
              | some (m, r, s') =>
                let s' := (List.range o.blocks).foldl (fun s i => s.setEntry r i
                  (if pkg = s.pkg then entryAt s o i else a.entries.getD i (ResEntry.ofNat 0))) s'
                let k := s'.context dst
                (s'.setContext dst { k with aliases := k.aliases ++ [(m, src, n, pkg)] }).respond q stOk m
    | _, _ => s.respond q stBadRef 0)

def execUnassignedRequest (q : Request) (_ : Nat) (s : State) : Host.Outcome State Fault Refusal :=
  served q s (s.respond q stNoPerm 0)

/-! ### HALT, RESUME, STEP, GROUP (R368, R369) -/

/-- A request about a gang: BADREF where the id names no loaded gang, or was not yet issued (R343, R346). -/
def onGang (q : Request) (s : State) (f : Nat → Gang → State → State) : Host.Outcome State Fault Refusal :=
  served q s (match s.gangs.get? (reqNum q 0) with
    | none => s.respond q stBadRef 0
    | some g => if g.loading.isSome then s.respond q stBadRef 0 else f (reqNum q 0) g s)

def execHalt (q : Request) (s : State) : Host.Outcome State Fault Refusal :=
  onGang q s fun n _ s => if 7 < reqNum q 1 then s.respond q stBadRef 0 else (s.haltGroup n (reqNum q 1)).respond q stOk 0

def execResume (q : Request) (s : State) : Host.Outcome State Fault Refusal :=
  onGang q s fun n _ s => if 7 < reqNum q 1 then s.respond q stBadRef 0 else (s.resumeGroup n (reqNum q 1)).respond q stOk 0

/-- The step bit of a rank, resident or saved; a recall does not take the write back (R256, R369). -/
def State.setStep (s : State) (n : Nat) (g : Gang) (rank : Nat) (b : Bool) : State :=
  match placeOf s n rank with
  | .resident t => s.pinWith t fun k => { k with stepBit := b }
  | .saved k => s.setGang n { g with savedThreads := g.savedThreads.put rank { k with stepBit := b } }
  | .nowhere => s

def execStep (q : Request) (s : State) : Host.Outcome State Fault Refusal :=
  onGang q s fun n g s =>
    if 2 * g.cores.length ≤ reqNum q 1 then s.respond q stBadRef 0
    else (s.setStep n g (reqNum q 1) (bitAt (reqWord q 2) 0)).respond q stOk 0

def execGroup (q : Request) (s : State) : Host.Outcome State Fault Refusal :=
  onGang q s fun n g s =>
    if reqNum q 1 = 0 ∨ 7 < reqNum q 1 then s.respond q stBadRef 0
    else
      let ranges := (List.range 4).filterMap fun i =>
        let w := reqWord q (2 + i)
        if bits w 0 32 = 0xFFFFFFFF then none else some (bits w 0 16, bits w 16 16)
      let halted := ((g.groups.get? (reqNum q 1)).map (·.halted)).getD false
      let s := s.setGang n { g with groups := g.groups.put (reqNum q 1) { ranges, eng := bitAt (reqWord q 6) 0, halted } }
      (s.pauseCopies n).respond q stOk 0

/-! ### TEARDOWN (R347) -/

/-- A KIND 3 answer for what the host or a service core sent, and the gang never dequeued. -/
def fromOutside (_ : State) (p : Party) : Bool :=
  match p with
  | .host | .service _ => true
  | .member _ _ => false

/-- Steps 1 and 2: every thread ends, every transfer is cancelled, and the entries of a lost quad, which can never be
released, are discarded. -/
def State.beginTeardown (s : State) (n : Nat) (g : Gang) (q : Request) (keep : Bool) : State :=
  let s := s.setGang n { g with closing := some (q, keep), groups := [], switching := false }
  if g.resident then
    let lost := quadsOf g.cores |>.filter fun q => (s.quad q).phase == .lost
    let s := g.tids.foldl (fun s t => s.endThread t true) s
    let s := lost.foldl (fun s q => (List.range 4).foldl (fun s i =>
      s.setCore (4 * q + i) { s.core (4 * q + i) with hold := [] }) s) s
    g.cores.foldl (fun s c =>
      (s.core c).starting.foldl (fun s e => s.refuseStart e.2.2) (s.setCore c { s.core c with starting := [] })) s
  else
    let s := g.savedThreads.foldl (fun s e => s.answerLeft e.1 (e.2.inbox ++ e.2.overflow ++ e.2.spill) fromOutside) s
    match s.gangs.get? n with
    | some g => s.setGang n { g with savedThreads := [] }
    | none => s

/-- Every transfer of a gang is cancelled as `cpcancel` does, and none stays paused. -/
def State.cancelGang (s : State) (n : Nat) : State :=
  { s with sections := s.sections.map fun e => (e.1, { e.2 with transfers := e.2.transfers.map fun x =>
      if x.gang = n ∧ x.stopAt.isNone ∧ !x.ended then { x.cancel with paused := false } else x }) }

/-- The gang's hold buffers are empty, no write of theirs waits at a bank, and its transfers have ended. -/
def gangDrained (s : State) (n : Nat) (g : Gang) : Bool :=
  (!g.resident || g.cores.all fun c => (s.core c).hold.isEmpty)
    && !(waitingAtBanks s fun o => o.gang == n)
    && s.sections.all fun e => e.2.transfers.all fun x => x.gang != n || x.ended

/-- Steps 4 to 6. -/
def State.endTeardown (s : State) (n : Nat) (g : Gang) (q : Request) (keep : Bool) : State :=
  let s := (g.starts.flatMap (·.2)).foldl (fun s m =>
    if fromOutside s m.sender then s.refuseStart m else s) s
  let s := if g.resident then s.freeUnits g.cores else s
  let s := g.saves.foldl State.freeStorage s
  let clean := fun (k : Section) =>
    { k with transfers := k.transfers.filter (fun x => x.gang != n), watches := k.watches.filter (fun w => w.2.gang != n) }
  let s := { s with gangs := s.gangs.drop n, sections := s.sections.map fun (e : Nat × Section) => (e.1, clean e.2) }
  let s := if keep then s else s.releaseContext g.ctx
  s.respond q stOk 0

/-- A teardown under way takes its next step. -/
def teardownStep (s : State) (n : Nat) : State :=
  match s.gangs.get? n with
  | none => s
  | some g => match g.closing with
    | none => s
    | some (q, keep) =>
      let s := s.cancelGang n
      if gangDrained s n g then s.endTeardown n g q keep else s

def execTeardown (q : Request) (s : State) : Host.Outcome State Fault Refusal :=
  served q s (match s.gangs.get? (reqNum q 0) with
    | none => s.respond q stBadRef 0
    | some g =>
      if g.closing.isSome || g.loading.isSome then s.respond q stBadRef 0
      else teardownStep (s.beginTeardown (reqNum q 0) g q (bitAt (reqWord q 1) 0)) (reqNum q 0))

end Sys2Proof.Machine
end

