-- ==== Sys2Proof/Machine/Switch.lean ====
section
/-! DEFINITION. Switching gangs out and in (15 R355 to R361), and heats: checkpoint and replay (16 R383 to R388). -/

namespace Sys2Proof.Machine

/-! ### Placement (R356, R360 step 1) -/

/-- An entry of the gang needs an F-die core. -/
def Gang.needsFdie (g : Gang) : Bool := g.entries.any fun e => bitAt e 48

/-- The `smsplit` L2 that a quad-level gang's quads need in a section that replaces section `i` of the gang: its saved
share keeps its size (R349). -/
def Gang.splitNeeded (g : Gang) (i : Nat) : Nat :=
  let q := (quadsOf g.cores).findIdx fun q => some (q / 8) == (sectionsOf g.cores)[i]?
  match g.savedUnits[g.cores.length + (quadsOf g.cores).length + q]? with
  | some (n, _) => (2 ^ 22 - 8 * n) / 2 ^ 20
  | none => g.l2

/-- Section `new` can hold the quads that a quad-level gang has in its section `i`. -/
def sectionFits (s : State) (g : Gang) (i new : Nat) : Bool :=
  (((quadsOf g.cores).filter fun q => some (q / 8) == (sectionsOf g.cores)[i]?).all fun q => instanceFree s 0 (8 * new + q % 8))
    && (!sharedSection s new || (s.sect new).smsplit.toNat == g.splitNeeded i)

/-- New sections for the sections `i` to `i + n - 1` of a quad-level gang, apart from those already taken. -/
def placeSections (s : State) (g : Gang) (order : List Nat) : Nat → Nat → List Nat → Option (List Nat)
  | 0, _, taken => if g.needsFdie && !(taken.any fun n => fdieCore (32 * n)) then none else some taken
  | n + 1, i, taken => order.findSome? fun new =>
    if taken.contains new || !sectionFits s g i new then none else placeSections s g order n (i + 1) (taken ++ [new])

/-- The cores that a waiting gang would take, by position: the firmware's choice among free units (log entry 3). -/
def placement (s : State) (g : Gang) : Option (List Nat) :=
  if g.level = 0 then
    (placeSections s g (turned (List.range 64) (Config.firmwareChoice s.fresh)) (sectionsOf g.cores).length 0 []).map fun new =>
      g.cores.map fun c => 32 * new.getD ((sectionsOf g.cores).idxOf (sectionOfCore c)) 0 + c % 32
  else (s.chooseCores g.level (g.cores.length / levelCores g.level) g.needsFdie).map (·.1)

/-! ### The scheduler (R356, R359) -/

/-- Cycles of a slice: SLICE counts microseconds. -/
def Gang.sliceCycles (g : Gang) : Nat := 1000 * g.slice

/-- The head of a core's buffer is due and its destination refuses it (R356). -/
def refused (s : State) (core : Nat) : Bool :=
  match (s.core core).hold with
  | [] => false
  | e :: _ => headDue s core e && (performEffect s core e.seq e.tid e.effect).isNone

/-- A gang whose hold buffers cannot empty stays resident. -/
def blocked (s : State) (g : Gang) : Bool := g.cores.any (refused s)

/-- A resident gang that may be switched out for a waiting one. -/
def yields (s : State) (g w : Gang) : Bool :=
  g.resident && g.closing.isNone && !blocked s g && (decide (g.since + g.sliceCycles ≤ s.cycle) || decide (g.gpri < w.gpri))

/-- The machine as if the gangs that yield to a waiting one had left. -/
def withoutYielding (s : State) (w : Gang) : State := { s with gangs := s.gangs.filter fun e => !yields s e.2 w }

/-- Gangs that wait for units. -/
def waitingGangs (s : State) : List (Nat × Gang) := s.gangs.filter fun e => !e.2.resident && e.2.closing.isNone

/-- A thread's spill queue is full (R359). -/
def Gang.spillFull (g : Gang) : Bool := g.savedThreads.any fun e => decide (Config.spillMessages ≤ e.2.spill.length)

/-- A waiting gang comes before another: first those with a full spill queue, then by GPRI, then the longest out. -/
def before (a b : Nat × Gang) : Bool :=
  if a.2.spillFull != b.2.spillFull then a.2.spillFull
  else if a.2.gpri ≠ b.2.gpri then decide (b.2.gpri < a.2.gpri)
  else if a.2.since ≠ b.2.since then decide (a.2.since < b.2.since) else decide (a.1 < b.1)

/-- A waiting gang needs units of gang `g`: it finds none that are free, and its choice with every yielding gang gone takes
some of `g`'s. -/
def needsUnitsOf (s : State) (g w : Gang) : Bool :=
  (placement s w).isNone && yields s g w &&
    (match placement (withoutYielding s w) w with
    | some cs => cs.any g.cores.contains
    | none => false)

/-- A slice has expired while another gang waits for the units (R356). -/
def sliceDue (s : State) (g : Gang) : Bool :=
  g.resident && !g.switching && decide (g.since + g.sliceCycles ≤ s.cycle) && (waitingGangs s).any fun w => needsUnitsOf s g w.2

/-- A waiting gang of higher GPRI needs the units (R356). -/
def outranked (s : State) (g : Gang) : Bool :=
  g.resident && !g.switching && (waitingGangs s).any fun w => decide (g.gpri < w.2.gpri) && needsUnitsOf s g w.2

def execSliceExpiry (g : Nat) (s : State) : Host.Outcome State Fault Refusal :=
  .next (match s.gangs.get? g with
    | some k => if sliceDue s k then s.beginSwitch g else s
    | none => s)

/-- The waiting gang that comes in now, if any: no gang before it can be placed, now or once others have yielded. -/
def comesIn (s : State) (n : Nat) (g : Gang) : Option (List Nat) :=
  if g.resident || g.closing.isSome then none
  else if (waitingGangs s).any fun w => before w (n, g) && (placement (withoutYielding s w.2) w.2).isSome then none
  else placement s g

/-! ### Units by their place in a gang -/

/-- Address and size of each on-die unit of a gang on some cores: local memories, scratchpads, and its parts of section
SRAM (R349, R357 step 6). -/
def unitRanges (s : State) (g : Gang) (cores : List Nat) : List (Nat × Nat) :=
  cores.map (fun c => (localBase c, 2 ^ 18)) ++ (quadsOf cores).map (fun q => (quadBase q, 2 ^ 21))
    ++ (if g.level = 0 then (quadsOf cores).map fun q =>
          let share := sramBytes s (q / 8) / 8
          (sectionBase (q / 8) + q % 8 * share, share)
        else (sectionsOf cores).map fun sec => (sectionBase sec, sramBytes s sec))

/-- An address within one of the units, as the unit's number and the offset in it, in one number. -/
def relativeKey (us : List (Nat × Nat)) (key : Nat) : Nat :=
  let i := us.findIdx fun u => decide (u.1 ≤ key) && decide (key < u.1 + u.2)
  match us[i]? with
  | some u => i * 2 ^ 24 + (key - u.1)
  | none => key

def absoluteKey (us : List (Nat × Nat)) (key : Nat) : Nat :=
  match us[key / 2 ^ 24]? with
  | some u => u.1 + key % 2 ^ 24
  | none => key

/-- The bytes of a range, from its first byte. -/
def Memory.cut (m : Memory) (key n : Nat) : Memory :=
  (m.filter fun c => key ≤ c.1 && c.1 < key + n).map fun c => (c.1 - key, c.2)

/-- Bytes put back at a range. -/
def Memory.paste (m : Memory) (key : Nat) (bs : Memory) : Memory := bs.foldl (fun m c => m.write (key + c.1) c.2) m

/-- An endpoint's thread named by its rank, and back (R357, R385). -/
def Join.toRank (s : State) (j : Join) : Join := { j with owner := (s.thread j.owner).rank }
def Join.toTid (cores : List Nat) (j : Join) : Join := { j with owner := 2 * cores.getD (j.owner / 2) 0 + j.owner % 2 }

/-- The endpoints of a gang's quads, to be kept. -/
def endpoints (s : State) (cores : List Nat) : List Engine :=
  (quadsOf cores).flatMap fun q => [2 * q, 2 * q + 1].map fun e =>
    let k := s.engine e
    { k with view := k.view.map (Join.toRank s), ring := k.ring.map (Join.toRank s), late := [], leaves := [], waiting := [],
             snap := none }

/-- Kept endpoints in the quads of some cores, whose tile pools stay as they are. -/
def State.setEndpoints (s : State) (cores : List Nat) (es : List Engine) : State :=
  ((quadsOf cores).flatMap fun q => [2 * q, 2 * q + 1]).zip es |>.foldl (fun s e =>
    s.setEngine e.1 { e.2 with view := e.2.view.map (Join.toTid cores), ring := e.2.ring.map (Join.toTid cores),
                               late := (s.engine e.1).late, turn := (s.engine e.1).turn, snap := (s.engine e.1).snap }) s

/-- No thread's leave of an endpoint is still to be performed in some quads (R265). -/
def ringsSettled (s : State) (cores : List Nat) : Bool :=
  (quadsOf cores).all fun q => (s.engine (2 * q)).leaves.isEmpty && (s.engine (2 * q + 1)).leaves.isEmpty

/-- A context as an image keeps it: nothing in flight comes with it. -/
def Thread.kept (t : Thread) : Thread := { t with arrivals := [], events := [], relMark := none, pend := [], tq := [] }

/-- The contexts of a gang that were ever started, by rank. -/
def startedContexts (s : State) (g : Gang) : Table Thread :=
  (List.range g.cores.length).flatMap fun p => [0, 1].filterMap fun i =>
    let t := s.thread (2 * g.cores.getD p 0 + i)
    if t.run = .never then none else some (2 * p + i, t.kept)

/-! ### Switch-out (R357) -/

/-- The gang is ready to leave: its services are done or wait, its threads have been stopped for more than W cycles with no recall
pending, its requests have their replies, its hold buffers are empty, and no transfer of it runs (steps 3 to 5). -/
def readyToLeave (s : State) (n : Nat) (g : Gang) : Bool :=
  g.resident && g.switching && g.closing.isNone && g.trigger.isNone && g.moves.isEmpty
    && (g.cores.all fun c => (s.core c).hold.isEmpty && (s.core c).starting.isEmpty && (s.quad (quadOfCore c)).phase == .idle)
    && (g.tids.all fun t =>
        let k := s.thread t
        k.free || ((k.run == .stopped || k.run == .service) && decide (k.stoppedAt + Config.holdWindow < s.cycle)
          && !outstanding s t s.seq))
    && ringsSettled s g.cores
    && !(waitingAtBanks s fun o => o.gang == n)
    && s.sections.all fun e => e.2.transfers.all fun x => x.gang != n || (x.state != 1 && x.state != 3)

/-- A service in progress is abandoned: the thread stands at its `epc`, to run its instruction again (R361). -/
def Thread.abandoned (t : Thread) : Thread :=
  if t.run = .service then
    { t with run := .stopped, pc := t.epc, privileged := bitAt t.fcause 8, inCall := false, miss := none }.recordBack
  else t

/-- A context in a gang's save object: a waiting service is abandoned, and the overflow queue is part of the spill queue
(R359). -/
def Thread.saved (t : Thread) : Thread :=
  let t := t.abandoned
  { t with spill := t.overflow ++ t.spill, overflow := [] }

/-- The part of the heat store buffer of a section that some quads wrote (R384). -/
def heatPart (s : State) (quads : List Nat) (sec : Nat) : List (Loc × Byte) × List (Nat × Nat) :=
  let k := s.sect sec
  let lines := k.heatLines.filter fun l => quads.contains l.2
  (k.heatBuf.filter (fun e => lines.any fun l => l.1 == e.1.key / 256), lines.map fun l => (l.1, quads.idxOf l.2))

/-- That part discarded. -/
def State.dropHeat (s : State) (quads secs : List Nat) : State :=
  secs.foldl (fun s sec =>
    let k := s.sect sec
    let gone := k.heatLines.filter fun l => quads.contains l.2
    let left := k.heatLines.filter fun l => !quads.contains l.2
    s.setSect sec { k with heatLines := left
                           heatBuf := k.heatBuf.filter fun e => !(gone.any fun l => l.1 == e.1.key / 256)
                             || left.any fun l => l.1 == e.1.key / 256 }) s

/-- The record change that a waiting OBJFREE of a thread has asked for is withdrawn: an abandoned call touches no data
(R361). -/
def State.withdraw (s : State) (t : Nat) : State :=
  let k := s.thread t
  if k.run = .service ∧ k.inCall ∧ callOf s t = some 3 then
    let addr := recordAddr (s.context (ctxOf s k.gang)).ortb (refObj k.refArg)
    { s with recordWrites := s.recordWrites.filter fun w => (w.cells.head?).map (·.1) != some addr }
  else s

/-- Steps 6 and 7: the contexts and units are saved, and the units are free. -/
def State.leave (s : State) (n : Nat) (g : Gang) : State :=
  let s := g.tids.foldl State.withdraw s
  let us := unitRanges s g g.cores
  let quads := quadsOf g.cores
  let secs := sectionsOf g.cores
  let threads := (startedContexts s g).map fun e => (e.1, e.2.saved)
  let g' := { g with
    resident := false, switching := false, savedThreads := threads, since := s.cycle
    savedUnits := us.map fun u =>
      (u.2, s.mem.cut u.1 u.2, (s.poison.filter fun l => u.1 ≤ 256 * l && 256 * l < u.1 + u.2).map fun l => l - u.1 / 256)
    savedEngines := endpoints s g.cores
    savedHeat := secs.map (heatPart s quads)
    savedQuotas := quads.map fun q => (s.quad q).quota
    heatOld := g.heatOld.map fun e => { e with key := relativeKey us e.key } }
  let s := (s.setGang n g').dropHeat quads secs
  s.freeUnits g.cores

/-- A switch-out is given up: the gang goes on, its clocks from their stopped value. -/
def State.stay (s : State) (n : Nat) (g : Gang) : State :=
  let s := s.setGang n { g with switching := false, stoppedClock := none }
  let s := g.cores.foldl (fun s c => s.setCore c { s.core c with phase := g.stoppedClock.map fun v => s.cycle - v }) s
  (g.tids.foldl State.letRun s).pauseCopies n

/-- What the switch-out of a gang does next: a switch-out for a gang of higher GPRI begins; one that began is given up
while a destination refuses a release, unless a fenced unit forces it; and it ends when the gang is ready. -/
def switchOutStep (s : State) (n : Nat) : State :=
  match s.gangs.get? n with
  | none => s
  | some g =>
    if outranked s g then s.beginSwitch n
    else if g.resident && g.switching && blocked s g && (strandedCores s { g with switching := false }).isEmpty then s.stay n g
    else if readyToLeave s n g then s.leave n g
    else s

def execSwitchOut (g : Nat) (s : State) : Host.Outcome State Fault Refusal := .next (switchOutStep s g)

/-! ### Switch-in (R360) -/

/-- A table by die, on new cores: a die queue goes with the first position of its die; tasks whose FEAT the new die does not
satisfy go to the gang's lowest-numbered F-die, as `spawn` routes them (R351). -/
def moveQueues (old new : List Nat) (t : Table DieQueue) : Table DieQueue :=
  let fd := (least (fun _ => true) ((new.filter fdieCore).map dieOfCore))
  let put := fun (t : Table DieQueue) (d : Nat) (ts : List Task) (sel : Nat) =>
    let q := (t.get? d).getD { tasks := [], selections := 0 }
    t.put d { tasks := q.tasks ++ ts, selections := q.selections + sel }
  t.foldl (fun (r : Table DieQueue) e =>
    let d := dieOfCore (new.getD (old.findIdx fun c => dieOfCore c == e.1) 0)
    let fits := fun (k : Task) => k.feat % 2 == 0 || d % 2 == 0
    let r := put r d (e.2.tasks.filter fits) e.2.selections
    match e.2.tasks.filter (fun k => !fits k), fd with
    | [], _ => r
    | ts, some f => put r f ts 0
    | ts, none => put r d ts 0) []

/-- Transfer records follow the gang to its new cores, with the images of overlapping copies (R359). -/
def Transfer.follow (olds news : List (Nat × Nat)) (old new : List Nat) (t : Transfer) : Transfer :=
  let shift := fun (m : Memory) => (olds.zip news).foldl (fun (r : Memory) u =>
    (r.clear u.2.1 u.2.2).paste u.2.1 (m.cut u.1.1 u.1.2)) m
  { t with core := new.getD (old.idxOf t.core) t.core, snap := t.snap.map fun p => (shift p.1, p.2) }

/-- Every transfer record of a gang lies in the section of its core. -/
def State.moveTransfers (s : State) (n : Nat) (olds news : List (Nat × Nat)) (old new : List Nat) : State :=
  let mine := (s.sections.flatMap fun e => e.2.transfers.filter fun t => t.gang == n).map (Transfer.follow olds news old new)
  let s := { s with sections := s.sections.map fun (e : Nat × Section) => (e.1, { e.2 with transfers := e.2.transfers.filter fun t => t.gang != n }) }
  mine.foldl (fun s t =>
    let k := s.sect (sectionOfCore t.core)
    s.setSect (sectionOfCore t.core) { k with transfers := k.transfers ++ [t] }) s

/-- The contexts of a gang put into the cores it holds, stopped (step 4). -/
def State.placeThreads (s : State) (g : Gang) (ts : Table Thread) : State :=
  ts.foldl (fun (s : State) e => match g.tidOf e.1 with
    | none => s
    | some t =>
      let k := if e.2.free then e.2 else { e.2 with run := .stopped, stoppedAt := s.cycle }
      ((s.place t k).getD s).pin t) s

/-- The first 256 spilled messages are the overflow queue (step 5). -/
def Thread.unspill (t : Thread) : Thread :=
  { t with overflow := t.spill.take Config.overflowMessages, spill := t.spill.drop Config.overflowMessages }

/-- The whole of R360. -/
def State.enter (s : State) (n : Nat) (g : Gang) (cores : List Nat) : State :=
  let olds := unitRanges s g g.cores   -- sizes may differ; only the addresses serve
  let l2 := fun sec => if g.level = 0 then g.splitNeeded (((cores.map sectionOfCore).dedup).idxOf sec) else g.l2
  let s := { s with fresh := s.fresh + 1 }.giveUnits g cores l2
  let news := unitRanges s g cores
  let s := (news.zip g.savedUnits).foldl (fun s u =>
    { s with mem := s.mem.paste u.1.1 u.2.2.1, poison := (u.2.2.2.map fun l => l + u.1.1 / 256) ++ s.poison }) s
  let s := ((sectionsOf cores).zip g.savedHeat).foldl (fun s e =>
    let k := s.sect e.1
    s.setSect e.1 { k with heatBuf := e.2.1 ++ k.heatBuf, heatLines := e.2.2.map (fun l => (l.1, (quadsOf cores).getD l.2 0)) ++ k.heatLines }) s
  let s := ((quadsOf cores).zip g.savedQuotas).foldl (fun s e => s.setQuad e.1 { s.quad e.1 with quota := e.2 }) s
  let g' := { g with
    cores, resident := true, since := s.cycle, queues := moveQueues g.cores cores g.queues
    checkpoint := g.checkpoint.map fun (k : Checkpoint) => { k with queues := moveQueues g.cores cores k.queues }
    heatOld := g.heatOld.map fun e => { e with key := absoluteKey news e.key }
    stoppedClock := none, savedThreads := [], savedUnits := [], savedEngines := [], savedHeat := [], savedQuotas := [] }
  let s := s.setGang n g'
  let s := s.placeThreads g' (g.savedThreads.map fun e => (e.1, e.2.unspill))
  let s := s.setEndpoints cores g.savedEngines
  let s := (s.moveTransfers n olds news g.cores cores).pauseCopies n
  let s := cores.foldl (fun s c => s.setCore c { s.core c with phase := g.stoppedClock.map fun v => s.cycle - v }) s
  g'.tids.foldl State.letRun s

def execSwitchIn (n : Nat) (s : State) : Host.Outcome State Fault Refusal :=
  .next (match s.gangs.get? n with
    | none => s
    | some g => match comesIn s n g with
      | some cores => s.enter n g cores
      | none => s)

/-! ### The pacer (R355) -/

/-- The resident gang of a quad. -/
def gangOfQuad (s : State) (q : Nat) : Option (Nat × Gang) :=
  s.gangs.find? fun e => e.2.resident && e.2.cores.any fun c => quadOfCore c == q

/-- An epoch has begun since LEFT of a limited quad was set. -/
def epochDue (s : State) (q : Nat) : Option Nat :=
  match gangOfQuad s q with
  | none => none
  | some (n, _) =>
    let limit := (contextOf s n).qlimit
    if limit = 0 ∨ (s.quad q).epoch = s.cycle / Config.epoch then none else some limit

/-- LEFT is set to QLIMIT at the start of an epoch. -/
def execPacerEpoch (q : Nat) (s : State) : Host.Outcome State Fault Refusal :=
  .next (match epochDue s q with
    | some limit => s.setQuad q { s.quad q with epoch := s.cycle / Config.epoch, left := limit }
    | none => s)

/-! ### The heat checkpoint (R384, R385) -/

/-- A member context has waited for the heat's end for more than W cycles, or is excused. -/
def atHeatEnd (s : State) (g : Gang) (t : Nat) : Bool :=
  let k := s.thread t
  g.excused.contains k.rank || (going s t && decide (k.stoppedAt + Config.holdWindow < s.cycle) &&
    (match k.wait with
    | .hurdle d l n _ => d.val == 0 && l == g.scope && n == g.completed 0 g.scope 0 + 1
    | _ => false))

/-- The conditions of R385. -/
def checkpointDue (s : State) (n : Nat) (g : Gang) : Bool :=
  g.resident && g.heatMode && g.closing.isNone && g.trigger.isNone && nextComplete s g 0 g.scope 0
    && ((g.members 0 g.scope 0).all (atHeatEnd s g))
    && (g.cores.all fun c => (s.core c).hold.isEmpty && (s.core c).starting.isEmpty && (s.quad (quadOfCore c)).phase == .idle)
    && (g.tids.all fun t => !outstanding s t s.seq) && ringsSettled s g.cores
    && !(waitingAtBanks s fun o => o.gang == n)
    && s.sections.all fun e => e.2.transfers.all fun x => x.gang != n || x.ended

/-- A section's part of the buffers is performed at the homes: marked lines keep their content (R330). -/
def State.commitSection (s : State) (quads : List Nat) (sec : Nat) : State :=
  let cells := (heatPart s quads sec).1.map fun e => ({ loc := forwardLoc s e.1, val := e.2, mask := 0xFF } : WByte)
  let s := (markedLines s cells).foldl (fun s c =>
    s.logIn sec { cls := 0x09, ukind := (homeUnit c.loc.key).1, unit := (homeUnit c.loc.key).2, obj := c.loc.obj, off := c.loc.off,
                  paddr := c.loc.key % 2 ^ 46 }) s
  s.storeCells (cells.filter fun c => !marked s c.loc)

/-- Sections in rising order. -/
def risingSections (cores : List Nat) : List Nat := (List.range 64).filter (sectionsOf cores).contains

/-- What a checkpoint holds. -/
def takeCheckpoint (s : State) (g : Gang) : Checkpoint :=
  { threads := startedContexts s g, queues := g.queues, gates := g.gates, engines := endpoints s g.cores
    clock := (g.cores.head?).bind fun c => (s.core c).phase.map fun v => s.cycle - v
    excused := g.excused, gens := g.gens, starts := g.starts }

/-- The end of a heat. -/
def State.checkpoint (s : State) (n : Nat) (g : Gang) : State :=
  let quads := quadsOf g.cores
  let s := (risingSections g.cores).foldl (fun s sec => s.commitSection quads sec) s
  let s := s.dropHeat quads (sectionsOf g.cores)
  let s := quads.foldl (fun s q => s.setQuad q { s.quad q with quota := 0 }) s
  let s := completeHurdle s n g 0 g.scope 0
  match s.gangs.get? n with
  | none => s
  | some g =>
    s.setGang n { g with checkpoint := some (takeCheckpoint s g), heatOld := [], outsideMsgs := [], callLog := [], callReplay := [],
                         heat := g.completed 0 g.scope 0, replays := 0 }

def execHeatCheckpoint (n : Nat) (s : State) : Host.Outcome State Fault Refusal :=
  .next (match s.gangs.get? n with
    | some g => if checkpointDue s n g then s.checkpoint n g else s
    | none => s)

/-! ### Replay (R387, R388) -/

/-- A member in service with a poison fault that a replay answers. -/
def poisoned (s : State) (g : Gang) : Option Nat :=
  if !g.resident then none else g.tids.find? fun t => (s.thread t).run == .service && (s.thread t).cause == 0x0B

/-- The rank that triggers a replay of a gang, once no recall is under way in its quads. -/
def replayDue (s : State) (n : Nat) (g : Gang) : Option Nat :=
  if !g.resident || g.closing.isSome || !canReplay s n
      || !((quadsOf g.cores).all fun q => (s.quad q).phase == .idle || (s.quad q).phase == .lost) then none
  else match g.trigger with
    | some r => some r
    | none => (poisoned s g).map fun t => (s.thread t).rank

/-- Steps 1 and 3: tiles, entries, replies, waiting writes, transfers and buffers of the heat are gone, and the on-die stores are
as at the checkpoint. -/
def State.undoHeat (s : State) (n : Nat) (g : Gang) : State :=
  let quads := quadsOf g.cores
  let s := quads.foldl State.notePools s
  let s := g.cores.foldl (fun s c => s.setCore c { s.core c with hold := [], replies := [], claim := none, starting := [], journal := [] }) s
  let s := { s with
    quads := s.quads.map fun (e : Nat × Quad) => (e.1, { e.2 with outside := e.2.outside.filter fun o => o.gang != n })
    sections := s.sections.map fun (e : Nat × Section) =>
      (e.1, { e.2 with transfers := e.2.transfers.filter fun t => t.gang != n || t.heat != g.heat }) }
  let s := s.dropHeat quads (sectionsOf g.cores)
  let s := quads.foldl (fun s q => s.setQuad q
    { s.quad q with splits := [], nextSplit := 0, reports := [], journal := [], quota := 0, phase := .idle,
                    engines := (s.quad q).engines.map fun e => { e with late := [], leaves := [], waiting := [] } }) s
  let s := g.tids.foldl (fun s t => s.setThread t { s.thread t with t := Vector.replicate 16 none }) s
  { s with mem := g.heatOld.foldl (fun m e => m.write e.key e.old) s.mem
           poison := s.poison.filter fun l => !(g.heatOld.any fun e => e.key / 256 == l) }

/-- The results of the heat's system calls, which the ranks that made them get again (R383). -/
def Gang.callsAgain (g : Gang) : Table (List (Nat × List Word)) :=
  ((g.callLog.map (·.1)) ++ g.callReplay.map (·.1)).foldl (fun t r => t.put r (g.callsOf r ++ g.replaysOf r)) []

/-- Steps 2 and 4 for one context. -/
def State.restoreContext (s : State) (g : Gang) (k : Checkpoint) (t rank : Nat) : State :=
  let cur := s.thread t
  match k.threads.get? rank with
  | some old => s.placeThreads g [(rank, old)]
  | none => if cur.run = .never then s else s.setThread t { Thread.zero with run := .ended, gang := cur.gang, rank, stoppedAt := s.cycle }

/-- An outside message of the heat is appended again. -/
def State.appendAgain (s : State) (g : Gang) (o : Outgoing) : State :=
  match g.tidOf o.rank with
  | none => s
  | some t =>
    let k := s.thread t
    if k.free then s
    else if k.overflow.length < Config.overflowMessages ∧ k.spill = [] then
      s.setThread t { k with overflow := k.overflow ++ [o.msg], wake := true }
    else s.setThread t { k with spill := k.spill ++ [o.msg], wake := true }

/-- A replay of the current heat. -/
def State.replayHeat (s : State) (n : Nat) (g : Gang) (k : Checkpoint) (rank : Nat) : State :=
  -- the manual does not say which unit the record names
  let s := { s with fresh := s.fresh + 2 }.logIn ((g.cores.map sectionOfCore).headD 0)
    { cls := 0x0F, ukind := (Config.freeValue s.fresh).toNat % 8, unit := (Config.freeValue (s.fresh + 1)).toNat, rank := some rank }
  let s := s.undoHeat n g
  let g := { g with queues := k.queues, gates := k.gates, excused := k.excused, gens := k.gens, starts := k.starts, heatOld := [],
                    moves := [], trigger := none, replays := g.replays + 1, shadows := [], callLog := [], callReplay := g.callsAgain }
  let s := s.setGang n g
  let s := ((List.range g.cores.length).flatMap fun p => [2 * p, 2 * p + 1]).foldl (fun s r => match g.tidOf r with
    | some t => s.restoreContext g k t r
    | none => s) s
  let s := s.setEndpoints g.cores k.engines
  let s := if g.switching then s.setGang n { g with stoppedClock := k.clock }
    else g.cores.foldl (fun s c => s.setCore c { s.core c with phase := k.clock.map fun v => s.cycle - v }) s
  let s := g.outsideMsgs.foldl (fun s o => s.appendAgain g o) s
  g.tids.foldl State.letRun s

def execHeatReplay (n : Nat) (s : State) : Host.Outcome State Fault Refusal :=
  .next (match s.gangs.get? n with
    | none => s
    | some g => match replayDue s n g, g.checkpoint with
      | some rank, some k =>
        let s := match poisoned s g with
          | some t => s.handlePoison t
          | none => s
        s.replayHeat n ((s.gangs.get? n).getD g) k rank
      | _, _ => s)

end Sys2Proof.Machine
end

