-- ==== Sys2Proof/Machine/Pod.lean ====
section
/-! DEFINITION. Hjelwa and the pod as one package sees them (16 R389 to R395; 17 R406, R407). Other packages and host
sockets appear by what they cause: a request that gets no response, a heartbeat, a lost package, a host access. -/

namespace Sys2Proof.Machine

/-- A record of class 0x0B; no section reports it. -/
def State.logLink (s : State) (port : Nat) : State := s.logPackage { cls := 0x0B, ukind := 6, unit := port, detail := port }

/-- A flit sent again changes no result (R391). -/
def execFlitReplay (port : Nat) (s : State) : Host.Outcome State Fault Refusal := .next (s.logLink port)

def State.port (s : State) (n : Nat) : Port := (s.ports.get? n).getD { halfWidth := false, fenced := false }

/-- A lane fails: its port goes to half width, or fails and is fenced (R391, R380). -/
def execLaneFailure (port : Nat) (portFails : Bool) (s : State) : Host.Outcome State Fault Refusal :=
  let s := s.logLink port
  .next (if portFails then
      { s.setPmc (s.pmc.fence 6 port) with ports := s.ports.put port { s.port port with fenced := true } }
    else { s with ports := s.ports.put port { s.port port with halfWidth := true } })

/-! ### Time-outs (R392) -/

/-- A location beyond the package: of another package, or of a host. -/
def remote (s : State) (l : Loc) : Bool :=
  let k := (forwardLoc s l).key
  (decide (hostBase ≤ k) && !onDie k) || (decide (k < 2 ^ 56) && k / 2 ^ 46 != s.pkg)

/-- Every location of an effect. -/
def HeldEffect.places (e : HeldEffect) : List Loc := e.locs ++ e.loads

/-- The head of a core's hold buffer is a request that crosses Hjelwa. -/
def lateHead (s : State) (core : Nat) : Option HoldEntry :=
  match (s.core core).hold with
  | [] => none
  | e :: _ => if headDue s core e && e.effect.places.any (remote s) then some e else none

/-- The registers of a held load. -/
def HeldEffect.dests : HeldEffect → List DestReg
  | .loadSE _ _ d | .loadElems _ _ d => [d]
  | .loadImage _ ts => ts.map fun p => DestReg.t p.1
  | .amo _ _ _ _ _ d => [.x d]
  | _ => []

/-- The poisoned reply of a request that gets no response, and its log records (R187, R376). -/
def State.noResponse (s : State) (core : Nat) (e : HoldEntry) (ls : List Loc) : State :=
  match ls with
  | [] => s
  | l :: _ => ((s.logTimeout e.tid l).logPoison e.tid l).reply core (poisonReply e.seq e.tid l e.effect.dests)

/-- The head is answered by its own agent: a write's remote units are dropped, and a request gets a poisoned reply.
Whether an atomic was performed is not known, so a free value decides. -/
def answerHead (s : State) (core : Nat) (e : HoldEntry) : State :=
  let c := s.core core
  let s := s.setCore core { c with hold := c.hold.filter fun f => f.seq != e.seq, released := some s.cycle }
  match e.effect with
  | .store units =>
    let lost := fun (u : List WByte) => u.any fun c => remote s c.loc
    (s.dropUnits e.tid (units.filter lost)).arriveOwn core e.seq e.tid 0 (units.filter fun u => !lost u)
  | .amo op ls w x old d =>
    let done := (Config.freeValue s.fresh).getLsbD 0
    let s := { s with fresh := s.fresh + 1 }
    let performed := performAmo s core e.seq e.tid e.cycle op ls w x old d
    let s := if done && !poisons s ls then performed.setCore core (s.core core) else s
    s.noResponse core e ls
  | f => s.noResponse core e f.loads

/-- The first running transfer that a core launched whose next part crosses Hjelwa, and a byte of it that does. -/
def lateCopy (s : State) (core : Nat) : Option (Nat × Transfer × Loc) :=
  let sec := sectionOfCore core
  ([0, 1].findSome? fun eng => match activeTransfer s sec eng with
    | none => none
    | some t =>
      let us := (planUnits s t t.part).1
      if t.core = core then (us.findSome? fun u => (u.2.1 ++ u.2.2).find? (remote s)).map fun l => (sec, t, l) else none)

/-- A region whose transfer an access of the core has started. -/
def lateRegion (s : State) (core : Nat) : Option Nat :=
  (s.regions.find? fun r => r.2.busy && !s.rerouting.contains r.1 && r.2.owed.any fun o => coreOf o.1 == core).map (·.1)

/-- A region in the memory of a lost host whose transfer is under way: its request is answered at once (R392). -/
def lostRegion (s : State) : Option (Nat × Region) :=
  s.regions.find? fun r => r.2.busy && !s.rerouting.contains r.1 && s.lost.contains (nodeOf (2 ^ 21 * r.1))

/-- The transfer waits for the next route restore; the agent whose access started it logs that it got no response (R376, R392). -/
def State.refuseRegion (s : State) : State :=
  match lostRegion s with
  | none => s
  | some (r, g) =>
    let s := { s with rerouting := r :: s.rerouting }
    match g.owed with
    | none => s
    | some o => s.logNoResponse (if o.1 < 8192 then sectionOf o.1 else (o.1 - 8192) / 2) none
        { key := r * 2 ^ 21, crypt := none, dmg := false, space := 0, obj := 0, off := 0 }

/-- A thread of a core that can be making a request. -/
def lateThread (s : State) (core : Nat) : Option Nat :=
  [2 * core, 2 * core + 1].find? fun t => going s t && (s.thread t).wait == .none && !(s.thread t).late

/-- The oldest request of a core, or of a transfer it launched, that crosses Hjelwa gets no response: a released one, an
ownership transfer, a copy engine's, or the one that a thread's instruction makes (logged by `State.handlePoison`). -/
def execRequestTimeout (core : Nat) (s : State) : Host.Outcome State Fault Refusal :=
  .next (match lateHead s core with
    | some e => answerHead s core e
    | none => match lateRegion s core with
      | some r => { s with rerouting := r :: s.rerouting }.logNoResponse (sectionOfCore core) none
          { key := r * 2 ^ 21, crypt := none, dmg := false, space := 0, obj := 0, off := 0 }
      | none => match lateCopy s core with
        | some (sec, t, l) =>
          let t := { t with state := 4, cause := 0x0B }
          ((s.logNoResponse sec (some t.rank) l).setTransfer sec t).copyPoison t
        | none => match lateThread s core with
          | some t => s.setThread t { s.thread t with late := true }
          | none => s)

/-! ### Pod recovery (R394, R395) -/

/-- A heartbeat of a neighbour: five misses in a row are reported. -/
def execHeartbeat (pkg : Nat) (answered : Bool) (s : State) : Host.Outcome State Fault Refusal :=
  .next (if answered then { s with missed := s.missed.drop pkg }
    else
      let n := (s.missed.get? pkg).getD 0 + 1
      { s with missed := s.missed.put pkg n
               reported := if 5 ≤ n ∧ !s.reported.contains pkg then s.reported ++ [pkg] else s.reported })

/-- The sections whose service core runs a gang. -/
def gangSections (s : State) : List Nat :=
  (List.range 64).filter fun n => s.gangs.any fun e => e.2.resident && e.2.cores.any fun c => sectionOfCore c == n

/-- Every such service core tells the host. -/
def State.notifyAll (s : State) (event arg : Nat) : State := (gangSections s).foldl (fun s _ => s.notifyHost event arg) s

/-- Blocks stored at another package or at a host socket: object record and block number. -/
def blocksOn (s : State) (pkg : Nat) : List (ObjRec × Nat) :=
  s.contexts.flatMap fun c => (c.2.gens.map (·.1)).dedup.flatMap fun n => match objRecord s c.2 n with
    | .ok (some o) => (List.range o.blocks).filterMap fun b =>
        let e := entryAt s o b
        if e.valid && decide (2 ≤ e.tier) && nodeOf e.storageKey == pkg then some (o, b) else none
    | _ => []

/-- A package or a host socket is lost: it is marked, its blocks leave the maps, and of a package the host is told. -/
def execPackageLost (pkg : Nat) (s : State) : Host.Outcome State Fault Refusal :=
  if pkg = s.pkg ∨ s.lost.contains pkg then .next s
  else
    let s := { s with lost := s.lost ++ [pkg] }.logPackage { cls := 0x0D, ukind := 7, unit := pkg }
    let s := (blocksOn s pkg).foldl (fun s p => s.changeEntry p.1 p.2 { entryAt s p.1 p.2 with valid := false }) s
    .next (if s.routes.get? pkg = some true then s else s.notifyAll 0x0200 pkg)

/-- The packages that the routes reach, this one among them (R382). -/
def reachablePackages (s : State) : Nat :=
  1 + (s.routes.filter fun r => !r.2 && r.1 != s.pkg && !s.lost.contains r.1).length

/-- The new routes are loaded: transfers of ownership that timed out are retried, and the host is told how many packages
are reachable. -/
def State.restoreRoutes (s : State) : State := { s with rerouting := [] }.notifyAll 0x0201 (reachablePackages s)

def execRoutesRestored (s : State) : Host.Outcome State Fault Refusal := .next s.restoreRoutes

/-- A lost package rejoins after its module reset, which ends in a new 0x0201 (R394). -/
def State.rejoin (s : State) (pkg : Nat) : State :=
  if s.lost.contains pkg then
    { s with lost := s.lost.filter (· != pkg), missed := s.missed.drop pkg, reported := s.reported.filter (· != pkg) }.restoreRoutes
  else s

/-! ### Host accesses (R337, R393, R407) -/

/-- Bytes that a host access names. -/
def hostBytes : HostOp → Nat
  | .read n => n
  | .write bs => bs.length

/-- A host access to device memory: not ready before STATE 3, an error outside the shared regions, and otherwise performed
once the host owns the region. -/
def execHostAccess (addr : Nat) (o : HostOp) (s : State) : Host.Outcome State Fault Refusal :=
  let refuse := fun (s : State) (r : HostReply) => { s with hostReplies := s.hostReplies ++ [r] }
  let r := regionOf addr
  .next (if s.pmc.held then s
    else if s.pmc.state ≠ 3 then refuse s .notReady
    else match s.regions.get? r with
      | none => refuse (s.logPackage { cls := 0x0E, ukind := 4, unit := baseDieOf addr, paddr := addr % 2 ^ 46 }) .error
      | some g =>
        if decide (0 < hostBytes o) && regionOf (addr + hostBytes o - 1) != r then
          refuse (s.logPackage { cls := 0x0E, ukind := 4, unit := baseDieOf addr, paddr := addr % 2 ^ 46 }) .error
        else if g.owner && !g.busy then s.hostPerform addr o
        else
          let s := { s with hostWaits := s.hostWaits ++ [(addr, o)] }
          if accessOwed s g then s else s.startTransfer r true none)

end Sys2Proof.Machine
end

