-- ==== Sys2Proof/Machine/Boot.lean ====
section
/-! DEFINITION. The package-management controller: boot, start record, attestation, key slots, power, cooling and the
management link (17 R397 to R412). -/

namespace Sys2Proof.Machine

/-- A number at an offset of a byte string (R5). -/
def bytesNat (b : List Byte) (at' n : Nat) : Nat := leNat ((b.drop at').take n)

def bytesZero (b : List Byte) (at' n : Nat) : Bool := ((b.drop at').take n).all (· == 0)

/-! ### The start record (R400, R401) -/

/-- The bytes of a magic number. -/
def magicIs (b : List Byte) (m : List Byte) : Bool := b.take 4 == m

/-- A copy of the start record that is whole: its magic number and its digest are right. -/
def startWhole (r : List Byte) : Bool :=
  r.length == 256 && magicIs r [0x52, 0x53, 0x54, 0x31] && r.drop 224 == shake256 (r.take 224) 32

/-- A reserved field of a start record is set (R7). -/
def startReserved (r : List Byte) : Bool :=
  !(bytesZero r 4 4 && bytesNat r 16 8 / 2 ^ 8 == 0 && field (bytesNat r 16 8) 4 2 == 0 && bytesZero r 24 200)

/-- A valid copy of the start record. -/
def startValid (r : List Byte) : Bool := startWhole r && !startReserved r

def startSeq (r : List Byte) : Nat := bytesNat r 8 8
def startControl (r : List Byte) : Word := BitVec.ofNat 64 (bytesNat r 16 8)

/-- SEQ of a copy for the acceptance test: an invalid copy counts as 0. -/
def acceptSeq (r : List Byte) : Nat := if startValid r then startSeq r else 0

/-- The control word that a module reset uses: that of the valid copy with the larger SEQ. -/
def Pmc.chosen (p : Pmc) : Word :=
  match startValid p.recA, startValid p.recB with
  | true, true => if startSeq p.recB ≤ startSeq p.recA then startControl p.recA else startControl p.recB
  | true, false => startControl p.recA
  | false, true => startControl p.recB
  | false, false => 0x40

/-- Fields of a control word (R400). -/
def ctlAdv (w : Word) : Bool := bitAt w 7
def ctlAlt (w : Word) : Bool := bitAt w 6
def ctlSks (w : Word) : Bool := bitAt w 3
def ctlSkm (w : Word) : Bool := bitAt w 2
def ctlBk2 (w : Word) : Bool := bitAt w 1
def ctlBk1 (w : Word) : Bool := bitAt w 0

/-- A write of a copy that is under way ends. -/
def Pmc.finishWrite (p : Pmc) : Pmc :=
  match p.writing with
  | none => p
  | some (true, r) => { p with recB := r, writing := none }
  | some (false, r) => { p with recA := r, writing := none }

/-- A record is submitted: it is accepted when it is valid and its SEQ exceeds those of both copies, and then written over
an invalid copy, or over the one with the smaller SEQ. -/
def Pmc.submit (p : Pmc) (r : List Byte) : Pmc :=
  let p := p.finishWrite
  if !startValid r || startSeq r ≤ acceptSeq p.recA || startSeq r ≤ acceptSeq p.recB then p
  else
    let overB := if !startValid p.recA then false
      else if !startValid p.recB then true
      else decide (startSeq p.recB < startSeq p.recA)
    { p with writing := some (overB, r) }

def execMstart (rec' : List Byte) (s : State) : Host.Outcome State Fault Refusal := .next (s.setPmc (s.pmc.submit rec'))

/-! ### Stage images (R397 to R399, R402) -/

/-- An image of a stage verifies. -/
def imageOk (img : List Byte) (stage fuse : Nat) : Bool :=
  let len := bytesNat img 16 8
  decide (4096 ≤ img.length) && magicIs img [0x52, 0x53, 0x42, 0x31] && bytesNat img 4 1 == stage && bytesZero img 5 3
    && decide (fuse ≤ bytesNat img 8 8) && decide (1 ≤ len) && decide (len ≤ 16 * 2 ^ 20) && decide (4096 + len ≤ img.length)
    && (img.drop 24).take 64 == shake256 ((img.drop 4096).take len) 64
    && falconVerify Config.falconKey (img.take 88) ((img.drop 88).take 1536)
    && bytesZero img 1624 2472

/-- The image of a bank: banks 0 and 1 of stage 1, then of stage 2. -/
def Pmc.image (p : Pmc) (stage : Nat) (bank : Bool) : List Byte := p.banks.getD (2 * (stage - 1) + (if bank then 1 else 0)) []

/-- The bank from which a stage is taken: the chosen one, or with ALT the other one (R402). -/
def Pmc.bankFor (p : Pmc) (stage : Nat) (bank : Bool) (fuse : Nat) : Option Bool :=
  if imageOk (p.image stage bank) stage fuse then some bank
  else if ctlAlt p.control && imageOk (p.image stage (!bank)) stage fuse then some (!bank)
  else none

/-- A measurement register extended (R403). -/
def Pmc.extend (p : Pmc) (n : Nat) (input : List Byte) : Pmc :=
  { p with meas := p.meas.set n (shake256 (p.meas.getD n [] ++ input) 64) }

/-- What a stage's register is extended with: DIGEST, VERSION and bank. -/
def Pmc.extendImage (p : Pmc) (stage : Nat) (bank : Bool) : Pmc :=
  let img := p.image stage bank
  ((p.extend stage ((img.drop 24).take 64)).extend stage ((img.drop 8).take 8)).extend stage [if bank then 1 else 0]

/-- The machine with its compute dies in reset: everything but the PMC and what is outside the package is as after a
module reset. -/
def State.computeReset (s : State) : State :=
  { State.reset with pmc := s.pmc, pkg := s.pkg, pod := s.pod, podKeys := s.podKeys, podObjects := s.podObjects, fresh := s.fresh,
                     inputs := s.inputs, occurrences := s.occurrences, hostOut := s.hostOut, hostReplies := s.hostReplies }

/-- The reads of the start record that found a reserved field set in a whole copy (R7). -/
def Pmc.reservedReads (p : Pmc) : List ReservedRead :=
  ([(false, p.recA), (true, p.recB)].filter fun c => startWhole c.2 && startReserved c.2).map fun c => .startRecord c.1

/-- The fenced ports after a module reset (R380). -/
def Pmc.fencedPorts (p : Pmc) : Table Port :=
  (p.fences.filter fun f => f.1 == 6).foldl (fun t f => t.put f.2 { halfWidth := false, fenced := true }) []

/-- A module reset, which leaves the registers of the management link as R411's Reset columns have them, and the starting
block: it reads the start record, and verifies and starts stage 1. -/
def execModuleReset (s : State) : Host.Outcome State Fault Refusal :=
  let p := s.pmc.finishWrite
  let p := { p with
    state := 0, bank1 := false, bank2 := false, control := p.chosen, withheld := [], fencesInForce := p.fences, held := false
    limit := 2400, trip := false, abusy := false, throtPower := false, throtTemp := false
    meas := List.replicate 4 (List.replicate 64 0) }
  let p := (p.extend 0 Config.romDigest).extend 0 [BitVec.ofNat 8 p.fuse1, BitVec.ofNat 8 p.fuse2]
  let p := match p.bankFor 1 (ctlBk1 p.control) p.fuse1 with
    | none => { p with state := 4 }
    | some b => { (p.extendImage 1 b) with state := 1, bank1 := b, version1 := bytesNat (p.image 1 b) 8 8 }
  .next { s.computeReset.setPmc p with reservedReads := p.reservedReads, ports := p.fencedPorts }

/-- The withheld quads as a mask of 512 bits. -/
def withheldMask (qs : List Nat) : Nat := (List.range 512).foldl (fun n q => if qs.contains q then n + 2 ^ q else n) 0

/-- Stage 1 has trained the package and run the self-tests, of which the start record skips some: quads that failed are
withheld, and frames that failed are retired; it loads the nodes of the pod into the route table (R406), and verifies stage 2
and loads it into every service core. -/
def execStage1Complete (withheld retired : List Nat) (s : State) : Host.Outcome State Fault Refusal :=
  if s.pmc.state ≠ 1 ∨ s.pmc.held then .next s
  else
    let p := s.pmc.finishWrite
    let frames := if ctlSkm p.control then [] else retired.filter fun f => !p.retired.contains f
    let p := { p with withheld := if ctlSks p.control then [] else withheld, retired := frames ++ p.retired }
    let s := frames.foldl (fun s f =>
      let u := lineUnit s.pkg (256 * f)
      s.logPackage { cls := 0x10, ukind := u.1, unit := u.2.1, paddr := f * 65536 % 2 ^ 46 }) (s.setPmc p)
    let p := s.pmc
    let s := { s with routes := s.pod }
    .next (match p.bankFor 2 (ctlBk2 p.control) p.fuse2 with
      | none => s.setPmc { p with state := 4 }
      | some b =>
        let p' := { (p.extendImage 2 b) with state := 2, bank2 := b, version2 := bytesNat (p.image 2 b) 8 8 }
        { s with firmware := true }.setPmc
          (((p'.extend 3 (leBytes 8 p.control.toNat)).extend 3 (leBytes 64 (withheldMask p.withheld))).extend 3
            (leBytes 4 p.retired.length)))

/-- Section memory is scrubbed (R397). -/
def State.scrubSections (s : State) : State :=
  (List.range 64).foldl (fun (s : State) sec => s.clearRange (sectionBase sec) (2 ^ 23)) s

/-- Stage 2 is ready: section memory is scrubbed, the routes are loaded, TOUT has the firmware's value, and with ADV the fuse
counters follow the versions (R397, R399). -/
def execStage2Complete (s : State) : Host.Outcome State Fault Refusal :=
  if s.pmc.state ≠ 2 ∨ s.pmc.held then .next s
  else
    let p := s.pmc
    let adv := fun (fuse v : Nat) => if ctlAdv p.control then max fuse (min 64 v) else fuse
    .next ({ s.scrubSections with routes := s.pod, tout := 10000 + Config.firmwareChoice s.fresh % 9990001, fresh := s.fresh + 1 }.setPmc
      { p with state := 3, fuse1 := adv p.fuse1 p.version1, fuse2 := adv p.fuse2 p.version2 })

/-! ### Attestation (R404, R405) -/

/-- Bytes 0 to 319 of a report. -/
def quoteBytes (s : State) : List Byte :=
  let p := s.pmc
  [0x52, 0x41, 0x54, 0x31] ++ leBytes 4 p.state ++ p.nonce ++ p.meas.flatten ++ [BitVec.ofNat 8 p.fuse1, BitVec.ofNat 8 p.fuse2]
    ++ leBytes 2 s.pkg ++ leBytes 4 p.fences.length ++ List.replicate 16 0

/-- A quote starts, with its snapshot. -/
def Pmc.go (p : Pmc) (quote : List Byte) : Pmc := if p.abusy then p else { p with abusy := true, quote }

def execAgo (v : BitVec 32) (s : State) : Host.Outcome State Fault Refusal :=
  .next (if v = 1 then s.setPmc (s.pmc.go (quoteBytes s)) else s)

/-- Bytes of the nonce written from an offset. -/
def Pmc.putNonce (p : Pmc) (at' : Nat) (bs : List Byte) : Pmc :=
  if p.abusy then p else { p with nonce := (p.nonce.take at' ++ bs ++ p.nonce.drop (at' + bs.length)).take 32 }

def execAttn (nonce : List Byte) (s : State) : Host.Outcome State Fault Refusal := .next (s.setPmc (s.pmc.putNonce 0 nonce))

/-- A byte string cut or padded with zeros to a length. -/
def fitted (n : Nat) (bs : List Byte) : List Byte := (bs ++ List.replicate n 0).take n

/-- The report is complete, with its signature. -/
def execReportComplete (s : State) : Host.Outcome State Fault Refusal :=
  let p := s.pmc
  .next (if p.abusy then
      { s with fresh := s.fresh + 1 }.setPmc
        { p with abusy := false, report := p.quote ++ fitted 1536 (Config.quoteSignature p.quote s.fresh) }
    else s)

/-! ### The management link (R411, R412) -/

/-- A fence bit is cleared in the store; the unit stays as it is until the next module reset (R412). -/
def Pmc.repair (p : Pmc) (v : BitVec 32) : Pmc := { p with fences := p.fences.filter fun f => f != (bits v 12 4, bits v 0 12) }

def execMrepair (v : BitVec 32) (s : State) : Host.Outcome State Fault Refusal := .next (s.setPmc (s.pmc.repair v))

/-- TRIP is cleared by a 1. -/
def Pmc.clearTrip (p : Pmc) (v : BitVec 32) : Pmc := if bitAt v 5 then { p with trip := false } else p

def execMstatWrite (v : BitVec 32) (s : State) : Host.Outcome State Fault Refusal := .next (s.setPmc (s.pmc.clearTrip v))

/-- A word of the start record is written; the last one submits it. -/
def Pmc.putStart (p : Pmc) (at' : Nat) (v : BitVec 32) : Pmc :=
  let r := fitted 256 (p.mstart.take at' ++ List.replicate (at' - p.mstart.length) 0 ++ leBytes 4 v.toNat ++ p.mstart.drop (at' + 4))
  let p := { p with mstart := r }
  if at' = 252 then p.submit r else p

/-- A write to any register of the management link. -/
def execManagementWrite (addr : BitVec 16) (v : BitVec 32) (s : State) : Host.Outcome State Fault Refusal :=
  let p := s.pmc
  let a := addr.toNat
  .next (s.setPmc (
    if a % 4 ≠ 0 then p
    else if a = 0x0000 then p.clearTrip v
    else if a = 0x0004 then (if 600 ≤ bits v 0 12 ∧ bits v 0 12 ≤ 2400 then { p with limit := BitVec.ofNat 12 (bits v 0 12) } else p)
    else if a = 0x0010 then { p with logIdx := v }
    else if 0x0040 ≤ a ∧ a < 0x0140 then p.putStart (a - 0x0040) v
    else if a = 0x0140 then p.repair v
    else if a = 0x0144 then (if v = 1 then p.go (quoteBytes s) else p)
    else if 0x0160 ≤ a ∧ a < 0x0180 then p.putNonce (a - 0x0160) (leBytes 4 v.toNat)
    else p))

/-- MSTAT. -/
def Pmc.mstat (p : Pmc) : BitVec 32 :=
  let b := fun (x : Bool) (i : Nat) => if x then 2 ^ i else 0
  BitVec.ofNat 32 (min 255 p.fences.length * 2 ^ 16 + b p.abusy 7 + b (p.throtPower || p.throtTemp) 6 + b p.trip 5 + b p.bank2 4
    + b p.bank1 3 + p.state)

/-- What a register of the management link reads. -/
def managementRead (s : State) (addr : BitVec 16) : BitVec 32 :=
  let p := s.pmc
  let a := addr.toNat
  if a % 4 ≠ 0 then 0
  else if a = 0x0000 then p.mstat
  else if a = 0x0004 then p.limit.setWidth 32
  else if a = 0x0008 then BitVec.ofNat 32 (p.temp % 2 ^ 16)
  else if a = 0x000C then BitVec.ofNat 32 (p.inlet % 2 ^ 16 + p.flow % 2 ^ 16 * 2 ^ 16)
  else if a = 0x0010 then p.logIdx
  else if 0x0020 ≤ a ∧ a < 0x0040 then BitVec.ofNat 32 (((p.log.getD p.logIdx.toNat 0).toNat) / 2 ^ (8 * (a - 0x0020)))
  else if 0x1000 ≤ a ∧ a < 0x1740 then BitVec.ofNat 32 (bytesNat p.report (a - 0x1000) 4)
  else if 0x2000 ≤ a ∧ a < 0x3000 then BitVec.ofNat 32 (bytesNat Config.certificate (a - 0x2000) 4)
  else 0

/-! ### Keys, power and cooling (R408 to R410) -/

/-- A key slot is written at every base die between two line accesses. -/
def execKeySlotWrite (slot : Nat) (key : List Byte) (s : State) : Host.Outcome State Fault Refusal :=
  .next (if slot < 256 ∧ key.length = 64 then { s with keys := s.keys.put slot key } else s)

/-- The average power in watts is compared with LIMIT. -/
def execPowerLimitCheck (avg : Nat) (s : State) : Host.Outcome State Fault Refusal :=
  .next (s.setPmc { s.pmc with throtPower := decide (s.pmc.limit.toNat < avg) })

/-- The hottest die's temperature in tenths of a degree: above 100 °C issue is throttled, and above 110 °C the compute dies are
held in reset (R410). -/
def State.setTemperature (s : State) (temp : Nat) : State :=
  let p := { s.pmc with temp, throtTemp := decide (1000 < temp) }
  if 1100 < temp then s.computeReset.setPmc { p with trip := true, held := true } else s.setPmc p

def execThermalThrottle (temp : Nat) (s : State) : Host.Outcome State Fault Refusal := .next (s.setTemperature temp)

def execThermalTrip (temp : Nat) (s : State) : Host.Outcome State Fault Refusal := .next (s.setTemperature temp)

/-- Module power is lost: a copy of the start record that was being written is torn, so that it is invalid; the compute
dies are without power until a module reset, and of the PMC the non-volatile store remains. -/
def execPowerLoss (s : State) : Host.Outcome State Fault Refusal :=
  let p := s.pmc
  let p := match p.writing with
    | none => p
    | some (true, _) => { p with recB := [], writing := none }
    | some (false, _) => { p with recA := [], writing := none }
  .next (s.computeReset.setPmc
    { Pmc.zero with banks := p.banks, recA := p.recA, recB := p.recB, fuse1 := p.fuse1, fuse2 := p.fuse2, log := p.log,
                    fences := p.fences, retired := p.retired, held := true })

end Sys2Proof.Machine
end

