-- ==== Sys2Proof/Machine/Alu.lean ====
section
/-! DEFINITION. Integer arithmetic of the scalar instructions (04 R94 to R104), on bit vectors. -/

namespace Sys2Proof.Machine

/-- A `.w` result: bits 31:0 sign-extended (R97). -/
def sextW (v : BitVec 32) : Word := v.signExtend 64

/-- The low half of a word (R97). -/
def lowW (v : Word) : BitVec 32 := v.setWidth 32

/-- The `.w` form of an operation with the 64-bit one (R97). -/
def wide (w : Bool) (f32 : BitVec 32 → BitVec 32 → BitVec 32) (f64 : Word → Word → Word) (x y : Word) : Word :=
  if w then sextW (f32 (lowW x) (lowW y)) else f64 x y

/-- A shift or rotation by the low bits of a count (R96, R97). -/
def shiftBy (w : Bool) (f32 : BitVec 32 → Nat → BitVec 32) (f64 : Word → Nat → Word) (x : Word) (n : Nat) : Word :=
  if w then sextW (f32 (lowW x) (n % 32)) else f64 x (n % 64)

/-- 1 or 0 (R96). -/
def flagWord (b : Bool) : Word := if b then 1 else 0

/-- Signed quotient, truncating toward zero; all ones for a zero divisor, and the dividend for the one overflow
(R98). -/
def quotS {n : Nat} (x y : BitVec n) : BitVec n := if y = 0 then BitVec.allOnes n else x.sdiv y
/-- Unsigned quotient; all ones for a zero divisor (R98). -/
def quotU {n : Nat} (x y : BitVec n) : BitVec n := if y = 0 then BitVec.allOnes n else x / y
/-- Signed remainder with the dividend's sign; the dividend for a zero divisor (R98). -/
def remS {n : Nat} (x y : BitVec n) : BitVec n := if y = 0 then x else x.srem y
/-- Unsigned remainder; the dividend for a zero divisor (R98). -/
def remU {n : Nat} (x y : BitVec n) : BitVec n := if y = 0 then x else x % y

/-- Zero bits above the highest 1, or the width (R96). -/
def countLeading {n : Nat} (x : BitVec n) : Nat := if x = 0 then n else n - 1 - Nat.log2 x.toNat
/-- Zero bits below the lowest 1, or the width (R96). -/
def countTrailing {n : Nat} (x : BitVec n) : Nat := ((List.range n).takeWhile fun i => !x.toNat.testBit i).length
/-- The number of 1 bits (R96). -/
def countOnes {n : Nat} (x : BitVec n) : Nat := ((List.range n).filter fun i => x.toNat.testBit i).length

/-- A count within the word or its low half (R97). -/
def countBy (w : Bool) (f32 : BitVec 32 → Nat) (f64 : Word → Nat) (x : Word) : Word :=
  BitVec.ofNat 64 (if w then f32 (lowW x) else f64 x)

/-- Bits 127:64 of a product (R96). -/
def mulHigh (x y : Int) : Word := BitVec.ofInt 64 (x * y / 2 ^ 64)

end Sys2Proof.Machine

namespace Sys2Proof

/-- Bits of a width code (R100). -/
def Width3.bits : Width3 → Nat
  | .b => 8 | .h => 16 | .w => 32

end Sys2Proof

namespace Sys2Proof.Machine

/-- The low bits of a word, zero-extended (R100). -/
def zextLow (n : Nat) (x : Word) : Word := BitVec.ofNat 64 (x.toNat % 2 ^ n)

/-- `luis`: a 12-bit chunk spliced in at position h (R103). -/
def spliceChunk (x : Word) (h : Nat) (v : BitVec 12) : Word :=
  let mask : Word := BitVec.ofNat 64 (0xFFF * 2 ^ (12 * h))
  (x &&& ~~~mask) ||| (BitVec.ofNat 64 (v.toNat * 2 ^ (12 * h)) &&& mask)

/-- `bext`: bits pos+len−1 to pos (R104). -/
def extractField (x : Word) (pos len : Nat) : Word := BitVec.ofNat 64 (x.toNat / 2 ^ pos % 2 ^ len)

/-- `bins`: those bits replaced by the low bits of another word (R104). -/
def insertField (old x : Word) (pos len : Nat) : Word :=
  let mask : Word := BitVec.ofNat 64 ((2 ^ len - 1) * 2 ^ pos)
  (old &&& ~~~mask) ||| (BitVec.ofNat 64 (x.toNat % 2 ^ len * 2 ^ pos) &&& mask)

end Sys2Proof.Machine
end

