-- ==== Sys2Proof/Machine/Control.lean ====
section
/-! DEFINITION. The constant window and the branches and jumps (04 R105 to R111), majors 0x0A and 0x0C to 0x14. -/

namespace Sys2Proof.Machine

/-! ### Constant window (R105, R106) -/

/-- The current thread's word N of the window (R66 to R68). -/
def ownWindow (s : State) (n : Nat) : Word := windowWord s s.tid n

/-- The place of a word that is stored in local memory (R66). -/
def windowLoc (s : State) (n : Nat) : Loc :=
  { key := localBase (coreOf s.tid) + 8 * n, crypt := none, dmg := false, space := 5, obj := 0, off := 8 * n }

/-- A read of word N: a stored word follows R330 and R377 as every read of local memory does, with `faddr` as for a space-5
load of it (DEDUCED, log entry 107). -/
def useWindow (s : State) (n : Nat) : Except Stop Word :=
  if 248 ≤ n then .ok (ownWindow s n)
  else if !(weakLines s [windowLoc s n]).isEmpty then .error (.reread (weakLines s [windowLoc s n]))
  else if marked s (windowLoc s n) then trapOf 0x0B (BitVec.ofNat 64 (8 * n))
  else .ok (ownWindow s n)

/-- Two adjacent words as a reference (R105). -/
def useWindowRef (s : State) (n : Nat) : Except Stop Ref := do
  let low ← useWindow s n
  let high ← useWindow s (n + 1)
  return high ++ low

/-- `kld` (R105). -/
def execKld (d : Rx) (k : Fin 256) (s : State) : Host.Outcome State Fault Refusal :=
  finish s (do
    let v ← useWindow s k.val
    return retire (s.wx d v))

def execKldIndexed (d a : Rx) (k : Fin 256) (s : State) : Host.Outcome State Fault Refusal :=
  finish s (do
    let x ← useX s a
    let i := k.val + x.toNat
    require (decide (i ≤ 255)) 0x06 (BitVec.ofNat 64 (8 * i))
    let v ← useWindow s i
    return retire (s.wx d v))

def execKldRef (d : Ra) (k2 : Fin 128) (s : State) : Host.Outcome State Fault Refusal :=
  finish s (do
    let v ← useWindowRef s (2 * k2.val)
    return retire (s.wa d v))

def execKldRefIndexed (d : Ra) (a : Rx) (k2 : Fin 128) (s : State) : Host.Outcome State Fault Refusal :=
  finish s (do
    let x ← useX s a
    let i := 2 * k2.val + x.toNat
    require (decide (i + 1 ≤ 255)) 0x06 (BitVec.ofNat 64 (8 * i))
    require (i % 2 == 0) 0x05 (BitVec.ofNat 64 (8 * i))
    let v ← useWindowRef s i
    return retire (s.wa d v))

/-! ### Branches (R107, R108, R111) -/

/-- The target of a displacement of whole words (R79). -/
def target {n : Nat} (pc : Word) (disp : BitVec n) : Word := pc + BitVec.ofInt 64 (4 * disp.toInt)

/-- Go to the target when the condition holds, else on (R107). -/
def branch (c : Word → Word → Bool) (a b : Rx) (disp : BitVec 16) (s : State) : Host.Outcome State Fault Refusal :=
  finish s (do
    let x ← useX s a
    let y ← useX s b
    return if c x y then retireTo s (target s.th.pc disp) else retire s)

def execBeq (a b : Rx) (disp : BitVec 16) (s : State) := branch (fun x y => x == y) a b disp s
def execBne (a b : Rx) (disp : BitVec 16) (s : State) := branch (fun x y => x != y) a b disp s
def execBlt (a b : Rx) (disp : BitVec 16) (s : State) := branch (fun x y => x.slt y) a b disp s
def execBge (a b : Rx) (disp : BitVec 16) (s : State) := branch (fun x y => !x.slt y) a b disp s
def execBltn (a b : Rx) (disp : BitVec 16) (s : State) := branch (fun x y => x.ult y) a b disp s
def execBgen (a b : Rx) (disp : BitVec 16) (s : State) := branch (fun x y => !x.ult y) a b disp s

/-- `pbr`: a branch on `pa AND pg` against a condition (R108). -/
def predBranch (c : PReg → PReg → Bool) (a g : Rp) (disp : BitVec 16) (s : State) : Host.Outcome State Fault Refusal :=
  finish s (.ok (
    let m := s.th.rp a &&& s.th.rp g
    if c m (s.th.rp g) then retireTo s (target s.th.pc disp) else retire s))

def execPbrAny (a g : Rp) (disp : BitVec 16) (s : State) := predBranch (fun m _ => m != 0) a g disp s
def execPbrAll (a g : Rp) (disp : BitVec 16) (s : State) := predBranch (fun m p => m == p) a g disp s
def execPbrNone (a g : Rp) (disp : BitVec 16) (s : State) := predBranch (fun m _ => m == 0) a g disp s

/-! ### Jumps (R109 to R111) -/

/-- The link of a jump: pc + 4, zero-extended (R109), in the 44 bits of `pc`, so that it is 0 at 2^44 - 4 (DEDUCED, log
entry 106). -/
def link (s : State) : Word := BitVec.ofNat 64 ((s.th.pc.toNat + 4) % 2 ^ 44)

def execJal (d : Rx) (disp : BitVec 21) (s : State) : Host.Outcome State Fault Refusal :=
  finish s (.ok (retireTo (s.wx d (link s)) (target s.th.pc disp)))

def execJalr (d a : Rx) (imm : BitVec 16) (s : State) : Host.Outcome State Fault Refusal :=
  finish s (do
    let x ← useX s a
    let t := x + imm.signExtend 64
    require (t.toNat % 4 == 0) 0x05 t
    return retireTo (s.wx d (link s)) t)

end Sys2Proof.Machine
end

