-- ==== Sys2Proof/Machine/Lanes.lean ====
section
/-! DEFINITION. Elements, predicates and merging of the vector instructions (05 R120 to R123), and the shape that the
operations share which a repeat frame may hold (R147, R148). -/

namespace Sys2Proof

/-- n of R120. -/
def Ty.lanes (t : Ty) : Nat := 128 / t.bytes

/-- The values of one element: an l6 element is six bits, which the other two of its position do not change (R36). -/
def Ty.values (t : Ty) : Nat := if t = .l6 then 64 else 2 ^ t.width

end Sys2Proof

namespace Sys2Proof.Machine

/-- Element `e` of a type is active under a predicate (R60, R121). -/
def active (t : Ty) (g : PReg) (e : Nat) : Bool := bitAt g (t.bytes * e)

/-- Every element of a type is active. -/
def allActive (t : Ty) (g : PReg) : Bool := (List.range t.lanes).all (active t g)

/-- The elements of a register by a function of their number; an inactive one keeps its bits and raises nothing
(R121, R55). -/
def mapLanes (t : Ty) (g : PReg) (old : VReg) (f : Nat → Nat × Flags) : VReg × Flags :=
  let r := (List.range t.lanes).map fun e => if active t g e then f e else (elem t.width e old, 0)
  (BitVec.ofNat 1024 (packList t.width (r.map (·.1))), gather r)

/-- Elements that raise no flag. -/
def mapBits (t : Ty) (g : PReg) (old : VReg) (f : Nat → Nat) : VReg × Flags := mapLanes t g old fun e => (f e, 0)

/-- All s bits of each element below n at a condition's value, and the other bits 0 (R60). -/
def lanePred (t : Ty) (c : Nat → Bool) : PReg :=
  BitVec.ofNat 128 (packList t.bytes ((List.range t.lanes).map fun e => if c e then 2 ^ t.bytes - 1 else 0))

/-- The feature check of R82 step 5 for a type field of an F-V or F-VC word. -/
def requireType (s : State) (t : Ty) : Except Stop Unit := require (t != .f64 || onFdie s.tid) 0x03

/-! ### Register-to-register operations -/

/-- An operation of majors 0x20, 0x21, 0x23 to 0x25 or 0x27 but `vbcl`: the registers it names, its predicate, its type
fields, whether it keeps old elements of `vd` under a predicate, and what it computes from the rounding mode, the
predicate, and the values of `vd`, `va` and `vb`. -/
structure VecOp where
  d : Rv
  a : Rv
  b : Option Rv
  g : Rg
  types : List Ty
  keeps : PReg → Bool
  f : Mode → PReg → VReg → VReg → VReg → VReg × Flags

/-- An operation that merges under its predicate (R121). -/
def merging (t : Ty) (d a : Rv) (b : Option Rv) (g : Rg) (reads : Bool)
    (f : Mode → VReg → VReg → VReg → Nat → Nat × Flags) : VecOp :=
  { d, a, b, g, types := [t], keeps := fun p => reads || !allActive t p
    f := fun m p vd va vb => mapLanes t p vd (f m vd va vb) }

/-- The operation on the current thread's registers, without its retirement: what it raises is raised at `step`. -/
def VecOp.run (o : VecOp) (s : State) (step : Nat) : Except Stop State := do
  for t in o.types do requireType s t
  let p := s.th.rg o.g
  let va ← useV s o.a
  let vb ← match o.b with
    | some b => useV s b
    | none => pure 0
  let vd ← if o.keeps p then useV s o.d else pure (s.th.rv o.d)
  let (v, fl) := o.f (modeOf s.th.fcsr) p vd va vb
  let s ← raiseFlags s fl step
  return s.wv o.d v

/-- The instruction made of one operation. -/
def VecOp.exec (o : VecOp) (s : State) : Host.Outcome State Fault Refusal :=
  finish s (do return retire (← o.run s 0))

end Sys2Proof.Machine
end

