-- ==== Sys2Proof/Machine/VectorMem.lean ====
section
/-! DEFINITION. Vector loads and stores (05 R142 to R145), major 0x29. -/

namespace Sys2Proof.Machine

/-! ### Elements in memory (R36, R142) -/

/-- Bytes of one element access: an l6 element is reached in its group of three bytes. -/
def accessBytes (t : Ty) : Nat := if t = .l6 then 3 else t.bytes
def accessAlign (t : Ty) : Nat := if t = .l6 then 1 else t.bytes

/-- The parts of the bytes of element `e` that a register takes from bit `pos` on; `k` is the element's place in its
group of four l6 elements. -/
def elemPieces (t : Ty) (k pos : Nat) (ls : List Loc) : List Piece :=
  ((List.range ls.length).zip ls).map fun (i, l) =>
    if t = .l6 then
      let lo := max (6 * k) (8 * i)
      let hi := min (6 * k + 6) (8 * i + 8)
      { loc := l, lo := lo - 8 * i, len := hi - lo, pos := pos + (lo - 6 * k) }
    else { loc := l, lo := 0, len := 8, pos := pos + 8 * i }

/-- A vector memory instruction's reference: its type, the opened object, and the l6 rules (R143 step 2). -/
structure VecRef where
  r : Ref
  t : Ty
  o : Opened

/-- The check of R143 step 2. -/
def vecRef (s : State) (ref : Ra) (l6 : Bool) (x : Word) (imm : BitVec 7) (acc : Acc) : Except Stop VecRef := do
  let r ← useA s ref
  checkRef r true
  let t := (Ty.ofCode (refType r)).getD .i8
  if t = .l6 then
    require l6 0x02
    require (x.toInt % 4 == 0) 0x05 (BitVec.ofInt 64 (refOff r + 96 * imm.toInt + 3 * (x.toInt / 4)))
  return { r, t, o := openRef s (whoTh s) r acc }

/-- Where element `e` begins, for consecutive elements (R142). The x index is read as a signed number (DEDUCED, log entry
20). -/
def rowAddr (v : VecRef) (x : Word) (imm : BitVec 7) (e : Nat) : Int :=
  if v.t = .l6 then refOff v.r + 96 * imm.toInt + 3 * ((x.toInt + e) / 4)
  else refOff v.r + (imm.toInt * v.t.lanes + x.toInt + e) * v.t.bytes

/-- With a byte stride. -/
def strideAddr (v : VecRef) (x : Word) (imm : BitVec 7) (e : Nat) : Int :=
  refOff v.r + imm.toInt * v.t.bytes + e * x.toInt

/-- With indices from a vector register. -/
def gatherAddr (v : VecRef) (x : VReg) (imm : BitVec 7) (e : Nat) : Int :=
  refOff v.r + imm.toInt * v.t.bytes + (elem v.t.width e x : Int) * v.t.bytes

/-- One element for all. -/
def oneAddr (v : VecRef) (x : Word) (imm : BitVec 7) (_ : Nat) : Int :=
  refOff v.r + (imm.toInt + x.toInt) * v.t.bytes

/-- The check of R143 step 3 for one element. -/
def elemLocs (s : State) (v : VecRef) (acc : Acc) (addr : Nat → Int) (e : Nat) : Except Stop (Nat × List Loc) := do
  let ls ← elemUnit s (whoTh s) v.o v.r (addr e) (accessBytes v.t) (accessAlign v.t) acc (BitVec.ofNat 64 e)
  return (e, ls)

/-- The active elements, ascending. -/
def activeElems (t : Ty) (g : PReg) : List Nat := (List.range t.lanes).filter (active t g)

/-! ### Loads -/

/-- The register takes the loaded elements and keeps the others; from a side-effect object the load is a held request
(R184). -/
def loadElems (s : State) (v : VecRef) (d : Rv) (es : List (Nat × List Loc)) : Except Stop State := do
  let all := decide (es.length = v.t.lanes)
  let old ← if all then pure (s.th.rv d) else useV s d
  let keep := (List.range v.t.lanes).map fun e => if es.any fun f => f.1 == e then 0 else elem v.t.width e old
  let keep := packList v.t.width keep
  let ps := es.flatMap fun f => elemPieces v.t (f.1 % 4) (v.t.width * f.1) f.2
  if v.o.sideEffect && !es.isEmpty then
    heldLoad s (.loadElems ps keep (.v d)) [.v d]
  else
    let (_, s) ← loadUnits s (es.map (·.2)).dedup
    let bs := ps.map fun p => viewByte s (whoTh s) p.loc
    return s.wv d (BitVec.ofNat 1024 (assemble keep ps bs))

/-- A vector load whose elements lie where `addr` says. -/
def vectorLoad (d : Rv) (p : Rg) (s : State) (v : VecRef) (addr : Nat → Int) : Except Stop State := do
  let es ← (activeElems v.t (s.th.rg p)).mapM (elemLocs s v .load addr)
  return retire (← loadElems s v d es)

/-- `vld`. Where a poison fault of the index register stands in R143's order no rule says: the register is read first, before the
checks of the reference, in every vector memory instruction (DESIGN CHOICE, log entry 130). -/
def execVld (d : Rv) (r : Ra) (x : Rx) (imm : BitVec 7) (p : Rg) (s : State) : Host.Outcome State Fault Refusal :=
  finish s (do
    let i ← useX s x
    let v ← vecRef s r true i imm .load
    vectorLoad d p s v (rowAddr v i imm))

def execVlds (d : Rv) (r : Ra) (x : Rx) (imm : BitVec 7) (p : Rg) (s : State) : Host.Outcome State Fault Refusal :=
  finish s (do
    let i ← useX s x
    let v ← vecRef s r false 0 imm .load
    vectorLoad d p s v (strideAddr v i imm))

def execVldg (d : Rv) (r : Ra) (x : Rv) (imm : BitVec 7) (p : Rg) (s : State) : Host.Outcome State Fault Refusal :=
  finish s (do
    let i ← useV s x
    let v ← vecRef s r false 0 imm .load
    vectorLoad d p s v (gatherAddr v i imm))

def execVldb (d : Rv) (r : Ra) (x : Rx) (imm : BitVec 7) (p : Rg) (s : State) : Host.Outcome State Fault Refusal :=
  finish s (do
    let i ← useX s x
    let v ← vecRef s r false 0 imm .load
    vectorLoad d p s v (oneAddr v i imm))

/-- The elements up to the first whose check fails, and that element; a first active element that fails faults (R144). -/
def firstFault (s : State) (v : VecRef) (addr : Nat → Int) : List Nat → Except Stop (List (Nat × List Loc) × Option Nat)
  | [] => .ok ([], none)
  | e :: es => match elemLocs s v .load addr e with
    | .error (.trap _) => .ok ([], some e)
    | .error r => .error r
    | .ok u => do
      let (us, stop) ← firstFault s v addr es
      return (u :: us, stop)

/-- The predicate without the bits of the elements from `e` on. -/
def clearFrom (t : Ty) (g : PReg) (e : Nat) : PReg := BitVec.ofNat 128 (g.toNat % 2 ^ (t.bytes * e))

/-- `vldff` (R144). From a side-effect object R144 writes `vd` and the predicate together at retirement, and R184 and R186 write the
register of a held load at its reply: here the predicate is cut at retirement and `vd` is written at the reply (DESIGN CHOICE, log
entry 132). -/
def execVldff (d : Rv) (r : Ra) (x : Rx) (imm : BitVec 7) (p : Rg) (s : State) : Host.Outcome State Fault Refusal :=
  finish s (do
    let i ← useX s x
    let v ← vecRef s r true i imm .load
    match activeElems v.t (s.th.rg p) with
    | [] => return retire s
    | e :: es =>
      let first ← elemLocs s v .load (rowAddr v i imm) e
      let (us, stop) ← firstFault s v (rowAddr v i imm) es
      let s' ← loadElems s v d (first :: us)
      return retire (match stop with
        | none => s'
        | some k => s'.wp ⟨p.val, by omega⟩ (clearFrom v.t (s.th.rg p) k)))

/-! ### Stores (R145) -/

/-- The bytes that elements write: one unit for each element, or for each l6 group. -/
def storeElems (v : VecRef) (data : VReg) (es : List (Nat × List Loc)) : List (List WByte) :=
  if v.t = .l6 then
    (es.map (·.2)).dedup.map fun ls =>
      let mine := es.filter fun f => f.2 == ls
      let val := mine.foldl (fun n f => n + elem 8 f.1 data % 64 * 2 ^ (6 * (f.1 % 4))) 0
      let mask := mine.foldl (fun n f => n + 63 * 2 ^ (6 * (f.1 % 4))) 0
      (((List.zip ls (leBytes 3 val)).zip (leBytes 3 mask)).map fun c =>
        ({ loc := c.1.1, val := c.1.2, mask := c.2 } : WByte)).filter fun c => c.mask != 0
  else es.map fun f => wbytes f.2 (leBytes v.t.bytes (elem v.t.width f.1 data))

/-- Units by the 256-byte line they begin in: one group, and so one entry, for each distinct line written. -/
def byLine (units : List (List WByte)) : List (List (List WByte)) :=
  (storeLines units).map fun n => units.filter fun u => match u with
    | [] => false
    | c :: _ => c.loc.key / 256 == n

/-- A vector store whose elements lie where `addr` says. No rule says when it reads the stored register, and whether it does when
no element is active: it reads it always, after the checks of the reference and before those of the elements (DESIGN CHOICE, log
entries 130 and 131). -/
def vectorStore (d : Rv) (p : Rg) (s : State) (v : VecRef) (addr : Nat → Int) : Except Stop State := do
  let data ← useV s d
  let es ← (activeElems v.t (s.th.rg p)).mapM (elemLocs s v .store addr)
  let fa := match es with
    | [] => 0
    | f :: _ => BitVec.ofInt 64 (addr f.1)
  return retire (← storeUnits s (refSpace v.r) (byLine (storeElems v data es)) fa)

def execVst (d : Rv) (r : Ra) (x : Rx) (imm : BitVec 7) (p : Rg) (s : State) : Host.Outcome State Fault Refusal :=
  finish s (do
    let i ← useX s x
    let v ← vecRef s r true i imm .store
    vectorStore d p s v (rowAddr v i imm))

def execVsts (d : Rv) (r : Ra) (x : Rx) (imm : BitVec 7) (p : Rg) (s : State) : Host.Outcome State Fault Refusal :=
  finish s (do
    let i ← useX s x
    let v ← vecRef s r false 0 imm .store
    vectorStore d p s v (strideAddr v i imm))

def execVstg (d : Rv) (r : Ra) (x : Rv) (imm : BitVec 7) (p : Rg) (s : State) : Host.Outcome State Fault Refusal :=
  finish s (do
    let i ← useV s x
    let v ← vecRef s r false 0 imm .store
    vectorStore d p s v (gatherAddr v i imm))

end Sys2Proof.Machine
end

