-- ==== Sys2Proof/Machine/Tile.lean ====
section
/-! DEFINITION. Tile loads and stores, zero, move and fill, and tile save, restore and release (06 R158 to R164, R180 to
R182), majors 0x30 and 0x36. -/

namespace Sys2Proof.Machine

/-! ### The elements of a tile in memory (R159 to R162) -/

/-- One element access: its locations, and the bit of the tile register that its first byte goes to. -/
structure TileUnit where
  locs : List Loc
  pos : Nat
  deriving Inhabited

/-- `finfo` of a tile row and element (R156). -/
def tileInfo (row c : Nat) : Word := BitVec.ofNat 64 (row % 256 * 256 + c % 256)

/-- The tile's reference after R162 step 2. -/
structure TileRef where
  r : Ref
  t : Ty
  scaled : Bool
  blog : Nat

/-- R162 step 2: the reference, and the reserved-operand rules of R159 to R161. -/
def tileRef (s : State) (ref : Ra) (tr : Bool) (tag : Option Nat) : Except Stop TileRef := do
  let r ← useA s ref
  checkRef r true
  let t := (Ty.ofCode (refType r)).getD .i8
  let scaled := refSk r == 1
  require (!(tr && (t == .l6 || scaled || refSpace r != 0))) 0x02
  require (!scaled || (decide (2 ^ refBlog r ≤ t.perRow) && tag.all fun g => g == refBlog r)) 0x02
  return { r, t, scaled, blog := if scaled then refBlog r else 0 }

/-- Element accesses of one row: one for each element, or for each l6 group. -/
def rowUnits (t : Ty) : Nat := if t = .l6 then 32 else t.perRow

/-- The two innermost dimensions of an object: rows, row stride, columns, column stride (R117). -/
def plane (o : ObjRec) : Nat × Nat × Nat × Nat :=
  (if o.dims = 0 then 1 else o.ext.getD (o.dims - 1) 0, if o.dims = 0 then 0 else o.stride.getD (o.dims - 1) 0,
   o.ext.getD o.dims 0, o.stride.getD o.dims 0)

/-- Memory row and column of element `c` of tile row `i` (R159). -/
def tileCoord (tr : Bool) (xr xc i c : Nat) : Nat × Nat := if tr then (xr + c, xc + i) else (xr + i, xc + c)

/-- The offset of the element, or l6 group, at a memory row and column (R159). -/
def planeAddr (v : TileRef) (o : ObjRec) (m : Nat × Nat) : Nat :=
  let (_, rs, _, cs) := plane o
  refOff v.r + m.1 * rs + (if v.t = .l6 then m.2 / 4 else m.2) * cs

/-- The first element of a block that lies outside the shape, in tile order. -/
def outsideElem (v : TileRef) (o : ObjRec) (tr : Bool) (xr xc : Nat) : Option (Nat × Nat) :=
  let (rows, _, cols, _) := plane o
  ((List.range 32).flatMap fun i => (List.range v.t.perRow).map fun c => (i, c)).find? fun p =>
    let m := tileCoord tr xr xc p.1 p.2
    decide (rows ≤ m.1) || decide (cols ≤ m.2)

/-- The location of the scale of an element's block, from the element's first byte (R316). -/
def scaleLoc (o : ObjRec) (l : Loc) : Option Loc :=
  (coordsOf o l.off).map fun (cs, rem) =>
    let u := fun i => cs.getD i 0 % o.inUnits o.tile i
    let row := (List.range o.dims).foldl (fun n i => n * o.tile.getD i 0 + u i) 0
    let col := if o.type = 14 then 4 * u o.dims else u o.dims
    { l with key := l.key - blockOffset o cs rem + o.dataBytes + row * (o.rowElems / 2 ^ o.blog) + col / 2 ^ o.blog }

/-- The units of a block of a global object (R162 steps 3 and 5), the scales of a scaled one last. -/
def globalUnits (s : State) (v : TileRef) (o : ObjRec) (open' : Opened) (tr : Bool) (xr xc : Nat) (acc : Acc) :
    Except Stop (List TileUnit) := do
  require (!v.scaled || (o.sk == 1 && o.blog == v.blog)) 0x02 (BitVec.ofNat 64 (refOff v.r))
  match outsideElem v o tr xr xc with
  | some (i, c) =>
    trapOf 0x06 (BitVec.ofNat 64 (planeAddr v o (tileCoord tr xr xc i c))) (tileInfo i (if v.t = .l6 then c / 4 else c))
  | none =>
    let first := BitVec.ofNat 64 (planeAddr v o (xr, xc))
    require (v.t != .l6 || xc % 4 == 0) 0x05 first
    require (!v.scaled || xc % 2 ^ v.blog == 0) 0x05 first
    let w := whoTh s
    let step := if v.t = .l6 then 4 else 1
    let data ← ((List.range 32).flatMap fun i => (List.range (rowUnits v.t)).map fun c => (i, c)).mapM fun (i, c) => do
      let a := planeAddr v o (tileCoord tr xr xc i (c * step))
      let ls ← elemUnit s w open' v.r a (accessBytes v.t) (accessAlign v.t) acc (tileInfo i c)
      return ({ locs := ls, pos := 1024 * i + 8 * accessBytes v.t * c } : TileUnit)
    if !v.scaled then return data
    else
      let scales := (List.range 32).flatMap fun i => (List.range (v.t.perRow / 2 ^ v.blog)).filterMap fun q =>
        let c := q * 2 ^ v.blog / step
        match (data.getD (i * rowUnits v.t + c) { locs := [], pos := 0 }).locs with
        | [] => none
        | l :: _ => (scaleLoc o l).map fun k => (({ locs := [k], pos := scaleAt + 8 * (16 * i + q) } : TileUnit), tileInfo i c)
      for (u, info) in scales do
        let at' := (u.locs.map fun l => l.off).headD 0
        faultAt (BitVec.ofNat 64 at') info (do
          ownRegions s u.locs
          poisonCheck s acc o.se false (refObj v.r) at' u.locs)
      return data ++ scales.map (·.1)

/-- The units of an image in spaces 1 to 5 (R160, R162 steps 4 and 5): elements, then single bytes for the unused rest of
an l6 row and for the scale side. -/
def spaceUnits (s : State) (v : TileRef) (xr xc : Nat) (acc : Acc) : Except Stop (List TileUnit) := do
  let w := whoTh s
  let size := if v.scaled then 4608 else 4096
  let a := refOff v.r + size * xr
  let fa := BitVec.ofNat 64 a
  require (xc == 0) 0x06 fa
  match spaceFault s w (refSpace v.r) a size .load with
  | some c => trapOf c fa
  | none =>
    require (a % 128 == 0) 0x05 fa
    match spaceFault s w (refSpace v.r) a size acc with
    | some c => trapOf c fa
    | none =>
      let n := accessBytes v.t
      let unit := fun (i c off k pos : Nat) => do
        let ls ← locateSpace s w (refSpace v.r) (a + off) k acc (BitVec.ofNat 64 (a + off)) (tileInfo i c)
        return ({ locs := ls, pos } : TileUnit)
      let data ← ((List.range 32).flatMap fun i => (List.range (rowUnits v.t)).map fun c => (i, c)).mapM fun (i, c) =>
        unit i c (128 * i + n * c) n (1024 * i + 8 * n * c)
      let pad ← (if v.t = .l6 then (List.range 32).flatMap fun i => (List.range 32).map fun b => (i, b) else []).mapM
        fun (i, b) => unit i (32 + b / 3) (128 * i + 96 + b) 1 (1024 * i + 768 + 8 * b)
      let scales ← (if v.scaled then List.range 512 else []).mapM fun b =>
        unit (b / 16) (b % 16) (4096 + b) 1 (scaleAt + 8 * b)
      return data ++ pad ++ scales

/-- The opened object and the units of a tile access (R162). -/
def tileUnits (s : State) (v : TileRef) (tr : Bool) (xr xc : Nat) (acc : Acc) : Except Stop (Opened × List TileUnit) := do
  let o := openRef s (whoTh s) v.r acc
  match o with
  | .bad c => openFault v.r c (BitVec.ofNat 64 (refOff v.r))
  | .broken e => .error e
  | .space => return (o, ← spaceUnits s v xr xc acc)
  | .object k _ => return (o, ← globalUnits s v k o tr xr xc acc)

/-! ### Load and store (R158 to R163) -/

/-- A place of the tile register that the view of a reference uses: the rest of an l6 row, and the scales past a row's
last block, are written as zero and not read (R150, R151). -/
def TileRef.uses (v : TileRef) (pos : Nat) : Bool :=
  if pos < scaleAt then v.t != .l6 || decide (pos % 1024 < 768)
  else decide ((pos - scaleAt) / 8 % 16 < v.t.perRow / 2 ^ v.blog)

/-- The pieces of a tile that a load fills. -/
def tilePieces (v : TileRef) (us : List TileUnit) : List Piece :=
  us.flatMap fun u => ((List.range u.locs.length).zip u.locs).map fun (i, l) =>
    { loc := l, lo := 0, len := if v.uses u.pos then 8 else 0, pos := u.pos + 8 * i }

/-- The bytes that a store of a tile writes, in the order of its units. -/
def tileCells (v : TileRef) (img : TileImage) (us : List TileUnit) : List (List WByte) :=
  let n := img.data.toNat + img.scale.toNat * 2 ^ scaleAt
  us.map fun u => wbytes u.locs (leBytes u.locs.length (if v.uses u.pos then n / 2 ^ u.pos else 0))

/-- `tld`: the register takes the data, the scales and the tag of the reference. -/
def execTld (d : Rt) (a : Ra) (tr : Bool) (r c : Rx) (s : State) : Host.Outcome State Fault Refusal :=
  finish s (do
    let xr ← useX s r
    let xc ← useX s c
    let v ← tileRef s a tr none
    let (o, us) ← tileUnits s v tr xr.toNat xc.toNat .load
    let ps := tilePieces v us
    let base := 2 ^ liveAt + v.blog * 2 ^ tagAt
    if o.sideEffect then
      return retire (← heldLoad s (.loadElems ps base (.t d)) [.t d])
    else
      let (_, s) ← loadUnits s (us.map fun u => u.locs)
      let bs := ps.map fun p => viewByte s (whoTh s) p.loc
      return retire (← writeTile s d (TileImage.ofNat (assemble base ps bs))))

/-- The physical tile of a source register, which a hold-buffer entry names (R154, R163). -/
def tileName (s : State) (r : Rt) : List (Nat × Nat) :=
  match s.th.t[r] with
  | none => []
  | some t => [(engineOf s.tid (halfOf r), t.phys)]

/-- `tst`: one hold-buffer entry, which names the source tile, or a store at retirement (R163). -/
def execTst (d : Rt) (a : Ra) (tr : Bool) (r c : Rx) (s : State) : Host.Outcome State Fault Refusal :=
  finish s (do
    let xr ← useX s r
    let xc ← useX s c
    let img ← useT s d
    let v ← tileRef s a tr (some img.tag)
    let (_, us) ← tileUnits s v tr xr.toNat xc.toNat .store
    let units := tileCells v img us
    let fa := BitVec.ofNat 64 (((us.flatMap fun u => u.locs.map fun l => l.off)).headD 0)
    return retire (← storeUnits s (refSpace v.r) [units] fa [tileName s d]))

/-! ### Zero, move and fill (R164) -/

def execTzero (d : Rt) (s : State) : Host.Outcome State Fault Refusal := .next (retire (emptyTile s d))

def execTmov (d a : Rt) (s : State) : Host.Outcome State Fault Refusal :=
  finish s (do
    let img ← useT s a
    match s.th.t[a] with
    | none => return retire (emptyTile s d)
    | some _ => return retire (← writeTile s d img))

def execTfill (d : Rt) (k : Width) (x : Rx) (s : State) : Host.Outcome State Fault Refusal :=
  finish s (do
    let v ← useX s x
    let w := match k with
      | .b => 8 | .h => 16 | .w => 32 | .d => 64
    let data := packList w (List.replicate (32768 / w) (v.toNat % 2 ^ w))
    return retire (← writeTile s d { data := BitVec.ofNat 32768 data, scale := 0, tag := 0 }))

/-! ### Save, restore and release (R180 to R182) -/

/-- The tile registers of a half that a mask names, ascending. -/
def maskTiles (half : Fin 2) (m : BitVec 8) : List Rt :=
  ((List.range 8).filter fun i => bitAt m i).map fun i => Fin.ofNat 16 (8 * half.val + i)

/-- The reference of `tsave` and `trstr`: R70 steps 1 to 4, then the checks of step 6 that no byte's place decides or, in the
other spaces, those of the header, and the alignment of its offset (R182). -/
def imageRef (s : State) (a : Ra) (acc : Acc) : Except Stop (Ref × Opened) := do
  let r ← useA s a
  let at' := BitVec.ofNat 64 (refOff r)
  match refPlainFault r with
  | some c => trapOf c
  | none =>
    let o := openRef s (whoTh s) r acc
    match o with
    | .bad c => openFault r c at'
    | .broken e => .error e
    | .space => match spaceFault s (whoTh s) (refSpace r) (refOff r) 64 acc with
      | some c => trapOf c at'
      | none => .ok ()
    | .object _ _ => .ok ()
    require (refOff r % 64 == 0) 0x05 at'
    return (r, o)

/-- `finfo` of byte `i` of an image: the tile row, and the byte or the scale in it; 0 for the header (R156). -/
def imageInfo (i : Nat) : Word :=
  let b := (i - 64) % 4608
  if i < 64 then 0 else if b < 4096 then tileInfo (b / 128) (b % 128) else tileInfo ((b - 4096) / 16) (b % 16)

/-- Bytes of an image, checked one by one in offset order. -/
def imageBytes (s : State) (o : Opened) (r : Ref) (at' n : Nat) (acc : Acc) : Except Stop (List Loc) := do
  let ls ← (List.range n).mapM fun (i : Nat) =>
    accessUnit s (whoTh s) o r (refOff r + at' + i : Nat) 1 1 acc (imageInfo (at' + i))
  return ls.flatten

/-- Where tile `t` of a half begins in its image. -/
def tileAt (t : Rt) : Nat := 64 + 4608 * (t.val % 8)

/-- `tsave`: one entry for the header and one for each live tile saved. -/
def execTsave (half : Fin 2) (a : Ra) (m : BitVec 8) (s : State) : Host.Outcome State Fault Refusal :=
  finish s (do
    let (r, o) ← imageRef s a .store
    let regs := maskTiles half m
    for t in regs do ready s (.t t)
    let head ← imageBytes s o r 0 64 .store
    let bytes := (List.range 8).map fun i =>
      BitVec.ofNat 8 (tileHeader (bitAt m i) (s.th.t.toList.getD (8 * half.val + i) none))
    let live := regs.filter fun t => (s.th.t[t]).isSome
    let bodies ← live.mapM fun t => do
      let ls ← imageBytes s o r (tileAt t) 4608 .store
      return (wbytes ls (tileBytes s.th.t[t])).map fun c => [c]
    let groups := ((wbytes head (bytes ++ List.replicate 56 0)).map fun c => [c]) :: bodies
    return retire (← storeUnits s (refSpace r) groups (BitVec.ofNat 64 (refOff r)) ([] :: live.map (tileName s))))

/-- The tile of its 4,608 bytes and header byte. -/
def imageOf (h : List Byte) (t : Rt) (b : List Byte) : TileImage :=
  { data := BitVec.ofNat 32768 (leNat (b.take 4096)), scale := BitVec.ofNat 4096 (leNat (b.drop 4096)),
    tag := (h.getD (t.val % 8) 0).toNat % 16 }

/-- A tile register written with an image, or emptied. -/
def restoreTile (s : State) (t : Rt) (img : Option TileImage) : Except Stop State :=
  match img with
  | some i => writeTile s t i
  | none => .ok (emptyTile s t)

/-- `trstr`; from a side-effect object it is a held request for every tile that it names. -/
def execTrstr (half : Fin 2) (a : Ra) (m : BitVec 8) (s : State) : Host.Outcome State Fault Refusal :=
  finish s (do
    let (r, o) ← imageRef s a .load
    let regs := maskTiles half m
    let head ← imageBytes s o r 0 64 .load
    if o.sideEffect then
      let parts ← regs.mapM fun t => do return (t, ← imageBytes s o r (tileAt t) 4608 .load)
      return retire (← heldLoad s (.loadImage head parts) (regs.map DestReg.t))
    else
      awaitLoad s head
      let h := viewBytes s (whoTh s) head
      let parts ← regs.mapM fun t => do
        require (!headerBad h t) 0x02
        if headerLive h t then
          return (t, ← imageBytes s o r (tileAt t) 4608 .load)
        else return (t, [])
      let live := (parts.filter fun p => !p.2.isEmpty).length
      if live ≠ 0 then needTiles s (engineOf s.tid half.val) live
      let (_, s) ← loadUnits s ((head :: parts.map (·.2)).flatten.map fun l => [l])
      let s ← parts.foldlM (fun s p =>
        restoreTile s p.1 (if p.2.isEmpty then none else some (imageOf h p.1 (viewBytes s (whoTh s) p.2)))) s
      return retire s)

/-- `trel`. -/
def execTrel (half : Fin 2) (m : BitVec 8) (s : State) : Host.Outcome State Fault Refusal :=
  .next (retire ((maskTiles half m).foldl emptyTile s))

end Sys2Proof.Machine
end

