-- ==== Sys2Proof/Machine/Legacy.lean ====
section
/-! DEFINITION. The deprecated instructions (08 R239 to R241), major 0x3B: each retires as one instruction, and a fault
carries the step of the expansion. -/

namespace Sys2Proof.Machine

/-- `vdot4` (R240). -/
def execVdot4 (d a b : Rv) (s : State) : Host.Outcome State Fault Refusal :=
  finish s (do
    let va ← useV s a
    let vb ← useV s b
    let vd ← useV s d
    let lane := fun (e : Nat) => wrap 32 ((List.range 4).foldl (fun (n : Int) j =>
      n + toSigned 8 (elem 8 (4 * e + j) va) * toSigned 8 (elem 8 (4 * e + j) vb)) (elem 32 e vd : Int))
    return retire (s.wv d (BitVec.ofNat 1024 (packList 32 ((List.range 32).map lane)))))

/-- Step 0 of `tgath1`: the reference and the object. -/
def gatherObject (s : State) (r : Ref) : Except Stop (TileRef × ObjRec × Opened) := do
  checkRef r true
  require (refSpace r == 0) 0x07
  require (refSk r == 0) 0x02
  let t := (Ty.ofCode (refType r)).getD .i8
  require (decide (t.width ≠ 64)) 0x02
  let fa := BitVec.ofNat 64 (refOff r)
  let o := openRef s (whoTh s) r .gather
  match o with
  | .bad c => openFault r c fa
  | .broken e => .error e
  | .space => trapOf 0x07
  | .object k _ =>
    let v : TileRef := { r, t, scaled := false, blog := 0 }
    require (decide (t.perRow ≤ (plane k).2.2.1)) 0x06 fa
    return (v, k, o)

/-- One row of steps 1 to 4. -/
def gatherRow (s : State) (v : TileRef) (k : ObjRec) (o : Opened) (i row : Nat) : Except Stop (List TileUnit) := do
  require (decide (row < (plane k).1)) 0x06 (BitVec.ofNat 64 (planeAddr v k (row, 0))) (tileInfo i 0)
  (List.range (rowUnits v.t)).mapM fun c => do
    let a := planeAddr v k (row, c * (if v.t = .l6 then 4 else 1))
    let ls ← elemUnit s (whoTh s) o v.r a (accessBytes v.t) (accessAlign v.t) .gather (tileInfo i c)
    return { locs := ls, pos := 1024 * i + 8 * accessBytes v.t * c }

/-- `tgath1` (R241). -/
def execTgath1 (d : Rt) (a : Ra) (b : Rv) (s : State) : Host.Outcome State Fault Refusal :=
  finish s (do
    let r ← useA s a
    let idx ← useV s b
    let (v, k, o) ← gatherObject s r
    let rows ← (List.range 32).mapM fun i => atStep (1 + i / 8) (gatherRow s v k o i (elem 32 i idx))
    let us := rows.flatten
    let (_, s) ← loadUnits s (us.map fun u => u.locs)
    let ps := tilePieces v us
    return retire (← writeTile s d (TileImage.ofNat (assemble 0 ps (ps.map fun p => viewByte s (whoTh s) p.loc)))))

end Sys2Proof.Machine
end

