-- ==== Sys2Proof/Machine/RefOps.lean ====
section
/-! DEFINITION. The object-reference instructions (04 R112 to R119), major 0x15. -/

namespace Sys2Proof.Machine

/-- A reference with `len` bits at `lo` replaced. -/
def refSet (r : Ref) (lo len v : Nat) : Ref :=
  BitVec.ofNat 128 (r.toNat - bits r lo len * 2 ^ lo + v % 2 ^ len * 2 ^ lo)

/-- `ad := f aa` with an x operand (R113, R114). -/
def refOp (f : Ref → Word → Ref) (d a : Ra) (b : Rx) (s : State) : Host.Outcome State Fault Refusal :=
  finish s (do
    let r ← useA s a
    let x ← useX s b
    return retire (s.wa d (f r x)))

/-- `xd := f aa` (R113). -/
def refGet (f : Ref → Nat) (d : Rx) (a : Ra) (s : State) : Host.Outcome State Fault Refusal :=
  finish s (do
    let r ← useA s a
    return retire (s.wx d (BitVec.ofNat 64 (f r))))

def execAmov (d a : Ra) (s : State) := refOp (fun r _ => r) d a 0 s
def execAoff (d a : Ra) (b : Rx) (k : Fin 8) (s : State) :=
  refOp (fun r x => refSet r 0 44 (refOff r + x.toNat * 2 ^ k.val)) d a b s
def execAsetf (d a : Ra) (b : Rx) (s : State) := refOp (fun r x => refSet r 84 6 x.toNat) d a b s
def execAsetb (d a : Ra) (b : Rx) (s : State) := refOp (fun r x => refSet r 90 4 x.toNat) d a b s
def execAgeto (d : Rx) (a : Ra) (s : State) := refGet refOff d a s
def execAgetn (d : Rx) (a : Ra) (s : State) := refGet refObj d a s

/-- `aspace` (R115). -/
def execAspace (d : Ra) (a : Rx) (sp : Fin 16) (s : State) : Host.Outcome State Fault Refusal :=
  finish s (do
    let x ← useX s a
    return retire (s.wa d (BitVec.ofNat 128 (sp.val * 2 ^ 80 + x.toNat % 2 ^ 44))))

/-- The record of an object of the current thread's context, present and well formed, or the fault of R310 and R311
(R116, R117). -/
def usableRecord (s : State) (obj : Nat) (fa : Word) : Except Stop ObjRec :=
  match objRecord s (contextOf s s.th.gang) obj with
  | .error f => .error (.machine f)
  | .ok none => .error (.trap { cause := 0x08, addr := fa, miss := some { obj, off := 0 } })
  | .ok (some o) => if o.malformed then trapOf 0x02 else .ok o

/-- `amake` (R116). -/
def execAmake (d : Ra) (a b : Rx) (s : State) : Host.Outcome State Fault Refusal :=
  finish s (do
    let n ← useX s a
    let off ← useX s b
    require (n != 0 && decide (n.toNat < 2 ^ 36)) 0x08 n
    let o ← usableRecord s n.toNat n
    return retire (s.wa d (BitVec.ofNat 128
      (o.gen * 2 ^ 96 + o.blog * 2 ^ 90 + o.sk * 2 ^ 88 + o.type * 2 ^ 84 + n.toNat * 2 ^ 44 + off.toNat % 2 ^ 44))))

/-- The offset that two coordinates add, or the fault of a coordinate (R117). -/
def coordOffset (o : ObjRec) (row col : Nat) (fa : Word) : Except Stop Nat := do
  let k := o.d
  let rows := if k = 1 then 1 else o.ext.getD (k - 2) 0
  let rowStride := if k = 1 then 0 else o.stride.getD (k - 2) 0
  let cols := o.ext.getD (k - 1) 0
  let colStride := o.stride.getD (k - 1) 0
  require (decide (row < rows) && decide (col < cols)) 0x06 fa
  require (o.type != 14 || col % 4 == 0) 0x05
  return row * rowStride + (if o.type = 14 then col / 4 else col) * colStride

/-- `acoord` (R117). -/
def execAcoord (d a : Ra) (b c : Rx) (s : State) : Host.Outcome State Fault Refusal :=
  finish s (do
    let r ← useA s a
    let row ← useX s b
    let col ← useX s c
    checkRef r false
    require (refSpace r == 0) 0x07
    let o ← usableRecord s (refObj r) 0
    require (refTag r == o.gen) 0x08
    let k ← coordOffset o row.toNat col.toNat (BitVec.ofNat 64 (refOff r))
    return retire (s.wa d (refSet r 0 44 (refOff r + k))))

/-- Every byte of a range lies in the shape: the range is cut into the bytes of innermost rows (R315). The first number
bounds the cuts. -/
def inShape (o : ObjRec) : Nat → Nat → Nat → Bool
  | 0, _, n => n == 0
  | k + 1, a, n =>
    if n = 0 then true
    else match coordsOf o a with
      | none => false
      | some (c, rem) =>
        let run := (o.inUnits o.ext o.dims - c.getD o.dims 0) * o.stride.getD o.dims 1 - rem
        inShape o k (a + run) (n - run)

/-- The cause that an access of `n` bytes would take by R70 steps 1 to 5 and, of step 6, checks 1 to 7 of R314 or the
checks of R66 and R71; 0 if none (R118). -/
def achkCause (s : State) (r : Ref) (n : Nat) (acc : Acc) : Except Stop Nat :=
  match refFault r false with
  | some c => .ok c
  | none =>
    match openPlain s (whoTh s) r acc with
    | .bad c => .ok c
    | .broken e => .error e
    | .object o _ => .ok (if n ≤ 2 ^ 44 ∧ inShape o n (refOff r) n then 0 else 0x06)
    | .space =>
      match spaceFault s (whoTh s) (refSpace r) (refOff r) n acc with
      | some c => .ok c
      | none => .ok 0

/-- `achk` (R118): the causes of a load and of a store of L bytes. -/
def execAchk (d : Rx) (a : Ra) (b : Rx) (s : State) : Host.Outcome State Fault Refusal :=
  finish s (do
    let r ← useA s a
    let x ← useX s b
    let n := if x = 0 then 1 else x.toNat
    let ld ← achkCause s r n .load
    let st ← achkCause s r n .store
    return retire (s.wx d (BitVec.ofNat 64 (ld + 256 * st))))

end Sys2Proof.Machine
end

