-- ==== Sys2Proof/Machine/Vector.lean ====
section
/-! DEFINITION. Vector arithmetic, logic, permutes and conversions (05 R125 to R127, R130 to R132, R135, R136), majors
0x20, 0x21, 0x23 to 0x25 and 0x27. -/

namespace Sys2Proof.Machine

/-! ### Floating arithmetic (R125 to R127) -/

/-- A floating operation on the values of `vd[e]`, `va[e]` and `vb[e]`. -/
def floatOp (t : Ty) (d a : Rv) (b : Option Rv) (g : Rg) (fzi reads : Bool)
    (f : Mode → FVal → FVal → FVal → Nat × Flags) : VecOp :=
  merging t d a b g reads fun m vd va vb e =>
    f m (fval t fzi (elem t.width e vd)) (fval t fzi (elem t.width e va)) (fval t fzi (elem t.width e vb))

/-- Round(|a − b|) with one rounding (R125): an exact zero difference is +0. -/
def absDiff (t : Ty) (m : Mode) (fzo : Bool) (a b : FVal) : Nat × Flags :=
  let ts := [a.term, b.neg.term]
  if a.isNan || b.isNan || (ts.any fun x => match x with
    | .inf _ => true
    | _ => false) then
    let r := roundSum t m fzo ts
    (r.1 % t.signBit, r.2)
  else match minExp ts with
    | none => (zeroBits t false, 0)
    | some k =>
      let x := sumUnits k ts
      if x = 0 then (zeroBits t false, 0) else roundFin t m false fzo false x.natAbs k false

def addOp (d a b : Rv) (g : Rg) (t : Ty) (fzi fzo : Bool) : VecOp :=
  floatOp t d a (some b) g fzi false fun m _ x y => roundSum t m fzo [x.term, y.term]
def subOp (d a b : Rv) (g : Rg) (t : Ty) (fzi fzo : Bool) : VecOp :=
  floatOp t d a (some b) g fzi false fun m _ x y => roundSum t m fzo [x.term, y.neg.term]
def mulOp (d a b : Rv) (g : Rg) (t : Ty) (fzi fzo : Bool) : VecOp :=
  floatOp t d a (some b) g fzi false fun m _ x y => roundSum t m fzo [mulTerm x y]
def minOp (d a b : Rv) (g : Rg) (t : Ty) (fzi fzo : Bool) : VecOp :=
  floatOp t d a (some b) g fzi false fun _ _ x y => fminmax t false fzo x y
def maxOp (d a b : Rv) (g : Rg) (t : Ty) (fzi fzo : Bool) : VecOp :=
  floatOp t d a (some b) g fzi false fun _ _ x y => fminmax t true fzo x y
def abdOp (d a b : Rv) (g : Rg) (t : Ty) (fzi fzo : Bool) : VecOp :=
  floatOp t d a (some b) g fzi false fun m _ x y => absDiff t m fzo x y
/-- `vaddmin`: the sum is a result, so `fzi` does not act on it (R126). -/
def addminOp (d a b : Rv) (g : Rg) (t : Ty) (fzi fzo : Bool) : VecOp :=
  floatOp t d a (some b) g fzi true fun m z x y =>
    let r := roundSum t m fzo [x.term, y.term]
    let q := fminmax t false fzo z (fval t false r.1)
    (q.1, r.2 ||| q.2)
/-- `vcopysign` moves bits (R32). -/
def copysignOp (d a b : Rv) (g : Rg) (t : Ty) : VecOp :=
  merging t d a (some b) g false fun _ _ va vb e =>
    (elem t.width e va % t.signBit + elem t.width e vb / t.signBit * t.signBit, 0)
def fmaOp (d a b : Rv) (g : Rg) (t : Ty) (fzi fzo : Bool) : VecOp :=
  floatOp t d a (some b) g fzi true fun m z x y => roundSum t m fzo [mulTerm x y, z.term]
def fmsOp (d a b : Rv) (g : Rg) (t : Ty) (fzi fzo : Bool) : VecOp :=
  floatOp t d a (some b) g fzi true fun m z x y => roundSum t m fzo [mulTerm x y, z.neg.term]
def fnmaOp (d a b : Rv) (g : Rg) (t : Ty) (fzi fzo : Bool) : VecOp :=
  floatOp t d a (some b) g fzi true fun m z x y => roundSum t m fzo [(mulTerm x y).neg, z.neg.term]
def fnmsOp (d a b : Rv) (g : Rg) (t : Ty) (fzi fzo : Bool) : VecOp :=
  floatOp t d a (some b) g fzi true fun m z x y => roundSum t m fzo [(mulTerm x y).neg, z.term]
def divOp (d a b : Rv) (g : Rg) (t : Ty) (fzi fzo : Bool) : VecOp :=
  floatOp t d a (some b) g fzi false fun m _ x y => fdiv t m fzo x y
def sqrtOp (d a : Rv) (g : Rg) (t : Ty) (fzi fzo : Bool) : VecOp :=
  floatOp t d a none g fzi false fun m _ x _ => fsqrt t m fzo x
def rcpeOp (d a : Rv) (g : Rg) (t : Ty) (fzi fzo : Bool) : VecOp :=
  floatOp t d a none g fzi false fun _ _ x _ => frcpe t fzo x
def rsqeOp (d a : Rv) (g : Rg) (t : Ty) (fzi fzo : Bool) : VecOp :=
  floatOp t d a none g fzi false fun _ _ x _ => frsqe t fzo x

def execVadd (d a b : Rv) (p : Rg) (t : Ty) (fzi fzo : Bool) (s : State) := (addOp d a b p t fzi fzo).exec s
def execVsub (d a b : Rv) (p : Rg) (t : Ty) (fzi fzo : Bool) (s : State) := (subOp d a b p t fzi fzo).exec s
def execVmul (d a b : Rv) (p : Rg) (t : Ty) (fzi fzo : Bool) (s : State) := (mulOp d a b p t fzi fzo).exec s
def execVmin (d a b : Rv) (p : Rg) (t : Ty) (fzi fzo : Bool) (s : State) := (minOp d a b p t fzi fzo).exec s
def execVmax (d a b : Rv) (p : Rg) (t : Ty) (fzi fzo : Bool) (s : State) := (maxOp d a b p t fzi fzo).exec s
def execVabd (d a b : Rv) (p : Rg) (t : Ty) (fzi fzo : Bool) (s : State) := (abdOp d a b p t fzi fzo).exec s
def execVaddmin (d a b : Rv) (p : Rg) (t : Ty) (fzi fzo : Bool) (s : State) := (addminOp d a b p t fzi fzo).exec s
/-- `fzi` and `fzo` have no effect on `vcopysign` (R122). -/
def execVcopysign (d a b : Rv) (p : Rg) (t : Ty) (_ _ : Bool) (s : State) := (copysignOp d a b p t).exec s
def execVfma (d a b : Rv) (p : Rg) (t : Ty) (fzi fzo : Bool) (s : State) := (fmaOp d a b p t fzi fzo).exec s
def execVfms (d a b : Rv) (p : Rg) (t : Ty) (fzi fzo : Bool) (s : State) := (fmsOp d a b p t fzi fzo).exec s
def execVfnma (d a b : Rv) (p : Rg) (t : Ty) (fzi fzo : Bool) (s : State) := (fnmaOp d a b p t fzi fzo).exec s
def execVfnms (d a b : Rv) (p : Rg) (t : Ty) (fzi fzo : Bool) (s : State) := (fnmsOp d a b p t fzi fzo).exec s
def execVdiv (d a b : Rv) (p : Rg) (t : Ty) (fzi fzo : Bool) (s : State) := (divOp d a b p t fzi fzo).exec s
def execVsqrt (d a : Rv) (p : Rg) (t : Ty) (fzi fzo : Bool) (s : State) := (sqrtOp d a p t fzi fzo).exec s
def execVrcpe (d a : Rv) (p : Rg) (t : Ty) (fzi fzo : Bool) (s : State) := (rcpeOp d a p t fzi fzo).exec s
def execVrsqe (d a : Rv) (p : Rg) (t : Ty) (fzi fzo : Bool) (s : State) := (rsqeOp d a p t fzi fzo).exec s

/-! ### Integer arithmetic (R130) -/

/-- An integer operation on the values of `vd[e]`, `va[e]` and `vb[e]`, wrapped to the element. -/
def intOp (t : Ty) (d a : Rv) (b : Option Rv) (g : Rg) (reads : Bool) (f : Int → Int → Int → Int) : VecOp :=
  merging t d a b g reads fun _ vd va vb e =>
    (wrap t.width (f (intVal t (elem t.width e vd)) (intVal t (elem t.width e va)) (intVal t (elem t.width e vb))), 0)

def iaddOp (d a b : Rv) (g : Rg) (t : Ty) : VecOp := intOp t d a (some b) g false fun _ x y => x + y
def isubOp (d a b : Rv) (g : Rg) (t : Ty) : VecOp := intOp t d a (some b) g false fun _ x y => x - y
def imulOp (d a b : Rv) (g : Rg) (t : Ty) : VecOp := intOp t d a (some b) g false fun _ x y => x * y
def imulhOp (d a b : Rv) (g : Rg) (t : Ty) : VecOp :=
  intOp t d a (some b) g false fun _ x y => x * y / (2 ^ t.width : Nat)
def iminOp (d a b : Rv) (g : Rg) (t : Ty) : VecOp := intOp t d a (some b) g false fun _ x y => min x y
def imaxOp (d a b : Rv) (g : Rg) (t : Ty) : VecOp := intOp t d a (some b) g false fun _ x y => max x y
def iaddminOp (d a b : Rv) (g : Rg) (t : Ty) : VecOp :=
  intOp t d a (some b) g true fun z x y => min z (intVal t (wrap t.width (x + y)))
def iabsOp (d a : Rv) (g : Rg) (t : Ty) : VecOp := intOp t d a none g false fun _ x _ => x.natAbs

def execViadd (d a b : Rv) (p : Rg) (t : Ty) (s : State) := (iaddOp d a b p t).exec s
def execVisub (d a b : Rv) (p : Rg) (t : Ty) (s : State) := (isubOp d a b p t).exec s
def execVimul (d a b : Rv) (p : Rg) (t : Ty) (s : State) := (imulOp d a b p t).exec s
def execVimulh (d a b : Rv) (p : Rg) (t : Ty) (s : State) := (imulhOp d a b p t).exec s
def execVimin (d a b : Rv) (p : Rg) (t : Ty) (s : State) := (iminOp d a b p t).exec s
def execVimax (d a b : Rv) (p : Rg) (t : Ty) (s : State) := (imaxOp d a b p t).exec s
def execViaddmin (d a b : Rv) (p : Rg) (t : Ty) (s : State) := (iaddminOp d a b p t).exec s
def execViabs (d a : Rv) (p : Rg) (t : Ty) (s : State) := (iabsOp d a p t).exec s

/-! ### Logic, shift and select (R131) -/

/-- An operation on the bits of each element. -/
def bitOp (t : Ty) (d a b : Rv) (g : Rg) (f : Nat → Nat → Nat) : VecOp :=
  merging t d a (some b) g false fun _ _ va vb e => (f (elem t.width e va) (elem t.width e vb) % 2 ^ t.width, 0)

def andOp (d a b : Rv) (g : Rg) (t : Ty) : VecOp := bitOp t d a b g fun x y => x &&& y
def orOp (d a b : Rv) (g : Rg) (t : Ty) : VecOp := bitOp t d a b g fun x y => x ||| y
def xorOp (d a b : Rv) (g : Rg) (t : Ty) : VecOp := bitOp t d a b g fun x y => x ^^^ y
def andnOp (d a b : Rv) (g : Rg) (t : Ty) : VecOp := bitOp t d a b g fun x y => x &&& (2 ^ t.width - 1 - y)
def sllOp (d a b : Rv) (g : Rg) (t : Ty) : VecOp := bitOp t d a b g fun x y => x * 2 ^ (y % t.width)
def srlOp (d a b : Rv) (g : Rg) (t : Ty) : VecOp := bitOp t d a b g fun x y => x / 2 ^ (y % t.width)
def sraOp (d a b : Rv) (g : Rg) (t : Ty) : VecOp :=
  bitOp t d a b g fun x y => wrap t.width (toSigned t.width x / (2 ^ (y % t.width) : Nat))
/-- `vsel`: the predicate selects, and every element is written. -/
def selOp (d a b : Rv) (g : Rg) (t : Ty) : VecOp :=
  { d, a, b := some b, g, types := [t], keeps := fun _ => false
    f := fun _ p _ va vb => mapBits t (BitVec.allOnes 128) 0 fun e => elem t.width e (if active t p e then va else vb) }

def execVand (d a b : Rv) (p : Rg) (t : Ty) (s : State) := (andOp d a b p t).exec s
def execVor (d a b : Rv) (p : Rg) (t : Ty) (s : State) := (orOp d a b p t).exec s
def execVxor (d a b : Rv) (p : Rg) (t : Ty) (s : State) := (xorOp d a b p t).exec s
def execVandn (d a b : Rv) (p : Rg) (t : Ty) (s : State) := (andnOp d a b p t).exec s
def execVsll (d a b : Rv) (p : Rg) (t : Ty) (s : State) := (sllOp d a b p t).exec s
def execVsrl (d a b : Rv) (p : Rg) (t : Ty) (s : State) := (srlOp d a b p t).exec s
def execVsra (d a b : Rv) (p : Rg) (t : Ty) (s : State) := (sraOp d a b p t).exec s
def execVsel (d a b : Rv) (p : Rg) (t : Ty) (s : State) := (selOp d a b p t).exec s

/-! ### Lane permutes (R132) -/

/-- A permute: element `e` of its result list, merged under the predicate; of an l6 element six bits move (R36). -/
def permOp (t : Ty) (d a : Rv) (b : Option Rv) (g : Rg) (f : (Nat → Nat) → (Nat → Nat) → Nat → Nat) : VecOp :=
  merging t d a b g false fun _ _ va vb e =>
    (f (fun i => elem t.width i va) (fun i => elem t.width i vb) e % t.values, 0)

def shupOp (d a b : Rv) (g : Rg) (t : Ty) : VecOp :=
  permOp t d a (some b) g fun va vb e => if e = 0 then vb (t.lanes - 1) else va (e - 1)
def shdnOp (d a b : Rv) (g : Rg) (t : Ty) : VecOp :=
  permOp t d a (some b) g fun va vb e => if e = t.lanes - 1 then vb 0 else va (e + 1)
def vpermOp (d a b : Rv) (g : Rg) (t : Ty) : VecOp :=
  permOp t d a (some b) g fun va vb e => if vb e < t.lanes then va (vb e) else 0
def zipOp (d a b : Rv) (g : Rg) (t : Ty) (hi : Bool) : VecOp :=
  let q := if hi then t.lanes / 2 else 0
  permOp t d a (some b) g fun va vb e => if e % 2 = 0 then va (q + e / 2) else vb (q + e / 2)
def uzpOp (d a b : Rv) (g : Rg) (t : Ty) (hi : Bool) : VecOp :=
  let h := if hi then 1 else 0
  permOp t d a (some b) g fun va vb e =>
    if e < t.lanes / 2 then va (2 * e + h) else vb (2 * (e - t.lanes / 2) + h)
def revOp (d a : Rv) (g : Rg) (t : Ty) : VecOp := permOp t d a none g fun va _ e => va (t.lanes - 1 - e)
/-- `vcompr` writes every element. -/
def comprOp (d a : Rv) (g : Rg) (t : Ty) : VecOp :=
  { d, a, b := none, g, types := [t], keeps := fun _ => false
    f := fun _ p _ va _ =>
      (BitVec.ofNat 1024 (packList t.width (((List.range t.lanes).filter (active t p)).map fun e => elem t.width e va % t.values)), 0) }

def execVshup (d a b : Rv) (p : Rg) (t : Ty) (s : State) := (shupOp d a b p t).exec s
def execVshdn (d a b : Rv) (p : Rg) (t : Ty) (s : State) := (shdnOp d a b p t).exec s
def execVperm (d a b : Rv) (p : Rg) (t : Ty) (s : State) := (vpermOp d a b p t).exec s
def execVzip (d a b : Rv) (p : Rg) (t : Ty) (hi : Bool) (s : State) := (zipOp d a b p t hi).exec s
def execVuzp (d a b : Rv) (p : Rg) (t : Ty) (hi : Bool) (s : State) := (uzpOp d a b p t hi).exec s
def execVrev (d a : Rv) (p : Rg) (t : Ty) (s : State) := (revOp d a p t).exec s
def execVcompr (d a : Rv) (p : Rg) (t : Ty) (s : State) := (comprOp d a p t).exec s

/-- `vbcl`: its b field names an x register. -/
def execVbcl (d a : Rv) (b : Rx) (p : Rg) (t : Ty) (s : State) : Host.Outcome State Fault Refusal :=
  finish s (do
    requireType s t
    let x ← useX s b
    let o := permOp t d a none p fun va _ _ => if x.toNat < t.lanes then va x.toNat else 0
    return retire (← o.run s 0))

/-! ### Conversions (R135, R136) -/

/-- Elements of a conversion (R135). -/
def cvtLanes (tin tout : Ty) : Nat := 128 / max tin.bytes tout.bytes

/-- The mode an rm field selects, from the dynamic one. -/
def rmMode (rm : Rm) (dyn : Mode) : Mode :=
  match rm with
  | .rne => .rne | .rtz => .rtz | .rup => .rup | .rdn => .rdn | .dyn => dyn

/-- `vcvt`: the predicate is read at input positions, and a narrowing conversion clears the rest. -/
def cvtOp (d a : Rv) (tin tout : Ty) (g : Rg) (fzi sat : Bool) (rm : Rm) (fzo : Bool) : VecOp :=
  let n := cvtLanes tin tout
  { d, a, b := none, g, types := [tin, tout]
    keeps := fun p => !(List.range n).all (active tin p)
    f := fun m p vd va _ =>
      let r := (List.range n).map fun e =>
        if active tin p e then convert tin tout (rmMode rm m) sat fzi fzo (elem tin.width e va) else (elem tout.width e vd, 0)
      (BitVec.ofNat 1024 (packList tout.width (r.map (·.1))), gather r) }

def execVcvt (d a : Rv) (tin tout : Ty) (p : Rg) (fzi sat : Bool) (rm : Rm) (fzo : Bool) (s : State) :=
  (cvtOp d a tin tout p fzi sat rm fzo).exec s

/-- `vrnd` (R136): `fzo` has no effect. -/
def rndOp (d a : Rv) (t : Ty) (g : Rg) (fzi : Bool) (rm : Rm) : VecOp :=
  floatOp t d a none g fzi false fun m _ x _ => roundIntegral t (rmMode rm m) x

def execVrnd (d a : Rv) (t : Ty) (p : Rg) (fzi : Bool) (rm : Rm) (_ : Bool) (s : State) := (rndOp d a t p fzi rm).exec s

end Sys2Proof.Machine
end

