-- ==== Sys2Proof/Machine/Repeat.lean ====
section
/-! DEFINITION. The repeat frame (05 R146 to R149), major 0x1E. -/

namespace Sys2Proof.Machine

/-- The operation of a body word, if a frame may hold it (R148). -/
def frameOp : Instr → Option VecOp
  | .vadd d a b p t i o => some (addOp d a b p t i o)
  | .vsub d a b p t i o => some (subOp d a b p t i o)
  | .vmul d a b p t i o => some (mulOp d a b p t i o)
  | .vmin d a b p t i o => some (minOp d a b p t i o)
  | .vmax d a b p t i o => some (maxOp d a b p t i o)
  | .vabd d a b p t i o => some (abdOp d a b p t i o)
  | .vaddmin d a b p t i o => some (addminOp d a b p t i o)
  | .vcopysign d a b p t _ _ => some (copysignOp d a b p t)
  | .vfma d a b p t i o => some (fmaOp d a b p t i o)
  | .vfms d a b p t i o => some (fmsOp d a b p t i o)
  | .vfnma d a b p t i o => some (fnmaOp d a b p t i o)
  | .vfnms d a b p t i o => some (fnmsOp d a b p t i o)
  | .vdiv d a b p t i o => some (divOp d a b p t i o)
  | .vsqrt d a p t i o => some (sqrtOp d a p t i o)
  | .vrcpe d a p t i o => some (rcpeOp d a p t i o)
  | .vrsqe d a p t i o => some (rsqeOp d a p t i o)
  | .viadd d a b p t => some (iaddOp d a b p t)
  | .visub d a b p t => some (isubOp d a b p t)
  | .vimul d a b p t => some (imulOp d a b p t)
  | .vimulh d a b p t => some (imulhOp d a b p t)
  | .vimin d a b p t => some (iminOp d a b p t)
  | .vimax d a b p t => some (imaxOp d a b p t)
  | .viaddmin d a b p t => some (iaddminOp d a b p t)
  | .viabs d a p t => some (iabsOp d a p t)
  | .vand d a b p t => some (andOp d a b p t)
  | .vor d a b p t => some (orOp d a b p t)
  | .vxor d a b p t => some (xorOp d a b p t)
  | .vandn d a b p t => some (andnOp d a b p t)
  | .vsll d a b p t => some (sllOp d a b p t)
  | .vsrl d a b p t => some (srlOp d a b p t)
  | .vsra d a b p t => some (sraOp d a b p t)
  | .vsel d a b p t => some (selOp d a b p t)
  | .vshup d a b p t => some (shupOp d a b p t)
  | .vshdn d a b p t => some (shdnOp d a b p t)
  | .vperm d a b p t => some (vpermOp d a b p t)
  | .vzip d a b p t h => some (zipOp d a b p t h)
  | .vuzp d a b p t h => some (uzpOp d a b p t h)
  | .vrev d a p t => some (revOp d a p t)
  | .vcompr d a p t => some (comprOp d a p t)
  | .vcvt d a tin tout p i sat rm o => some (cvtOp d a tin tout p i sat rm o)
  | .vrnd d a t p i rm _ => some (rndOp d a t p i rm)
  | _ => none

/-- A frame's shape: repetitions, step, and the staggered fields (R146). -/
structure Frame where
  cnt : Nat
  step : Nat
  sd : Bool
  sa : Bool
  sb : Bool

/-- Register numbers that a field takes over the repetitions. -/
def Frame.group (f : Frame) (on : Bool) (r : Rv) : List Nat :=
  if on then (List.range f.cnt).map fun i => r.val + i * f.step else [r.val]

/-- Two groups share some registers but not all. -/
def partShared (a b : List Nat) : Bool :=
  a.any (fun r => b.contains r) && !(a.all (fun r => b.contains r) && b.all fun r => a.contains r)

/-- The checks of R148 on a body operation. -/
def Frame.accepts (f : Frame) (o : VecOp) : Bool :=
  let d := f.group f.sd o.d
  let a := f.group f.sa o.a
  let b := match o.b with
    | some b => f.group f.sb b
    | none => []
  (d ++ a ++ b).all (fun r => decide (r ≤ 31)) && !partShared d a && !partShared d b

/-- A register number moved by a staggering. -/
def shiftReg (on : Bool) (n : Nat) (r : Rv) : Rv := if on then Fin.ofNat 32 (r.val + n) else r

/-- The operation in repetition `i`. -/
def Frame.at' (f : Frame) (o : VecOp) (i : Nat) : VecOp :=
  { o with d := shiftReg f.sd (i * f.step) o.d, a := shiftReg f.sa (i * f.step) o.a,
           b := o.b.map (shiftReg f.sb (i * f.step)) }

/-- The body words' bytes, or the fetch fault of the first that cannot be read. -/
def frameBytes (s : State) (len : Nat) : Except Stop (List (List Byte)) :=
  (List.range len).mapM fun j => fetchBytes (s.setTh { s.th with pc := s.th.pc + BitVec.ofNat 64 (4 + 4 * j) })

/-- A body word, after the checks of its own that come before the frame's (R148). -/
def frameWord (s : State) (bs : List Byte) : Except Stop (Option VecOp) :=
  match decodeBytes bs with
  | .error .undefinedInstruction => trapOf 0x01
  | .error .reservedOperand => .ok none
  | .ok i => do
    for t in (match i with
      | .vceq _ _ _ _ t _ | .vcne _ _ _ _ t _ | .vclt _ _ _ _ t _ | .vcle _ _ _ _ t _ | .vcgt _ _ _ _ t _
      | .vcge _ _ _ _ t _ | .vcun _ _ _ _ t _ | .vclass _ _ _ _ t _ | .vbcl _ _ _ _ t | .vrsum _ _ _ t _
      | .vrsumo _ _ _ _ t _ | .vrmax _ _ _ t _ | .vrmin _ _ _ t _ | .vrcnt _ _ _ t _ | .vscale _ _ _ _ t _ _
      | .vmovx _ _ _ t | .vxmov _ _ _ t | .vsplat _ _ _ t | .vsplatk _ _ _ t | .vwhile _ _ _ t | .vgetl _ _ t
      | .pcnt _ _ _ t | .pfirst _ _ _ t | .pset _ _ t => [t]
      | i => ((frameOp i).map VecOp.types).getD []) do requireType s t
    return frameOp i

/-- `repf`: the whole frame retires at once (R147 to R149). Every body word is fetched first, and of several bad words the first
in word order gives its fault, an order that no rule gives (DESIGN CHOICE, log entry 109). -/
def execRepf (cnt1 : Fin 16) (len1 : Fin 8) (step : Fin 3) (sd sa sb : Bool) (s : State) :
    Host.Outcome State Fault Refusal :=
  finish s (do
    let f : Frame := { cnt := cnt1.val + 1, step := 2 ^ step.val, sd, sa, sb }
    let len := len1.val + 1
    let words ← frameBytes s len
    let ops ← words.mapM (frameWord s)
    require (ops.all fun o => o.any f.accepts) 0x02
    let body := ops.filterMap id
    let runs := (List.range f.cnt).flatMap fun i => ((List.range len).zip body).map fun e => (i * len + e.1, f.at' e.2 i)
    let s ← runs.foldlM (fun s e => atStep e.1 (e.2.run s e.1)) s
    return retireTo s (s.th.pc + BitVec.ofNat 64 (4 + 4 * len)))

end Sys2Proof.Machine
end

