-- ==== Sys2Proof/Machine/Scalar.lean ====
section
/-! DEFINITION. The integer instructions (04 R95 to R104), majors 0x01 to 0x09 and 0x0B. -/

namespace Sys2Proof.Machine

/-- `xd := f xa xb` (R93). -/
def writeRR (f : Word → Word → Word) (d a b : Rx) (s : State) : Host.Outcome State Fault Refusal :=
  finish s (do
    let x ← useX s a
    let y ← useX s b
    return retire (s.wx d (f x y)))

/-- `xd := f xa` (R93). -/
def writeR (f : Word → Word) (d a : Rx) (s : State) : Host.Outcome State Fault Refusal :=
  finish s (do
    let x ← useX s a
    return retire (s.wx d (f x)))

/-! ### Major 0x01 (R96 to R100) -/

def execAdd (d a b : Rx) (w : Bool) (s : State) := writeRR (wide w (· + ·) (· + ·)) d a b s
def execSub (d a b : Rx) (w : Bool) (s : State) := writeRR (wide w (· - ·) (· - ·)) d a b s
def execAnd (d a b : Rx) (s : State) := writeRR (fun x y => x &&& y) d a b s
def execOr (d a b : Rx) (s : State) := writeRR (fun x y => x ||| y) d a b s
def execXor (d a b : Rx) (s : State) := writeRR (fun x y => x ^^^ y) d a b s
def execAndn (d a b : Rx) (s : State) := writeRR (fun x y => x &&& ~~~y) d a b s
def execOrn (d a b : Rx) (s : State) := writeRR (fun x y => x ||| ~~~y) d a b s
def execSll (d a b : Rx) (w : Bool) (s : State) :=
  writeRR (fun x y => shiftBy w (fun v n => v <<< n) (fun v n => v <<< n) x y.toNat) d a b s
def execSrl (d a b : Rx) (w : Bool) (s : State) :=
  writeRR (fun x y => shiftBy w (fun v n => v >>> n) (fun v n => v >>> n) x y.toNat) d a b s
def execSra (d a b : Rx) (w : Bool) (s : State) :=
  writeRR (fun x y => shiftBy w (fun v n => v.sshiftRight n) (fun v n => v.sshiftRight n) x y.toNat) d a b s
def execRor (d a b : Rx) (w : Bool) (s : State) :=
  writeRR (fun x y => shiftBy w (fun v n => v.rotateRight n) (fun v n => v.rotateRight n) x y.toNat) d a b s
def execSlt (d a b : Rx) (s : State) := writeRR (fun x y => flagWord (x.slt y)) d a b s
def execSltn (d a b : Rx) (s : State) := writeRR (fun x y => flagWord (x.ult y)) d a b s
def execMin (d a b : Rx) (s : State) := writeRR (fun x y => if x.slt y then x else y) d a b s
def execMax (d a b : Rx) (s : State) := writeRR (fun x y => if x.slt y then y else x) d a b s
def execMinn (d a b : Rx) (s : State) := writeRR (fun x y => if x.ult y then x else y) d a b s
def execMaxn (d a b : Rx) (s : State) := writeRR (fun x y => if x.ult y then y else x) d a b s
def execMul (d a b : Rx) (w : Bool) (s : State) := writeRR (wide w (· * ·) (· * ·)) d a b s
def execMulh (d a b : Rx) (s : State) := writeRR (fun x y => mulHigh x.toInt y.toInt) d a b s
def execMulhn (d a b : Rx) (s : State) := writeRR (fun x y => mulHigh x.toNat y.toNat) d a b s
def execDiv (d a b : Rx) (w : Bool) (s : State) := writeRR (wide w quotS quotS) d a b s
def execDivn (d a b : Rx) (w : Bool) (s : State) := writeRR (wide w quotU quotU) d a b s
def execRem (d a b : Rx) (w : Bool) (s : State) := writeRR (wide w remS remS) d a b s
def execRemn (d a b : Rx) (w : Bool) (s : State) := writeRR (wide w remU remU) d a b s
def execClz (d a : Rx) (w : Bool) (s : State) := writeR (countBy w countLeading countLeading) d a s
def execCtz (d a : Rx) (w : Bool) (s : State) := writeR (countBy w countTrailing countTrailing) d a s
def execPopc (d a : Rx) (w : Bool) (s : State) := writeR (countBy w countOnes countOnes) d a s
def execSext (d a : Rx) (k : Width3) (s : State) := writeR (fun x => sextTo k.bits x.toNat) d a s
def execZext (d a : Rx) (k : Width3) (s : State) := writeR (zextLow k.bits) d a s

/-- `sel` takes its third source from the c field (R99). -/
def execSel (d a b c : Rx) (s : State) : Host.Outcome State Fault Refusal :=
  finish s (do
    let x ← useX s a
    let y ← useX s b
    let z ← useX s c
    return retire (s.wx d (if z ≠ 0 then x else y)))

/-! ### Immediate forms (R101 to R104) -/

def execAddi (d a : Rx) (imm : BitVec 16) (s : State) := writeR (fun x => x + imm.signExtend 64) d a s
def execAndi (d a : Rx) (imm : BitVec 16) (s : State) := writeR (fun x => x &&& imm.setWidth 64) d a s
def execOri (d a : Rx) (imm : BitVec 16) (s : State) := writeR (fun x => x ||| imm.setWidth 64) d a s
def execXori (d a : Rx) (imm : BitVec 16) (s : State) := writeR (fun x => x ^^^ imm.setWidth 64) d a s
def execSlti (d a : Rx) (imm : BitVec 16) (s : State) := writeR (fun x => flagWord (x.slt (imm.signExtend 64))) d a s
def execSltni (d a : Rx) (imm : BitVec 16) (s : State) := writeR (fun x => flagWord (x.ult (imm.signExtend 64))) d a s
def execSlli (d a : Rx) (w : Bool) (sh : Fin 64) (s : State) :=
  writeR (fun x => shiftBy w (fun v n => v <<< n) (fun v n => v <<< n) x sh.val) d a s
def execSrli (d a : Rx) (w : Bool) (sh : Fin 64) (s : State) :=
  writeR (fun x => shiftBy w (fun v n => v >>> n) (fun v n => v >>> n) x sh.val) d a s
def execSrai (d a : Rx) (w : Bool) (sh : Fin 64) (s : State) :=
  writeR (fun x => shiftBy w (fun v n => v.sshiftRight n) (fun v n => v.sshiftRight n) x sh.val) d a s
def execRori (d a : Rx) (w : Bool) (sh : Fin 64) (s : State) :=
  writeR (fun x => shiftBy w (fun v n => v.rotateRight n) (fun v n => v.rotateRight n) x sh.val) d a s
def execLuis (d a : Rx) (h : Fin 6) (v : BitVec 12) (s : State) := writeR (fun x => spliceChunk x h.val v) d a s
def execBext (d a : Rx) (pos len1 : Fin 64) (s : State) := writeR (fun x => extractField x pos.val (len1.val + 1)) d a s

/-- `bins` reads its destination as a source (R104). -/
def execBins (d a : Rx) (pos len1 : Fin 64) (s : State) :=
  writeRR (fun old x => insertField old x pos.val (len1.val + 1)) d d a s

end Sys2Proof.Machine
end

