-- ==== Sys2Proof/Machine/TileMath.lean ====
section
/-! DEFINITION. Tile multiplies, conversion, quantisation, scaling, addition, and row, column and transpose moves (02 R47
to R51; 06 R151, R152, R165 to R173), majors 0x31 to 0x34. -/

namespace Sys2Proof

/-- Bits of an element in memory and in a tile (R36, R151). -/
def Ty.packed (t : Ty) : Nat := if t = .l6 then 6 else t.width

end Sys2Proof

namespace Sys2Proof.Machine

/-! ### Tiles as elements (R151) -/

/-- A data row, as a number. -/
def tileRow (img : TileImage) (i : Nat) : Nat := elem 1024 i img.data

/-- Element `c` of a row. -/
def rowElem (t : Ty) (row c : Nat) : Nat := row / 2 ^ (t.packed * c) % 2 ^ t.packed

/-- Element `c` of row `i`. -/
def tileElem (t : Ty) (img : TileImage) (i c : Nat) : Nat := rowElem t (tileRow img i) c

/-- Tile data from its elements; the unused bytes of an l6 row are zero. -/
def tileData (t : Ty) (f : Nat → Nat → Nat) : BitVec 32768 :=
  BitVec.ofNat 32768 (packList 1024 ((List.range 32).map fun i =>
    packList t.packed ((List.range t.perRow).map fun c => f i c)))

/-- An unscaled tile. -/
def plainTile (data : BitVec 32768) : TileImage := { data, scale := 0, tag := 0 }

/-- Types whose elements take scales (R38, R166). -/
def scaledType (t : Ty) : Bool := t == .e4m3 || t == .e5m2 || t == .l6

/-- The scale of element `c` of row `i`, if the tile is scaled for the type (R150, R166). -/
def scaleOf (t : Ty) (img : TileImage) (i c : Nat) : Option Nat :=
  if scaledType t && img.tag != 0 then some (elem 8 (16 * i + c / 2 ^ img.tag) img.scale) else none

/-! ### The order of sums (R47, R48, R50) -/

/-- An operand element: its value, its code, and its scale. -/
structure Operand where
  v : FVal
  code : Nat
  scale : Option Nat

/-- The elements of a row of a multiply's operand. -/
def operandRow (t : Ty) (fzi : Bool) (img : TileImage) (i : Nat) : List Operand :=
  let row := tileRow img i
  (List.range t.perRow).map fun c =>
    let b := rowElem t row c
    { v := fval t fzi b, code := b, scale := scaleOf t img i c }

/-- A term times one operand's scale. -/
def Term.byScale (t : Term) (k : Option Nat) : Term :=
  match k with
  | none => t
  | some e => t.scaled ((e : Int) - 127) (e == 255)

/-- Prod × ScA × ScB. -/
def product (l6 : Bool) (a b : Operand) : Term :=
  ((if l6 then l6Product a.code b.code else mulTerm a.v b.v).byScale a.scale).byScale b.scale

/-- K-step width (R47). -/
def stepWidth : Ty → Nat
  | .f16 | .bf16 => 4
  | .l6 => 16
  | _ => 8

/-- The terms of each K-step; a pruned position contributes none (R50). -/
def stepTerms (l6 : Bool) (g : Nat) (a : List (Option Operand)) (b : List Operand) : List (List Term) :=
  let ts := (List.zip a b).map fun e => e.1.map fun x => product l6 x e.2
  (List.range (ts.length / g)).map fun k => ((ts.drop (g * k)).take g).filterMap id

/-- The accumulator through the steps. -/
def accumulate (m : Mode) (fzo : Bool) (acc : FVal) (steps : List (List Term)) : FVal × Flags :=
  steps.foldl (fun p ts =>
    let r := roundSum .f32 m fzo (p.1.term :: ts)
    (fval .f32 false r.1, p.2 ||| r.2)) (acc, 0)

/-- The exact sum of an i8 multiply (R51). -/
def i8Sum (a : List (Option Operand)) (b : List Operand) : Int :=
  (List.zip a b).foldl (fun n e => match e.1 with
    | none => n
    | some x => n + toSigned 8 x.code * toSigned 8 e.2.code) 0

/-! ### Multiplies (R165 to R168) -/

/-- A multiply of rows of A by rows of B into an accumulator tile; with `tr`, the transpose of the result. -/
def multiply (t : Ty) (m : Mode) (fzi fzo z tr : Bool) (old : TileImage) (a : List (List (Option Operand)))
    (b : List (List Operand)) : TileImage × Flags :=
  let at' := fun (i j : Nat) => if tr then (j, i) else (i, j)
  if t = .i8 then
    (plainTile (tileData .i32 fun r c =>
      let (i, j) := at' r c
      let acc := if z then 0 else toSigned 32 (tileElem .i32 old r c)
      wrap 32 (acc + i8Sum (a.getD i []) (b.getD j []))), 0)
  else
    let cells := (List.range 32).map fun r => (List.range 32).map fun c =>
      let (i, j) := at' r c
      let acc := if z then FVal.fin false 0 0 else fval .f32 fzi (tileElem .f32 old r c)
      accumulate m fzo acc (stepTerms (t == Ty.l6) (stepWidth t) (a.getD i []) (b.getD j []))
    (plainTile (BitVec.ofNat 32768 (packList 32 (cells.flatten.map fun e => bitsOf .f32 e.1))),
     gather (cells.flatten.map fun e => (0, e.2)))

/-- A result is written to its tile once its flags have been raised (R157). -/
def writeResult (s : State) (d : Rt) (r : TileImage × Flags) : Except Stop State := do
  let s ← raiseFlags s r.2
  return retire (← writeTile s d r.1)

/-- The accumulator's old content, which `z` leaves unread. -/
def oldTile (s : State) (d : Rt) (z : Bool) : Except Stop TileImage := if z then .ok (Tile.image none) else useT s d

/-- The mode of a multiply. -/
def dynMode (s : State) (dyn : Bool) : Mode := if dyn then modeOf s.th.fcsr else .rne

/-- A dense multiply (R166). -/
def denseMultiply (tr : Bool) (d a b : Rt) (t tb : Ty) (fzi dyn fzo z : Bool) (s : State) :
    Host.Outcome State Fault Refusal :=
  finish s (do
    let x ← useT s a
    let y ← useT s b
    let old ← oldTile s d z
    let rows := (List.range 32).map fun i => (operandRow t fzi x i).map some
    let cols := (List.range 32).map fun j => operandRow tb fzi y j
    writeResult s d (multiply t (dynMode s dyn) fzi fzo z tr old rows cols))

def execTmma (d a b : Rt) (t : Ty) (fzi dyn fzo z : Bool) (s : State) := denseMultiply false d a b t t fzi dyn fzo z s
def execTmmat (d a b : Rt) (t : Ty) (fzi dyn fzo z : Bool) (s : State) := denseMultiply true d a b t t fzi dyn fzo z s
def execTmmax (d a b : Rt) (t tb : Ty) (fzi dyn fzo z : Bool) (s : State) := denseMultiply false d a b t tb fzi dyn fzo z s

/-- N, M and b of a pattern (R167). -/
def Nm.shape : Nm → Nat × Nat × Nat
  | .n2m4 => (2, 4, 2) | .n1m2 => (1, 2, 1) | .n1m4 => (1, 4, 2) | .n2m8 => (2, 8, 3)

/-- The index of kept element `e` of a metadata row (R168). -/
def metaIndex (b row e : Nat) : Nat := row / 2 ^ (b * e) % 2 ^ b

/-- The first group of a metadata row whose indices do not strictly ascend. -/
def badGroup (nm : Nm) (n row : Nat) : Option Nat :=
  let (k, _, b) := Nm.shape nm
  (List.range (n / k)).find? fun q => (List.range (k - 1)).any fun i =>
    decide (metaIndex b row (q * k + i + 1) ≤ metaIndex b row (q * k + i))

/-- The first metadata row with such a group, and that group. -/
def badRow (nm : Nm) (n : Nat) (meta' : TileImage) : Option (Nat × Nat) :=
  (List.range 32).findSome? fun i => (badGroup nm n (tileRow meta' i)).map fun q => (i, q)

/-- A row of A over the dense index: the kept elements at their places. -/
def expandRow (nm : Nm) (row : Nat) (kept : List Operand) : List (Option Operand) :=
  let (k, m, b) := Nm.shape nm
  (List.range (kept.length / k)).flatMap fun q => (List.range m).map fun p =>
    ((List.range k).find? fun i => metaIndex b row (q * k + i) == p).bind fun i => kept[q * k + i]?

/-- `tmmas` (R167, R168). -/
def execTmmas (d a b m : Rt) (t : Ty) (nm : Nm) (fzi dyn fzo z : Bool) (s : State) : Host.Outcome State Fault Refusal :=
  finish s (do
    let x ← useT s a
    let meta' ← useT s m
    let ys ← (List.range (Nm.ratio nm)).mapM fun i => useT s (Fin.ofNat 16 (b.val + i))
    let old ← oldTile s d z
    match badRow nm t.perRow meta' with
    | some (i, q) => trapOf 0x02 0 (BitVec.ofNat 64 (i * 256 + q))
    | none =>
      require (!(scaledType t && x.tag != 0)) 0x02
      let rows := (List.range 32).map fun i => expandRow nm (tileRow meta' i) (operandRow t fzi x i)
      let cols := (List.range 32).map fun j => ys.flatMap fun y => operandRow t fzi y j
      writeResult s d (multiply t (dynMode s dyn) fzi fzo z false old rows cols))

/-! ### Convert and quantise (R169 to R171) -/

/-- An element's conversion, with its scale (R39, R45, R46). -/
def convertScaled (tin tout : Ty) (m : Mode) (sat fzi fzo : Bool) (b : Nat) (scale : Option Nat) : Nat × Flags :=
  match scale with
  | none => convert tin tout m sat fzi fzo b
  | some e =>
    let v := fval tin fzi b
    convertF tout m sat fzo (if e = 255 then .nan false else v.scale ((e : Int) - 127))

/-- `tcvt` (R170): a narrowing conversion keeps the other elements of td. -/
def execTcvt (d a : Rt) (tout tin : Ty) (rm : Rm) (sat fzi fzo : Bool) (part : Fin 4) (s : State) :
    Host.Outcome State Fault Refusal :=
  finish s (do
    let x ← useT s a
    let ni := tin.perRow
    let no := tout.perRow
    let old ← oldTile s d (no ≤ ni)
    let m := rmMode rm (modeOf s.th.fcsr)
    let cells := (List.range 32).map fun i =>
      let row := tileRow x i
      let keep := tileRow old i
      let one := fun c => convertScaled tin tout m sat fzi fzo (rowElem tin row c) (scaleOf tin x i c)
      (List.range no).map fun c =>
        if no ≤ ni then one (part.val * no + c)
        else if part.val * ni ≤ c ∧ c < (part.val + 1) * ni then one (c - part.val * ni)
        else (rowElem tout keep c, 0)
    writeResult s d (plainTile (tileData tout fun i c => ((cells.getD i []).getD c (0, 0)).1), gather cells.flatten))

/-- `tqnt` (R171). -/
def execTqnt (d a : Rt) (blog : Fin 16) (t : Ty) (rm : Rm) (sat fzi fzo : Bool) (part : Fin 4) (s : State) :
    Host.Outcome State Fault Refusal :=
  finish s (do
    let x ← useT s a
    let old ← useT s d
    let m := rmMode rm (modeOf s.th.fcsr)
    let size := 2 ^ blog.val
    -- each row: its blocks' scales, and its quantised elements with their flags
    let rows := (List.range 32).map fun i =>
      let vals := (List.range 32).map fun c => fval .f32 fzi (rowElem .f32 (tileRow x i) c)
      let blocks := (List.range (32 / size)).map fun q => (vals.drop (q * size)).take size
      let scales := blocks.map (blockScale t)
      (scales, (List.zip blocks scales).flatMap fun e => e.1.map fun v => convertF t m sat fzo (v.scale (127 - (e.2 : Int))))
    let data := tileData t fun i c =>
      if 32 * part.val ≤ c ∧ c < 32 * part.val + 32 then (((rows.getD i ([], [])).2).getD (c - 32 * part.val) (0, 0)).1
      else tileElem t old i c
    let scale := packList 8 ((List.range 512).map fun k =>
      let i := k / 16
      let b := k % 16
      let first := 32 * part.val / size
      if first ≤ b ∧ b < first + 32 / size then ((rows.getD i ([], [])).1).getD (b - first) 0 else elem 8 k old.scale)
    writeResult s d ({ data, scale := BitVec.ofNat 4096 scale, tag := blog.val }, gather (rows.flatMap fun r => r.2)))

/-! ### Scale and add (R172) -/

/-- One value for each of 1,024 elements of four bytes. -/
def eachElem (f : Nat → Nat → Nat × Flags) : TileImage × Flags :=
  let cells := (List.range 32).flatMap fun i => (List.range 32).map fun j => f i j
  (plainTile (BitVec.ofNat 32768 (packList 32 (cells.map (·.1)))), gather cells)

def execTscl (d a b : Rt) (_ : Ty) (rm : Rm) (fzi fzo : Bool) (k : SclMode) (s : State) : Host.Outcome State Fault Refusal :=
  finish s (do
    let x ← useT s a
    let y ← useT s b
    let m := rmMode rm (modeOf s.th.fcsr)
    writeResult s d (eachElem fun i j =>
      let v := fval .f32 fzi (tileElem .f32 x i j)
      let w := fval .f32 fzi (match k with
        | .elementwise => tileElem .f32 y i j
        | .column => tileElem .f32 y 0 j
        | .row => tileElem .f32 y i 0)
      roundSum .f32 m fzo [mulTerm v w]))

def execTadd (d a b : Rt) (t : Ty) (rm : Rm) (fzi fzo : Bool) (s : State) : Host.Outcome State Fault Refusal :=
  finish s (do
    let x ← useT s a
    let y ← useT s b
    let m := rmMode rm (modeOf s.th.fcsr)
    writeResult s d (eachElem fun i j =>
      let v := tileElem .f32 x i j
      let w := tileElem .f32 y i j
      if t.isInt then ((v + w) % 2 ^ 32, 0)
      else roundSum .f32 m fzo [(fval .f32 fzi v).term, (fval .f32 fzi w).term]))

/-! ### Row, column and transpose (R173) -/

def execTrdr (a : Rt) (k : Rx) (v : Rv) (s : State) : Host.Outcome State Fault Refusal :=
  finish s (do
    let img ← useT s a
    let i ← useX s k
    return retire (s.wv v (if i.toNat < 32 then BitVec.ofNat 1024 (tileRow img i.toNat) else 0)))

/-- `twrr`. With `xk` out of range it writes nothing (R173); it does not read `td` then, so that a `td` which waits for a reply, or
holds poison, neither delays nor faults it: no rule says (DESIGN CHOICE, log entry 134). -/
def execTwrr (d : Rt) (k : Rx) (v : Rv) (s : State) : Host.Outcome State Fault Refusal :=
  finish s (do
    let i ← useX s k
    let row ← useV s v
    if 32 ≤ i.toNat then return retire s
    else
      let old ← useT s d
      return retire (← writeTile s d { old with data := setElem 1024 i.toNat old.data row.toNat }))

def execTrdc (a : Rt) (t : Ty) (k : Rx) (v : Rv) (s : State) : Host.Outcome State Fault Refusal :=
  finish s (do
    let img ← useT s a
    let c ← useX s k
    let col := packList t.width ((List.range 32).map fun i => tileElem t img i c.toNat)
    return retire (s.wv v (if c.toNat < t.perRow then BitVec.ofNat 1024 col else 0)))

/-- `twrc`: as `twrr`, for a column. -/
def execTwrc (d : Rt) (t : Ty) (k : Rx) (v : Rv) (s : State) : Host.Outcome State Fault Refusal :=
  finish s (do
    let c ← useX s k
    let col ← useV s v
    if t.perRow ≤ c.toNat then return retire s
    else
      let old ← useT s d
      let data := tileData t fun i j => if j = c.toNat then elem t.width i col else tileElem t old i j
      return retire (← writeTile s d { old with data }))

def execTtrn (d a : Rt) (t : Ty) (s : State) : Host.Outcome State Fault Refusal :=
  finish s (do
    let img ← useT s a
    return retire (← writeTile s d (plainTile (tileData t fun j c => tileElem t img (c % 32) (c / 32 * 32 + j)))))

end Sys2Proof.Machine
end

