-- ==== Sys2Proof/Machine/VectorPred.lean ====
section
/-! DEFINITION. Vector compares, reductions, block scales, moves between vector and scalar registers, and predicate
operations (05 R128, R129, R133, R134, R137 to R141), majors 0x22, 0x26, 0x28, 0x2A and 0x2B. -/

namespace Sys2Proof.Machine

/-! ### Compare and classify (R128, R129) -/

/-- Whether an ordering of two values satisfies a compare: less, equal, greater. -/
structure Cond where
  lt : Bool
  eq : Bool
  gt : Bool
  /-- on a NaN operand: the result, and whether a quiet NaN raises NV too -/
  nan : Bool
  ordered : Bool

/-- A compare of two elements. -/
def compareElem (c : Cond) (t : Ty) (fzi : Bool) (x y : Nat) : Bool × Flags :=
  if t.isInt then
    let a := intVal t x
    let b := intVal t y
    (if a < b then c.lt else if a = b then c.eq else c.gt, 0)
  else
    let a := fval t fzi x
    let b := fval t fzi y
    if a.isNan || b.isNan then (c.nan, if c.ordered || a.isSnan || b.isSnan then Flag.nv else 0)
    else (if a.lt b then c.lt else if b.lt a then c.gt else c.eq, 0)

/-- A compare writes every element of its predicate: an inactive one reads 0. -/
def compare (f : Nat → Nat → Bool × Flags) (d : Rp) (a : Rv) (b : Option Rv) (g : Rg) (t : Ty) (s : State) :
    Host.Outcome State Fault Refusal :=
  finish s (do
    requireType s t
    let va ← useV s a
    let vb ← match b with
      | some b => useV s b
      | none => pure 0
    let p := s.th.rg g
    let res := fun e => f (elem t.width e va) (elem t.width e vb)
    let s ← raiseFlags s (gather (((List.range t.lanes).filter (active t p)).map fun e => (0, (res e).2)))
    return retire (s.wp d (lanePred t fun e => active t p e && (res e).1)))

def condEq : Cond := { lt := false, eq := true, gt := false, nan := false, ordered := false }
def condNe : Cond := { lt := true, eq := false, gt := true, nan := true, ordered := false }
def condLt : Cond := { lt := true, eq := false, gt := false, nan := false, ordered := true }
def condLe : Cond := { lt := true, eq := true, gt := false, nan := false, ordered := true }
def condGt : Cond := { lt := false, eq := false, gt := true, nan := false, ordered := true }
def condGe : Cond := { lt := false, eq := true, gt := true, nan := false, ordered := true }
def condUn : Cond := { lt := false, eq := false, gt := false, nan := true, ordered := false }

def execVceq (d : Rp) (a b : Rv) (p : Rg) (t : Ty) (fzi : Bool) (s : State) :=
  compare (compareElem condEq t fzi) d a (some b) p t s
def execVcne (d : Rp) (a b : Rv) (p : Rg) (t : Ty) (fzi : Bool) (s : State) :=
  compare (compareElem condNe t fzi) d a (some b) p t s
def execVclt (d : Rp) (a b : Rv) (p : Rg) (t : Ty) (fzi : Bool) (s : State) :=
  compare (compareElem condLt t fzi) d a (some b) p t s
def execVcle (d : Rp) (a b : Rv) (p : Rg) (t : Ty) (fzi : Bool) (s : State) :=
  compare (compareElem condLe t fzi) d a (some b) p t s
def execVcgt (d : Rp) (a b : Rv) (p : Rg) (t : Ty) (fzi : Bool) (s : State) :=
  compare (compareElem condGt t fzi) d a (some b) p t s
def execVcge (d : Rp) (a b : Rv) (p : Rg) (t : Ty) (fzi : Bool) (s : State) :=
  compare (compareElem condGe t fzi) d a (some b) p t s
def execVcun (d : Rp) (a b : Rv) (p : Rg) (t : Ty) (fzi : Bool) (s : State) :=
  compare (compareElem condUn t fzi) d a (some b) p t s

/-- The class of a value (R129): 0 zero, 1 subnormal, 2 normal, 3 infinity, 4 NaN. -/
def classOf (t : Ty) (v : FVal) : Nat :=
  match v with
  | .nan _ => 4
  | .inf _ => 3
  | .fin _ m e => if m = 0 then 0 else if dyLt m e 1 t.fmt.emin then 1 else 2

def execVclass (d : Rp) (a : Rv) (m : BitVec 5) (p : Rg) (t : Ty) (fzi : Bool) (s : State) :=
  compare (fun x _ => (bitAt m (classOf t (fval t fzi x)), 0)) d a none p t s

/-! ### Reductions (R133, R134) -/

/-- A result of 8s bits in an x register. -/
def extendTo (t : Ty) (v : Nat) : Word := if t.signed then sextTo t.width v else BitVec.ofNat 64 (v % 2 ^ t.width)

/-- One level of the tree: neighbours summed, and a last odd value carried. -/
def pairSums (t : Ty) (m : Mode) : List FVal → List FVal × Flags
  | a :: b :: rest =>
    let r := roundSum t m false [a.term, b.term]
    let q := pairSums t m rest
    (fval t false r.1 :: q.1, r.2 ||| q.2)
  | l => (l, 0)

/-- The tree of R134: seven levels bring 64 values to one. -/
def treeSum (t : Ty) (m : Mode) : Nat → List FVal → Nat × Flags
  | _, [] => (zeroBits t false, 0)
  | _, [v] => (bitsOf t v, if v.isSnan then Flag.nv else 0)
  | 0, _ => (t.nan, 0)
  | k + 1, l =>
    let r := pairSums t m l
    let q := treeSum t m k r.1
    (q.1, r.2 ||| q.2)

/-- A fold whose result is rounded, or chosen, at each element. -/
def foldElems (t : Ty) (f : FVal → FVal → Nat × Flags) (start : FVal) (vs : List FVal) : FVal × Flags :=
  vs.foldl (fun p v => let r := f p.1 v; (fval t false r.1, p.2 ||| r.2)) (start, 0)

/-- A reduction of the active elements. -/
def reduceWith (f : Mode → List Nat → Nat × Flags) (ext : Nat → Word) (d : Rx) (a : Rv) (g : Rg) (t : Ty) (s : State) :
    Except Stop State := do
  requireType s t
  let va ← useV s a
  let p := s.th.rg g
  let r := f (modeOf s.th.fcsr) (((List.range t.lanes).filter (active t p)).map fun e => elem t.width e va)
  let s ← raiseFlags s r.2
  return retire (s.wx d (ext r.1))

/-- The wrapped sum of integer elements. -/
def intSum (t : Ty) (start : Int) (xs : List Nat) : Nat := wrap t.width (xs.foldl (fun n x => n + intVal t x) start)

def execVrsum (d : Rx) (a : Rv) (p : Rg) (t : Ty) (fzi : Bool) (s : State) : Host.Outcome State Fault Refusal :=
  finish s (reduceWith (fun m xs =>
    if t.isInt then (intSum t 0 xs, 0) else treeSum t m 7 (xs.map (fval t fzi))) (extendTo t) d a p t s)

/-- `vrsumo` starts at xb, which is unchanged when no element is active. -/
def execVrsumo (d : Rx) (a : Rv) (b : Rx) (p : Rg) (t : Ty) (fzi : Bool) (s : State) : Host.Outcome State Fault Refusal :=
  finish s (do
    requireType s t
    let x ← useX s b
    let start := x.toNat % 2 ^ t.width
    reduceWith (fun m xs =>
      if t.isInt then (intSum t (intVal t start) xs, 0)
      else if xs.isEmpty then (start, 0)
      else
        let r := foldElems t (fun acc v => roundSum t m false [acc.term, v.term]) (fval t fzi start) (xs.map (fval t fzi))
        (bitsOf t r.1, r.2)) (extendTo t) d a p t s)

/-- The greatest or least active element (R126, R130). -/
def extreme (isMax : Bool) (t : Ty) (fzi : Bool) (xs : List Nat) : Nat × Flags :=
  if t.isInt then
    let pick := fun (n : Int) (x : Nat) => if isMax then max n (intVal t x) else min n (intVal t x)
    (wrap t.width (xs.foldl pick (if isMax then t.intMin else t.intMax)), 0)
  else
    let r := foldElems t (fminmax t isMax false) (.inf isMax) (xs.map (fval t fzi))
    (bitsOf t r.1, r.2)

def execVrmax (d : Rx) (a : Rv) (p : Rg) (t : Ty) (fzi : Bool) (s : State) : Host.Outcome State Fault Refusal :=
  finish s (reduceWith (fun _ xs => extreme true t fzi xs) (extendTo t) d a p t s)
def execVrmin (d : Rx) (a : Rv) (p : Rg) (t : Ty) (fzi : Bool) (s : State) : Host.Outcome State Fault Refusal :=
  finish s (reduceWith (fun _ xs => extreme false t fzi xs) (extendTo t) d a p t s)
def execVrand (d : Rx) (a : Rv) (p : Rg) (t : Ty) (s : State) : Host.Outcome State Fault Refusal :=
  finish s (reduceWith (fun _ xs => (xs.foldl (fun n x => n &&& x) (2 ^ t.width - 1), 0)) (extendTo t) d a p t s)
def execVror (d : Rx) (a : Rv) (p : Rg) (t : Ty) (s : State) : Host.Outcome State Fault Refusal :=
  finish s (reduceWith (fun _ xs => (xs.foldl (fun n x => n ||| x) 0, 0)) (extendTo t) d a p t s)

/-- An element counts as zero: the integer 0 or a floating zero. -/
def zeroElem (t : Ty) (fzi : Bool) (x : Nat) : Bool := if t.isInt then x == 0 else (fval t fzi x).isZero

/-- `vrcnt` writes its count whole (R133). It raises no flag, of a signalling NaN neither, of which no rule says more
(DEDUCED, log entry 22). -/
def execVrcnt (d : Rx) (a : Rv) (p : Rg) (t : Ty) (fzi : Bool) (s : State) : Host.Outcome State Fault Refusal :=
  finish s (reduceWith (fun _ xs => ((xs.filter fun x => !zeroElem t fzi x).length, 0)) (BitVec.ofNat 64) d a p t s)

/-! ### Block scale (R137 to R139) -/

/-- A vector register that an instruction merges into is read when some element keeps its value. -/
def oldLanes (s : State) (d : Rv) (all : Bool) : Except Stop VReg := if all then .ok (s.th.rv d) else useV s d

/-- `vqnt`: the scale of the block goes to xb, and the scaled elements to vd. -/
def execVqnt (d a : Rv) (b : Rx) (p : Rg) (t : Ty) (fzi fzo : Bool) (s : State) : Host.Outcome State Fault Refusal :=
  finish s (do
    let va ← useV s a
    let g := s.th.rg p
    let old ← oldLanes s d (allActive .f32 g)
    let val := fun e => fval .f32 fzi (elem 32 e va)
    let k := blockScale t (((List.range 32).filter (active .f32 g)).map val)
    let r := mapLanes .f32 g old fun e => scaleRound .f32 .rne fzo (127 - (k : Int)) (val e)
    let s ← raiseFlags s r.2
    return retire ((s.wv d r.1).wx b (BitVec.ofNat 64 k)))

/-- `vdqnt`: the predicate is read at byte positions. -/
def execVdqnt (d a : Rv) (b : Rx) (p : Rg) (t : Ty) (fzi fzo : Bool) (s : State) : Host.Outcome State Fault Refusal :=
  finish s (do
    let va ← useV s a
    let x ← useX s b
    let g := s.th.rg p
    let on := fun e => bitAt g e
    let old ← oldLanes s d ((List.range 32).all on)
    let k := bits x 0 8
    let one := fun e =>
      let v := fval t fzi (elem 8 e va)
      if k = 255 ∨ v.isNan then (Ty.nan .f32, 0) else scaleRound .f32 .rne fzo ((k : Int) - 127) v
    let r := (List.range 32).map fun e => if on e then one e else (elem 32 e old, 0)
    let s ← raiseFlags s (gather r)
    return retire (s.wv d (BitVec.ofNat 1024 (packList 32 (r.map (·.1))))))

/-- A power of two of a magnitude that overflows or vanishes in every type acts as any greater one. -/
def clampExp (k : Int) : Int := max (-8192) (min 8192 k)

/-- `vscale` (R139). -/
def execVscale (d a : Rv) (b : Rx) (p : Rg) (t : Ty) (fzi fzo : Bool) (s : State) : Host.Outcome State Fault Refusal :=
  finish s (do
    requireType s t
    let va ← useV s a
    let x ← useX s b
    let g := s.th.rg p
    let old ← oldLanes s d (allActive t g)
    let m := modeOf s.th.fcsr
    let r := mapLanes t g old fun e => scaleRound t m fzo (clampExp x.toInt) (fval t fzi (elem t.width e va))
    let s ← raiseFlags s r.2
    return retire (s.wv d r.1))

/-! ### Moves between vector and scalar registers (R140) -/

def execVmovx (d : Rx) (a : Rv) (b : Rx) (t : Ty) (s : State) : Host.Outcome State Fault Refusal :=
  finish s (do
    requireType s t
    let va ← useV s a
    let x ← useX s b
    return retire (s.wx d (if x.toNat < t.lanes then extendTo t (elem t.width x.toNat va % t.values) else 0)))

/-- The bits that an x register or window word gives an element: an l6 element takes six (R36, R140). -/
def splatBits (t : Ty) (x : Word) : Nat := x.toNat % t.values

/-- `vxmov` writes one element, or nothing. -/
def execVxmov (d : Rv) (a b : Rx) (t : Ty) (s : State) : Host.Outcome State Fault Refusal :=
  finish s (do
    requireType s t
    let x ← useX s a
    let i ← useX s b
    if i.toNat < t.lanes then
      let old ← useV s d
      return retire (s.wv d (setElem t.width i.toNat old (splatBits t x)))
    else return retire s)

/-- Elements that do not depend on another vector register, merged. -/
def fillLanes (d : Rv) (g : Rg) (t : Ty) (s : State) (f : Nat → Nat) : Except Stop State := do
  let p := s.th.rg g
  let old ← oldLanes s d (allActive t p)
  return retire (s.wv d (mapBits t p old f).1)

def execVsplat (d : Rv) (a : Rx) (p : Rg) (t : Ty) (s : State) : Host.Outcome State Fault Refusal :=
  finish s (do
    requireType s t
    let x ← useX s a
    fillLanes d p t s fun _ => splatBits t x)

def execVsplatk (d : Rv) (k : Fin 256) (p : Rg) (t : Ty) (s : State) : Host.Outcome State Fault Refusal :=
  finish s (do
    requireType s t
    let v ← useWindow s k.val
    fillLanes d p t s fun _ => splatBits t v)

def execVidx (d : Rv) (a b : Rx) (p : Rg) (t : Ty) (s : State) : Host.Outcome State Fault Refusal :=
  finish s (do
    requireType s t
    let x ← useX s a
    let y ← useX s b
    fillLanes d p t s fun e => (x.toNat + e * y.toNat) % 2 ^ t.width)

/-- `vwhile`: exact and unsigned. -/
def execVwhile (d : Rp) (a b : Rx) (t : Ty) (s : State) : Host.Outcome State Fault Refusal :=
  finish s (do
    requireType s t
    let x ← useX s a
    let y ← useX s b
    return retire (s.wp d (lanePred t fun e => decide (x.toNat + e < y.toNat))))

def execVgetl (d a : Rx) (t : Ty) (s : State) : Host.Outcome State Fault Refusal :=
  finish s (do
    requireType s t
    let x ← useX s a
    return retire (s.wx d (BitVec.ofNat 64 (if a = 0 then t.lanes else min x.toNat t.lanes))))

/-! ### Predicate operations (R141) -/

def execPand (d a b : Rp) (s : State) : Host.Outcome State Fault Refusal :=
  finish s (.ok (retire (s.wp d (s.th.rp a &&& s.th.rp b))))
def execPor (d a b : Rp) (s : State) : Host.Outcome State Fault Refusal :=
  finish s (.ok (retire (s.wp d (s.th.rp a ||| s.th.rp b))))
def execPxor (d a b : Rp) (s : State) : Host.Outcome State Fault Refusal :=
  finish s (.ok (retire (s.wp d (s.th.rp a ^^^ s.th.rp b))))
def execPnot (d a : Rp) (s : State) : Host.Outcome State Fault Refusal :=
  finish s (.ok (retire (s.wp d (~~~(s.th.rp a)))))
def execPmov (d a : Rp) (s : State) : Host.Outcome State Fault Refusal :=
  finish s (.ok (retire (s.wp d (s.th.rp a))))

/-- The elements whose bit is set in both predicates. -/
def bothSet (s : State) (a : Rp) (g : Rg) (t : Ty) : List Nat :=
  (List.range t.lanes).filter fun e => active t (s.th.rp a) e && active t (s.th.rg g) e

def execPcnt (d : Rx) (a : Rp) (p : Rg) (t : Ty) (s : State) : Host.Outcome State Fault Refusal :=
  finish s (do
    requireType s t
    return retire (s.wx d (BitVec.ofNat 64 (bothSet s a p t).length)))

def execPfirst (d a : Rp) (p : Rg) (t : Ty) (s : State) : Host.Outcome State Fault Refusal :=
  finish s (do
    requireType s t
    return retire (s.wp d (lanePred t fun e => (bothSet s a p t).head? == some e)))

def execPset (d : Rp) (a : Rx) (t : Ty) (s : State) : Host.Outcome State Fault Refusal :=
  finish s (do
    requireType s t
    let x ← useX s a
    return retire (s.wp d (lanePred t fun e => bitAt x (e % 64))))

end Sys2Proof.Machine
end

