-- ==== Sys2Proof/Machine/Dispatch.lean ====
section
/-! DEFINITION. One arm for each constructor of Instr: the call of its meaning. -/

namespace Sys2Proof.Machine

def exec (i : Instr) (s : State) : Host.Outcome State Fault Refusal :=
  match i with
  | .add d a b w => Sys2Proof.Machine.execAdd d a b w s
  | .sub d a b w => Sys2Proof.Machine.execSub d a b w s
  | .and d a b => Sys2Proof.Machine.execAnd d a b s
  | .or d a b => Sys2Proof.Machine.execOr d a b s
  | .xor d a b => Sys2Proof.Machine.execXor d a b s
  | .andn d a b => Sys2Proof.Machine.execAndn d a b s
  | .orn d a b => Sys2Proof.Machine.execOrn d a b s
  | .sll d a b w => Sys2Proof.Machine.execSll d a b w s
  | .srl d a b w => Sys2Proof.Machine.execSrl d a b w s
  | .sra d a b w => Sys2Proof.Machine.execSra d a b w s
  | .ror d a b w => Sys2Proof.Machine.execRor d a b w s
  | .slt d a b => Sys2Proof.Machine.execSlt d a b s
  | .sltn d a b => Sys2Proof.Machine.execSltn d a b s
  | .min d a b => Sys2Proof.Machine.execMin d a b s
  | .max d a b => Sys2Proof.Machine.execMax d a b s
  | .minn d a b => Sys2Proof.Machine.execMinn d a b s
  | .maxn d a b => Sys2Proof.Machine.execMaxn d a b s
  | .mul d a b w => Sys2Proof.Machine.execMul d a b w s
  | .mulh d a b => Sys2Proof.Machine.execMulh d a b s
  | .mulhn d a b => Sys2Proof.Machine.execMulhn d a b s
  | .div d a b w => Sys2Proof.Machine.execDiv d a b w s
  | .divn d a b w => Sys2Proof.Machine.execDivn d a b w s
  | .rem d a b w => Sys2Proof.Machine.execRem d a b w s
  | .remn d a b w => Sys2Proof.Machine.execRemn d a b w s
  | .clz d a w => Sys2Proof.Machine.execClz d a w s
  | .ctz d a w => Sys2Proof.Machine.execCtz d a w s
  | .popc d a w => Sys2Proof.Machine.execPopc d a w s
  | .sext d a k => Sys2Proof.Machine.execSext d a k s
  | .zext d a k => Sys2Proof.Machine.execZext d a k s
  | .sel d a b c => Sys2Proof.Machine.execSel d a b c s
  | .addi d a imm => Sys2Proof.Machine.execAddi d a imm s
  | .andi d a imm => Sys2Proof.Machine.execAndi d a imm s
  | .ori d a imm => Sys2Proof.Machine.execOri d a imm s
  | .xori d a imm => Sys2Proof.Machine.execXori d a imm s
  | .slti d a imm => Sys2Proof.Machine.execSlti d a imm s
  | .sltni d a imm => Sys2Proof.Machine.execSltni d a imm s
  | .slli d a w sh => Sys2Proof.Machine.execSlli d a w sh s
  | .srli d a w sh => Sys2Proof.Machine.execSrli d a w sh s
  | .srai d a w sh => Sys2Proof.Machine.execSrai d a w sh s
  | .rori d a w sh => Sys2Proof.Machine.execRori d a w sh s
  | .luis d a h v => Sys2Proof.Machine.execLuis d a h v s
  | .bext d a pos len1 => Sys2Proof.Machine.execBext d a pos len1 s
  | .bins d a pos len1 => Sys2Proof.Machine.execBins d a pos len1 s
  | .kld d k => Sys2Proof.Machine.execKld d k s
  | .kldIndexed d a k => Sys2Proof.Machine.execKldIndexed d a k s
  | .kldRef d k2 => Sys2Proof.Machine.execKldRef d k2 s
  | .kldRefIndexed d a k2 => Sys2Proof.Machine.execKldRefIndexed d a k2 s
  | .beq a b disp => Sys2Proof.Machine.execBeq a b disp s
  | .bne a b disp => Sys2Proof.Machine.execBne a b disp s
  | .blt a b disp => Sys2Proof.Machine.execBlt a b disp s
  | .bge a b disp => Sys2Proof.Machine.execBge a b disp s
  | .bltn a b disp => Sys2Proof.Machine.execBltn a b disp s
  | .bgen a b disp => Sys2Proof.Machine.execBgen a b disp s
  | .pbrAny a g disp => Sys2Proof.Machine.execPbrAny a g disp s
  | .pbrAll a g disp => Sys2Proof.Machine.execPbrAll a g disp s
  | .pbrNone a g disp => Sys2Proof.Machine.execPbrNone a g disp s
  | .jal d disp => Sys2Proof.Machine.execJal d disp s
  | .jalr d a imm => Sys2Proof.Machine.execJalr d a imm s
  | .amov d a => Sys2Proof.Machine.execAmov d a s
  | .aoff d a b k => Sys2Proof.Machine.execAoff d a b k s
  | .asetf d a b => Sys2Proof.Machine.execAsetf d a b s
  | .asetb d a b => Sys2Proof.Machine.execAsetb d a b s
  | .ageto d a => Sys2Proof.Machine.execAgeto d a s
  | .agetn d a => Sys2Proof.Machine.execAgetn d a s
  | .amake d a b => Sys2Proof.Machine.execAmake d a b s
  | .acoord d a b c => Sys2Proof.Machine.execAcoord d a b c s
  | .achk d a b => Sys2Proof.Machine.execAchk d a b s
  | .aspace d a sp => Sys2Proof.Machine.execAspace d a sp s
  | .ld d r x imm k => Sys2Proof.Machine.execLd d r x imm k s
  | .ldn d r x imm k => Sys2Proof.Machine.execLdn d r x imm k s
  | .lda d r x imm => Sys2Proof.Machine.execLda d r x imm s
  | .st d r x imm k => Sys2Proof.Machine.execSt d r x imm k s
  | .sta d r x imm => Sys2Proof.Machine.execSta d r x imm s
  | .amoswap d r x k q w => Sys2Proof.Machine.execAmoswap d r x k q w s
  | .amoadd d r x k q w => Sys2Proof.Machine.execAmoadd d r x k q w s
  | .amoand d r x k q w => Sys2Proof.Machine.execAmoand d r x k q w s
  | .amoor d r x k q w => Sys2Proof.Machine.execAmoor d r x k q w s
  | .amoxor d r x k q w => Sys2Proof.Machine.execAmoxor d r x k q w s
  | .amomin d r x k q w => Sys2Proof.Machine.execAmomin d r x k q w s
  | .amomax d r x k q w => Sys2Proof.Machine.execAmomax d r x k q w s
  | .amominn d r x k q w => Sys2Proof.Machine.execAmominn d r x k q w s
  | .amomaxn d r x k q w => Sys2Proof.Machine.execAmomaxn d r x k q w s
  | .amocas d r x k q w => Sys2Proof.Machine.execAmocas d r x k q w s
  | .amofadd d r x k q w => Sys2Proof.Machine.execAmofadd d r x k q w s
  | .fence k q => Sys2Proof.Machine.execFence k q s
  | .pacq x k => Sys2Proof.Machine.execPacq x k s
  | .hdrain k => Sys2Proof.Machine.execHdrain k s
  | .msend a b => Sys2Proof.Machine.execMsend a b s
  | .msendv v a b => Sys2Proof.Machine.execMsendv v a b s
  | .msenda a b => Sys2Proof.Machine.execMsenda a b s
  | .mrecv d v => Sys2Proof.Machine.execMrecv d v s
  | .mwait d a => Sys2Proof.Machine.execMwait d a s
  | .mpeek d => Sys2Proof.Machine.execMpeek d s
  | .mcount d => Sys2Proof.Machine.execMcount d s
  | .hurdle h k => Sys2Proof.Machine.execHurdle h k s
  | .harrive d h k => Sys2Proof.Machine.execHarrive d h k s
  | .hwait a h k => Sys2Proof.Machine.execHwait a h k s
  | .htest d a h k => Sys2Proof.Machine.execHtest d a h k s
  | .xphase d => Sys2Proof.Machine.execXphase d s
  | .xphaseWait d a => Sys2Proof.Machine.execXphaseWait d a s
  | .xsend d a b => Sys2Proof.Machine.execXsend d a b s
  | .cpsetSrc a => Sys2Proof.Machine.execCpsetSrc a s
  | .cpsetDst a => Sys2Proof.Machine.execCpsetDst a s
  | .cpgo d b => Sys2Proof.Machine.execCpgo d b s
  | .cpwp d a => Sys2Proof.Machine.execCpwp d a s
  | .cpstat d a => Sys2Proof.Machine.execCpstat d a s
  | .cpcancel a => Sys2Proof.Machine.execCpcancel a s
  | .spawn a => Sys2Proof.Machine.execSpawn a s
  | .tqget d => Sys2Proof.Machine.execTqget d s
  | .gatedec a b => Sys2Proof.Machine.execGatedec a b s
  | .repf cnt1 len1 step sd sa sb => Sys2Proof.Machine.execRepf cnt1 len1 step sd sa sb s
  | .vadd d a b p t fzi fzo => Sys2Proof.Machine.execVadd d a b p t fzi fzo s
  | .vsub d a b p t fzi fzo => Sys2Proof.Machine.execVsub d a b p t fzi fzo s
  | .vmul d a b p t fzi fzo => Sys2Proof.Machine.execVmul d a b p t fzi fzo s
  | .vmin d a b p t fzi fzo => Sys2Proof.Machine.execVmin d a b p t fzi fzo s
  | .vmax d a b p t fzi fzo => Sys2Proof.Machine.execVmax d a b p t fzi fzo s
  | .vabd d a b p t fzi fzo => Sys2Proof.Machine.execVabd d a b p t fzi fzo s
  | .vaddmin d a b p t fzi fzo => Sys2Proof.Machine.execVaddmin d a b p t fzi fzo s
  | .vcopysign d a b p t fzi fzo => Sys2Proof.Machine.execVcopysign d a b p t fzi fzo s
  | .vfma d a b p t fzi fzo => Sys2Proof.Machine.execVfma d a b p t fzi fzo s
  | .vfms d a b p t fzi fzo => Sys2Proof.Machine.execVfms d a b p t fzi fzo s
  | .vfnma d a b p t fzi fzo => Sys2Proof.Machine.execVfnma d a b p t fzi fzo s
  | .vfnms d a b p t fzi fzo => Sys2Proof.Machine.execVfnms d a b p t fzi fzo s
  | .vdiv d a b p t fzi fzo => Sys2Proof.Machine.execVdiv d a b p t fzi fzo s
  | .vsqrt d a p t fzi fzo => Sys2Proof.Machine.execVsqrt d a p t fzi fzo s
  | .vrcpe d a p t fzi fzo => Sys2Proof.Machine.execVrcpe d a p t fzi fzo s
  | .vrsqe d a p t fzi fzo => Sys2Proof.Machine.execVrsqe d a p t fzi fzo s
  | .vceq d a b p t fzi => Sys2Proof.Machine.execVceq d a b p t fzi s
  | .vcne d a b p t fzi => Sys2Proof.Machine.execVcne d a b p t fzi s
  | .vclt d a b p t fzi => Sys2Proof.Machine.execVclt d a b p t fzi s
  | .vcle d a b p t fzi => Sys2Proof.Machine.execVcle d a b p t fzi s
  | .vcgt d a b p t fzi => Sys2Proof.Machine.execVcgt d a b p t fzi s
  | .vcge d a b p t fzi => Sys2Proof.Machine.execVcge d a b p t fzi s
  | .vcun d a b p t fzi => Sys2Proof.Machine.execVcun d a b p t fzi s
  | .vclass d a m p t fzi => Sys2Proof.Machine.execVclass d a m p t fzi s
  | .viadd d a b p t => Sys2Proof.Machine.execViadd d a b p t s
  | .visub d a b p t => Sys2Proof.Machine.execVisub d a b p t s
  | .vimul d a b p t => Sys2Proof.Machine.execVimul d a b p t s
  | .vimulh d a b p t => Sys2Proof.Machine.execVimulh d a b p t s
  | .vimin d a b p t => Sys2Proof.Machine.execVimin d a b p t s
  | .vimax d a b p t => Sys2Proof.Machine.execVimax d a b p t s
  | .viaddmin d a b p t => Sys2Proof.Machine.execViaddmin d a b p t s
  | .viabs d a p t => Sys2Proof.Machine.execViabs d a p t s
  | .vand d a b p t => Sys2Proof.Machine.execVand d a b p t s
  | .vor d a b p t => Sys2Proof.Machine.execVor d a b p t s
  | .vxor d a b p t => Sys2Proof.Machine.execVxor d a b p t s
  | .vandn d a b p t => Sys2Proof.Machine.execVandn d a b p t s
  | .vsll d a b p t => Sys2Proof.Machine.execVsll d a b p t s
  | .vsrl d a b p t => Sys2Proof.Machine.execVsrl d a b p t s
  | .vsra d a b p t => Sys2Proof.Machine.execVsra d a b p t s
  | .vsel d a b p t => Sys2Proof.Machine.execVsel d a b p t s
  | .vshup d a b p t => Sys2Proof.Machine.execVshup d a b p t s
  | .vshdn d a b p t => Sys2Proof.Machine.execVshdn d a b p t s
  | .vbcl d a b p t => Sys2Proof.Machine.execVbcl d a b p t s
  | .vperm d a b p t => Sys2Proof.Machine.execVperm d a b p t s
  | .vzip d a b p t hi => Sys2Proof.Machine.execVzip d a b p t hi s
  | .vuzp d a b p t hi => Sys2Proof.Machine.execVuzp d a b p t hi s
  | .vrev d a p t => Sys2Proof.Machine.execVrev d a p t s
  | .vcompr d a p t => Sys2Proof.Machine.execVcompr d a p t s
  | .vrsum d a p t fzi => Sys2Proof.Machine.execVrsum d a p t fzi s
  | .vrsumo d a b p t fzi => Sys2Proof.Machine.execVrsumo d a b p t fzi s
  | .vrmax d a p t fzi => Sys2Proof.Machine.execVrmax d a p t fzi s
  | .vrmin d a p t fzi => Sys2Proof.Machine.execVrmin d a p t fzi s
  | .vrand d a p t => Sys2Proof.Machine.execVrand d a p t s
  | .vror d a p t => Sys2Proof.Machine.execVror d a p t s
  | .vrcnt d a p t fzi => Sys2Proof.Machine.execVrcnt d a p t fzi s
  | .vcvt d a tin tout p fzi sat rm fzo => Sys2Proof.Machine.execVcvt d a tin tout p fzi sat rm fzo s
  | .vrnd d a t p fzi rm fzo => Sys2Proof.Machine.execVrnd d a t p fzi rm fzo s
  | .vqnt d a b p t fzi fzo => Sys2Proof.Machine.execVqnt d a b p t fzi fzo s
  | .vdqnt d a b p t fzi fzo => Sys2Proof.Machine.execVdqnt d a b p t fzi fzo s
  | .vscale d a b p t fzi fzo => Sys2Proof.Machine.execVscale d a b p t fzi fzo s
  | .vld d r x imm p => Sys2Proof.Machine.execVld d r x imm p s
  | .vst d r x imm p => Sys2Proof.Machine.execVst d r x imm p s
  | .vlds d r x imm p => Sys2Proof.Machine.execVlds d r x imm p s
  | .vsts d r x imm p => Sys2Proof.Machine.execVsts d r x imm p s
  | .vldg d r x imm p => Sys2Proof.Machine.execVldg d r x imm p s
  | .vstg d r x imm p => Sys2Proof.Machine.execVstg d r x imm p s
  | .vldb d r x imm p => Sys2Proof.Machine.execVldb d r x imm p s
  | .vldff d r x imm p => Sys2Proof.Machine.execVldff d r x imm p s
  | .vmovx d a b t => Sys2Proof.Machine.execVmovx d a b t s
  | .vxmov d a b t => Sys2Proof.Machine.execVxmov d a b t s
  | .vsplat d a p t => Sys2Proof.Machine.execVsplat d a p t s
  | .vsplatk d k p t => Sys2Proof.Machine.execVsplatk d k p t s
  | .vidx d a b p t => Sys2Proof.Machine.execVidx d a b p t s
  | .vwhile d a b t => Sys2Proof.Machine.execVwhile d a b t s
  | .vgetl d a t => Sys2Proof.Machine.execVgetl d a t s
  | .pand d a b => Sys2Proof.Machine.execPand d a b s
  | .por d a b => Sys2Proof.Machine.execPor d a b s
  | .pxor d a b => Sys2Proof.Machine.execPxor d a b s
  | .pnot d a => Sys2Proof.Machine.execPnot d a s
  | .pcnt d a p t => Sys2Proof.Machine.execPcnt d a p t s
  | .pfirst d a p t => Sys2Proof.Machine.execPfirst d a p t s
  | .pset d a t => Sys2Proof.Machine.execPset d a t s
  | .pmov d a => Sys2Proof.Machine.execPmov d a s
  | .tld d a tr r c => Sys2Proof.Machine.execTld d a tr r c s
  | .tst d a tr r c => Sys2Proof.Machine.execTst d a tr r c s
  | .tzero d => Sys2Proof.Machine.execTzero d s
  | .tmov d a => Sys2Proof.Machine.execTmov d a s
  | .tfill d k x => Sys2Proof.Machine.execTfill d k x s
  | .tmma d a b t fzi dyn fzo z => Sys2Proof.Machine.execTmma d a b t fzi dyn fzo z s
  | .tmmat d a b t fzi dyn fzo z => Sys2Proof.Machine.execTmmat d a b t fzi dyn fzo z s
  | .tmmax d a b t tb fzi dyn fzo z => Sys2Proof.Machine.execTmmax d a b t tb fzi dyn fzo z s
  | .tmmas d a b m t nm fzi dyn fzo z => Sys2Proof.Machine.execTmmas d a b m t nm fzi dyn fzo z s
  | .tcvt d a tout tin rm sat fzi fzo part => Sys2Proof.Machine.execTcvt d a tout tin rm sat fzi fzo part s
  | .tqnt d a blog t rm sat fzi fzo part => Sys2Proof.Machine.execTqnt d a blog t rm sat fzi fzo part s
  | .tscl d a b t rm fzi fzo m => Sys2Proof.Machine.execTscl d a b t rm fzi fzo m s
  | .tadd d a b t rm fzi fzo => Sys2Proof.Machine.execTadd d a b t rm fzi fzo s
  | .trdr a k v => Sys2Proof.Machine.execTrdr a k v s
  | .twrr d k v => Sys2Proof.Machine.execTwrr d k v s
  | .trdc a t k v => Sys2Proof.Machine.execTrdc a t k v s
  | .twrc d t k v => Sys2Proof.Machine.execTwrc d t k v s
  | .ttrn d a t => Sys2Proof.Machine.execTtrn d a t s
  | .tring d a => Sys2Proof.Machine.execTring d a s
  | .tringS a => Sys2Proof.Machine.execTringS a s
  | .tringR d => Sys2Proof.Machine.execTringR d s
  | .trjoin th a d => Sys2Proof.Machine.execTrjoin th a d s
  | .trstat th d => Sys2Proof.Machine.execTrstat th d s
  | .tsave half a m => Sys2Proof.Machine.execTsave half a m s
  | .trstr half a m => Sys2Proof.Machine.execTrstr half a m s
  | .trel half m => Sys2Proof.Machine.execTrel half m s
  | .syscall c => Sys2Proof.Machine.execSyscall c s
  | .trap a b => Sys2Proof.Machine.execTrap a b s
  | .brk c => Sys2Proof.Machine.execBrk c s
  | .eretThread d a => Sys2Proof.Machine.execEretThread d a s
  | .waiti d a => Sys2Proof.Machine.execWaiti d a s
  | .csrrd d n => Sys2Proof.Machine.execCsrrd d n s
  | .csrwr d a n => Sys2Proof.Machine.execCsrwr d a n s
  | .csrset d a n => Sys2Proof.Machine.execCsrset d a n s
  | .csrclr d a n => Sys2Proof.Machine.execCsrclr d a n s
  | .scrubCore d a => Sys2Proof.Machine.execScrubCore d a s
  | .ctxsave d a b => Sys2Proof.Machine.execCtxsave d a b s
  | .ctxload d a b => Sys2Proof.Machine.execCtxload d a b s
  | .tgath1 d a b => Sys2Proof.Machine.execTgath1 d a b s
  | .vdot4 d a b => Sys2Proof.Machine.execVdot4 d a b s
  | .nop g => Sys2Proof.Machine.execNop g s
  | .hpref r x l lvl g => Sys2Proof.Machine.execHpref r x l lvl g s
  | .hstream r x l g => Sys2Proof.Machine.execHstream r x l g s
  | .hevict r x l lvl g => Sys2Proof.Machine.execHevict r x l lvl g s
  | .hprio g n => Sys2Proof.Machine.execHprio g n s
  | .hloop c dist => Sys2Proof.Machine.execHloop c dist s
  | .hint h g => Sys2Proof.Machine.execHint h g s
  | .undefinedInstruction word => Sys2Proof.Machine.execUndefinedInstruction word s
  | .scrubQuad d a => Sys2Proof.Machine.execScrubQuad d a s
  | .scrubSection d a => Sys2Proof.Machine.execScrubSection d a s
  | .scrubQuadShare d a => Sys2Proof.Machine.execScrubQuadShare d a s
  | .tqdone => Sys2Proof.Machine.execTqdone s
  | .eret => Sys2Proof.Machine.execEret s
  | .holdRelease core => Sys2Proof.Machine.execHoldRelease core s
  | .heldRequestReply core => Sys2Proof.Machine.execHeldRequestReply core s
  | .inboxRefill t => Sys2Proof.Machine.execInboxRefill t s
  | .mwaitWake t => Sys2Proof.Machine.execMwaitWake t s
  | .mwaitTimeout t => Sys2Proof.Machine.execMwaitTimeout t s
  | .waitiWake t => Sys2Proof.Machine.execWaitiWake t s
  | .waitiTimeout t => Sys2Proof.Machine.execWaitiTimeout t s
  | .hurdleCompletion g dom lvl inst => Sys2Proof.Machine.execHurdleCompletion g dom lvl inst s
  | .phaseClockMatch t => Sys2Proof.Machine.execPhaseClockMatch t s
  | .ringTileArrival eng => Sys2Proof.Machine.execRingTileArrival eng s
  | .pacqComplete t => Sys2Proof.Machine.execPacqComplete t s
  | .split q => Sys2Proof.Machine.execSplit q s
  | .lateFree eng => Sys2Proof.Machine.execLateFree eng s
  | .checkerRetry t agrees inEngine => Sys2Proof.Machine.execCheckerRetry t agrees inEngine s
  | .strikeReport q sensor estimate => Sys2Proof.Machine.execStrikeReport q sensor estimate s
  | .recallRestore q => Sys2Proof.Machine.execRecallRestore q s
  | .recallSeal q => Sys2Proof.Machine.execRecallSeal q s
  | .recallResume q => Sys2Proof.Machine.execRecallResume q s
  | .outsideStrikeReport sec sensor => Sys2Proof.Machine.execOutsideStrikeReport sec sensor s
  | .outsideWriteApply q => Sys2Proof.Machine.execOutsideWriteApply q s
  | .threadStart core slot => Sys2Proof.Machine.execThreadStart core slot s
  | .startQueueDequeue core => Sys2Proof.Machine.execStartQueueDequeue core s
  | .threadEnd t => Sys2Proof.Machine.execThreadEnd t s
  | .linearCopy sec eng => Sys2Proof.Machine.execLinearCopy sec eng s
  | .twoDimensionalCopy sec eng => Sys2Proof.Machine.execTwoDimensionalCopy sec eng s
  | .reduce sec eng => Sys2Proof.Machine.execReduce sec eng s
  | .finalise sec eng => Sys2Proof.Machine.execFinalise sec eng s
  | .clear sec eng => Sys2Proof.Machine.execClear sec eng s
  | .copyCompletion sec eng => Sys2Proof.Machine.execCopyCompletion sec eng s
  | .copyFault sec eng resumed => Sys2Proof.Machine.execCopyFault sec eng resumed s
  | .relocationRequest die desc => Sys2Proof.Machine.execRelocationRequest die desc s
  | .relocationLine die => Sys2Proof.Machine.execRelocationLine die s
  | .relocationRelease die => Sys2Proof.Machine.execRelocationRelease die s
  | .lrhoWrite die frame v => Sys2Proof.Machine.execLrhoWrite die frame v s
  | .recordChangeInForce => Sys2Proof.Machine.execRecordChangeInForce s
  | .transferTransaction region toHost => Sys2Proof.Machine.execTransferTransaction region toHost s
  | .transferTransactionDone region => Sys2Proof.Machine.execTransferTransactionDone region s
  | .load q dxo => Sys2Proof.Machine.execLoad q dxo s
  | .teardown q => Sys2Proof.Machine.execTeardown q s
  | .halt q => Sys2Proof.Machine.execHalt q s
  | .resume q => Sys2Proof.Machine.execResume q s
  | .step q => Sys2Proof.Machine.execStep q s
  | .group q => Sys2Proof.Machine.execGroup q s
  | .release q => Sys2Proof.Machine.execRelease q s
  | .create q => Sys2Proof.Machine.execCreate q s
  | .share q => Sys2Proof.Machine.execShare q s
  | .unassignedRequest q entry => Sys2Proof.Machine.execUnassignedRequest q entry s
  | .endCall t => Sys2Proof.Machine.execEndCall t s
  | .objnew t => Sys2Proof.Machine.execObjnew t s
  | .objfree t => Sys2Proof.Machine.execObjfree t s
  | .reside t => Sys2Proof.Machine.execReside t s
  | .watch t => Sys2Proof.Machine.execWatch t s
  | .trace t => Sys2Proof.Machine.execTrace t s
  | .unassignedSyscall t => Sys2Proof.Machine.execUnassignedSyscall t s
  | .residencyFaultService t => Sys2Proof.Machine.execResidencyFaultService t s
  | .unserviceableFault t => Sys2Proof.Machine.execUnserviceableFault t s
  | .featureTrap t => Sys2Proof.Machine.execFeatureTrap t s
  | .coreMove src dst => Sys2Proof.Machine.execCoreMove src dst s
  | .fencing u => Sys2Proof.Machine.execFencing u s
  | .sliceExpiry g => Sys2Proof.Machine.execSliceExpiry g s
  | .switchOut g => Sys2Proof.Machine.execSwitchOut g s
  | .switchIn g => Sys2Proof.Machine.execSwitchIn g s
  | .pacerEpoch q => Sys2Proof.Machine.execPacerEpoch q s
  | .heatCheckpoint g => Sys2Proof.Machine.execHeatCheckpoint g s
  | .heatReplay g => Sys2Proof.Machine.execHeatReplay g s
  | .flitReplay port => Sys2Proof.Machine.execFlitReplay port s
  | .laneFailure port portFails => Sys2Proof.Machine.execLaneFailure port portFails s
  | .requestTimeout core => Sys2Proof.Machine.execRequestTimeout core s
  | .heartbeat pkg answered => Sys2Proof.Machine.execHeartbeat pkg answered s
  | .packageLost pkg => Sys2Proof.Machine.execPackageLost pkg s
  | .routesRestored => Sys2Proof.Machine.execRoutesRestored s
  | .hostAccess addr o => Sys2Proof.Machine.execHostAccess addr o s
  | .moduleReset => Sys2Proof.Machine.execModuleReset s
  | .stage1Complete withheld retired => Sys2Proof.Machine.execStage1Complete withheld retired s
  | .stage2Complete => Sys2Proof.Machine.execStage2Complete s
  | .mstart rec => Sys2Proof.Machine.execMstart rec s
  | .mrepair v => Sys2Proof.Machine.execMrepair v s
  | .ago v => Sys2Proof.Machine.execAgo v s
  | .attn nonce => Sys2Proof.Machine.execAttn nonce s
  | .reportComplete => Sys2Proof.Machine.execReportComplete s
  | .mstatWrite v => Sys2Proof.Machine.execMstatWrite v s
  | .managementWrite addr v => Sys2Proof.Machine.execManagementWrite addr v s
  | .powerLimitCheck avg => Sys2Proof.Machine.execPowerLimitCheck avg s
  | .thermalTrip temp => Sys2Proof.Machine.execThermalTrip temp s
  | .keySlotWrite slot key => Sys2Proof.Machine.execKeySlotWrite slot key s
  | .thermalThrottle temp => Sys2Proof.Machine.execThermalThrottle temp s
  | .powerLoss => Sys2Proof.Machine.execPowerLoss s

end Sys2Proof.Machine
end

