-- ==== Sys2Proof/Machine/Outside.lean ====
section
/-! DEFINITION. What the environment and the firmware do that no row of the list of steps names: messages of the host, the
declaration of shared regions, errors of storage, the service cores' writes of other instances' CSRs, and what the other nodes
of the pod do to this one (03 R75; 07 R199, R216; 09 R244; 14 R324, R331, R336, R341, R344; 16 R376, R377, R389, R394; 17 R406,
R411). -/

namespace Sys2Proof.Machine

/-- A KIND 0 message of the host: as a request, it is not answered by compute dies held in reset, and not ready before
STATE 3 (R407, R410); it waits while the thread's queue is full (R198), and one that finds no thread is answered (R201). -/
def hostMessage (gang rank : Nat) (tag : BitVec 16) (words : List Word) (s : State) : Option State :=
  if s.pmc.held then some s
  else if s.pmc.state ≠ 3 then some { s with hostReplies := s.hostReplies ++ [.notReady] }
  else
    let header := headerWord 0 0 tag.toNat noRank
    let m : Message :=
      { header, payload := wordsPayload (words.take 8), sender := .host, scope := .system, outside := true, seq := 0, born := 0 }
    match deliver s gang rank m with
    | .done s => some s
    | .full => none
    | .dead => some (s.answer .host 0 (BitVec.ofNat 64 rank) header)

/-- A region lies in this package's device memory, or in the memory of a host that the routes know (R336, R389). -/
def regionExists (s : State) (r : Nat) : Bool :=
  let key := r * 2 ^ 21
  if key < 2 ^ 56 then key / 2 ^ 46 == s.pkg && populated key && populated (key + 2 ^ 21 - 1)
  else decide (hostBase ≤ key) && !onDie key && s.routes.get? (nodeOf key) == some true

/-- Regions of host memory that are shared. -/
def hostRegions (s : State) : Nat := (s.regions.filter fun r => decide (hostBase ≤ r.1 * 2 ^ 21)).length

/-- A region that is not yet shared becomes so, in the device's ownership; of host memory there are at most 65,536 (R336). -/
def declareRegion (r : Nat) (s : State) : State :=
  match s.regions.get? r with
  | some _ => s
  | none =>
    if !regionExists s r || (decide (hostBase ≤ r * 2 ^ 21) && decide (65536 ≤ hostRegions s)) then s
    else { s with regions := s.regions.put r { owner := false, busy := false, toHost := false, bound := 0, owed := none } }

/-- An eviction finds a line uncorrectable: its marker is set, the base die logs the frame with the object and the block that
lie there, as the offset of the block's first byte, and the firmware sets DMG of the blocks and retires the frame at its
second marker (R329, R331, R377). -/
def evictionMarks (line : Nat) (s : State) : State :=
  let hit := blocksOver s line
  let first := hit.head?.map fun k => storedLoc s (entryAt s k.2.2.1 k.2.2.2).storageKey
  let u := lineUnit s.pkg line
  let s := if s.poison.contains line then s
    else { s with poison := line :: s.poison, frameMarks := (line / 256, s.cycle) :: s.frameMarks }
  let s := s.logPackage { cls := 0x07, ukind := u.1, unit := u.2.1, detail := u.2.2, obj := (first.map (·.obj)).getD 0,
                          off := (first.map (·.off)).getD 0, paddr := line / 256 * 65536 % 2 ^ 46 }
  let s := hit.foldl (fun s k => s.damageBlock k.1 k.2.1 k.2.2.1 k.2.2.2) s
  s.retireFrame (line / 256)

/-- An error that the code corrects is only logged (R376). -/
def correctionLogs (line : Nat) (s : State) : State :=
  let u := lineUnit s.pkg line
  let e : Event := { cls := 0x05, ukind := u.1, unit := u.2.1, detail := u.2.2,
                     paddr := if line < 2 ^ 49 then 256 * line % 2 ^ 46 else 0 }
  if u.1 = 0 then s.logIn (sectionOfCore u.2.1) e
  else if u.1 = 2 then s.logIn (u.2.1 / 8) e
  else s.logPackage e

/-- A thread's own CSRs are with the service core while it is stopped: only then does the service core write them (R59, R222,
R256). -/
def csrWritable (s : State) (tid : Nat) (n : Csr) : Bool :=
  match n with
  | .fcsr | .cpsrc | .cpdst | .cplen | .cpstride | .cpshape | .cpmode | .cplaunch | .fcause | .faddr | .fstep | .finfo | .epc =>
    (s.thread tid).run == .service || (s.thread tid).run == .stopped
  | _ => true

/-- A service core writes a CSR of a thread's own instance; a recall does not take the write back (R75, R256). -/
def State.writeCsrOf (s : State) (tid : Nat) (n : Csr) (v : Word) : State :=
  (s.onThread tid fun s => csrPrivilegedWrite s n v).pinWith tid fun k =>
    (csrPrivilegedWrite { s.switchTo tid with th := k } n v).th

/-- What another package's write changes here: the bytes at a physical address, as the home stores them (R389). -/
def State.podStore (s : State) (addr : Nat) (bs : List Byte) : State :=
  performWrite s 0 0 0 none 0 [wbytes ((List.range bs.length).map fun i => storedLoc s (addr + i)) bs]

/-- An accumulator add of another package's copy engine: one atomic step at the home of the line (R216). -/
def State.podReduce (s : State) (addr : Nat) (ty : Ty) (value : Nat) : State :=
  let ls := (List.range 48).map fun i => forwardLoc s (storedLoc s (addr + i))
  let s := s.rereadBlocks (weakLines s ls)
  performWrite s 0 0 0 none 2 [wbytes ls (accAdd (ls.map (storedByte s)) (fval ty false value))]

/-- An atomic of another package's thread, performed at the home of its line as one step; the old value goes to that package,
and a marked line is left as it is, its reply poisoned (R187, R192, R289). -/
def State.podAmo (s : State) (addr : Nat) (op : AmoOp) (w : Bool) (x old : Word) : State :=
  let n := if w then 4 else 8
  let ls := (List.range n).map fun i => forwardLoc s (storedLoc s (addr + i))
  let s := s.rereadBlocks (weakLines s ls)
  let m := leNat (ls.map (storedByte s))
  performWrite s 0 0 0 none 1 [wbytes ls (leBytes n (amoNew op (8 * n) m x.toNat old.toNat))]

/-- A service core of another package makes an alias of an object of this one: its blocks become resident, and are pinned; it
waits while one of them is being moved (R344). -/
def podShare (ctx obj : Nat) (s : State) : Option State :=
  match objRecord s (s.context ctx) obj with
  | .ok (some o) =>
    if relocationRuns s ctx obj then none
    else if o.enc then some s
    else (s.resideAll ctx obj o).map fun s => { s with podAliases := s.podAliases ++ [(ctx, obj)] }
  | _ => some s

/-- A node of the pod is known by its number (R389). -/
def podNode (n : Nat) (host : Bool) (s : State) : State :=
  if n = s.pkg ∨ 1024 ≤ n then s else { s with pod := s.pod.put n host }

/-- What another package answers for an object takes the place of its last answer (R344). -/
def podObject (pkg ctx obj : Nat) (o : PodObject) (s : State) : State :=
  { s with podObjects := (pkg, ctx, obj, o) :: s.podObjects.filter fun e => (e.1, e.2.1, e.2.2.1) != (pkg, ctx, obj) }

/-- One occurrence, if it can happen now. -/
def occurs (o : Occurrence) (s : State) : Option State :=
  match o with
  | .message g r tag ws => hostMessage g r tag ws s
  | .share r => some (declareRegion r s)
  | .storageError n l => some { s with weak := (n, l) :: s.weak.filter fun e => e.1 != n }
  | .corrected n => some (correctionLogs n s)
  | .eviction n => some (evictionMarks n s)
  | .bufferError q => some (if (s.quad q).phase = .lost then s else s.containmentLoss q 0)
  | .csr t n v => if csrWritable s t n then some (s.writeCsrOf t n v) else none
  | .coolant i f => some (s.setPmc { s.pmc with inlet := i, flow := f })
  | .podNode n h => some (podNode n h s)
  | .rejoin p => some (s.rejoin p)
  | .rebuild ctx obj record => some { s with rebuilds := s.rebuilds ++ [{ ctx, obj, record, stores := 0 }] }
  | .podObject p c o x => some (podObject p c o x s)
  | .podKey p i key => some (if i < 256 ∧ key.length = 64 then { s with podKeys := s.podKeys.put (256 * p + i) key } else s)
  | .podWrite a bs => some (s.podStore a bs)
  | .podAdd a ty v => some (s.podReduce a (if ty = 11 then .bf16 else .f32) v)
  | .podShare c o => podShare c o s
  | .podUnshare c o => some { s with podAliases := s.podAliases.erase (c, o) }
  | .podAtomic a op w x old => some (s.podAmo a op w x old)
  | .shareAgain q => match execShare q s with
    | .next s' => some s'
    | _ => some s
  | .load q dxo => match execLoad q dxo s with
    | .next s' => some s'
    | _ => some s

/-- The first occurrence whose cycle has come and that can happen. -/
def nextOccurrence (s : State) : Option State :=
  s.occurrences.findSome? fun e =>
    if e.1 ≤ s.cycle then occurs e.2 { s with occurrences := s.occurrences.erase e } else none

end Sys2Proof.Machine
end

