-- ==== Sys2Proof/Machine/Due.lean ====
section
/-! DEFINITION. The events of the other agents that are due (95), and what comes from outside, in a fixed order (log
entry 6). -/

namespace Sys2Proof.Machine

/-- What an event comes to. -/
abbrev Result := Host.Outcome State Fault Refusal

/-- The first of some numbers for which an event is due, and the event. -/
def firstDue (l : List Nat) (due : Nat → Bool) (f : Nat → Result) : Option Result := (l.find? due).map f

/-- An event that changes the state. -/
def moves (s : State) (r : Result) : Option Result :=
  match r with
  | .next s' => if s' = s then none else some r
  | _ => some r

/-- The first of some numbers whose event changes the state. -/
def firstMove (s : State) (l : List Nat) (f : Nat → Result) : Option Result := l.findSome? fun n => moves s (f n)

/-! ### From outside -/

/-- What happens outside can reach its unit now. -/
def inputReady (s : State) : Instr → Bool
  | .checkerRetry t agrees _ => agrees || !going s t || canHold s t 1
  | .transferTransaction r toHost => match s.regions.get? r with
    | some g => !g.busy && !(toHost && accessOwed s g)
    | none => true
  | _ => true

/-- What the outside does now, if anything. -/
def State.dueInput (s : State) : Option (Instr × State) :=
  match s.inputs with
  | (n, i) :: rest => if n ≤ s.cycle ∧ inputReady s i then some (i, { s with inputs := rest }) else none
  | [] => none

/-! ### Units -/

def State.quadNumbers (s : State) : List Nat := s.quads.map (·.1)
def State.coreNumbers (s : State) : List Nat := s.cores.map (·.1)
def State.engineNumbers (s : State) : List Nat := s.quadNumbers.flatMap fun q => [2 * q, 2 * q + 1]
def State.gangNumbers (s : State) : List Nat := s.gangs.map (·.1)
def State.dieNumbers (s : State) : List Nat := s.dies.map (·.1)

/-- Splits come first: they record a cycle that has ended. -/
def dueSplit (s : State) : Option Result := firstDue s.quadNumbers (fun q => (splitDue s q).isSome) fun q => execSplit q s

/-- Recalls, pacers, waiting writes and late frees of a quad. -/
def dueQuad (s : State) : Option Result :=
  firstDue s.quadNumbers (fun q => (restoreDue s q).isSome) (fun q => execRecallRestore q s)
  <|> firstDue s.quadNumbers (fun q => (sealDue s q).isSome) (fun q => execRecallSeal q s)
  <|> firstDue s.quadNumbers (resumeDue s) (fun q => execRecallResume q s)
  <|> firstDue s.quadNumbers (fun q => (epochDue s q).isSome) (fun q => execPacerEpoch q s)
  <|> firstDue s.quadNumbers (fun q => (outsideDue s q).isSome) (fun q => execOutsideWriteApply q s)
  <|> firstDue s.engineNumbers (fun e => (s.engine e).late.any (lateFreeable s e)) (fun e => execLateFree e s)

/-- Records, damaged blocks, relocations and regions. -/
def dueStorage (s : State) : Option Result :=
  (if (changeDue s).isSome then some (execRecordChangeInForce s) else none)
  <|> (if (markDue s).isSome || !(framesDue s).isEmpty then moves s (.next s.handleMark) else none)
  <|> (if (mendDue s).isSome then some (.next s.mendBlock) else none)
  <|> (rebuildDue s).map (fun r => .next (s.rebuildStep r))
  <|> firstDue s.dieNumbers (fun d => (moving s d).isSome) (fun d => execRelocationLine d s)
  <|> firstDue s.dieNumbers (fun d => (releasable s d).isSome) (fun d => execRelocationRelease d s)
  <|> (if (lostRegion s).isSome then some (.next s.refuseRegion) else none)
  <|> firstDue (s.regions.map (·.1)) (transferDone s) (fun r => execTransferTransactionDone r s)
  <|> firstDue (s.regions.map (·.1)) (fun r => (s.hostWaits.any fun w => w.1 / 2 ^ 21 == r) &&
        ((s.regions.get? r).any fun g => !g.owner && !g.busy && !accessOwed s g)) (fun r => execTransferTransaction r true s)

/-- Starts, hold buffers and rings. -/
def dueCore (s : State) : Option Result :=
  (s.coreNumbers.findSome? fun c => (startDue s c).map fun e => execThreadStart c e.1 s)
  <|> firstDue s.coreNumbers (fun c => (dequeueDue s c).isSome) (fun c => execStartQueueDequeue c s)
  <|> firstDue s.coreNumbers (canRelease s) (fun c => execHoldRelease c s)
  <|> firstDue s.coreNumbers (fun c => (writeReply s c).isSome) (fun c => execHeldRequestReply c s)
  <|> firstDue s.engineNumbers (fun e => (leaveDue s e).isSome) (fun e => .next (ringLeave s e))
  <|> firstDue s.engineNumbers (fun e => !(s.engine e).arriving.isEmpty) (fun e => execRingTileArrival e s)

/-- Inboxes, and messages that the service cores keep; waits end in their threads' turns. -/
def dueThread (s : State) : Option Result :=
  (if (unsentDue s).isSome then some (.next s.sendKept) else none)
  <|> firstDue s.tids (fun t => (refillInbox s t).isSome) (fun t => execInboxRefill t s)

/-- The scopes of hurdles (R206). -/
def hurdleScopes : List Scope := [.core, .quad, .sect, .die, .package, .pod]

def dueHurdle (s : State) : Option Result :=
  s.gangs.findSome? fun e => [0, 1, 2, 3].findSome? fun d => hurdleScopes.findSome? fun lvl =>
    (((List.range e.2.cores.length).map (e.2.instAt lvl)).dedup.find? (hurdleDue s e.2 d lvl)).map fun i => execHurdleCompletion e.1 d lvl i s

/-- Threads in service. -/
def inService (s : State) : List Nat := s.tids.filter fun t => !isService t && (s.thread t).run == .service

/-- Heats, then the faults and calls in service. -/
def dueService (s : State) : Option Result :=
  firstDue s.gangNumbers (fun n => (s.gangs.get? n).any fun g => (replayDue s n g).isSome && g.checkpoint.isSome) (fun n => execHeatReplay n s)
  <|> firstDue s.gangNumbers (fun n => (s.gangs.get? n).any (checkpointDue s n)) (fun n => execHeatCheckpoint n s)
  <|> firstMove s (inService s) (fun t => execResidencyFaultService t s)
  <|> firstMove s (inService s) (fun t => execEndCall t s)
  <|> firstMove s (inService s) (fun t => execObjnew t s)
  <|> firstMove s (inService s) (fun t => execObjfree t s)
  <|> firstMove s (inService s) (fun t => execReside t s)
  <|> firstMove s (inService s) (fun t => execWatch t s)
  <|> firstMove s (inService s) (fun t => execTrace t s)
  <|> firstMove s (inService s) (fun t => execUnassignedSyscall t s)
  <|> firstDue (inService s) (fun t => (featureTarget s t).isSome || featureStops s t) (fun t => execFeatureTrap t s)
  <|> firstDue (inService s) (cannotServe s) (fun t => execUnserviceableFault t s)

/-- A teardown under way. -/
def closingStep (s : State) (n : Nat) : Result := .next (teardownStep s n)

/-- Replies to loads, teardowns, core moves, fences and switches. -/
def dueGang (s : State) : Option Result :=
  firstDue s.gangNumbers (fun n => (s.gangs.get? n).any (loadDone s)) (fun n => .next (loadReply s n))
  <|> firstMove s (s.gangNumbers.filter fun n => (s.gangs.get? n).any fun g => g.closing.isSome) (closingStep s)
  <|> (s.gangs.findSome? fun e => e.2.moves.findSome? fun m => moves s (execCoreMove m.1 m.2 s))
  <|> (unfinishedFence s).map (fun u => execFencing u s)
  <|> firstDue s.gangNumbers (fun n => (s.gangs.get? n).any (sliceDue s)) (fun n => execSliceExpiry n s)
  <|> firstMove s (s.gangNumbers.filter fun n => (s.gangs.get? n).any fun g => g.switching || !(waitingGangs s).isEmpty)
        (fun n => execSwitchOut n s)
  <|> firstDue s.gangNumbers (fun n => (s.gangs.get? n).any fun g => (comesIn s n g).isSome) (fun n => execSwitchIn n s)

/-- A section's two copy engines. -/
def engineWork (s : State) (sec eng : Nat) (f : Nat → Nat → State → Result) (kind : Nat) : Option Result :=
  if (activeTransfer s sec eng).any fun t => t.kind == kind then moves s (f sec eng s) else none

/-- What an engine does: service of its fault, its transfer's next part, and completions, which wait for a replay that a
failed transfer has triggered (R387). -/
def dueEngine (s : State) (sec eng : Nat) : Option Result :=
  (match suspendedCopy s sec eng with
    | some t => some (execCopyFault sec eng (copyServed s t).isSome s)
    | none => none)
  <|> engineWork s sec eng execLinearCopy 0
  <|> engineWork s sec eng execTwoDimensionalCopy 1
  <|> engineWork s sec eng execReduce 2
  <|> engineWork s sec eng execFinalise 3
  <|> engineWork s sec eng execClear 4
  <|> (if (nextCompletion s sec eng).isSome && !(s.gangs.any fun e => e.2.trigger.isSome) then some (execCopyCompletion sec eng s) else none)

def dueCopy (s : State) : Option Result :=
  s.sections.findSome? fun e => if e.2.transfers.isEmpty then none else dueEngine s e.1 0 <|> dueEngine s e.1 1

/-- The controller's write of a start record ends (R401). -/
def duePmc (s : State) : Option Result := if s.pmc.writing.isSome then some (.next (s.setPmc s.pmc.finishWrite)) else none

/-- What else comes about outside. -/
def dueOccurrence (s : State) : Option Result := (nextOccurrence s).map .next

/-- The next event of an agent that is due. -/
def runDue (s : State) : Option Result :=
  dueOccurrence s <|> duePmc s <|> dueQuad s <|> dueStorage s <|> dueCore s <|> dueThread s <|> dueHurdle s <|> dueService s <|> dueGang s <|> dueCopy s

end Sys2Proof.Machine
end

