-- ==== Sys2Proof/Machine/Step.lean ====
section
/-! DEFINITION. One step of the machine: a split that is due, else the next thing that the outside does, else the next
event of an agent that is due, else one instruction of the thread whose turn it is, or the end of the one it waits in. -/

namespace Sys2Proof.Machine

/-- The current thread's part of a step: its next instruction, or the fault it takes instead. -/
def threadStep (s : State) : Host.Outcome State Fault Refusal :=
  match nextInstr s with
  | .ok i => thenAdvance (exec i s)
  | .error e => thenAdvance (finish s (.error e))

/-- One step of the machine. -/
def step (s : State) : Host.Outcome State Fault Refusal :=
  match dueSplit s with
  | some r => r
  | none =>
    match s.dueInput with
    | some (i, s') => exec i s'
    | none =>
      match runDue s with
      | some r => r
      | none =>
        if !runs s s.tid then .next s.advance
        else if s.th.wait ≠ .none then thenAdvance (waitStep s) else threadStep s

/-- The state with an instruction placed where the next step fetches it (log entry 5). -/
def State.withFetchWord (s : State) (nbits w : Nat) : State := s.withProgram (w % 2 ^ nbits)

end Sys2Proof.Machine
end

