-- ==== Sys2Proof/Safety.lean ====
section
/-! DEFINITION. The terms that the claims use: what every state keeps, registers that can be read, how a thread goes on
after an instruction, and the fault record, each written from the manual as one update of the state. -/

namespace Sys2Proof.Safety

open Sys2Proof Sys2Proof.Machine

/-- Memory is in its canonical form. -/
def MemoryOk (s : State) : Prop := s.mem.wf = true

/-- A register can be read: no held request will write it (R186), and no poisoned reply has marked it (R187). -/
def Readable (t : Thread) (r : DestReg) : Prop := (∀ e ∈ t.pend, e.1 ≠ r) ∧ (∀ e ∈ t.poison, e.1 ≠ r)

/-- An `x` register can be read; `x0` always can (R58). -/
def ReadableX (t : Thread) (r : Rx) : Prop := r = 0 ∨ Readable t (.x r)

/-- An `x` register's value (R58). -/
def xVal (t : Thread) (r : Rx) : Nat := if r = 0 then 0 else (t.x[r]).toNat

/-- The thread goes on at `pc`: the instruction has retired, and a step fault is due if the step bit is set (R369). -/
def goOn (t : Thread) (pc : Word) : Thread :=
  { t with pc, stepDue := t.stepBit, wait := .none, paid := 0, late := false }

/-- The thread goes on at the next word. -/
def goNext (t : Thread) : Thread := goOn t (t.pc + 4)

/-- `xd` written; a write to `x0` is discarded (R58). The register no longer waits for a reply, and is not poisoned
(R186, R187). -/
def putX (t : Thread) (d : Rx) (v : Word) : Thread :=
  if d = 0 then t
  else { t with x := t.x.set d v, pend := t.pend.filter fun e => e.1 != .x d,
                poison := t.poison.filter fun e => e.1 != .x d }

/-- `ad` written. -/
def putA (t : Thread) (d : Ra) (v : Ref) : Thread :=
  { t with a := t.a.set d v, pend := t.pend.filter fun e => e.1 != .a d, poison := t.poison.filter fun e => e.1 != .a d }

/-- `vd` written. -/
def putV (t : Thread) (d : Rv) (v : VReg) : Thread :=
  { t with v := t.v.set d v, pend := t.pend.filter fun e => e.1 != .v d, poison := t.poison.filter fun e => e.1 != .v d }

/-- `pd` written; a write to `p0` is discarded (R58). -/
def putP (t : Thread) (d : Rp) (v : PReg) : Thread := if d = 0 then t else { t with p := t.p.set d v }

/-- A predicate register's value: `p0` reads as all ones (R58). -/
def pVal (t : Thread) (r : Rp) : PReg := if r = 0 then BitVec.allOnes 128 else t.p[r]

/-- The state with another record of the current thread, and nothing else changed. -/
def withThread (s : State) (t : Thread) : State := { s with th := t }

/-- Nothing but the current thread differs. -/
def OnlyThread (s s' : State) : Prop := s' = { s with th := s'.th }

/-- Nothing differs but the current thread and units of its own: its core's and quad's records, its gang (whose record
holds test-mode and heat-mode journals), its section, and the numbering of hold entries. In particular every byte of
Memory, every other thread and every other gang are the same. -/
def MemoryAndOthersKept (s s' : State) : Prop :=
  s'.mem = s.mem ∧ s'.parked = s.parked ∧ s'.tid = s.tid ∧ s'.contexts = s.contexts ∧ s'.poison = s.poison
    ∧ s'.cycle = s.cycle ∧ s'.pmc = s.pmc

/-- The registers an instruction names are all that it writes: `x`, `a`, `v`, `p` and tile registers outside the lists,
`fcsr`, the copy shadows and the fault record are as before (the frame). -/
structure RegsKept (t t' : Thread) (xs : List Rx) (as : List Ra) (vs : List Rv) (ps : List Rp) (ts : List Rt) : Prop where
  x : ∀ r, r ∉ xs → t'.x[r] = t.x[r]
  a : ∀ r, r ∉ as → t'.a[r] = t.a[r]
  v : ∀ r, r ∉ vs → t'.v[r] = t.v[r]
  p : ∀ r, r ∉ ps → t'.p[r] = t.p[r]
  t : ∀ r, r ∉ ts → t'.t[r] = t.t[r]

/-- `fcsr`, the copy shadows, the fault record and the level are as before. -/
structure SpecialKept (t t' : Thread) : Prop where
  fcsr : t'.fcsr = t.fcsr
  cpsrc : t'.cpsrc = t.cpsrc
  cpdst : t'.cpdst = t.cpdst
  cplen : t'.cplen = t.cplen
  cpshape : t'.cpshape = t.cpshape
  cpstride : t'.cpstride = t.cpstride
  cpmode : t'.cpmode = t.cpmode
  fcause : t'.fcause = t.fcause
  faddr : t'.faddr = t.faddr
  fstep : t'.fstep = t.fstep
  finfo : t'.finfo = t.finfo
  epc : t'.epc = t.epc
  privileged : t'.privileged = t.privileged

/-- The fault record of R224 as a thread writes it: cause and level, address, information, step, and the low 44 bits of
the offset of the faulting instruction; the thread waits for nothing any more. A residency fault, which is serviced without
the thread seeing it, keeps the record that it replaces (R223). -/
def faultRecord (t : Thread) (cause : Nat) (addr info : Word) (step : Nat) (miss : Option Miss) : Thread :=
  { t with before := if cause = 0x0A then [t.fcause, t.faddr, t.fstep, t.finfo, t.epc] else []
           fcause := BitVec.ofNat 64 ((if t.privileged then 256 else 0) + cause), faddr := addr, finfo := info,
           fstep := BitVec.ofNat 64 (step % 65536), epc := BitVec.ofNat 64 (t.pc.toNat % 2 ^ 44),
           wait := .none, stepDue := false, entryBad := false, paid := 0, miss, inCall := false, late := t.late && cause == 0x0B }

/-- A thread's claim on freed entries of its core ends when it has put one in (R249). -/
def claimAfter (c : Core) (tid : Nat) : Option (Nat × Nat) := c.claim.filter fun k => k.1 != tid

/-- The hold entry of an effect of the current thread, which waits for the entries below `after` and has taken some lines from its
quad's quota (R185, R247, R287, R386). -/
def newEntry (s : State) (after : Nat) (e : HeldEffect) (tiles : List (Nat × Nat)) (took : List Nat := []) : HoldEntry :=
  { seq := s.seq, cycle := s.cycle, tid := s.tid, after, tiles, effect := e, paid := 0, acq := s.th.loadAfter, took }

/-- A user-level thread of a core whose hold buffer has room takes a fault: it writes its record and stops, and its trap
record enters the hold buffer (R222), where it is a release at section (R290): it waits for the quad's older entries
(R287). -/
def faulted (s : State) (cause : Nat) (addr info : Word) (step : Nat) (miss : Option Miss) : State :=
  { s with
    th := { faultRecord s.th cause addr info step miss with run := .trapped, stoppedAt := s.cycle, relMark := none }
    cores := s.cores.put (s.tid / 2)
      { s.core (s.tid / 2) with hold := (s.core (s.tid / 2)).hold ++ [newEntry s s.seq .trap []]
                                claim := claimAfter (s.core (s.tid / 2)) s.tid }
    seq := s.seq + 1 }

/-- A user-level thread that can put `n` effects into its hold buffer: there is room, and no instruction of the core's other
thread waits for entries (R247, R249). -/
def CanHold (s : State) (n : Nat) : Prop :=
  s.tid < 4096 ∧ (s.core (s.tid / 2)).hold.length + n ≤ Config.holdEntries
    ∧ (s.claimant (s.tid / 2) = none ∨ s.claimant (s.tid / 2) = some s.tid)

/-- An effect of a user-level thread enters at the tail of its core's hold buffer (R185, R247); after a release at section
scope or wider it waits for the quad's older entries (R287). -/
def entered (s : State) (e : HeldEffect) (tiles : List (Nat × Nat)) (took : List Nat := []) : State :=
  { s with
    th := { s.th with relMark := none }
    cores := s.cores.put (s.tid / 2)
      { s.core (s.tid / 2) with
        hold := (s.core (s.tid / 2)).hold ++ [newEntry s (s.th.relMark.getD 0) e tiles took]
        claim := claimAfter (s.core (s.tid / 2)) s.tid }
    seq := s.seq + 1 }

/-- A release of the current thread: one at section scope or wider marks the thread's next held entry, which waits for
everything its quad has held so far (R195, R287). -/
def released (s : State) (sc : Scope) : State :=
  if 3 ≤ sc.code then withThread s { s.th with relMark := some s.seq } else s

/-- The release half of a fence of the current thread: at section scope or wider its own next write to spaces 1 and 2 waits
as its next held entry does (R284 to R286). -/
def releasedFence (s : State) (sc : Scope) : State :=
  if 3 ≤ sc.code then withThread s { s.th with relMark := some s.seq, storeAfter := s.seq } else s

/-- The thread's instruction has retired at the next word. -/
def done (s : State) : State := withThread s (goNext s.th)

end Sys2Proof.Safety
end

