-- ==== Sys2Proof/Certificates/Slice0/Obligations.lean ====
section
/-! DEFINITION. The statements for the provers. The namespace Claims holds the terms they are written in, taken from the
manual's rules and not from the meanings they are about. -/

namespace Sys2Proof.Claims

open Sys2Proof Sys2Proof.Machine Sys2Proof.Safety

/-! ### Integer instructions (04 R95 to R104), with results as numbers -/

/-- A number below 2^n taken as a two's complement one. -/
def sgn (n v : Nat) : Int := if v < 2 ^ (n - 1) then (v : Int) else (v : Int) - 2 ^ n

/-- The word of a number. -/
def word (v : Nat) : Word := BitVec.ofNat 64 v

/-- A result of `n` bits (64, or 32 for a `.w` form) as `xd` takes it: a 32-bit one is sign-extended (R97). -/
def result (w : Bool) (v : Int) : Word :=
  if w then BitVec.ofInt 64 (sgn 32 (v % 2 ^ 32).toNat) else BitVec.ofInt 64 v

/-- The bits an operation takes of a source: 32 in a `.w` form (R97). -/
def width (w : Bool) : Nat := if w then 32 else 64

/-- The highest 1 is bit `size - 1`. -/
def leadingZeros (n v : Nat) : Nat := n - Nat.size v
/-- The exponent of 2 in a number, or the width for zero. -/
def trailingZeros (n v : Nat) : Nat := if v = 0 then n else padicValNat 2 v
/-- The sum of the binary digits. -/
def ones (v : Nat) : Nat := (Nat.digits 2 v).sum

/-- Rotation right of an n-bit number. -/
def rotR (n v k : Nat) : Nat := v / 2 ^ k + v * 2 ^ (n - k) % 2 ^ n

/-- The quotient and remainder of R98, on integers: the divisor 0 gives all ones and the dividend. -/
def quot (x y : Int) : Int := if y = 0 then -1 else Int.tdiv x y
def remd (x y : Int) : Int := if y = 0 then x else Int.tmod x y

/-- `len` bits of a number at `lo` replaced. -/
def replaceBits (x lo len v : Nat) : Nat := x - x / 2 ^ lo % 2 ^ len * 2 ^ lo + v % 2 ^ len * 2 ^ lo

/-- An operation on two sources of the chosen width, taken as unsigned or as signed numbers. -/
def un (t : Thread) (w : Bool) (d a b : Rx) (f : Nat → Nat → Nat) : Option (Rx × Word) :=
  some (d, result w (f (xVal t a % 2 ^ width w) (xVal t b % 2 ^ width w)))
def si (t : Thread) (w : Bool) (d a b : Rx) (f : Int → Int → Int) : Option (Rx × Word) :=
  some (d, result w (f (sgn (width w) (xVal t a % 2 ^ width w)) (sgn (width w) (xVal t b % 2 ^ width w))))

/-- What the operations of major 0x01 write (R96 to R100). -/
def integerWrites (t : Thread) : Instr → Option (Rx × Word)
  | .add d a b w => un t w d a b (· + ·)
  | .sub d a b w => si t w d a b (· - ·)
  | .and d a b => un t false d a b (· &&& ·)
  | .or d a b => un t false d a b (· ||| ·)
  | .xor d a b => un t false d a b (· ^^^ ·)
  | .andn d a b => un t false d a b fun x y => x &&& (2 ^ 64 - 1 - y)
  | .orn d a b => un t false d a b fun x y => x ||| (2 ^ 64 - 1 - y)
  | .sll d a b w => un t w d a b fun x y => x * 2 ^ (y % width w)
  | .srl d a b w => un t w d a b fun x y => x / 2 ^ (y % width w)
  | .sra d a b w => some (d, result w (sgn (width w) (xVal t a % 2 ^ width w) / 2 ^ (xVal t b % width w)))
  | .ror d a b w => un t w d a b fun x y => rotR (width w) x (y % width w)
  | .slt d a b => si t false d a b fun x y => if x < y then 1 else 0
  | .sltn d a b => un t false d a b fun x y => if x < y then 1 else 0
  | .min d a b => si t false d a b fun x y => if x ≤ y then x else y
  | .max d a b => si t false d a b fun x y => if x ≤ y then y else x
  | .minn d a b => un t false d a b fun x y => if x ≤ y then x else y
  | .maxn d a b => un t false d a b fun x y => if x ≤ y then y else x
  | .mul d a b w => un t w d a b (· * ·)
  | .mulh d a b => si t false d a b fun x y => x * y / 2 ^ 64
  | .mulhn d a b => un t false d a b fun x y => x * y / 2 ^ 64
  | .div d a b w => si t w d a b quot
  | .divn d a b w => un t w d a b fun x y => if y = 0 then 2 ^ width w - 1 else x / y
  | .rem d a b w => si t w d a b remd
  | .remn d a b w => un t w d a b fun x y => if y = 0 then x else x % y
  | .clz d a w => un t w d a 0 fun x _ => leadingZeros (width w) x
  | .ctz d a w => un t w d a 0 fun x _ => trailingZeros (width w) x
  | .popc d a w => un t w d a 0 fun x _ => ones x
  | .sext d a k => some (d, match k with
    | .b => BitVec.ofInt 64 (sgn 8 (xVal t a % 2 ^ 8))
    | .h => BitVec.ofInt 64 (sgn 16 (xVal t a % 2 ^ 16))
    | .w => BitVec.ofInt 64 (sgn 32 (xVal t a % 2 ^ 32)))
  | .zext d a k => some (d, match k with
    | .b => word (xVal t a % 2 ^ 8)
    | .h => word (xVal t a % 2 ^ 16)
    | .w => word (xVal t a % 2 ^ 32))
  | .sel d a b c => some (d, word (if xVal t c ≠ 0 then xVal t a else xVal t b))
  | _ => none

/-- What the immediate, shift-immediate, `luis` and bit-field forms write (R101 to R104). -/
def immediateWrites (t : Thread) : Instr → Option (Rx × Word)
  | .addi d a m => some (d, word (((xVal t a : Int) + sgn 16 m.toNat) % 2 ^ 64).toNat)
  | .andi d a m => some (d, word (xVal t a &&& m.toNat))
  | .ori d a m => some (d, word (xVal t a ||| m.toNat))
  | .xori d a m => some (d, word (xVal t a ^^^ m.toNat))
  | .slti d a m => some (d, word (if sgn 64 (xVal t a) < sgn 16 m.toNat then 1 else 0))
  | .sltni d a m => some (d, word (if (xVal t a : Int) < sgn 16 m.toNat % 2 ^ 64 then 1 else 0))
  | .slli d a w k => un t w d a 0 fun x _ => x * 2 ^ (k.val % width w)
  | .srli d a w k => un t w d a 0 fun x _ => x / 2 ^ (k.val % width w)
  | .srai d a w k => si t w d a 0 fun x _ => x / 2 ^ (k.val % width w)
  | .rori d a w k => un t w d a 0 fun x _ => rotR (width w) x (k.val % width w)
  | .luis d a h v => some (d, word (replaceBits (xVal t a) (12 * h.val) (min 12 (64 - 12 * h.val)) v.toNat))
  | .bext d a pos len1 => some (d, word (xVal t a / 2 ^ pos.val % 2 ^ (len1.val + 1)))
  | .bins d a pos len1 => some (d, word (replaceBits (xVal t d) pos.val (len1.val + 1) (xVal t a)))
  | _ => none

/-- The `x` registers that these instructions read (R96, R99, R101 to R104). -/
def integerSources : Instr → List Rx
  | .add _ a b _ | .sub _ a b _ | .and _ a b | .or _ a b | .xor _ a b | .andn _ a b | .orn _ a b
  | .sll _ a b _ | .srl _ a b _ | .sra _ a b _ | .ror _ a b _ | .slt _ a b | .sltn _ a b | .min _ a b | .max _ a b
  | .minn _ a b | .maxn _ a b | .mul _ a b _ | .mulh _ a b | .mulhn _ a b | .div _ a b _ | .divn _ a b _
  | .rem _ a b _ | .remn _ a b _ => [a, b]
  | .sel _ a b c => [a, b, c]
  | .bins d a _ _ => [d, a]
  | .clz _ a _ | .ctz _ a _ | .popc _ a _ | .sext _ a _ | .zext _ a _ | .addi _ a _ | .andi _ a _ | .ori _ a _
  | .xori _ a _ | .slti _ a _ | .sltni _ a _ | .slli _ a _ _ | .srli _ a _ _ | .srai _ a _ _ | .rori _ a _ _
  | .luis _ a _ _ | .bext _ a _ _ => [a]
  | _ => []

/-! ### Branches and jumps (04 R107 to R111) -/

/-- The target of a displacement in words (R79), modulo 2^64. -/
def away (t : Thread) (n d : Nat) : Word := word (((t.pc.toNat : Int) + 4 * sgn n d) % 2 ^ 64).toNat

/-- Where a branch goes on (R107, R108). -/
def branchGoes (t : Thread) : Instr → Option Word
  | .beq a b m => some (if xVal t a = xVal t b then away t 16 m.toNat else t.pc + 4)
  | .bne a b m => some (if xVal t a ≠ xVal t b then away t 16 m.toNat else t.pc + 4)
  | .blt a b m => some (if sgn 64 (xVal t a) < sgn 64 (xVal t b) then away t 16 m.toNat else t.pc + 4)
  | .bge a b m => some (if sgn 64 (xVal t b) ≤ sgn 64 (xVal t a) then away t 16 m.toNat else t.pc + 4)
  | .bltn a b m => some (if xVal t a < xVal t b then away t 16 m.toNat else t.pc + 4)
  | .bgen a b m => some (if xVal t b ≤ xVal t a then away t 16 m.toNat else t.pc + 4)
  | .pbrAny a g m => some (if ∃ i, i < 128 ∧ (pVal t a).getLsbD i = true ∧ (pVal t g).getLsbD i = true
      then away t 16 m.toNat else t.pc + 4)
  | .pbrAll a g m => some (if ∀ i, i < 128 → (pVal t g).getLsbD i = true → (pVal t a).getLsbD i = true
      then away t 16 m.toNat else t.pc + 4)
  | .pbrNone a g m => some (if ∀ i, i < 128 → (pVal t a).getLsbD i = true → (pVal t g).getLsbD i = false
      then away t 16 m.toNat else t.pc + 4)
  | _ => none

/-- The `x` registers a branch compares. -/
def branchSources : Instr → List Rx
  | .beq a b _ | .bne a b _ | .blt a b _ | .bge a b _ | .bltn a b _ | .bgen a b _ => [a, b]
  | _ => []

/-- The link a jump leaves: pc + 4, zero-extended (R109), in the 44 bits of `pc` (log entry 106). -/
def linkOf (t : Thread) : Word := word ((t.pc.toNat + 4) % 2 ^ 44)

/-- The target of `jalr` (R110). -/
def jalrTarget (t : Thread) (a : Rx) (m : BitVec 16) : Nat := (((xVal t a : Int) + sgn 16 m.toNat) % 2 ^ 64).toNat

/-! ### The constant window (03 R66 to R68; 04 R105, R106) -/

/-- The die of a thread, or of a section's service core (R16, R18). -/
def dieHere (tid : Nat) : Nat := (if 4096 ≤ tid then tid - 4096 else tid / 64) / 16

/-- Word `n` of the window as the current thread reads it: words 248 to 255 name the thread's place (R68), and the others
lie at the start of its core's local memory (R66, R67). What a service core reads there is the model's choice (log entries 105
and 129). -/
def windowAt (s : State) (n : Nat) : Word :=
  word (match n with
    | 248 => s.tid / 2
    | 249 => s.tid / 8
    | 250 => if 4096 ≤ s.tid then s.tid - 4096 else s.tid / 64
    | 251 => dieHere s.tid
    | 252 => s.pkg % 1024
    | 253 => s.th.rank % 2 ^ 32
    | 254 => s.tid % 2
    | 255 => if dieHere s.tid % 2 = 0 then 1 else 0
    | n => leNat (s.mem.readList (localBase (s.tid / 2) + 8 * n) 8))

/-- No line of some addresses carries the poison marker, lies under a forward marker, or holds a storage error (R326, R329,
R377). -/
def Clean (s : State) (k n : Nat) : Prop :=
  ∀ i, i < n → (k + i) / 256 ∉ s.poison ∧ (∀ e ∈ s.forwards, e.1 ≠ (k + i) / 256) ∧ (∀ e ∈ s.weak, e.1 ≠ (k + i) / 256)

/-- The line of an address carries the poison marker, and nothing else (R329). -/
def Marked (s : State) (k : Nat) : Prop :=
  k / 256 ∈ s.poison ∧ (∀ e ∈ s.forwards, e.1 ≠ k / 256) ∧ ∀ e ∈ s.weak, e.1 ≠ k / 256

/-- A word of the window that can be read: one of the identity words, or one whose line is good. -/
def WindowGood (s : State) (n : Nat) : Prop := 248 ≤ n ∨ Clean s (localBase (s.tid / 2) + 8 * n) 8

/-- A stored word of the window in a line that carries the poison marker, and nothing else (R329). -/
def WindowMarked (s : State) (n : Nat) : Prop :=
  n < 248 ∧ Marked s (localBase (s.tid / 2) + 8 * n)

/-! ### Object references (04 R112 to R119) -/

/-- `len` bits of a reference at `lo`, and those bits replaced. -/
def refBits (r : Ref) (lo len : Nat) : Nat := r.toNat / 2 ^ lo % 2 ^ len
def refWith (r : Ref) (lo len v : Nat) : Ref := BitVec.ofNat 128 (replaceBits r.toNat lo len v)

/-- What the operations of major 0x15 without an object record write: an `a` register or an `x` register. -/
def refWrites (t : Thread) : Instr → Option (Ra × Ref ⊕ Rx × Word)
  | .amov d a => some (.inl (d, t.a[a]))
  | .aoff d a b k => some (.inl (d, refWith t.a[a] 0 44 (refBits t.a[a] 0 44 + xVal t b * 2 ^ k.val)))
  | .asetf d a b => some (.inl (d, refWith t.a[a] 84 6 (xVal t b)))
  | .asetb d a b => some (.inl (d, refWith t.a[a] 90 4 (xVal t b)))
  | .ageto d a => some (.inr (d, word (refBits t.a[a] 0 44)))
  | .agetn d a => some (.inr (d, word (refBits t.a[a] 44 36)))
  | .aspace d a sp => some (.inl (d, BitVec.ofNat 128 (sp.val * 2 ^ 80 + xVal t a % 2 ^ 44)))
  | _ => none

/-- Their sources. -/
def refSources : Instr → List Ra × List Rx
  | .amov _ a | .ageto _ a | .agetn _ a => ([a], [])
  | .aoff _ a b _ | .asetf _ a b | .asetb _ a b => ([a], [b])
  | .aspace _ a _ => ([], [a])
  | _ => ([], [])

/-- The thread with one of them written. -/
def putEither (t : Thread) : Ra × Ref ⊕ Rx × Word → Thread
  | .inl e => putA t e.1 e.2
  | .inr e => putX t e.1 e.2

end Sys2Proof.Claims

open Sys2Proof Sys2Proof.Machine Sys2Proof.Safety Sys2Proof.Claims

/-- R96 to R104: each operation of major 0x01, in every form, each immediate form, shift immediate, `luis` and bit-field form
writes the value of its row to `xd`, computed here on numbers, and changes nothing else; with `x0` as destination it
writes nothing. -/
def Obligations.IntegerResult : Prop :=
  (∀ (i : Instr) (s : State) (d : Rx) (v : Word), integerWrites s.th i = some (d, v) →
    (∀ r ∈ integerSources i, ReadableX s.th r) → exec i s = .next (withThread s (goNext (putX s.th d v))))
  ∧ (∀ (i : Instr) (s : State) (d : Rx) (v : Word), i.wf = true → immediateWrites s.th i = some (d, v) →
    (∀ r ∈ integerSources i, ReadableX s.th r) → exec i s = .next (withThread s (goNext (putX s.th d v))))

/-- R98: the identity of division, in both widths, on the results that two instructions leave in two registers: quotient times
divisor plus remainder is the dividend, modulo 2^64 or 2^32, also for a divisor of 0; and for another divisor the remainder is
the smaller in magnitude and has the dividend's sign. -/
def Obligations.DivisionIdentity : Prop :=
  ∀ (s : State) (a b d e : Rx) (w : Bool) (x y : Nat), d ≠ 0 → e ≠ 0 → ReadableX s.th a → ReadableX s.th b →
    x = xVal s.th a % 2 ^ width w → y = xVal s.th b % 2 ^ width w →
    (∃ t u r, exec (.div d a b w) s = .next t ∧ exec (.rem e a b w) s = .next u ∧ r = (u.th.x[e]).toNat % 2 ^ width w
      ∧ ((t.th.x[d]).toNat * y + r) % 2 ^ width w = x
      ∧ (y ≠ 0 → |sgn (width w) r| < |sgn (width w) y| ∧ 0 ≤ sgn (width w) r * sgn (width w) x))
    ∧ (∃ t u r, exec (.divn d a b w) s = .next t ∧ exec (.remn e a b w) s = .next u ∧ r = (u.th.x[e]).toNat % 2 ^ width w
      ∧ ((t.th.x[d]).toNat * y + r) % 2 ^ width w = x ∧ (y ≠ 0 → r < y))

/-- R107, R108, R111: a branch goes to its target when its condition holds and to the next word when not, whatever the
target holds, and changes nothing else. -/
def Obligations.BranchResult : Prop :=
  ∀ (i : Instr) (s : State) (p : Word), branchGoes s.th i = some p → (∀ r ∈ branchSources i, ReadableX s.th r) →
    exec i s = .next (withThread s (goOn s.th p))

/-- R109 to R111: `jal`, and `jalr` to an aligned target, leave pc + 4 in `xd` and go to the target; the target of `jalr`
is formed before `xd` is written. `jalr` to a target that is no multiple of 4 takes an alignment fault with the target in
`faddr`, and `xd` is unchanged. The model's readings, not the rule's words: the link is taken modulo 2^44, the width of `pc` (log
entry 106), and `pc` itself keeps the 64 bits of a target (log entry 13). -/
def Obligations.JumpResult : Prop :=
  (∀ (s : State) (d : Rx) (m : BitVec 21),
    exec (.jal d m) s = .next (withThread s (goOn (putX s.th d (linkOf s.th)) (away s.th 21 m.toNat))))
  ∧ (∀ (s : State) (d a : Rx) (m : BitVec 16), ReadableX s.th a → jalrTarget s.th a m % 4 = 0 →
    exec (.jalr d a m) s = .next (withThread s (goOn (putX s.th d (linkOf s.th)) (word (jalrTarget s.th a m)))))
  ∧ (∀ (s : State) (d a : Rx) (m : BitVec 16), CanHold s 1 → ReadableX s.th a → jalrTarget s.th a m % 4 ≠ 0 →
    exec (.jalr d a m) s = .next (faulted s 0x05 (word (jalrTarget s.th a m)) 0 0 none))

/-- R105, R106: the four forms of `kld` write the words they name, in `x` or in `a` registers, and change nothing else;
an indexed form outside the window, or at an odd word for a reference, faults with 8 times the index in `faddr`. A stored word in a
marked line takes a poison fault, as any read of local memory does (R330; `faddr` by log entry 107); the words of a service core
are the model's choice (log entries 105 and 129). -/
def Obligations.ConstantWindow : Prop :=
  (∀ (s : State) (d : Rx) (k : Fin 256),
    (WindowGood s k.val → exec (.kld d k) s = .next (withThread s (goNext (putX s.th d (windowAt s k.val)))))
    ∧ (WindowMarked s k.val → CanHold s 1 → exec (.kld d k) s = .next (faulted s 0x0B (word (8 * k.val)) 0 0 none)))
  ∧ (∀ (s : State) (d : Ra) (k : Fin 128),
    (WindowGood s (2 * k.val) → exec (.kldRef d k) s
      = .next (withThread s (goNext (putA s.th d (windowAt s (2 * k.val + 1) ++ windowAt s (2 * k.val))))))
    ∧ (WindowMarked s (2 * k.val) → CanHold s 1 →
      exec (.kldRef d k) s = .next (faulted s 0x0B (word (16 * k.val)) 0 0 none)))
  ∧ (∀ (s : State) (d a : Rx) (k : Fin 256), ReadableX s.th a →
    (k.val + xVal s.th a ≤ 255 → WindowGood s (k.val + xVal s.th a) →
      exec (.kldIndexed d a k) s = .next (withThread s (goNext (putX s.th d (windowAt s (k.val + xVal s.th a))))))
    ∧ (WindowMarked s (k.val + xVal s.th a) → CanHold s 1 →
      exec (.kldIndexed d a k) s = .next (faulted s 0x0B (word (8 * (k.val + xVal s.th a))) 0 0 none))
    ∧ (255 < k.val + xVal s.th a → CanHold s 1 →
      exec (.kldIndexed d a k) s = .next (faulted s 0x06 (word (8 * (k.val + xVal s.th a))) 0 0 none)))
  ∧ (∀ (s : State) (d : Ra) (a : Rx) (k : Fin 128) (n : Nat), n = 2 * k.val + xVal s.th a → ReadableX s.th a →
    (WindowMarked s n → n % 2 = 0 → CanHold s 1 →
      exec (.kldRefIndexed d a k) s = .next (faulted s 0x0B (word (8 * n)) 0 0 none))
    ∧ (n + 1 ≤ 255 → n % 2 = 0 → WindowGood s n →
      exec (.kldRefIndexed d a k) s = .next (withThread s (goNext (putA s.th d (windowAt s (n + 1) ++ windowAt s n)))))
    ∧ (255 < n + 1 → CanHold s 1 → exec (.kldRefIndexed d a k) s = .next (faulted s 0x06 (word (8 * n)) 0 0 none))
    ∧ (n + 1 ≤ 255 → n % 2 = 1 → CanHold s 1 →
      exec (.kldRefIndexed d a k) s = .next (faulted s 0x05 (word (8 * n)) 0 0 none)))

/-- R113 to R115: `amov`, `aoff`, `asetf`, `asetb`, `ageto`, `agetn` and `aspace` write exactly the named bits, never
fault whatever a reference holds, and change nothing else. -/
def Obligations.ReferenceFields : Prop :=
  ∀ (i : Instr) (s : State) (e : Ra × Ref ⊕ Rx × Word), refWrites s.th i = some e →
    (∀ r ∈ (refSources i).1, Readable s.th (.a r)) → (∀ r ∈ (refSources i).2, ReadableX s.th r) →
    exec i s = .next (withThread s (goNext (putEither s.th e)))

namespace Sys2Proof.Claims

/-! ### Vector elements (05 R120 to R123) -/

/-- Element `e` of width `w` bits (R60). -/
def lane (w : Nat) (v : VReg) (e : Nat) : Nat := v.toNat / 2 ^ (w * e) % 2 ^ w

/-- Elements of a register (R120). -/
def laneCount (t : Ty) : Nat := 1024 / t.width

/-- Element `e` is active: bit s·e of the predicate, for elements of s bytes (R121). -/
def isActive (t : Ty) (g : PReg) (e : Nat) : Bool := g.getLsbD (t.width / 8 * e)

/-- The predicate of an F-V word (R80). -/
def govern (t : Thread) (g : Rg) : PReg := pVal t ⟨g.val, by omega⟩

/-- An element as a signed or an unsigned number, by its type (R29). -/
def num (t : Ty) (x : Nat) : Int := if t.signed then sgn t.width x else x

/-- The bits that an element keeps of a number (R9). -/
def low (t : Ty) (x : Int) : Nat × Flags := ((x % 2 ^ t.width).toNat, 0)

/-- A lane operation: registers, predicate, type, whether `vd` is a source, whether every element is written, and the
value and flags of element `e` from the rounding mode, the predicate, and the elements of `vd`, `va` and `vb`. -/
structure LaneOp where
  d : Rv
  a : Rv
  b : Option Rv
  g : Rg
  t : Ty
  reads : Bool
  all : Bool
  f : Mode → (Nat → Bool) → (Nat → Nat) → (Nat → Nat) → (Nat → Nat) → Nat → Nat × Flags

/-- A floating operation on three values, with `fzi` applied (R122, R125). -/
def floats (d a : Rv) (b : Option Rv) (g : Rg) (t : Ty) (fzi reads : Bool) (f : Mode → FVal → FVal → FVal → Nat × Flags) :
    LaneOp :=
  { d, a, b, g, t, reads, all := false
    f := fun m _ vd va vb e => f m (fval t fzi (vd e)) (fval t fzi (va e)) (fval t fzi (vb e)) }

/-- An integer operation on three numbers (R130). -/
def ints (d a : Rv) (b : Option Rv) (g : Rg) (t : Ty) (reads : Bool) (f : Int → Int → Int → Int) : LaneOp :=
  { d, a, b, g, t, reads, all := false, f := fun _ _ vd va vb e => low t (f (num t (vd e)) (num t (va e)) (num t (vb e))) }

/-- The bits of a number that an element keeps when it moves: of an l6 element, six (R36). -/
def moved (t : Ty) (x : Nat) : Nat := x % 2 ^ (if t = .l6 then 6 else t.width)

/-- An operation on the bits of an element (R131). -/
def rawLanes (d a : Rv) (b : Option Rv) (g : Rg) (t : Ty) (f : (Nat → Nat) → (Nat → Nat) → Nat → Nat) : LaneOp :=
  { d, a, b, g, t, reads := false, all := false, f := fun _ _ _ va vb e => (f va vb e, 0) }

/-- A result list of moved elements (R132). -/
def moves (d a : Rv) (b : Option Rv) (g : Rg) (t : Ty) (f : (Nat → Nat) → (Nat → Nat) → Nat → Nat) : LaneOp :=
  rawLanes d a b g t fun va vb e => moved t (f va vb e)

/-- The element-wise instructions of majors 0x20, 0x21 and 0x23 to 0x25, and `vrnd` (R125 to R127, R130 to R132, R136). -/
def laneOp : Instr → Option LaneOp
  | .vadd d a b g t i o => some (floats d a (some b) g t i false fun m _ x y => roundSum t m o [x.term, y.term])
  | .vsub d a b g t i o => some (floats d a (some b) g t i false fun m _ x y => roundSum t m o [x.term, y.neg.term])
  | .vmul d a b g t i o => some (floats d a (some b) g t i false fun m _ x y => roundSum t m o [mulTerm x y])
  | .vmin d a b g t i o => some (floats d a (some b) g t i false fun _ _ x y => fminmax t false o x y)
  | .vmax d a b g t i o => some (floats d a (some b) g t i false fun _ _ x y => fminmax t true o x y)
  | .vabd d a b g t i o => some (floats d a (some b) g t i false fun m _ x y => absDiff t m o x y)
  | .vaddmin d a b g t i o => some (floats d a (some b) g t i true fun m z x y =>
      let r := roundSum t m o [x.term, y.term]
      let q := fminmax t false o z (fval t false r.1)
      (q.1, r.2 ||| q.2))
  | .vcopysign d a b g t _ _ => some (rawLanes d a (some b) g t fun va vb e =>
      va e % t.signBit + vb e / t.signBit * t.signBit)
  | .vfma d a b g t i o => some (floats d a (some b) g t i true fun m z x y => roundSum t m o [mulTerm x y, z.term])
  | .vfms d a b g t i o => some (floats d a (some b) g t i true fun m z x y => roundSum t m o [mulTerm x y, z.neg.term])
  | .vfnma d a b g t i o =>
    some (floats d a (some b) g t i true fun m z x y => roundSum t m o [(mulTerm x y).neg, z.neg.term])
  | .vfnms d a b g t i o => some (floats d a (some b) g t i true fun m z x y => roundSum t m o [(mulTerm x y).neg, z.term])
  | .vdiv d a b g t i o => some (floats d a (some b) g t i false fun m _ x y => fdiv t m o x y)
  | .vsqrt d a g t i o => some (floats d a none g t i false fun m _ x _ => fsqrt t m o x)
  | .vrcpe d a g t i o => some (floats d a none g t i false fun _ _ x _ => frcpe t o x)
  | .vrsqe d a g t i o => some (floats d a none g t i false fun _ _ x _ => frsqe t o x)
  | .vrnd d a t g i rm _ => some (floats d a none g t i false fun m _ x _ => roundIntegral t (match rm with
      | .rne => .rne
      | .rtz => .rtz
      | .rup => .rup
      | .rdn => .rdn
      | .dyn => m) x)
  | .viadd d a b g t => some (ints d a (some b) g t false fun _ x y => x + y)
  | .visub d a b g t => some (ints d a (some b) g t false fun _ x y => x - y)
  | .vimul d a b g t => some (ints d a (some b) g t false fun _ x y => x * y)
  | .vimulh d a b g t => some (ints d a (some b) g t false fun _ x y => x * y / 2 ^ t.width)
  | .vimin d a b g t => some (ints d a (some b) g t false fun _ x y => if x ≤ y then x else y)
  | .vimax d a b g t => some (ints d a (some b) g t false fun _ x y => if x ≤ y then y else x)
  | .viaddmin d a b g t => some (ints d a (some b) g t true fun z x y =>
      let n := num t (low t (x + y)).1
      if z ≤ n then z else n)
  | .viabs d a g t => some (ints d a none g t false fun _ x _ => |x|)
  | .vand d a b g t => some (rawLanes d a (some b) g t fun va vb e => va e &&& vb e)
  | .vor d a b g t => some (rawLanes d a (some b) g t fun va vb e => va e ||| vb e)
  | .vxor d a b g t => some (rawLanes d a (some b) g t fun va vb e => va e ^^^ vb e)
  | .vandn d a b g t => some (rawLanes d a (some b) g t fun va vb e => va e &&& (2 ^ t.width - 1 - vb e))
  | .vsll d a b g t => some (rawLanes d a (some b) g t fun va vb e => va e * 2 ^ (vb e % t.width) % 2 ^ t.width)
  | .vsrl d a b g t => some (rawLanes d a (some b) g t fun va vb e => va e / 2 ^ (vb e % t.width))
  | .vsra d a b g t => some (rawLanes d a (some b) g t fun va vb e =>
      (sgn t.width (va e) / 2 ^ (vb e % t.width) % 2 ^ t.width).toNat)
  | .vsel d a b g t => some { rawLanes d a (some b) g t (fun _ _ _ => 0) with
      all := true, f := fun _ on _ va vb e => (if on e then va e else vb e, 0) }
  | .vshup d a b g t => some (moves d a (some b) g t fun va vb e => if e = 0 then vb (laneCount t - 1) else va (e - 1))
  | .vshdn d a b g t => some (moves d a (some b) g t fun va vb e => if e + 1 = laneCount t then vb 0 else va (e + 1))
  | .vperm d a b g t => some (moves d a (some b) g t fun va vb e => if vb e < laneCount t then va (vb e) else 0)
  | .vzip d a b g t h => some (moves d a (some b) g t fun va vb e =>
      let q := if h then laneCount t / 2 else 0
      if e % 2 = 0 then va (q + e / 2) else vb (q + e / 2))
  | .vuzp d a b g t h => some (moves d a (some b) g t fun va vb e =>
      let k := if h then 1 else 0
      if e < laneCount t / 2 then va (2 * e + k) else vb (2 * (e - laneCount t / 2) + k))
  | .vrev d a g t => some (moves d a none g t fun va _ e => va (laneCount t - 1 - e))
  | .vcompr d a g t => some { rawLanes d a none g t (fun _ _ _ => 0) with
      all := true
      f := fun _ on _ va _ e => (moved t ((((List.range (laneCount t)).filter on).map va)[e]?.getD 0), 0) }
  | _ => none

/-- The flags that the active ones of `n` elements raise together (R55). -/
def allFlags (n : Nat) (on : Nat → Bool) (f : Nat → Flags) : Flags :=
  (List.range n).foldl (fun acc e => if on e then acc ||| f e else acc) 0

/-- The enable bits of `fcsr`, in the order of the flags (R52). -/
def enabled (t : Thread) : Flags := t.fcsr.extractLsb' 8 6

/-- The flags of `fcsr` with more raised (R52, R54). -/
def flagged (t : Thread) (f : Flags) : Thread := { t with fcsr := t.fcsr ||| f.setWidth 64 }

/-- The type needs the F-die feature, and the thread has it (R82 step 5). -/
def TypeHere (s : State) (t : Ty) : Prop := t = .f64 → dieHere s.tid % 2 = 0

/-- The vector registers of a lane operation can be read: `vd` only if it is a source or keeps an element. -/
def LaneReadable (s : State) (o : LaneOp) : Prop :=
  Readable s.th (.v o.a) ∧ (∀ b ∈ o.b, Readable s.th (.v b))
    ∧ ((o.reads = true ∨ (o.all = false ∧ ∃ e, e < laneCount o.t ∧ isActive o.t (govern s.th o.g) e = false))
        → Readable s.th (.v o.d))

/-- A register that keeps an element under a predicate can be read. -/
def KeptReadable (s : State) (n : Nat) (on : Nat → Bool) (d : Rv) : Prop :=
  (∃ e, e < n ∧ on e = false) → Readable s.th (.v d)

/-- Element `e` of the result of a lane operation. -/
def LaneOp.value (o : LaneOp) (s : State) (e : Nat) : Nat × Flags :=
  o.f (modeOf s.th.fcsr) (isActive o.t (govern s.th o.g)) (lane o.t.width s.th.v[o.d]) (lane o.t.width s.th.v[o.a])
    (lane o.t.width (match o.b with
      | some b => s.th.v[b]
      | none => 0)) e

/-- What a lane operation raises. -/
def LaneOp.flags (o : LaneOp) (s : State) : Flags :=
  allFlags (laneCount o.t) (isActive o.t (govern s.th o.g)) fun e => (o.value s e).2

/-! ### Compares (R128, R129) -/

/-- A compare or classification: registers, predicate, type, and the condition and flags of two elements. -/
structure CompareOp where
  d : Rp
  a : Rv
  b : Option Rv
  g : Rg
  t : Ty
  f : Nat → Nat → Bool × Flags

/-- A compare of two elements: integers by their type; of floating values an ordered one is false on a NaN and raises NV,
an unordered one raises it for a signalling NaN only (R128). -/
def compares (t : Ty) (fzi nan quiet : Bool) (onInt : Int → Int → Bool) (onVal : FVal → FVal → Bool) (x y : Nat) : Bool × Flags :=
  if t.isInt then (onInt (num t x) (num t y), 0)
  else
    let u := fval t fzi x
    let v := fval t fzi y
    if u.isNan || v.isNan then (nan, if !quiet || u.isSnan || v.isSnan then Flag.nv else 0) else (onVal u v, 0)

def compareOp : Instr → Option CompareOp
  | .vceq d a b g t i => some { d, a, b := some b, g, t, f := compares t i false true (· == ·) fun x y => !x.lt y && !y.lt x }
  | .vcne d a b g t i => some { d, a, b := some b, g, t, f := compares t i true true (· != ·) fun x y => x.lt y || y.lt x }
  | .vclt d a b g t i => some { d, a, b := some b, g, t, f := compares t i false false (· < ·) fun x y => x.lt y }
  | .vcle d a b g t i => some { d, a, b := some b, g, t, f := compares t i false false (· ≤ ·) fun x y => x.lt y || !y.lt x }
  | .vcgt d a b g t i => some { d, a, b := some b, g, t, f := compares t i false false (· > ·) fun x y => !x.lt y && y.lt x }
  | .vcge d a b g t i => some { d, a, b := some b, g, t, f := compares t i false false (· ≥ ·) fun x y => !x.lt y }
  | .vcun d a b g t i => some { d, a, b := some b, g, t, f := compares t i true true (fun _ _ => false) fun _ _ => false }
  | .vclass d a m g t i => some { d, a, b := none, g, t, f := fun x _ => (m.getLsbD (classOf t (fval t i x)), 0) }
  | _ => none

def CompareOp.holds (o : CompareOp) (s : State) (e : Nat) : Bool × Flags :=
  o.f (lane o.t.width s.th.v[o.a] e) (lane o.t.width (match o.b with
    | some b => s.th.v[b]
    | none => 0) e)

def CompareOp.flags (o : CompareOp) (s : State) : Flags :=
  allFlags (laneCount o.t) (isActive o.t (govern s.th o.g)) fun e => (o.holds s e).2

/-! ### Reductions (R133, R134) -/

/-- A reduction of the active elements, ascending: registers, predicate, type, the result from the rounding mode and the
value of xb, and whether it is a count. -/
structure ReduceOp where
  d : Rx
  a : Rv
  b : Rx
  g : Rg
  t : Ty
  count : Bool
  f : Mode → Nat → List Nat → Nat × Flags

def reduceOp : Instr → Option ReduceOp
  | .vrsum d a g t i => some (.mk d a 0 g t false (
      fun m _ l => if t.isInt then low t (l.map (num t)).sum else treeSum t m 7 (l.map (fval t i))))
  | .vrsumo d a b g t i => some (.mk d a b g t false (
      fun m x l =>
        if t.isInt then low t ((x : Int) + (l.map (num t)).sum)
        else if l = [] then (x % 2 ^ t.width, 0)
        else
          let r := (l.map (fval t i)).foldl (fun (acc : FVal × Flags) v =>
            let r := roundSum t m false [acc.1.term, v.term]
            (fval t false r.1, acc.2 ||| r.2)) (fval t i (x % 2 ^ t.width), 0)
          (bitsOf t r.1, r.2)))
  | .vrmax d a g t i => some (.mk d a 0 g t false (
      fun _ _ l => if t.isInt then low t ((l.map (num t)).foldl max t.intMin) else extreme true t i l))
  | .vrmin d a g t i => some (.mk d a 0 g t false (
      fun _ _ l => if t.isInt then low t ((l.map (num t)).foldl min t.intMax) else extreme false t i l))
  | .vrand d a g t => some (.mk d a 0 g t false (
      fun _ _ l => (l.foldl (· &&& ·) (2 ^ t.width - 1), 0)))
  | .vror d a g t => some (.mk d a 0 g t false (
      fun _ _ l => (l.foldl (· ||| ·) 0, 0)))
  | .vrcnt d a g t i => some (.mk d a 0 g t true (
      fun _ _ l => (l.countP fun x => if t.isInt then x != 0 else !(fval t i x).isZero, 0)))
  | _ => none

/-- The active elements of a register, ascending. -/
def activeLanes (t : Ty) (g : PReg) (v : VReg) : List Nat :=
  ((List.range (laneCount t)).filter (isActive t g)).map (lane t.width v)

def ReduceOp.value (o : ReduceOp) (s : State) : Nat × Flags :=
  o.f (modeOf s.th.fcsr) (xVal s.th o.b) (activeLanes o.t (govern s.th o.g) s.th.v[o.a])

/-- A result of 8s bits in an `x` register, or a count (R133). -/
def ReduceOp.ext (o : ReduceOp) (v : Nat) : Word :=
  if o.count then word v else if o.t.signed then BitVec.ofInt 64 (sgn o.t.width (v % 2 ^ o.t.width)) else word (v % 2 ^ o.t.width)

/-! ### Predicates and moves (R140, R141) -/

/-- All s bits of each element below n at a condition's value (R60). -/
def IsLanePred (t : Ty) (c : Nat → Bool) (p : PReg) : Prop :=
  ∀ j, j < 128 → p.getLsbD j = c (j / (t.width / 8))

/-- The type field of a vector instruction that decode checks for the F-die feature. -/
def vecType : Instr → Ty
  | .vmovx _ _ _ t | .vxmov _ _ _ t | .vsplat _ _ _ t | .vsplatk _ _ _ t | .vidx _ _ _ _ t | .vwhile _ _ _ t | .vgetl _ _ t
  | .pcnt _ _ _ t | .pfirst _ _ _ t | .pset _ _ t | .vbcl _ _ _ _ t | .vscale _ _ _ _ t _ _ => t
  | _ => .i8

/-- Instructions that fill elements without another vector register: `vsplat`, `vsplatk`, `vidx`, and `vbcl` from `va`:
registers, predicate, and the value of element `e`. -/
def fillOp (s : State) : Instr → Option (Rv × Rg × (Nat → Nat))
  | .vsplat d a g t => some (d, g, fun _ => moved t (xVal s.th a))
  | .vsplatk d k g t => some (d, g, fun _ => moved t (windowAt s k.val).toNat)
  | .vidx d a b g t => some (d, g, fun e => (xVal s.th a + e * xVal s.th b) % 2 ^ t.width)
  | .vbcl d a b g t => some (d, g, fun _ => if xVal s.th b < laneCount t then moved t (lane t.width s.th.v[a] (xVal s.th b)) else 0)
  | _ => none

def fillSources : Instr → List DestReg
  | .vsplat _ a _ _ => [.x a]
  | .vidx _ a b _ _ => [.x a, .x b]
  | .vbcl _ a b _ _ => [.v a, .x b]
  | _ => []

/-- A source of any kind that can be read; `x0` always can. -/
def Source (t : Thread) (r : DestReg) : Prop := r = .x 0 ∨ Readable t r

/-- The predicate that an instruction of R141 or `vwhile` writes: the register, and the condition of bit `j`. -/
def predOp (s : State) : Instr → Option (Rp × (Nat → Bool))
  | .pand d a b => some (d, fun j => (pVal s.th a).getLsbD j && (pVal s.th b).getLsbD j)
  | .por d a b => some (d, fun j => (pVal s.th a).getLsbD j || (pVal s.th b).getLsbD j)
  | .pxor d a b => some (d, fun j => (pVal s.th a).getLsbD j != (pVal s.th b).getLsbD j)
  | .pnot d a => some (d, fun j => !(pVal s.th a).getLsbD j)
  | .pmov d a => some (d, fun j => (pVal s.th a).getLsbD j)
  | .pfirst d a g t => some (d, fun j =>
      let both := fun e => isActive t (pVal s.th a) e && isActive t (govern s.th g) e
      both (j / (t.width / 8)) && (List.range (j / (t.width / 8))).all fun e => !both e)
  | .pset d a t => some (d, fun j => (xVal s.th a).testBit (j / (t.width / 8) % 64))
  | .vwhile d a b t => some (d, fun j => decide (xVal s.th a + j / (t.width / 8) < xVal s.th b))
  | _ => none

def predSources : Instr → List Rx
  | .pset _ a _ => [a]
  | .vwhile _ a b _ => [a, b]
  | _ => []

/-- What `vmovx`, `vgetl` and `pcnt` write to `xd`. -/
def laneScalar (s : State) : Instr → Option (Rx × Word)
  | .vmovx d a b t => some (d, if xVal s.th b < laneCount t then
      (if t.signed then BitVec.ofInt 64 (sgn t.width (lane t.width s.th.v[a] (xVal s.th b)))
       else word (moved t (lane t.width s.th.v[a] (xVal s.th b)))) else 0)
  | .vgetl d a t => some (d, word (if a = 0 then laneCount t else min (xVal s.th a) (laneCount t)))
  | .pcnt d a g t => some (d, word ((List.range (laneCount t)).countP fun e =>
      isActive t (pVal s.th a) e && isActive t (govern s.th g) e))
  | _ => none

def laneScalarSources : Instr → List DestReg
  | .vmovx _ a b _ => [.v a, .x b]
  | .vgetl _ a _ => [.x a]
  | _ => []

end Sys2Proof.Claims

/-- R120 to R123, R125 to R127, R130 to R132, R136: an element-wise instruction writes each active element of `vd` with
its row's value, keeps the bits of each inactive one (`vsel` and `vcompr` write every element), raises the flags of the
active elements, and changes nothing else. The model's readings, not the rules' words: `fzi` does not act on the sum inside `vaddmin`
(log entry 14), `vabd` of equal values is +0 (15), `vd` is not read where every element is active (18), and an l6 element moves as
six bits (21). -/
def Obligations.VectorElements : Prop :=
  ∀ (i : Instr) (s : State) (o : LaneOp), i.wf = true → laneOp i = some o → TypeHere s o.t → LaneReadable s o →
    o.flags s &&& enabled s.th = 0 →
    ∃ v : VReg, exec i s = .next (withThread s (goNext (putV (flagged s.th (o.flags s)) o.d v)))
      ∧ ∀ e, e < laneCount o.t → lane o.t.width v e =
          if o.all = true ∨ isActive o.t (govern s.th o.g) e = true then (o.value s e).1 % 2 ^ o.t.width else lane o.t.width s.th.v[o.d] e

/-- R54, R56, R82 step 5, R124: when an element-wise instruction, a compare, a reduction, a conversion or a block-scale
instruction raises a flag whose enable bit is set, it takes a numeric fault with the raised flags in `finfo`, and no
register, no flag and nothing else but the fault record and the hold buffer changes; on f64 each of them takes a feature
fault on a core without the feature, before it reads a register. The model's readings: the flags of `vaddmin` with `fzi` (log entry
14), the power of `vscale` taken as at most 8192 in magnitude (16), and `vd` not read where every element is active (18). -/
def Obligations.VectorFaults : Prop :=
  (∀ (i : Instr) (s : State) (o : LaneOp), i.wf = true → laneOp i = some o → TypeHere s o.t → LaneReadable s o →
    o.flags s &&& enabled s.th ≠ 0 → CanHold s 1 →
    exec i s = .next (faulted s 0x0E 0 ((o.flags s).setWidth 64) 0 none))
  ∧ (∀ (i : Instr) (s : State) (o : LaneOp), laneOp i = some o → ¬TypeHere s o.t → CanHold s 1 →
    exec i s = .next (faulted s 0x03 0 0 0 none))
  ∧ (∀ (i : Instr) (s : State) (o : CompareOp), i.wf = true → compareOp i = some o → CanHold s 1 →
    (TypeHere s o.t → Readable s.th (.v o.a) → (∀ b ∈ o.b, Readable s.th (.v b)) → o.flags s &&& enabled s.th ≠ 0 →
      exec i s = .next (faulted s 0x0E 0 ((o.flags s).setWidth 64) 0 none))
    ∧ (¬TypeHere s o.t → exec i s = .next (faulted s 0x03 0 0 0 none)))
  ∧ (∀ (i : Instr) (s : State) (o : ReduceOp), i.wf = true → reduceOp i = some o → CanHold s 1 →
    (TypeHere s o.t → Readable s.th (.v o.a) → ReadableX s.th o.b → (o.value s).2 &&& enabled s.th ≠ 0 →
      exec i s = .next (faulted s 0x0E 0 ((o.value s).2.setWidth 64) 0 none))
    ∧ (¬TypeHere s o.t → exec i s = .next (faulted s 0x03 0 0 0 none)))
  ∧ (∀ (s : State) (d a : Rv) (tin tout : Ty) (g : Rg) (fzi sat fzo : Bool) (rm : Rm) (n : Nat) (f : Flags), CanHold s 1 →
    n = 128 / max (tin.width / 8) (tout.width / 8) →
    f = allFlags n (isActive tin (govern s.th g)) (fun e => (convert tin tout (match rm with
      | .rne => .rne
      | .rtz => .rtz
      | .rup => .rup
      | .rdn => .rdn
      | .dyn => modeOf s.th.fcsr) sat fzi fzo (lane tin.width s.th.v[a] e)).2) →
    (TypeHere s tin → TypeHere s tout → Readable s.th (.v a) → KeptReadable s n (isActive tin (govern s.th g)) d →
      f &&& enabled s.th ≠ 0 →
      exec (.vcvt d a tin tout g fzi sat rm fzo) s = .next (faulted s 0x0E 0 (f.setWidth 64) 0 none))
    ∧ (¬(TypeHere s tin ∧ TypeHere s tout) →
      exec (.vcvt d a tin tout g fzi sat rm fzo) s = .next (faulted s 0x03 0 0 0 none)))
  ∧ (∀ (s : State) (d a : Rv) (b : Rx) (g : Rg) (t : Ty) (fzi fzo : Bool) (k : Nat) (f : Flags), CanHold s 1 →
    Readable s.th (.v a) → KeptReadable s 32 (isActive .f32 (govern s.th g)) d →
    k = blockScale t ((activeLanes .f32 (govern s.th g) s.th.v[a]).map (fval .f32 fzi)) →
    f = allFlags 32 (isActive .f32 (govern s.th g)) (fun e =>
      (scaleRound .f32 .rne fzo (127 - (k : Int)) (fval .f32 fzi (lane 32 s.th.v[a] e))).2) →
    f &&& enabled s.th ≠ 0 → exec (.vqnt d a b g t fzi fzo) s = .next (faulted s 0x0E 0 (f.setWidth 64) 0 none))
  ∧ (∀ (s : State) (d a : Rv) (b : Rx) (g : Rg) (t : Ty) (fzi fzo : Bool) (f : Flags), CanHold s 1 →
    Readable s.th (.v a) → KeptReadable s 32 (fun e => (govern s.th g).getLsbD e) d → ReadableX s.th b →
    f = allFlags 32 (fun e => (govern s.th g).getLsbD e) (fun e =>
      let x := fval t fzi (lane 8 s.th.v[a] e)
      if xVal s.th b % 256 = 255 ∨ x.isNan = true then 0
      else (scaleRound .f32 .rne fzo ((xVal s.th b % 256 : Nat) - 127) x).2) →
    f &&& enabled s.th ≠ 0 → exec (.vdqnt d a b g t fzi fzo) s = .next (faulted s 0x0E 0 (f.setWidth 64) 0 none))
  ∧ (∀ (s : State) (d a : Rv) (b : Rx) (g : Rg) (t : Ty) (fzi fzo : Bool) (f : Flags), CanHold s 1 → t.isBin = true →
    f = allFlags (laneCount t) (isActive t (govern s.th g)) (fun e => (scaleRound t (modeOf s.th.fcsr) fzo
      (max (-8192) (min 8192 (sgn 64 (xVal s.th b)))) (fval t fzi (lane t.width s.th.v[a] e))).2) →
    (TypeHere s t → Readable s.th (.v a) → KeptReadable s (laneCount t) (isActive t (govern s.th g)) d → ReadableX s.th b →
      f &&& enabled s.th ≠ 0 → exec (.vscale d a b g t fzi fzo) s = .next (faulted s 0x0E 0 (f.setWidth 64) 0 none))
    ∧ (¬TypeHere s t → exec (.vscale d a b g t fzi fzo) s = .next (faulted s 0x03 0 0 0 none)))

/-- R135: `vcvt` converts the elements that both formats have, each at its own position of `va` and `vd`; it reads the
predicate at input positions, keeps inactive elements, clears the elements beyond in a narrowing, and raises the flags of
the active ones. That `vd` need not be readable where every element is active is the model's reading (log entry 18). -/
def Obligations.VectorConvert : Prop :=
  ∀ (s : State) (d a : Rv) (tin tout : Ty) (g : Rg) (fzi sat fzo : Bool) (rm : Rm) (n : Nat) (one : Nat → Nat × Flags),
    n = 128 / max (tin.width / 8) (tout.width / 8) → TypeHere s tin → TypeHere s tout → Readable s.th (.v a) →
    KeptReadable s n (isActive tin (govern s.th g)) d →
    (one = fun e => convert tin tout (match rm with
      | .rne => .rne
      | .rtz => .rtz
      | .rup => .rup
      | .rdn => .rdn
      | .dyn => modeOf s.th.fcsr) sat fzi fzo (lane tin.width s.th.v[a] e)) →
    allFlags n (isActive tin (govern s.th g)) (fun e => (one e).2) &&& enabled s.th = 0 →
    ∃ v : VReg, exec (.vcvt d a tin tout g fzi sat rm fzo) s = .next (withThread s (goNext
        (putV (flagged s.th (allFlags n (isActive tin (govern s.th g)) fun e => (one e).2)) d v)))
      ∧ ∀ e, e < laneCount tout → lane tout.width v e =
          if n ≤ e then 0 else if isActive tin (govern s.th g) e then (one e).1 % 2 ^ tout.width else lane tout.width s.th.v[d] e

/-- R128, R129: a compare or `vclass` gives all bits of each active element of `pd` its condition and clears every other bit,
raises the flags of the active elements, and changes nothing else; a write to `p0` is discarded. -/
def Obligations.VectorCompare : Prop :=
  ∀ (i : Instr) (s : State) (o : CompareOp), i.wf = true → compareOp i = some o → TypeHere s o.t →
    Readable s.th (.v o.a) → (∀ b ∈ o.b, Readable s.th (.v b)) → o.flags s &&& enabled s.th = 0 →
    ∃ p : PReg, exec i s = .next (withThread s (goNext (putP (flagged s.th (o.flags s)) o.d p)))
      ∧ IsLanePred o.t (fun e => isActive o.t (govern s.th o.g) e && (o.holds s e).1) p

/-- R133, R134: a reduction writes its value over the active elements to `xd`, extended by its type, raises its flags, and
changes nothing else. That `vrcnt` raises no flag for a signalling NaN is the model's reading (log entry 22). -/
def Obligations.VectorReduce : Prop :=
  ∀ (i : Instr) (s : State) (o : ReduceOp), i.wf = true → reduceOp i = some o → TypeHere s o.t →
    Readable s.th (.v o.a) → ReadableX s.th o.b → (o.value s).2 &&& enabled s.th = 0 →
    exec i s = .next (withThread s (goNext (putX (flagged s.th (o.value s).2) o.d (o.ext (o.value s).1))))

/-- R137 to R139: `vqnt` leaves the block's scale in xb and the scaled elements in vd, `vdqnt` widens the low bytes of va by
the scale in xb, and `vscale` multiplies by 2 to the power xb; each keeps inactive elements and raises its flags. The model's
readings: a power beyond ±8192 rounds as ±8192, which gives the same result in every format (log entry 16), and `vd` is not read
where every element is active (18). -/
def Obligations.BlockScaleResult : Prop :=
  (∀ (s : State) (d a : Rv) (b : Rx) (g : Rg) (t : Ty) (fzi fzo : Bool) (k : Nat) (one : Nat → Nat × Flags),
    Readable s.th (.v a) → KeptReadable s 32 (isActive .f32 (govern s.th g)) d →
    k = blockScale t ((activeLanes .f32 (govern s.th g) s.th.v[a]).map (fval .f32 fzi)) →
    (one = fun e => scaleRound .f32 .rne fzo (127 - (k : Int)) (fval .f32 fzi (lane 32 s.th.v[a] e))) →
    allFlags 32 (isActive .f32 (govern s.th g)) (fun e => (one e).2) &&& enabled s.th = 0 →
    ∃ v : VReg, exec (.vqnt d a b g t fzi fzo) s = .next (withThread s (goNext (putX (putV
        (flagged s.th (allFlags 32 (isActive .f32 (govern s.th g)) fun e => (one e).2)) d v) b (word k))))
      ∧ ∀ e, e < 32 → lane 32 v e = if isActive .f32 (govern s.th g) e then (one e).1 % 2 ^ 32 else lane 32 s.th.v[d] e)
  ∧ (∀ (s : State) (d a : Rv) (b : Rx) (g : Rg) (t : Ty) (fzi fzo : Bool) (one : Nat → Nat × Flags),
    Readable s.th (.v a) → KeptReadable s 32 (fun e => (govern s.th g).getLsbD e) d → ReadableX s.th b →
    (one = fun e =>
      let x := fval t fzi (lane 8 s.th.v[a] e)
      if xVal s.th b % 256 = 255 ∨ x.isNan = true then (Ty.nan .f32, 0)
      else scaleRound .f32 .rne fzo ((xVal s.th b % 256 : Nat) - 127) x) →
    allFlags 32 (fun e => (govern s.th g).getLsbD e) (fun e => (one e).2) &&& enabled s.th = 0 →
    ∃ v : VReg, exec (.vdqnt d a b g t fzi fzo) s = .next (withThread s (goNext (putV
        (flagged s.th (allFlags 32 (fun e => (govern s.th g).getLsbD e) fun e => (one e).2)) d v)))
      ∧ ∀ e, e < 32 → lane 32 v e = if (govern s.th g).getLsbD e then (one e).1 % 2 ^ 32 else lane 32 s.th.v[d] e)
  ∧ (∀ (s : State) (d a : Rv) (b : Rx) (g : Rg) (t : Ty) (fzi fzo : Bool) (one : Nat → Nat × Flags), t.isBin = true →
    TypeHere s t → Readable s.th (.v a) → KeptReadable s (laneCount t) (isActive t (govern s.th g)) d → ReadableX s.th b →
    (one = fun e => scaleRound t (modeOf s.th.fcsr) fzo (max (-8192) (min 8192 (sgn 64 (xVal s.th b)))) (fval t fzi (lane t.width s.th.v[a] e))) →
    allFlags (laneCount t) (isActive t (govern s.th g)) (fun e => (one e).2) &&& enabled s.th = 0 →
    ∃ v : VReg, exec (.vscale d a b g t fzi fzo) s = .next (withThread s (goNext (putV
        (flagged s.th (allFlags (laneCount t) (isActive t (govern s.th g)) fun e => (one e).2)) d v)))
      ∧ ∀ e, e < laneCount t → lane t.width v e =
          if isActive t (govern s.th g) e then (one e).1 % 2 ^ t.width else lane t.width s.th.v[d] e)

/-- R132, R140: `vsplat`, `vsplatk`, `vidx` and `vbcl` write each active element and keep the others, and `vxmov` writes the
one element its index names, or none; nothing else changes. `vsplatk` of a stored word in a marked line takes the poison fault of
`kld`. The model's readings: `vd` is not read where every element is active (log entry 18), an l6 element takes six bits (21), `faddr`
of that fault (107), and what a service core reads in the window (105, 129). -/
def Obligations.VectorFill : Prop :=
  (∀ (i : Instr) (s : State) (d : Rv) (g : Rg) (f : Nat → Nat), fillOp s i = some (d, g, f) → TypeHere s (vecType i) →
    (∀ k t, i = .vsplatk d k g t → WindowGood s k.val) →
    (∀ r ∈ fillSources i, Source s.th r) → KeptReadable s (laneCount (vecType i)) (isActive (vecType i) (govern s.th g)) d →
    ∃ v : VReg, exec i s = .next (withThread s (goNext (putV s.th d v)))
      ∧ ∀ e, e < laneCount (vecType i) → lane (vecType i).width v e =
          if isActive (vecType i) (govern s.th g) e then f e else lane (vecType i).width s.th.v[d] e)
  ∧ (∀ (s : State) (d : Rv) (a b : Rx) (t : Ty), TypeHere s t → ReadableX s.th a → ReadableX s.th b →
    (laneCount t ≤ xVal s.th b → exec (.vxmov d a b t) s = .next (withThread s (goNext s.th)))
    ∧ (xVal s.th b < laneCount t → Readable s.th (.v d) → ∃ v : VReg, exec (.vxmov d a b t) s = .next (withThread s (goNext (putV s.th d v)))
      ∧ ∀ e, e < laneCount t → lane t.width v e =
          if e = xVal s.th b then moved t (xVal s.th a) else lane t.width s.th.v[d] e))
  ∧ (∀ (s : State) (d : Rv) (k : Fin 256) (g : Rg) (t : Ty), TypeHere s t → WindowMarked s k.val → CanHold s 1 →
    exec (.vsplatk d k g t) s = .next (faulted s 0x0B (word (8 * k.val)) 0 0 none))

/-- R140, R141: a predicate operation, or `vwhile`, gives every bit of `pd` its condition and changes nothing else (a write to
`p0` is discarded); `vmovx`, `vgetl` and `pcnt` write their value to `xd` and change nothing else. -/
def Obligations.PredicateAndScalarResult : Prop :=
  (∀ (i : Instr) (s : State) (d : Rp) (c : Nat → Bool), predOp s i = some (d, c) → TypeHere s (vecType i) →
    (∀ r ∈ predSources i, ReadableX s.th r) →
    ∃ p : PReg, exec i s = .next (withThread s (goNext (putP s.th d p))) ∧ ∀ j, j < 128 → p.getLsbD j = c j)
  ∧ (∀ (i : Instr) (s : State) (d : Rx) (v : Word), laneScalar s i = some (d, v) → TypeHere s (vecType i) →
    (∀ r ∈ laneScalarSources i, Source s.th r) → exec i s = .next (withThread s (goNext (putX s.th d v))))

namespace Sys2Proof.Claims

/-! ### Floating formats and rounding (02 R31 to R46; 05 R125 to R127) -/

/-- A binary format of R31: significant bits, exponent of the smallest normal value, and the largest finite value M × 2^E. -/
structure Binary where
  p : Nat
  emin : Int
  top : Nat
  topExp : Int

def binary : Ty → Option Binary
  | .f64 => some ⟨53, -1022, 2 ^ 53 - 1, 971⟩
  | .f32 => some ⟨24, -126, 2 ^ 24 - 1, 104⟩
  | .f16 => some ⟨11, -14, 2 ^ 11 - 1, 5⟩
  | .bf16 => some ⟨8, -126, 2 ^ 8 - 1, 120⟩
  | .e4m3 => some ⟨4, -6, 14, 5⟩
  | .e5m2 => some ⟨3, -14, 7, 13⟩
  | _ => none

/-- The sign bit of an encoding, the magnitude of the infinity, and the canonical NaN (R31, R32). -/
def signAt (t : Ty) (neg : Bool) : Nat := if neg then 2 ^ (t.width - 1) else 0
def infinity (t : Ty) (f : Binary) : Nat := (2 ^ (t.width - f.p) - 1) * 2 ^ (f.p - 1)
def quietNan : Ty → Nat
  | .f64 => 0x7FF8000000000000
  | .f16 => 0x7E00
  | .bf16 => 0x7FC0
  | .e4m3 => 0x7F
  | .e5m2 => 0x7E
  | .l6 => 0x20
  | _ => 0x7FC00000

/-- The encoding with a sign, an exponent field and a fraction field, in a field of its own each (R31). -/
def encoding (t : Ty) (f : Binary) (neg : Bool) (ex fr : Nat) : Nat := signAt t neg + ex * 2 ^ (f.p - 1) + fr

/-- The magnitude of a finite encoding (R31). -/
def magnitude (f : Binary) (ex fr : Nat) : ℚ :=
  if ex = 0 then fr * 2 ^ (f.emin - (f.p - 1 : Nat)) else ((2 ^ (f.p - 1) + fr : Nat) : ℚ) * 2 ^ (f.emin + ex - 1 - (f.p - 1 : Nat))

/-- `n` units of `u` are the magnitude `x` rounded in a mode (R41): to nearest, a tie to the even number; toward zero; away. -/
def RoundsTo (m : Mode) (neg : Bool) (u x : ℝ) (n : Nat) : Prop :=
  let down := n * u ≤ x ∧ x < (n + 1) * u
  let up := x ≤ n * u ∧ n * u < x + u
  match m, neg with
  | .rne, _ => 2 * |n * u - x| ≤ u ∧ (2 * |n * u - x| = u → n % 2 = 0)
  | .rtz, _ | .rup, true | .rdn, false => down
  | .rup, false | .rdn, true => up

/-- An overflow's result and flags (R43), from the encodings of the largest finite value and of what stands for infinity. -/
def overflowed (m : Mode) (sat neg : Bool) (big inf : Nat) : Nat × Flags :=
  if m = .rtz ∨ (m = .rup ∧ neg = true) ∨ (m = .rdn ∧ neg = false) then (big, 5)
  else if sat then (big, 37)
  else (inf, 5)

/-- What R43 gives for a binary type. -/
def overflowedIn (t : Ty) (f : Binary) (m : Mode) (sat neg : Bool) : Nat × Flags :=
  overflowed m sat neg (signAt t neg + if t = .e4m3 then 0x7E else infinity t f - 1)
    (if t = .e4m3 then 0x7F else signAt t neg + infinity t f)

/-- A result and flags are those of a nonzero magnitude `x` rounded to `p` significant bits in a binary type's exponent range
(R41 to R43): `v` is `x` rounded with an unbounded exponent, and `w` the rounded value. -/
def Rounded (t : Ty) (p : Nat) (m : Mode) (sat fzo neg : Bool) (x : ℝ) (r : Nat × Flags) : Prop :=
  ∀ (f : Binary) (e : Int) (n k : Nat) (big v w : ℝ), binary t = some f →
    big = (if p = f.p then f.top * (2 : ℝ) ^ f.topExp else (2 ^ p - 1) * (2 : ℝ) ^ (f.topExp + f.p - p)) →
    (2 : ℝ) ^ e ≤ x → x < (2 : ℝ) ^ (e + 1) →
    RoundsTo m neg ((2 : ℝ) ^ (e + 1 - p)) x n → v = n * (2 : ℝ) ^ (e + 1 - p) →
    RoundsTo m neg ((2 : ℝ) ^ (f.emin + 1 - p)) x k → (x < (2 : ℝ) ^ f.emin → w = k * (2 : ℝ) ^ (f.emin + 1 - p)) →
    ((2 : ℝ) ^ f.emin ≤ x → w = v) →
    (big < v → r = overflowedIn t f m sat neg)
    ∧ (v ≤ big → v < (2 : ℝ) ^ f.emin → fzo = true → r = (signAt t neg, 3))
    ∧ (v ≤ big → (v < (2 : ℝ) ^ f.emin → fzo = false) →
      (∃ ex fr, fr < 2 ^ (f.p - 1) ∧ ex < 2 ^ (t.width - f.p) ∧ r.1 = encoding t f neg ex fr ∧ ((magnitude f ex fr : ℚ) : ℝ) = w)
      ∧ (w = x → r.2 = 0) ∧ (w ≠ x → v < (2 : ℝ) ^ f.emin → r.2 = 3) ∧ (w ≠ x → (2 : ℝ) ^ f.emin ≤ v → r.2 = 1))

/-- V(M) of R34, with 0 below and 16 above. -/
def gridValue (n : Nat) : ℚ := if n = 0 then 0 else [32768, 38968, 46341, 55109].getD (n % 4) 0 * (2 : ℚ) ^ ((n / 4 : Nat) - 19 : Int)

/-- The code of V(M) with a sign (R33). -/
def gridCode (neg : Bool) (n : Nat) : Nat := if n = 0 then 0 else if neg then 32 + n else n

/-- A magnitude between V(M) and V(M + 1) goes up (R44). -/
def GoesUp (m : Mode) (neg : Bool) (n : Nat) (x : ℝ) : Prop :=
  match m with
  | .rne => (gridValue n + gridValue (n + 1) : ℚ) < 2 * x ∨ (((gridValue n + gridValue (n + 1) : ℚ) : ℝ) = 2 * x ∧ n % 2 = 1)
  | .rtz => False
  | .rup => neg = false
  | .rdn => neg = true

/-- The rounding of a nonzero magnitude to l6 (R44). -/
def RoundedL6 (m : Mode) (sat neg : Bool) (x : ℝ) (r : Nat × Flags) : Prop :=
  (∀ n, 1 ≤ n → n ≤ 31 → ((gridValue n : ℚ) : ℝ) = x → r = (gridCode neg n, 0))
  ∧ (∀ n, n ≤ 31 → (gridValue n : ℚ) < x → x < (gridValue (n + 1) : ℚ) →
    (n < 31 ∨ 2 * x < (gridValue 31 + 16 : ℚ)) →
    (¬GoesUp m neg n x → r = (gridCode neg n, if n = 0 then 3 else 1))
    ∧ (GoesUp m neg n x → n < 31 → r = (gridCode neg (n + 1), 1)))
  ∧ ((gridValue 31 : ℚ) < x → ((gridValue 31 + 16 : ℚ) ≤ 2 * x ∨ GoesUp m neg 31 x) →
    r = overflowed m sat neg (gridCode neg 31) 0x20)

/-- The result of rounding a nonzero magnitude to a floating type. -/
def RoundedIn (t : Ty) (m : Mode) (sat fzo neg : Bool) (x : ℝ) (r : Nat × Flags) : Prop :=
  (t = .l6 → RoundedL6 m sat neg x r) ∧ (∀ f, binary t = some f → Rounded t f.p m sat fzo neg x r)

/-- The exact value of a finite number, and of a finite term. -/
def signedValue (neg : Bool) (m : Nat) (e : Int) : ℚ := if neg then -(m * (2 : ℚ) ^ e) else m * (2 : ℚ) ^ e
def termValue : Term → ℚ
  | .fin n m e => signedValue n m e
  | _ => 0

/-- The terms are finite. -/
def AllFinite (ts : List Term) : Prop := ∀ x ∈ ts, ∃ n m e, x = .fin n m e

/-- A zero of a sign (R33: l6 has no negative zero). -/
def zeroOf (t : Ty) (neg : Bool) : Nat := if t = .l6 then 0 else signAt t neg

/-- An order of the encodings that are no NaN, −0 below +0 (R126). -/
def orderKey (t : Ty) (b : Nat) : Int := if b < 2 ^ (t.width - 1) then b else -1 - (b - 2 ^ (t.width - 1) : Nat)

/-- An encoding of a binary type is a NaN; a signalling one; a subnormal value (R31, R32). -/
def IsNan (t : Ty) (f : Binary) (b : Nat) : Prop :=
  if t = .e4m3 then b % 2 ^ 7 = 127 else infinity t f < b % 2 ^ (t.width - 1)
def IsSignalling (t : Ty) (f : Binary) (b : Nat) : Prop :=
  IsNan t f b ∧ t ≠ .e4m3 ∧ t ≠ .e5m2 ∧ b / 2 ^ (f.p - 2) % 2 = 0
def isSubnormal (t : Ty) (f : Binary) (b : Nat) : Bool := decide (0 < b % 2 ^ (t.width - 1) ∧ b % 2 ^ (t.width - 1) < 2 ^ (f.p - 1))

/-- An input as `fzi` leaves it (R42). -/
def flushed (t : Ty) (f : Binary) (fzi : Bool) (b : Nat) : Nat :=
  if fzi && isSubnormal t f b then signAt t (decide (2 ^ (t.width - 1) ≤ b)) else b

/-- One level of the tree of R134: neighbours summed with one rounding, a last odd value carried. -/
def treeLevel (t : Ty) (m : Mode) (l : List FVal) : List FVal × Flags :=
  let sum := fun (j : Nat) => roundSum t m false [(l.getD (2 * j) (.inf false)).term, (l.getD (2 * j + 1) (.inf false)).term]
  ((List.range ((l.length + 1) / 2)).map fun j =>
      if 2 * j + 1 < l.length then fval t false (sum j).1 else l.getD (2 * j) (.inf false),
    (List.range (l.length / 2)).foldl (fun f j => f ||| (sum j).2) 0)

/-- The tree of R134. -/
def treeOf (t : Ty) (m : Mode) : Nat → List FVal → Nat × Flags
  | _, [] => (0, 0)
  | _, [v] => (bitsOf t v, if v.isSnan then 16 else 0)
  | 0, _ => (0, 0)
  | k + 1, l => ((treeOf t m k (treeLevel t m l).1).1, (treeLevel t m l).2 ||| (treeOf t m k (treeLevel t m l).1).2)

end Sys2Proof.Claims

/-- R41 to R44, R46, R123, R125, R127, R139: the one rounding that every floating result takes, on exact real values, with its
flags: an exact sum of finite terms, a quotient, a square root, an absolute difference, a scaled value, a conversion to a floating type from a
floating or an integer one, and the two 8-bit estimates, which never raise NX. -/
def Obligations.RoundedResults : Prop :=
  (∀ (t : Ty) (m : Mode) (fzo : Bool) (ts : List Term) (v : ℚ), binary t ≠ none → ts ≠ [] → AllFinite ts →
    v = (ts.map termValue).sum →
    (v ≠ 0 → RoundedIn t m false fzo (decide (v < 0)) |(v : ℝ)| (roundSum t m fzo ts))
    ∧ (v = 0 → ((∀ x ∈ ts, ∃ e, x = .fin true 0 e) ∨ (m = .rdn ∧ ∃ x ∈ ts, ∀ e, x ≠ .fin false 0 e)) →
      roundSum t m fzo ts = (signAt t true, 0))
    ∧ (v = 0 → ¬((∀ x ∈ ts, ∃ e, x = .fin true 0 e) ∨ (m = .rdn ∧ ∃ x ∈ ts, ∀ e, x ≠ .fin false 0 e)) →
      roundSum t m fzo ts = (0, 0)))
  ∧ (∀ (t : Ty) (m : Mode) (fzo n n' : Bool) (a b : Nat) (e e' : Int), binary t ≠ none → a ≠ 0 → b ≠ 0 →
    RoundedIn t m false fzo (n != n') (((a * (2 : ℚ) ^ e) / (b * (2 : ℚ) ^ e') : ℚ) : ℝ) (fdiv t m fzo (.fin n a e) (.fin n' b e'))
    ∧ RoundedIn t m false fzo false (Real.sqrt (((a * (2 : ℚ) ^ e : ℚ)) : ℝ)) (fsqrt t m fzo (.fin false a e))
    ∧ (signedValue n a e ≠ signedValue n' b e' →
      RoundedIn t m false fzo false |((signedValue n a e - signedValue n' b e' : ℚ) : ℝ)| (absDiff t m fzo (.fin n a e) (.fin n' b e')))
    ∧ (∀ k : Int, RoundedIn t m false fzo n (((a * (2 : ℚ) ^ (e + k)) : ℚ) : ℝ) (scaleRound t m fzo k (.fin n a e))))
  ∧ (∀ (t : Ty) (fzo n : Bool) (a : Nat) (e : Int), t.isBin = true → a ≠ 0 →
    (∃ f, Rounded t 8 .rne false fzo n (((a * (2 : ℚ) ^ e)⁻¹ : ℚ) : ℝ) ((frcpe t fzo (.fin n a e)).1, f)
      ∧ (frcpe t fzo (.fin n a e)).2 = f &&& 62)
    ∧ (∃ f, Rounded t 8 .rne false fzo false (Real.sqrt (((a * (2 : ℚ) ^ e : ℚ)) : ℝ))⁻¹ ((frsqe t fzo (.fin false a e)).1, f)
      ∧ (frsqe t fzo (.fin false a e)).2 = f &&& 62))
  ∧ (∀ (tin tout : Ty) (m : Mode) (sat fzi fzo n : Bool) (b a : Nat) (e : Int), tin.isInt = false → tout.isInt = false →
    fval tin fzi b = .fin n a e →
    (a ≠ 0 → RoundedIn tout m sat fzo n (((a * (2 : ℚ) ^ e) : ℚ) : ℝ) (convert tin tout m sat fzi fzo b))
    ∧ (a = 0 → convert tin tout m sat fzi fzo b = (zeroOf tout n, 0)))
  ∧ (∀ (tin tout : Ty) (m : Mode) (sat fzi fzo : Bool) (b : Nat) (v : Int), tin.isInt = true → tout.isInt = false → b < 2 ^ tin.width →
    v = num tin b →
    (v ≠ 0 → RoundedIn tout m sat fzo (decide (v < 0)) |(v : ℝ)| (convert tin tout m sat fzi fzo b))
    ∧ (v = 0 → convert tin tout m sat fzi fzo b = (0, 0)))

/-- R31 to R35, R37 to R40, R45, R46, R48, R53, R126, R134, R136: the cases that need no rounding: what an encoding's value is, products and their special
values, the rows of R48, quotients and roots of special values, minimum and maximum, the order of a compare, conversions to integers and of NaNs
and infinities, integral rounding, the scale of a block, and the tree of a sum. -/
def Obligations.SpecialValues : Prop :=
  (∀ (t : Ty) (f : Binary) (fzi neg : Bool) (ex fr : Nat), binary t = some f → fr < 2 ^ (f.p - 1) → ex < 2 ^ (t.width - f.p) →
    (¬IsNan t f (encoding t f neg ex fr) → (t = .e4m3 ∨ ex + 1 < 2 ^ (t.width - f.p)) →
      ∃ m e, fval t fzi (encoding t f neg ex fr) = .fin neg m e
        ∧ m * (2 : ℚ) ^ e = (if fzi = true ∧ ex = 0 then 0 else magnitude f ex fr)
        ∧ (fzi = false → bitsOf t (.fin neg m e) = encoding t f neg ex fr))
    ∧ (t ≠ .e4m3 → ex + 1 = 2 ^ (t.width - f.p) → fr = 0 → fval t fzi (encoding t f neg ex fr) = .inf neg)
    ∧ (IsNan t f (encoding t f neg ex fr) → ∃ q, fval t fzi (encoding t f neg ex fr) = .nan q
      ∧ (q = true ↔ IsSignalling t f (encoding t f neg ex fr))))
  ∧ (∀ (fzi neg : Bool) (n : Nat), 1 ≤ n → n ≤ 31 →
    (∃ m e, fval .l6 fzi (gridCode neg n) = .fin neg m e ∧ m * (2 : ℚ) ^ e = gridValue n)
    ∧ fval .l6 fzi 32 = .nan false ∧ fval .l6 fzi 0 = .fin false 0 0)
  ∧ (∀ (a b : FVal),
    ((a.isSnan || b.isSnan) = true → mulTerm a b = .snan)
    ∧ ((a.isSnan || b.isSnan) = false → (a.isNan || b.isNan) = true → mulTerm a b = .qnan)
    ∧ (∀ n k m e, a = .inf n → b = .fin k m e → m ≠ 0 → mulTerm a b = .inf (n != k) ∧ mulTerm b a = .inf (n != k))
    ∧ (∀ n k e, a = .inf n → b = .fin k 0 e → mulTerm a b = .invalid ∧ mulTerm b a = .invalid)
    ∧ (∀ n k, a = .inf n → b = .inf k → mulTerm a b = .inf (n != k))
    ∧ (∀ n m e k m' e', a = .fin n m e → b = .fin k m' e' → ∃ u g, mulTerm a b = .fin (n != k) u g
      ∧ termValue (mulTerm a b) = signedValue n m e * signedValue k m' e' ∧ (u = 0 ↔ m = 0 ∨ m' = 0)))
  ∧ (∀ (a b : Nat) (na nb : Bool), a ≤ 31 → b ≤ 31 →
    (1 ≤ a → 1 ≤ b → ∃ m e, l6Product (gridCode na a) (gridCode nb b) = .fin (na != nb) m e
      ∧ m * (2 : ℚ) ^ e = [32768, 38968, 46341, 55109].getD ((a + b) % 4) 0 * (2 : ℚ) ^ (((a + b) / 4 : Nat) - 23 : Int))
    ∧ l6Product 32 (gridCode nb b) = .qnan ∧ l6Product (gridCode na a) 32 = .qnan
    ∧ (1 ≤ b → l6Product 0 (gridCode nb b) = .fin nb 0 0 ∧ l6Product (gridCode nb b) 0 = .fin nb 0 0))
  ∧ (∀ (t : Ty) (f : Binary) (m : Mode) (fzo : Bool) (ts : List Term), binary t = some f →
    (.snan ∈ ts → roundSum t m fzo ts = (quietNan t, 16))
    ∧ (.snan ∉ ts → .qnan ∈ ts → roundSum t m fzo ts = (quietNan t, 0))
    ∧ (.snan ∉ ts → .qnan ∉ ts → (.invalid ∈ ts ∨ (.inf true ∈ ts ∧ .inf false ∈ ts)) → roundSum t m fzo ts = (quietNan t, 16))
    ∧ (∀ n, .snan ∉ ts → .qnan ∉ ts → .invalid ∉ ts → .inf n ∈ ts → .inf (!n) ∉ ts → t ≠ .e4m3 →
      roundSum t m fzo ts = (signAt t n + infinity t f, 0)))
  ∧ (∀ (t : Ty) (f : Binary) (m : Mode) (fzo n n' : Bool) (a : Nat) (e e' : Int) (v : FVal), t.isBin = true → binary t = some f →
    fdiv t m fzo (.inf n) (.inf n') = (quietNan t, 16) ∧ fdiv t m fzo (.inf n) (.fin n' a e) = (signAt t (n != n') + infinity t f, 0)
    ∧ fdiv t m fzo (.fin n a e) (.inf n') = (signAt t (n != n'), 0) ∧ fdiv t m fzo (.fin n 0 e) (.fin n' 0 e') = (quietNan t, 16)
    ∧ (a ≠ 0 → fdiv t m fzo (.fin n a e) (.fin n' 0 e') = (signAt t (n != n') + infinity t f, 8)
      ∧ fdiv t m fzo (.fin n 0 e') (.fin n' a e) = (signAt t (n != n'), 0)
      ∧ fsqrt t m fzo (.fin true a e) = (quietNan t, 16) ∧ frsqe t fzo (.fin true a e) = (quietNan t, 16))
    ∧ (∀ q, fdiv t m fzo (.nan true) v = (quietNan t, 16) ∧ fdiv t m fzo v (.nan true) = (quietNan t, 16)
      ∧ (v.isSnan = false → fdiv t m fzo (.nan false) v = (quietNan t, 0) ∧ fdiv t m fzo v (.nan false) = (quietNan t, 0))
      ∧ fsqrt t m fzo (.nan q) = (quietNan t, if q then 16 else 0) ∧ frcpe t fzo (.nan q) = (quietNan t, if q then 16 else 0)
      ∧ frsqe t fzo (.nan q) = (quietNan t, if q then 16 else 0))
    ∧ fsqrt t m fzo (.inf false) = (infinity t f, 0) ∧ fsqrt t m fzo (.inf true) = (quietNan t, 16)
    ∧ fsqrt t m fzo (.fin n 0 e) = (signAt t n, 0)
    ∧ frcpe t fzo (.inf n) = (signAt t n, 0) ∧ frcpe t fzo (.fin n 0 e) = (signAt t n + infinity t f, 8)
    ∧ frsqe t fzo (.inf false) = (0, 0) ∧ frsqe t fzo (.inf true) = (quietNan t, 16)
    ∧ frsqe t fzo (.fin n 0 e) = (signAt t n + infinity t f, 8))
  ∧ (∀ (t : Ty) (f : Binary) (isMax fzi fzo : Bool) (a b : Nat), t.isBin = true → binary t = some f → a < 2 ^ t.width → b < 2 ^ t.width →
    ((IsNan t f a ∨ IsNan t f b) →
      ((IsSignalling t f a ∨ IsSignalling t f b) → fminmax t isMax fzo (fval t fzi a) (fval t fzi b) = (quietNan t, 16))
      ∧ (¬(IsSignalling t f a ∨ IsSignalling t f b) → fminmax t isMax fzo (fval t fzi a) (fval t fzi b) = (quietNan t, 0)))
    ∧ (∀ (x y z : Nat), ¬IsNan t f a → ¬IsNan t f b → x = flushed t f fzi a → y = flushed t f fzi b →
      z = (if (orderKey t x < orderKey t y) = (isMax = false) then x else y) →
      fminmax t isMax fzo (fval t fzi a) (fval t fzi b) = (flushed t f fzo z, if fzo && isSubnormal t f z then 3 else 0)
      ∧ ((fval t fzi a).lt (fval t fzi b) = true ↔ orderKey t x < orderKey t y ∧ (x % 2 ^ (t.width - 1) ≠ 0 ∨ y % 2 ^ (t.width - 1) ≠ 0))))
  ∧ (∀ (tin tout : Ty) (m : Mode) (sat fzi fzo : Bool) (b : Nat), tin.isInt = false →
    (∀ q, fval tin fzi b = .nan q →
      convert tin tout m sat fzi fzo b = if tout.isInt then (0, 16) else (quietNan tout, if q then 16 else 0))
    ∧ (∀ n, fval tin fzi b = .inf n →
      (tout.isInt = true → convert tin tout m sat fzi fzo b
        = if sat then (((if n then tout.intMin else tout.intMax) % 2 ^ tout.width).toNat, 32) else (0, 16))
      ∧ (∀ f, binary tout = some f → sat = true →
        convert tin tout m sat fzi fzo b = (signAt tout n + if tout = .e4m3 then 0x7E else infinity tout f - 1, 32))
      ∧ (tout = .l6 → convert tin tout m sat fzi fzo b = if sat then (gridCode n 31, 32) else (0x20, 16))
      ∧ (tout = .e4m3 → sat = false → convert tin tout m sat fzi fzo b = (0x7F, 16))
      ∧ (∀ f, binary tout = some f → tout ≠ .e4m3 → sat = false →
        convert tin tout m sat fzi fzo b = (signAt tout n + infinity tout f, 0)))
    ∧ (∀ (n : Bool) (a k : Nat) (e v : Int) (nx : Flags), tout.isInt = true → fval tin fzi b = .fin n a e →
      RoundsTo m n 1 ((a * (2 : ℚ) ^ e : ℚ) : ℝ) k → v = (if n then -(k : Int) else k) →
      ((a * (2 : ℚ) ^ e : ℚ) = k → nx = 0) → ((a * (2 : ℚ) ^ e : ℚ) ≠ k → nx = 1) →
      (tout.intMin ≤ v → v ≤ tout.intMax → convert tin tout m sat fzi fzo b = ((v % 2 ^ tout.width).toNat, nx))
      ∧ (sat = false → (v < tout.intMin ∨ tout.intMax < v) → convert tin tout m sat fzi fzo b = ((v % 2 ^ tout.width).toNat, nx ||| 16))
      ∧ (sat = true → v < tout.intMin → convert tin tout m sat fzi fzo b = ((tout.intMin % 2 ^ tout.width).toNat, nx ||| 32))
      ∧ (sat = true → tout.intMax < v → convert tin tout m sat fzi fzo b = ((tout.intMax % 2 ^ tout.width).toNat, nx ||| 32))))
  ∧ (∀ (tin tout : Ty) (m : Mode) (sat fzi fzo : Bool) (b : Nat), tin.isInt = true → tout.isInt = true → b < 2 ^ tin.width →
    ((sat = false ∨ (tout.intMin ≤ num tin b ∧ num tin b ≤ tout.intMax)) →
      convert tin tout m sat fzi fzo b = ((num tin b % 2 ^ tout.width).toNat, 0))
    ∧ (sat = true → num tin b < tout.intMin → convert tin tout m sat fzi fzo b = ((tout.intMin % 2 ^ tout.width).toNat, 32))
    ∧ (sat = true → tout.intMax < num tin b → convert tin tout m sat fzi fzo b = ((tout.intMax % 2 ^ tout.width).toNat, 32)))
  ∧ (∀ (t : Ty) (f : Binary) (m : Mode) (neg : Bool) (ex fr k : Nat), t.isBin = true → binary t = some f →
    fr < 2 ^ (f.p - 1) → ex + 1 < 2 ^ (t.width - f.p) → RoundsTo m neg 1 ((magnitude f ex fr : ℚ) : ℝ) k →
    ∃ ex' fr', fr' < 2 ^ (f.p - 1) ∧ ex' + 1 < 2 ^ (t.width - f.p) ∧ magnitude f ex' fr' = k
      ∧ (roundIntegral t m (fval t false (encoding t f neg ex fr))).1 = encoding t f neg ex' fr'
      ∧ ((magnitude f ex fr : ℚ) = k → (roundIntegral t m (fval t false (encoding t f neg ex fr))).2 = 0)
      ∧ ((magnitude f ex fr : ℚ) ≠ k → (roundIntegral t m (fval t false (encoding t f neg ex fr))).2 = 1))
  ∧ (∀ (t : Ty) (vs : List FVal) (emax : Int), (t = .e4m3 ∧ emax = 8) ∨ (t = .e5m2 ∧ emax = 15) ∨ (t = .l6 ∧ emax = 3) →
    ((∀ n m e, .fin n m e ∈ vs → m = 0) → blockScale t vs = 127)
    ∧ (∀ k : Int, (∃ (n : Bool) (m : Nat) (e : Int), .fin n m e ∈ vs ∧ (2 : ℚ) ^ k ≤ m * (2 : ℚ) ^ e) → (∀ (n : Bool) (m : Nat) (e : Int), .fin n m e ∈ vs → m * (2 : ℚ) ^ e < (2 : ℚ) ^ (k + 1)) →
      (blockScale t vs : Int) = min (max (k - emax + 127) 0) 254))
  ∧ (∀ (t : Ty) (m : Mode) (l : List FVal), t.isBin = true → l.length ≤ 128 → treeSum t m 7 l = treeOf t m 7 l)
/-- R146, R147, R149: a repeat frame whose body words are operations that it may hold does them in the order of R147, with
the staggered registers, as one instruction, and goes on behind its body; when one of them faults, none has been done. Each
operation does what the instruction that its word decodes to does, but for the retirement. That every fault carries its step,
not the numeric one alone, is the model's reading (log entry 19). -/
def Obligations.RepeatFrame : Prop :=
  (∀ (s : State) (cnt1 : Fin 16) (len1 : Fin 8) (step : Fin 3) (sd sa sb : Bool) (words : List (List Byte))
      (ops : List VecOp) (f : Frame),
    f = { cnt := cnt1.val + 1, step := 2 ^ step.val, sd, sa, sb } → frameBytes s (len1.val + 1) = .ok words →
    words.mapM (frameWord s) = .ok (ops.map some) → ops.all f.accepts = true →
    (∀ t : State, ((List.range f.cnt).flatMap fun i => ops.map fun o => f.at' o i).foldlM (fun (u : State) o => o.run u 0) s
        = .ok t →
      exec (.repf cnt1 len1 step sd sa sb) s
        = .next (withThread t (goOn t.th (s.th.pc + BitVec.ofNat 64 (4 + 4 * (len1.val + 1))))))
    ∧ (∀ n, n < (len1.val + 1) * (cnt1.val + 1) → ∀ t : State, ∀ k : Trap,
        (((List.range f.cnt).flatMap fun i => ops.map fun o => f.at' o i).take n).foldlM (fun (u : State) o => o.run u 0) s
          = .ok t →
        (∀ o ∈ (((List.range f.cnt).flatMap fun i => ops.map fun o => f.at' o i)[n]?), o.run t n = .error (.trap k)) →
        CanHold s 1 →
        exec (.repf cnt1 len1 step sd sa sb) s = .next (faulted s k.cause k.addr k.info n k.miss)))
  ∧ (∀ (s : State) (bs : List Byte) (o : VecOp), frameWord s bs = .ok (some o) → ∃ i, decodeBytes bs = .ok i
    ∧ (∀ (t u : State) (n : Nat), (∀ ty ∈ o.types, TypeHere t ty) → o.run t n = .ok u → exec i t = .next (done u))
    ∧ (∀ (t : State) (n : Nat) (k : Trap), (∀ ty ∈ o.types, TypeHere t ty) → CanHold t 1 → o.run t n = .error (.trap k) →
      exec i t = .next (faulted t k.cause k.addr k.info 0 k.miss)))
  ∧ (∀ (f : Frame) (o : VecOp) (i : Nat), f.accepts o = true → i < f.cnt →
    (f.at' o i).d.val = o.d.val + (if f.sd then i * f.step else 0) ∧ (f.at' o i).a.val = o.a.val + (if f.sa then i * f.step else 0)
      ∧ (∀ b, o.b = some b → ∃ b', (f.at' o i).b = some b' ∧ b'.val = b.val + if f.sb then i * f.step else 0)
      ∧ (o.b = none → (f.at' o i).b = none) ∧ (f.at' o i).g = o.g ∧ (f.at' o i).types = o.types ∧ (f.at' o i).f = o.f)

namespace Sys2Proof.Claims

/-! ### Scalar loads and stores (07 R184, R188 to R190) -/

/-- A load: bytes, how the value is extended, destination, reference, index, immediate (R188). -/
def loadOp : Instr → Option (Nat × LoadForm × DestReg × Ra × Rx × BitVec 7)
  | .ld d r x m k => some (match k with
    | .b => (1, .signed 1, .x d, r, x, m)
    | .h => (2, .signed 2, .x d, r, x, m)
    | .w => (4, .signed 4, .x d, r, x, m)
    | .d => (8, .signed 8, .x d, r, x, m))
  | .ldn d r x m k => some (match k with
    | .b => (1, .unsigned 1, .x d, r, x, m)
    | .h => (2, .unsigned 2, .x d, r, x, m)
    | .w => (4, .unsigned 4, .x d, r, x, m))
  | .lda d r x m => some (16, .whole, .a d, r, x, m)
  | _ => none

/-- A store: bytes, source register, reference, index, immediate (R188). -/
def storeOp : Instr → Option (Nat × DestReg × Ra × Rx × BitVec 7)
  | .st d r x m k => some (match k with
    | .b => (1, .x d, r, x, m)
    | .h => (2, .x d, r, x, m)
    | .w => (4, .x d, r, x, m)
    | .d => (8, .x d, r, x, m))
  | .sta d r x m => some (16, .a d, r, x, m)
  | _ => none

/-- The number in a source register. -/
def regNum (t : Thread) : DestReg → Nat
  | .x r => xVal t r
  | .a r => t.a[r].toNat
  | .v r => t.v[r].toNat
  | .t r => (Tile.image t.t[r]).data.toNat

/-- A loaded number in its register (R188). -/
def putLoaded (t : Thread) (d : DestReg) (f : LoadForm) (v : Nat) : Thread :=
  match d, f with
  | .x r, .signed n => putX t r (BitVec.ofInt 64 (sgn (8 * n) (v % 2 ^ (8 * n))))
  | .x r, .unsigned n => putX t r (word (v % 2 ^ (8 * n)))
  | .x r, .whole => putX t r (word v)
  | .a r, _ => putA t r (BitVec.ofNat 128 v)
  | _, _ => t

/-- The exact address of a scalar access: offset plus index and immediate, in units of the access size (R189). -/
def scalarOff (t : Thread) (r : Ra) (x : Rx) (m : BitVec 7) (size : Nat) : Int :=
  (refBits t.a[r] 0 44 : Int) + (sgn 64 (xVal t x) + sgn 7 m.toNat) * size

/-- The check of R70 steps 1 to 5 of a reference whose format the instruction does not read passes. -/
def WellFormedRef (r : Ref) : Prop :=
  refBits r 94 2 = 0 ∧ refBits r 80 4 ≤ 5 ∧ (refBits r 80 4 ≠ 0 → refBits r 44 36 = 0)
    ∧ refBits r 90 4 ≠ 1 ∧ refBits r 90 4 ≠ 2
    ∧ (refBits r 88 2 = 0 ∨ (refBits r 88 2 = 1 ∧ (refBits r 84 4 = 12 ∨ refBits r 84 4 = 13 ∨ refBits r 84 4 = 14)
        ∧ 3 ≤ refBits r 90 4))

/-- The space of a reference (R69). -/
def spaceOf (r : Ref) : Nat := refBits r 80 4

/-- The bytes of a core's local memory that its threads address (R267): all but the part that is L1. -/
def localBytes (s : State) : Nat :=
  2 ^ 18 - (match (s.core (s.tid / 2)).lmsplit.toNat with
    | 0 => 0
    | 1 => 2 ^ 15
    | 2 => 2 ^ 16
    | _ => 2 ^ 17)

/-- Bytes of space 1 (local memory of the core) or 2 (scratchpad of the quad) that a thread can reach (R71). -/
def nearBytes (s : State) (sp : Nat) : Nat := if sp = 1 then localBytes s else 2 ^ 21

/-- Where the bytes of those two spaces lie in Memory (R22). -/
def nearKey (s : State) (sp a : Nat) : Nat := if sp = 1 then localBase (s.tid / 2) + a else quadBase (s.tid / 8) + a

/-! ### The other spaces (03 R71; 14 R308 to R318; 15 R349) -/

/-- The section of a thread (R16). -/
def sectHere (tid : Nat) : Nat := if 4096 ≤ tid then tid - 4096 else tid / 64

/-- Bytes of a core's local memory that threads address (R267). -/
def localBytesOf (s : State) (c : Nat) : Nat :=
  2 ^ 18 - (match (s.core c).lmsplit.toNat with
    | 0 => 0
    | 1 => 2 ^ 15
    | 2 => 2 ^ 16
    | _ => 2 ^ 17)

/-- A gang's quads in a section, ascending, and A of R349. -/
def quadsHere (g : Gang) (sec : Nat) : List Nat := (List.range 512).filter fun q => q / 8 == sec && g.cores.any fun c => c / 4 == q
def sramHere (s : State) (sec : Nat) : Nat := 2 ^ 22 - (s.sect sec).smsplit.toNat * 2 ^ 20

/-- Bytes of space 3 of a gang in a section, and where byte `a` of them lies (R71, R349). -/
def allotted (s : State) (g : Gang) (sec : Nat) : Nat :=
  if quadsHere g sec = [] then 0 else if g.level = 0 then (quadsHere g sec).length * (sramHere s sec / 8) else sramHere s sec
def allottedKey (s : State) (g : Gang) (sec a : Nat) : Nat :=
  let share := sramHere s sec / 8
  sectionBase sec + if g.level = 0 then (quadsHere g sec).getD (a / share) 0 % 8 * share + a % share else a

/-- A core that a thread reaches through space 4: in its section, and of its gang (R71). -/
def Reachable (s : State) (c : Nat) : Prop :=
  c / 32 = sectHere s.tid ∧ ∃ g, s.gangs.get? s.th.gang = some g ∧ c ∈ g.cores

/-- What is left of an offset before dimension `d`, its coordinate there, and the extent and block extent there in units (R315,
R316). -/
def restAt (o : ObjRec) (a : Nat) : Nat → Nat
  | 0 => a
  | d + 1 => restAt o a d % o.stride.getD d 1
def coordAt (o : ObjRec) (a d : Nat) : Nat := restAt o a d / o.stride.getD d 1
def unitsAt (o : ObjRec) (l : List Nat) (d : Nat) : Nat := if o.type = 14 ∧ d = o.dims then l.getD d 0 / 4 else l.getD d 0

/-- A byte offset lies in the shape (R315); the number of its block, and its place in the block (R316). -/
def InShape (o : ObjRec) (a : Nat) : Prop := ∀ d, d ≤ o.dims → coordAt o a d < unitsAt o o.ext d
def blockOf (o : ObjRec) (a : Nat) : Nat :=
  (List.range (o.dims + 1)).foldl (fun n d =>
    n * ((unitsAt o o.ext d + unitsAt o o.tile d - 1) / unitsAt o o.tile d) + coordAt o a d / unitsAt o o.tile d) 0
def placeIn (o : ObjRec) (a : Nat) : Nat :=
  (List.range (o.dims + 1)).foldl (fun n d => n * unitsAt o o.tile d + coordAt o a d % unitsAt o o.tile d) 0 * o.stride.getD o.dims 0
    + restAt o a (o.dims + 1)

/-- Bytes of a block: its data, and its scales (R316). -/
def blockBytes (o : ObjRec) : Nat :=
  ((List.range (o.dims + 1)).map (unitsAt o o.tile)).prod * o.stride.getD o.dims 0
    + if o.sk = 1 then ((List.range o.dims).map fun d => o.tile.getD d 0).prod * (o.tile.getD o.dims 0 / 2 ^ o.blog) else 0

/-- The eight bytes of a block's residency entry, and its fields (R316, R318). -/
def entryWord (s : State) (o : ObjRec) (b : Nat) : Nat := leNat (s.mem.readList (o.map * 8 + 8 * b) 8)
def entryBase (w : Nat) : Nat := w % 2 ^ 44 * 4096
def entryTier (w : Nat) : Nat := w / 2 ^ 60 % 4
def entrySize (w : Nat) : Nat := w / 2 ^ 44 % 2 ^ 4

/-- A valid entry is consistent with its object (R318). -/
def Consistent (s : State) (o : ObjRec) (w : Nat) : Prop :=
  w / 2 ^ 48 % 2 ^ 12 = 0 ∧ entrySize w < 15 ∧ blockBytes o ≤ 2 ^ (12 + entrySize w)
    ∧ (entrySize w = 0 ∨ 2 ^ (11 + entrySize w) < blockBytes o) ∧ entryBase w % 2 ^ (12 + entrySize w) = 0
    ∧ (entryTier w < 2 → populated (entryBase w) = true ∧ populated (entryBase w + 2 ^ (12 + entrySize w) - 1) = true
        ∧ entryBase w / 2 ^ 46 = s.pkg)
    ∧ (entryTier w = 3 → entryBase w / 2 ^ 46 ≠ s.pkg) ∧ (entryTier w = 2 → o.enc = false)

/-- Where the storage of an entry lies in Memory: host memory has a place of its own. -/
def storageAt (w : Nat) : Nat := if entryTier w = 2 then 2 ^ 57 + entryBase w else entryBase w

/-- The line of a table's address holds no storage error (R377), and the table's bytes lie in populated storage. -/
def TableGood (s : State) (k : Nat) : Prop := populated k = true ∧ ∀ e ∈ s.weak, e.1 ≠ k / 256

/-- The record of object `n` of the thread's context (R308). -/
def recordAt (s : State) (n : Nat) : Nat := (contextOf s s.th.gang).ortb.toNat / 2 ^ 7 % 2 ^ 49 * 128 + 128 * n

/-- A present object (R310), by its record. -/
def Present (s : State) (n : Nat) (o : ObjRec) : Prop :=
  n ≠ 0 ∧ n < 2 ^ ((contextOf s s.th.gang).ortb.toNat % 2 ^ 6) ∧ TableGood s (recordAt s n)
    ∧ o = ObjRec.ofNat (leNat (s.mem.readList (recordAt s n) 128)) ∧ o.valid = true ∧ o.gen ≠ 0

/-- No object of the number is present (R310). -/
def Absent (s : State) (n : Nat) : Prop :=
  (∀ e ∈ s.weak, e.1 ≠ recordAt s n / 256) ∧ (n = 0 ∨ 2 ^ ((contextOf s s.th.gang).ortb.toNat % 2 ^ 6) ≤ n
    ∨ (populated (recordAt s n) = true ∧ ((ObjRec.ofNat (leNat (s.mem.readList (recordAt s n) 128))).valid = false
      ∨ (ObjRec.ofNat (leNat (s.mem.readList (recordAt s n) 128))).gen = 0)))

/-- A load or a store is permitted by a record (R314 check 4). -/
def Permits (o : ObjRec) (st : Bool) : Prop := if st then o.wr = true else o.rd = true

/-- The key check of an encrypted object passes (R340). -/
def KeyFits (s : State) (o : ObjRec) : Prop :=
  let k := (contextOf s s.th.gang).keysel.toNat
  o.enc = true → k / 2 ^ 16 % 2 = 1 ∧ o.key ≤ k % 2 ^ 8 ∧ k / 2 ^ 8 % 2 ^ 8 + o.key ≤ 255

/-- That check, and the rule of replay mode on side-effect objects (R383). -/
def KeyOk (s : State) (o : ObjRec) : Prop := KeyFits s o ∧ (o.se = true → heatOf s s.th.gang = false)

/-- Checks 1 to 5 of R314 pass for the object of a reference. -/
def Usable (s : State) (r : Ref) (o : ObjRec) (st : Bool) : Prop :=
  Present s (refBits r 44 36) o ∧ o.malformed = false ∧ refBits r 96 32 = o.gen ∧ Permits o st ∧ KeyOk s o

/-- A miss or check-tag fault names its object. -/
def missOf (r : Ref) : Option Miss := some { obj := refBits r 44 36, off := refBits r 0 44 }

/-- The fault of the checks of a global reference's object that no place in it decides (R314 checks 1 to 5): its cause, and the
object that a miss names. -/
def ObjectFault (s : State) (r : Ref) (st : Bool) (c : Nat) (k : Option Miss) : Prop :=
  (Absent s (refBits r 44 36) ∧ c = 0x08 ∧ k = missOf r)
    ∨ ∃ o, Present s (refBits r 44 36) o ∧ ((o.malformed = true ∧ c = 0x02 ∧ k = none)
      ∨ (o.malformed = false ∧ refBits r 96 32 ≠ o.gen ∧ c = 0x08 ∧ k = missOf r)
      ∨ (o.malformed = false ∧ refBits r 96 32 = o.gen ∧ ¬(Permits o st ∧ KeyOk s o) ∧ c = 0x09 ∧ k = none))

/-- The fault of an access unit of `n` bytes at offset `a` of such an object (R314 checks 7 to 10 and 12; R315, R317, R318, R330):
out of shape, in two blocks, an inconsistent entry, a load of a marked line or a store to one of a damaged block, and a residency
miss. -/
def BlockFault (s : State) (r : Ref) (a n : Nat) (st : Bool) (c : Nat) (k : Option Miss) : Prop :=
  ∃ o, Usable s r o st ∧ (((∃ j, j < n ∧ ¬InShape o (a + j)) ∧ c = 0x06 ∧ k = none)
    ∨ (∀ j, j < n → InShape o (a + j)) ∧ ((blockOf o a ≠ blockOf o (a + n - 1) ∧ c = 0x05 ∧ k = none)
      ∨ ∃ w, (∀ j, j < n → blockOf o (a + j) = blockOf o a) ∧ TableGood s (o.map * 8 + 8 * blockOf o a)
        ∧ w = entryWord s o (blockOf o a) ∧ s.lost = [] ∧ ((w / 2 ^ 63 % 2 = 1 ∧ ¬Consistent s o w ∧ c = 0x02 ∧ k = none)
          ∨ (w / 2 ^ 63 % 2 = 1 ∧ Consistent s o w ∧ st = false ∧ o.se = false ∧ s.th.late = false ∧ s.weak = [] ∧ s.regions = []
            ∧ Marked s (storageAt w + placeIn o a) ∧ c = 0x0B ∧ k = some { obj := refBits r 44 36, off := a })
          ∨ (w / 2 ^ 63 % 2 = 1 ∧ Consistent s o w ∧ st = true ∧ w / 2 ^ 62 % 2 = 1 ∧ s.th.late = false ∧ s.regions = []
            ∧ Marked s (storageAt w + placeIn o a) ∧ c = 0x0B ∧ k = some { obj := refBits r 44 36, off := a })
          ∨ (w / 2 ^ 63 % 2 = 0 ∧ c = 0x0A ∧ k = some { obj := refBits r 44 36, off := a, gen := o.gen }))))

/-- The fault of `n` bytes at offset `a` of a space that is not global (R66, R71, R267): beyond its extent, a core outside the gang
or section, a store to the constant window. -/
def SpaceFault (s : State) (r : Ref) (a n : Nat) (st : Bool) (c : Nat) : Prop :=
  ((spaceOf r = 1 ∨ spaceOf r = 2) ∧ nearBytes s (spaceOf r) < a + n ∧ c = 0x06)
    ∨ (spaceOf r = 1 ∧ st = true ∧ a < 2048 ∧ a + n ≤ nearBytes s 1 ∧ c = 0x09)
    ∨ (spaceOf r = 3 ∧ (∀ g, s.gangs.get? s.th.gang = some g → allotted s g (sectHere s.tid) < a + n) ∧ c = 0x06)
    ∨ (spaceOf r = 4 ∧ ((2048 ≤ a / 2 ^ 32 ∧ c = 0x06) ∨ (a / 2 ^ 32 < 2048 ∧ ¬Reachable s (a / 2 ^ 32) ∧ c = 0x09)
      ∨ (a / 2 ^ 32 < 2048 ∧ Reachable s (a / 2 ^ 32) ∧ localBytesOf s (a / 2 ^ 32) < a % 2 ^ 32 + n ∧ c = 0x06)
      ∨ (a / 2 ^ 32 < 2048 ∧ Reachable s (a / 2 ^ 32) ∧ st = true ∧ a % 2 ^ 32 < 2048
        ∧ a % 2 ^ 32 + n ≤ localBytesOf s (a / 2 ^ 32) ∧ c = 0x09)))
    ∨ (spaceOf r = 5 ∧ ((2048 < a + n ∧ c = 0x06) ∨ (a + n ≤ 2048 ∧ st = true ∧ s.tid < 4096 ∧ c = 0x09)))

/-- The fault of step 6 of R70 for an access unit of `n` bytes at offset `a`, the first that its checks find: by the space, or by
the object; and, in a load, of a marked line (R187, R330). -/
def PlaceFault (s : State) (r : Ref) (a n : Nat) (st : Bool) (c : Nat) (k : Option Miss) : Prop :=
  (spaceOf r = 0 ∧ (ObjectFault s r st c k ∨ BlockFault s r a n st c k))
    ∨ (spaceOf r ≠ 0 ∧ k = none ∧ (SpaceFault s r a n st c
      ∨ (c = 0x0B ∧ st = false ∧ s.tid < 4096 ∧ ∃ key, Marked s key
        ∧ (((spaceOf r = 1 ∨ spaceOf r = 2) ∧ a + n ≤ nearBytes s (spaceOf r) ∧ key = nearKey s (spaceOf r) a)
          ∨ (spaceOf r = 3 ∧ ∃ g, s.gangs.get? s.th.gang = some g ∧ a + n ≤ allotted s g (sectHere s.tid)
            ∧ key = allottedKey s g (sectHere s.tid) a)
          ∨ (spaceOf r = 5 ∧ a + n ≤ 2048 ∧ key = localBase (s.tid / 2) + a)))))

/-- No access waits for an older acquire (R195), nor a load for an older wide fence, whose older stores are then visible:
the held ones, and the thread's own writes after W cycles (R282, R284). -/
def InOrder (s : State) (load : Bool) : Prop :=
  outstanding s s.tid s.th.loadAfter = false
    ∧ (load = true → heldStores s s.tid s.th.loadAfterStores = false ∧ s.th.loadFrom ≤ s.cycle)

/-- A load of some bytes waits for nothing: it is in order, no held request of its quad is to change one of them first
(R280), and a service core has no change of a record to come there (R323). -/
def LoadGoes (s : State) (ls : List Loc) : Prop :=
  InOrder s true ∧ requestOver s s.tid false ls = false ∧ (4096 ≤ s.tid → ∀ l ∈ ls, changing s l.key = false)

/-- A write of some bytes of spaces 1 and 2 waits for nothing: it is in order, what a release fence puts before it has been
performed (R285), no held request of its quad names one of them (R280), and no write from outside waits for one (R292). -/
def OwnStoreGoes (s : State) (ls : List Loc) : Prop :=
  InOrder s false ∧ performedBelow s (s.tid / 8) s.th.storeAfter = true ∧ requestOver s s.tid true ls = false
    ∧ ∀ l ∈ ls, outsideWaits s l.key = false

/-- The places of an access to `n` bytes of space 1 or 2 at offset `a`. -/
def nearLocs (s : State) (sp a n : Nat) : List Loc :=
  (List.range n).map fun j => { key := nearKey s sp a + j, crypt := none, dmg := false, space := sp, obj := 0, off := a + j }

end Sys2Proof.Claims

/-- R190, R195, R280, R284, R355: a thread's loads read, for each byte, what the thread sees there at that moment, and change
neither its registers nor any byte; without a request limit they wait for nothing but older acquires and wide fences, held
requests of the quad to the same bytes, and a service core's own changes of records. -/
def Obligations.LoadsRead : Prop :=
  (∀ (s u : State) (units : List (List Loc)) (vals : List (List Byte)), loadUnits s units = .ok (vals, u) →
    vals = units.map (viewBytes s (whoTh s)) ∧ u.th = s.th ∧ u.tid = s.tid ∧ u.cores = s.cores ∧ MemoryAndOthersKept s u)
  ∧ (∀ (s : State) (units : List (List Loc)), LoadGoes s units.flatten → (contextOf s s.th.gang).qlimit = 0 →
    ∃ u, loadUnits s units = .ok (units.map (viewBytes s (whoTh s)), u))

/-- R184, R186, R188, R189: `ld`, `ldn` and `lda` write the bytes read, lowest address first, extended by their form; with a
destination `x0` nothing is written. From an object with the side-effect attribute the load is a held request: it retires, its
destination waits for the reply, one entry enters the hold buffer, and no byte is read yet. -/
def Obligations.ScalarLoadResult : Prop :=
  (∀ (i : Instr) (s u : State) (n : Nat) (f : LoadForm) (d : DestReg) (r : Ra) (x : Rx) (m : BitVec 7) (o : Opened)
      (ls : List Loc) (vals : List (List Byte)),
    loadOp i = some (n, f, d, r, x, m) → Readable s.th (.a r) → ReadableX s.th x →
    scalarLocs s s.th.a[r] (s.th.rx x) m n .load = .ok (o, ls) → o.sideEffect = false →
    loadUnits s [ls] = .ok (vals, u) →
    exec i s = .next (done (withThread u (putLoaded u.th d f (leNat (viewBytes s (whoTh s) ls))))))
  ∧ (∀ (i : Instr) (s : State) (n : Nat) (f : LoadForm) (d : DestReg) (r : Ra) (x : Rx) (m : BitVec 7) (o : Opened)
      (ls : List Loc),
    loadOp i = some (n, f, d, r, x, m) → Readable s.th (.a r) → ReadableX s.th x →
    scalarLocs s s.th.a[r] (s.th.rx x) m n .load = .ok (o, ls) → o.sideEffect = true → CanHold s 1 →
    ∃ t, exec i s = .next t ∧ t.th.pc = s.th.pc + 4 ∧ t.mem = s.mem ∧ t.th.x = s.th.x ∧ t.th.a = s.th.a
      ∧ (t.core (s.tid / 2)).hold.map (·.effect) = (s.core (s.tid / 2)).hold.map (·.effect) ++ [.loadSE ls f d]
      ∧ (d ≠ .x 0 → (d, s.seq) ∈ t.th.pend))

/-- R66, R70, R71, R189, R267, R308 to R310, R314 to R316, R318, R349: where a scalar load or store lands in each space: at the
exact address, inside the space and aligned, it reaches exactly those bytes: of the core's local memory, of the quad's
scratchpad, of the gang's shares of section memory, of another core's local memory, of the constant window (a load), and of the storage of an
object's residency block, at the place that the record's shape gives. -/
def Obligations.AccessAddress : Prop :=
  (∀ (s : State) (r : Ra) (x : Rx) (m : BitVec 7) (n a : Nat) (st : Bool), s.tid < 4096 → WellFormedRef s.th.a[r] →
    (spaceOf s.th.a[r] = 1 ∨ spaceOf s.th.a[r] = 2) → (n = 1 ∨ n = 2 ∨ n = 4 ∨ n = 8 ∨ n = 16) →
    scalarOff s.th r x m n = a → a % n = 0 → a + n ≤ nearBytes s (spaceOf s.th.a[r]) →
    (st = true → spaceOf s.th.a[r] = 1 → 2048 ≤ a) → Clean s (nearKey s (spaceOf s.th.a[r]) a) n →
    ∃ o ls, scalarLocs s s.th.a[r] (s.th.rx x) m n (if st then .store else .load) = .ok (o, ls) ∧ o.sideEffect = false
      ∧ ls.map (·.key) = (List.range n).map fun i => nearKey s (spaceOf s.th.a[r]) a + i)
  ∧ (∀ (s : State) (g : Gang) (r : Ra) (x : Rx) (m : BitVec 7) (n a : Nat) (st : Bool), s.tid < 4096 →
    s.gangs.get? s.th.gang = some g → WellFormedRef s.th.a[r] → spaceOf s.th.a[r] = 3 →
    (n = 1 ∨ n = 2 ∨ n = 4 ∨ n = 8 ∨ n = 16) → scalarOff s.th r x m n = a → a % n = 0 →
    a + n ≤ allotted s g (sectHere s.tid) → Clean s (allottedKey s g (sectHere s.tid) a) n →
    ∃ o ls, scalarLocs s s.th.a[r] (s.th.rx x) m n (if st then .store else .load) = .ok (o, ls) ∧ o.sideEffect = false
      ∧ ls.map (·.key) = (List.range n).map fun i => allottedKey s g (sectHere s.tid) (a + i))
  ∧ (∀ (s : State) (r : Ra) (x : Rx) (m : BitVec 7) (n a c : Nat) (st : Bool), WellFormedRef s.th.a[r] →
    spaceOf s.th.a[r] = 4 → (n = 1 ∨ n = 2 ∨ n = 4 ∨ n = 8 ∨ n = 16) → scalarOff s.th r x m n = a → a % n = 0 → c = a / 2 ^ 32 →
    c < 2048 → Reachable s c → a % 2 ^ 32 + n ≤ localBytesOf s c → (st = true → 2048 ≤ a % 2 ^ 32) →
    Clean s (localBase c + a % 2 ^ 32) n →
    ∃ o ls, scalarLocs s s.th.a[r] (s.th.rx x) m n (if st then .store else .load) = .ok (o, ls) ∧ o.sideEffect = false
      ∧ ls.map (·.key) = (List.range n).map fun i => localBase c + a % 2 ^ 32 + i)
  ∧ (∀ (s : State) (r : Ra) (x : Rx) (m : BitVec 7) (n a : Nat), s.tid < 4096 → WellFormedRef s.th.a[r] →
    spaceOf s.th.a[r] = 5 → (n = 1 ∨ n = 2 ∨ n = 4 ∨ n = 8 ∨ n = 16) → scalarOff s.th r x m n = a → a % n = 0 → a + n ≤ 2048 →
    Clean s (localBase (s.tid / 2) + a) n →
    ∃ o ls, scalarLocs s s.th.a[r] (s.th.rx x) m n .load = .ok (o, ls) ∧ o.sideEffect = false
      ∧ ls.map (·.key) = (List.range n).map fun i => localBase (s.tid / 2) + a + i)
  ∧ (∀ (s : State) (r : Ra) (x : Rx) (m : BitVec 7) (n a w : Nat) (st : Bool) (o : ObjRec), WellFormedRef s.th.a[r] →
    spaceOf s.th.a[r] = 0 → (n = 1 ∨ n = 2 ∨ n = 4 ∨ n = 8 ∨ n = 16) → scalarOff s.th r x m n = a → a % n = 0 → a + n ≤ 2 ^ 44 →
    Usable s s.th.a[r] o st → s.lost = [] → (∀ i, i < n → InShape o (a + i) ∧ blockOf o (a + i) = blockOf o a) →
    TableGood s (o.map * 8 + 8 * blockOf o a) → w = entryWord s o (blockOf o a) → w / 2 ^ 63 % 2 = 1 → Consistent s o w →
    s.th.late = false → (∀ i, i < n → Clean s (storageAt w + placeIn o (a + i)) 1
      ∧ s.regions.get? ((storageAt w + placeIn o (a + i)) / 2 ^ 21) = none) →
    ∃ p ls, scalarLocs s s.th.a[r] (s.th.rx x) m n (if st then .store else .load) = .ok (p, ls) ∧ p.sideEffect = o.se
      ∧ ls.map (·.key) = (List.range n).map fun i => storageAt w + placeIn o (a + i))

/-- R66, R70, R71, R189, R225, R310, R314, R315, R317, R318, R340: the faults of a scalar access, in their order: a reference that is
not well formed (reserved operand or bad space), an address outside 0 to 2^44 (out of shape), one that is not aligned
(alignment); then by the space: one beyond it (out of shape), a core outside the gang or section and a store to the constant window
(permission); or by the object: its absence and its tag, its record, its permissions and key, its shape, two blocks, and the residency
entry, and a load of a marked line (poison). From the second on `faddr` is the address. A load and a store fault alike, and change nothing else. The model's readings: `faddr` of the out-of-space
and window faults (log entry 24), and in space 4 a core outside the gang before an offset beyond it (128). -/
def Obligations.ScalarAccessFaults : Prop :=
  ∀ (i : Instr) (s : State) (n : Nat) (r : Ra) (x : Rx) (m : BitVec 7) (st : Bool),
    ((∃ f d, loadOp i = some (n, f, d, r, x, m) ∧ st = false)
      ∨ (∃ d, storeOp i = some (n, d, r, x, m) ∧ st = true ∧ Source s.th d)) →
    Readable s.th (.a r) → ReadableX s.th x → CanHold s 1 →
    let a := scalarOff s.th r x m n
    let fault := fun (c : Nat) (k : Option Miss) => exec i s = .next (faulted s c (BitVec.ofInt 64 a) 0 0 k)
    (∀ c, refFault s.th.a[r] false = some c → exec i s = .next (faulted s c 0 0 0 none))
    ∧ (WellFormedRef s.th.a[r] →
      ((a < 0 ∨ 2 ^ 44 < a + n) → fault 0x06 none) ∧ (0 ≤ a → a + n ≤ 2 ^ 44 → a % n ≠ 0 → fault 0x05 none))
    ∧ (WellFormedRef s.th.a[r] → 0 ≤ a → a + n ≤ 2 ^ 44 → a % n = 0 → ∀ c k, PlaceFault s s.th.a[r] a.toNat n st c k → fault c k)

/-- R70: the steps of the reference check, in their order: reserved bits, space, object number outside the global space,
a block exponent of 1 or 2, and a forbidden format; the check passes exactly for a well-formed reference. An instruction that takes
its element type from the reference also refuses type code 0xF, and `tsave` and `trstr` make steps 1 to 4 only (R182). That a block exponent of 1
or 2 faults also where the scale kind is 00, which R70 lets ignore the exponent, is the model's reading (log entry 23). -/
def Obligations.ReferenceCheck : Prop :=
  (∀ r : Ref, refFault r false = none ↔ WellFormedRef r)
  ∧ (∀ (r : Ref) (fmt : Bool), refBits r 94 2 ≠ 0 → refFault r fmt = some 0x02)
  ∧ (∀ (r : Ref) (fmt : Bool), refBits r 94 2 = 0 → 6 ≤ refBits r 80 4 → refFault r fmt = some 0x07)
  ∧ (∀ (r : Ref) (fmt : Bool), refBits r 94 2 = 0 → refBits r 80 4 ≤ 5 → ¬WellFormedRef r → refFault r fmt = some 0x02)
  ∧ (∀ r : Ref, WellFormedRef r → refFault r true = if refBits r 84 4 = 15 then some 0x02 else none)
  ∧ (∀ r : Ref, refPlainFault r = if refBits r 94 2 ≠ 0 then some 0x02 else if 6 ≤ refBits r 80 4 then some 0x07
      else if (refBits r 80 4 ≠ 0 ∧ refBits r 44 36 ≠ 0) ∨ refBits r 90 4 = 1 ∨ refBits r 90 4 = 2 then some 0x02 else none)

/-- R184, R190, R247, R254: a store of `st` or `sta` to local memory or the scratchpad is performed at once: the bytes at its
address, computed as R189 says, take the register's value, lowest byte first; every other byte of memory and every
register stay, and the thread notes the cycle of its write, from which a later wide fence counts (R282, R284). To another
space a store by a gang's thread enters the hold buffer with the bytes it will write at its addresses, and changes no byte of
memory; under `.heat on` it first takes its lines from the quota (R386), and in test mode the race detector sees it (R296). It
waits for held requests of the quad at its bytes, which the model reads from R280 (log entry 138). -/
def Obligations.ScalarStoreResult : Prop :=
  (∀ (i : Instr) (s : State) (n : Nat) (d : DestReg) (r : Ra) (x : Rx) (m : BitVec 7) (a : Nat),
    storeOp i = some (n, d, r, x, m) → s.tid < 4096 → MemoryOk s → Readable s.th (.a r) → ReadableX s.th x →
    Source s.th d → WellFormedRef s.th.a[r] → (spaceOf s.th.a[r] = 1 ∨ spaceOf s.th.a[r] = 2) →
    scalarOff s.th r x m n = a → a % n = 0 → a + n ≤ nearBytes s (spaceOf s.th.a[r]) →
    (spaceOf s.th.a[r] = 1 → 2048 ≤ a) → Clean s (nearKey s (spaceOf s.th.a[r]) a) n →
    OwnStoreGoes s (nearLocs s (spaceOf s.th.a[r]) a n) →
    ∃ t, exec i s = .next t ∧ t.th = goNext { s.th with ownAt := some s.cycle } ∧ t.parked = s.parked
      ∧ (∀ j, j < n → (t.mem.read (nearKey s (spaceOf s.th.a[r]) a + j)).toNat = regNum s.th d / 256 ^ j % 256)
      ∧ (∀ k, (∀ j, j < n → k ≠ nearKey s (spaceOf s.th.a[r]) a + j) → t.mem.read k = s.mem.read k))
  ∧ (∀ (i : Instr) (s u : State) (n : Nat) (d : DestReg) (r : Ra) (x : Rx) (m : BitVec 7) (o : Opened) (ls : List Loc),
    storeOp i = some (n, d, r, x, m) → Readable s.th (.a r) → ReadableX s.th x → Source s.th d →
    scalarLocs s s.th.a[r] (s.th.rx x) m n .store = .ok (o, ls) → spaceOf s.th.a[r] ≠ 1 → spaceOf s.th.a[r] ≠ 2 →
    requestOver s s.tid true ls = false → CanHold s 1 →
    takeQuota s (whoTh s) (if spaceOf s.th.a[r] = 0 then (ls.map fun l => l.key / 256).dedup else []).length
        (BitVec.ofInt 64 (scalarOff s.th r x m n)) = .ok u →
    ∃ unit : List WByte,
      unit.map (fun c => (c.loc, c.val.toNat)) = (List.range ls.length).zipWith (fun j l => (l, regNum s.th d / 256 ^ j % 256)) ls
      ∧ (∀ c ∈ unit, c.mask = 0xFF)
      ∧ exec i s = .next (done (entered (u.detectUnits s.tid .retired s.cycle [unit]) (.store [unit]) []
          (if spaceOf s.th.a[r] = 0 then (ls.map fun l => l.key / 256).dedup else []))))

/-! ### Atomics (07 R191 to R193) -/

namespace Sys2Proof.Claims

/-- An atomic: operation, destination, reference, operand, scope, order, and whether it has 64 bits (R191). -/
def amoOf : Instr → Option (AmoOp × Rx × Ra × Rx × Scope × Ord × Bool)
  | .amoswap d r x k q w => some (.swap, d, r, x, k, q, w)
  | .amoadd d r x k q w => some (.add, d, r, x, k, q, w)
  | .amoand d r x k q w => some (.and, d, r, x, k, q, w)
  | .amoor d r x k q w => some (.or, d, r, x, k, q, w)
  | .amoxor d r x k q w => some (.xor, d, r, x, k, q, w)
  | .amomin d r x k q w => some (.min, d, r, x, k, q, w)
  | .amomax d r x k q w => some (.max, d, r, x, k, q, w)
  | .amominn d r x k q w => some (.minn, d, r, x, k, q, w)
  | .amomaxn d r x k q w => some (.maxn, d, r, x, k, q, w)
  | .amocas d r x k q w => some (.cas, d, r, x, k, q, w)
  | .amofadd d r x k q w => some (.fadd, d, r, x, k, q, w)
  | _ => none

/-- What an atomic leaves in memory, from the old value, the operand and the old `xd`, in n bits (R191). -/
def amoRule (op : AmoOp) (n m x old : Nat) : Nat :=
  match op with
  | .swap => x
  | .add => (m + x) % 2 ^ n
  | .and => m &&& x
  | .or => m ||| x
  | .xor => m ^^^ x
  | .min => if sgn n m ≤ sgn n x then m else x
  | .max => if sgn n m ≤ sgn n x then x else m
  | .minn => Nat.min m x
  | .maxn => Nat.max m x
  | .cas => if m = old then x else m
  | .fadd => faddRne (if n = 64 then .f64 else .f32) m x % 2 ^ n

end Sys2Proof.Claims

/-- R191 to R193: an atomic on local memory or the scratchpad reads and writes in one step: the memory takes the value of its
row, `xd` the old value (sign-extended, but for `amofadd`), and every other byte stays; the old value is the one the
thread sees. With a scope of section or wider it takes a reserved-operand fault, once
its other checks have passed. Elsewhere an atomic is a held request (R184, R186): it enters the hold buffer with its operands,
`xd` waits for the reply, and no byte changes yet. -/
def Obligations.AtomicResult : Prop :=
  (∀ (i : Instr) (s : State) (op : AmoOp) (d : Rx) (r : Ra) (x : Rx) (k : Scope) (q : Ord) (w : Bool) (n a key m : Nat),
    amoOf i = some (op, d, r, x, k, q, w) → n = (if w then 8 else 4) → s.tid < 4096 → MemoryOk s →
    Readable s.th (.a r) → ReadableX s.th x → (op = .cas → ReadableX s.th d) →
    WellFormedRef s.th.a[r] → (spaceOf s.th.a[r] = 1 ∨ spaceOf s.th.a[r] = 2) → k.code < 3 →
    a = refBits s.th.a[r] 0 44 → a % n = 0 → a + n ≤ nearBytes s (spaceOf s.th.a[r]) →
    (spaceOf s.th.a[r] = 1 → 2048 ≤ a) → key = nearKey s (spaceOf s.th.a[r]) a → Clean s key n →
    LoadGoes s (nearLocs s (spaceOf s.th.a[r]) a n) → OwnStoreGoes s (nearLocs s (spaceOf s.th.a[r]) a n) →
    m = leNat ((nearLocs s (spaceOf s.th.a[r]) a n).map (viewByte s (whoTh s))) →
    ∃ t, exec i s = .next t ∧ t.th.pc = s.th.pc + 4 ∧ RegsKept s.th t.th [d] [] [] [] [] ∧ SpecialKept s.th t.th
      ∧ (d ≠ 0 → t.th.x[d] = if op = .fadd then word m else BitVec.ofInt 64 (sgn (8 * n) m)) ∧ (d = 0 → t.th.x = s.th.x)
      ∧ t.parked = s.parked
      ∧ (∀ j, j < n → (t.mem.read (key + j)).toNat
          = amoRule op (8 * n) m (xVal s.th x % 2 ^ (8 * n)) (xVal s.th d % 2 ^ (8 * n)) / 256 ^ j % 256)
      ∧ (∀ b, (∀ j, j < n → b ≠ key + j) → t.mem.read b = s.mem.read b))
  ∧ (∀ (i : Instr) (s : State) (op : AmoOp) (d : Rx) (r : Ra) (x : Rx) (k : Scope) (q : Ord) (w : Bool) (o : Opened)
      (ls : List Loc),
    amoOf i = some (op, d, r, x, k, q, w) → Readable s.th (.a r) → ReadableX s.th x → (op = .cas → ReadableX s.th d) →
    scalarLocs s s.th.a[r] 0 0 (if w then 8 else 4) .atomic = .ok (o, ls) →
    (spaceOf s.th.a[r] = 1 ∨ spaceOf s.th.a[r] = 2) → 3 ≤ k.code → CanHold s 1 →
    exec i s = .next (faulted s 0x02 0 0 0 none))
  ∧ (∀ (i : Instr) (s : State) (op : AmoOp) (d : Rx) (r : Ra) (x : Rx) (k : Scope) (q : Ord) (w : Bool) (o : Opened)
      (ls : List Loc),
    amoOf i = some (op, d, r, x, k, q, w) → Readable s.th (.a r) → ReadableX s.th x → (op = .cas → ReadableX s.th d) →
    scalarLocs s s.th.a[r] 0 0 (if w then 8 else 4) .atomic = .ok (o, ls) →
    spaceOf s.th.a[r] ≠ 1 → spaceOf s.th.a[r] ≠ 2 → heatOf s s.th.gang = false → CanHold s 1 →
    ∃ t, exec i s = .next t ∧ t.th.pc = s.th.pc + 4 ∧ t.mem = s.mem ∧ RegsKept s.th t.th [] [] [] [] [] ∧ SpecialKept s.th t.th
      ∧ (d ≠ 0 → (.x d, s.seq) ∈ t.th.pend)
      ∧ (t.core (s.tid / 2)).hold.map (·.effect) = (s.core (s.tid / 2)).hold.map (·.effect) ++
          [.amo op ls w (s.th.rx x) (if op = .cas then s.th.rx d else 0) d])

namespace Sys2Proof.Claims

/-! ### Releases (07 R185 to R187, R192; 09 R247, R248; 11 R280, R282, R286) -/

/-- Every effect that a quad held before number `n` has been performed. -/
def QuadClear (s : State) (q n : Nat) : Prop :=
  (∀ i, i < 4 → ∀ e ∈ (s.core (4 * q + i)).hold, n ≤ e.seq)
    ∧ ∀ e ∈ s.quads, ∀ o ∈ e.2.outside, o.copy = none → o.core / 4 = q → n ≤ o.seq

/-- The writes of a quad to its own memories up to number `n` are visible outside it: they are older than W cycles (R282, R291). -/
def OwnVisible (s : State) (q n : Nat) : Prop :=
  let old := fun (j : List JournalByte) => ∀ e ∈ j, n < e.seq ∨ e.cycle + 128 < s.cycle
  old (s.quad q).journal ∧ ∀ i, i < 4 → old (s.core (4 * q + i)).journal

/-- An effect of a quad that is older than number `n` and has still to be performed: held, or waiting at a bank. -/
def OlderEffect (s : State) (q n : Nat) (f : HeldEffect) : Prop :=
  (∃ i, i < 4 ∧ ∃ h ∈ (s.core (4 * q + i)).hold, h.seq < n ∧ h.effect = f)
    ∨ ∃ k ∈ s.quads, ∃ o ∈ k.2.outside, o.copy = none ∧ o.core / 4 = q ∧ o.seq < n ∧ o.effect = f

/-- Two effects name a byte that one of them writes. -/
def Clash (a b : HeldEffect) : Prop :=
  (∃ l ∈ a.writes, ∃ m ∈ b.writes ++ b.loads, Loc.key l = Loc.key m) ∨ ∃ l ∈ a.loads, ∃ m ∈ b.writes, Loc.key l = Loc.key m

/-- An entry may be released, its destination apart: after its hold window (R248), while its quad is not frozen (R253), after what
a release puts before it (R286, R287), after the requests that an older acquire waits for (R283), after older effects of the quad at
its bytes (R280) or its ring endpoint (R177), and, a `tqdone`, after the replies of older `tqget`s (R221). -/
def Due (s : State) (core : Nat) (e : HoldEntry) : Prop :=
  e.cycle + 128 ≤ s.cycle ∧ (s.quad (core / 4)).phase = .idle
    ∧ (e.after ≠ 0 → QuadClear s (core / 4) e.after ∧ OwnVisible s (core / 4) e.seq)
    ∧ (∀ k ∈ s.quads, ∀ o ∈ k.2.outside, o.copy = none → o.tid = e.tid → o.seq < e.acq → o.effect.isRequest = false)
    ∧ (∀ f, OlderEffect s (core / 4) e.seq f → ¬Clash e.effect f)
    ∧ (∀ n, e.effect.endpoint = some n → (∀ i, i < 4 → ∀ h ∈ (s.core (4 * (core / 4) + i)).hold, h.seq < e.seq → h.effect.endpoint ≠ some n)
      ∧ ∀ l ∈ (s.engine n).leaves, e.seq ≤ l.2.1)
    ∧ (e.effect = .tqdone → ∀ n ∈ (s.thread e.tid).tq, e.seq ≤ n)

/-- The entry at the head of a core's buffer is due, and its context has no request limit. -/
def AtHead (s : State) (core : Nat) (e : HoldEntry) (rest : List HoldEntry) : Prop :=
  (s.core core).hold = e :: rest ∧ (∀ f ∈ rest, f.seq ≠ e.seq) ∧ Due s core e
    ∧ (contextOf s (s.thread e.tid).gang).qlimit = 0

/-- The head has been released in this cycle. -/
def ReleasedTo (s u : State) (core : Nat) (rest : List HoldEntry) : Prop :=
  releaseHead s core = some u ∧ (u.core core).hold = rest ∧ (u.core core).released = some s.cycle

/-- A place that a released effect of a core reaches as it is: not encrypted, of a good line that has not moved, its node not
lost, with no waiting or young write there (R292), and not overwritten by its own quad since (R280). -/
def Reached (s : State) (core seq : Nat) (l : Loc) : Prop :=
  l.crypt = none ∧ Clean s l.key 1 ∧ youngWrite s l.key = false ∧ outsideWaits s l.key = false
    ∧ (homeQuad? l.key = some (core / 4) → ∀ e ∈ (s.quad (core / 4)).overs, e.2 = l.key → e.1 ≤ seq)

/-- Bytes written one after another over a byte. -/
def laid (b : Byte) (cs : List WByte) : Byte := cs.foldl (fun b c => (b &&& ~~~c.mask) ||| (c.val &&& c.mask)) b

/-- The step leaves every other thread as it is, and every byte of memory. -/
def OnlyThreadOf (s u : State) (k : Nat) : Prop := (∀ j, j ≠ k → u.thread j = s.thread j) ∧ u.mem = s.mem

/-- A released request of an entry has its reply: these registers are to be written. -/
def RepliesWith (s u : State) (core : Nat) (e : HoldEntry) (writes : List (DestReg × Nat)) : Prop :=
  ∃ r, (u.core core).replies = (s.core core).replies ++ [r] ∧ r.seq = e.seq ∧ r.tid = e.tid ∧ r.writes = writes
    ∧ r.poisoned = false ∧ r.written = none

end Sys2Proof.Claims

/-- R184, R186, R191, R192, R208, R222, R248, R253: the head of a hold buffer is released only when it is due, up to four in a
cycle and in order. Then a store's bytes take their values in memory, in the order of its units, and no other byte changes; an
atomic reads and writes its bytes in one step, by its row, and has its reply; a held load has its reply with the bytes it finds; an
exchange writes its 256 bytes; a thread whose trap record is released is in service. The places of the model's readings of when
an entry is due are log entries 111 and 142. -/
def Obligations.ReleaseResult : Prop :=
  (∀ (s : State) (core : Nat), exec (.holdRelease core) s = .next (releaseUpTo 4 s core)
    ∧ (∀ n u, releaseHead s core = some u → releaseUpTo (n + 1) s core = releaseUpTo n u core)
    ∧ (∀ n, releaseHead s core = none → releaseUpTo n s core = s)
    ∧ ((s.core core).hold = [] → releaseHead s core = none)
    ∧ (∀ e rest, (s.core core).hold = e :: rest → ¬Due s core e → releaseHead s core = none))
  ∧ (∀ (s : State) (core : Nat) (e : HoldEntry) (rest : List HoldEntry) (units : List (List WByte)), AtHead s core e rest →
    e.effect = .store units → MemoryOk s → heatOf s (s.thread e.tid).gang = false → s.lost = [] →
    (∀ c ∈ units.flatten, Reached s core e.seq c.loc) →
    ∃ u, ReleasedTo s u core rest ∧ (∀ k, u.thread k = s.thread k)
      ∧ ∀ k, u.mem.read k = laid (s.mem.read k) (units.flatten.filter fun c => c.loc.key == k))
  ∧ (∀ (s : State) (core : Nat) (e : HoldEntry) (rest : List HoldEntry) (op : AmoOp) (ls : List Loc) (w : Bool) (x old : Word)
      (d : Rx) (n a m : Nat), AtHead s core e rest → e.effect = .amo op ls w x old d → e.tid / 64 < 64 → MemoryOk s →
    heatOf s (s.thread e.tid).gang = false → s.lost = [] → (s.sect (e.tid / 64)).heatBuf = [] →
    (∀ l ∈ ls, Reached s core e.seq l) → n = (if w then 8 else 4) → ls.map (·.key) = (List.range n).map (a + ·) →
    m = leNat (s.mem.readList a n) →
    ∃ u, ReleasedTo s u core rest ∧ (∀ k, u.thread k = s.thread k)
      ∧ RepliesWith s u core e [(.x d, (if op = .fadd then word m else BitVec.ofInt 64 (sgn (8 * n) m)).toNat)]
      ∧ (∀ j, j < n → (u.mem.read (a + j)).toNat
          = amoRule op (8 * n) m (x.toNat % 2 ^ (8 * n)) (old.toNat % 2 ^ (8 * n)) / 256 ^ j % 256)
      ∧ ∀ k, (k < a ∨ a + n ≤ k) → u.mem.read k = s.mem.read k)
  ∧ (∀ (s : State) (core : Nat) (e : HoldEntry) (rest : List HoldEntry) (ls : List Loc) (f : LoadForm) (d : DestReg),
    AtHead s core e rest → e.effect = .loadSE ls f d → e.tid / 64 < 64 → s.lost = [] → (s.sect (e.tid / 64)).heatBuf = [] →
    (∀ l ∈ ls, l.crypt = none ∧ Clean s l.key 1) →
    ∃ (u : State) (v : Nat), ReleasedTo s u core rest ∧ u.mem = s.mem ∧ (∀ k, u.thread k = s.thread k) ∧ RepliesWith s u core e [(d, v)]
      ∧ v = (match f with
        | .signed n => (BitVec.ofInt 64 (sgn (8 * n) (leNat (ls.map fun l => s.mem.read l.key) % 2 ^ (8 * n)))).toNat
        | .unsigned n => leNat (ls.map fun l => s.mem.read l.key) % 2 ^ (8 * n)
        | .whole => leNat (ls.map fun l => s.mem.read l.key)))
  ∧ (∀ (s : State) (core : Nat) (e : HoldEntry) (rest : List HoldEntry) (dest : List Loc) (data : List Byte), AtHead s core e rest →
    e.effect = .xsend dest data → MemoryOk s → dest.length = 256 → data.length = 256 → (dest.map (·.key)).Nodup →
    heatOf s (s.thread e.tid).gang = false → s.lost = [] → (∀ l ∈ dest, Reached s core e.seq l) →
    ∃ u, ReleasedTo s u core rest ∧ (∀ k, u.thread k = s.thread k)
      ∧ (∀ (j : Nat) (l : Loc) (b : Byte), dest[j]? = some l → data[j]? = some b → u.mem.read l.key = b)
      ∧ ∀ k, (∀ l ∈ dest, l.key ≠ k) → u.mem.read k = s.mem.read k)
  ∧ (∀ (s : State) (core : Nat) (e : HoldEntry) (rest : List HoldEntry), AtHead s core e rest → e.effect = .trap →
    (s.thread e.tid).run = .trapped →
    ∃ u, ReleasedTo s u core rest ∧ OnlyThreadOf s u e.tid ∧ u.thread e.tid = { s.thread e.tid with run := .service })

/-! ### Vector memory (05 R142 to R145) -/

namespace Sys2Proof.Claims

/-- A vector load or store: register, reference, predicate, whether l6 is allowed, the index word that l6 alignment looks at,
and the exact address of element `e` of a type (R142). -/
structure VecMem where
  d : Rv
  r : Ra
  g : Rg
  l6 : Bool
  x : DestReg
  addr : Thread → Ref → Ty → Nat → Int

/-- n consecutive elements from the index; l6 elements lie in groups of four in three bytes. -/
def rowAt (x : Rx) (m : BitVec 7) (t : Thread) (r : Ref) (ty : Ty) (e : Nat) : Int :=
  if ty = .l6 then (refBits r 0 44 : Int) + 96 * sgn 7 m.toNat + 3 * ((sgn 64 (xVal t x) + e) / 4)
  else refBits r 0 44 + (sgn 7 m.toNat * laneCount ty + sgn 64 (xVal t x) + e) * (ty.width / 8 : Nat)

/-- A byte stride in xx. -/
def strideAt (x : Rx) (m : BitVec 7) (t : Thread) (r : Ref) (ty : Ty) (e : Nat) : Int :=
  refBits r 0 44 + sgn 7 m.toNat * (ty.width / 8 : Nat) + e * sgn 64 (xVal t x)

/-- Element numbers in a vector register. -/
def gatherAt (x : Rv) (m : BitVec 7) (t : Thread) (r : Ref) (ty : Ty) (e : Nat) : Int :=
  refBits r 0 44 + (sgn 7 m.toNat + lane ty.width t.v[x] e) * (ty.width / 8 : Nat)

/-- One element for all. -/
def oneAt (x : Rx) (m : BitVec 7) (t : Thread) (r : Ref) (ty : Ty) (_ : Nat) : Int :=
  refBits r 0 44 + (sgn 7 m.toNat + sgn 64 (xVal t x)) * (ty.width / 8 : Nat)

def vecLoad : Instr → Option VecMem
  | .vld d r x m g => some ⟨d, r, g, true, .x x, rowAt x m⟩
  | .vlds d r x m g => some ⟨d, r, g, false, .x x, strideAt x m⟩
  | .vldg d r x m g => some ⟨d, r, g, false, .v x, gatherAt x m⟩
  | .vldb d r x m g => some ⟨d, r, g, false, .x x, oneAt x m⟩
  | _ => none

def vecStore : Instr → Option VecMem
  | .vst d r x m g => some ⟨d, r, g, true, .x x, rowAt x m⟩
  | .vsts d r x m g => some ⟨d, r, g, false, .x x, strideAt x m⟩
  | .vstg d r x m g => some ⟨d, r, g, false, .v x, gatherAt x m⟩
  | _ => none

/-- Bytes of an element access: an l6 element is reached in its group of three (R142). -/
def elemBytes (t : Ty) : Nat := if t = .l6 then 3 else t.width / 8
def elemAlign (t : Ty) : Nat := if t = .l6 then 1 else t.width / 8

/-- The element of the bytes read (R36). -/
def elemOf (t : Ty) (e : Nat) (bs : List Byte) : Nat := if t = .l6 then leNat bs / 2 ^ (6 * (e % 4)) % 64 else leNat bs

/-- The reference, its type and its sources of a vector access pass the checks before the elements' (R143 steps 1 and 2). -/
def VecReady (s : State) (v : VecMem) (t : Ty) : Prop :=
  Readable s.th (.a v.r) ∧ Source s.th v.x ∧ WellFormedRef s.th.a[v.r] ∧ Ty.ofCode (refBits s.th.a[v.r] 84 4) = some t
    ∧ (t = .l6 → v.l6 = true ∧ regNum s.th v.x % 4 = 0)

/-- The check of element `e` of a vector access passes, and reaches these bytes (R143 step 3). -/
def ElemAt (s : State) (v : VecMem) (t : Ty) (acc : Acc) (e : Nat) (ls : List Loc) : Prop :=
  elemUnit s (whoTh s) (openRef s (whoTh s) s.th.a[v.r] acc) s.th.a[v.r] (v.addr s.th s.th.a[v.r] t e) (elemBytes t)
    (elemAlign t) acc (BitVec.ofNat 64 e) = .ok ls

end Sys2Proof.Claims

/-- R142, R143, R145: when every active element's access passes its check, `vld`, `vlds`, `vldg` and `vldb` write the active
elements from memory, in any object without the side-effect attribute, keep the others, and change no byte. The model's readings:
the index and the stride as signed numbers in exact addresses (log entry 20), and `vd` not read where no element keeps its value
(18). -/
def Obligations.VectorLoadResult : Prop :=
  ∀ (i : Instr) (s u : State) (v : VecMem) (t : Ty) (ls : Nat → List Loc) (vals : List (List Byte)),
    vecLoad i = some v → VecReady s v t → KeptReadable s (laneCount t) (isActive t (govern s.th v.g)) v.d →
    (∀ e, e < laneCount t → isActive t (govern s.th v.g) e = true → ElemAt s v t .load e (ls e)) →
    (openRef s (whoTh s) s.th.a[v.r] .load).sideEffect = false →
    loadUnits s (((List.range (laneCount t)).filter (isActive t (govern s.th v.g))).map ls).dedup = .ok (vals, u) →
    ∃ y : VReg, exec i s = .next (done (withThread u (putV u.th v.d y)))
      ∧ ∀ e, e < laneCount t → lane t.width y e =
          if isActive t (govern s.th v.g) e then elemOf t e (viewBytes s (whoTh s) (ls e)) else lane t.width s.th.v[v.d] e

/-- R144: `vldff` loads the elements up to the first later one whose access faults, keeps the rest of `vd`, and clears the
predicate's bits from that element on; a fault of the first active element is taken. The model's readings: the signed index (log
entry 20), and that with no active element nothing is loaded and the predicate stays (28). -/
def Obligations.VectorFirstFault : Prop :=
  ∀ (s : State) (d : Rv) (r : Ra) (x : Rx) (m : BitVec 7) (g : Rg) (t : Ty) (v : VecMem), v = ⟨d, r, g, true, .x x, rowAt x m⟩ →
    VecReady s v t →
    ((∀ e, e < laneCount t → isActive t (govern s.th g) e = false) → exec (.vldff d r x m g) s = .next (done s))
    ∧ (∀ (first : Nat) (k : Trap), first < laneCount t → isActive t (govern s.th g) first = true →
      (∀ e, e < first → isActive t (govern s.th g) e = false) →
      elemUnit s (whoTh s) (openRef s (whoTh s) s.th.a[r] .load) s.th.a[r] (rowAt x m s.th s.th.a[r] t first) (elemBytes t)
        (elemAlign t) .load (BitVec.ofNat 64 first) = .error (.trap k) → CanHold s 1 →
      exec (.vldff d r x m g) s = .next (faulted s k.cause k.addr k.info k.step k.miss))
    ∧ (∀ (stop : Nat) (ls : Nat → List Loc) (u : State) (vals : List (List Byte)), g ≠ 0 → stop ≤ laneCount t →
      (∃ e, e < stop ∧ isActive t (govern s.th g) e = true) →
      (∀ e, e < stop → isActive t (govern s.th g) e = true → ElemAt s v t .load e (ls e)) →
      (stop < laneCount t → isActive t (govern s.th g) stop = true ∧ ∃ k, elemUnit s (whoTh s)
        (openRef s (whoTh s) s.th.a[r] .load) s.th.a[r] (rowAt x m s.th s.th.a[r] t stop) (elemBytes t) (elemAlign t) .load
        (BitVec.ofNat 64 stop) = .error (.trap k)) →
      KeptReadable s (laneCount t) (fun e => decide (e < stop) && isActive t (govern s.th g) e) d →
      (openRef s (whoTh s) s.th.a[r] .load).sideEffect = false →
      loadUnits s (((List.range stop).filter (isActive t (govern s.th g))).map ls).dedup = .ok (vals, u) →
      ∃ y : VReg, exec (.vldff d r x m g) s = .next (done (withThread u
          (if stop < laneCount t then putP (putV u.th d y) ⟨g.val, by omega⟩
              (BitVec.ofNat 128 ((govern s.th g).toNat % 2 ^ (t.width / 8 * stop))) else putV u.th d y)))
        ∧ ∀ e, e < laneCount t → lane t.width y e =
            if e < stop ∧ isActive t (govern s.th g) e = true then elemOf t e (viewBytes s (whoTh s) (ls e))
            else lane t.width s.th.v[d] e)

/-- R142, R143, R145, R184: when every active element's access passes its check, `vst`, `vsts` and `vstg` make one store of
the active elements, which is performed or held as any store is, and then go on. The element numbered `e` writes its own bytes, in
ascending order of `e`, so that the highest supplies a common byte; an l6 element writes its six bits of its group and no other
bit. The units go in groups, one for each distinct line written, each holding the units that begin in its line, in their order. The
model's readings: the signed index (log entry 20), the bits that an l6 store spares (29), and `vd` read with no active element
(131). -/
def Obligations.VectorStoreResult : Prop :=
  (∀ (i : Instr) (s u : State) (v : VecMem) (t : Ty) (ls : Nat → List Loc) (es : List Nat),
    vecStore i = some v → VecReady s v t → Readable s.th (.v v.d) →
    es = (List.range (laneCount t)).filter (isActive t (govern s.th v.g)) → (∀ e ∈ es, ElemAt s v t .store e (ls e)) →
    storeUnits s (spaceOf s.th.a[v.r])
      (byLine (storeElems ⟨s.th.a[v.r], t, openRef s (whoTh s) s.th.a[v.r] .store⟩ s.th.v[v.d] (es.map fun e => (e, ls e))))
      (match es with
        | [] => 0
        | e :: _ => BitVec.ofInt 64 (v.addr s.th s.th.a[v.r] t e)) = .ok u →
    exec i s = .next (done u))
  ∧ (∀ (v : VecRef) (data : VReg) (es : List (Nat × List Loc)) (n : Nat) (f : Nat × List Loc), v.t ≠ .l6 → es[n]? = some f →
    f.2.length = v.t.width / 8 → (storeElems v data es).length = es.length
      ∧ ∃ unit, (storeElems v data es)[n]? = some unit ∧ unit.length = f.2.length
        ∧ ∀ j l, f.2[j]? = some l → ∃ c, unit[j]? = some c ∧ c.loc = l ∧ c.mask = 0xFF
            ∧ c.val.toNat = lane v.t.width data f.1 / 256 ^ j % 256)
  ∧ (∀ (v : VecRef) (data : VReg) (es : List (Nat × List Loc)), v.t = .l6 → es.Nodup → (∀ f ∈ es, f.2.length = 3 ∧ f.2.Nodup) →
    (∀ f ∈ es, ∀ g ∈ es, f.2 = g.2 → f.1 % 4 = g.1 % 4 → f = g) →
    (∀ f ∈ es, ∀ p l, 6 * (f.1 % 4) ≤ p → p < 6 * (f.1 % 4) + 6 → f.2[p / 8]? = some l →
      ∃ unit ∈ storeElems v data es, ∃ c ∈ unit, c.loc = l ∧ c.mask.getLsbD (p % 8) = true
        ∧ c.val.getLsbD (p % 8) = (lane 8 data f.1).testBit (p - 6 * (f.1 % 4)))
    ∧ (∀ unit ∈ storeElems v data es, ∀ c ∈ unit, ∀ b, c.mask.getLsbD b = true →
      ∃ f ∈ es, ∃ p, p % 8 = b ∧ 6 * (f.1 % 4) ≤ p ∧ p < 6 * (f.1 % 4) + 6 ∧ f.2[p / 8]? = some c.loc))
  ∧ (∀ units : List (List WByte), (byLine units).length = ((units.flatten.map fun c => c.loc.key / 256).dedup).length
    ∧ (∀ g ∈ byLine units, g.Sublist units)
    ∧ (∀ u ∈ units, ∀ c, u.head? = some c → ∃ g ∈ byLine units, u ∈ g ∧ ∀ w ∈ g, ∃ d, w.head? = some d ∧ d.loc.key / 256 = c.loc.key / 256))

/-- R145, R184, R190, R247, R254: a thread's store to local memory or the scratchpad is performed at once, each byte at its own
place, the last of several at one place; one of a gang's thread to another space takes one hold-buffer entry for each group, in order, and changes no byte;
and a thread of the same quad sees a held store at once: after a whole byte has entered a hold buffer of its quad, newer
than every entry of the quad and every own write of the byte, a read of that byte by any thread of the quad gives the value stored. -/
def Obligations.StoreGroups : Prop :=
  (∀ (s t : State) (sp : Nat) (groups : List (List (List WByte))) (fa : Word), (sp = 1 ∨ sp = 2) → MemoryOk s →
    storeUnits s sp groups fa = .ok t → (∀ c ∈ groups.flatten.flatten, c.mask = 0xFF ∧ marked s c.loc = false) →
    (∀ k c, (groups.flatten.flatten.reverse.find? fun c => c.loc.key == k) = some c → t.mem.read k = c.val)
      ∧ (∀ k, (∀ c ∈ groups.flatten.flatten, c.loc.key ≠ k) → t.mem.read k = s.mem.read k)
      ∧ t.th = { s.th with ownAt := some s.cycle } ∧ t.parked = s.parked)
  ∧ (∀ (s u : State) (sp : Nat) (groups : List (List (List WByte))) (fa : Word), sp ≠ 1 → sp ≠ 2 →
    CanHold s groups.length → takeQuota s (whoTh s) (if sp = 0 then (storeLines groups.flatten).length else 0) fa = .ok u →
    requestOver s s.tid true (groups.flatten.flatten.map (·.loc)) = false →
    ∃ t, storeUnits s sp groups fa = .ok t ∧
    (t.core (s.tid / 2)).hold.map (fun e => (e.effect, e.tid, e.cycle))
        = (s.core (s.tid / 2)).hold.map (fun e => (e.effect, e.tid, e.cycle))
          ++ groups.map (fun g => (HeldEffect.store g, s.tid, s.cycle))
      ∧ t.seq = s.seq + groups.length ∧ t.mem = s.mem ∧ t.parked = s.parked ∧ RegsKept s.th t.th [] [] [] [] [])
  ∧ (∀ (s : State) (w : Who) (c : WByte) (unit : List WByte), c ∈ unit → (unit.map (·.loc.key)).Nodup → c.mask = 0xFF →
    s.tid < 4096 → w.inside = true → quadOfCore w.core = s.tid / 8 →
    (∀ j, j < 4 → ∀ e ∈ (s.core (4 * (s.tid / 8) + j)).hold, e.seq < s.seq) →
    (∀ e ∈ s.quads, (∀ o ∈ e.2.outside, o.seq < s.seq) ∧ ∀ o ∈ e.2.overs, o.1 ≤ s.seq) →
    viewByte (entered s (.store [unit]) []) w c.loc = c.val)

namespace Sys2Proof.Claims

/-! ### References made from object records (04 R116 to R118) -/

/-- The record that a context's table holds for an object number below 2^36 (R308 to R310): present, and not malformed (R311). -/
def Record (s : State) (n : Nat) (o : ObjRec) : Prop :=
  objRecord s (contextOf s s.th.gang) n = .ok (some o) ∧ o.malformed = false

/-- The cause that `achk` gives for a load or a store of `n` bytes (R118): that of R70 steps 1 to 5; for a global reference that of
its object's absence, record, tag, permission, key, and shape; in the other spaces that of R66 and R71; and 0 where none of them fails. -/
def AchkCause (s : State) (r : Ref) (n : Nat) (st : Bool) (c : Nat) : Prop :=
  refFault r false = some c
    ∨ (WellFormedRef r ∧ spaceOf r = 0 ∧ ((Absent s (refBits r 44 36) ∧ c = 0x08)
      ∨ ∃ o, Present s (refBits r 44 36) o ∧ ((o.malformed = true ∧ c = 0x02)
        ∨ (o.malformed = false ∧ refBits r 96 32 ≠ o.gen ∧ c = 0x08)
        ∨ (o.malformed = false ∧ refBits r 96 32 = o.gen ∧ ¬(Permits o st ∧ KeyFits s o) ∧ c = 0x09)
        ∨ (o.malformed = false ∧ refBits r 96 32 = o.gen ∧ Permits o st ∧ KeyFits s o
          ∧ (((2 ^ 44 < n ∨ ∃ j, j < n ∧ ¬InShape o (refBits r 0 44 + j)) ∧ c = 0x06)
            ∨ (n ≤ 2 ^ 44 ∧ (∀ j, j < n → InShape o (refBits r 0 44 + j)) ∧ c = 0))))))
    ∨ (WellFormedRef r ∧ spaceOf r ≠ 0 ∧ s.tid < 4096
      ∧ (SpaceFault s r (refBits r 0 44) n st c ∨ ((∀ k, ¬SpaceFault s r (refBits r 0 44) n st k) ∧ c = 0)))

/-- What `acoord` adds for a row and a column (R117). -/
def coordAdd (o : ObjRec) (row col : Nat) : Nat :=
  (if o.dims = 0 then 0 else row * o.stride.getD (o.dims - 1) 0)
    + (if o.type = 14 then col / 4 else col) * o.stride.getD o.dims 0

/-! ### Tiles (06 R150 to R154) -/

/-- The engine of a tile register of the current thread (R16, R17). -/
def tileEngine (s : State) (d : Rt) : Nat := 2 * (s.tid / 8) + d.val / 8

/-- Element `c` of row `i` of a tile, for elements that take `w` bits of a row (R151). -/
def cell (w : Nat) (img : TileImage) (i c : Nat) : Nat := img.data.toNat / 2 ^ (1024 * i + w * c) % 2 ^ w

/-- Bits of an element in a row: six for l6 (R151). -/
def cellBits (t : Ty) : Nat := if t = .l6 then 6 else t.width

/-- The scale of element `c` of row `i` (R150): none where the type takes none or the tag is 0. -/
def cellScale (t : Ty) (img : TileImage) (i c : Nat) : Option Nat :=
  if (t = .e4m3 ∨ t = .e5m2 ∨ t = .l6) ∧ img.tag ≠ 0 then some (img.scale.toNat / 2 ^ (8 * (16 * i + c / 2 ^ img.tag)) % 256)
  else none

/-- A tile register's content; an empty tile reads as zeros (R153). -/
def tileVal (t : Thread) (r : Rt) : TileImage :=
  match t.t[r] with
  | none => { data := 0, scale := 0, tag := 0 }
  | some k => { data := k.data, scale := k.scale, tag := k.tag }

/-- `td` written, in physical tile `p` (R153, R154). -/
def putT (t : Thread) (d : Rt) (img : TileImage) (p : Nat) : Thread :=
  { t with t := t.t.set d (some { data := img.data, scale := img.scale, tag := img.tag, phys := p })
           pend := t.pend.filter fun e => e.1 != .t d, poison := t.poison.filter fun e => e.1 != .t d }

/-- `td` made empty. -/
def dropT (t : Thread) (d : Rt) : Thread :=
  { t with t := t.t.set d none, pend := t.pend.filter fun e => e.1 != .t d, poison := t.poison.filter fun e => e.1 != .t d }

/-- The instruction has written `img` to `td` in a tile of its engine that was free, has changed no other register and no
byte, and goes on. -/
def TileWritten (s : State) (base : Thread) (d : Rt) (img : TileImage) (t : State) : Prop :=
  (∃ p ∈ freeTiles s (tileEngine s d), t.th = goNext (putT base d img p)) ∧ MemoryAndOthersKept s t ∧ t.cores = s.cores

/-- The engine of a register has a free physical tile for the thread: one granted to it, or one granted to no other thread
(R154, R277). -/
def TileFree (s : State) (d : Rt) : Prop := 1 ≤ tilesFor s (tileEngine s d) s.tid

/-- An unscaled tile (R166). -/
def Plain (img : TileImage) : Prop := img.scale = 0 ∧ img.tag = 0

/-- Bits of a fill's element (R164). -/
def fillBits : Width → Nat
  | .b => 8 | .h => 16 | .w => 32 | .d => 64

/-! ### Multiplies (02 R47 to R51; 06 R165 to R168) -/

/-- The products of K-step `n`, of width `g`, from the product at each k; a pruned position has none (R47, R50). -/
def stepSums (m : Mode) (fzo : Bool) (g : Nat) (p : Nat → Option Term) (acc : FVal) : Nat → FVal × Flags
  | 0 => (acc, 0)
  | n + 1 =>
    let r := stepSums m fzo g p acc n
    let q := roundSum .f32 m fzo (r.1.term :: (List.range g).filterMap fun i => p (g * n + i))
    (fval .f32 false q.1, r.2 ||| q.2)

/-- Width of a K-step (R47). -/
def kStep (t : Ty) : Nat := if t = .f16 ∨ t = .bf16 then 4 else if t = .l6 then 16 else 8

/-- A term times a scale (R48). -/
def timesScale (k : Option Nat) (t : Term) : Term :=
  match k with
  | none => t
  | some e => t.scaled ((e : Int) - 127) (e == 255)

/-- A multiply: accumulator, tiles read, types, modifiers, the dense length, A[i][k] with its scale (none where pruned), and
B[k][j] with its scale. -/
structure MulOp where
  d : Rt
  srcs : List Rt
  t : Ty
  tb : Ty
  fzi : Bool
  dyn : Bool
  fzo : Bool
  z : Bool
  tr : Bool
  len : Nat
  a : Nat → Nat → Option (Nat × Option Nat)
  b : Nat → Nat → Nat × Option Nat

/-- N, M and b of a pattern (R167). -/
def pattern : Nm → Nat × Nat × Nat
  | .n2m4 => (2, 4, 2) | .n1m2 => (1, 2, 1) | .n1m4 => (1, 4, 2) | .n2m8 => (2, 8, 3)

/-- The index of kept element `e` of row `i` (R168). -/
def keptIndex (nm : Nm) (meta' : TileImage) (i e : Nat) : Nat := cell (pattern nm).2.2 meta' i e

/-- The place of kept element `e` in its row of A (R168). -/
def keptPlace (nm : Nm) (meta' : TileImage) (i e : Nat) : Nat :=
  e / (pattern nm).1 * (pattern nm).2.1 + keptIndex nm meta' i e

/-- The indices of group `q` of row `i` strictly ascend (R168). -/
def Ascends (nm : Nm) (meta' : TileImage) (i q : Nat) : Prop :=
  (pattern nm).1 = 2 → keptIndex nm meta' i (2 * q) < keptIndex nm meta' i (2 * q + 1)

/-- The dense multiplies, in one shape. -/
def denseOp (s : State) (d a b : Rt) (t tb : Ty) (fzi dyn fzo z tr : Bool) : MulOp :=
  { d, srcs := [a, b], t, tb, fzi, dyn, fzo, z, tr, len := t.perRow
    a := fun i k => some (cell (cellBits t) (tileVal s.th a) i k, cellScale t (tileVal s.th a) i k)
    b := fun j k => (cell (cellBits tb) (tileVal s.th b) j k, cellScale tb (tileVal s.th b) j k) }

def mulOp (s : State) : Instr → Option MulOp
  | .tmma d a b t i y o z => some (denseOp s d a b t t i y o z false)
  | .tmmat d a b t i y o z => some (denseOp s d a b t t i y o z true)
  | .tmmax d a b t tb i y o z => some (denseOp s d a b t tb i y o z false)
  | .tmmas d a b m t nm i y o z =>
    let tile := fun (k : Nat) => tileVal s.th (Fin.ofNat 16 (b.val + k / t.perRow))
    some { d, srcs := [a, m] ++ (List.range nm.ratio).map fun k => Fin.ofNat 16 (b.val + k), t, tb := t
           fzi := i, dyn := y, fzo := o, z, tr := false, len := nm.ratio * t.perRow
           a := fun i k => ((List.range t.perRow).find? fun e => keptPlace nm (tileVal s.th m) i e == k).map fun e =>
             (cell (cellBits t) (tileVal s.th a) i e, none)
           b := fun j k => (cell (cellBits t) (tile k) j (k % t.perRow), cellScale t (tile k) j (k % t.perRow)) }
  | _ => none

/-- The product at k of element (i, j) (R48). -/
def MulOp.product (o : MulOp) (i j k : Nat) : Option Term :=
  (o.a i k).map fun x =>
    let y := o.b j k
    timesScale y.2 (timesScale x.2 (if o.t = .l6 then l6Product x.1 y.1 else mulTerm (fval o.t o.fzi x.1) (fval o.tb o.fzi y.1)))

/-- The accumulator element that (i, j) goes to: (j, i) in the transposed form (R166). -/
def MulOp.element (o : MulOp) (s : State) (r c : Nat) : Nat × Flags :=
  let i := if o.tr then c else r
  let j := if o.tr then r else c
  let old := if o.z then 0 else cell 32 (tileVal s.th o.d) r c
  if o.t = .i8 then
    ((((old : Int) + ((List.range o.len).map fun k => match o.a i k with
      | none => 0
      | some x => sgn 8 x.1 * sgn 8 (o.b j k).1).sum) % 2 ^ 32).toNat, 0)
  else
    let m := if o.dyn then modeOf s.th.fcsr else .rne
    let r := stepSums m o.fzo (kStep o.t) (o.product i j) (fval .f32 o.fzi old) (o.len / kStep o.t)
    (bitsOf .f32 r.1, r.2)

/-- The flags of every element together (R157). -/
def gridFlags (f : Nat → Nat → Nat × Flags) : Flags :=
  allFlags 1024 (fun _ => true) fun e => (f (e / 32) (e % 32)).2

/-! ### Convert, quantise, scale, add (06 R169 to R172) -/

/-- An encoded rounding mode (R41). -/
def theMode (t : Thread) : Rm → Mode
  | .rne => .rne
  | .rtz => .rtz
  | .rup => .rup
  | .rdn => .rdn
  | .dyn => modeOf t.fcsr

/-- An instruction of major 0x33: td, its sources, bits of an element of td, elements of a row, and the value of each
element with the flags it raises; the scale side and the tag. -/
structure GridOp where
  d : Rt
  srcs : List Rt
  w : Nat
  n : Nat
  f : Nat → Nat → Nat × Flags
  scale : Nat → Nat
  tag : Nat

/-- R170: an element converted, at its scaled value where its tile has scales. -/
def convertCell (tin tout : Ty) (m : Mode) (sat fzi fzo : Bool) (x : Nat) (scale : Option Nat) : Nat × Flags :=
  match scale with
  | none => convert tin tout m sat fzi fzo x
  | some e => convertF tout m sat fzo (if e = 255 then .nan false else (fval tin fzi x).scale ((e : Int) - 127))

def gridOp (s : State) : Instr → Option GridOp
  | .tcvt d a tout tin rm sat i o p =>
    let x := tileVal s.th a
    let ni := tin.perRow
    let no := tout.perRow
    let one := fun (r c : Nat) =>
      convertCell tin tout (theMode s.th rm) sat i o (cell (cellBits tin) x r c) (cellScale tin x r c)
    some { d, srcs := a :: (if no ≤ ni then [] else [d]), w := cellBits tout, n := no, scale := fun _ => 0, tag := 0
           f := fun r c => if no ≤ ni then one r (p.val * no + c)
             else if p.val * ni ≤ c ∧ c < p.val * ni + ni then one r (c - p.val * ni)
             else (cell (cellBits tout) (tileVal s.th d) r c, 0) }
  | .tqnt d a blog t rm sat i o p =>
    let val := fun (r c : Nat) => fval .f32 i (cell 32 (tileVal s.th a) r c)
    let e := fun (r q : Nat) => blockScale t ((List.range (2 ^ blog.val)).map fun j => val r (q * 2 ^ blog.val + j))
    some { d, srcs := [a, d], w := cellBits t, n := 128, tag := blog.val
           f := fun r c => if 32 * p.val ≤ c ∧ c < 32 * p.val + 32 then
               convertF t (theMode s.th rm) sat o
                 ((val r (c - 32 * p.val)).scale (127 - (e r ((c - 32 * p.val) / 2 ^ blog.val) : Int)))
             else (cell (cellBits t) (tileVal s.th d) r c, 0)
           scale := fun k =>
             let q := k % 16
             let first := 32 * p.val / 2 ^ blog.val
             if first ≤ q ∧ q < first + 32 / 2 ^ blog.val then e (k / 16) (q - first)
             else (tileVal s.th d).scale.toNat / 2 ^ (8 * k) % 256 }
  | .tscl d a b _ rm i o k =>
    some { d, srcs := [a, b], w := 32, n := 32, scale := fun _ => 0, tag := 0
           f := fun r c => roundSum .f32 (theMode s.th rm) o [mulTerm (fval .f32 i (cell 32 (tileVal s.th a) r c))
             (fval .f32 i (cell 32 (tileVal s.th b) (if k = .column then 0 else r) (if k = .row then 0 else c)))] }
  | .tadd d a b t rm i o =>
    some { d, srcs := [a, b], w := 32, n := 32, scale := fun _ => 0, tag := 0
           f := fun r c =>
             let x := cell 32 (tileVal s.th a) r c
             let y := cell 32 (tileVal s.th b) r c
             if t = .i32 then ((x + y) % 2 ^ 32, 0)
             else roundSum .f32 (theMode s.th rm) o [(fval .f32 i x).term, (fval .f32 i y).term] }
  | _ => none

def GridOp.flags (o : GridOp) : Flags :=
  allFlags (32 * o.n) (fun _ => true) fun e => (o.f (e / o.n) (e % o.n)).2

/-- The tile that a major 0x33 instruction writes. -/
def GridOp.Holds (o : GridOp) (img : TileImage) : Prop :=
  img.tag = o.tag ∧ (∀ k, k < 512 → img.scale.toNat / 2 ^ (8 * k) % 256 = o.scale k)
    ∧ ∀ r c, r < 32 → c < o.n → cell o.w img r c = (o.f r c).1 % 2 ^ o.w

end Sys2Proof.Claims

/-- R116 to R118: `amake` builds the reference of a present object from its record, and faults with 0x08 for a number outside
1 to 2^36 − 1 and for an absent object; `acoord` adds the offset of two coordinates, and faults outside the shape and inside
an l6 group; `achk` writes the causes of a load and of a store, each given by the first check that fails, and never faults. Each
changes one register. The model's choice: a record is read without a look at its line's poison marker (log entry 108). -/
def Obligations.ReferenceRecords : Prop :=
  (∀ (s : State) (d : Ra) (a b : Rx) (o : ObjRec), ReadableX s.th a → ReadableX s.th b →
    1 ≤ xVal s.th a → xVal s.th a < 2 ^ 36 → Record s (xVal s.th a) o →
    exec (.amake d a b) s = .next (withThread s (goNext (putA s.th d (BitVec.ofNat 128
      (o.gen * 2 ^ 96 + o.blog * 2 ^ 90 + o.sk * 2 ^ 88 + o.type * 2 ^ 84 + xVal s.th a * 2 ^ 44 + xVal s.th b % 2 ^ 44))))))
  ∧ (∀ (s : State) (d : Ra) (a b : Rx), ReadableX s.th a → ReadableX s.th b → CanHold s 1 →
    ((xVal s.th a = 0 ∨ 2 ^ 36 ≤ xVal s.th a) →
      exec (.amake d a b) s = .next (faulted s 0x08 (word (xVal s.th a)) 0 0 none))
    ∧ (xVal s.th a ≠ 0 → xVal s.th a < 2 ^ 36 → objRecord s (contextOf s s.th.gang) (xVal s.th a) = .ok none →
      exec (.amake d a b) s
        = .next (faulted s 0x08 (word (xVal s.th a)) 0 0 (some { obj := xVal s.th a, off := 0 }))))
  ∧ (∀ (s : State) (d a : Ra) (b c : Rx) (o : ObjRec), Readable s.th (.a a) → ReadableX s.th b → ReadableX s.th c →
    WellFormedRef s.th.a[a] → spaceOf s.th.a[a] = 0 → Record s (refBits s.th.a[a] 44 36) o → refBits s.th.a[a] 96 32 = o.gen →
    let rows := if o.dims = 0 then 1 else o.ext.getD (o.dims - 1) 0
    let cols := o.ext.getD o.dims 0
    (xVal s.th b < rows → xVal s.th c < cols → (o.type = 14 → xVal s.th c % 4 = 0) →
      exec (.acoord d a b c) s = .next (withThread s (goNext (putA s.th d
        (refWith s.th.a[a] 0 44 (refBits s.th.a[a] 0 44 + coordAdd o (xVal s.th b) (xVal s.th c)))))))
    ∧ ((rows ≤ xVal s.th b ∨ cols ≤ xVal s.th c) → CanHold s 1 →
      exec (.acoord d a b c) s = .next (faulted s 0x06 (word (refBits s.th.a[a] 0 44)) 0 0 none))
    ∧ (xVal s.th b < rows → xVal s.th c < cols → o.type = 14 → xVal s.th c % 4 ≠ 0 → CanHold s 1 →
      exec (.acoord d a b c) s = .next (faulted s 0x05 0 0 0 none)))
  ∧ (∀ (s : State) (d : Rx) (a : Ra) (b : Rx) (ld st : Nat), Readable s.th (.a a) → ReadableX s.th b →
    achkCause s s.th.a[a] (if xVal s.th b = 0 then 1 else xVal s.th b) .load = .ok ld →
    achkCause s s.th.a[a] (if xVal s.th b = 0 then 1 else xVal s.th b) .store = .ok st →
    exec (.achk d a b) s = .next (withThread s (goNext (putX s.th d (word (ld + 256 * st))))))
  ∧ (∀ (s : State) (d : Rx) (a : Ra) (b : Rx) (ld st : Nat), Readable s.th (.a a) → ReadableX s.th b →
    AchkCause s s.th.a[a] (if xVal s.th b = 0 then 1 else xVal s.th b) false ld →
    AchkCause s s.th.a[a] (if xVal s.th b = 0 then 1 else xVal s.th b) true st →
    exec (.achk d a b) s = .next (withThread s (goNext (putX s.th d (word (ld + 256 * st))))))

/-- R153, R164, R173: `tzero`, `tmov` and `tfill`, and the row, column and transpose moves: what each writes to its tile or
vector register; nothing else changes. A row or column out of range reads as zeros and writes nothing. -/
def Obligations.TileMoves : Prop :=
  (∀ (s : State) (d : Rt), ∃ t, exec (.tzero d) s = .next t ∧ t.th = goNext (dropT s.th d) ∧ MemoryAndOthersKept s t)
  ∧ (∀ (s : State) (d a : Rt), (Instr.tmov d a).wf = true → Readable s.th (.t a) →
    (s.th.t[a] = none → ∃ t, exec (.tmov d a) s = .next t ∧ t.th = goNext (dropT s.th d) ∧ MemoryAndOthersKept s t)
    ∧ (s.th.t[a] ≠ none → TileFree s d → ∃ t, exec (.tmov d a) s = .next t ∧ TileWritten s s.th d (tileVal s.th a) t))
  ∧ (∀ (s : State) (d : Rt) (k : Width) (x : Rx), ReadableX s.th x → TileFree s d →
    ∃ t img, exec (.tfill d k x) s = .next t ∧ TileWritten s s.th d img t ∧ Plain img
      ∧ ∀ e, e < 32768 / fillBits k → img.data.toNat / 2 ^ (fillBits k * e) % 2 ^ fillBits k = xVal s.th x % 2 ^ fillBits k)
  ∧ (∀ (s : State) (a : Rt) (k : Rx) (v : Rv), Readable s.th (.t a) → ReadableX s.th k →
    exec (.trdr a k v) s = .next (withThread s (goNext (putV s.th v (if xVal s.th k < 32
      then BitVec.ofNat 1024 (cell 1024 (tileVal s.th a) (xVal s.th k) 0) else 0)))))
  ∧ (∀ (s : State) (d : Rt) (k : Rx) (v : Rv), ReadableX s.th k → Readable s.th (.v v) →
    (32 ≤ xVal s.th k → exec (.twrr d k v) s = .next (done s))
    ∧ (xVal s.th k < 32 → Readable s.th (.t d) → TileFree s d →
      ∃ t img, exec (.twrr d k v) s = .next t ∧ TileWritten s s.th d img t ∧ img.scale = (tileVal s.th d).scale
        ∧ img.tag = (tileVal s.th d).tag
        ∧ ∀ i, i < 32 → cell 1024 img i 0 = if i = xVal s.th k then s.th.v[v].toNat else cell 1024 (tileVal s.th d) i 0))
  ∧ (∀ (s : State) (a : Rt) (t : Ty) (k : Rx) (v : Rv), (Instr.trdc a t k v).wf = true → Readable s.th (.t a) → ReadableX s.th k →
    ∃ y : VReg, exec (.trdc a t k v) s = .next (withThread s (goNext (putV s.th v y)))
      ∧ ∀ i, i < 1024 / t.width → lane t.width y i =
          if i < 32 ∧ xVal s.th k < t.perRow then cell t.width (tileVal s.th a) i (xVal s.th k) else 0)
  ∧ (∀ (s : State) (d : Rt) (t : Ty) (k : Rx) (v : Rv), (Instr.twrc d t k v).wf = true → ReadableX s.th k → Readable s.th (.v v) →
    (t.perRow ≤ xVal s.th k → exec (.twrc d t k v) s = .next (done s))
    ∧ (xVal s.th k < t.perRow → Readable s.th (.t d) → TileFree s d →
      ∃ u img, exec (.twrc d t k v) s = .next u ∧ TileWritten s s.th d img u ∧ img.scale = (tileVal s.th d).scale
        ∧ img.tag = (tileVal s.th d).tag
        ∧ ∀ i c, i < 32 → c < t.perRow → cell t.width img i c =
            if c = xVal s.th k then lane t.width s.th.v[v] i else cell t.width (tileVal s.th d) i c))
  ∧ (∀ (s : State) (d a : Rt) (t : Ty), (Instr.ttrn d a t).wf = true → Readable s.th (.t a) → TileFree s d →
    ∃ u img, exec (.ttrn d a t) s = .next u ∧ TileWritten s s.th d img u ∧ Plain img
      ∧ ∀ h i j, h < t.perRow / 32 → i < 32 → j < 32 →
          cell t.width img j (32 * h + i) = cell t.width (tileVal s.th a) i (32 * h + j))

/-- R47 to R51, R165 to R168: each element of the accumulator of `tmma`, `tmmat`, `tmmax` and `tmmas` is the sum of its
products in the order of R47, with scales, or the exact i8 sum modulo 2^32; the flags of all elements are raised, and
an enabled one faults; the metadata of `tmmas` that do not ascend, and then a scaled A, fault first. -/
def Obligations.TileMultiply : Prop :=
  (∀ (i : Instr) (s : State) (o : MulOp), i.wf = true → mulOp s i = some o → (∀ r ∈ o.srcs, Readable s.th (.t r)) →
    (o.z = false → Readable s.th (.t o.d)) →
    (∀ d a b m t nm x y f z, i = .tmmas d a b m t nm x y f z →
      (∀ r q, r < 32 → q < t.perRow / (pattern nm).1 → Ascends nm (tileVal s.th m) r q)
        ∧ (t = .e4m3 ∨ t = .e5m2 ∨ t = .l6 → (tileVal s.th a).tag = 0)) →
    (gridFlags (o.element s) &&& enabled s.th = 0 → TileFree s o.d →
      ∃ t img, exec i s = .next t ∧ TileWritten s (flagged s.th (gridFlags (o.element s))) o.d img t ∧ Plain img
        ∧ ∀ r c, r < 32 → c < 32 → cell 32 img r c = (o.element s r c).1)
    ∧ (gridFlags (o.element s) &&& enabled s.th ≠ 0 → CanHold s 1 →
      exec i s = .next (faulted s 0x0E 0 ((gridFlags (o.element s)).setWidth 64) 0 none)))
  ∧ (∀ (s : State) (o : MulOp) (d a b m : Rt) (t : Ty) (nm : Nm) (x y f z : Bool) (r q : Nat),
    (Instr.tmmas d a b m t nm x y f z).wf = true → mulOp s (.tmmas d a b m t nm x y f z) = some o →
    (∀ r ∈ o.srcs, Readable s.th (.t r)) → (z = false → Readable s.th (.t d)) → CanHold s 1 →
    r < 32 → q < t.perRow / (pattern nm).1 → ¬Ascends nm (tileVal s.th m) r q →
    (∀ r' q', r' < 32 → q' < t.perRow / (pattern nm).1 → (r' < r ∨ (r' = r ∧ q' < q)) → Ascends nm (tileVal s.th m) r' q') →
    exec (.tmmas d a b m t nm x y f z) s = .next (faulted s 0x02 0 (word (256 * r + q)) 0 none))
  ∧ (∀ (s : State) (o : MulOp) (d a b m : Rt) (t : Ty) (nm : Nm) (x y f z : Bool),
    (Instr.tmmas d a b m t nm x y f z).wf = true → mulOp s (.tmmas d a b m t nm x y f z) = some o →
    (∀ r ∈ o.srcs, Readable s.th (.t r)) → (z = false → Readable s.th (.t d)) → CanHold s 1 →
    (∀ r q, r < 32 → q < t.perRow / (pattern nm).1 → Ascends nm (tileVal s.th m) r q) →
    (t = .e4m3 ∨ t = .e5m2 ∨ t = .l6) → (tileVal s.th a).tag ≠ 0 →
    exec (.tmmas d a b m t nm x y f z) s = .next (faulted s 0x02 0 0 0 none))

/-- R169 to R172: every element, scale byte and the tag that `tcvt`, `tqnt`, `tscl` and `tadd` write; the flags of all
elements are raised, and an enabled one faults. -/
def Obligations.TileConvert : Prop :=
  ∀ (i : Instr) (s : State) (o : GridOp), i.wf = true → gridOp s i = some o → (∀ r ∈ o.srcs, Readable s.th (.t r)) →
    (o.flags &&& enabled s.th = 0 → TileFree s o.d →
      ∃ t img, exec i s = .next t ∧ TileWritten s (flagged s.th o.flags) o.d img t ∧ o.Holds img)
    ∧ (o.flags &&& enabled s.th ≠ 0 → CanHold s 1 → exec i s = .next (faulted s 0x0E 0 (o.flags.setWidth 64) 0 none))

namespace Sys2Proof.Claims

/-! ### Tiles in memory (06 R158 to R163, R180 to R182) -/

/-- The bytes of a tile's access units, each with the bit of the tile register where it belongs. -/
def placed (us : List TileUnit) : List (Loc × Nat) :=
  us.flatMap fun u => (List.range u.locs.length).filterMap fun j => (u.locs[j]?).map fun l => (l, u.pos + 8 * j)

/-- The units of unused bytes: bits 768 to 1,023 of an l6 row (R151), and the scale bytes past the last block of a row
(R150). -/
def unused (v : TileRef) (u : TileUnit) : Bool :=
  if u.pos < 32768 then v.t == .l6 && decide (768 ≤ u.pos % 1024)
  else decide (v.t.perRow / 2 ^ v.blog ≤ (u.pos - 32768) / 8 % 16)

/-- The number of bytes at their places. -/
def gathered (view : Loc → Byte) (ps : List (Loc × Nat)) : Nat := (ps.map fun p => (view p.1).toNat * 2 ^ p.2).sum

/-- The tile that a `tld` makes of its units: unused bytes are zero. -/
def loadedTile (s : State) (v : TileRef) (us : List TileUnit) : TileImage :=
  TileImage.ofNat (v.blog * 2 ^ 36864 + gathered (viewByte s (whoTh s)) (placed (us.filter fun w => !unused v w)))

/-- The data and scale bits of a tile register as one number. -/
def tileNat (img : TileImage) : Nat := img.data.toNat + img.scale.toNat * 2 ^ 32768

/-- The bytes that a `tst` writes to its units: unused ones as zero. -/
def tileStore (v : TileRef) (img : TileImage) (us : List TileUnit) : List (List WByte) :=
  us.map fun u => (List.range u.locs.length).filterMap fun j => (u.locs[j]?).map fun l =>
    { loc := l, val := if unused v u then 0 else BitVec.ofNat 8 (tileNat img / 2 ^ (u.pos + 8 * j)), mask := 0xFF }

/-- The physical tile of a register, as a hold entry names it (R154). -/
def tileNamed (s : State) (r : Rt) : List (Nat × Nat) :=
  match s.th.t[r] with
  | none => []
  | some k => [(tileEngine s r, k.phys)]

/-- Elements, or groups of four for l6, of a row of a tile, and the bytes of each. -/
def rowCells (t : Ty) : Nat := if t = .l6 then 32 else t.perRow

/-- Row stride and column stride of an object's two innermost dimensions (R117). -/
def strides (o : ObjRec) : Nat × Nat :=
  (if o.dims = 0 then 0 else o.stride.getD (o.dims - 1) 0, o.stride.getD o.dims 0)

/-- Where element `c` of tile row `i` lies in its object (R159). -/
def elementAt (v : TileRef) (o : ObjRec) (tr : Bool) (xr xc i c : Nat) : Nat :=
  let c := if v.t = .l6 then 4 * c else c
  let row := if tr then xr + c else xr + i
  let col := if tr then xc + i else xc + c
  refBits v.r 0 44 + row * (strides o).1 + (if v.t = .l6 then col / 4 else col) * (strides o).2

/-- The tiles of a half that a mask names, ascending. -/
def named (half : Fin 2) (m : BitVec 8) : List Rt :=
  ((List.range 8).filter fun i => m.getLsbD i).map fun i => Fin.ofNat 16 (8 * half.val + i)

/-- The header of an image (R181, R182). -/
def savedHeader (t : Thread) (half : Fin 2) (m : BitVec 8) : List Byte :=
  ((List.range 8).map fun i =>
    if m.getLsbD i then BitVec.ofNat 8 (match t.t[(Fin.ofNat 16 (8 * half.val + i) : Rt)] with
      | none => 0x40
      | some k => 0xC0 + k.tag % 16) else 0) ++ List.replicate 56 0

/-- The 4,608 bytes of a tile in an image. -/
def savedBytes (img : TileImage) : List Byte :=
  ((List.range 4096).map fun n => BitVec.ofNat 8 (img.data.toNat / 2 ^ (8 * n)))
    ++ (List.range 512).map fun n => BitVec.ofNat 8 (img.scale.toNat / 2 ^ (8 * n))

/-- Bytes written one by one. -/
def oneByOne (ls : List Loc) (bs : List Byte) : List (List WByte) :=
  (List.zip ls bs).map fun e => [{ loc := e.1, val := e.2, mask := 0xFF }]

/-- Header byte of a tile. -/
def headByte (h : List Byte) (r : Rt) : Nat := (h.getD (r.val % 8) 0).toNat

/-- A header that `trstr` accepts for a tile (R182). -/
def HeaderOk (h : List Byte) (r : Rt) : Prop :=
  headByte h r / 64 % 2 = 1 ∧ headByte h r / 16 % 4 = 0 ∧ (∀ b ∈ h.drop 8, b = 0)
    ∧ headByte h r % 16 ≠ 1 ∧ headByte h r % 16 ≠ 2 ∧ headByte h r % 16 < 8

/-- The tile of an image's bytes (R181). -/
def restored (h : List Byte) (r : Rt) (bs : List Byte) : TileImage :=
  { data := BitVec.ofNat 32768 (leNat (bs.take 4096)), scale := BitVec.ofNat 4096 (leNat (bs.drop 4096)), tag := headByte h r % 16 }

/-! ### The baton ring (06 R174 to R178) -/

/-- A thread has joined an endpoint, as the retired instructions left it. -/
def Joined (s : State) (e : Nat) : Prop := ∃ j, (s.engine e).view = some j ∧ j.owner = s.tid

/-- Another thread has. -/
def JoinedByOther (s : State) (e : Nat) : Prop := ∃ j, (s.engine e).view = some j ∧ j.owner ≠ s.tid

/-- The first row of R176 but for its last condition. -/
def RingMask (s : State) (e x : Nat) : Prop :=
  x < 2 ^ 16 ∧ x.testBit (e % 16) = true ∧ 2 ≤ ((List.range 16).filter fun p => x.testBit p).length
    ∧ ∃ g, s.gangs.get? s.th.gang = some g ∧ ∀ p, p < 16 → x.testBit p = true → ∃ c ∈ g.cores, c / 4 = (e / 16 * 16 + p) / 2

/-- No join or leave of the thread is still held for an endpoint. -/
def JoinReleased (s : State) (e : Nat) : Prop := ∀ p ∈ pendingJoins s e, p.1 ≠ s.tid

/-- The oldest tile that waits in an endpoint's slots. -/
def Oldest (s : State) (e : Nat) (k : RingSlot) : Prop := (s.engine e).slots.find? (fun k => !k.consumed) = some k

/-- The next set position above a ring position in a mask, wrapping (R174). -/
def NextSet (mask pos p : Nat) : Prop :=
  ∃ d, 1 ≤ d ∧ d ≤ 16 ∧ p = (pos + d) % 16 ∧ mask.testBit p = true ∧ ∀ f, 1 ≤ f → f < d → mask.testBit ((pos + f) % 16) = false

/-- The effects in a core's hold buffer, oldest first. -/
def heldBy (s : State) (c : Nat) : List HeldEffect := (s.core c).hold.map (·.effect)

end Sys2Proof.Claims

/-- R158 to R163: `tld` fills td from its access units and `tst` makes one store of them, which names the source tile; where
the units of a global block and of an image in local memory or the scratchpad lie; a `tld` from a side-effect object is a held
request. -/
def Obligations.TileMemory : Prop :=
  (∀ (s u : State) (d : Rt) (a : Ra) (tr : Bool) (r c : Rx) (v : TileRef) (o : Opened) (us : List TileUnit)
      (vals : List (List Byte)), ReadableX s.th r → ReadableX s.th c → tileRef s a tr none = .ok v →
    tileUnits s v tr (xVal s.th r) (xVal s.th c) .load = .ok (o, us) →
    (o.sideEffect = false → loadUnits s (us.map fun k => k.locs) = .ok (vals, u) → TileFree u d →
      ∃ t, exec (.tld d a tr r c) s = .next t ∧ TileWritten u u.th d (loadedTile u v us) t)
    ∧ (o.sideEffect = true → CanHold s 1 →
      ∃ t, exec (.tld d a tr r c) s = .next t ∧ t.th.pc = s.th.pc + 4 ∧ t.mem = s.mem ∧ t.th.t = s.th.t
        ∧ (.t d, s.seq) ∈ t.th.pend ∧ (heldBy t (s.tid / 2)).length = (heldBy s (s.tid / 2)).length + 1))
  ∧ (∀ (s u : State) (d : Rt) (a : Ra) (tr : Bool) (r c : Rx) (v : TileRef) (o : Opened) (us : List TileUnit),
    ReadableX s.th r → ReadableX s.th c → Readable s.th (.t d) → tileRef s a tr (some (tileVal s.th d).tag) = .ok v →
    tileUnits s v tr (xVal s.th r) (xVal s.th c) .store = .ok (o, us) →
    storeUnits s (spaceOf v.r) [tileStore v (tileVal s.th d) us]
        (word (((us.flatMap fun k => k.locs.map fun l => l.off)).headD 0)) [tileNamed s d] = .ok u →
    exec (.tst d a tr r c) s = .next (done u))
  ∧ (∀ (s : State) (v : TileRef) (k : ObjRec) (slot : Nat) (tr : Bool) (xr xc : Nat) (acc : Acc) (us : List TileUnit),
    spaceOf v.r = 0 → v.scaled = false → tileUnits s v tr xr xc acc = .ok (.object k slot, us) →
    us.length = 32 * rowCells v.t ∧ ∀ i c, i < 32 → c < rowCells v.t → ∃ w, us[i * rowCells v.t + c]? = some w
      ∧ w.pos = 1024 * i + 8 * elemBytes v.t * c
      ∧ elemUnit s (whoTh s) (.object k slot) v.r (elementAt v k tr xr xc i c) (elemBytes v.t) (elemAlign v.t) acc
          (word (256 * i + c)) = .ok w.locs)
  ∧ (∀ (s : State) (v : TileRef) (xr n : Nat), s.tid < 4096 → WellFormedRef v.r → (spaceOf v.r = 1 ∨ spaceOf v.r = 2) →
    v.scaled = false → v.t ≠ .l6 → n = refBits v.r 0 44 + 4096 * xr → n % 128 = 0 → n + 4096 ≤ nearBytes s (spaceOf v.r) →
    Clean s (nearKey s (spaceOf v.r) n) 4096 →
    ∃ us, tileUnits s v false xr 0 .load = .ok (.space, us)
      ∧ (placed us).map (fun p => (p.1.key, p.2)) = (List.range 4096).map fun j => (nearKey s (spaceOf v.r) n + j, 8 * j))

/-- R180 to R182: `tsave` makes one store of the header and one of each live tile it names; `trstr` restores or empties
every tile it names, or takes a reserved-operand fault and changes none; `trel` empties the tiles it names. -/
def Obligations.TileImages : Prop :=
  (∀ (s u : State) (half : Fin 2) (a : Ra) (m : BitVec 8) (r : Ref) (o : Opened) (head : List Loc) (ls : Rt → List Loc) (live : List Rt),
    imageRef s a .store = .ok (r, o) → (∀ t ∈ named half m, Readable s.th (.t t)) →
    live = (named half m).filter (fun t => (s.th.t[t]).isSome) →
    imageBytes s o r 0 64 .store = .ok head →
    (∀ t ∈ live, imageBytes s o r (64 + 4608 * (t.val % 8)) 4608 .store = .ok (ls t)) →
    storeUnits s (spaceOf r) (oneByOne head (savedHeader s.th half m) :: live.map fun t => oneByOne (ls t) (savedBytes (tileVal s.th t)))
      (word (refBits r 0 44)) ([] :: live.map (tileNamed s)) = .ok u →
    exec (.tsave half a m) s = .next (done u))
  ∧ (∀ (s u : State) (half : Fin 2) (a : Ra) (m : BitVec 8) (r : Ref) (o : Opened) (head : List Loc) (ls : Rt → List Loc)
      (live : List Rt) (h : List Byte) (vals : List (List Byte)), imageRef s a .load = .ok (r, o) →
    o.sideEffect = false → LoadGoes s head →
    imageBytes s o r 0 64 .load = .ok head → h = viewBytes s (whoTh s) head →
    ((∀ t ∈ named half m, HeaderOk h t) → live = (named half m).filter (fun t => decide (128 ≤ headByte h t)) →
      (∀ t ∈ live, imageBytes s o r (64 + 4608 * (t.val % 8)) 4608 .load = .ok (ls t)) →
      loadUnits s ((head ++ live.flatMap ls).map fun l => [l]) = .ok (vals, u) →
      live.length ≤ tilesFor u (2 * (s.tid / 8) + half.val) s.tid → live.length ≤ tilesFor s (2 * (s.tid / 8) + half.val) s.tid →
      ∃ t, exec (.trstr half a m) s = .next t ∧ t.th.pc = s.th.pc + 4 ∧ RegsKept s.th t.th [] [] [] [] (named half m)
        ∧ SpecialKept s.th t.th ∧ MemoryAndOthersKept s t
        ∧ ∀ k ∈ named half m, (t.th.t[k]).isSome = decide (k ∈ live)
            ∧ (k ∈ live → tileVal t.th k = restored h k (viewBytes u (whoTh u) (ls k))))
    ∧ ((∃ t ∈ named half m, ¬HeaderOk h t) → CanHold s 1 →
      (∀ t ∈ named half m, 128 ≤ headByte h t →
        imageBytes s o r (64 + 4608 * (t.val % 8)) 4608 .load = .ok (ls t)) →
      exec (.trstr half a m) s = .next (faulted s 0x02 0 0 0 none)))
  ∧ (∀ (s : State) (half : Fin 2) (m : BitVec 8), ∃ t, exec (.trel half m) s = .next t ∧ t.th.pc = s.th.pc + 4
    ∧ RegsKept s.th t.th [] [] [] [] (named half m) ∧ SpecialKept s.th t.th ∧ MemoryAndOthersKept s t
    ∧ ∀ k ∈ named half m, t.th.t[k] = none)

namespace Sys2Proof.Claims

/-! ### Faults of vector and tile accesses (05 R143; 06 R156, R159 to R162, R182) -/

/-- How an access is checked, by whether it stores. -/
def accOf (st : Bool) : Acc := if st then .store else .load

/-- The fault of an element of `n` bytes at an exact address: the address range, alignment, and step 6 of R70 (R143, R162). -/
def ElementFault (s : State) (r : Ref) (a : Int) (n align : Nat) (st : Bool) (c : Nat) (k : Option Miss) : Prop :=
  ((a < 0 ∨ 2 ^ 44 ≤ a) ∧ c = 0x06 ∧ k = none)
    ∨ (0 ≤ a ∧ a < 2 ^ 44 ∧ a % (align : Int) ≠ 0 ∧ c = 0x05 ∧ k = none)
    ∨ (0 ≤ a ∧ a < 2 ^ 44 ∧ a % (align : Int) = 0 ∧ PlaceFault s r a.toNat n st c k)

/-- The checks of an element pass. -/
def ElementPasses (s : State) (r : Ref) (a : Int) (n align : Nat) (st : Bool) (info : Word) : Prop :=
  ∃ ls, elemUnit s (whoTh s) (openRef s (whoTh s) r (accOf st)) r a n align (accOf st) info = .ok ls

/-- `tld` or `tst`: the tile register, the reference, T, the origin registers (R158), and whether it stores. -/
def tileAccess : Instr → Option (Rt × Ra × Bool × Rx × Rx × Bool)
  | .tld d a tr r c => some (d, a, tr, r, c, false)
  | .tst d a tr r c => some (d, a, tr, r, c, true)
  | _ => none

/-- A scaled reference, and its block exponent (R69, R161). -/
def isScaled (r : Ref) : Bool := refBits r 88 2 == 1
def blogOf (r : Ref) : Nat := refBits r 90 4

/-- The reserved-operand rules of R159 to R161 hold; a `tst` has a tile with this tag. -/
def TileRules (r : Ref) (t : Ty) (tr : Bool) (tag : Option Nat) : Prop :=
  (tr = true → t ≠ .l6 ∧ isScaled r = false ∧ spaceOf r = 0)
    ∧ (isScaled r = true → 2 ^ blogOf r ≤ t.perRow ∧ ∀ g, tag = some g → g = blogOf r)

/-- Memory row and column of element `c` of tile row `i`, and where it lies (R159). -/
def blockRow (tr : Bool) (xr i c : Nat) : Nat := if tr then xr + c else xr + i
def blockCol (tr : Bool) (xc i c : Nat) : Nat := if tr then xc + i else xc + c
def blockPlace (r : Ref) (t : Ty) (o : ObjRec) (mr mc : Nat) : Nat :=
  refBits r 0 44 + mr * (strides o).1 + (if t = .l6 then mc / 4 else mc) * (strides o).2

/-- An element of a tile lies outside the rows or the columns of its object (R159). -/
def OutsideBlock (o : ObjRec) (tr : Bool) (xr xc i c : Nat) : Prop :=
  (if o.dims = 0 then 1 else o.ext.getD (o.dims - 1) 0) ≤ blockRow tr xr i c ∨ o.ext.getD o.dims 0 ≤ blockCol tr xc i c

/-- Tile order: rows ascending, and then elements. -/
def tileBefore (i c : Nat) (j d : Nat) : Prop := i < j ∨ (i = j ∧ c < d)

/-- `finfo` of byte `n` of a tile in an image (R156). -/
def imageByteInfo (n : Nat) : Word :=
  if n < 4096 then word (256 * (n / 128) + n % 128) else word (256 * ((n - 4096) / 16) + (n - 4096) % 16)

end Sys2Proof.Claims

/-- R142, R143, R156, R159 to R162, R182: which fault a vector or tile access takes, in the order of its checks, with `faddr` and
`finfo`, and that it changes nothing else. Vector: the reference; l6 in a form that has none, or with an index that is no multiple of
4; then the active elements, ascending, each by range, alignment and step 6 of R70, with the offset and the number of the first that
fails. Tiles: the reference and the rules of R159 to R161; in space 0 the object, the shape, the alignment of the origin, and the
elements in tile order; in the other spaces the rules of R160. Images: the reference by steps 1 to 4, the object or the space, the
alignment of the offset, and the bytes in offset order. The model's choices: the registers of an index, and a stored `vd`, are read
before those checks (log entry 130). -/
def Obligations.VectorTileFaults : Prop :=
  (∀ (i : Instr) (s : State) (v : VecMem) (st : Bool), (vecLoad i = some v ∧ st = false) ∨ (vecStore i = some v ∧ st = true) →
    Readable s.th (.a v.r) → Source s.th v.x → CanHold s 1 →
    (∀ c, refFault s.th.a[v.r] true = some c → exec i s = .next (faulted s c 0 0 0 none))
    ∧ ∀ t, WellFormedRef s.th.a[v.r] → Ty.ofCode (refBits s.th.a[v.r] 84 4) = some t →
      (t = .l6 → v.l6 = false → exec i s = .next (faulted s 0x02 0 0 0 none))
      ∧ (t = .l6 → v.l6 = true → regNum s.th v.x % 4 ≠ 0 →
        exec i s = .next (faulted s 0x05 (BitVec.ofInt 64 (v.addr s.th s.th.a[v.r] t 0)) 0 0 none))
      ∧ (∀ e c k, VecReady s v t → (st = true → Readable s.th (.v v.d)) → e < laneCount t →
        isActive t (govern s.th v.g) e = true →
        (∀ j, j < e → isActive t (govern s.th v.g) j = true →
          ElementPasses s s.th.a[v.r] (v.addr s.th s.th.a[v.r] t j) (elemBytes t) (elemAlign t) st (word j)) →
        ElementFault s s.th.a[v.r] (v.addr s.th s.th.a[v.r] t e) (elemBytes t) (elemAlign t) st c k →
        exec i s = .next (faulted s c (BitVec.ofInt 64 (v.addr s.th s.th.a[v.r] t e)) (word e) 0 k)))
  ∧ (∀ (i : Instr) (s : State) (d : Rt) (a : Ra) (tr : Bool) (r c : Rx) (st : Bool) (q : Ref) (xr xc : Nat),
    tileAccess i = some (d, a, tr, r, c, st) → q = s.th.a[a] → xr = xVal s.th r → xc = xVal s.th c →
    Readable s.th (.a a) → ReadableX s.th r → ReadableX s.th c → (st = true → Readable s.th (.t d)) → CanHold s 1 →
    (∀ n, refFault q true = some n → exec i s = .next (faulted s n 0 0 0 none))
    ∧ ∀ (t : Ty) (tag : Option Nat), WellFormedRef q → Ty.ofCode (refBits q 84 4) = some t →
      tag = (if st then some (tileVal s.th d).tag else none) →
      (¬TileRules q t tr tag → exec i s = .next (faulted s 0x02 0 0 0 none))
      ∧ (TileRules q t tr tag → spaceOf q = 0 →
        (∀ n k, ObjectFault s q st n k → exec i s = .next (faulted s n (word (refBits q 0 44)) 0 0 k))
        ∧ ∀ o, Usable s q o st →
          (isScaled q = true → ¬(o.sk = 1 ∧ o.blog = blogOf q) → exec i s = .next (faulted s 0x02 (word (refBits q 0 44)) 0 0 none))
          ∧ ((isScaled q = true → o.sk = 1 ∧ o.blog = blogOf q) →
            (∀ j e, j < 32 → e < t.perRow → OutsideBlock o tr xr xc j e →
              (∀ j' e', e' < t.perRow → tileBefore j' e' j e → ¬OutsideBlock o tr xr xc j' e') →
              exec i s = .next (faulted s 0x06 (word (blockPlace q t o (blockRow tr xr j e) (blockCol tr xc j e)))
                (word (256 * j + if t = .l6 then e / 4 else e)) 0 none))
            ∧ ((∀ j e, j < 32 → e < t.perRow → ¬OutsideBlock o tr xr xc j e) →
              (((t = .l6 ∧ xc % 4 ≠ 0) ∨ (isScaled q = true ∧ xc % 2 ^ blogOf q ≠ 0)) →
                exec i s = .next (faulted s 0x05 (word (blockPlace q t o xr xc)) 0 0 none))
              ∧ ((t = .l6 → xc % 4 = 0) → (isScaled q = true → xc % 2 ^ blogOf q = 0) →
                ∀ j e n k, j < 32 → e < rowCells t →
                  let at' := fun (j e : Nat) => elementAt ⟨q, t, isScaled q, if isScaled q then blogOf q else 0⟩ o tr xr xc j e
                  (∀ j' e', e' < rowCells t → tileBefore j' e' j e →
                    ElementPasses s q (at' j' e' : Nat) (elemBytes t) (elemAlign t) st (word (256 * j' + e'))) →
                  ElementFault s q (at' j e : Nat) (elemBytes t) (elemAlign t) st n k →
                  exec i s = .next (faulted s n (word (at' j e)) (word (256 * j + e)) 0 k)))))
      ∧ (TileRules q t tr tag → spaceOf q ≠ 0 →
        let z := if isScaled q then 4608 else 4096
        let at' := refBits q 0 44 + z * xr
        (xc ≠ 0 → exec i s = .next (faulted s 0x06 (word at') 0 0 none))
        ∧ (xc = 0 → ∀ n, SpaceFault s q at' z false n → exec i s = .next (faulted s n (word at') 0 0 none))
        ∧ (xc = 0 → (∀ n, ¬SpaceFault s q at' z false n) →
          (at' % 128 ≠ 0 → exec i s = .next (faulted s 0x05 (word at') 0 0 none))
          ∧ (at' % 128 = 0 → st = true → ∀ n, SpaceFault s q at' z true n → exec i s = .next (faulted s n (word at') 0 0 none)))))
  ∧ (∀ (i : Instr) (s : State) (half : Fin 2) (a : Ra) (m : BitVec 8) (st : Bool) (q : Ref),
    (i = .tsave half a m ∧ st = true) ∨ (i = .trstr half a m ∧ st = false) → q = s.th.a[a] → Readable s.th (.a a) → CanHold s 1 →
    (∀ n, refPlainFault q = some n → exec i s = .next (faulted s n 0 0 0 none))
    ∧ (refPlainFault q = none →
      (spaceOf q = 0 → ∀ n k, ObjectFault s q st n k → exec i s = .next (faulted s n (word (refBits q 0 44)) 0 0 k))
      ∧ (spaceOf q ≠ 0 → ∀ n, SpaceFault s q (refBits q 0 44) 64 st n → exec i s = .next (faulted s n (word (refBits q 0 44)) 0 0 none))
      ∧ (((spaceOf q = 0 ∧ ∃ o, Usable s q o st) ∨ (spaceOf q ≠ 0 ∧ ∀ n, ¬SpaceFault s q (refBits q 0 44) 64 st n)) →
        (refBits q 0 44 % 64 ≠ 0 → exec i s = .next (faulted s 0x05 (word (refBits q 0 44)) 0 0 none))
        ∧ (refBits q 0 44 % 64 = 0 → (st = true → ∀ t ∈ named half m, Readable s.th (.t t)) →
          (∀ j n k, j < 64 → (∀ j', j' < j → ElementPasses s q (refBits q 0 44 + j' : Nat) 1 1 st 0) →
            refBits q 0 44 + j < 2 ^ 44 → PlaceFault s q (refBits q 0 44 + j) 1 st n k →
            exec i s = .next (faulted s n (word (refBits q 0 44 + j)) 0 0 k))
          ∧ (∀ (t : Rt) (j n : Nat) (k : Option Miss), st = true → t ∈ named half m → (s.th.t[t]).isSome = true → j < 4608 →
            (∀ j', j' < 64 → ElementPasses s q (refBits q 0 44 + j' : Nat) 1 1 st 0) →
            (∀ (t' : Rt) (j' : Nat), t' ∈ named half m → (s.th.t[t']).isSome = true → j' < 4608 → tileBefore t'.val j' t.val j →
              ElementPasses s q (refBits q 0 44 + 64 + 4608 * (t'.val % 8) + j' : Nat) 1 1 st (imageByteInfo j')) →
            refBits q 0 44 + 64 + 4608 * (t.val % 8) + j < 2 ^ 44 →
            PlaceFault s q (refBits q 0 44 + 64 + 4608 * (t.val % 8) + j) 1 st n k →
            exec i s = .next (faulted s n (word (refBits q 0 44 + 64 + 4608 * (t.val % 8) + j)) (imageByteInfo j) 0 k))))))

/-- R176 to R178: what `trjoin` does in each row of its table, the word of `trstat`, and sends and receives: a send takes a
credit and holds the old value of ta, a receive takes the oldest slot's image and holds the credit's return, and a thread that
has not joined faults. At its release a send reaches the successor's endpoint, a receive's slot is freed and its sender has the
credit back, a join sets mask and credits, and a leave empties the slots. -/
def Obligations.RingInstructions : Prop :=
  (∀ (s : State) (th : Rt) (a d : Rx) (e : Nat), e = tileEngine s th → ReadableX s.th a →
    (RingMask s e (xVal s.th a) → ¬JoinedByOther s e → CanHold s 1 →
      ∃ t, exec (.trjoin th a d) s = .next t ∧ t.th = goNext (putX { s.th with relMark := none } d 0) ∧ t.mem = s.mem
        ∧ (t.engine e).view = some ⟨s.tid, xVal s.th a⟩ ∧ (t.engine e).ring = (s.engine e).ring
        ∧ heldBy t (s.tid / 2) = heldBy s (s.tid / 2) ++ [.ringJoin e (some ⟨s.tid, xVal s.th a⟩)])
    ∧ (xVal s.th a = 0 → Joined s e → CanHold s 1 →
      ∃ t, exec (.trjoin th a d) s = .next t ∧ t.th = goNext (putX { s.th with relMark := none } d 0) ∧ t.mem = s.mem
        ∧ (t.engine e).view = none ∧ (t.engine e).ring = (s.engine e).ring
        ∧ heldBy t (s.tid / 2) = heldBy s (s.tid / 2) ++ [.ringJoin e none])
    ∧ (xVal s.th a = 0 → ¬Joined s e → exec (.trjoin th a d) s = .next (withThread s (goNext (putX s.th d 0))))
    ∧ (xVal s.th a ≠ 0 → JoinedByOther s e → exec (.trjoin th a d) s = .next (withThread s (goNext (putX s.th d 1))))
    ∧ (xVal s.th a ≠ 0 → ¬RingMask s e (xVal s.th a) → ¬JoinedByOther s e →
      exec (.trjoin th a d) s = .next (withThread s (goNext (putX s.th d 2)))))
  ∧ (∀ (s : State) (th : Rt) (d : Rx) (e : Nat) (foreign joined : Nat), e = tileEngine s th →
    foreign = (if (s.engine e).foreign then 1 else 0) → (Joined s e → joined = 1) → (¬Joined s e → joined = 0) →
    exec (.trstat th d) s = .next (withThread s (goNext (putX s.th d (word (e % 16 * 2 ^ 20 + foreign * 2 ^ 19 + joined * 2 ^ 18
      + (s.engine e).credits * 2 ^ 8 + ((s.engine e).slots.filter fun k => !k.consumed).length))))))
  ∧ (∀ (s : State) (a : Rt) (e : Nat), e = tileEngine s a → Joined s e → JoinReleased s e → Readable s.th (.t a) →
    0 < (s.engine e).credits → CanHold s 1 →
    ∃ t, exec (.tringS a) s = .next t ∧ t.th = goNext { s.th with relMark := none } ∧ t.mem = s.mem
      ∧ (t.engine e).credits = (s.engine e).credits - 1
      ∧ heldBy t (s.tid / 2) = heldBy s (s.tid / 2) ++ [.ringSend e (tileVal s.th a)])
  ∧ (∀ (s : State) (d : Rt) (e : Nat) (k : RingSlot), e = tileEngine s d → Joined s e → JoinReleased s e → Oldest s e k →
    CanHold s 1 → TileFree s d →
    ∃ t, exec (.tringR d) s = .next t ∧ t.mem = s.mem
      ∧ (∃ p ∈ freeTiles s e, t.th = goNext (putT { s.th with relMark := none } d k.img p))
      ∧ (t.engine e).slots = (s.engine e).slots.map (fun f => if f.num = k.num then { f with consumed := true } else f)
      ∧ heldBy t (s.tid / 2) = heldBy s (s.tid / 2) ++ [.ringCredit e k.num])
  ∧ (∀ (s : State) (d a : Rt) (e : Nat) (k : RingSlot), (Instr.tring d a).wf = true → e = tileEngine s a → Joined s e →
    JoinReleased s e → Readable s.th (.t a) → Oldest s e k → 0 < (s.engine e).credits → CanHold s 2 → TileFree s d →
    ∃ t, exec (.tring d a) s = .next t ∧ t.mem = s.mem
      ∧ (∃ p ∈ freeTiles s e, t.th = goNext (putT { s.th with relMark := none } d k.img p))
      ∧ (t.engine e).credits = (s.engine e).credits - 1
      ∧ (t.engine e).slots = (s.engine e).slots.map (fun f => if f.num = k.num then { f with consumed := true } else f)
      ∧ heldBy t (s.tid / 2) = heldBy s (s.tid / 2) ++ [.ringSend e (tileVal s.th a), .ringCredit e k.num])
  ∧ (∀ (s : State) (i : Instr) (d a : Rt), (i = .tring d a ∨ i = .tringS a ∨ i = .tringR a) → ¬Joined s (tileEngine s a) →
    CanHold s 1 → exec i s = .next (faulted s 0x02 0 0 0 none))
  ∧ (∀ (s : State) (core : Nat) (e : HoldEntry) (rest : List HoldEntry) (n : Nat), AtHead s core e rest →
    (∀ img j p, e.effect = .ringSend n img → (s.engine n).ring = some j → NextSet j.mask (n % 16) p →
      ∃ u, ReleasedTo s u core rest ∧ u.mem = s.mem
        ∧ (u.engine (n / 16 * 16 + p)).arriving = (s.engine (n / 16 * 16 + p)).arriving ++ [(n % 16, img)])
    ∧ (∀ i k, e.effect = .ringCredit n i → (s.engine n).slots.find? (fun k => k.num == i) = some k → k.sender < 16 → k.sender ≠ n % 16 →
      ∃ u, ReleasedTo s u core rest ∧ u.mem = s.mem ∧ (u.engine n).slots = (s.engine n).slots.filter (fun f => f.num != i)
        ∧ (u.engine (n / 16 * 16 + k.sender)).credits = Nat.min 16 ((s.engine (n / 16 * 16 + k.sender)).credits + 1))
    ∧ (∀ j, e.effect = .ringJoin n (some j) → ∃ u, ReleasedTo s u core rest ∧ u.mem = s.mem ∧ (u.engine n).ring = some j
      ∧ (u.engine n).credits = 16 ∧ (u.engine n).foreign = false ∧ (u.engine n).slots = (s.engine n).slots)
    ∧ (e.effect = .ringJoin n none → ∃ u, ReleasedTo s u core rest ∧ u.mem = s.mem ∧ (u.engine n).ring = none
      ∧ (u.engine n).slots = []))

/-- R239 to R241: `vdot4` adds to each 32-bit element of vd the four products of its i8 elements, modulo 2^32; `tgath1`
fills td with 32 rows that the elements of vb name, as its expansion does, and a row that faults carries its step. -/
def Obligations.DeprecatedResult : Prop :=
  (∀ (s : State) (d a b : Rv), Readable s.th (.v a) → Readable s.th (.v b) → Readable s.th (.v d) →
    ∃ y : VReg, exec (.vdot4 d a b) s = .next (withThread s (goNext (putV s.th d y)))
      ∧ ∀ e, e < 32 → lane 32 y e = (((lane 32 s.th.v[d] e : Int) + ((List.range 4).map fun j =>
          sgn 8 (lane 8 s.th.v[a] (4 * e + j)) * sgn 8 (lane 8 s.th.v[b] (4 * e + j))).sum) % 2 ^ 32).toNat)
  ∧ (∀ (s u : State) (d : Rt) (a : Ra) (b : Rv) (v : TileRef) (k : ObjRec) (o : Opened) (ls : Nat → Nat → List Loc)
      (us : List TileUnit) (vals : List (List Byte)),
    Readable s.th (.a a) → Readable s.th (.v b) → gatherObject s s.th.a[a] = .ok (v, k, o) →
    (∀ i c, i < 32 → c < rowCells v.t → lane 32 s.th.v[b] i < (if k.dims = 0 then 1 else k.ext.getD (k.dims - 1) 0)
      ∧ elemUnit s (whoTh s) o v.r (elementAt v k false (lane 32 s.th.v[b] i) 0 0 c) (elemBytes v.t) (elemAlign v.t) .gather
          (word (256 * i + c)) = .ok (ls i c)) →
    us = ((List.range 32).flatMap fun i => (List.range (rowCells v.t)).map fun c =>
      ⟨ls i c, 1024 * i + 8 * elemBytes v.t * c⟩) →
    loadUnits s (us.map fun w => w.locs) = .ok (vals, u) → TileFree u d →
    ∃ t, exec (.tgath1 d a b) s = .next t ∧ TileWritten u u.th d
      (TileImage.ofNat (gathered (viewByte u (whoTh u)) (placed (us.filter fun w => !unused v w)))) t)
  ∧ (∀ (s : State) (d : Rt) (a : Ra) (b : Rv) (v : TileRef) (k : ObjRec) (o : Opened) (i : Nat) (f : Trap),
    Readable s.th (.a a) → Readable s.th (.v b) → gatherObject s s.th.a[a] = .ok (v, k, o) → i < 32 → CanHold s 1 →
    (∀ j, j < i → ∃ us, gatherRow s v k o j (lane 32 s.th.v[b] j) = .ok us) →
    gatherRow s v k o i (lane 32 s.th.v[b] i) = .error (.trap f) →
    exec (.tgath1 d a b) s = .next (faulted s f.cause f.addr f.info (1 + i / 8) f.miss))

namespace Sys2Proof.Claims

/-! ### Ordering, messages and hurdles (07 R194 to R208) -/

/-- An acquire of a thread at a scope: its younger accesses wait for every request that it holds now (R195), and the race
detector knows the cycle, now and, with requests that have not returned, when they have (R296). -/
def acquired (s : State) (sc : Scope) (t : Thread) : Thread :=
  { t with
    loadAfter := s.seq
    acqWaits := if outstanding s s.tid s.seq then (s.seq, sc) :: t.acqWaits else t.acqWaits
    acquires := Vector.ofFn fun i => if i.val ≤ sc.code then s.cycle else t.acquires[i] }

/-- What a fence leaves in its thread: a release at section or wider marks the next held entry and the next write to spaces 1
and 2 (R285, R287), an acquire is noted, and an acquire-release at section or wider makes younger loads wait for held
stores, and for the thread's last own write until it is older than W cycles (R282, R284). -/
def fenced (s : State) (sc : Scope) (q : Ord) : Thread :=
  let t := if (q = .release ∨ q = .acqrel) ∧ 3 ≤ sc.code then { s.th with relMark := some s.seq, storeAfter := s.seq } else s.th
  let t := if q = .acquire ∨ q = .acqrel then acquired s sc t else t
  if q = .acqrel ∧ 3 ≤ sc.code then
    { t with loadAfterStores := s.seq
             loadFrom := match t.ownAt with
               | some c => max t.loadFrom (c + 128 + 1)
               | none => t.loadFrom }
  else t

/-- A service core's `fence.acqrel` at package or wider that follows a change of a record not yet in force (R323). -/
def FenceWaits (s : State) (sc : Scope) (q : Ord) : Prop := 4096 ≤ s.tid ∧ q = .acqrel ∧ 5 ≤ sc.code ∧ s.recordWrites ≠ []

/-- A word that `pacq` accepts (R196). -/
def PacqWord (v : Nat) : Prop := v / 2 ^ 9 % 2 ^ 7 = 0 ∧ v / 2 ^ 26 = 0

/-- The quad that it names runs a thread of the gang (R196). -/
def NamesGangQuad (s : State) (sc : Scope) (v : Nat) : Prop :=
  (6 ≤ sc.code → v / 2 ^ 16 % 2 ^ 10 = s.pkg % 2 ^ 10)
    ∧ ∃ i, i < 8 ∧ (s.thread (8 * (v % 2 ^ 9) + i)).run ≠ .never ∧ (s.thread (8 * (v % 2 ^ 9) + i)).run ≠ .ended
        ∧ (s.thread (8 * (v % 2 ^ 9) + i)).gang = s.th.gang

/-- Every effect that a quad had retired at number `n` is visible outside it (R196, R282, R288). -/
def QuadVisible (s : State) (q n : Nat) : Prop := QuadClear s q n ∧ OwnVisible s q n

/-- Nothing of the thread is held, or waits at a bank. -/
def Drained (s : State) : Prop :=
  (∀ e ∈ (s.core (s.tid / 2)).hold, e.tid ≠ s.tid) ∧ ∀ e ∈ s.quads, ∀ o ∈ e.2.outside, o.copy = none → o.tid ≠ s.tid

/-- The payload registers `x10` to `x17`. -/
def payloadReg (i : Nat) : Rx := Fin.ofNat 32 (10 + i)

/-- Their words, `x10` lowest (R199). -/
def eightWords (t : Thread) : Nat := ((List.range 8).map fun i => (t.x[payloadReg i]).toNat * 2 ^ (64 * i)).sum

/-- They can be read. -/
def PayloadReadable (t : Thread) : Prop := ∀ i, i < 8 → Readable t (.x (payloadReg i))

/-- They are written, in order (R203). -/
def putWords (t : Thread) (p : Nat) : Thread :=
  (List.range 8).foldl (fun t i => putX t (payloadReg i) (word (p / 2 ^ (64 * i) % 2 ^ 64))) t

/-- A send to a rank: KIND, vector source, destination, tag (R200). -/
def sendOp : Instr → Option (Nat × Option Rv × Rx × Rx)
  | .msend a b => some (0, none, a, b)
  | .msendv v a b => some (1, some v, a, b)
  | _ => none

/-- Its source can be read. -/
def SendReadable (t : Thread) : Option Rv → Prop
  | none => PayloadReadable t
  | some v => Readable t (.v v)

/-- The message it sends (R199, R201). -/
def sentMessage (s : State) (kind : Nat) (v : Option Rv) (tag : Nat) (sc : Scope) (outside : Bool) (seq : Nat) : Message :=
  { header := word (2 ^ 63 + kind * 2 ^ 60 + tag % 2 ^ 16 * 2 ^ 32 + s.th.rank % 2 ^ 32)
    payload := match v with
      | none => BitVec.ofNat 1024 (eightWords s.th)
      | some r => s.th.v[r]
    sender := .member s.th.gang s.th.rank, scope := sc, outside, seq, born := s.th.born }

/-- A thread of the sender's quad that takes a message at once (R201). -/
def TakesNow (s : State) (dest rank : Nat) : Prop :=
  s.tid < 4096 ∧ dest / 8 = s.tid / 8 ∧ (s.thread dest).run ≠ .never ∧ (s.thread dest).run ≠ .ended
    ∧ (s.thread dest).run ≠ .stopped ∧ s.moving s.th.gang (dest / 2) = false ∧ (s.thread dest).inbox.length < 16 ∧ (s.thread dest).overflow = []
    ∧ (s.thread dest).spill = []
    ∧ ∀ e ∈ (s.core (s.tid / 2)).hold, e.tid = s.tid → ∀ m, e.effect = .message m → m.gang = s.th.gang → m.rank ≠ rank

/-- What `mrecv` leaves in its thread (R203). -/
def receives (t : Thread) (d : Rx) (v : Rv) (m : Message) : Thread :=
  let kind := m.header.toNat / 2 ^ 60 % 8
  let t := putX t d m.header
  let t := if kind = 1 then putV t v m.payload else putWords t m.payload.toNat
  if kind = 2 then { t with fcsr := t.fcsr ||| word (m.header.toNat / 2 ^ 54 % 64) } else t

/-- The time-out of a wait. -/
def timeOut (s : State) (x : Nat) : Option Nat := if x = 0 then none else some (s.cycle + x)

/-- The thread's own core lies in a domain of its gang (R206). -/
def InHurdle (s : State) (g : Gang) (dom : Fin 4) : Prop :=
  s.gangs.get? s.th.gang = some g ∧ s.tid < 4096 ∧ s.tid % 2 < g.threads
    ∧ ∃ p, g.cores.idxOf? (s.tid / 2) = some p ∧ p ∈ g.domain dom

/-- The generation that the thread's instance has completed. -/
def completedFor (s : State) (g : Gang) (dom : Fin 4) (lvl : Scope) : Nat := g.completed dom lvl (g.instOf lvl (s.tid / 2))

/-- An arrival (R206): the count rises by one; below section scope it is signalled at once, and from section scope on it is a
release whose signal is held. -/
def arrived (s : State) (dom : Fin 4) (lvl : Scope) : State :=
  let i := 6 * dom.val + lvl.code - 1
  let c := withThread s { s.th with counts := bump s.th.counts i }
  if lvl.code < 3 then withThread s { c.th with signalled := bump s.th.signalled i }
  else entered (released c lvl) (.arrive dom lvl) []

/-- The thread waits for a generation. -/
def waitsFor (s : State) (dom : Fin 4) (lvl : Scope) (n : Nat) (f : HurdleEnd) : State :=
  withThread s { s.th with wait := .hurdle dom lvl n f, stoppedAt := s.cycle }

/-- The phase clock of the thread's core (R207). -/
def clockAt (s : State) (period start : Nat) : Nat := if period = 0 then 0 else (s.cycle - start) % period

/-- 256 bytes of a core's local memory. -/
def lineOf (core off : Nat) : List Loc :=
  (List.range 256).map fun i => { key := localBase core + off + i, crypt := none, dmg := false, space := 1, obj := 0, off := off + i }

/-- The first condition of R208's table that holds: cause, `faddr` and `finfo`. -/
def exchangeFault (s : State) (g : Gang) (pos src dst : Nat) : Option (Nat × Nat × Nat) :=
  match g.cores[pos]? with
  | none => some (0x09, pos, 0)
  | some c =>
    if src % 256 ≠ 0 then some (0x05, src, 0)
    else if dst % 256 ≠ 0 then some (0x05, dst, 0)
    else if directBytes s (s.tid / 2) < src + 256 then some (0x06, src, 0)
    else if directBytes s c < dst + 256 then some (0x06, dst, 0)
    else if src < 2048 then some (0x09, src, 0)
    else if dst < 2048 then some (0x09, dst, 0)
    else match g.slots, (s.core (s.tid / 2)).phase with
      | some t, some start =>
        if t.items.any (fun i => decide (g.cores.idxOf? (s.tid / 2) = some i.1 ∧ i.2.1 ≤ clockAt s t.period start
            ∧ clockAt s t.period start ≤ i.2.2)) then none
        else some (0x0C, 0, clockAt s t.period start % 2 ^ 16)
      | _, _ => some (0x0C, 0, 2 ^ 16)

/-! ### The copy engine's and the task instructions (07 R209 to R221) -/

/-- KIND and TYPE of `cpmode` (R209). -/
def copyKind (t : Thread) : Nat := t.cpmode.toNat % 8
def copyType (t : Thread) : Nat := t.cpmode.toNat / 16 % 16
def copyLen (t : Thread) : Nat := t.cplen.toNat % 2 ^ 44

/-- A mode that R209 defines: a reduce takes f32 or bf16, and the others no type. -/
def ModeOk (t : Thread) : Prop :=
  copyKind t ≤ 4 ∧ (copyKind t = 2 → copyType t = 9 ∨ copyType t = 11) ∧ (copyKind t ≠ 2 → copyType t = 0)

/-- A reference passes the checks of a launch: its own, and those of its object (R211). -/
def Launchable (s : State) (r : Ref) (acc : Acc) : Prop :=
  WellFormedRef r ∧ (openRef s (whoTh s) r acc = .space ∨ ∃ o k, openRef s (whoTh s) r acc = .object o k)

/-- Both references pass; a clear has no source. -/
def CopyRefsOk (s : State) : Prop :=
  (copyKind s.th ≠ 4 → Launchable s s.th.cpsrc .load) ∧ Launchable s s.th.cpdst .store

/-- The fault of a reference that a launch checks: cause, `faddr` and miss (R70, R211, R314). -/
def CopyRefFault (s : State) (r : Ref) (st : Bool) (c fa : Nat) (k : Option Miss) : Prop :=
  (refFault r false = some c ∧ fa = 0 ∧ k = none)
    ∨ (WellFormedRef r ∧ spaceOf r = 0 ∧ fa = refBits r 0 44 ∧ ObjectFault s r st c k)

/-- The spaces that a kind needs: accumulators lie in global space (R211). -/
def SpacesOk (t : Thread) : Prop :=
  (copyKind t = 2 ∨ copyKind t = 4 → spaceOf t.cpdst = 0) ∧ (copyKind t = 3 → spaceOf t.cpsrc = 0)

/-- Whole elements (R211). -/
def LengthOk (t : Thread) : Prop :=
  (copyKind t = 2 → copyLen t % (if copyType t = 11 then 2 else 4) = 0) ∧ (copyKind t = 3 ∨ copyKind t = 4 → copyLen t % 4 = 0)

/-- The transfer that the shadows describe. -/
structure Described (s : State) (tag : Nat) (x : Transfer) : Prop where
  handle : x.handle = word (s.th.cpseq.toNat + x.eng * 2 ^ 16)
  eng : (s.th.cpeng = 1 → x.eng = 0) ∧ (s.th.cpeng = 2 → x.eng = 1) ∧ x.eng < 2
  owner : x.owner = s.th.born ∧ x.gang = s.th.gang ∧ x.rank = s.th.rank
  mode : x.kind = copyKind s.th ∧ x.ty = copyType s.th ∧ x.scope = Nat.max 3 (s.th.cpmode.toNat / 256 % 8)
    ∧ x.notify = s.th.cpmode.getLsbD 3 ∧ x.tag = tag % 2 ^ 16
  refs : x.src = s.th.cpsrc ∧ x.dst = s.th.cpdst
  shape : x.len = copyLen s.th ∧ x.rows = s.th.cpshape.toNat / 2 ^ 32 ∧ x.rowb = s.th.cpshape.toNat % 2 ^ 32
    ∧ x.sstr = s.th.cpstride.toNat % 2 ^ 32 ∧ x.dstr = s.th.cpstride.toNat / 2 ^ 32
  start : x.done = 0 ∧ x.state = 0 ∧ x.cause = 0

/-- Distinct destination lines in space 0 that a launch charges in replay mode (R386). -/
def launchLines (x : Transfer) : Nat := if spaceOf x.dst = 0 then x.lines else 0

/-- The write pointer that `cpwp` shows: in replay mode, what the current heat wrote for observers beyond the section does
not count yet (R213, R384). -/
def shownPointer (s : State) (x : Transfer) : Nat :=
  match s.gangs.get? x.gang with
  | some g => if g.heatMode = true ∧ 3 < x.scope ∧ spaceOf x.dst = 0 ∧ x.heat = g.heat then 0 else x.done
  | none => x.done

/-- A control word that `spawn` accepts (R218). -/
def ControlOk (g : Gang) (c : Nat) : Prop := c / 2 ^ 44 = 0 ∧ c / 2 ^ 18 % 4 = 0 ∧ c % 2 ^ 16 < g.entries.length

/-- PRI and WAIT of a task's control word (R218). -/
def priOf (k : Task) : Nat := k.control.toNat / 2 ^ 16 % 4
def waitOf (k : Task) : Nat := k.control.toNat / 2 ^ 20 % 2 ^ 12

/-- Place `i` of a die queue holds an eligible task whose features the core satisfies (R350). -/
def TakeableAt (q : DieQueue) (core i : Nat) (k : Task) : Prop :=
  q.tasks[i]? = some k ∧ k.eligible = true ∧ (core / 512 % 2 = 0 ∨ k.feat % 2 = 0)

/-- The selection of R352: every sixteenth is of the oldest such task, the others of the oldest of the highest priority. -/
def Selects (q : DieQueue) (core i : Nat) (k : Task) : Prop :=
  TakeableAt q core i k ∧ (if (q.selections + 1) % 16 = 0 then ∀ j, j < i → ∀ l, ¬TakeableAt q core j l
    else ∀ j l, TakeableAt q core j l → priOf l < priOf k ∨ (priOf l = priOf k ∧ i ≤ j))

/-- A gate's count has fallen by a number, no other has changed, and of the tasks in the queues exactly those that wait on it have
become eligible if it is now at or below 0 (R220, R350). -/
def GateFell (g g' : Gang) (n : Nat) (delta : BitVec 32) : Prop :=
  g'.gate n = g.gate n - delta ∧ (∀ m, m ≠ n → g'.gate m = g.gate m)
    ∧ ∀ (die i : Nat) (k : Task), (g.queue die).tasks[i]? = some k → ∃ k' : Task, (g'.queue die).tasks[i]? = some k' ∧ k'.control = k.control
      ∧ k'.payload = k.payload ∧ (k'.eligible = true ↔ k.eligible = true ∨ (waitOf k = n ∧ (g'.gate n).toInt ≤ 0))

/-- The die whose queue takes a task: the issuer's own if it has the features, else the gang's lowest one that has (R351). -/
def QueueDie (s : State) (g : Gang) (feat die : Nat) : Prop :=
  let fits := fun (d : Nat) => feat % 2 = 0 ∨ d % 2 = 0
  if fits (s.tid / 1024) then die = s.tid / 1024
  else (∃ c ∈ g.cores, c / 512 = die ∧ fits die) ∧ ∀ c ∈ g.cores, fits (c / 512) → die ≤ c / 512

/-- The scope of a gate change: die on the die of the gang's lowest section, where its gates lie (R290, R349). -/
def gateReach (s : State) (g : Gang) : Scope :=
  if g.cores.any (fun c => c / 512 == s.tid / 1024) && g.cores.all (fun c => decide (s.tid / 1024 ≤ c / 512)) then .die else .package

end Sys2Proof.Claims

/-- R195 to R197, R284, R285, R287, R323: `fence` retires at once and leaves its marks, but that a service core's waits for
the record changes that it follows; an acquire holds younger loads, and a release's mark holds the next entry's release
and the next own write; `pacq` acquires once every effect that the named quad had retired is visible, and `hdrain` retires
once the thread holds nothing. The model's readings: the service core's wait (log entry 43), `hdrain` in replay mode (55), a `pacq`
that names a quad whose threads are stopped (58), the loads and own writes that wait after a fence (111), and the older own writes
that a held effect after a release waits for (142). -/
def Obligations.FenceResult : Prop :=
  (∀ (s : State) (sc : Scope) (q : Ord),
    (¬FenceWaits s sc q → exec (.fence sc q) s = .next (withThread s (goNext (fenced s sc q))))
    ∧ (FenceWaits s sc q → exec (.fence sc q) s = .next s))
  ∧ (∀ (s : State) (units : List (List Loc)), outstanding s s.tid s.th.loadAfter = true → loadUnits s units = .error .stall)
  ∧ (∀ (s : State) (units : List (List Loc)), (heldStores s s.tid s.th.loadAfterStores = true ∨ s.cycle < s.th.loadFrom) →
    loadUnits s units = .error .stall)
  ∧ (∀ (s : State) (units : List (List WByte)), ¬QuadClear s (s.tid / 8) s.th.storeAfter → ownStore s units = .error .stall)
  ∧ (∀ (s : State) (c : Nat) (e : HoldEntry) (rest : List HoldEntry), (s.core c).hold = e :: rest → e.after ≠ 0 →
    ¬(QuadClear s (c / 4) e.after ∧ OwnVisible s (c / 4) e.seq) → releaseHead s c = none)
  ∧ (∀ (s : State) (x : Rx) (sc : Scope) (v : Nat), ReadableX s.th x → v = xVal s.th x →
    (PacqWord v → NamesGangQuad s sc v → QuadVisible s (v % 2 ^ 9) s.seq →
      exec (.pacq x sc) s = .next (withThread s (goNext (acquired s sc s.th))))
    ∧ (PacqWord v → NamesGangQuad s sc v → ¬QuadVisible s (v % 2 ^ 9) s.seq →
      exec (.pacq x sc) s
        = .next { withThread s { s.th with wait := .pacq (v % 2 ^ 9) s.seq sc } with seq := s.seq + 1 })
    ∧ (¬PacqWord v → CanHold s 1 → exec (.pacq x sc) s = .next (faulted s 0x02 0 0 0 none))
    ∧ (PacqWord v → ¬NamesGangQuad s sc v → CanHold s 1 → exec (.pacq x sc) s = .next (faulted s 0x09 (word v) 0 0 none)))
  ∧ (∀ (s : State) (sc : Scope),
    (sc.code < 3 ∨ Drained s → exec (.hdrain sc) s = .next (done s))
    ∧ (3 ≤ sc.code → ¬Drained s → exec (.hdrain sc) s = .next s))

/-- R199 to R204: `msend`, `msendv` and `msenda` hold their message, or deliver it at once to a thread of the quad that
takes it; the receiving instructions take, show and count messages; `mwait` clears the wake bit or waits. Of `xb` only bits 15:0
count. That `msenda`'s permission fault has `faddr` 0 is the model's reading (log entry 59). -/
def Obligations.MessageInstructions : Prop :=
  (∀ (i : Instr) (s : State) (kind : Nat) (v : Option Rv) (a b : Rx), sendOp i = some (kind, v, a, b) →
    ReadableX s.th a → ReadableX s.th b → SendReadable s.th v →
    (∀ (g : Gang) (c : Nat), s.gangs.get? s.th.gang = some g → g.cores[xVal s.th a / 2]? = some c →
      (¬TakesNow s (2 * c + xVal s.th a % 2) (xVal s.th a) → CanHold s 1 →
        exec i s = .next (done (entered (released s (commonScope (s.tid / 2) c)) (.message
          ⟨s.th.gang, xVal s.th a, sentMessage s kind v (xVal s.th b) (commonScope (s.tid / 2) c) true 0⟩) [])))
      ∧ (TakesNow s (2 * c + xVal s.th a % 2) (xVal s.th a) → g.resident = true →
        ∃ t, exec i s = .next t ∧ t.th.pc = s.th.pc + 4 ∧ RegsKept s.th t.th [] [] [] [] [] ∧ SpecialKept s.th t.th
          ∧ t.cores = s.cores ∧ t.mem = s.mem
          ∧ (t.thread (2 * c + xVal s.th a % 2)).inbox = (s.thread (2 * c + xVal s.th a % 2)).inbox
              ++ [sentMessage s kind v (xVal s.th b) (commonScope (s.tid / 2) c) false s.seq]
          ∧ (t.thread (2 * c + xVal s.th a % 2)).wake = true))
    ∧ ((∀ g, s.gangs.get? s.th.gang = some g → 2 * g.cores.length ≤ xVal s.th a) → CanHold s 1 →
      exec i s = .next (faulted s 0x09 (word (xVal s.th a)) 0 0 none)))
  ∧ (∀ (s : State) (a b : Rx), ReadableX s.th a → ReadableX s.th b → PayloadReadable s.th → CanHold s 1 →
    (∀ (g : Gang) (c : Nat), s.gangs.get? s.th.gang = some g → g.cores[xVal s.th a]? = some c →
      (xVal s.th b % 2 ^ 16 < g.entries.length →
        exec (.msenda a b) s = .next (done (entered (released s (commonScope (s.tid / 2) c)) (.start
          ⟨s.th.gang, xVal s.th a, xVal s.th b % 2 ^ 16, BitVec.ofNat 512 (eightWords s.th), .member s.th.gang s.th.rank,
           xVal s.th b % 2 ^ 16, s.th.born⟩) [])))
      ∧ (g.entries.length ≤ xVal s.th b % 2 ^ 16 → exec (.msenda a b) s = .next (faulted s 0x02 0 0 0 none)))
    ∧ ((∀ g, s.gangs.get? s.th.gang = some g → g.cores.length ≤ xVal s.th a) →
      exec (.msenda a b) s = .next (faulted s 0x09 0 0 0 none)))
  ∧ (∀ (s : State) (d : Rx) (v : Rv),
    (s.th.inbox = [] → exec (.mrecv d v) s = .next (withThread s (goNext (putX s.th d 0)))
      ∧ exec (.mpeek d) s = .next (withThread s (goNext (putX s.th d 0))))
    ∧ (∀ m rest, s.th.inbox = m :: rest →
      exec (.mrecv d v) s = .next (withThread s (goNext (acquired s m.scope (receives { s.th with inbox := rest } d v m))))
        ∧ exec (.mpeek d) s = .next (withThread s (goNext (putX s.th d m.header)))))
  ∧ (∀ (s : State) (d : Rx),
    exec (.mcount d) s = .next (withThread s (goNext (putX s.th d (word (s.th.inbox.length + s.th.overflow.length))))))
  ∧ (∀ (s : State) (d a : Rx), ReadableX s.th a →
    (s.th.inbox ≠ [] ∨ s.th.wake = true →
      exec (.mwait d a) s = .next (withThread s (goNext (putX { s.th with wake := false } d 0))))
    ∧ (s.th.inbox = [] → s.th.wake = false →
      exec (.mwait d a) s = .next (withThread s { s.th with wait := .mwait d (timeOut s (xVal s.th a)) })))

/-- R206 to R208: arrivals raise the count and are signalled or held, and wait while the count is 2 ahead; `hwait` and `htest`
compare with the completed generation, and fault beyond the count; a thread outside the domain faults; `xphase` arrives
and waits, or waits for a clock value; `xsend` holds 256 bytes as they stand, or takes the first fault of its table. -/
def Obligations.HurdleInstructions : Prop :=
  (∀ (s : State) (g : Gang) (dom : Fin 4) (lvl : Scope) (d : Rx) (n : Nat), InHurdle s g dom → n = s.th.count dom lvl →
    (n < completedFor s g dom lvl + 2 → (3 ≤ lvl.code → CanHold s 1) →
      exec (.harrive d dom lvl) s
          = .next (withThread (arrived s dom lvl) (goNext (putX (arrived s dom lvl).th d (word (n + 1)))))
        ∧ exec (.hurdle dom lvl) s = .next (waitsFor (arrived s dom lvl) dom lvl (n + 1) .plain))
    ∧ (completedFor s g dom lvl + 2 ≤ n → exec (.harrive d dom lvl) s = .next s ∧ exec (.hurdle dom lvl) s = .next s))
  ∧ (∀ (s : State) (g : Gang) (dom : Fin 4) (lvl : Scope) (d a : Rx), InHurdle s g dom → ReadableX s.th a →
    (xVal s.th a ≤ s.th.count dom lvl → xVal s.th a ≤ completedFor s g dom lvl →
      exec (.hwait a dom lvl) s = .next (withThread s (goNext (acquired s lvl s.th)))
        ∧ exec (.htest d a dom lvl) s = .next (withThread s (goNext (putX (acquired s lvl s.th) d 1))))
    ∧ (xVal s.th a ≤ s.th.count dom lvl → completedFor s g dom lvl < xVal s.th a →
      exec (.hwait a dom lvl) s = .next (waitsFor s dom lvl (xVal s.th a) .plain)
        ∧ ((g.heatMode = false ∨ dom ≠ 0 ∨ lvl ≠ g.scope) →
          exec (.htest d a dom lvl) s = .next (withThread s (goNext (putX s.th d 0))))
        ∧ (g.heatMode = true → dom = 0 → lvl = g.scope →
          exec (.htest d a dom lvl) s = .next (waitsFor s dom lvl (xVal s.th a) (.test d))))
    ∧ (s.th.count dom lvl < xVal s.th a → CanHold s 1 → exec (.hwait a dom lvl) s = .next (faulted s 0x02 0 0 0 none)
        ∧ exec (.htest d a dom lvl) s = .next (faulted s 0x02 0 0 0 none)))
  ∧ (∀ (i : Instr) (s : State) (dom : Fin 4) (lvl : Scope) (d a : Rx),
    (i = .hurdle dom lvl ∨ i = .harrive d dom lvl ∨ i = .hwait a dom lvl ∨ i = .htest d a dom lvl
      ∨ (dom = 0 ∧ (i = .xphase d ∨ i = .xphaseWait d a))) →
    (∀ g, ¬InHurdle s g dom) → CanHold s 1 → exec i s = .next (faulted s 0x02 0 0 0 none))
  ∧ (∀ (s : State) (g : Gang) (d a : Rx), InHurdle s g 0 →
    (g.slots = none → CanHold s 1 → exec (.xphase d) s = .next (faulted s 0x02 0 0 0 none)
      ∧ exec (.xphaseWait d a) s = .next (faulted s 0x02 0 0 0 none))
    ∧ (∀ (t : Slots) (n : Nat), g.slots = some t → n = s.th.count 0 g.scope → n < completedFor s g 0 g.scope + 2 →
      (3 ≤ g.scope.code → CanHold s 1) →
      exec (.xphase d) s = .next (waitsFor (arrived s 0 g.scope) 0 g.scope (n + 1) (.phase d)))
    ∧ (∀ (t : Slots), g.slots = some t → ReadableX s.th a →
      ((s.core (s.tid / 2)).phase = none → CanHold s 1 →
        exec (.xphaseWait d a) s = .next (faulted s 0x0C 0 (word (2 ^ 16)) 0 none))
      ∧ (∀ c, (s.core (s.tid / 2)).phase = some c → exec (.xphaseWait d a) s = .next (withThread s
          { s.th with wait := .phase d (if t.period = 0 then 0 else xVal s.th a % t.period), stoppedAt := s.cycle }))))
  ∧ (∀ (s : State) (g : Gang) (d a b : Rx), s.gangs.get? s.th.gang = some g → ReadableX s.th d → ReadableX s.th a →
    ReadableX s.th b → CanHold s 1 →
    (∀ c ad inf, exchangeFault s g (xVal s.th d) (xVal s.th a) (xVal s.th b) = some (c, ad, inf) →
      exec (.xsend d a b) s = .next (faulted s c (word ad) (word inf) 0 none))
    ∧ (∀ (c : Nat), exchangeFault s g (xVal s.th d) (xVal s.th a) (xVal s.th b) = none →
      g.cores[xVal s.th d]? = some c → Clean s (localBase (s.tid / 2) + xVal s.th a) 256 →
      (∀ e ∈ (s.core (s.tid / 2)).hold, e.cycle = s.cycle → ∀ l bs, e.effect ≠ .xsend l bs) →
      ∀ (u : State) (vals : List (List Byte)), loadUnits s [lineOf (s.tid / 2) (xVal s.th a)] = .ok (vals, u) →
      exec (.xsend d a b) s = .next (done (entered (u.detect s.tid true false .retired s.cycle (lineOf c (xVal s.th b)))
        (.xsend (lineOf c (xVal s.th b)) (viewBytes s (whoTh s) (lineOf (s.tid / 2) (xVal s.th a)))) []))))

/-- R209 to R215: the shadows take a whole reference; `cpgo` checks its shadows in order, holds the transfer they describe
as a release at section, and gives its handle, or waits while eight transfers of the thread have not ended; `cpwp` and `cpstat`
report on a handle, and `cpcancel` is held. At its release a launch reaches its section's engines, and a cancel ends a queued
transfer, and stops a running one at its next boundary of 256 bytes. A reference that fails its own check or its object's is the fault of the launch, the
source's first. The model's readings: CAUSE in `cpstat` (log entry 33) and `cpwp` 0 in replay mode (68). -/
def Obligations.CopyInstructions : Prop :=
  (∀ (s : State) (a : Ra), Readable s.th (.a a) →
    exec (.cpsetSrc a) s = .next (withThread s (goNext { s.th with cpsrc := s.th.a[a] }))
      ∧ exec (.cpsetDst a) s = .next (withThread s (goNext { s.th with cpdst := s.th.a[a] })))
  ∧ (∀ (s : State) (d b : Rx), ReadableX s.th b →
    (ModeOk s.th → CopyRefsOk s → spaceOf s.th.cpdst ≠ 5 → SpacesOk s.th → LengthOk s.th →
      (((transfersOf s s.th).filter fun x => !x.ended).length < 8 → CanHold s 1 →
        ∃ x, Described s (xVal s.th b) x ∧ ∀ u, takeQuota s (whoTh s) (launchLines x) (word (refBits s.th.cpdst 0 44)) = .ok u →
          ∃ e, e = entered (released u .sect) (.launch x) []
            ∧ exec (.cpgo d b) s = .next (withThread e (goNext (putX
                { e.th with cpseq := if s.th.cpseq = 0xFFFF then 1 else s.th.cpseq + 1 } d x.handle))))
      ∧ (8 ≤ ((transfersOf s s.th).filter fun x => !x.ended).length → exec (.cpgo d b) s = .next s))
    ∧ (CanHold s 1 →
      (¬ModeOk s.th → exec (.cpgo d b) s = .next (faulted s 0x02 0 0 0 none))
      ∧ (∀ c fa k, ModeOk s.th → copyKind s.th ≠ 4 → CopyRefFault s s.th.cpsrc false c fa k →
        exec (.cpgo d b) s = .next (faulted s c (word fa) 0 0 k))
      ∧ (∀ c fa k, ModeOk s.th → (copyKind s.th ≠ 4 → Launchable s s.th.cpsrc .load) → CopyRefFault s s.th.cpdst true c fa k →
        exec (.cpgo d b) s = .next (faulted s c (word fa) 0 0 k))
      ∧ (ModeOk s.th → CopyRefsOk s → spaceOf s.th.cpdst = 5 →
        exec (.cpgo d b) s = .next (faulted s 0x09 (word (refBits s.th.cpdst 0 44)) 0 0 none))
      ∧ (ModeOk s.th → CopyRefsOk s → spaceOf s.th.cpdst ≠ 5 → ¬SpacesOk s.th →
        exec (.cpgo d b) s = .next (faulted s 0x02 0 0 0 none))
      ∧ (ModeOk s.th → CopyRefsOk s → spaceOf s.th.cpdst ≠ 5 → SpacesOk s.th → ¬LengthOk s.th →
        exec (.cpgo d b) s = .next (faulted s 0x05 0 0 0 none))))
  ∧ (∀ (s : State) (d a : Rx), ReadableX s.th a →
    (findTransfer s (word (xVal s.th a)) = none →
      exec (.cpwp d a) s = .next (withThread s (goNext (putX s.th d 0)))
        ∧ exec (.cpstat d a) s = .next (withThread s (goNext (putX s.th d 7))))
    ∧ (∀ x, findTransfer s (word (xVal s.th a)) = some x → x.handle = word (xVal s.th a) ∧ x.owner = s.th.born
      ∧ exec (.cpwp d a) s
          = .next (withThread s (goNext (putX (acquired s (scopeOf x.scope) s.th) d (word (shownPointer s x)))))
      ∧ exec (.cpstat d a) s = .next (withThread s (goNext (putX
          (if x.state = 2 then acquired s (scopeOf x.scope) s.th else s.th) d
          (word (x.state + (if x.state = 4 then x.cause * 256 else 0)))))))
    ∧ (CanHold s 1 → exec (.cpcancel a) s = .next (done (entered s (.cancel s.th.born (word (xVal s.th a))) []))))
  ∧ (∀ (s : State) (core : Nat) (e : HoldEntry) (rest : List HoldEntry), AtHead s core e rest →
    (∀ x, e.effect = .launch x → ∃ u y, ReleasedTo s u core rest ∧ u.mem = s.mem
      ∧ (u.sect (sectHere e.tid)).transfers = (s.sect (sectHere e.tid)).transfers ++ [y]
      ∧ { y with workedAt := x.workedAt, snap := x.snap, paused := x.paused } = x)
    ∧ (∀ owner h, e.effect = .cancel owner h → ∃ u, ReleasedTo s u core rest ∧ u.mem = s.mem
      ∧ ∀ (sec j : Nat) (x : Transfer), (s.sect sec).transfers[j]? = some x → ∃ y : Transfer, (u.sect sec).transfers[j]? = some y
        ∧ (x.owner = owner → x.handle = h → x.state = 0 → y = { x with state := 5 })
        ∧ (x.owner = owner → x.handle = h → (x.state = 1 ∨ x.state = 3) → y = { x with stopAt := some ((x.done + 255) / 256 * 256) })
        ∧ ((x.owner ≠ owner ∨ x.handle ≠ h) → y = x)))

/-- R184, R218 to R221, R351: `spawn` holds its task for the die queue that takes it, `tqget` is a held request for its
registers and an acquire, `gatedec` holds a gate's decrement, and `tqdone` holds that of the current task, or, with a `tqget`
that has not returned or without a task to end, an effect that finds the task at its release; the first three are checked as their
rules say. At their release a spawned task enters its die's queue, or waits while the queue is full; a gate's count falls, and the
tasks that wait on it become eligible; and a `tqget` takes the task that R352 selects, or none, its reply holding the header and the
payload for `x10` to `x17`. The model's readings: `tqdone` always takes an entry and `tqget` waits for pending payload registers (log entry 56), and
the scope of a gate's change (114). -/
def Obligations.TaskInstructions : Prop :=
  (∀ (s : State) (a : Rx) (g : Gang), ReadableX s.th a → PayloadReadable s.th → s.gangs.get? s.th.gang = some g → CanHold s 1 →
    ((contextOf s s.th.gang).spawnOk = false → exec (.spawn a) s = .next (faulted s 0x09 0 0 0 none))
    ∧ ((contextOf s s.th.gang).spawnOk = true → ¬ControlOk g (xVal s.th a) →
      exec (.spawn a) s = .next (faulted s 0x02 0 0 0 none))
    ∧ (∀ (feat : Nat), (contextOf s s.th.gang).spawnOk = true → ControlOk g (xVal s.th a) →
      feat = (g.entries.getD (xVal s.th a % 2 ^ 16) 0).toNat / 2 ^ 48 % 2 ^ 8 →
      (∀ (die : Nat) (sc : Scope), QueueDie s g feat die → sc = (if die = s.tid / 1024 then .die else .package) →
        exec (.spawn a) s = .next (done (entered (released s sc) (.spawn die
          { control := word (xVal s.th a), payload := BitVec.ofNat 512 (eightWords s.th), feat, eligible := false, scope := sc, age := 0 }) [])))
      ∧ ((∀ die, ¬QueueDie s g feat die) → exec (.spawn a) s = .next (faulted s 0x03 0 0 0 none))))
  ∧ (∀ (s : State) (d : Rx),
    ((∀ i, i < 8 → ∀ e ∈ s.th.pend, e.1 ≠ .x (payloadReg i)) → CanHold s 1 →
      ∃ t, exec (.tqget d) s = .next t ∧ t.th.pc = s.th.pc + 4 ∧ t.mem = s.mem ∧ RegsKept s.th t.th [] [] [] [] []
        ∧ SpecialKept s.th t.th ∧ heldBy t (s.tid / 2) = heldBy s (s.tid / 2) ++ [.tqget d]
        ∧ t.th.tq = s.seq :: s.th.tq ∧ t.th.loadAfter = s.seq + 1
        ∧ (∀ i, i < 8 → (.x (payloadReg i), s.seq) ∈ t.th.pend) ∧ (d ≠ 0 → (.x d, s.seq) ∈ t.th.pend))
    ∧ ((∃ i, i < 8 ∧ ∃ e ∈ s.th.pend, e.1 = .x (payloadReg i)) → exec (.tqget d) s = .next s))
  ∧ (∀ (s : State) (a b : Rx), ReadableX s.th a → ReadableX s.th b → CanHold s 1 →
    (∀ g, s.gangs.get? s.th.gang = some g → xVal s.th a ≠ 0 → xVal s.th a ≤ 4095 →
      exec (.gatedec a b) s = .next (done (entered (released s (gateReach s g))
        (.gatedec (xVal s.th a) (BitVec.ofNat 32 (xVal s.th b)) (gateReach s g)) [])))
    ∧ ((xVal s.th a = 0 ∨ 4095 < xVal s.th a) → exec (.gatedec a b) s = .next (faulted s 0x02 0 0 0 none)))
  ∧ (∀ (s : State), CanHold s 1 →
    (s.gangs.get? s.th.gang = none → exec .tqdone s = .next (done (entered s .tqdone [])))
    ∧ (∀ g, s.gangs.get? s.th.gang = some g →
      (∀ k, s.th.task = some k → k.done ≠ 0 → s.th.tq = [] →
        exec .tqdone s = .next (done (entered (released (withThread s { s.th with task := none }) (gateReach s g))
          (.gatedec k.done 1 (gateReach s g)) [])))
      ∧ ((s.th.task = none ∨ s.th.tq ≠ [] ∨ ∃ k, s.th.task = some k ∧ k.done = 0) →
        exec .tqdone s = .next (done (entered (released s (gateReach s g)) .tqdone [])))))
  ∧ (∀ (s : State) (core : Nat) (e : HoldEntry) (rest : List HoldEntry) (g : Gang), AtHead s core e rest →
    s.gangs.get? (s.thread e.tid).gang = some g →
    (∀ die k, e.effect = .spawn die k →
      ((g.queue die).tasks.length < 1024 → ∃ u g' k', ReleasedTo s u core rest ∧ u.mem = s.mem
        ∧ u.gangs.get? (s.thread e.tid).gang = some g' ∧ (g'.queue die).tasks = (g.queue die).tasks ++ [k']
        ∧ k'.control = k.control ∧ k'.payload = k.payload ∧ k'.feat = k.feat
        ∧ (k'.eligible = true ↔ waitOf k = 0 ∨ (g.gate (waitOf k)).toInt ≤ 0))
      ∧ (1024 ≤ (g.queue die).tasks.length → releaseHead s core = none))
    ∧ (∀ n delta sc, e.effect = .gatedec n delta sc → n ≠ 0 → ∃ u g', ReleasedTo s u core rest ∧ u.mem = s.mem
      ∧ u.gangs.get? (s.thread e.tid).gang = some g' ∧ GateFell g g' n delta)
    ∧ (∀ k, e.effect = .tqdone → (s.thread e.tid).task = some k → k.done ≠ 0 → ∃ u g', ReleasedTo s u core rest ∧ u.mem = s.mem
      ∧ u.gangs.get? (s.thread e.tid).gang = some g' ∧ GateFell g g' k.done 1 ∧ (u.thread e.tid).task = none)
    ∧ (e.effect = .tqdone → (∀ k, (s.thread e.tid).task = some k → k.done = 0) → ∃ u, ReleasedTo s u core rest ∧ u.mem = s.mem
      ∧ u.gangs = s.gangs ∧ ∀ k, u.thread k = s.thread k)
    ∧ (∀ d, e.effect = .tqget d →
      (∀ i k rec', Selects (g.queue (core / 512)) core i k → rec' = (g.entries.getD (k.control.toNat % 2 ^ 16) 0).toNat →
        ∃ u g' r, ReleasedTo s u core rest ∧ u.mem = s.mem ∧ u.gangs.get? (s.thread e.tid).gang = some g'
          ∧ (g'.queue (core / 512)).tasks = (g.queue (core / 512)).tasks.eraseIdx i
          ∧ (g'.queue (core / 512)).selections = (g.queue (core / 512)).selections + 1
          ∧ (u.core core).replies = (s.core core).replies ++ [r] ∧ r.seq = e.seq ∧ r.tid = e.tid ∧ r.poisoned = false
          ∧ r.writes = (DestReg.x d, 2 ^ 63 + priOf k * 2 ^ 44 + rec' % 2 ^ 44)
              :: ((List.range 8).map fun j => (DestReg.x (payloadReg j), k.payload.toNat / 2 ^ (64 * j) % 2 ^ 64))
          ∧ r.task = some ⟨k.control.toNat % 2 ^ 16, k.control.toNat / 2 ^ 32 % 2 ^ 12⟩)
      ∧ ((∀ i k, ¬TakeableAt (g.queue (core / 512)) core i k) → ∃ u, ReleasedTo s u core rest ∧ u.mem = s.mem ∧ u.gangs = s.gangs
        ∧ RepliesWith s u core e [(.x d, 0)])))

namespace Sys2Proof.Claims

/-! ### CSRs (03 R74 to R76; 08 R231, R232) -/

/-- The thread's place in its domains (R272). -/
def domainWord (s : State) (dom : Fin 4) : Nat :=
  match s.gangs.get? s.th.gang with
  | none => 0
  | some g =>
    let own := g.cores.idxOf? (s.tid / 2)
    let size := (g.domain dom).length
    let member := if s.tid < 4096 ∧ own.isSome ∧ s.tid % 2 < g.threads then 2 ^ 62 else 0
    match own with
    | some p => if p ∈ g.domain dom then 2 ^ 63 + member + size * 2 ^ 16 + ((g.domain dom).filter fun q => decide (q < p)).length
                else member + size * 2 ^ 16
    | none => member + size * 2 ^ 16

/-- Bit `r` is 1 when tile register `r` is live (R155). -/
def liveBits (t : Thread) : Nat := ((List.range 16).map fun i => if (t.t[(Fin.ofNat 16 i : Rt)]).isSome then 2 ^ i else 0).sum

/-- Requests that a quad may still start in the current epoch of 1,000 cycles (R354, R355). -/
def epochLeft (s : State) (limit : Nat) : Nat :=
  if limit = 0 then 0xFFFF
  else if (s.quad (s.tid / 8)).epoch = s.cycle / 1000 then (s.quad (s.tid / 8)).left else limit

/-- Free physical tiles of an engine as every thread sees them in a cycle: their number at its start (R155). -/
def freeShown (s : State) (e : Nat) : Nat :=
  match (s.engine e).snap with
  | some (c, n) => if c = s.cycle then n else (freeTiles s e).length
  | none => (freeTiles s e).length

/-- What a CSR reads as: its number, or none for the table's plain registers of the thread. -/
def csrRead (s : State) (n : Csr) : Word :=
  match n with
  | .fcsr => s.th.fcsr
  | .vlen => 0x00800400
  | .tdim => 0x00000C20
  | .tkstep => 0x00100804
  | .holdw => 0x05200080
  | .coreid => word (s.pkg % 2 ^ 10 * 2 ^ 32 + (if dieHere s.tid % 2 = 0 then 2 ^ 11 else 0) + s.tid / 2 % 2 ^ 11)
  | .thid => word (s.tid % 2 ^ 12)
  | .ortb => (contextOf s s.th.gang).ortb
  | .keysel => (contextOf s s.th.gang).keysel
  | .lmsplit => word (s.core (s.tid / 2)).lmsplit.toNat
  | .smsplit => word (s.sect (if 4096 ≤ s.tid then s.tid - 4096 else s.tid / 64)).smsplit.toNat
  | .vpool => if (s.quad (s.tid / 8)).vpool then 1 else 0
  | .hdom0 => word (domainWord s 0)
  | .hdom1 => word (domainWord s 1)
  | .hdom2 => word (domainWord s 2)
  | .hdom3 => word (domainWord s 3)
  | .cpsrc => word (s.th.cpsrc.toNat % 2 ^ 64)
  | .cpdst => word (s.th.cpdst.toNat % 2 ^ 64)
  | .cplen => s.th.cplen
  | .cpstride => s.th.cpstride
  | .cpshape => s.th.cpshape
  | .cpmode => s.th.cpmode
  | .cplaunch => 0
  | .fcause => s.th.fcause
  | .faddr => s.th.faddr
  | .fstep => s.th.fstep
  | .finfo => s.th.finfo
  | .epc => s.th.epc
  | .recallcnt => (s.quad (s.tid / 8)).recallcnt
  | .tstat => word (freeShown s (2 * (s.tid / 8) + 1) * 2 ^ 40 + freeShown s (2 * (s.tid / 8)) * 2 ^ 32
      + liveBits s.th)
  | .budget => word ((contextOf s s.th.gang).qlimit * 2 ^ 40 + (999 - s.cycle % 1000) * 2 ^ 16
      + epochLeft s (contextOf s s.th.gang).qlimit)

/-- A user-level write: the thread's own RW and WO fields take their bits, and every other CSR ignores it (R8, R75, R209). -/
def userWrite (t : Thread) (n : Csr) (v : Nat) : Thread :=
  match n with
  | .fcsr => { t with fcsr := word (v % 2 ^ 6 + v / 2 ^ 8 % 2 ^ 6 * 2 ^ 8 + v / 2 ^ 16 % 4 * 2 ^ 16) }
  | .cpsrc => { t with cpsrc := refWith t.cpsrc 0 64 v }
  | .cpdst => { t with cpdst := refWith t.cpdst 0 64 v }
  | .cplen => { t with cplen := word (v % 2 ^ 44) }
  | .cpstride => { t with cpstride := word v }
  | .cpshape => { t with cpshape := word v }
  | .cpmode => { t with cpmode := word (v % 2 ^ 11) }
  | .cplaunch => if v % 4 = 3 then t else { t with cpeng := BitVec.ofNat 2 v }
  | _ => t

/-- The number of a thread's context. -/
def contextId (s : State) : Nat := ((s.gangs.get? s.th.gang).map (·.ctx)).getD 0

/-- A privileged write reaches the fault record, the context's table and keys, and the splits besides (R224, R267 to R269,
R308, R339). -/
def privilegedWrite (s : State) (n : Csr) (v : Nat) : State :=
  let t := s.th
  let c := contextOf s t.gang
  match n with
  | .ortb =>
    let logn := if v % 2 ^ 6 < 37 then v % 2 ^ 6 else c.ortb.toNat % 2 ^ 6
    { s with contexts := s.contexts.put (contextId s) { c with ortb := word (v / 2 ^ 7 % 2 ^ 49 * 2 ^ 7 + logn) } }
  | .keysel => { s with contexts := s.contexts.put (contextId s) { c with keysel := word (v % 2 ^ 17) } }
  | .lmsplit => { s with cores := s.cores.put (s.tid / 2) { s.core (s.tid / 2) with lmsplit := BitVec.ofNat 2 v } }
  | .smsplit =>
    let sec := if 4096 ≤ s.tid then s.tid - 4096 else s.tid / 64
    if v % 2 ^ 4 ≤ 8 then { s with sections := s.sections.put sec { s.sect sec with smsplit := BitVec.ofNat 4 v } } else s
  | .vpool => { s with quads := s.quads.put (s.tid / 8) { s.quad (s.tid / 8) with vpool := decide (v % 2 = 1) } }
  | .fcause => withThread s { t with fcause := word (v % 2 ^ 9) }
  | .faddr => withThread s { t with faddr := word v }
  | .fstep => withThread s { t with fstep := word (v % 2 ^ 16) }
  | .finfo => withThread s { t with finfo := word v }
  | .epc => withThread s { t with epc := word (v % 2 ^ 44 / 4 * 4) }
  | n => withThread s (userWrite t n v)

/-- A write at the thread's level. -/
def csrWritten (s : State) (n : Csr) (v : Nat) : State :=
  if s.th.privileged then privilegedWrite s n v else withThread s (userWrite s.th n v)

/-- The CSR that an instruction names, its destination, its source, and the value it writes from the old one, if any (R231). -/
def csrForm (t : Thread) (old : Nat) : Instr → Option (Rx × Rx × Csr × Option Nat)
  | .csrrd d n => some (d, 0, n, none)
  | .csrwr d a n => some (d, a, n, some (xVal t a))
  | .csrset d a n => some (d, a, n, if a = 0 then none else some (old ||| xVal t a))
  | .csrclr d a n => some (d, a, n, if a = 0 then none else some (old &&& (2 ^ 64 - 1 - xVal t a)))
  | _ => none

/-- The thread's record after `xd` is written, in a state. -/
def answered (s : State) (d : Rx) (v : Word) : State := withThread s (goNext (putX s.th d v))

/-! ### Privileged units (08 R229, R233 to R235; 15 R358) -/

/-- The thread record of R229. -/
def fromFault (t : Thread) : Thread :=
  { t with pc := t.epc, privileged := t.fcause.getLsbD 8, fcause := 0 }

/-- A residency fault is over: the record that it had replaced is back (R223). -/
def recordReturned (t : Thread) : Thread :=
  match t.before with
  | [c, a, p, i, e] => { t with fcause := c, faddr := a, fstep := p, finfo := i, epc := e, before := [] }
  | _ => { t with before := [] }

/-- A thread number of the service core's own section. -/
def OwnThread (s : State) (k : Nat) : Prop := k < 4096 ∧ k / 64 = s.tid - 4096

/-- The kinds of `scrub` share one word (R233, R234). -/
def scrubOp : Instr → Option (Rx × Rx)
  | .scrubCore d a | .scrubQuad d a | .scrubSection d a | .scrubQuadShare d a => some (d, a)
  | _ => none

/-- Units of a kind of `scrub` (R234). -/
def scrubUnits (kind : Nat) : Nat := if kind = 0 then 2048 else if kind = 1 ∨ kind = 3 then 512 else if kind = 2 then 64 else 0

/-- The cores that a unit of `scrub` belongs to. -/
def scrubCores (kind n : Nat) : List Nat :=
  if kind = 0 then [n] else if kind = 2 then (List.range 32).map fun i => 32 * n + i else (List.range 4).map fun i => 4 * n + i

/-- A thread runs in the unit, or, for a share, a gang wider than a quad runs in its section (R234, R349). -/
def ScrubBusy (s : State) (kind n : Nat) : Prop :=
  (∃ c ∈ scrubCores kind n, ∃ i, i < 2 ∧ (s.thread (2 * c + i)).run ≠ .never ∧ (s.thread (2 * c + i)).run ≠ .ended)
    ∨ (kind = 3 ∧ ∃ e ∈ s.gangs, e.2.resident = true ∧ 1 ≤ e.2.level ∧ ∃ c ∈ e.2.cores, c / 32 = n / 8)

/-- The bytes that it clears: where they lie, and how many. -/
def scrubRange (s : State) (kind n : Nat) : Nat × Nat :=
  if kind = 0 then (localBase n, 2 ^ 18)
  else if kind = 1 then (quadBase n, 2 ^ 21)
  else if kind = 2 then (sectionBase n, sramBytes s n)
  else (sectionBase (n / 8) + n % 8 * (sramBytes s (n / 8) / 8), sramBytes s (n / 8) / 8)

/-- Every count and number of a context fits its field of the image (R358). -/
def ImageFits (t : Thread) : Prop := t.pc.toNat < 2 ^ 44 ∧ ∀ n ∈ t.counts.toList, n < 2 ^ 64

end Sys2Proof.Claims

/-- R82, R84, R226 to R230, R236 to R238: system calls, breakpoints, traps and undefined words take their fault, in a gang's
thread by a trap record and in a service core in its own handler; `waiti` reports and clears the latch, or waits; hints
only retire, but that `hprio` sets the weight and a prefetch may charge the pacer. That a service core's fault goes on at an offset
of its firmware, at privileged level, is the model's choice (log entry 8). -/
def Obligations.SystemInstructions : Prop :=
  (∀ (s : State) (c : BitVec 15) (w : IWord),
    (CanHold s 1 →
      exec (.syscall c) s = .next (faulted s 0x11 0 (word c.toNat) 0 none)
        ∧ exec (.brk c) s = .next (faulted s 0x0F 0 (word c.toNat) 0 none)
        ∧ exec (.undefinedInstruction w) s = .next (faulted s 0x01 0 0 0 none))
    ∧ (4096 ≤ s.tid → exec (.syscall c) s = .next (withThread s
        { faultRecord s.th 0x11 0 (word c.toNat) 0 none with
          privileged := true, pc := word (Config.serviceHandler.toNat % 2 ^ 44 / 4 * 4) })))
  ∧ (∀ (s : State) (a b : Rx), ReadableX s.th a → ReadableX s.th b →
    (xVal s.th a = 0 → exec (.trap a b) s = .next (done s))
    ∧ (xVal s.th a ≠ 0 → CanHold s 1 → exec (.trap a b) s = .next (faulted s 0x0F 0 (word (xVal s.th b)) 0 none)))
  ∧ (∀ (s : State) (d a : Rx), ReadableX s.th a →
    (s.th.wake = true ∨ s.th.latch ≠ 0 → exec (.waiti d a) s = .next (withThread s (goNext (putX { s.th with latch := 0 } d
      (word ((if s.th.wake then 1 else 0) + 2 * s.th.latch.toNat))))))
    ∧ (s.th.wake = false → s.th.latch = 0 →
      exec (.waiti d a) s = .next (withThread s { s.th with wait := .waiti d (timeOut s (xVal s.th a)) })))
  ∧ (∀ (i : Instr) (s : State), ((∃ g, i = .nop g) ∨ (∃ r x l g, i = .hstream r x l g) ∨ (∃ r x l v g, i = .hevict r x l v g)
      ∨ (∃ c n, i = .hloop c n) ∨ (∃ h g, i = .hint h g)) → exec i s = .next (done s))
  ∧ (∀ (s : State) (g : BitVec 18) (n : BitVec 2),
    exec (.hprio g n) s = .next (withThread s (goNext { s.th with hprio := n })))
  ∧ (∀ (s : State) (r : Ra) (x : Rx) (l : BitVec 5) (v : BitVec 2) (g : BitVec 4),
    ∃ t, exec (.hpref r x l v g) s = .next t ∧ t.th = goNext s.th ∧ MemoryAndOthersKept s t ∧ t.cores = s.cores)

/-- R74 to R76, R231, R232: a CSR instruction gives `xd` the old value and writes the new one as the access code and the
level allow, and changes nothing else; a gang's thread that names `ortb` or `keysel` takes a privilege fault. The model's readings:
privileged writes of the fault record, with bits 1:0 of `epc` zero (log entry 60), `coreid` and `thid` of a service core (105), and
FREE as the tiles that the cycle began with (112). -/
def Obligations.CsrInstructions : Prop :=
  ∀ (i : Instr) (s : State) (d a : Rx) (n : Csr) (new : Option Nat),
    csrForm s.th (csrRead s n).toNat i = some (d, a, n, new) →
    ((s.th.privileged = true ∨ (n ≠ .ortb ∧ n ≠ .keysel)) → ReadableX s.th a →
      exec i s = .next (answered (match new with
        | none => s
        | some v => csrWritten s n v) d (csrRead s n)))
    ∧ (s.th.privileged = false → n = .ortb ∨ n = .keysel → CanHold s 1 → exec i s = .next (faulted s 0x04 0 0 0 none))

/-- R229, R233 to R235, R358: `eret` returns from a fault or lets a thread in service go on; the four kinds of `scrub` clear a
unit in which nothing runs, and no other byte: a core's with its inboxes and latches, a quad's with its journal, tiles and ring
endpoints; `ctxsave` writes a context's image and `ctxload` fills a free context from
one, which restores what was saved; at user level each is a privilege fault. The model's readings: marks and messages that `ctxload`
puts back (log entries 30 and 63), that a scrub of a section spares the whole service region (36), that a context in service or
stopped counts as one that runs (136), and `ctxsave` of a context with no thread (137). -/
def Obligations.PrivilegedUnits : Prop :=
  (∀ (s : State) (d : Rx), s.th.privileged = true →
    exec .eret s = .next (withThread s (fromFault s.th)) ∧ exec (.eretThread d 0) s = .next (withThread s (fromFault s.th)))
  ∧ (∀ (s : State) (d a : Rx) (k : Nat), s.th.privileged = true → 4096 ≤ s.tid → a ≠ 0 → ReadableX s.th a → k = xVal s.th a →
    (¬OwnThread s k → exec (.eretThread d a) s = .next (answered s d 2))
    ∧ (OwnThread s k → (s.thread k).run ≠ .service → exec (.eretThread d a) s = .next (answered s d 1))
    ∧ (OwnThread s k → (s.thread k).run = .service → ∃ t, exec (.eretThread d a) s = .next t ∧ t.th = goNext (putX s.th d 0)
      ∧ t.mem = s.mem ∧ t.thread k = recordReturned { s.thread k with
          run := .running, pc := (s.thread k).epc, wait := .none
          stepDue := (s.thread k).stepBit && decide ((s.thread k).fcause.toNat % 2 ^ 8 = 0x11)
          acquires := Vector.ofFn fun i => if i.val ≤ 3 then s.cycle else (s.thread k).acquires[i] }))
  ∧ (∀ (i : Instr) (s : State) (d a : Rx) (v : Nat), scrubOp i = some (d, a) → s.th.privileged = true → 4096 ≤ s.tid →
    ReadableX s.th a → v = xVal s.th a →
    ((v / 2 ^ 16 ≠ 0 ∨ scrubUnits (v / 2 ^ 12 % 16) ≤ v % 2 ^ 12) → exec i s = .next (answered s d 2))
    ∧ (v / 2 ^ 16 = 0 → v % 2 ^ 12 < scrubUnits (v / 2 ^ 12) → ScrubBusy s (v / 2 ^ 12) (v % 2 ^ 12) →
      exec i s = .next (answered s d 1))
    ∧ (v / 2 ^ 16 = 0 → v % 2 ^ 12 < scrubUnits (v / 2 ^ 12) → ¬ScrubBusy s (v / 2 ^ 12) (v % 2 ^ 12) →
      ∃ t, exec i s = .next t ∧ t.th = goNext (putX s.th d 0)
        ∧ (∀ k, t.mem.read k = if (scrubRange s (v / 2 ^ 12) (v % 2 ^ 12)).1 ≤ k ∧ k < (scrubRange s (v / 2 ^ 12) (v % 2 ^ 12)).1
            + (scrubRange s (v / 2 ^ 12) (v % 2 ^ 12)).2 then 0 else s.mem.read k)
        ∧ (v / 2 ^ 12 = 0 → ∀ j, j < 2 → (t.thread (2 * v + j)).inbox = [] ∧ (t.thread (2 * v + j)).latch = 0)
        ∧ (v / 2 ^ 12 = 1 → (t.quad (v % 2 ^ 12)).journal = []
          ∧ (∀ j, j < 8 → ∀ r : Rt, (t.thread (8 * (v % 2 ^ 12) + j)).t[r] = none)
          ∧ ∀ j, j < 2 → (t.engine (2 * (v % 2 ^ 12) + j)).ring = none ∧ (t.engine (2 * (v % 2 ^ 12) + j)).slots = []
            ∧ (t.engine (2 * (v % 2 ^ 12) + j)).late = [])))
  ∧ (∀ (s : State) (d a : Rx) (b : Ra) (k : Nat), s.th.privileged = true → 4096 ≤ s.tid → ReadableX s.th a →
    Readable s.th (.a b) → k = xVal s.th a →
    (¬OwnThread s k → exec (.ctxsave d a b) s = .next (answered s d 2) ∧ exec (.ctxload d a b) s = .next (answered s d 2))
    ∧ (OwnThread s k → (s.thread k).run = .running → exec (.ctxsave d a b) s = .next (answered s d 1))
    ∧ (OwnThread s k → (s.thread k).run ≠ .never → (s.thread k).run ≠ .ended →
      exec (.ctxload d a b) s = .next (answered s d 1))
    ∧ (OwnThread s k → (s.thread k).run ≠ .running → contextFinal s k = false →
      exec (.ctxsave d a b) s = .next s)
    ∧ (∀ units, OwnThread s k → contextFinal s k = true → imageUnits s s.th.a[b] .store = .ok units →
      requestOver s s.tid true units.flatten = false →
      (∀ l ∈ units.flatten, youngWrite s l.key = false ∧ outsideWaits s l.key = false ∧ translates s l.key = false) →
      ∃ t, exec (.ctxsave d a b) s = .next t ∧ t.th = goNext (putX s.th d 0)
        ∧ t.mem = (performWrite s s.th.gang (s.tid - 4096) ((whoTh s).core / 4) none 0
            ((List.range 10752).map fun i => ((wbytes units.flatten (contextBytes (s.thread k))).drop (8 * i)).take 8)).mem)
    ∧ (∀ (units : List (List Loc)) (vals : List (List Byte)) (w : State) (bytes : List Byte), OwnThread s k →
      ((s.thread k).run = .never ∨ (s.thread k).run = .ended) → imageUnits s s.th.a[b] .load = .ok units →
      loadUnits s units = .ok (vals, w) → bytes = viewBytes s (whoTh s) units.flatten →
      (∀ u, badImage bytes = false →
        (w.setThread k (threadFrom bytes (s.thread k) (bornOf w))).placeTiles k (tilesFrom bytes) = some u →
        ∃ t, exec (.ctxload d a b) s = .next t ∧ t.th = goNext (putX s.th d 0) ∧ t.mem = s.mem ∧ (t.thread k).run = .stopped
          ∧ t.thread k = { threadFrom bytes (s.thread k) (bornOf w) with t := (t.thread k).t }
          ∧ ∀ i (h : i < 16), ((t.thread k).t[i]).map (fun e => (e.data, e.scale, e.tag))
              = ((tilesFrom bytes).getD i none).map fun e => (e.data, e.scale, e.tag))))
  ∧ (∀ (t old u : Thread) (born : Party → Nat), ImageFits t → u = threadFrom (contextBytes t) old born →
    (contextBytes t).length = 86016 ∧ (∀ r, xVal u r = xVal t r) ∧ u.a = t.a ∧ u.v = t.v ∧ (∀ r, pVal u r = pVal t r)
      ∧ u.pc = t.pc ∧ SpecialKept { t with privileged := u.privileged } u ∧ u.cpseq = t.cpseq ∧ u.cpeng = t.cpeng
      ∧ u.counts = t.counts ∧ u.wake = t.wake ∧ u.latch = t.latch ∧ u.hprio = t.hprio ∧ u.stepBit = t.stepBit)
  ∧ (∀ (i : Instr) (s : State) (d a : Rx) (b : Ra), s.th.privileged = false → CanHold s 1 →
    (i = .eret ∨ i = .eretThread d a ∨ scrubOp i = some (d, a) ∨ i = .ctxsave d a b ∨ i = .ctxload d a b) →
    exec i s = .next (faulted s 0x04 0 0 0 none))

namespace Sys2Proof.Claims

/-! ### Steps of the other agents (95) -/

/-- A descriptor that a relocation unit carries out (R325): no reserved field is set, those of its two entries among them, its OLD
is the entry in the map of a block, and that block is neither pinned by a SHARE alias nor in a host-shared region. -/
def Accepts (s : State) (r : Relocation) : Prop :=
  (∀ w ∈ r.desc.drop 5, w = 0) ∧ (r.desc.getD 2 0).toNat / 2 ^ 49 = 0 ∧ (r.desc.getD 3 0).toNat / 2 ^ 44 = 0
    ∧ (∀ i, i < 2 → (r.desc.getD i 0).toNat / 2 ^ 48 % 2 ^ 12 = 0)
    ∧ ∃ c o, r.owner s = some (c, o) ∧ pinned s c r.obj = false ∧ sharedStorage s r.old.storageKey r.old.bytes = false

/-- How a line of a relocation reads at its new place: as stored, or, where another package holds the one place or the other and
the block is encrypted, under the new home's key and tweak (R326, R341). -/
def LineMoved (s u : State) (r : Relocation) (old new : Nat) : Prop :=
  (∀ k, k / 256 ≠ new → u.mem.read k = s.mem.read k)
    ∧ (((r.desc.getD 2 0).getLsbD 48 = false ∨ (r.old.tier ≠ 3 ∧ r.new.tier ≠ 3)) →
      ∀ i, i < 256 → u.mem.read (256 * new + i) = s.mem.read (256 * old + i))
    ∧ ∀ a b, r.crypt r.old = some a → r.crypt r.new = some b → a.home ≠ b.home →
      u.mem.readList (256 * new) 256
        = xtsEncrypt (cryptKey s b) (b.tweak new) (xtsDecrypt (cryptKey s a) (a.tweak old) (s.mem.readList (256 * old) 256))

/-- A thread runs, and its quad is not frozen (R253). -/
def Going (s : State) (k : Nat) : Prop :=
  (s.thread k).run = .running ∧ (4096 ≤ k ∨ (s.quad (k / 8)).phase = .idle)

/-- Message or wake bit, for `mwait` (R204); wake bit or latch, for `waiti` (R230). -/
def MessageHere (t : Thread) : Prop := t.inbox ≠ [] ∨ t.wake = true
def EventHere (t : Thread) : Prop := t.wake = true ∨ t.latch ≠ 0

/-- A started thread that has not ended (R201, R260). -/
def Alive (s : State) (k : Nat) : Prop := (s.thread k).run ≠ .never ∧ (s.thread k).run ≠ .ended

/-- A message enters a thread's inbox at once: there is a slot, nothing waits before it, and the thread is not stopped nor its
core being moved (R198, R201, R366). -/
def RoomInInbox (s : State) (gang k : Nat) : Prop :=
  s.moving gang (k / 2) = false ∧ (s.thread k).run ≠ .stopped ∧ (s.thread k).inbox.length < 16 ∧ (s.thread k).overflow = []
    ∧ (s.thread k).spill = []

/-- A context of a core that a start message may take: no started thread holds it, no start has been given it, and a thread that
ended there has ended in an earlier cycle (R202, R274). -/
def SlotFree (s : State) (core i : Nat) : Prop :=
  ¬Alive s (2 * core + i) ∧ ¬((s.thread (2 * core + i)).run = .ended ∧ (s.thread (2 * core + i)).stoppedAt = s.cycle)
    ∧ ∀ e ∈ (s.core core).starting, e.1 ≠ i

/-- Every member's arrival at the next generation is known, a member whose thread has ended being excused, and some member
has arrived (R206, R265). -/
def AllArrived (s : State) (g : Gang) (dom : Fin 4) (lvl : Scope) (inst : Nat) : Prop :=
  (∀ k ∈ g.members dom lvl inst, (s.thread k).rank ∈ g.excused ∨ g.completed dom lvl inst < (s.thread k).signal dom lvl)
    ∧ ∃ k ∈ g.members dom lvl inst, g.completed dom lvl inst < (s.thread k).signal dom lvl

/-- The split that a strike's estimate recalls to: the newest at or below it less 8 (R252). -/
def Target (k : Quad) (estimate n : Nat) : Prop :=
  (∃ p ∈ k.splits, p.cycle = n ∧ n + 8 ≤ estimate) ∧ ∀ p ∈ k.splits, p.cycle + 8 ≤ estimate → p.cycle ≤ n

/-- A new record of a class stands at the head of a section's log, and of the package's (R378). -/
def Logged (s u : State) (sec cls : Nat) : Prop :=
  ∃ r : LogRec, r.toNat / 2 ^ 200 % 2 ^ 8 = cls ∧ (u.sect sec).log = (r :: (s.sect sec).log).take 1024
    ∧ u.pmc.log = (r :: s.pmc.log).take 65536

/-- Where unit `n` of a transfer begins in its source and in its destination, from the references' offsets, and the bytes that it
takes and writes (R209, R212, R216). -/
def srcAt (x : Transfer) (n : Nat) : Nat :=
  if x.kind = 0 then n else if x.kind = 1 then n / x.rowb * x.sstr + n % x.rowb else if x.kind = 2 then (if x.ty = 11 then 2 else 4) * n
  else 48 * n
def dstAt (x : Transfer) (n : Nat) : Nat :=
  if x.kind = 0 then n else if x.kind = 1 then n / x.rowb * x.dstr + n % x.rowb else if x.kind = 3 then 4 * n else 48 * n
def srcBytes (x : Transfer) : Nat :=
  if x.kind = 0 ∨ x.kind = 1 then 1 else if x.kind = 2 then (if x.ty = 11 then 2 else 4) else if x.kind = 3 then 48 else 0
def dstBytes (x : Transfer) : Nat := if x.kind = 0 ∨ x.kind = 1 then 1 else if x.kind = 3 then 4 else 48

/-- What a unit of its kind writes, from the bytes at its source and at its destination (R212, R216). -/
def unitWrites (s : State) (x : Transfer) (src dst : List Loc) : List Byte :=
  let view := fun (l : Loc) => viewByte s x.who l
  if x.kind = 2 then accAdd (dst.map view) (fval (if x.ty = 11 then .bf16 else .f32) false (leNat (src.map view)))
  else if x.kind = 3 then (List.range 4).map fun j => BitVec.ofNat 8 ((accFinal (src.map view)).1 / 256 ^ j)
  else if x.kind = 4 then List.replicate 48 0
  else src.map view

/-- The units of a part write plain bytes of good lines, each once, which no unit reads from its source and for which no write
waits. -/
def PlainUnits (s : State) (us : List (Nat × List Loc × List Loc)) : Prop :=
  (∀ e ∈ us, ∀ l ∈ e.2.1 ++ e.2.2, Loc.crypt l = none ∧ Clean s (Loc.key l) 1)
    ∧ (∀ e ∈ us, ∀ l ∈ e.2.2, youngWrite s (Loc.key l) = false ∧ outsideWaits s (Loc.key l) = false)
    ∧ ((us.flatMap fun e => e.2.2).map Loc.key).Nodup
    ∧ ∀ e ∈ us, ∀ f ∈ us, ∀ l ∈ e.2.1, ∀ m ∈ f.2.2, Loc.key l ≠ Loc.key m

/-- The completion message of a transfer (R199). -/
def completionOf (x : Transfer) (seq : Nat) : Message :=
  { header := word (2 ^ 63 + 2 * 2 ^ 60 + (if x.notify then x.flags % 64 else 0) * 2 ^ 54 + x.tag % 2 ^ 16 * 2 ^ 32 + 0xFFFFFFFF)
    payload := BitVec.ofNat 1024 (x.handle.toNat + x.done % 2 ^ 64 * 2 ^ 64
      + (if x.state = 4 then x.cause else if x.state = 5 then 0x12 else 0) % 2 ^ 64 * 2 ^ 128)
    sender := .service (x.core / 32), scope := scopeOf x.scope, outside := true, seq, born := 0 }

end Sys2Proof.Claims

/-- R177, R186, R187, R196, R198, R204, R206, R207, R230, R246, R248: what the steps of hold buffers, replies, inboxes,
waits, hurdles, rings and pools do when they are due: no entry is released before its hold window has passed; a released arrival is
signalled, a message enters its receiver's inbox or overflow queue, waits, or is answered, and a start message takes a context or
waits in its queue; a reply writes its registers and the current task, and marks them if it is poisoned; a wait ends with its value; a generation completes, and every member that waits for it goes on in its turn; an arriving tile takes
a slot; a superseded tile is freed more than W cycles after its split. The model's readings: hurdle members by position (log entry
57), a phase wait that looks at the clock of the cycle that ended (79), and an arrival that finds every slot taken (133). -/
def Obligations.HoldEvents : Prop :=
  (∀ (s : State) (core : Nat) (e : HoldEntry) (rest : List HoldEntry), (s.core core).hold = e :: rest → s.cycle < e.cycle + 128 →
    exec (.holdRelease core) s = .next s)
  ∧ (∀ (s : State) (core : Nat) (e : HoldEntry) (rest : List HoldEntry) (dom : Fin 4) (lvl : Scope), AtHead s core e rest →
    e.effect = .arrive dom lvl →
    ∃ u, ReleasedTo s u core rest ∧ OnlyThreadOf s u e.tid
      ∧ u.thread e.tid = { s.thread e.tid with signalled := bump (s.thread e.tid).signalled (6 * dom.val + lvl.code - 1) })
  ∧ (∀ (s : State) (core : Nat) (e : HoldEntry) (rest : List HoldEntry) (o : Outgoing) (g : Gang) (c k : Nat), AtHead s core e rest →
    e.effect = .message o → s.gangs.get? o.gang = some g → g.resident = true → g.cores[o.rank / 2]? = some c → k = 2 * c + o.rank % 2 →
    (Alive s k → RoomInInbox s o.gang k → ∃ u, ReleasedTo s u core rest ∧ u.mem = s.mem ∧ (u.thread k).wake = true
      ∧ (u.thread k).inbox = (s.thread k).inbox ++ [{ o.msg with seq := s.seq }])
    ∧ (Alive s k → ¬RoomInInbox s o.gang k → (s.thread k).overflow.length < 256 → (s.thread k).spill = [] →
      ∃ u, ReleasedTo s u core rest ∧ u.mem = s.mem ∧ (u.thread k).wake = true ∧ (u.thread k).inbox = (s.thread k).inbox
        ∧ (u.thread k).overflow = (s.thread k).overflow ++ [{ o.msg with seq := s.seq }])
    ∧ (Alive s k → ¬RoomInInbox s o.gang k → (256 ≤ (s.thread k).overflow.length ∨ (s.thread k).spill ≠ []) → releaseHead s core = none)
    ∧ (∀ (g' : Nat × Gang) (c' k' r : Nat), ¬Alive s k → o.msg.header.toNat / 2 ^ 60 % 8 < 2 → o.msg.sender = .member g'.1 r → s.gangs.get? g'.1 = some g'.2 →
      g'.2.resident = true → g'.2.cores[r / 2]? = some c' → k' = 2 * c' + r % 2 → Alive s k' → (s.thread k').born = o.msg.born →
      RoomInInbox s g'.1 k' → ∃ u m, ReleasedTo s u core rest ∧ u.mem = s.mem ∧ (u.thread k').inbox = (s.thread k').inbox ++ [m]
        ∧ m.header.toNat / 2 ^ 60 % 8 = 3 ∧ m.payload.toNat = o.rank % 2 ^ 64 + o.msg.header.toNat * 2 ^ 64))
  ∧ (∀ (s : State) (core : Nat) (e : HoldEntry) (rest : List HoldEntry) (m : StartMsg) (g : Gang) (c : Nat), AtHead s core e rest →
    e.effect = .start m → s.gangs.get? m.gang = some g → g.closing = none → g.resident = true → g.switching = false →
    g.cores[m.pos]? = some c →
    (∀ i, (g.starts.get? m.pos).getD [] = [] → i < 2 → SlotFree s c i → (∀ j, j < i → ¬SlotFree s c j) →
      ∃ u, ReleasedTo s u core rest ∧ u.mem = s.mem ∧ (u.core c).starting = (s.core c).starting ++ [(i, s.cycle, m)])
    ∧ (((g.starts.get? m.pos).getD [] ≠ [] ∨ ∀ j, j < 2 → ¬SlotFree s c j) →
      (((g.starts.get? m.pos).getD []).length < 32 → ∃ u g', ReleasedTo s u core rest ∧ u.mem = s.mem
        ∧ u.gangs.get? m.gang = some g' ∧ g'.starts.get? m.pos = some ((g.starts.get? m.pos).getD [] ++ [m]))
      ∧ (32 ≤ ((g.starts.get? m.pos).getD []).length → releaseHead s core = none)))
  ∧ (∀ (s : State) (core : Nat) (r : Reply), (s.core core).replies = [r] → r.tid = s.tid → r.written = none →
    (s.quad (core / 4)).phase = .idle → (r.writes.map (·.1)).Nodup → (∀ e ∈ r.writes, ∀ d, e.1 ≠ .t d) →
    (∃ e ∈ s.th.pend, e.2 = r.seq) → (∀ e ∈ r.writes, e.1 ≠ .x 0 → (e.1, r.seq) ∈ s.th.pend) →
    ∃ u, exec (.heldRequestReply core) s = .next u ∧ u.mem = s.mem ∧ u.th.pc = s.th.pc ∧ (∀ e ∈ u.th.pend, e.2 ≠ r.seq)
      ∧ u.th.entryBad = (s.th.entryBad || r.bad) ∧ u.th.task = (if r.task.isSome then r.task else s.th.task)
      ∧ (r.poisoned = false → ∀ e ∈ r.writes,
        (∀ d, e.1 = .x d → d ≠ 0 → u.th.x[d] = word e.2 ∧ ReadableX u.th d)
          ∧ (∀ d, e.1 = .a d → u.th.a[d] = BitVec.ofNat 128 e.2 ∧ Readable u.th (.a d))
          ∧ (∀ d, e.1 = .v d → u.th.v[d] = BitVec.ofNat 1024 e.2 ∧ Readable u.th (.v d)))
      ∧ (r.poisoned = true → ∀ e ∈ r.writes, e.1 ≠ .x 0 → (e.1, r.obj, r.addr) ∈ u.th.poison)
      ∧ (∀ d, (∀ e ∈ r.writes, e.1 ≠ .x d) → u.th.x[d] = s.th.x[d]) ∧ (∀ d, (∀ e ∈ r.writes, e.1 ≠ .a d) → u.th.a[d] = s.th.a[d])
      ∧ (∀ d, (∀ e ∈ r.writes, e.1 ≠ .v d) → u.th.v[d] = s.th.v[d]))
  ∧ (∀ (s : State) (core : Nat) (r : Reply) (d : Rt) (v : Nat), (s.core core).replies = [r] → r.tid = s.tid → r.written = none →
    (s.quad (core / 4)).phase = .idle → r.writes = [(.t d, v)] → (.t d, r.seq) ∈ s.th.pend → r.poisoned = false → v.testBit liveAt = true →
    TileFree s d → ∃ u, exec (.heldRequestReply core) s = .next u ∧ u.mem = s.mem ∧ u.th.pc = s.th.pc
      ∧ tileVal u.th d = TileImage.ofNat v ∧ Readable u.th (.t d))
  ∧ (∀ (s : State) (k : Nat) (m : Message) (rest : List Message), (s.thread k).overflow = m :: rest →
    (s.thread k).inbox.length < 16 → (s.thread k).run = .running → s.moving (s.thread k).gang (k / 2) = false →
    ∃ u, exec (.inboxRefill k) s = .next u ∧ OnlyThreadOf s u k ∧ (u.thread k).overflow = rest
      ∧ (u.thread k).inbox = (s.thread k).inbox ++ [{ m with seq := s.seq, outside := true }])
  ∧ (∀ (s : State) (k : Nat) (d : Rx) (dl : Option Nat), (s.thread k).wait = .mwait d dl → Going s k →
    (MessageHere (s.thread k) → ∃ u, exec (.mwaitWake k) s = .next u ∧ OnlyThreadOf s u k
      ∧ u.thread k = goNext (putX { s.thread k with wake := false } d 0))
    ∧ (∀ c, ¬MessageHere (s.thread k) → dl = some c → c ≤ s.cycle → ∃ u, exec (.mwaitTimeout k) s = .next u
      ∧ OnlyThreadOf s u k ∧ u.thread k = goNext (putX (s.thread k) d 1)))
  ∧ (∀ (s : State) (k : Nat) (d : Rx) (dl : Option Nat), (s.thread k).wait = .waiti d dl → Going s k →
    (EventHere (s.thread k) → ∃ u, exec (.waitiWake k) s = .next u ∧ OnlyThreadOf s u k
      ∧ u.thread k = goNext (putX { s.thread k with latch := 0 } d
          (word ((if (s.thread k).wake then 1 else 0) + 2 * (s.thread k).latch.toNat))))
    ∧ (∀ c, ¬EventHere (s.thread k) → dl = some c → c ≤ s.cycle → ∃ u, exec (.waitiTimeout k) s = .next u
      ∧ OnlyThreadOf s u k ∧ u.thread k = goNext (putX (s.thread k) d 8)))
  ∧ (∀ (s : State) (gang : Nat) (g : Gang) (dom : Fin 4) (lvl : Scope) (inst n : Nat), s.gangs.get? gang = some g →
    g.resident = true → AllArrived s g dom lvl inst → instanceGoes s g lvl inst = true → (g.heatMode = false ∨ dom ≠ 0 ∨ lvl ≠ g.scope) →
    n = g.completed dom lvl inst + 1 →
    ∃ u, exec (.hurdleCompletion gang dom lvl inst) s = .next u ∧ u.mem = s.mem
      ∧ (∃ g', u.gangs.get? gang = some g' ∧ g'.completed dom lvl inst = n)
      ∧ ∀ k ∈ g.members dom lvl inst, ∀ f, g.cores.Nodup → (s.thread k).gang = gang → Going s k →
        (s.thread k).wait = .hurdle dom lvl n f →
        waitOver u k = true ∧ ∃ w, waitStep (u.switchTo k) = .next w ∧ w.th.wait = .none ∧ w.th.pc = (s.thread k).pc + 4
          ∧ (f = .plain → w.th.x = (s.thread k).x)
          ∧ (∀ d, f = .phase d → d ≠ 0 → w.th.x[d] = word n) ∧ (∀ d, f = .test d → d ≠ 0 → w.th.x[d] = 1))
  ∧ (∀ (s : State) (k v c : Nat) (d : Rx) (g : Gang) (t : Slots), (s.thread k).wait = .phase d v → Going s k →
    s.gangs.get? (s.thread k).gang = some g → g.slots = some t → (s.thread k).stoppedAt < s.cycle →
    (s.core (k / 2)).phase = some c → (if t.period = 0 then 0 else (s.cycle - 1 - c) % t.period) = v →
    ∃ u, exec (.phaseClockMatch k) s = .next u ∧ OnlyThreadOf s u k ∧ u.thread k = goNext (putX (s.thread k) d (word v)))
  ∧ (∀ (s : State) (e pos : Nat) (img : TileImage) (rest : List (Nat × TileImage)), (s.engine e).arriving = (pos, img) :: rest →
    (∀ j, (s.engine e).ring = some j → ringPrev j.mask (e % 16) = pos → (s.engine e).slots.length < 16 →
      ∃ u, exec (.ringTileArrival e) s = .next u ∧ u.mem = s.mem ∧ (u.engine e).arriving = rest
        ∧ (u.engine e).slots = (s.engine e).slots ++ [⟨(s.engine e).nextSlot, img, pos, false⟩])
    ∧ ((∀ j, (s.engine e).ring = some j → ringPrev j.mask (e % 16) ≠ pos) →
      ∃ u, exec (.ringTileArrival e) s = .next u ∧ u.mem = s.mem ∧ (u.engine e).arriving = rest
        ∧ (u.engine e).slots = (s.engine e).slots ∧ ((s.engine e).ring ≠ none → (u.engine e).foreign = true)))
  ∧ (∀ (s : State) (k q bound : Nat) (sc : Scope), (s.thread k).wait = .pacq q bound sc → Going s k → QuadVisible s q bound →
    ∃ u, exec (.pacqComplete k) s = .next u ∧ OnlyThreadOf s u k ∧ u.thread k = goNext (acquired (s.switchTo k) sc (s.thread k)))
  ∧ (∀ (s : State) (e : Nat), ∃ u, exec (.lateFree e) s = .next u ∧ u.mem = s.mem
    ∧ ∀ l, l ∈ (u.engine e).late ↔ l ∈ (s.engine e).late
        ∧ ¬((∃ c, l.splitAt = some c ∧ c + 128 < s.cycle) ∧ l.phys ∉ namedTiles s e))

/-- R243, R245, R251 to R259, R292, R376: a split records the quad's threads and keeps the newest five; a mismatch that
repeats faults and fences its core; a strike report freezes the quad toward its target, or loses it; the restore gives back
registers and undoes the journal, the seal counts the reports, and fetch restarts; a second report before that restarts the
recall toward the older of two targets, or loses the quad; a waiting write or atomic applies when no own write of its bytes is
young, to the current value, and the journals drop the old data of its bytes. The model's readings: an agreeing retry changes
nothing but its count and its log record (log entry 74), splits only in a quad with a resident gang (70), and a mismatch in no tile
instruction is the core's (147). -/
def Obligations.RecallEvents : Prop :=
  (∀ (s : State) (q : Nat), (s.quad q).phase = .idle → (∃ e ∈ s.gangs, e.2.resident = true ∧ ∃ c ∈ e.2.cores, c / 4 = q) →
    (s.quad q).nextSplit ≠ 0 → (s.quad q).nextSplit < s.cycle →
    ∃ u p, exec (.split q) s = .next u ∧ u.mem = s.mem ∧ (u.quad q).splits = p :: (s.quad q).splits.take 4
      ∧ (u.quad q).nextSplit = (s.quad q).nextSplit + 32 ∧ p.cycle = (s.quad q).nextSplit ∧ p.seq = s.seq
      ∧ ∀ i, i < 8 → p.threads.get? (8 * q + i) = some (s.thread (8 * q + i)))
  ∧ (∀ (s : State) (eng : Bool), s.tid < 4096 → Going s s.tid → s.th.wait = .none →
    (∃ u, exec (.checkerRetry s.tid true eng) s = .next u ∧ u.th = s.th ∧ u.mem = s.mem ∧ Logged s u (s.tid / 64) 0x03
      ∧ ((s.quad (s.tid / 8)).recallcnt.toNat / 2 ^ 32 % 2 ^ 16 ≠ 0xFFFF →
        (u.quad (s.tid / 8)).recallcnt = (s.quad (s.tid / 8)).recallcnt + 0x100000000))
    ∧ (CanHold s 1 → ∃ u, exec (.checkerRetry s.tid false eng) s = .next u ∧ u.th = (faulted s 0x13 0 0 0 none).th
      ∧ u.mem = s.mem ∧ Logged s u (s.tid / 64) 0x04
      ∧ (if eng = true ∧ (engineAt s s.tid).isSome = true then (2, s.tid / 8) else (0, s.tid / 2)) ∈ u.pmc.fencesInForce))
  ∧ (∀ (s : State) (q sensor estimate : Nat), (s.quad q).phase = .idle →
    (∀ n, Target (s.quad q) estimate n → ∃ u, exec (.strikeReport q sensor estimate) s = .next u ∧ u.mem = s.mem ∧ u.th = s.th
      ∧ (u.quad q).phase = .draining n s.cycle ∧ (u.quad q).reports = [⟨sensor, estimate, s.cycle⟩])
    ∧ ((∀ p ∈ (s.quad q).splits, estimate < p.cycle + 8) → ∃ u, exec (.strikeReport q sensor estimate) s = .next u ∧ u.mem = s.mem
      ∧ (u.quad q).phase = .lost))
  ∧ (∀ (s : State) (q sensor estimate n since : Nat), ((s.quad q).phase = .draining n since ∨ (s.quad q).phase = .sealing n since) →
    (∀ m, Target (s.quad q) estimate m → ∃ u, exec (.strikeReport q sensor estimate) s = .next u ∧ u.mem = s.mem ∧ u.th = s.th
      ∧ (u.quad q).phase = .draining (Nat.min n m) s.cycle
      ∧ (u.quad q).reports = (s.quad q).reports ++ [⟨sensor, estimate, s.cycle⟩])
    ∧ ((∀ p ∈ (s.quad q).splits, estimate < p.cycle + 8) → ∃ u, exec (.strikeReport q sensor estimate) s = .next u ∧ u.mem = s.mem
      ∧ (u.quad q).phase = .lost ∧ (u.quad q).recallcnt = (s.quad q).recallcnt))
  ∧ (∀ (s : State) (q sensor estimate n at' m : Nat), (s.quad q).phase = .resuming n at' → Target (s.quad q) estimate m →
    ∃ u, exec (.strikeReport q sensor estimate) s = .next u ∧ u.mem = s.mem ∧ (u.quad q).phase = .draining m s.cycle
      ∧ (u.quad q).reports = [⟨sensor, estimate, s.cycle⟩])
  ∧ (∀ (s : State) (q n since : Nat) (p : Split) (olds : Nat → Thread), (s.quad q).phase = .draining n since →
    since + 24 ≤ s.cycle → (s.quad q).splits.find? (fun p => p.cycle == n) = some p →
    p.threads = (List.range 8).map (fun i => (8 * q + i, olds i)) →
    ∃ u m, exec (.recallRestore q) s = .next u ∧ (u.quad q).phase = .sealing n m ∧ s.cycle + 16 ≤ m
      ∧ (∀ i, i < 8 → (s.thread (8 * q + i)).run = .running → (u.thread (8 * q + i)).x = (olds i).x
        ∧ (u.thread (8 * q + i)).a = (olds i).a ∧ (u.thread (8 * q + i)).v = (olds i).v ∧ (u.thread (8 * q + i)).p = (olds i).p
        ∧ (u.thread (8 * q + i)).pc = (olds i).pc ∧ (u.thread (8 * q + i)).fcsr = (olds i).fcsr)
      ∧ (∀ i, i < 4 → ∀ e ∈ (u.core (4 * q + i)).hold, e.seq < p.seq)
      ∧ (∀ j : JournalByte, MemoryOk s → (s.quad q).journal = [j] → n < j.cycle → (∀ i, i < 4 → (s.core (4 * q + i)).journal = []) →
        u.mem.read j.key = j.old ∧ ∀ k, k ≠ j.key → u.mem.read k = s.mem.read k))
  ∧ (∀ (s : State) (q n first : Nat), (s.quad q).phase = .sealing n first → first + 8 ≤ s.cycle + 1 →
    ∃ u, exec (.recallSeal q) s = .next u ∧ u.mem = s.mem ∧ (u.quad q).phase = .resuming n (s.cycle + 1) ∧ (u.quad q).reports = []
      ∧ (u.quad q).recallcnt.toNat % 2 ^ 32 = ((s.quad q).recallcnt.toNat + (s.quad q).reports.length) % 2 ^ 32
      ∧ (u.quad q).recallcnt.toNat / 2 ^ 32 = (s.quad q).recallcnt.toNat / 2 ^ 32)
  ∧ (∀ (s : State) (q n at' : Nat), (s.quad q).phase = .resuming n at' → at' ≤ s.cycle →
    ∃ u, exec (.recallResume q) s = .next u ∧ u.mem = s.mem ∧ u.th = s.th ∧ (u.quad q).phase = .idle)
  ∧ (∀ (s : State) (sec sensor : Nat), ∃ u, exec (.outsideStrikeReport sec sensor) s = .next u ∧ u.mem = s.mem ∧ u.th = s.th
    ∧ Logged s u sec 0x02)
  ∧ (∀ (s : State) (q : Nat) (o : OutsideWrite), (s.quad q).outside = [o] →
    ((∀ l ∈ o.effect.locs, youngWrite s l.key = false) → ∃ u, exec (.outsideWriteApply q) s = .next u ∧ (u.quad q).outside = [])
    ∧ ((∃ l ∈ o.effect.locs, youngWrite s l.key = true) → exec (.outsideWriteApply q) s = .next s)
    ∧ (MemoryOk s → o.copy = none → (∀ l ∈ o.effect.locs, youngWrite s l.key = false ∧ l.crypt = none ∧ Clean s l.key 1
        ∧ homeQuad? l.key = some q) →
      (∀ units, o.effect = .store units → ∃ u, exec (.outsideWriteApply q) s = .next u ∧ (∀ k, u.thread k = s.thread k)
        ∧ (∀ k, u.mem.read k = laid (s.mem.read k) (units.flatten.filter fun c => c.loc.key == k))
        ∧ ∀ c ∈ units.flatten, ∀ j : JournalByte, keyCore? j.key = keyCore? c.loc.key → keyQuad? j.key = keyQuad? c.loc.key →
          (j ∈ u.journalOf c.loc.key ↔ j ∈ s.journalOf c.loc.key ∧ ∀ d ∈ units.flatten, d.loc.key ≠ j.key))
      ∧ (∀ op ls w x old d n a m, o.effect = .amo op ls w x old d → (s.sect (o.tid / 64)).heatBuf = [] → o.tid < 4096 →
        n = (if w then 8 else 4) → ls.map (·.key) = (List.range n).map (a + ·) → m = leNat (s.mem.readList a n) →
        ∃ u, exec (.outsideWriteApply q) s = .next u ∧ (u.quad q).outside = [] ∧ (∀ k, u.thread k = s.thread k)
          ∧ (∃ r, (u.core o.core).replies = (s.core o.core).replies ++ [r] ∧ r.seq = o.seq ∧ r.poisoned = false
            ∧ r.writes = [(.x d, (if op = .fadd then word m else BitVec.ofInt 64 (sgn (8 * n) m)).toNat)])
          ∧ (∀ j, j < n → (u.mem.read (a + j)).toNat
              = amoRule op (8 * n) m (x.toNat % 2 ^ (8 * n)) (old.toNat % 2 ^ (8 * n)) / 256 ^ j % 256)
          ∧ ∀ k, (k < a ∨ a + n ≤ k) → u.mem.read k = s.mem.read k)))

/-- R202, R209 to R216, R262 to R265, R274: a context starts with its registers, takes the oldest start message, and ends; an
engine's transfer ends when its count is reached, or does its next part, in each kind: its count goes on, and each unit writes its
bytes, copied, accumulated, finalised or zero, at the place that its kind gives it, and no other byte; a reduce adds exactly, and a finalise of a value
rounds it; a completion is delivered to the thread that launched the transfer; a suspended transfer goes on, or fails. The model's
choices: SENDER 0xFFFFFFFF of a completion (log entry 34), one part in a cycle (65), and when the latch bit is set (69). -/
def Obligations.ThreadAndCopyEvents : Prop :=
  (∀ (s : State) (core slot c : Nat) (m : StartMsg) (g : Gang) (code : Nat), slot < 2 → (s.core core).starting = [(slot, c, m)] →
    c + 16 ≤ s.cycle → (s.quad (core / 4)).phase = .idle → s.gangs.get? m.gang = some g → g.closing = none →
    code = (g.entries.getD m.entry 0).toNat → code / 2 ^ 44 % 2 ^ 4 = 0 → code / 2 ^ 56 = 0 →
    ∃ u, exec (.threadStart core slot) s = .next u ∧ u.mem = s.mem ∧ (u.core core).starting = []
      ∧ (u.thread (2 * core + slot)).pc = word (code % 2 ^ 44)
      ∧ ((u.thread (2 * core + slot)).run = .running ∨ (u.thread (2 * core + slot)).run = .stopped)
      ∧ (∀ r : Rx, (u.thread (2 * core + slot)).x[r]
          = if 10 ≤ r.val ∧ r.val < 18 then word (m.payload.toNat / 2 ^ (64 * (r.val - 10)) % 2 ^ 64) else 0)
      ∧ (∀ r : Ra, (u.thread (2 * core + slot)).a[r] = 0) ∧ (∀ r : Rv, (u.thread (2 * core + slot)).v[r] = 0)
      ∧ (∀ r : Rt, (u.thread (2 * core + slot)).t[r] = none) ∧ (u.thread (2 * core + slot)).fcsr = 0
      ∧ (u.thread (2 * core + slot)).gang = m.gang ∧ (u.thread (2 * core + slot)).rank = 2 * m.pos + slot)
  ∧ (∀ (s : State) (core n i : Nat) (m : StartMsg) (rest : List StartMsg), dequeueDue s core = some (n, i, m, rest) →
    ∃ u, exec (.startQueueDequeue core) s = .next u ∧ u.mem = s.mem ∧ u.th = s.th
      ∧ (u.core core).starting = (s.core core).starting ++ [(i, s.cycle, m)]
      ∧ (∀ g, s.gangs.get? n = some g → ∃ g', u.gangs.get? n = some g' ∧ g'.starts.get? m.pos = some rest))
  ∧ (∀ (s : State) (k : Nat), k < 4096 → (s.thread k).run ≠ .never → (s.thread k).run ≠ .ended →
    ∃ u, exec (.threadEnd k) s = .next u ∧ u.mem = s.mem ∧ (u.thread k).run = .ended ∧ (u.thread k).inbox = []
      ∧ (u.thread k).overflow = [] ∧ (u.thread k).x = (s.thread k).x)
  ∧ (∀ (i : Instr) (s : State) (sec eng kind : Nat) (x : Transfer),
    ((i = .linearCopy sec eng ∧ kind = 0) ∨ (i = .twoDimensionalCopy sec eng ∧ kind = 1) ∨ (i = .reduce sec eng ∧ kind = 2)
      ∨ (i = .finalise sec eng ∧ kind = 3) ∨ (i = .clear sec eng ∧ kind = 4)) →
    activeTransfer s sec eng = some x → x.kind = kind →
    x.arriving = none →
    (x.total ≤ x.done → exec i s = .next (s.setTransfer sec { x with state := 2 }))
    ∧ (∀ (us : List (Nat × List Loc × List Loc)) (n : Nat), x.done < x.total → x.stopAt = none → x.workedAt < s.cycle → planUnits s x x.part = (us, none) → us ≠ [] →
      (contextOf s x.gang).qlimit = 0 → (∀ y ∈ (s.sect sec).transfers, y.isOf x.owner x.handle = true → y = x) →
      n = x.done + us.length * (if kind = 2 ∨ kind = 4 then 48 else if kind = 3 then 4 else 1) →
      ∃ u, exec i s = .next u ∧ ∃ y ∈ (u.sect sec).transfers, y.handle = x.handle ∧ y.owner = x.owner ∧ y.state = 1
        ∧ (y.done = n ∨ (y.done = x.done ∧ y.arriving = some n))
        ∧ (MemoryOk s → heatOf s x.gang = false → x.snap = none → PlainUnits s us →
          (∀ e ∈ us, ∀ (j : Nat) (b : Byte) (l : Loc), (unitWrites s x e.2.1 e.2.2)[j]? = some b → e.2.2[j]? = some l → u.mem.read (Loc.key l) = b)
            ∧ ∀ k, (∀ e ∈ us, ∀ l ∈ e.2.2, Loc.key l ≠ k) → u.mem.read k = s.mem.read k)))
  ∧ (∀ (s : State) (x : Transfer) (us : List (Nat × List Loc × List Loc)) (j : Nat) (e : Nat × List Loc × List Loc),
    planUnits s x x.part = (us, none) → us[j]? = some e → 0 < x.total → x.stopAt = none → x.kind ≤ 4 →
    e.1 = x.done / dstBytes x + j ∧ e.1 * dstBytes x < Nat.min x.total ((x.done / 256 + 1) * 256)
      ∧ accessUnit { s with poison := [] } x.who (openRef s x.who x.dst .store) x.dst (refBits x.dst 0 44 + dstAt x e.1 : Nat)
          (dstBytes x) 1 .store 0 = .ok e.2.2
      ∧ e.2.1.length = srcBytes x
      ∧ (x.kind ≠ 3 → ∀ (i : Nat) (l : Loc), e.2.1[i]? = some l →
        accessUnit s x.who (openRef s x.who x.src .load) x.src (refBits x.src 0 44 + srcAt x e.1 + i : Nat) 1 1 .load 0 = .ok [l])
      ∧ (x.kind = 3 → accessUnit s x.who (openRef s x.who x.src .load) x.src (refBits x.src 0 44 + srcAt x e.1 : Nat) 48 1 .load 0
          = .ok e.2.1))
  ∧ (∀ (acc : List Byte) (neg : Bool) (m : Nat) (e val : Int), acc.length = 48 → -160 ≤ e →
    val = sgn 320 (leNat (acc.take 40)) + (if neg then -1 else 1) * (m * 2 ^ (e + 160).toNat) →
    -(2 ^ 319 : Int) ≤ val → val < 2 ^ 319 →
    sgn 320 (leNat ((accAdd acc (.fin neg m e)).take 40)) = val ∧ (accAdd acc (.fin neg m e)).drop 40 = acc.drop 40)
  ∧ (∀ (acc : List Byte) (val : Int), val = sgn 320 (leNat (acc.take 40)) → leNat (acc.drop 40) = 0 →
    (val = 0 → accFinal acc = (0, 0))
    ∧ (val ≠ 0 → Rounded .f32 24 .rne false false (decide (val < 0)) (val.natAbs * (2 : ℝ) ^ (-160 : Int)) (accFinal acc)))
  ∧ (∀ (s : State) (sec eng : Nat) (x : Transfer) (rest : List Transfer), completing s sec eng = x :: rest →
    (x.notify = false → x.state ≠ 4 → x.latched = true →
      exec (.copyCompletion sec eng) s = .next (s.setTransfer sec { x with latched := true, completed := true }))
    ∧ (∀ k g, x.notify = true → x.latched = true → s.gangs.get? x.gang = some g → g.resident = true →
      g.tidOf x.rank = some k → (s.thread k).born = x.owner → (s.thread k).run = .running → (s.thread k).inbox.length < 16 →
      (s.thread k).overflow = [] → (s.thread k).spill = [] → s.moving x.gang (k / 2) = false →
      ∃ u, exec (.copyCompletion sec eng) s = .next u ∧ u.mem = s.mem ∧ (u.thread k).wake = true
        ∧ (u.thread k).inbox = (s.thread k).inbox ++ [completionOf x s.seq]))
  ∧ (∀ (s : State) (sec eng : Nat) (x : Transfer), suspendedCopy s sec eng = some x →
    (∀ u, copyServed s x = some u →
      exec (.copyFault sec eng true) s = .next (u.setTransfer sec { x with state := 1, cause := 0, miss := none }))
    ∧ (x.cause ≠ 0x0B → exec (.copyFault sec eng false) s = .next (s.setTransfer sec { x with state := 4 })))

/-- R323, R325, R326, R335 to R338, R341: a descriptor enters the queue of a die as queued; one that R325 does not allow ends as failed
when its turn comes, and moves nothing; otherwise line after line moves whole, with its marker, and leaves a forward marker; before
the first the frames of a large destination take the block's ρ, and after the last the relocation is flipped and NEW, with the
block's DMG, is written into the map; a flipped relocation whose new entry is in force is released and its storage freed; a frame
takes its LRHO, 7 being ignored; a change of a record or an entry is in force once the older accesses, and every held effect that was
translated by its bytes, have been performed; an access by the other side starts a transfer of a region, which flips its owner,
unless its requests have no answer. The model's choices: what a change waits for (log entries 43 and 143), whose block a descriptor
means (44), and the place of its tests (139). -/
def Obligations.StorageEvents : Prop :=
  (∀ (s : State) (die : Nat) (desc : List Word), exec (.relocationRequest die desc) s
    = .next (s.setDie die { s.die die with queue := (s.die die).queue ++ [⟨desc, 1, 0⟩] }))
  ∧ (∀ (s : State) (die : Nat) (r : Relocation), moving s die = some r → r.status = 1 → ¬Accepts s r →
    ∃ u, exec (.relocationLine die) s = .next u ∧ u.mem = s.mem ∧ u.th = s.th ∧ u.forwards = s.forwards
      ∧ u.storage = s.storage ∧ (u.die die).lrho = (s.die die).lrho
      ∧ (u.die die).queue = (s.die die).queue.map (fun q => if q = r then { r with status := 4 } else q))
  ∧ (∀ (s : State) (die old new : Nat) (r : Relocation), MemoryOk s → moving s die = some r → (r.status = 1 → Accepts s r) →
    old = r.old.storageKey / 256 + r.moved → new = r.new.storageKey / 256 + r.moved →
    ∃ u, exec (.relocationLine die) s = .next u ∧ (old, new) ∈ u.forwards ∧ LineMoved s u r old new
      ∧ (new ∈ u.poison ↔ old ∈ s.poison)
      ∧ { r with status := (if r.moved + 1 < r.old.bytes / 256 then 2 else 3), moved := r.moved + 1 } ∈ (u.die die).queue
      ∧ (r.moved = 0 → 65536 ≤ r.new.bytes → r.new.storageKey / 2 ^ 46 = s.pkg → ∀ f, f < r.new.bytes / 65536 →
        ((u.die (frameOf (r.new.storageKey + 65536 * f)).1).lrho.get? (frameOf (r.new.storageKey + 65536 * f)).2).getD 0
          = BitVec.ofNat 3 (Nat.min 6 ((r.desc.getD 2 0).toNat / 2 ^ 36 % 2 ^ 4)))
      ∧ ((r.moved ≠ 0 ∨ r.new.bytes < 65536) → ∀ d, (u.die d).lrho = (s.die d).lrho)
      ∧ (r.moved + 1 < r.old.bytes / 256 → u.recordWrites = s.recordWrites)
      ∧ (∀ c o, r.old.bytes / 256 ≤ r.moved + 1 → r.holder s = some (c, o) → (8 * o.map + 8 * r.blk) / 256 ≠ new →
        pendingEntry u o r.blk = { r.new with dmg := (pendingEntry s o r.blk).dmg }))
  ∧ (∀ (s : State) (die : Nat) (r : Relocation), releasable s die = some r →
    ∃ u, exec (.relocationRelease die) s = .next u ∧ u.mem = s.mem ∧ { r with status := 5 } ∈ (u.die die).queue
      ∧ (∀ b ∈ u.storage, b.1 ≠ r.old.storageKey)
      ∧ ∀ f ∈ u.forwards, ¬(r.old.storageKey ≤ 256 * f.1 ∧ 256 * f.1 < r.old.storageKey + r.old.bytes))
  ∧ (∀ (s : State) (die frame : Nat) (v : BitVec 4),
    (v.toNat % 8 ≠ 7 → frame < 2621440 → ∃ u, exec (.lrhoWrite die frame v) s = .next u ∧ u.mem = s.mem
      ∧ ((u.die die).lrho.get? frame).getD 0 = v.setWidth 3)
    ∧ (v.toNat % 8 = 7 → exec (.lrhoWrite die frame v) s = .next s))
  ∧ (∀ (s : State) (w : RecordWrite), MemoryOk s → s.recordWrites = [w] → (w.cells.map (·.1)).Nodup →
    (drainedBelow s w.bound = true → noneTranslated s w = true → ∃ u, exec .recordChangeInForce s = .next u ∧ u.recordWrites = []
      ∧ u.th = s.th ∧ (∀ c ∈ w.cells, u.mem.read c.1 = c.2) ∧ ∀ k, (∀ c ∈ w.cells, c.1 ≠ k) → u.mem.read k = s.mem.read k)
    ∧ ((drainedBelow s w.bound = false ∨ noneTranslated s w = false) → exec .recordChangeInForce s = .next s))
  ∧ (∀ (s : State) (r : Nat) (h : Bool) (g : Region), s.regions.get? r = some g →
    (g.busy = false → g.owner ≠ h → exec (.transferTransaction r h) s = .next { s with
      regions := s.regions.put r { g with busy := true, toHost := h, bound := s.seq, owed := none } })
    ∧ ((g.busy = true ∨ g.owner = h) → exec (.transferTransaction r h) s = .next s)
    ∧ (g.busy = true → g.toHost = false → r ∉ s.rerouting → nodeOf (2 ^ 21 * r) ∉ s.lost →
      exec (.transferTransactionDone r) s = .next { s with regions := s.regions.put r { g with owner := false, busy := false } })
    ∧ (g.busy = true → g.toHost = true → r ∉ s.rerouting → nodeOf (2 ^ 21 * r) ∉ s.lost → regionDrained s r g.bound = true →
      s.hostWaits = [] →
      exec (.transferTransactionDone r) s = .next { s with regions := s.regions.put r { g with owner := true, busy := false } })
    ∧ ((r ∈ s.rerouting ∨ nodeOf (2 ^ 21 * r) ∈ s.lost) → exec (.transferTransactionDone r) s = .next s)
    ∧ (g.toHost = true → regionDrained s r g.bound = false → exec (.transferTransactionDone r) s = .next s))

namespace Sys2Proof.Claims

/-! ### Requests, calls, gangs, pod and boot (14 to 17) -/

/-- Nothing that a service core has to tell the host is kept back: the host takes every message at once. -/
def HostHears (s : State) : Prop := ∀ e ∈ s.unsent, e.1 ≠ .host

/-- The service cores answer requests: stage 2 is loaded, the boot is over, and the compute dies are not held in reset
(R397, R407, R410). -/
def Answering (s : State) : Prop := s.firmware = true ∧ s.pmc.held = false ∧ s.pmc.state = 3 ∧ HostHears s

/-- Word `i` of a request. -/
def req (q : Request) (i : Nat) : Nat := (q.pay.getD i 0).toNat

/-- A message to the host: a KIND 0 header and two words (R343, R382). -/
def toHost (a b : Nat) : HostMsg :=
  { header := word (2 ^ 63 + 0xFFFFFFFF), words := [word a, word b, 0, 0, 0, 0, 0, 0] }

/-- The host has received a reply, and nothing else changed. -/
def repliedWith (s : State) (status result : Nat) : State := { s with hostOut := s.hostOut ++ [toHost status result] }

/-- A host's request is answered in a state `u`. -/
def Answered (s u : State) (status result : Nat) : Prop := u.hostOut = s.hostOut ++ [toHost status result]

/-- The constructors of the requests that name a gang in word 0 (R343). -/
def gangRequest (q : Request) (i : Instr) : Prop := i = .teardown q ∨ i = .halt q ∨ i = .resume q ∨ i = .step q ∨ i = .group q

/-- A thread's system call of a code is in service, and none of its requests is outstanding (R227, R362). -/
def InCall (s : State) (k code : Nat) : Prop :=
  k < 4096 ∧ (s.thread k).run = .service ∧ (s.thread k).fcause.toNat % 2 ^ 8 = 0x11
    ∧ (s.thread k).finfo.toNat % 2 ^ 15 = code ∧ outstanding s k s.seq = false

/-- A call has returned: its status is in `x10`, and the thread goes on, or stays stopped, past the call (R223, R362). -/
def CallReturned (s u : State) (k status : Nat) : Prop :=
  (u.thread k).x[(10 : Rx)] = word status ∧ (u.thread k).pc = (s.thread k).epc + 4
    ∧ ((u.thread k).run = .running ∨ (u.thread k).run = .stopped)

/-- An object's record with no permission beyond a mask's (R347). -/
def narrowed (o : ObjRec) (p : Nat) : ObjRec :=
  { o with rd := o.rd && decide (p / 4 % 2 = 1), wr := o.wr && decide (p / 2 % 2 = 1), ex := o.ex && decide (p % 2 = 1) }

/-- The calls with a reference argument, their codes, and what they come to (R363). -/
def callForm (k : Nat) : Instr → Option (Nat × (State → Thread → CallResult))
  | .objnew j => if j = k then some (2, callObjnew k) else none
  | .objfree j => if j = k then some (3, callObjfree k) else none
  | .reside j => if j = k then some (4, callReside k) else none
  | .watch j => if j = k then some (5, callWatch k) else none
  | .trace j => if j = k then some (6, callTrace k) else none
  | _ => none

/-- A new record of a class stands at the head of the package's log (R378). -/
def LoggedPackage (s u : State) (cls : Nat) : Prop :=
  ∃ r : LogRec, r.toNat / 2 ^ 200 % 2 ^ 8 = cls ∧ u.pmc.log = (r :: s.pmc.log).take 65536

/-- A register file of the controller extended (R403). -/
def extended (m : List (List Byte)) (n : Nat) (input : List Byte) : List (List Byte) :=
  m.set n (shake256 (m.getD n [] ++ input) 64)

/-- What M1 or M2 is extended with when an image starts (R403). -/
def extendedBy (m : List (List Byte)) (n : Nat) (img : List Byte) (bank : Bool) : List (List Byte) :=
  extended (extended (extended m n ((img.drop 24).take 64)) n ((img.drop 8).take 8)) n [if bank then 1 else 0]

/-- The bank that a stage starts from: the one the control word names if its image verifies, else with ALT the other one
if that one does; none where no image serves (R397, R402). -/
def startedBank (p : Pmc) (stage fuse : Nat) (named : Bool) : Option Bool :=
  if imageOk (p.image stage named) stage fuse = true then some named
  else if p.control.getLsbD 6 = true ∧ imageOk (p.image stage !named) stage fuse = true then some !named
  else none

/-- What follows from the bank that a stage starts from: STATE, the bank's bit, and the measurement of the image; STATE 4
where there is none (R397, R403). -/
def StageStarted (p : Pmc) (stage : Nat) (before : List (List Byte)) (bank : Bool) : Option Bool → Prop
  | some b => p.state = stage ∧ bank = b ∧ p.meas.getD stage [] = (extendedBy before stage (p.image stage b) b).getD stage []
  | none => p.state = 4

end Sys2Proof.Claims

/-- R343 to R347, R368, R369, R407: the service core's answers to a host: before STATE 3 every request is not ready; a request
that names no gang or context is BADREF; LOAD makes the gang, and answers with it and its context once its contexts are zeroed;
TEARDOWN ends a resident gang's threads, cancels its transfers, and removes the gang once nothing of it is held; HALT and
RESUME set their group, STEP the step bit, GROUP the record, RELEASE removes the context, CREATE and SHARE answer with
their object, and any other request is NOPERM. The model's readings: BADREF for a gang that is still being loaded and for a group
above 7 (log entry 84), the context of a TEARDOWN goes whoever joined it (85), CREATE on a context that does not exist is BADREF
(140), and a service core without its firmware answers nothing (141). -/
def Obligations.RequestEvents : Prop :=
  (∀ (q : Request) (s : State) (i : Instr) (dxo : List Byte) (n : Nat), q.sender = .host →
    (gangRequest q i ∨ i = .load q dxo ∨ i = .release q ∨ i = .create q ∨ i = .share q ∨ i = .unassignedRequest q n) →
    (s.pmc.held = true → exec i s = .next s)
    ∧ (s.pmc.held = false → s.pmc.state ≠ 3 → exec i s = .next { s with hostReplies := s.hostReplies ++ [.notReady] })
    ∧ (Answering s → gangRequest q i → s.gangs.get? (req q 0) = none → exec i s = .next (repliedWith s 2 0))
    ∧ (Answering s → (i = .release q ∨ i = .create q) → s.contexts.get? (req q 0) = none →
      exec i s = .next (repliedWith s 2 0))
    ∧ (Answering s → i = .unassignedRequest q n → exec i s = .next (repliedWith s 3 0)))
  ∧ (∀ (q : Request) (s : State) (dxo : List Byte), q.sender = .host → Answering s →
    (parseDxo dxo = none → exec (.load q dxo) s = .next (repliedWith s 2 0))
    ∧ (∀ d, parseDxo dxo = some d → (req q 2 / 2 ^ 14 % 2 ^ 18 ≠ 0 ∨ 4 < req q 2 / 2 ^ 5 % 2 ^ 4) →
      exec (.load q dxo) s = .next (repliedWith s 2 0))
    ∧ (∀ d gid cid u, parseDxo dxo = some d → req q 2 / 2 ^ 14 % 2 ^ 18 = 0 → req q 2 / 2 ^ 5 % 2 ^ 4 ≤ 4 →
      loadGang s q d = .ok (gid, cid, u) →
      ∃ t g, exec (.load q dxo) s = .next t ∧ t.hostOut = u.hostOut ∧ t.mem = u.mem ∧ t.gangs.get? gid = some g
        ∧ g.loading = some q ∧ g.ctx = cid ∧ g.requester = .host ∧ g.level = d.level ∧ g.threads = d.threads
        ∧ g.entries = d.entries ∧ g.resident = true ∧ g.slots = d.slots ∧ g.heatMode = d.heat)
    ∧ (∀ n g, s.gangs.get? n = some g → g.loading = some q → (∀ c ∈ g.cores, (s.core c).starting = []) →
      g.since + 16 < s.cycle → Answered s (loadReply s n) 0 (n + g.ctx * 2 ^ 16)
        ∧ (loadReply s n).gangs.get? n = some { g with loading := none }))
  ∧ (∀ (q : Request) (s : State) (g : Gang), q.sender = .host → Answering s → s.gangs.get? (req q 0) = some g →
    (∀ i, g.loading ≠ none → gangRequest q i → exec i s = .next (repliedWith s 2 0))
    ∧ (g.loading = none → g.closing = none → g.resident = false → (∀ e ∈ s.quads, ∀ o ∈ e.2.outside, o.gang ≠ req q 0) →
      (∀ e ∈ s.sections, ∀ x ∈ e.2.transfers, x.gang ≠ req q 0) →
      ∃ u, exec (.teardown q) s = .next u ∧ u.gangs.get? (req q 0) = none ∧ u.hostOut.getLast? = some (toHost 0 0)
        ∧ (req q 1 % 2 = 0 → u.contexts.get? g.ctx = none))
    ∧ (g.loading = none → g.closing = none → g.resident = true → (∀ c ∈ g.cores, (s.quad (c / 4)).phase ≠ .lost) →
      ∃ u, exec (.teardown q) s = .next u ∧ u.mem = s.mem
        ∧ (∀ k ∈ g.tids, (s.thread k).run ≠ .never → (u.thread k).run = .ended ∨ (u.thread k).run = .never)
        ∧ (∀ e ∈ u.sections, ∀ x ∈ e.2.transfers, x.gang = req q 0 → x.stopAt ≠ none ∨ x.ended = true ∨ 5 < x.state)
        ∧ ((∃ c ∈ g.cores, (s.core c).hold ≠ []) → ∃ g', u.gangs.get? (req q 0) = some g'
          ∧ g'.closing = some (q, decide (req q 1 % 2 = 1)) ∧ ∀ c ∈ g.cores, (u.core c).hold = (s.core c).hold)
        ∧ ((∀ c ∈ g.cores, (s.core c).hold = []) → (∀ e ∈ s.quads, ∀ o ∈ e.2.outside, o.gang ≠ req q 0) →
          (∀ e ∈ s.sections, ∀ x ∈ e.2.transfers, x.gang ≠ req q 0) → u.gangs.get? (req q 0) = none
            ∧ u.hostOut.getLast? = some (toHost 0 0) ∧ (∀ k ∈ g.tids, (u.thread k).run = .never)
            ∧ (req q 1 % 2 = 0 → u.contexts.get? g.ctx = none)))
    ∧ (g.closing ≠ none → exec (.teardown q) s = .next (repliedWith s 2 0))
    ∧ (∀ h, g.loading = none → req q 1 ≤ 7 → g.group? (req q 1) = some h →
      (∃ u, exec (.halt q) s = .next u ∧ Answered s u 0 0 ∧ u.mem = s.mem
        ∧ (∃ g', u.gangs.get? (req q 0) = some g' ∧ g'.groups.get? (req q 1) = some { h with halted := true })
        ∧ (g.resident = true → ∀ k ∈ g.tids, HaltGroup.has (req q 1) h (s.thread k).rank = true → (s.thread k).run = .running →
          (u.thread k).run = .stopped))
      ∧ (∃ u, exec (.resume q) s = .next u ∧ Answered s u 0 0 ∧ u.mem = s.mem
        ∧ ∃ g', u.gangs.get? (req q 0) = some g' ∧ g'.groups.get? (req q 1) = some { h with halted := false }))
    ∧ (7 < req q 1 → exec (.halt q) s = .next (repliedWith s 2 0) ∧ exec (.resume q) s = .next (repliedWith s 2 0))
    ∧ (∀ c, g.loading = none → g.resident = true → g.cores[req q 1 / 2]? = some c → ∃ u, exec (.step q) s = .next u ∧ Answered s u 0 0
      ∧ u.mem = s.mem ∧ u.thread (2 * c + req q 1 % 2)
          = { s.thread (2 * c + req q 1 % 2) with stepBit := decide (req q 2 % 2 = 1) })
    ∧ (g.loading = none → req q 1 ≠ 0 → req q 1 ≤ 7 → ∃ u, exec (.group q) s = .next u ∧ Answered s u 0 0 ∧ u.mem = s.mem
      ∧ (∀ k, u.thread k = s.thread k)
      ∧ ∃ g' h, u.gangs.get? (req q 0) = some g' ∧ g'.groups.get? (req q 1) = some h ∧ h.eng = decide (req q 6 % 2 = 1)
        ∧ h.ranges = (List.range 4).filterMap fun i => if req q (2 + i) % 2 ^ 32 = 0xFFFFFFFF then none
            else some (req q (2 + i) % 2 ^ 16, req q (2 + i) / 2 ^ 16 % 2 ^ 16)))
  ∧ (∀ (q : Request) (s : State) (c : Context), q.sender = .host → Answering s → s.contexts.get? (req q 0) = some c →
    ((∀ e ∈ s.gangs, e.2.ctx ≠ req q 0) → ∃ u, exec (.release q) s = .next u ∧ Answered s u 0 0 ∧ u.contexts.get? (req q 0) = none)
    ∧ ((∃ e ∈ s.gangs, e.2.ctx = req q 0) → exec (.release q) s = .next (repliedWith s 5 0))
    ∧ (c.owner ≠ .host → exec (.create q) s = .next (repliedWith s 3 0))
    ∧ (∀ k n o u, c.owner = .host → req q 2 = 2 ^ k → 12 ≤ k → k ≤ 26 → req q 2 ≤ req q 1 → req q 1 < 2 ^ 32 → req q 3 < 8 →
      req q 4 ≤ 1 → s.createObject (req q 0) (byteObject (req q 1) (req q 2) (decide (req q 3 / 4 % 2 = 1))
        (decide (req q 3 / 2 % 2 = 1)) (decide (req q 3 % 2 = 1))) (req q 4) = some (n, o, u) →
      exec (.create q) s = .next (repliedWith u 0 n)))
  ∧ (∀ (q : Request) (s : State) (a b : Context), q.sender = .host → Answering s → req q 2 = s.pkg →
    s.contexts.get? (req q 0) = some a → s.contexts.get? (req q 3) = some b →
    ((a.owner ≠ .host ∨ b.owner ≠ .host) → exec (.share q) s = .next (repliedWith s 3 0))
    ∧ (∀ o u m r v, a.owner = .host → b.owner = .host → objRecord s a (req q 1) = .ok (some o) → o.valid = true → o.enc = false →
      s.resideAll (req q 0) (req q 1) o = some u →
      u.newRecord (req q 3) (narrowed o (req q 4)) = some (m, r, v) →
      ∃ t, exec (.share q) s = .next t ∧ Answered v t 0 m
        ∧ ∃ k, t.contexts.get? (req q 3) = some k ∧ (m, req q 0, req q 1, s.pkg) ∈ k.aliases))

/-- R223, R265, R320, R361 to R367, R378: END ends its thread; the calls return their status in `x10` past the call, an
argument outside global space being BADSPACE and a call of no service NOPERM; a residency fault that is serviced lets its
thread run again; a fault that nobody resolves ends its thread, is kept in the report, and the host is told; a feature
trap begins a move to an F-die core. -/
def Obligations.CallEvents : Prop :=
  (∀ (s : State) (k : Nat), InCall s k 1 → ∃ u, exec (.endCall k) s = .next u ∧ u.mem = s.mem ∧ (u.thread k).run = .ended)
  ∧ (∀ (s : State) (k code : Nat), InCall s k code → (code = 0 ∨ 7 ≤ code) →
    ∃ u, exec (.unassignedSyscall k) s = .next u ∧ u.mem = s.mem ∧ CallReturned s u k 3)
  ∧ (∀ (i : Instr) (s : State) (k code : Nat) (f : State → Thread → CallResult), callForm k i = some (code, f) → InCall s k code →
    heatOf s (s.thread k).gang = false →
    (((s.thread k).x[(11 : Rx)]).toNat / 2 ^ 16 % 2 ^ 4 ≠ 0 → (s.thread k).inCall = false →
      ∃ u, exec i s = .next u ∧ u.mem = s.mem ∧ CallReturned s u k 1)
    ∧ (∀ u ws, f s (s.thread k) = .done u 0 ws → ws.length ≤ 2 → u.thread k = s.thread k →
      ∃ t, exec i s = .next t ∧ t.mem = u.mem ∧ CallReturned s t k 0)
    ∧ (∀ u, f s (s.thread k) = .wait u → exec i s = .next u))
  ∧ (∀ (s : State) (k : Nat) (m : Miss), (s.thread k).run = .service → (s.thread k).fcause.toNat % 2 ^ 8 = 0x0A →
    (s.thread k).miss = some m → ∀ u, s.serveMiss (s.thread k).gang m = some u → u.thread k = s.thread k →
    ∃ t, exec (.residencyFaultService k) s = .next t ∧ t.mem = u.mem ∧ (t.thread k).pc = (s.thread k).epc
      ∧ ((t.thread k).run = .running ∨ (t.thread k).run = .stopped))
  ∧ (∀ (s : State) (k cause : Nat) (g : Gang), k < 4096 → (s.thread k).run = .service → cause = (s.thread k).fcause.toNat % 2 ^ 8 →
    cause ∉ [0x03, 0x0A, 0x0B, 0x0F, 0x10, 0x11, 0x13] → (cause = 0x08 → s.rebuilds = []) → HostHears s → s.gangs.get? (s.thread k).gang = some g → g.haltPolicy = false →
    ∃ u, exec (.unserviceableFault k) s = .next u ∧ (u.thread k).run = .ended ∧ u.mem = s.mem
      ∧ u.hostOut = s.hostOut ++ [toHost 0x0100 (s.thread k).rank]
      ∧ ∃ g', u.gangs.get? (s.thread k).gang = some g' ∧ g'.report = g.report ++ [((s.thread k).rank,
          [(s.thread k).fcause, (s.thread k).faddr, (s.thread k).fstep, (s.thread k).finfo, (s.thread k).epc])])
  ∧ (∀ (s : State) (k n d : Nat) (g : Gang), featureTarget s k = some (n, g, d) →
    ∃ u g', exec (.featureTrap k) s = .next u ∧ u.mem = s.mem ∧ u.gangs.get? n = some g' ∧ g'.moves = g.moves ++ [(k / 2, d)]
      ∧ (featEntry (s.thread k) < g.entries.length →
        (g'.entries.getD (featEntry (s.thread k)) 0).getLsbD 48 = true))

/-- R355 to R361, R366, R380, R381, R383 to R388: a core move begins, and exchanges two positions when it ends; a fenced unit
is marked, and the host told; a fenced core's threads move to a free core of the gang, or the gang is switched out where there is none;
the transfers of a fenced copy engine fail with CAUSE 0x13; an expired slice stops its gang, which leaves its units when it is ready and comes in when it
can be placed; a quad's LEFT is set at each epoch; a heat ends with a checkpoint, or is replayed from one. The model's reading: a
replay restores generations and excused ranks too (log entry 91). -/
def Obligations.GangEvents : Prop :=
  (∀ (s : State) (src dst n : Nat) (g : Gang),
    (s.gangs.find? fun e => e.2.resident && e.2.cores.contains src && e.2.cores.contains dst) = some (n, g) →
    ((src, dst) ∉ g.moves → dst ∈ moveTargets s g src → s.gangs.get? n = some g →
      ∃ u g', exec (.coreMove src dst) s = .next u ∧ u.mem = s.mem ∧ u.gangs.get? n = some g' ∧ g'.moves = g.moves ++ [(src, dst)]
        ∧ (∀ i, i < 2 → (s.thread (2 * src + i)).run = .running → (u.thread (2 * src + i)).run = .stopped))
    ∧ (∀ u, s.gangs.get? n = some g → (src, dst) ∈ g.moves → contextFinal s (2 * src) = true → contextFinal s (2 * src + 1) = true →
      coreFree s dst = true → (s.core src).starting = [] → s.finishMove n g src dst = some u →
      exec (.coreMove src dst) s = .next u ∧ ∃ g', u.gangs.get? n = some g'
        ∧ g'.cores = g.cores.map (fun c => if c = src then dst else if c = dst then src else c)))
  ∧ (∀ (s : State) (n eng : Nat),
    (HostHears s → ∃ u, exec (.fencing (.core n)) s = .next u ∧ (0, n) ∈ u.pmc.fencesInForce
      ∧ u.hostOut.getLast? = some (toHost 0x0102 n))
    ∧ (HostHears s → ∃ u, exec (.fencing (.engine n)) s = .next u ∧ (2, n / 2) ∈ u.pmc.fencesInForce
      ∧ u.hostOut.getLast? = some (toHost 0x0102 (0x10000 + n / 2)))
    ∧ (∃ u, exec (.fencing (.copyEngine n eng)) s = .next u ∧ (3, 2 * n + eng) ∈ u.pmc.fencesInForce
      ∧ (∀ x ∈ (u.sect n).transfers, x.eng = eng → x.state ≠ 1 ∧ x.state ≠ 3)
      ∧ (s.gangs = [] → ∀ x ∈ (s.sect n).transfers, x.eng = eng → (x.state = 1 ∨ x.state = 3) →
        { x with state := 4, cause := 0x13 } ∈ (u.sect n).transfers)
      ∧ (s.gangs = [] → ∀ x ∈ (s.sect n).transfers, (x.eng ≠ eng ∨ (x.state ≠ 1 ∧ x.state ≠ 3)) → x ∈ (u.sect n).transfers))
    ∧ (∃ u p, exec (.fencing (.port n)) s = .next u ∧ (6, n) ∈ u.pmc.fencesInForce ∧ u.ports.get? n = some p ∧ p.fenced = true))
  ∧ (∀ (s : State) (n c : Nat) (g : Gang), s.gangs = [(n, g)] → g.resident = true → g.switching = false → g.heatMode = false → g.moves = [] →
    c ∈ g.cores → g.cores.Nodup → coreFree s c = false → (∀ d ∈ g.cores, fencedCore s d = true → coreFree s d = true) →
    ((∃ d ∈ g.cores, d ≠ c ∧ coreFree s d = true ∧ fencedCore s d = false) →
      ∃ u d g', exec (.fencing (.core c)) s = .next u ∧ u.gangs.get? n = some g' ∧ d ∈ g.cores ∧ d ≠ c ∧ coreFree s d = true
        ∧ fencedCore s d = false ∧ g'.moves = [(c, d)] ∧ g'.switching = false
        ∧ ∀ i, i < 2 → (s.thread (2 * c + i)).run = .running → (u.thread (2 * c + i)).run = .stopped)
    ∧ ((∀ d ∈ g.cores, d ≠ c → coreFree s d = false ∨ fencedCore s d = true) →
      ∃ u g', exec (.fencing (.core c)) s = .next u ∧ u.gangs.get? n = some g' ∧ g'.switching = true ∧ g'.moves = []
        ∧ ∀ k ∈ g.tids, (s.thread k).run = .running → (u.thread k).run = .stopped))
  ∧ (∀ (s : State) (n : Nat) (g : Gang), s.gangs.get? n = some g → sliceDue s g = true →
    ∃ u g', exec (.sliceExpiry n) s = .next u ∧ u.mem = s.mem ∧ u.gangs.get? n = some g' ∧ g'.switching = true
      ∧ ∀ k ∈ g.tids, (s.thread k).run = .running → (u.thread k).run = .stopped)
  ∧ (∀ (s : State) (n : Nat) (g : Gang), s.gangs.get? n = some g → readyToLeave s n g = true →
    ∃ u g', exec (.switchOut n) s = .next u ∧ u.gangs.get? n = some g' ∧ g'.resident = false ∧ g'.switching = false
      ∧ g'.savedThreads = (startedContexts s g).map (fun e => (e.1, e.2.saved)) ∧ ∀ k ∈ g.tids, (u.thread k).run = .never)
  ∧ (∀ (s : State) (n : Nat) (g : Gang) (cores : List Nat), s.gangs.get? n = some g → comesIn s n g = some cores →
    ∃ u g', exec (.switchIn n) s = .next u ∧ u.gangs.get? n = some g' ∧ g'.resident = true ∧ g'.cores = cores ∧ g'.savedThreads = [])
  ∧ (∀ (s : State) (q limit : Nat), epochDue s q = some limit → ∃ u, exec (.pacerEpoch q) s = .next u ∧ u.mem = s.mem
    ∧ (∀ k, u.thread k = s.thread k) ∧ (u.quad q).left = limit ∧ (u.quad q).epoch = s.cycle / 1000)
  ∧ (∀ (s : State) (n : Nat) (g : Gang), s.gangs.get? n = some g → checkpointDue s n g = true →
    ∃ u g', exec (.heatCheckpoint n) s = .next u ∧ u.gangs.get? n = some g' ∧ g'.replays = 0 ∧ g'.heatOld = [] ∧ g'.checkpoint.isSome = true
      ∧ g'.heat = g.completed 0 g.scope 0 + 1 ∧ g'.completed 0 g.scope 0 = g.completed 0 g.scope 0 + 1)
  ∧ (∀ (s : State) (n rank : Nat) (g : Gang) (c : Checkpoint), s.gangs.get? n = some g → replayDue s n g = some rank →
    g.checkpoint = some c → poisoned s g = none →
    ∃ u g', exec (.heatReplay n) s = .next u ∧ u.gangs.get? n = some g' ∧ g'.replays = g.replays + 1 ∧ g'.trigger = none
      ∧ g'.gates = c.gates ∧ g'.queues = c.queues ∧ g'.gens = c.gens ∧ g'.excused = c.excused)

/-- R337, R391 to R395, R407: a repeated flit is logged; a failed lane halves or fences its port; a request without a
response is logged and answers poisoned, drops a write, fails a transfer, or marks the thread whose request it is; five missed
heartbeats are reported; a lost package is marked and logged, and restored routes retry and tell the host how many packages they reach; a
host access is not ready before STATE 3, refused outside the shared regions,
and performed once the host owns the region. The model's choice: which request a time-out hits, a held entry before a region, a
copy and a thread (log entry 101). -/
def Obligations.PodEvents : Prop :=
  (∀ (s : State) (port : Nat), ∃ u, exec (.flitReplay port) s = .next u ∧ LoggedPackage s u 0x0B ∧ u.mem = s.mem
    ∧ ∀ k, u.thread k = s.thread k)
  ∧ (∀ (s : State) (port : Nat),
    (∃ u p, exec (.laneFailure port false) s = .next u ∧ LoggedPackage s u 0x0B ∧ u.ports.get? port = some p ∧ p.halfWidth = true)
    ∧ (∃ u p, exec (.laneFailure port true) s = .next u ∧ LoggedPackage s u 0x0B ∧ u.ports.get? port = some p ∧ p.fenced = true
      ∧ (6, port) ∈ u.pmc.fencesInForce))
  ∧ (∀ (s : State) (core : Nat),
    (∀ e ls f d, lateHead s core = some e → e.effect = .loadSE ls f d → ls ≠ [] →
      ∃ v u, exec (.requestTimeout core) s = .next u ∧ u.mem = s.mem ∧ Logged s v (sectionOf e.tid) 0x0C
        ∧ Logged v u (sectionOf e.tid) 0x08 ∧ (u.core core).hold = (s.core core).hold.filter (fun h => h.seq != e.seq)
        ∧ ∃ r, (u.core core).replies = (s.core core).replies ++ [r] ∧ r.seq = e.seq ∧ r.poisoned = true)
    ∧ (∀ (e : HoldEntry) (bs : List WByte) (line : Nat), lateHead s core = some e → e.effect = .store [bs] →
      (∃ b ∈ bs, remote s b.loc = true) → (∀ b ∈ bs, b.loc.key / 256 = line) →
      ∃ u, exec (.requestTimeout core) s = .next u ∧ u.mem = s.mem ∧ Logged s u (sectionOf e.tid) 0x0C
        ∧ (∀ k, u.thread k = s.thread k) ∧ (u.core core).replies = (s.core core).replies
        ∧ (u.core core).hold = (s.core core).hold.filter (fun h => h.seq != e.seq))
    ∧ (∀ r, lateHead s core = none → lateRegion s core = some r →
      ∃ u, exec (.requestTimeout core) s = .next u ∧ u.mem = s.mem ∧ u.rerouting = r :: s.rerouting ∧ Logged s u (core / 32) 0x0C)
    ∧ (∀ sec x l, lateHead s core = none → lateRegion s core = none → lateCopy s core = some (sec, x, l) →
      heatOf s x.gang = false → ∃ v u, exec (.requestTimeout core) s = .next u ∧ u.mem = s.mem ∧ Logged s v sec 0x0C
        ∧ u = v.setTransfer sec { x with state := 4, cause := 0x0B })
    ∧ (∀ k, lateHead s core = none → lateRegion s core = none → lateCopy s core = none → lateThread s core = some k →
      exec (.requestTimeout core) s = .next (s.setThread k { s.thread k with late := true })))
  ∧ (∀ (s : State) (pkg n : Nat), n = (s.missed.get? pkg).getD 0 →
    exec (.heartbeat pkg true) s = .next { s with missed := s.missed.drop pkg }
    ∧ (n + 1 < 5 → exec (.heartbeat pkg false) s = .next { s with missed := s.missed.put pkg (n + 1) })
    ∧ (5 ≤ n + 1 → ∃ u, exec (.heartbeat pkg false) s = .next u ∧ pkg ∈ u.reported))
  ∧ (∀ (s : State) (pkg : Nat), pkg ≠ s.pkg → pkg ∉ s.lost → ∃ u, exec (.packageLost pkg) s = .next u ∧ u.lost = s.lost ++ [pkg]
    ∧ LoggedPackage s u 0x0D ∧ u.mem = s.mem)
  ∧ (∀ (s : State), HostHears s → ∃ u ms, exec .routesRestored s = .next u ∧ u.rerouting = [] ∧ u.mem = s.mem
    ∧ (∀ k, u.thread k = s.thread k) ∧ u.hostOut = s.hostOut ++ ms
    ∧ (∀ m ∈ ms, m = toHost 0x0201 (1 + (s.routes.filter fun r => !r.2 && r.1 != s.pkg && !s.lost.contains r.1).length))
    ∧ ∀ g ∈ s.gangs, g.2.resident = true → (∃ c ∈ g.2.cores, c < 2048) → ms ≠ [])
  ∧ (∀ (s : State) (addr : Nat) (o : HostOp),
    (s.pmc.held = false → s.pmc.state ≠ 3 → exec (.hostAccess addr o) s = .next { s with hostReplies := s.hostReplies ++ [.notReady] })
    ∧ (Answering s → s.regions.get? (addr / 2 ^ 21) = none → ∃ u, exec (.hostAccess addr o) s = .next u ∧ LoggedPackage s u 0x0E
      ∧ u.mem = s.mem ∧ u.hostReplies = s.hostReplies ++ [.error])
    ∧ (∀ (g : Region) (n : Nat), Answering s → s.regions.get? (addr / 2 ^ 21) = some g → g.owner = true → g.busy = false →
      addr % 2 ^ 21 + n ≤ 2 ^ 21 → s.poison = [] → s.forwards = [] → s.weak = [] →
      (∀ j, j < n → (storedLoc s (addr + j)).crypt = none) →
      (o = .read n → ∃ u, exec (.hostAccess addr o) s = .next u ∧ u.mem = s.mem
        ∧ u.hostReplies = s.hostReplies ++ [.done (s.mem.readList addr n)])
      ∧ (∀ bs : List Byte, MemoryOk s → o = .write bs → bs.length = n → ∃ u, exec (.hostAccess addr o) s = .next u
        ∧ (∀ j b, bs[j]? = some b → u.mem.read (addr + j) = b)
        ∧ (∀ k, (k < addr ∨ addr + n ≤ k) → u.mem.read k = s.mem.read k)
        ∧ u.hostReplies = s.hostReplies ++ [.done []]))
    ∧ (∀ (g : Region), Answering s → s.regions.get? (addr / 2 ^ 21) = some g → g.owner = false → g.busy = false → g.owed = none →
      (∀ n, o = .read n → addr % 2 ^ 21 + n ≤ 2 ^ 21) → (∀ bs, o = .write bs → addr % 2 ^ 21 + bs.length ≤ 2 ^ 21) →
      exec (.hostAccess addr o) s = .next { s with
        hostWaits := s.hostWaits ++ [(addr, o)]
        regions := s.regions.put (addr / 2 ^ 21) { g with busy := true, toHost := true, bound := s.seq, owed := none } }))

/-- R397 to R412: what the controller does: a module reset reads the start record and starts stage 1 from the bank that
verifies, or ends in STATE 4; the stages follow, with their measurements and fuse counters; start records, nonces, quotes,
repairs and the management link's writes; the power limit and the throttle set their bits, a trip holds the compute dies in
reset, and a loss of power leaves the non-volatile store; a key slot takes its 64 bytes. The model's readings: the encoding of the
measured inputs (log entry 95), device memory cleared by a module reset (96), and dies held after a loss of power (97). -/
def Obligations.BootEvents : Prop :=
  (∀ (s : State), ∃ u, exec .moduleReset s = .next u ∧ u.mem = [] ∧ u.gangs = [] ∧ (∀ k, u.thread k = Thread.zero) ∧ u.cycle = 0
    ∧ u.pmc.limit = 2400 ∧ u.pmc.trip = false ∧ u.pmc.abusy = false ∧ u.pmc.throtPower = false ∧ u.pmc.throtTemp = false
    ∧ u.pmc.held = false ∧ u.pmc.control = s.pmc.finishWrite.chosen ∧ u.pmc.withheld = [] ∧ u.pmc.fencesInForce = s.pmc.fences
    ∧ u.pmc.meas.getD 0 [] = (extended (extended (List.replicate 4 (List.replicate 64 0)) 0 Config.romDigest) 0
        [BitVec.ofNat 8 s.pmc.fuse1, BitVec.ofNat 8 s.pmc.fuse2]).getD 0 []
    ∧ StageStarted u.pmc 1 (List.replicate 4 (List.replicate 64 0)) u.pmc.bank1
        (startedBank u.pmc 1 s.pmc.fuse1 (u.pmc.control.getLsbD 0)))
  ∧ (∀ (s : State) (withheld retired : List Nat), s.pmc.state = 1 → s.pmc.held = false → s.pmc.writing = none →
    ∃ u, exec (.stage1Complete withheld retired) s = .next u ∧ u.mem = s.mem ∧ u.routes = s.pod
      ∧ (u.pmc.state = 2 → u.firmware = true)
      ∧ u.pmc.withheld = (if s.pmc.control.getLsbD 3 then [] else withheld)
      ∧ (s.pmc.control.getLsbD 2 = false → ∀ f ∈ retired, f ∈ u.pmc.retired)
      ∧ StageStarted u.pmc 2 s.pmc.meas u.pmc.bank2 (startedBank s.pmc 2 s.pmc.fuse2 (s.pmc.control.getLsbD 1)))
  ∧ (∀ (s : State), s.pmc.state = 2 → s.pmc.held = false → ∃ u, exec .stage2Complete s = .next u ∧ u.pmc.state = 3 ∧ u.routes = s.pod
    ∧ (∀ sec j, sec < 64 → j < 2 ^ 23 → u.mem.read (sectionBase sec + j) = 0)
    ∧ (∀ k, (∀ sec, sec < 64 → k < sectionBase sec ∨ sectionBase sec + 2 ^ 23 ≤ k) → u.mem.read k = s.mem.read k) ∧ 10000 ≤ u.tout ∧ u.tout ≤ 10000000
    ∧ u.pmc.fuse1 = (if s.pmc.control.getLsbD 7 then Nat.max s.pmc.fuse1 (Nat.min 64 s.pmc.version1) else s.pmc.fuse1)
    ∧ u.pmc.fuse2 = (if s.pmc.control.getLsbD 7 then Nat.max s.pmc.fuse2 (Nat.min 64 s.pmc.version2) else s.pmc.fuse2))
  ∧ (∀ (s : State) (r : List Byte), s.pmc.writing = none →
    (startValid r = true → acceptSeq s.pmc.recA < startSeq r → acceptSeq s.pmc.recB < startSeq r →
      ∃ overB, exec (.mstart r) s = .next (s.setPmc { s.pmc with writing := some (overB, r) })
        ∧ (startValid s.pmc.recA = false → overB = false)
        ∧ (startValid s.pmc.recA = true → startValid s.pmc.recB = false → overB = true)
        ∧ (startValid s.pmc.recA = true → startValid s.pmc.recB = true →
          overB = decide (startSeq s.pmc.recB < startSeq s.pmc.recA)))
    ∧ ((startValid r = false ∨ startSeq r ≤ acceptSeq s.pmc.recA ∨ startSeq r ≤ acceptSeq s.pmc.recB) →
      exec (.mstart r) s = .next s))
  ∧ (∀ (s : State) (v : BitVec 32),
    exec (.mrepair v) s = .next (s.setPmc { s.pmc with
      fences := s.pmc.fences.filter fun f => f != (v.toNat / 2 ^ 12 % 2 ^ 4, v.toNat % 2 ^ 12) })
    ∧ exec (.mstatWrite v) s = .next (s.setPmc { s.pmc with trip := s.pmc.trip && !v.getLsbD 5 })
    ∧ (v = 1 → s.pmc.abusy = false → exec (.ago v) s = .next (s.setPmc { s.pmc with abusy := true, quote := quoteBytes s }))
    ∧ ((v ≠ 1 ∨ s.pmc.abusy = true) → exec (.ago v) s = .next s)
    ∧ exec (.managementWrite 0x140 v) s = exec (.mrepair v) s
    ∧ exec (.managementWrite 0x144 v) s = exec (.ago v) s
    ∧ exec (.managementWrite 0 v) s = exec (.mstatWrite v) s
    ∧ (600 ≤ v.toNat % 2 ^ 12 → v.toNat % 2 ^ 12 ≤ 2400 →
      exec (.managementWrite 4 v) s = .next (s.setPmc { s.pmc with limit := BitVec.ofNat 12 v.toNat }))
    ∧ ((v.toNat % 2 ^ 12 < 600 ∨ 2400 < v.toNat % 2 ^ 12) → exec (.managementWrite 4 v) s = .next s))
  ∧ (∀ (s : State) (nonce : List Byte), nonce.length = 32 → s.pmc.nonce.length = 32 →
    exec (.attn nonce) s = .next (if s.pmc.abusy then s else s.setPmc { s.pmc with nonce := nonce }))
  ∧ (∀ (s : State), s.pmc.abusy = true → ∃ u, exec .reportComplete s = .next u ∧ u.pmc.abusy = false
    ∧ u.pmc.report.take s.pmc.quote.length = s.pmc.quote ∧ u.pmc.report.length = s.pmc.quote.length + 1536)
  ∧ (∀ (s : State) (slot : Nat) (key : List Byte), slot < 256 → key.length = 64 →
    exec (.keySlotWrite slot key) s = .next { s with keys := s.keys.put slot key })
  ∧ (∀ (s : State) (n : Nat),
    exec (.powerLimitCheck n) s = .next (s.setPmc { s.pmc with throtPower := decide (s.pmc.limit.toNat < n) })
    ∧ (∀ i, i = .thermalThrottle n ∨ i = .thermalTrip n → n ≤ 1100 →
      exec i s = .next (s.setPmc { s.pmc with temp := n, throtTemp := decide (1000 < n) }))
    ∧ (∀ i, i = .thermalThrottle n ∨ i = .thermalTrip n → 1100 < n → ∃ u, exec i s = .next u ∧ u.pmc.trip = true ∧ u.pmc.held = true ∧ u.gangs = []
      ∧ (∀ k, u.thread k = Thread.zero) ∧ u.pmc.log = s.pmc.log ∧ u.pmc.fences = s.pmc.fences))
  ∧ (∀ (s : State), ∃ u, exec .powerLoss s = .next u ∧ u.gangs = [] ∧ (∀ k, u.thread k = Thread.zero) ∧ u.pmc.held = true
    ∧ u.pmc.banks = s.pmc.banks ∧ u.pmc.fuse1 = s.pmc.fuse1 ∧ u.pmc.fuse2 = s.pmc.fuse2 ∧ u.pmc.fences = s.pmc.fences
    ∧ (s.pmc.writing = none → u.pmc.recA = s.pmc.recA ∧ u.pmc.recB = s.pmc.recB)
    ∧ (∀ b r, s.pmc.writing = some (b, r) → startValid (if b then u.pmc.recB else u.pmc.recA) = false))

/-! ### The whole machine -/

/-- R155, R259, R263, R267 to R269, R335, R392, R403, R408, R411: what reset leaves: every register zero and every tile empty,
`recallcnt`, `vpool`, `lmsplit` and `smsplit` 0, every frame at LRHO 0, TOUT 50 µs, measurement registers and key slots
zero, LIMIT 2,400 W and STATE 0, and memory in its canonical form. -/
def Obligations.ResetLeaves : Prop :=
  (∀ k, (∀ r : Rx, (State.reset.thread k).x[r] = 0) ∧ (∀ r : Ra, (State.reset.thread k).a[r] = 0)
    ∧ (∀ r : Rv, (State.reset.thread k).v[r] = 0) ∧ (∀ r : Rp, (State.reset.thread k).p[r] = 0)
    ∧ (∀ r : Rt, (State.reset.thread k).t[r] = none) ∧ (State.reset.thread k).fcsr = 0
    ∧ (State.reset.thread k).fcause = 0 ∧ (State.reset.thread k).epc = 0)
  ∧ (∀ q, (State.reset.quad q).recallcnt = 0 ∧ (State.reset.quad q).vpool = false)
  ∧ (∀ e, (State.reset.engine e).slots = [] ∧ (State.reset.engine e).late = [] ∧ (State.reset.engine e).ring = none)
  ∧ (∀ c, (State.reset.core c).lmsplit = 0 ∧ (State.reset.core c).hold = [])
  ∧ (∀ n, (State.reset.sect n).smsplit = 0)
  ∧ (∀ d f, ((State.reset.die d).lrho.get? f).getD 0 = 0)
  ∧ (∀ k, (State.reset.keys.get? k).getD (List.replicate 64 0) = List.replicate 64 0)
  ∧ State.reset.tout = 50000
  ∧ (∀ n, n < 4 → State.reset.pmc.meas.getD n [] = List.replicate 64 0)
  ∧ State.reset.pmc.limit = 2400 ∧ State.reset.pmc.state = 0 ∧ State.reset.gangs = [] ∧ MemoryOk State.reset

/-- Every step of the machine keeps memory in its canonical form: addresses rise strictly and no listed byte is zero, so that
equal memories are equal lists. -/
def Obligations.StepKeepsMemory : Prop :=
  ∀ s t : State, MemoryOk s → step s = .next t → MemoryOk t

namespace Sys2Proof.Claims

/-- The rows of the opcode table that have no word of their own: words of no operation (R82), and the steps of the other agents. -/
def Wordless : Instr → Prop
  | .undefinedInstruction _ | .holdRelease _ | .heldRequestReply _ | .inboxRefill _ | .mwaitWake _ | .mwaitTimeout _
  | .waitiWake _ | .waitiTimeout _ | .hurdleCompletion _ _ _ _ | .phaseClockMatch _ | .ringTileArrival _ | .pacqComplete _
  | .split _ | .lateFree _ | .checkerRetry _ _ _ | .strikeReport _ _ _ | .recallRestore _ | .recallSeal _ | .recallResume _
  | .outsideStrikeReport _ _ | .outsideWriteApply _ | .threadStart _ _ | .startQueueDequeue _ | .threadEnd _ | .linearCopy _ _
  | .twoDimensionalCopy _ _ | .reduce _ _ | .finalise _ _ | .clear _ _ | .copyCompletion _ _ | .copyFault _ _ _
  | .relocationRequest _ _ | .relocationLine _ | .relocationRelease _ | .lrhoWrite _ _ _ | .recordChangeInForce
  | .transferTransaction _ _ | .transferTransactionDone _ | .load _ _ | .teardown _ | .halt _ | .resume _ | .step _ | .group _
  | .release _ | .create _ | .share _ | .unassignedRequest _ _ | .endCall _ | .objnew _ | .objfree _ | .reside _ | .watch _
  | .trace _ | .unassignedSyscall _ | .residencyFaultService _ | .unserviceableFault _ | .featureTrap _ | .coreMove _ _
  | .fencing _ | .sliceExpiry _ | .switchOut _ | .switchIn _ | .pacerEpoch _ | .heatCheckpoint _ | .heatReplay _ | .flitReplay _
  | .laneFailure _ _ | .requestTimeout _ | .heartbeat _ _ | .packageLost _ | .routesRestored | .hostAccess _ _ | .moduleReset
  | .stage1Complete _ _ | .stage2Complete | .mstart _ | .mrepair _ | .ago _ | .attn _ | .reportComplete | .mstatWrite _
  | .managementWrite _ _ | .powerLimitCheck _ | .thermalTrip _ | .keySlotWrite _ _ | .thermalThrottle _ | .powerLoss => True
  | _ => False

end Sys2Proof.Claims

/-- R77 to R82: every well-formed instruction that is one of the machine, and no step of another agent, has a word; decoding the word
of a well-formed instruction gives that instruction back, with every operand (the four kinds of `scrub` share a word); and a word that
decodes is the word of its instruction, which is well formed, so that no bit of a word is dropped. -/
def Obligations.DecodeOfEncode : Prop :=
  (∀ i : Instr, i.wf = true → ¬Wordless i → ∃ w, encode i = some w ∧ decode w = .ok i.canon)
  ∧ (∀ (i : Instr) (w : IWord), i.wf = true → encode i = some w → decode w = .ok i.canon)
  ∧ (∀ (w : IWord) (i : Instr), decode w = .ok i → i.wf = true ∧ encode i = some w)

/-- R77 to R81: words that the manual writes out decode to the instructions it gives them for. -/
def Obligations.DecodeSamples : Prop :=
  decode 0x04A63800 = .ok (.add 5 6 7 false) ∧ decode 0x20E82803 = .ok (.srai 7 8 true 3)
    ∧ decode 0x2CA62203 = .ok (.bins 5 6 8 3) ∧ decode 0x28400002 = .ok (.kldRef 2 0)
    ∧ decode 0x50010000 = .ok (.jalr 0 1 0) ∧ decode 0x64000050 = .ok (.fence .quad .release)
    ∧ decode 0x8CE84846 = .ok (.viaddmin 7 8 9 0 .i32) ∧ decode 0xC4806C01 = .ok (.tmma 2 0 1 .bf16 false false false true)
    ∧ decode 0xE4A00001 = .ok (.csrrd 5 .fcsr) ∧ decode 0 = .error .undefinedInstruction

/-- R77, R82, R222, R242, R262, R369: when nothing else is due, a step runs the instruction that the bytes at the pc decode to,
and then passes the turn on, which changes no thread and no memory; a word with no assigned operation is the undefined
instruction, a reserved operand faults (privilege first), a failed fetch faults, and a step fault that is due, or that of a
bad entry record, comes before the fetch; the instruction of a thread whose wait is over retires in the thread's turn; and a
thread that cannot run passes its turn on. The model's choices: in which order threads have their turns, those whose wait is over
among them (log entry 6), a bad entry record before the fetch (56), and a step fault before the next instruction (61). -/
def Obligations.StepRunsDecoded : Prop :=
  (∀ s : State, dueSplit s = none → s.dueInput = none → runDue s = none → runs s s.tid = true →
    (s.th.wait ≠ .none → step s = thenAdvance (waitStep s))
    ∧ (s.th.wait = .none →
    (∀ bs i, s.th.entryBad = false → s.th.stepDue = false → fetchBytes s = .ok bs → decodeBytes bs = .ok i → step s = thenAdvance (exec i s))
    ∧ (∀ bs, s.th.entryBad = false → s.th.stepDue = false → fetchBytes s = .ok bs → decodeBytes bs = .error .undefinedInstruction →
      step s = thenAdvance (exec (.undefinedInstruction (BitVec.ofNat 32 (leWord bs))) s))
    ∧ (∀ bs, s.th.entryBad = false → s.th.stepDue = false → fetchBytes s = .ok bs → decodeBytes bs = .error .reservedOperand → CanHold s 1 →
      step s = .next (faulted s (if privilegedWord (BitVec.ofNat 32 (leWord bs)) = true ∧ s.th.privileged = false
        then 0x04 else 0x02) 0 0 0 none).advance)
    ∧ (∀ k : Trap, s.th.entryBad = false → s.th.stepDue = false → fetchBytes s = .error (.trap k) → CanHold s 1 →
      step s = .next (faulted s k.cause k.addr k.info k.step k.miss).advance)
    ∧ (s.th.entryBad = false → s.th.stepDue = true → CanHold s 1 → step s = .next (faulted s 0x10 0 0 0 none).advance)
    ∧ (s.th.entryBad = true → CanHold s 1 → step s = .next (faulted s 0x02 0 0 0 none).advance)))
  ∧ (∀ s : State, dueSplit s = none → s.dueInput = none → runDue s = none → runs s s.tid = false → step s = .next s.advance)
  ∧ (∀ (s : State) (k : Nat), s.advance.thread k = s.thread k ∧ s.advance.mem = s.mem ∧ s.advance.cores = s.cores
    ∧ s.advance.quads = s.quads ∧ s.advance.gangs = s.gangs)
end

