-- ==== Sys2Proof/Laws/State.lean ====
section
/-! SUPPORT. What each update of the state leaves in each of its fields. -/

namespace Sys2Proof.Machine

/-! ### `setTh` replaces `th` -/

@[simp] theorem State.setTh_th (s : State) (t : Thread) : (s.setTh t).th = t := rfl
@[simp] theorem State.setTh_tid (s : State) (t : Thread) : (s.setTh t).tid = s.tid := rfl
@[simp] theorem State.setTh_parked (s : State) (t : Thread) : (s.setTh t).parked = s.parked := rfl
@[simp] theorem State.setTh_mem (s : State) (t : Thread) : (s.setTh t).mem = s.mem := rfl
@[simp] theorem State.setTh_poison (s : State) (t : Thread) : (s.setTh t).poison = s.poison := rfl
@[simp] theorem State.setTh_cores (s : State) (t : Thread) : (s.setTh t).cores = s.cores := rfl
@[simp] theorem State.setTh_quads (s : State) (t : Thread) : (s.setTh t).quads = s.quads := rfl
@[simp] theorem State.setTh_sections (s : State) (t : Thread) : (s.setTh t).sections = s.sections := rfl
@[simp] theorem State.setTh_gangs (s : State) (t : Thread) : (s.setTh t).gangs = s.gangs := rfl
@[simp] theorem State.setTh_contexts (s : State) (t : Thread) : (s.setTh t).contexts = s.contexts := rfl
@[simp] theorem State.setTh_dies (s : State) (t : Thread) : (s.setTh t).dies = s.dies := rfl
@[simp] theorem State.setTh_regions (s : State) (t : Thread) : (s.setTh t).regions = s.regions := rfl
@[simp] theorem State.setTh_forwards (s : State) (t : Thread) : (s.setTh t).forwards = s.forwards := rfl
@[simp] theorem State.setTh_recordWrites (s : State) (t : Thread) : (s.setTh t).recordWrites = s.recordWrites := rfl
@[simp] theorem State.setTh_keys (s : State) (t : Thread) : (s.setTh t).keys = s.keys := rfl
@[simp] theorem State.setTh_podKeys (s : State) (t : Thread) : (s.setTh t).podKeys = s.podKeys := rfl
@[simp] theorem State.setTh_storage (s : State) (t : Thread) : (s.setTh t).storage = s.storage := rfl
@[simp] theorem State.setTh_weak (s : State) (t : Thread) : (s.setTh t).weak = s.weak := rfl
@[simp] theorem State.setTh_frameMarks (s : State) (t : Thread) : (s.setTh t).frameMarks = s.frameMarks := rfl
@[simp] theorem State.setTh_marks (s : State) (t : Thread) : (s.setTh t).marks = s.marks := rfl
@[simp] theorem State.setTh_damaged (s : State) (t : Thread) : (s.setTh t).damaged = s.damaged := rfl
@[simp] theorem State.setTh_rebuilds (s : State) (t : Thread) : (s.setTh t).rebuilds = s.rebuilds := rfl
@[simp] theorem State.setTh_reservedReads (s : State) (t : Thread) : (s.setTh t).reservedReads = s.reservedReads := rfl
@[simp] theorem State.setTh_pmc (s : State) (t : Thread) : (s.setTh t).pmc = s.pmc := rfl
@[simp] theorem State.setTh_ports (s : State) (t : Thread) : (s.setTh t).ports = s.ports := rfl
@[simp] theorem State.setTh_lost (s : State) (t : Thread) : (s.setTh t).lost = s.lost := rfl
@[simp] theorem State.setTh_missed (s : State) (t : Thread) : (s.setTh t).missed = s.missed := rfl
@[simp] theorem State.setTh_reported (s : State) (t : Thread) : (s.setTh t).reported = s.reported := rfl
@[simp] theorem State.setTh_rerouting (s : State) (t : Thread) : (s.setTh t).rerouting = s.rerouting := rfl
@[simp] theorem State.setTh_pod (s : State) (t : Thread) : (s.setTh t).pod = s.pod := rfl
@[simp] theorem State.setTh_routes (s : State) (t : Thread) : (s.setTh t).routes = s.routes := rfl
@[simp] theorem State.setTh_podObjects (s : State) (t : Thread) : (s.setTh t).podObjects = s.podObjects := rfl
@[simp] theorem State.setTh_podAliases (s : State) (t : Thread) : (s.setTh t).podAliases = s.podAliases := rfl
@[simp] theorem State.setTh_firmware (s : State) (t : Thread) : (s.setTh t).firmware = s.firmware := rfl
@[simp] theorem State.setTh_hostWaits (s : State) (t : Thread) : (s.setTh t).hostWaits = s.hostWaits := rfl
@[simp] theorem State.setTh_tout (s : State) (t : Thread) : (s.setTh t).tout = s.tout := rfl
@[simp] theorem State.setTh_pkg (s : State) (t : Thread) : (s.setTh t).pkg = s.pkg := rfl
@[simp] theorem State.setTh_cycle (s : State) (t : Thread) : (s.setTh t).cycle = s.cycle := rfl
@[simp] theorem State.setTh_round (s : State) (t : Thread) : (s.setTh t).round = s.round := rfl
@[simp] theorem State.setTh_seq (s : State) (t : Thread) : (s.setTh t).seq = s.seq := rfl
@[simp] theorem State.setTh_fresh (s : State) (t : Thread) : (s.setTh t).fresh = s.fresh := rfl
@[simp] theorem State.setTh_inputs (s : State) (t : Thread) : (s.setTh t).inputs = s.inputs := rfl
@[simp] theorem State.setTh_occurrences (s : State) (t : Thread) : (s.setTh t).occurrences = s.occurrences := rfl
@[simp] theorem State.setTh_unsent (s : State) (t : Thread) : (s.setTh t).unsent = s.unsent := rfl
@[simp] theorem State.setTh_hostOut (s : State) (t : Thread) : (s.setTh t).hostOut = s.hostOut := rfl
@[simp] theorem State.setTh_hostReplies (s : State) (t : Thread) : (s.setTh t).hostReplies = s.hostReplies := rfl

/-! ### `setMem` replaces `mem` -/

@[simp] theorem State.setMem_th (s : State) (m : Memory) : (s.setMem m).th = s.th := rfl
@[simp] theorem State.setMem_tid (s : State) (m : Memory) : (s.setMem m).tid = s.tid := rfl
@[simp] theorem State.setMem_parked (s : State) (m : Memory) : (s.setMem m).parked = s.parked := rfl
@[simp] theorem State.setMem_mem (s : State) (m : Memory) : (s.setMem m).mem = m := rfl
@[simp] theorem State.setMem_poison (s : State) (m : Memory) : (s.setMem m).poison = s.poison := rfl
@[simp] theorem State.setMem_cores (s : State) (m : Memory) : (s.setMem m).cores = s.cores := rfl
@[simp] theorem State.setMem_quads (s : State) (m : Memory) : (s.setMem m).quads = s.quads := rfl
@[simp] theorem State.setMem_sections (s : State) (m : Memory) : (s.setMem m).sections = s.sections := rfl
@[simp] theorem State.setMem_gangs (s : State) (m : Memory) : (s.setMem m).gangs = s.gangs := rfl
@[simp] theorem State.setMem_contexts (s : State) (m : Memory) : (s.setMem m).contexts = s.contexts := rfl
@[simp] theorem State.setMem_dies (s : State) (m : Memory) : (s.setMem m).dies = s.dies := rfl
@[simp] theorem State.setMem_regions (s : State) (m : Memory) : (s.setMem m).regions = s.regions := rfl
@[simp] theorem State.setMem_forwards (s : State) (m : Memory) : (s.setMem m).forwards = s.forwards := rfl
@[simp] theorem State.setMem_recordWrites (s : State) (m : Memory) : (s.setMem m).recordWrites = s.recordWrites := rfl
@[simp] theorem State.setMem_keys (s : State) (m : Memory) : (s.setMem m).keys = s.keys := rfl
@[simp] theorem State.setMem_podKeys (s : State) (m : Memory) : (s.setMem m).podKeys = s.podKeys := rfl
@[simp] theorem State.setMem_storage (s : State) (m : Memory) : (s.setMem m).storage = s.storage := rfl
@[simp] theorem State.setMem_weak (s : State) (m : Memory) : (s.setMem m).weak = s.weak := rfl
@[simp] theorem State.setMem_frameMarks (s : State) (m : Memory) : (s.setMem m).frameMarks = s.frameMarks := rfl
@[simp] theorem State.setMem_marks (s : State) (m : Memory) : (s.setMem m).marks = s.marks := rfl
@[simp] theorem State.setMem_damaged (s : State) (m : Memory) : (s.setMem m).damaged = s.damaged := rfl
@[simp] theorem State.setMem_rebuilds (s : State) (m : Memory) : (s.setMem m).rebuilds = s.rebuilds := rfl
@[simp] theorem State.setMem_reservedReads (s : State) (m : Memory) : (s.setMem m).reservedReads = s.reservedReads := rfl
@[simp] theorem State.setMem_pmc (s : State) (m : Memory) : (s.setMem m).pmc = s.pmc := rfl
@[simp] theorem State.setMem_ports (s : State) (m : Memory) : (s.setMem m).ports = s.ports := rfl
@[simp] theorem State.setMem_lost (s : State) (m : Memory) : (s.setMem m).lost = s.lost := rfl
@[simp] theorem State.setMem_missed (s : State) (m : Memory) : (s.setMem m).missed = s.missed := rfl
@[simp] theorem State.setMem_reported (s : State) (m : Memory) : (s.setMem m).reported = s.reported := rfl
@[simp] theorem State.setMem_rerouting (s : State) (m : Memory) : (s.setMem m).rerouting = s.rerouting := rfl
@[simp] theorem State.setMem_pod (s : State) (m : Memory) : (s.setMem m).pod = s.pod := rfl
@[simp] theorem State.setMem_routes (s : State) (m : Memory) : (s.setMem m).routes = s.routes := rfl
@[simp] theorem State.setMem_podObjects (s : State) (m : Memory) : (s.setMem m).podObjects = s.podObjects := rfl
@[simp] theorem State.setMem_podAliases (s : State) (m : Memory) : (s.setMem m).podAliases = s.podAliases := rfl
@[simp] theorem State.setMem_firmware (s : State) (m : Memory) : (s.setMem m).firmware = s.firmware := rfl
@[simp] theorem State.setMem_hostWaits (s : State) (m : Memory) : (s.setMem m).hostWaits = s.hostWaits := rfl
@[simp] theorem State.setMem_tout (s : State) (m : Memory) : (s.setMem m).tout = s.tout := rfl
@[simp] theorem State.setMem_pkg (s : State) (m : Memory) : (s.setMem m).pkg = s.pkg := rfl
@[simp] theorem State.setMem_cycle (s : State) (m : Memory) : (s.setMem m).cycle = s.cycle := rfl
@[simp] theorem State.setMem_round (s : State) (m : Memory) : (s.setMem m).round = s.round := rfl
@[simp] theorem State.setMem_seq (s : State) (m : Memory) : (s.setMem m).seq = s.seq := rfl
@[simp] theorem State.setMem_fresh (s : State) (m : Memory) : (s.setMem m).fresh = s.fresh := rfl
@[simp] theorem State.setMem_inputs (s : State) (m : Memory) : (s.setMem m).inputs = s.inputs := rfl
@[simp] theorem State.setMem_occurrences (s : State) (m : Memory) : (s.setMem m).occurrences = s.occurrences := rfl
@[simp] theorem State.setMem_unsent (s : State) (m : Memory) : (s.setMem m).unsent = s.unsent := rfl
@[simp] theorem State.setMem_hostOut (s : State) (m : Memory) : (s.setMem m).hostOut = s.hostOut := rfl
@[simp] theorem State.setMem_hostReplies (s : State) (m : Memory) : (s.setMem m).hostReplies = s.hostReplies := rfl

/-! ### `setCore` replaces `cores` -/

@[simp] theorem State.setCore_th (s : State) (c : Nat) (k : Core) : (s.setCore c k).th = s.th := rfl
@[simp] theorem State.setCore_tid (s : State) (c : Nat) (k : Core) : (s.setCore c k).tid = s.tid := rfl
@[simp] theorem State.setCore_parked (s : State) (c : Nat) (k : Core) : (s.setCore c k).parked = s.parked := rfl
@[simp] theorem State.setCore_mem (s : State) (c : Nat) (k : Core) : (s.setCore c k).mem = s.mem := rfl
@[simp] theorem State.setCore_poison (s : State) (c : Nat) (k : Core) : (s.setCore c k).poison = s.poison := rfl
@[simp] theorem State.setCore_cores (s : State) (c : Nat) (k : Core) : (s.setCore c k).cores = s.cores.put c k := rfl
@[simp] theorem State.setCore_quads (s : State) (c : Nat) (k : Core) : (s.setCore c k).quads = s.quads := rfl
@[simp] theorem State.setCore_sections (s : State) (c : Nat) (k : Core) : (s.setCore c k).sections = s.sections := rfl
@[simp] theorem State.setCore_gangs (s : State) (c : Nat) (k : Core) : (s.setCore c k).gangs = s.gangs := rfl
@[simp] theorem State.setCore_contexts (s : State) (c : Nat) (k : Core) : (s.setCore c k).contexts = s.contexts := rfl
@[simp] theorem State.setCore_dies (s : State) (c : Nat) (k : Core) : (s.setCore c k).dies = s.dies := rfl
@[simp] theorem State.setCore_regions (s : State) (c : Nat) (k : Core) : (s.setCore c k).regions = s.regions := rfl
@[simp] theorem State.setCore_forwards (s : State) (c : Nat) (k : Core) : (s.setCore c k).forwards = s.forwards := rfl
@[simp] theorem State.setCore_recordWrites (s : State) (c : Nat) (k : Core) : (s.setCore c k).recordWrites = s.recordWrites := rfl
@[simp] theorem State.setCore_keys (s : State) (c : Nat) (k : Core) : (s.setCore c k).keys = s.keys := rfl
@[simp] theorem State.setCore_podKeys (s : State) (c : Nat) (k : Core) : (s.setCore c k).podKeys = s.podKeys := rfl
@[simp] theorem State.setCore_storage (s : State) (c : Nat) (k : Core) : (s.setCore c k).storage = s.storage := rfl
@[simp] theorem State.setCore_weak (s : State) (c : Nat) (k : Core) : (s.setCore c k).weak = s.weak := rfl
@[simp] theorem State.setCore_frameMarks (s : State) (c : Nat) (k : Core) : (s.setCore c k).frameMarks = s.frameMarks := rfl
@[simp] theorem State.setCore_marks (s : State) (c : Nat) (k : Core) : (s.setCore c k).marks = s.marks := rfl
@[simp] theorem State.setCore_damaged (s : State) (c : Nat) (k : Core) : (s.setCore c k).damaged = s.damaged := rfl
@[simp] theorem State.setCore_rebuilds (s : State) (c : Nat) (k : Core) : (s.setCore c k).rebuilds = s.rebuilds := rfl
@[simp] theorem State.setCore_reservedReads (s : State) (c : Nat) (k : Core) : (s.setCore c k).reservedReads = s.reservedReads := rfl
@[simp] theorem State.setCore_pmc (s : State) (c : Nat) (k : Core) : (s.setCore c k).pmc = s.pmc := rfl
@[simp] theorem State.setCore_ports (s : State) (c : Nat) (k : Core) : (s.setCore c k).ports = s.ports := rfl
@[simp] theorem State.setCore_lost (s : State) (c : Nat) (k : Core) : (s.setCore c k).lost = s.lost := rfl
@[simp] theorem State.setCore_missed (s : State) (c : Nat) (k : Core) : (s.setCore c k).missed = s.missed := rfl
@[simp] theorem State.setCore_reported (s : State) (c : Nat) (k : Core) : (s.setCore c k).reported = s.reported := rfl
@[simp] theorem State.setCore_rerouting (s : State) (c : Nat) (k : Core) : (s.setCore c k).rerouting = s.rerouting := rfl
@[simp] theorem State.setCore_pod (s : State) (c : Nat) (k : Core) : (s.setCore c k).pod = s.pod := rfl
@[simp] theorem State.setCore_routes (s : State) (c : Nat) (k : Core) : (s.setCore c k).routes = s.routes := rfl
@[simp] theorem State.setCore_podObjects (s : State) (c : Nat) (k : Core) : (s.setCore c k).podObjects = s.podObjects := rfl
@[simp] theorem State.setCore_podAliases (s : State) (c : Nat) (k : Core) : (s.setCore c k).podAliases = s.podAliases := rfl
@[simp] theorem State.setCore_firmware (s : State) (c : Nat) (k : Core) : (s.setCore c k).firmware = s.firmware := rfl
@[simp] theorem State.setCore_hostWaits (s : State) (c : Nat) (k : Core) : (s.setCore c k).hostWaits = s.hostWaits := rfl
@[simp] theorem State.setCore_tout (s : State) (c : Nat) (k : Core) : (s.setCore c k).tout = s.tout := rfl
@[simp] theorem State.setCore_pkg (s : State) (c : Nat) (k : Core) : (s.setCore c k).pkg = s.pkg := rfl
@[simp] theorem State.setCore_cycle (s : State) (c : Nat) (k : Core) : (s.setCore c k).cycle = s.cycle := rfl
@[simp] theorem State.setCore_round (s : State) (c : Nat) (k : Core) : (s.setCore c k).round = s.round := rfl
@[simp] theorem State.setCore_seq (s : State) (c : Nat) (k : Core) : (s.setCore c k).seq = s.seq := rfl
@[simp] theorem State.setCore_fresh (s : State) (c : Nat) (k : Core) : (s.setCore c k).fresh = s.fresh := rfl
@[simp] theorem State.setCore_inputs (s : State) (c : Nat) (k : Core) : (s.setCore c k).inputs = s.inputs := rfl
@[simp] theorem State.setCore_occurrences (s : State) (c : Nat) (k : Core) : (s.setCore c k).occurrences = s.occurrences := rfl
@[simp] theorem State.setCore_unsent (s : State) (c : Nat) (k : Core) : (s.setCore c k).unsent = s.unsent := rfl
@[simp] theorem State.setCore_hostOut (s : State) (c : Nat) (k : Core) : (s.setCore c k).hostOut = s.hostOut := rfl
@[simp] theorem State.setCore_hostReplies (s : State) (c : Nat) (k : Core) : (s.setCore c k).hostReplies = s.hostReplies := rfl

/-! ### `setQuad` replaces `quads` -/

@[simp] theorem State.setQuad_th (s : State) (q : Nat) (k : Quad) : (s.setQuad q k).th = s.th := rfl
@[simp] theorem State.setQuad_tid (s : State) (q : Nat) (k : Quad) : (s.setQuad q k).tid = s.tid := rfl
@[simp] theorem State.setQuad_parked (s : State) (q : Nat) (k : Quad) : (s.setQuad q k).parked = s.parked := rfl
@[simp] theorem State.setQuad_mem (s : State) (q : Nat) (k : Quad) : (s.setQuad q k).mem = s.mem := rfl
@[simp] theorem State.setQuad_poison (s : State) (q : Nat) (k : Quad) : (s.setQuad q k).poison = s.poison := rfl
@[simp] theorem State.setQuad_cores (s : State) (q : Nat) (k : Quad) : (s.setQuad q k).cores = s.cores := rfl
@[simp] theorem State.setQuad_quads (s : State) (q : Nat) (k : Quad) : (s.setQuad q k).quads = s.quads.put q k := rfl
@[simp] theorem State.setQuad_sections (s : State) (q : Nat) (k : Quad) : (s.setQuad q k).sections = s.sections := rfl
@[simp] theorem State.setQuad_gangs (s : State) (q : Nat) (k : Quad) : (s.setQuad q k).gangs = s.gangs := rfl
@[simp] theorem State.setQuad_contexts (s : State) (q : Nat) (k : Quad) : (s.setQuad q k).contexts = s.contexts := rfl
@[simp] theorem State.setQuad_dies (s : State) (q : Nat) (k : Quad) : (s.setQuad q k).dies = s.dies := rfl
@[simp] theorem State.setQuad_regions (s : State) (q : Nat) (k : Quad) : (s.setQuad q k).regions = s.regions := rfl
@[simp] theorem State.setQuad_forwards (s : State) (q : Nat) (k : Quad) : (s.setQuad q k).forwards = s.forwards := rfl
@[simp] theorem State.setQuad_recordWrites (s : State) (q : Nat) (k : Quad) : (s.setQuad q k).recordWrites = s.recordWrites := rfl
@[simp] theorem State.setQuad_keys (s : State) (q : Nat) (k : Quad) : (s.setQuad q k).keys = s.keys := rfl
@[simp] theorem State.setQuad_podKeys (s : State) (q : Nat) (k : Quad) : (s.setQuad q k).podKeys = s.podKeys := rfl
@[simp] theorem State.setQuad_storage (s : State) (q : Nat) (k : Quad) : (s.setQuad q k).storage = s.storage := rfl
@[simp] theorem State.setQuad_weak (s : State) (q : Nat) (k : Quad) : (s.setQuad q k).weak = s.weak := rfl
@[simp] theorem State.setQuad_frameMarks (s : State) (q : Nat) (k : Quad) : (s.setQuad q k).frameMarks = s.frameMarks := rfl
@[simp] theorem State.setQuad_marks (s : State) (q : Nat) (k : Quad) : (s.setQuad q k).marks = s.marks := rfl
@[simp] theorem State.setQuad_damaged (s : State) (q : Nat) (k : Quad) : (s.setQuad q k).damaged = s.damaged := rfl
@[simp] theorem State.setQuad_rebuilds (s : State) (q : Nat) (k : Quad) : (s.setQuad q k).rebuilds = s.rebuilds := rfl
@[simp] theorem State.setQuad_reservedReads (s : State) (q : Nat) (k : Quad) : (s.setQuad q k).reservedReads = s.reservedReads := rfl
@[simp] theorem State.setQuad_pmc (s : State) (q : Nat) (k : Quad) : (s.setQuad q k).pmc = s.pmc := rfl
@[simp] theorem State.setQuad_ports (s : State) (q : Nat) (k : Quad) : (s.setQuad q k).ports = s.ports := rfl
@[simp] theorem State.setQuad_lost (s : State) (q : Nat) (k : Quad) : (s.setQuad q k).lost = s.lost := rfl
@[simp] theorem State.setQuad_missed (s : State) (q : Nat) (k : Quad) : (s.setQuad q k).missed = s.missed := rfl
@[simp] theorem State.setQuad_reported (s : State) (q : Nat) (k : Quad) : (s.setQuad q k).reported = s.reported := rfl
@[simp] theorem State.setQuad_rerouting (s : State) (q : Nat) (k : Quad) : (s.setQuad q k).rerouting = s.rerouting := rfl
@[simp] theorem State.setQuad_pod (s : State) (q : Nat) (k : Quad) : (s.setQuad q k).pod = s.pod := rfl
@[simp] theorem State.setQuad_routes (s : State) (q : Nat) (k : Quad) : (s.setQuad q k).routes = s.routes := rfl
@[simp] theorem State.setQuad_podObjects (s : State) (q : Nat) (k : Quad) : (s.setQuad q k).podObjects = s.podObjects := rfl
@[simp] theorem State.setQuad_podAliases (s : State) (q : Nat) (k : Quad) : (s.setQuad q k).podAliases = s.podAliases := rfl
@[simp] theorem State.setQuad_firmware (s : State) (q : Nat) (k : Quad) : (s.setQuad q k).firmware = s.firmware := rfl
@[simp] theorem State.setQuad_hostWaits (s : State) (q : Nat) (k : Quad) : (s.setQuad q k).hostWaits = s.hostWaits := rfl
@[simp] theorem State.setQuad_tout (s : State) (q : Nat) (k : Quad) : (s.setQuad q k).tout = s.tout := rfl
@[simp] theorem State.setQuad_pkg (s : State) (q : Nat) (k : Quad) : (s.setQuad q k).pkg = s.pkg := rfl
@[simp] theorem State.setQuad_cycle (s : State) (q : Nat) (k : Quad) : (s.setQuad q k).cycle = s.cycle := rfl
@[simp] theorem State.setQuad_round (s : State) (q : Nat) (k : Quad) : (s.setQuad q k).round = s.round := rfl
@[simp] theorem State.setQuad_seq (s : State) (q : Nat) (k : Quad) : (s.setQuad q k).seq = s.seq := rfl
@[simp] theorem State.setQuad_fresh (s : State) (q : Nat) (k : Quad) : (s.setQuad q k).fresh = s.fresh := rfl
@[simp] theorem State.setQuad_inputs (s : State) (q : Nat) (k : Quad) : (s.setQuad q k).inputs = s.inputs := rfl
@[simp] theorem State.setQuad_occurrences (s : State) (q : Nat) (k : Quad) : (s.setQuad q k).occurrences = s.occurrences := rfl
@[simp] theorem State.setQuad_unsent (s : State) (q : Nat) (k : Quad) : (s.setQuad q k).unsent = s.unsent := rfl
@[simp] theorem State.setQuad_hostOut (s : State) (q : Nat) (k : Quad) : (s.setQuad q k).hostOut = s.hostOut := rfl
@[simp] theorem State.setQuad_hostReplies (s : State) (q : Nat) (k : Quad) : (s.setQuad q k).hostReplies = s.hostReplies := rfl

/-! ### `setSect` replaces `sections` -/

@[simp] theorem State.setSect_th (s : State) (n : Nat) (k : Section) : (s.setSect n k).th = s.th := rfl
@[simp] theorem State.setSect_tid (s : State) (n : Nat) (k : Section) : (s.setSect n k).tid = s.tid := rfl
@[simp] theorem State.setSect_parked (s : State) (n : Nat) (k : Section) : (s.setSect n k).parked = s.parked := rfl
@[simp] theorem State.setSect_mem (s : State) (n : Nat) (k : Section) : (s.setSect n k).mem = s.mem := rfl
@[simp] theorem State.setSect_poison (s : State) (n : Nat) (k : Section) : (s.setSect n k).poison = s.poison := rfl
@[simp] theorem State.setSect_cores (s : State) (n : Nat) (k : Section) : (s.setSect n k).cores = s.cores := rfl
@[simp] theorem State.setSect_quads (s : State) (n : Nat) (k : Section) : (s.setSect n k).quads = s.quads := rfl
@[simp] theorem State.setSect_sections (s : State) (n : Nat) (k : Section) : (s.setSect n k).sections = s.sections.put n k := rfl
@[simp] theorem State.setSect_gangs (s : State) (n : Nat) (k : Section) : (s.setSect n k).gangs = s.gangs := rfl
@[simp] theorem State.setSect_contexts (s : State) (n : Nat) (k : Section) : (s.setSect n k).contexts = s.contexts := rfl
@[simp] theorem State.setSect_dies (s : State) (n : Nat) (k : Section) : (s.setSect n k).dies = s.dies := rfl
@[simp] theorem State.setSect_regions (s : State) (n : Nat) (k : Section) : (s.setSect n k).regions = s.regions := rfl
@[simp] theorem State.setSect_forwards (s : State) (n : Nat) (k : Section) : (s.setSect n k).forwards = s.forwards := rfl
@[simp] theorem State.setSect_recordWrites (s : State) (n : Nat) (k : Section) : (s.setSect n k).recordWrites = s.recordWrites := rfl
@[simp] theorem State.setSect_keys (s : State) (n : Nat) (k : Section) : (s.setSect n k).keys = s.keys := rfl
@[simp] theorem State.setSect_podKeys (s : State) (n : Nat) (k : Section) : (s.setSect n k).podKeys = s.podKeys := rfl
@[simp] theorem State.setSect_storage (s : State) (n : Nat) (k : Section) : (s.setSect n k).storage = s.storage := rfl
@[simp] theorem State.setSect_weak (s : State) (n : Nat) (k : Section) : (s.setSect n k).weak = s.weak := rfl
@[simp] theorem State.setSect_frameMarks (s : State) (n : Nat) (k : Section) : (s.setSect n k).frameMarks = s.frameMarks := rfl
@[simp] theorem State.setSect_marks (s : State) (n : Nat) (k : Section) : (s.setSect n k).marks = s.marks := rfl
@[simp] theorem State.setSect_damaged (s : State) (n : Nat) (k : Section) : (s.setSect n k).damaged = s.damaged := rfl
@[simp] theorem State.setSect_rebuilds (s : State) (n : Nat) (k : Section) : (s.setSect n k).rebuilds = s.rebuilds := rfl
@[simp] theorem State.setSect_reservedReads (s : State) (n : Nat) (k : Section) : (s.setSect n k).reservedReads = s.reservedReads := rfl
@[simp] theorem State.setSect_pmc (s : State) (n : Nat) (k : Section) : (s.setSect n k).pmc = s.pmc := rfl
@[simp] theorem State.setSect_ports (s : State) (n : Nat) (k : Section) : (s.setSect n k).ports = s.ports := rfl
@[simp] theorem State.setSect_lost (s : State) (n : Nat) (k : Section) : (s.setSect n k).lost = s.lost := rfl
@[simp] theorem State.setSect_missed (s : State) (n : Nat) (k : Section) : (s.setSect n k).missed = s.missed := rfl
@[simp] theorem State.setSect_reported (s : State) (n : Nat) (k : Section) : (s.setSect n k).reported = s.reported := rfl
@[simp] theorem State.setSect_rerouting (s : State) (n : Nat) (k : Section) : (s.setSect n k).rerouting = s.rerouting := rfl
@[simp] theorem State.setSect_pod (s : State) (n : Nat) (k : Section) : (s.setSect n k).pod = s.pod := rfl
@[simp] theorem State.setSect_routes (s : State) (n : Nat) (k : Section) : (s.setSect n k).routes = s.routes := rfl
@[simp] theorem State.setSect_podObjects (s : State) (n : Nat) (k : Section) : (s.setSect n k).podObjects = s.podObjects := rfl
@[simp] theorem State.setSect_podAliases (s : State) (n : Nat) (k : Section) : (s.setSect n k).podAliases = s.podAliases := rfl
@[simp] theorem State.setSect_firmware (s : State) (n : Nat) (k : Section) : (s.setSect n k).firmware = s.firmware := rfl
@[simp] theorem State.setSect_hostWaits (s : State) (n : Nat) (k : Section) : (s.setSect n k).hostWaits = s.hostWaits := rfl
@[simp] theorem State.setSect_tout (s : State) (n : Nat) (k : Section) : (s.setSect n k).tout = s.tout := rfl
@[simp] theorem State.setSect_pkg (s : State) (n : Nat) (k : Section) : (s.setSect n k).pkg = s.pkg := rfl
@[simp] theorem State.setSect_cycle (s : State) (n : Nat) (k : Section) : (s.setSect n k).cycle = s.cycle := rfl
@[simp] theorem State.setSect_round (s : State) (n : Nat) (k : Section) : (s.setSect n k).round = s.round := rfl
@[simp] theorem State.setSect_seq (s : State) (n : Nat) (k : Section) : (s.setSect n k).seq = s.seq := rfl
@[simp] theorem State.setSect_fresh (s : State) (n : Nat) (k : Section) : (s.setSect n k).fresh = s.fresh := rfl
@[simp] theorem State.setSect_inputs (s : State) (n : Nat) (k : Section) : (s.setSect n k).inputs = s.inputs := rfl
@[simp] theorem State.setSect_occurrences (s : State) (n : Nat) (k : Section) : (s.setSect n k).occurrences = s.occurrences := rfl
@[simp] theorem State.setSect_unsent (s : State) (n : Nat) (k : Section) : (s.setSect n k).unsent = s.unsent := rfl
@[simp] theorem State.setSect_hostOut (s : State) (n : Nat) (k : Section) : (s.setSect n k).hostOut = s.hostOut := rfl
@[simp] theorem State.setSect_hostReplies (s : State) (n : Nat) (k : Section) : (s.setSect n k).hostReplies = s.hostReplies := rfl

/-! ### `setDie` replaces `dies` -/

@[simp] theorem State.setDie_th (s : State) (n : Nat) (k : BaseDie) : (s.setDie n k).th = s.th := rfl
@[simp] theorem State.setDie_tid (s : State) (n : Nat) (k : BaseDie) : (s.setDie n k).tid = s.tid := rfl
@[simp] theorem State.setDie_parked (s : State) (n : Nat) (k : BaseDie) : (s.setDie n k).parked = s.parked := rfl
@[simp] theorem State.setDie_mem (s : State) (n : Nat) (k : BaseDie) : (s.setDie n k).mem = s.mem := rfl
@[simp] theorem State.setDie_poison (s : State) (n : Nat) (k : BaseDie) : (s.setDie n k).poison = s.poison := rfl
@[simp] theorem State.setDie_cores (s : State) (n : Nat) (k : BaseDie) : (s.setDie n k).cores = s.cores := rfl
@[simp] theorem State.setDie_quads (s : State) (n : Nat) (k : BaseDie) : (s.setDie n k).quads = s.quads := rfl
@[simp] theorem State.setDie_sections (s : State) (n : Nat) (k : BaseDie) : (s.setDie n k).sections = s.sections := rfl
@[simp] theorem State.setDie_gangs (s : State) (n : Nat) (k : BaseDie) : (s.setDie n k).gangs = s.gangs := rfl
@[simp] theorem State.setDie_contexts (s : State) (n : Nat) (k : BaseDie) : (s.setDie n k).contexts = s.contexts := rfl
@[simp] theorem State.setDie_dies (s : State) (n : Nat) (k : BaseDie) : (s.setDie n k).dies = s.dies.put n k := rfl
@[simp] theorem State.setDie_regions (s : State) (n : Nat) (k : BaseDie) : (s.setDie n k).regions = s.regions := rfl
@[simp] theorem State.setDie_forwards (s : State) (n : Nat) (k : BaseDie) : (s.setDie n k).forwards = s.forwards := rfl
@[simp] theorem State.setDie_recordWrites (s : State) (n : Nat) (k : BaseDie) : (s.setDie n k).recordWrites = s.recordWrites := rfl
@[simp] theorem State.setDie_keys (s : State) (n : Nat) (k : BaseDie) : (s.setDie n k).keys = s.keys := rfl
@[simp] theorem State.setDie_podKeys (s : State) (n : Nat) (k : BaseDie) : (s.setDie n k).podKeys = s.podKeys := rfl
@[simp] theorem State.setDie_storage (s : State) (n : Nat) (k : BaseDie) : (s.setDie n k).storage = s.storage := rfl
@[simp] theorem State.setDie_weak (s : State) (n : Nat) (k : BaseDie) : (s.setDie n k).weak = s.weak := rfl
@[simp] theorem State.setDie_frameMarks (s : State) (n : Nat) (k : BaseDie) : (s.setDie n k).frameMarks = s.frameMarks := rfl
@[simp] theorem State.setDie_marks (s : State) (n : Nat) (k : BaseDie) : (s.setDie n k).marks = s.marks := rfl
@[simp] theorem State.setDie_damaged (s : State) (n : Nat) (k : BaseDie) : (s.setDie n k).damaged = s.damaged := rfl
@[simp] theorem State.setDie_rebuilds (s : State) (n : Nat) (k : BaseDie) : (s.setDie n k).rebuilds = s.rebuilds := rfl
@[simp] theorem State.setDie_reservedReads (s : State) (n : Nat) (k : BaseDie) : (s.setDie n k).reservedReads = s.reservedReads := rfl
@[simp] theorem State.setDie_pmc (s : State) (n : Nat) (k : BaseDie) : (s.setDie n k).pmc = s.pmc := rfl
@[simp] theorem State.setDie_ports (s : State) (n : Nat) (k : BaseDie) : (s.setDie n k).ports = s.ports := rfl
@[simp] theorem State.setDie_lost (s : State) (n : Nat) (k : BaseDie) : (s.setDie n k).lost = s.lost := rfl
@[simp] theorem State.setDie_missed (s : State) (n : Nat) (k : BaseDie) : (s.setDie n k).missed = s.missed := rfl
@[simp] theorem State.setDie_reported (s : State) (n : Nat) (k : BaseDie) : (s.setDie n k).reported = s.reported := rfl
@[simp] theorem State.setDie_rerouting (s : State) (n : Nat) (k : BaseDie) : (s.setDie n k).rerouting = s.rerouting := rfl
@[simp] theorem State.setDie_pod (s : State) (n : Nat) (k : BaseDie) : (s.setDie n k).pod = s.pod := rfl
@[simp] theorem State.setDie_routes (s : State) (n : Nat) (k : BaseDie) : (s.setDie n k).routes = s.routes := rfl
@[simp] theorem State.setDie_podObjects (s : State) (n : Nat) (k : BaseDie) : (s.setDie n k).podObjects = s.podObjects := rfl
@[simp] theorem State.setDie_podAliases (s : State) (n : Nat) (k : BaseDie) : (s.setDie n k).podAliases = s.podAliases := rfl
@[simp] theorem State.setDie_firmware (s : State) (n : Nat) (k : BaseDie) : (s.setDie n k).firmware = s.firmware := rfl
@[simp] theorem State.setDie_hostWaits (s : State) (n : Nat) (k : BaseDie) : (s.setDie n k).hostWaits = s.hostWaits := rfl
@[simp] theorem State.setDie_tout (s : State) (n : Nat) (k : BaseDie) : (s.setDie n k).tout = s.tout := rfl
@[simp] theorem State.setDie_pkg (s : State) (n : Nat) (k : BaseDie) : (s.setDie n k).pkg = s.pkg := rfl
@[simp] theorem State.setDie_cycle (s : State) (n : Nat) (k : BaseDie) : (s.setDie n k).cycle = s.cycle := rfl
@[simp] theorem State.setDie_round (s : State) (n : Nat) (k : BaseDie) : (s.setDie n k).round = s.round := rfl
@[simp] theorem State.setDie_seq (s : State) (n : Nat) (k : BaseDie) : (s.setDie n k).seq = s.seq := rfl
@[simp] theorem State.setDie_fresh (s : State) (n : Nat) (k : BaseDie) : (s.setDie n k).fresh = s.fresh := rfl
@[simp] theorem State.setDie_inputs (s : State) (n : Nat) (k : BaseDie) : (s.setDie n k).inputs = s.inputs := rfl
@[simp] theorem State.setDie_occurrences (s : State) (n : Nat) (k : BaseDie) : (s.setDie n k).occurrences = s.occurrences := rfl
@[simp] theorem State.setDie_unsent (s : State) (n : Nat) (k : BaseDie) : (s.setDie n k).unsent = s.unsent := rfl
@[simp] theorem State.setDie_hostOut (s : State) (n : Nat) (k : BaseDie) : (s.setDie n k).hostOut = s.hostOut := rfl
@[simp] theorem State.setDie_hostReplies (s : State) (n : Nat) (k : BaseDie) : (s.setDie n k).hostReplies = s.hostReplies := rfl

/-! ### `setGang` replaces `gangs` -/

@[simp] theorem State.setGang_th (s : State) (g : Nat) (k : Gang) : (s.setGang g k).th = s.th := rfl
@[simp] theorem State.setGang_tid (s : State) (g : Nat) (k : Gang) : (s.setGang g k).tid = s.tid := rfl
@[simp] theorem State.setGang_parked (s : State) (g : Nat) (k : Gang) : (s.setGang g k).parked = s.parked := rfl
@[simp] theorem State.setGang_mem (s : State) (g : Nat) (k : Gang) : (s.setGang g k).mem = s.mem := rfl
@[simp] theorem State.setGang_poison (s : State) (g : Nat) (k : Gang) : (s.setGang g k).poison = s.poison := rfl
@[simp] theorem State.setGang_cores (s : State) (g : Nat) (k : Gang) : (s.setGang g k).cores = s.cores := rfl
@[simp] theorem State.setGang_quads (s : State) (g : Nat) (k : Gang) : (s.setGang g k).quads = s.quads := rfl
@[simp] theorem State.setGang_sections (s : State) (g : Nat) (k : Gang) : (s.setGang g k).sections = s.sections := rfl
@[simp] theorem State.setGang_gangs (s : State) (g : Nat) (k : Gang) : (s.setGang g k).gangs = s.gangs.put g k := rfl
@[simp] theorem State.setGang_contexts (s : State) (g : Nat) (k : Gang) : (s.setGang g k).contexts = s.contexts := rfl
@[simp] theorem State.setGang_dies (s : State) (g : Nat) (k : Gang) : (s.setGang g k).dies = s.dies := rfl
@[simp] theorem State.setGang_regions (s : State) (g : Nat) (k : Gang) : (s.setGang g k).regions = s.regions := rfl
@[simp] theorem State.setGang_forwards (s : State) (g : Nat) (k : Gang) : (s.setGang g k).forwards = s.forwards := rfl
@[simp] theorem State.setGang_recordWrites (s : State) (g : Nat) (k : Gang) : (s.setGang g k).recordWrites = s.recordWrites := rfl
@[simp] theorem State.setGang_keys (s : State) (g : Nat) (k : Gang) : (s.setGang g k).keys = s.keys := rfl
@[simp] theorem State.setGang_podKeys (s : State) (g : Nat) (k : Gang) : (s.setGang g k).podKeys = s.podKeys := rfl
@[simp] theorem State.setGang_storage (s : State) (g : Nat) (k : Gang) : (s.setGang g k).storage = s.storage := rfl
@[simp] theorem State.setGang_weak (s : State) (g : Nat) (k : Gang) : (s.setGang g k).weak = s.weak := rfl
@[simp] theorem State.setGang_frameMarks (s : State) (g : Nat) (k : Gang) : (s.setGang g k).frameMarks = s.frameMarks := rfl
@[simp] theorem State.setGang_marks (s : State) (g : Nat) (k : Gang) : (s.setGang g k).marks = s.marks := rfl
@[simp] theorem State.setGang_damaged (s : State) (g : Nat) (k : Gang) : (s.setGang g k).damaged = s.damaged := rfl
@[simp] theorem State.setGang_rebuilds (s : State) (g : Nat) (k : Gang) : (s.setGang g k).rebuilds = s.rebuilds := rfl
@[simp] theorem State.setGang_reservedReads (s : State) (g : Nat) (k : Gang) : (s.setGang g k).reservedReads = s.reservedReads := rfl
@[simp] theorem State.setGang_pmc (s : State) (g : Nat) (k : Gang) : (s.setGang g k).pmc = s.pmc := rfl
@[simp] theorem State.setGang_ports (s : State) (g : Nat) (k : Gang) : (s.setGang g k).ports = s.ports := rfl
@[simp] theorem State.setGang_lost (s : State) (g : Nat) (k : Gang) : (s.setGang g k).lost = s.lost := rfl
@[simp] theorem State.setGang_missed (s : State) (g : Nat) (k : Gang) : (s.setGang g k).missed = s.missed := rfl
@[simp] theorem State.setGang_reported (s : State) (g : Nat) (k : Gang) : (s.setGang g k).reported = s.reported := rfl
@[simp] theorem State.setGang_rerouting (s : State) (g : Nat) (k : Gang) : (s.setGang g k).rerouting = s.rerouting := rfl
@[simp] theorem State.setGang_pod (s : State) (g : Nat) (k : Gang) : (s.setGang g k).pod = s.pod := rfl
@[simp] theorem State.setGang_routes (s : State) (g : Nat) (k : Gang) : (s.setGang g k).routes = s.routes := rfl
@[simp] theorem State.setGang_podObjects (s : State) (g : Nat) (k : Gang) : (s.setGang g k).podObjects = s.podObjects := rfl
@[simp] theorem State.setGang_podAliases (s : State) (g : Nat) (k : Gang) : (s.setGang g k).podAliases = s.podAliases := rfl
@[simp] theorem State.setGang_firmware (s : State) (g : Nat) (k : Gang) : (s.setGang g k).firmware = s.firmware := rfl
@[simp] theorem State.setGang_hostWaits (s : State) (g : Nat) (k : Gang) : (s.setGang g k).hostWaits = s.hostWaits := rfl
@[simp] theorem State.setGang_tout (s : State) (g : Nat) (k : Gang) : (s.setGang g k).tout = s.tout := rfl
@[simp] theorem State.setGang_pkg (s : State) (g : Nat) (k : Gang) : (s.setGang g k).pkg = s.pkg := rfl
@[simp] theorem State.setGang_cycle (s : State) (g : Nat) (k : Gang) : (s.setGang g k).cycle = s.cycle := rfl
@[simp] theorem State.setGang_round (s : State) (g : Nat) (k : Gang) : (s.setGang g k).round = s.round := rfl
@[simp] theorem State.setGang_seq (s : State) (g : Nat) (k : Gang) : (s.setGang g k).seq = s.seq := rfl
@[simp] theorem State.setGang_fresh (s : State) (g : Nat) (k : Gang) : (s.setGang g k).fresh = s.fresh := rfl
@[simp] theorem State.setGang_inputs (s : State) (g : Nat) (k : Gang) : (s.setGang g k).inputs = s.inputs := rfl
@[simp] theorem State.setGang_occurrences (s : State) (g : Nat) (k : Gang) : (s.setGang g k).occurrences = s.occurrences := rfl
@[simp] theorem State.setGang_unsent (s : State) (g : Nat) (k : Gang) : (s.setGang g k).unsent = s.unsent := rfl
@[simp] theorem State.setGang_hostOut (s : State) (g : Nat) (k : Gang) : (s.setGang g k).hostOut = s.hostOut := rfl
@[simp] theorem State.setGang_hostReplies (s : State) (g : Nat) (k : Gang) : (s.setGang g k).hostReplies = s.hostReplies := rfl

/-! ### `setContext` replaces `contexts` -/

@[simp] theorem State.setContext_th (s : State) (c : Nat) (k : Context) : (s.setContext c k).th = s.th := rfl
@[simp] theorem State.setContext_tid (s : State) (c : Nat) (k : Context) : (s.setContext c k).tid = s.tid := rfl
@[simp] theorem State.setContext_parked (s : State) (c : Nat) (k : Context) : (s.setContext c k).parked = s.parked := rfl
@[simp] theorem State.setContext_mem (s : State) (c : Nat) (k : Context) : (s.setContext c k).mem = s.mem := rfl
@[simp] theorem State.setContext_poison (s : State) (c : Nat) (k : Context) : (s.setContext c k).poison = s.poison := rfl
@[simp] theorem State.setContext_cores (s : State) (c : Nat) (k : Context) : (s.setContext c k).cores = s.cores := rfl
@[simp] theorem State.setContext_quads (s : State) (c : Nat) (k : Context) : (s.setContext c k).quads = s.quads := rfl
@[simp] theorem State.setContext_sections (s : State) (c : Nat) (k : Context) : (s.setContext c k).sections = s.sections := rfl
@[simp] theorem State.setContext_gangs (s : State) (c : Nat) (k : Context) : (s.setContext c k).gangs = s.gangs := rfl
@[simp] theorem State.setContext_contexts (s : State) (c : Nat) (k : Context) : (s.setContext c k).contexts = s.contexts.put c k := rfl
@[simp] theorem State.setContext_dies (s : State) (c : Nat) (k : Context) : (s.setContext c k).dies = s.dies := rfl
@[simp] theorem State.setContext_regions (s : State) (c : Nat) (k : Context) : (s.setContext c k).regions = s.regions := rfl
@[simp] theorem State.setContext_forwards (s : State) (c : Nat) (k : Context) : (s.setContext c k).forwards = s.forwards := rfl
@[simp] theorem State.setContext_recordWrites (s : State) (c : Nat) (k : Context) : (s.setContext c k).recordWrites = s.recordWrites := rfl
@[simp] theorem State.setContext_keys (s : State) (c : Nat) (k : Context) : (s.setContext c k).keys = s.keys := rfl
@[simp] theorem State.setContext_podKeys (s : State) (c : Nat) (k : Context) : (s.setContext c k).podKeys = s.podKeys := rfl
@[simp] theorem State.setContext_storage (s : State) (c : Nat) (k : Context) : (s.setContext c k).storage = s.storage := rfl
@[simp] theorem State.setContext_weak (s : State) (c : Nat) (k : Context) : (s.setContext c k).weak = s.weak := rfl
@[simp] theorem State.setContext_frameMarks (s : State) (c : Nat) (k : Context) : (s.setContext c k).frameMarks = s.frameMarks := rfl
@[simp] theorem State.setContext_marks (s : State) (c : Nat) (k : Context) : (s.setContext c k).marks = s.marks := rfl
@[simp] theorem State.setContext_damaged (s : State) (c : Nat) (k : Context) : (s.setContext c k).damaged = s.damaged := rfl
@[simp] theorem State.setContext_rebuilds (s : State) (c : Nat) (k : Context) : (s.setContext c k).rebuilds = s.rebuilds := rfl
@[simp] theorem State.setContext_reservedReads (s : State) (c : Nat) (k : Context) : (s.setContext c k).reservedReads = s.reservedReads := rfl
@[simp] theorem State.setContext_pmc (s : State) (c : Nat) (k : Context) : (s.setContext c k).pmc = s.pmc := rfl
@[simp] theorem State.setContext_ports (s : State) (c : Nat) (k : Context) : (s.setContext c k).ports = s.ports := rfl
@[simp] theorem State.setContext_lost (s : State) (c : Nat) (k : Context) : (s.setContext c k).lost = s.lost := rfl
@[simp] theorem State.setContext_missed (s : State) (c : Nat) (k : Context) : (s.setContext c k).missed = s.missed := rfl
@[simp] theorem State.setContext_reported (s : State) (c : Nat) (k : Context) : (s.setContext c k).reported = s.reported := rfl
@[simp] theorem State.setContext_rerouting (s : State) (c : Nat) (k : Context) : (s.setContext c k).rerouting = s.rerouting := rfl
@[simp] theorem State.setContext_pod (s : State) (c : Nat) (k : Context) : (s.setContext c k).pod = s.pod := rfl
@[simp] theorem State.setContext_routes (s : State) (c : Nat) (k : Context) : (s.setContext c k).routes = s.routes := rfl
@[simp] theorem State.setContext_podObjects (s : State) (c : Nat) (k : Context) : (s.setContext c k).podObjects = s.podObjects := rfl
@[simp] theorem State.setContext_podAliases (s : State) (c : Nat) (k : Context) : (s.setContext c k).podAliases = s.podAliases := rfl
@[simp] theorem State.setContext_firmware (s : State) (c : Nat) (k : Context) : (s.setContext c k).firmware = s.firmware := rfl
@[simp] theorem State.setContext_hostWaits (s : State) (c : Nat) (k : Context) : (s.setContext c k).hostWaits = s.hostWaits := rfl
@[simp] theorem State.setContext_tout (s : State) (c : Nat) (k : Context) : (s.setContext c k).tout = s.tout := rfl
@[simp] theorem State.setContext_pkg (s : State) (c : Nat) (k : Context) : (s.setContext c k).pkg = s.pkg := rfl
@[simp] theorem State.setContext_cycle (s : State) (c : Nat) (k : Context) : (s.setContext c k).cycle = s.cycle := rfl
@[simp] theorem State.setContext_round (s : State) (c : Nat) (k : Context) : (s.setContext c k).round = s.round := rfl
@[simp] theorem State.setContext_seq (s : State) (c : Nat) (k : Context) : (s.setContext c k).seq = s.seq := rfl
@[simp] theorem State.setContext_fresh (s : State) (c : Nat) (k : Context) : (s.setContext c k).fresh = s.fresh := rfl
@[simp] theorem State.setContext_inputs (s : State) (c : Nat) (k : Context) : (s.setContext c k).inputs = s.inputs := rfl
@[simp] theorem State.setContext_occurrences (s : State) (c : Nat) (k : Context) : (s.setContext c k).occurrences = s.occurrences := rfl
@[simp] theorem State.setContext_unsent (s : State) (c : Nat) (k : Context) : (s.setContext c k).unsent = s.unsent := rfl
@[simp] theorem State.setContext_hostOut (s : State) (c : Nat) (k : Context) : (s.setContext c k).hostOut = s.hostOut := rfl
@[simp] theorem State.setContext_hostReplies (s : State) (c : Nat) (k : Context) : (s.setContext c k).hostReplies = s.hostReplies := rfl

/-! ### `setPmc` replaces `pmc` -/

@[simp] theorem State.setPmc_th (s : State) (p : Pmc) : (s.setPmc p).th = s.th := rfl
@[simp] theorem State.setPmc_tid (s : State) (p : Pmc) : (s.setPmc p).tid = s.tid := rfl
@[simp] theorem State.setPmc_parked (s : State) (p : Pmc) : (s.setPmc p).parked = s.parked := rfl
@[simp] theorem State.setPmc_mem (s : State) (p : Pmc) : (s.setPmc p).mem = s.mem := rfl
@[simp] theorem State.setPmc_poison (s : State) (p : Pmc) : (s.setPmc p).poison = s.poison := rfl
@[simp] theorem State.setPmc_cores (s : State) (p : Pmc) : (s.setPmc p).cores = s.cores := rfl
@[simp] theorem State.setPmc_quads (s : State) (p : Pmc) : (s.setPmc p).quads = s.quads := rfl
@[simp] theorem State.setPmc_sections (s : State) (p : Pmc) : (s.setPmc p).sections = s.sections := rfl
@[simp] theorem State.setPmc_gangs (s : State) (p : Pmc) : (s.setPmc p).gangs = s.gangs := rfl
@[simp] theorem State.setPmc_contexts (s : State) (p : Pmc) : (s.setPmc p).contexts = s.contexts := rfl
@[simp] theorem State.setPmc_dies (s : State) (p : Pmc) : (s.setPmc p).dies = s.dies := rfl
@[simp] theorem State.setPmc_regions (s : State) (p : Pmc) : (s.setPmc p).regions = s.regions := rfl
@[simp] theorem State.setPmc_forwards (s : State) (p : Pmc) : (s.setPmc p).forwards = s.forwards := rfl
@[simp] theorem State.setPmc_recordWrites (s : State) (p : Pmc) : (s.setPmc p).recordWrites = s.recordWrites := rfl
@[simp] theorem State.setPmc_keys (s : State) (p : Pmc) : (s.setPmc p).keys = s.keys := rfl
@[simp] theorem State.setPmc_podKeys (s : State) (p : Pmc) : (s.setPmc p).podKeys = s.podKeys := rfl
@[simp] theorem State.setPmc_storage (s : State) (p : Pmc) : (s.setPmc p).storage = s.storage := rfl
@[simp] theorem State.setPmc_weak (s : State) (p : Pmc) : (s.setPmc p).weak = s.weak := rfl
@[simp] theorem State.setPmc_frameMarks (s : State) (p : Pmc) : (s.setPmc p).frameMarks = s.frameMarks := rfl
@[simp] theorem State.setPmc_marks (s : State) (p : Pmc) : (s.setPmc p).marks = s.marks := rfl
@[simp] theorem State.setPmc_damaged (s : State) (p : Pmc) : (s.setPmc p).damaged = s.damaged := rfl
@[simp] theorem State.setPmc_rebuilds (s : State) (p : Pmc) : (s.setPmc p).rebuilds = s.rebuilds := rfl
@[simp] theorem State.setPmc_reservedReads (s : State) (p : Pmc) : (s.setPmc p).reservedReads = s.reservedReads := rfl
@[simp] theorem State.setPmc_pmc (s : State) (p : Pmc) : (s.setPmc p).pmc = p := rfl
@[simp] theorem State.setPmc_ports (s : State) (p : Pmc) : (s.setPmc p).ports = s.ports := rfl
@[simp] theorem State.setPmc_lost (s : State) (p : Pmc) : (s.setPmc p).lost = s.lost := rfl
@[simp] theorem State.setPmc_missed (s : State) (p : Pmc) : (s.setPmc p).missed = s.missed := rfl
@[simp] theorem State.setPmc_reported (s : State) (p : Pmc) : (s.setPmc p).reported = s.reported := rfl
@[simp] theorem State.setPmc_rerouting (s : State) (p : Pmc) : (s.setPmc p).rerouting = s.rerouting := rfl
@[simp] theorem State.setPmc_pod (s : State) (p : Pmc) : (s.setPmc p).pod = s.pod := rfl
@[simp] theorem State.setPmc_routes (s : State) (p : Pmc) : (s.setPmc p).routes = s.routes := rfl
@[simp] theorem State.setPmc_podObjects (s : State) (p : Pmc) : (s.setPmc p).podObjects = s.podObjects := rfl
@[simp] theorem State.setPmc_podAliases (s : State) (p : Pmc) : (s.setPmc p).podAliases = s.podAliases := rfl
@[simp] theorem State.setPmc_firmware (s : State) (p : Pmc) : (s.setPmc p).firmware = s.firmware := rfl
@[simp] theorem State.setPmc_hostWaits (s : State) (p : Pmc) : (s.setPmc p).hostWaits = s.hostWaits := rfl
@[simp] theorem State.setPmc_tout (s : State) (p : Pmc) : (s.setPmc p).tout = s.tout := rfl
@[simp] theorem State.setPmc_pkg (s : State) (p : Pmc) : (s.setPmc p).pkg = s.pkg := rfl
@[simp] theorem State.setPmc_cycle (s : State) (p : Pmc) : (s.setPmc p).cycle = s.cycle := rfl
@[simp] theorem State.setPmc_round (s : State) (p : Pmc) : (s.setPmc p).round = s.round := rfl
@[simp] theorem State.setPmc_seq (s : State) (p : Pmc) : (s.setPmc p).seq = s.seq := rfl
@[simp] theorem State.setPmc_fresh (s : State) (p : Pmc) : (s.setPmc p).fresh = s.fresh := rfl
@[simp] theorem State.setPmc_inputs (s : State) (p : Pmc) : (s.setPmc p).inputs = s.inputs := rfl
@[simp] theorem State.setPmc_occurrences (s : State) (p : Pmc) : (s.setPmc p).occurrences = s.occurrences := rfl
@[simp] theorem State.setPmc_unsent (s : State) (p : Pmc) : (s.setPmc p).unsent = s.unsent := rfl
@[simp] theorem State.setPmc_hostOut (s : State) (p : Pmc) : (s.setPmc p).hostOut = s.hostOut := rfl
@[simp] theorem State.setPmc_hostReplies (s : State) (p : Pmc) : (s.setPmc p).hostReplies = s.hostReplies := rfl

/-! ### `wx` changes the current thread -/

@[simp] theorem State.wx_th (s : State) (r : Rx) (v : Word) : (s.wx r v).th = s.th.wx r v := rfl
@[simp] theorem State.wx_tid (s : State) (r : Rx) (v : Word) : (s.wx r v).tid = s.tid := rfl
@[simp] theorem State.wx_parked (s : State) (r : Rx) (v : Word) : (s.wx r v).parked = s.parked := rfl
@[simp] theorem State.wx_mem (s : State) (r : Rx) (v : Word) : (s.wx r v).mem = s.mem := rfl
@[simp] theorem State.wx_poison (s : State) (r : Rx) (v : Word) : (s.wx r v).poison = s.poison := rfl
@[simp] theorem State.wx_cores (s : State) (r : Rx) (v : Word) : (s.wx r v).cores = s.cores := rfl
@[simp] theorem State.wx_quads (s : State) (r : Rx) (v : Word) : (s.wx r v).quads = s.quads := rfl
@[simp] theorem State.wx_sections (s : State) (r : Rx) (v : Word) : (s.wx r v).sections = s.sections := rfl
@[simp] theorem State.wx_gangs (s : State) (r : Rx) (v : Word) : (s.wx r v).gangs = s.gangs := rfl
@[simp] theorem State.wx_contexts (s : State) (r : Rx) (v : Word) : (s.wx r v).contexts = s.contexts := rfl
@[simp] theorem State.wx_dies (s : State) (r : Rx) (v : Word) : (s.wx r v).dies = s.dies := rfl
@[simp] theorem State.wx_regions (s : State) (r : Rx) (v : Word) : (s.wx r v).regions = s.regions := rfl
@[simp] theorem State.wx_forwards (s : State) (r : Rx) (v : Word) : (s.wx r v).forwards = s.forwards := rfl
@[simp] theorem State.wx_recordWrites (s : State) (r : Rx) (v : Word) : (s.wx r v).recordWrites = s.recordWrites := rfl
@[simp] theorem State.wx_keys (s : State) (r : Rx) (v : Word) : (s.wx r v).keys = s.keys := rfl
@[simp] theorem State.wx_podKeys (s : State) (r : Rx) (v : Word) : (s.wx r v).podKeys = s.podKeys := rfl
@[simp] theorem State.wx_storage (s : State) (r : Rx) (v : Word) : (s.wx r v).storage = s.storage := rfl
@[simp] theorem State.wx_weak (s : State) (r : Rx) (v : Word) : (s.wx r v).weak = s.weak := rfl
@[simp] theorem State.wx_frameMarks (s : State) (r : Rx) (v : Word) : (s.wx r v).frameMarks = s.frameMarks := rfl
@[simp] theorem State.wx_marks (s : State) (r : Rx) (v : Word) : (s.wx r v).marks = s.marks := rfl
@[simp] theorem State.wx_damaged (s : State) (r : Rx) (v : Word) : (s.wx r v).damaged = s.damaged := rfl
@[simp] theorem State.wx_rebuilds (s : State) (r : Rx) (v : Word) : (s.wx r v).rebuilds = s.rebuilds := rfl
@[simp] theorem State.wx_reservedReads (s : State) (r : Rx) (v : Word) : (s.wx r v).reservedReads = s.reservedReads := rfl
@[simp] theorem State.wx_pmc (s : State) (r : Rx) (v : Word) : (s.wx r v).pmc = s.pmc := rfl
@[simp] theorem State.wx_ports (s : State) (r : Rx) (v : Word) : (s.wx r v).ports = s.ports := rfl
@[simp] theorem State.wx_lost (s : State) (r : Rx) (v : Word) : (s.wx r v).lost = s.lost := rfl
@[simp] theorem State.wx_missed (s : State) (r : Rx) (v : Word) : (s.wx r v).missed = s.missed := rfl
@[simp] theorem State.wx_reported (s : State) (r : Rx) (v : Word) : (s.wx r v).reported = s.reported := rfl
@[simp] theorem State.wx_rerouting (s : State) (r : Rx) (v : Word) : (s.wx r v).rerouting = s.rerouting := rfl
@[simp] theorem State.wx_pod (s : State) (r : Rx) (v : Word) : (s.wx r v).pod = s.pod := rfl
@[simp] theorem State.wx_routes (s : State) (r : Rx) (v : Word) : (s.wx r v).routes = s.routes := rfl
@[simp] theorem State.wx_podObjects (s : State) (r : Rx) (v : Word) : (s.wx r v).podObjects = s.podObjects := rfl
@[simp] theorem State.wx_podAliases (s : State) (r : Rx) (v : Word) : (s.wx r v).podAliases = s.podAliases := rfl
@[simp] theorem State.wx_firmware (s : State) (r : Rx) (v : Word) : (s.wx r v).firmware = s.firmware := rfl
@[simp] theorem State.wx_hostWaits (s : State) (r : Rx) (v : Word) : (s.wx r v).hostWaits = s.hostWaits := rfl
@[simp] theorem State.wx_tout (s : State) (r : Rx) (v : Word) : (s.wx r v).tout = s.tout := rfl
@[simp] theorem State.wx_pkg (s : State) (r : Rx) (v : Word) : (s.wx r v).pkg = s.pkg := rfl
@[simp] theorem State.wx_cycle (s : State) (r : Rx) (v : Word) : (s.wx r v).cycle = s.cycle := rfl
@[simp] theorem State.wx_round (s : State) (r : Rx) (v : Word) : (s.wx r v).round = s.round := rfl
@[simp] theorem State.wx_seq (s : State) (r : Rx) (v : Word) : (s.wx r v).seq = s.seq := rfl
@[simp] theorem State.wx_fresh (s : State) (r : Rx) (v : Word) : (s.wx r v).fresh = s.fresh := rfl
@[simp] theorem State.wx_inputs (s : State) (r : Rx) (v : Word) : (s.wx r v).inputs = s.inputs := rfl
@[simp] theorem State.wx_occurrences (s : State) (r : Rx) (v : Word) : (s.wx r v).occurrences = s.occurrences := rfl
@[simp] theorem State.wx_unsent (s : State) (r : Rx) (v : Word) : (s.wx r v).unsent = s.unsent := rfl
@[simp] theorem State.wx_hostOut (s : State) (r : Rx) (v : Word) : (s.wx r v).hostOut = s.hostOut := rfl
@[simp] theorem State.wx_hostReplies (s : State) (r : Rx) (v : Word) : (s.wx r v).hostReplies = s.hostReplies := rfl

/-! ### `wa` changes the current thread -/

@[simp] theorem State.wa_th (s : State) (r : Ra) (v : Ref) : (s.wa r v).th = s.th.wa r v := rfl
@[simp] theorem State.wa_tid (s : State) (r : Ra) (v : Ref) : (s.wa r v).tid = s.tid := rfl
@[simp] theorem State.wa_parked (s : State) (r : Ra) (v : Ref) : (s.wa r v).parked = s.parked := rfl
@[simp] theorem State.wa_mem (s : State) (r : Ra) (v : Ref) : (s.wa r v).mem = s.mem := rfl
@[simp] theorem State.wa_poison (s : State) (r : Ra) (v : Ref) : (s.wa r v).poison = s.poison := rfl
@[simp] theorem State.wa_cores (s : State) (r : Ra) (v : Ref) : (s.wa r v).cores = s.cores := rfl
@[simp] theorem State.wa_quads (s : State) (r : Ra) (v : Ref) : (s.wa r v).quads = s.quads := rfl
@[simp] theorem State.wa_sections (s : State) (r : Ra) (v : Ref) : (s.wa r v).sections = s.sections := rfl
@[simp] theorem State.wa_gangs (s : State) (r : Ra) (v : Ref) : (s.wa r v).gangs = s.gangs := rfl
@[simp] theorem State.wa_contexts (s : State) (r : Ra) (v : Ref) : (s.wa r v).contexts = s.contexts := rfl
@[simp] theorem State.wa_dies (s : State) (r : Ra) (v : Ref) : (s.wa r v).dies = s.dies := rfl
@[simp] theorem State.wa_regions (s : State) (r : Ra) (v : Ref) : (s.wa r v).regions = s.regions := rfl
@[simp] theorem State.wa_forwards (s : State) (r : Ra) (v : Ref) : (s.wa r v).forwards = s.forwards := rfl
@[simp] theorem State.wa_recordWrites (s : State) (r : Ra) (v : Ref) : (s.wa r v).recordWrites = s.recordWrites := rfl
@[simp] theorem State.wa_keys (s : State) (r : Ra) (v : Ref) : (s.wa r v).keys = s.keys := rfl
@[simp] theorem State.wa_podKeys (s : State) (r : Ra) (v : Ref) : (s.wa r v).podKeys = s.podKeys := rfl
@[simp] theorem State.wa_storage (s : State) (r : Ra) (v : Ref) : (s.wa r v).storage = s.storage := rfl
@[simp] theorem State.wa_weak (s : State) (r : Ra) (v : Ref) : (s.wa r v).weak = s.weak := rfl
@[simp] theorem State.wa_frameMarks (s : State) (r : Ra) (v : Ref) : (s.wa r v).frameMarks = s.frameMarks := rfl
@[simp] theorem State.wa_marks (s : State) (r : Ra) (v : Ref) : (s.wa r v).marks = s.marks := rfl
@[simp] theorem State.wa_damaged (s : State) (r : Ra) (v : Ref) : (s.wa r v).damaged = s.damaged := rfl
@[simp] theorem State.wa_rebuilds (s : State) (r : Ra) (v : Ref) : (s.wa r v).rebuilds = s.rebuilds := rfl
@[simp] theorem State.wa_reservedReads (s : State) (r : Ra) (v : Ref) : (s.wa r v).reservedReads = s.reservedReads := rfl
@[simp] theorem State.wa_pmc (s : State) (r : Ra) (v : Ref) : (s.wa r v).pmc = s.pmc := rfl
@[simp] theorem State.wa_ports (s : State) (r : Ra) (v : Ref) : (s.wa r v).ports = s.ports := rfl
@[simp] theorem State.wa_lost (s : State) (r : Ra) (v : Ref) : (s.wa r v).lost = s.lost := rfl
@[simp] theorem State.wa_missed (s : State) (r : Ra) (v : Ref) : (s.wa r v).missed = s.missed := rfl
@[simp] theorem State.wa_reported (s : State) (r : Ra) (v : Ref) : (s.wa r v).reported = s.reported := rfl
@[simp] theorem State.wa_rerouting (s : State) (r : Ra) (v : Ref) : (s.wa r v).rerouting = s.rerouting := rfl
@[simp] theorem State.wa_pod (s : State) (r : Ra) (v : Ref) : (s.wa r v).pod = s.pod := rfl
@[simp] theorem State.wa_routes (s : State) (r : Ra) (v : Ref) : (s.wa r v).routes = s.routes := rfl
@[simp] theorem State.wa_podObjects (s : State) (r : Ra) (v : Ref) : (s.wa r v).podObjects = s.podObjects := rfl
@[simp] theorem State.wa_podAliases (s : State) (r : Ra) (v : Ref) : (s.wa r v).podAliases = s.podAliases := rfl
@[simp] theorem State.wa_firmware (s : State) (r : Ra) (v : Ref) : (s.wa r v).firmware = s.firmware := rfl
@[simp] theorem State.wa_hostWaits (s : State) (r : Ra) (v : Ref) : (s.wa r v).hostWaits = s.hostWaits := rfl
@[simp] theorem State.wa_tout (s : State) (r : Ra) (v : Ref) : (s.wa r v).tout = s.tout := rfl
@[simp] theorem State.wa_pkg (s : State) (r : Ra) (v : Ref) : (s.wa r v).pkg = s.pkg := rfl
@[simp] theorem State.wa_cycle (s : State) (r : Ra) (v : Ref) : (s.wa r v).cycle = s.cycle := rfl
@[simp] theorem State.wa_round (s : State) (r : Ra) (v : Ref) : (s.wa r v).round = s.round := rfl
@[simp] theorem State.wa_seq (s : State) (r : Ra) (v : Ref) : (s.wa r v).seq = s.seq := rfl
@[simp] theorem State.wa_fresh (s : State) (r : Ra) (v : Ref) : (s.wa r v).fresh = s.fresh := rfl
@[simp] theorem State.wa_inputs (s : State) (r : Ra) (v : Ref) : (s.wa r v).inputs = s.inputs := rfl
@[simp] theorem State.wa_occurrences (s : State) (r : Ra) (v : Ref) : (s.wa r v).occurrences = s.occurrences := rfl
@[simp] theorem State.wa_unsent (s : State) (r : Ra) (v : Ref) : (s.wa r v).unsent = s.unsent := rfl
@[simp] theorem State.wa_hostOut (s : State) (r : Ra) (v : Ref) : (s.wa r v).hostOut = s.hostOut := rfl
@[simp] theorem State.wa_hostReplies (s : State) (r : Ra) (v : Ref) : (s.wa r v).hostReplies = s.hostReplies := rfl

/-! ### `wv` changes the current thread -/

@[simp] theorem State.wv_th (s : State) (r : Rv) (v : VReg) : (s.wv r v).th = s.th.wv r v := rfl
@[simp] theorem State.wv_tid (s : State) (r : Rv) (v : VReg) : (s.wv r v).tid = s.tid := rfl
@[simp] theorem State.wv_parked (s : State) (r : Rv) (v : VReg) : (s.wv r v).parked = s.parked := rfl
@[simp] theorem State.wv_mem (s : State) (r : Rv) (v : VReg) : (s.wv r v).mem = s.mem := rfl
@[simp] theorem State.wv_poison (s : State) (r : Rv) (v : VReg) : (s.wv r v).poison = s.poison := rfl
@[simp] theorem State.wv_cores (s : State) (r : Rv) (v : VReg) : (s.wv r v).cores = s.cores := rfl
@[simp] theorem State.wv_quads (s : State) (r : Rv) (v : VReg) : (s.wv r v).quads = s.quads := rfl
@[simp] theorem State.wv_sections (s : State) (r : Rv) (v : VReg) : (s.wv r v).sections = s.sections := rfl
@[simp] theorem State.wv_gangs (s : State) (r : Rv) (v : VReg) : (s.wv r v).gangs = s.gangs := rfl
@[simp] theorem State.wv_contexts (s : State) (r : Rv) (v : VReg) : (s.wv r v).contexts = s.contexts := rfl
@[simp] theorem State.wv_dies (s : State) (r : Rv) (v : VReg) : (s.wv r v).dies = s.dies := rfl
@[simp] theorem State.wv_regions (s : State) (r : Rv) (v : VReg) : (s.wv r v).regions = s.regions := rfl
@[simp] theorem State.wv_forwards (s : State) (r : Rv) (v : VReg) : (s.wv r v).forwards = s.forwards := rfl
@[simp] theorem State.wv_recordWrites (s : State) (r : Rv) (v : VReg) : (s.wv r v).recordWrites = s.recordWrites := rfl
@[simp] theorem State.wv_keys (s : State) (r : Rv) (v : VReg) : (s.wv r v).keys = s.keys := rfl
@[simp] theorem State.wv_podKeys (s : State) (r : Rv) (v : VReg) : (s.wv r v).podKeys = s.podKeys := rfl
@[simp] theorem State.wv_storage (s : State) (r : Rv) (v : VReg) : (s.wv r v).storage = s.storage := rfl
@[simp] theorem State.wv_weak (s : State) (r : Rv) (v : VReg) : (s.wv r v).weak = s.weak := rfl
@[simp] theorem State.wv_frameMarks (s : State) (r : Rv) (v : VReg) : (s.wv r v).frameMarks = s.frameMarks := rfl
@[simp] theorem State.wv_marks (s : State) (r : Rv) (v : VReg) : (s.wv r v).marks = s.marks := rfl
@[simp] theorem State.wv_damaged (s : State) (r : Rv) (v : VReg) : (s.wv r v).damaged = s.damaged := rfl
@[simp] theorem State.wv_rebuilds (s : State) (r : Rv) (v : VReg) : (s.wv r v).rebuilds = s.rebuilds := rfl
@[simp] theorem State.wv_reservedReads (s : State) (r : Rv) (v : VReg) : (s.wv r v).reservedReads = s.reservedReads := rfl
@[simp] theorem State.wv_pmc (s : State) (r : Rv) (v : VReg) : (s.wv r v).pmc = s.pmc := rfl
@[simp] theorem State.wv_ports (s : State) (r : Rv) (v : VReg) : (s.wv r v).ports = s.ports := rfl
@[simp] theorem State.wv_lost (s : State) (r : Rv) (v : VReg) : (s.wv r v).lost = s.lost := rfl
@[simp] theorem State.wv_missed (s : State) (r : Rv) (v : VReg) : (s.wv r v).missed = s.missed := rfl
@[simp] theorem State.wv_reported (s : State) (r : Rv) (v : VReg) : (s.wv r v).reported = s.reported := rfl
@[simp] theorem State.wv_rerouting (s : State) (r : Rv) (v : VReg) : (s.wv r v).rerouting = s.rerouting := rfl
@[simp] theorem State.wv_pod (s : State) (r : Rv) (v : VReg) : (s.wv r v).pod = s.pod := rfl
@[simp] theorem State.wv_routes (s : State) (r : Rv) (v : VReg) : (s.wv r v).routes = s.routes := rfl
@[simp] theorem State.wv_podObjects (s : State) (r : Rv) (v : VReg) : (s.wv r v).podObjects = s.podObjects := rfl
@[simp] theorem State.wv_podAliases (s : State) (r : Rv) (v : VReg) : (s.wv r v).podAliases = s.podAliases := rfl
@[simp] theorem State.wv_firmware (s : State) (r : Rv) (v : VReg) : (s.wv r v).firmware = s.firmware := rfl
@[simp] theorem State.wv_hostWaits (s : State) (r : Rv) (v : VReg) : (s.wv r v).hostWaits = s.hostWaits := rfl
@[simp] theorem State.wv_tout (s : State) (r : Rv) (v : VReg) : (s.wv r v).tout = s.tout := rfl
@[simp] theorem State.wv_pkg (s : State) (r : Rv) (v : VReg) : (s.wv r v).pkg = s.pkg := rfl
@[simp] theorem State.wv_cycle (s : State) (r : Rv) (v : VReg) : (s.wv r v).cycle = s.cycle := rfl
@[simp] theorem State.wv_round (s : State) (r : Rv) (v : VReg) : (s.wv r v).round = s.round := rfl
@[simp] theorem State.wv_seq (s : State) (r : Rv) (v : VReg) : (s.wv r v).seq = s.seq := rfl
@[simp] theorem State.wv_fresh (s : State) (r : Rv) (v : VReg) : (s.wv r v).fresh = s.fresh := rfl
@[simp] theorem State.wv_inputs (s : State) (r : Rv) (v : VReg) : (s.wv r v).inputs = s.inputs := rfl
@[simp] theorem State.wv_occurrences (s : State) (r : Rv) (v : VReg) : (s.wv r v).occurrences = s.occurrences := rfl
@[simp] theorem State.wv_unsent (s : State) (r : Rv) (v : VReg) : (s.wv r v).unsent = s.unsent := rfl
@[simp] theorem State.wv_hostOut (s : State) (r : Rv) (v : VReg) : (s.wv r v).hostOut = s.hostOut := rfl
@[simp] theorem State.wv_hostReplies (s : State) (r : Rv) (v : VReg) : (s.wv r v).hostReplies = s.hostReplies := rfl

/-! ### `wp` changes the current thread -/

@[simp] theorem State.wp_th (s : State) (r : Rp) (v : PReg) : (s.wp r v).th = s.th.wp r v := rfl
@[simp] theorem State.wp_tid (s : State) (r : Rp) (v : PReg) : (s.wp r v).tid = s.tid := rfl
@[simp] theorem State.wp_parked (s : State) (r : Rp) (v : PReg) : (s.wp r v).parked = s.parked := rfl
@[simp] theorem State.wp_mem (s : State) (r : Rp) (v : PReg) : (s.wp r v).mem = s.mem := rfl
@[simp] theorem State.wp_poison (s : State) (r : Rp) (v : PReg) : (s.wp r v).poison = s.poison := rfl
@[simp] theorem State.wp_cores (s : State) (r : Rp) (v : PReg) : (s.wp r v).cores = s.cores := rfl
@[simp] theorem State.wp_quads (s : State) (r : Rp) (v : PReg) : (s.wp r v).quads = s.quads := rfl
@[simp] theorem State.wp_sections (s : State) (r : Rp) (v : PReg) : (s.wp r v).sections = s.sections := rfl
@[simp] theorem State.wp_gangs (s : State) (r : Rp) (v : PReg) : (s.wp r v).gangs = s.gangs := rfl
@[simp] theorem State.wp_contexts (s : State) (r : Rp) (v : PReg) : (s.wp r v).contexts = s.contexts := rfl
@[simp] theorem State.wp_dies (s : State) (r : Rp) (v : PReg) : (s.wp r v).dies = s.dies := rfl
@[simp] theorem State.wp_regions (s : State) (r : Rp) (v : PReg) : (s.wp r v).regions = s.regions := rfl
@[simp] theorem State.wp_forwards (s : State) (r : Rp) (v : PReg) : (s.wp r v).forwards = s.forwards := rfl
@[simp] theorem State.wp_recordWrites (s : State) (r : Rp) (v : PReg) : (s.wp r v).recordWrites = s.recordWrites := rfl
@[simp] theorem State.wp_keys (s : State) (r : Rp) (v : PReg) : (s.wp r v).keys = s.keys := rfl
@[simp] theorem State.wp_podKeys (s : State) (r : Rp) (v : PReg) : (s.wp r v).podKeys = s.podKeys := rfl
@[simp] theorem State.wp_storage (s : State) (r : Rp) (v : PReg) : (s.wp r v).storage = s.storage := rfl
@[simp] theorem State.wp_weak (s : State) (r : Rp) (v : PReg) : (s.wp r v).weak = s.weak := rfl
@[simp] theorem State.wp_frameMarks (s : State) (r : Rp) (v : PReg) : (s.wp r v).frameMarks = s.frameMarks := rfl
@[simp] theorem State.wp_marks (s : State) (r : Rp) (v : PReg) : (s.wp r v).marks = s.marks := rfl
@[simp] theorem State.wp_damaged (s : State) (r : Rp) (v : PReg) : (s.wp r v).damaged = s.damaged := rfl
@[simp] theorem State.wp_rebuilds (s : State) (r : Rp) (v : PReg) : (s.wp r v).rebuilds = s.rebuilds := rfl
@[simp] theorem State.wp_reservedReads (s : State) (r : Rp) (v : PReg) : (s.wp r v).reservedReads = s.reservedReads := rfl
@[simp] theorem State.wp_pmc (s : State) (r : Rp) (v : PReg) : (s.wp r v).pmc = s.pmc := rfl
@[simp] theorem State.wp_ports (s : State) (r : Rp) (v : PReg) : (s.wp r v).ports = s.ports := rfl
@[simp] theorem State.wp_lost (s : State) (r : Rp) (v : PReg) : (s.wp r v).lost = s.lost := rfl
@[simp] theorem State.wp_missed (s : State) (r : Rp) (v : PReg) : (s.wp r v).missed = s.missed := rfl
@[simp] theorem State.wp_reported (s : State) (r : Rp) (v : PReg) : (s.wp r v).reported = s.reported := rfl
@[simp] theorem State.wp_rerouting (s : State) (r : Rp) (v : PReg) : (s.wp r v).rerouting = s.rerouting := rfl
@[simp] theorem State.wp_pod (s : State) (r : Rp) (v : PReg) : (s.wp r v).pod = s.pod := rfl
@[simp] theorem State.wp_routes (s : State) (r : Rp) (v : PReg) : (s.wp r v).routes = s.routes := rfl
@[simp] theorem State.wp_podObjects (s : State) (r : Rp) (v : PReg) : (s.wp r v).podObjects = s.podObjects := rfl
@[simp] theorem State.wp_podAliases (s : State) (r : Rp) (v : PReg) : (s.wp r v).podAliases = s.podAliases := rfl
@[simp] theorem State.wp_firmware (s : State) (r : Rp) (v : PReg) : (s.wp r v).firmware = s.firmware := rfl
@[simp] theorem State.wp_hostWaits (s : State) (r : Rp) (v : PReg) : (s.wp r v).hostWaits = s.hostWaits := rfl
@[simp] theorem State.wp_tout (s : State) (r : Rp) (v : PReg) : (s.wp r v).tout = s.tout := rfl
@[simp] theorem State.wp_pkg (s : State) (r : Rp) (v : PReg) : (s.wp r v).pkg = s.pkg := rfl
@[simp] theorem State.wp_cycle (s : State) (r : Rp) (v : PReg) : (s.wp r v).cycle = s.cycle := rfl
@[simp] theorem State.wp_round (s : State) (r : Rp) (v : PReg) : (s.wp r v).round = s.round := rfl
@[simp] theorem State.wp_seq (s : State) (r : Rp) (v : PReg) : (s.wp r v).seq = s.seq := rfl
@[simp] theorem State.wp_fresh (s : State) (r : Rp) (v : PReg) : (s.wp r v).fresh = s.fresh := rfl
@[simp] theorem State.wp_inputs (s : State) (r : Rp) (v : PReg) : (s.wp r v).inputs = s.inputs := rfl
@[simp] theorem State.wp_occurrences (s : State) (r : Rp) (v : PReg) : (s.wp r v).occurrences = s.occurrences := rfl
@[simp] theorem State.wp_unsent (s : State) (r : Rp) (v : PReg) : (s.wp r v).unsent = s.unsent := rfl
@[simp] theorem State.wp_hostOut (s : State) (r : Rp) (v : PReg) : (s.wp r v).hostOut = s.hostOut := rfl
@[simp] theorem State.wp_hostReplies (s : State) (r : Rp) (v : PReg) : (s.wp r v).hostReplies = s.hostReplies := rfl

/-! ### `retireTo` and `retire` change the current thread -/

@[simp] theorem retireTo_th (s : State) (p : Word) : (retireTo s p).th =
    { s.th with pc := p, stepDue := s.th.stepBit, wait := .none, paid := 0, late := false } := rfl
@[simp] theorem retireTo_tid (s : State) (p : Word) : (retireTo s p).tid = s.tid := rfl
@[simp] theorem retireTo_parked (s : State) (p : Word) : (retireTo s p).parked = s.parked := rfl
@[simp] theorem retireTo_mem (s : State) (p : Word) : (retireTo s p).mem = s.mem := rfl
@[simp] theorem retireTo_poison (s : State) (p : Word) : (retireTo s p).poison = s.poison := rfl
@[simp] theorem retireTo_cores (s : State) (p : Word) : (retireTo s p).cores = s.cores := rfl
@[simp] theorem retireTo_quads (s : State) (p : Word) : (retireTo s p).quads = s.quads := rfl
@[simp] theorem retireTo_sections (s : State) (p : Word) : (retireTo s p).sections = s.sections := rfl
@[simp] theorem retireTo_gangs (s : State) (p : Word) : (retireTo s p).gangs = s.gangs := rfl
@[simp] theorem retireTo_contexts (s : State) (p : Word) : (retireTo s p).contexts = s.contexts := rfl
@[simp] theorem retireTo_dies (s : State) (p : Word) : (retireTo s p).dies = s.dies := rfl
@[simp] theorem retireTo_regions (s : State) (p : Word) : (retireTo s p).regions = s.regions := rfl
@[simp] theorem retireTo_forwards (s : State) (p : Word) : (retireTo s p).forwards = s.forwards := rfl
@[simp] theorem retireTo_recordWrites (s : State) (p : Word) : (retireTo s p).recordWrites = s.recordWrites := rfl
@[simp] theorem retireTo_keys (s : State) (p : Word) : (retireTo s p).keys = s.keys := rfl
@[simp] theorem retireTo_podKeys (s : State) (p : Word) : (retireTo s p).podKeys = s.podKeys := rfl
@[simp] theorem retireTo_storage (s : State) (p : Word) : (retireTo s p).storage = s.storage := rfl
@[simp] theorem retireTo_weak (s : State) (p : Word) : (retireTo s p).weak = s.weak := rfl
@[simp] theorem retireTo_frameMarks (s : State) (p : Word) : (retireTo s p).frameMarks = s.frameMarks := rfl
@[simp] theorem retireTo_marks (s : State) (p : Word) : (retireTo s p).marks = s.marks := rfl
@[simp] theorem retireTo_damaged (s : State) (p : Word) : (retireTo s p).damaged = s.damaged := rfl
@[simp] theorem retireTo_rebuilds (s : State) (p : Word) : (retireTo s p).rebuilds = s.rebuilds := rfl
@[simp] theorem retireTo_reservedReads (s : State) (p : Word) : (retireTo s p).reservedReads = s.reservedReads := rfl
@[simp] theorem retireTo_pmc (s : State) (p : Word) : (retireTo s p).pmc = s.pmc := rfl
@[simp] theorem retireTo_ports (s : State) (p : Word) : (retireTo s p).ports = s.ports := rfl
@[simp] theorem retireTo_lost (s : State) (p : Word) : (retireTo s p).lost = s.lost := rfl
@[simp] theorem retireTo_missed (s : State) (p : Word) : (retireTo s p).missed = s.missed := rfl
@[simp] theorem retireTo_reported (s : State) (p : Word) : (retireTo s p).reported = s.reported := rfl
@[simp] theorem retireTo_rerouting (s : State) (p : Word) : (retireTo s p).rerouting = s.rerouting := rfl
@[simp] theorem retireTo_pod (s : State) (p : Word) : (retireTo s p).pod = s.pod := rfl
@[simp] theorem retireTo_routes (s : State) (p : Word) : (retireTo s p).routes = s.routes := rfl
@[simp] theorem retireTo_podObjects (s : State) (p : Word) : (retireTo s p).podObjects = s.podObjects := rfl
@[simp] theorem retireTo_podAliases (s : State) (p : Word) : (retireTo s p).podAliases = s.podAliases := rfl
@[simp] theorem retireTo_firmware (s : State) (p : Word) : (retireTo s p).firmware = s.firmware := rfl
@[simp] theorem retireTo_hostWaits (s : State) (p : Word) : (retireTo s p).hostWaits = s.hostWaits := rfl
@[simp] theorem retireTo_tout (s : State) (p : Word) : (retireTo s p).tout = s.tout := rfl
@[simp] theorem retireTo_pkg (s : State) (p : Word) : (retireTo s p).pkg = s.pkg := rfl
@[simp] theorem retireTo_cycle (s : State) (p : Word) : (retireTo s p).cycle = s.cycle := rfl
@[simp] theorem retireTo_round (s : State) (p : Word) : (retireTo s p).round = s.round := rfl
@[simp] theorem retireTo_seq (s : State) (p : Word) : (retireTo s p).seq = s.seq := rfl
@[simp] theorem retireTo_fresh (s : State) (p : Word) : (retireTo s p).fresh = s.fresh := rfl
@[simp] theorem retireTo_inputs (s : State) (p : Word) : (retireTo s p).inputs = s.inputs := rfl
@[simp] theorem retireTo_occurrences (s : State) (p : Word) : (retireTo s p).occurrences = s.occurrences := rfl
@[simp] theorem retireTo_unsent (s : State) (p : Word) : (retireTo s p).unsent = s.unsent := rfl
@[simp] theorem retireTo_hostOut (s : State) (p : Word) : (retireTo s p).hostOut = s.hostOut := rfl
@[simp] theorem retireTo_hostReplies (s : State) (p : Word) : (retireTo s p).hostReplies = s.hostReplies := rfl
@[simp] theorem retire_tid (s : State) : (retire s).tid = s.tid := rfl
@[simp] theorem retire_parked (s : State) : (retire s).parked = s.parked := rfl
@[simp] theorem retire_mem (s : State) : (retire s).mem = s.mem := rfl
@[simp] theorem retire_poison (s : State) : (retire s).poison = s.poison := rfl
@[simp] theorem retire_cores (s : State) : (retire s).cores = s.cores := rfl
@[simp] theorem retire_quads (s : State) : (retire s).quads = s.quads := rfl
@[simp] theorem retire_sections (s : State) : (retire s).sections = s.sections := rfl
@[simp] theorem retire_gangs (s : State) : (retire s).gangs = s.gangs := rfl
@[simp] theorem retire_contexts (s : State) : (retire s).contexts = s.contexts := rfl
@[simp] theorem retire_dies (s : State) : (retire s).dies = s.dies := rfl
@[simp] theorem retire_regions (s : State) : (retire s).regions = s.regions := rfl
@[simp] theorem retire_forwards (s : State) : (retire s).forwards = s.forwards := rfl
@[simp] theorem retire_recordWrites (s : State) : (retire s).recordWrites = s.recordWrites := rfl
@[simp] theorem retire_keys (s : State) : (retire s).keys = s.keys := rfl
@[simp] theorem retire_podKeys (s : State) : (retire s).podKeys = s.podKeys := rfl
@[simp] theorem retire_storage (s : State) : (retire s).storage = s.storage := rfl
@[simp] theorem retire_weak (s : State) : (retire s).weak = s.weak := rfl
@[simp] theorem retire_frameMarks (s : State) : (retire s).frameMarks = s.frameMarks := rfl
@[simp] theorem retire_marks (s : State) : (retire s).marks = s.marks := rfl
@[simp] theorem retire_damaged (s : State) : (retire s).damaged = s.damaged := rfl
@[simp] theorem retire_rebuilds (s : State) : (retire s).rebuilds = s.rebuilds := rfl
@[simp] theorem retire_reservedReads (s : State) : (retire s).reservedReads = s.reservedReads := rfl
@[simp] theorem retire_pmc (s : State) : (retire s).pmc = s.pmc := rfl
@[simp] theorem retire_ports (s : State) : (retire s).ports = s.ports := rfl
@[simp] theorem retire_lost (s : State) : (retire s).lost = s.lost := rfl
@[simp] theorem retire_missed (s : State) : (retire s).missed = s.missed := rfl
@[simp] theorem retire_reported (s : State) : (retire s).reported = s.reported := rfl
@[simp] theorem retire_rerouting (s : State) : (retire s).rerouting = s.rerouting := rfl
@[simp] theorem retire_pod (s : State) : (retire s).pod = s.pod := rfl
@[simp] theorem retire_routes (s : State) : (retire s).routes = s.routes := rfl
@[simp] theorem retire_podObjects (s : State) : (retire s).podObjects = s.podObjects := rfl
@[simp] theorem retire_podAliases (s : State) : (retire s).podAliases = s.podAliases := rfl
@[simp] theorem retire_firmware (s : State) : (retire s).firmware = s.firmware := rfl
@[simp] theorem retire_hostWaits (s : State) : (retire s).hostWaits = s.hostWaits := rfl
@[simp] theorem retire_tout (s : State) : (retire s).tout = s.tout := rfl
@[simp] theorem retire_pkg (s : State) : (retire s).pkg = s.pkg := rfl
@[simp] theorem retire_cycle (s : State) : (retire s).cycle = s.cycle := rfl
@[simp] theorem retire_round (s : State) : (retire s).round = s.round := rfl
@[simp] theorem retire_seq (s : State) : (retire s).seq = s.seq := rfl
@[simp] theorem retire_fresh (s : State) : (retire s).fresh = s.fresh := rfl
@[simp] theorem retire_inputs (s : State) : (retire s).inputs = s.inputs := rfl
@[simp] theorem retire_occurrences (s : State) : (retire s).occurrences = s.occurrences := rfl
@[simp] theorem retire_unsent (s : State) : (retire s).unsent = s.unsent := rfl
@[simp] theorem retire_hostOut (s : State) : (retire s).hostOut = s.hostOut := rfl
@[simp] theorem retire_hostReplies (s : State) : (retire s).hostReplies = s.hostReplies := rfl
@[simp] theorem retire_th (s : State) : (retire s).th =
    { s.th with pc := s.th.pc + 4, stepDue := s.th.stepBit, wait := .none, paid := 0, late := false } := rfl

/-! ### `State.setThread` leaves every field but `th`, `parked` -/

@[simp] theorem State.setThread_tid (s : State) (t : Nat) (k : Thread) : (s.setThread t k).tid = s.tid :=  by unfold State.setThread; split <;> rfl
@[simp] theorem State.setThread_mem (s : State) (t : Nat) (k : Thread) : (s.setThread t k).mem = s.mem :=  by unfold State.setThread; split <;> rfl
@[simp] theorem State.setThread_poison (s : State) (t : Nat) (k : Thread) : (s.setThread t k).poison = s.poison :=  by unfold State.setThread; split <;> rfl
@[simp] theorem State.setThread_cores (s : State) (t : Nat) (k : Thread) : (s.setThread t k).cores = s.cores :=  by unfold State.setThread; split <;> rfl
@[simp] theorem State.setThread_quads (s : State) (t : Nat) (k : Thread) : (s.setThread t k).quads = s.quads :=  by unfold State.setThread; split <;> rfl
@[simp] theorem State.setThread_sections (s : State) (t : Nat) (k : Thread) : (s.setThread t k).sections = s.sections :=  by unfold State.setThread; split <;> rfl
@[simp] theorem State.setThread_gangs (s : State) (t : Nat) (k : Thread) : (s.setThread t k).gangs = s.gangs :=  by unfold State.setThread; split <;> rfl
@[simp] theorem State.setThread_contexts (s : State) (t : Nat) (k : Thread) : (s.setThread t k).contexts = s.contexts :=  by unfold State.setThread; split <;> rfl
@[simp] theorem State.setThread_dies (s : State) (t : Nat) (k : Thread) : (s.setThread t k).dies = s.dies :=  by unfold State.setThread; split <;> rfl
@[simp] theorem State.setThread_regions (s : State) (t : Nat) (k : Thread) : (s.setThread t k).regions = s.regions :=  by unfold State.setThread; split <;> rfl
@[simp] theorem State.setThread_forwards (s : State) (t : Nat) (k : Thread) : (s.setThread t k).forwards = s.forwards :=  by unfold State.setThread; split <;> rfl
@[simp] theorem State.setThread_recordWrites (s : State) (t : Nat) (k : Thread) : (s.setThread t k).recordWrites = s.recordWrites :=  by unfold State.setThread; split <;> rfl
@[simp] theorem State.setThread_keys (s : State) (t : Nat) (k : Thread) : (s.setThread t k).keys = s.keys :=  by unfold State.setThread; split <;> rfl
@[simp] theorem State.setThread_podKeys (s : State) (t : Nat) (k : Thread) : (s.setThread t k).podKeys = s.podKeys :=  by unfold State.setThread; split <;> rfl
@[simp] theorem State.setThread_storage (s : State) (t : Nat) (k : Thread) : (s.setThread t k).storage = s.storage :=  by unfold State.setThread; split <;> rfl
@[simp] theorem State.setThread_weak (s : State) (t : Nat) (k : Thread) : (s.setThread t k).weak = s.weak :=  by unfold State.setThread; split <;> rfl
@[simp] theorem State.setThread_frameMarks (s : State) (t : Nat) (k : Thread) : (s.setThread t k).frameMarks = s.frameMarks :=  by unfold State.setThread; split <;> rfl
@[simp] theorem State.setThread_marks (s : State) (t : Nat) (k : Thread) : (s.setThread t k).marks = s.marks :=  by unfold State.setThread; split <;> rfl
@[simp] theorem State.setThread_damaged (s : State) (t : Nat) (k : Thread) : (s.setThread t k).damaged = s.damaged :=  by unfold State.setThread; split <;> rfl
@[simp] theorem State.setThread_rebuilds (s : State) (t : Nat) (k : Thread) : (s.setThread t k).rebuilds = s.rebuilds :=  by unfold State.setThread; split <;> rfl
@[simp] theorem State.setThread_reservedReads (s : State) (t : Nat) (k : Thread) : (s.setThread t k).reservedReads = s.reservedReads :=  by unfold State.setThread; split <;> rfl
@[simp] theorem State.setThread_pmc (s : State) (t : Nat) (k : Thread) : (s.setThread t k).pmc = s.pmc :=  by unfold State.setThread; split <;> rfl
@[simp] theorem State.setThread_ports (s : State) (t : Nat) (k : Thread) : (s.setThread t k).ports = s.ports :=  by unfold State.setThread; split <;> rfl
@[simp] theorem State.setThread_lost (s : State) (t : Nat) (k : Thread) : (s.setThread t k).lost = s.lost :=  by unfold State.setThread; split <;> rfl
@[simp] theorem State.setThread_missed (s : State) (t : Nat) (k : Thread) : (s.setThread t k).missed = s.missed :=  by unfold State.setThread; split <;> rfl
@[simp] theorem State.setThread_reported (s : State) (t : Nat) (k : Thread) : (s.setThread t k).reported = s.reported :=  by unfold State.setThread; split <;> rfl
@[simp] theorem State.setThread_rerouting (s : State) (t : Nat) (k : Thread) : (s.setThread t k).rerouting = s.rerouting :=  by unfold State.setThread; split <;> rfl
@[simp] theorem State.setThread_pod (s : State) (t : Nat) (k : Thread) : (s.setThread t k).pod = s.pod :=  by unfold State.setThread; split <;> rfl
@[simp] theorem State.setThread_routes (s : State) (t : Nat) (k : Thread) : (s.setThread t k).routes = s.routes :=  by unfold State.setThread; split <;> rfl
@[simp] theorem State.setThread_podObjects (s : State) (t : Nat) (k : Thread) : (s.setThread t k).podObjects = s.podObjects :=  by unfold State.setThread; split <;> rfl
@[simp] theorem State.setThread_podAliases (s : State) (t : Nat) (k : Thread) : (s.setThread t k).podAliases = s.podAliases :=  by unfold State.setThread; split <;> rfl
@[simp] theorem State.setThread_firmware (s : State) (t : Nat) (k : Thread) : (s.setThread t k).firmware = s.firmware :=  by unfold State.setThread; split <;> rfl
@[simp] theorem State.setThread_hostWaits (s : State) (t : Nat) (k : Thread) : (s.setThread t k).hostWaits = s.hostWaits :=  by unfold State.setThread; split <;> rfl
@[simp] theorem State.setThread_tout (s : State) (t : Nat) (k : Thread) : (s.setThread t k).tout = s.tout :=  by unfold State.setThread; split <;> rfl
@[simp] theorem State.setThread_pkg (s : State) (t : Nat) (k : Thread) : (s.setThread t k).pkg = s.pkg :=  by unfold State.setThread; split <;> rfl
@[simp] theorem State.setThread_cycle (s : State) (t : Nat) (k : Thread) : (s.setThread t k).cycle = s.cycle :=  by unfold State.setThread; split <;> rfl
@[simp] theorem State.setThread_round (s : State) (t : Nat) (k : Thread) : (s.setThread t k).round = s.round :=  by unfold State.setThread; split <;> rfl
@[simp] theorem State.setThread_seq (s : State) (t : Nat) (k : Thread) : (s.setThread t k).seq = s.seq :=  by unfold State.setThread; split <;> rfl
@[simp] theorem State.setThread_fresh (s : State) (t : Nat) (k : Thread) : (s.setThread t k).fresh = s.fresh :=  by unfold State.setThread; split <;> rfl
@[simp] theorem State.setThread_inputs (s : State) (t : Nat) (k : Thread) : (s.setThread t k).inputs = s.inputs :=  by unfold State.setThread; split <;> rfl
@[simp] theorem State.setThread_occurrences (s : State) (t : Nat) (k : Thread) : (s.setThread t k).occurrences = s.occurrences :=  by unfold State.setThread; split <;> rfl
@[simp] theorem State.setThread_unsent (s : State) (t : Nat) (k : Thread) : (s.setThread t k).unsent = s.unsent :=  by unfold State.setThread; split <;> rfl
@[simp] theorem State.setThread_hostOut (s : State) (t : Nat) (k : Thread) : (s.setThread t k).hostOut = s.hostOut :=  by unfold State.setThread; split <;> rfl
@[simp] theorem State.setThread_hostReplies (s : State) (t : Nat) (k : Thread) : (s.setThread t k).hostReplies = s.hostReplies :=  by unfold State.setThread; split <;> rfl

/-! ### `State.switchTo` leaves every field but `th`, `tid`, `parked` -/

@[simp] theorem State.switchTo_mem (s : State) (n : Nat) : (s.switchTo n).mem = s.mem :=  by unfold State.switchTo; split <;> rfl
@[simp] theorem State.switchTo_poison (s : State) (n : Nat) : (s.switchTo n).poison = s.poison :=  by unfold State.switchTo; split <;> rfl
@[simp] theorem State.switchTo_cores (s : State) (n : Nat) : (s.switchTo n).cores = s.cores :=  by unfold State.switchTo; split <;> rfl
@[simp] theorem State.switchTo_quads (s : State) (n : Nat) : (s.switchTo n).quads = s.quads :=  by unfold State.switchTo; split <;> rfl
@[simp] theorem State.switchTo_sections (s : State) (n : Nat) : (s.switchTo n).sections = s.sections :=  by unfold State.switchTo; split <;> rfl
@[simp] theorem State.switchTo_gangs (s : State) (n : Nat) : (s.switchTo n).gangs = s.gangs :=  by unfold State.switchTo; split <;> rfl
@[simp] theorem State.switchTo_contexts (s : State) (n : Nat) : (s.switchTo n).contexts = s.contexts :=  by unfold State.switchTo; split <;> rfl
@[simp] theorem State.switchTo_dies (s : State) (n : Nat) : (s.switchTo n).dies = s.dies :=  by unfold State.switchTo; split <;> rfl
@[simp] theorem State.switchTo_regions (s : State) (n : Nat) : (s.switchTo n).regions = s.regions :=  by unfold State.switchTo; split <;> rfl
@[simp] theorem State.switchTo_forwards (s : State) (n : Nat) : (s.switchTo n).forwards = s.forwards :=  by unfold State.switchTo; split <;> rfl
@[simp] theorem State.switchTo_recordWrites (s : State) (n : Nat) : (s.switchTo n).recordWrites = s.recordWrites :=  by unfold State.switchTo; split <;> rfl
@[simp] theorem State.switchTo_keys (s : State) (n : Nat) : (s.switchTo n).keys = s.keys :=  by unfold State.switchTo; split <;> rfl
@[simp] theorem State.switchTo_podKeys (s : State) (n : Nat) : (s.switchTo n).podKeys = s.podKeys :=  by unfold State.switchTo; split <;> rfl
@[simp] theorem State.switchTo_storage (s : State) (n : Nat) : (s.switchTo n).storage = s.storage :=  by unfold State.switchTo; split <;> rfl
@[simp] theorem State.switchTo_weak (s : State) (n : Nat) : (s.switchTo n).weak = s.weak :=  by unfold State.switchTo; split <;> rfl
@[simp] theorem State.switchTo_frameMarks (s : State) (n : Nat) : (s.switchTo n).frameMarks = s.frameMarks :=  by unfold State.switchTo; split <;> rfl
@[simp] theorem State.switchTo_marks (s : State) (n : Nat) : (s.switchTo n).marks = s.marks :=  by unfold State.switchTo; split <;> rfl
@[simp] theorem State.switchTo_damaged (s : State) (n : Nat) : (s.switchTo n).damaged = s.damaged :=  by unfold State.switchTo; split <;> rfl
@[simp] theorem State.switchTo_rebuilds (s : State) (n : Nat) : (s.switchTo n).rebuilds = s.rebuilds :=  by unfold State.switchTo; split <;> rfl
@[simp] theorem State.switchTo_reservedReads (s : State) (n : Nat) : (s.switchTo n).reservedReads = s.reservedReads :=  by unfold State.switchTo; split <;> rfl
@[simp] theorem State.switchTo_pmc (s : State) (n : Nat) : (s.switchTo n).pmc = s.pmc :=  by unfold State.switchTo; split <;> rfl
@[simp] theorem State.switchTo_ports (s : State) (n : Nat) : (s.switchTo n).ports = s.ports :=  by unfold State.switchTo; split <;> rfl
@[simp] theorem State.switchTo_lost (s : State) (n : Nat) : (s.switchTo n).lost = s.lost :=  by unfold State.switchTo; split <;> rfl
@[simp] theorem State.switchTo_missed (s : State) (n : Nat) : (s.switchTo n).missed = s.missed :=  by unfold State.switchTo; split <;> rfl
@[simp] theorem State.switchTo_reported (s : State) (n : Nat) : (s.switchTo n).reported = s.reported :=  by unfold State.switchTo; split <;> rfl
@[simp] theorem State.switchTo_rerouting (s : State) (n : Nat) : (s.switchTo n).rerouting = s.rerouting :=  by unfold State.switchTo; split <;> rfl
@[simp] theorem State.switchTo_pod (s : State) (n : Nat) : (s.switchTo n).pod = s.pod :=  by unfold State.switchTo; split <;> rfl
@[simp] theorem State.switchTo_routes (s : State) (n : Nat) : (s.switchTo n).routes = s.routes :=  by unfold State.switchTo; split <;> rfl
@[simp] theorem State.switchTo_podObjects (s : State) (n : Nat) : (s.switchTo n).podObjects = s.podObjects :=  by unfold State.switchTo; split <;> rfl
@[simp] theorem State.switchTo_podAliases (s : State) (n : Nat) : (s.switchTo n).podAliases = s.podAliases :=  by unfold State.switchTo; split <;> rfl
@[simp] theorem State.switchTo_firmware (s : State) (n : Nat) : (s.switchTo n).firmware = s.firmware :=  by unfold State.switchTo; split <;> rfl
@[simp] theorem State.switchTo_hostWaits (s : State) (n : Nat) : (s.switchTo n).hostWaits = s.hostWaits :=  by unfold State.switchTo; split <;> rfl
@[simp] theorem State.switchTo_tout (s : State) (n : Nat) : (s.switchTo n).tout = s.tout :=  by unfold State.switchTo; split <;> rfl
@[simp] theorem State.switchTo_pkg (s : State) (n : Nat) : (s.switchTo n).pkg = s.pkg :=  by unfold State.switchTo; split <;> rfl
@[simp] theorem State.switchTo_cycle (s : State) (n : Nat) : (s.switchTo n).cycle = s.cycle :=  by unfold State.switchTo; split <;> rfl
@[simp] theorem State.switchTo_round (s : State) (n : Nat) : (s.switchTo n).round = s.round :=  by unfold State.switchTo; split <;> rfl
@[simp] theorem State.switchTo_seq (s : State) (n : Nat) : (s.switchTo n).seq = s.seq :=  by unfold State.switchTo; split <;> rfl
@[simp] theorem State.switchTo_fresh (s : State) (n : Nat) : (s.switchTo n).fresh = s.fresh :=  by unfold State.switchTo; split <;> rfl
@[simp] theorem State.switchTo_inputs (s : State) (n : Nat) : (s.switchTo n).inputs = s.inputs :=  by unfold State.switchTo; split <;> rfl
@[simp] theorem State.switchTo_occurrences (s : State) (n : Nat) : (s.switchTo n).occurrences = s.occurrences :=  by unfold State.switchTo; split <;> rfl
@[simp] theorem State.switchTo_unsent (s : State) (n : Nat) : (s.switchTo n).unsent = s.unsent :=  by unfold State.switchTo; split <;> rfl
@[simp] theorem State.switchTo_hostOut (s : State) (n : Nat) : (s.switchTo n).hostOut = s.hostOut :=  by unfold State.switchTo; split <;> rfl
@[simp] theorem State.switchTo_hostReplies (s : State) (n : Nat) : (s.switchTo n).hostReplies = s.hostReplies :=  by unfold State.switchTo; split <;> rfl

/-! ### `State.setEngine` leaves every field but `quads` -/

@[simp] theorem State.setEngine_th (s : State) (e : Nat) (k : Engine) : (s.setEngine e k).th = s.th :=  rfl
@[simp] theorem State.setEngine_tid (s : State) (e : Nat) (k : Engine) : (s.setEngine e k).tid = s.tid :=  rfl
@[simp] theorem State.setEngine_parked (s : State) (e : Nat) (k : Engine) : (s.setEngine e k).parked = s.parked :=  rfl
@[simp] theorem State.setEngine_mem (s : State) (e : Nat) (k : Engine) : (s.setEngine e k).mem = s.mem :=  rfl
@[simp] theorem State.setEngine_poison (s : State) (e : Nat) (k : Engine) : (s.setEngine e k).poison = s.poison :=  rfl
@[simp] theorem State.setEngine_cores (s : State) (e : Nat) (k : Engine) : (s.setEngine e k).cores = s.cores :=  rfl
@[simp] theorem State.setEngine_sections (s : State) (e : Nat) (k : Engine) : (s.setEngine e k).sections = s.sections :=  rfl
@[simp] theorem State.setEngine_gangs (s : State) (e : Nat) (k : Engine) : (s.setEngine e k).gangs = s.gangs :=  rfl
@[simp] theorem State.setEngine_contexts (s : State) (e : Nat) (k : Engine) : (s.setEngine e k).contexts = s.contexts :=  rfl
@[simp] theorem State.setEngine_dies (s : State) (e : Nat) (k : Engine) : (s.setEngine e k).dies = s.dies :=  rfl
@[simp] theorem State.setEngine_regions (s : State) (e : Nat) (k : Engine) : (s.setEngine e k).regions = s.regions :=  rfl
@[simp] theorem State.setEngine_forwards (s : State) (e : Nat) (k : Engine) : (s.setEngine e k).forwards = s.forwards :=  rfl
@[simp] theorem State.setEngine_recordWrites (s : State) (e : Nat) (k : Engine) : (s.setEngine e k).recordWrites = s.recordWrites :=  rfl
@[simp] theorem State.setEngine_keys (s : State) (e : Nat) (k : Engine) : (s.setEngine e k).keys = s.keys :=  rfl
@[simp] theorem State.setEngine_podKeys (s : State) (e : Nat) (k : Engine) : (s.setEngine e k).podKeys = s.podKeys :=  rfl
@[simp] theorem State.setEngine_storage (s : State) (e : Nat) (k : Engine) : (s.setEngine e k).storage = s.storage :=  rfl
@[simp] theorem State.setEngine_weak (s : State) (e : Nat) (k : Engine) : (s.setEngine e k).weak = s.weak :=  rfl
@[simp] theorem State.setEngine_frameMarks (s : State) (e : Nat) (k : Engine) : (s.setEngine e k).frameMarks = s.frameMarks :=  rfl
@[simp] theorem State.setEngine_marks (s : State) (e : Nat) (k : Engine) : (s.setEngine e k).marks = s.marks :=  rfl
@[simp] theorem State.setEngine_damaged (s : State) (e : Nat) (k : Engine) : (s.setEngine e k).damaged = s.damaged :=  rfl
@[simp] theorem State.setEngine_rebuilds (s : State) (e : Nat) (k : Engine) : (s.setEngine e k).rebuilds = s.rebuilds :=  rfl
@[simp] theorem State.setEngine_reservedReads (s : State) (e : Nat) (k : Engine) : (s.setEngine e k).reservedReads = s.reservedReads :=  rfl
@[simp] theorem State.setEngine_pmc (s : State) (e : Nat) (k : Engine) : (s.setEngine e k).pmc = s.pmc :=  rfl
@[simp] theorem State.setEngine_ports (s : State) (e : Nat) (k : Engine) : (s.setEngine e k).ports = s.ports :=  rfl
@[simp] theorem State.setEngine_lost (s : State) (e : Nat) (k : Engine) : (s.setEngine e k).lost = s.lost :=  rfl
@[simp] theorem State.setEngine_missed (s : State) (e : Nat) (k : Engine) : (s.setEngine e k).missed = s.missed :=  rfl
@[simp] theorem State.setEngine_reported (s : State) (e : Nat) (k : Engine) : (s.setEngine e k).reported = s.reported :=  rfl
@[simp] theorem State.setEngine_rerouting (s : State) (e : Nat) (k : Engine) : (s.setEngine e k).rerouting = s.rerouting :=  rfl
@[simp] theorem State.setEngine_pod (s : State) (e : Nat) (k : Engine) : (s.setEngine e k).pod = s.pod :=  rfl
@[simp] theorem State.setEngine_routes (s : State) (e : Nat) (k : Engine) : (s.setEngine e k).routes = s.routes :=  rfl
@[simp] theorem State.setEngine_podObjects (s : State) (e : Nat) (k : Engine) : (s.setEngine e k).podObjects = s.podObjects :=  rfl
@[simp] theorem State.setEngine_podAliases (s : State) (e : Nat) (k : Engine) : (s.setEngine e k).podAliases = s.podAliases :=  rfl
@[simp] theorem State.setEngine_firmware (s : State) (e : Nat) (k : Engine) : (s.setEngine e k).firmware = s.firmware :=  rfl
@[simp] theorem State.setEngine_hostWaits (s : State) (e : Nat) (k : Engine) : (s.setEngine e k).hostWaits = s.hostWaits :=  rfl
@[simp] theorem State.setEngine_tout (s : State) (e : Nat) (k : Engine) : (s.setEngine e k).tout = s.tout :=  rfl
@[simp] theorem State.setEngine_pkg (s : State) (e : Nat) (k : Engine) : (s.setEngine e k).pkg = s.pkg :=  rfl
@[simp] theorem State.setEngine_cycle (s : State) (e : Nat) (k : Engine) : (s.setEngine e k).cycle = s.cycle :=  rfl
@[simp] theorem State.setEngine_round (s : State) (e : Nat) (k : Engine) : (s.setEngine e k).round = s.round :=  rfl
@[simp] theorem State.setEngine_seq (s : State) (e : Nat) (k : Engine) : (s.setEngine e k).seq = s.seq :=  rfl
@[simp] theorem State.setEngine_fresh (s : State) (e : Nat) (k : Engine) : (s.setEngine e k).fresh = s.fresh :=  rfl
@[simp] theorem State.setEngine_inputs (s : State) (e : Nat) (k : Engine) : (s.setEngine e k).inputs = s.inputs :=  rfl
@[simp] theorem State.setEngine_occurrences (s : State) (e : Nat) (k : Engine) : (s.setEngine e k).occurrences = s.occurrences :=  rfl
@[simp] theorem State.setEngine_unsent (s : State) (e : Nat) (k : Engine) : (s.setEngine e k).unsent = s.unsent :=  rfl
@[simp] theorem State.setEngine_hostOut (s : State) (e : Nat) (k : Engine) : (s.setEngine e k).hostOut = s.hostOut :=  rfl
@[simp] theorem State.setEngine_hostReplies (s : State) (e : Nat) (k : Engine) : (s.setEngine e k).hostReplies = s.hostReplies :=  rfl

/-! ### `State.event` leaves every field but `th`, `parked`, `seq` -/

@[simp] theorem State.event_tid (s : State) (t : Nat) (b : BitVec 3) : (s.event t b).tid = s.tid :=  by simp [State.event]
@[simp] theorem State.event_mem (s : State) (t : Nat) (b : BitVec 3) : (s.event t b).mem = s.mem :=  by simp [State.event]
@[simp] theorem State.event_poison (s : State) (t : Nat) (b : BitVec 3) : (s.event t b).poison = s.poison :=  by simp [State.event]
@[simp] theorem State.event_cores (s : State) (t : Nat) (b : BitVec 3) : (s.event t b).cores = s.cores :=  by simp [State.event]
@[simp] theorem State.event_quads (s : State) (t : Nat) (b : BitVec 3) : (s.event t b).quads = s.quads :=  by simp [State.event]
@[simp] theorem State.event_sections (s : State) (t : Nat) (b : BitVec 3) : (s.event t b).sections = s.sections :=  by simp [State.event]
@[simp] theorem State.event_gangs (s : State) (t : Nat) (b : BitVec 3) : (s.event t b).gangs = s.gangs :=  by simp [State.event]
@[simp] theorem State.event_contexts (s : State) (t : Nat) (b : BitVec 3) : (s.event t b).contexts = s.contexts :=  by simp [State.event]
@[simp] theorem State.event_dies (s : State) (t : Nat) (b : BitVec 3) : (s.event t b).dies = s.dies :=  by simp [State.event]
@[simp] theorem State.event_regions (s : State) (t : Nat) (b : BitVec 3) : (s.event t b).regions = s.regions :=  by simp [State.event]
@[simp] theorem State.event_forwards (s : State) (t : Nat) (b : BitVec 3) : (s.event t b).forwards = s.forwards :=  by simp [State.event]
@[simp] theorem State.event_recordWrites (s : State) (t : Nat) (b : BitVec 3) : (s.event t b).recordWrites = s.recordWrites :=  by simp [State.event]
@[simp] theorem State.event_keys (s : State) (t : Nat) (b : BitVec 3) : (s.event t b).keys = s.keys :=  by simp [State.event]
@[simp] theorem State.event_podKeys (s : State) (t : Nat) (b : BitVec 3) : (s.event t b).podKeys = s.podKeys :=  by simp [State.event]
@[simp] theorem State.event_storage (s : State) (t : Nat) (b : BitVec 3) : (s.event t b).storage = s.storage :=  by simp [State.event]
@[simp] theorem State.event_weak (s : State) (t : Nat) (b : BitVec 3) : (s.event t b).weak = s.weak :=  by simp [State.event]
@[simp] theorem State.event_frameMarks (s : State) (t : Nat) (b : BitVec 3) : (s.event t b).frameMarks = s.frameMarks :=  by simp [State.event]
@[simp] theorem State.event_marks (s : State) (t : Nat) (b : BitVec 3) : (s.event t b).marks = s.marks :=  by simp [State.event]
@[simp] theorem State.event_damaged (s : State) (t : Nat) (b : BitVec 3) : (s.event t b).damaged = s.damaged :=  by simp [State.event]
@[simp] theorem State.event_rebuilds (s : State) (t : Nat) (b : BitVec 3) : (s.event t b).rebuilds = s.rebuilds :=  by simp [State.event]
@[simp] theorem State.event_reservedReads (s : State) (t : Nat) (b : BitVec 3) : (s.event t b).reservedReads = s.reservedReads :=  by simp [State.event]
@[simp] theorem State.event_pmc (s : State) (t : Nat) (b : BitVec 3) : (s.event t b).pmc = s.pmc :=  by simp [State.event]
@[simp] theorem State.event_ports (s : State) (t : Nat) (b : BitVec 3) : (s.event t b).ports = s.ports :=  by simp [State.event]
@[simp] theorem State.event_lost (s : State) (t : Nat) (b : BitVec 3) : (s.event t b).lost = s.lost :=  by simp [State.event]
@[simp] theorem State.event_missed (s : State) (t : Nat) (b : BitVec 3) : (s.event t b).missed = s.missed :=  by simp [State.event]
@[simp] theorem State.event_reported (s : State) (t : Nat) (b : BitVec 3) : (s.event t b).reported = s.reported :=  by simp [State.event]
@[simp] theorem State.event_rerouting (s : State) (t : Nat) (b : BitVec 3) : (s.event t b).rerouting = s.rerouting :=  by simp [State.event]
@[simp] theorem State.event_pod (s : State) (t : Nat) (b : BitVec 3) : (s.event t b).pod = s.pod :=  by simp [State.event]
@[simp] theorem State.event_routes (s : State) (t : Nat) (b : BitVec 3) : (s.event t b).routes = s.routes :=  by simp [State.event]
@[simp] theorem State.event_podObjects (s : State) (t : Nat) (b : BitVec 3) : (s.event t b).podObjects = s.podObjects :=  by simp [State.event]
@[simp] theorem State.event_podAliases (s : State) (t : Nat) (b : BitVec 3) : (s.event t b).podAliases = s.podAliases :=  by simp [State.event]
@[simp] theorem State.event_firmware (s : State) (t : Nat) (b : BitVec 3) : (s.event t b).firmware = s.firmware :=  by simp [State.event]
@[simp] theorem State.event_hostWaits (s : State) (t : Nat) (b : BitVec 3) : (s.event t b).hostWaits = s.hostWaits :=  by simp [State.event]
@[simp] theorem State.event_tout (s : State) (t : Nat) (b : BitVec 3) : (s.event t b).tout = s.tout :=  by simp [State.event]
@[simp] theorem State.event_pkg (s : State) (t : Nat) (b : BitVec 3) : (s.event t b).pkg = s.pkg :=  by simp [State.event]
@[simp] theorem State.event_cycle (s : State) (t : Nat) (b : BitVec 3) : (s.event t b).cycle = s.cycle :=  by simp [State.event]
@[simp] theorem State.event_round (s : State) (t : Nat) (b : BitVec 3) : (s.event t b).round = s.round :=  by simp [State.event]
@[simp] theorem State.event_fresh (s : State) (t : Nat) (b : BitVec 3) : (s.event t b).fresh = s.fresh :=  by simp [State.event]
@[simp] theorem State.event_inputs (s : State) (t : Nat) (b : BitVec 3) : (s.event t b).inputs = s.inputs :=  by simp [State.event]
@[simp] theorem State.event_occurrences (s : State) (t : Nat) (b : BitVec 3) : (s.event t b).occurrences = s.occurrences :=  by simp [State.event]
@[simp] theorem State.event_unsent (s : State) (t : Nat) (b : BitVec 3) : (s.event t b).unsent = s.unsent :=  by simp [State.event]
@[simp] theorem State.event_hostOut (s : State) (t : Nat) (b : BitVec 3) : (s.event t b).hostOut = s.hostOut :=  by simp [State.event]
@[simp] theorem State.event_hostReplies (s : State) (t : Nat) (b : BitVec 3) : (s.event t b).hostReplies = s.hostReplies :=  by simp [State.event]

/-! ### `State.pinWith` leaves every field but `th`, `parked`, `quads` -/

@[simp] theorem State.pinWith_tid (s : State) (t : Nat) (f : Thread → Thread) : (s.pinWith t f).tid = s.tid :=  by unfold State.pinWith; dsimp only; split <;> simp
@[simp] theorem State.pinWith_mem (s : State) (t : Nat) (f : Thread → Thread) : (s.pinWith t f).mem = s.mem :=  by unfold State.pinWith; dsimp only; split <;> simp
@[simp] theorem State.pinWith_poison (s : State) (t : Nat) (f : Thread → Thread) : (s.pinWith t f).poison = s.poison :=  by unfold State.pinWith; dsimp only; split <;> simp
@[simp] theorem State.pinWith_cores (s : State) (t : Nat) (f : Thread → Thread) : (s.pinWith t f).cores = s.cores :=  by unfold State.pinWith; dsimp only; split <;> simp
@[simp] theorem State.pinWith_sections (s : State) (t : Nat) (f : Thread → Thread) : (s.pinWith t f).sections = s.sections :=  by unfold State.pinWith; dsimp only; split <;> simp
@[simp] theorem State.pinWith_gangs (s : State) (t : Nat) (f : Thread → Thread) : (s.pinWith t f).gangs = s.gangs :=  by unfold State.pinWith; dsimp only; split <;> simp
@[simp] theorem State.pinWith_contexts (s : State) (t : Nat) (f : Thread → Thread) : (s.pinWith t f).contexts = s.contexts :=  by unfold State.pinWith; dsimp only; split <;> simp
@[simp] theorem State.pinWith_dies (s : State) (t : Nat) (f : Thread → Thread) : (s.pinWith t f).dies = s.dies :=  by unfold State.pinWith; dsimp only; split <;> simp
@[simp] theorem State.pinWith_regions (s : State) (t : Nat) (f : Thread → Thread) : (s.pinWith t f).regions = s.regions :=  by unfold State.pinWith; dsimp only; split <;> simp
@[simp] theorem State.pinWith_forwards (s : State) (t : Nat) (f : Thread → Thread) : (s.pinWith t f).forwards = s.forwards :=  by unfold State.pinWith; dsimp only; split <;> simp
@[simp] theorem State.pinWith_recordWrites (s : State) (t : Nat) (f : Thread → Thread) : (s.pinWith t f).recordWrites = s.recordWrites :=  by unfold State.pinWith; dsimp only; split <;> simp
@[simp] theorem State.pinWith_keys (s : State) (t : Nat) (f : Thread → Thread) : (s.pinWith t f).keys = s.keys :=  by unfold State.pinWith; dsimp only; split <;> simp
@[simp] theorem State.pinWith_podKeys (s : State) (t : Nat) (f : Thread → Thread) : (s.pinWith t f).podKeys = s.podKeys :=  by unfold State.pinWith; dsimp only; split <;> simp
@[simp] theorem State.pinWith_storage (s : State) (t : Nat) (f : Thread → Thread) : (s.pinWith t f).storage = s.storage :=  by unfold State.pinWith; dsimp only; split <;> simp
@[simp] theorem State.pinWith_weak (s : State) (t : Nat) (f : Thread → Thread) : (s.pinWith t f).weak = s.weak :=  by unfold State.pinWith; dsimp only; split <;> simp
@[simp] theorem State.pinWith_frameMarks (s : State) (t : Nat) (f : Thread → Thread) : (s.pinWith t f).frameMarks = s.frameMarks :=  by unfold State.pinWith; dsimp only; split <;> simp
@[simp] theorem State.pinWith_marks (s : State) (t : Nat) (f : Thread → Thread) : (s.pinWith t f).marks = s.marks :=  by unfold State.pinWith; dsimp only; split <;> simp
@[simp] theorem State.pinWith_damaged (s : State) (t : Nat) (f : Thread → Thread) : (s.pinWith t f).damaged = s.damaged :=  by unfold State.pinWith; dsimp only; split <;> simp
@[simp] theorem State.pinWith_rebuilds (s : State) (t : Nat) (f : Thread → Thread) : (s.pinWith t f).rebuilds = s.rebuilds :=  by unfold State.pinWith; dsimp only; split <;> simp
@[simp] theorem State.pinWith_reservedReads (s : State) (t : Nat) (f : Thread → Thread) : (s.pinWith t f).reservedReads = s.reservedReads :=  by unfold State.pinWith; dsimp only; split <;> simp
@[simp] theorem State.pinWith_pmc (s : State) (t : Nat) (f : Thread → Thread) : (s.pinWith t f).pmc = s.pmc :=  by unfold State.pinWith; dsimp only; split <;> simp
@[simp] theorem State.pinWith_ports (s : State) (t : Nat) (f : Thread → Thread) : (s.pinWith t f).ports = s.ports :=  by unfold State.pinWith; dsimp only; split <;> simp
@[simp] theorem State.pinWith_lost (s : State) (t : Nat) (f : Thread → Thread) : (s.pinWith t f).lost = s.lost :=  by unfold State.pinWith; dsimp only; split <;> simp
@[simp] theorem State.pinWith_missed (s : State) (t : Nat) (f : Thread → Thread) : (s.pinWith t f).missed = s.missed :=  by unfold State.pinWith; dsimp only; split <;> simp
@[simp] theorem State.pinWith_reported (s : State) (t : Nat) (f : Thread → Thread) : (s.pinWith t f).reported = s.reported :=  by unfold State.pinWith; dsimp only; split <;> simp
@[simp] theorem State.pinWith_rerouting (s : State) (t : Nat) (f : Thread → Thread) : (s.pinWith t f).rerouting = s.rerouting :=  by unfold State.pinWith; dsimp only; split <;> simp
@[simp] theorem State.pinWith_pod (s : State) (t : Nat) (f : Thread → Thread) : (s.pinWith t f).pod = s.pod :=  by unfold State.pinWith; dsimp only; split <;> simp
@[simp] theorem State.pinWith_routes (s : State) (t : Nat) (f : Thread → Thread) : (s.pinWith t f).routes = s.routes :=  by unfold State.pinWith; dsimp only; split <;> simp
@[simp] theorem State.pinWith_podObjects (s : State) (t : Nat) (f : Thread → Thread) : (s.pinWith t f).podObjects = s.podObjects :=  by unfold State.pinWith; dsimp only; split <;> simp
@[simp] theorem State.pinWith_podAliases (s : State) (t : Nat) (f : Thread → Thread) : (s.pinWith t f).podAliases = s.podAliases :=  by unfold State.pinWith; dsimp only; split <;> simp
@[simp] theorem State.pinWith_firmware (s : State) (t : Nat) (f : Thread → Thread) : (s.pinWith t f).firmware = s.firmware :=  by unfold State.pinWith; dsimp only; split <;> simp
@[simp] theorem State.pinWith_hostWaits (s : State) (t : Nat) (f : Thread → Thread) : (s.pinWith t f).hostWaits = s.hostWaits :=  by unfold State.pinWith; dsimp only; split <;> simp
@[simp] theorem State.pinWith_tout (s : State) (t : Nat) (f : Thread → Thread) : (s.pinWith t f).tout = s.tout :=  by unfold State.pinWith; dsimp only; split <;> simp
@[simp] theorem State.pinWith_pkg (s : State) (t : Nat) (f : Thread → Thread) : (s.pinWith t f).pkg = s.pkg :=  by unfold State.pinWith; dsimp only; split <;> simp
@[simp] theorem State.pinWith_cycle (s : State) (t : Nat) (f : Thread → Thread) : (s.pinWith t f).cycle = s.cycle :=  by unfold State.pinWith; dsimp only; split <;> simp
@[simp] theorem State.pinWith_round (s : State) (t : Nat) (f : Thread → Thread) : (s.pinWith t f).round = s.round :=  by unfold State.pinWith; dsimp only; split <;> simp
@[simp] theorem State.pinWith_seq (s : State) (t : Nat) (f : Thread → Thread) : (s.pinWith t f).seq = s.seq :=  by unfold State.pinWith; dsimp only; split <;> simp
@[simp] theorem State.pinWith_fresh (s : State) (t : Nat) (f : Thread → Thread) : (s.pinWith t f).fresh = s.fresh :=  by unfold State.pinWith; dsimp only; split <;> simp
@[simp] theorem State.pinWith_inputs (s : State) (t : Nat) (f : Thread → Thread) : (s.pinWith t f).inputs = s.inputs :=  by unfold State.pinWith; dsimp only; split <;> simp
@[simp] theorem State.pinWith_occurrences (s : State) (t : Nat) (f : Thread → Thread) : (s.pinWith t f).occurrences = s.occurrences :=  by unfold State.pinWith; dsimp only; split <;> simp
@[simp] theorem State.pinWith_unsent (s : State) (t : Nat) (f : Thread → Thread) : (s.pinWith t f).unsent = s.unsent :=  by unfold State.pinWith; dsimp only; split <;> simp
@[simp] theorem State.pinWith_hostOut (s : State) (t : Nat) (f : Thread → Thread) : (s.pinWith t f).hostOut = s.hostOut :=  by unfold State.pinWith; dsimp only; split <;> simp
@[simp] theorem State.pinWith_hostReplies (s : State) (t : Nat) (f : Thread → Thread) : (s.pinWith t f).hostReplies = s.hostReplies :=  by unfold State.pinWith; dsimp only; split <;> simp

/-! ### `State.pin` leaves every field but `th`, `parked`, `quads` -/

@[simp] theorem State.pin_tid (s : State) (t : Nat) : (s.pin t).tid = s.tid :=  by simp [State.pin]
@[simp] theorem State.pin_mem (s : State) (t : Nat) : (s.pin t).mem = s.mem :=  by simp [State.pin]
@[simp] theorem State.pin_poison (s : State) (t : Nat) : (s.pin t).poison = s.poison :=  by simp [State.pin]
@[simp] theorem State.pin_cores (s : State) (t : Nat) : (s.pin t).cores = s.cores :=  by simp [State.pin]
@[simp] theorem State.pin_sections (s : State) (t : Nat) : (s.pin t).sections = s.sections :=  by simp [State.pin]
@[simp] theorem State.pin_gangs (s : State) (t : Nat) : (s.pin t).gangs = s.gangs :=  by simp [State.pin]
@[simp] theorem State.pin_contexts (s : State) (t : Nat) : (s.pin t).contexts = s.contexts :=  by simp [State.pin]
@[simp] theorem State.pin_dies (s : State) (t : Nat) : (s.pin t).dies = s.dies :=  by simp [State.pin]
@[simp] theorem State.pin_regions (s : State) (t : Nat) : (s.pin t).regions = s.regions :=  by simp [State.pin]
@[simp] theorem State.pin_forwards (s : State) (t : Nat) : (s.pin t).forwards = s.forwards :=  by simp [State.pin]
@[simp] theorem State.pin_recordWrites (s : State) (t : Nat) : (s.pin t).recordWrites = s.recordWrites :=  by simp [State.pin]
@[simp] theorem State.pin_keys (s : State) (t : Nat) : (s.pin t).keys = s.keys :=  by simp [State.pin]
@[simp] theorem State.pin_podKeys (s : State) (t : Nat) : (s.pin t).podKeys = s.podKeys :=  by simp [State.pin]
@[simp] theorem State.pin_storage (s : State) (t : Nat) : (s.pin t).storage = s.storage :=  by simp [State.pin]
@[simp] theorem State.pin_weak (s : State) (t : Nat) : (s.pin t).weak = s.weak :=  by simp [State.pin]
@[simp] theorem State.pin_frameMarks (s : State) (t : Nat) : (s.pin t).frameMarks = s.frameMarks :=  by simp [State.pin]
@[simp] theorem State.pin_marks (s : State) (t : Nat) : (s.pin t).marks = s.marks :=  by simp [State.pin]
@[simp] theorem State.pin_damaged (s : State) (t : Nat) : (s.pin t).damaged = s.damaged :=  by simp [State.pin]
@[simp] theorem State.pin_rebuilds (s : State) (t : Nat) : (s.pin t).rebuilds = s.rebuilds :=  by simp [State.pin]
@[simp] theorem State.pin_reservedReads (s : State) (t : Nat) : (s.pin t).reservedReads = s.reservedReads :=  by simp [State.pin]
@[simp] theorem State.pin_pmc (s : State) (t : Nat) : (s.pin t).pmc = s.pmc :=  by simp [State.pin]
@[simp] theorem State.pin_ports (s : State) (t : Nat) : (s.pin t).ports = s.ports :=  by simp [State.pin]
@[simp] theorem State.pin_lost (s : State) (t : Nat) : (s.pin t).lost = s.lost :=  by simp [State.pin]
@[simp] theorem State.pin_missed (s : State) (t : Nat) : (s.pin t).missed = s.missed :=  by simp [State.pin]
@[simp] theorem State.pin_reported (s : State) (t : Nat) : (s.pin t).reported = s.reported :=  by simp [State.pin]
@[simp] theorem State.pin_rerouting (s : State) (t : Nat) : (s.pin t).rerouting = s.rerouting :=  by simp [State.pin]
@[simp] theorem State.pin_pod (s : State) (t : Nat) : (s.pin t).pod = s.pod :=  by simp [State.pin]
@[simp] theorem State.pin_routes (s : State) (t : Nat) : (s.pin t).routes = s.routes :=  by simp [State.pin]
@[simp] theorem State.pin_podObjects (s : State) (t : Nat) : (s.pin t).podObjects = s.podObjects :=  by simp [State.pin]
@[simp] theorem State.pin_podAliases (s : State) (t : Nat) : (s.pin t).podAliases = s.podAliases :=  by simp [State.pin]
@[simp] theorem State.pin_firmware (s : State) (t : Nat) : (s.pin t).firmware = s.firmware :=  by simp [State.pin]
@[simp] theorem State.pin_hostWaits (s : State) (t : Nat) : (s.pin t).hostWaits = s.hostWaits :=  by simp [State.pin]
@[simp] theorem State.pin_tout (s : State) (t : Nat) : (s.pin t).tout = s.tout :=  by simp [State.pin]
@[simp] theorem State.pin_pkg (s : State) (t : Nat) : (s.pin t).pkg = s.pkg :=  by simp [State.pin]
@[simp] theorem State.pin_cycle (s : State) (t : Nat) : (s.pin t).cycle = s.cycle :=  by simp [State.pin]
@[simp] theorem State.pin_round (s : State) (t : Nat) : (s.pin t).round = s.round :=  by simp [State.pin]
@[simp] theorem State.pin_seq (s : State) (t : Nat) : (s.pin t).seq = s.seq :=  by simp [State.pin]
@[simp] theorem State.pin_fresh (s : State) (t : Nat) : (s.pin t).fresh = s.fresh :=  by simp [State.pin]
@[simp] theorem State.pin_inputs (s : State) (t : Nat) : (s.pin t).inputs = s.inputs :=  by simp [State.pin]
@[simp] theorem State.pin_occurrences (s : State) (t : Nat) : (s.pin t).occurrences = s.occurrences :=  by simp [State.pin]
@[simp] theorem State.pin_unsent (s : State) (t : Nat) : (s.pin t).unsent = s.unsent :=  by simp [State.pin]
@[simp] theorem State.pin_hostOut (s : State) (t : Nat) : (s.pin t).hostOut = s.hostOut :=  by simp [State.pin]
@[simp] theorem State.pin_hostReplies (s : State) (t : Nat) : (s.pin t).hostReplies = s.hostReplies :=  by simp [State.pin]

/-! ### `State.awaitTile` leaves every field but `quads` -/

@[simp] theorem State.awaitTile_th (s : State) (e n : Nat) : (s.awaitTile e n).th = s.th :=  rfl
@[simp] theorem State.awaitTile_tid (s : State) (e n : Nat) : (s.awaitTile e n).tid = s.tid :=  rfl
@[simp] theorem State.awaitTile_parked (s : State) (e n : Nat) : (s.awaitTile e n).parked = s.parked :=  rfl
@[simp] theorem State.awaitTile_mem (s : State) (e n : Nat) : (s.awaitTile e n).mem = s.mem :=  rfl
@[simp] theorem State.awaitTile_poison (s : State) (e n : Nat) : (s.awaitTile e n).poison = s.poison :=  rfl
@[simp] theorem State.awaitTile_cores (s : State) (e n : Nat) : (s.awaitTile e n).cores = s.cores :=  rfl
@[simp] theorem State.awaitTile_sections (s : State) (e n : Nat) : (s.awaitTile e n).sections = s.sections :=  rfl
@[simp] theorem State.awaitTile_gangs (s : State) (e n : Nat) : (s.awaitTile e n).gangs = s.gangs :=  rfl
@[simp] theorem State.awaitTile_contexts (s : State) (e n : Nat) : (s.awaitTile e n).contexts = s.contexts :=  rfl
@[simp] theorem State.awaitTile_dies (s : State) (e n : Nat) : (s.awaitTile e n).dies = s.dies :=  rfl
@[simp] theorem State.awaitTile_regions (s : State) (e n : Nat) : (s.awaitTile e n).regions = s.regions :=  rfl
@[simp] theorem State.awaitTile_forwards (s : State) (e n : Nat) : (s.awaitTile e n).forwards = s.forwards :=  rfl
@[simp] theorem State.awaitTile_recordWrites (s : State) (e n : Nat) : (s.awaitTile e n).recordWrites = s.recordWrites :=  rfl
@[simp] theorem State.awaitTile_keys (s : State) (e n : Nat) : (s.awaitTile e n).keys = s.keys :=  rfl
@[simp] theorem State.awaitTile_podKeys (s : State) (e n : Nat) : (s.awaitTile e n).podKeys = s.podKeys :=  rfl
@[simp] theorem State.awaitTile_storage (s : State) (e n : Nat) : (s.awaitTile e n).storage = s.storage :=  rfl
@[simp] theorem State.awaitTile_weak (s : State) (e n : Nat) : (s.awaitTile e n).weak = s.weak :=  rfl
@[simp] theorem State.awaitTile_frameMarks (s : State) (e n : Nat) : (s.awaitTile e n).frameMarks = s.frameMarks :=  rfl
@[simp] theorem State.awaitTile_marks (s : State) (e n : Nat) : (s.awaitTile e n).marks = s.marks :=  rfl
@[simp] theorem State.awaitTile_damaged (s : State) (e n : Nat) : (s.awaitTile e n).damaged = s.damaged :=  rfl
@[simp] theorem State.awaitTile_rebuilds (s : State) (e n : Nat) : (s.awaitTile e n).rebuilds = s.rebuilds :=  rfl
@[simp] theorem State.awaitTile_reservedReads (s : State) (e n : Nat) : (s.awaitTile e n).reservedReads = s.reservedReads :=  rfl
@[simp] theorem State.awaitTile_pmc (s : State) (e n : Nat) : (s.awaitTile e n).pmc = s.pmc :=  rfl
@[simp] theorem State.awaitTile_ports (s : State) (e n : Nat) : (s.awaitTile e n).ports = s.ports :=  rfl
@[simp] theorem State.awaitTile_lost (s : State) (e n : Nat) : (s.awaitTile e n).lost = s.lost :=  rfl
@[simp] theorem State.awaitTile_missed (s : State) (e n : Nat) : (s.awaitTile e n).missed = s.missed :=  rfl
@[simp] theorem State.awaitTile_reported (s : State) (e n : Nat) : (s.awaitTile e n).reported = s.reported :=  rfl
@[simp] theorem State.awaitTile_rerouting (s : State) (e n : Nat) : (s.awaitTile e n).rerouting = s.rerouting :=  rfl
@[simp] theorem State.awaitTile_pod (s : State) (e n : Nat) : (s.awaitTile e n).pod = s.pod :=  rfl
@[simp] theorem State.awaitTile_routes (s : State) (e n : Nat) : (s.awaitTile e n).routes = s.routes :=  rfl
@[simp] theorem State.awaitTile_podObjects (s : State) (e n : Nat) : (s.awaitTile e n).podObjects = s.podObjects :=  rfl
@[simp] theorem State.awaitTile_podAliases (s : State) (e n : Nat) : (s.awaitTile e n).podAliases = s.podAliases :=  rfl
@[simp] theorem State.awaitTile_firmware (s : State) (e n : Nat) : (s.awaitTile e n).firmware = s.firmware :=  rfl
@[simp] theorem State.awaitTile_hostWaits (s : State) (e n : Nat) : (s.awaitTile e n).hostWaits = s.hostWaits :=  rfl
@[simp] theorem State.awaitTile_tout (s : State) (e n : Nat) : (s.awaitTile e n).tout = s.tout :=  rfl
@[simp] theorem State.awaitTile_pkg (s : State) (e n : Nat) : (s.awaitTile e n).pkg = s.pkg :=  rfl
@[simp] theorem State.awaitTile_cycle (s : State) (e n : Nat) : (s.awaitTile e n).cycle = s.cycle :=  rfl
@[simp] theorem State.awaitTile_round (s : State) (e n : Nat) : (s.awaitTile e n).round = s.round :=  rfl
@[simp] theorem State.awaitTile_seq (s : State) (e n : Nat) : (s.awaitTile e n).seq = s.seq :=  rfl
@[simp] theorem State.awaitTile_fresh (s : State) (e n : Nat) : (s.awaitTile e n).fresh = s.fresh :=  rfl
@[simp] theorem State.awaitTile_inputs (s : State) (e n : Nat) : (s.awaitTile e n).inputs = s.inputs :=  rfl
@[simp] theorem State.awaitTile_occurrences (s : State) (e n : Nat) : (s.awaitTile e n).occurrences = s.occurrences :=  rfl
@[simp] theorem State.awaitTile_unsent (s : State) (e n : Nat) : (s.awaitTile e n).unsent = s.unsent :=  rfl
@[simp] theorem State.awaitTile_hostOut (s : State) (e n : Nat) : (s.awaitTile e n).hostOut = s.hostOut :=  rfl
@[simp] theorem State.awaitTile_hostReplies (s : State) (e n : Nat) : (s.awaitTile e n).hostReplies = s.hostReplies :=  rfl

/-! ### `State.setMarker` leaves every field but `poison`, `frameMarks`, `marks` -/

@[simp] theorem State.setMarker_th (s : State) (n : Nat) (l : Loc) : (s.setMarker n l).th = s.th :=  rfl
@[simp] theorem State.setMarker_tid (s : State) (n : Nat) (l : Loc) : (s.setMarker n l).tid = s.tid :=  rfl
@[simp] theorem State.setMarker_parked (s : State) (n : Nat) (l : Loc) : (s.setMarker n l).parked = s.parked :=  rfl
@[simp] theorem State.setMarker_mem (s : State) (n : Nat) (l : Loc) : (s.setMarker n l).mem = s.mem :=  rfl
@[simp] theorem State.setMarker_cores (s : State) (n : Nat) (l : Loc) : (s.setMarker n l).cores = s.cores :=  rfl
@[simp] theorem State.setMarker_quads (s : State) (n : Nat) (l : Loc) : (s.setMarker n l).quads = s.quads :=  rfl
@[simp] theorem State.setMarker_sections (s : State) (n : Nat) (l : Loc) : (s.setMarker n l).sections = s.sections :=  rfl
@[simp] theorem State.setMarker_gangs (s : State) (n : Nat) (l : Loc) : (s.setMarker n l).gangs = s.gangs :=  rfl
@[simp] theorem State.setMarker_contexts (s : State) (n : Nat) (l : Loc) : (s.setMarker n l).contexts = s.contexts :=  rfl
@[simp] theorem State.setMarker_dies (s : State) (n : Nat) (l : Loc) : (s.setMarker n l).dies = s.dies :=  rfl
@[simp] theorem State.setMarker_regions (s : State) (n : Nat) (l : Loc) : (s.setMarker n l).regions = s.regions :=  rfl
@[simp] theorem State.setMarker_forwards (s : State) (n : Nat) (l : Loc) : (s.setMarker n l).forwards = s.forwards :=  rfl
@[simp] theorem State.setMarker_recordWrites (s : State) (n : Nat) (l : Loc) : (s.setMarker n l).recordWrites = s.recordWrites :=  rfl
@[simp] theorem State.setMarker_keys (s : State) (n : Nat) (l : Loc) : (s.setMarker n l).keys = s.keys :=  rfl
@[simp] theorem State.setMarker_podKeys (s : State) (n : Nat) (l : Loc) : (s.setMarker n l).podKeys = s.podKeys :=  rfl
@[simp] theorem State.setMarker_storage (s : State) (n : Nat) (l : Loc) : (s.setMarker n l).storage = s.storage :=  rfl
@[simp] theorem State.setMarker_weak (s : State) (n : Nat) (l : Loc) : (s.setMarker n l).weak = s.weak :=  rfl
@[simp] theorem State.setMarker_damaged (s : State) (n : Nat) (l : Loc) : (s.setMarker n l).damaged = s.damaged :=  rfl
@[simp] theorem State.setMarker_rebuilds (s : State) (n : Nat) (l : Loc) : (s.setMarker n l).rebuilds = s.rebuilds :=  rfl
@[simp] theorem State.setMarker_reservedReads (s : State) (n : Nat) (l : Loc) : (s.setMarker n l).reservedReads = s.reservedReads :=  rfl
@[simp] theorem State.setMarker_pmc (s : State) (n : Nat) (l : Loc) : (s.setMarker n l).pmc = s.pmc :=  rfl
@[simp] theorem State.setMarker_ports (s : State) (n : Nat) (l : Loc) : (s.setMarker n l).ports = s.ports :=  rfl
@[simp] theorem State.setMarker_lost (s : State) (n : Nat) (l : Loc) : (s.setMarker n l).lost = s.lost :=  rfl
@[simp] theorem State.setMarker_missed (s : State) (n : Nat) (l : Loc) : (s.setMarker n l).missed = s.missed :=  rfl
@[simp] theorem State.setMarker_reported (s : State) (n : Nat) (l : Loc) : (s.setMarker n l).reported = s.reported :=  rfl
@[simp] theorem State.setMarker_rerouting (s : State) (n : Nat) (l : Loc) : (s.setMarker n l).rerouting = s.rerouting :=  rfl
@[simp] theorem State.setMarker_pod (s : State) (n : Nat) (l : Loc) : (s.setMarker n l).pod = s.pod :=  rfl
@[simp] theorem State.setMarker_routes (s : State) (n : Nat) (l : Loc) : (s.setMarker n l).routes = s.routes :=  rfl
@[simp] theorem State.setMarker_podObjects (s : State) (n : Nat) (l : Loc) : (s.setMarker n l).podObjects = s.podObjects :=  rfl
@[simp] theorem State.setMarker_podAliases (s : State) (n : Nat) (l : Loc) : (s.setMarker n l).podAliases = s.podAliases :=  rfl
@[simp] theorem State.setMarker_firmware (s : State) (n : Nat) (l : Loc) : (s.setMarker n l).firmware = s.firmware :=  rfl
@[simp] theorem State.setMarker_hostWaits (s : State) (n : Nat) (l : Loc) : (s.setMarker n l).hostWaits = s.hostWaits :=  rfl
@[simp] theorem State.setMarker_tout (s : State) (n : Nat) (l : Loc) : (s.setMarker n l).tout = s.tout :=  rfl
@[simp] theorem State.setMarker_pkg (s : State) (n : Nat) (l : Loc) : (s.setMarker n l).pkg = s.pkg :=  rfl
@[simp] theorem State.setMarker_cycle (s : State) (n : Nat) (l : Loc) : (s.setMarker n l).cycle = s.cycle :=  rfl
@[simp] theorem State.setMarker_round (s : State) (n : Nat) (l : Loc) : (s.setMarker n l).round = s.round :=  rfl
@[simp] theorem State.setMarker_seq (s : State) (n : Nat) (l : Loc) : (s.setMarker n l).seq = s.seq :=  rfl
@[simp] theorem State.setMarker_fresh (s : State) (n : Nat) (l : Loc) : (s.setMarker n l).fresh = s.fresh :=  rfl
@[simp] theorem State.setMarker_inputs (s : State) (n : Nat) (l : Loc) : (s.setMarker n l).inputs = s.inputs :=  rfl
@[simp] theorem State.setMarker_occurrences (s : State) (n : Nat) (l : Loc) : (s.setMarker n l).occurrences = s.occurrences :=  rfl
@[simp] theorem State.setMarker_unsent (s : State) (n : Nat) (l : Loc) : (s.setMarker n l).unsent = s.unsent :=  rfl
@[simp] theorem State.setMarker_hostOut (s : State) (n : Nat) (l : Loc) : (s.setMarker n l).hostOut = s.hostOut :=  rfl
@[simp] theorem State.setMarker_hostReplies (s : State) (n : Nat) (l : Loc) : (s.setMarker n l).hostReplies = s.hostReplies :=  rfl

/-! ### `State.supersede` leaves every field but `quads` -/

@[simp] theorem State.supersede_th (s : State) (e : Nat) (o : Option Tile) : (s.supersede e o).th = s.th :=  by cases o <;> rfl
@[simp] theorem State.supersede_tid (s : State) (e : Nat) (o : Option Tile) : (s.supersede e o).tid = s.tid :=  by cases o <;> rfl
@[simp] theorem State.supersede_parked (s : State) (e : Nat) (o : Option Tile) : (s.supersede e o).parked = s.parked :=  by cases o <;> rfl
@[simp] theorem State.supersede_mem (s : State) (e : Nat) (o : Option Tile) : (s.supersede e o).mem = s.mem :=  by cases o <;> rfl
@[simp] theorem State.supersede_poison (s : State) (e : Nat) (o : Option Tile) : (s.supersede e o).poison = s.poison :=  by cases o <;> rfl
@[simp] theorem State.supersede_cores (s : State) (e : Nat) (o : Option Tile) : (s.supersede e o).cores = s.cores :=  by cases o <;> rfl
@[simp] theorem State.supersede_sections (s : State) (e : Nat) (o : Option Tile) : (s.supersede e o).sections = s.sections :=  by cases o <;> rfl
@[simp] theorem State.supersede_gangs (s : State) (e : Nat) (o : Option Tile) : (s.supersede e o).gangs = s.gangs :=  by cases o <;> rfl
@[simp] theorem State.supersede_contexts (s : State) (e : Nat) (o : Option Tile) : (s.supersede e o).contexts = s.contexts :=  by cases o <;> rfl
@[simp] theorem State.supersede_dies (s : State) (e : Nat) (o : Option Tile) : (s.supersede e o).dies = s.dies :=  by cases o <;> rfl
@[simp] theorem State.supersede_regions (s : State) (e : Nat) (o : Option Tile) : (s.supersede e o).regions = s.regions :=  by cases o <;> rfl
@[simp] theorem State.supersede_forwards (s : State) (e : Nat) (o : Option Tile) : (s.supersede e o).forwards = s.forwards :=  by cases o <;> rfl
@[simp] theorem State.supersede_recordWrites (s : State) (e : Nat) (o : Option Tile) : (s.supersede e o).recordWrites = s.recordWrites :=  by cases o <;> rfl
@[simp] theorem State.supersede_keys (s : State) (e : Nat) (o : Option Tile) : (s.supersede e o).keys = s.keys :=  by cases o <;> rfl
@[simp] theorem State.supersede_podKeys (s : State) (e : Nat) (o : Option Tile) : (s.supersede e o).podKeys = s.podKeys :=  by cases o <;> rfl
@[simp] theorem State.supersede_storage (s : State) (e : Nat) (o : Option Tile) : (s.supersede e o).storage = s.storage :=  by cases o <;> rfl
@[simp] theorem State.supersede_weak (s : State) (e : Nat) (o : Option Tile) : (s.supersede e o).weak = s.weak :=  by cases o <;> rfl
@[simp] theorem State.supersede_frameMarks (s : State) (e : Nat) (o : Option Tile) : (s.supersede e o).frameMarks = s.frameMarks :=  by cases o <;> rfl
@[simp] theorem State.supersede_marks (s : State) (e : Nat) (o : Option Tile) : (s.supersede e o).marks = s.marks :=  by cases o <;> rfl
@[simp] theorem State.supersede_damaged (s : State) (e : Nat) (o : Option Tile) : (s.supersede e o).damaged = s.damaged :=  by cases o <;> rfl
@[simp] theorem State.supersede_rebuilds (s : State) (e : Nat) (o : Option Tile) : (s.supersede e o).rebuilds = s.rebuilds :=  by cases o <;> rfl
@[simp] theorem State.supersede_reservedReads (s : State) (e : Nat) (o : Option Tile) : (s.supersede e o).reservedReads = s.reservedReads :=  by cases o <;> rfl
@[simp] theorem State.supersede_pmc (s : State) (e : Nat) (o : Option Tile) : (s.supersede e o).pmc = s.pmc :=  by cases o <;> rfl
@[simp] theorem State.supersede_ports (s : State) (e : Nat) (o : Option Tile) : (s.supersede e o).ports = s.ports :=  by cases o <;> rfl
@[simp] theorem State.supersede_lost (s : State) (e : Nat) (o : Option Tile) : (s.supersede e o).lost = s.lost :=  by cases o <;> rfl
@[simp] theorem State.supersede_missed (s : State) (e : Nat) (o : Option Tile) : (s.supersede e o).missed = s.missed :=  by cases o <;> rfl
@[simp] theorem State.supersede_reported (s : State) (e : Nat) (o : Option Tile) : (s.supersede e o).reported = s.reported :=  by cases o <;> rfl
@[simp] theorem State.supersede_rerouting (s : State) (e : Nat) (o : Option Tile) : (s.supersede e o).rerouting = s.rerouting :=  by cases o <;> rfl
@[simp] theorem State.supersede_pod (s : State) (e : Nat) (o : Option Tile) : (s.supersede e o).pod = s.pod :=  by cases o <;> rfl
@[simp] theorem State.supersede_routes (s : State) (e : Nat) (o : Option Tile) : (s.supersede e o).routes = s.routes :=  by cases o <;> rfl
@[simp] theorem State.supersede_podObjects (s : State) (e : Nat) (o : Option Tile) : (s.supersede e o).podObjects = s.podObjects :=  by cases o <;> rfl
@[simp] theorem State.supersede_podAliases (s : State) (e : Nat) (o : Option Tile) : (s.supersede e o).podAliases = s.podAliases :=  by cases o <;> rfl
@[simp] theorem State.supersede_firmware (s : State) (e : Nat) (o : Option Tile) : (s.supersede e o).firmware = s.firmware :=  by cases o <;> rfl
@[simp] theorem State.supersede_hostWaits (s : State) (e : Nat) (o : Option Tile) : (s.supersede e o).hostWaits = s.hostWaits :=  by cases o <;> rfl
@[simp] theorem State.supersede_tout (s : State) (e : Nat) (o : Option Tile) : (s.supersede e o).tout = s.tout :=  by cases o <;> rfl
@[simp] theorem State.supersede_pkg (s : State) (e : Nat) (o : Option Tile) : (s.supersede e o).pkg = s.pkg :=  by cases o <;> rfl
@[simp] theorem State.supersede_cycle (s : State) (e : Nat) (o : Option Tile) : (s.supersede e o).cycle = s.cycle :=  by cases o <;> rfl
@[simp] theorem State.supersede_round (s : State) (e : Nat) (o : Option Tile) : (s.supersede e o).round = s.round :=  by cases o <;> rfl
@[simp] theorem State.supersede_seq (s : State) (e : Nat) (o : Option Tile) : (s.supersede e o).seq = s.seq :=  by cases o <;> rfl
@[simp] theorem State.supersede_fresh (s : State) (e : Nat) (o : Option Tile) : (s.supersede e o).fresh = s.fresh :=  by cases o <;> rfl
@[simp] theorem State.supersede_inputs (s : State) (e : Nat) (o : Option Tile) : (s.supersede e o).inputs = s.inputs :=  by cases o <;> rfl
@[simp] theorem State.supersede_occurrences (s : State) (e : Nat) (o : Option Tile) : (s.supersede e o).occurrences = s.occurrences :=  by cases o <;> rfl
@[simp] theorem State.supersede_unsent (s : State) (e : Nat) (o : Option Tile) : (s.supersede e o).unsent = s.unsent :=  by cases o <;> rfl
@[simp] theorem State.supersede_hostOut (s : State) (e : Nat) (o : Option Tile) : (s.supersede e o).hostOut = s.hostOut :=  by cases o <;> rfl
@[simp] theorem State.supersede_hostReplies (s : State) (e : Nat) (o : Option Tile) : (s.supersede e o).hostReplies = s.hostReplies :=  by cases o <;> rfl

/-! ### `State.markPend` leaves every field but `th` -/

@[simp] theorem State.markPend_tid (s : State) (r : DestReg) : (s.markPend r).tid = s.tid :=  by unfold State.markPend; split <;> rfl
@[simp] theorem State.markPend_parked (s : State) (r : DestReg) : (s.markPend r).parked = s.parked :=  by unfold State.markPend; split <;> rfl
@[simp] theorem State.markPend_mem (s : State) (r : DestReg) : (s.markPend r).mem = s.mem :=  by unfold State.markPend; split <;> rfl
@[simp] theorem State.markPend_poison (s : State) (r : DestReg) : (s.markPend r).poison = s.poison :=  by unfold State.markPend; split <;> rfl
@[simp] theorem State.markPend_cores (s : State) (r : DestReg) : (s.markPend r).cores = s.cores :=  by unfold State.markPend; split <;> rfl
@[simp] theorem State.markPend_quads (s : State) (r : DestReg) : (s.markPend r).quads = s.quads :=  by unfold State.markPend; split <;> rfl
@[simp] theorem State.markPend_sections (s : State) (r : DestReg) : (s.markPend r).sections = s.sections :=  by unfold State.markPend; split <;> rfl
@[simp] theorem State.markPend_gangs (s : State) (r : DestReg) : (s.markPend r).gangs = s.gangs :=  by unfold State.markPend; split <;> rfl
@[simp] theorem State.markPend_contexts (s : State) (r : DestReg) : (s.markPend r).contexts = s.contexts :=  by unfold State.markPend; split <;> rfl
@[simp] theorem State.markPend_dies (s : State) (r : DestReg) : (s.markPend r).dies = s.dies :=  by unfold State.markPend; split <;> rfl
@[simp] theorem State.markPend_regions (s : State) (r : DestReg) : (s.markPend r).regions = s.regions :=  by unfold State.markPend; split <;> rfl
@[simp] theorem State.markPend_forwards (s : State) (r : DestReg) : (s.markPend r).forwards = s.forwards :=  by unfold State.markPend; split <;> rfl
@[simp] theorem State.markPend_recordWrites (s : State) (r : DestReg) : (s.markPend r).recordWrites = s.recordWrites :=  by unfold State.markPend; split <;> rfl
@[simp] theorem State.markPend_keys (s : State) (r : DestReg) : (s.markPend r).keys = s.keys :=  by unfold State.markPend; split <;> rfl
@[simp] theorem State.markPend_podKeys (s : State) (r : DestReg) : (s.markPend r).podKeys = s.podKeys :=  by unfold State.markPend; split <;> rfl
@[simp] theorem State.markPend_storage (s : State) (r : DestReg) : (s.markPend r).storage = s.storage :=  by unfold State.markPend; split <;> rfl
@[simp] theorem State.markPend_weak (s : State) (r : DestReg) : (s.markPend r).weak = s.weak :=  by unfold State.markPend; split <;> rfl
@[simp] theorem State.markPend_frameMarks (s : State) (r : DestReg) : (s.markPend r).frameMarks = s.frameMarks :=  by unfold State.markPend; split <;> rfl
@[simp] theorem State.markPend_marks (s : State) (r : DestReg) : (s.markPend r).marks = s.marks :=  by unfold State.markPend; split <;> rfl
@[simp] theorem State.markPend_damaged (s : State) (r : DestReg) : (s.markPend r).damaged = s.damaged :=  by unfold State.markPend; split <;> rfl
@[simp] theorem State.markPend_rebuilds (s : State) (r : DestReg) : (s.markPend r).rebuilds = s.rebuilds :=  by unfold State.markPend; split <;> rfl
@[simp] theorem State.markPend_reservedReads (s : State) (r : DestReg) : (s.markPend r).reservedReads = s.reservedReads :=  by unfold State.markPend; split <;> rfl
@[simp] theorem State.markPend_pmc (s : State) (r : DestReg) : (s.markPend r).pmc = s.pmc :=  by unfold State.markPend; split <;> rfl
@[simp] theorem State.markPend_ports (s : State) (r : DestReg) : (s.markPend r).ports = s.ports :=  by unfold State.markPend; split <;> rfl
@[simp] theorem State.markPend_lost (s : State) (r : DestReg) : (s.markPend r).lost = s.lost :=  by unfold State.markPend; split <;> rfl
@[simp] theorem State.markPend_missed (s : State) (r : DestReg) : (s.markPend r).missed = s.missed :=  by unfold State.markPend; split <;> rfl
@[simp] theorem State.markPend_reported (s : State) (r : DestReg) : (s.markPend r).reported = s.reported :=  by unfold State.markPend; split <;> rfl
@[simp] theorem State.markPend_rerouting (s : State) (r : DestReg) : (s.markPend r).rerouting = s.rerouting :=  by unfold State.markPend; split <;> rfl
@[simp] theorem State.markPend_pod (s : State) (r : DestReg) : (s.markPend r).pod = s.pod :=  by unfold State.markPend; split <;> rfl
@[simp] theorem State.markPend_routes (s : State) (r : DestReg) : (s.markPend r).routes = s.routes :=  by unfold State.markPend; split <;> rfl
@[simp] theorem State.markPend_podObjects (s : State) (r : DestReg) : (s.markPend r).podObjects = s.podObjects :=  by unfold State.markPend; split <;> rfl
@[simp] theorem State.markPend_podAliases (s : State) (r : DestReg) : (s.markPend r).podAliases = s.podAliases :=  by unfold State.markPend; split <;> rfl
@[simp] theorem State.markPend_firmware (s : State) (r : DestReg) : (s.markPend r).firmware = s.firmware :=  by unfold State.markPend; split <;> rfl
@[simp] theorem State.markPend_hostWaits (s : State) (r : DestReg) : (s.markPend r).hostWaits = s.hostWaits :=  by unfold State.markPend; split <;> rfl
@[simp] theorem State.markPend_tout (s : State) (r : DestReg) : (s.markPend r).tout = s.tout :=  by unfold State.markPend; split <;> rfl
@[simp] theorem State.markPend_pkg (s : State) (r : DestReg) : (s.markPend r).pkg = s.pkg :=  by unfold State.markPend; split <;> rfl
@[simp] theorem State.markPend_cycle (s : State) (r : DestReg) : (s.markPend r).cycle = s.cycle :=  by unfold State.markPend; split <;> rfl
@[simp] theorem State.markPend_round (s : State) (r : DestReg) : (s.markPend r).round = s.round :=  by unfold State.markPend; split <;> rfl
@[simp] theorem State.markPend_seq (s : State) (r : DestReg) : (s.markPend r).seq = s.seq :=  by unfold State.markPend; split <;> rfl
@[simp] theorem State.markPend_fresh (s : State) (r : DestReg) : (s.markPend r).fresh = s.fresh :=  by unfold State.markPend; split <;> rfl
@[simp] theorem State.markPend_inputs (s : State) (r : DestReg) : (s.markPend r).inputs = s.inputs :=  by unfold State.markPend; split <;> rfl
@[simp] theorem State.markPend_occurrences (s : State) (r : DestReg) : (s.markPend r).occurrences = s.occurrences :=  by unfold State.markPend; split <;> rfl
@[simp] theorem State.markPend_unsent (s : State) (r : DestReg) : (s.markPend r).unsent = s.unsent :=  by unfold State.markPend; split <;> rfl
@[simp] theorem State.markPend_hostOut (s : State) (r : DestReg) : (s.markPend r).hostOut = s.hostOut :=  by unfold State.markPend; split <;> rfl
@[simp] theorem State.markPend_hostReplies (s : State) (r : DestReg) : (s.markPend r).hostReplies = s.hostReplies :=  by unfold State.markPend; split <;> rfl

/-! ### `State.logIn` leaves every field but `sections`, `pmc` -/

@[simp] theorem State.logIn_th (s : State) (n : Nat) (e : Event) : (s.logIn n e).th = s.th :=  rfl
@[simp] theorem State.logIn_tid (s : State) (n : Nat) (e : Event) : (s.logIn n e).tid = s.tid :=  rfl
@[simp] theorem State.logIn_parked (s : State) (n : Nat) (e : Event) : (s.logIn n e).parked = s.parked :=  rfl
@[simp] theorem State.logIn_mem (s : State) (n : Nat) (e : Event) : (s.logIn n e).mem = s.mem :=  rfl
@[simp] theorem State.logIn_poison (s : State) (n : Nat) (e : Event) : (s.logIn n e).poison = s.poison :=  rfl
@[simp] theorem State.logIn_cores (s : State) (n : Nat) (e : Event) : (s.logIn n e).cores = s.cores :=  rfl
@[simp] theorem State.logIn_quads (s : State) (n : Nat) (e : Event) : (s.logIn n e).quads = s.quads :=  rfl
@[simp] theorem State.logIn_gangs (s : State) (n : Nat) (e : Event) : (s.logIn n e).gangs = s.gangs :=  rfl
@[simp] theorem State.logIn_contexts (s : State) (n : Nat) (e : Event) : (s.logIn n e).contexts = s.contexts :=  rfl
@[simp] theorem State.logIn_dies (s : State) (n : Nat) (e : Event) : (s.logIn n e).dies = s.dies :=  rfl
@[simp] theorem State.logIn_regions (s : State) (n : Nat) (e : Event) : (s.logIn n e).regions = s.regions :=  rfl
@[simp] theorem State.logIn_forwards (s : State) (n : Nat) (e : Event) : (s.logIn n e).forwards = s.forwards :=  rfl
@[simp] theorem State.logIn_recordWrites (s : State) (n : Nat) (e : Event) : (s.logIn n e).recordWrites = s.recordWrites :=  rfl
@[simp] theorem State.logIn_keys (s : State) (n : Nat) (e : Event) : (s.logIn n e).keys = s.keys :=  rfl
@[simp] theorem State.logIn_podKeys (s : State) (n : Nat) (e : Event) : (s.logIn n e).podKeys = s.podKeys :=  rfl
@[simp] theorem State.logIn_storage (s : State) (n : Nat) (e : Event) : (s.logIn n e).storage = s.storage :=  rfl
@[simp] theorem State.logIn_weak (s : State) (n : Nat) (e : Event) : (s.logIn n e).weak = s.weak :=  rfl
@[simp] theorem State.logIn_frameMarks (s : State) (n : Nat) (e : Event) : (s.logIn n e).frameMarks = s.frameMarks :=  rfl
@[simp] theorem State.logIn_marks (s : State) (n : Nat) (e : Event) : (s.logIn n e).marks = s.marks :=  rfl
@[simp] theorem State.logIn_damaged (s : State) (n : Nat) (e : Event) : (s.logIn n e).damaged = s.damaged :=  rfl
@[simp] theorem State.logIn_rebuilds (s : State) (n : Nat) (e : Event) : (s.logIn n e).rebuilds = s.rebuilds :=  rfl
@[simp] theorem State.logIn_reservedReads (s : State) (n : Nat) (e : Event) : (s.logIn n e).reservedReads = s.reservedReads :=  rfl
@[simp] theorem State.logIn_ports (s : State) (n : Nat) (e : Event) : (s.logIn n e).ports = s.ports :=  rfl
@[simp] theorem State.logIn_lost (s : State) (n : Nat) (e : Event) : (s.logIn n e).lost = s.lost :=  rfl
@[simp] theorem State.logIn_missed (s : State) (n : Nat) (e : Event) : (s.logIn n e).missed = s.missed :=  rfl
@[simp] theorem State.logIn_reported (s : State) (n : Nat) (e : Event) : (s.logIn n e).reported = s.reported :=  rfl
@[simp] theorem State.logIn_rerouting (s : State) (n : Nat) (e : Event) : (s.logIn n e).rerouting = s.rerouting :=  rfl
@[simp] theorem State.logIn_pod (s : State) (n : Nat) (e : Event) : (s.logIn n e).pod = s.pod :=  rfl
@[simp] theorem State.logIn_routes (s : State) (n : Nat) (e : Event) : (s.logIn n e).routes = s.routes :=  rfl
@[simp] theorem State.logIn_podObjects (s : State) (n : Nat) (e : Event) : (s.logIn n e).podObjects = s.podObjects :=  rfl
@[simp] theorem State.logIn_podAliases (s : State) (n : Nat) (e : Event) : (s.logIn n e).podAliases = s.podAliases :=  rfl
@[simp] theorem State.logIn_firmware (s : State) (n : Nat) (e : Event) : (s.logIn n e).firmware = s.firmware :=  rfl
@[simp] theorem State.logIn_hostWaits (s : State) (n : Nat) (e : Event) : (s.logIn n e).hostWaits = s.hostWaits :=  rfl
@[simp] theorem State.logIn_tout (s : State) (n : Nat) (e : Event) : (s.logIn n e).tout = s.tout :=  rfl
@[simp] theorem State.logIn_pkg (s : State) (n : Nat) (e : Event) : (s.logIn n e).pkg = s.pkg :=  rfl
@[simp] theorem State.logIn_cycle (s : State) (n : Nat) (e : Event) : (s.logIn n e).cycle = s.cycle :=  rfl
@[simp] theorem State.logIn_round (s : State) (n : Nat) (e : Event) : (s.logIn n e).round = s.round :=  rfl
@[simp] theorem State.logIn_seq (s : State) (n : Nat) (e : Event) : (s.logIn n e).seq = s.seq :=  rfl
@[simp] theorem State.logIn_fresh (s : State) (n : Nat) (e : Event) : (s.logIn n e).fresh = s.fresh :=  rfl
@[simp] theorem State.logIn_inputs (s : State) (n : Nat) (e : Event) : (s.logIn n e).inputs = s.inputs :=  rfl
@[simp] theorem State.logIn_occurrences (s : State) (n : Nat) (e : Event) : (s.logIn n e).occurrences = s.occurrences :=  rfl
@[simp] theorem State.logIn_unsent (s : State) (n : Nat) (e : Event) : (s.logIn n e).unsent = s.unsent :=  rfl
@[simp] theorem State.logIn_hostOut (s : State) (n : Nat) (e : Event) : (s.logIn n e).hostOut = s.hostOut :=  rfl
@[simp] theorem State.logIn_hostReplies (s : State) (n : Nat) (e : Event) : (s.logIn n e).hostReplies = s.hostReplies :=  rfl

/-! ### `State.logPackage` leaves every field but `pmc` -/

@[simp] theorem State.logPackage_th (s : State) (e : Event) : (s.logPackage e).th = s.th :=  rfl
@[simp] theorem State.logPackage_tid (s : State) (e : Event) : (s.logPackage e).tid = s.tid :=  rfl
@[simp] theorem State.logPackage_parked (s : State) (e : Event) : (s.logPackage e).parked = s.parked :=  rfl
@[simp] theorem State.logPackage_mem (s : State) (e : Event) : (s.logPackage e).mem = s.mem :=  rfl
@[simp] theorem State.logPackage_poison (s : State) (e : Event) : (s.logPackage e).poison = s.poison :=  rfl
@[simp] theorem State.logPackage_cores (s : State) (e : Event) : (s.logPackage e).cores = s.cores :=  rfl
@[simp] theorem State.logPackage_quads (s : State) (e : Event) : (s.logPackage e).quads = s.quads :=  rfl
@[simp] theorem State.logPackage_sections (s : State) (e : Event) : (s.logPackage e).sections = s.sections :=  rfl
@[simp] theorem State.logPackage_gangs (s : State) (e : Event) : (s.logPackage e).gangs = s.gangs :=  rfl
@[simp] theorem State.logPackage_contexts (s : State) (e : Event) : (s.logPackage e).contexts = s.contexts :=  rfl
@[simp] theorem State.logPackage_dies (s : State) (e : Event) : (s.logPackage e).dies = s.dies :=  rfl
@[simp] theorem State.logPackage_regions (s : State) (e : Event) : (s.logPackage e).regions = s.regions :=  rfl
@[simp] theorem State.logPackage_forwards (s : State) (e : Event) : (s.logPackage e).forwards = s.forwards :=  rfl
@[simp] theorem State.logPackage_recordWrites (s : State) (e : Event) : (s.logPackage e).recordWrites = s.recordWrites :=  rfl
@[simp] theorem State.logPackage_keys (s : State) (e : Event) : (s.logPackage e).keys = s.keys :=  rfl
@[simp] theorem State.logPackage_podKeys (s : State) (e : Event) : (s.logPackage e).podKeys = s.podKeys :=  rfl
@[simp] theorem State.logPackage_storage (s : State) (e : Event) : (s.logPackage e).storage = s.storage :=  rfl
@[simp] theorem State.logPackage_weak (s : State) (e : Event) : (s.logPackage e).weak = s.weak :=  rfl
@[simp] theorem State.logPackage_frameMarks (s : State) (e : Event) : (s.logPackage e).frameMarks = s.frameMarks :=  rfl
@[simp] theorem State.logPackage_marks (s : State) (e : Event) : (s.logPackage e).marks = s.marks :=  rfl
@[simp] theorem State.logPackage_damaged (s : State) (e : Event) : (s.logPackage e).damaged = s.damaged :=  rfl
@[simp] theorem State.logPackage_rebuilds (s : State) (e : Event) : (s.logPackage e).rebuilds = s.rebuilds :=  rfl
@[simp] theorem State.logPackage_reservedReads (s : State) (e : Event) : (s.logPackage e).reservedReads = s.reservedReads :=  rfl
@[simp] theorem State.logPackage_ports (s : State) (e : Event) : (s.logPackage e).ports = s.ports :=  rfl
@[simp] theorem State.logPackage_lost (s : State) (e : Event) : (s.logPackage e).lost = s.lost :=  rfl
@[simp] theorem State.logPackage_missed (s : State) (e : Event) : (s.logPackage e).missed = s.missed :=  rfl
@[simp] theorem State.logPackage_reported (s : State) (e : Event) : (s.logPackage e).reported = s.reported :=  rfl
@[simp] theorem State.logPackage_rerouting (s : State) (e : Event) : (s.logPackage e).rerouting = s.rerouting :=  rfl
@[simp] theorem State.logPackage_pod (s : State) (e : Event) : (s.logPackage e).pod = s.pod :=  rfl
@[simp] theorem State.logPackage_routes (s : State) (e : Event) : (s.logPackage e).routes = s.routes :=  rfl
@[simp] theorem State.logPackage_podObjects (s : State) (e : Event) : (s.logPackage e).podObjects = s.podObjects :=  rfl
@[simp] theorem State.logPackage_podAliases (s : State) (e : Event) : (s.logPackage e).podAliases = s.podAliases :=  rfl
@[simp] theorem State.logPackage_firmware (s : State) (e : Event) : (s.logPackage e).firmware = s.firmware :=  rfl
@[simp] theorem State.logPackage_hostWaits (s : State) (e : Event) : (s.logPackage e).hostWaits = s.hostWaits :=  rfl
@[simp] theorem State.logPackage_tout (s : State) (e : Event) : (s.logPackage e).tout = s.tout :=  rfl
@[simp] theorem State.logPackage_pkg (s : State) (e : Event) : (s.logPackage e).pkg = s.pkg :=  rfl
@[simp] theorem State.logPackage_cycle (s : State) (e : Event) : (s.logPackage e).cycle = s.cycle :=  rfl
@[simp] theorem State.logPackage_round (s : State) (e : Event) : (s.logPackage e).round = s.round :=  rfl
@[simp] theorem State.logPackage_seq (s : State) (e : Event) : (s.logPackage e).seq = s.seq :=  rfl
@[simp] theorem State.logPackage_fresh (s : State) (e : Event) : (s.logPackage e).fresh = s.fresh :=  rfl
@[simp] theorem State.logPackage_inputs (s : State) (e : Event) : (s.logPackage e).inputs = s.inputs :=  rfl
@[simp] theorem State.logPackage_occurrences (s : State) (e : Event) : (s.logPackage e).occurrences = s.occurrences :=  rfl
@[simp] theorem State.logPackage_unsent (s : State) (e : Event) : (s.logPackage e).unsent = s.unsent :=  rfl
@[simp] theorem State.logPackage_hostOut (s : State) (e : Event) : (s.logPackage e).hostOut = s.hostOut :=  rfl
@[simp] theorem State.logPackage_hostReplies (s : State) (e : Event) : (s.logPackage e).hostReplies = s.hostReplies :=  rfl

/-! ### `pushHold` leaves every field but `cores`, `th`, `parked`, `seq` -/

@[simp] theorem pushHold_tid (s : State) (t : Nat) (e : HeldEffect) (ts : List (Nat × Nat)) : (pushHold s t e ts).tid = s.tid :=  by simp [pushHold]
@[simp] theorem pushHold_mem (s : State) (t : Nat) (e : HeldEffect) (ts : List (Nat × Nat)) : (pushHold s t e ts).mem = s.mem :=  by simp [pushHold]
@[simp] theorem pushHold_poison (s : State) (t : Nat) (e : HeldEffect) (ts : List (Nat × Nat)) : (pushHold s t e ts).poison = s.poison :=  by simp [pushHold]
@[simp] theorem pushHold_quads (s : State) (t : Nat) (e : HeldEffect) (ts : List (Nat × Nat)) : (pushHold s t e ts).quads = s.quads :=  by simp [pushHold]
@[simp] theorem pushHold_sections (s : State) (t : Nat) (e : HeldEffect) (ts : List (Nat × Nat)) : (pushHold s t e ts).sections = s.sections :=  by simp [pushHold]
@[simp] theorem pushHold_gangs (s : State) (t : Nat) (e : HeldEffect) (ts : List (Nat × Nat)) : (pushHold s t e ts).gangs = s.gangs :=  by simp [pushHold]
@[simp] theorem pushHold_contexts (s : State) (t : Nat) (e : HeldEffect) (ts : List (Nat × Nat)) : (pushHold s t e ts).contexts = s.contexts :=  by simp [pushHold]
@[simp] theorem pushHold_dies (s : State) (t : Nat) (e : HeldEffect) (ts : List (Nat × Nat)) : (pushHold s t e ts).dies = s.dies :=  by simp [pushHold]
@[simp] theorem pushHold_regions (s : State) (t : Nat) (e : HeldEffect) (ts : List (Nat × Nat)) : (pushHold s t e ts).regions = s.regions :=  by simp [pushHold]
@[simp] theorem pushHold_forwards (s : State) (t : Nat) (e : HeldEffect) (ts : List (Nat × Nat)) : (pushHold s t e ts).forwards = s.forwards :=  by simp [pushHold]
@[simp] theorem pushHold_recordWrites (s : State) (t : Nat) (e : HeldEffect) (ts : List (Nat × Nat)) : (pushHold s t e ts).recordWrites = s.recordWrites :=  by simp [pushHold]
@[simp] theorem pushHold_keys (s : State) (t : Nat) (e : HeldEffect) (ts : List (Nat × Nat)) : (pushHold s t e ts).keys = s.keys :=  by simp [pushHold]
@[simp] theorem pushHold_podKeys (s : State) (t : Nat) (e : HeldEffect) (ts : List (Nat × Nat)) : (pushHold s t e ts).podKeys = s.podKeys :=  by simp [pushHold]
@[simp] theorem pushHold_storage (s : State) (t : Nat) (e : HeldEffect) (ts : List (Nat × Nat)) : (pushHold s t e ts).storage = s.storage :=  by simp [pushHold]
@[simp] theorem pushHold_weak (s : State) (t : Nat) (e : HeldEffect) (ts : List (Nat × Nat)) : (pushHold s t e ts).weak = s.weak :=  by simp [pushHold]
@[simp] theorem pushHold_frameMarks (s : State) (t : Nat) (e : HeldEffect) (ts : List (Nat × Nat)) : (pushHold s t e ts).frameMarks = s.frameMarks :=  by simp [pushHold]
@[simp] theorem pushHold_marks (s : State) (t : Nat) (e : HeldEffect) (ts : List (Nat × Nat)) : (pushHold s t e ts).marks = s.marks :=  by simp [pushHold]
@[simp] theorem pushHold_damaged (s : State) (t : Nat) (e : HeldEffect) (ts : List (Nat × Nat)) : (pushHold s t e ts).damaged = s.damaged :=  by simp [pushHold]
@[simp] theorem pushHold_rebuilds (s : State) (t : Nat) (e : HeldEffect) (ts : List (Nat × Nat)) : (pushHold s t e ts).rebuilds = s.rebuilds :=  by simp [pushHold]
@[simp] theorem pushHold_reservedReads (s : State) (t : Nat) (e : HeldEffect) (ts : List (Nat × Nat)) : (pushHold s t e ts).reservedReads = s.reservedReads :=  by simp [pushHold]
@[simp] theorem pushHold_pmc (s : State) (t : Nat) (e : HeldEffect) (ts : List (Nat × Nat)) : (pushHold s t e ts).pmc = s.pmc :=  by simp [pushHold]
@[simp] theorem pushHold_ports (s : State) (t : Nat) (e : HeldEffect) (ts : List (Nat × Nat)) : (pushHold s t e ts).ports = s.ports :=  by simp [pushHold]
@[simp] theorem pushHold_lost (s : State) (t : Nat) (e : HeldEffect) (ts : List (Nat × Nat)) : (pushHold s t e ts).lost = s.lost :=  by simp [pushHold]
@[simp] theorem pushHold_missed (s : State) (t : Nat) (e : HeldEffect) (ts : List (Nat × Nat)) : (pushHold s t e ts).missed = s.missed :=  by simp [pushHold]
@[simp] theorem pushHold_reported (s : State) (t : Nat) (e : HeldEffect) (ts : List (Nat × Nat)) : (pushHold s t e ts).reported = s.reported :=  by simp [pushHold]
@[simp] theorem pushHold_rerouting (s : State) (t : Nat) (e : HeldEffect) (ts : List (Nat × Nat)) : (pushHold s t e ts).rerouting = s.rerouting :=  by simp [pushHold]
@[simp] theorem pushHold_pod (s : State) (t : Nat) (e : HeldEffect) (ts : List (Nat × Nat)) : (pushHold s t e ts).pod = s.pod :=  by simp [pushHold]
@[simp] theorem pushHold_routes (s : State) (t : Nat) (e : HeldEffect) (ts : List (Nat × Nat)) : (pushHold s t e ts).routes = s.routes :=  by simp [pushHold]
@[simp] theorem pushHold_podObjects (s : State) (t : Nat) (e : HeldEffect) (ts : List (Nat × Nat)) : (pushHold s t e ts).podObjects = s.podObjects :=  by simp [pushHold]
@[simp] theorem pushHold_podAliases (s : State) (t : Nat) (e : HeldEffect) (ts : List (Nat × Nat)) : (pushHold s t e ts).podAliases = s.podAliases :=  by simp [pushHold]
@[simp] theorem pushHold_firmware (s : State) (t : Nat) (e : HeldEffect) (ts : List (Nat × Nat)) : (pushHold s t e ts).firmware = s.firmware :=  by simp [pushHold]
@[simp] theorem pushHold_hostWaits (s : State) (t : Nat) (e : HeldEffect) (ts : List (Nat × Nat)) : (pushHold s t e ts).hostWaits = s.hostWaits :=  by simp [pushHold]
@[simp] theorem pushHold_tout (s : State) (t : Nat) (e : HeldEffect) (ts : List (Nat × Nat)) : (pushHold s t e ts).tout = s.tout :=  by simp [pushHold]
@[simp] theorem pushHold_pkg (s : State) (t : Nat) (e : HeldEffect) (ts : List (Nat × Nat)) : (pushHold s t e ts).pkg = s.pkg :=  by simp [pushHold]
@[simp] theorem pushHold_cycle (s : State) (t : Nat) (e : HeldEffect) (ts : List (Nat × Nat)) : (pushHold s t e ts).cycle = s.cycle :=  by simp [pushHold]
@[simp] theorem pushHold_round (s : State) (t : Nat) (e : HeldEffect) (ts : List (Nat × Nat)) : (pushHold s t e ts).round = s.round :=  by simp [pushHold]
@[simp] theorem pushHold_fresh (s : State) (t : Nat) (e : HeldEffect) (ts : List (Nat × Nat)) : (pushHold s t e ts).fresh = s.fresh :=  by simp [pushHold]
@[simp] theorem pushHold_inputs (s : State) (t : Nat) (e : HeldEffect) (ts : List (Nat × Nat)) : (pushHold s t e ts).inputs = s.inputs :=  by simp [pushHold]
@[simp] theorem pushHold_occurrences (s : State) (t : Nat) (e : HeldEffect) (ts : List (Nat × Nat)) : (pushHold s t e ts).occurrences = s.occurrences :=  by simp [pushHold]
@[simp] theorem pushHold_unsent (s : State) (t : Nat) (e : HeldEffect) (ts : List (Nat × Nat)) : (pushHold s t e ts).unsent = s.unsent :=  by simp [pushHold]
@[simp] theorem pushHold_hostOut (s : State) (t : Nat) (e : HeldEffect) (ts : List (Nat × Nat)) : (pushHold s t e ts).hostOut = s.hostOut :=  by simp [pushHold]
@[simp] theorem pushHold_hostReplies (s : State) (t : Nat) (e : HeldEffect) (ts : List (Nat × Nat)) : (pushHold s t e ts).hostReplies = s.hostReplies :=  by simp [pushHold]

/-! ### `State.claimEntries` leaves every field but `cores` -/

@[simp] theorem State.claimEntries_th (s : State) : (s.claimEntries).th = s.th :=  by unfold State.claimEntries; dsimp only; split <;> rfl
@[simp] theorem State.claimEntries_tid (s : State) : (s.claimEntries).tid = s.tid :=  by unfold State.claimEntries; dsimp only; split <;> rfl
@[simp] theorem State.claimEntries_parked (s : State) : (s.claimEntries).parked = s.parked :=  by unfold State.claimEntries; dsimp only; split <;> rfl
@[simp] theorem State.claimEntries_mem (s : State) : (s.claimEntries).mem = s.mem :=  by unfold State.claimEntries; dsimp only; split <;> rfl
@[simp] theorem State.claimEntries_poison (s : State) : (s.claimEntries).poison = s.poison :=  by unfold State.claimEntries; dsimp only; split <;> rfl
@[simp] theorem State.claimEntries_quads (s : State) : (s.claimEntries).quads = s.quads :=  by unfold State.claimEntries; dsimp only; split <;> rfl
@[simp] theorem State.claimEntries_sections (s : State) : (s.claimEntries).sections = s.sections :=  by unfold State.claimEntries; dsimp only; split <;> rfl
@[simp] theorem State.claimEntries_gangs (s : State) : (s.claimEntries).gangs = s.gangs :=  by unfold State.claimEntries; dsimp only; split <;> rfl
@[simp] theorem State.claimEntries_contexts (s : State) : (s.claimEntries).contexts = s.contexts :=  by unfold State.claimEntries; dsimp only; split <;> rfl
@[simp] theorem State.claimEntries_dies (s : State) : (s.claimEntries).dies = s.dies :=  by unfold State.claimEntries; dsimp only; split <;> rfl
@[simp] theorem State.claimEntries_regions (s : State) : (s.claimEntries).regions = s.regions :=  by unfold State.claimEntries; dsimp only; split <;> rfl
@[simp] theorem State.claimEntries_forwards (s : State) : (s.claimEntries).forwards = s.forwards :=  by unfold State.claimEntries; dsimp only; split <;> rfl
@[simp] theorem State.claimEntries_recordWrites (s : State) : (s.claimEntries).recordWrites = s.recordWrites :=  by unfold State.claimEntries; dsimp only; split <;> rfl
@[simp] theorem State.claimEntries_keys (s : State) : (s.claimEntries).keys = s.keys :=  by unfold State.claimEntries; dsimp only; split <;> rfl
@[simp] theorem State.claimEntries_podKeys (s : State) : (s.claimEntries).podKeys = s.podKeys :=  by unfold State.claimEntries; dsimp only; split <;> rfl
@[simp] theorem State.claimEntries_storage (s : State) : (s.claimEntries).storage = s.storage :=  by unfold State.claimEntries; dsimp only; split <;> rfl
@[simp] theorem State.claimEntries_weak (s : State) : (s.claimEntries).weak = s.weak :=  by unfold State.claimEntries; dsimp only; split <;> rfl
@[simp] theorem State.claimEntries_frameMarks (s : State) : (s.claimEntries).frameMarks = s.frameMarks :=  by unfold State.claimEntries; dsimp only; split <;> rfl
@[simp] theorem State.claimEntries_marks (s : State) : (s.claimEntries).marks = s.marks :=  by unfold State.claimEntries; dsimp only; split <;> rfl
@[simp] theorem State.claimEntries_damaged (s : State) : (s.claimEntries).damaged = s.damaged :=  by unfold State.claimEntries; dsimp only; split <;> rfl
@[simp] theorem State.claimEntries_rebuilds (s : State) : (s.claimEntries).rebuilds = s.rebuilds :=  by unfold State.claimEntries; dsimp only; split <;> rfl
@[simp] theorem State.claimEntries_reservedReads (s : State) : (s.claimEntries).reservedReads = s.reservedReads :=  by unfold State.claimEntries; dsimp only; split <;> rfl
@[simp] theorem State.claimEntries_pmc (s : State) : (s.claimEntries).pmc = s.pmc :=  by unfold State.claimEntries; dsimp only; split <;> rfl
@[simp] theorem State.claimEntries_ports (s : State) : (s.claimEntries).ports = s.ports :=  by unfold State.claimEntries; dsimp only; split <;> rfl
@[simp] theorem State.claimEntries_lost (s : State) : (s.claimEntries).lost = s.lost :=  by unfold State.claimEntries; dsimp only; split <;> rfl
@[simp] theorem State.claimEntries_missed (s : State) : (s.claimEntries).missed = s.missed :=  by unfold State.claimEntries; dsimp only; split <;> rfl
@[simp] theorem State.claimEntries_reported (s : State) : (s.claimEntries).reported = s.reported :=  by unfold State.claimEntries; dsimp only; split <;> rfl
@[simp] theorem State.claimEntries_rerouting (s : State) : (s.claimEntries).rerouting = s.rerouting :=  by unfold State.claimEntries; dsimp only; split <;> rfl
@[simp] theorem State.claimEntries_pod (s : State) : (s.claimEntries).pod = s.pod :=  by unfold State.claimEntries; dsimp only; split <;> rfl
@[simp] theorem State.claimEntries_routes (s : State) : (s.claimEntries).routes = s.routes :=  by unfold State.claimEntries; dsimp only; split <;> rfl
@[simp] theorem State.claimEntries_podObjects (s : State) : (s.claimEntries).podObjects = s.podObjects :=  by unfold State.claimEntries; dsimp only; split <;> rfl
@[simp] theorem State.claimEntries_podAliases (s : State) : (s.claimEntries).podAliases = s.podAliases :=  by unfold State.claimEntries; dsimp only; split <;> rfl
@[simp] theorem State.claimEntries_firmware (s : State) : (s.claimEntries).firmware = s.firmware :=  by unfold State.claimEntries; dsimp only; split <;> rfl
@[simp] theorem State.claimEntries_hostWaits (s : State) : (s.claimEntries).hostWaits = s.hostWaits :=  by unfold State.claimEntries; dsimp only; split <;> rfl
@[simp] theorem State.claimEntries_tout (s : State) : (s.claimEntries).tout = s.tout :=  by unfold State.claimEntries; dsimp only; split <;> rfl
@[simp] theorem State.claimEntries_pkg (s : State) : (s.claimEntries).pkg = s.pkg :=  by unfold State.claimEntries; dsimp only; split <;> rfl
@[simp] theorem State.claimEntries_cycle (s : State) : (s.claimEntries).cycle = s.cycle :=  by unfold State.claimEntries; dsimp only; split <;> rfl
@[simp] theorem State.claimEntries_round (s : State) : (s.claimEntries).round = s.round :=  by unfold State.claimEntries; dsimp only; split <;> rfl
@[simp] theorem State.claimEntries_seq (s : State) : (s.claimEntries).seq = s.seq :=  by unfold State.claimEntries; dsimp only; split <;> rfl
@[simp] theorem State.claimEntries_fresh (s : State) : (s.claimEntries).fresh = s.fresh :=  by unfold State.claimEntries; dsimp only; split <;> rfl
@[simp] theorem State.claimEntries_inputs (s : State) : (s.claimEntries).inputs = s.inputs :=  by unfold State.claimEntries; dsimp only; split <;> rfl
@[simp] theorem State.claimEntries_occurrences (s : State) : (s.claimEntries).occurrences = s.occurrences :=  by unfold State.claimEntries; dsimp only; split <;> rfl
@[simp] theorem State.claimEntries_unsent (s : State) : (s.claimEntries).unsent = s.unsent :=  by unfold State.claimEntries; dsimp only; split <;> rfl
@[simp] theorem State.claimEntries_hostOut (s : State) : (s.claimEntries).hostOut = s.hostOut :=  by unfold State.claimEntries; dsimp only; split <;> rfl
@[simp] theorem State.claimEntries_hostReplies (s : State) : (s.claimEntries).hostReplies = s.hostReplies :=  by unfold State.claimEntries; dsimp only; split <;> rfl

/-! ### `State.spendEpoch` leaves every field but `quads`, `th` -/

@[simp] theorem State.spendEpoch_tid (s : State) (n : Nat) : (s.spendEpoch n).tid = s.tid :=  rfl
@[simp] theorem State.spendEpoch_parked (s : State) (n : Nat) : (s.spendEpoch n).parked = s.parked :=  rfl
@[simp] theorem State.spendEpoch_mem (s : State) (n : Nat) : (s.spendEpoch n).mem = s.mem :=  rfl
@[simp] theorem State.spendEpoch_poison (s : State) (n : Nat) : (s.spendEpoch n).poison = s.poison :=  rfl
@[simp] theorem State.spendEpoch_cores (s : State) (n : Nat) : (s.spendEpoch n).cores = s.cores :=  rfl
@[simp] theorem State.spendEpoch_sections (s : State) (n : Nat) : (s.spendEpoch n).sections = s.sections :=  rfl
@[simp] theorem State.spendEpoch_gangs (s : State) (n : Nat) : (s.spendEpoch n).gangs = s.gangs :=  rfl
@[simp] theorem State.spendEpoch_contexts (s : State) (n : Nat) : (s.spendEpoch n).contexts = s.contexts :=  rfl
@[simp] theorem State.spendEpoch_dies (s : State) (n : Nat) : (s.spendEpoch n).dies = s.dies :=  rfl
@[simp] theorem State.spendEpoch_regions (s : State) (n : Nat) : (s.spendEpoch n).regions = s.regions :=  rfl
@[simp] theorem State.spendEpoch_forwards (s : State) (n : Nat) : (s.spendEpoch n).forwards = s.forwards :=  rfl
@[simp] theorem State.spendEpoch_recordWrites (s : State) (n : Nat) : (s.spendEpoch n).recordWrites = s.recordWrites :=  rfl
@[simp] theorem State.spendEpoch_keys (s : State) (n : Nat) : (s.spendEpoch n).keys = s.keys :=  rfl
@[simp] theorem State.spendEpoch_podKeys (s : State) (n : Nat) : (s.spendEpoch n).podKeys = s.podKeys :=  rfl
@[simp] theorem State.spendEpoch_storage (s : State) (n : Nat) : (s.spendEpoch n).storage = s.storage :=  rfl
@[simp] theorem State.spendEpoch_weak (s : State) (n : Nat) : (s.spendEpoch n).weak = s.weak :=  rfl
@[simp] theorem State.spendEpoch_frameMarks (s : State) (n : Nat) : (s.spendEpoch n).frameMarks = s.frameMarks :=  rfl
@[simp] theorem State.spendEpoch_marks (s : State) (n : Nat) : (s.spendEpoch n).marks = s.marks :=  rfl
@[simp] theorem State.spendEpoch_damaged (s : State) (n : Nat) : (s.spendEpoch n).damaged = s.damaged :=  rfl
@[simp] theorem State.spendEpoch_rebuilds (s : State) (n : Nat) : (s.spendEpoch n).rebuilds = s.rebuilds :=  rfl
@[simp] theorem State.spendEpoch_reservedReads (s : State) (n : Nat) : (s.spendEpoch n).reservedReads = s.reservedReads :=  rfl
@[simp] theorem State.spendEpoch_pmc (s : State) (n : Nat) : (s.spendEpoch n).pmc = s.pmc :=  rfl
@[simp] theorem State.spendEpoch_ports (s : State) (n : Nat) : (s.spendEpoch n).ports = s.ports :=  rfl
@[simp] theorem State.spendEpoch_lost (s : State) (n : Nat) : (s.spendEpoch n).lost = s.lost :=  rfl
@[simp] theorem State.spendEpoch_missed (s : State) (n : Nat) : (s.spendEpoch n).missed = s.missed :=  rfl
@[simp] theorem State.spendEpoch_reported (s : State) (n : Nat) : (s.spendEpoch n).reported = s.reported :=  rfl
@[simp] theorem State.spendEpoch_rerouting (s : State) (n : Nat) : (s.spendEpoch n).rerouting = s.rerouting :=  rfl
@[simp] theorem State.spendEpoch_pod (s : State) (n : Nat) : (s.spendEpoch n).pod = s.pod :=  rfl
@[simp] theorem State.spendEpoch_routes (s : State) (n : Nat) : (s.spendEpoch n).routes = s.routes :=  rfl
@[simp] theorem State.spendEpoch_podObjects (s : State) (n : Nat) : (s.spendEpoch n).podObjects = s.podObjects :=  rfl
@[simp] theorem State.spendEpoch_podAliases (s : State) (n : Nat) : (s.spendEpoch n).podAliases = s.podAliases :=  rfl
@[simp] theorem State.spendEpoch_firmware (s : State) (n : Nat) : (s.spendEpoch n).firmware = s.firmware :=  rfl
@[simp] theorem State.spendEpoch_hostWaits (s : State) (n : Nat) : (s.spendEpoch n).hostWaits = s.hostWaits :=  rfl
@[simp] theorem State.spendEpoch_tout (s : State) (n : Nat) : (s.spendEpoch n).tout = s.tout :=  rfl
@[simp] theorem State.spendEpoch_pkg (s : State) (n : Nat) : (s.spendEpoch n).pkg = s.pkg :=  rfl
@[simp] theorem State.spendEpoch_cycle (s : State) (n : Nat) : (s.spendEpoch n).cycle = s.cycle :=  rfl
@[simp] theorem State.spendEpoch_round (s : State) (n : Nat) : (s.spendEpoch n).round = s.round :=  rfl
@[simp] theorem State.spendEpoch_seq (s : State) (n : Nat) : (s.spendEpoch n).seq = s.seq :=  rfl
@[simp] theorem State.spendEpoch_fresh (s : State) (n : Nat) : (s.spendEpoch n).fresh = s.fresh :=  rfl
@[simp] theorem State.spendEpoch_inputs (s : State) (n : Nat) : (s.spendEpoch n).inputs = s.inputs :=  rfl
@[simp] theorem State.spendEpoch_occurrences (s : State) (n : Nat) : (s.spendEpoch n).occurrences = s.occurrences :=  rfl
@[simp] theorem State.spendEpoch_unsent (s : State) (n : Nat) : (s.spendEpoch n).unsent = s.unsent :=  rfl
@[simp] theorem State.spendEpoch_hostOut (s : State) (n : Nat) : (s.spendEpoch n).hostOut = s.hostOut :=  rfl
@[simp] theorem State.spendEpoch_hostReplies (s : State) (n : Nat) : (s.spendEpoch n).hostReplies = s.hostReplies :=  rfl

/-! ### `State.startTransfer` leaves every field but `regions` -/

@[simp] theorem State.startTransfer_th (s : State) (r : Nat) (h : Bool) (o : Option (Nat × Nat)) : (s.startTransfer r h o).th = s.th := by
  unfold State.startTransfer; split; · rfl
  · split <;> rfl
@[simp] theorem State.startTransfer_tid (s : State) (r : Nat) (h : Bool) (o : Option (Nat × Nat)) : (s.startTransfer r h o).tid = s.tid := by
  unfold State.startTransfer; split; · rfl
  · split <;> rfl
@[simp] theorem State.startTransfer_parked (s : State) (r : Nat) (h : Bool) (o : Option (Nat × Nat)) : (s.startTransfer r h o).parked = s.parked := by
  unfold State.startTransfer; split; · rfl
  · split <;> rfl
@[simp] theorem State.startTransfer_mem (s : State) (r : Nat) (h : Bool) (o : Option (Nat × Nat)) : (s.startTransfer r h o).mem = s.mem := by
  unfold State.startTransfer; split; · rfl
  · split <;> rfl
@[simp] theorem State.startTransfer_poison (s : State) (r : Nat) (h : Bool) (o : Option (Nat × Nat)) : (s.startTransfer r h o).poison = s.poison := by
  unfold State.startTransfer; split; · rfl
  · split <;> rfl
@[simp] theorem State.startTransfer_cores (s : State) (r : Nat) (h : Bool) (o : Option (Nat × Nat)) : (s.startTransfer r h o).cores = s.cores := by
  unfold State.startTransfer; split; · rfl
  · split <;> rfl
@[simp] theorem State.startTransfer_quads (s : State) (r : Nat) (h : Bool) (o : Option (Nat × Nat)) : (s.startTransfer r h o).quads = s.quads := by
  unfold State.startTransfer; split; · rfl
  · split <;> rfl
@[simp] theorem State.startTransfer_sections (s : State) (r : Nat) (h : Bool) (o : Option (Nat × Nat)) : (s.startTransfer r h o).sections = s.sections := by
  unfold State.startTransfer; split; · rfl
  · split <;> rfl
@[simp] theorem State.startTransfer_gangs (s : State) (r : Nat) (h : Bool) (o : Option (Nat × Nat)) : (s.startTransfer r h o).gangs = s.gangs := by
  unfold State.startTransfer; split; · rfl
  · split <;> rfl
@[simp] theorem State.startTransfer_contexts (s : State) (r : Nat) (h : Bool) (o : Option (Nat × Nat)) : (s.startTransfer r h o).contexts = s.contexts := by
  unfold State.startTransfer; split; · rfl
  · split <;> rfl
@[simp] theorem State.startTransfer_dies (s : State) (r : Nat) (h : Bool) (o : Option (Nat × Nat)) : (s.startTransfer r h o).dies = s.dies := by
  unfold State.startTransfer; split; · rfl
  · split <;> rfl
@[simp] theorem State.startTransfer_forwards (s : State) (r : Nat) (h : Bool) (o : Option (Nat × Nat)) : (s.startTransfer r h o).forwards = s.forwards := by
  unfold State.startTransfer; split; · rfl
  · split <;> rfl
@[simp] theorem State.startTransfer_recordWrites (s : State) (r : Nat) (h : Bool) (o : Option (Nat × Nat)) : (s.startTransfer r h o).recordWrites = s.recordWrites := by
  unfold State.startTransfer; split; · rfl
  · split <;> rfl
@[simp] theorem State.startTransfer_keys (s : State) (r : Nat) (h : Bool) (o : Option (Nat × Nat)) : (s.startTransfer r h o).keys = s.keys := by
  unfold State.startTransfer; split; · rfl
  · split <;> rfl
@[simp] theorem State.startTransfer_podKeys (s : State) (r : Nat) (h : Bool) (o : Option (Nat × Nat)) : (s.startTransfer r h o).podKeys = s.podKeys := by
  unfold State.startTransfer; split; · rfl
  · split <;> rfl
@[simp] theorem State.startTransfer_storage (s : State) (r : Nat) (h : Bool) (o : Option (Nat × Nat)) : (s.startTransfer r h o).storage = s.storage := by
  unfold State.startTransfer; split; · rfl
  · split <;> rfl
@[simp] theorem State.startTransfer_weak (s : State) (r : Nat) (h : Bool) (o : Option (Nat × Nat)) : (s.startTransfer r h o).weak = s.weak := by
  unfold State.startTransfer; split; · rfl
  · split <;> rfl
@[simp] theorem State.startTransfer_frameMarks (s : State) (r : Nat) (h : Bool) (o : Option (Nat × Nat)) : (s.startTransfer r h o).frameMarks = s.frameMarks := by
  unfold State.startTransfer; split; · rfl
  · split <;> rfl
@[simp] theorem State.startTransfer_marks (s : State) (r : Nat) (h : Bool) (o : Option (Nat × Nat)) : (s.startTransfer r h o).marks = s.marks := by
  unfold State.startTransfer; split; · rfl
  · split <;> rfl
@[simp] theorem State.startTransfer_damaged (s : State) (r : Nat) (h : Bool) (o : Option (Nat × Nat)) : (s.startTransfer r h o).damaged = s.damaged := by
  unfold State.startTransfer; split; · rfl
  · split <;> rfl
@[simp] theorem State.startTransfer_rebuilds (s : State) (r : Nat) (h : Bool) (o : Option (Nat × Nat)) : (s.startTransfer r h o).rebuilds = s.rebuilds := by
  unfold State.startTransfer; split; · rfl
  · split <;> rfl
@[simp] theorem State.startTransfer_reservedReads (s : State) (r : Nat) (h : Bool) (o : Option (Nat × Nat)) : (s.startTransfer r h o).reservedReads = s.reservedReads := by
  unfold State.startTransfer; split; · rfl
  · split <;> rfl
@[simp] theorem State.startTransfer_pmc (s : State) (r : Nat) (h : Bool) (o : Option (Nat × Nat)) : (s.startTransfer r h o).pmc = s.pmc := by
  unfold State.startTransfer; split; · rfl
  · split <;> rfl
@[simp] theorem State.startTransfer_ports (s : State) (r : Nat) (h : Bool) (o : Option (Nat × Nat)) : (s.startTransfer r h o).ports = s.ports := by
  unfold State.startTransfer; split; · rfl
  · split <;> rfl
@[simp] theorem State.startTransfer_lost (s : State) (r : Nat) (h : Bool) (o : Option (Nat × Nat)) : (s.startTransfer r h o).lost = s.lost := by
  unfold State.startTransfer; split; · rfl
  · split <;> rfl
@[simp] theorem State.startTransfer_missed (s : State) (r : Nat) (h : Bool) (o : Option (Nat × Nat)) : (s.startTransfer r h o).missed = s.missed := by
  unfold State.startTransfer; split; · rfl
  · split <;> rfl
@[simp] theorem State.startTransfer_reported (s : State) (r : Nat) (h : Bool) (o : Option (Nat × Nat)) : (s.startTransfer r h o).reported = s.reported := by
  unfold State.startTransfer; split; · rfl
  · split <;> rfl
@[simp] theorem State.startTransfer_rerouting (s : State) (r : Nat) (h : Bool) (o : Option (Nat × Nat)) : (s.startTransfer r h o).rerouting = s.rerouting := by
  unfold State.startTransfer; split; · rfl
  · split <;> rfl
@[simp] theorem State.startTransfer_pod (s : State) (r : Nat) (h : Bool) (o : Option (Nat × Nat)) : (s.startTransfer r h o).pod = s.pod := by
  unfold State.startTransfer; split; · rfl
  · split <;> rfl
@[simp] theorem State.startTransfer_routes (s : State) (r : Nat) (h : Bool) (o : Option (Nat × Nat)) : (s.startTransfer r h o).routes = s.routes := by
  unfold State.startTransfer; split; · rfl
  · split <;> rfl
@[simp] theorem State.startTransfer_podObjects (s : State) (r : Nat) (h : Bool) (o : Option (Nat × Nat)) : (s.startTransfer r h o).podObjects = s.podObjects := by
  unfold State.startTransfer; split; · rfl
  · split <;> rfl
@[simp] theorem State.startTransfer_podAliases (s : State) (r : Nat) (h : Bool) (o : Option (Nat × Nat)) : (s.startTransfer r h o).podAliases = s.podAliases := by
  unfold State.startTransfer; split; · rfl
  · split <;> rfl
@[simp] theorem State.startTransfer_firmware (s : State) (r : Nat) (h : Bool) (o : Option (Nat × Nat)) : (s.startTransfer r h o).firmware = s.firmware := by
  unfold State.startTransfer; split; · rfl
  · split <;> rfl
@[simp] theorem State.startTransfer_hostWaits (s : State) (r : Nat) (h : Bool) (o : Option (Nat × Nat)) : (s.startTransfer r h o).hostWaits = s.hostWaits := by
  unfold State.startTransfer; split; · rfl
  · split <;> rfl
@[simp] theorem State.startTransfer_tout (s : State) (r : Nat) (h : Bool) (o : Option (Nat × Nat)) : (s.startTransfer r h o).tout = s.tout := by
  unfold State.startTransfer; split; · rfl
  · split <;> rfl
@[simp] theorem State.startTransfer_pkg (s : State) (r : Nat) (h : Bool) (o : Option (Nat × Nat)) : (s.startTransfer r h o).pkg = s.pkg := by
  unfold State.startTransfer; split; · rfl
  · split <;> rfl
@[simp] theorem State.startTransfer_cycle (s : State) (r : Nat) (h : Bool) (o : Option (Nat × Nat)) : (s.startTransfer r h o).cycle = s.cycle := by
  unfold State.startTransfer; split; · rfl
  · split <;> rfl
@[simp] theorem State.startTransfer_round (s : State) (r : Nat) (h : Bool) (o : Option (Nat × Nat)) : (s.startTransfer r h o).round = s.round := by
  unfold State.startTransfer; split; · rfl
  · split <;> rfl
@[simp] theorem State.startTransfer_seq (s : State) (r : Nat) (h : Bool) (o : Option (Nat × Nat)) : (s.startTransfer r h o).seq = s.seq := by
  unfold State.startTransfer; split; · rfl
  · split <;> rfl
@[simp] theorem State.startTransfer_fresh (s : State) (r : Nat) (h : Bool) (o : Option (Nat × Nat)) : (s.startTransfer r h o).fresh = s.fresh := by
  unfold State.startTransfer; split; · rfl
  · split <;> rfl
@[simp] theorem State.startTransfer_inputs (s : State) (r : Nat) (h : Bool) (o : Option (Nat × Nat)) : (s.startTransfer r h o).inputs = s.inputs := by
  unfold State.startTransfer; split; · rfl
  · split <;> rfl
@[simp] theorem State.startTransfer_occurrences (s : State) (r : Nat) (h : Bool) (o : Option (Nat × Nat)) : (s.startTransfer r h o).occurrences = s.occurrences := by
  unfold State.startTransfer; split; · rfl
  · split <;> rfl
@[simp] theorem State.startTransfer_unsent (s : State) (r : Nat) (h : Bool) (o : Option (Nat × Nat)) : (s.startTransfer r h o).unsent = s.unsent := by
  unfold State.startTransfer; split; · rfl
  · split <;> rfl
@[simp] theorem State.startTransfer_hostOut (s : State) (r : Nat) (h : Bool) (o : Option (Nat × Nat)) : (s.startTransfer r h o).hostOut = s.hostOut := by
  unfold State.startTransfer; split; · rfl
  · split <;> rfl
@[simp] theorem State.startTransfer_hostReplies (s : State) (r : Nat) (h : Bool) (o : Option (Nat × Nat)) : (s.startTransfer r h o).hostReplies = s.hostReplies := by
  unfold State.startTransfer; split; · rfl
  · split <;> rfl

/-! ### `emptyTile` leaves every field but `th`, `quads` -/

@[simp] theorem emptyTile_tid (s : State) (r : Rt) : (emptyTile s r).tid = s.tid :=  by simp [emptyTile]
@[simp] theorem emptyTile_parked (s : State) (r : Rt) : (emptyTile s r).parked = s.parked :=  by simp [emptyTile]
@[simp] theorem emptyTile_mem (s : State) (r : Rt) : (emptyTile s r).mem = s.mem :=  by simp [emptyTile]
@[simp] theorem emptyTile_poison (s : State) (r : Rt) : (emptyTile s r).poison = s.poison :=  by simp [emptyTile]
@[simp] theorem emptyTile_cores (s : State) (r : Rt) : (emptyTile s r).cores = s.cores :=  by simp [emptyTile]
@[simp] theorem emptyTile_sections (s : State) (r : Rt) : (emptyTile s r).sections = s.sections :=  by simp [emptyTile]
@[simp] theorem emptyTile_gangs (s : State) (r : Rt) : (emptyTile s r).gangs = s.gangs :=  by simp [emptyTile]
@[simp] theorem emptyTile_contexts (s : State) (r : Rt) : (emptyTile s r).contexts = s.contexts :=  by simp [emptyTile]
@[simp] theorem emptyTile_dies (s : State) (r : Rt) : (emptyTile s r).dies = s.dies :=  by simp [emptyTile]
@[simp] theorem emptyTile_regions (s : State) (r : Rt) : (emptyTile s r).regions = s.regions :=  by simp [emptyTile]
@[simp] theorem emptyTile_forwards (s : State) (r : Rt) : (emptyTile s r).forwards = s.forwards :=  by simp [emptyTile]
@[simp] theorem emptyTile_recordWrites (s : State) (r : Rt) : (emptyTile s r).recordWrites = s.recordWrites :=  by simp [emptyTile]
@[simp] theorem emptyTile_keys (s : State) (r : Rt) : (emptyTile s r).keys = s.keys :=  by simp [emptyTile]
@[simp] theorem emptyTile_podKeys (s : State) (r : Rt) : (emptyTile s r).podKeys = s.podKeys :=  by simp [emptyTile]
@[simp] theorem emptyTile_storage (s : State) (r : Rt) : (emptyTile s r).storage = s.storage :=  by simp [emptyTile]
@[simp] theorem emptyTile_weak (s : State) (r : Rt) : (emptyTile s r).weak = s.weak :=  by simp [emptyTile]
@[simp] theorem emptyTile_frameMarks (s : State) (r : Rt) : (emptyTile s r).frameMarks = s.frameMarks :=  by simp [emptyTile]
@[simp] theorem emptyTile_marks (s : State) (r : Rt) : (emptyTile s r).marks = s.marks :=  by simp [emptyTile]
@[simp] theorem emptyTile_damaged (s : State) (r : Rt) : (emptyTile s r).damaged = s.damaged :=  by simp [emptyTile]
@[simp] theorem emptyTile_rebuilds (s : State) (r : Rt) : (emptyTile s r).rebuilds = s.rebuilds :=  by simp [emptyTile]
@[simp] theorem emptyTile_reservedReads (s : State) (r : Rt) : (emptyTile s r).reservedReads = s.reservedReads :=  by simp [emptyTile]
@[simp] theorem emptyTile_pmc (s : State) (r : Rt) : (emptyTile s r).pmc = s.pmc :=  by simp [emptyTile]
@[simp] theorem emptyTile_ports (s : State) (r : Rt) : (emptyTile s r).ports = s.ports :=  by simp [emptyTile]
@[simp] theorem emptyTile_lost (s : State) (r : Rt) : (emptyTile s r).lost = s.lost :=  by simp [emptyTile]
@[simp] theorem emptyTile_missed (s : State) (r : Rt) : (emptyTile s r).missed = s.missed :=  by simp [emptyTile]
@[simp] theorem emptyTile_reported (s : State) (r : Rt) : (emptyTile s r).reported = s.reported :=  by simp [emptyTile]
@[simp] theorem emptyTile_rerouting (s : State) (r : Rt) : (emptyTile s r).rerouting = s.rerouting :=  by simp [emptyTile]
@[simp] theorem emptyTile_pod (s : State) (r : Rt) : (emptyTile s r).pod = s.pod :=  by simp [emptyTile]
@[simp] theorem emptyTile_routes (s : State) (r : Rt) : (emptyTile s r).routes = s.routes :=  by simp [emptyTile]
@[simp] theorem emptyTile_podObjects (s : State) (r : Rt) : (emptyTile s r).podObjects = s.podObjects :=  by simp [emptyTile]
@[simp] theorem emptyTile_podAliases (s : State) (r : Rt) : (emptyTile s r).podAliases = s.podAliases :=  by simp [emptyTile]
@[simp] theorem emptyTile_firmware (s : State) (r : Rt) : (emptyTile s r).firmware = s.firmware :=  by simp [emptyTile]
@[simp] theorem emptyTile_hostWaits (s : State) (r : Rt) : (emptyTile s r).hostWaits = s.hostWaits :=  by simp [emptyTile]
@[simp] theorem emptyTile_tout (s : State) (r : Rt) : (emptyTile s r).tout = s.tout :=  by simp [emptyTile]
@[simp] theorem emptyTile_pkg (s : State) (r : Rt) : (emptyTile s r).pkg = s.pkg :=  by simp [emptyTile]
@[simp] theorem emptyTile_cycle (s : State) (r : Rt) : (emptyTile s r).cycle = s.cycle :=  by simp [emptyTile]
@[simp] theorem emptyTile_round (s : State) (r : Rt) : (emptyTile s r).round = s.round :=  by simp [emptyTile]
@[simp] theorem emptyTile_seq (s : State) (r : Rt) : (emptyTile s r).seq = s.seq :=  by simp [emptyTile]
@[simp] theorem emptyTile_fresh (s : State) (r : Rt) : (emptyTile s r).fresh = s.fresh :=  by simp [emptyTile]
@[simp] theorem emptyTile_inputs (s : State) (r : Rt) : (emptyTile s r).inputs = s.inputs :=  by simp [emptyTile]
@[simp] theorem emptyTile_occurrences (s : State) (r : Rt) : (emptyTile s r).occurrences = s.occurrences :=  by simp [emptyTile]
@[simp] theorem emptyTile_unsent (s : State) (r : Rt) : (emptyTile s r).unsent = s.unsent :=  by simp [emptyTile]
@[simp] theorem emptyTile_hostOut (s : State) (r : Rt) : (emptyTile s r).hostOut = s.hostOut :=  by simp [emptyTile]
@[simp] theorem emptyTile_hostReplies (s : State) (r : Rt) : (emptyTile s r).hostReplies = s.hostReplies :=  by simp [emptyTile]

end Sys2Proof.Machine
end

