-- ==== Sys2Proof/Laws/Ops.lean ====
section
/-! SUPPORT. What each shared operation of the machine does, said once in the terms of the claims. -/

namespace Sys2Proof.Machine

open Sys2Proof.Safety

/-! ### Tables -/

theorem Table.get?_put_same {α : Type} (t : Table α) (k : Nat) (a : α) : (t.put k a).get? k = some a := by
  induction t with
  | nil => simp [Table.put, Table.get?]
  | cons e rest ih =>
    obtain ⟨i, b⟩ := e
    unfold Table.put
    split
    · simp [Table.get?]
    · split
      · simp [Table.get?]
      · rename_i _ h
        simp [Table.get?, Ne.symm h, ih]

theorem Table.get?_put_other {α : Type} (t : Table α) {k j : Nat} (h : j ≠ k) (a : α) : (t.put k a).get? j = t.get? j := by
  induction t with
  | nil => simp [Table.put, Table.get?, Ne.symm h]
  | cons e rest ih =>
    obtain ⟨i, b⟩ := e
    unfold Table.put
    split
    · simp [Table.get?, Ne.symm h]
    · split
      · rename_i _ hk
        have : ¬i = j := fun e => h (e ▸ hk ▸ rfl)
        simp [Table.get?, this, Ne.symm h]
      · simp only [Table.get?, ih]

theorem Table.get?_drop_same {α : Type} (t : Table α) (k : Nat) : (t.drop k).get? k = none := by
  induction t with
  | nil => rfl
  | cons e rest ih =>
    obtain ⟨i, b⟩ := e
    by_cases h : i = k
    · subst h
      have : Table.drop ((i, b) :: rest) i = Table.drop rest i := by simp [Table.drop]
      rw [this]
      exact ih
    · have : Table.drop ((i, b) :: rest) k = (i, b) :: Table.drop rest k := by simp [Table.drop, h]
      rw [this]
      simp only [Table.get?, if_neg h]
      exact ih

theorem Table.get?_drop_other {α : Type} (t : Table α) {k j : Nat} (h : j ≠ k) : (t.drop k).get? j = t.get? j := by
  induction t with
  | nil => rfl
  | cons e rest ih =>
    obtain ⟨i, b⟩ := e
    by_cases hi : i = k
    · subst hi
      have : Table.drop ((i, b) :: rest) i = Table.drop rest i := by simp [Table.drop]
      rw [this, ih]
      simp [Table.get?, Ne.symm h]
    · have : Table.drop ((i, b) :: rest) k = (i, b) :: Table.drop rest k := by simp [Table.drop, hi]
      rw [this]
      simp only [Table.get?]
      split
      · rfl
      · exact ih

/-! ### Whose turn it is -/

/-- The turn changes hands and no thread's record does. -/
theorem State.switchTo_thread (s : State) (n t : Nat) : (s.switchTo n).thread t = s.thread t := by
  unfold State.switchTo
  split
  · rfl
  · rename_i hn
    by_cases ht : t = n
    · subst ht
      simp [State.thread]
    · show (if t = n then _ else _) = _
      rw [if_neg ht]
      by_cases hs : t = s.tid
      · subst hs
        simp [State.thread, Table.get?_drop_other _ ht, Table.get?_put_same]
      · simp [State.thread, hs, Table.get?_drop_other _ ht, Table.get?_put_other _ hs]

theorem State.thread_self (s : State) : s.thread s.tid = s.th := by simp [State.thread]

theorem State.setThread_self (s : State) (k : Thread) : s.setThread s.tid k = s.setTh k := by simp [State.setThread, State.setTh]

theorem State.setThread_thread (s : State) (t u : Nat) (k : Thread) :
    (s.setThread t k).thread u = if u = t then k else s.thread u := by
  unfold State.setThread
  by_cases ht : t = s.tid
  · subst ht
    by_cases hu : u = s.tid <;> simp [State.thread, hu]
  · by_cases hu : u = t
    · subst hu
      simp [State.thread, ht, Table.get?_put_same]
    · by_cases hs : u = s.tid
      · simp [State.thread, hs, ht, Ne.symm ht]
      · simp [State.thread, ht, hu, hs, Table.get?_put_other _ hu]

theorem State.setCore_core (s : State) (c d : Nat) (k : Core) : (s.setCore c k).core d = if d = c then k else s.core d := by
  by_cases h : d = c
  · subst h
    simp [State.core, State.setCore, Table.get?_put_same]
  · simp [State.core, State.setCore, Table.get?_put_other _ h, h]

theorem State.setQuad_quad (s : State) (q r : Nat) (k : Quad) : (s.setQuad q k).quad r = if r = q then k else s.quad r := by
  by_cases h : r = q
  · subst h
    simp [State.quad, State.setQuad, Table.get?_put_same]
  · simp [State.quad, State.setQuad, Table.get?_put_other _ h, h]

theorem State.setSect_sect (s : State) (n m : Nat) (k : Section) : (s.setSect n k).sect m = if m = n then k else s.sect m := by
  by_cases h : m = n
  · subst h
    simp [State.sect, State.setSect, Table.get?_put_same]
  · simp [State.sect, State.setSect, Table.get?_put_other _ h, h]

/-! ### Registers -/

theorem Thread.rx_toNat (t : Thread) (r : Rx) : (t.rx r).toNat = xVal t r := by
  unfold Thread.rx xVal
  split <;> rfl

theorem ready_ok {s : State} {r : DestReg} (h : Readable s.th r) : ready s r = .ok () := by
  have hp : s.th.pending r = false := by
    simp only [Thread.pending, List.any_eq_false, beq_iff_eq]
    exact fun e he => h.1 e he
  have hn : s.th.poisonOf r = none := by
    simp only [Thread.poisonOf, Option.map_eq_none_iff, List.find?_eq_none, beq_iff_eq]
    exact fun e he => h.2 e he
  simp [ready, hp, hn]

/-- A register that waits for a reply stalls its reader (R186). -/
theorem ready_pending {s : State} {r : DestReg} (h : ∃ e ∈ s.th.pend, e.1 = r) : ready s r = .error .stall := by
  have hp : s.th.pending r = true := by
    obtain ⟨e, he, rfl⟩ := h
    simp only [Thread.pending, List.any_eq_true, beq_iff_eq]
    exact ⟨e, he, rfl⟩
  simp [ready, hp]

theorem useX_ok {s : State} {r : Rx} (h : ReadableX s.th r) : useX s r = .ok (s.th.rx r) := by
  unfold useX Thread.rx
  by_cases hr : r = 0
  · simp [hr, pure, Except.pure]
  · rcases h with h | h
    · exact absurd h hr
    · simp [hr, ready_ok h, bind, Except.bind, pure, Except.pure]

theorem useA_ok {s : State} {r : Ra} (h : Readable s.th (.a r)) : useA s r = .ok s.th.a[r] := by
  simp [useA, ready_ok h, bind, Except.bind, pure, Except.pure]

theorem useV_ok {s : State} {r : Rv} (h : Readable s.th (.v r)) : useV s r = .ok s.th.v[r] := by
  simp [useV, ready_ok h, bind, Except.bind, pure, Except.pure]

theorem useT_ok {s : State} {r : Rt} (h : Readable s.th (.t r)) : useT s r = .ok (Tile.image s.th.t[r]) := by
  simp [useT, ready_ok h, bind, Except.bind, pure, Except.pure]

theorem Thread.wx_eq (t : Thread) (r : Rx) (v : Word) : t.wx r v = putX t r v := rfl
theorem Thread.wa_eq (t : Thread) (r : Ra) (v : Ref) : t.wa r v = putA t r v := rfl
theorem Thread.wv_eq (t : Thread) (r : Rv) (v : VReg) : t.wv r v = putV t r v := rfl
theorem Thread.wp_eq (t : Thread) (r : Rp) (v : PReg) : t.wp r v = putP t r v := rfl
theorem Thread.rp_eq (t : Thread) (r : Rp) : t.rp r = pVal t r := rfl

/-- What a register holds after it is written. -/
theorem putX_val (t : Thread) (d r : Rx) (v : Word) : xVal (putX t d v) r = if r = d ∧ d ≠ 0 then v.toNat else xVal t r := by
  unfold putX
  by_cases hd : d = 0
  · simp [hd]
  · by_cases hr : r = d
    · subst hr
      simp [xVal, hd]
    · simp only [xVal, if_neg hd, hr, false_and, if_false]
      split
      · rfl
      · rw [show (t.x.set d v)[r] = t.x[r] from by
          simp only [Fin.getElem_fin]
          rw [Vector.getElem_set_ne]
          exact fun e => hr (Fin.ext e.symm)]

/-! ### How an instruction ends -/

theorem retireTo_eq (s : State) (p : Word) : retireTo s p = withThread s (goOn s.th p) := rfl
theorem retire_eq (s : State) : retire s = withThread s (goNext s.th) := rfl
theorem setTh_eq (s : State) (t : Thread) : s.setTh t = withThread s t := rfl

@[simp] theorem withThread_th (s : State) (t : Thread) : (withThread s t).th = t := rfl
@[simp] theorem withThread_mem (s : State) (t : Thread) : (withThread s t).mem = s.mem := rfl
@[simp] theorem withThread_withThread (s : State) (t u : Thread) : withThread (withThread s t) u = withThread s u := rfl

@[simp] theorem finish_ok (s s' : State) : finish s (.ok s') = .next s' := rfl
@[simp] theorem finish_trap (s : State) (f : Trap) : finish s (.error (.trap f)) = .next (takeFault s f) := rfl
@[simp] theorem finish_stall (s : State) : finish s (.error .stall) = .next s := rfl

/-- A meaning that ends through `finish` stops the machine only at an unpopulated table (R308, R333). -/
theorem finish_next_or_fault (s : State) (r : Except Stop State) :
    (∃ t, finish s r = .next t) ∨ ∃ f, r = .error (.machine f) ∧ finish s r = .fault f := by
  rcases r with e | t
  · cases e
    case machine f => exact Or.inr ⟨f, rfl, rfl⟩
    all_goals exact Or.inl ⟨_, rfl⟩
  · exact Or.inl ⟨t, rfl⟩

/-! ### Hold entries and faults -/

theorem canHold_of {s : State} {n : Nat} (h : CanHold s n) : canHold s s.tid n = true := by
  obtain ⟨hs, hl, hc⟩ := h
  have h1 : n ≤ freeEntries s s.tid := by
    unfold freeEntries coreOf
    omega
  rcases hc with hc | hc <;> simp [canHold, h1, coreOf, hc]

theorem needEntries_ok {s : State} {n : Nat} (h : CanHold s n) : needEntries s n = .ok () := by
  simp [needEntries, canHold_of h]

/-- One effect enters at the tail of the core's hold buffer (R185, R247). -/
theorem pushHold_self (s : State) (e : HeldEffect) (ts : List (Nat × Nat)) :
    pushHold s s.tid e ts =
      { s with th := { s.th with relMark := none }, seq := s.seq + 1
               cores := s.cores.put (s.tid / 2) { s.core (s.tid / 2) with
                 hold := (s.core (s.tid / 2)).hold ++ [newEntry s (s.th.relMark.getD 0) e ts]
                 claim := claimAfter (s.core (s.tid / 2)) s.tid } } := by
  unfold pushHold
  simp [State.thread_self, State.setThread, State.setCore, coreOf, newEntry, claimAfter]

/-- A fault that a user-level thread with room in its hold buffer takes (R222, R224). -/
theorem takeFault_user {s : State} (h : CanHold s 1) (f : Trap) :
    takeFault s f = faulted s f.cause f.addr f.info f.step f.miss := by
  have hs : isService s.tid = false := by simp [isService]; exact h.1
  unfold takeFault
  rw [if_neg (by simp [hs]), if_pos (canHold_of h)]
  exact pushHold_self _ _ _

/-- A service core goes on in its own handler at privileged level (R222, R229). -/
theorem takeFault_service {s : State} (h : 4096 ≤ s.tid) (f : Trap) :
    takeFault s f = withThread s { s.th.record f s.th.pc with privileged := true, pc := handlerPc } := by
  have hs : isService s.tid = true := by simp [isService]; exact h
  simp [takeFault, hs, withThread, State.setTh, Thread.record]

end Sys2Proof.Machine
end

