-- ==== Sys2Proof/Laws/Access.lean ====
section
/-! SUPPORT. The shared operations of loads and stores: when an access unit of a near space is found, and what a load and a
store do when nothing waits and nothing is marked. -/

namespace Sys2Proof.Machine

/-- A list of accesses is found when each is. -/
theorem mapM_ok {α β : Type} {f : α → Except Stop β} {l : List α} (h : ∀ x ∈ l, ∃ b, f x = .ok b) : ∃ bs, l.mapM f = .ok bs := by
  induction l with
  | nil => exact ⟨[], rfl⟩
  | cons x l ih =>
    obtain ⟨b, hb⟩ := h x (List.mem_cons_self)
    obtain ⟨bs, hbs⟩ := ih fun y hy => h y (List.mem_cons_of_mem _ hy)
    exact ⟨b :: bs, by simp [List.mapM_cons, hb, hbs, bind, Except.bind, pure, Except.pure]⟩

theorem await_true : await true = .ok () := rfl
theorem require_true (c : Nat) (a i : Word) : require true c a i = .ok () := rfl

/-- No marked line, no forward marker and no storage error anywhere (R326, R329, R377). -/
def Unmarked (s : State) : Prop := s.poison = [] ∧ s.forwards = [] ∧ s.weak = []

theorem marked_false {s : State} (h : Unmarked s) (l : Loc) : marked s l = false := by
  simp [marked, h.1]

theorem weakLines_nil {s : State} (h : Unmarked s) (ls : List Loc) : weakLines s ls = [] := by
  simp [weakLines, h.2.2]

/-- Every byte of the scratchpad may be read and written by the threads of its quad (R71). -/
theorem spaceFault_scratchpad {s : State} {w : Who} {a n : Nat} {acc : Acc} (hw : (w.tid.all fun t => !isService t) = true)
    (h : a + n ≤ 2 ^ 21) : spaceFault s w 2 a n acc = none := by
  simp [spaceFault, hw]
  simpa using h

/-- An access unit of a space other than the global one that passes the checks of R71 is found. -/
theorem locateSpace_ok {s : State} {w : Who} {sp a n : Nat} {acc : Acc} (h : Unmarked s) (hf : spaceFault s w sp a n acc = none)
    (fa fi : Word) : ∃ ls, locateSpace s w sp a n acc fa fi = .ok ls := by
  unfold locateSpace
  rw [hf]
  simp [weakLines_nil h, marked_false h]

/-- An access unit of such a space, with the checks of its offset (R71, R143). -/
theorem accessUnit_ok {s : State} {w : Who} {r : Ref} {a n align : Nat} {acc : Acc} (h : Unmarked s) (ha : a + n ≤ 2 ^ 44)
    (hal : a % align = 0) (hf : spaceFault s w (refSpace r) a n acc = none) (fi : Word) :
    ∃ ls, accessUnit s w .space r (a : Int) n align acc fi = .ok ls := by
  have h1 : ((a : Int) % (align : Int) == 0) = true := by
    rw [beq_iff_eq, ← Int.natCast_mod, hal]
    rfl
  have h2 : (decide ((0 : Int) ≤ (a : Int)) && decide ((a : Int) + (n : Int) ≤ 2 ^ 44)) = true := by
    simp only [Bool.and_eq_true, decide_eq_true_eq]
    exact ⟨Int.natCast_nonneg _, by exact_mod_cast ha⟩
  unfold accessUnit locate
  simp only [h1, h2, require_true, bind, Except.bind, Int.toNat_natCast]
  exact locateSpace_ok h hf _ _

/-- An element's access unit whose address passes its checks is looked up (R143). -/
theorem elemUnit_locate {s : State} {w : Who} {o : Opened} {r : Ref} {a : Int} {n align : Nat} {acc : Acc}
    (h1 : (decide ((0 : Int) ≤ a) && decide (a < 2 ^ 44)) = true) (h2 : (a % (align : Int) == 0) = true) (fi : Word) :
    elemUnit s w o r a n align acc fi = locate s w o r a.toNat n acc (BitVec.ofInt 64 a) fi := by
  unfold elemUnit
  simp only [h1, h2, require, if_true, bind, Except.bind]

theorem elemRange {a : Nat} (h : a < 2 ^ 44) : (decide ((0 : Int) ≤ (a : Int)) && decide ((a : Int) < 2 ^ 44)) = true := by
  simp only [Bool.and_eq_true, decide_eq_true_eq]
  exact ⟨Int.natCast_nonneg _, by exact_mod_cast h⟩

theorem aligned_cast {a align : Nat} (h : a % align = 0) : ((a : Int) % (align : Int) == 0) = true := by
  rw [beq_iff_eq, ← Int.natCast_mod, h]
  rfl

/-- An element's access unit in such a space, with the checks of its address (R71, R143). -/
theorem elemUnit_ok {s : State} {w : Who} {r : Ref} {a n align : Nat} {acc : Acc} (h : Unmarked s) (ha : a < 2 ^ 44)
    (hal : a % align = 0) (hf : spaceFault s w (refSpace r) a n acc = none) (fi : Word) :
    ∃ ls, elemUnit s w .space r (a : Int) n align acc fi = .ok ls := by
  rw [elemUnit_locate (elemRange ha) (aligned_cast hal), Int.toNat_natCast]
  exact locateSpace_ok h hf _ _

/-- A fault's place in the record does not decide whether there is one. -/
theorem faultAt_ok {α : Type} {fa fi : Word} {x : Except Stop α} {l : α} : faultAt fa fi x = .ok l ↔ x = .ok l := by
  rcases x with e | y
  · cases e <;> simp [faultAt]
  · rfl

/-- Where an access unit lies does not depend on the `finfo` it would fault with. -/
theorem locate_info {s : State} {w : Who} {o : Opened} {r : Ref} {a n : Nat} {acc : Acc} {fa fi : Word} {ls : List Loc}
    (h : locate s w o r a n acc fa fi = .ok ls) (fi' : Word) : locate s w o r a n acc fa fi' = .ok ls := by
  cases o with
  | bad c => simp [locate, openFault] at h
  | broken f => cases h
  | space =>
    simp only [locate, locateSpace] at h ⊢
    split at h
    · cases h
    · grind [trapOf]
  | object k slot => exact faultAt_ok.mpr (faultAt_ok.mp h)

theorem accessUnit_info {s : State} {w : Who} {o : Opened} {r : Ref} {a : Int} {n al : Nat} {acc : Acc} {fi : Word} {ls : List Loc}
    (h : accessUnit s w o r a n al acc fi = .ok ls) (fi' : Word) : accessUnit s w o r a n al acc fi' = .ok ls := by
  unfold accessUnit at h ⊢
  simp only [require, bind, Except.bind] at h ⊢
  by_cases h1 : (decide (0 ≤ a) && decide (a + n ≤ 2 ^ 44)) = true
  · by_cases h2 : (a % (al : Int) == 0) = true
    · simp only [h1, h2, if_true] at h ⊢
      exact locate_info h fi'
    · simp only [h1, h2, if_true] at h
      cases h
  · simp only [h1] at h
    cases h

/-- Without test mode the race detector sees nothing (R296). -/theorem elemUnit_info {s : State} {w : Who} {o : Opened} {r : Ref} {a : Int} {n al : Nat} {acc : Acc} {fi : Word} {ls : List Loc}
    (h : elemUnit s w o r a n al acc fi = .ok ls) (fi' : Word) : elemUnit s w o r a n al acc fi' = .ok ls := by
  unfold elemUnit at h ⊢
  simp only [require, bind, Except.bind] at h ⊢
  by_cases h1 : (decide (0 ≤ a) && decide (a < 2 ^ 44)) = true
  · by_cases h2 : (a % (al : Int) == 0) = true
    · simp only [h1, h2, if_true] at h ⊢
      exact locate_info h fi'
    · simp only [h1, h2, if_true] at h
      cases h
  · simp only [h1] at h
    cases h


theorem detect_plain {s : State} {tid : Nat} (h : ∀ g, s.gangs.get? (s.thread tid).gang = some g → g.test = false) (w a : Bool)
    (m : Moment) (c : Nat) (ls : List Loc) : s.detect tid w a m c ls = s := by
  unfold State.detect
  cases hg : s.gangs.get? (s.thread tid).gang with
  | none => simp
  | some g => simp [h g hg]

/-- Nothing of the current thread's keeps its accesses to some bytes waiting: no older acquire or fence, no held request of its
quad or outside write that names one of the bytes (R195, R280 to R285, R292). -/
structure FreeToGo (s : State) (ls : List Loc) : Prop where
  acquires : outstanding s s.tid s.th.loadAfter = false
  stores : heldStores s s.tid s.th.loadAfterStores = false
  own : s.th.loadFrom ≤ s.cycle
  release : performedBelow s (quadOf s.tid) s.th.storeAfter = true
  loads : requestOver s s.tid false ls = false
  writes : requestOver s s.tid true ls = false
  outside : (ls.any fun l => outsideWaits s l.key) = false
  user : isService s.tid = false

/-- With nothing to wait for, no pacer limit, and no race detector, a load takes what its thread sees and changes nothing
(R190, R195, R284, R355). -/
theorem loadUnits_plain {s : State} {units : List (List Loc)} (h : FreeToGo s units.flatten)
    (hq : (contextOf s s.th.gang).qlimit = 0) (hg : ∀ g, s.gangs.get? s.th.gang = some g → g.test = false) :
    loadUnits s units = .ok (units.map (viewBytes s (whoTh s)), s) := by
  rw [← State.thread_self s] at hg
  have hf : ∀ l : List (List Loc), l.foldl (fun s u => s.detect s.tid false false .whole s.cycle u) s = s := by
    intro l
    induction l with
    | nil => rfl
    | cons u l ih => simpa only [List.foldl_cons, detect_plain hg] using ih
  have hl : awaitLoad s units.flatten = .ok () := by
    unfold awaitLoad awaitAcquire
    simp [h.acquires, h.stores, h.loads, h.user, Nat.not_lt.mpr h.own, await_true, bind, Except.bind]
  unfold loadUnits payPacer
  simp only [hl, hq, bind, Except.bind, true_or, if_true, pure, Except.pure]
  exact congrArg (fun u => Except.ok (units.map (viewBytes s (whoTh s)), u)) (hf units)

/-- A store to local memory or the scratchpad that waits for nothing is performed (R184, R190, R195, R292). -/
theorem storeUnits_near {s : State} {sp : Nat} (hsp : sp = 1 ∨ sp = 2) {groups : List (List (List WByte))}
    (h : FreeToGo s (unitLocs groups.flatten)) (fa : Word) (tiles : List (List (Nat × Nat))) :
    ∃ u, storeUnits s sp groups fa tiles = .ok u := by
  unfold storeUnits
  rw [if_pos hsp]
  unfold ownStore awaitAcquire awaitOwn
  simp only [h.acquires, h.release, h.writes, h.outside, Bool.not_false, Bool.false_and, Bool.and_self, await_true, bind, Except.bind]
  exact ⟨_, rfl⟩

/-- Coordinates in an object of one dimension of bytes (R315). -/
theorem coordsOf_flat {o : ObjRec} {a : Nat} (hd : o.dims = 0) (hs : o.stride.getD 0 1 = 1) (ha : a < o.inUnits o.ext 0) :
    coordsOf o a = some ([a], 0) := by
  unfold coordsOf ObjRec.d
  rw [hd]
  simp only [Nat.zero_add, List.range_one, List.foldl_cons, List.foldl_nil, List.nil_append, hs, Nat.div_one, Nat.mod_one, List.all_cons,
    List.all_nil, Bool.and_true, List.getD_cons_zero, ha, decide_true, if_true]

/-- Where the bytes of an access unit lie in an object of one dimension of bytes that is one resident block (R314 to R318). -/
theorem locateObject_flat {s : State} {o : ObjRec} {slot obj a n : Nat} {acc : Acc} {e : ResEntry} (h : Unmarked s)
    (hd : o.dims = 0) (hs : o.stride.getD 0 1 = 1) (hs' : o.stride.getD 0 0 = 1) (hn : 0 < n) (ha : a + n ≤ o.inUnits o.ext 0)
    (ht : o.inUnits o.ext 0 ≤ o.inUnits o.tile 0) (hp : populated (o.map * 8) = true)
    (he : ResEntry.ofNat (s.mem.readNat (o.map * 8) 8) = e) (hv : e.valid = true) (hi : e.inconsistent o s.pkg = false)
    (hl : e.lost s = false) (hc : o.enc = false) (hr : s.regions = []) :
    locateObject s o slot obj a n acc false = .ok ((List.range n).map fun i =>
      { key := e.storageKey + (a + i), crypt := none, dmg := e.dmg, space := 0, obj, off := a + i }) := by
  have hblk : ∀ i, i < n → blockIndex o [a + i] = 0 := by
    intro i hi
    unfold blockIndex ObjRec.d
    rw [hd]
    simp only [Nat.zero_add, List.range_one, List.foldl_cons, List.foldl_nil, Nat.zero_mul, List.getD_cons_zero]
    exact Nat.div_eq_of_lt (by omega)
  have hoff : ∀ i, i < n → blockOffset o [a + i] 0 = a + i := by
    intro i hi
    unfold blockOffset ObjRec.d
    rw [hd]
    simp only [Nat.zero_add, List.range_one, List.foldl_cons, List.foldl_nil, Nat.zero_mul, List.getD_cons_zero, hs', Nat.mul_one, Nat.add_zero]
    exact Nat.mod_eq_of_lt (by omega)
  have hcs : (List.range n).map (fun i => coordsOf o (a + i)) = (List.range n).map fun i => some ([a + i], 0) := by
    refine List.map_congr_left fun i hi => coordsOf_flat hd hs ?_
    have := List.mem_range.mp hi
    omega
  have hunit : unitCoords o a n = .ok ((List.range n).map fun i => ([a + i], 0)) := by
    unfold unitCoords
    rw [hcs]
    have h1 : (((List.range n).map fun i => some ([a + i], (0 : Nat))).any Option.isNone) = false := by simp
    have h2 : ((List.range n).map fun i => some ([a + i], (0 : Nat))).filterMap id = (List.range n).map fun i => ([a + i], (0 : Nat)) := by
      simp [List.filterMap_map]
    obtain ⟨m, rfl⟩ : ∃ m, n = m + 1 := ⟨n - 1, by omega⟩
    simp only [h1, h2, Bool.false_eq_true, if_false]
    rw [if_neg]
    simp only [List.head?_map, List.getLast?_map, List.head?_range, List.getLast?_range, Nat.add_one_ne_zero, if_false,
      Option.map_some, hblk 0 (by omega), Nat.add_sub_cancel, hblk m (by omega), ne_eq, not_true_eq_false, not_false_eq_true]
  have hdedup : (((List.range n).map fun i => ([a + i], (0 : Nat))).map fun c => blockIndex o c.1).dedup = [0] := by
    have h1 : ((List.range n).map fun i => ([a + i], (0 : Nat))).map (fun c => blockIndex o c.1) = List.replicate n 0 := by
      rw [List.map_map]
      refine List.eq_replicate_iff.mpr ⟨by simp, ?_⟩
      simp only [List.mem_map, List.mem_range, Function.comp_def]
      rintro _ ⟨i, hi, rfl⟩
      exact hblk i hi
    rw [h1]
    exact List.replicate_dedup (by omega)
  have hentry : blockEntry s o obj a 0 = .ok e := by
    unfold blockEntry
    simp [hp, he, hv, hi, h.2.2]
  have hregion : ∀ ls, ownRegions s ls = .ok () := by
    intro ls
    unfold ownRegions
    induction (ls.map fun l => regionOf l.key).dedup with
    | nil => rfl
    | cons k ks ih => simpa [List.forM_cons, ownRegion, hr, Table.get?, bind, Except.bind] using ih
  have hpoison : ∀ ls, poisonCheck s acc o.se ([(0, e)].any fun e => e.2.lost s || (false && decide (2 ≤ e.2.tier))) obj a ls = .ok () := by
    intro ls
    unfold poisonCheck
    simp [hl, weakLines_nil h, marked_false h]
  have hlocs : ((List.range n).map fun i => ([a + i], (0 : Nat))).zip (List.range n) = (List.range n).map fun i => (([a + i], 0), i) := by
    have := List.zip_map' (f := fun i => ([a + i], (0 : Nat))) (g := id) (l := List.range n)
    simpa using this
  unfold locateObject
  simp only [hunit, hdedup, List.mapM_cons, List.mapM_nil, hentry, hlocs, hregion, hpoison, bind, Except.bind, pure, Except.pure]
  rw [List.map_map]
  refine congrArg Except.ok (List.map_congr_left fun i hi => ?_)
  have hi := List.mem_range.mp hi
  simp [byteLoc, hblk i hi, hoff i hi, hc]

/-- An access unit of that object. -/
theorem accessUnit_flat {s : State} {w : Who} {r : Ref} {o : ObjRec} {slot a n align : Nat} {acc : Acc} {e : ResEntry} (h : Unmarked s)
    (hd : o.dims = 0) (hs : o.stride.getD 0 1 = 1) (hs' : o.stride.getD 0 0 = 1) (hn : 0 < n) (ha : a + n ≤ o.inUnits o.ext 0)
    (ht : o.inUnits o.ext 0 ≤ o.inUnits o.tile 0) (hp : populated (o.map * 8) = true)
    (he : ResEntry.ofNat (s.mem.readNat (o.map * 8) 8) = e) (hv : e.valid = true) (hi : e.inconsistent o s.pkg = false)
    (hl : e.lost s = false) (hc : o.enc = false) (hr : s.regions = []) (hw : (w.tid.any fun t => (s.thread t).late) = false)
    (h44 : a + n ≤ 2 ^ 44) (hal : a % align = 0) (fi : Word) :
    accessUnit s w (.object o slot) r (a : Int) n align acc fi = .ok ((List.range n).map fun i =>
      { key := e.storageKey + (a + i), crypt := none, dmg := e.dmg, space := 0, obj := refObj r, off := a + i }) := by
  have h1 : ((a : Int) % (align : Int) == 0) = true := by
    rw [beq_iff_eq, ← Int.natCast_mod, hal]
    rfl
  have h2 : (decide ((0 : Int) ≤ (a : Int)) && decide ((a : Int) + (n : Int) ≤ 2 ^ 44)) = true := by
    simp only [Bool.and_eq_true, decide_eq_true_eq]
    exact ⟨Int.natCast_nonneg _, by exact_mod_cast h44⟩
  unfold accessUnit locate
  simp only [h1, h2, require_true, bind, Except.bind, Int.toNat_natCast, hw]
  exact faultAt_ok.mpr (locateObject_flat h hd hs hs' hn ha ht hp he hv hi hl hc hr)

/-- Rows of one length, one after the other. -/
theorem flatMap_range {α : Type} (m k : Nat) (f : Nat → α) :
    ((List.range m).flatMap fun i => (List.range k).map fun j => f (k * i + j)) = (List.range (k * m)).map f := by
  induction m with
  | zero => simp
  | succ m ih =>
    rw [List.range_succ, List.flatMap_append, ih, Nat.mul_succ, List.range_add, List.map_append]
    simp [List.map_map, Function.comp_def]

/-- A list of accesses that are all found. -/
theorem mapM_map {α β : Type} {f : α → Except Stop β} {g : α → β} {l : List α} (h : ∀ x ∈ l, f x = .ok (g x)) :
    l.mapM f = .ok (l.map g) := by
  induction l with
  | nil => rfl
  | cons x l ih =>
    simp [List.mapM_cons, h x (List.mem_cons_self), ih fun y hy => h y (List.mem_cons_of_mem _ hy), bind, Except.bind, pure, Except.pure]

/-- What a service core reads outside the on-die stores, where no line has moved and no heat is under way (R291, R384). -/
theorem viewByte_service {s : State} {w : Who} {l : Loc} (hw : w.inside = false) (hk : homeQuad? l.key = none) (hf : s.forwards = [])
    (hs : s.sections = []) (hc : l.crypt = none) : viewByte s w l = s.mem.read l.key := by
  unfold viewByte baseByte
  simp only [hw, hk, Bool.false_eq_true, false_and, if_false]
  simp [coherentByte, forwardLoc, hf, heatByte, State.sect, hs, Table.get?, Section.zero, storedByte, hc]

/-- A byte that is not listed reads as zero. -/
theorem Memory.read_unlisted {m : Memory} {k : Nat} (h : ∀ c ∈ m, c.1 ≠ k) : m.read k = 0 := by
  induction m with
  | nil => rfl
  | cons c m ih =>
    show (if c.1 = k then c.2 else Memory.read m k) = 0
    rw [if_neg (h c List.mem_cons_self)]
    exact ih fun d hd => h d (List.mem_cons_of_mem _ hd)

theorem leNat_zeros {l : List Byte} (h : ∀ b ∈ l, b = 0) : leNat l = 0 := by
  induction l with
  | nil => rfl
  | cons b l ih => simp [leNat, h b List.mem_cons_self, ih fun d hd => h d (List.mem_cons_of_mem _ hd)]

/-- The units of an unscaled tile image in a near space, of a type other than l6 (R160, R162). -/
theorem spaceUnits_ok {s : State} {v : TileRef} {acc : Acc} {xr : Nat} (h : Unmarked s) (hv : v.scaled = false) (ht : v.t ≠ .l6)
    (ha : (refOff v.r + 4096 * xr) % 128 = 0) (hl : spaceFault s (whoTh s) (refSpace v.r) (refOff v.r + 4096 * xr) 4096 .load = none)
    (hf : spaceFault s (whoTh s) (refSpace v.r) (refOff v.r + 4096 * xr) 4096 acc = none)
    (hu : ∀ i c, i < 32 → c < rowUnits v.t → spaceFault s (whoTh s) (refSpace v.r)
      (refOff v.r + 4096 * xr + (128 * i + accessBytes v.t * c)) (accessBytes v.t) acc = none) :
    ∃ us, spaceUnits s v xr 0 acc = .ok us := by
  unfold spaceUnits
  simp only [hv, ht, Bool.false_eq_true, if_false, hl, hf, ha, beq_self_eq_true, require_true, bind, Except.bind]
  obtain ⟨us, hus⟩ := mapM_ok (l := (List.range 32).flatMap fun i => (List.range (rowUnits v.t)).map fun c => (i, c))
    (f := fun x : Nat × Nat => do
      let ls ← locateSpace s (whoTh s) (refSpace v.r) (refOff v.r + 4096 * xr + (128 * x.1 + accessBytes v.t * x.2)) (accessBytes v.t) acc
        (BitVec.ofNat 64 (refOff v.r + 4096 * xr + (128 * x.1 + accessBytes v.t * x.2))) (tileInfo x.1 x.2)
      return ({ locs := ls, pos := 1024 * x.1 + 8 * accessBytes v.t * x.2 } : TileUnit)) (by
    intro x hx
    simp only [List.mem_flatMap, List.mem_range, List.mem_map] at hx
    obtain ⟨i, hi, c, hc, rfl⟩ := hx
    obtain ⟨ls, hls⟩ := locateSpace_ok h (hu i c hi hc)
      (BitVec.ofNat 64 (refOff v.r + 4096 * xr + (128 * i + accessBytes v.t * c))) (tileInfo i c)
    exact ⟨{ locs := ls, pos := 1024 * i + 8 * accessBytes v.t * c }, by rw [hls]; rfl⟩)
  simp only [List.mapM_nil, pure, Except.pure]
  split
  · rename_i e he
    cases he.symm.trans hus
  · exact ⟨_, rfl⟩

/-- Bytes of an image in a near space (R180). -/
theorem imageBytes_ok {s : State} {r : Ref} {at' n : Nat} {acc : Acc} (h : Unmarked s) (ha : refOff r + at' + n ≤ 2 ^ 44)
    (hf : ∀ i, i < n → spaceFault s (whoTh s) (refSpace r) (refOff r + at' + i) 1 acc = none) :
    ∃ ls, imageBytes s .space r at' n acc = .ok ls := by
  unfold imageBytes
  obtain ⟨ls, hls⟩ := mapM_ok (l := List.range n)
    (f := fun i => accessUnit s (whoTh s) .space r ((refOff r + at' + i : Nat) : Int) 1 1 acc (imageInfo (at' + i))) (by
    intro i hi
    have hi := List.mem_range.mp hi
    exact accessUnit_ok h (by omega) (Nat.mod_one _) (hf i hi) _)
  simp only [hls, bind, Except.bind, pure, Except.pure]
  exact ⟨_, rfl⟩

end Sys2Proof.Machine
end

