-- ==== Sys2Proof/Laws/Memory.lean ====
section
/-! SUPPORT. Reading and writing Memory, and that every operation on Memory keeps its canonical form. -/

namespace Sys2Proof.Machine

/-! ### The canonical form -/

/-- The canonical form in terms of all pairs: no listed byte is zero, and addresses rise. -/
theorem Memory.wf_iff (m : Memory) :
    m.wf = true ↔ (∀ c ∈ m, c.2 ≠ 0) ∧ m.Pairwise (fun a b => a.1 < b.1) := by
  induction m with
  | nil => simp [Memory.wf]
  | cons c rest ih =>
    obtain ⟨i, b⟩ := c
    cases rest with
    | nil => simp [Memory.wf]
    | cons d rest =>
      obtain ⟨j, e⟩ := d
      simp only [Memory.wf, Bool.and_eq_true, decide_eq_true_eq, bne_iff_ne, ih]
      constructor
      · rintro ⟨⟨hb, hij⟩, hall, hp⟩
        refine ⟨fun c hc => ?_, List.pairwise_cons.2 ⟨?_, hp⟩⟩
        · rcases List.mem_cons.1 hc with rfl | hc
          exacts [hb, hall c hc]
        intro c hc
        rcases List.mem_cons.1 hc with rfl | hc
        · exact hij
        · exact Nat.lt_trans hij ((List.pairwise_cons.1 hp).1 c hc)
      · rintro ⟨hall, hp⟩
        have h := List.pairwise_cons.1 hp
        exact ⟨⟨hall (i, b) (by simp), h.1 (j, e) (by simp)⟩, fun c hc => hall c (List.mem_cons_of_mem _ hc), h.2⟩

theorem Memory.wf_cons (i : Nat) (b : Byte) (m : Memory) :
    Memory.wf ((i, b) :: m) = true ↔ b ≠ 0 ∧ (∀ c ∈ m, i < c.1) ∧ Memory.wf m = true := by
  simp only [Memory.wf_iff, List.pairwise_cons, List.mem_cons]
  constructor
  · rintro ⟨h, h1, h2⟩
    exact ⟨h (i, b) (Or.inl rfl), h1, fun c hc => h c (Or.inr hc), h2⟩
  · rintro ⟨hb, h1, h, h2⟩
    exact ⟨fun c hc => by rcases hc with rfl | hc; exacts [hb, h c hc], h1, h2⟩

theorem Memory.wf_tail {c : Host.Cell} {m : Memory} (h : Memory.wf (c :: m) = true) : m.wf = true :=
  ((Memory.wf_cons c.1 c.2 m).1 h).2.2

/-- The addresses a write lists are those listed before, and its own. -/
theorem Memory.mem_write {m : Memory} {k : Nat} {b : Byte} {c : Host.Cell} (h : c ∈ m.write k b) :
    c ∈ m ∨ (c = (k, b) ∧ b ≠ 0) := by
  induction m with
  | nil =>
    unfold Memory.write at h
    split at h <;> simp_all
  | cons d rest ih =>
    obtain ⟨i, e⟩ := d
    unfold Memory.write at h
    split at h
    · split at h <;> simp_all
      tauto
    · split at h
      · split at h <;> simp_all
        tauto
      · rcases List.mem_cons.1 h with rfl | h
        · exact Or.inl (by simp)
        · rcases ih h with h | h
          · exact Or.inl (List.mem_cons_of_mem _ h)
          · exact Or.inr h

/-- A write of one byte keeps the canonical form. -/
theorem Memory.write_wf {m : Memory} (h : m.wf = true) (k : Nat) (b : Byte) : (m.write k b).wf = true := by
  induction m with
  | nil =>
    unfold Memory.write
    split
    · rfl
    · simpa [Memory.wf] using ‹¬b = 0›
  | cons d rest ih =>
    obtain ⟨i, e⟩ := d
    have h' := (Memory.wf_cons i e rest).1 h
    unfold Memory.write
    split
    · rename_i hk
      split
      · exact h
      · refine (Memory.wf_cons _ _ _).2 ⟨‹_›, fun c hc => ?_, h⟩
        rcases List.mem_cons.1 hc with rfl | hc
        · exact hk
        · exact Nat.lt_trans hk (h'.2.1 c hc)
    · split
      · rename_i hk
        split
        · exact h'.2.2
        · exact (Memory.wf_cons _ _ _).2 ⟨‹_›, fun c hc => hk ▸ h'.2.1 c hc, h'.2.2⟩
      · refine (Memory.wf_cons _ _ _).2 ⟨h'.1, fun c hc => ?_, ih h'.2.2⟩
        rcases Memory.mem_write hc with hc | ⟨rfl, -⟩
        · exact h'.2.1 c hc
        · simp only; omega

/-- Writes of a list of bytes keep the canonical form. -/
theorem Memory.writeList_wf {m : Memory} (h : m.wf = true) (k : Nat) (bs : List Byte) : (m.writeList k bs).wf = true := by
  induction bs generalizing m k with
  | nil => exact h
  | cons b bs ih => exact ih (Memory.write_wf h k b) (k + 1)

/-- Any sequence of one-byte writes keeps the canonical form. -/
theorem Memory.foldl_write_wf {α : Type} (l : List α) (key : α → Nat) (val : α → Byte) {m : Memory} (h : m.wf = true) :
    (l.foldl (fun m c => m.write (key c) (val c)) m).wf = true := by
  induction l generalizing m with
  | nil => exact h
  | cons a l ih => exact ih (Memory.write_wf h _ _)

/-- A part of a memory is in canonical form. -/
theorem Memory.filter_wf {m : Memory} (h : m.wf = true) (p : Host.Cell → Bool) : Memory.wf (m.filter p) = true := by
  rw [Memory.wf_iff] at h ⊢
  exact ⟨fun c hc => h.1 c (List.mem_filter.1 hc).1, h.2.filter p⟩

theorem Memory.clear_wf {m : Memory} (h : m.wf = true) (k n : Nat) : (m.clear k n).wf = true := Memory.filter_wf h _

theorem Memory.copyLine_wf {m : Memory} (h : m.wf = true) (o n : Nat) : (m.copyLine o n).wf = true :=
  Memory.writeList_wf (Memory.clear_wf h _ _) _ _

theorem Memory.paste_wf {m : Memory} (h : m.wf = true) (k : Nat) (bs : Memory) : (m.paste k bs).wf = true :=
  Memory.foldl_write_wf bs (fun c => k + c.1) (fun c => c.2) h

/-- A range that is cut out is in canonical form from its first byte. -/
theorem Memory.cut_wf {m : Memory} (h : m.wf = true) (k n : Nat) : (m.cut k n).wf = true := by
  have hf := (Memory.wf_iff _).1 (Memory.filter_wf h fun c => k ≤ c.1 && c.1 < k + n)
  unfold Memory.cut
  rw [Memory.wf_iff]
  refine ⟨fun c hc => ?_, ?_⟩
  · obtain ⟨d, hd, rfl⟩ := List.mem_map.1 hc
    exact hf.1 d hd
  · rw [List.pairwise_map]
    refine hf.2.imp_of_mem fun {a b} ha hb hab => ?_
    have := (List.mem_filter.1 ha).2
    simp only [Bool.and_eq_true, decide_eq_true_eq] at this
    simp only
    omega

/-! ### Reading after writing -/

/-- An address below every listed one reads zero. -/
theorem Memory.read_below {m : Memory} {k : Nat} (h : ∀ c ∈ m, k < c.1) : m.read k = 0 := by
  induction m with
  | nil => rfl
  | cons d rest ih =>
    obtain ⟨i, b⟩ := d
    have : k < i := h (i, b) (by simp)
    unfold Memory.read
    rw [if_neg (by omega)]
    exact ih fun c hc => h c (List.mem_cons_of_mem _ hc)

/-- A byte reads as what was written last. -/
theorem Memory.read_write_same {m : Memory} (h : m.wf = true) (k : Nat) (b : Byte) : (m.write k b).read k = b := by
  induction m with
  | nil =>
    unfold Memory.write
    split
    · simp [Memory.read, ‹b = 0›]
    · simp [Memory.read]
  | cons d rest ih =>
    obtain ⟨i, e⟩ := d
    have h' := (Memory.wf_cons i e rest).1 h
    unfold Memory.write
    split
    · rename_i hk
      split
      · rename_i hb
        rw [hb]
        exact Memory.read_below fun c hc => by
          rcases List.mem_cons.1 hc with rfl | hc
          · exact hk
          · exact Nat.lt_trans hk (h'.2.1 c hc)
      · simp [Memory.read]
    · split
      · rename_i hk
        split
        · rename_i hb
          rw [hb]
          exact Memory.read_below fun c hc => hk ▸ h'.2.1 c hc
        · simp [Memory.read]
      · rename_i hk
        unfold Memory.read
        rw [if_neg (Ne.symm hk)]
        exact ih h'.2.2

/-- A write leaves every other byte alone. -/
theorem Memory.read_write_other (m : Memory) {k j : Nat} (h : j ≠ k) (b : Byte) : (m.write k b).read j = m.read j := by
  induction m with
  | nil =>
    unfold Memory.write
    split
    · rfl
    · simp [Memory.read, Ne.symm h]
  | cons d rest ih =>
    obtain ⟨i, e⟩ := d
    unfold Memory.write
    split
    · split
      · rfl
      · simp [Memory.read, Ne.symm h]
    · split
      · rename_i hk
        have hij : ¬i = j := fun e => h (e ▸ hk ▸ rfl)
        split
        · simp [Memory.read, hij]
        · simp [Memory.read, hij, Ne.symm h]
      · unfold Memory.read
        split
        · rfl
        · exact ih

theorem Memory.read_writeList_other (m : Memory) (k : Nat) (bs : List Byte) {j : Nat} (h : j < k ∨ k + bs.length ≤ j) :
    (m.writeList k bs).read j = m.read j := by
  induction bs generalizing m k with
  | nil => rfl
  | cons b bs ih =>
    simp only [List.length_cons] at h
    show ((m.write k b).writeList (k + 1) bs).read j = _
    rw [ih _ _ (by omega), Memory.read_write_other _ (by omega)]

theorem Memory.read_writeList_at {m : Memory} (h : m.wf = true) (k : Nat) (bs : List Byte) (i : Nat) (hi : i < bs.length) :
    (m.writeList k bs).read (k + i) = bs[i] := by
  induction bs generalizing m k i with
  | nil => simp at hi
  | cons b bs ih =>
    show ((m.write k b).writeList (k + 1) bs).read (k + i) = _
    cases i with
    | zero =>
      rw [Memory.read_writeList_other _ _ _ (Or.inl (by omega))]
      simpa using Memory.read_write_same h k b
    | succ i =>
      have := ih (Memory.write_wf h k b) (k + 1) i (by simpa using hi)
      rw [show k + (i + 1) = k + 1 + i by omega]
      simpa using this

theorem Memory.read_clear_out (m : Memory) (k n : Nat) {j : Nat} (h : j < k ∨ k + n ≤ j) : (m.clear k n).read j = m.read j := by
  induction m with
  | nil => rfl
  | cons d rest ih =>
    obtain ⟨i, b⟩ := d
    by_cases hp : (i < k || k + n ≤ i) = true
    · rw [Memory.clear, List.filter_cons_of_pos (by simpa using hp)]
      unfold Memory.read
      split
      · rfl
      · exact ih
    · rw [Memory.clear, List.filter_cons_of_neg (by simpa using hp)]
      have : ¬i = j := by rintro rfl; simp at hp; omega
      rw [show Memory.read ((i, b) :: rest) j = Memory.read rest j by simp [Memory.read, this]]
      exact ih

theorem Memory.read_clear_in (m : Memory) (k n : Nat) {j : Nat} (h : k ≤ j ∧ j < k + n) : (m.clear k n).read j = 0 := by
  induction m with
  | nil => rfl
  | cons d rest ih =>
    obtain ⟨i, b⟩ := d
    by_cases hp : (i < k || k + n ≤ i) = true
    · rw [Memory.clear, List.filter_cons_of_pos (by simpa using hp)]
      have : ¬i = j := by rintro rfl; simp at hp; omega
      unfold Memory.read
      rw [if_neg this]
      exact ih
    · rw [Memory.clear, List.filter_cons_of_neg (by simpa using hp)]
      exact ih

/-! ### Numbers and bytes -/

@[simp] theorem leBytes_length (n v : Nat) : (leBytes n v).length = n := by
  induction n generalizing v with
  | zero => rfl
  | succ n ih => simp [leBytes, ih]

theorem leNat_lt (bs : List Byte) : leNat bs < 2 ^ (8 * bs.length) := by
  induction bs with
  | nil => simp [leNat]
  | cons b bs ih =>
    have hb := b.isLt
    simp only [leNat, List.length_cons]
    have : 2 ^ (8 * (bs.length + 1)) = 256 * 2 ^ (8 * bs.length) := by
      rw [show 8 * (bs.length + 1) = 8 * bs.length + 8 by omega, Nat.pow_add]; omega
    omega

/-- A number's bytes give the number again, as far as they reach. -/
theorem leNat_leBytes (n v : Nat) : leNat (leBytes n v) = v % 2 ^ (8 * n) := by
  induction n generalizing v with
  | zero => simp [leBytes, leNat, Nat.mod_one]
  | succ n ih =>
    simp only [leBytes, leNat, ih, BitVec.toNat_ofNat]
    rw [show 8 * (n + 1) = 8 + 8 * n by omega, Nat.pow_add, Nat.mod_mul]

end Sys2Proof.Machine
end

