-- ==== Sys2Proof/Laws/Storage.lean ====
section
/-! SUPPORT. What the firmware's operations on storage do: storage given out is free, a new object is there to be read, and
units given to a gang leave the memory of the stacks as it is. -/

namespace Sys2Proof.Machine

/-! ### What an operation on units keeps -/

/-- The memory of the stacks and of the host, and what decides who may use it, are as they were. -/
structure Kept (s t : State) : Prop where
  unmarked : Unmarked s → Unmarked t
  regions : t.regions = s.regions
  lost : t.lost = s.lost
  pkg : t.pkg = s.pkg
  mem : ∀ a, a < 2 ^ 60 → t.mem.read a = s.mem.read a

theorem Kept.refl (s : State) : Kept s s := ⟨id, rfl, rfl, rfl, fun _ _ => rfl⟩

theorem Kept.trans {s t u : State} (h : Kept s t) (k : Kept t u) : Kept s u :=
  ⟨k.unmarked ∘ h.unmarked, k.regions.trans h.regions, k.lost.trans h.lost, k.pkg.trans h.pkg,
    fun a ha => (k.mem a ha).trans (h.mem a ha)⟩

theorem Kept.foldl {α : Type} {f : State → α → State} (h : ∀ s a, Kept s (f s a)) (l : List α) (s : State) :
    Kept s (l.foldl f s) := by
  induction l generalizing s with
  | nil => exact Kept.refl s
  | cons a l ih => exact (h s a).trans (ih (f s a))

theorem Kept.setCore (s : State) (n : Nat) (k : Core) : Kept s (s.setCore n k) := ⟨id, rfl, rfl, rfl, fun _ _ => rfl⟩
theorem Kept.setQuad (s : State) (n : Nat) (k : Quad) : Kept s (s.setQuad n k) := ⟨id, rfl, rfl, rfl, fun _ _ => rfl⟩
theorem Kept.setSect (s : State) (n : Nat) (k : Section) : Kept s (s.setSect n k) := ⟨id, rfl, rfl, rfl, fun _ _ => rfl⟩
theorem Kept.setGang (s : State) (n : Nat) (g : Gang) : Kept s (s.setGang n g) := ⟨id, rfl, rfl, rfl, fun _ _ => rfl⟩
theorem Kept.setEngine (s : State) (n : Nat) (e : Engine) : Kept s (s.setEngine n e) := Kept.setQuad s _ _
theorem Kept.returnCredit (s : State) (n p : Nat) : Kept s (s.returnCredit n p) := Kept.setEngine s _ _

theorem Kept.setThread (s : State) (n : Nat) (t : Thread) : Kept s (s.setThread n t) := by
  unfold State.setThread
  split <;> exact ⟨id, rfl, rfl, rfl, fun _ _ => rfl⟩

/-- On-die memory cleared: places from 2⁶⁰ up. -/
theorem Kept.clearRange (s : State) {k n : Nat} (h : 2 ^ 60 ≤ k) : Kept s (s.clearRange k n) :=
  ⟨fun u => ⟨by simp [State.clearRange, u.1], u.2.1, u.2.2⟩, rfl, rfl, rfl, fun _ ha => Memory.read_clear_out _ _ _ (.inl (by omega))⟩

theorem Kept.fillOnDie (s : State) {k : Nat} (h : 2 ^ 60 ≤ k) (bs : List Byte) : Kept s (s.fillOnDie k bs) :=
  ⟨id, rfl, rfl, rfl, fun _ ha => Memory.read_writeList_other _ _ _ (.inl (by omega))⟩

theorem Kept.performRingLeave (s : State) (e : Nat) : Kept s (performRingJoin s e none) :=
  (Kept.setEngine s _ _).trans (Kept.foldl (fun _ _ => Kept.returnCredit _ _ _) _ _)

theorem Kept.scrubCore (s : State) (c : Nat) : Kept s (s.scrubCore c) :=
  (Kept.clearRange s (by unfold localBase; omega)).trans
    ((Kept.setCore _ _ _).trans ((Kept.setThread _ _ _).trans (Kept.setThread _ _ _)))

theorem Kept.scrubQuad (s : State) (q : Nat) : Kept s (s.scrubQuad q) :=
  (Kept.clearRange s (by unfold quadBase; omega)).trans
    ((Kept.performRingLeave _ _).trans ((Kept.performRingLeave _ _).trans
      ((Kept.setQuad _ _ _).trans (Kept.foldl (fun _ _ => Kept.setThread _ _ _) _ _))))

theorem Kept.scrubSection (s : State) (n : Nat) : Kept s (s.scrubSection n) := Kept.clearRange s (by unfold sectionBase; omega)
theorem Kept.scrubShare (s : State) (q : Nat) : Kept s (s.scrubShare q) := Kept.clearRange s (by unfold sectionBase; omega)

/-- Units given to a gang (R346): nothing outside the on-die memories changes. -/
theorem Kept.giveUnits (s : State) (g : Gang) (cores : List Nat) (l2 : Nat → Nat) : Kept s (s.giveUnits g cores l2) := by
  unfold State.giveUnits
  dsimp only
  refine Kept.trans ?_ (Kept.foldl (fun s c => Kept.foldl (fun s t => Kept.setThread s t _) _ s) _ _)
  have h : ∀ t : State, Kept t (if g.level = 0 then (quadsOf cores).foldl State.scrubShare t else (sectionsOf cores).foldl State.scrubSection t) := by
    intro t
    split
    · exact Kept.foldl Kept.scrubShare _ _
    · exact Kept.foldl Kept.scrubSection _ _
  refine Kept.trans ?_ (h _)
  refine Kept.trans ?_ (Kept.foldl (fun s c => (Kept.setCore s _ _).trans (Kept.scrubCore _ _)) _ _)
  refine Kept.trans ?_ (Kept.foldl (fun s q => (Kept.setQuad s _ _).trans (Kept.scrubQuad _ _)) _ _)
  refine Kept.foldl (fun s n => ?_) _ s
  split
  · exact Kept.refl s
  · exact Kept.setSect s _ _

/-- What a new object leaves as it was. -/
structure Stored (s t : State) : Prop where
  unmarked : Unmarked s → Unmarked t
  regions : t.regions = s.regions
  lost : t.lost = s.lost
  pkg : t.pkg = s.pkg
  pmc : t.pmc = s.pmc
  gangs : t.gangs = s.gangs
  hostOut : t.hostOut = s.hostOut
  routes : t.routes = s.routes

theorem Stored.trans {s t u : State} (h : Stored s t) (k : Stored t u) : Stored s u :=
  ⟨k.unmarked ∘ h.unmarked, k.regions.trans h.regions, k.lost.trans h.lost, k.pkg.trans h.pkg, k.pmc.trans h.pmc,
    k.gangs.trans h.gangs, k.hostOut.trans h.hostOut, k.routes.trans h.routes⟩

theorem Stored.setMem (s : State) (m : Memory) : Stored s (s.setMem m) := ⟨fun u => u, rfl, rfl, rfl, rfl, rfl, rfl, rfl⟩
theorem Stored.setRecord (s : State) (c n : Nat) (r : ObjRec) : Stored s (s.setRecord c n r) := by
  unfold State.setRecord
  exact Stored.setMem s _
theorem Stored.setEntry (s : State) (o : ObjRec) (b : Nat) (e : ResEntry) : Stored s (s.setEntry o b e) := Stored.setMem s _

theorem setRecord_storage (s : State) (c n : Nat) (r : ObjRec) : (s.setRecord c n r).storage = s.storage := by
  unfold State.setRecord
  rw [State.setMem_storage]

theorem setRecord_wf {s : State} (h : s.mem.wf = true) (c n : Nat) (r : ObjRec) : (s.setRecord c n r).mem.wf = true := by
  unfold State.setRecord
  rw [State.setMem_mem]
  exact Memory.writeList_wf h _ _

/-! ### Free numbers, generations and storage -/

/-- A choice among spots of which one will do. -/
theorem find?_spot {α : Type} {p : α → Bool} {l : List α} {a : α} (h : a ∈ l) (hp : p a = true) : ∃ b, l.find? p = some b ∧ p b = true := by
  obtain ⟨b, hb⟩ := Option.isSome_iff_exists.mp (List.find?_isSome.mpr ⟨a, h, hp⟩)
  exact ⟨b, hb, List.find?_some hb⟩

theorem stacksOf_congr {s t : State} (h : t.pkg = s.pkg) (hr : t.routes = s.routes) (tier : Nat) : stacksOf t tier = stacksOf s tier := by
  unfold stacksOf
  rw [h, hr]

theorem storageFree_congr {s t : State} (h : t.pkg = s.pkg) (hr : t.routes = s.routes) (hs : t.storage = s.storage) (hp : t.pmc = s.pmc) (tier size key : Nat) :
    storageFree t tier size key = storageFree s tier size key := by
  unfold storageFree
  rw [stacksOf_congr h hr, hs, hp]

/-- Storage is given out whenever some stack has room at its base. -/
theorem allocate_ok {s : State} {tier size : Nat} {k : Nat × Nat} (hk : k ∈ stacksOf s tier)
    (hf : storageFree s tier size ((k.1 + size - 1) / size * size) = true) :
    ∃ key t, s.allocate tier size = some (key, t) ∧ Stored s t ∧ t.mem = s.mem ∧ t.poison = s.poison ∧ t.storage = (key, size) :: s.storage
      ∧ storageFree s tier size key = true := by
  obtain ⟨key, h, hp⟩ := find?_spot (p := storageFree s tier size)
    (l := ((((stacksOf s tier).map (·.1)).headD 0) + Config.firmwareChoice s.fresh % 2 ^ 40 / size * size)
      :: (stacksOf s tier).map (fun k => (k.1 + size - 1) / size * size)
      ++ s.storage.map (fun b => (b.1 + b.2 + size - 1) / size * size) ++ s.pmc.retired.map fun f => ((f + 1) * 65536 + size - 1) / size * size)
    (by simp only [List.cons_append, List.mem_cons, List.mem_append, List.mem_map]
        exact .inr (.inl (.inl ⟨k, hk, rfl⟩))) hf
  have he : s.allocate tier size = some (key, { s with storage := (key, size) :: s.storage, fresh := s.fresh + 1 }) := by
    unfold State.allocate
    simp only [h, Option.map_some]
  refine ⟨key, _, he, ⟨fun u => u, rfl, rfl, rfl, rfl, rfl, rfl, rfl⟩, rfl, rfl, rfl, hp⟩

theorem freeId_ok (s : State) : ∃ n, s.freeId [] = some (n, { s with fresh := s.fresh + 1 }) := by
  obtain ⟨n, h, -⟩ := find?_spot (p := fun n => decide (0 < n) && decide (n < 65536) && !([] : List Nat).contains n)
    (l := Config.firmwareChoice s.fresh % 65536 :: 1 :: ([] : List Nat).map (· + 1)) (a := 1) (by simp) (by decide)
  exact ⟨n, by unfold State.freeId; simp only [h, Option.map_some]⟩

/-- A free number is found where the number after some generation's is one. -/
theorem freeNumber_ok {s : State} {c i : Nat} (hi : i = 1 ∨ ∃ e ∈ (s.context c).gens, i = e.1 + 1)
    (h : (decide (0 < i) && decide (i < 2 ^ bits (s.context c).ortb 0 6) && absent s c i
      && !(s.recordWrites.any fun w => w.cells.any fun x => x.1 / 128 == recordAddr (s.context c).ortb i / 128)) = true) :
    ∃ n t, s.freeNumber c = some (n, t) ∧ Stored s t ∧ t.mem = s.mem ∧ t.storage = s.storage ∧ t.context c = s.context c ∧ 0 < n ∧ n < 2 ^ bits (s.context c).ortb 0 6 ∧ absent s c n = true := by
  obtain ⟨n, hn, hp⟩ := find?_spot (p := fun i => decide (0 < i) && decide (i < 2 ^ bits (s.context c).ortb 0 6) && absent s c i
      && !(s.recordWrites.any fun w => w.cells.any fun x => x.1 / 128 == recordAddr (s.context c).ortb i / 128))
    (l := Config.firmwareChoice s.fresh % 2 ^ bits (s.context c).ortb 0 6 :: 1 :: (s.context c).gens.map fun e => e.1 + 1) (a := i)
    (by rcases hi with rfl | ⟨e, he, rfl⟩
        · simp
        · simp only [List.mem_cons, List.mem_map]
          exact .inr (.inr ⟨e, he, rfl⟩)) h
  simp only [Bool.and_eq_true, decide_eq_true_eq] at hp
  have he : s.freeNumber c = some (n, { s with fresh := s.fresh + 1 }) := by
    unfold State.freeNumber
    simp only [hn, Option.map_some]
  exact ⟨n, _, he, ⟨fun u => u, rfl, rfl, rfl, rfl, rfl, rfl, rfl⟩, rfl, rfl, rfl,
    hp.1.1.1, hp.1.1.2, hp.1.2⟩

/-- A fresh generation is found for a number that has held at most generation 1. -/
theorem freeGen_ok {s : State} {c n : Nat} (h : ∀ e ∈ (s.context c).gens, e.2 = 1) :
    ∃ g t, s.freeGen c n = some (g, t) ∧ Stored s t ∧ t.mem = s.mem ∧ t.storage = s.storage ∧ 0 < g ∧ g < 2 ^ 32 := by
  have hh : ∀ x ∈ ((s.context c).gens.filter fun e => e.1 == n).map (·.2), x = 1 := by
    intro x hx
    obtain ⟨e, he, rfl⟩ := List.mem_map.mp hx
    exact h e (List.mem_filter.mp he).1
  generalize hl : ((s.context c).gens.filter fun e => e.1 == n).map (·.2) = held at hh
  have : ∃ a ∈ Config.firmwareChoice s.fresh % 2 ^ 32 :: 1 :: held.map (· + 1),
      (decide (0 < a) && decide (a < 2 ^ 32) && !held.contains a) = true := by
    cases held with
    | nil => exact ⟨1, by simp, by decide⟩
    | cons x l =>
      have hx : x = 1 := hh x List.mem_cons_self
      refine ⟨2, by simp [hx], ?_⟩
      have : (2 : Nat) ∉ x :: l := fun hm => by have := hh 2 hm; omega
      simp [this]
  obtain ⟨a, ha, hp⟩ := this
  obtain ⟨g, hg, hp⟩ := find?_spot (p := fun g => decide (0 < g) && decide (g < 2 ^ 32) && !held.contains g) ha hp
  simp only [Bool.and_eq_true, decide_eq_true_eq] at hp
  have he : s.freeGen c n
      = some (g, { s.setContext c { s.context c with gens := (n, g) :: (s.context c).gens } with fresh := s.fresh + 1 }) := by
    unfold State.freeGen
    simp only [hl, hg, Option.map_some]
  refine ⟨g, _, he, ⟨fun u => u, rfl, rfl, rfl, rfl, rfl, rfl, rfl⟩, rfl, rfl,
    hp.1.1, hp.1.2⟩

/-! ### New objects -/

theorem newRecord_eq {s s1 s2 s3 : State} {c n g key : Nat} {o : ObjRec} (hn : s.freeNumber c = some (n, s1))
    (hg : s1.freeGen c n = some (g, s2)) (ha : s2.allocate 0 (roundStorage (8 * o.blocks)) = some (key, s3)) :
    s.newRecord c o = some (n, { o with valid := true, gen := g, map := key / 8 },
      (s3.setMem (s3.mem.clear key (roundStorage (8 * ObjRec.blocks { o with valid := true, gen := g, map := key / 8 })))).setRecord c n
        { o with valid := true, gen := g, map := key / 8 }) := by
  unfold State.newRecord
  rw [hn]
  dsimp only
  rw [hg]
  dsimp only
  rw [ha]

/-- A record for an object of one block: free number, fresh generation and a map. -/
theorem newRecord_ok {s : State} {c i : Nat} {k : Nat × Nat} (o : ObjRec) (hb : o.blocks = 1)
    (hi : i = 1 ∨ ∃ e ∈ (s.context c).gens, i = e.1 + 1)
    (h : (decide (0 < i) && decide (i < 2 ^ bits (s.context c).ortb 0 6) && absent s c i
      && !(s.recordWrites.any fun w => w.cells.any fun x => x.1 / 128 == recordAddr (s.context c).ortb i / 128)) = true)
    (hg : ∀ e ∈ (s.context c).gens, e.2 = 1) (hk : k ∈ stacksOf s 0)
    (hf : storageFree s 0 4096 ((k.1 + 4096 - 1) / 4096 * 4096) = true) :
    ∃ n g key t, s.newRecord c o = some (n, { o with valid := true, gen := g, map := key / 8 }, t) ∧ Stored s t
      ∧ storageFree s 0 4096 key = true ∧ t.storage = (key, 4096) :: s.storage ∧ (s.mem.wf = true → t.mem.wf = true) := by
  obtain ⟨n, s1, hn, k1, m1, a1, c1, -, -, -⟩ := freeNumber_ok hi h
  obtain ⟨g, s2, hg2, k2, m2, a2, -, -⟩ := freeGen_ok (s := s1) (c := c) (n := n) (by rw [c1]; exact hg)
  have k12 := k1.trans k2
  have hfr : ∀ x, storageFree s2 0 4096 x = storageFree s 0 4096 x := fun x => storageFree_congr k12.pkg k12.routes (a2.trans a1) k12.pmc 0 4096 x
  obtain ⟨key, s3, hkey, k3, m3, -, a3, hfree⟩ := allocate_ok (s := s2) (size := 4096) (tier := 0) (k := k)
    (by rw [stacksOf_congr k12.pkg k12.routes]; exact hk) (by rw [hfr]; exact hf)
  refine ⟨n, g, key, _, newRecord_eq hn hg2 (by rw [hb]; exact hkey), ?_, ?_, ?_, ?_⟩
  · exact (k12.trans k3).trans ((Stored.setMem _ _).trans (Stored.setRecord _ _ _ _))
  · rw [← hfr]; exact hfree
  · rw [setRecord_storage, State.setMem_storage, a3, a2, a1]
  · intro hw
    exact setRecord_wf (by rw [State.setMem_mem]; exact Memory.clear_wf (by rw [m3, m2, m1]; exact hw) _ _) _ _ _

theorem Memory.readList_writeList {m : Memory} (h : m.wf = true) (k : Nat) (bs : List Byte) :
    (m.writeList k bs).readList k bs.length = bs := by
  unfold Memory.readList
  refine List.ext_getElem (by simp) fun i h1 h2 => ?_
  simp only [List.getElem_map, List.getElem_range]
  exact Memory.read_writeList_at h k bs i h2

/-- An entry reads as it was written. -/
theorem ResEntry.ofNat_toNat {b : Nat} (t : Nat) (hb : b < 2 ^ 44) (ht : t < 4) :
    ResEntry.ofNat ({ valid := true, dmg := false, tier := t, size := 0, base := b, reserved := false : ResEntry }.toNat % 2 ^ 64)
      = { valid := true, dmg := false, tier := t, size := 0, base := b, reserved := false } := by
  simp only [ResEntry.ofNat, ResEntry.toNat, field, if_true, Bool.false_eq_true, if_false, ResEntry.mk.injEq, beq_eq_false_iff_ne, bne_eq_false_iff_eq, beq_iff_eq]
  omega

theorem placeRho_eq (s : State) (key size rho : Nat) : ∃ d, s.placeRho key size rho = { s with dies := d } := by
  have hs : ∀ (s : State) (f : Nat × Nat), ∃ d, s.setRho f.1 f.2 (BitVec.ofNat 3 rho) = { s with dies := d } := fun s f => ⟨_, rfl⟩
  have hl : ∀ (l : List Nat) (s : State), ∃ d, l.foldl (fun s i =>
      let f := frameOf (key + 65536 * i); s.setRho f.1 f.2 (BitVec.ofNat 3 rho)) s = { s with dies := d } := by
    intro l
    induction l with
    | nil => exact fun s => ⟨s.dies, rfl⟩
    | cons a l ih =>
      intro s
      obtain ⟨d, hd⟩ := ih (s.setRho (frameOf (key + 65536 * a)).1 (frameOf (key + 65536 * a)).2 (BitVec.ofNat 3 rho))
      exact ⟨d, hd⟩
  unfold State.placeRho
  split
  · exact ⟨s.dies, rfl⟩
  · split
    · exact hl _ s
    · split
      · exact ⟨s.dies, rfl⟩
      · exact hs s _

/-- A block of 4 KiB of an object without encryption and scales is made resident. -/
theorem makeResident_ok {s : State} {c n tier map : Nat} {k : Nat × Nat} (o : ObjRec) (ho : o.map = map / 8) (hm : map % 8 = 0)
    (hs : o.storage = 4096) (hz : o.sizeCode = 0) (hc : o.scaleBytes = 0) (he : o.enc = false) (ht : tier < 2) (hw : s.mem.wf = true)
    (hp : s.pkg = 0) (hk : k ∈ stacksOf s tier) (hf : storageFree s tier 4096 ((k.1 + 4096 - 1) / 4096 * 4096) = true) :
    ∃ key t, s.makeResident c n o 0 tier = some t ∧ Stored s t ∧ storageFree s tier 4096 key = true
      ∧ t.storage = (key, 4096) :: s.storage ∧ t.mem.wf = true ∧ key / 4096 < 2 ^ 44
      ∧ ResEntry.ofNat (t.mem.readNat map 8) = { valid := true, dmg := false, tier, size := 0, base := key / 4096, reserved := false } := by
  obtain ⟨key, s1, hkey, k1, m1, p1, a1, hfree⟩ := allocate_ok hk hf
  have hlt : key / 4096 < 2 ^ 44 := by
    unfold storageFree at hfree
    simp only [Bool.and_eq_true, List.any_eq_true, decide_eq_true_eq] at hfree
    obtain ⟨x, hx, -, h2⟩ := hfree.1.1.2
    have : x.1 + x.2 ≤ 2 ^ 41 := by
      rcases (by omega : tier = 0 ∨ tier = 1) with rfl | rfl <;>
        simp only [stacksOf, hp, List.mem_map, List.mem_range] at hx <;> obtain ⟨j, hj, rfl⟩ := hx <;> dsimp only <;> omega
    omega
  let s2 : State := { s1 with mem := s1.mem.clear key 4096, poison := s1.poison.filter fun l => 256 * l < key || key + 4096 ≤ 256 * l }
  have h1 : s1.firstTouch o (keySlot (s1.context c) o) n 0 key = s2 := by
    unfold State.firstTouch
    simp only [he, hs, hc, Bool.false_eq_true, if_false, List.range_zero, List.map_nil, State.storeCells, List.filter_nil, List.foldl_nil, List.filterMap_nil, List.dedup_nil]
    rfl
  obtain ⟨d, hd⟩ := placeRho_eq s2 key 4096 o.logRho
  refine ⟨key, ({ s2 with dies := d } : State).setEntry o 0
    { valid := true, dmg := false, tier := tier, size := o.sizeCode, base := (if tier = 2 then key - hostBase else key) / 4096, reserved := false }, ?_, ?_, hfree, a1, ?_, hlt, ?_⟩
  · unfold State.makeResident
    simp only [he, Bool.and_false, Bool.false_eq_true, if_false, hs, hkey, h1, hd]
  · have k2 : Stored s1 { s2 with dies := d } := ⟨fun u => ⟨by simp [s2, u.1], u.2.1, u.2.2⟩, rfl, rfl, rfl, rfl, rfl, rfl, rfl⟩
    exact (k1.trans k2).trans (Stored.setEntry _ _ _ _)
  · exact Memory.writeList_wf (Memory.clear_wf (by rw [m1]; exact hw) _ _) _ _
  · have hmap : o.map * 8 + 8 * 0 = map := by omega
    have htier : (if tier = 2 then key - hostBase else key) = key := if_neg (by omega)
    show ResEntry.ofNat (((s1.mem.clear key 4096).writeList (o.map * 8 + 8 * 0) (leBytes 8 _)).readNat map 8) = _
    rw [hmap, hz, htier, m1, Memory.readNat]
    have := Memory.readList_writeList (Memory.clear_wf hw key 4096) map (leBytes 8 (ResEntry.toNat
      { valid := true, dmg := false, tier := tier, size := 0, base := key / 4096, reserved := false }))
    rw [leBytes_length] at this
    rw [this, leNat_leBytes]
    exact ResEntry.ofNat_toNat tier hlt (by omega)

/-- Some stack of near memory has room at its base: three blocks meet at most three of the eight stacks. -/
theorem near_room {s : State} {k : Nat} (hp : s.pkg = 0) (hr : s.pmc.retired = []) (hs : s.storage = (k, 4096) :: [(0, 2 ^ 20)]) :
    ∃ b ∈ stacksOf s 0, storageFree s 0 4096 ((b.1 + 4096 - 1) / 4096 * 4096) = true := by
  have hm : ∀ i, i < 8 → (i * 2 ^ 36, 64 * 2 ^ 30) ∈ stacksOf s 0 := by
    intro i hi
    simp only [stacksOf, hp, List.mem_map, List.mem_range]
    exact ⟨i, hi, by simp⟩
  have hf : ∀ i, i < 8 → 0 < i → (k + 4096 ≤ i * 2 ^ 36 ∨ i * 2 ^ 36 + 4096 ≤ k) →
      storageFree s 0 4096 ((i * 2 ^ 36 + 4096 - 1) / 4096 * 4096) = true := by
    intro i hi h0 hk
    have he : (i * 2 ^ 36 + 4096 - 1) / 4096 * 4096 = i * 2 ^ 36 := by omega
    rw [he]
    unfold storageFree
    simp only [hs, hr, Bool.and_eq_true, List.any_eq_true, List.all_cons, List.all_nil, Bool.or_eq_true, decide_eq_true_eq, beq_iff_eq, and_true]
    exact ⟨⟨by omega, _, hm i hi, by dsimp only; omega⟩, by omega, by omega⟩
  by_cases h : k + 4096 ≤ 1 * 2 ^ 36 ∨ 1 * 2 ^ 36 + 4096 ≤ k
  · exact ⟨_, hm 1 (by decide), hf 1 (by decide) (by decide) h⟩
  · exact ⟨_, hm 2 (by decide), hf 2 (by decide) (by decide) (by omega)⟩

/-- A new object of one block of 4 KiB, without encryption and scales. -/
theorem createObject_eq {s t u : State} {c n tier : Nat} {o o' : ObjRec} (h : s.newRecord c o = some (n, o', t)) (hb : o'.blocks = 1)
    (hm : t.makeResident c n o' 0 tier = some u) : s.createObject c o tier = some (n, o', u) := by
  unfold State.createObject
  rw [h]
  simp only [hb, List.range_one, List.foldlM_cons, List.foldlM_nil, hm, Option.bind_eq_bind, Option.bind_some]
  rfl

/-- A byte object of one block of 4 KiB is made in near memory, in a context whose table has room. -/
theorem createNear_ok {s : State} {c i : Nat} (o : ObjRec) (hb : o.blocks = 1) (ho : o.storage = 4096) (hz : o.sizeCode = 0)
    (hc : o.scaleBytes = 0) (he : o.enc = false)
    (hi : i = 1 ∨ ∃ e ∈ (s.context c).gens, i = e.1 + 1)
    (h : (decide (0 < i) && decide (i < 2 ^ bits (s.context c).ortb 0 6) && absent s c i
      && !(s.recordWrites.any fun w => w.cells.any fun x => x.1 / 128 == recordAddr (s.context c).ortb i / 128)) = true)
    (hg : ∀ e ∈ (s.context c).gens, e.2 = 1) (hw : s.mem.wf = true) (hp : s.pkg = 0) (hr : s.pmc.retired = [])
    (hs : s.storage = [(0, 2 ^ 20)]) :
    ∃ n g key base t, s.createObject c o 0 = some (n, { o with valid := true, gen := g, map := key / 8 }, t) ∧ Stored s t
      ∧ key % 4096 = 0 ∧ key < 2 ^ 39 ∧ base < 2 ^ 27 ∧ t.mem.wf = true
      ∧ ResEntry.ofNat (t.mem.readNat key 8) = { valid := true, dmg := false, tier := 0, size := 0, base, reserved := false } := by
  have hfree : ∀ t : State, t.pkg = 0 → ∀ k, storageFree t 0 4096 k = true → k % 4096 = 0 ∧ k + 4096 ≤ 2 ^ 39 := by
    intro t ht k hk
    unfold storageFree at hk
    simp only [Bool.and_eq_true, List.any_eq_true, decide_eq_true_eq, beq_iff_eq] at hk
    obtain ⟨x, hx, -, h2⟩ := hk.1.1.2
    simp only [stacksOf, ht, List.mem_map, List.mem_range] at hx
    obtain ⟨j, hj, rfl⟩ := hx
    exact ⟨hk.1.1.1, by dsimp only at h2; omega⟩
  have h1 : ∃ b ∈ stacksOf s 0, storageFree s 0 4096 ((b.1 + 4096 - 1) / 4096 * 4096) = true := by
    refine ⟨(1 * 2 ^ 36, 64 * 2 ^ 30), ?_, ?_⟩
    · simp only [stacksOf, hp, List.mem_map, List.mem_range]
      exact ⟨1, by decide, by simp⟩
    · unfold storageFree
      simp only [hs, hr, stacksOf, hp]
      decide
  obtain ⟨b, hbm, hbf⟩ := h1
  obtain ⟨n, g, key, t, ht, k1, kf, ks, kw⟩ := newRecord_ok o hb hi h hg hbm hbf
  have tp : t.pkg = 0 := k1.pkg.trans hp
  obtain ⟨hk8, hk39⟩ := hfree s hp key kf
  obtain ⟨b, hbm, hbf⟩ := near_room (s := t) (k := key) tp (by rw [k1.pmc]; exact hr) (by rw [ks, hs])
  obtain ⟨key2, u, hu, k2, kf2, -, kw2, -, ke⟩ := makeResident_ok (s := t) (c := c) (n := n) (tier := 0) (map := key)
    { o with valid := true, gen := g, map := key / 8 } rfl (by omega) ho hz hc he (by decide) (kw hw) tp hbm hbf
  obtain ⟨-, hk2⟩ := hfree t tp key2 kf2
  exact ⟨n, g, key, key2 / 4096, u, createObject_eq ht hb hu, k1.trans k2, hk8, by omega, by omega, kw2, ke⟩

end Sys2Proof.Machine
end

