-- ==== Sys2Proof/Machine/ServiceRegion.lean ====
section
/-! DEFINITION. The service region of a section's SRAM (15 R348, R349; 11 R295): where each of its areas lies, and the bytes
that the manual gives a layout for. No program reaches the region (R71); the state holds its content as lists, and these
definitions say what bytes those lists stand for. -/

namespace Sys2Proof.Machine

/-- The areas of a service region, from its lowest byte upward (R348). -/
inductive ServiceArea where
  | overflow | spilled | starts | tasks | trace | control
  deriving DecidableEq, Repr

/-- Bytes of an area (R348). -/
def ServiceArea.bytes : ServiceArea → Nat
  | .overflow => 2359296
  | .spilled => 147456
  | .starts => 81920
  | .tasks => 1179648
  | .trace => 65536
  | .control => 360448

/-- Offset of an area in the service region (R348). -/
def ServiceArea.offset : ServiceArea → Nat
  | .overflow => 0
  | .spilled => 2359296
  | .starts => 2506752
  | .tasks => 2588672
  | .trace => 3768320
  | .control => 3833856

/-- Places of an area, by its slots' size: the slot of a unit and a number in it. -/
def ServiceArea.slot (a : ServiceArea) (perUnit size unit i : Nat) : Nat := a.offset + (perUnit * unit + i) * size

/-- The first byte of a section's service region: the top 4 MiB of the directly addressed part (R268, R348). -/
def serviceBase (s : State) (sec : Nat) : Nat := sectionBase sec + sramBytes s sec

/-- Where an area of a section lies. -/
def ServiceArea.place (s : State) (sec : Nat) (a : ServiceArea) : Nat := serviceBase s sec + a.offset

/-- The 36,864 bytes of a context's overflow queue: 256 messages, oldest first (R348). -/
def overflowBytes (t : Thread) : List Byte := (List.range 256).flatMap fun i => messageBytes t.overflow[i]?

/-- Where the overflow queue of a context lies: 64 contexts, by their number in the section. -/
def overflowPlace (s : State) (tid : Nat) : Nat := ServiceArea.overflow.place s (sectionOf tid) + tid % 64 * 36864

/-- The 2,304 bytes of a context's spilled inbox: 16 slots laid out as those of an overflow queue (R348, R358). -/
def spilledBytes (t : Thread) : List Byte := (List.range 16).flatMap fun i => messageBytes t.inbox[i]?

/-- Where the spilled inbox of a context lies. -/
def spilledPlace (s : State) (tid : Nat) : Nat := ServiceArea.spilled.place s (sectionOf tid) + tid % 64 * 2304

/-- Where start message `i` of a core lies: 32 of 80 bytes for each core of the section (R348). -/
def startPlace (s : State) (core i : Nat) : Nat := serviceBase s (sectionOfCore core) + ServiceArea.starts.slot 32 80 (core % 32) i

/-- The 80 bytes of a waiting start message. The manual gives their size and no layout: each byte is a free value of what the
message holds. -/
def startBytes (m : StartMsg) : List Byte :=
  (List.range 80).map fun i => Config.startByte m.entry m.payload.toNat (m.header).toNat i

/-- Where task `i` of the section's task area `area` lies: a die queue of 1,024 tasks of 128 bytes before a gate table (R348,
R349). -/
def taskPlace (s : State) (sec area i : Nat) : Nat := ServiceArea.tasks.place s sec + area * 147456 + i * 128

/-- Where gate `n` of a task area lies. -/
def gatePlace (s : State) (sec area n : Nat) : Nat := ServiceArea.tasks.place s sec + area * 147456 + 131072 + 4 * n

/-- The 128 bytes of a queued task. The manual says what they hold, the control word, the payload and FEAT (R350), and gives no
layout: each byte is a free value of those. -/
def taskBytes (t : Task) : List Byte :=
  (List.range 128).map fun i => Config.taskByte t.control.toNat t.payload.toNat t.feat i

/-- The 16,384 bytes of a gang's gate table: 4,096 counts (R220, R348). -/
def gateBytes (g : Gang) : List Byte := (List.range 4096).flatMap fun i => leBytes 4 (g.gate i).toNat

/-- The 16-byte records of a trace ring, oldest first, and zeros where there are none yet (R295, R348). -/
def traceBytes (k : Section) : List Byte := fitted 65536 (k.trace.reverse.flatMap fun r => leBytes 16 r.toNat)

end Sys2Proof.Machine
end

