-- ==== Sys2Proof/Tests/Slice0.lean ====
section
/-! SUPPORT. Tests: ill-formed operands, decoding of words written out from the encodings of 04 to 08, single steps on small
states, and a state for each clause of each statement that meets its hypotheses. -/

namespace Sys2Proof.Tests

-- one theorem at a time: a thread for each would ask for more memory than there is
set_option Elab.async false

open Sys2Proof Sys2Proof.Machine Sys2Proof.Safety Sys2Proof.Claims

/-! ### Well-formedness: one ill-formed term for each check -/

theorem test_ill_formed_integer : ([.slli 1 2 true 32, .luis 1 2 5 16, .bext 1 2 60 4, .bins 1 2 0x3F 1, .aspace 1 2 0,
    .aspace 1 2 6] : List Instr).all (fun i => !i.wf) = true := by decide

theorem test_ill_formed_order : ([.fence .sect .relaxed, .pacq 1 .quad, .hurdle 0 .thread, .harrive 1 0 .system,
    .hwait 1 0 .thread, .htest 1 2 0 .system, .xphaseWait 1 0, .eretThread 0 0, .hint 5 0] : List Instr).all
    (fun i => !i.wf) = true := by decide

theorem test_ill_formed_vector : ([.vadd 1 2 3 0 .i8 false false, .vclass 0 1 1 0 .e4m3 false, .vceq 1 2 3 0 .i8 true,
    .vceq 1 2 3 0 .l6 false, .viadd 1 2 3 0 .f32, .viabs 1 2 0 .n8, .vqnt 1 2 3 0 .f32 false false,
    .vcvt 1 2 .f32 .f32 0 false false .rne false, .vldff 1 2 3 0 0, .vrnd 1 2 .e4m3 0 false .rne false] : List Instr).all
    (fun i => !i.wf) = true := by decide

theorem test_ill_formed_tile : ([.tmov 0 8, .tmma 0 1 2 .f64 false false false true, .tmma 0 1 2 .i8 true false false true,
    .tmma 0 9 2 .f16 false false false true, .tmma 0 1 9 .f16 false false false true,
    .tmmax 0 1 2 .f16 .e4m3 false false false true, .tmmas 0 1 7 2 .f16 .n2m4 false false false true,
    .tmmas 4 1 4 2 .f16 .n2m4 false false false true, .tmmas 0 1 4 10 .f16 .n2m4 false false false true,
    .tcvt 0 1 .bf16 .f32 .rne false false false 2, .tcvt 0 8 .bf16 .f32 .rne false false false 0,
    .tqnt 0 1 2 .e4m3 .rne false false false 0, .tqnt 0 1 4 .f32 .rne false false false 0,
    .tscl 0 1 2 .f16 .rne false false .row, .tadd 0 1 2 .i32 .rtz false false, .tadd 0 1 2 .f16 .rne false false,
    .trdc 0 .i64 1 2, .ttrn 0 8 .f32, .tring 0 8] : List Instr).all (fun i => !i.wf) = true := by decide

/-! ### Decoding: a word of every encoding, written out from its row of the opcode table and the field values -/

/-- Every word decodes to its instruction. -/
def decodes (l : List (IWord × Instr)) : Bool := l.all fun e => decide (decode e.1 = .ok e.2)

theorem test_decode_integer : decodes [
    (0x04A63C00, .add 5 6 7 true),
    (0x04A63C01, .sub 5 6 7 true),
    (0x04A63802, .and 5 6 7),
    (0x04A63803, .or 5 6 7),
    (0x04A63804, .xor 5 6 7),
    (0x04A63805, .andn 5 6 7),
    (0x04A63806, .orn 5 6 7),
    (0x04A63C07, .sll 5 6 7 true),
    (0x04A63C08, .srl 5 6 7 true),
    (0x04A63C09, .sra 5 6 7 true),
    (0x04A63C0A, .ror 5 6 7 true),
    (0x04A6380B, .slt 5 6 7),
    (0x04A6380C, .sltn 5 6 7),
    (0x04A6380D, .min 5 6 7),
    (0x04A6380E, .max 5 6 7),
    (0x04A6380F, .minn 5 6 7),
    (0x04A63810, .maxn 5 6 7),
    (0x04A63C11, .mul 5 6 7 true),
    (0x04A63812, .mulh 5 6 7),
    (0x04A63813, .mulhn 5 6 7),
    (0x04A63C14, .div 5 6 7 true),
    (0x04A63C15, .divn 5 6 7 true),
    (0x04A63C16, .rem 5 6 7 true),
    (0x04A63C17, .remn 5 6 7 true),
    (0x04A60418, .clz 5 6 true),
    (0x04A60419, .ctz 5 6 true),
    (0x04A6041A, .popc 5 6 true),
    (0x04A6081B, .sext 5 6 .h),
    (0x04A6081C, .zext 5 6 .h),
    (0x04A6391D, .sel 5 6 7 8)] = true := by
  decide +kernel

theorem test_decode_immediate : decodes [
    (0x08A6ACF1, .addi 5 6 44273),
    (0x0CA6ACF1, .andi 5 6 44273),
    (0x10A6ACF1, .ori 5 6 44273),
    (0x14A6ACF1, .xori 5 6 44273),
    (0x18A6ACF1, .slti 5 6 44273),
    (0x1CA6ACF1, .sltni 5 6 44273),
    (0x20A6080B, .slli 5 6 true 11),
    (0x20A61038, .srli 5 6 false 56),
    (0x20A62815, .srai 5 6 true 21),
    (0x20A6302A, .rori 5 6 false 42),
    (0x24A64123, .luis 5 6 4 291),
    (0x2CA60254, .bext 5 6 9 20),
    (0x2CA62203, .bins 5 6 8 3)] = true := by
  decide +kernel

theorem test_decode_window_and_branches : decodes [
    (0x28A00718, .kld 5 227),
    (0x28A60789, .kldIndexed 5 6 241),
    (0x28400632, .kldRef 2 99),
    (0x28450713, .kldRefIndexed 2 5 113),
    (0x30A6ACF1, .beq 5 6 44273),
    (0x34A6ACF1, .bne 5 6 44273),
    (0x38A6ACF1, .blt 5 6 44273),
    (0x3CA6ACF1, .bge 5 6 44273),
    (0x40A6ACF1, .bltn 5 6 44273),
    (0x44A6ACF1, .bgen 5 6 44273),
    (0x4870ACF1, .pbrAny 3 4 44273),
    (0x4871ACF1, .pbrAll 3 4 44273),
    (0x4872ACF1, .pbrNone 3 4 44273),
    (0x4CAB59E3, .jal 5 743907),
    (0x50A6ACF1, .jalr 5 6 44273)] = true := by
  decide +kernel

theorem test_decode_references : decodes [
    (0x54490000, .amov 2 9),
    (0x54492801, .aoff 2 9 5 0),
    (0x54492802, .asetf 2 9 5),
    (0x54492803, .asetb 2 9 5),
    (0x54A20004, .ageto 5 2),
    (0x54A20005, .agetn 5 2),
    (0x54453006, .amake 2 5 6),
    (0x544928C7, .acoord 2 9 5 6),
    (0x54A23008, .achk 5 2 6),
    (0x54450069, .aspace 2 5 3)] = true := by
  decide +kernel

theorem test_decode_scalar_memory : decodes [
    (0x58A46F02, .ld 5 2 6 120 .w),
    (0x58A46F05, .ldn 5 2 6 120 .h),
    (0x58525F07, .lda 2 9 5 120),
    (0x5CA46F02, .st 5 2 6 120 .w),
    (0x5C525F07, .sta 2 9 5 120),
    (0x60A4606C, .amoswap 5 2 6 .sect .acquire true),
    (0x60A4616C, .amoadd 5 2 6 .sect .acquire true),
    (0x60A4626C, .amoand 5 2 6 .sect .acquire true),
    (0x60A4636C, .amoor 5 2 6 .sect .acquire true),
    (0x60A4646C, .amoxor 5 2 6 .sect .acquire true),
    (0x60A4656C, .amomin 5 2 6 .sect .acquire true),
    (0x60A4666C, .amomax 5 2 6 .sect .acquire true),
    (0x60A4676C, .amominn 5 2 6 .sect .acquire true),
    (0x60A4686C, .amomaxn 5 2 6 .sect .acquire true),
    (0x60A4696C, .amocas 5 2 6 .sect .acquire true),
    (0x60A46A6C, .amofadd 5 2 6 .sect .acquire true)] = true := by
  decide +kernel

theorem test_decode_order_and_messages : decodes [
    (0x64000050, .fence .quad .release),
    (0x64005168, .pacq 5 .sect),
    (0x64000260, .hdrain .sect),
    (0x68053000, .msend 5 6),
    (0x6A253001, .msendv 17 5 6),
    (0x68053002, .msenda 5 6),
    (0x68A08803, .mrecv 5 17),
    (0x68A60004, .mwait 5 6),
    (0x68A00005, .mpeek 5),
    (0x68A00006, .mcount 5),
    (0x6C0000D8, .hurdle 3 .sect),
    (0x6CA000D9, .harrive 5 3 .sect),
    (0x6C0500DA, .hwait 5 3 .sect),
    (0x6CA6005B, .htest 5 6 1 .sect),
    (0x6CA00004, .xphase 5),
    (0x6CA60004, .xphaseWait 5 6),
    (0x6CA63805, .xsend 5 6 7)] = true := by
  decide +kernel

theorem test_decode_copy_and_tasks : decodes [
    (0x70020000, .cpsetSrc 2),
    (0x70020001, .cpsetDst 2),
    (0x70A03002, .cpgo 5 6),
    (0x70A60003, .cpwp 5 6),
    (0x70A60004, .cpstat 5 6),
    (0x70050005, .cpcancel 5),
    (0x74050000, .spawn 5),
    (0x74A00001, .tqget 5),
    (0x74053002, .gatedec 5 6),
    (0x74000003, .tqdone),
    (0x78007650, .repf 7 3 0 true false true)] = true := by
  decide +kernel

theorem test_decode_vector_float : decodes [
    (0x82329D30, .vadd 17 18 19 2 .f32 true false),
    (0x82329D31, .vsub 17 18 19 2 .f32 true false),
    (0x82329D32, .vmul 17 18 19 2 .f32 true false),
    (0x82329D33, .vmin 17 18 19 2 .f32 true false),
    (0x82329D34, .vmax 17 18 19 2 .f32 true false),
    (0x82329D35, .vabd 17 18 19 2 .f32 true false),
    (0x82329D36, .vaddmin 17 18 19 2 .f32 true false),
    (0x82329D37, .vcopysign 17 18 19 2 .f32 true false),
    (0x86329D30, .vfma 17 18 19 2 .f32 true false),
    (0x86329D31, .vfms 17 18 19 2 .f32 true false),
    (0x86329D32, .vfnma 17 18 19 2 .f32 true false),
    (0x86329D33, .vfnms 17 18 19 2 .f32 true false),
    (0x86329D34, .vdiv 17 18 19 2 .f32 true false),
    (0x86320535, .vsqrt 17 18 2 .f32 true false),
    (0x86320536, .vrcpe 17 18 2 .f32 true false),
    (0x86320537, .vrsqe 17 18 2 .f32 true false),
    (0x88719530, .vceq 3 17 18 2 .f32 true),
    (0x88719531, .vcne 3 17 18 2 .f32 true),
    (0x88719532, .vclt 3 17 18 2 .f32 true),
    (0x88719533, .vcle 3 17 18 2 .f32 true),
    (0x88719534, .vcgt 3 17 18 2 .f32 true),
    (0x88719535, .vcge 3 17 18 2 .f32 true),
    (0x88719536, .vcun 3 17 18 2 .f32 true),
    (0x88718D37, .vclass 3 17 17 2 .f32 true)] = true := by
  decide +kernel

theorem test_decode_vector_integer : decodes [
    (0x8E329C20, .viadd 17 18 19 2 .i16),
    (0x8E329C21, .visub 17 18 19 2 .i16),
    (0x8E329C22, .vimul 17 18 19 2 .i16),
    (0x8E329C23, .vimulh 17 18 19 2 .i16),
    (0x8E329C24, .vimin 17 18 19 2 .i16),
    (0x8E329C25, .vimax 17 18 19 2 .i16),
    (0x8E329C26, .viaddmin 17 18 19 2 .i16),
    (0x8E320427, .viabs 17 18 2 .i16),
    (0x92329C20, .vand 17 18 19 2 .i16),
    (0x92329C21, .vor 17 18 19 2 .i16),
    (0x92329C22, .vxor 17 18 19 2 .i16),
    (0x92329C23, .vandn 17 18 19 2 .i16),
    (0x92329C24, .vsll 17 18 19 2 .i16),
    (0x92329C25, .vsrl 17 18 19 2 .i16),
    (0x92329C26, .vsra 17 18 19 2 .i16),
    (0x92329C27, .vsel 17 18 19 2 .i16),
    (0x96329C20, .vshup 17 18 19 2 .i16),
    (0x96329C21, .vshdn 17 18 19 2 .i16),
    (0x96322C22, .vbcl 17 18 5 2 .i16),
    (0x96329C23, .vperm 17 18 19 2 .i16),
    (0x96329C2C, .vzip 17 18 19 2 .i16 true),
    (0x96329C2D, .vuzp 17 18 19 2 .i16 true),
    (0x96320426, .vrev 17 18 2 .i16),
    (0x96320427, .vcompr 17 18 2 .i16)] = true := by
  decide +kernel

theorem test_decode_vector_reduce_convert : decodes [
    (0x98B10530, .vrsum 5 17 2 .f32 true),
    (0x98B13531, .vrsumo 5 17 6 2 .f32 true),
    (0x98B10532, .vrmax 5 17 2 .f32 true),
    (0x98B10533, .vrmin 5 17 2 .f32 true),
    (0x98B10424, .vrand 5 17 2 .i16),
    (0x98B10425, .vror 5 17 2 .i16),
    (0x98B10536, .vrcnt 5 17 2 .f32 true),
    (0x9E329AA3, .vcvt 17 18 .f32 .f16 2 true false .rtz true),
    (0x9E3299A4, .vrnd 17 18 .f32 2 true .rup false),
    (0xA2322D90, .vqnt 17 18 5 2 .e4m3 true false),
    (0xA2322DB1, .vdqnt 17 18 5 2 .e5m2 true false),
    (0xA2322D32, .vscale 17 18 5 2 .f32 true false)] = true := by
  decide +kernel

theorem test_decode_vector_memory : decodes [
    (0xA6245F10, .vld 17 2 5 120 2),
    (0xA6245F11, .vst 17 2 5 120 2),
    (0xA6245F12, .vlds 17 2 5 120 2),
    (0xA6245F13, .vsts 17 2 5 120 2),
    (0xA6252F14, .vldg 17 2 18 120 2),
    (0xA6252F15, .vstg 17 2 18 120 2),
    (0xA6245F16, .vldb 17 2 5 120 2),
    (0xA6245F17, .vldff 17 2 5 120 2),
    (0xA8B13020, .vmovx 5 17 6 .i16),
    (0xAA253021, .vxmov 17 5 6 .i16),
    (0xAA250422, .vsplat 17 5 2 .i16),
    (0xAA3C6423, .vsplatk 17 227 2 .i16),
    (0xAA253424, .vidx 17 5 6 2 .i16),
    (0xA8653025, .vwhile 3 5 6 .i16),
    (0xA8A60026, .vgetl 5 6 .i16),
    (0xAC643000, .pand 3 4 6),
    (0xAC643001, .por 3 4 6),
    (0xAC643002, .pxor 3 4 6),
    (0xAC640003, .pnot 3 4),
    (0xACA30424, .pcnt 5 3 2 .i16),
    (0xAC640425, .pfirst 3 4 2 .i16),
    (0xAC650026, .pset 3 5 .i16),
    (0xAC640007, .pmov 3 4)] = true := by
  decide +kernel

theorem test_decode_tile_memory : decodes [
    (0xC14840A6, .tld 5 2 true 5 6),
    (0xC14844A6, .tst 5 2 true 5 6),
    (0xC1400800, .tzero 5),
    (0xC1580C00, .tmov 5 6),
    (0xC14090A0, .tfill 5 .w 5),
    (0xDA0800F1, .tsave 1 2 241),
    (0xDA0804F1, .trstr 1 2 241),
    (0xDA0008E3, .trel 1 227),
    (0xD5580000, .tring 5 6),
    (0xD4140400, .tringS 5),
    (0xD5400800, .tringR 5),
    (0xD5400CA6, .trjoin 5 5 6),
    (0xD5401005, .trstat 5 5),
    (0xD01400B1, .trdr 5 5 17),
    (0xD14040B1, .twrr 5 5 17),
    (0xD014A4B1, .trdc 5 .f32 5 17),
    (0xD140E8B1, .twrc 5 .f16 5 17),
    (0xD1592C00, .ttrn 5 6 .bf16)] = true := by
  decide +kernel

theorem test_decode_tile_math : decodes [
    (0xC559EC0A, .tmma 5 6 7 .bf16 true false true false),
    (0xC559E90A, .tmmat 5 6 7 .f16 true false true false),
    (0xC559EABA, .tmmax 5 6 7 .f16 .bf16 true false true false),
    (0xC8C12C9A, .tmmas 3 0 4 2 .bf16 .n1m2 true false true false),
    (0xCD5AE435, .tcvt 5 6 .bf16 .f32 .rtz true false true 1),
    (0xCD593196, .tqnt 5 6 4 .e4m3 .dyn true false true 2),
    (0xCD59E60A, .tscl 5 6 7 .f32 .rne true false .row),
    (0xCD59E768, .tadd 5 6 7 .f32 .rdn true false)] = true := by
  decide +kernel

theorem test_decode_system : decodes [
    (0xE19E3800, .syscall 13255),
    (0xE0053001, .trap 5 6),
    (0xE19E3802, .brk 13255),
    (0xE0000003, .eret),
    (0xE0A60003, .eretThread 5 6),
    (0xE0A60004, .waiti 5 6),
    (0xE4A00080, .csrrd 5 .recallcnt),
    (0xE4A61001, .csrwr 5 6 .fcsr),
    (0xE4A62001, .csrset 5 6 .fcsr),
    (0xE4A63001, .csrclr 5 6 .fcsr),
    (0xE8A60000, .scrubCore 5 6),
    (0xE8A61001, .ctxsave 5 6 2),
    (0xE8A61002, .ctxload 5 6 2),
    (0xECA28800, .tgath1 5 2 17),
    (0xEE329801, .vdot4 17 18 19),
    (0xFC06B3C7, .nop 439239),
    (0xFC122C47, .hpref 2 5 17 0 7),
    (0xFC222C78, .hstream 2 5 17 56),
    (0xFC322C47, .hevict 2 5 17 0 7),
    (0xFC4ACF1F, .hprio 177095 3),
    (0xFC5F1DE3, .hloop 967 483),
    (0xFC7B59E3, .hint 7 743907)] = true := by
  decide +kernel
/-- The words that the manual works out bit by bit (04 to 08). -/
theorem test_decode_worked : decodes [
    (0x04A63800, .add 5 6 7 false), (0x04A63C01, .sub 5 6 7 true), (0x04C6001A, .popc 6 6 false),
    (0x04A6391D, .sel 5 6 7 8), (0x20E82803, .srai 7 8 true 3), (0x24A04123, .luis 5 0 4 0x123),
    (0x2CA62203, .bins 5 6 8 3), (0x28400002, .kldRef 2 0), (0x28CA0001, .kldIndexed 6 10 0), (0x38A6FFFD, .blt 5 6 0xFFFD),
    (0x50010000, .jalr 0 1 0), (0x64000050, .fence .quad .release), (0x64009168, .pacq 9 .sect),
    (0x6814A800, .msend 20 21), (0x68A00004, .mwait 5 0), (0x6C000058, .hurdle 1 .sect), (0xE4A00001, .csrrd 5 .fcsr),
    (0xE4062001, .csrset 0 6 .fcsr), (0xE4E00080, .csrrd 7 .recallcnt), (0xC4806C01, .tmma 2 0 1 .bf16 false false false true),
    (0xC8C12C80, .tmmas 3 0 4 2 .bf16 .n2m4 false false false false), (0xCD4AE401, .tcvt 5 2 .bf16 .f32 .rne false false false 1),
    (0xD00800A3, .trdr 2 5 3), (0xD6000CA7, .trjoin 8 5 7), (0xE8A61001, .ctxsave 5 6 2)] = true := by
  decide +kernel

theorem test_decode_rejects : decode 0 = .error .undefinedInstruction ∧ decode 0xFC000000 ≠ .error .undefinedInstruction
    ∧ decode 0x64000040 = .error .reservedOperand ∧ decode 0xE4A00FFF = .error .reservedOperand := by
  decide +kernel

/-! ### Single steps -/

/-- Thread 0 of a gang of one core, about to run `add x5, x6, x7`. -/
def user : State := State.reset.withProgram 0x04A63800

/-- That thread with two `x` registers set. -/
def userX (a b : Word) : State := user.setTh { user.th with x := (user.th.x.set 6 a).set 7 b }

/-- That thread with a reference in `a2`. -/
def userA (r : Ref) : State := user.setTh { user.th with a := user.th.a.set 2 r }

/-- A reference to an offset of local memory (space 1) or the scratchpad (space 2) (R69). -/
def nearRef (sp off : Nat) : Ref := BitVec.ofNat 128 (sp * 2 ^ 80 + off)

/-- A fact about the state after an outcome. -/
def holdsAfter (o : Host.Outcome State Fault Refusal) (p : State → Bool) : Bool :=
  match o with
  | .next s => p s
  | _ => false

-- R62, R77: the first step runs the word at offset 0
theorem test_step_runs_word : holdsAfter (step (userX 3 4)) (fun s => s.th.x[5] == 7 && s.th.pc == 4) = true := by
  decide +kernel

-- R97: a .w form wraps at 32 bits and sign-extends
theorem test_add_w_wraps : holdsAfter (exec (.add 5 6 7 true) (userX 0x7FFFFFFF 1)) (fun s => s.th.x[5] == 0xFFFFFFFF80000000)
    = true := by
  decide +kernel

-- R98: the most negative dividend by -1, and a divisor of 0
theorem test_div_corners : holdsAfter (exec (.div 5 6 7 false) (userX 0x8000000000000000 0xFFFFFFFFFFFFFFFF))
      (fun s => s.th.x[5] == 0x8000000000000000) = true
    ∧ holdsAfter (exec (.rem 5 6 7 false) (userX 9 0)) (fun s => s.th.x[5] == 9) = true := by
  decide +kernel

-- R110: a target that is no multiple of 4 faults, and xd is unchanged
theorem test_jalr_misaligned : holdsAfter (exec (.jalr 5 6 2) (userX 8 0))
    (fun s => s.th.fcause == 0x05 && s.th.faddr == 10 && s.th.x[5] == 0 && s.th.run == .trapped) = true := by
  decide +kernel

-- R188, R190: a byte stored to the scratchpad is loaded back sign-extended
theorem test_store_load_byte : holdsAfter (exec (.st 6 2 0 3 .b) ((userX 0x180 0).setTh { (userX 0x180 0).th with
      a := user.th.a.set 2 (nearRef 2 64) })) (fun s => holdsAfter (exec (.ld 5 2 0 3 .b) s)
        (fun t => t.th.x[5] == 0xFFFFFFFFFFFFFF80 && t.mem.read (quadBase 0 + 67) == 0x80)) = true := by
  decide +kernel

-- R189: an access below the start of its space is out of shape, with the address in faddr
theorem test_load_out_of_shape : holdsAfter (exec (.ld 5 2 0 0x7F .d) (userA (nearRef 2 0)))
    (fun s => s.th.fcause == 0x06 && s.th.faddr == 0xFFFFFFFFFFFFFFF8) = true := by
  decide +kernel

-- R191: an atomic returns the old value, sign-extended from 32 bits
theorem test_amoadd_returns_old : holdsAfter (exec (.amoadd 5 2 6 .core .relaxed false)
      { (userX 1 0).setTh { (userX 1 0).th with a := user.th.a.set 2 (nearRef 2 0) } with
        mem := user.mem.writeList (quadBase 0) [0xFF, 0xFF, 0xFF, 0xFF] })
    (fun s => s.th.x[5] == 0xFFFFFFFFFFFFFFFF && s.mem.readNat (quadBase 0) 4 == 0) = true := by
  decide +kernel

-- R125: 1.0 + 1.0 = 2.0 in f32, in the active elements only
theorem test_vadd_active_only : holdsAfter (exec (.vadd 1 2 2 1 .f32 false false)
      (user.setTh { user.th with v := user.th.v.set 2 (BitVec.ofNat 1024 (0x3F800000 + 0x3F800000 * 2 ^ 32)),
                                 p := user.th.p.set 1 1 }))
    (fun s => s.th.v[1] == 0x40000000) = true := by
  decide +kernel

-- R128: a compare clears the predicate bits of elements where it does not hold
theorem test_vceq_bits : holdsAfter (exec (.vceq 3 2 4 0 .i32 false)
      (user.setTh { user.th with v := user.th.v.set 2 1, p := user.th.p.set 3 (BitVec.allOnes 128) }))
    (fun s => s.th.p[3] == BitVec.allOnes 128 - 15) = true := by
  decide +kernel

-- R164: tfill gives every element the value, and the tile is live
theorem test_tfill_live : holdsAfter (exec (.tfill 0 .b 6) (userX 0xAB 0))
    (fun s => (s.th.t[0]).any fun i => i.data.toNat % 2 ^ 32 == 0xABABABAB) = true := by
  decide +kernel

-- R226: a system call saves its code and the offset of its own word
theorem test_syscall_record : holdsAfter (exec (.syscall 2) user)
    (fun s => s.th.fcause == 0x11 && s.th.finfo == 2 && s.th.epc == 0 && s.th.run == .trapped) = true := by
  decide +kernel

-- R74, R82 step 3: a privileged CSR at user level is a privilege fault
theorem test_privilege_fault : holdsAfter (step (State.reset.withProgram 0xE4A00022)) (fun s => s.th.fcause == 0x04) = true := by
  decide +kernel

-- R82 step 2: the word 0 is an undefined instruction
theorem test_undefined_word : holdsAfter (step (State.reset.withProgram 0)) (fun s => s.th.fcause == 0x01) = true := by
  decide +kernel

-- R66 to R68: word 254 of the window is the thread's slot, and word 255 tells an F-die core
theorem test_window_identity : holdsAfter (exec (.kld 5 255) user) (fun s => s.th.x[5] == 1) = true
    ∧ holdsAfter (exec (.kld 5 254) user) (fun s => s.th.x[5] == 0) = true := by
  decide +kernel

-- R199, R201: a message within the quad is delivered at retirement, with the sender's tag and rank
theorem test_msend_quad : holdsAfter (exec (.msend 6 7) (userX 0 5))
    (fun s => s.th.inbox.map (·.header) == [0x8000000500000000] && (s.core 0).hold.isEmpty && s.th.pc == 4) = true := by
  decide +kernel

-- R397, R402: with no image that verifies, the boot ends in STATE 4
theorem test_reset_without_image : holdsAfter (exec .moduleReset State.reset) (fun s => s.pmc.state == 4) = true := by
  decide +kernel

/-! ### States that meet the hypotheses of the statements -/

theorem readable {t : Thread} {r : DestReg} (h : t.pend = []) (h' : t.poison = []) : Readable t r := by
  simp [Readable, h, h']

theorem readableX {t : Thread} {r : Rx} (h : t.pend = []) (h' : t.poison = []) : ReadableX t r := .inr (readable h h')

theorem source {t : Thread} {r : DestReg} (h : t.pend = []) (h' : t.poison = []) : Source t r := .inr (readable h h')

/-- An outcome is a next state. -/
def isNext (o : Host.Outcome State Fault Refusal) : Bool := holdsAfter o fun _ => true

theorem next_of {o : Host.Outcome State Fault Refusal} (h : isNext o = true) : ∃ t, o = .next t := by
  cases o with
  | next t => exact ⟨t, rfl⟩
  | fault _ => simp [isNext, holdsAfter] at h
  | refused _ => simp [isNext, holdsAfter] at h

theorem some_of {α : Type} {x : Option α} {p : α → Bool} (h : x.any p = true) : ∃ u, x = some u ∧ p u = true := by
  cases x with
  | none => cases h
  | some u => exact ⟨u, rfl, h⟩

theorem canHold_user (n : Nat) (h : n ≤ Config.holdEntries) : CanHold user n := by
  refine ⟨by decide, ?_, .inl (by decide +kernel)⟩
  have : (user.core (user.tid / 2)).hold.length = 0 := by decide +kernel
  omega

theorem witness_IntegerResult_register : integerWrites user.th (.add 5 6 7 true) = some (5, 0)
    ∧ ∀ r ∈ integerSources (.add 5 6 7 true), ReadableX user.th r :=
  ⟨by decide +kernel, fun _ _ => readableX rfl rfl⟩

theorem witness_IntegerResult_immediate : Instr.wf (.bext 5 6 8 3) = true
    ∧ immediateWrites (userX 0xABC00 0).th (.bext 5 6 8 3) = some (5, 0xC)
    ∧ ∀ r ∈ integerSources (.bext 5 6 8 3), ReadableX (userX 0xABC00 0).th r :=
  ⟨by decide, by decide +kernel, fun _ _ => readableX rfl rfl⟩

theorem witness_DivisionIdentity : (5 : Rx) ≠ 0 ∧ (8 : Rx) ≠ 0 ∧ ReadableX (userX 9 4).th 6 ∧ ReadableX (userX 9 4).th 7
    ∧ 9 = xVal (userX 9 4).th 6 % 2 ^ width true ∧ 4 = xVal (userX 9 4).th 7 % 2 ^ width true :=
  ⟨by decide, by decide, readableX rfl rfl, readableX rfl rfl, by decide +kernel, by decide +kernel⟩

theorem witness_BranchResult : branchGoes user.th (.beq 6 7 8) = some 32 ∧ ∀ r ∈ branchSources (.beq 6 7 8), ReadableX user.th r :=
  ⟨by decide +kernel, fun _ _ => readableX rfl rfl⟩

theorem witness_JumpResult : ReadableX user.th 6 ∧ jalrTarget user.th 6 8 % 4 = 0 := ⟨readableX rfl rfl, by decide +kernel⟩

theorem witness_JumpResult_misaligned : CanHold user 1 ∧ ReadableX user.th 6 ∧ jalrTarget user.th 6 2 % 4 ≠ 0 :=
  ⟨canHold_user 1 (by decide), readableX rfl rfl, by decide +kernel⟩

theorem witness_ConstantWindow : ReadableX (userX 5 0).th 6 ∧ (250 : Fin 256).val + xVal (userX 5 0).th 6 ≤ 255
    ∧ CanHold user 1 ∧ 255 < (251 : Fin 256).val + xVal (userX 5 0).th 6 :=
  ⟨readableX rfl rfl, by decide +kernel, canHold_user 1 (by decide), by decide +kernel⟩

theorem witness_ConstantWindow_reference : 254 = 2 * (127 : Fin 128).val + xVal user.th 6 ∧ 254 + 1 ≤ 255 ∧ 254 % 2 = 0
    ∧ 256 = 2 * (127 : Fin 128).val + xVal (userX 2 0).th 6 ∧ 255 < 256 + 1
    ∧ 253 = 2 * (126 : Fin 128).val + xVal (userX 1 0).th 6 ∧ 253 + 1 ≤ 255 ∧ 253 % 2 = 1 := by
  decide +kernel

theorem witness_ReferenceFields : refWrites user.th (.ageto 5 2) = some (.inr (5, 0))
    ∧ (∀ r ∈ (refSources (.ageto 5 2)).1, Readable user.th (.a r)) ∧ ∀ r ∈ (refSources (.ageto 5 2)).2, ReadableX user.th r :=
  ⟨by decide +kernel, fun _ _ => readable rfl rfl, fun _ _ => readableX rfl rfl⟩

/-! Vector -/

/-- A thread of an M-die. -/
def userM : State := { user with tid := 1024 }

/-- The thread with all flags enabled. -/
def userEn : State := user.setTh { user.th with fcsr := 0x3F00 }

theorem typeHere {s : State} {t : Ty} (h : t ≠ .f64) : TypeHere s t := fun h' => absurd h' h

theorem laneReadable {s : State} (o : LaneOp) (h : s.th.pend = []) (h' : s.th.poison = []) : LaneReadable s o :=
  ⟨readable h h', fun _ _ => readable h h', fun _ => readable h h'⟩

theorem keptReadable {s : State} {n : Nat} {on : Nat → Bool} {d : Rv} (h : s.th.pend = []) (h' : s.th.poison = []) :
    KeptReadable s n on d := fun _ => readable h h'

theorem witness_VectorElements : ∃ o, Instr.wf (.vadd 1 2 3 0 .f32 false false) = true
    ∧ laneOp (.vadd 1 2 3 0 .f32 false false) = some o ∧ TypeHere user o.t ∧ LaneReadable user o
    ∧ o.flags user &&& enabled user.th = 0 :=
  ⟨_, by decide, rfl, typeHere (by decide), laneReadable _ rfl rfl, by decide +kernel⟩

theorem witness_VectorElements_all : ∃ o, Instr.wf (.vsel 1 2 3 1 .i64) = true ∧ laneOp (.vsel 1 2 3 1 .i64) = some o
    ∧ o.all = true ∧ TypeHere user o.t ∧ LaneReadable user o ∧ o.flags user &&& enabled user.th = 0 :=
  ⟨_, by decide, rfl, rfl, typeHere (by decide), laneReadable _ rfl rfl, by decide +kernel⟩

theorem witness_VectorFaults_numeric : ∃ o, Instr.wf (.vdiv 1 2 3 0 .f32 false false) = true
    ∧ laneOp (.vdiv 1 2 3 0 .f32 false false) = some o ∧ TypeHere userEn o.t ∧ LaneReadable userEn o
    ∧ o.flags userEn &&& enabled userEn.th ≠ 0 ∧ CanHold userEn 1 :=
  ⟨_, by decide, rfl, typeHere (by decide), laneReadable _ rfl rfl, by decide +kernel, canHold_user 1 (by decide)⟩

theorem witness_VectorFaults_feature : ∃ o, laneOp (.vadd 1 2 3 0 .f64 false false) = some o ∧ ¬TypeHere userM o.t
    ∧ CanHold userM 1 := by
  refine ⟨_, rfl, fun h => absurd (h rfl) (by decide), by decide, ?_, .inl (by decide +kernel)⟩
  have : (userM.core (userM.tid / 2)).hold.length = 0 := by decide +kernel
  rw [this]; decide

/-- That thread with every element of `v2` alike and 254 in `x6`. -/
def userLike (n pat : Nat) : State :=
  userEn.setTh { userEn.th with
    v := userEn.th.v.set 2 (BitVec.ofNat 1024 ((List.range (128 / n)).foldl (fun x i => x + pat * 2 ^ (8 * n * i)) 0))
    x := userEn.th.x.set 6 254 }

theorem canHold_nan : CanHold (userLike 4 0x7FA00000) 1 := ⟨by decide, by decide +kernel, .inl (by decide +kernel)⟩
theorem canHold_big : CanHold (userLike 1 0x7E) 1 := ⟨by decide, by decide +kernel, .inl (by decide +kernel)⟩

-- a signalling NaN in binary32 raises NV in a compare, a sum, a conversion and a scaling; 448 x 2^127 is too large for binary32
theorem witness_VectorFaults_compare : ∃ o, Instr.wf (.vclt 1 2 3 0 .f32 false) = true ∧ compareOp (.vclt 1 2 3 0 .f32 false) = some o
    ∧ CanHold (userLike 4 0x7FA00000) 1 ∧ TypeHere (userLike 4 0x7FA00000) o.t ∧ Readable (userLike 4 0x7FA00000).th (.v o.a)
    ∧ (∀ b ∈ o.b, Readable (userLike 4 0x7FA00000).th (.v b))
    ∧ o.flags (userLike 4 0x7FA00000) &&& enabled (userLike 4 0x7FA00000).th ≠ 0 :=
  ⟨_, by decide, rfl, canHold_nan, typeHere (by decide), readable rfl rfl, fun _ _ => readable rfl rfl, by decide +kernel⟩

theorem witness_VectorFaults_reduce : ∃ o, Instr.wf (.vrsum 5 2 0 .f32 false) = true ∧ reduceOp (.vrsum 5 2 0 .f32 false) = some o
    ∧ CanHold (userLike 4 0x7FA00000) 1 ∧ TypeHere (userLike 4 0x7FA00000) o.t ∧ Readable (userLike 4 0x7FA00000).th (.v o.a)
    ∧ ReadableX (userLike 4 0x7FA00000).th o.b
    ∧ (o.value (userLike 4 0x7FA00000)).2 &&& enabled (userLike 4 0x7FA00000).th ≠ 0 :=
  ⟨_, by decide, rfl, canHold_nan, typeHere (by decide), readable rfl rfl, readableX rfl rfl, by decide +kernel⟩

theorem witness_VectorFaults_convert : ∃ f : Flags, CanHold (userLike 4 0x7FA00000) 1 ∧ 32 = 128 / max (Ty.f32.width / 8) (Ty.f16.width / 8)
    ∧ f = allFlags 32 (isActive .f32 (govern (userLike 4 0x7FA00000).th 0)) (fun e =>
      (convert .f32 .f16 (modeOf (userLike 4 0x7FA00000).th.fcsr) false false false (lane Ty.f32.width (userLike 4 0x7FA00000).th.v[(2 : Rv)] e)).2)
    ∧ TypeHere (userLike 4 0x7FA00000) .f32 ∧ TypeHere (userLike 4 0x7FA00000) .f16 ∧ Readable (userLike 4 0x7FA00000).th (.v 2)
    ∧ KeptReadable (userLike 4 0x7FA00000) 32 (isActive .f32 (govern (userLike 4 0x7FA00000).th 0)) 1
    ∧ f &&& enabled (userLike 4 0x7FA00000).th ≠ 0 :=
  ⟨_, canHold_nan, by decide, rfl, typeHere (by decide), typeHere (by decide), readable rfl rfl, keptReadable rfl rfl, by decide +kernel⟩

theorem witness_VectorFaults_quantise : ∃ (k : Nat) (f : Flags), CanHold (userLike 4 0x7FA00000) 1 ∧ Readable (userLike 4 0x7FA00000).th (.v 2)
    ∧ KeptReadable (userLike 4 0x7FA00000) 32 (isActive .f32 (govern (userLike 4 0x7FA00000).th 0)) 1
    ∧ k = blockScale .e4m3 ((activeLanes .f32 (govern (userLike 4 0x7FA00000).th 0) (userLike 4 0x7FA00000).th.v[(2 : Rv)]).map (fval .f32 false))
    ∧ f = allFlags 32 (isActive .f32 (govern (userLike 4 0x7FA00000).th 0)) (fun e =>
      (scaleRound .f32 .rne false (127 - (k : Int)) (fval .f32 false (lane 32 (userLike 4 0x7FA00000).th.v[(2 : Rv)] e))).2)
    ∧ f &&& enabled (userLike 4 0x7FA00000).th ≠ 0 :=
  ⟨_, _, canHold_nan, readable rfl rfl, keptReadable rfl rfl, rfl, rfl, by decide +kernel⟩

theorem witness_VectorFaults_dequantise : ∃ f : Flags, CanHold (userLike 1 0x7E) 1 ∧ Readable (userLike 1 0x7E).th (.v 2)
    ∧ KeptReadable (userLike 1 0x7E) 32 (fun e => (govern (userLike 1 0x7E).th 0).getLsbD e) 1 ∧ ReadableX (userLike 1 0x7E).th 6
    ∧ (f = allFlags 32 (fun e => (govern (userLike 1 0x7E).th 0).getLsbD e) fun e =>
      let x := fval .e4m3 false (lane 8 (userLike 1 0x7E).th.v[(2 : Rv)] e)
      if xVal (userLike 1 0x7E).th 6 % 256 = 255 ∨ x.isNan = true then 0
      else (scaleRound .f32 .rne false ((xVal (userLike 1 0x7E).th 6 % 256 : Nat) - 127) x).2)
    ∧ f &&& enabled (userLike 1 0x7E).th ≠ 0 :=
  ⟨_, canHold_big, readable rfl rfl, keptReadable rfl rfl, readableX rfl rfl, rfl, by decide +kernel⟩

theorem witness_VectorFaults_scale : ∃ f : Flags, CanHold (userLike 4 0x7FA00000) 1 ∧ Ty.f32.isBin = true
    ∧ f = allFlags (laneCount .f32) (isActive .f32 (govern (userLike 4 0x7FA00000).th 0)) (fun e =>
      (scaleRound .f32 (modeOf (userLike 4 0x7FA00000).th.fcsr) false
        (max (-8192) (min 8192 (sgn 64 (xVal (userLike 4 0x7FA00000).th 6)))) (fval .f32 false (lane Ty.f32.width (userLike 4 0x7FA00000).th.v[(2 : Rv)] e))).2)
    ∧ TypeHere (userLike 4 0x7FA00000) .f32 ∧ Readable (userLike 4 0x7FA00000).th (.v 2)
    ∧ KeptReadable (userLike 4 0x7FA00000) (laneCount .f32) (isActive .f32 (govern (userLike 4 0x7FA00000).th 0)) 1
    ∧ ReadableX (userLike 4 0x7FA00000).th 6 ∧ f &&& enabled (userLike 4 0x7FA00000).th ≠ 0 :=
  ⟨_, canHold_nan, by decide, rfl, typeHere (by decide), readable rfl rfl, keptReadable rfl rfl, readableX rfl rfl, by decide +kernel⟩

theorem witness_VectorFaults_types : (∃ o, Instr.wf (.vclt 1 2 3 0 .f64 false) = true ∧ compareOp (.vclt 1 2 3 0 .f64 false) = some o ∧ ¬TypeHere userM o.t)
    ∧ (∃ o, Instr.wf (.vrsum 5 2 0 .f64 false) = true ∧ reduceOp (.vrsum 5 2 0 .f64 false) = some o ∧ ¬TypeHere userM o.t)
    ∧ ¬(TypeHere userM .f64 ∧ TypeHere userM .f32) ∧ Ty.f64.isBin = true ∧ ¬TypeHere userM .f64 :=
  have h : ¬TypeHere userM .f64 := fun h => absurd (h rfl) (by decide)
  ⟨⟨_, by decide, rfl, h⟩, ⟨_, by decide, rfl, h⟩, fun h' => h h'.1, by decide, h⟩

theorem witness_VectorConvert : ∃ one : Nat → Nat × Flags, 32 = 128 / max (Ty.f32.width / 8) (Ty.f16.width / 8)
    ∧ TypeHere user .f32 ∧ TypeHere user .f16 ∧ Readable user.th (.v 2)
    ∧ KeptReadable user 32 (isActive .f32 (govern user.th 0)) 1
    ∧ (one = fun e => convert .f32 .f16 (modeOf user.th.fcsr) false false false (lane Ty.f32.width user.th.v[(2 : Rv)] e))
    ∧ allFlags 32 (isActive .f32 (govern user.th 0)) (fun e => (one e).2) &&& enabled user.th = 0 :=
  ⟨_, by decide, typeHere (by decide), typeHere (by decide), readable rfl rfl, keptReadable rfl rfl, rfl, by decide +kernel⟩

theorem witness_VectorCompare : ∃ o, Instr.wf (.vclt 1 2 3 0 .f16 false) = true ∧ compareOp (.vclt 1 2 3 0 .f16 false) = some o
    ∧ TypeHere user o.t ∧ Readable user.th (.v o.a) ∧ (∀ b ∈ o.b, Readable user.th (.v b))
    ∧ o.flags user &&& enabled user.th = 0 :=
  ⟨_, by decide, rfl, typeHere (by decide), readable rfl rfl, fun _ _ => readable rfl rfl, by decide +kernel⟩

theorem witness_VectorReduce : ∃ o, Instr.wf (.vrsum 5 2 0 .i16 false) = true ∧ reduceOp (.vrsum 5 2 0 .i16 false) = some o
    ∧ TypeHere user o.t ∧ Readable user.th (.v o.a) ∧ ReadableX user.th o.b ∧ (o.value user).2 &&& enabled user.th = 0 :=
  ⟨_, by decide, rfl, typeHere (by decide), readable rfl rfl, readableX rfl rfl, by decide +kernel⟩

theorem witness_BlockScaleResult_quantise : ∃ (k : Nat) (one : Nat → Nat × Flags), Readable user.th (.v 2)
    ∧ KeptReadable user 32 (isActive .f32 (govern user.th 0)) 1
    ∧ k = blockScale .e4m3 ((activeLanes .f32 (govern user.th 0) user.th.v[(2 : Rv)]).map (fval .f32 false))
    ∧ (one = fun e => scaleRound .f32 .rne false (127 - (k : Int)) (fval .f32 false (lane 32 user.th.v[(2 : Rv)] e)))
    ∧ allFlags 32 (isActive .f32 (govern user.th 0)) (fun e => (one e).2) &&& enabled user.th = 0 :=
  ⟨_, _, readable rfl rfl, keptReadable rfl rfl, rfl, rfl, by decide +kernel⟩

theorem witness_BlockScaleResult_dequantise : ∃ one : Nat → Nat × Flags, Readable user.th (.v 2)
    ∧ KeptReadable user 32 (fun e => (govern user.th 0).getLsbD e) 1 ∧ ReadableX user.th 6
    ∧ (one = fun e =>
      let x := fval .e4m3 false (lane 8 user.th.v[(2 : Rv)] e)
      if xVal user.th 6 % 256 = 255 ∨ x.isNan = true then (Ty.nan .f32, 0)
      else scaleRound .f32 .rne false ((xVal user.th 6 % 256 : Nat) - 127) x)
    ∧ allFlags 32 (fun e => (govern user.th 0).getLsbD e) (fun e => (one e).2) &&& enabled user.th = 0 :=
  ⟨_, readable rfl rfl, keptReadable rfl rfl, readableX rfl rfl, rfl, by decide +kernel⟩

theorem witness_BlockScaleResult_scale : ∃ one : Nat → Nat × Flags, Ty.f32.isBin = true ∧ TypeHere user .f32
    ∧ Readable user.th (.v 2) ∧ KeptReadable user (laneCount .f32) (isActive .f32 (govern user.th 0)) 1 ∧ ReadableX user.th 6
    ∧ (one = fun e => scaleRound .f32 (modeOf user.th.fcsr) false (max (-8192) (min 8192 (sgn 64 (xVal user.th 6))))
        (fval .f32 false (lane Ty.f32.width user.th.v[(2 : Rv)] e)))
    ∧ allFlags (laneCount .f32) (isActive .f32 (govern user.th 0)) (fun e => (one e).2) &&& enabled user.th = 0 :=
  ⟨_, by decide, typeHere (by decide), readable rfl rfl, keptReadable rfl rfl, readableX rfl rfl, rfl, by decide +kernel⟩

theorem witness_VectorFill : ∃ f, fillOp user (.vidx 1 6 7 1 .i32) = some (1, 1, f) ∧ TypeHere user (vecType (.vidx 1 6 7 1 .i32))
    ∧ (∀ r ∈ fillSources (.vidx 1 6 7 1 .i32), Source user.th r)
    ∧ KeptReadable user (laneCount (vecType (.vidx 1 6 7 1 .i32))) (isActive (vecType (.vidx 1 6 7 1 .i32)) (govern user.th 1)) 1 :=
  ⟨_, rfl, typeHere (by decide), fun _ _ => source rfl rfl, keptReadable rfl rfl⟩

theorem witness_VectorFill_one : TypeHere user .i64 ∧ ReadableX user.th 6 ∧ laneCount .i64 ≤ xVal (userX 0 16).th 7
    ∧ xVal (userX 0 15).th 7 < laneCount .i64 ∧ Readable user.th (.v 1) :=
  ⟨typeHere (by decide), readableX rfl rfl, by decide +kernel, by decide +kernel, readable rfl rfl⟩

theorem witness_PredicateAndScalarResult : ∃ c, predOp user (.pset 3 6 .i16) = some (3, c) ∧ TypeHere user (vecType (.pset 3 6 .i16))
    ∧ ∀ r ∈ predSources (.pset 3 6 .i16), ReadableX user.th r :=
  ⟨_, rfl, typeHere (by decide), fun _ _ => readableX rfl rfl⟩

theorem witness_PredicateAndScalarResult_scalar : laneScalar user (.pcnt 5 0 0 .i32) = some (5, 32)
    ∧ TypeHere user (vecType (.pcnt 5 0 0 .i32)) ∧ ∀ r ∈ laneScalarSources (.pcnt 5 0 0 .i32), Source user.th r :=
  ⟨by decide +kernel, typeHere (by decide), fun _ _ => source rfl rfl⟩

theorem ok_of {α : Type} {r : Except Stop α} (h : r.toBool = true) : ∃ t, r = .ok t := by
  cases r with
  | ok t => exact ⟨t, rfl⟩
  | error _ => cases h

/-- The thread at a `repf` with one body word, and with all flags enabled. -/
def userRep (w : Nat) : State :=
  { user with mem := user.mem.writeList 0x30004 (leBytes 4 w), th := { user.th with fcsr := 0x3F00 } }

/-- Four repetitions that step `vd` and `va` by two. -/
def frame4 : Frame := { cnt := 4, step := 2, sd := true, sa := true, sb := false }

-- the body word is viadd.i32 v1, v2, v10
theorem witness_RepeatFrame : ∃ ops : List VecOp, frameBytes (userRep 0x8C225040) 1 = .ok [leBytes 4 0x8C225040]
    ∧ [leBytes 4 0x8C225040].mapM (frameWord (userRep 0x8C225040)) = .ok (ops.map some) ∧ ops.all frame4.accepts = true
    ∧ ∃ t, ((List.range frame4.cnt).flatMap fun i => ops.map fun o => frame4.at' o i).foldlM
        (fun (u : State) o => o.run u 0) (userRep 0x8C225040) = .ok t :=
  ⟨(frameOp (.viadd 1 2 10 0 .i32)).toList, by decide +kernel, rfl, by decide +kernel, ok_of (by decide +kernel)⟩

-- the body word is vdiv.f32 v1, v2, v10: 0 / 0 raises NV, which is enabled
theorem witness_RepeatFrame_fault : ∃ (ops : List VecOp) (t : State) (k : Trap), frameBytes (userRep 0x84225124) 1 = .ok [leBytes 4 0x84225124]
    ∧ [leBytes 4 0x84225124].mapM (frameWord (userRep 0x84225124)) = .ok (ops.map some) ∧ ops.all frame4.accepts = true
    ∧ (((List.range frame4.cnt).flatMap fun i => ops.map fun o => frame4.at' o i).take 0).foldlM
        (fun (u : State) o => o.run u 0) (userRep 0x84225124) = .ok t
    ∧ (∀ o ∈ (((List.range frame4.cnt).flatMap fun i => ops.map fun o => frame4.at' o i)[0]?), o.run t 0 = .error (.trap k))
    ∧ CanHold (userRep 0x84225124) 1 := by
  refine ⟨(frameOp (.vdiv 1 2 10 0 .f32 false false)).toList, userRep 0x84225124, { cause := 0x0E, info := 16 }, by decide +kernel, rfl,
    by decide +kernel, rfl, ?_, canHold_user 1 (by decide)⟩
  intro o h
  have : frame4.at' (divOp 1 2 10 0 .f32 false false) 0 = o := Option.some.inj h
  subst this
  decide +kernel

/-! Memory -/

theorem ok_with {α : Type} {r : Except Stop α} (p : α → Bool) (h : (match r with
    | .ok a => p a
    | .error _ => false) = true) : ∃ a, r = .ok a ∧ p a = true := by
  cases r with
  | ok a => exact ⟨a, rfl, h⟩
  | error _ => cases h

/-- A reference to an offset of the gang's object 1 (R69). -/
def globalRef (off : Nat) : Ref := BitVec.ofNat 128 (2 ^ 96 + 4 * 2 ^ 84 + 2 ^ 44 + off)

/-- The thread with a reference to object 1 in `a2`; the object is writable, and perhaps has the side-effect attribute. -/
def userG (se : Bool) : State :=
  { userA (globalRef 64) with
    mem := user.mem.writeList (0x10000 + 128) (leBytes 128 ({ codeRecord with wr := true, ex := false, se : ObjRec }.toNat)) }

/-- The thread with a reference in `a2` to 64-bit elements of the scratchpad, and `p1` all ones. -/
def userV (off : Nat) : State :=
  user.setTh { user.th with a := user.th.a.set 2 (nearRef 2 off ||| BitVec.ofNat 128 (3 * 2 ^ 84)), p := user.th.p.set 1 (BitVec.allOnes 128) }

theorem canHold_of {s : State} (n : Nat) (h : (decide (s.tid < 4096) && decide ((s.core (s.tid / 2)).hold.length + n ≤ Config.holdEntries)
    && decide (s.claimant (s.tid / 2) = none)) = true) : CanHold s n := by
  simp only [Bool.and_eq_true, decide_eq_true_eq] at h
  exact ⟨h.1.1, h.1.2, .inl h.2⟩

theorem inOrder_of {s : State} {load : Bool} (h : (!outstanding s s.tid s.th.loadAfter && !heldStores s s.tid s.th.loadAfterStores
    && decide (s.th.loadFrom ≤ s.cycle)) = true) : InOrder s load := by
  simp only [Bool.and_eq_true, Bool.not_eq_true', decide_eq_true_eq] at h
  exact ⟨h.1.1, fun _ => ⟨h.1.2, h.2⟩⟩

theorem loadGoes_of {s : State} {ls : List Loc} (h : (!outstanding s s.tid s.th.loadAfter && !heldStores s s.tid s.th.loadAfterStores
    && decide (s.th.loadFrom ≤ s.cycle) && !requestOver s s.tid false ls && decide (s.tid < 4096)) = true) : LoadGoes s ls := by
  simp only [Bool.and_eq_true, Bool.not_eq_true', decide_eq_true_eq] at h
  exact ⟨⟨h.1.1.1.1, fun _ => ⟨h.1.1.1.2, h.1.1.2⟩⟩, h.1.2, fun h' => absurd h' (by omega)⟩

theorem ownStoreGoes_of {s : State} {ls : List Loc} (h : (!outstanding s s.tid s.th.loadAfter && performedBelow s (s.tid / 8) s.th.storeAfter
    && !requestOver s s.tid true ls && ls.all fun l => !outsideWaits s l.key) = true) : OwnStoreGoes s ls := by
  simp only [Bool.and_eq_true, Bool.not_eq_true', List.all_eq_true] at h
  exact ⟨⟨h.1.1.1, fun h' => by cases h'⟩, h.1.1.2, h.1.2, h.2⟩

/-- A state with no held entry, no waiting write and no older wait in its thread lets every access go. -/
def quiet (s : State) : Bool :=
  !outstanding s s.tid s.th.loadAfter && !heldStores s s.tid s.th.loadAfterStores && decide (s.th.loadFrom ≤ s.cycle)
    && performedBelow s (quadOf s.tid) s.th.storeAfter && !isService s.tid

theorem freeToGo_of {s : State} {ls : List Loc} (h : quiet s = true) (h' : ∀ w, requestOver s s.tid w ls = false)
    (h'' : ∀ k, outsideWaits s k = false) : FreeToGo s ls := by
  simp only [quiet, Bool.and_eq_true, Bool.not_eq_true', decide_eq_true_eq] at h
  exact { acquires := h.1.1.1.1, stores := h.1.1.1.2, own := h.1.1.2, release := h.1.2, loads := h' _, writes := h' _,
          outside := by simp [h''], user := h.2 }

theorem witness_LoadsRead : ∃ vals u, loadUnits user [[{ key := quadBase 0, crypt := none, dmg := false, space := 2, obj := 0, off := 0 }]]
    = .ok (vals, u) := by
  obtain ⟨a, h⟩ := ok_of (r := loadUnits user [[{ key := quadBase 0, crypt := none, dmg := false, space := 2, obj := 0, off := 0 }]])
    (by decide +kernel)
  exact ⟨a.1, a.2, h⟩

theorem witness_LoadsRead_order : LoadGoes user (nearLocs user 2 8 8) ∧ (contextOf user user.th.gang).qlimit = 0 :=
  ⟨loadGoes_of (by decide +kernel), by decide +kernel⟩

theorem witness_ScalarLoadResult : ∃ o ls vals u, loadOp (.ld 5 2 0 1 .d) = some (8, .signed 8, .x 5, 2, 0, 1)
    ∧ Readable (userA (nearRef 2 64)).th (.a 2) ∧ ReadableX (userA (nearRef 2 64)).th 0
    ∧ scalarLocs (userA (nearRef 2 64)) (userA (nearRef 2 64)).th.a[(2 : Ra)] ((userA (nearRef 2 64)).th.rx 0) 1 8 .load = .ok (o, ls)
    ∧ o.sideEffect = false ∧ loadUnits (userA (nearRef 2 64)) [ls] = .ok (vals, u) := by
  obtain ⟨⟨o, ls⟩, h, hp⟩ := ok_with (r := scalarLocs (userA (nearRef 2 64)) (userA (nearRef 2 64)).th.a[(2 : Ra)]
    ((userA (nearRef 2 64)).th.rx 0) 1 8 .load)
    (fun a => !a.1.sideEffect && (loadUnits (userA (nearRef 2 64)) [a.2]).toBool) (by decide +kernel)
  simp only [Bool.and_eq_true, Bool.not_eq_true'] at hp
  obtain ⟨a, ha⟩ := ok_of hp.2
  exact ⟨o, ls, a.1, a.2, rfl, readable rfl rfl, .inl rfl, h, hp.1, ha⟩

theorem witness_ScalarLoadResult_held : ∃ o ls, loadOp (.lda 5 2 0 1) = some (16, .whole, .a 5, 2, 0, 1)
    ∧ Readable (userG true).th (.a 2) ∧ ReadableX (userG true).th 0
    ∧ scalarLocs (userG true) (userG true).th.a[(2 : Ra)] ((userG true).th.rx 0) 1 16 .load = .ok (o, ls)
    ∧ o.sideEffect = true ∧ CanHold (userG true) 1 := by
  obtain ⟨⟨o, ls⟩, h, hp⟩ := ok_with (r := scalarLocs (userG true) (userG true).th.a[(2 : Ra)] ((userG true).th.rx 0) 1 16 .load)
    (fun a => a.1.sideEffect) (by decide +kernel)
  exact ⟨o, ls, rfl, readable rfl rfl, .inl rfl, h, hp, canHold_of 1 (by decide +kernel)⟩

theorem wellFormed_near (sp off : Nat) (h : (sp = 1 ∨ sp = 2) ∧ off < 2 ^ 44) : WellFormedRef (nearRef sp off) := by
  obtain ⟨rfl | rfl, h⟩ := h <;> (unfold WellFormedRef refBits nearRef; simp only [BitVec.toNat_ofNat]; omega)

-- the last eight bytes of the scratchpad, and the first eight behind the constant window
theorem witness_AccessAddress : WellFormedRef (nearRef 2 (2 ^ 21 - 8)) ∧ spaceOf (nearRef 2 (2 ^ 21 - 8)) = 2
    ∧ scalarOff (userA (nearRef 2 (2 ^ 21 - 8))).th 2 0 0 8 = (2 ^ 21 - 8 : Nat) ∧ (2 ^ 21 - 8) % 8 = 0
    ∧ 2 ^ 21 - 8 + 8 ≤ nearBytes (userA (nearRef 2 (2 ^ 21 - 8))) 2
    ∧ Clean (userA (nearRef 2 (2 ^ 21 - 8))) (nearKey (userA (nearRef 2 (2 ^ 21 - 8))) 2 (2 ^ 21 - 8)) 8 :=
  ⟨wellFormed_near 2 _ (by decide), by decide +kernel, by decide +kernel, by decide, by decide +kernel, by
    unfold Clean; decide +kernel⟩

theorem witness_AccessAddress_local : WellFormedRef (nearRef 1 2048) ∧ spaceOf (nearRef 1 2048) = 1
    ∧ scalarOff (userA (nearRef 1 2048)).th 2 0 0 8 = (2048 : Nat) ∧ 2048 + 8 ≤ nearBytes (userA (nearRef 1 2048)) 1
    ∧ Clean (userA (nearRef 1 2048)) (nearKey (userA (nearRef 1 2048)) 1 2048) 8 :=
  ⟨wellFormed_near 1 _ (by decide), by decide +kernel, by decide +kernel, by decide +kernel, by unfold Clean; decide +kernel⟩

theorem witness_ScalarAccessFaults_reference : storeOp (.st 6 2 0 0 .d) = some (8, .x 6, 2, 0, 0)
    ∧ Source (userA (nearRef 7 0)).th (.x 6) ∧ Readable (userA (nearRef 7 0)).th (.a 2)
    ∧ CanHold (userA (nearRef 7 0)) 1 ∧ refFault (userA (nearRef 7 0)).th.a[(2 : Ra)] false = some 0x07 :=
  ⟨rfl, source rfl rfl, readable rfl rfl, canHold_of 1 (by decide +kernel), by decide +kernel⟩

-- below 0; at 4, not a multiple of 8; past the end of the scratchpad; the last word of the constant window
theorem witness_ScalarAccessFaults_address : (∀ sp off, (sp = 1 ∨ sp = 2) ∧ off < 2 ^ 44 → WellFormedRef (nearRef sp off))
    ∧ scalarOff (userA (nearRef 2 0)).th 2 0 0x7F 8 < 0
    ∧ scalarOff (userA (nearRef 2 4)).th 2 0 0 8 % 8 ≠ 0
    ∧ (nearBytes (userA (nearRef 2 (2 ^ 21))) 2 : Int) < scalarOff (userA (nearRef 2 (2 ^ 21))).th 2 0 0 8 + 8
    ∧ scalarOff (userA (nearRef 1 2040)).th 2 0 0 8 + 8 ≤ 2048 ∧ CanHold (userA (nearRef 1 2040)) 1 :=
  ⟨wellFormed_near, by decide +kernel, by decide +kernel, by decide +kernel, by decide +kernel, canHold_of 1 (by decide +kernel)⟩

theorem witness_ReferenceCheck : refBits (BitVec.ofNat 128 (2 ^ 94)) 94 2 ≠ 0
    ∧ refBits (nearRef 6 0) 94 2 = 0 ∧ 6 ≤ refBits (nearRef 6 0) 80 4
    ∧ refBits (nearRef 1 (2 ^ 44)) 94 2 = 0 ∧ refBits (nearRef 1 (2 ^ 44)) 80 4 ≤ 5 ∧ ¬WellFormedRef (nearRef 1 (2 ^ 44)) := by
  unfold WellFormedRef; decide +kernel

theorem witness_ScalarStoreResult_near : storeOp (.st 6 2 0 0 .d) = some (8, .x 6, 2, 0, 0) ∧ MemoryOk (userA (nearRef 1 2048))
    ∧ Readable (userA (nearRef 1 2048)).th (.a 2) ∧ Source (userA (nearRef 1 2048)).th (.x 6)
    ∧ OwnStoreGoes (userA (nearRef 1 2048)) (nearLocs (userA (nearRef 1 2048)) 1 2048 8) :=
  ⟨rfl, by unfold MemoryOk; decide +kernel, readable rfl rfl, source rfl rfl, ownStoreGoes_of (by decide +kernel)⟩

theorem witness_ScalarStoreResult_held : ∃ o ls u, storeOp (.st 6 2 0 0 .d) = some (8, .x 6, 2, 0, 0)
    ∧ Readable (userG false).th (.a 2) ∧ Source (userG false).th (.x 6)
    ∧ scalarLocs (userG false) (userG false).th.a[(2 : Ra)] ((userG false).th.rx 0) 0 8 .store = .ok (o, ls)
    ∧ spaceOf (userG false).th.a[(2 : Ra)] = 0 ∧ CanHold (userG false) 1
    ∧ takeQuota (userG false) (whoTh (userG false)) (ls.map fun l => l.key / 256).dedup.length 64 = .ok u := by
  obtain ⟨⟨o, ls⟩, h, hp⟩ := ok_with (r := scalarLocs (userG false) (userG false).th.a[(2 : Ra)] ((userG false).th.rx 0) 0 8 .store)
    (fun a => (takeQuota (userG false) (whoTh (userG false)) (a.2.map fun l => l.key / 256).dedup.length 64).toBool) (by decide +kernel)
  obtain ⟨u, hu⟩ := ok_of hp
  exact ⟨o, ls, u, rfl, readable rfl rfl, source rfl rfl, h, by decide +kernel, canHold_of 1 (by decide +kernel), hu⟩

theorem witness_AtomicResult_near : amoOf (.amocas 5 2 6 .quad .acqrel true) = some (.cas, 5, 2, 6, .quad, .acqrel, true)
    ∧ MemoryOk (userA (nearRef 2 8)) ∧ Readable (userA (nearRef 2 8)).th (.a 2) ∧ ReadableX (userA (nearRef 2 8)).th 6
    ∧ ReadableX (userA (nearRef 2 8)).th 5 ∧ WellFormedRef (nearRef 2 8) ∧ spaceOf (nearRef 2 8) = 2 ∧ Scope.quad.code < 3
    ∧ refBits (nearRef 2 8) 0 44 = 8 ∧ Clean (userA (nearRef 2 8)) (nearKey (userA (nearRef 2 8)) 2 8) 8
    ∧ LoadGoes (userA (nearRef 2 8)) (nearLocs (userA (nearRef 2 8)) 2 8 8)
    ∧ OwnStoreGoes (userA (nearRef 2 8)) (nearLocs (userA (nearRef 2 8)) 2 8 8) :=
  ⟨rfl, by unfold MemoryOk; decide +kernel, readable rfl rfl, readableX rfl rfl, readableX rfl rfl, wellFormed_near 2 8 (by decide),
    by decide +kernel, by decide, by decide +kernel, by unfold Clean; decide +kernel, loadGoes_of (by decide +kernel),
    ownStoreGoes_of (by decide +kernel)⟩

theorem witness_AtomicResult_scope : ∃ o ls, amoOf (.amoadd 5 2 6 .sect .relaxed true) = some (.add, 5, 2, 6, .sect, .relaxed, true)
    ∧ Readable (userA (nearRef 2 8)).th (.a 2) ∧ ReadableX (userA (nearRef 2 8)).th 6
    ∧ scalarLocs (userA (nearRef 2 8)) (userA (nearRef 2 8)).th.a[(2 : Ra)] 0 0 8 .atomic = .ok (o, ls)
    ∧ 3 ≤ Scope.sect.code ∧ CanHold (userA (nearRef 2 8)) 1 := by
  obtain ⟨⟨o, ls⟩, h⟩ := ok_of (r := scalarLocs (userA (nearRef 2 8)) (userA (nearRef 2 8)).th.a[(2 : Ra)] 0 0 8 .atomic) (by decide +kernel)
  exact ⟨o, ls, rfl, readable rfl rfl, readableX rfl rfl, h, by decide, canHold_of 1 (by decide +kernel)⟩

theorem witness_AtomicResult_held : ∃ o ls, amoOf (.amoadd 5 2 6 .sect .relaxed true) = some (.add, 5, 2, 6, .sect, .relaxed, true)
    ∧ Readable (userG false).th (.a 2) ∧ ReadableX (userG false).th 6
    ∧ scalarLocs (userG false) (userG false).th.a[(2 : Ra)] 0 0 8 .atomic = .ok (o, ls)
    ∧ spaceOf (userG false).th.a[(2 : Ra)] = 0 ∧ heatOf (userG false) (userG false).th.gang = false ∧ CanHold (userG false) 1 := by
  obtain ⟨⟨o, ls⟩, h⟩ := ok_of (r := scalarLocs (userG false) (userG false).th.a[(2 : Ra)] 0 0 8 .atomic) (by decide +kernel)
  exact ⟨o, ls, rfl, readable rfl rfl, readableX rfl rfl, h, by decide +kernel, by decide +kernel, canHold_of 1 (by decide +kernel)⟩

theorem vecReady_userV (off : Nat) {d : Rv} {g : Rg} {l6 : Bool} {x : DestReg} {addr : Thread → Ref → Ty → Nat → Int}
    (hw : WellFormedRef (userV off).th.a[(2 : Ra)]) (ht : Ty.ofCode (refBits (userV off).th.a[(2 : Ra)] 84 4) = some .i64) :
    VecReady (userV off) ⟨d, 2, g, l6, x, addr⟩ .i64 :=
  ⟨readable rfl rfl, source rfl rfl, hw, ht, fun h => by cases h⟩

/-- The locations of element `e` of a vector access, if its check passes. -/
def elemLocs (s : State) (v : VecMem) (t : Ty) (acc : Acc) (e : Nat) : List Loc :=
  match elemUnit s (whoTh s) (openRef s (whoTh s) s.th.a[v.r] acc) s.th.a[v.r] (v.addr s.th s.th.a[v.r] t e) (elemBytes t)
    (elemAlign t) acc (BitVec.ofNat 64 e) with
  | .ok ls => ls
  | .error _ => []

theorem witness_VectorLoadResult : ∃ (v : VecMem) (ls : Nat → List Loc) (vals : List (List Byte)) (u : State),
    vecLoad (.vld 4 2 0 0 0) = some v ∧ VecReady (userV 64) v .i64
    ∧ KeptReadable (userV 64) (laneCount .i64) (isActive .i64 (govern (userV 64).th v.g)) v.d
    ∧ (∀ e, e < laneCount .i64 → isActive .i64 (govern (userV 64).th v.g) e = true → ElemAt (userV 64) v .i64 .load e (ls e))
    ∧ (openRef (userV 64) (whoTh (userV 64)) (userV 64).th.a[v.r] .load).sideEffect = false
    ∧ loadUnits (userV 64) (((List.range (laneCount .i64)).filter (isActive .i64 (govern (userV 64).th v.g))).map ls).dedup
        = .ok (vals, u) := by
  obtain ⟨a, ha⟩ := ok_of (r := loadUnits (userV 64) (((List.range (laneCount .i64)).filter (isActive .i64 (govern (userV 64).th 0))).map
    (elemLocs (userV 64) ⟨4, 2, 0, true, .x 0, rowAt 0 0⟩ .i64 .load)).dedup) (by decide +kernel)
  exact ⟨⟨4, 2, 0, true, .x 0, rowAt 0 0⟩, elemLocs (userV 64) ⟨4, 2, 0, true, .x 0, rowAt 0 0⟩ .i64 .load, a.1, a.2, rfl,
    vecReady_userV 64 (by unfold WellFormedRef; decide +kernel) (by decide +kernel), keptReadable rfl rfl,
    by unfold ElemAt; decide +kernel, by decide +kernel, ha⟩

theorem witness_VectorFirstFault_none : VecReady (userV 64) ⟨4, 2, 2, true, .x 0, rowAt 0 0⟩ .i64
    ∧ ∀ e, e < laneCount .i64 → isActive .i64 (govern (userV 64).th 2) e = false :=
  ⟨vecReady_userV 64 (by unfold WellFormedRef; decide +kernel) (by decide +kernel), by decide +kernel⟩

theorem witness_VectorFirstFault_first : ∃ k : Trap, VecReady (userV (2 ^ 21)) ⟨4, 2, 1, true, .x 0, rowAt 0 0⟩ .i64
    ∧ isActive .i64 (govern (userV (2 ^ 21)).th 1) 0 = true
    ∧ elemUnit (userV (2 ^ 21)) (whoTh (userV (2 ^ 21))) (openRef (userV (2 ^ 21)) (whoTh (userV (2 ^ 21))) (userV (2 ^ 21)).th.a[(2 : Ra)] .load)
        (userV (2 ^ 21)).th.a[(2 : Ra)] (rowAt 0 0 (userV (2 ^ 21)).th (userV (2 ^ 21)).th.a[(2 : Ra)] .i64 0) (elemBytes .i64)
        (elemAlign .i64) .load (BitVec.ofNat 64 0) = .error (.trap k)
    ∧ CanHold (userV (2 ^ 21)) 1 :=
  ⟨{ cause := 0x06, addr := 2 ^ 21 }, vecReady_userV _ (by unfold WellFormedRef; decide +kernel) (by decide +kernel), by decide +kernel,
    by decide +kernel, canHold_of 1 (by decide +kernel)⟩

-- two elements are in the scratchpad, the third is not
theorem witness_VectorFirstFault_later : ∃ (ls : Nat → List Loc) (k : Trap) (vals : List (List Byte)) (u : State),
    VecReady (userV (2 ^ 21 - 16)) ⟨4, 2, 1, true, .x 0, rowAt 0 0⟩ .i64
    ∧ (∃ e, e < 2 ∧ isActive .i64 (govern (userV (2 ^ 21 - 16)).th 1) e = true)
    ∧ (∀ e, e < 2 → isActive .i64 (govern (userV (2 ^ 21 - 16)).th 1) e = true →
        ElemAt (userV (2 ^ 21 - 16)) ⟨4, 2, 1, true, .x 0, rowAt 0 0⟩ .i64 .load e (ls e))
    ∧ isActive .i64 (govern (userV (2 ^ 21 - 16)).th 1) 2 = true
    ∧ elemUnit (userV (2 ^ 21 - 16)) (whoTh (userV (2 ^ 21 - 16)))
        (openRef (userV (2 ^ 21 - 16)) (whoTh (userV (2 ^ 21 - 16))) (userV (2 ^ 21 - 16)).th.a[(2 : Ra)] .load)
        (userV (2 ^ 21 - 16)).th.a[(2 : Ra)] (rowAt 0 0 (userV (2 ^ 21 - 16)).th (userV (2 ^ 21 - 16)).th.a[(2 : Ra)] .i64 2)
        (elemBytes .i64) (elemAlign .i64) .load (BitVec.ofNat 64 2) = .error (.trap k)
    ∧ Readable (userV (2 ^ 21 - 16)).th (.v 4)
    ∧ (openRef (userV (2 ^ 21 - 16)) (whoTh (userV (2 ^ 21 - 16))) (userV (2 ^ 21 - 16)).th.a[(2 : Ra)] .load).sideEffect = false
    ∧ loadUnits (userV (2 ^ 21 - 16)) (((List.range 2).filter (isActive .i64 (govern (userV (2 ^ 21 - 16)).th 1))).map ls).dedup
        = .ok (vals, u) := by
  obtain ⟨a, ha⟩ := ok_of (r := loadUnits (userV (2 ^ 21 - 16)) (((List.range 2).filter (isActive .i64 (govern (userV (2 ^ 21 - 16)).th 1))).map
    (elemLocs (userV (2 ^ 21 - 16)) ⟨4, 2, 1, true, .x 0, rowAt 0 0⟩ .i64 .load)).dedup) (by decide +kernel)
  exact ⟨elemLocs (userV (2 ^ 21 - 16)) ⟨4, 2, 1, true, .x 0, rowAt 0 0⟩ .i64 .load, { cause := 0x06, addr := 2 ^ 21, info := 2 }, a.1, a.2,
    vecReady_userV _ (by unfold WellFormedRef; decide +kernel) (by decide +kernel), ⟨0, by decide, by decide +kernel⟩,
    by unfold ElemAt; decide +kernel, by decide +kernel, by decide +kernel, readable rfl rfl, by decide +kernel, ha⟩

theorem witness_VectorStoreResult : ∃ (v : VecMem) (ls : Nat → List Loc) (u : State), vecStore (.vst 4 2 0 0 0) = some v
    ∧ VecReady (userV 64) v .i64 ∧ Readable (userV 64).th (.v v.d)
    ∧ (∀ e ∈ (List.range (laneCount .i64)).filter (isActive .i64 (govern (userV 64).th v.g)), ElemAt (userV 64) v .i64 .store e (ls e))
    ∧ storeUnits (userV 64) (spaceOf (userV 64).th.a[v.r])
      (byLine (storeElems ⟨(userV 64).th.a[v.r], .i64, openRef (userV 64) (whoTh (userV 64)) (userV 64).th.a[v.r] .store⟩ (userV 64).th.v[v.d]
        (((List.range (laneCount .i64)).filter (isActive .i64 (govern (userV 64).th v.g))).map fun e => (e, ls e)))) 64 = .ok u := by
  obtain ⟨u, hu⟩ := ok_of (r := storeUnits (userV 64) (spaceOf (userV 64).th.a[(2 : Ra)])
      (byLine (storeElems ⟨(userV 64).th.a[(2 : Ra)], .i64, openRef (userV 64) (whoTh (userV 64)) (userV 64).th.a[(2 : Ra)] .store⟩
        (userV 64).th.v[(4 : Rv)] (((List.range (laneCount .i64)).filter (isActive .i64 (govern (userV 64).th 0))).map fun e =>
          (e, elemLocs (userV 64) ⟨4, 2, 0, true, .x 0, rowAt 0 0⟩ .i64 .store e)))) 64) (by decide +kernel)
  exact ⟨⟨4, 2, 0, true, .x 0, rowAt 0 0⟩, elemLocs (userV 64) ⟨4, 2, 0, true, .x 0, rowAt 0 0⟩ .i64 .store, u, rfl,
    vecReady_userV 64 (by unfold WellFormedRef; decide +kernel) (by decide +kernel), readable rfl rfl,
    by unfold ElemAt; decide +kernel, hu⟩

/-- A byte of the scratchpad to be written. -/
def oneByte : WByte := { loc := { key := quadBase 0 + 5, crypt := none, dmg := false, space := 2, obj := 0, off := 5 }, val := 7, mask := 0xFF }

theorem witness_VectorStoreResult_bytes : Ty.i8 ≠ .l6 ∧ ((3 : Nat), [oneByte.loc]) ∈ [((3 : Nat), [oneByte.loc])]
    ∧ [oneByte.loc].length = Ty.i8.width / 8 ∧ [oneByte.loc][0]? = some oneByte.loc := by decide

theorem witness_StoreGroups_near : ∃ t, MemoryOk user ∧ storeUnits user 2 [[[oneByte]]] 0 = .ok t
    ∧ (∀ c ∈ [[[oneByte]]].flatten.flatten, c.mask = 0xFF ∧ marked user c.loc = false)
    ∧ ([[[oneByte]]].flatten.flatten.map (·.loc.key)).Nodup := by
  obtain ⟨t, h⟩ := ok_of (r := storeUnits user 2 [[[oneByte]]] 0) (by decide +kernel)
  exact ⟨t, by unfold MemoryOk; decide +kernel, h, by decide +kernel, by decide +kernel⟩

theorem witness_StoreGroups_held : ∃ u t, CanHold user 1
    ∧ takeQuota user (whoTh user) (storeLines [[[oneByte]]].flatten).length 0 = .ok u ∧ storeUnits user 0 [[[oneByte]]] 0 = .ok t := by
  obtain ⟨u, hu⟩ := ok_of (r := takeQuota user (whoTh user) (storeLines [[[oneByte]]].flatten).length 0) (by decide +kernel)
  obtain ⟨t, ht⟩ := ok_of (r := storeUnits user 0 [[[oneByte]]] 0) (by decide +kernel)
  exact ⟨u, t, canHold_of 1 (by decide +kernel), hu, ht⟩

theorem witness_StoreGroups_seen : oneByte ∈ [oneByte] ∧ ([oneByte].map (·.loc.key)).Nodup ∧ oneByte.mask = 0xFF ∧ user.tid < 4096
    ∧ (whoTh user).inside = true ∧ quadOfCore (whoTh user).core = user.tid / 8
    ∧ (∀ j, j < 4 → ∀ e ∈ (user.core (4 * (user.tid / 8) + j)).hold, e.seq < user.seq)
    ∧ (∀ e ∈ user.quads, (∀ o ∈ e.2.outside, o.seq < user.seq) ∧ ∀ o ∈ e.2.overs, o.1 ≤ user.seq) ∧ (∀ e ∈ user.journalOf oneByte.loc.key, e.seq ≤ user.seq) := by
  decide +kernel

/-! Tiles -/

/-- A tile whose data is a number. -/
def tileOf (data tag phys : Nat) : Tile := { data := BitVec.ofNat 32768 data, scale := 0, tag, phys }

/-- The thread with `t1` and `t2` live. -/
def userT (a b : Tile) : State :=
  user.setTh { user.th with t := (user.th.t.set 1 (some a)).set 2 (some b), x := user.th.x.set 6 5 }

theorem record_of {s : State} {n : Nat} {o : ObjRec} (h : objRecord s (contextOf s s.th.gang) n = .ok (some o))
    (h' : o.malformed = false) : Record s n o := ⟨h, h'⟩

theorem witness_ReferenceRecords_amake : ReadableX (userX 1 64).th 6 ∧ ReadableX (userX 1 64).th 7
    ∧ 1 ≤ xVal (userX 1 64).th 6 ∧ xVal (userX 1 64).th 6 < 2 ^ 36 ∧ Record (userX 1 64) (xVal (userX 1 64).th 6) codeRecord :=
  ⟨readableX rfl rfl, readableX rfl rfl, by decide +kernel, by decide +kernel, record_of (by decide +kernel) (by decide +kernel)⟩

theorem witness_ReferenceRecords_absent : ReadableX (userX 2 64).th 6 ∧ ReadableX (userX 2 64).th 7 ∧ CanHold (userX 2 64) 1
    ∧ xVal (userX 0 0).th 6 = 0 ∧ 2 ^ 36 ≤ xVal (userX (2 ^ 36) 0).th 6
    ∧ objRecord (userX 2 64) (contextOf (userX 2 64) (userX 2 64).th.gang) (xVal (userX 2 64).th 6) = .ok none :=
  ⟨readableX rfl rfl, readableX rfl rfl, canHold_of 1 (by decide +kernel), by decide +kernel, by decide +kernel, by decide +kernel⟩

/-- The thread with a reference to the code object in `a2` and two `x` registers. -/
def userGX (x y : Word) : State :=
  user.setTh { user.th with a := user.th.a.set 2 (globalRef 8), x := (user.th.x.set 6 x).set 7 y }

-- the object has one dimension of 4,096: row 0, column 4,095 is inside, column 4,096 is not
theorem witness_ReferenceRecords_acoord : Readable (userGX 0 4095).th (.a 2) ∧ ReadableX (userGX 0 4095).th 6
    ∧ ReadableX (userGX 0 4095).th 7 ∧ WellFormedRef (userGX 0 4095).th.a[(2 : Ra)] ∧ spaceOf (userGX 0 4095).th.a[(2 : Ra)] = 0
    ∧ Record (userGX 0 4095) (refBits (userGX 0 4095).th.a[(2 : Ra)] 44 36) codeRecord
    ∧ refBits (userGX 0 4095).th.a[(2 : Ra)] 96 32 = codeRecord.gen ∧ xVal (userGX 0 4095).th 6 < 1
    ∧ xVal (userGX 0 4095).th 7 < codeRecord.ext.getD codeRecord.dims 0 ∧ codeRecord.type ≠ 14
    ∧ codeRecord.ext.getD codeRecord.dims 0 ≤ xVal (userGX 0 4096).th 7 ∧ CanHold (userGX 0 4096) 1 :=
  ⟨readable rfl rfl, readableX rfl rfl, readableX rfl rfl, by unfold WellFormedRef; decide +kernel, by decide +kernel,
    record_of (by decide +kernel) (by decide +kernel), by decide +kernel, by decide +kernel, by decide +kernel, by decide +kernel,
    by decide +kernel, canHold_of 1 (by decide +kernel)⟩

/-- A record of packed 6-bit elements as object 1. -/
def l6Record : ObjRec := { codeRecord with type := 14, stride := [3, 0, 0, 0] }

def userL6 : State :=
  { userGX 0 2 with mem := user.mem.writeList (0x10000 + 128) (leBytes 128 l6Record.toNat) }

theorem witness_ReferenceRecords_group : Readable userL6.th (.a 2) ∧ ReadableX userL6.th 6 ∧ ReadableX userL6.th 7
    ∧ WellFormedRef userL6.th.a[(2 : Ra)] ∧ spaceOf userL6.th.a[(2 : Ra)] = 0
    ∧ Record userL6 (refBits userL6.th.a[(2 : Ra)] 44 36) l6Record
    ∧ refBits userL6.th.a[(2 : Ra)] 96 32 = l6Record.gen ∧ xVal userL6.th 7 < l6Record.ext.getD l6Record.dims 0
    ∧ l6Record.type = 14 ∧ xVal userL6.th 7 % 4 ≠ 0 ∧ CanHold userL6 1 :=
  ⟨readable rfl rfl, readableX rfl rfl, readableX rfl rfl, by unfold WellFormedRef; decide +kernel, by decide +kernel,
    record_of (by decide +kernel) (by decide +kernel), by decide +kernel, by decide +kernel, by decide +kernel, by decide +kernel,
    canHold_of 1 (by decide +kernel)⟩

-- the code object may not be written: the store's cause is 0x09
theorem witness_ReferenceRecords_achk : Readable (userGX 0 4).th (.a 2) ∧ ReadableX (userGX 0 4).th 7
    ∧ achkCause (userGX 0 4) (userGX 0 4).th.a[(2 : Ra)] (if xVal (userGX 0 4).th 7 = 0 then 1 else xVal (userGX 0 4).th 7) .load
        = .ok 0
    ∧ achkCause (userGX 0 4) (userGX 0 4).th.a[(2 : Ra)] (if xVal (userGX 0 4).th 7 = 0 then 1 else xVal (userGX 0 4).th 7) .store
        = .ok 0x09 :=
  ⟨readable rfl rfl, readableX rfl rfl, by decide +kernel, by decide +kernel⟩

theorem tileFree_of {s : State} {d : Rt} (h : decide (1 ≤ tilesFor s (tileEngine s d) s.tid) = true) : TileFree s d := by
  unfold TileFree
  exact of_decide_eq_true h

theorem witness_TileMoves_tmov : (Instr.tmov 3 1).wf = true ∧ Readable (userT (tileOf 1 0 0) (tileOf 2 0 1)).th (.t 1)
    ∧ (userT (tileOf 1 0 0) (tileOf 2 0 1)).th.t[(4 : Rt)] = none ∧ (userT (tileOf 1 0 0) (tileOf 2 0 1)).th.t[(1 : Rt)] ≠ none
    ∧ TileFree (userT (tileOf 1 0 0) (tileOf 2 0 1)) 3 :=
  ⟨by decide, readable rfl rfl, by decide +kernel, by decide +kernel, tileFree_of (by decide +kernel)⟩

theorem witness_TileMoves_tfill : ReadableX (userT (tileOf 1 0 0) (tileOf 2 0 1)).th 6 ∧ TileFree (userT (tileOf 1 0 0) (tileOf 2 0 1)) 3 :=
  ⟨readableX rfl rfl, tileFree_of (by decide +kernel)⟩

-- row 5 is in range; row 32 is not
theorem witness_TileMoves_rows : Readable (userT (tileOf 1 0 0) (tileOf 2 0 1)).th (.t 1)
    ∧ ReadableX (userT (tileOf 1 0 0) (tileOf 2 0 1)).th 6 ∧ Readable (userT (tileOf 1 0 0) (tileOf 2 0 1)).th (.v 3)
    ∧ xVal (userT (tileOf 1 0 0) (tileOf 2 0 1)).th 6 < 32 ∧ TileFree (userT (tileOf 1 0 0) (tileOf 2 0 1)) 1
    ∧ 32 ≤ xVal (userX 32 0).th 6 ∧ ReadableX (userX 32 0).th 6 ∧ Readable (userX 32 0).th (.v 3) :=
  ⟨readable rfl rfl, readableX rfl rfl, readable rfl rfl, by decide +kernel, tileFree_of (by decide +kernel), by decide +kernel,
    readableX rfl rfl, readable rfl rfl⟩

theorem witness_TileMoves_columns : (Instr.trdc 1 .f16 6 3).wf = true ∧ (Instr.twrc 1 .f16 6 3).wf = true
    ∧ xVal (userT (tileOf 1 0 0) (tileOf 2 0 1)).th 6 < Ty.f16.perRow ∧ Ty.f16.perRow ≤ xVal (userX 64 0).th 6
    ∧ ReadableX (userX 64 0).th 6 ∧ Readable (userX 64 0).th (.v 3) :=
  ⟨by decide, by decide, by decide +kernel, by decide +kernel, readableX rfl rfl, readable rfl rfl⟩

theorem witness_TileMoves_ttrn : (Instr.ttrn 3 1 .f16).wf = true ∧ Readable (userT (tileOf 1 0 0) (tileOf 2 0 1)).th (.t 1)
    ∧ TileFree (userT (tileOf 1 0 0) (tileOf 2 0 1)) 3 :=
  ⟨by decide, readable rfl rfl, tileFree_of (by decide +kernel)⟩

theorem witness_TileMultiply : ∃ o, mulOp (userT (tileOf 1 0 0) (tileOf 2 0 1)) (.tmma 3 1 2 .i8 false false false true) = some o
    ∧ (Instr.tmma 3 1 2 .i8 false false false true).wf = true
    ∧ (∀ r ∈ o.srcs, Readable (userT (tileOf 1 0 0) (tileOf 2 0 1)).th (.t r)) ∧ o.z = true
    ∧ gridFlags (o.element (userT (tileOf 1 0 0) (tileOf 2 0 1))) &&& enabled (userT (tileOf 1 0 0) (tileOf 2 0 1)).th = 0
    ∧ TileFree (userT (tileOf 1 0 0) (tileOf 2 0 1)) o.d :=
  ⟨denseOp (userT (tileOf 1 0 0) (tileOf 2 0 1)) 3 1 2 .i8 .i8 false false false true false, rfl, by decide,
    fun _ _ => readable rfl rfl, rfl, by decide +kernel, tileFree_of (by decide +kernel)⟩

/-- One element's flag is among the flags of all. -/
theorem allFlags_bit {n e k : Nat} {on : Nat → Bool} {f : Nat → Flags} (h : e < n) (ho : on e = true)
    (hf : (f e).getLsbD k = true) : (allFlags n on f).getLsbD k = true := by
  have keep : ∀ (l : List Nat) (a : Flags), a.getLsbD k = true →
      (l.foldl (fun acc e => if on e then acc ||| f e else acc) a).getLsbD k = true := by
    intro l
    induction l with
    | nil => exact fun _ h => h
    | cons x l ih =>
      intro a ha
      refine ih _ ?_
      show BitVec.getLsbD (if on x = true then a ||| f x else a) k = true
      split <;> simp [ha]
  have reach : ∀ (l : List Nat) (a : Flags), e ∈ l →
      (l.foldl (fun acc e => if on e then acc ||| f e else acc) a).getLsbD k = true := by
    intro l
    induction l with
    | nil => intro _ h; cases h
    | cons x l ih =>
      intro a hm
      rcases List.mem_cons.mp hm with rfl | hm
      · exact keep l (if on e = true then a ||| f e else a) (by simp [ho, hf])
      · exact ih _ hm
  exact reach _ _ (List.mem_range.mpr h)

theorem flag_and {a b : Flags} {k : Nat} (ha : a.getLsbD k = true) (hb : b.getLsbD k = true) : a &&& b ≠ 0 := by
  intro h
  have := congrArg (fun x => x.getLsbD k) h
  simp [ha, hb] at this

/-- A tile of f16 whose first element is a signalling NaN, and a thread with every flag enabled. -/
def userNan : State :=
  let s := userT (tileOf 0x7D00 0 0) (tileOf 0 0 1)
  s.setTh { s.th with fcsr := 0xFF00 }

theorem witness_TileMultiply_flags : (Instr.tmma 3 1 2 .f16 false false false true).wf = true ∧ CanHold userNan 1
    ∧ (∀ r ∈ (denseOp userNan 3 1 2 .f16 .f16 false false false true false).srcs, Readable userNan.th (.t r))
    ∧ gridFlags ((denseOp userNan 3 1 2 .f16 .f16 false false false true false).element userNan) &&& enabled userNan.th ≠ 0 :=
  ⟨by decide, canHold_of 1 (by decide +kernel), fun _ _ => readable rfl rfl,
    flag_and (k := 4) (allFlags_bit (e := 0) (by decide) rfl (by decide +kernel)) (by decide +kernel)⟩

-- metadata of zeros: both indices of every group are 0, so that the first group of the first row does not ascend
theorem witness_TileMultiply_indices : ∃ o, mulOp (userT (tileOf 1 0 0) (tileOf 2 0 1))
      (.tmmas 3 1 4 2 .f16 .n2m4 false false false true) = some o
    ∧ (Instr.tmmas 3 1 4 2 .f16 .n2m4 false false false true).wf = true
    ∧ (∀ r ∈ o.srcs, Readable (userT (tileOf 1 0 0) (tileOf 2 0 1)).th (.t r)) ∧ CanHold (userT (tileOf 1 0 0) (tileOf 2 0 1)) 1
    ∧ 0 < Ty.f16.perRow / (pattern .n2m4).1
    ∧ ¬Ascends .n2m4 (tileVal (userT (tileOf 1 0 0) (tileOf 2 0 1)).th 4) 0 0 :=
  ⟨_, rfl, by decide, fun _ _ => readable rfl rfl, canHold_of 1 (by decide +kernel), by decide,
    by unfold Ascends; decide +kernel⟩

-- a pattern of one kept element ascends always
theorem witness_TileMultiply_scaled : ∃ o, mulOp (userT (tileOf 1 3 0) (tileOf 2 0 1))
      (.tmmas 3 1 4 2 .e4m3 .n1m2 false false false true) = some o
    ∧ (Instr.tmmas 3 1 4 2 .e4m3 .n1m2 false false false true).wf = true
    ∧ (∀ r ∈ o.srcs, Readable (userT (tileOf 1 3 0) (tileOf 2 0 1)).th (.t r)) ∧ CanHold (userT (tileOf 1 3 0) (tileOf 2 0 1)) 1
    ∧ (∀ r q, r < 32 → q < Ty.e4m3.perRow / (pattern .n1m2).1 →
        Ascends .n1m2 (tileVal (userT (tileOf 1 3 0) (tileOf 2 0 1)).th 4) r q)
    ∧ (tileVal (userT (tileOf 1 3 0) (tileOf 2 0 1)).th 1).tag ≠ 0 :=
  ⟨_, rfl, by decide, fun _ _ => readable rfl rfl, canHold_of 1 (by decide +kernel), fun _ _ _ _ h => absurd h (by decide), by decide +kernel⟩

theorem witness_TileConvert : ∃ o, gridOp (userT (tileOf 1 0 0) (tileOf 2 0 1)) (.tadd 3 1 2 .i32 .rne false false) = some o
    ∧ (Instr.tadd 3 1 2 .i32 .rne false false).wf = true
    ∧ (∀ r ∈ o.srcs, Readable (userT (tileOf 1 0 0) (tileOf 2 0 1)).th (.t r))
    ∧ o.flags &&& enabled (userT (tileOf 1 0 0) (tileOf 2 0 1)).th = 0 ∧ TileFree (userT (tileOf 1 0 0) (tileOf 2 0 1)) o.d :=
  ⟨_, rfl, by decide, fun _ _ => readable rfl rfl, by decide +kernel, tileFree_of (by decide +kernel)⟩

/-- The same for f32. -/
def userNan32 : State :=
  let s := userT (tileOf 0x7F900000 0 0) (tileOf 0 0 1)
  s.setTh { s.th with fcsr := 0xFF00 }

theorem witness_TileConvert_flags : ∃ o, gridOp userNan32 (.tadd 3 1 2 .f32 .rne false false) = some o
    ∧ (Instr.tadd 3 1 2 .f32 .rne false false).wf = true ∧ (∀ r ∈ o.srcs, Readable userNan32.th (.t r))
    ∧ o.flags &&& enabled userNan32.th ≠ 0 ∧ CanHold userNan32 1 :=
  ⟨_, rfl, by decide, fun _ _ => readable rfl rfl,
    flag_and (k := 4) (allFlags_bit (e := 0) (by decide) rfl (by decide +kernel)) (by decide +kernel), canHold_of 1 (by decide +kernel)⟩
/-! Tiles in memory, the ring and the deprecated instructions -/

/-- The thread with `t1` and `t2` live and a reference in `a2`, to 64-bit elements of the scratchpad from byte 128. -/
def userN : State :=
  let s := userT (tileOf 1 0 0) (tileOf 2 0 1)
  s.setTh { s.th with a := s.th.a.set 2 (nearRef 2 128 ||| BitVec.ofNat 128 (3 * 2 ^ 84)) }

/-- The tile reference that `a2` is. -/
def tileN : TileRef := { r := nearRef 2 128 ||| BitVec.ofNat 128 (3 * 2 ^ 84), t := .i64, scaled := false, blog := 0 }

theorem unmarked_userN : Unmarked userN := ⟨by decide +kernel, by decide +kernel, by decide +kernel⟩

theorem scratch_userN {a n : Nat} {acc : Acc} (h : a + n ≤ 2 ^ 21) : spaceFault userN (whoTh userN) 2 a n acc = none :=
  spaceFault_scratchpad (by decide +kernel) h

theorem tileUnits_userN (acc : Acc) : ∃ us, tileUnits userN tileN false (xVal userN.th 0) (xVal userN.th 0) acc = .ok (.space, us) := by
  have hx : xVal userN.th 0 = 0 := by decide +kernel
  have hs : refSpace tileN.r = 2 := by decide +kernel
  have ho : refOff tileN.r = 128 := by decide +kernel
  obtain ⟨us, h⟩ := spaceUnits_ok (s := userN) (v := tileN) (acc := acc) (xr := 0) unmarked_userN rfl (by decide) (by rw [ho])
    (by rw [hs, ho]; exact scratch_userN (by decide)) (by rw [hs, ho]; exact scratch_userN (by decide)) (by
      intro i c hi hc
      have hc : c < 16 := hc
      have hb : accessBytes tileN.t = 8 := rfl
      rw [hs, ho, hb]
      exact scratch_userN (by omega))
  refine ⟨us, ?_⟩
  have hp : openRef userN (whoTh userN) tileN.r acc = .space := by
    unfold openRef openPlain
    rw [hs]
    simp
  unfold tileUnits
  rw [hx, hp, h]
  rfl


theorem noneOutside {s : State} (h : s.quads.all (fun e => e.2.outside.isEmpty) = true) (k : Nat) : outsideWaits s k = false := by
  have hq : ∀ (t : Table Quad) q, (t.all fun e => e.2.outside.isEmpty) = true → ((t.get? q).getD Quad.zero).outside = [] := by
    intro t q
    induction t with
    | nil => intro _; rfl
    | cons e t ih =>
      intro h
      simp only [List.all_cons, Bool.and_eq_true, List.isEmpty_iff] at h
      show ((if e.1 = q then some e.2 else Table.get? t q).getD Quad.zero).outside = []
      split
      · exact h.1
      · exact ih h.2
  unfold outsideWaits
  split
  · rfl
  · simp [State.quad, hq _ _ h]

/-- Nothing waits in a quad's hold buffers or at a bank, so no request names any byte. -/
def noneHeld (s : State) : Bool :=
  s.quads.all (fun e => e.2.outside.isEmpty) && (List.range 4).all (fun i => (s.core (4 * quadOf s.tid + i)).hold.isEmpty) && quiet s

theorem goes_of {s : State} {ls : List Loc} (h : noneHeld s = true) : FreeToGo s ls := by
  simp only [noneHeld, Bool.and_eq_true, List.all_eq_true, List.mem_range, List.isEmpty_iff] at h
  obtain ⟨⟨hq, hc⟩, hw⟩ := h
  have hu : isService s.tid = false := by
    simp only [quiet, Bool.and_eq_true, Bool.not_eq_true'] at hw
    exact hw.2
  refine freeToGo_of hw (fun w => ?_) (noneOutside (by simpa [List.isEmpty_iff] using hq))
  unfold requestOver
  rw [if_neg (by simp [hu])]
  have h1 : ((List.range 4).any fun i => (s.core (4 * quadOf s.tid + i)).hold.any fun e => sharesByte (e.effect.guards w) ls) = false := by
    rw [List.any_eq_false]
    intro i hi
    simp [hc i (List.mem_range.mp hi)]
  have h2 : (waitingAtBanks s fun o => quadOfCore o.core == quadOf s.tid && sharesByte (o.effect.guards w) ls) = false := by
    unfold waitingAtBanks
    rw [List.any_eq_false]
    intro e he
    simp [hq e he]
  rw [h1, h2]
  rfl

/-- The gang is not in test mode. -/
def noTest (s : State) : Bool := (s.gangs.get? s.th.gang).all fun g => !g.test

theorem loads_of {s : State} (h : noneHeld s = true) (hq : (contextOf s s.th.gang).qlimit = 0) (hg : noTest s = true)
    (units : List (List Loc)) : loadUnits s units = .ok (units.map (viewBytes s (whoTh s)), s) :=
  loadUnits_plain (goes_of h) hq (by
    intro g hg'
    unfold noTest at hg
    rw [hg'] at hg
    simpa using hg)

/-- Loads of that state take the bytes and change nothing. -/
theorem loads_userN (units : List (List Loc)) : loadUnits userN units = .ok (units.map (viewBytes userN (whoTh userN)), userN) :=
  loads_of (by decide +kernel) (by decide +kernel) (by decide +kernel) units

theorem tileRef_userN (tag : Option Nat) : tileRef userN 2 false tag = .ok tileN := by
  cases tag <;> rfl

theorem witness_TileMemory_load : ∃ us vals, ReadableX userN.th 0 ∧ tileRef userN 2 false none = .ok tileN
    ∧ tileUnits userN tileN false (xVal userN.th 0) (xVal userN.th 0) .load = .ok (.space, us) ∧ Opened.space.sideEffect = false
    ∧ loadUnits userN (us.map fun k => k.locs) = .ok (vals, userN) ∧ TileFree userN 3 := by
  obtain ⟨us, h⟩ := tileUnits_userN .load
  exact ⟨us, _, .inl rfl, tileRef_userN none, h, rfl, loads_userN _, tileFree_of (by decide +kernel)⟩

theorem stores_userN (groups : List (List (List WByte))) (fa : Word) (tiles : List (List (Nat × Nat))) :
    ∃ u, storeUnits userN 2 groups fa tiles = .ok u :=
  storeUnits_near (.inr rfl) (goes_of (by decide +kernel)) fa tiles

theorem witness_TileMemory_store : ∃ us u, ReadableX userN.th 0 ∧ Readable userN.th (.t 1)
    ∧ tileRef userN 2 false (some (tileVal userN.th 1).tag) = .ok tileN
    ∧ tileUnits userN tileN false (xVal userN.th 0) (xVal userN.th 0) .store = .ok (.space, us)
    ∧ storeUnits userN (spaceOf tileN.r) [tileStore tileN (tileVal userN.th 1) us]
        (word (((us.flatMap fun k => k.locs.map fun l => l.off)).headD 0)) [tileNamed userN 1] = .ok u := by
  obtain ⟨us, h⟩ := tileUnits_userN .store
  obtain ⟨u, hu⟩ := stores_userN [tileStore tileN (tileVal userN.th 1) us]
    (word (((us.flatMap fun k => k.locs.map fun l => l.off)).headD 0)) [tileNamed userN 1]
  exact ⟨us, u, .inl rfl, readable rfl rfl, tileRef_userN _, h, by rw [show spaceOf tileN.r = 2 by decide +kernel]; exact hu⟩

/-- A record of 32 rows of 16 elements of i64 as object 1, with the reference to it in `a2`. -/
def gridRecord (se : Bool) : ObjRec :=
  { codeRecord with
    tile := [32, 16, 0, 0], stride := [128, 8, 0, 0], ext := [32, 16, 0, 0], dims := 1, type := 3, wr := true, ex := false, se }

def userO (se : Bool) : State :=
  let s := userT (tileOf 1 0 0) (tileOf 2 0 1)
  { s.setTh { s.th with a := s.th.a.set 2 (BitVec.ofNat 128 (2 ^ 96 + 3 * 2 ^ 84 + 2 ^ 44)) } with
    mem := user.mem.writeList (0x10000 + 128) (leBytes 128 (gridRecord se).toNat) }

/-- The tile reference of that object. -/
def tileO : TileRef := { r := BitVec.ofNat 128 (2 ^ 96 + 3 * 2 ^ 84 + 2 ^ 44), t := .i64, scaled := false, blog := 0 }

/-- A block of a global object is found, and the object is so. -/
def blockFound (s : State) (p : ObjRec → Bool) : Bool :=
  match tileUnits s tileO false 0 0 .load with
  | .ok (.object k _, _) => p k
  | _ => false

theorem blockFound_ok {s : State} {p : ObjRec → Bool} (h : blockFound s p = true) :
    ∃ k slot us, tileUnits s tileO false 0 0 .load = .ok (.object k slot, us) ∧ p k = true := by
  unfold blockFound at h
  split at h
  · exact ⟨_, _, _, ‹_›, h⟩
  · cases h

theorem block_userO : blockFound (userO true) (fun k => k.se) = true := by decide +kernel

theorem witness_TileMemory_request : ∃ o us, ReadableX (userO true).th 0 ∧ tileRef (userO true) 2 false none = .ok tileO
    ∧ tileUnits (userO true) tileO false (xVal (userO true).th 0) (xVal (userO true).th 0) .load = .ok (o, us)
    ∧ o.sideEffect = true ∧ CanHold (userO true) 1 := by
  obtain ⟨k, slot, us, h, hp⟩ := blockFound_ok block_userO
  have hx : xVal (userO true).th 0 = 0 := by decide +kernel
  exact ⟨.object k slot, us, .inl rfl, rfl, by rw [hx]; exact h, hp, canHold_of 1 (by decide +kernel)⟩

theorem witness_TileMemory_units : ∃ k slot us, spaceOf tileO.r = 0 ∧ tileO.scaled = false
    ∧ tileUnits (userO true) tileO false 0 0 .load = .ok (.object k slot, us) := by
  obtain ⟨k, slot, us, h, -⟩ := blockFound_ok block_userO
  exact ⟨k, slot, us, by decide +kernel, rfl, h⟩

theorem clean_of {s : State} {k n : Nat} (h : Unmarked s) : Clean s k n :=
  fun _ _ => ⟨by simp [h.1], by simp [h.2.1], by simp [h.2.2]⟩

-- a tile that ends with the scratchpad
theorem witness_TileMemory_near : ∃ v : TileRef, userN.tid < 4096 ∧ WellFormedRef v.r ∧ spaceOf v.r = 2 ∧ v.scaled = false ∧ v.t ≠ .l6
    ∧ refBits v.r 0 44 + 4096 * 511 = 2 ^ 21 - 4096 ∧ (2 ^ 21 - 4096) % 128 = 0 ∧ 2 ^ 21 - 4096 + 4096 ≤ nearBytes userN (spaceOf v.r)
    ∧ Clean userN (nearKey userN (spaceOf v.r) (2 ^ 21 - 4096)) 4096 :=
  ⟨{ r := nearRef 2 0, t := .f32, scaled := false, blog := 0 }, by decide, wellFormed_near 2 0 (by decide), by decide +kernel, rfl,
    by decide, by decide +kernel, by decide, by decide +kernel, clean_of unmarked_userN⟩

theorem imageRef_userN (acc : Machine.Acc) : imageRef userN 2 acc = .ok (tileN.r, .space) := by cases acc <;> rfl

theorem image_userN (at' n : Nat) (acc : Acc) (h : 128 + at' + n ≤ 2 ^ 21) :
    ∃ ls, imageBytes userN .space tileN.r at' n acc = .ok ls := by
  have hs : refSpace tileN.r = 2 := by decide +kernel
  have ho : refOff tileN.r = 128 := by decide +kernel
  exact imageBytes_ok unmarked_userN (by rw [ho]; omega) (by intro i hi; rw [hs, ho]; exact scratch_userN (by omega))

theorem witness_TileImages_save : ∃ u head ls, imageRef userN 2 .store = .ok (tileN.r, .space) ∧ (∀ t ∈ named 0 2, Readable userN.th (.t t))
    ∧ [(1 : Rt)] = (named 0 2).filter (fun t => (userN.th.t[t]).isSome)
    ∧ imageBytes userN .space tileN.r 0 64 .store = .ok head
    ∧ (∀ t ∈ [(1 : Rt)], imageBytes userN .space tileN.r (64 + 4608 * (t.val % 8)) 4608 .store = .ok ls)
    ∧ storeUnits userN (spaceOf tileN.r) (oneByOne head (savedHeader userN.th 0 2)
          :: [(1 : Rt)].map fun t => oneByOne ls (savedBytes (tileVal userN.th t)))
        (word (refBits tileN.r 0 44)) ([] :: [(1 : Rt)].map (tileNamed userN)) = .ok u := by
  obtain ⟨head, hh⟩ := image_userN 0 64 .store (by decide)
  obtain ⟨ls, hl⟩ := image_userN (64 + 4608) 4608 .store (by decide)
  obtain ⟨u, hu⟩ := stores_userN (oneByOne head (savedHeader userN.th 0 2)
      :: [(1 : Rt)].map fun t => oneByOne ls (savedBytes (tileVal userN.th t)))
    (word (refBits tileN.r 0 44)) ([] :: [(1 : Rt)].map (tileNamed userN))
  refine ⟨u, head, ls, imageRef_userN _, fun _ _ => readable rfl rfl, by decide +kernel, hh, ?_, ?_⟩
  · intro t ht
    obtain rfl := List.mem_singleton.mp ht
    exact hl
  · rw [show spaceOf tileN.r = 2 by decide +kernel]
    exact hu

/-- The header's bytes in the scratchpad of that state, once the byte of tile 1 is given. -/
def userHead (b : Byte) : State := { userN with mem := userN.mem.writeList (quadBase 0 + 129) [b] }

def headOk (b : Byte) (p : List Byte → Bool) : Bool :=
  match imageBytes (userHead b) .space tileN.r 0 64 .load with
  | .ok head => p (viewBytes (userHead b) (whoTh (userHead b)) head)
  | .error _ => false

theorem headOk_ok {b : Byte} {p : List Byte → Bool} (h : headOk b p = true) :
    ∃ head, imageBytes (userHead b) .space tileN.r 0 64 .load = .ok head
      ∧ p (viewBytes (userHead b) (whoTh (userHead b)) head) = true := by
  unfold headOk at h
  split at h
  · rename_i head hh
    exact ⟨head, hh, h⟩
  · cases h

/-- The header of a live tile 1 with tag 3, and of no other. -/
def liveHead : List Byte := [0, 0xC3] ++ List.replicate 62 0

theorem loadGoes_free {s : State} {ls : List Loc} (h : FreeToGo s ls) (hu : s.tid < 4096) : LoadGoes s ls :=
  ⟨⟨h.acquires, fun _ => ⟨h.stores, h.own⟩⟩, h.loads, fun h' => absurd h' (by omega)⟩

theorem witness_TileImages_restore : ∃ head ls vals, imageRef (userHead 0xC3) 2 .load = .ok (tileN.r, .space)
    ∧ Opened.space.sideEffect = false ∧ LoadGoes (userHead 0xC3) head
    ∧ imageBytes (userHead 0xC3) .space tileN.r 0 64 .load = .ok head
    ∧ liveHead = viewBytes (userHead 0xC3) (whoTh (userHead 0xC3)) head ∧ (∀ t ∈ named 0 2, HeaderOk liveHead t)
    ∧ [(1 : Rt)] = (named 0 2).filter (fun t => decide (128 ≤ headByte liveHead t))
    ∧ (∀ t ∈ [(1 : Rt)], imageBytes (userHead 0xC3) .space tileN.r (64 + 4608 * (t.val % 8)) 4608 .load = .ok (ls t))
    ∧ loadUnits (userHead 0xC3) ((head ++ [(1 : Rt)].flatMap ls).map fun l => [l]) = .ok (vals, userHead 0xC3)
    ∧ [(1 : Rt)].length ≤ tilesFor (userHead 0xC3) (2 * ((userHead 0xC3).tid / 8) + (0 : Fin 2).val) (userHead 0xC3).tid := by
  have hs : refSpace tileN.r = 2 := by decide +kernel
  have ho : refOff tileN.r = 128 := by decide +kernel
  have hn : noneHeld (userHead 0xC3) = true := by decide +kernel
  obtain ⟨head, hh, hv⟩ := headOk_ok (b := 0xC3) (p := fun h => decide (liveHead = h)) (by decide +kernel)
  obtain ⟨ls, hl⟩ := imageBytes_ok (s := userHead 0xC3) (r := tileN.r) (at' := 64 + 4608) (n := 4608) (acc := .load)
    ⟨by decide +kernel, by decide +kernel, by decide +kernel⟩ (by rw [ho]; decide) (by
      intro i hi
      rw [hs, ho]
      exact spaceFault_scratchpad (by decide +kernel) (by omega))
  refine ⟨head, fun _ => ls, _, rfl, rfl, loadGoes_free (goes_of hn) (by decide), hh, by simpa using hv, ?_, by decide +kernel, ?_,
    loads_of hn (by decide +kernel) (by decide +kernel) _, by decide +kernel⟩
  · unfold HeaderOk; decide +kernel
  · intro t ht
    obtain rfl := List.mem_singleton.mp ht
    exact hl

-- a header of zeros: the tile's byte does not have its bit 6
theorem witness_TileImages_header : (∃ t ∈ named 0 2, ¬HeaderOk (List.replicate 64 0) t) ∧ CanHold userN 1
    ∧ ∀ t ∈ named 0 2, ¬128 ≤ headByte (List.replicate 64 0) t := by
  refine ⟨⟨1, by decide +kernel, ?_⟩, canHold_of 1 (by decide +kernel), by decide +kernel⟩
  unfold HeaderOk; decide +kernel

/-- The thread with its engine's ring endpoint as given, in a gang of two cores of quad 0. -/
def userRing (view : Option Join) (credits : Nat) (slots : List RingSlot) (x : Word) : State :=
  let s := userT (tileOf 1 0 0) (tileOf 2 0 1)
  let s := s.setTh { s.th with x := s.th.x.set 6 x }
  s.setEngine 0 { s.engine 0 with view, credits, slots }

theorem ringMask_of {s : State} {e x : Nat} (h : (decide (x < 2 ^ 16) && x.testBit (e % 16)
    && decide (2 ≤ ((List.range 16).filter fun p => x.testBit p).length)
    && (s.gangs.get? s.th.gang).any fun g => (List.range 16).all fun p => !x.testBit p
        || g.cores.any fun c => c / 4 == (e / 16 * 16 + p) / 2) = true) : RingMask s e x := by
  simp only [Bool.and_eq_true, decide_eq_true_eq] at h
  obtain ⟨⟨⟨h0, h1⟩, h2⟩, h3⟩ := h
  refine ⟨h0, h1, h2, ?_⟩
  cases hg : s.gangs.get? s.th.gang with
  | none => rw [hg] at h3; cases h3
  | some g =>
    rw [hg] at h3
    refine ⟨g, rfl, fun p hp hb => ?_⟩
    have := List.all_eq_true.mp h3 p (List.mem_range.mpr hp)
    simp only [hb, Bool.not_true, Bool.false_or, List.any_eq_true, beq_iff_eq] at this
    exact this

theorem joined_of {s : State} {e : Nat} {j : Join} (h : (s.engine e).view = some j) :
    (j.owner = s.tid → Joined s e) ∧ (j.owner ≠ s.tid → JoinedByOther s e) := ⟨fun k => ⟨j, h, k⟩, fun k => ⟨j, h, k⟩⟩

theorem notJoined_of {s : State} {e : Nat} (h : (s.engine e).view = none) : ¬Joined s e ∧ ¬JoinedByOther s e := by
  constructor <;> (rintro ⟨j, k, -⟩; rw [h] at k; cases k)

-- positions 0 and 1 are the quad's own engines
theorem witness_RingInstructions_join : tileEngine (userRing none 2 [] 3) 1 = 0 ∧ ReadableX (userRing none 2 [] 3).th 6
    ∧ RingMask (userRing none 2 [] 3) 0 (xVal (userRing none 2 [] 3).th 6) ∧ ¬JoinedByOther (userRing none 2 [] 3) 0
    ∧ CanHold (userRing none 2 [] 3) 1 :=
  ⟨by decide +kernel, readableX rfl rfl, ringMask_of (by decide +kernel), (notJoined_of (by decide +kernel)).2,
    canHold_of 1 (by decide +kernel)⟩

theorem witness_RingInstructions_leave : xVal (userRing (some ⟨0, 3⟩) 2 [] 0).th 6 = 0 ∧ Joined (userRing (some ⟨0, 3⟩) 2 [] 0) 0
    ∧ CanHold (userRing (some ⟨0, 3⟩) 2 [] 0) 1 ∧ xVal (userRing none 2 [] 0).th 6 = 0 ∧ ¬Joined (userRing none 2 [] 0) 0 :=
  ⟨by decide +kernel, (joined_of (j := ⟨0, 3⟩) (by decide +kernel)).1 rfl, canHold_of 1 (by decide +kernel), by decide +kernel,
    (notJoined_of (by decide +kernel)).1⟩

theorem witness_RingInstructions_refused : xVal (userRing (some ⟨2, 3⟩) 2 [] 3).th 6 ≠ 0
    ∧ JoinedByOther (userRing (some ⟨2, 3⟩) 2 [] 3) 0 ∧ xVal (userRing none 2 [] 2).th 6 ≠ 0
    ∧ ¬RingMask (userRing none 2 [] 2) 0 (xVal (userRing none 2 [] 2).th 6) ∧ ¬JoinedByOther (userRing none 2 [] 2) 0 := by
  refine ⟨by decide +kernel, (joined_of (j := ⟨2, 3⟩) (by decide +kernel)).2 (by decide), by decide +kernel, ?_,
    (notJoined_of (by decide +kernel)).2⟩
  intro h
  exact absurd h.2.1 (by decide +kernel)

theorem witness_RingInstructions_stat : ∃ e foreign joined : Nat, e = tileEngine (userRing none 2 [] 0) 1
    ∧ foreign = (if ((userRing none 2 [] 0).engine e).foreign then 1 else 0) ∧ (Joined (userRing none 2 [] 0) e → joined = 1)
    ∧ (¬Joined (userRing none 2 [] 0) e → joined = 0) :=
  ⟨0, 0, 0, by decide +kernel, by decide +kernel, fun h => absurd h (notJoined_of (by decide +kernel)).1, fun _ => rfl⟩

/-- A tile that waits in a slot. -/
def slotTile : RingSlot := { num := 4, img := { data := 9, scale := 0, tag := 0 }, sender := 1, consumed := false }

theorem witness_RingInstructions_send_receive : tileEngine (userRing (some ⟨0, 3⟩) 1 [slotTile] 3) 1 = 0 ∧ (Instr.tring 2 1).wf = true
    ∧ Joined (userRing (some ⟨0, 3⟩) 1 [slotTile] 3) 0 ∧ JoinReleased (userRing (some ⟨0, 3⟩) 1 [slotTile] 3) 0
    ∧ Readable (userRing (some ⟨0, 3⟩) 1 [slotTile] 3).th (.t 1) ∧ 0 < ((userRing (some ⟨0, 3⟩) 1 [slotTile] 3).engine 0).credits
    ∧ Oldest (userRing (some ⟨0, 3⟩) 1 [slotTile] 3) 0 slotTile ∧ CanHold (userRing (some ⟨0, 3⟩) 1 [slotTile] 3) 2
    ∧ TileFree (userRing (some ⟨0, 3⟩) 1 [slotTile] 3) 2 :=
  ⟨by decide +kernel, by decide, (joined_of (j := ⟨0, 3⟩) (by decide +kernel)).1 rfl, by unfold JoinReleased; decide +kernel,
    readable rfl rfl, by decide +kernel, by unfold Oldest; decide +kernel, canHold_of 2 (by decide +kernel), tileFree_of (by decide +kernel)⟩

theorem witness_RingInstructions_not_joined : ¬Joined (userRing none 2 [] 0) (tileEngine (userRing none 2 [] 0) 1)
    ∧ CanHold (userRing none 2 [] 0) 1 :=
  ⟨(notJoined_of (by decide +kernel)).1, canHold_of 1 (by decide +kernel)⟩

theorem witness_DeprecatedResult_vdot4 : Readable user.th (.v 1) ∧ Readable user.th (.v 2) ∧ Readable user.th (.v 3) :=
  ⟨readable rfl rfl, readable rfl rfl, readable rfl rfl⟩

/-- The same with 32-bit integers, and a reference to it: `tgath1` takes no type of 64 bits (R241). -/
def userW : State :=
  let s := userT (tileOf 1 0 0) (tileOf 2 0 1)
  { s.setTh { s.th with a := s.th.a.set 2 (BitVec.ofNat 128 (2 ^ 96 + 2 * 2 ^ 84 + 2 ^ 44)) } with
    mem := user.mem.writeList (0x10000 + 128) (leBytes 128 ({ gridRecord false with
      tile := [32, 32, 0, 0], stride := [128, 4, 0, 0], ext := [32, 32, 0, 0], type := 2 : ObjRec }.toNat)) }

/-- The tile reference of that object. -/
def tileW : TileRef := { r := BitVec.ofNat 128 (2 ^ 96 + 2 * 2 ^ 84 + 2 ^ 44), t := .i32, scaled := false, blog := 0 }

/-- The elements of row 0 of the object, as `tgath1` finds them. -/
def cellO (s : State) (k : ObjRec) (o : Opened) (c : Nat) : Except Stop (List Loc) :=
  elemUnit s (whoTh s) o tileW.r (elementAt tileW k false 0 0 0 c : Nat) (elemBytes tileW.t) (elemAlign tileW.t) .gather 0

/-- That state with every row number 0 in `v3`, and every flag of the detector off. -/
def rowZero (s : State) : Bool :=
  match gatherObject s s.th.a[(2 : Ra)] with
  | .ok (_, k, o) => decide (1 ≤ (if k.dims = 0 then 1 else k.ext.getD (k.dims - 1) 0))
      && (List.range 32).all fun c => (cellO s k o c).toBool
  | .error _ => false

theorem rowZero_userW : rowZero userW = true := by decide +kernel

theorem gatherObject_tile {s : State} {r : Ref} {v : TileRef} {k : ObjRec} {o : Opened} (h : gatherObject s r = .ok (v, k, o)) :
    v = { r, t := (Ty.ofCode (refType r)).getD .i8, scaled := false, blog := 0 } := by
  unfold gatherObject at h
  simp only [bind, Except.bind] at h
  split at h
  · cases h
  split at h
  · cases h
  split at h
  · cases h
  split at h
  · cases h
  split at h
  · cases h
  · cases h
  · cases h
  · split at h
    · cases h
    · simp only [pure, Except.pure] at h
      cases h
      rfl

/-- The locations that were found. -/
def found : Except Stop (List Loc) → List Loc
  | .ok l => l
  | .error _ => []

/-- The bytes of an element of that row. -/
def listO (s : State) (k : ObjRec) (o : Opened) (c : Nat) : List Loc := found (cellO s k o c)

theorem loads_userW (units : List (List Loc)) : loadUnits userW units = .ok (units.map (viewBytes userW (whoTh userW)), userW) :=
  loads_of (by decide +kernel) (by decide +kernel) (by decide +kernel) units

theorem ref_userW : userW.th.a[(2 : Ra)] = tileW.r := by decide +kernel
theorem type_userW : (Ty.ofCode (refType tileW.r)).getD .i8 = .i32 := by decide +kernel

theorem cell_ok {s : State} {k : ObjRec} {o : Opened} {c : Nat} (h : (cellO s k o c).toBool = true) (fi : Word) :
    elemUnit s (whoTh s) o tileW.r (elementAt tileW k false 0 0 0 c : Nat) (elemBytes tileW.t) (elemAlign tileW.t) .gather fi
      = .ok (listO s k o c) := by
  obtain ⟨l, hl⟩ := ok_of h
  have h' : listO s k o c = l := congrArg found hl
  rw [h']
  unfold cellO at hl
  exact elemUnit_info hl fi

theorem cells_userW : rowCells tileW.t = 32 := by decide

theorem zero_v3 : userW.th.v[(3 : Rv)] = 0 := by decide +kernel

theorem witness_DeprecatedResult_tgath1 : ∃ (k : ObjRec) (o : Opened) (ls : Nat → Nat → List Loc) (vals : List (List Byte)),
    Readable userW.th (.a 2) ∧ Readable userW.th (.v 3)
    ∧ gatherObject userW userW.th.a[(2 : Ra)] = .ok (tileW, k, o)
    ∧ (∀ i c, i < 32 → c < rowCells tileW.t →
      lane 32 userW.th.v[(3 : Rv)] i < (if k.dims = 0 then 1 else k.ext.getD (k.dims - 1) 0)
      ∧ elemUnit userW (whoTh userW) o tileW.r (elementAt tileW k false (lane 32 userW.th.v[(3 : Rv)] i) 0 0 c)
          (elemBytes tileW.t) (elemAlign tileW.t) .gather (word (256 * i + c)) = .ok (ls i c))
    ∧ loadUnits userW (((List.range 32).flatMap fun i => (List.range (rowCells tileW.t)).map fun c =>
        (⟨ls i c, 1024 * i + 8 * elemBytes tileW.t * c⟩ : TileUnit)).map fun w => w.locs) = .ok (vals, userW)
    ∧ TileFree userW 4 := by
  have h := rowZero_userW
  unfold rowZero at h
  split at h
  · rename_i v k o hg
    simp only [Bool.and_eq_true, decide_eq_true_eq, List.all_eq_true, List.mem_range] at h
    have hv : v = tileW := by rw [gatherObject_tile hg, ref_userW, type_userW, tileW]
    rw [hv] at hg
    have hz : ∀ i, lane 32 userW.th.v[(3 : Rv)] i = 0 := by
      intro i
      rw [zero_v3]
      simp only [lane, BitVec.ofNat_eq_ofNat, BitVec.toNat_ofNat, Nat.zero_mod, Nat.zero_div]
    refine ⟨k, o, fun _ c => listO userW k o c, _, readable rfl rfl, readable rfl rfl, hg, fun i c hi hc => ?_, loads_userW _,
      tileFree_of (by decide +kernel)⟩
    · rw [hz i]
      have hc : c < 32 := Nat.lt_of_lt_of_eq hc cells_userW
      exact ⟨Nat.lt_of_succ_le h.1, cell_ok (h.2 c hc) _⟩
  · cases h

/-- The state with row numbers of 32 in `v3`, which lie outside the object. -/
def userW32 : State :=
  userW.setTh { userW.th with v := userW.th.v.set 3 32 }

/-- The first row stops, with a fault. -/
def rowFails (s : State) : Bool :=
  match gatherObject s s.th.a[(2 : Ra)] with
  | .ok (v, k, o) => (match gatherRow s v k o 0 (lane 32 s.th.v[(3 : Rv)] 0) with
    | .error (.trap _) => true
    | _ => false)
  | .error _ => false

theorem rowFails_userW32 : rowFails userW32 = true := by decide +kernel

theorem witness_DeprecatedResult_tgath1_fault : ∃ (k : ObjRec) (o : Opened) (v : TileRef) (f : Trap),
    Readable userW32.th (.a 2) ∧ Readable userW32.th (.v 3)
    ∧ gatherObject userW32 userW32.th.a[(2 : Ra)] = .ok (v, k, o) ∧ CanHold userW32 1
    ∧ gatherRow userW32 v k o 0 (lane 32 userW32.th.v[(3 : Rv)] 0) = .error (.trap f) := by
  have h := rowFails_userW32
  unfold rowFails at h
  split at h
  · rename_i v k o hg
    split at h
    · rename_i f hf
      exact ⟨k, o, v, f, readable rfl rfl, readable rfl rfl, hg, canHold_of 1 (by decide +kernel), hf⟩
    · cases h
  · cases h
/-! Order, messages, hurdles, copies and tasks -/

/-- An entry of the thread. -/
def entryOf (seq after : Nat) (e : HeldEffect) : HoldEntry := { seq, cycle := 0, tid := 0, after, tiles := [], effect := e, paid := 0, acq := 0, took := [] }

/-- The thread with effects in its core's hold buffer. -/
def userHeld (l : List HoldEntry) (load stores : Nat) : State :=
  { user.setCore 0 { Core.zero with hold := l } with seq := 8, th := { user.th with loadAfter := load, loadAfterStores := stores } }

theorem witness_FenceResult_acquire : outstanding (userHeld [entryOf 3 0 (.tqget 5)] 4 0) 0
    (userHeld [entryOf 3 0 (.tqget 5)] 4 0).th.loadAfter = true := by decide +kernel

theorem witness_FenceResult_stores : heldStores (userHeld [entryOf 3 0 (.store [])] 0 4) 0
    (userHeld [entryOf 3 0 (.store [])] 0 4).th.loadAfterStores = true := by decide +kernel

theorem quadClear_of {s : State} {q n : Nat} (h : ((List.range 4).all (fun i => (s.core (4 * q + i)).hold.all fun e => decide (n ≤ e.seq))
    && s.quads.all fun e => e.2.outside.isEmpty) = true) : QuadClear s q n := by
  simp only [Bool.and_eq_true, List.all_eq_true, List.mem_range, decide_eq_true_eq, List.isEmpty_iff] at h
  refine ⟨h.1, fun e he o ho => ?_⟩
  rw [h.2 e he] at ho
  cases ho

theorem quadVisible_of {s : State} {q n : Nat} (h : ((List.range 4).all (fun i => (s.core (4 * q + i)).hold.all fun e => decide (n ≤ e.seq))
    && s.quads.all fun e => e.2.outside.isEmpty) = true) (hq : (s.quad q).journal = []) (hc : ∀ i, i < 4 → (s.core (4 * q + i)).journal = []) :
    QuadVisible s q n :=
  ⟨quadClear_of h, (by show ∀ e ∈ (s.quad q).journal, _; rw [hq]; exact fun _ h => nomatch h),
    fun i hi => by show ∀ e ∈ (s.core (4 * q + i)).journal, _; rw [hc i hi]; exact fun _ h => nomatch h⟩

theorem notClear_of {s : State} {q n i : Nat} {e : HoldEntry} (hi : i < 4) (he : e ∈ (s.core (4 * q + i)).hold) (hn : e.seq < n) :
    ¬QuadClear s q n := fun h => absurd (h.1 i hi e he) (by omega)

-- the entry waits for effects below 3 of its quad, and the other core of the quad holds effect 1
theorem witness_FenceResult_release :
    (((userHeld [entryOf 5 3 (.store [])] 0 0).setCore 1 { Core.zero with hold := [entryOf 1 0 (.store [])] }).core 0).hold
      = [entryOf 5 3 (.store [])] ∧ (entryOf 5 3 (.store [])).after ≠ 0
    ∧ ¬QuadClear ((userHeld [entryOf 5 3 (.store [])] 0 0).setCore 1 { Core.zero with hold := [entryOf 1 0 (.store [])] }) (0 / 4) 3 :=
  ⟨by decide +kernel, by decide, notClear_of (i := 1) (e := entryOf 1 0 (.store [])) (by decide) (by decide +kernel) (by decide)⟩

theorem namesQuad_of {s : State} {sc : Scope} {v : Nat} (h : (decide ((s.thread (8 * (v % 2 ^ 9))).run = .running)
    && decide ((s.thread (8 * (v % 2 ^ 9))).gang = s.th.gang)) = true) (hp : v / 2 ^ 16 % 2 ^ 10 = s.pkg % 2 ^ 10) : NamesGangQuad s sc v := by
  simp only [Bool.and_eq_true, decide_eq_true_eq] at h
  exact ⟨fun _ => hp, 0, by decide, by rw [Nat.add_zero, h.1]; decide, by rw [Nat.add_zero, h.1]; decide, h.2⟩

-- a service core with a change of a record that is not yet in force; any thread without one
theorem witness_FenceResult_fence : FenceWaits { user with tid := 4096, recordWrites := [{ cells := [], bound := 0 }] } .package .acqrel
    ∧ ¬FenceWaits user .package .acqrel :=
  ⟨⟨by decide, rfl, by decide, by simp⟩, fun h => absurd h.1 (by decide)⟩

theorem witness_FenceResult_own : user.cycle < (user.setTh { user.th with loadFrom := 200 }).th.loadFrom := by decide +kernel

-- a release fence came after effect 3, which is still held
theorem witness_FenceResult_ownStore : ¬QuadClear ((userHeld [entryOf 3 0 (.store [])] 0 0).setTh
    { (userHeld [entryOf 3 0 (.store [])] 0 0).th with storeAfter := 4 }) 0 4 :=
  notClear_of (i := 0) (e := entryOf 3 0 (.store [])) (by decide) (by decide +kernel) (by decide)

theorem witness_FenceResult_pacq : ReadableX (userX 0 0).th 6 ∧ PacqWord (xVal (userX 0 0).th 6)
    ∧ NamesGangQuad (userX 0 0) .package (xVal (userX 0 0).th 6) ∧ QuadVisible (userX 0 0) 0 (userX 0 0).seq :=
  ⟨readableX rfl rfl, by unfold PacqWord; decide +kernel, namesQuad_of (by decide +kernel) (by decide +kernel),
    quadVisible_of (by decide +kernel) (by decide +kernel) (by decide +kernel)⟩

theorem witness_FenceResult_pacq_waits : PacqWord (xVal (userHeld [entryOf 3 0 (.store [])] 0 0).th 6)
    ∧ NamesGangQuad (userHeld [entryOf 3 0 (.store [])] 0 0) .quad (xVal (userHeld [entryOf 3 0 (.store [])] 0 0).th 6)
    ∧ ¬QuadVisible (userHeld [entryOf 3 0 (.store [])] 0 0) 0 (userHeld [entryOf 3 0 (.store [])] 0 0).seq :=
  ⟨by unfold PacqWord; decide +kernel, namesQuad_of (by decide +kernel) (by decide +kernel),
    fun h => notClear_of (i := 0) (e := entryOf 3 0 (.store [])) (by decide) (by decide +kernel) (by decide) h.1⟩

theorem witness_FenceResult_pacq_faults : ¬PacqWord (xVal (userX (2 ^ 9) 0).th 6) ∧ CanHold (userX (2 ^ 9) 0) 1
    ∧ PacqWord (xVal (userX 1 0).th 6) ∧ ¬NamesGangQuad (userX 1 0) .quad (xVal (userX 1 0).th 6) := by
  refine ⟨by unfold PacqWord; decide +kernel, canHold_of 1 (by decide +kernel), by unfold PacqWord; decide +kernel, ?_⟩
  rintro ⟨-, i, hi, hn, -⟩
  have h : ∀ i, i < 8 → ((userX 1 0).thread (8 * (xVal (userX 1 0).th 6 % 2 ^ 9) + i)).run = .never := by decide +kernel
  exact hn (h i hi)

theorem witness_FenceResult_hdrain : Scope.quad.code < 3 ∧ 3 ≤ Scope.sect.code ∧ ¬Drained (userHeld [entryOf 3 0 (.store [])] 0 0) := by
  refine ⟨by decide, by decide, fun h => ?_⟩
  exact h.1 (entryOf 3 0 (.store [])) (by decide +kernel) (by decide)

theorem witness_FenceResult_hdrain_drained : Drained user := by
  refine ⟨fun e he => absurd he ?_, fun e he o ho _ => absurd ho ?_⟩
  · rw [show (user.core (user.tid / 2)).hold = [] by decide +kernel]
    exact List.not_mem_nil
  · have h : ∀ e ∈ user.quads, e.2.outside = [] := by decide +kernel
    rw [h e he]
    exact List.not_mem_nil

/-- A gang of two threads on each of its cores, with one entry. -/
def gangOf (cores : List Nat) : Gang :=
  { Gang.zero with ctx := 1, code := 1, cores, threads := 2, entries := [0], slots := some ⟨100, [(0, 0, 50), (1, 51, 99)]⟩, resident := true }

/-- The thread in such a gang, with `x6`, `x7`. -/
def userGang (g : Gang) (a b : Word) : State := (userX a b).setGang 1 g

theorem witness_MessageInstructions_held : sendOp (.msend 6 7) = some (0, none, 6, 7) ∧ ReadableX (userGang (gangOf [0, 4]) 2 9).th 6
    ∧ ReadableX (userGang (gangOf [0, 4]) 2 9).th 7 ∧ SendReadable (userGang (gangOf [0, 4]) 2 9).th none
    ∧ (userGang (gangOf [0, 4]) 2 9).gangs.get? (userGang (gangOf [0, 4]) 2 9).th.gang = some (gangOf [0, 4])
    ∧ (gangOf [0, 4]).cores[xVal (userGang (gangOf [0, 4]) 2 9).th 6 / 2]? = some 4
    ∧ ¬TakesNow (userGang (gangOf [0, 4]) 2 9) 8 2 ∧ CanHold (userGang (gangOf [0, 4]) 2 9) 1 :=
  ⟨rfl, readableX rfl rfl, readableX rfl rfl, fun _ _ => readable rfl rfl, by decide +kernel, by decide +kernel,
    fun h => absurd h.2.1 (by decide +kernel), canHold_of 1 (by decide +kernel)⟩

/-- Thread 2 runs on the quad's other core. -/
def userTwo : State := (userGang (gangOf [0, 1]) 2 9).setThread 2 { Thread.zero with run := .running, gang := 1, rank := 2 }

theorem witness_MessageInstructions_taken : sendOp (.msendv 3 6 7) = some (1, some 3, 6, 7) ∧ SendReadable userTwo.th (some 3)
    ∧ userTwo.gangs.get? userTwo.th.gang = some (gangOf [0, 1]) ∧ (gangOf [0, 1]).cores[xVal userTwo.th 6 / 2]? = some 1
    ∧ TakesNow userTwo (2 * 1 + xVal userTwo.th 6 % 2) (xVal userTwo.th 6) ∧ (gangOf [0, 1]).resident = true := by
  refine ⟨rfl, readable rfl rfl, by decide +kernel, by decide +kernel, ?_, rfl⟩
  refine ⟨by decide +kernel, by decide +kernel, by decide +kernel, by decide +kernel, by decide +kernel, by decide +kernel,
    by decide +kernel, by decide +kernel, by decide +kernel, fun e he => absurd he ?_⟩
  rw [show (userTwo.core (userTwo.tid / 2)).hold = [] by decide +kernel]
  exact List.not_mem_nil

theorem noGang_of {s : State} {P : Gang → Prop} [DecidablePred P] (h : (s.gangs.get? s.th.gang).all (fun g => decide (P g)) = true) (g : Gang)
    (hg : s.gangs.get? s.th.gang = some g) : P g := by
  rw [hg] at h
  simpa using h

theorem witness_MessageInstructions_rank : (∀ g, (userGang (gangOf [0, 1]) 4 9).gangs.get? (userGang (gangOf [0, 1]) 4 9).th.gang = some g →
      2 * g.cores.length ≤ xVal (userGang (gangOf [0, 1]) 4 9).th 6) ∧ CanHold (userGang (gangOf [0, 1]) 4 9) 1 :=
  ⟨noGang_of (by decide +kernel), canHold_of 1 (by decide +kernel)⟩

theorem witness_MessageInstructions_start : ReadableX (userGang (gangOf [0, 1]) 1 0).th 6 ∧ ReadableX (userGang (gangOf [0, 1]) 1 0).th 7
    ∧ PayloadReadable (userGang (gangOf [0, 1]) 1 0).th ∧ CanHold (userGang (gangOf [0, 1]) 1 0) 1
    ∧ (userGang (gangOf [0, 1]) 1 0).gangs.get? (userGang (gangOf [0, 1]) 1 0).th.gang = some (gangOf [0, 1])
    ∧ (gangOf [0, 1]).cores[xVal (userGang (gangOf [0, 1]) 1 0).th 6]? = some 1
    ∧ xVal (userGang (gangOf [0, 1]) 1 0).th 7 < (gangOf [0, 1]).entries.length
    ∧ (gangOf [0, 1]).entries.length ≤ xVal (userGang (gangOf [0, 1]) 1 1).th 7
    ∧ ∀ g, (userGang (gangOf [0, 1]) 2 0).gangs.get? (userGang (gangOf [0, 1]) 2 0).th.gang = some g →
        g.cores.length ≤ xVal (userGang (gangOf [0, 1]) 2 0).th 6 :=
  ⟨readableX rfl rfl, readableX rfl rfl, fun _ _ => readable rfl rfl, canHold_of 1 (by decide +kernel), by decide +kernel,
    by decide +kernel, by decide +kernel, by decide +kernel, noGang_of (by decide +kernel)⟩

/-- A message of kind 2, with the flag NV. -/
def aMessage : Message :=
  { header := word (2 ^ 63 + 2 * 2 ^ 60 + 2 ^ 58), payload := 0, sender := .member 1 2, scope := .sect, outside := true, seq := 0, born := 0 }

/-- The thread with messages that wait and its wake bit. -/
def userInbox (l : List Message) (w : Bool) : State := user.setTh { user.th with inbox := l, wake := w }

theorem witness_MessageInstructions_receive : (userInbox [] false).th.inbox = [] ∧ (userInbox [aMessage] true).th.inbox = aMessage :: []
    ∧ ReadableX (userInbox [] false).th 6 ∧ (userInbox [aMessage] true).th.wake = true ∧ (userInbox [] false).th.wake = false :=
  ⟨rfl, rfl, readableX rfl rfl, rfl, rfl⟩

/-- The thread in a gang with slots on cores 0 and 1, with a count of arrivals at quad scope and perhaps under `.heat on`. -/
def userCount (n : Nat) (heat : Bool) (x : Word) : State :=
  let s := userGang { gangOf [0, 1] with heatMode := heat } x 4096
  s.setTh { s.th with counts := s.th.counts.set 1 n }

theorem inHurdle_of {s : State} {g : Gang} {dom : Fin 4} (hg : s.gangs.get? s.th.gang = some g)
    (h : (decide (s.tid < 4096) && decide (s.tid % 2 < g.threads)
      && (g.cores.idxOf? (s.tid / 2)).any fun p => (g.domain dom).contains p) = true) : InHurdle s g dom := by
  simp only [Bool.and_eq_true, decide_eq_true_eq] at h
  refine ⟨hg, h.1.1, h.1.2, ?_⟩
  cases hp : g.cores.idxOf? (s.tid / 2) with
  | none => rw [hp] at h; cases h.2
  | some p => exact ⟨p, rfl, by rw [hp] at h; simpa using h.2⟩

theorem witness_HurdleInstructions_arrive : InHurdle (userCount 1 false 0) (gangOf [0, 1]) 0 ∧ 1 = (userCount 1 false 0).th.count 0 .quad
    ∧ 1 < completedFor (userCount 1 false 0) (gangOf [0, 1]) 0 .quad + 2 ∧ InHurdle (userCount 2 false 0) (gangOf [0, 1]) 0
    ∧ completedFor (userCount 2 false 0) (gangOf [0, 1]) 0 .quad + 2 ≤ (userCount 2 false 0).th.count 0 .quad :=
  ⟨inHurdle_of (by decide +kernel) (by decide +kernel), by decide +kernel, by decide +kernel,
    inHurdle_of (by decide +kernel) (by decide +kernel), by decide +kernel⟩

theorem witness_HurdleInstructions_wait : InHurdle (userCount 1 false 0) (gangOf [0, 1]) 0 ∧ ReadableX (userCount 1 false 0).th 6
    ∧ xVal (userCount 1 false 0).th 6 ≤ (userCount 1 false 0).th.count 0 .quad
    ∧ xVal (userCount 1 false 0).th 6 ≤ completedFor (userCount 1 false 0) (gangOf [0, 1]) 0 .quad
    ∧ xVal (userCount 1 false 1).th 6 ≤ (userCount 1 false 1).th.count 0 .quad
    ∧ completedFor (userCount 1 false 1) (gangOf [0, 1]) 0 .quad < xVal (userCount 1 false 1).th 6
    ∧ (gangOf [0, 1]).heatMode = false ∧ InHurdle (userCount 1 true 1) { gangOf [0, 1] with heatMode := true } 0
    ∧ Scope.quad = ({ gangOf [0, 1] with heatMode := true } : Gang).scope
    ∧ (userCount 1 false 2).th.count 0 .quad < xVal (userCount 1 false 2).th 6 ∧ CanHold (userCount 1 false 2) 1 :=
  ⟨inHurdle_of (by decide +kernel) (by decide +kernel), readableX rfl rfl, by decide +kernel, by decide +kernel, by decide +kernel,
    by decide +kernel, rfl, inHurdle_of (by decide +kernel) (by decide +kernel), rfl, by decide +kernel, canHold_of 1 (by decide +kernel)⟩

theorem witness_HurdleInstructions_outside : (∀ g, ¬InHurdle (userCount 0 false 0) g 1) ∧ CanHold (userCount 0 false 0) 1 := by
  refine ⟨fun g h => ?_, canHold_of 1 (by decide +kernel)⟩
  obtain ⟨hg, -, -, p, -, hp⟩ := h
  have : g.domain 1 = [] := noGang_of (P := fun g => g.domain 1 = []) (by decide +kernel) g hg
  rw [this] at hp
  cases hp

theorem witness_HurdleInstructions_phase : InHurdle (userGang { gangOf [0, 1] with slots := none } 0 0) { gangOf [0, 1] with slots := none } 0
    ∧ CanHold (userGang { gangOf [0, 1] with slots := none } 0 0) 1 ∧ InHurdle (userCount 1 false 0) (gangOf [0, 1]) 0
    ∧ (gangOf [0, 1]).slots = some ⟨100, [(0, 0, 50), (1, 51, 99)]⟩
    ∧ (userCount 1 false 0).th.count 0 (gangOf [0, 1]).scope < completedFor (userCount 1 false 0) (gangOf [0, 1]) 0 (gangOf [0, 1]).scope + 2
    ∧ (gangOf [0, 1]).scope.code < 3 ∧ ReadableX (userCount 1 false 0).th 6 ∧ ((userCount 1 false 0).core 0).phase = none
    ∧ CanHold (userCount 1 false 0) 1 ∧ (((userCount 1 false 0).setCore 0 { Core.zero with phase := some 0 }).core 0).phase = some 0 :=
  ⟨inHurdle_of (by decide +kernel) (by decide +kernel), canHold_of 1 (by decide +kernel), inHurdle_of (by decide +kernel) (by decide +kernel),
    rfl, by decide +kernel, by decide, readableX rfl rfl, by decide +kernel, canHold_of 1 (by decide +kernel), by decide +kernel⟩

/-- The thread at clock 0 of its slot, with a position and two offsets. -/
def userSend (pos a b : Word) : State :=
  let s := userGang (gangOf [0, 1]) a b
  (s.setTh { s.th with x := s.th.x.set 5 pos }).setCore 0 { Core.zero with phase := some 0 }

-- a position of no core; a source that is no multiple of 256; the constant window
theorem witness_HurdleInstructions_exchange_faults : (userSend 2 2048 4096).gangs.get? (userSend 2 2048 4096).th.gang = some (gangOf [0, 1])
    ∧ ReadableX (userSend 2 2048 4096).th 5 ∧ ReadableX (userSend 2 2048 4096).th 6 ∧ ReadableX (userSend 2 2048 4096).th 7
    ∧ CanHold (userSend 2 2048 4096) 1 ∧ exchangeFault (userSend 2 2048 4096) (gangOf [0, 1]) 2 2048 4096 = some (0x09, 2, 0)
    ∧ exchangeFault (userSend 1 2050 4096) (gangOf [0, 1]) 1 2050 4096 = some (0x05, 2050, 0)
    ∧ exchangeFault (userSend 1 2048 1792) (gangOf [0, 1]) 1 2048 1792 = some (0x09, 1792, 0)
    ∧ exchangeFault (userSend 1 (2 ^ 18) 4096) (gangOf [0, 1]) 1 (2 ^ 18) 4096 = some (0x06, 2 ^ 18, 0) :=
  ⟨by decide +kernel, readableX rfl rfl, readableX rfl rfl, readableX rfl rfl, canHold_of 1 (by decide +kernel), by decide +kernel,
    by decide +kernel, by decide +kernel, by decide +kernel⟩

theorem witness_HurdleInstructions_exchange : exchangeFault (userSend 1 2048 4096) (gangOf [0, 1]) (xVal (userSend 1 2048 4096).th 5)
      (xVal (userSend 1 2048 4096).th 6) (xVal (userSend 1 2048 4096).th 7) = none
    ∧ (gangOf [0, 1]).cores[xVal (userSend 1 2048 4096).th 5]? = some 1
    ∧ (∃ vals, loadUnits (userSend 1 2048 4096) [lineOf ((userSend 1 2048 4096).tid / 2) (xVal (userSend 1 2048 4096).th 6)]
        = .ok (vals, userSend 1 2048 4096))
    ∧ Clean (userSend 1 2048 4096) (localBase ((userSend 1 2048 4096).tid / 2) + xVal (userSend 1 2048 4096).th 6) 256
    ∧ ∀ e ∈ ((userSend 1 2048 4096).core ((userSend 1 2048 4096).tid / 2)).hold, e.cycle = (userSend 1 2048 4096).cycle →
        ∀ l bs, e.effect ≠ .xsend l bs := by
  refine ⟨by decide +kernel, by decide +kernel, ⟨_, loads_of (by decide +kernel) (by decide +kernel) (by decide +kernel) _⟩,
    clean_of ⟨by decide +kernel, by decide +kernel, by decide +kernel⟩, fun e he => absurd he ?_⟩
  rw [show ((userSend 1 2048 4096).core ((userSend 1 2048 4096).tid / 2)).hold = [] by decide +kernel]
  exact List.not_mem_nil

theorem witness_CopyInstructions_set : Readable (userA (nearRef 2 8)).th (.a 2) := readable rfl rfl

/-- The thread with shadows of a copy, beside object 1, which may be written. -/
def userCopy (src dst : Ref) (mode len : Word) : State :=
  let s := userG false
  s.setTh { s.th with cpsrc := src, cpdst := dst, cpmode := mode, cplen := len }

def launchOk (s : State) (r : Ref) (acc : Acc) : Bool :=
  match openRef s (whoTh s) r acc with
  | .space => true
  | .object _ _ => true
  | _ => false

theorem launchable_of {s : State} {r : Ref} {acc : Acc} (hw : WellFormedRef r) (h : launchOk s r acc = true) : Launchable s r acc := by
  refine ⟨hw, ?_⟩
  unfold launchOk at h
  split at h
  · exact .inl ‹_›
  · rename_i o k ho
    exact .inr ⟨o, k, ho⟩
  · cases h

theorem wellFormed_global (off : Nat) (h : off < 2 ^ 44) : WellFormedRef (globalRef off) := by
  unfold WellFormedRef refBits globalRef
  simp only [BitVec.toNat_ofNat]
  omega

theorem modeOk_of {t : Thread} (h : (decide (copyKind t ≤ 4) && (copyKind t != 2 || copyType t == 9 || copyType t == 11)
    && (copyKind t == 2 || copyType t == 0)) = true) : ModeOk t := by
  simp only [Bool.and_eq_true, Bool.or_eq_true, bne_iff_ne, beq_iff_eq, decide_eq_true_eq] at h
  refine ⟨h.1.1, fun k => ?_, fun k => h.2.resolve_left k⟩
  rcases h.1.2 with (n | n) | n
  · exact absurd k n
  · exact .inl n
  · exact .inr n

/-- A copy within the scratchpad. -/
def copyNear : State := userCopy (nearRef 2 0) (nearRef 2 4096) 0 64

theorem copyRefs_of {s : State} (h1 : WellFormedRef s.th.cpsrc) (h2 : WellFormedRef s.th.cpdst)
    (h : (launchOk s s.th.cpsrc .load && launchOk s s.th.cpdst .store) = true) : CopyRefsOk s := by
  simp only [Bool.and_eq_true] at h
  exact ⟨fun _ => launchable_of h1 h.1, launchable_of h2 h.2⟩

theorem witness_CopyInstructions_launch : ReadableX copyNear.th 6 ∧ ModeOk copyNear.th ∧ CopyRefsOk copyNear ∧ spaceOf copyNear.th.cpdst ≠ 5
    ∧ SpacesOk copyNear.th ∧ LengthOk copyNear.th ∧ ((transfersOf copyNear copyNear.th).filter fun x => !x.ended).length < 8
    ∧ CanHold copyNear 1 :=
  ⟨readableX rfl rfl, modeOk_of (by decide +kernel), copyRefs_of (wellFormed_near 2 0 (by decide)) (wellFormed_near 2 4096 (by decide))
    (by decide +kernel), by decide +kernel, by unfold SpacesOk; decide +kernel, by unfold LengthOk; decide +kernel, by decide +kernel,
    canHold_of 1 (by decide +kernel)⟩

/-- A transfer of the thread. -/
def aTransfer (handle : Word) : Transfer :=
  { handle, owner := user.th.born, gang := 1, rank := 0, core := 0, eng := 0, kind := 0, ty := 0, scope := 3, notify := false, tag := 0,
    src := nearRef 2 0, dst := nearRef 2 4096, len := 64, rows := 0, rowb := 0, sstr := 0, dstr := 0, done := 0, state := 0, cause := 0,
    miss := none, flags := 0, snap := none, stopAt := none, paused := false, heat := 0, latched := false, completed := false, paid := 0,
    workedAt := 0, arriving := none, wrote := [] }

/-- The same with transfers in its section. -/
def copyBusy (l : List Transfer) : State := copyNear.setSect 0 { Section.zero with transfers := l }

theorem witness_CopyInstructions_waits : ModeOk (copyBusy (List.replicate 8 (aTransfer 1))).th
    ∧ CopyRefsOk (copyBusy (List.replicate 8 (aTransfer 1))) ∧ SpacesOk (copyBusy (List.replicate 8 (aTransfer 1))).th
    ∧ LengthOk (copyBusy (List.replicate 8 (aTransfer 1))).th ∧ 8 ≤ ((transfersOf (copyBusy (List.replicate 8 (aTransfer 1)))
        (copyBusy (List.replicate 8 (aTransfer 1))).th).filter fun x => !x.ended).length :=
  ⟨modeOk_of (by decide +kernel), copyRefs_of (wellFormed_near 2 0 (by decide)) (wellFormed_near 2 4096 (by decide)) (by decide +kernel),
    by unfold SpacesOk; decide +kernel, by unfold LengthOk; decide +kernel, by decide +kernel⟩

/-- An accumulation of f32 into the scratchpad, and into the object by three bytes. -/
def copyAcc (dst : Ref) : State := userCopy (nearRef 2 0) dst 0x92 3

theorem wellFormed_constants : WellFormedRef (nearRef 5 0) := by
  unfold WellFormedRef refBits nearRef
  simp only [BitVec.toNat_ofNat]
  omega

theorem witness_CopyInstructions_faults : CanHold copyNear 1
    ∧ ¬ModeOk (userCopy (nearRef 2 0) (nearRef 2 4096) 7 64).th
    ∧ ModeOk (userCopy (nearRef 2 0) (nearRef 5 0) 0 64).th ∧ CopyRefsOk (userCopy (nearRef 2 0) (nearRef 5 0) 0 64)
    ∧ spaceOf (userCopy (nearRef 2 0) (nearRef 5 0) 0 64).th.cpdst = 5
    ∧ ModeOk (copyAcc (nearRef 2 4096)).th ∧ CopyRefsOk (copyAcc (nearRef 2 4096)) ∧ ¬SpacesOk (copyAcc (nearRef 2 4096)).th
    ∧ ModeOk (copyAcc (globalRef 0)).th ∧ CopyRefsOk (copyAcc (globalRef 0)) ∧ spaceOf (copyAcc (globalRef 0)).th.cpdst ≠ 5
    ∧ SpacesOk (copyAcc (globalRef 0)).th ∧ ¬LengthOk (copyAcc (globalRef 0)).th :=
  ⟨canHold_of 1 (by decide +kernel), fun h => absurd h.1 (by decide +kernel), modeOk_of (by decide +kernel),
    copyRefs_of (wellFormed_near 2 0 (by decide)) wellFormed_constants (by decide +kernel), by decide +kernel, modeOk_of (by decide +kernel),
    copyRefs_of (wellFormed_near 2 0 (by decide)) (wellFormed_near 2 4096 (by decide)) (by decide +kernel),
    by unfold SpacesOk; decide +kernel, modeOk_of (by decide +kernel),
    copyRefs_of (wellFormed_near 2 0 (by decide)) (wellFormed_global 0 (by decide)) (by decide +kernel), by decide +kernel,
    by unfold SpacesOk; decide +kernel, by unfold LengthOk; decide +kernel⟩

theorem witness_CopyInstructions_status : ReadableX (copyBusy [aTransfer 5]).th 6
    ∧ findTransfer (copyBusy [aTransfer 5]) (word (xVal (copyBusy [aTransfer 5]).th 6)) = none
    ∧ findTransfer (copyBusy [aTransfer 0]) (word (xVal (copyBusy [aTransfer 0]).th 6)) = some (aTransfer 0)
    ∧ CanHold (copyBusy [aTransfer 0]) 1 :=
  ⟨readableX rfl rfl, by decide +kernel, by decide +kernel, canHold_of 1 (by decide +kernel)⟩

/-- The thread in a gang whose entry 0 asks for features, in a context that may spawn. -/
def userSpawn (cores : List Nat) (feat : Nat) (ok : Bool) (x : Word) : State :=
  let s := userGang { gangOf cores with entries := [word (feat * 2 ^ 48)] } x 0
  s.setContext 1 { Context.zero with ortb := BitVec.ofNat 64 (0x10000 + 8), gens := [(1, 1)], spawnOk := ok }

theorem witness_TaskInstructions_spawn : ReadableX (userSpawn [0] 1 true 0).th 6 ∧ PayloadReadable (userSpawn [0] 1 true 0).th
    ∧ (userSpawn [0] 1 true 0).gangs.get? (userSpawn [0] 1 true 0).th.gang = some { gangOf [0] with entries := [word (1 * 2 ^ 48)] }
    ∧ CanHold (userSpawn [0] 1 true 0) 1
    ∧ (contextOf (userSpawn [0] 1 true 0) (userSpawn [0] 1 true 0).th.gang).spawnOk = true
    ∧ ControlOk { gangOf [0] with entries := [word (1 * 2 ^ 48)] } (xVal (userSpawn [0] 1 true 0).th 6)
    ∧ 1 = ((({ gangOf [0] with entries := [word (1 * 2 ^ 48)] } : Gang).entries.getD (xVal (userSpawn [0] 1 true 0).th 6 % 2 ^ 16) 0).toNat
        / 2 ^ 48 % 2 ^ 8)
    ∧ QueueDie (userSpawn [0] 1 true 0) { gangOf [0] with entries := [word (1 * 2 ^ 48)] } 1 0 :=
  ⟨readableX rfl rfl, fun _ _ => readable rfl rfl, by decide +kernel, canHold_of 1 (by decide +kernel), by decide +kernel,
    by unfold ControlOk; decide +kernel, by decide +kernel, by unfold QueueDie; decide +kernel⟩

theorem witness_TaskInstructions_spawn_faults :
    (contextOf (userSpawn [0] 1 false 0) (userSpawn [0] 1 false 0).th.gang).spawnOk = false ∧ CanHold (userSpawn [0] 1 false 0) 1
    ∧ (contextOf (userSpawn [0] 1 true 1) (userSpawn [0] 1 true 1).th.gang).spawnOk = true
    ∧ ¬ControlOk { gangOf [0] with entries := [word (1 * 2 ^ 48)] } (xVal (userSpawn [0] 1 true 1).th 6) :=
  ⟨by decide +kernel, canHold_of 1 (by decide +kernel), by decide +kernel, by unfold ControlOk; decide +kernel⟩

/-- The same thread on die 1, which has no feature. -/
def userFar : State := { userSpawn [512] 1 true 0 with tid := 1024 }

theorem witness_TaskInstructions_feature : ReadableX userFar.th 6 ∧ PayloadReadable userFar.th ∧ CanHold userFar 1
    ∧ userFar.gangs.get? userFar.th.gang = some { gangOf [512] with entries := [word (1 * 2 ^ 48)] }
    ∧ (contextOf userFar userFar.th.gang).spawnOk = true
    ∧ ControlOk { gangOf [512] with entries := [word (1 * 2 ^ 48)] } (xVal userFar.th 6)
    ∧ ∀ die, ¬QueueDie userFar { gangOf [512] with entries := [word (1 * 2 ^ 48)] } 1 die := by
  refine ⟨readableX rfl rfl, fun _ _ => readable rfl rfl, canHold_of 1 (by decide +kernel), by decide +kernel, by decide +kernel,
    by unfold ControlOk; decide +kernel, fun die h => ?_⟩
  unfold QueueDie at h
  rw [show userFar.tid = 1024 from rfl] at h
  simp [gangOf] at h
  omega

theorem witness_TaskInstructions_get : (∀ i, i < 8 → ∀ e ∈ user.th.pend, e.1 ≠ .x (payloadReg i)) ∧ CanHold user 1
    ∧ ∃ i, i < 8 ∧ ∃ e ∈ (user.setTh { user.th with pend := [(.x 12, 3)] }).th.pend, e.1 = .x (payloadReg i) := by
  refine ⟨fun i _ e he => absurd he ?_, canHold_user 1 (by decide), 2, by decide, (.x 12, 3), List.mem_singleton.mpr rfl, by decide⟩
  rw [show user.th.pend = [] by decide +kernel]
  exact List.not_mem_nil

theorem witness_TaskInstructions_gates : ReadableX (userX 4095 2).th 6 ∧ ReadableX (userX 4095 2).th 7 ∧ CanHold (userX 4095 2) 1
    ∧ (userX 4095 2).gangs.get? (userX 4095 2).th.gang = some { Gang.zero with ctx := 1, cores := [0], code := 1 }
    ∧ xVal (userX 4095 2).th 6 ≠ 0 ∧ xVal (userX 4095 2).th 6 ≤ 4095 ∧ xVal (userX 0 2).th 6 = 0 ∧ 4095 < xVal (userX 4096 2).th 6 :=
  ⟨readableX rfl rfl, readableX rfl rfl, canHold_of 1 (by decide +kernel), by decide +kernel, by decide +kernel, by decide +kernel,
    by decide +kernel, by decide +kernel⟩

/-- The thread with a task. -/
def userTask (d : Nat) : State := user.setTh { user.th with task := some ⟨0, d⟩ }

theorem witness_TaskInstructions_done : user.th.task = none ∧ (userTask 0).th.task = some ⟨0, 0⟩ ∧ (userTask 7).th.task = some ⟨0, 7⟩
    ∧ (userTask 7).gangs.get? (userTask 7).th.gang = some { Gang.zero with ctx := 1, cores := [0], code := 1 } ∧ CanHold (userTask 7) 1 :=
  ⟨by decide +kernel, rfl, rfl, by decide +kernel, canHold_of 1 (by decide +kernel)⟩
/-! System instructions, CSRs and the privileged units -/

/-- The service core of section 0, at privileged level, with `x6`; thread 0 is a parked thread of its section. -/
def svc (k : Thread) (x : Word) : State :=
  { user with
    tid := 4096, parked := [(0, k)]
    th := { Thread.zero with
      run := .running, privileged := true, x := Thread.zero.x.set 6 x
      a := Thread.zero.a.set 2 (BitVec.ofNat 128 (2 ^ 96 + 2 ^ 44)) } }

theorem witness_SystemInstructions_traps : CanHold user 1 ∧ 4096 ≤ (svc user.th 0).tid ∧ ReadableX (userX 0 9).th 6
    ∧ ReadableX (userX 0 9).th 7 ∧ xVal (userX 0 9).th 6 = 0 ∧ xVal (userX 1 9).th 6 ≠ 0 ∧ CanHold (userX 1 9) 1 :=
  ⟨canHold_user 1 (by decide), by decide, readableX rfl rfl, readableX rfl rfl, by decide +kernel, by decide +kernel,
    canHold_of 1 (by decide +kernel)⟩

theorem witness_SystemInstructions_waiti : ReadableX (userInbox [] true).th 6 ∧ (userInbox [] true).th.wake = true
    ∧ (userInbox [] false).th.wake = false ∧ (userInbox [] false).th.latch = 0 :=
  ⟨readableX rfl rfl, rfl, rfl, by decide +kernel⟩

theorem witness_CsrInstructions : csrForm user.th (csrRead user .fcsr).toNat (.csrset 5 6 .fcsr)
      = some (5, 6, .fcsr, some ((csrRead user .fcsr).toNat ||| xVal user.th 6)) ∧ Csr.fcsr ≠ .ortb ∧ Csr.fcsr ≠ .keysel
    ∧ ReadableX user.th 6 ∧ user.th.privileged = false ∧ CanHold user 1
    ∧ csrForm user.th (csrRead user .ortb).toNat (.csrrd 5 .ortb) = some (5, 0, .ortb, none) :=
  ⟨by decide +kernel, by decide, by decide, readableX rfl rfl, by decide +kernel, canHold_user 1 (by decide), rfl⟩

theorem witness_CsrInstructions_privileged : csrForm (svc user.th 5).th (csrRead (svc user.th 5) .keysel).toNat (.csrwr 7 6 .keysel)
      = some (7, 6, .keysel, some (xVal (svc user.th 5).th 6)) ∧ (svc user.th 5).th.privileged = true ∧ ReadableX (svc user.th 5).th 6 :=
  ⟨rfl, rfl, readableX rfl rfl⟩

/-- A thread that waits in service for its system call. -/
def served : Thread := { user.th with run := .service, fcause := 0x11 }

-- thread 64 belongs to section 1
theorem witness_PrivilegedUnits_eret : (svc user.th 64).th.privileged = true ∧ 4096 ≤ (svc user.th 64).tid ∧ ReadableX (svc user.th 64).th 6
    ∧ ¬OwnThread (svc user.th 64) (xVal (svc user.th 64).th 6) ∧ OwnThread (svc user.th 0) (xVal (svc user.th 0).th 6)
    ∧ ((svc user.th 0).thread 0).run ≠ .service ∧ OwnThread (svc served 0) 0 ∧ ((svc served 0).thread 0).run = .service :=
  ⟨rfl, by decide, readableX rfl rfl, by unfold OwnThread; decide +kernel, by unfold OwnThread; decide +kernel, by decide +kernel,
    by unfold OwnThread; decide, by decide +kernel⟩

-- word 0x800 names core 2,048, which does not exist; core 0 is in use, core 1 is not
theorem witness_PrivilegedUnits_scrub : scrubOp (.scrubCore 5 6) = some (5, 6) ∧ (svc user.th 1).th.privileged = true
    ∧ ReadableX (svc user.th 1).th 6 ∧ scrubUnits (0x800 / 2 ^ 12 % 16) ≤ 0x800 % 2 ^ 12
    ∧ 0 % 2 ^ 12 < scrubUnits (0 / 2 ^ 12) ∧ ScrubBusy (svc user.th 0) (0 / 2 ^ 12) (0 % 2 ^ 12)
    ∧ 1 % 2 ^ 12 < scrubUnits (1 / 2 ^ 12) ∧ ¬ScrubBusy (svc user.th 1) (1 / 2 ^ 12) (1 % 2 ^ 12) := by
  refine ⟨rfl, rfl, readableX rfl rfl, by decide, by decide, .inl ⟨0, by decide, 0, by decide, by decide +kernel, by decide +kernel⟩,
    by decide, ?_⟩
  unfold ScrubBusy; decide +kernel

theorem witness_PrivilegedUnits_share : 3 * 2 ^ 12 % 2 ^ 12 < scrubUnits 3
    ∧ ScrubBusy ((svc Thread.zero 0).setGang 1 { gangOf [0, 4] with level := 1 }) 3 0 ∧ ¬ScrubBusy (svc Thread.zero 0) 3 0 := by
  refine ⟨by decide, .inr ⟨rfl, (1, { gangOf [0, 4] with level := 1 }), by decide +kernel, by decide, by decide, 0, by decide, by decide⟩, ?_⟩
  unfold ScrubBusy; decide +kernel

theorem witness_PrivilegedUnits_context : (svc user.th 0).th.privileged = true ∧ ReadableX (svc user.th 0).th 6
    ∧ Readable (svc user.th 0).th (.a 2) ∧ ¬OwnThread (svc user.th 64) (xVal (svc user.th 64).th 6)
    ∧ OwnThread (svc user.th 0) (xVal (svc user.th 0).th 6) ∧ ((svc user.th 0).thread 0).run = .running :=
  ⟨rfl, readableX rfl rfl, readable rfl rfl, by unfold OwnThread; decide +kernel, by unfold OwnThread; decide +kernel, by decide +kernel⟩

/-- An object of 128 KiB in one block at 0x60000. -/
def flatRecord : ObjRec :=
  { codeRecord with tile := [131072, 0, 0, 0], ext := [131072, 0, 0, 0], type := 0, wr := true, ex := false }

/-- The service core with a reference to it, and context 0 free; the tile bytes of an image there say that every tile is empty. -/
def svcImage : State :=
  { svc Thread.zero 0 with
    contexts := [(0, { Context.zero with ortb := BitVec.ofNat 64 (0x10000 + 8), gens := [(1, 1)] })]
    mem := (((Memory.writeList [] (0x10000 + 128) (leBytes 128 flatRecord.toNat)).writeList 0x20000
        (leBytes 8 { valid := true, dmg := false, tier := 0, size := 5, base := 0x60, reserved := false : ResEntry }.toNat)).writeList
      (0x60000 + 8192) (List.replicate 8 0x40)).writeList (0x60000 + 45120) (List.replicate 8 0x40) }

def imageEntry : ResEntry := { valid := true, dmg := false, tier := 0, size := 5, base := 0x60, reserved := false }

/-- The location of a byte of the image. -/
def imageLoc (j : Nat) : Loc := { key := 0x60000 + j, crypt := none, dmg := false, space := 0, obj := 1, off := j }

def isObject (o : Opened) (k : ObjRec) : Bool :=
  match o with
  | .object k' n => decide (k' = k) && n == 0
  | _ => false

theorem isObject_eq {o : Opened} {k : ObjRec} (h : isObject o k = true) : o = .object k 0 := by
  unfold isObject at h
  split at h
  · simp only [Bool.and_eq_true, decide_eq_true_eq, beq_iff_eq] at h
    rw [h.1, h.2]
  · cases h

theorem open_svcImage (acc : Acc) (h : acc = .load ∨ acc = .store) :
    openRef svcImage (whoTh svcImage) svcImage.th.a[(2 : Ra)] acc = .object flatRecord 0 := by
  rcases h with rfl | rfl <;> exact isObject_eq (by decide +kernel)

theorem entry_svcImage : ResEntry.ofNat (svcImage.mem.readNat (flatRecord.map * 8) 8) = imageEntry := by decide +kernel

theorem units_svcImage (acc : Acc) (h : acc = .load ∨ acc = .store) :
    imageUnits svcImage svcImage.th.a[(2 : Ra)] acc = .ok ((List.range 10752).map fun i => (List.range 8).map fun j => imageLoc (8 * i + j)) := by
  have hr : refOff svcImage.th.a[(2 : Ra)] = 0 := by decide +kernel
  have hn : refObj svcImage.th.a[(2 : Ra)] = 1 := by decide +kernel
  have hc : checkRef svcImage.th.a[(2 : Ra)] false = .ok () := by rfl
  have hu : Unmarked svcImage := ⟨by decide +kernel, by decide +kernel, by decide +kernel⟩
  have hw : ((whoTh svcImage).tid.any fun t => (svcImage.thread t).late) = false := by decide +kernel
  have hl : imageEntry.lost svcImage = false := by decide +kernel
  have hi : imageEntry.inconsistent flatRecord svcImage.pkg = false := by decide +kernel
  have hk : imageEntry.storageKey = 0x60000 := by decide
  unfold imageUnits
  rw [hc, hr, open_svcImage acc h]
  simp only [Nat.zero_mod, beq_self_eq_true, require_true, bind, Except.bind, Nat.zero_add]
  refine mapM_map fun i hi' => ?_
  have hi' : i < 10752 := List.mem_range.mp hi'
  rw [accessUnit_flat (e := imageEntry) hu rfl rfl rfl (by decide) (by show 8 * i + 8 ≤ 131072; omega) (by decide) (by decide +kernel) entry_svcImage rfl hi hl rfl
    (by decide +kernel) hw (by omega) (by omega), hk, hn]
  rfl

theorem offChip (j : Nat) (h : j < 86016) : keyCore? (0x60000 + j) = none ∧ keyQuad? (0x60000 + j) = none := by
  have h1 : ¬localBase 0 ≤ 0x60000 + j := by unfold localBase; omega
  have h2 : ¬quadBase 0 ≤ 0x60000 + j := by unfold quadBase; omega
  unfold keyCore? keyQuad?
  rw [if_neg (fun h => h1 h.1), if_neg (fun h => h2 h.1)]
  exact ⟨rfl, rfl⟩

theorem flat_svcImage : ((List.range 10752).map fun i => (List.range 8).map fun j => imageLoc (8 * i + j)).flatten
    = (List.range 86016).map imageLoc := by
  rw [← List.flatMap_def]
  exact flatMap_range 10752 8 imageLoc

/-- A byte of the image, as it stands in memory. -/
def imageByte (j : Nat) : Byte := svcImage.mem.read (0x60000 + j)

theorem bytes_svcImage : viewBytes svcImage (whoTh svcImage)
      (((List.range 10752).map fun i => (List.range 8).map fun j => imageLoc (8 * i + j)).flatten)
    = (List.range 86016).map imageByte := by
  have hw : (whoTh svcImage).inside = false := by decide +kernel
  have hf : svcImage.forwards = [] := by decide +kernel
  have hs : svcImage.sections = [] := by decide +kernel
  rw [flat_svcImage]
  unfold viewBytes
  rw [List.map_map]
  refine List.map_congr_left fun j hj => ?_
  have hj : j < 86016 := List.mem_range.mp hj
  refine viewByte_service hw ?_ hf hs rfl
  show homeQuad? (0x60000 + j) = none
  unfold homeQuad?
  rw [(offChip j hj).1, (offChip j hj).2]

theorem drop_take_range {α : Type} (f : Nat → α) {N a n : Nat} (h : a + n ≤ N) :
    (((List.range N).map f).drop a).take n = (List.range n).map fun j => f (a + j) := by
  obtain ⟨k, rfl⟩ := Nat.exists_eq_add_of_le h
  rw [List.range_add, List.map_append, List.range_add, List.map_append, List.append_assoc,
    List.drop_append_of_le_length (by simp), List.drop_of_length_le (by simp), List.nil_append,
    List.take_append_of_le_length (by simp), List.take_of_length_le (by simp), List.map_map]
  rfl

/-- Where the image has no listed byte it reads as zero. -/
theorem imageNat_zero {a n : Nat} (h : a + n ≤ 86016) (hm : ∀ c ∈ svcImage.mem, c.1 < 0x60000 + a ∨ 0x60000 + a + n ≤ c.1) :
    imageNat ((List.range 86016).map imageByte) a n = 0 := by
  unfold imageNat
  rw [drop_take_range imageByte h]
  refine leNat_zeros fun b hb => ?_
  obtain ⟨j, hj, rfl⟩ := List.mem_map.mp hb
  have hj : j < n := List.mem_range.mp hj
  refine Memory.read_unlisted fun c hc => ?_
  have := hm c hc
  omega

theorem imageNat_one {a : Nat} (h : a + 1 ≤ 86016) : imageNat ((List.range 86016).map imageByte) a 1 = (imageByte a).toNat := by
  unfold imageNat
  rw [drop_take_range imageByte h]
  simp [leNat]

theorem low_svcImage : ∀ c ∈ svcImage.mem, c.1 < 0x60000 ∨ (0x60000 + 8192 ≤ c.1 ∧ c.1 < 0x60000 + 8200)
    ∨ (0x60000 + 45120 ≤ c.1 ∧ c.1 < 0x60000 + 45128) := by decide +kernel

theorem heads_svcImage : (List.range 8).all (fun i => imageByte (8192 + i) == 0x40 && imageByte (45120 + i) == 0x40) = true := by
  decide +kernel

/-- Everything but the tile headers is zero. -/
theorem zero_svcImage {a n : Nat} (h : a + n ≤ 8192 ∨ (8200 ≤ a ∧ a + n ≤ 45120) ∨ (45128 ≤ a ∧ a + n ≤ 86016)) :
    imageNat ((List.range 86016).map imageByte) a n = 0 :=
  imageNat_zero (by omega) fun c hc => by have := low_svcImage c hc; omega

theorem head_svcImage {a i : Nat} (ha : a = 8192 ∨ a = 45120) (hi : i < 8) :
    imageNat ((List.range 86016).map imageByte) (a + i) 1 = 0x40 := by
  have h := List.all_eq_true.mp heads_svcImage i (List.mem_range.mpr hi)
  simp only [Bool.and_eq_true, beq_iff_eq] at h
  rw [imageNat_one (by omega)]
  rcases ha with rfl | rfl
  · rw [h.1]; rfl
  · rw [h.2]; rfl

theorem good_svcImage : badImage ((List.range 86016).map imageByte) = false := by
  have h1 : ∀ a, a = 8192 ∨ a = 45120 → ((List.range 8).any fun i => badHeader (imageNat ((List.range 86016).map imageByte) (a + i) 1)) = false := by
    intro a ha
    rw [List.any_eq_false]
    intro i hi
    rw [head_svcImage ha (List.mem_range.mp hi)]
    decide
  have h2 : ((List.range 16).any fun i => badSlot ((List.range 86016).map imageByte) (1024 + 144 * i)) = false := by
    rw [List.any_eq_false]
    intro i hi
    have hi := List.mem_range.mp hi
    unfold badSlot
    rw [zero_svcImage (n := 8) (by omega), if_neg (by decide), zero_svcImage (by omega)]
    decide
  unfold badImage
  simp only [h1 8192 (.inl rfl), h1 45120 (.inr rfl)]
  rw [zero_svcImage (a := 0) (by omega), zero_svcImage (a := 640) (by omega), zero_svcImage (a := 648) (by omega),
    zero_svcImage (a := 656) (by omega), zero_svcImage (a := 672) (by omega), zero_svcImage (a := 688) (by omega),
    zero_svcImage (a := 696) (by omega), zero_svcImage (a := 704) (by omega), zero_svcImage (a := 728) (by omega),
    zero_svcImage (a := 768) (by omega), zero_svcImage (a := 776) (by omega), zero_svcImage (a := 976) (by omega),
    zero_svcImage (a := 984) (by omega), zero_svcImage (a := 992) (by omega), zero_svcImage (a := 3328) (by omega),
    zero_svcImage (a := 8192 + 8) (by omega), zero_svcImage (a := 45120 + 8) (by omega), zero_svcImage (a := 82048) (by omega)]
  rw [h2]
  simp [field]

theorem tiles_svcImage : tilesFrom ((List.range 86016).map imageByte) = List.replicate 16 none := by
  have h : ∀ a, a = 8192 ∨ a = 45120 → ∀ b : Nat → TileImage, ((List.range 8).map fun i =>
      if field (imageNat ((List.range 86016).map imageByte) (a + i) 1) 7 1 = 1 then some (b i) else none)
        = List.replicate 8 (none : Option TileImage) := by
    intro a ha b
    have : ∀ i ∈ List.range 8, (if field (imageNat ((List.range 86016).map imageByte) (a + i) 1) 7 1 = 1 then some (b i) else none)
        = (none : Option TileImage) := by
      intro i hi
      rw [head_svcImage ha (List.mem_range.mp hi)]
      rfl
    rw [List.map_congr_left this]
    rfl
  unfold tilesFrom
  simp only [List.flatMap_cons, List.flatMap_nil, List.append_nil]
  rw [h 8192 (.inl rfl), h 45120 (.inr rfl)]
  rfl

theorem place_none (s : State) : s.placeTiles 0 (List.replicate 16 none) = some (s.notePools 0) := by rfl

/-- The image lies beyond the context's record table and object 1's residency map. -/
theorem untranslated_svcImage (j : Nat) : translates svcImage (0x60000 + j) = false := by
  have hc : svcImage.contexts = [(0, svcImage.context 0)] := by decide +kernel
  have hr : objRecord svcImage (svcImage.context 0) 1 = .ok (some flatRecord) := by decide +kernel
  have hg : (svcImage.context 0).gens.map (·.1) = [1] := by decide +kernel
  have hb : recordAddr (svcImage.context 0).ortb 0 + 128 * 2 ^ bits (svcImage.context 0).ortb 0 6 = 0x18000 := by decide +kernel
  have hm : flatRecord.map * 8 + 8 * flatRecord.blocks = 0x20008 := by decide +kernel
  unfold translates
  rw [hc]
  simp only [List.any_cons, List.any_nil, Bool.or_false, hg, hr, hb, hm, Bool.or_eq_false_iff, Bool.and_eq_false_iff, decide_eq_false_iff_not]
  omega

theorem waits_svcImage (w : Bool) (ls : List Loc) : requestOver svcImage svcImage.tid w ls = false := by
  unfold requestOver waitingAtBanks
  have hq : svcImage.quads.all (fun e => e.2.outside.isEmpty) = true := by decide +kernel
  rw [if_pos (by decide +kernel), List.any_eq_false]
  intro e he
  have := List.all_eq_true.mp hq e he
  rw [List.isEmpty_iff] at this
  rw [this]
  exact Bool.false_ne_true

theorem witness_PrivilegedUnits_save : ∃ units, svcImage.th.privileged = true ∧ 4096 ≤ svcImage.tid ∧ OwnThread svcImage 0
    ∧ contextFinal svcImage 0 = true
    ∧ imageUnits svcImage svcImage.th.a[(2 : Ra)] .store = .ok units ∧ requestOver svcImage svcImage.tid true units.flatten = false
    ∧ ∀ l ∈ units.flatten, youngWrite svcImage l.key = false ∧ outsideWaits svcImage l.key = false ∧ translates svcImage l.key = false := by
  refine ⟨_, rfl, by decide, by unfold OwnThread; decide, by decide +kernel, units_svcImage .store (.inr rfl), waits_svcImage _ _, ?_⟩
  rw [flat_svcImage]
  intro l hl
  obtain ⟨j, hj, rfl⟩ := List.mem_map.mp hl
  have h := offChip j (List.mem_range.mp hj)
  refine ⟨?_, ?_, untranslated_svcImage j⟩
  · show youngWrite svcImage (0x60000 + j) = false
    unfold youngWrite State.journalOf
    rw [h.1, h.2]
    rfl
  · show outsideWaits svcImage (0x60000 + j) = false
    unfold outsideWaits homeQuad?
    rw [h.1, h.2]

-- a thread that was stopped in this cycle
theorem witness_PrivilegedUnits_early : OwnThread (svc { user.th with run := .stopped } 0) 0
    ∧ ((svc { user.th with run := .stopped } 0).thread 0).run ≠ .running ∧ contextFinal (svc { user.th with run := .stopped } 0) 0 = false :=
  ⟨by unfold OwnThread; decide, by decide +kernel, by decide +kernel⟩

theorem loads_svcImage (units : List (List Loc)) : loadUnits svcImage units = .ok (units.map (viewBytes svcImage (whoTh svcImage)), svcImage) := by
  have hf : ∀ l : List (List Loc), l.foldl (fun s u => s.detect s.tid false false .whole s.cycle u) svcImage = svcImage := by
    intro l
    induction l with
    | nil => rfl
    | cons u l ih =>
      rw [List.foldl_cons, detect_plain (by rw [show svcImage.gangs.get? (svcImage.thread svcImage.tid).gang = none by decide +kernel]; exact fun _ h => nomatch h)]
      exact ih
  have hc : (units.flatten.any fun l => changing svcImage l.key) = false := by
    rw [List.any_eq_false]
    intro l _
    unfold changing
    rw [show svcImage.recordWrites = [] by decide +kernel]
    exact Bool.false_ne_true
  have hl : awaitLoad svcImage units.flatten = .ok () := by
    unfold awaitLoad awaitAcquire
    rw [waits_svcImage, hc, show (!outstanding svcImage svcImage.tid svcImage.th.loadAfter && !(true && (heldStores svcImage svcImage.tid
      svcImage.th.loadAfterStores || decide (svcImage.cycle < svcImage.th.loadFrom)))) = true by decide +kernel, Bool.and_false]
    rfl
  have hp : payPacer svcImage (linesOf units.flatten).length = .ok svcImage := by
    unfold payPacer
    exact if_pos (.inr (by decide +kernel))
  unfold loadUnits
  simp only [hl, hp, bind, Except.bind, pure, Except.pure]
  exact congrArg (fun u => Except.ok (units.map (viewBytes svcImage (whoTh svcImage)), u)) (hf units)

theorem witness_PrivilegedUnits_load : ∃ units bytes vals u, OwnThread svcImage 0 ∧ (svcImage.thread 0).run = .never
    ∧ imageUnits svcImage svcImage.th.a[(2 : Ra)] .load = .ok units ∧ loadUnits svcImage units = .ok (vals, svcImage)
    ∧ bytes = viewBytes svcImage (whoTh svcImage) units.flatten ∧ badImage bytes = false
    ∧ (svcImage.setThread 0 (threadFrom bytes (svcImage.thread 0) (bornOf svcImage))).placeTiles 0 (tilesFrom bytes) = some u :=
  ⟨_, (List.range 86016).map imageByte, _, _, by unfold OwnThread; decide, by decide +kernel, units_svcImage .load (.inl rfl),
    loads_svcImage _, bytes_svcImage.symm, good_svcImage, by rw [tiles_svcImage]; exact place_none _⟩

theorem witness_PrivilegedUnits_image : ImageFits user.th := ⟨by decide +kernel, by decide +kernel⟩

theorem witness_PrivilegedUnits_user : user.th.privileged = false ∧ CanHold user 1 := ⟨by decide +kernel, canHold_user 1 (by decide)⟩
/-! Steps of the other agents -/

/-- A state at a cycle. -/
def atCycle (n : Nat) (s : State) : State := { s with cycle := n }

theorem witness_HoldEvents_release : ((userHeld [entryOf 3 0 (.arrive 0 .sect)] 0 0).core 0).hold = entryOf 3 0 (.arrive 0 .sect) :: []
    ∧ (userHeld [entryOf 3 0 (.arrive 0 .sect)] 0 0).cycle < (entryOf 3 0 (.arrive 0 .sect)).cycle + 128
    ∧ (entryOf 3 0 (.arrive 0 .sect)).cycle + 128 ≤ (atCycle 128 (userHeld [entryOf 3 0 (.arrive 0 .sect)] 0 0)).cycle
    ∧ ((atCycle 128 (userHeld [entryOf 3 0 (.arrive 0 .sect)] 0 0)).quad (0 / 4)).phase = .idle ∧ (entryOf 3 0 (.arrive 0 .sect)).after = 0
    ∧ (entryOf 3 0 (.arrive 0 .sect)).acq = 0
    ∧ (contextOf (userHeld [entryOf 3 0 (.arrive 0 .sect)] 0 0) 1).qlimit = 0 ∧ ((userHeld [entryOf 3 0 (.arrive 0 .sect)] 0 0).thread 0).gang = 1
    ∧ (entryOf 3 0 (.arrive 0 .sect)).effect = .arrive 0 .sect :=
  ⟨by decide +kernel, by decide +kernel, by decide, by decide +kernel, rfl, rfl, by decide +kernel, by decide +kernel, rfl⟩

/-- A reply for `x5`. -/
def aReply (p : Bool) : Reply :=
  { seq := 3, tid := 0, writes := [(.x 5, 7)], poisoned := p, addr := 40, obj := none, task := none, bad := false, scope := .sect, written := none }

def userReply (p : Bool) : State :=
  (user.setTh { user.th with pend := [(.x 5, 3)] }).setCore 0 { Core.zero with replies := [aReply p] }

theorem witness_HoldEvents_reply : ((userReply false).core 0).replies = [aReply false] ∧ (aReply false).tid = (userReply false).tid
    ∧ (aReply false).written = none ∧ ((userReply false).quad (0 / 4)).phase = .idle ∧ (aReply false).writes = [(.x 5, 7)]
    ∧ (aReply false).task = none ∧ (aReply false).bad = false ∧ (5 : Rx) ≠ 0 ∧ (userReply false).th.pend = [(.x 5, (aReply false).seq)]
    ∧ (aReply false).poisoned = false ∧ (aReply true).poisoned = true ∧ ((userReply true).core 0).replies = [aReply true] :=
  ⟨by decide +kernel, by decide +kernel, rfl, by decide +kernel, rfl, rfl, rfl, by decide, rfl, rfl, rfl, by decide +kernel⟩

theorem witness_HoldEvents_refill : ((user.setTh { user.th with overflow := [aMessage] }).thread 0).overflow = aMessage :: []
    ∧ ((user.setTh { user.th with overflow := [aMessage] }).thread 0).inbox.length < 16
    ∧ ((user.setTh { user.th with overflow := [aMessage] }).thread 0).run = .running
    ∧ (user.setTh { user.th with overflow := [aMessage] }).moving ((user.setTh { user.th with overflow := [aMessage] }).thread 0).gang (0 / 2) = false :=
  ⟨by decide +kernel, by decide +kernel, by decide +kernel, by decide +kernel⟩

/-- The thread that waits, at cycle 50. -/
def userWaits (w : Wait) (l : List Message) (latch : BitVec 2) : State :=
  atCycle 50 (user.setTh { user.th with wait := w, inbox := l, latch })

theorem going_of {s : State} {k : Nat} (h : (s.thread k).run = .running) (h' : (s.quad (k / 8)).phase = .idle) : Going s k := ⟨h, .inr h'⟩

theorem witness_HoldEvents_mwait : ((userWaits (.mwait 5 (some 50)) [aMessage] 0).thread 0).wait = .mwait 5 (some 50)
    ∧ Going (userWaits (.mwait 5 (some 50)) [aMessage] 0) 0 ∧ MessageHere ((userWaits (.mwait 5 (some 50)) [aMessage] 0).thread 0)
    ∧ Going (userWaits (.mwait 5 (some 50)) [] 0) 0 ∧ ¬MessageHere ((userWaits (.mwait 5 (some 50)) [] 0).thread 0)
    ∧ 50 ≤ (userWaits (.mwait 5 (some 50)) [] 0).cycle :=
  ⟨by decide +kernel, going_of (by decide +kernel) (by decide +kernel), .inl (by decide +kernel),
    going_of (by decide +kernel) (by decide +kernel), by unfold MessageHere; decide +kernel, by decide⟩

theorem witness_HoldEvents_waiti : ((userWaits (.waiti 5 (some 50)) [] 2).thread 0).wait = .waiti 5 (some 50)
    ∧ Going (userWaits (.waiti 5 (some 50)) [] 2) 0 ∧ EventHere ((userWaits (.waiti 5 (some 50)) [] 2).thread 0)
    ∧ Going (userWaits (.waiti 5 (some 50)) [] 0) 0 ∧ ¬EventHere ((userWaits (.waiti 5 (some 50)) [] 0).thread 0) :=
  ⟨by decide +kernel, going_of (by decide +kernel) (by decide +kernel), .inr (by decide +kernel),
    going_of (by decide +kernel) (by decide +kernel), by unfold EventHere; decide +kernel⟩

/-- The only thread of its gang, which has arrived at a quad hurdle and waits for generation 1. -/
def userArrived : State :=
  let s := userGang { gangOf [0] with threads := 1 } 0 0
  s.setTh { s.th with counts := s.th.counts.set 1 1, signalled := s.th.signalled.set 1 1, wait := .hurdle 0 .quad 1 (.phase 5) }

theorem witness_HoldEvents_hurdle : userArrived.gangs.get? 1 = some { gangOf [0] with threads := 1 } ∧ (gangOf [0]).resident = true
    ∧ AllArrived userArrived { gangOf [0] with threads := 1 } 0 .quad 0 ∧ instanceGoes userArrived { gangOf [0] with threads := 1 } .quad 0 = true
    ∧ (gangOf [0]).heatMode = false ∧ 1 = ({ gangOf [0] with threads := 1 } : Gang).completed 0 .quad 0 + 1
    ∧ 0 ∈ ({ gangOf [0] with threads := 1 } : Gang).members 0 .quad 0 ∧ Going userArrived 0
    ∧ (userArrived.thread 0).wait = .hurdle 0 .quad 1 (.phase 5) :=
  ⟨by decide +kernel, rfl, by unfold AllArrived; decide +kernel, by decide +kernel, rfl, by decide +kernel, by decide +kernel,
    going_of (by decide +kernel) (by decide +kernel), by decide +kernel⟩

/-- The thread that waits for clock value 9, at cycle 30 of a phase clock that was 0 at cycle 20. -/
def userPhase : State :=
  let s := userGang (gangOf [0]) 0 0
  atCycle 30 ((s.setTh { s.th with wait := .phase 5 9, stoppedAt := 10 }).setCore 0 { Core.zero with phase := some 20 })

theorem witness_HoldEvents_phase : (userPhase.thread 0).wait = .phase 5 9 ∧ Going userPhase 0
    ∧ userPhase.gangs.get? (userPhase.thread 0).gang = some (gangOf [0]) ∧ (gangOf [0]).slots = some ⟨100, [(0, 0, 50), (1, 51, 99)]⟩
    ∧ (userPhase.thread 0).stoppedAt < userPhase.cycle ∧ (userPhase.core (0 / 2)).phase = some 20
    ∧ (if (100 : Nat) = 0 then 0 else (userPhase.cycle - 1 - 20) % 100) = 9 :=
  ⟨by decide +kernel, going_of (by decide +kernel) (by decide +kernel), by decide +kernel, rfl, by decide +kernel, by decide +kernel, by decide +kernel⟩

/-- Engine 0 with its endpoint joined, or not, and a tile on its way from position 1. -/
def userArriving (ring : Option Join) (pos : Nat) : State :=
  user.setEngine 0 { user.engine 0 with ring, arriving := [(pos, slotTile.img)] }

theorem witness_HoldEvents_ring : ((userArriving (some ⟨0, 3⟩) 1).engine 0).arriving = (1, slotTile.img) :: []
    ∧ ((userArriving (some ⟨0, 3⟩) 1).engine 0).ring = some ⟨0, 3⟩ ∧ ringPrev 3 (0 % 16) = 1
    ∧ ((userArriving (some ⟨0, 3⟩) 1).engine 0).slots.length < 16 ∧ ((userArriving (some ⟨0, 3⟩) 5).engine 0).ring = some ⟨0, 3⟩
    ∧ ringPrev 3 (0 % 16) ≠ 5 ∧ ((userArriving none 1).engine 0).ring = none :=
  ⟨by decide +kernel, by decide +kernel, by decide, by decide +kernel, by decide +kernel, by decide, by decide +kernel⟩

theorem witness_HoldEvents_pacq : ((userWaits (.pacq 0 4 .quad) [] 0).thread 0).wait = .pacq 0 4 .quad
    ∧ Going (userWaits (.pacq 0 4 .quad) [] 0) 0 ∧ QuadVisible (userWaits (.pacq 0 4 .quad) [] 0) 0 4 :=
  ⟨by decide +kernel, going_of (by decide +kernel) (by decide +kernel), quadVisible_of (by decide +kernel) (by decide +kernel) (by decide +kernel)⟩

theorem witness_RecallEvents_split : (((userGang (gangOf [0]) 0 0).setQuad 0 { Quad.zero with nextSplit := 32 }).quad 0).phase = .idle
    ∧ (∃ e ∈ ((userGang (gangOf [0]) 0 0).setQuad 0 { Quad.zero with nextSplit := 32 }).gangs, e.2.resident = true ∧ ∃ c ∈ e.2.cores, c / 4 = 0)
    ∧ (((userGang (gangOf [0]) 0 0).setQuad 0 { Quad.zero with nextSplit := 32 }).quad 0).nextSplit = 32
    ∧ 32 < (atCycle 33 ((userGang (gangOf [0]) 0 0).setQuad 0 { Quad.zero with nextSplit := 32 })).cycle :=
  ⟨by decide +kernel, by decide +kernel, by decide +kernel, by decide⟩

theorem witness_RecallEvents_checker : user.tid < 4096 ∧ Going user user.tid ∧ user.th.wait = .none ∧ CanHold user 1
    ∧ (user.quad (user.tid / 8)).recallcnt.toNat / 2 ^ 32 % 2 ^ 16 ≠ 0xFFFF :=
  ⟨by decide, going_of (by decide +kernel) (by decide +kernel), by decide +kernel, canHold_user 1 (by decide), by decide +kernel⟩

/-- A split of quad 0 at a cycle. -/
def aSplit (n : Nat) : Split :=
  { cycle := n, seq := 2, threads := (List.range 8).map fun i => (8 * 0 + i, Thread.zero), views := [none, none], gens := [] }

/-- Quad 0 in a phase, with a split at cycle 32, at cycle 60. -/
def userPhaseQ (p : RecallPhase) (j : List JournalByte) (o : List OutsideWrite) : State :=
  atCycle 60 (user.setQuad 0 { Quad.zero with phase := p, splits := [aSplit 32], nextSplit := 64, journal := j, outside := o })

theorem witness_RecallEvents_strike : ((userPhaseQ .idle [] []).quad 0).phase = .idle ∧ Target ((userPhaseQ .idle [] []).quad 0) 40 32
    ∧ ∀ p ∈ ((userPhaseQ .idle [] []).quad 0).splits, 39 < p.cycle + 8 :=
  ⟨by decide +kernel, by unfold Target; decide +kernel, by decide +kernel⟩

theorem witness_RecallEvents_restore : ((userPhaseQ (.draining 32 30) [⟨40, 3, quadBase 0, 7⟩] []).quad 0).phase = .draining 32 30
    ∧ 30 + 24 ≤ (userPhaseQ (.draining 32 30) [⟨40, 3, quadBase 0, 7⟩] []).cycle
    ∧ ((userPhaseQ (.draining 32 30) [⟨40, 3, quadBase 0, 7⟩] []).quad 0).splits.find? (fun p => p.cycle == 32) = some (aSplit 32)
    ∧ (aSplit 32).threads = (List.range 8).map (fun i => (8 * 0 + i, (fun _ => Thread.zero) i))
    ∧ ((userPhaseQ (.draining 32 30) [⟨40, 3, quadBase 0, 7⟩] []).thread (8 * 0 + 0)).run = .running
    ∧ MemoryOk (userPhaseQ (.draining 32 30) [⟨40, 3, quadBase 0, 7⟩] [])
    ∧ ((userPhaseQ (.draining 32 30) [⟨40, 3, quadBase 0, 7⟩] []).quad 0).journal = [⟨40, 3, quadBase 0, 7⟩] ∧ 32 < 40
    ∧ ∀ i, i < 4 → ((userPhaseQ (.draining 32 30) [⟨40, 3, quadBase 0, 7⟩] []).core (4 * 0 + i)).journal = [] :=
  ⟨by decide +kernel, by decide +kernel, by decide +kernel, by decide +kernel, by decide +kernel, by unfold MemoryOk; decide +kernel,
    by decide +kernel, by decide, by decide +kernel⟩

theorem witness_RecallEvents_seal : ((userPhaseQ (.sealing 32 53) [] []).quad 0).phase = .sealing 32 53
    ∧ 53 + 8 ≤ (userPhaseQ (.sealing 32 53) [] []).cycle + 1 ∧ ((userPhaseQ (.resuming 32 60) [] []).quad 0).phase = .resuming 32 60
    ∧ 60 ≤ (userPhaseQ (.resuming 32 60) [] []).cycle :=
  ⟨by decide +kernel, by decide +kernel, by decide +kernel, by decide +kernel⟩

/-- A write from outside that waits for byte 5 of the scratchpad. -/
def aWrite : OutsideWrite := { core := 4, seq := 1, tid := 8, gang := 1, rank := none, kind := 0, effect := .store [[oneByte]], retired := 0, copy := none }

theorem witness_RecallEvents_outside : ((userPhaseQ .idle [] [aWrite]).quad 0).outside = [aWrite]
    ∧ (∀ l ∈ aWrite.effect.locs, youngWrite (userPhaseQ .idle [] [aWrite]) l.key = false)
    ∧ ∃ l ∈ aWrite.effect.locs, youngWrite (userPhaseQ .idle [⟨40, 3, quadBase 0 + 5, 7⟩] [aWrite]) l.key = true :=
  ⟨by decide +kernel, by decide +kernel, by decide +kernel⟩

/-- A start message for position 0. -/
def aStart : StartMsg := { gang := 1, pos := 0, entry := 0, payload := 5, sender := .member 1 0, tag := 0, born := 0 }

/-- Context 1 of core 0 is being started, since cycle 0, at cycle 16. -/
def userStarts : State := atCycle 16 ((userGang (gangOf [0]) 0 0).setCore 0 { Core.zero with starting := [(1, 0, aStart)] })

theorem witness_ThreadAndCopyEvents_start : (userStarts.core 0).starting = [(1, 0, aStart)] ∧ 0 + 16 ≤ userStarts.cycle
    ∧ (userStarts.quad (0 / 4)).phase = .idle ∧ userStarts.gangs.get? aStart.gang = some (gangOf [0]) ∧ (gangOf [0]).closing = none
    ∧ 0 = ((gangOf [0]).entries.getD aStart.entry 0).toNat :=
  ⟨by decide +kernel, by decide +kernel, by decide +kernel, by decide +kernel, rfl, by decide +kernel⟩

theorem witness_ThreadAndCopyEvents_queue :
    dequeueDue (userGang { gangOf [0] with starts := [(0, [aStart])] } 0 0) 0 = some (1, 1, aStart, [])
    ∧ (user.thread 0).run ≠ .never ∧ (user.thread 0).run ≠ .ended :=
  ⟨by decide +kernel, by decide +kernel, by decide +kernel⟩

/-- A copy of four bytes that its engine works on, with bytes done, at cycle 9. -/
def userMoves (done : Nat) : State :=
  atCycle 9 (copyBusy [{ aTransfer 5 with len := 4, state := 1, done }])

def movesOk (s : State) (t : Transfer) : Bool :=
  match planUnits s t t.part with
  | (_ :: _, none) => true
  | _ => false

theorem moves_of {s : State} {t : Transfer} (h : movesOk s t = true) : ∃ us, planUnits s t t.part = (us, none) ∧ us ≠ [] := by
  unfold movesOk at h
  split at h
  · exact ⟨_, ‹_›, by simp⟩
  · cases h

theorem witness_ThreadAndCopyEvents_copy : ∃ us,
    activeTransfer (userMoves 4) 0 0 = some { aTransfer 5 with len := 4, state := 1, done := 4 }
    ∧ ({ aTransfer 5 with len := 4, state := 1, done := 4 } : Transfer).total ≤ 4
    ∧ activeTransfer (userMoves 0) 0 0 = some { aTransfer 5 with len := 4, state := 1, done := 0 }
    ∧ 0 < ({ aTransfer 5 with len := 4, state := 1, done := 0 } : Transfer).total ∧ (aTransfer 5).stopAt = none ∧ (aTransfer 5).arriving = none
    ∧ (aTransfer 5).workedAt < (userMoves 0).cycle ∧ (aTransfer 5).kind = 0
    ∧ planUnits (userMoves 0) { aTransfer 5 with len := 4, state := 1, done := 0 } ({ aTransfer 5 with len := 4, state := 1, done := 0 } : Transfer).part
        = (us, none) ∧ us ≠ []
    ∧ (contextOf (userMoves 0) (aTransfer 5).gang).qlimit = 0
    ∧ ∀ y ∈ ((userMoves 0).sect 0).transfers, y.isOf (aTransfer 5).owner (aTransfer 5).handle = true →
        y = { aTransfer 5 with len := 4, state := 1, done := 0 } := by
  obtain ⟨us, h, hn⟩ := moves_of (s := userMoves 0) (t := { aTransfer 5 with len := 4, state := 1, done := 0 }) (by decide +kernel)
  exact ⟨us, by decide +kernel, by decide, by decide +kernel, by decide, rfl, rfl, by decide +kernel, rfl, h, hn, by decide +kernel, by decide +kernel⟩

-- 1.0 into an accumulator of zero: bit 160
theorem witness_ThreadAndCopyEvents_add : (List.replicate 48 (0 : Byte)).length = 48
    ∧ (2 ^ 160 : Int) = sgn 320 (leNat ((List.replicate 48 (0 : Byte)).take 40)) + (if false then -1 else 1) * (1 * 2 ^ ((0 : Int) + 160).toNat)
    ∧ -(2 ^ 319 : Int) ≤ 2 ^ 160 ∧ (2 ^ 160 : Int) < 2 ^ 319 := by
  decide +kernel

theorem witness_ThreadAndCopyEvents_completion :
    completing (copyBusy [{ aTransfer 5 with state := 2, latched := true }]) 0 0 = { aTransfer 5 with state := 2, latched := true } :: []
    ∧ (aTransfer 5).notify = false ∧ ({ aTransfer 5 with state := 2, latched := true } : Transfer).state ≠ 4 :=
  ⟨by decide +kernel, rfl, by decide⟩

/-- A finished transfer whose thread asked for a message. -/
def toldTransfer : Transfer := { aTransfer 5 with state := 2, latched := true, notify := true }

def userTold : State := (userGang (gangOf [0]) 0 0).setSect 0 { Section.zero with transfers := [toldTransfer] }

theorem witness_ThreadAndCopyEvents_message : completing userTold 0 0 = toldTransfer :: [] ∧ toldTransfer.notify = true
    ∧ userTold.gangs.get? toldTransfer.gang = some (gangOf [0]) ∧ (gangOf [0]).resident = true ∧ (gangOf [0]).heatMode = false
    ∧ (gangOf [0]).tidOf toldTransfer.rank = some 0 ∧ (userTold.thread 0).born = toldTransfer.owner ∧ (userTold.thread 0).run = .running
    ∧ (userTold.thread 0).inbox.length < 16 ∧ (userTold.thread 0).overflow = [] ∧ (userTold.thread 0).spill = []
    ∧ userTold.moving toldTransfer.gang (0 / 2) = false :=
  ⟨by decide +kernel, rfl, by decide +kernel, rfl, rfl, by decide +kernel, by decide +kernel, by decide +kernel, by decide +kernel,
    by decide +kernel, by decide +kernel, by decide +kernel⟩

/-- A transfer suspended at a residency miss of a block that is resident again. -/
def missTransfer : Transfer := { aTransfer 5 with state := 3, cause := 0x0A, miss := some { obj := 1, off := 0 } }

theorem witness_ThreadAndCopyEvents_suspended : ∃ u, suspendedCopy (copyBusy [missTransfer]) 0 0 = some missTransfer
    ∧ copyServed (copyBusy [missTransfer]) missTransfer = some u ∧ missTransfer.cause ≠ 0x0B := by
  obtain ⟨u, hu⟩ := Option.isSome_iff_exists.mp (show (copyServed (copyBusy [missTransfer]) missTransfer).isSome = true by decide +kernel)
  exact ⟨u, by decide +kernel, hu, by decide⟩

/-- A residency entry of 4 KiB at a frame. -/
def anEntry (base : Nat) : ResEntry := { valid := true, dmg := false, tier := 0, size := 0, base, reserved := false }

/-- A relocation from frame 0x30 to frame 0x40. -/
def aMove (status moved : Nat) : Relocation :=
  { desc := [word (anEntry 0x30).toNat, word (anEntry 0x40).toNat, 9, 0], status, moved }

def userDie (r : Relocation) : State := user.setDie 0 { BaseDie.zero with queue := [r] }

theorem witness_StorageEvents_line : MemoryOk (userDie (aMove 2 1)) ∧ moving (userDie (aMove 2 1)) 0 = some (aMove 2 1)
    ∧ (aMove 2 1).moved ≠ 0 ∧ (aMove 2 1).moved + 1 < (aMove 2 1).old.bytes / 256
    ∧ 0x30 * 16 + 1 = (aMove 2 1).old.storageKey / 256 + (aMove 2 1).moved ∧ 0x40 * 16 + 1 = (aMove 2 1).new.storageKey / 256 + (aMove 2 1).moved
    ∧ releasable (userDie (aMove 3 16)) 0 = some (aMove 3 16) :=
  ⟨by unfold MemoryOk; decide +kernel, by decide +kernel, by decide, by decide +kernel, by decide +kernel, by decide +kernel, by decide +kernel⟩

/-- The relocation of the code object's only block, from where its map says it is. -/
def firstMove : Relocation := ⟨[word (anEntry 0x30).toNat, word (anEntry 0x40).toNat, 1, 0], 1, 0⟩

theorem accepts_first : Accepts (userDie firstMove) firstMove :=
  ⟨fun _ h => (nomatch h), by decide +kernel, by decide +kernel, by decide +kernel, 1, codeRecord, by decide +kernel, by decide +kernel,
    by decide +kernel⟩

theorem witness_StorageEvents_first : moving (userDie firstMove) 0 = some firstMove ∧ firstMove.status = 1 ∧ firstMove.moved = 0
    ∧ Accepts (userDie firstMove) firstMove :=
  ⟨by decide +kernel, rfl, rfl, accepts_first⟩

-- the last line of the block, which changes its map
theorem witness_StorageEvents_last : ∃ c o, moving (userDie { firstMove with status := 2, moved := 15 }) 0 = some { firstMove with status := 2, moved := 15 }
    ∧ firstMove.old.bytes / 256 ≤ 15 + 1 ∧ firstMove.holder (userDie { firstMove with status := 2, moved := 15 }) = some (c, o)
    ∧ (8 * o.map + 8 * firstMove.blk) / 256 ≠ firstMove.new.storageKey / 256 + 15 := by
  obtain ⟨⟨c, o⟩, h, hp⟩ := some_of (x := firstMove.holder (userDie { firstMove with status := 2, moved := 15 }))
    (p := fun u => decide ((8 * u.2.map + 8 * firstMove.blk) / 256 ≠ firstMove.new.storageKey / 256 + 15)) (by decide +kernel)
  exact ⟨c, o, by decide +kernel, by decide +kernel, h, of_decide_eq_true hp⟩

/-- A relocation to a frame of 64 KiB. -/
def bigMove : Relocation :=
  ⟨[word ({ anEntry 0x30 with size := 4 } : ResEntry).toNat, word ({ anEntry 0x40 with size := 4 } : ResEntry).toNat, 1, 0], 2, 0⟩

theorem witness_StorageEvents_frames : moving (userDie bigMove) 0 = some bigMove ∧ bigMove.status ≠ 1 ∧ bigMove.moved = 0
    ∧ 65536 ≤ bigMove.new.bytes ∧ bigMove.new.storageKey / 2 ^ 46 = (userDie bigMove).pkg := by decide +kernel

/-- A relocation with a reserved word that is not 0. -/
def badMove : Relocation := { firstMove with desc := firstMove.desc ++ [0, 1] }

theorem witness_StorageEvents_fails : moving (userDie badMove) 0 = some badMove ∧ badMove.status = 1 ∧ ¬Accepts (userDie badMove) badMove :=
  ⟨by decide +kernel, rfl, fun h => absurd (h.1 1 (by decide)) (by decide)⟩

theorem witness_StorageEvents_lrho : (0xE : BitVec 4).toNat % 8 ≠ 7 ∧ 2621439 < 2621440 ∧ (0xF : BitVec 4).toNat % 8 = 7 := by decide

/-- A record change that waits for effects below 4. -/
def aChange : RecordWrite := { cells := [(0x20000, 0), (0x20007, 1)], bound := 4 }

theorem witness_StorageEvents_change : MemoryOk { user with recordWrites := [aChange] } ∧ (aChange.cells.map (·.1)).Nodup
    ∧ drainedBelow { user with recordWrites := [aChange] } 4 = true ∧ noneTranslated { user with recordWrites := [aChange] } aChange = true
    ∧ drainedBelow { (userHeld [entryOf 3 0 (.loadSE [imageLoc 0] .whole (.a 2))] 0 0) with recordWrites := [aChange] } 4 = false :=
  ⟨by unfold MemoryOk; decide +kernel, by decide, by decide +kernel, by decide +kernel, by decide +kernel⟩

/-- A region of the device, or of the host. -/
def aRegion (owner busy toHost : Bool) : Region := { owner, busy, toHost, bound := 4, owed := none }

/-- Region 0 with effects held. -/
def userRegion (g : Region) (l : List HoldEntry) : State := { userHeld l 0 0 with regions := [(0, g)] }

theorem witness_StorageEvents_region : (userRegion (aRegion false false false) []).regions.get? 0 = some (aRegion false false false)
    ∧ (aRegion false false false).owner ≠ true ∧ (aRegion false true false).busy = true ∧ (aRegion false true false).toHost = false
    ∧ 0 ∉ (userRegion (aRegion false true false) []).rerouting
    ∧ nodeOf (2 ^ 21 * 0) ∉ (userRegion (aRegion false true false) []).lost ∧ (aRegion false true true).toHost = true
    ∧ regionDrained (userRegion (aRegion false true true) []) 0 4 = true ∧ (userRegion (aRegion false true true) []).hostWaits = []
    ∧ regionDrained (userRegion (aRegion false true true) [entryOf 3 0 (.loadSE [imageLoc 0] .whole (.a 2))]) 0 4 = false :=
  ⟨by decide +kernel, by decide, rfl, rfl, by decide +kernel, by decide +kernel, rfl, by decide +kernel, by decide +kernel,
    by decide +kernel⟩
/-! Requests to a service core -/

/-- The thread's machine with nothing loaded: one context of the host's, and storage given out below 1 MiB. -/
def userBare : State := { user with gangs := [], storage := [(0, 2 ^ 20)] }

/-- The layout of a DXO of three sections: one instruction of code, a gang of the whole package and one entry at 0. -/
def aDxo : List Byte :=
  let sec := fun (kind count off size : Nat) => leBytes 4 kind ++ leBytes 4 count ++ leBytes 8 off ++ leBytes 8 size ++ leBytes 8 0
  leBytes 4 0x014F5844 ++ leBytes 2 0 ++ leBytes 2 0 ++ leBytes 4 3 ++ leBytes 4 64 ++ leBytes 16 0 ++ leBytes 32 0
    ++ sec 1 0 160 4 ++ sec 6 0 168 24 ++ sec 7 1 192 8
    ++ leBytes 8 0x04A63800 ++ leBytes 8 3 ++ leBytes 8 1 ++ leBytes 8 2 ++ leBytes 8 0

/-- What it asks for. -/
def aDxoRead : Dxo :=
  { heat := false, spawn := false, code := leBytes 4 0x04A63800, base := none, objs := [], segs := [], consts := [], level := 3,
    count := 1, threads := 2, domains := [], entries := [0], slots := none }

theorem parse_dxo : parseDxo aDxo = some aDxoRead := by decide +kernel

/-- A request of the host. -/
def request (pay : List Word) : Request := { sender := .host, pay }

theorem chooseCores_bare : ∃ cores, userBare.chooseCores 3 1 false = some (cores, { userBare with fresh := userBare.fresh + 1 }) := by
  have hf : (List.range (levelCount 3)).filter (instanceFree userBare 3) = [0] := by decide +kernel
  have ht : ∀ n : Nat, turned [0] n = [0] := fun n => by simp [turned, Nat.mod_one]
  unfold State.chooseCores
  simp only [hf, ht]
  exact ⟨_, rfl⟩

/-- Bytes are written to the start of an object of one resident block. -/
theorem fillObject_ok {s : State} {gang n : Nat} {o : ObjRec} {e : ResEntry} (bs : List Byte) (h : Unmarked s)
    (hd : o.dims = 0) (hs : o.stride.getD 0 1 = 1) (hs' : o.stride.getD 0 0 = 1) (ha : bs.length ≤ o.inUnits o.ext 0)
    (ht : o.inUnits o.ext 0 ≤ o.inUnits o.tile 0) (hp : populated (o.map * 8) = true)
    (he : ResEntry.ofNat (s.mem.readNat (o.map * 8) 8) = e) (hv : e.valid = true) (hi : e.inconsistent o s.pkg = false)
    (hl : e.lost s = false) (hc : o.enc = false) (hr : s.regions = []) : ∃ t, s.fillObject gang n o bs = some t := by
  unfold State.fillObject
  obtain ⟨ls, hls⟩ := mapM_ok (l := List.range bs.length) (f := fun i => locate s (firmwareWho gang 0)
      (.object { o with rd := true, wr := true } (keySlot (contextOf s gang) o)) (BitVec.ofNat 128 (refTo n o)) i 1 .store 0 0) (by
    intro i hi'
    unfold locate
    exact ⟨_, faultAt_ok.mpr (locateObject_flat (o := { o with rd := true, wr := true }) h hd hs hs' Nat.one_pos
      (Nat.le_trans (List.mem_range.mp hi') ha) ht hp he hv hi hl hc hr)⟩)
  simp only [hls]
  exact ⟨_, rfl⟩
/-- A load into context 1 of a gang with no data, when its cores and its code object are to be had. -/
theorem loadGang_ok {s s1 s2 s3 : State} {q : Request} {d : Dxo} {cores : List Nat} {gid cn : Nat} {co : ObjRec}
    (hd : d.objs = [] ∧ d.base = none ∧ d.segs = [] ∧ d.heat = false) (hj : reqNum q 4 = 1) (hj' : joinStatus s1 q = stOk)
    (hc : s.chooseCores d.level d.count (d.entries.any fun e => bitAt e 48) = some (cores, s1))
    (hi : s1.freeId (s1.gangs.map (·.1)) = some (gid, s2))
    (ho : s2.createObject 1 (byteObject d.code.length (min d.code.length 65536) true false true) 0 = some (cn, co, s3))
    (hf : ∀ t, Kept s3 t → ∃ u, t.fillObject gid cn co d.code = some u) :
    ∃ u, loadGang s q d = .ok (gid, 1, u) := by
  have hb : ∀ c, badSegs s q d c = false := fun c => by
    unfold badSegs
    rw [hd.2.2.1]
    rfl
  unfold loadGang
  simp only [hb, hj', ne_eq, not_true, hc, hi, hj, hd.1, hd.2.1, hd.2.2.1, hd.2.2.2, State.createAll, ho, Nat.one_ne_zero, if_false, Bool.false_eq_true]
  generalize ht : List.foldl _ (State.setGang _ _ _) cores = t
  have hk : Kept s3 t := by
    rw [← ht]
    exact (Kept.foldl (fun s q => Kept.setQuad s q _) _ _).trans ((Kept.giveUnits _ _ _ _).trans ((Kept.setGang _ _ _).trans
      (Kept.foldl (fun s c => Kept.fillOnDie s (by unfold localBase; omega) _) _ _)))
  obtain ⟨u, hu⟩ := hf t hk
  simp only [hu, Option.bind_eq_bind, Option.bind_some, List.foldlM_nil, Option.pure_def]
  exact ⟨_, rfl⟩

/-- An object of one block of 4 KiB, made in a free state. -/
theorem create_ok {s : State} (o : ObjRec) (hb : o.blocks = 1) (ho : o.storage = 4096) (hz : o.sizeCode = 0) (hc : o.scaleBytes = 0)
    (he : o.enc = false) (h : s.mem = userBare.mem ∧ s.contexts = userBare.contexts ∧ s.recordWrites = [] ∧ s.pkg = 0
      ∧ s.pmc.retired = [] ∧ s.storage = [(0, 2 ^ 20)]) :
    ∃ n g key base t, s.createObject 1 o 0 = some (n, { o with valid := true, gen := g, map := key / 8 }, t) ∧ Stored s t
      ∧ key % 4096 = 0 ∧ key < 2 ^ 39 ∧ base < 2 ^ 27 ∧ t.mem.wf = true
      ∧ ResEntry.ofNat (t.mem.readNat key 8) = { valid := true, dmg := false, tier := 0, size := 0, base, reserved := false } := by
  obtain ⟨h1, h2, h3, h4, h5, h6⟩ := h
  have hx : s.context 1 = userBare.context 1 := by unfold State.context; rw [h2]
  refine createNear_ok (i := 2) o hb ho hz hc he (.inr ⟨(1, 1), ?_, rfl⟩) ?_ ?_ ?_ h4 h5 h6
  · rw [hx]; decide
  · rw [hx, h3]
    have ha : absent s 1 2 = absent userBare 1 2 := by
      unfold absent objRecord
      rw [hx, h1]
    rw [ha]
    decide +kernel
  · rw [hx]; decide
  · rw [h1]; decide +kernel
theorem populated_near {k : Nat} (h : k < 2 ^ 39) : populated k = true := by
  unfold populated
  have h1 : k % 2 ^ 46 = k := Nat.mod_eq_of_lt (by omega)
  simp only [h1, h, if_true, decide_eq_true_eq]
  omega

theorem consistent_near {o : ObjRec} {b : Nat} (hz : o.sizeCode = 0) (hs : o.storage = 4096) (hb : b < 2 ^ 27) :
    ({ valid := true, dmg := false, tier := 0, size := 0, base := b, reserved := false : ResEntry }).inconsistent o 0 = false := by
  have h1 : populated (b * 4096) = true := populated_near (by omega)
  have h2 : populated (b * 4096 + 4096 - 1) = true := populated_near (by omega)
  simp only [ResEntry.inconsistent, hz, hs, h1, h2]
  simp
  omega

theorem kept_code {s3 : State} {g key base : Nat} (h : Unmarked s3) (hr : s3.regions = []) (hp : s3.pkg = 0) (hk : key % 4096 = 0)
    (hk' : key < 2 ^ 39) (hb : base < 2 ^ 27) (he : ResEntry.ofNat (s3.mem.readNat key 8)
      = { valid := true, dmg := false, tier := 0, size := 0, base, reserved := false }) (gid cn : Nat) (bs : List Byte) (hbs : bs.length = 4)
    {t : State} (ht : Kept s3 t) :
    ∃ u, t.fillObject gid cn { byteObject 4 4 true false true with valid := true, gen := g, map := key / 8 } bs = some u := by
  have hm : key / 8 * 8 = key := by omega
  have hrd : t.mem.readNat key 8 = s3.mem.readNat key 8 := by
    unfold Memory.readNat Memory.readList
    congr 1
    refine List.map_congr_left fun i hi => ht.mem _ ?_
    have := List.mem_range.mp hi
    omega
  refine fillObject_ok bs (ht.unmarked h) rfl rfl rfl (by rw [hbs]; exact Nat.le_refl 4) (Nat.le_refl 4) ?_
    (e := { valid := true, dmg := false, tier := 0, size := 0, base, reserved := false }) ?_ rfl ?_ rfl rfl (ht.regions.trans hr)
  · show populated (key / 8 * 8) = true
    rw [hm]
    exact populated_near hk'
  · show ResEntry.ofNat (t.mem.readNat (key / 8 * 8) 8) = _
    rw [hm, hrd]
    exact he
  · rw [ht.pkg, hp]
    exact consistent_near (show (byteObject 4 4 true false true).sizeCode = 0 by decide)
      (show (byteObject 4 4 true false true).storage = 4096 by decide) hb

/-- The next choice. -/
def chosen (s : State) : State := { s with fresh := s.fresh + 1 }

theorem load_ok {s : State} {q : Request} {d : Dxo} {cores : List Nat}
    (hc : s.chooseCores d.level d.count (d.entries.any fun e => bitAt e 48) = some (cores, chosen s))
    (hd : d.objs = [] ∧ d.base = none ∧ d.segs = [] ∧ d.heat = false) (hl : d.code.length = 4) (hj : reqNum q 4 = 1) (hj' : joinStatus (chosen s) q = stOk)
    (hs : s.mem = userBare.mem ∧ s.contexts = userBare.contexts) (h : s.recordWrites = [] ∧ s.pkg = 0 ∧ s.pmc.retired = []
      ∧ s.storage = [(0, 2 ^ 20)] ∧ s.poison = [] ∧ s.forwards = [] ∧ s.weak = [] ∧ s.regions = [] ∧ s.gangs = []) :
    ∃ gid u, loadGang s q d = .ok (gid, 1, u) := by
  obtain ⟨b1, b2, b3, b4, b5, b6, b7, b8, b9⟩ := h
  obtain ⟨gid, hi⟩ := freeId_ok (chosen s)
  obtain ⟨n, g, key, base, t, ho, hk, h1, h2, h3, -, he⟩ :=
    create_ok (s := chosen (chosen s)) (byteObject 4 4 true false true) (by decide) (by decide) (by decide) (by decide) rfl
      ⟨hs.1, hs.2, b1, b2, b3, b4⟩
  have hi' : (chosen s).freeId (s.gangs.map (·.1)) = some (gid, chosen (chosen s)) := by
    have hg : s.gangs.map (·.1) = [] := by rw [b9]; rfl
    rw [hg]
    exact hi
  obtain ⟨u, hu⟩ := loadGang_ok hd hj hj' hc hi' (by rw [hl]; exact ho)
    fun t' ht => kept_code (hk.unmarked ⟨b5, b6, b7⟩) (hk.regions.trans b8) (hk.pkg.trans b2) h1 h2 h3 he gid n d.code hl ht
  exact ⟨gid, u, hu⟩

/-- The state of the controller changed. -/
def withPmc (s : State) (held : Bool) (state : Nat) : State := { s with pmc := { s.pmc with held, state } }

theorem answering_of {s : State} (h : (s.firmware && !s.pmc.held && s.pmc.state == 3 && s.unsent.isEmpty) = true) : Answering s := by
  simp only [Bool.and_eq_true, Bool.not_eq_true', beq_iff_eq, List.isEmpty_iff] at h
  exact ⟨h.1.1.1, h.1.1.2, h.1.2, fun e he => absurd (h.2 ▸ he) List.not_mem_nil⟩

theorem witness_RequestEvents_load : ∃ gid u, (request [0, 0, 0, 0, 1]).sender = .host ∧ Answering userBare ∧ parseDxo aDxo = some aDxoRead
    ∧ req (request [0, 0, 0, 0, 1]) 2 / 2 ^ 14 % 2 ^ 18 = 0 ∧ req (request [0, 0, 0, 0, 1]) 2 / 2 ^ 5 % 2 ^ 4 ≤ 4 ∧ loadGang userBare (request [0, 0, 0, 0, 1]) aDxoRead = .ok (gid, 1, u) := by
  obtain ⟨cores, hc⟩ := chooseCores_bare
  obtain ⟨gid, u, hu⟩ := load_ok (d := aDxoRead) (q := request [0, 0, 0, 0, 1]) hc (by decide) (by decide) (by decide) (by decide +kernel) (by decide +kernel) (by decide +kernel)
  exact ⟨gid, u, rfl, answering_of (by decide +kernel), parse_dxo, by decide, by decide, hu⟩
theorem witness_RequestEvents_refused : (request [9]).sender = .host ∧ gangRequest (request [9]) (.teardown (request [9]))
    ∧ (withPmc user true 3).pmc.held = true ∧ (withPmc user false 1).pmc.held = false ∧ (withPmc user false 1).pmc.state ≠ 3
    ∧ Answering user ∧ user.gangs.get? (req (request [9]) 0) = none ∧ user.contexts.get? (req (request [9]) 0) = none
    ∧ parseDxo [] = none ∧ (req (request [0, 0, 2 ^ 14]) 2 / 2 ^ 14 % 2 ^ 18 ≠ 0) ∧ 4 < req (request [0, 0, 160]) 2 / 2 ^ 5 % 2 ^ 4 :=
  ⟨rfl, .inl rfl, by decide +kernel, by decide +kernel, by decide +kernel, answering_of (by decide +kernel), by decide +kernel, by decide +kernel,
    by decide +kernel, by decide +kernel, by decide +kernel⟩

/-- The thread's gang, changed. -/
def userReq (g : Gang) : State := userGang g 0 0

theorem witness_RequestEvents_teardown : (request [1]).sender = .host ∧ Answering (userReq { gangOf [0] with resident := false })
    ∧ (userReq { gangOf [0] with resident := false }).gangs.get? (req (request [1]) 0) = some { gangOf [0] with resident := false }
    ∧ ({ gangOf [0] with resident := false } : Gang).loading = none ∧ ({ gangOf [0] with resident := false } : Gang).closing = none
    ∧ (∀ e ∈ (userReq { gangOf [0] with resident := false }).quads, ∀ o ∈ e.2.outside, o.gang ≠ req (request [1]) 0)
    ∧ (∀ e ∈ (userReq { gangOf [0] with resident := false }).sections, ∀ x ∈ e.2.transfers, x.gang ≠ req (request [1]) 0)
    ∧ req (request [1]) 1 % 2 = 0
    ∧ (userReq { gangOf [0] with closing := some (request [], false) }).gangs.get? (req (request [1]) 0)
        = some { gangOf [0] with closing := some (request [], false) }
    ∧ ({ gangOf [0] with closing := some (request [], false) } : Gang).closing ≠ none :=
  ⟨rfl, answering_of (by decide +kernel), by decide +kernel, rfl, rfl, by decide +kernel, by decide +kernel, by decide, by decide +kernel, by decide⟩

-- a gang whose cores have been zeroed since cycle 0, at cycle 20; a request that names it is refused
theorem witness_RequestEvents_loading :
    (atCycle 20 (userReq { gangOf [0] with loading := some (request []) })).gangs.get? 1 = some { gangOf [0] with loading := some (request []) }
    ∧ (∀ c ∈ (gangOf [0]).cores, ((atCycle 20 (userReq { gangOf [0] with loading := some (request []) })).core c).starting = [])
    ∧ ({ gangOf [0] with loading := some (request []) } : Gang).since + 16 < (atCycle 20 (userReq { gangOf [0] with loading := some (request []) })).cycle
    ∧ Answering (userReq { gangOf [0] with loading := some (request []) })
    ∧ ({ gangOf [0] with loading := some (request []) } : Gang).loading ≠ none ∧ gangRequest (request [1]) (.halt (request [1])) :=
  ⟨by decide +kernel, by decide +kernel, by decide +kernel, answering_of (by decide +kernel), by decide, .inr (.inl rfl)⟩

theorem witness_RequestEvents_halt : (request [1, 0]).sender = .host ∧ Answering (userReq (gangOf [0]))
    ∧ (userReq (gangOf [0])).gangs.get? (req (request [1, 0]) 0) = some (gangOf [0]) ∧ req (request [1, 0]) 1 ≤ 7
    ∧ (gangOf [0]).group? (req (request [1, 0]) 1) = some { ranges := [], eng := false, halted := false } ∧ (gangOf [0]).resident = true ∧ (gangOf [0]).loading = none
    ∧ 0 ∈ (gangOf [0]).tids ∧ HaltGroup.has (req (request [1, 0]) 1) { ranges := [], eng := false, halted := false }
        ((userReq (gangOf [0])).thread 0).rank = true
    ∧ ((userReq (gangOf [0])).thread 0).run = .running ∧ 7 < req (request [1, 8]) 1
    ∧ (gangOf [0]).cores[req (request [1, 1]) 1 / 2]? = some 0 ∧ req (request [1, 7]) 1 ≠ 0 ∧ req (request [1, 7]) 1 ≤ 7 :=
  ⟨rfl, answering_of (by decide +kernel), by decide +kernel, by decide, by decide, rfl, rfl, by decide, by decide +kernel, by decide +kernel,
    by decide, by decide, by decide, by decide⟩

/-- The context of the bare machine, and one that a member owns. -/
def hostContext : Context := userBare.context 1

theorem witness_RequestEvents_context : (request [1]).sender = .host ∧ Answering userBare
    ∧ userBare.contexts.get? (req (request [1]) 0) = some hostContext ∧ (∀ e ∈ userBare.gangs, e.2.ctx ≠ req (request [1]) 0)
    ∧ (∃ e ∈ user.gangs, e.2.ctx = req (request [1]) 0) ∧ user.contexts.get? (req (request [1]) 0) = some hostContext
    ∧ hostContext.owner = .host ∧ ({ hostContext with owner := .service 0 } : Context).owner ≠ .host
    ∧ ({ userBare with contexts := [(1, { hostContext with owner := .service 0 })] } : State).contexts.get? (req (request [1]) 0)
        = some { hostContext with owner := .service 0 } :=
  ⟨rfl, answering_of (by decide +kernel), by decide +kernel, by decide +kernel, by decide +kernel, by decide +kernel, by decide +kernel,
    by decide +kernel, by decide +kernel⟩

/-- A request for a byte object of one block, to be read and written. -/
def createRequest : Request := request [1, 4096, 4096, 6, 0]

theorem bare_facts : userBare.mem = userBare.mem ∧ userBare.contexts = userBare.contexts ∧ userBare.recordWrites = [] ∧ userBare.pkg = 0
    ∧ userBare.pmc.retired = [] ∧ userBare.storage = [(0, 2 ^ 20)] :=
  ⟨rfl, rfl, by decide +kernel, by decide +kernel, by decide +kernel, by decide +kernel⟩

theorem witness_RequestEvents_create : ∃ n o u, createRequest.sender = .host ∧ Answering userBare
    ∧ userBare.contexts.get? (req createRequest 0) = some hostContext ∧ hostContext.owner = .host ∧ req createRequest 2 = 2 ^ 12 ∧ 12 ≤ 12 ∧ 12 ≤ 26
    ∧ req createRequest 2 ≤ req createRequest 1 ∧ req createRequest 1 < 2 ^ 32 ∧ req createRequest 3 < 8 ∧ req createRequest 4 ≤ 1
    ∧ userBare.createObject (req createRequest 0) (byteObject (req createRequest 1) (req createRequest 2)
        (decide (req createRequest 3 / 4 % 2 = 1)) (decide (req createRequest 3 / 2 % 2 = 1)) (decide (req createRequest 3 % 2 = 1)))
        (req createRequest 4) = some (n, o, u) := by
  obtain ⟨n, g, key, base, t, h, -⟩ := create_ok (s := userBare) (byteObject 4096 4096 true true false) (by decide) (by decide) (by decide)
    (by decide) rfl bare_facts
  exact ⟨n, _, t, rfl, answering_of (by decide +kernel), by decide +kernel, by decide +kernel, by decide, by decide, by decide, by decide,
    by decide, by decide, by decide, h⟩

/-- A request for an alias of the code object in its own context. -/
def shareRequest : Request := request [1, 1, 0, 1, 6]

theorem resideAll_ok {s : State} {c n : Nat} {o : ObjRec} (hb : o.blocks = 1) (hv : (entryAt s o 0).valid = true) :
    s.resideAll c n o = some s := by
  unfold State.resideAll
  simp [hb, hv, List.foldlM]

theorem witness_RequestEvents_share : ∃ m r v, shareRequest.sender = .host ∧ Answering userBare ∧ req shareRequest 2 = userBare.pkg
    ∧ userBare.contexts.get? (req shareRequest 0) = some hostContext ∧ userBare.contexts.get? (req shareRequest 3) = some hostContext
    ∧ hostContext.owner = .host ∧ objRecord userBare hostContext (req shareRequest 1) = .ok (some codeRecord) ∧ codeRecord.valid = true ∧ codeRecord.enc = false
    ∧ userBare.resideAll (req shareRequest 0) (req shareRequest 1) codeRecord = some userBare
    ∧ userBare.newRecord (req shareRequest 3) (narrowed codeRecord (req shareRequest 4)) = some (m, r, v) := by
  obtain ⟨n, g, key, t, h, -⟩ := newRecord_ok (s := userBare) (c := 1) (i := 2) (k := (1 * 2 ^ 36, 64 * 2 ^ 30)) (narrowed codeRecord 6) (by decide)
    (.inr ⟨(1, 1), by decide +kernel, rfl⟩) (by decide +kernel) (by decide +kernel) (by decide +kernel) (by decide +kernel)
  exact ⟨n, _, t, rfl, answering_of (by decide +kernel), by decide +kernel, by decide +kernel, by decide +kernel, by decide +kernel,
    by decide +kernel, rfl, rfl, resideAll_ok (by decide) (by decide +kernel), h⟩
/-! System calls and the other faults in service -/

/-- The thread with a fault in service: cause, `finfo`, and an argument reference in `x10`, `x11` (R227, R362). -/
def userService (cause info : Word) (miss : Option Miss) (arg : Ref) : State :=
  let s := userGang (gangOf [0, 1]) 0 0
  s.setTh { s.th with
    run := .service, fcause := cause, finfo := info, epc := 8, miss
    x := ((s.th.x.set 10 (arg.extractLsb' 0 64)).set 11 (arg.extractLsb' 64 64)).set 12 0x100 }

theorem witness_CallEvents_calls : InCall (userService 0x11 1 none 0) 0 1 ∧ InCall (userService 0x11 0 none 0) 0 0
    ∧ InCall (userService 0x11 7 none 0) 0 7 := by
  unfold InCall
  decide +kernel

theorem witness_CallEvents_badSpace : callForm 0 (.watch 0) = some (5, callWatch 0) ∧ InCall (userService 0x11 5 none (nearRef 2 0)) 0 5
    ∧ heatOf (userService 0x11 5 none (nearRef 2 0)) ((userService 0x11 5 none (nearRef 2 0)).thread 0).gang = false
    ∧ (((userService 0x11 5 none (nearRef 2 0)).thread 0).x[(11 : Rx)]).toNat / 2 ^ 16 % 2 ^ 4 ≠ 0
    ∧ ((userService 0x11 5 none (nearRef 2 0)).thread 0).inCall = false :=
  ⟨rfl, by unfold InCall; decide +kernel, by decide +kernel, by decide +kernel, by decide +kernel⟩

/-- A call that is done without a failure, has few results, and leaves the thread. -/
def callDone (k : Nat) (s : State) (r : CallResult) : Bool :=
  match r with
  | .done u st ws => st == 0 && decide (ws.length ≤ 2) && decide (u.thread k = s.thread k)
  | .wait _ => false

def callWaits (r : CallResult) : Bool :=
  match r with
  | .done .. => false
  | .wait _ => true

theorem callDone_of {k : Nat} {s : State} {r : CallResult} (h : callDone k s r = true) :
    ∃ u ws, r = .done u 0 ws ∧ ws.length ≤ 2 ∧ u.thread k = s.thread k := by
  unfold callDone at h
  split at h
  · next u st ws =>
    simp only [Bool.and_eq_true, decide_eq_true_eq, beq_iff_eq] at h
    exact ⟨u, ws, by rw [h.1.1], h.1.2, h.2⟩
  · cases h

theorem callWaits_of {r : CallResult} (h : callWaits r = true) : ∃ u, r = .wait u := by
  unfold callWaits at h
  split at h
  · cases h
  · exact ⟨_, rfl⟩

-- WATCH of the first line of the code object is done; OBJFREE of the code object waits for V = 0 to be in force
theorem witness_CallEvents_done : ∃ u ws v, callForm 0 (.watch 0) = some (5, callWatch 0) ∧ InCall (userService 0x11 5 none (globalRef 0)) 0 5
    ∧ heatOf (userService 0x11 5 none (globalRef 0)) ((userService 0x11 5 none (globalRef 0)).thread 0).gang = false
    ∧ callWatch 0 (userService 0x11 5 none (globalRef 0)) ((userService 0x11 5 none (globalRef 0)).thread 0) = .done u 0 ws
    ∧ ws.length ≤ 2 ∧ u.thread 0 = (userService 0x11 5 none (globalRef 0)).thread 0
    ∧ callForm 0 (.objfree 0) = some (3, callObjfree 0) ∧ InCall (userService 0x11 3 none (globalRef 0)) 0 3
    ∧ callObjfree 0 (userService 0x11 3 none (globalRef 0)) ((userService 0x11 3 none (globalRef 0)).thread 0) = .wait v := by
  obtain ⟨u, ws, h, h1, h2⟩ := callDone_of (k := 0) (s := userService 0x11 5 none (globalRef 0))
    (r := callWatch 0 (userService 0x11 5 none (globalRef 0)) ((userService 0x11 5 none (globalRef 0)).thread 0)) (by decide +kernel)
  obtain ⟨v, hv⟩ := callWaits_of (r := callObjfree 0 (userService 0x11 3 none (globalRef 0)) ((userService 0x11 3 none (globalRef 0)).thread 0))
    (by decide +kernel)
  exact ⟨u, ws, v, rfl, by unfold InCall; decide +kernel, by decide +kernel, h, h1, h2, rfl, by unfold InCall; decide +kernel, hv⟩

/-- A miss at the start of the code object. -/
def codeMiss : Miss := { obj := 1, off := 0 }

theorem witness_CallEvents_miss : ∃ u, ((userService 0x0A 0 (some codeMiss) 0).thread 0).run = .service
    ∧ ((userService 0x0A 0 (some codeMiss) 0).thread 0).fcause.toNat % 2 ^ 8 = 0x0A
    ∧ ((userService 0x0A 0 (some codeMiss) 0).thread 0).miss = some codeMiss
    ∧ (userService 0x0A 0 (some codeMiss) 0).serveMiss ((userService 0x0A 0 (some codeMiss) 0).thread 0).gang codeMiss = some u
    ∧ u.thread 0 = (userService 0x0A 0 (some codeMiss) 0).thread 0 := by
  have h : ((userService 0x0A 0 (some codeMiss) 0).serveMiss ((userService 0x0A 0 (some codeMiss) 0).thread 0).gang codeMiss).any
      (fun u => decide (u.thread 0 = (userService 0x0A 0 (some codeMiss) 0).thread 0)) = true := by decide +kernel
  obtain ⟨u, hu, hp⟩ := some_of h
  exact ⟨u, by decide +kernel, by decide +kernel, by decide +kernel, hu, of_decide_eq_true hp⟩

theorem witness_CallEvents_unserviceable : (0 : Nat) < 4096 ∧ ((userService 0x04 0 none 0).thread 0).run = .service
    ∧ 0x04 = ((userService 0x04 0 none 0).thread 0).fcause.toNat % 2 ^ 8 ∧ (0x04 : Nat) ∉ [0x03, 0x0A, 0x0B, 0x0F, 0x10, 0x11, 0x13]
    ∧ (userService 0x04 0 none 0).gangs.get? ((userService 0x04 0 none 0).thread 0).gang = some (gangOf [0, 1])
    ∧ (gangOf [0, 1]).haltPolicy = false :=
  ⟨by decide, by decide +kernel, by decide +kernel, by decide, by decide +kernel, rfl⟩

/-- A thread of core 512, an H-die core, waits with a feature trap; core 0 of its gang is an F-die core, and free. -/
def userFeature : State :=
  let s := userReq (gangOf [0, 512])
  let s := s.setTh { s.th with run := .ended }
  s.setThread 1024 { Thread.zero with run := .service, gang := 1, fcause := 3 }

theorem witness_CallEvents_feature : featureTarget userFeature 1024 = some (1, gangOf [0, 512], 0)
    ∧ featEntry (userFeature.thread 1024) < (gangOf [0, 512]).entries.length := by
  decide +kernel
/-! Gangs: moves, fences, slices, switching, pacing and heats -/

theorem witness_GangEvents_move : (userReq (gangOf [0, 4])).gangs.find? (fun e => e.2.resident && e.2.cores.contains 0 && e.2.cores.contains 4)
      = some (1, gangOf [0, 4])
    ∧ (0, 4) ∉ (gangOf [0, 4]).moves ∧ 4 ∈ moveTargets (userReq (gangOf [0, 4])) (gangOf [0, 4]) 0
    ∧ (userReq (gangOf [0, 4])).gangs.get? 1 = some (gangOf [0, 4]) ∧ ((userReq (gangOf [0, 4])).thread (2 * 0 + 0)).run = .running :=
  ⟨by decide +kernel, by decide, by decide +kernel, by decide +kernel, by decide +kernel⟩

/-- The gang during the move of core 0 to core 4, at cycle 200, its thread stopped since cycle 0. -/
def movingGang : Gang := { gangOf [0, 4] with moves := [(0, 4)] }

def userMoving : State :=
  let s := userReq movingGang
  atCycle 200 (s.setTh { s.th with run := .stopped })

theorem witness_GangEvents_moved : ∃ u, userMoving.gangs.find? (fun e => e.2.resident && e.2.cores.contains 0 && e.2.cores.contains 4)
      = some (1, movingGang) ∧ userMoving.gangs.get? 1 = some movingGang
    ∧ (0, 4) ∈ movingGang.moves ∧ contextFinal userMoving (2 * 0) = true ∧ contextFinal userMoving (2 * 0 + 1) = true
    ∧ coreFree userMoving 4 = true ∧ (userMoving.core 0).starting = [] ∧ userMoving.finishMove 1 movingGang 0 4 = some u := by
  obtain ⟨u, hu⟩ := Option.isSome_iff_exists.mp (show (userMoving.finishMove 1 movingGang 0 4).isSome = true by decide +kernel)
  exact ⟨u, by decide +kernel, by decide +kernel, by decide, by decide +kernel, by decide +kernel, by decide +kernel, by decide +kernel, hu⟩

theorem witness_GangEvents_fence : userBare.gangs = [] := by decide +kernel

/-- A gang of the whole package that waits for units. -/
def waitingGang : Gang := { gangOf (List.range 2048) with level := 3, resident := false }

/-- The one instance of the package level, when it is free. -/
theorem choosePackage {s : State} (hf : (List.range (levelCount 3)).filter (instanceFree s 3) = [0]) :
    s.chooseCores 3 1 false = some ((((List.range (levelCount 3)).filter (List.take 1 [0]).contains).flatMap (instanceCores 3)), { s with fresh := s.fresh + 1 }) := by
  have ht : ∀ n : Nat, turned [0] n = [0] := fun n => by simp [turned, Nat.mod_one]
  unfold State.chooseCores
  simp only [hf, ht, Bool.false_eq_true, if_false]
  rw [if_neg (by decide +kernel)]

theorem placePackage {s : State} {g : Gang} (hl : g.level = 3) (hn : g.cores.length / levelCores 3 = 1) (he : g.needsFdie = false)
    (hf : (List.range (levelCount 3)).filter (instanceFree s 3) = [0]) :
    placement s g = some (((List.range (levelCount 3)).filter (List.take 1 [0]).contains).flatMap (instanceCores 3)) := by
  unfold placement
  rw [hl, hn, he, choosePackage hf, if_neg (by decide), Option.map_some]

theorem placePackage_none {s : State} {g : Gang} (hl : g.level = 3) (hn : g.cores.length / levelCores 3 = 1) (he : g.needsFdie = false)
    (hf : (List.range (levelCount 3)).filter (instanceFree s 3) = []) : placement s g = none := by
  unfold placement State.chooseCores
  have ht : ∀ n : Nat, turned ([] : List Nat) n = [] := fun n => rfl
  simp only [hl, hn, he, hf, ht, Bool.false_eq_true, if_false]
  rw [if_neg (by decide), if_pos (by decide), Option.map_none]

/-- The thread's gang at the end of its slice, with the other one waiting. -/
def sliceGang : Gang := { gangOf [0] with slice := 1 }

def userSlice : State := atCycle 2000 { user with gangs := [(1, sliceGang), (2, waitingGang)] }

theorem witness_GangEvents_slice : userSlice.gangs.get? 1 = some sliceGang ∧ sliceDue userSlice sliceGang = true
    ∧ 0 ∈ sliceGang.tids ∧ (userSlice.thread 0).run = .running := by
  have hw : waitingGangs userSlice = [(2, waitingGang)] := by decide +kernel
  have h1 : placement userSlice waitingGang = none := placePackage_none rfl (by decide +kernel) (by decide) (by decide +kernel)
  have h2 := placePackage (s := withoutYielding userSlice waitingGang) (g := waitingGang) rfl (by decide +kernel) (by decide) (by decide +kernel)
  have hn : needsUnitsOf userSlice sliceGang waitingGang = true := by
    unfold needsUnitsOf
    rw [h1, h2]
    decide +kernel
  refine ⟨by decide +kernel, ?_, by decide, by decide +kernel⟩
  unfold sliceDue
  rw [hw]
  simp only [List.any_cons, hn, Bool.true_or, Bool.and_true]
  decide +kernel

/-- The thread's gang while it leaves, its thread stopped since cycle 0, at cycle 200. -/
def leavingGang : Gang := { gangOf [0] with switching := true }

def userLeaving : State :=
  let s := userReq leavingGang
  atCycle 200 (s.setTh { s.th with run := .stopped })

theorem witness_GangEvents_leave : userLeaving.gangs.get? 1 = some leavingGang ∧ readyToLeave userLeaving 1 leavingGang = true
    ∧ 0 ∈ leavingGang.tids := by
  decide +kernel

/-- The waiting gang alone. -/
def userComing : State := { user with gangs := [(2, waitingGang)] }

theorem witness_GangEvents_enter : ∃ cores, userComing.gangs.get? 2 = some waitingGang ∧ comesIn userComing 2 waitingGang = some cores := by
  have h := placePackage (s := userComing) (g := waitingGang) rfl (by decide +kernel) (by decide) (by decide +kernel)
  have hb : (waitingGangs userComing).any (fun w => before w (2, waitingGang) && (placement (withoutYielding userComing w.2) w.2).isSome) = false := by
    have hw : waitingGangs userComing = [(2, waitingGang)] := by decide +kernel
    have hn : before (2, waitingGang) (2, waitingGang) = false := by decide +kernel
    rw [hw]
    simp only [List.any_cons, List.any_nil, hn, Bool.false_and, Bool.or_false]
  have hc : comesIn userComing 2 waitingGang = placement userComing waitingGang := by
    unfold comesIn
    rw [hb, if_neg (by decide +kernel), if_neg (by decide)]
  exact ⟨_, by decide +kernel, hc.trans h⟩

/-- The thread's context with a budget, in a new epoch. -/
def userEpoch : State :=
  let s := userReq (gangOf [0])
  atCycle 5000 { s with contexts := [(1, { s.context 1 with qlimit := 9 })] }

theorem witness_GangEvents_epoch : epochDue userEpoch 0 = some 9 := by decide +kernel

/-- A replay-mode gang of one thread, which has waited since cycle 0 for the end of its heat, at cycle 200. -/
def heatGang : Gang := { gangOf [0] with threads := 1, heatMode := true }

def userHeat : State :=
  let s := userReq heatGang
  atCycle 200 (s.setTh { s.th with counts := s.th.counts.set 1 1, signalled := s.th.signalled.set 1 1, wait := .hurdle 0 .quad 1 (.phase 5) })

theorem witness_GangEvents_heat : userHeat.gangs.get? 1 = some heatGang ∧ checkpointDue userHeat 1 heatGang = true := by decide +kernel

/-- The gang in a heat that is to be replayed. -/
def replayGang : Gang :=
  { heatGang with
    trigger := some 0
    checkpoint := some { threads := [(0, Thread.zero)], queues := [], gates := [], engines := [Engine.zero, Engine.zero], clock := none, excused := [], gens := [], starts := [] } }

theorem witness_GangEvents_replay : (userReq replayGang).gangs.get? 1 = some replayGang ∧ replayDue (userReq replayGang) 1 replayGang = some 0
    ∧ poisoned (userReq replayGang) replayGang = none := by
  decide +kernel
/-! The boot, the controller and the pod -/

theorem keccakRound_length (c : Word) (a : List Word) : (keccakRound c a).length = 25 := by
  unfold keccakRound
  dsimp only
  split
  · next h =>
    have h := congrArg List.length h
    simp only [List.length_map, List.length_range, List.length_nil] at h
    omega
  · next x r h =>
    have h := congrArg List.length h
    simp only [List.length_map, List.length_range, List.length_cons] at h
    simp only [List.length_cons]
    omega

theorem keccakF_length (a : List Word) : (keccakF a).length = 25 := by
  have h : ∀ (l : List Word) (s : List Word), s.length = 25 → (l.foldl (fun s rc => keccakRound rc s) s).length = 25 := by
    intro l
    induction l with
    | nil => exact fun s h => h
    | cons c l ih => exact fun s _ => ih _ (keccakRound_length _ _)
  have hc : ∃ c l, keccakRC = c :: l := ⟨_, _, rfl⟩
  obtain ⟨c, l, hc⟩ := hc
  unfold keccakF
  rw [hc]
  exact h l _ (keccakRound_length _ _)

theorem shake256_length (m : List Byte) : (shake256 m 32).length = 32 := by
  have hb : ∀ a : List Word, (keccakBytes a).length = 8 * a.length := fun a => by
    induction a with
    | nil => rfl
    | cons w a ih => simp only [keccakBytes, List.flatMap_cons, List.length_append, leBytes_length, List.length_cons] at ih ⊢; omega
  have hl : ∀ (l : List (List Byte)) (a : List Word), a.length = 25 → (l.foldl keccakAbsorb a).length = 25 := by
    intro l
    induction l with
    | nil => exact fun a h => h
    | cons b l ih => exact fun a _ => ih _ (keccakF_length _)
  show (((keccakBytes ((shakeBlocks (m.length / 136 + 1) m).foldl keccakAbsorb (List.replicate 25 0))).take 136 ++ []).take 32).length = 32
  rw [List.append_nil, List.take_take, List.length_take, hb, hl _ _ (List.length_replicate ..)]
  decide

/-- A start record with a SEQ, and its digest. -/
def recordHead (n : Nat) : List Byte := [0x52, 0x53, 0x54, 0x31] ++ leBytes 4 0 ++ leBytes 8 n ++ leBytes 8 0x40 ++ leBytes 200 0

def aRecord (n : Nat) : List Byte := recordHead n ++ shake256 (recordHead n) 32

/-- The fields of a record lie in its head. -/
theorem part_of (h t : List Byte) {a n : Nat} (hl : a + n ≤ h.length) : ((h ++ t).drop a).take n = (h.drop a).take n := by
  rw [List.drop_append_of_le_length (by omega), List.take_append_of_le_length (by rw [List.length_drop]; omega)]

theorem record_ok {n : Nat} (hl : (recordHead n).length = 224)
    (h : (magicIs (recordHead n) [0x52, 0x53, 0x54, 0x31] && bytesZero (recordHead n) 4 4 && bytesNat (recordHead n) 16 8 / 2 ^ 8 == 0
      && field (bytesNat (recordHead n) 16 8) 4 2 == 0 && bytesZero (recordHead n) 24 200) = true) :
    startValid (aRecord n) = true ∧ startSeq (aRecord n) = bytesNat (recordHead n) 8 8 := by
  have ht : (aRecord n).take 224 = recordHead n := by unfold aRecord; rw [← hl]; exact List.take_left
  have hd : (aRecord n).drop 224 = shake256 (recordHead n) 32 := by unfold aRecord; rw [← hl]; exact List.drop_left
  have hp : ∀ a k, a + k ≤ 224 → ((aRecord n).drop a).take k = ((recordHead n).drop a).take k :=
    fun a k hk => part_of _ _ (by rw [hl]; exact hk)
  have hz : ∀ a k, a + k ≤ 224 → bytesZero (aRecord n) a k = bytesZero (recordHead n) a k := fun a k hk => by
    unfold bytesZero
    rw [hp a k hk]
  have hn : ∀ a k, a + k ≤ 224 → bytesNat (aRecord n) a k = bytesNat (recordHead n) a k := fun a k hk => by
    unfold bytesNat
    rw [hp a k hk]
  have hm : magicIs (aRecord n) [0x52, 0x53, 0x54, 0x31] = magicIs (recordHead n) [0x52, 0x53, 0x54, 0x31] := by
    unfold magicIs
    have := hp 0 4 (by decide)
    rw [List.drop_zero, List.drop_zero] at this
    rw [this]
  have hlen : (aRecord n).length = 256 := by unfold aRecord; rw [List.length_append, hl, shake256_length]
  unfold startValid startWhole startReserved startSeq
  rw [ht, hd, beq_self_eq_true, Bool.and_true, hlen, hm, hz 4 4 (by decide), hz 24 200 (by decide), hn 16 8 (by decide), hn 8 8 (by decide)]
  simp only [Bool.and_eq_true] at h
  obtain ⟨⟨⟨⟨h1, h2⟩, h3⟩, h4⟩, h5⟩ := h
  rw [h1, h2, h3, h4, h5]
  exact ⟨rfl, rfl⟩

theorem records : (startValid (aRecord 3) = true ∧ startSeq (aRecord 3) = 3) ∧ (startValid (aRecord 4) = true ∧ startSeq (aRecord 4) = 4)
    ∧ (startValid (aRecord 5) = true ∧ startSeq (aRecord 5) = 5) := by
  have h := fun n => record_ok (n := n)
  refine ⟨(h 3 (by decide +kernel) (by decide +kernel)).imp id fun e => e.trans (by decide +kernel),
    (h 4 (by decide +kernel) (by decide +kernel)).imp id fun e => e.trans (by decide +kernel),
    (h 5 (by decide +kernel) (by decide +kernel)).imp id fun e => e.trans (by decide +kernel)⟩
/-- The thread's machine with the controller changed. -/
def pmcBoot (state : Nat) (a b : List Byte) (abusy : Bool) : State :=
  { user with pmc := { user.pmc with state, held := false, writing := none, recA := a, recB := b, abusy, nonce := List.replicate 32 0 } }

theorem witness_BootEvents_stages : (pmcBoot 1 [] [] false).pmc.state = 1 ∧ (pmcBoot 1 [] [] false).pmc.held = false
    ∧ (pmcBoot 1 [] [] false).pmc.writing = none ∧ (pmcBoot 1 [] [] false).pmc.control.getLsbD 2 = false
    ∧ (pmcBoot 2 [] [] false).pmc.state = 2 ∧ (pmcBoot 2 [] [] false).pmc.held = false := by
  decide +kernel

theorem boot_records (a b : List Byte) : (pmcBoot 3 a b false).pmc.recA = a ∧ (pmcBoot 3 a b false).pmc.recB = b ∧ (pmcBoot 3 a b false).pmc.writing = none :=
  ⟨rfl, rfl, rfl⟩

theorem acceptSeq_valid {r : List Byte} (h : startValid r = true) : acceptSeq r = startSeq r := by unfold acceptSeq; rw [if_pos h]

-- no valid copy; copy A alone; both copies, with B the older; a record that is no newer
theorem witness_BootEvents_mstart :
    ((pmcBoot 3 [] [] false).pmc.writing = none ∧ startValid (aRecord 5) = true ∧ acceptSeq (pmcBoot 3 [] [] false).pmc.recA < startSeq (aRecord 5)
      ∧ acceptSeq (pmcBoot 3 [] [] false).pmc.recB < startSeq (aRecord 5) ∧ startValid (pmcBoot 3 [] [] false).pmc.recA = false)
    ∧ (startValid (pmcBoot 3 (aRecord 4) [] false).pmc.recA = true ∧ startValid (pmcBoot 3 (aRecord 4) [] false).pmc.recB = false
      ∧ acceptSeq (pmcBoot 3 (aRecord 4) [] false).pmc.recA < startSeq (aRecord 5))
    ∧ (startValid (pmcBoot 3 (aRecord 4) (aRecord 3) false).pmc.recA = true ∧ startValid (pmcBoot 3 (aRecord 4) (aRecord 3) false).pmc.recB = true
      ∧ acceptSeq (pmcBoot 3 (aRecord 4) (aRecord 3) false).pmc.recA < startSeq (aRecord 5)
      ∧ acceptSeq (pmcBoot 3 (aRecord 4) (aRecord 3) false).pmc.recB < startSeq (aRecord 5))
    ∧ startSeq (aRecord 3) ≤ acceptSeq (pmcBoot 3 (aRecord 4) [] false).pmc.recA := by
  obtain ⟨⟨v3, s3⟩, ⟨v4, s4⟩, ⟨v5, s5⟩⟩ := records
  have he : startValid [] = false := by decide
  have hz : acceptSeq [] = 0 := by decide
  obtain ⟨a1, b1, w1⟩ := boot_records [] []
  obtain ⟨a2, b2, -⟩ := boot_records (aRecord 4) []
  obtain ⟨a3, b3, -⟩ := boot_records (aRecord 4) (aRecord 3)
  rw [a1, b1, a2, b2, a3, b3, acceptSeq_valid v4, acceptSeq_valid v3, s3, s4, s5, hz]
  exact ⟨⟨w1, v5, by decide, by decide, he⟩, ⟨v4, he, by decide⟩, ⟨v4, v3, by decide, by decide⟩, by decide⟩

theorem witness_BootEvents_management : (1 : BitVec 32) = 1 ∧ (pmcBoot 3 [] [] false).pmc.abusy = false ∧ (0 : BitVec 32) ≠ 1
    ∧ (pmcBoot 3 [] [] true).pmc.abusy = true ∧ 600 ≤ (600 : BitVec 32).toNat % 2 ^ 12 ∧ (2400 : BitVec 32).toNat % 2 ^ 12 ≤ 2400
    ∧ (599 : BitVec 32).toNat % 2 ^ 12 < 600 ∧ 2400 < (2401 : BitVec 32).toNat % 2 ^ 12 ∧ (List.replicate 32 (1 : Byte)).length = 32
    ∧ (pmcBoot 3 [] [] false).pmc.nonce.length = 32 ∧ 255 < 256 ∧ (List.replicate 64 (1 : Byte)).length = 64 ∧ 1100 < 1101
    ∧ (1100 : Nat) ≤ 1100 := by
  decide +kernel

theorem witness_BootEvents_powerLoss : (pmcBoot 3 [] [] false).pmc.writing = none
    ∧ ({ (pmcBoot 3 [] [] false).pmc with writing := some (true, [1]) } : Pmc).writing = some (true, [1]) := by
  decide +kernel

/-- A held load of a side-effect object on another package, due. -/
def remoteLoad : HoldEntry := entryOf 3 0 (.loadSE [{ imageLoc 0 with key := 2 ^ 46 }] .whole (.x 5))

def userLate (l : List HoldEntry) : State := atCycle 128 (userHeld l 0 0)

/-- A region whose transfer thread 0 has started. -/
def owedRegion : Region := { aRegion false true false with owed := some (0, 0) }

/-- A copy of thread 0 under way from object 1, whose block lies in package 1. -/
def farCopy : Transfer := { aTransfer 5 with len := 4, state := 1, src := globalRef 0 }

def userFarCopy : State :=
  let s := user.setMem (user.mem.writeList 0x20000
    (leBytes 8 ({ valid := true, dmg := false, tier := 3, size := 0, base := 2 ^ 34, reserved := false : ResEntry }).toNat))
  (s.setTh { s.th with run := .ended }).setSect 0 { Section.zero with transfers := [farCopy] }

theorem witness_PodEvents_copy : ∃ l, lateHead userFarCopy 0 = none ∧ lateRegion userFarCopy 0 = none
    ∧ lateCopy userFarCopy 0 = some (0, farCopy, l) ∧ heatOf userFarCopy farCopy.gang = false := by
  obtain ⟨u, h, hp⟩ := some_of (x := lateCopy userFarCopy 0) (p := fun u => decide (u.1 = 0 ∧ u.2.1 = farCopy)) (by decide +kernel)
  have hp := of_decide_eq_true hp
  exact ⟨u.2.2, by decide +kernel, by decide +kernel, by rw [h, ← hp.1, ← hp.2], by decide +kernel⟩

theorem witness_PodEvents_timeout : lateHead (userLate [remoteLoad]) 0 = some remoteLoad
    ∧ remoteLoad.effect = .loadSE [{ imageLoc 0 with key := 2 ^ 46 }] .whole (.x 5)
    ∧ [({ imageLoc 0 with key := 2 ^ 46 } : Loc)] ≠ [] ∧ lateHead (userRegion owedRegion []) 0 = none
    ∧ lateRegion (userRegion owedRegion []) 0 = some 0 ∧ lateHead user 0 = none ∧ lateRegion user 0 = none ∧ lateCopy user 0 = none
    ∧ lateThread user 0 = some 0 :=
  ⟨by decide +kernel, rfl, by decide, by decide +kernel, by decide +kernel, by decide +kernel, by decide +kernel, by decide +kernel, by decide +kernel⟩

theorem witness_PodEvents_heartbeat : ({ user with missed := [(3, 4)] } : State).missed.get? 3 = some 4 ∧ (3 + 1 < 5) ∧ 5 ≤ 4 + 1
    ∧ 3 ≠ user.pkg ∧ 3 ∉ user.lost := by
  decide +kernel

theorem witness_PodEvents_host : (withPmc user false 1).pmc.held = false ∧ (withPmc user false 1).pmc.state ≠ 3 ∧ Answering user
    ∧ user.regions.get? (0x40000 / 2 ^ 21) = none ∧ Answering (userRegion (aRegion true false false) [])
    ∧ (userRegion (aRegion true false false) []).regions.get? (0x40000 / 2 ^ 21) = some (aRegion true false false)
    ∧ (aRegion true false false).owner = true ∧ (aRegion true false false).busy = false ∧ 0x40000 % 2 ^ 21 + 8 ≤ 2 ^ 21
    ∧ (userRegion (aRegion true false false) []).poison = [] ∧ (userRegion (aRegion true false false) []).forwards = []
    ∧ MemoryOk (userRegion (aRegion true false false) []) ∧ (userRegion (aRegion false false false) []).regions.get? (0x40000 / 2 ^ 21)
        = some (aRegion false false false)
    ∧ (aRegion false false false).owner = false ∧ (aRegion false false false).busy = false ∧ (aRegion false false false).owed = none :=
  ⟨by decide +kernel, by decide +kernel, answering_of (by decide +kernel), by decide +kernel, answering_of (by decide +kernel), by decide +kernel,
    rfl, rfl, by decide, by decide +kernel, by decide +kernel, by unfold MemoryOk; decide +kernel, by decide +kernel, rfl, rfl, rfl⟩
/-! Floating-point results against their definitions -/

theorem witness_RoundedResults_sum : binary .f32 ≠ none ∧ AllFinite [.fin false 1 0, .fin false 1 (-30)]
    ∧ 1 + (2 : ℚ) ^ (-30 : Int) = ([Term.fin false 1 0, .fin false 1 (-30)].map termValue).sum ∧ (1 + (2 : ℚ) ^ (-30 : Int)) ≠ 0
    ∧ AllFinite [.fin false 1 0, .fin true 1 0] ∧ 0 = ([Term.fin false 1 0, .fin true 1 0].map termValue).sum
    ∧ (∃ x ∈ [Term.fin false 1 0, .fin true 1 0], ∀ e, x ≠ .fin false 0 e) ∧ ∀ x ∈ [Term.fin true 0 3], ∃ e, x = .fin true 0 e := by
  refine ⟨by decide, ?_, by simp [termValue, signedValue], by positivity, ?_, by simp [termValue, signedValue],
    ⟨.fin true 1 0, by simp, by simp⟩, by simp⟩ <;> (intro x h; simp only [List.mem_cons, List.not_mem_nil, or_false] at h; rcases h with rfl | rfl <;> exact ⟨_, _, _, rfl⟩)

theorem witness_RoundedResults_operands : binary .f16 ≠ none ∧ (3 : Nat) ≠ 0 ∧ signedValue false 3 0 ≠ signedValue false 1 1
    ∧ Ty.f16.isBin = true ∧ fval .f32 false 0x3F800000 = .fin false (2 ^ 23) (-23) ∧ fval .f32 false 0x80000000 = .fin true 0 (-149)
    ∧ Ty.i8.isInt = true ∧ Ty.f32.isInt = false ∧ -1 = num .i8 255 ∧ 0 = num .i8 0 := by
  refine ⟨by decide, by decide, by norm_num [signedValue], by decide, by decide +kernel, by decide +kernel, by decide, by decide,
    by decide +kernel, by decide +kernel⟩

-- 1 is exact in f32; 1 + 2^-24 lies halfway, and goes to the even number
theorem witness_RoundedResults_nearest : binary .f32 = some ⟨24, -126, 2 ^ 24 - 1, 104⟩ ∧ (2 : ℝ) ^ (0 : Int) ≤ 1 + 2 ^ (-24 : Int)
    ∧ 1 + (2 : ℝ) ^ (-24 : Int) < 2 ^ ((0 : Int) + 1) ∧ RoundsTo .rne false ((2 : ℝ) ^ ((0 : Int) + 1 - 24)) (1 + 2 ^ (-24 : Int)) (2 ^ 23) := by
  refine ⟨rfl, by norm_num, by norm_num, ?_⟩
  unfold RoundsTo
  norm_num [abs_of_neg]

theorem witness_RoundedResults_grid : 1 ≤ 4 ∧ 4 ≤ 31 ∧ gridValue 4 < gridValue 5 ∧ GoesUp .rup false 4 1 ∧ ¬GoesUp .rtz false 4 1
    ∧ gridValue 31 < 16 := by
  refine ⟨by decide, by decide, by norm_num [gridValue], rfl, id, by norm_num [gridValue]⟩

theorem witness_SpecialValues_values : binary .e4m3 = some ⟨4, -6, 14, 5⟩ ∧ binary .f16 = some ⟨11, -14, 2 ^ 11 - 1, 5⟩
    ∧ ¬IsNan .e4m3 ⟨4, -6, 14, 5⟩ (encoding .e4m3 ⟨4, -6, 14, 5⟩ true 15 6) ∧ IsNan .e4m3 ⟨4, -6, 14, 5⟩ (encoding .e4m3 ⟨4, -6, 14, 5⟩ true 15 7)
    ∧ ¬IsNan .f16 ⟨11, -14, 2 ^ 11 - 1, 5⟩ (encoding .f16 ⟨11, -14, 2 ^ 11 - 1, 5⟩ false 30 1023) ∧ 30 + 1 < 2 ^ (Ty.f16.width - 11)
    ∧ 31 + 1 = 2 ^ (Ty.f16.width - 11) ∧ IsNan .f16 ⟨11, -14, 2 ^ 11 - 1, 5⟩ (encoding .f16 ⟨11, -14, 2 ^ 11 - 1, 5⟩ false 31 1)
    ∧ IsSignalling .f16 ⟨11, -14, 2 ^ 11 - 1, 5⟩ 0x7C01 ∧ ¬IsSignalling .f16 ⟨11, -14, 2 ^ 11 - 1, 5⟩ 0x7E00 := by
  refine ⟨rfl, rfl, ?_⟩
  unfold IsSignalling IsNan
  decide

theorem witness_SpecialValues_products : ((FVal.nan true).isSnan || (FVal.inf false).isSnan) = true
    ∧ ((FVal.nan false).isSnan || (FVal.inf false).isSnan) = false ∧ ((FVal.nan false).isNan || (FVal.inf false).isNan) = true := by
  decide

theorem witness_SpecialValues_rows : Term.snan ∈ [Term.snan, .qnan] ∧ Term.snan ∉ [Term.qnan, .invalid] ∧ Term.qnan ∈ [Term.qnan, .invalid]
    ∧ Term.qnan ∉ [Term.inf true, .inf false] ∧ Term.snan ∉ [Term.inf true, .inf false] ∧ Term.invalid ∉ [Term.inf true]
    ∧ Term.inf (!true) ∉ [Term.inf true] := by
  simp

theorem witness_SpecialValues_minmax : Ty.f32.isBin = true ∧ 0x7F800001 < 2 ^ Ty.f32.width
    ∧ IsSignalling .f32 ⟨24, -126, 2 ^ 24 - 1, 104⟩ 0x7F800001 ∧ ¬IsNan .f32 ⟨24, -126, 2 ^ 24 - 1, 104⟩ 0x80000000
    ∧ 0x80000000 = flushed .f32 ⟨24, -126, 2 ^ 24 - 1, 104⟩ true 0x80000001 ∧ orderKey .f32 0x80000000 < orderKey .f32 0 := by
  unfold IsSignalling IsNan
  decide

theorem witness_SpecialValues_convert : fval .f32 false 0x7FC00000 = .nan false ∧ fval .f32 false 0xFF800000 = .inf true
    ∧ fval .f32 false 0x3F800000 = .fin false (2 ^ 23) (-23) ∧ Ty.i8.intMin ≤ -128 ∧ -128 ≤ Ty.i8.intMax ∧ -129 < Ty.i8.intMin
    ∧ Ty.i8.intMax < 128 ∧ 200 < 2 ^ Ty.i16.width ∧ num .i16 200 = 200 := by
  decide +kernel

-- 1.5 goes to 2, and 2.5 to 2
theorem witness_SpecialValues_integral : RoundsTo .rne false 1 (3 / 2) 2 ∧ RoundsTo .rne true 1 (5 / 2) 2 ∧ RoundsTo .rtz false 1 (3 / 2) 1
    ∧ RoundsTo .rup false 1 (3 / 2) 2 ∧ RoundsTo .rdn false 1 (3 / 2) 1 := by
  unfold RoundsTo
  norm_num [abs_of_neg]

theorem witness_SpecialValues_scale : (∀ n m e, FVal.fin n m e ∈ [FVal.fin true 0 3, .inf false] → m = 0)
    ∧ (∃ (n : Bool) (m : Nat) (e : Int), FVal.fin n m e ∈ [FVal.fin true 3 0] ∧ (2 : ℚ) ^ (1 : Int) ≤ m * (2 : ℚ) ^ e)
    ∧ ∀ (n : Bool) (m : Nat) (e : Int), FVal.fin n m e ∈ [FVal.fin true 3 0] → m * (2 : ℚ) ^ e < (2 : ℚ) ^ ((1 : Int) + 1) := by
  refine ⟨fun n m e h => ?_, ⟨true, 3, 0, by simp, by norm_num⟩, fun n m e h => ?_⟩
  · simp only [List.mem_cons, FVal.fin.injEq, reduceCtorEq, List.not_mem_nil, or_false] at h
    exact h.2.1
  · simp only [List.mem_singleton, FVal.fin.injEq] at h
    obtain ⟨-, rfl, rfl⟩ := h
    norm_num

-- the word of viadd.i32 v1, v2, v10
theorem witness_RepeatFrame_body : ∃ o, frameWord user (leBytes 4 0x8C225040) = .ok (some o) ∧ (∀ ty ∈ o.types, TypeHere user ty)
    ∧ frame4.accepts o = true ∧ 3 < frame4.cnt ∧ ∃ u, o.run user 0 = .ok u := by
  obtain ⟨u, hu⟩ := ok_of (r := (iaddOp 1 2 10 0 .i32).run user 0) (by decide +kernel)
  exact ⟨iaddOp 1 2 10 0 .i32, rfl, fun _ h => typeHere (by rintro rfl; revert h; decide), by decide +kernel, by decide, u, hu⟩

/-! Where an access lands, and its faults -/

/-- The code object's record, to be read and written. -/
def dataRecord (se : Bool) : ObjRec := { codeRecord with wr := true, ex := false, se }

/-- Threads on cores 0 and 1 of the package, with a reference in `a2`. -/
def userIn (g : Gang) (r : Ref) : State := userA r |>.setGang 1 g

theorem wellFormed_in {g : Gang} {r : Ref} (h : WellFormedRef r) : WellFormedRef (userIn g r).th.a[(2 : Ra)] := h

theorem wellFormed_space (sp off : Nat) (h : 1 ≤ sp ∧ sp ≤ 5) (h' : off < 2 ^ 44) : WellFormedRef (nearRef sp off) := by
  unfold WellFormedRef refBits nearRef
  simp only [BitVec.toNat_ofNat]
  omega

-- the last eight bytes of the gang's share of section memory
theorem witness_AccessAddress_section : (userIn (gangOf [0, 1]) (nearRef 3 (2 ^ 19 - 8))).gangs.get? 1 = some (gangOf [0, 1])
    ∧ (userIn (gangOf [0, 1]) (nearRef 3 (2 ^ 19 - 8))).th.gang = 1 ∧ WellFormedRef (nearRef 3 (2 ^ 19 - 8))
    ∧ spaceOf (nearRef 3 (2 ^ 19 - 8)) = 3 ∧ scalarOff (userIn (gangOf [0, 1]) (nearRef 3 (2 ^ 19 - 8))).th 2 0 0 8 = (2 ^ 19 - 8 : Nat)
    ∧ 2 ^ 19 - 8 + 8 ≤ allotted (userIn (gangOf [0, 1]) (nearRef 3 (2 ^ 19 - 8))) (gangOf [0, 1]) 0
    ∧ Clean (userIn (gangOf [0, 1]) (nearRef 3 (2 ^ 19 - 8)))
        (allottedKey (userIn (gangOf [0, 1]) (nearRef 3 (2 ^ 19 - 8))) (gangOf [0, 1]) 0 (2 ^ 19 - 8)) 8 :=
  ⟨by decide +kernel, by decide +kernel, wellFormed_space _ _ (by decide) (by decide), by decide +kernel, by decide +kernel, by decide +kernel, by
    unfold Clean; decide +kernel⟩

theorem reachable_of {s : State} {c : Nat} (h : c / 32 = sectHere s.tid)
    (h' : ((s.gangs.get? s.th.gang).any fun g => g.cores.contains c) = true) : Reachable s c := by
  obtain ⟨g, hg, hc⟩ := some_of h'
  exact ⟨h, g, hg, by simpa using hc⟩

theorem notReachable_of {s : State} {c : Nat} (h' : ((s.gangs.get? s.th.gang).any fun g => g.cores.contains c) = false) : ¬Reachable s c := by
  rintro ⟨-, g, hg, hc⟩
  rw [hg] at h'
  simp [hc] at h'

-- the first bytes of core 1's local memory behind its window
theorem witness_AccessAddress_other : WellFormedRef (nearRef 4 (2 ^ 32 + 2048)) ∧ spaceOf (nearRef 4 (2 ^ 32 + 2048)) = 4
    ∧ scalarOff (userIn (gangOf [0, 1]) (nearRef 4 (2 ^ 32 + 2048))).th 2 0 0 8 = (2 ^ 32 + 2048 : Nat) ∧ 1 = (2 ^ 32 + 2048) / 2 ^ 32
    ∧ Reachable (userIn (gangOf [0, 1]) (nearRef 4 (2 ^ 32 + 2048))) 1
    ∧ (2 ^ 32 + 2048) % 2 ^ 32 + 8 ≤ localBytesOf (userIn (gangOf [0, 1]) (nearRef 4 (2 ^ 32 + 2048))) 1 ∧ 2048 ≤ (2 ^ 32 + 2048) % 2 ^ 32
    ∧ Clean (userIn (gangOf [0, 1]) (nearRef 4 (2 ^ 32 + 2048))) (localBase 1 + (2 ^ 32 + 2048) % 2 ^ 32) 8 :=
  ⟨wellFormed_space _ _ (by decide) (by decide), by decide +kernel, by decide +kernel, by decide, reachable_of (by decide +kernel) (by decide +kernel),
    by decide +kernel, by decide, by unfold Clean; decide +kernel⟩

theorem witness_AccessAddress_window : WellFormedRef (nearRef 5 2040) ∧ spaceOf (nearRef 5 2040) = 5
    ∧ scalarOff (userA (nearRef 5 2040)).th 2 0 0 8 = (2040 : Nat) ∧ 2040 + 8 ≤ 2048
    ∧ Clean (userA (nearRef 5 2040)) (localBase ((userA (nearRef 5 2040)).tid / 2) + 2040) 8 :=
  ⟨wellFormed_space _ _ (by decide) (by decide), by decide +kernel, by decide +kernel, by decide, by unfold Clean; decide +kernel⟩

/-- The object of the reference is present in `userG`, with all that checks 1 to 5 ask of it. -/
theorem usable_userG (off : Nat) (st : Bool) (h : refBits (globalRef off) 44 36 = 1 ∧ refBits (globalRef off) 96 32 = 1) :
    Usable (userG false) (globalRef off) (dataRecord false) st := by
  unfold Usable Present TableGood Permits KeyOk KeyFits
  rw [h.1, h.2]
  cases st <;> exact ⟨⟨by decide, by decide +kernel, by decide +kernel, by decide +kernel, by decide +kernel, by decide +kernel⟩, by decide +kernel⟩

-- the last eight bytes of the object
theorem witness_AccessAddress_object : WellFormedRef (globalRef 64) ∧ spaceOf (globalRef 64) = 0
    ∧ scalarOff (userG false).th 2 0 0 8 = (64 : Nat) ∧ Usable (userG false) (globalRef 64) (dataRecord false) true
    ∧ (userG false).lost = [] ∧ (∀ i, i < 8 → InShape (dataRecord false) (64 + i) ∧ blockOf (dataRecord false) (64 + i) = blockOf (dataRecord false) 64)
    ∧ TableGood (userG false) ((dataRecord false).map * 8 + 8 * blockOf (dataRecord false) 64)
    ∧ entryWord (userG false) (dataRecord false) (blockOf (dataRecord false) 64) / 2 ^ 63 % 2 = 1
    ∧ Consistent (userG false) (dataRecord false) (entryWord (userG false) (dataRecord false) (blockOf (dataRecord false) 64))
    ∧ (userG false).th.late = false
    ∧ ∀ i, i < 8 → Clean (userG false) (storageAt (entryWord (userG false) (dataRecord false) 0) + placeIn (dataRecord false) (64 + i)) 1
      ∧ (userG false).regions.get? ((storageAt (entryWord (userG false) (dataRecord false) 0) + placeIn (dataRecord false) (64 + i)) / 2 ^ 21) = none :=
  ⟨wellFormed_global 64 (by decide), by decide +kernel, by decide +kernel, usable_userG _ _ (by decide +kernel), by decide +kernel,
    by unfold InShape; decide +kernel, by unfold TableGood; decide +kernel, by decide +kernel, by unfold Consistent; decide +kernel,
    by decide +kernel, by unfold Clean; decide +kernel⟩

-- past the end of each space; a core outside the gang, and one that there is not; stores to the constant window
theorem witness_ScalarAccessFaults_space :
    SpaceFault (userA (nearRef 2 (2 ^ 21))) (nearRef 2 (2 ^ 21)) (2 ^ 21) 8 false 0x06
    ∧ SpaceFault (userA (nearRef 1 2040)) (nearRef 1 2040) 2040 8 true 0x09
    ∧ SpaceFault (userIn (gangOf [0, 1]) (nearRef 3 (2 ^ 19))) (nearRef 3 (2 ^ 19)) (2 ^ 19) 8 false 0x06
    ∧ SpaceFault (userIn (gangOf [0, 1]) (nearRef 4 (2 ^ 43))) (nearRef 4 (2 ^ 43)) (2 ^ 43) 8 false 0x06
    ∧ SpaceFault (userIn (gangOf [0, 1]) (nearRef 4 (2 ^ 33))) (nearRef 4 (2 ^ 33)) (2 ^ 33) 8 false 0x09
    ∧ SpaceFault (userIn (gangOf [0, 1]) (nearRef 4 (2 ^ 32 + 2 ^ 18))) (nearRef 4 (2 ^ 32 + 2 ^ 18)) (2 ^ 32 + 2 ^ 18) 8 false 0x06
    ∧ SpaceFault (userIn (gangOf [0, 1]) (nearRef 4 (2 ^ 32))) (nearRef 4 (2 ^ 32)) (2 ^ 32) 8 true 0x09
    ∧ SpaceFault (userA (nearRef 5 2048)) (nearRef 5 2048) 2048 8 false 0x06
    ∧ SpaceFault (userA (nearRef 5 0)) (nearRef 5 0) 0 8 true 0x09 := by
  refine ⟨.inl ⟨by decide +kernel, by decide +kernel, rfl⟩, .inr (.inl ⟨by decide +kernel, rfl, by decide, by decide +kernel, rfl⟩),
    .inr (.inr (.inl ⟨by decide +kernel, fun g hg => ?_, rfl⟩)), .inr (.inr (.inr (.inl ⟨by decide +kernel, .inl ⟨by decide, rfl⟩⟩))),
    .inr (.inr (.inr (.inl ⟨by decide +kernel, .inr (.inl ⟨by decide, notReachable_of (by decide +kernel), rfl⟩)⟩))),
    .inr (.inr (.inr (.inl ⟨by decide +kernel, .inr (.inr (.inl ⟨by decide, reachable_of (by decide +kernel) (by decide +kernel), by decide +kernel, rfl⟩))⟩))),
    .inr (.inr (.inr (.inl ⟨by decide +kernel, .inr (.inr (.inr ⟨by decide, reachable_of (by decide +kernel) (by decide +kernel), rfl, by decide,
      by decide +kernel, rfl⟩))⟩))),
    .inr (.inr (.inr (.inr ⟨by decide +kernel, .inl ⟨by decide, rfl⟩⟩))),
    .inr (.inr (.inr (.inr ⟨by decide +kernel, .inr ⟨by decide, rfl, by decide +kernel, rfl⟩⟩)))⟩
  have h : (userIn (gangOf [0, 1]) (nearRef 3 (2 ^ 19))).gangs.get? (userIn (gangOf [0, 1]) (nearRef 3 (2 ^ 19))).th.gang = some (gangOf [0, 1]) := by
    decide +kernel
  rw [h] at hg
  obtain rfl := Option.some.inj hg
  decide +kernel

/-- A reference to an object of a number and a generation. -/
def objectRef (n gen off : Nat) : Ref := BitVec.ofNat 128 (gen * 2 ^ 96 + 4 * 2 ^ 84 + n * 2 ^ 44 + off)

/-- The thread with object 1 of a record and an entry for its block. -/
def userObj (o : ObjRec) (e : ResEntry) : State :=
  { user with mem := (user.mem.writeList (0x10000 + 128) (leBytes 128 o.toNat)).writeList 0x20000 (leBytes 8 e.toNat) }

theorem present_of {s : State} {n : Nat} {o : ObjRec} (h : (n ≠ 0 ∧ n < 2 ^ ((contextOf s s.th.gang).ortb.toNat % 2 ^ 6)
    ∧ (populated (recordAt s n) = true ∧ ∀ e ∈ s.weak, e.1 ≠ recordAt s n / 256)
    ∧ o = ObjRec.ofNat (leNat (s.mem.readList (recordAt s n) 128)) ∧ o.valid = true ∧ o.gen ≠ 0)) : Present s n o := h

-- no object 2; a malformed record; the wrong generation; no permission to store; a key that the context does not have
theorem witness_ScalarAccessFaults_object : ObjectFault user (objectRef 2 1 0) false 0x08 (missOf (objectRef 2 1 0))
    ∧ ObjectFault (userObj { dataRecord false with tile := [3000, 0, 0, 0], type := 15 } (anEntry 0x30)) (objectRef 1 1 0) false 0x02 none
    ∧ ObjectFault user (objectRef 1 2 0) false 0x08 (missOf (objectRef 1 2 0)) ∧ ObjectFault user (objectRef 1 1 0) true 0x09 none
    ∧ ObjectFault (userObj { dataRecord false with enc := true, key := 255 } (anEntry 0x30)) (objectRef 1 1 0) false 0x09 none := by
  refine ⟨.inl ⟨⟨by decide +kernel, .inr (.inr (by decide +kernel))⟩, rfl, rfl⟩,
    .inr ⟨ObjRec.ofNat (leNat ((userObj { dataRecord false with tile := [3000, 0, 0, 0], type := 15 } (anEntry 0x30)).mem.readList (0x10000 + 128) 128)),
      present_of (by decide +kernel), .inl ⟨by decide +kernel, rfl, rfl⟩⟩,
    .inr ⟨codeRecord, present_of (by decide +kernel), .inr (.inl ⟨by decide +kernel, by decide +kernel, rfl, rfl⟩)⟩,
    .inr ⟨codeRecord, present_of (by decide +kernel), .inr (.inr ⟨by decide +kernel, by decide +kernel, fun h => ?_, rfl, rfl⟩)⟩,
    .inr ⟨{ dataRecord false with enc := true, key := 255 }, present_of (by decide +kernel), .inr (.inr ⟨by decide +kernel, by decide +kernel, fun h => ?_, rfl, rfl⟩)⟩⟩
  · exact absurd h.1 (by unfold Permits; decide)
  · exact absurd h.2.1 (by unfold KeyFits; decide +kernel)

/-- An object of two blocks of 4 bytes. -/
def pairRecord : ObjRec := { dataRecord false with tile := [4, 0, 0, 0], ext := [8, 0, 0, 0] }

theorem usable_of {s : State} {o : ObjRec} {off : Nat} {st : Bool} (h : (1 ≠ 0 ∧ 1 < 2 ^ ((contextOf s s.th.gang).ortb.toNat % 2 ^ 6)
      ∧ (populated (recordAt s 1) = true ∧ ∀ e ∈ s.weak, e.1 ≠ recordAt s 1 / 256)
      ∧ o = ObjRec.ofNat (leNat (s.mem.readList (recordAt s 1) 128)) ∧ o.valid = true ∧ o.gen ≠ 0)
    ∧ o.malformed = false ∧ 1 = o.gen ∧ o.wr = true ∧ o.rd = true ∧ o.enc = false ∧ o.se = false)
    (h' : refBits (objectRef 1 1 off) 44 36 = 1 ∧ refBits (objectRef 1 1 off) 96 32 = 1) : Usable s (objectRef 1 1 off) o st := by
  obtain ⟨h1, h2, h3, h4, h5, h6, h7⟩ := h
  unfold Usable Permits KeyOk KeyFits
  rw [h'.1, h'.2, h4, h5, h6, h7]
  exact ⟨h1, h2, h3, by cases st <;> rfl, (nomatch ·), (nomatch ·)⟩

/-- A machine with line 0x30000 marked. -/
def markedAt (s : State) : State := { s with poison := [0x300] }

-- past the object; across two blocks; an entry that is inconsistent; a marked line; a residency miss
theorem witness_ScalarAccessFaults_block :
    BlockFault (userObj (dataRecord false) (anEntry 0x30)) (objectRef 1 1 4096) 4096 8 false 0x06 none
    ∧ BlockFault (userObj pairRecord (anEntry 0x30)) (objectRef 1 1 0) 0 8 false 0x05 none
    ∧ BlockFault (userObj (dataRecord false) { anEntry 0x30 with size := 3 }) (objectRef 1 1 0) 0 8 false 0x02 none
    ∧ BlockFault (userObj (dataRecord false) { anEntry 0x30 with valid := false }) (objectRef 1 1 0) 0 8 true 0x0A
        (some { obj := 1, off := 0, gen := 1 }) := by
  refine ⟨⟨dataRecord false, usable_of (by decide +kernel) (by decide +kernel), .inl ⟨⟨0, by decide, by unfold InShape; decide +kernel⟩, rfl, rfl⟩⟩,
    ⟨pairRecord, usable_of (by decide +kernel) (by decide +kernel), .inr ⟨by unfold InShape; decide +kernel, .inl ⟨by decide +kernel, rfl, rfl⟩⟩⟩,
    ⟨dataRecord false, usable_of (by decide +kernel) (by decide +kernel), .inr ⟨by unfold InShape; decide +kernel, .inr ⟨_, by decide +kernel,
      by unfold TableGood; decide +kernel, rfl, by decide +kernel, .inl ⟨by decide +kernel, by unfold Consistent; decide +kernel, rfl, rfl⟩⟩⟩⟩,
    ⟨dataRecord false, usable_of (by decide +kernel) (by decide +kernel), .inr ⟨by unfold InShape; decide +kernel, .inr ⟨_, by decide +kernel,
      by unfold TableGood; decide +kernel, rfl, by decide +kernel, .inr (.inr (.inr ⟨by decide +kernel, rfl, by decide +kernel⟩))⟩⟩⟩⟩

-- a load of a marked line, and a store to a damaged block that holds one
theorem witness_ScalarAccessFaults_marked :
    BlockFault (markedAt (userObj (dataRecord false) (anEntry 0x30))) (objectRef 1 1 0) 0 8 false 0x0B (some { obj := 1, off := 0 })
    ∧ BlockFault (markedAt (userObj (dataRecord false) { anEntry 0x30 with dmg := true })) (objectRef 1 1 0) 0 8 true 0x0B
        (some { obj := 1, off := 0 })
    ∧ Marked { user with poison := [nearKey user 2 0 / 256] } (nearKey user 2 0) ∧ 0 + 8 ≤ nearBytes user 2 := by
  refine ⟨⟨dataRecord false, usable_of (by decide +kernel) (by decide +kernel), .inr ⟨by unfold InShape; decide +kernel, .inr ⟨_, by decide +kernel,
      by unfold TableGood; decide +kernel, rfl, by decide +kernel, .inr (.inl ⟨by decide +kernel, by unfold Consistent; decide +kernel, rfl,
        by decide +kernel, by decide +kernel, by decide +kernel, by decide +kernel, by unfold Marked; decide +kernel, rfl, by decide +kernel⟩)⟩⟩⟩,
    ⟨dataRecord false, usable_of (by decide +kernel) (by decide +kernel), .inr ⟨by unfold InShape; decide +kernel, .inr ⟨_, by decide +kernel,
      by unfold TableGood; decide +kernel, rfl, by decide +kernel, .inr (.inr (.inl ⟨by decide +kernel, by unfold Consistent; decide +kernel, rfl,
        by decide +kernel, by decide +kernel, by decide +kernel, by unfold Marked; decide +kernel, rfl, by decide +kernel⟩))⟩⟩⟩,
    by unfold Marked; decide +kernel, by decide +kernel⟩

/-! Releases -/

theorem due_alone {s : State} {core : Nat} {e : HoldEntry} (h : (decide (e.cycle + 128 ≤ s.cycle) && decide ((s.quad (core / 4)).phase = .idle)
    && decide (e.after = 0) && (s.quads.all fun k => k.2.outside.isEmpty)
    && ((List.range 4).all fun i => (s.core (4 * (core / 4) + i)).hold.all fun f => decide (e.seq ≤ f.seq))
    && (e.effect.endpoint.all fun n => (s.engine n).leaves.isEmpty) && (s.thread e.tid).tq.isEmpty) = true) : Due s core e := by
  simp only [Bool.and_eq_true, decide_eq_true_eq, List.all_eq_true, List.isEmpty_iff, List.mem_range] at h
  obtain ⟨⟨⟨⟨⟨⟨h1, h2⟩, h3⟩, h4⟩, h5⟩, h6⟩, h7⟩ := h
  have ho : ∀ k ∈ s.quads, ∀ o, o ∉ k.2.outside := fun k hk o ho => by
    rw [h4 k hk] at ho
    cases ho
  refine ⟨h1, h2, fun h => absurd h3 h, fun k hk o hm => absurd hm (ho k hk o), fun f hf => ?_, fun n hn => ⟨fun i hi f hf hl => ?_, ?_⟩,
    fun _ n hn => ?_⟩
  · rcases hf with ⟨i, hi, f, hf, hl, -⟩ | ⟨k, hk, o, hm, -⟩
    · exact absurd (h5 i hi f hf) (by omega)
    · exact absurd hm (ho k hk o)
  · exact absurd (h5 i hi f hf) (by omega)
  · rw [hn] at h6
    simp only [Option.all_some, List.isEmpty_iff] at h6
    rw [h6]
    exact fun l hl => absurd hl List.not_mem_nil
  · rw [h7] at hn
    cases hn

/-- One entry at the head of core 0's buffer, due. -/
def userHead' (e : HeldEffect) : State := atCycle 128 (userHeld [entryOf 3 0 e] 0 0)

theorem atHead_of {s : State} {core : Nat} {e : HoldEntry} (h : (s.core core).hold = [e]) (hd : Due s core e)
    (hq : (contextOf s (s.thread e.tid).gang).qlimit = 0) : AtHead s core e [] :=
  ⟨h, fun _ hf => (nomatch hf), hd, hq⟩

theorem atHead_userHead (e : HeldEffect) (h : (e.endpoint.all fun n => ((userHead' e).engine n).leaves.isEmpty) = true) :
    AtHead (userHead' e) 0 (entryOf 3 0 e) [] := by
  have hc : ∀ i, i < 4 → ((userHead' e).core (4 * (0 / 4) + i)).hold = if i = 0 then [entryOf 3 0 e] else [] := by
    intro i hi
    obtain rfl | rfl | rfl | rfl : i = 0 ∨ i = 1 ∨ i = 2 ∨ i = 3 := by omega
    all_goals rfl
  refine atHead_of rfl (due_alone ?_) rfl
  simp only [Bool.and_eq_true]
  refine ⟨⟨⟨⟨⟨⟨rfl, rfl⟩, rfl⟩, rfl⟩, ?_⟩, h⟩, rfl⟩
  rw [List.all_eq_true]
  intro i hi
  rw [hc i (List.mem_range.mp hi)]
  split
  · simp [entryOf]
  · rfl

theorem reached_of {s : State} {core seq : Nat} {l : Loc} (h : (decide (l.crypt = none) && s.poison.isEmpty && s.forwards.isEmpty && s.weak.isEmpty
    && !youngWrite s l.key && !outsideWaits s l.key && ((s.quad (core / 4)).overs.isEmpty)) = true) : Reached s core seq l := by
  simp only [Bool.and_eq_true, decide_eq_true_eq, List.isEmpty_iff, Bool.not_eq_true'] at h
  obtain ⟨⟨⟨⟨⟨⟨h1, h2⟩, h3⟩, h4⟩, h5⟩, h6⟩, h7⟩ := h
  exact ⟨h1, clean_of ⟨h2, h3, h4⟩, h5, h6, fun _ e he => by rw [h7] at he; cases he⟩

theorem witness_ReleaseResult_store : AtHead (userHead' (.store [[oneByte]])) 0 (entryOf 3 0 (.store [[oneByte]])) []
    ∧ MemoryOk (userHead' (.store [[oneByte]])) ∧ heatOf (userHead' (.store [[oneByte]])) ((userHead' (.store [[oneByte]])).thread 0).gang = false
    ∧ (userHead' (.store [[oneByte]])).lost = [] ∧ ∀ c ∈ [[oneByte]].flatten, Reached (userHead' (.store [[oneByte]])) 0 3 c.loc := by
  refine ⟨atHead_userHead _ rfl, by unfold MemoryOk; decide +kernel, by decide +kernel, by decide +kernel, fun c hc => ?_⟩
  obtain rfl := List.mem_singleton.mp hc
  exact reached_of (by decide +kernel)

/-- Bytes of object 1's block, from its start. -/
def blockLocs (n : Nat) : List Loc := (List.range n).map fun i => { key := 0x30000 + i, crypt := none, dmg := false, space := 0, obj := 1, off := i }

theorem witness_ReleaseResult_amo : AtHead (userHead' (.amo .add (blockLocs 8) true 5 0 5)) 0 (entryOf 3 0 (.amo .add (blockLocs 8) true 5 0 5)) []
    ∧ (0 : Nat) / 64 < 64 ∧ ((userHead' (.amo .add (blockLocs 8) true 5 0 5)).sect 0).heatBuf = []
    ∧ (∀ l ∈ blockLocs 8, Reached (userHead' (.amo .add (blockLocs 8) true 5 0 5)) 0 3 l)
    ∧ (blockLocs 8).map (·.key) = (List.range 8).map (0x30000 + ·) := by
  refine ⟨atHead_userHead _ rfl, by decide, by decide +kernel, fun l hl => ?_, by decide⟩
  have h : ∀ l ∈ blockLocs 8, (decide (l.crypt = none) && (userHead' (.amo .add (blockLocs 8) true 5 0 5)).poison.isEmpty
    && (userHead' (.amo .add (blockLocs 8) true 5 0 5)).forwards.isEmpty && (userHead' (.amo .add (blockLocs 8) true 5 0 5)).weak.isEmpty
    && !youngWrite (userHead' (.amo .add (blockLocs 8) true 5 0 5)) l.key && !outsideWaits (userHead' (.amo .add (blockLocs 8) true 5 0 5)) l.key
    && (((userHead' (.amo .add (blockLocs 8) true 5 0 5)).quad 0).overs.isEmpty)) = true := by decide +kernel
  exact reached_of (h l hl)

theorem witness_ReleaseResult_load : AtHead (userHead' (.loadSE (blockLocs 8) .whole (.x 5))) 0 (entryOf 3 0 (.loadSE (blockLocs 8) .whole (.x 5))) []
    ∧ ((userHead' (.loadSE (blockLocs 8) .whole (.x 5))).sect 0).heatBuf = []
    ∧ ∀ l ∈ blockLocs 8, l.crypt = none ∧ Clean (userHead' (.loadSE (blockLocs 8) .whole (.x 5))) l.key 1 :=
  ⟨atHead_userHead _ rfl, by decide +kernel, by unfold Clean; decide +kernel⟩

/-- A line of core 1's local memory. -/
def otherLine : List Loc :=
  (List.range 256).map fun i => { key := localBase 1 + 4096 + i, crypt := none, dmg := false, space := 1, obj := 0, off := 4096 + i }

theorem witness_ReleaseResult_xsend : AtHead (userHead' (.xsend otherLine (List.replicate 256 7))) 0 (entryOf 3 0 (.xsend otherLine (List.replicate 256 7))) []
    ∧ otherLine.length = 256 ∧ (List.replicate 256 (7 : Byte)).length = 256 ∧ (otherLine.map (·.key)).Nodup
    ∧ (∀ l ∈ otherLine, Reached (userHead' (.xsend otherLine (List.replicate 256 7))) 0 3 l) := by
  refine ⟨atHead_userHead _ rfl, by decide +kernel, by decide +kernel, by decide +kernel, fun l hl => ?_⟩
  have h : ∀ l ∈ otherLine, (decide (l.crypt = none) && (userHead' (.xsend otherLine (List.replicate 256 7))).poison.isEmpty
    && (userHead' (.xsend otherLine (List.replicate 256 7))).forwards.isEmpty && (userHead' (.xsend otherLine (List.replicate 256 7))).weak.isEmpty
    && !youngWrite (userHead' (.xsend otherLine (List.replicate 256 7))) l.key && !outsideWaits (userHead' (.xsend otherLine (List.replicate 256 7))) l.key
    && (((userHead' (.xsend otherLine (List.replicate 256 7))).quad 0).overs.isEmpty)) = true := by decide +kernel
  exact reached_of (h l hl)

theorem witness_ReleaseResult_trap : AtHead ((userHead' .trap).setTh { user.th with run := .trapped }) 0 (entryOf 3 0 .trap) []
    ∧ (((userHead' .trap).setTh { user.th with run := .trapped }).thread (entryOf 3 0 .trap).tid).run = .trapped :=
  ⟨atHead_of rfl (due_alone (by decide +kernel)) (by decide +kernel), by decide +kernel⟩

-- an entry that is too young
theorem witness_ReleaseResult_young : ((userHeld [entryOf 3 0 .trap] 0 0).core 0).hold = entryOf 3 0 .trap :: []
    ∧ ¬Due (userHeld [entryOf 3 0 .trap] 0 0) 0 (entryOf 3 0 .trap) :=
  ⟨by decide +kernel, fun h => absurd h.1 (by decide +kernel)⟩

/-- The elements 0 to 3 of an l6 row, in one group of three bytes of the scratchpad. -/
def l6Elems : List (Nat × List Loc) := (List.range 4).map fun e =>
  (e, (List.range 3).map fun i => { key := quadBase 0 + i, crypt := none, dmg := false, space := 2, obj := 0, off := i })

theorem witness_VectorStoreResult_l6 : l6Elems.Nodup ∧ (∀ f ∈ l6Elems, f.2.length = 3 ∧ f.2.Nodup)
    ∧ (∀ f ∈ l6Elems, ∀ g ∈ l6Elems, f.2 = g.2 → f.1 % 4 = g.1 % 4 → f = g)
    ∧ (∃ f ∈ l6Elems, 6 * (f.1 % 4) ≤ 23 ∧ 23 < 6 * (f.1 % 4) + 6 ∧ (f.2[23 / 8]?).isSome = true) := by
  decide

theorem witness_VectorStoreResult_line : [oneByte] ∈ [[oneByte]] ∧ [oneByte].head? = some oneByte := by decide

theorem witness_ReferenceRecords_causes : AchkCause (userGX 0 4) (nearRef 7 0) 1 false 0x07
    ∧ AchkCause user (objectRef 2 1 0) 1 false 0x08 ∧ AchkCause user (objectRef 1 2 0) 1 false 0x08
    ∧ AchkCause user (objectRef 1 1 0) 1 true 0x09 ∧ AchkCause user (objectRef 1 1 0) 4096 false 0
    ∧ AchkCause user (objectRef 1 1 0) 4097 false 0x06 ∧ AchkCause user (nearRef 2 (2 ^ 21)) 1 true 0x06
    ∧ AchkCause user (nearRef 2 0) 1 true 0 := by
  have hp : Present user 1 codeRecord := present_of (by decide +kernel)
  have hu : ∀ off, refBits (objectRef 1 1 off) 44 36 = 1 ∧ refBits (objectRef 1 1 off) 96 32 = 1 →
      Present user (refBits (objectRef 1 1 off) 44 36) codeRecord ∧ refBits (objectRef 1 1 off) 96 32 = codeRecord.gen := fun off h => by
    rw [h.1, h.2]
    exact ⟨hp, rfl⟩
  have h0 := hu 0 (by decide +kernel)
  have hw : ∀ n g off, WellFormedRef (objectRef n g off) ↔ WellFormedRef (objectRef n g off) := fun _ _ _ => Iff.rfl
  refine ⟨.inl (by decide +kernel), .inr (.inl ⟨by unfold WellFormedRef; decide +kernel, by decide +kernel, .inl ⟨⟨by decide +kernel, .inr (.inr (by decide +kernel))⟩, rfl⟩⟩),
    .inr (.inl ⟨by unfold WellFormedRef; decide +kernel, by decide +kernel, .inr ⟨codeRecord, present_of (by decide +kernel), .inr (.inl ⟨by decide +kernel, by decide +kernel, rfl⟩)⟩⟩),
    .inr (.inl ⟨by unfold WellFormedRef; decide +kernel, by decide +kernel, .inr ⟨codeRecord, h0.1, .inr (.inr (.inl ⟨by decide +kernel, h0.2,
      fun h => absurd h.1 (by unfold Permits; decide), rfl⟩))⟩⟩),
    .inr (.inl ⟨by unfold WellFormedRef; decide +kernel, by decide +kernel, .inr ⟨codeRecord, h0.1, .inr (.inr (.inr ⟨by decide +kernel, h0.2,
      by unfold Permits; decide, by unfold KeyFits; decide +kernel, .inr ⟨by decide, fun j hj => ?_, rfl⟩⟩))⟩⟩),
    .inr (.inl ⟨by unfold WellFormedRef; decide +kernel, by decide +kernel, .inr ⟨codeRecord, h0.1, .inr (.inr (.inr ⟨by decide +kernel, h0.2,
      by unfold Permits; decide, by unfold KeyFits; decide +kernel, .inl ⟨.inr ⟨4096, by decide, by unfold InShape; decide +kernel⟩, rfl⟩⟩))⟩⟩),
    .inr (.inr ⟨wellFormed_space _ _ (by decide) (by decide), by decide +kernel, by decide +kernel, .inl (.inl ⟨by decide +kernel, by decide +kernel, rfl⟩)⟩),
    .inr (.inr ⟨wellFormed_space _ _ (by decide) (by decide), by decide +kernel, by decide +kernel, .inr ⟨fun k h => ?_, rfl⟩⟩)⟩
  · have ho : refBits (objectRef 1 1 0) 0 44 = 0 := by decide +kernel
    rw [ho, Nat.zero_add]
    unfold InShape
    intro d hd
    have hd : d = 0 := Nat.le_zero.mp hd
    subst hd
    show j / 1 < 4096
    omega
  · have hs : spaceOf (nearRef 2 0) = 2 := by decide +kernel
    unfold SpaceFault at h
    rw [hs] at h
    have hn : ¬nearBytes user 2 < refBits (nearRef 2 0) 0 44 + 1 := by decide +kernel
    omega

/-! Faults of vector and tile accesses -/

/-- The thread with live tiles, a reference in `a2`, and two `x` registers. -/
def userRT (r : Ref) (x y : Word) : State :=
  let s := userT (tileOf 1 0 0) (tileOf 2 0 1)
  s.setTh { s.th with a := s.th.a.set 2 r, x := (s.th.x.set 6 x).set 7 y }

/-- A reference to l6 elements of the scratchpad. -/
def l6Ref : Ref := nearRef 2 0 ||| BitVec.ofNat 128 (14 * 2 ^ 84)

theorem witness_VectorTileFaults_vector : vecLoad (.vld 4 2 0 0 0) = some ⟨4, 2, 0, true, .x 0, rowAt 0 0⟩
    ∧ vecStore (.vst 4 2 0 0 0) = some ⟨4, 2, 0, true, .x 0, rowAt 0 0⟩ ∧ Readable (userRT l6Ref 2 0).th (.a 2)
    ∧ Source (userRT l6Ref 2 0).th (.x 6) ∧ CanHold (userRT l6Ref 2 0) 1 ∧ refFault (userRT (nearRef 7 0) 2 0).th.a[(2 : Ra)] true = some 0x07
    ∧ WellFormedRef (userRT l6Ref 2 0).th.a[(2 : Ra)] ∧ Ty.ofCode (refBits (userRT l6Ref 2 0).th.a[(2 : Ra)] 84 4) = some .l6
    ∧ vecLoad (.vlds 4 2 6 0 0) = some ⟨4, 2, 0, false, .x 6, strideAt 6 0⟩ ∧ regNum (userRT l6Ref 2 0).th (.x 6) % 4 ≠ 0 :=
  ⟨rfl, rfl, readable rfl rfl, source rfl rfl, canHold_of 1 (by decide +kernel), by decide +kernel, by unfold WellFormedRef; decide +kernel,
    by decide +kernel, rfl, by decide +kernel⟩

-- two elements are in the scratchpad, the third is not
theorem witness_VectorTileFaults_element : VecReady (userV (2 ^ 21 - 16)) ⟨4, 2, 1, true, .x 0, rowAt 0 0⟩ .i64
    ∧ Readable (userV (2 ^ 21 - 16)).th (.v 4) ∧ 2 < laneCount .i64 ∧ isActive .i64 (govern (userV (2 ^ 21 - 16)).th 1) 2 = true
    ∧ (∀ j, j < 2 → isActive .i64 (govern (userV (2 ^ 21 - 16)).th 1) j = true →
        ElementPasses (userV (2 ^ 21 - 16)) (userV (2 ^ 21 - 16)).th.a[(2 : Ra)]
          (rowAt 0 0 (userV (2 ^ 21 - 16)).th (userV (2 ^ 21 - 16)).th.a[(2 : Ra)] .i64 j) (elemBytes .i64) (elemAlign .i64) true (word j))
    ∧ ElementFault (userV (2 ^ 21 - 16)) (userV (2 ^ 21 - 16)).th.a[(2 : Ra)]
        (rowAt 0 0 (userV (2 ^ 21 - 16)).th (userV (2 ^ 21 - 16)).th.a[(2 : Ra)] .i64 2) (elemBytes .i64) (elemAlign .i64) true 0x06 none := by
  refine ⟨vecReady_userV _ (by unfold WellFormedRef; decide +kernel) (by decide +kernel), readable rfl rfl, by decide, by decide +kernel,
    fun j hj _ => ok_of ?_, .inr (.inr ⟨by decide +kernel, by decide +kernel, by decide +kernel,
      .inr ⟨by decide +kernel, rfl, .inl (.inl ⟨by decide +kernel, by decide +kernel, rfl⟩)⟩⟩)⟩
  obtain rfl | rfl : j = 0 ∨ j = 1 := by omega
  all_goals decide +kernel

-- a transposed block outside the global space; in the scratchpad a column origin, past the end, an odd place; the window
theorem witness_VectorTileFaults_spaces : tileAccess (.tld 3 2 false 6 7) = some (3, 2, false, 6, 7, false)
    ∧ tileAccess (.tst 1 2 true 6 7) = some (1, 2, true, 6, 7, true) ∧ Readable (userRT (nearRef 2 0) 0 1).th (.t 1)
    ∧ CanHold (userRT (nearRef 2 0) 0 1) 1 ∧ ¬TileRules (nearRef 2 0) .i8 true none ∧ TileRules (nearRef 2 0) .i8 false none
    ∧ spaceOf (nearRef 2 0) ≠ 0 ∧ isScaled (nearRef 2 0) = false ∧ xVal (userRT (nearRef 2 0) 0 1).th 7 ≠ 0
    ∧ SpaceFault (userRT (nearRef 2 0) 512 0) (nearRef 2 0) (refBits (nearRef 2 0) 0 44 + 4096 * xVal (userRT (nearRef 2 0) 512 0).th 6) 4096 false 0x06
    ∧ (∀ n, ¬SpaceFault (userRT (nearRef 2 64) 0 0) (nearRef 2 64) 64 4096 false n) ∧ 64 % 128 ≠ 0
    ∧ SpaceFault (userRT (nearRef 1 0) 0 0) (nearRef 1 0) 0 4096 true 0x09 := by
  refine ⟨rfl, rfl, readable rfl rfl, canHold_of 1 (by decide +kernel), fun h => absurd (h.1 rfl).2.2 (by decide +kernel),
    ⟨nofun, fun h => absurd h (by decide +kernel)⟩, by decide +kernel, by decide +kernel, by decide +kernel,
    .inl ⟨by decide +kernel, by decide +kernel, rfl⟩, fun n h => ?_, by decide, .inr (.inl ⟨by decide +kernel, rfl, by decide, by decide +kernel, rfl⟩)⟩
  have hs : spaceOf (nearRef 2 64) = 2 := by decide +kernel
  unfold SpaceFault at h
  rw [hs] at h
  have hn : ¬nearBytes (userRT (nearRef 2 64) 0 0) 2 < 64 + 4096 := by decide +kernel
  omega

/-- The thread with object 1 of a record and an entry, a reference in `a2`, and two `x` registers. -/
def userTO (o : ObjRec) (e : ResEntry) (r : Ref) (x y : Word) : State :=
  { userRT r x y with mem := (user.mem.writeList (0x10000 + 128) (leBytes 128 o.toNat)).writeList 0x20000 (leBytes 8 e.toNat) }

/-- The reference of 64-bit elements to object 1, and a scaled one of e4m3 in blocks of 32. -/
def gridRef : Ref := BitVec.ofNat 128 (2 ^ 96 + 3 * 2 ^ 84 + 2 ^ 44)
def scaledRef : Ref := BitVec.ofNat 128 (2 ^ 96 + 5 * 2 ^ 90 + 2 ^ 88 + 12 * 2 ^ 84 + 2 ^ 44)

theorem usable_grid {o : ObjRec} {e : ResEntry} {r : Ref} {x y : Word} {st : Bool} (h : (1 ≠ 0 ∧ 1 < 2 ^ ((contextOf (userTO o e r x y) (userTO o e r x y).th.gang).ortb.toNat % 2 ^ 6)
      ∧ (populated (recordAt (userTO o e r x y) 1) = true ∧ ∀ e' ∈ (userTO o e r x y).weak, e'.1 ≠ recordAt (userTO o e r x y) 1 / 256)
      ∧ o = ObjRec.ofNat (leNat ((userTO o e r x y).mem.readList (recordAt (userTO o e r x y) 1) 128)) ∧ o.valid = true ∧ o.gen ≠ 0)
    ∧ o.malformed = false ∧ 1 = o.gen ∧ o.wr = true ∧ o.rd = true ∧ o.enc = false ∧ o.se = false)
    (h' : refBits r 44 36 = 1 ∧ refBits r 96 32 = 1) : Usable (userTO o e r x y) r o st := by
  obtain ⟨h1, h2, h3, h4, h5, h6, h7⟩ := h
  unfold Usable Permits KeyOk KeyFits
  rw [h'.1, h'.2, h4, h5, h6, h7]
  exact ⟨h1, h2, h3, by cases st <;> rfl, (nomatch ·), (nomatch ·)⟩

-- no object 2; an unscaled object by a scaled reference; the block from row 1, whose row 31 lies outside; an origin inside a group
theorem witness_VectorTileFaults_object : TileRules gridRef .i64 false none ∧ TileRules scaledRef .e4m3 false none
    ∧ ObjectFault user (objectRef 2 1 0) false 0x08 (missOf (objectRef 2 1 0))
    ∧ Usable (userTO (gridRecord false) (anEntry 0x30) scaledRef 0 0) scaledRef (gridRecord false) false
    ∧ isScaled scaledRef = true ∧ ¬((gridRecord false).sk = 1 ∧ (gridRecord false).blog = blogOf scaledRef)
    ∧ Usable (userTO (gridRecord false) (anEntry 0x30) gridRef 1 0) gridRef (gridRecord false) false
    ∧ OutsideBlock (gridRecord false) false 1 0 31 0
    ∧ (∀ j' e', e' < Ty.i64.perRow → tileBefore j' e' 31 0 → ¬OutsideBlock (gridRecord false) false 1 0 j' e') := by
  refine ⟨⟨nofun, fun h => absurd h (by decide +kernel)⟩, ⟨nofun, fun _ => ⟨by decide +kernel, nofun⟩⟩,
    .inl ⟨⟨by decide +kernel, .inr (.inr (by decide +kernel))⟩, rfl, rfl⟩, usable_grid (by decide +kernel) (by decide +kernel), by decide +kernel,
    by decide +kernel, usable_grid (by decide +kernel) (by decide +kernel), .inl (by decide), fun j e he hb h => ?_⟩
  have he : e < 16 := he
  have h : 32 ≤ 1 + j ∨ 16 ≤ 0 + e := h
  unfold tileBefore at hb
  omega

/-- An object of l6 groups. -/
def l6Grid : ObjRec := { gridRecord false with tile := [32, 128, 0, 0], stride := [96, 3, 0, 0], ext := [64, 256, 0, 0], type := 14 }
def l6GridRef : Ref := BitVec.ofNat 128 (2 ^ 96 + 14 * 2 ^ 84 + 2 ^ 44)

theorem witness_VectorTileFaults_origin : Usable (userTO { l6Grid with stride := [192, 3, 0, 0] } (anEntry 0x30) l6GridRef 0 2) l6GridRef
      { l6Grid with stride := [192, 3, 0, 0] } false
    ∧ TileRules l6GridRef .l6 false none ∧ (∀ j e, j < 32 → e < Ty.l6.perRow → ¬OutsideBlock { l6Grid with stride := [192, 3, 0, 0] } false 0 2 j e)
    ∧ xVal (userTO { l6Grid with stride := [192, 3, 0, 0] } (anEntry 0x30) l6GridRef 0 2).th 7 % 4 ≠ 0 := by
  refine ⟨usable_grid (by decide +kernel) (by decide +kernel), ⟨nofun, fun h => absurd h (by decide +kernel)⟩, fun j e hj he h => ?_, by decide +kernel⟩
  have he : e < 128 := he
  have h : 64 ≤ 0 + j ∨ 256 ≤ 2 + e := h
  omega

-- the first element of a block whose storage is absent
theorem witness_VectorTileFaults_absent :
    (∀ j e, j < 32 → e < Ty.i64.perRow → ¬OutsideBlock (gridRecord false) false 0 0 j e)
    ∧ (∀ j' e', e' < rowCells .i64 → ¬tileBefore j' e' 0 0)
    ∧ ElementFault (userTO (gridRecord false) { anEntry 0x30 with valid := false } gridRef 0 0) gridRef
        (elementAt ⟨gridRef, .i64, isScaled gridRef, 0⟩ (gridRecord false) false 0 0 0 0 : Nat) (elemBytes .i64) (elemAlign .i64) false 0x0A
        (some { obj := 1, off := 0, gen := 1 }) := by
  refine ⟨fun j e hj he h => ?_, fun j e _ h => ?_, .inr (.inr ⟨by decide +kernel, by decide +kernel, by decide +kernel,
    .inl ⟨by decide +kernel, .inr ⟨gridRecord false, usable_grid (by decide +kernel) (by decide +kernel), .inr ⟨by unfold InShape; decide +kernel, .inr
      ⟨_, by decide +kernel, by unfold TableGood; decide +kernel, rfl, by decide +kernel, .inr (.inr (.inr ⟨by decide +kernel, rfl, by decide +kernel⟩))⟩⟩⟩⟩⟩)⟩
  · have he : e < 16 := he
    have h : 32 ≤ 0 + j ∨ 16 ≤ 0 + e := h
    omega
  · unfold tileBefore at h
    omega

-- an image at a place that is no multiple of 64, and one whose live tile 1 begins past the scratchpad
theorem witness_VectorTileFaults_image : refPlainFault (nearRef 7 0) = some 0x07 ∧ refPlainFault (nearRef 2 32) = none ∧ spaceOf (nearRef 2 32) ≠ 0
    ∧ (∀ n, ¬SpaceFault (userRT (nearRef 2 32) 0 0) (nearRef 2 32) (refBits (nearRef 2 32) 0 44) 64 true n)
    ∧ refBits (nearRef 2 32) 0 44 % 64 ≠ 0
    ∧ SpaceFault (userRT (nearRef 2 (2 ^ 21)) 0 0) (nearRef 2 (2 ^ 21)) (refBits (nearRef 2 (2 ^ 21)) 0 44) 64 true 0x06
    ∧ refBits (nearRef 2 (2 ^ 21 - 4672)) 0 44 % 64 = 0
    ∧ (∀ t ∈ named 0 2, Readable (userRT (nearRef 2 (2 ^ 21 - 4672)) 0 0).th (.t t)) ∧ (1 : Rt) ∈ named 0 2
    ∧ ((userRT (nearRef 2 (2 ^ 21 - 4672)) 0 0).th.t[(1 : Rt)]).isSome = true
    ∧ (∀ j', j' < 64 → ElementPasses (userRT (nearRef 2 (2 ^ 21 - 4672)) 0 0) (nearRef 2 (2 ^ 21 - 4672))
        (refBits (nearRef 2 (2 ^ 21 - 4672)) 0 44 + j' : Nat) 1 1 true 0)
    ∧ (∀ (t' : Rt) (j' : Nat), t' ∈ named 0 2 → ¬tileBefore t'.val j' (1 : Rt).val 0)
    ∧ PlaceFault (userRT (nearRef 2 (2 ^ 21 - 4672)) 0 0) (nearRef 2 (2 ^ 21 - 4672))
        (refBits (nearRef 2 (2 ^ 21 - 4672)) 0 44 + 64 + 4608 * ((1 : Rt).val % 8) + 0) 1 true 0x06 none := by
  refine ⟨by decide +kernel, by decide +kernel, by decide +kernel, fun n h => ?_, by decide +kernel, .inl ⟨by decide +kernel, by decide +kernel, rfl⟩,
    by decide +kernel, fun _ _ => readable rfl rfl, by decide +kernel, by decide +kernel, fun j' hj => ok_of ?_, fun t' j' ht h => ?_,
    .inr ⟨by decide +kernel, rfl, .inl (.inl ⟨by decide +kernel, by decide +kernel, rfl⟩)⟩⟩
  · have hs : spaceOf (nearRef 2 32) = 2 := by decide +kernel
    unfold SpaceFault at h
    rw [hs] at h
    have hn : ¬nearBytes (userRT (nearRef 2 32) 0 0) 2 < refBits (nearRef 2 32) 0 44 + 64 := by decide +kernel
    omega
  · have h : ∀ j', j' < 64 → (elemUnit (userRT (nearRef 2 (2 ^ 21 - 4672)) 0 0) (whoTh (userRT (nearRef 2 (2 ^ 21 - 4672)) 0 0))
        (openRef (userRT (nearRef 2 (2 ^ 21 - 4672)) 0 0) (whoTh (userRT (nearRef 2 (2 ^ 21 - 4672)) 0 0)) (nearRef 2 (2 ^ 21 - 4672)) (accOf true))
        (nearRef 2 (2 ^ 21 - 4672)) (refBits (nearRef 2 (2 ^ 21 - 4672)) 0 44 + j' : Nat) 1 1 (accOf true) 0).toBool = true := by decide +kernel
    exact h j' hj
  · have h1 : ∀ t ∈ named 0 2, t = 1 := by decide +kernel
    rw [h1 t' ht] at h
    unfold tileBefore at h
    omega

/-- Engine 0 joined with engine 1, a tile from position 1 taken, and an effect due at core 0. -/
def userRingHeld (e : HeldEffect) : State :=
  let s := userRing (some ⟨0, 3⟩) 1 [slotTile] 3
  atCycle 128 ((s.setEngine 0 { s.engine 0 with ring := some ⟨0, 3⟩ }).setCore 0 { Core.zero with hold := [entryOf 3 0 e] })

theorem witness_RingInstructions_releases :
    AtHead (userRingHeld (.ringSend 0 slotTile.img)) 0 (entryOf 3 0 (.ringSend 0 slotTile.img)) []
    ∧ ((userRingHeld (.ringSend 0 slotTile.img)).engine 0).ring = some ⟨0, 3⟩ ∧ NextSet 3 (0 % 16) 1
    ∧ AtHead (userRingHeld (.ringCredit 0 4)) 0 (entryOf 3 0 (.ringCredit 0 4)) []
    ∧ ((userRingHeld (.ringCredit 0 4)).engine 0).slots.find? (fun k => k.num == 4) = some slotTile ∧ slotTile.sender < 16
    ∧ slotTile.sender ≠ 0 % 16 ∧ AtHead (userRingHeld (.ringJoin 0 (some ⟨0, 3⟩))) 0 (entryOf 3 0 (.ringJoin 0 (some ⟨0, 3⟩))) []
    ∧ AtHead (userRingHeld (.ringJoin 0 none)) 0 (entryOf 3 0 (.ringJoin 0 none)) [] :=
  ⟨atHead_of rfl (due_alone (by decide +kernel)) (by decide +kernel), by decide +kernel, ⟨1, by decide, by decide, rfl, by decide, fun f h h' => by omega⟩,
    atHead_of rfl (due_alone (by decide +kernel)) (by decide +kernel), by decide +kernel, by decide, by decide,
    atHead_of rfl (due_alone (by decide +kernel)) (by decide +kernel), atHead_of rfl (due_alone (by decide +kernel)) (by decide +kernel)⟩

-- the entry waits for its own quad's younger write of byte 5
theorem witness_FenceResult_visible : ((((userHeld [entryOf 5 3 (.store [])] 0 0).setQuad 0 { Quad.zero with journal := [⟨0, 3, quadBase 0 + 5, 7⟩] }).core 0).hold
      = [entryOf 5 3 (.store [])]) ∧ (entryOf 5 3 (.store [])).after ≠ 0
    ∧ ¬OwnVisible ((userHeld [entryOf 5 3 (.store [])] 0 0).setQuad 0 { Quad.zero with journal := [⟨0, 3, quadBase 0 + 5, 7⟩] }) (0 / 4) 5 := by
  refine ⟨by decide +kernel, by decide, fun h => ?_⟩
  exact absurd (h.1 ⟨0, 3, quadBase 0 + 5, 7⟩ (by decide +kernel)) (by decide +kernel)

theorem witness_CopyInstructions_reference : ModeOk (userCopy (nearRef 7 0) (nearRef 2 0) 0 64).th ∧ copyKind (userCopy (nearRef 7 0) (nearRef 2 0) 0 64).th ≠ 4
    ∧ CopyRefFault (userCopy (nearRef 7 0) (nearRef 2 0) 0 64) (nearRef 7 0) false 0x07 0 none
    ∧ Launchable (userCopy (nearRef 2 0) (objectRef 2 1 8) 0 64) (nearRef 2 0) .load
    ∧ CopyRefFault (userCopy (nearRef 2 0) (objectRef 2 1 8) 0 64) (objectRef 2 1 8) true 0x08 8 (missOf (objectRef 2 1 8)) :=
  ⟨modeOk_of (by decide +kernel), by decide +kernel, .inl ⟨by decide +kernel, rfl, rfl⟩, launchable_of (wellFormed_near 2 0 (by decide)) (by decide +kernel),
    .inr ⟨by unfold WellFormedRef; decide +kernel, by decide +kernel, by decide +kernel, .inl ⟨⟨by decide +kernel, .inr (.inr (by decide +kernel))⟩, rfl, rfl⟩⟩⟩

theorem witness_CopyInstructions_releases : AtHead (userHead' (.launch (aTransfer 5))) 0 (entryOf 3 0 (.launch (aTransfer 5))) []
    ∧ AtHead ((userHead' (.cancel user.th.born 5)).setSect 0 { Section.zero with transfers := [aTransfer 5] }) 0 (entryOf 3 0 (.cancel user.th.born 5)) []
    ∧ (((userHead' (.cancel user.th.born 5)).setSect 0 { Section.zero with transfers := [aTransfer 5] }).sect 0).transfers[0]? = some (aTransfer 5)
    ∧ (aTransfer 5).owner = user.th.born ∧ (aTransfer 5).handle = 5 ∧ (aTransfer 5).state = 0 :=
  ⟨atHead_userHead _ rfl, atHead_of rfl (due_alone (by decide +kernel)) (by decide +kernel), by decide +kernel, rfl, rfl, rfl⟩

/-- A task that waits on gate 3. -/
def aTask : Task := { control := word (3 * 2 ^ 20 + 7 * 2 ^ 32), payload := 9, feat := 0, eligible := false, scope := .die, age := 0 }

/-- Thread 0's gang with tasks in its die's queue, and an effect due at core 0; the thread has a task that ends gate 7. -/
def userQueue (ts : List Task) (e : HeldEffect) : State :=
  let s := (userHead' e).setGang 1 { gangOf [0] with queues := [(0, DieQueue.mk ts 0)] }
  s.setTh { s.th with task := some ⟨0, 7⟩ }

theorem witness_TaskInstructions_releases :
    AtHead (userQueue [] (.spawn 0 aTask)) 0 (entryOf 3 0 (.spawn 0 aTask)) []
    ∧ (userQueue [] (.spawn 0 aTask)).gangs.get? ((userQueue [] (.spawn 0 aTask)).thread 0).gang
        = some { gangOf [0] with queues := [(0, DieQueue.mk [] 0)] }
    ∧ (({ gangOf [0] with queues := [(0, DieQueue.mk [] 0)] } : Gang).queue 0).tasks.length < 1024
    ∧ AtHead (userQueue [aTask] (.gatedec 3 1 .die)) 0 (entryOf 3 0 (.gatedec 3 1 .die)) []
    ∧ AtHead (userQueue [aTask] .tqdone) 0 (entryOf 3 0 .tqdone) [] ∧ ((userQueue [aTask] .tqdone).thread 0).task = some ⟨0, 7⟩
    ∧ AtHead (userHead' .tqdone) 0 (entryOf 3 0 .tqdone) [] ∧ ((userHead' .tqdone).thread 0).task = none
    ∧ AtHead (userQueue [{ aTask with eligible := true }] (.tqget 5)) 0 (entryOf 3 0 (.tqget 5)) []
    ∧ AtHead (userQueue [aTask] (.tqget 5)) 0 (entryOf 3 0 (.tqget 5)) [] :=
  ⟨atHead_of rfl (due_alone (by decide +kernel)) (by decide +kernel), by decide +kernel, by decide +kernel,
    atHead_of rfl (due_alone (by decide +kernel)) (by decide +kernel), atHead_of rfl (due_alone (by decide +kernel)) (by decide +kernel), by decide +kernel,
    atHead_userHead _ rfl, by decide +kernel, atHead_of rfl (due_alone (by decide +kernel)) (by decide +kernel),
    atHead_of rfl (due_alone (by decide +kernel)) (by decide +kernel)⟩

theorem takeable_only {q : DieQueue} {k : Task} (hq : q.tasks = [k]) {core i : Nat} {l : Task} (h : TakeableAt q core i l) : i = 0 ∧ l = k := by
  obtain ⟨h, -⟩ := h
  rw [hq] at h
  cases i with
  | zero => exact ⟨rfl, (Option.some.inj h).symm⟩
  | succ i => cases h

-- the selection of the only eligible task; a queue without one; a full queue
theorem witness_TaskInstructions_selects : Selects (DieQueue.mk [{ aTask with eligible := true }] 0) 0 0 { aTask with eligible := true }
    ∧ (∀ i k, ¬TakeableAt (DieQueue.mk [aTask] 0) 0 i k) ∧ 1024 ≤ (List.replicate 1024 aTask).length := by
  refine ⟨⟨⟨rfl, rfl, .inl (by decide)⟩, ?_⟩, fun i k h => ?_, by rw [List.length_replicate]⟩
  · rw [if_neg (by decide)]
    intro j l h
    obtain ⟨rfl, rfl⟩ := takeable_only rfl h
    exact .inr ⟨rfl, Nat.le_refl 0⟩
  · obtain ⟨-, rfl⟩ := takeable_only rfl h
    exact absurd h.2.1 (by decide)

/-- A message of kind 0 from rank 0 of gang 1, whose thread is thread 0, to rank 2, whose thread is 8. -/
def dataMessage : Message :=
  { header := word (2 ^ 63 + 5), payload := 0, sender := .member 1 0, scope := .package, outside := true, seq := 0, born := user.th.born }

/-- It waits, due, in core 0's hold buffer; the receiver is as given. -/
def userMessage (t : Thread) : State := ((userHead' (.message ⟨1, 2, dataMessage⟩)).setGang 1 (gangOf [0, 4])).setThread 8 t

theorem witness_HoldEvents_message : AtHead (userMessage { Thread.zero with run := .running }) 0 (entryOf 3 0 (.message ⟨1, 2, dataMessage⟩)) []
    ∧ (userMessage { Thread.zero with run := .running }).gangs.get? 1 = some (gangOf [0, 4]) ∧ (gangOf [0, 4]).cores[2 / 2]? = some 4 ∧ 8 = 2 * 4 + 2 % 2
    ∧ Alive (userMessage { Thread.zero with run := .running }) 8 ∧ RoomInInbox (userMessage { Thread.zero with run := .running }) 1 8 :=
  ⟨atHead_of rfl (due_alone (by decide +kernel)) (by decide +kernel), by decide +kernel, rfl, by decide, by unfold Alive; decide +kernel, by
    unfold RoomInInbox; decide +kernel⟩

/-- A receiver with a full inbox, and its overflow queue of a length. -/
def fullThread (n : Nat) : Thread := { Thread.zero with run := .running, inbox := List.replicate 16 aMessage, overflow := List.replicate n aMessage }

theorem witness_HoldEvents_overflow : Alive (userMessage (fullThread 255)) 8 ∧ ¬RoomInInbox (userMessage (fullThread 255)) 1 8
    ∧ ((userMessage (fullThread 255)).thread 8).overflow.length < 256 ∧ ((userMessage (fullThread 255)).thread 8).spill = []
    ∧ 256 ≤ ((userMessage (fullThread 256)).thread 8).overflow.length ∧ ¬RoomInInbox (userMessage (fullThread 256)) 1 8 := by
  unfold Alive RoomInInbox
  decide +kernel

theorem witness_HoldEvents_dead : ¬Alive (userMessage Thread.zero) 8 ∧ dataMessage.header.toNat / 2 ^ 60 % 8 < 2
    ∧ dataMessage.sender = .member 1 0 ∧ (gangOf [0, 4]).cores[0 / 2]? = some 0 ∧ Alive (userMessage Thread.zero) 0
    ∧ ((userMessage Thread.zero).thread 0).born = dataMessage.born ∧ RoomInInbox (userMessage Thread.zero) 1 0 := by
  unfold Alive RoomInInbox
  decide +kernel

/-- A start message that is due at core 0, which holds the threads given; its gang's queue holds others. -/
def userStart (t : Thread) (l : List StartMsg) : State :=
  ((userHead' (.start aStart)).setGang 1 { gangOf [0] with starts := [(0, l)] }).setThread 1 t

theorem witness_HoldEvents_start : AtHead (userStart Thread.zero []) 0 (entryOf 3 0 (.start aStart)) []
    ∧ (userStart Thread.zero []).gangs.get? 1 = some { gangOf [0] with starts := [(0, [])] }
    ∧ (gangOf [0]).closing = none ∧ (gangOf [0]).switching = false ∧ (gangOf [0]).cores[aStart.pos]? = some 0
    ∧ (Table.get? [(0, ([] : List StartMsg))] aStart.pos).getD [] = []
    ∧ SlotFree (userStart Thread.zero []) 0 1 ∧ ∀ j, j < 1 → ¬SlotFree (userStart Thread.zero []) 0 j := by
  refine ⟨atHead_of rfl (due_alone (by decide +kernel)) (by decide +kernel), by decide +kernel, rfl, rfl, rfl, rfl, ?_, ?_⟩
  all_goals unfold SlotFree Alive; decide +kernel

theorem witness_HoldEvents_queue : (∀ j, j < 2 → ¬SlotFree (userStart { Thread.zero with run := .running } []) 0 j)
    ∧ 32 ≤ ((Table.get? [(0, List.replicate 32 aStart)] aStart.pos).getD []).length := by
  unfold SlotFree Alive
  decide +kernel

theorem witness_HoldEvents_registers : ((aReply false).writes.map (·.1)).Nodup ∧ (∀ e ∈ (aReply false).writes, ∀ d, e.1 ≠ .t d)
    ∧ (∃ e ∈ (userReply false).th.pend, e.2 = (aReply false).seq)
    ∧ ∀ e ∈ (aReply false).writes, e.1 ≠ .x 0 → (e.1, (aReply false).seq) ∈ (userReply false).th.pend := by
  refine ⟨by decide +kernel, fun e he d h => ?_, by decide +kernel, by decide +kernel⟩
  obtain rfl := List.mem_singleton.mp he
  cases h

/-- A reply that holds a live tile of zeros for `t3`. -/
def tileReply : Reply := { aReply false with writes := [(.t 3, 2 ^ liveAt)] }

def userTileReply : State :=
  (user.setTh { user.th with pend := [(.t 3, 3)] }).setCore 0 { Core.zero with replies := [tileReply] }

theorem witness_HoldEvents_tile : (userTileReply.core 0).replies = [tileReply] ∧ tileReply.tid = userTileReply.tid ∧ tileReply.written = none
    ∧ (userTileReply.quad (0 / 4)).phase = .idle ∧ (DestReg.t 3, tileReply.seq) ∈ userTileReply.th.pend
    ∧ tileReply.poisoned = false ∧ (2 ^ liveAt).testBit liveAt = true ∧ TileFree userTileReply 3 :=
  ⟨by decide +kernel, by decide +kernel, rfl, by decide +kernel, by decide +kernel, rfl, Nat.testBit_two_pow_self, tileFree_of (by decide +kernel)⟩

-- a report during a recall, toward a split that is there, and toward none; one while the quad is about to go on
theorem witness_RecallEvents_second : ((userPhaseQ (.draining 32 30) [] []).quad 0).phase = .draining 32 30
    ∧ Target ((userPhaseQ (.draining 32 30) [] []).quad 0) 40 32 ∧ ((userPhaseQ (.sealing 32 53) [] []).quad 0).phase = .sealing 32 53
    ∧ (∀ p ∈ ((userPhaseQ (.sealing 32 53) [] []).quad 0).splits, 39 < p.cycle + 8)
    ∧ ((userPhaseQ (.resuming 32 61) [] []).quad 0).phase = .resuming 32 61 ∧ Target ((userPhaseQ (.resuming 32 61) [] []).quad 0) 40 32 := by
  unfold Target
  decide +kernel

/-- An atomic from outside that waits for bytes 0 to 7 of the scratchpad. -/
def aWaitingAmo : OutsideWrite :=
  { aWrite with kind := 1, effect := .amo .add ((List.range 8).map fun i =>
      { key := quadBase 0 + i, crypt := none, dmg := false, space := 4, obj := 0, off := i }) true 5 0 5 }

theorem witness_RecallEvents_waiting : MemoryOk (userPhaseQ .idle [] [aWrite]) ∧ aWrite.copy = none
    ∧ (∀ l ∈ aWrite.effect.locs, youngWrite (userPhaseQ .idle [] [aWrite]) l.key = false ∧ l.crypt = none
        ∧ Clean (userPhaseQ .idle [] [aWrite]) l.key 1 ∧ homeQuad? l.key = some 0)
    ∧ ((userPhaseQ .idle [] [aWaitingAmo]).quad 0).outside = [aWaitingAmo] ∧ MemoryOk (userPhaseQ .idle [] [aWaitingAmo])
    ∧ (∀ l ∈ aWaitingAmo.effect.locs, youngWrite (userPhaseQ .idle [] [aWaitingAmo]) l.key = false ∧ l.crypt = none
        ∧ Clean (userPhaseQ .idle [] [aWaitingAmo]) l.key 1 ∧ homeQuad? l.key = some 0)
    ∧ ((userPhaseQ .idle [] [aWaitingAmo]).sect (aWaitingAmo.tid / 64)).heatBuf = [] ∧ aWaitingAmo.tid < 4096 := by
  unfold MemoryOk Clean
  decide +kernel

theorem witness_ThreadAndCopyEvents_bytes : MemoryOk (userMoves 0) ∧ heatOf (userMoves 0) (aTransfer 5).gang = false ∧ (aTransfer 5).snap = none
    ∧ PlainUnits (userMoves 0) (planUnits (userMoves 0) { aTransfer 5 with len := 4, state := 1, done := 0 }
        ({ aTransfer 5 with len := 4, state := 1, done := 0 } : Transfer).part).1 := by
  unfold MemoryOk PlainUnits Clean
  decide +kernel

theorem witness_ThreadAndCopyEvents_plan : ∃ us e, planUnits (userMoves 0) { aTransfer 5 with len := 4, state := 1, done := 0 }
      ({ aTransfer 5 with len := 4, state := 1, done := 0 } : Transfer).part = (us, none) ∧ us[0]? = some e
    ∧ 0 < ({ aTransfer 5 with len := 4, state := 1, done := 0 } : Transfer).total ∧ (aTransfer 5).kind ≤ 4 := by
  obtain ⟨us, h, hn⟩ := moves_of (s := userMoves 0) (t := { aTransfer 5 with len := 4, state := 1, done := 0 }) (by decide +kernel)
  cases us with
  | nil => exact absurd rfl hn
  | cons e r => exact ⟨_, e, h, rfl, by decide, by decide⟩

-- an accumulator that holds 1.0
theorem witness_ThreadAndCopyEvents_final : (2 ^ 160 : Int) = sgn 320 (leNat ((leBytes 40 (2 ^ 160) ++ List.replicate 8 (0 : Byte)).take 40))
    ∧ leNat ((leBytes 40 (2 ^ 160) ++ List.replicate 8 (0 : Byte)).drop 40) = 0 ∧ (2 ^ 160 : Int) ≠ 0 := by
  decide +kernel

theorem witness_ThreadAndCopyEvents_entry : (0 : Nat) / 2 ^ 44 % 2 ^ 4 = 0 ∧ (0 : Nat) / 2 ^ 56 = 0
    ∧ 0 = ((gangOf [0]).entries.getD aStart.entry 0).toNat := by decide +kernel

/-! Teardowns, fences and the pod -/

theorem hears {s : State} (h : s.unsent.isEmpty = true) : HostHears s := fun e he => by
  rw [List.isEmpty_iff.mp h] at he
  cases he

-- a resident gang of one core with nothing held, and with an effect held
theorem witness_RequestEvents_resident : (request [1]).sender = .host ∧ Answering (userReq (gangOf [0]))
    ∧ (userReq (gangOf [0])).gangs.get? (req (request [1]) 0) = some (gangOf [0])
    ∧ (gangOf [0]).loading = none ∧ (gangOf [0]).closing = none ∧ (gangOf [0]).resident = true
    ∧ (∀ c ∈ (gangOf [0]).cores, ((userReq (gangOf [0])).quad (c / 4)).phase ≠ .lost)
    ∧ (∀ c ∈ (gangOf [0]).cores, ((userReq (gangOf [0])).core c).hold = [])
    ∧ (∀ e ∈ (userReq (gangOf [0])).quads, ∀ o ∈ e.2.outside, o.gang ≠ req (request [1]) 0)
    ∧ (∀ e ∈ (userReq (gangOf [0])).sections, ∀ x ∈ e.2.transfers, x.gang ≠ req (request [1]) 0)
    ∧ Answering ((userHeld [entryOf 3 0 .trap] 0 0).setGang 1 (gangOf [0]))
    ∧ (∃ c ∈ (gangOf [0]).cores, (((userHeld [entryOf 3 0 .trap] 0 0).setGang 1 (gangOf [0])).core c).hold ≠ []) :=
  ⟨rfl, answering_of (by decide +kernel), by decide +kernel, rfl, rfl, rfl, by decide +kernel, by decide +kernel, by decide +kernel,
    by decide +kernel, answering_of (by decide +kernel), by decide +kernel⟩

/-- The thread's machine with one gang, the thread's own. -/
def userOnly (g : Gang) : State := { user with gangs := [(1, g)] }

-- core 4 of the gang is free; a gang of core 0 alone has no free core
theorem witness_GangEvents_fenceCore : (userOnly (gangOf [0, 4])).gangs = [(1, gangOf [0, 4])] ∧ (gangOf [0, 4]).resident = true
    ∧ (gangOf [0, 4]).switching = false ∧ (gangOf [0, 4]).heatMode = false ∧ (gangOf [0, 4]).moves = [] ∧ 0 ∈ (gangOf [0, 4]).cores
    ∧ (gangOf [0, 4]).cores.Nodup ∧ coreFree (userOnly (gangOf [0, 4])) 0 = false
    ∧ (∀ d ∈ (gangOf [0, 4]).cores, fencedCore (userOnly (gangOf [0, 4])) d = true → coreFree (userOnly (gangOf [0, 4])) d = true)
    ∧ (∃ d ∈ (gangOf [0, 4]).cores, d ≠ 0 ∧ coreFree (userOnly (gangOf [0, 4])) d = true ∧ fencedCore (userOnly (gangOf [0, 4])) d = false)
    ∧ coreFree (userOnly (gangOf [0])) 0 = false
    ∧ (∀ d ∈ (gangOf [0]).cores, fencedCore (userOnly (gangOf [0])) d = true → coreFree (userOnly (gangOf [0])) d = true)
    ∧ (∀ d ∈ (gangOf [0]).cores, d ≠ 0 → coreFree (userOnly (gangOf [0])) d = false ∨ fencedCore (userOnly (gangOf [0])) d = true) := by
  decide +kernel

/-- No gang, and a transfer under way on engine 0 of section 0. -/
def userCopies : State := { userBare.setSect 0 { Section.zero with transfers := [{ aTransfer 5 with state := 1 }] } with gangs := [] }

theorem witness_GangEvents_fenceEngine : HostHears userCopies ∧ userCopies.gangs = []
    ∧ { aTransfer 5 with state := 1 } ∈ (userCopies.sect 0).transfers ∧ (aTransfer 5).eng = 0 :=
  ⟨hears (by decide +kernel), rfl, by decide +kernel, rfl⟩

theorem witness_CallEvents_unserviceable_tag : HostHears (userService 0x08 0 none 0) ∧ ((userService 0x08 0 none 0).thread 0).run = .service
    ∧ 0x08 = ((userService 0x08 0 none 0).thread 0).fcause.toNat % 2 ^ 8 ∧ (0x08 : Nat) ∉ [0x03, 0x0A, 0x0B, 0x0F, 0x10, 0x11, 0x13]
    ∧ (userService 0x08 0 none 0).rebuilds = []
    ∧ (userService 0x08 0 none 0).gangs.get? ((userService 0x08 0 none 0).thread 0).gang = some (gangOf [0, 1]) :=
  ⟨hears (by decide +kernel), by decide +kernel, by decide +kernel, by decide, by decide +kernel, by decide +kernel⟩

/-- A byte of another package's memory, and a held store of it, due. -/
def farByte : WByte := { loc := { imageLoc 0 with key := 2 ^ 46 }, val := 7, mask := 0xFF }

def remoteStore : HoldEntry := entryOf 3 0 (.store [[farByte]])

theorem witness_PodEvents_write : lateHead (userLate [remoteStore]) 0 = some remoteStore ∧ remoteStore.effect = .store [[farByte]]
    ∧ (∃ b ∈ [farByte], remote (userLate [remoteStore]) b.loc = true) ∧ (∀ b ∈ [farByte], b.loc.key / 256 = 2 ^ 38) := by
  decide +kernel

theorem witness_PodEvents_routes : HostHears { userOnly (gangOf [0]) with rerouting := [5] }
    ∧ (1, gangOf [0]) ∈ ({ userOnly (gangOf [0]) with rerouting := [5] } : State).gangs ∧ (gangOf [0]).resident = true
    ∧ (∃ c ∈ (gangOf [0]).cores, c < 2048) :=
  ⟨hears (by decide +kernel), by decide +kernel, rfl, ⟨0, by decide, by decide⟩⟩

theorem witness_PodEvents_hostPlain : (userRegion (aRegion true false false) []).weak = []
    ∧ (∀ j, j < 8 → (storedLoc (userRegion (aRegion true false false) []) (0x40000 + j)).crypt = none) := by
  decide +kernel

-- quad 1, in which no thread runs
theorem witness_PrivilegedUnits_scrubQuad : 0x1001 / 2 ^ 16 = 0 ∧ 0x1001 % 2 ^ 12 < scrubUnits (0x1001 / 2 ^ 12)
    ∧ ¬ScrubBusy (svc user.th 0x1001) (0x1001 / 2 ^ 12) (0x1001 % 2 ^ 12) ∧ (0x1001 / 2 ^ 12 = 1) := by
  refine ⟨by decide, by decide, ?_, by decide⟩
  unfold ScrubBusy; decide +kernel

/-! The whole machine -/

theorem witness_StepKeepsMemory : ∃ t, MemoryOk user ∧ step user = .next t := by
  obtain ⟨t, h⟩ := next_of (o := step user) (by decide +kernel)
  exact ⟨t, by unfold MemoryOk; decide +kernel, h⟩

theorem witness_DecodeOfEncode : (Instr.add 5 6 7 false).wf = true ∧ ¬Wordless (.add 5 6 7 false) ∧ encode (.add 5 6 7 false) = some 0x04A63800
    ∧ decode 0x04A63800 = .ok (.add 5 6 7 false) :=
  ⟨by decide, id, by decide +kernel, by decide +kernel⟩

/-- The thread with another word at its pc. -/
def userWord (w : Nat) : State := State.reset.withProgram w

/-- The thread at a pc beyond its code object. -/
def userBeyond : State := user.setTh { user.th with pc := 8192 }

/-- What a fetch comes to, as a fault record. -/
def fetchTrap (s : State) : Option Trap :=
  match fetchBytes s with
  | .error (.trap k) => some k
  | _ => none

theorem fetchTrap_of {s : State} {k : Trap} (h : fetchTrap s = some k) : fetchBytes s = .error (.trap k) := by
  unfold fetchTrap at h
  split at h
  · next k' h' => cases h; exact h'
  · cases h

theorem fetch_of {s : State} {bs : List Byte} (h : (match fetchBytes s with
    | .ok b => decide (b = bs)
    | .error _ => false) = true) : fetchBytes s = .ok bs := by
  split at h
  · next b h' => rw [h', of_decide_eq_true h]
  · cases h

theorem witness_StepRunsDecoded_runs : dueSplit user = none ∧ user.dueInput = none ∧ runDue user = none ∧ runs user user.tid = true
    ∧ user.th.wait = .none ∧ user.th.entryBad = false ∧ user.th.stepDue = false ∧ fetchBytes user = .ok [0x00, 0x38, 0xA6, 0x04] ∧ decodeBytes [0x00, 0x38, 0xA6, 0x04] = .ok (.add 5 6 7 false) :=
  ⟨by decide +kernel, by decide +kernel, by decide +kernel, by decide +kernel, by decide +kernel, by decide +kernel, by decide +kernel, fetch_of (by decide +kernel), by decide +kernel⟩

theorem witness_StepRunsDecoded_undefined : dueSplit (userWord 0) = none ∧ (userWord 0).dueInput = none ∧ runDue (userWord 0) = none
    ∧ runs (userWord 0) (userWord 0).tid = true ∧ (userWord 0).th.wait = .none ∧ (userWord 0).th.entryBad = false ∧ (userWord 0).th.stepDue = false ∧ fetchBytes (userWord 0) = .ok [0, 0, 0, 0]
    ∧ decodeBytes [0, 0, 0, 0] = .error .undefinedInstruction :=
  ⟨by decide +kernel, by decide +kernel, by decide +kernel, by decide +kernel, by decide +kernel, by decide +kernel, by decide +kernel, fetch_of (by decide +kernel), by decide +kernel⟩

-- `fence.sect` with order 0
theorem witness_StepRunsDecoded_reserved : dueSplit (userWord 0x64000040) = none ∧ (userWord 0x64000040).dueInput = none
    ∧ runDue (userWord 0x64000040) = none ∧ runs (userWord 0x64000040) (userWord 0x64000040).tid = true
    ∧ (userWord 0x64000040).th.wait = .none ∧ (userWord 0x64000040).th.entryBad = false
    ∧ (userWord 0x64000040).th.stepDue = false ∧ fetchBytes (userWord 0x64000040) = .ok [0x40, 0, 0, 0x64]
    ∧ decodeBytes [0x40, 0, 0, 0x64] = .error .reservedOperand ∧ CanHold (userWord 0x64000040) 1 :=
  ⟨by decide +kernel, by decide +kernel, by decide +kernel, by decide +kernel, by decide +kernel, by decide +kernel, by decide +kernel, fetch_of (by decide +kernel), by decide +kernel,
    canHold_of 1 (by decide +kernel)⟩

theorem witness_StepRunsDecoded_fetch : ∃ k, dueSplit userBeyond = none ∧ userBeyond.dueInput = none ∧ runDue userBeyond = none
    ∧ runs userBeyond userBeyond.tid = true ∧ userBeyond.th.wait = .none ∧ userBeyond.th.entryBad = false ∧ userBeyond.th.stepDue = false ∧ fetchBytes userBeyond = .error (.trap k) ∧ CanHold userBeyond 1 := by
  obtain ⟨k, hk⟩ := Option.isSome_iff_exists.mp (show (fetchTrap userBeyond).isSome = true by decide +kernel)
  exact ⟨k, by decide +kernel, by decide +kernel, by decide +kernel, by decide +kernel, by decide +kernel, by decide +kernel, by decide +kernel, fetchTrap_of hk,
    canHold_of 1 (by decide +kernel)⟩

theorem witness_StepRunsDecoded_stepDue : dueSplit (user.setTh { user.th with stepDue := true }) = none
    ∧ (user.setTh { user.th with stepDue := true }).dueInput = none ∧ runDue (user.setTh { user.th with stepDue := true }) = none
    ∧ runs (user.setTh { user.th with stepDue := true }) 0 = true ∧ CanHold (user.setTh { user.th with stepDue := true }) 1 :=
  ⟨by decide +kernel, by decide +kernel, by decide +kernel, by decide +kernel, canHold_of 1 (by decide +kernel)⟩

/-- The thread after a hurdle that is complete, and the thread when it is stopped. -/
def userWoken : State :=
  let s := userGang { gangOf [0] with threads := 1 } 0 0
  let s := s.setTh { s.th with counts := s.th.counts.set 1 1, signalled := s.th.signalled.set 1 1, wait := .hurdle 0 .quad 1 .plain }
  match execHurdleCompletion 1 0 .quad 0 s with
  | .next u => u
  | _ => s

def userIdle : State := user.setTh { user.th with run := .stopped }

theorem witness_StepRunsDecoded_entryBad : dueSplit (user.setTh { user.th with entryBad := true }) = none
    ∧ (user.setTh { user.th with entryBad := true }).dueInput = none ∧ runDue (user.setTh { user.th with entryBad := true }) = none
    ∧ runs (user.setTh { user.th with entryBad := true }) 0 = true ∧ (user.setTh { user.th with entryBad := true }).th.wait = .none
    ∧ CanHold (user.setTh { user.th with entryBad := true }) 1 :=
  ⟨by decide +kernel, by decide +kernel, by decide +kernel, by decide +kernel, by decide +kernel, canHold_of 1 (by decide +kernel)⟩

-- a thread whose `mwait` is over, in its turn; a thread that is stopped
theorem witness_StepRunsDecoded_wait : dueSplit userWoken = none ∧ userWoken.dueInput = none ∧ runDue userWoken = none
    ∧ runs userWoken userWoken.tid = true ∧ userWoken.th.wait ≠ .none := by
  decide +kernel

theorem witness_StepRunsDecoded_idle : dueSplit userIdle = none ∧ userIdle.dueInput = none ∧ runDue userIdle = none
    ∧ runs userIdle userIdle.tid = false := by
  decide +kernel

end Sys2Proof.Tests
end

section
/-! SUPPORT. The faults of the vector instructions (02 R54, R56; 03 R82 step 5; 05 R124): what each shape of instruction
raises, on the machine and in the claims' terms, and the two faults that end it. -/

namespace Sys2Proof.Machine
open Sys2Proof.Safety Sys2Proof.Claims

/-! ### The model's elements and predicates in the claims' terms (R120, R121) -/

theorem lanes_eq_laneCount (t : Ty) : t.lanes = laneCount t := by cases t <;> rfl

theorem bitAt_eq_getLsbD {n : Nat} (v : BitVec n) (i : Nat) : bitAt v i = v.getLsbD i := rfl

theorem rg_eq_govern (t : Thread) (g : Rg) : t.rg g = govern t g := rfl

/-! ### The flags of several elements (R54, R55) -/

/-- Lanes that raise nothing where their predicate is false. -/
theorem gather_merged (n : Nat) (on : Nat → Bool) (f : Nat → Nat × Flags) (old : Nat → Nat) :
    gather ((List.range n).map fun e => if on e then f e else (old e, 0)) = allFlags n on fun e => (f e).2 := by
  rw [gather, List.foldl_map, allFlags]
  congr 1
  funext acc e
  cases on e <;> simp

/-- Lanes taken only where their predicate is true. -/
theorem gather_filtered (n : Nat) (on : Nat → Bool) (f : Nat → Nat × Flags) :
    gather (((List.range n).filter on).map f) = allFlags n on fun e => (f e).2 := by
  rw [gather, List.foldl_map, List.foldl_filter, allFlags]

theorem mapLanes_flags (t : Ty) (g : PReg) (old : VReg) (f : Nat → Nat × Flags) :
    (mapLanes t g old f).2 = allFlags (laneCount t) (isActive t g) fun e => (f e).2 :=
  lanes_eq_laneCount t ▸ gather_merged _ _ _ _

theorem allFlags_zero (n : Nat) (on : Nat → Bool) : allFlags n on (fun _ => 0) = 0 := by
  simp [allFlags]

theorem enables_eq_enabled (t : Thread) : enables t.fcsr = enabled t := by
  apply BitVec.eq_of_toNat_eq
  simp [enables, enabled, bits, field, Nat.shiftRight_eq_div_pow]

/-- An enabled flag makes a numeric fault with the raised flags in `finfo` (R54, R56). -/
theorem raiseFlags_trap {s : State} {f : Flags} (h : f &&& enabled s.th ≠ 0) :
    raiseFlags s f = .error (.trap { cause := 0x0E, info := f.setWidth 64 }) := by
  rw [raiseFlags, enables_eq_enabled, BitVec.and_comm, if_neg h, BitVec.ofNat_toNat]

/-! ### The feature check (R82 step 5) -/

theorem onFdie_iff (n : Nat) : onFdie n = true ↔ dieHere n % 2 = 0 := by
  simp [onFdie, dieOf, sectionOf, isService, dieHere]

theorem requireType_ok {s : State} {t : Ty} (h : TypeHere s t) : requireType s t = .ok () := by
  have : (t != .f64 || onFdie s.tid) = true := by
    by_cases ht : t = .f64
    · simp [(onFdie_iff _).2 (h ht)]
    · simp [ht]
  simp [requireType, require, this]

theorem requireType_trap {s : State} {t : Ty} (h : ¬TypeHere s t) : requireType s t = .error (.trap { cause := 0x03 }) := by
  obtain ⟨rfl, hd⟩ := Classical.not_imp.1 h
  have : onFdie s.tid = false := by simpa using mt (onFdie_iff _).1 hd
  simp [requireType, require, trapOf, this]

/-- The checks of several type fields before the rest of a meaning. -/
theorem requireTypes_ok {α : Type} {s : State} {ts : List Ty} (h : ∀ t ∈ ts, TypeHere s t) (k : Except Stop α) :
    (do
      for t in ts do requireType s t
      k) = k := by
  induction ts with
  | nil => rfl
  | cons t ts ih =>
    obtain ⟨ht, hts⟩ := List.forall_mem_cons.1 h
    rw [List.forIn_cons, requireType_ok ht]
    exact ih hts

theorem requireTypes_trap {α : Type} {s : State} {ts : List Ty} (h : ∃ t ∈ ts, ¬TypeHere s t) (k : Except Stop α) :
    (do
      for t in ts do requireType s t
      k) = .error (.trap { cause := 0x03 }) := by
  induction ts with
  | nil => simp at h
  | cons t ts ih =>
    rw [List.forIn_cons]
    by_cases ht : TypeHere s t
    · rw [requireType_ok ht]
      exact ih (by simpa [ht] using h)
    · rw [requireType_trap ht]
      rfl

/-! ### Register-to-register operations -/

theorem finish_numericFault {s : State} (h : CanHold s 1) (f : Flags) :
    finish s (.error (.trap { cause := 0x0E, info := f.setWidth 64 })) = .next (faulted s 0x0E 0 (f.setWidth 64) 0 none) := by
  rw [finish_trap, takeFault_user h]

/-- An instruction that raises an enabled flag ends in a numeric fault, whatever it would do next. -/
theorem finish_raiseFlags {s : State} {f f' : Flags} (hc : CanHold s 1) (hf : f &&& enabled s.th ≠ 0) (heq : f' = f)
    (k : State → Except Stop State) :
    finish s (raiseFlags s f' >>= k) = .next (faulted s 0x0E 0 (f.setWidth 64) 0 none) := by
  rw [heq, raiseFlags_trap hf]
  exact finish_numericFault hc f

theorem finish_featureFault {s : State} (h : CanHold s 1) :
    finish s (.error (.trap { cause := 0x03 })) = .next (faulted s 0x03 0 0 0 none) := by
  rw [finish_trap, takeFault_user h]

/-- What an operation computes from the current thread's registers. -/
def VecOp.result (v : VecOp) (s : State) : VReg × Flags :=
  v.f (modeOf s.th.fcsr) (govern s.th v.g) s.th.v[v.d] s.th.v[v.a] (match v.b with
    | some b => s.th.v[b]
    | none => 0)

/-- The registers that an operation reads can be read. -/
def VecOp.CanRead (v : VecOp) (s : State) : Prop :=
  Readable s.th (.v v.a) ∧ (∀ b ∈ v.b, Readable s.th (.v b))
    ∧ (v.keeps (govern s.th v.g) = true → Readable s.th (.v v.d))

theorem ok_bind {α β : Type} (x : α) (k : α → Except Stop β) : (Except.ok x >>= k) = k x := rfl

theorem useV_bind {α : Type} {s : State} {r : Rv} (h : Readable s.th (.v r)) (k : VReg → Except Stop α) :
    (useV s r >>= k) = k s.th.v[r] := by
  rw [useV_ok h, ok_bind]

/-- With its types here and its registers readable, an operation raises its flags and writes its result. -/
theorem VecOp.run_eq {v : VecOp} {s : State} (ht : ∀ t ∈ v.types, TypeHere s t) (hr : v.CanRead s) :
    v.run s 0 = (do return (← raiseFlags s (v.result s).2).wv v.d (v.result s).1) := by
  obtain ⟨d, a, b, g, types, keeps, f⟩ := v
  obtain ⟨ha, hb, hd⟩ := hr
  have hold : ∀ k : VReg → Except Stop State,
      (if keeps (govern s.th g) = true then useV s d >>= k else pure (s.th.rv d) >>= k) = k s.th.v[d] := by
    intro k
    split
    · next h => exact useV_bind (hd h) k
    · rfl
  rw [VecOp.run, requireTypes_ok ht, useV_bind ha]
  cases b with
  | none => exact hold _
  | some b => exact (useV_bind (hb b rfl) _).trans (hold _)

theorem VecOp.exec_numericFault {v : VecOp} {s : State} (hc : CanHold s 1) (ht : ∀ t ∈ v.types, TypeHere s t)
    (hr : v.CanRead s) (hf : (v.result s).2 &&& enabled s.th ≠ 0) :
    v.exec s = .next (faulted s 0x0E 0 ((v.result s).2.setWidth 64) 0 none) := by
  rw [VecOp.exec, VecOp.run_eq ht hr, raiseFlags_trap hf]
  exact finish_numericFault hc _

theorem VecOp.exec_featureFault {v : VecOp} {s : State} (hc : CanHold s 1) (ht : ∃ t ∈ v.types, ¬TypeHere s t) :
    v.exec s = .next (faulted s 0x03 0 0 0 none) := by
  rw [VecOp.exec, VecOp.run, requireTypes_trap ht]
  exact finish_featureFault hc

/-- An instruction that a frame may hold is its operation (R147). -/
theorem exec_eq_of_frameOp {i : Instr} {v : VecOp} (h : frameOp i = some v) (s : State) : exec i s = v.exec s := by
  unfold frameOp at h
  split at h <;> cases h <;> rfl

/-! ### Element-wise instructions (R125 to R127, R130 to R132, R136) -/

theorem exists_off {n : Nat} {on : Nat → Bool} (h : (List.range n).all on = false) : ∃ e, e < n ∧ on e = false := by
  simpa using h

/-- An operation of the machine reads what a lane operation of the claims reads, and raises what that raises. -/
structure VecOp.Raises (v : VecOp) (o : LaneOp) : Prop where
  d : v.d = o.d
  a : v.a = o.a
  b : v.b = o.b
  g : v.g = o.g
  types : v.types = [o.t]
  keeps : ∀ p, v.keeps p = true → o.reads = true ∨ (o.all = false ∧ ∃ e, e < laneCount o.t ∧ isActive o.t p e = false)
  flags : ∀ m p vd va vb, (v.f m p vd va vb).2 = allFlags (laneCount o.t) (isActive o.t p) fun e =>
    (o.f m (isActive o.t p) (lane o.t.width vd) (lane o.t.width va) (lane o.t.width vb) e).2

theorem VecOp.Raises.canRead {v : VecOp} {o : LaneOp} {s : State} (h : v.Raises o) (hr : LaneReadable s o) : v.CanRead s := by
  obtain ⟨ha, hb, hd⟩ := hr
  rw [VecOp.CanRead, h.a, h.b, h.g, h.d]
  exact ⟨ha, hb, fun hk => hd (h.keeps _ hk)⟩

theorem VecOp.Raises.result_flags {v : VecOp} {o : LaneOp} (h : v.Raises o) (s : State) : (v.result s).2 = o.flags s := by
  simp only [VecOp.result, h.flags, h.a, h.b, h.g, h.d]
  rfl

/-- A merging operation whose elements raise the same flags. -/
theorem merging_raises {o : LaneOp} {f : Mode → VReg → VReg → VReg → Nat → Nat × Flags} (hall : o.all = false)
    (h : ∀ m p vd va vb e, (f m vd va vb e).2 =
      (o.f m (isActive o.t p) (lane o.t.width vd) (lane o.t.width va) (lane o.t.width vb) e).2) :
    (merging o.t o.d o.a o.b o.g o.reads f).Raises o where
  d := rfl
  a := rfl
  b := rfl
  g := rfl
  types := rfl
  keeps p hk := by
    rcases Bool.or_eq_true_iff.1 hk with hk | hk
    · exact .inl hk
    · exact .inr ⟨hall, lanes_eq_laneCount o.t ▸ exists_off (Bool.not_eq_true' _ ▸ hk)⟩
  flags m p vd va vb := by
    simp only [merging, mapLanes_flags, h m p]

/-- An operation that writes every element and raises nothing. -/
theorem quiet_raises {v : VecOp} {o : LaneOp} (hd : v.d = o.d) (ha : v.a = o.a) (hb : v.b = o.b) (hg : v.g = o.g)
    (ht : v.types = [o.t]) (hk : ∀ p, v.keeps p = false) (hv : ∀ m p vd va vb, (v.f m p vd va vb).2 = 0)
    (ho : ∀ m on vd va vb e, (o.f m on vd va vb e).2 = 0) : v.Raises o where
  d := hd
  a := ha
  b := hb
  g := hg
  types := ht
  keeps p h := by simp [hk] at h
  flags m p vd va vb := by simp only [hv, ho, allFlags_zero]

theorem mapBits_flags (t : Ty) (g : PReg) (old : VReg) (f : Nat → Nat) : (mapBits t g old f).2 = 0 := by
  rw [mapBits, mapLanes_flags, allFlags_zero]

theorem floatOp_raises (t : Ty) (d a : Rv) (b : Option Rv) (g : Rg) (fzi reads : Bool)
    (f : Mode → FVal → FVal → FVal → Nat × Flags) :
    (floatOp t d a b g fzi reads f).Raises (floats d a b g t fzi reads f) :=
  merging_raises (o := floats d a b g t fzi reads f) rfl fun _ _ _ _ _ _ => rfl

/-- No integer operation raises a flag. -/
theorem intOp_raises (t : Ty) (d a : Rv) (b : Option Rv) (g : Rg) (reads : Bool) (f k : Int → Int → Int → Int) :
    (intOp t d a b g reads f).Raises (ints d a b g t reads k) :=
  merging_raises (o := ints d a b g t reads k) rfl fun _ _ _ _ _ _ => rfl

/-- No operation on bits raises a flag. -/
theorem rawLanes_raises (t : Ty) (d a : Rv) (b : Option Rv) (g : Rg) (f : Mode → VReg → VReg → VReg → Nat → Nat)
    (k : (Nat → Nat) → (Nat → Nat) → Nat → Nat) :
    (merging t d a b g false fun m vd va vb e => (f m vd va vb e, 0)).Raises (rawLanes d a b g t k) :=
  merging_raises (o := rawLanes d a b g t k) rfl fun _ _ _ _ _ _ => rfl

/-- Every lane operation of the claims is an operation of the machine. -/
theorem frameOp_of_laneOp {i : Instr} {o : LaneOp} (h : laneOp i = some o) : ∃ v, frameOp i = some v ∧ v.Raises o := by
  cases i with
  | vadd | vsub | vmul | vmin | vmax | vabd | vaddmin | vfma | vfms | vfnma | vfnms | vdiv | vsqrt | vrcpe | vrsqe | vrnd =>
    cases h
    exact ⟨_, rfl, floatOp_raises ..⟩
  | viadd | visub | vimul | vimulh | vimin | vimax | viaddmin | viabs =>
    cases h
    exact ⟨_, rfl, intOp_raises ..⟩
  | vcopysign | vand | vor | vxor | vandn | vsll | vsrl | vsra | vshup | vshdn | vperm | vzip | vuzp | vrev =>
    cases h
    exact ⟨_, rfl, rawLanes_raises ..⟩
  | vsel =>
    cases h
    exact ⟨_, rfl, quiet_raises rfl rfl rfl rfl rfl (fun _ => rfl) (fun _ _ _ _ _ => mapBits_flags ..) fun _ _ _ _ _ _ => rfl⟩
  | vcompr =>
    cases h
    exact ⟨_, rfl, quiet_raises rfl rfl rfl rfl rfl (fun _ => rfl) (fun _ _ _ _ _ => rfl) fun _ _ _ _ _ _ => rfl⟩
  | _ => cases h

theorem laneOp_numericFault {i : Instr} {s : State} {o : LaneOp} (hi : laneOp i = some o) (hc : CanHold s 1)
    (ht : TypeHere s o.t) (hr : LaneReadable s o) (hf : o.flags s &&& enabled s.th ≠ 0) :
    exec i s = .next (faulted s 0x0E 0 ((o.flags s).setWidth 64) 0 none) := by
  obtain ⟨v, hv, h⟩ := frameOp_of_laneOp hi
  have ht : ∀ t ∈ v.types, TypeHere s t := by simpa [h.types] using ht
  rw [← h.result_flags] at hf ⊢
  rw [exec_eq_of_frameOp hv, VecOp.exec_numericFault hc ht (h.canRead hr) hf]

theorem laneOp_featureFault {i : Instr} {s : State} {o : LaneOp} (hi : laneOp i = some o) (hc : CanHold s 1)
    (ht : ¬TypeHere s o.t) : exec i s = .next (faulted s 0x03 0 0 0 none) := by
  obtain ⟨v, hv, h⟩ := frameOp_of_laneOp hi
  have ht : ∃ t ∈ v.types, ¬TypeHere s t := by simpa [h.types] using ht
  rw [exec_eq_of_frameOp hv, VecOp.exec_featureFault hc ht]

/-! ### Conversions (R135) -/

theorem cvtOp_result_flags (d a : Rv) (tin tout : Ty) (g : Rg) (fzi sat : Bool) (rm : Rm) (fzo : Bool) (s : State) :
    ((cvtOp d a tin tout g fzi sat rm fzo).result s).2 =
      allFlags (cvtLanes tin tout) (isActive tin (govern s.th g)) fun e =>
        (convert tin tout (rmMode rm (modeOf s.th.fcsr)) sat fzi fzo (lane tin.width s.th.v[a] e)).2 :=
  gather_merged ..

theorem cvtOp_canRead {s : State} {d a : Rv} {tin tout : Ty} {g : Rg} (fzi sat : Bool) (rm : Rm) (fzo : Bool)
    (ha : Readable s.th (.v a)) (hd : KeptReadable s (cvtLanes tin tout) (isActive tin (govern s.th g)) d) :
    (cvtOp d a tin tout g fzi sat rm fzo).CanRead s :=
  ⟨ha, fun _ hb => (Option.not_mem_none _ hb).elim, fun hk => hd (exists_off (Bool.not_eq_true' _ ▸ hk))⟩

theorem vcvt_numericFault {s : State} {d a : Rv} {tin tout : Ty} {g : Rg} {fzi sat : Bool} {rm : Rm} {fzo : Bool} {f : Flags}
    (hc : CanHold s 1) (htin : TypeHere s tin) (htout : TypeHere s tout) (ha : Readable s.th (.v a))
    (hd : KeptReadable s (cvtLanes tin tout) (isActive tin (govern s.th g)) d)
    (hflags : f = allFlags (cvtLanes tin tout) (isActive tin (govern s.th g)) fun e =>
      (convert tin tout (rmMode rm (modeOf s.th.fcsr)) sat fzi fzo (lane tin.width s.th.v[a] e)).2)
    (hf : f &&& enabled s.th ≠ 0) :
    exec (.vcvt d a tin tout g fzi sat rm fzo) s = .next (faulted s 0x0E 0 (f.setWidth 64) 0 none) := by
  have ht : ∀ t ∈ (cvtOp d a tin tout g fzi sat rm fzo).types, TypeHere s t :=
    List.forall_mem_cons.2 ⟨htin, List.forall_mem_singleton.2 htout⟩
  have heq := (cvtOp_result_flags d a tin tout g fzi sat rm fzo s).trans hflags.symm
  subst heq
  exact (exec_eq_of_frameOp rfl s).trans (VecOp.exec_numericFault hc ht (cvtOp_canRead _ _ _ _ ha hd) hf)

theorem vcvt_featureFault {s : State} {tin tout : Ty} (hc : CanHold s 1) (ht : ¬(TypeHere s tin ∧ TypeHere s tout)) (d a : Rv)
    (g : Rg) (fzi sat : Bool) (rm : Rm) (fzo : Bool) :
    exec (.vcvt d a tin tout g fzi sat rm fzo) s = .next (faulted s 0x03 0 0 0 none) := by
  have ht : ∃ t ∈ (cvtOp d a tin tout g fzi sat rm fzo).types, ¬TypeHere s t := by
    by_cases htin : TypeHere s tin
    · exact ⟨tout, List.mem_cons_of_mem _ (List.mem_singleton_self _), fun htout => ht ⟨htin, htout⟩⟩
    · exact ⟨tin, List.mem_cons_self, htin⟩
  exact (exec_eq_of_frameOp rfl s).trans (VecOp.exec_featureFault hc ht)

/-! ### Compares (R128, R129) -/

/-- What a compare raises: NV for a NaN, a quiet one only if the compare is ordered. -/
theorem compareElem_flags {c : Cond} {quiet : Bool} (h : c.ordered = !quiet) (t : Ty) (fzi nan : Bool)
    (onInt : Int → Int → Bool) (onVal : FVal → FVal → Bool) (x y : Nat) :
    (compareElem c t fzi x y).2 = (compares t fzi nan quiet onInt onVal x y).2 := by
  simp only [compareElem, compares, h]
  split
  · rfl
  · split <;> rfl

/-- Every compare of the claims is a compare of the machine that raises the same flags. -/
theorem exec_eq_compare {i : Instr} {o : CompareOp} (h : compareOp i = some o) :
    ∃ f, (∀ s, exec i s = compare f o.d o.a o.b o.g o.t s) ∧ ∀ x y, (f x y).2 = (o.f x y).2 := by
  cases i with
  | vceq | vcne | vclt | vcle | vcgt | vcge | vcun =>
    cases h
    exact ⟨_, fun _ => rfl, compareElem_flags rfl _ _ _ _ _⟩
  | vclass d a m g t fzi =>
    cases h
    exact ⟨fun x _ => (bitAt m (classOf t (fval t fzi x)), 0), fun _ => rfl, fun _ _ => rfl⟩
  | _ => cases h

theorem gather_compare {f k : Nat → Nat → Bool × Flags} (hs : ∀ x y, (f x y).2 = (k x y).2) (t : Ty) (p : PReg)
    (va vb : VReg) :
    gather (((List.range t.lanes).filter (active t p)).map fun e => (0, (f (elem t.width e va) (elem t.width e vb)).2)) =
      allFlags (laneCount t) (isActive t p) fun e => (k (lane t.width va e) (lane t.width vb e)).2 := by
  rw [gather_filtered, lanes_eq_laneCount]
  simp only [hs]
  rfl

theorem compare_numericFault {s : State} {o : CompareOp} {f : Nat → Nat → Bool × Flags}
    (hs : ∀ x y, (f x y).2 = (o.f x y).2) (hc : CanHold s 1) (ht : TypeHere s o.t) (ha : Readable s.th (.v o.a)) (hb : ∀ b ∈ o.b, Readable s.th (.v b))
    (hf : o.flags s &&& enabled s.th ≠ 0) :
    compare f o.d o.a o.b o.g o.t s = .next (faulted s 0x0E 0 ((o.flags s).setWidth 64) 0 none) := by
  obtain ⟨d, a, b, g, t, k⟩ := o
  rw [compare, requireType_ok ht, useV_ok ha]
  cases b with
  | none => exact finish_raiseFlags hc hf (gather_compare hs ..) _
  | some b =>
    simp only [useV_ok (hb b rfl)]
    exact finish_raiseFlags hc hf (gather_compare hs ..) _

theorem compare_featureFault {s : State} {t : Ty} (hc : CanHold s 1) (ht : ¬TypeHere s t) (f : Nat → Nat → Bool × Flags)
    (d : Rp) (a : Rv) (b : Option Rv) (g : Rg) : compare f d a b g t s = .next (faulted s 0x03 0 0 0 none) := by
  rw [compare, requireType_trap ht]
  exact finish_featureFault hc

/-! ### Reductions (R133, R134) -/

/-- A reduction checks its type itself, and `x0` is always readable. -/
theorem reduceWith_checked (f : Mode → List Nat → Nat × Flags) (ext : Nat → Word) (d : Rx) (a : Rv) (g : Rg) (t : Ty)
    (s : State) :
    (do
      requireType s t
      let _ ← useX s 0
      reduceWith f ext d a g t s) = reduceWith f ext d a g t s := by
  rw [useX_ok (.inl rfl)]
  by_cases ht : TypeHere s t
  · rw [requireType_ok ht]
    rfl
  · rw [reduceWith, requireType_trap ht]
    rfl

theorem extreme_flags (isMax : Bool) (t : Ty) (fzi : Bool) (l : List Nat) (n : Int) :
    (extreme isMax t fzi l).2 = (if t.isInt then low t n else extreme isMax t fzi l).2 := by
  split
  · next h => simp only [extreme, h, if_true, low]
  · rfl

/-- Every reduction of the claims is one of the machine that raises the same flags; `x0` stands for the scalar source of one
that has none. -/
theorem exec_eq_reduceWith {i : Instr} {o : ReduceOp} (h : reduceOp i = some o) :
    ∃ (f : Word → Mode → List Nat → Nat × Flags) (ext : Nat → Word),
      (∀ s, exec i s = finish s (do
        requireType s o.t
        let x ← useX s o.b
        reduceWith (f x) ext o.d o.a o.g o.t s)) ∧ ∀ x m l, (f x m l).2 = (o.f m x.toNat l).2 := by
  cases i with
  | vrsum d a g t fzi =>
    cases h
    refine ⟨fun _ m xs => if t.isInt then (intSum t 0 xs, 0) else treeSum t m 7 (xs.map (fval t fzi)), extendTo t,
      fun s => congrArg (finish s) (reduceWith_checked ..).symm, fun _ _ _ => ?_⟩
    split <;> rfl
  | vrsumo d a b g t fzi =>
    cases h
    refine ⟨_, _, fun _ => rfl, fun x m l => ?_⟩
    split
    · rfl
    · cases l <;> rfl
  | vrmax | vrmin =>
    cases h
    exact ⟨fun _ => _, _, fun s => congrArg (finish s) (reduceWith_checked ..).symm, fun _ _ _ => extreme_flags ..⟩
  | vrand | vror | vrcnt =>
    cases h
    exact ⟨fun _ => _, _, fun s => congrArg (finish s) (reduceWith_checked ..).symm, fun _ _ _ => rfl⟩
  | _ => cases h

theorem reduceOp_numericFault {i : Instr} {s : State} {o : ReduceOp} (hi : reduceOp i = some o) (hc : CanHold s 1)
    (ht : TypeHere s o.t) (ha : Readable s.th (.v o.a)) (hb : ReadableX s.th o.b) (hf : (o.value s).2 &&& enabled s.th ≠ 0) :
    exec i s = .next (faulted s 0x0E 0 ((o.value s).2.setWidth 64) 0 none) := by
  obtain ⟨f, ext, hexec, hs⟩ := exec_eq_reduceWith hi
  have hflags : (f (s.th.rx o.b) (modeOf s.th.fcsr)
      (((List.range o.t.lanes).filter (active o.t (govern s.th o.g))).map fun e => elem o.t.width e s.th.v[o.a])).2 =
      (o.value s).2 := by
    rw [hs, Thread.rx_toNat, lanes_eq_laneCount]
    rfl
  simp only [hexec, useX_ok hb, reduceWith, requireType_ok ht, useV_ok ha]
  exact finish_raiseFlags hc hf hflags _

theorem reduceOp_featureFault {i : Instr} {s : State} {o : ReduceOp} (hi : reduceOp i = some o) (hc : CanHold s 1)
    (ht : ¬TypeHere s o.t) : exec i s = .next (faulted s 0x03 0 0 0 none) := by
  obtain ⟨f, ext, hexec, -⟩ := exec_eq_reduceWith hi
  rw [hexec, requireType_trap ht]
  exact finish_featureFault hc

/-! ### Block scales (R137 to R139) -/

theorem oldLanes_ok {s : State} {n : Nat} {on : Nat → Bool} {d : Rv} (h : KeptReadable s n on d) :
    oldLanes s d ((List.range n).all on) = .ok s.th.v[d] := by
  unfold oldLanes
  split
  · rfl
  · next hk => exact useV_ok (h (exists_off (Bool.eq_false_iff.2 hk)))

theorem oldLanes_active {s : State} {t : Ty} {g : PReg} {d : Rv} (h : KeptReadable s (laneCount t) (isActive t g) d) :
    oldLanes s d (allActive t g) = .ok s.th.v[d] := by
  rw [allActive, lanes_eq_laneCount]
  exact oldLanes_ok h

/-- An `x` register as a signed number. -/
theorem rx_toInt (t : Thread) (r : Rx) : (t.rx r).toInt = sgn 64 (xVal t r) := by
  rw [BitVec.toInt_eq_toNat_cond, Thread.rx_toNat, sgn]
  have : 2 * xVal t r < 2 ^ 64 ↔ xVal t r < 2 ^ (64 - 1) := by omega
  simp only [this]
  rfl

theorem vqnt_numericFault {s : State} {d a : Rv} {b : Rx} {g : Rg} {t : Ty} {fzi fzo : Bool} {k : Nat} {f : Flags}
    (hc : CanHold s 1) (ha : Readable s.th (.v a)) (hd : KeptReadable s 32 (isActive .f32 (govern s.th g)) d)
    (hk : k = blockScale t ((activeLanes .f32 (govern s.th g) s.th.v[a]).map (fval .f32 fzi)))
    (hflags : f = allFlags 32 (isActive .f32 (govern s.th g)) fun e =>
      (scaleRound .f32 .rne fzo (127 - (k : Int)) (fval .f32 fzi (lane 32 s.th.v[a] e))).2)
    (hf : f &&& enabled s.th ≠ 0) :
    exec (.vqnt d a b g t fzi fzo) s = .next (faulted s 0x0E 0 (f.setWidth 64) 0 none) := by
  have hscale : blockScale t (((List.range 32).filter (active .f32 (govern s.th g))).map fun e =>
      fval .f32 fzi (elem 32 e s.th.v[a])) = k := by
    rw [hk, activeLanes, List.map_map]
    rfl
  show execVqnt d a b g t fzi fzo s = _
  simp only [execVqnt, useV_ok ha, rg_eq_govern, oldLanes_active (t := .f32) hd, ok_bind, hscale]
  exact finish_raiseFlags hc hf ((mapLanes_flags ..).trans hflags.symm) _

theorem vdqnt_numericFault {s : State} {d a : Rv} {b : Rx} {g : Rg} {t : Ty} {fzi fzo : Bool} {f : Flags}
    (hc : CanHold s 1) (ha : Readable s.th (.v a)) (hd : KeptReadable s 32 (fun e => (govern s.th g).getLsbD e) d)
    (hb : ReadableX s.th b)
    (hflags : f = allFlags 32 (fun e => (govern s.th g).getLsbD e) fun e =>
      let x := fval t fzi (lane 8 s.th.v[a] e)
      if xVal s.th b % 256 = 255 ∨ x.isNan = true then 0
      else (scaleRound .f32 .rne fzo ((xVal s.th b % 256 : Nat) - 127) x).2)
    (hf : f &&& enabled s.th ≠ 0) :
    exec (.vdqnt d a b g t fzi fzo) s = .next (faulted s 0x0E 0 (f.setWidth 64) 0 none) := by
  have hscale : bits (s.th.rx b) 0 8 = xVal s.th b % 256 := by
    rw [bits, field, Thread.rx_toNat, Nat.pow_zero, Nat.div_one]
    rfl
  show execVdqnt d a b g t fzi fzo s = _
  simp only [execVdqnt, useV_ok ha, useX_ok hb, rg_eq_govern, ok_bind, hscale]
  simp only [bitAt_eq_getLsbD, oldLanes_ok hd, ok_bind]
  refine finish_raiseFlags hc hf ((gather_merged ..).trans ?_) _
  simp only [hflags, apply_ite Prod.snd]
  rfl

theorem vscale_numericFault {s : State} {d a : Rv} {b : Rx} {g : Rg} {t : Ty} {fzi fzo : Bool} {f : Flags}
    (hc : CanHold s 1) (ht : TypeHere s t) (ha : Readable s.th (.v a))
    (hd : KeptReadable s (laneCount t) (isActive t (govern s.th g)) d) (hb : ReadableX s.th b)
    (hflags : f = allFlags (laneCount t) (isActive t (govern s.th g)) fun e => (scaleRound t (modeOf s.th.fcsr) fzo
      (max (-8192) (min 8192 (sgn 64 (xVal s.th b)))) (fval t fzi (lane t.width s.th.v[a] e))).2)
    (hf : f &&& enabled s.th ≠ 0) :
    exec (.vscale d a b g t fzi fzo) s = .next (faulted s 0x0E 0 (f.setWidth 64) 0 none) := by
  show execVscale d a b g t fzi fzo s = _
  simp only [execVscale, requireType_ok ht, useV_ok ha, useX_ok hb, rg_eq_govern, oldLanes_active hd, ok_bind, rx_toInt]
  exact finish_raiseFlags hc hf ((mapLanes_flags ..).trans hflags.symm) _

theorem vscale_featureFault {s : State} {t : Ty} (hc : CanHold s 1) (ht : ¬TypeHere s t) (d a : Rv) (b : Rx) (g : Rg)
    (fzi fzo : Bool) : exec (.vscale d a b g t fzi fzo) s = .next (faulted s 0x03 0 0 0 none) := by
  show execVscale d a b g t fzi fzo s = _
  rw [execVscale, requireType_trap ht]
  exact finish_featureFault hc

end Sys2Proof.Machine

namespace Sys2Proof.Proofs
open Sys2Proof.Machine Sys2Proof.Safety Sys2Proof.Claims

/-- Settles O8: each instruction checks its types, reads its registers and then raises its flags, and the flags that the
machine gathers are those that the claims compute on lanes. -/
theorem vectorFaults : Obligations.VectorFaults := by
  refine ⟨?laneNumeric, ?laneFeature, ?compares, ?reductions, ?convert, ?quantise, ?dequantise, ?scale⟩
  case laneNumeric => exact fun i s o _ hi ht hr hf hc => laneOp_numericFault hi hc ht hr hf
  case laneFeature => exact fun i s o hi ht hc => laneOp_featureFault hi hc ht
  case compares =>
    intro i s o _ hi hc
    obtain ⟨f, hexec, hs⟩ := exec_eq_compare hi
    rw [hexec]
    exact ⟨fun ht ha hb hf => compare_numericFault hs hc ht ha hb hf, fun ht => compare_featureFault hc ht ..⟩
  case reductions =>
    exact fun i s o _ hi hc =>
      ⟨fun ht ha hb hf => reduceOp_numericFault hi hc ht ha hb hf, fun ht => reduceOp_featureFault hi hc ht⟩
  case convert =>
    rintro s d a tin tout g fzi sat rm fzo n f hc rfl hflags
    exact ⟨fun htin htout ha hd hf => vcvt_numericFault hc htin htout ha hd hflags hf, fun ht => vcvt_featureFault hc ht ..⟩
  case quantise => exact fun s d a b g t fzi fzo k f hc ha hd hk hflags hf => vqnt_numericFault hc ha hd hk hflags hf
  case dequantise => exact fun s d a b g t fzi fzo f hc ha hd hb hflags hf => vdqnt_numericFault hc ha hd hb hflags hf
  case scale =>
    intro s d a b g t fzi fzo f hc _ hflags
    exact ⟨fun ht ha hd hb hf => vscale_numericFault hc ht ha hd hb hflags hf, fun ht => vscale_featureFault hc ht ..⟩

end Sys2Proof.Proofs
end

section
/-! SUPPORT. Rounding on exact real values (02 R41): the multiples of a unit next to a magnitude, and the one that a mode
takes. -/

namespace Sys2Proof.Machine
open Sys2Proof.Safety Sys2Proof.Claims

/-! ### Powers of two -/

theorem two_zpow_pos (e : ℤ) : (0 : ℝ) < 2 ^ e := zpow_pos two_pos e

theorem two_zpow_split {k e : ℤ} (h : k ≤ e) : (2 : ℝ) ^ e = ((2 ^ (e - k).toNat : ℕ) : ℝ) * 2 ^ k := by
  rw [Nat.cast_pow, Nat.cast_ofNat, ← zpow_natCast, ← zpow_add₀ two_ne_zero, Int.toNat_of_nonneg (by omega), sub_add_cancel]

theorem dyLe_iff (a b : ℕ) (ea eb : ℤ) : dyLe a ea b eb = true ↔ (a : ℝ) * 2 ^ ea ≤ b * 2 ^ eb := by
  rw [two_zpow_split (min_le_left ea eb), two_zpow_split (min_le_right ea eb), ← mul_assoc, ← mul_assoc,
    mul_le_mul_iff_left₀ (two_zpow_pos _), dyLe, decide_eq_true_iff]
  exact_mod_cast Iff.rfl

theorem dyLt_iff (a b : ℕ) (ea eb : ℤ) : dyLt a ea b eb = true ↔ (a : ℝ) * 2 ^ ea < b * 2 ^ eb := by
  rw [dyLt, Bool.not_eq_true', ← not_iff_not, Bool.not_eq_false, dyLe_iff, not_lt]

/-! ### The multiple of a unit that a mode takes (R41) -/

/-- A magnitude between `n` and `n + 1` units goes up. -/
def RoundsUp (m : Mode) (neg : Bool) (u x : ℝ) (n : ℕ) : Prop :=
  match m, neg with
  | .rne, _ => u < 2 * (x - n * u) ∨ (2 * (x - n * u) = u ∧ n % 2 = 1)
  | .rtz, _ | .rup, true | .rdn, false => False
  | .rup, false | .rdn, true => n * u < x

section Between
variable {m : Mode} {neg : Bool} {u x : ℝ} {n : ℕ}

theorem not_roundsUp_multiple (hu : 0 < u) : ¬RoundsUp m neg u (n * u) n := by
  cases m <;> cases neg <;> simp [RoundsUp, hu.ne, hu.le]

theorem roundsTo_down (hlo : n * u ≤ x) (hhi : x < (n + 1) * u) (h : ¬RoundsUp m neg u x n) : RoundsTo m neg u x n := by
  have heven : n % 2 = 1 ∨ n % 2 = 0 := by omega
  have habs : |n * u - x| = x - n * u := by rw [abs_sub_comm, abs_of_nonneg (by linarith)]
  cases m <;> cases neg <;> simp only [RoundsUp, RoundsTo, not_or, not_and, not_lt, habs] at h ⊢
  case rne.false | rne.true => exact ⟨h.1, fun ht => heven.resolve_left (h.2 ht)⟩
  all_goals constructor <;> linarith

theorem roundsTo_up (_hlo : n * u ≤ x) (hhi : x < (n + 1) * u) (h : RoundsUp m neg u x n) : RoundsTo m neg u x (n + 1) := by
  have habs : |(n + 1) * u - x| = (n + 1) * u - x := abs_of_nonneg (by linarith)
  cases m <;> cases neg <;> simp only [RoundsUp, RoundsTo, Nat.cast_add, Nat.cast_one, habs] at h ⊢
  case rne.false | rne.true =>
    refine ⟨?_, fun ht => ?_⟩
    · rcases h with h | ⟨h, -⟩ <;> linarith
    · rcases h with h | ⟨-, h⟩
      · linarith
      · omega
  all_goals constructor <;> linarith

/-- A multiple of the unit stays. -/
theorem roundsTo_multiple (hu : 0 < u) (m : Mode) (neg : Bool) (n : ℕ) : RoundsTo m neg u (n * u) n :=
  roundsTo_down le_rfl (by linarith) (not_roundsUp_multiple hu)

/-- A multiple of the unit that lies at or below a magnitude lies at or below its rounding. -/
theorem roundsTo_le_of_le {j : ℕ} (hu : 0 < u) (h : RoundsTo m neg u x n) (hj : j * u ≤ x) : j ≤ n := by
  by_contra hlt
  have h1 : ((n : ℝ) + 1) * u ≤ j * u := mul_le_mul_of_nonneg_right (by exact_mod_cast Nat.lt_of_not_le hlt) hu.le
  cases m <;> cases neg <;> simp only [RoundsTo] at h
  case rne.false | rne.true =>
    have habs : |n * u - x| = x - n * u := by rw [abs_sub_comm, abs_of_nonneg (by linarith)]
    rw [habs] at h
    linarith
  all_goals linarith

/-- A multiple of the unit that lies at or above a magnitude lies at or above its rounding. -/
theorem roundsTo_ge_of_ge {j : ℕ} (hu : 0 < u) (h : RoundsTo m neg u x n) (hj : x ≤ j * u) : n ≤ j := by
  by_contra hlt
  have h1 : ((j : ℝ) + 1) * u ≤ n * u := mul_le_mul_of_nonneg_right (by exact_mod_cast Nat.lt_of_not_le hlt) hu.le
  cases m <;> cases neg <;> simp only [RoundsTo] at h
  case rne.false | rne.true =>
    rw [abs_of_nonneg (by linarith)] at h
    linarith
  all_goals linarith

/-- A magnitude has one rounding. -/
theorem roundsTo_unique {n' : ℕ} (hu : 0 < u) (h : RoundsTo m neg u x n) (h' : RoundsTo m neg u x n') : n = n' := by
  by_contra hne
  wlog hlt : n < n' generalizing n n'
  · exact this h' h (Ne.symm hne) (by omega)
  have h1 : ((n : ℝ) + 1) * u ≤ n' * u := mul_le_mul_of_nonneg_right (by exact_mod_cast hlt) hu.le
  cases m <;> cases neg <;> simp only [RoundsTo] at h h'
  case rne.false | rne.true =>
    obtain ⟨hd, he⟩ := h
    obtain ⟨hd', he'⟩ := h'
    have hx := abs_le.1 (show |n * u - x| ≤ u / 2 by linarith)
    have hx' := abs_le.1 (show |n' * u - x| ≤ u / 2 by linarith)
    have hn : n' = n + 1 := by
      have : ((n' : ℝ) - (n + 1)) * u ≤ 0 := by linarith [hx.1, hx'.2]
      have : (n' : ℝ) ≤ n + 1 := by nlinarith
      have : n' ≤ n + 1 := by exact_mod_cast this
      omega
    have hmid : x = n * u + u / 2 := by
      subst hn
      push_cast at hx'
      linarith [hx.1, hx'.2]
    have h0 := he (by rw [abs_sub_comm, abs_of_nonneg (by linarith)]; linarith)
    have h0' := he' (by rw [abs_of_nonneg (by linarith)]; subst hn; push_cast; linarith)
    omega
  all_goals linarith

end Between

/-! ### The model's rounding to a unit -/

/-- `m` units of `2^e` are a magnitude, or with `sticky` lie strictly below it and `m + 1` strictly above. -/
def Approx (m : ℕ) (e : ℤ) (sticky : Bool) (x : ℝ) : Prop :=
  if sticky then m * 2 ^ e < x ∧ x < (m + 1) * 2 ^ e else x = m * 2 ^ e

theorem approx_exact (m : ℕ) (e : ℤ) : Approx m e false (m * 2 ^ e) := rfl

theorem Approx.le {m : ℕ} {e : ℤ} {sticky : Bool} {x : ℝ} (h : Approx m e sticky x) : m * 2 ^ e ≤ x := by
  cases sticky with
  | false => exact h.ge
  | true => exact h.1.le

theorem Approx.lt {m : ℕ} {e : ℤ} {sticky : Bool} {x : ℝ} (h : Approx m e sticky x) : x < (m + 1) * 2 ^ e := by
  cases sticky with
  | false => exact (show x = m * 2 ^ e from h) ▸ mul_lt_mul_of_pos_right (lt_add_one _) (two_zpow_pos e)
  | true => exact h.2

/-- What lies above the units of `2^k` in `m` units of `2^e`: the remainder, in units of `2^e`. -/
theorem Approx.rest {m : ℕ} {e k : ℤ} {sticky : Bool} {x : ℝ} (h : Approx m e sticky x) (hk : e < k) :
    Approx (m % 2 ^ (k - e).toNat) e sticky (x - (m / 2 ^ (k - e).toNat : ℕ) * 2 ^ k) := by
  have hm : (m : ℝ) * 2 ^ e = (m / 2 ^ (k - e).toNat : ℕ) * 2 ^ k + (m % 2 ^ (k - e).toNat : ℕ) * 2 ^ e := by
    rw [two_zpow_split hk.le]
    have := Nat.div_add_mod m (2 ^ (k - e).toNat)
    nth_rewrite 1 [← this]
    push_cast
    ring
  cases sticky with
  | false =>
    simp only [Approx, Bool.false_eq_true, if_false] at h ⊢
    rw [h, hm, add_sub_cancel_left]
  | true =>
    simp only [Approx, if_true] at h ⊢
    constructor <;> linarith [h.1, h.2]

theorem roundUnit_of_le {k e : ℤ} (h : k ≤ e) (mode : Mode) (neg : Bool) (m : ℕ) :
    roundUnit mode neg m e false k = (m * 2 ^ (e - k).toNat, false) := by
  unfold roundUnit
  rw [if_pos h]
  cases mode <;> rfl

/-- The model's decision to go up from `n` units, of which a remainder `r` of `2 * half` is left. -/
def goesUp (mode : Mode) (neg sticky : Bool) (n r half : ℕ) : Bool :=
  match mode with
  | .rne => r > half || (r == half && (sticky || n % 2 == 1))
  | .rtz => false
  | .rup => (r != 0 || sticky) && !neg
  | .rdn => (r != 0 || sticky) && neg

theorem roundUnit_of_lt {k e : ℤ} (h : e < k) (mode : Mode) (neg sticky : Bool) (m : ℕ) :
    roundUnit mode neg m e sticky k =
      (if goesUp mode neg sticky (m / 2 ^ (k - e).toNat) (m % 2 ^ (k - e).toNat) (2 ^ ((k - e).toNat - 1))
        then m / 2 ^ (k - e).toNat + 1 else m / 2 ^ (k - e).toNat, m % 2 ^ (k - e).toNat != 0 || sticky) := by
  unfold roundUnit
  rw [if_neg (by omega)]
  cases mode <;> rfl

theorem Approx.pos_iff {r : ℕ} {e : ℤ} {sticky : Bool} {d : ℝ} (h : Approx r e sticky d) :
    0 < d ↔ (r != 0 || sticky) = true := by
  have hc := two_zpow_pos e
  cases sticky with
  | false =>
    rw [show d = r * 2 ^ e from h, mul_pos_iff_of_pos_right hc]
    simp [Nat.pos_iff_ne_zero]
  | true =>
    have : (0 : ℝ) ≤ r * 2 ^ e := by positivity
    simpa using this.trans_lt h.1

/-- The model goes up where R41 does. -/
theorem goesUp_iff {mode : Mode} {neg sticky : Bool} {n r half : ℕ} {e : ℤ} {u x : ℝ} (hu : u = 2 * half * 2 ^ e)
    (h : Approx r e sticky (x - n * u)) : goesUp mode neg sticky n r half = true ↔ RoundsUp mode neg u x n := by
  have hc := two_zpow_pos e
  have hpos : n * u < x ↔ (r != 0 || sticky) = true := by rw [← h.pos_iff, sub_pos]
  cases mode with
  | rtz => cases neg <;> simp [goesUp, RoundsUp]
  | rup => cases neg <;> simp [goesUp, RoundsUp, hpos]
  | rdn => cases neg <;> simp [goesUp, RoundsUp, hpos]
  | rne =>
    simp only [goesUp, RoundsUp, Bool.or_eq_true, Bool.and_eq_true, decide_eq_true_eq, beq_iff_eq]
    have hlt : ∀ a b : ℕ, (a : ℝ) * 2 ^ e < b * 2 ^ e ↔ a < b := fun a b => by
      rw [mul_lt_mul_iff_left₀ hc, Nat.cast_lt]
    cases sticky with
    | false =>
      have hd : x - n * u = r * 2 ^ e := h
      have h1 : u < 2 * (x - n * u) ↔ half < r := by
        rw [hd, hu, ← hlt half r]
        constructor <;> intro h <;> linarith
      have h2 : 2 * (x - n * u) = u ↔ r = half := by
        rw [hd, hu, mul_assoc, mul_right_inj' two_ne_zero, mul_left_inj' hc.ne', Nat.cast_inj]
      rw [h1, h2]
      simp
    | true =>
      have hle : half < r ∨ r = half ∨ r + 1 ≤ half := by omega
      have h1 : u < 2 * (x - n * u) ↔ half ≤ r := by
        refine ⟨fun hup => ?_, fun hr => ?_⟩
        · by_contra hr
          have : ((r + 1 : ℕ) : ℝ) * 2 ^ e ≤ half * 2 ^ e :=
            mul_le_mul_of_nonneg_right (by exact_mod_cast Nat.lt_of_not_le hr) hc.le
          push_cast at this
          linarith [h.2]
        · have : (half : ℝ) * 2 ^ e ≤ r * 2 ^ e := mul_le_mul_of_nonneg_right (by exact_mod_cast hr) hc.le
          linarith [h.1]
      have h2 : 2 * (x - n * u) ≠ u := fun heq => by
        have h3 : (half : ℝ) * 2 ^ e < (r + 1 : ℕ) * 2 ^ e := by push_cast; linarith [h.2]
        have h4 : (r : ℝ) * 2 ^ e < half * 2 ^ e := by linarith [h.1]
        rw [hlt] at h3 h4
        omega
      rw [h1]
      simp only [h2, false_and, or_false, true_or, and_true]
      exact (le_iff_lt_or_eq.trans (or_congr_right eq_comm)).symm

/-- The model's rounding to a unit is that of R41. -/
theorem roundUnit_roundsTo {m : ℕ} {e k : ℤ} {sticky : Bool} {x : ℝ} (h : Approx m e sticky x)
    (hk : sticky = true → e < k) (mode : Mode) (neg : Bool) :
    RoundsTo mode neg (2 ^ k) x (roundUnit mode neg m e sticky k).1
      ∧ ((roundUnit mode neg m e sticky k).2 = true ↔ (roundUnit mode neg m e sticky k).1 * 2 ^ k ≠ x) := by
  have hu := two_zpow_pos k
  by_cases hek : e < k
  · rw [roundUnit_of_lt hek]
    set n := m / 2 ^ (k - e).toNat with hn
    have hrest := h.rest hek
    rw [← hn] at hrest
    have hunit : (2 : ℝ) ^ k = 2 * (2 ^ ((k - e).toNat - 1) : ℕ) * 2 ^ e := by
      have hsh : 2 ^ (k - e).toNat = 2 * 2 ^ ((k - e).toNat - 1) := by rw [← pow_succ', Nat.sub_add_cancel (by omega)]
      rw [two_zpow_split hek.le, hsh, Nat.cast_mul, Nat.cast_ofNat]
    have hup := goesUp_iff (mode := mode) (neg := neg) hunit hrest
    have hlo : n * (2 : ℝ) ^ k ≤ x := by
      have : (0 : ℝ) ≤ (m % 2 ^ (k - e).toNat : ℕ) * 2 ^ e := by positivity
      linarith [hrest.le]
    have hhi : x < (n + 1) * (2 : ℝ) ^ k := by
      have : ((m % 2 ^ (k - e).toNat : ℕ) + 1 : ℝ) * 2 ^ e ≤ (2 ^ (k - e).toNat : ℕ) * 2 ^ e :=
        mul_le_mul_of_nonneg_right (by exact_mod_cast Nat.mod_lt _ (by positivity)) (two_zpow_pos e).le
      rw [← two_zpow_split hek.le] at this
      linarith [hrest.lt]
    have hpos : n * (2 : ℝ) ^ k ≠ x ↔ (m % 2 ^ (k - e).toNat != 0 || sticky) = true := by
      rw [← hrest.pos_iff, sub_pos]
      exact ⟨fun h => lt_of_le_of_ne hlo h, ne_of_lt⟩
    by_cases hg : goesUp mode neg sticky n (m % 2 ^ (k - e).toNat) (2 ^ ((k - e).toNat - 1)) = true
    · rw [if_pos hg]
      refine ⟨roundsTo_up hlo hhi (hup.1 hg), ?_⟩
      have hne : ((n + 1 : ℕ) : ℝ) * 2 ^ k ≠ x := by push_cast; exact hhi.ne'
      have hin : (m % 2 ^ (k - e).toNat != 0 || sticky) = true := by
        by_contra hin
        rw [← hpos, not_not] at hin
        exact not_roundsUp_multiple hu (hin ▸ hup.1 hg)
      exact iff_of_true hin hne
    · rw [if_neg hg]
      exact ⟨roundsTo_down hlo hhi (mt hup.2 hg), hpos.symm⟩
  · have hst : sticky = false := by
      cases sticky with
      | false => rfl
      | true => exact absurd (hk rfl) hek
    subst hst
    have hx : ((m * 2 ^ (e - k).toNat : ℕ) : ℝ) * 2 ^ k = x := by
      rw [show x = m * 2 ^ e from h, two_zpow_split (not_lt.1 hek), Nat.cast_mul, mul_assoc]
    rw [roundUnit_of_le (not_lt.1 hek)]
    exact ⟨hx ▸ roundsTo_multiple hu mode neg _, by simpa using hx⟩

end Sys2Proof.Machine
end

section
/-! SUPPORT. The binary formats (02 R31), and rounding in one of them (02 R41 to R43) on exact real values. -/

namespace Sys2Proof.Machine
open Sys2Proof.Safety Sys2Proof.Claims

/-! ### The formats (R31) -/

/-- The model's format of a binary type agrees with that of the claims. -/
structure HasFormat (t : Ty) (f : Binary) : Prop where
  fbits : t.fmt.fbits = f.p - 1
  ebits : t.fmt.ebits = t.width - f.p
  emin : t.fmt.emin = f.emin
  bias : t.fmt.bias = 1 - f.emin
  p : t.fmt.p = f.p
  p_low : 3 ≤ f.p
  p_high : f.p ≤ 53
  ebits_low : 4 ≤ t.width - f.p
  width : f.p ≤ t.width
  maxM : t.fmt.maxM = f.top
  maxE : t.fmt.maxE = f.topExp
  top_lt : f.top < 2 ^ f.p
  top_range : f.topExp + f.p ≤ f.emin + ((2 ^ (t.width - f.p) : ℕ) : ℤ) - 1
  hasInf : t.fmt.hasInf = decide (t ≠ .e4m3)
  signBit : t.signBit = 2 ^ (t.width - 1)
  infMag : t.infMag = infinity t f
  maxMag : t.maxMag = if t = .e4m3 then 0x7E else infinity t f - 1
  nan : t.nan = quietNan t
  not_l6 : t ≠ .l6
  not_int : t.isInt = false

theorem hasFormat {t : Ty} {f : Binary} (h : binary t = some f) : HasFormat t f := by
  cases t <;> cases h <;> constructor <;> decide

namespace HasFormat
variable {t : Ty} {f : Binary} (h : HasFormat t f)
include h

theorem signed_eq (neg : Bool) (mag : ℕ) : signed t neg mag = signAt t neg + mag := by
  cases neg <;> simp [signed, signAt, h.signBit]

theorem signed_zero (neg : Bool) : signed t neg 0 = signAt t neg := h.signed_eq neg 0

theorem zeroBits_eq (neg : Bool) : zeroBits t neg = signAt t neg := by
  rw [zeroBits, if_neg h.not_l6, h.signed_zero]

theorem roundFin_eq (mode : Mode) (sat fzo neg : Bool) (m : ℕ) (e : ℤ) (sticky : Bool) :
    roundFin t mode sat fzo neg m e sticky = roundFmt t.fmt t mode sat fzo neg m e sticky := if_neg h.not_l6

/-- R43 for a binary type. -/
theorem overflow_eq (mode : Mode) (neg sat : Bool) : overflow t mode neg sat = overflowedIn t f mode sat neg := by
  have hinf : (if t.fmt.hasInf then signed t neg t.infMag else t.nan) =
      if t = .e4m3 then 0x7F else signAt t neg + infinity t f := by
    rw [h.hasInf, h.signed_eq, h.infMag]
    by_cases ht : t = .e4m3
    · subst ht; rfl
    · simp [ht]
  unfold overflow overflowedIn overflowed
  rw [hinf, h.signed_eq, h.maxMag]
  cases mode <;> cases neg <;> cases sat <;> simp <;> rfl

end HasFormat

/-! ### Binades -/

theorem binade_le {m : ℕ} (hm : m ≠ 0) (e : ℤ) : (2 : ℝ) ^ (e + Nat.log2 m) ≤ m * 2 ^ e := by
  rw [zpow_add₀ two_ne_zero, mul_comm, zpow_natCast]
  exact mul_le_mul_of_nonneg_right (by exact_mod_cast Nat.log2_self_le hm) (two_zpow_pos e).le

theorem succ_le_binade (m : ℕ) (e : ℤ) : ((m : ℝ) + 1) * 2 ^ e ≤ 2 ^ (e + Nat.log2 m + 1) := by
  rw [add_assoc, zpow_add₀ two_ne_zero, mul_comm]
  refine mul_le_mul_of_nonneg_left ?_ (two_zpow_pos e).le
  exact_mod_cast (Nat.lt_log2_self (n := m) : m < 2 ^ (m.log2 + 1))

theorem Approx.binade {m : ℕ} {e : ℤ} {sticky : Bool} {x : ℝ} (hm : m ≠ 0) (h : Approx m e sticky x) :
    (2 : ℝ) ^ (e + Nat.log2 m) ≤ x ∧ x < 2 ^ (e + Nat.log2 m + 1) :=
  ⟨(binade_le hm e).trans h.le, h.lt.trans_le (succ_le_binade m e)⟩

theorem two_zpow_le {a b : ℤ} : (2 : ℝ) ^ a ≤ 2 ^ b ↔ a ≤ b := zpow_le_zpow_iff_right₀ one_lt_two
theorem two_zpow_lt {a b : ℤ} : (2 : ℝ) ^ a < 2 ^ b ↔ a < b := zpow_lt_zpow_iff_right₀ one_lt_two

/-- A power of two is above a magnitude just where it is above its binade. -/
theorem lt_two_zpow_iff {a g : ℤ} {x : ℝ} (h : (2 : ℝ) ^ a ≤ x ∧ x < 2 ^ (a + 1)) : x < 2 ^ g ↔ a < g :=
  ⟨fun hx => two_zpow_lt.1 (h.1.trans_lt hx), fun ha => h.2.trans_le (two_zpow_le.2 ha)⟩

theorem binade_unique {a b : ℤ} {x : ℝ} (h : (2 : ℝ) ^ a ≤ x ∧ x < 2 ^ (a + 1)) (h' : (2 : ℝ) ^ b ≤ x ∧ x < 2 ^ (b + 1)) :
    a = b :=
  le_antisymm (Int.lt_add_one_iff.1 ((lt_two_zpow_iff h).1 h'.2)) (Int.lt_add_one_iff.1 ((lt_two_zpow_iff h').1 h.2))

/-! ### The encoding of a value that the format holds (R31) -/

theorem magnitude_subnormal (f : Binary) (fr : ℕ) : ((magnitude f 0 fr : ℚ) : ℝ) = fr * 2 ^ (f.emin - (f.p - 1 : ℕ)) := by
  simp [magnitude]

theorem magnitude_normal (f : Binary) {ex : ℕ} (h : ex ≠ 0) (fr : ℕ) :
    ((magnitude f ex fr : ℚ) : ℝ) = (2 ^ (f.p - 1) + fr : ℕ) * 2 ^ (f.emin + ex - 1 - (f.p - 1 : ℕ)) := by
  simp [magnitude, h]

/-- A magnitude has at most p significant bits, none below the smallest subnormal value. -/
def OnGrid (f : Binary) (x : ℝ) : Prop := ∃ (j : ℕ) (s : ℤ), x = j * 2 ^ s ∧ j < 2 ^ f.p ∧ f.emin - (f.p - 1 : ℕ) ≤ s

/-- A rounded significand, which can be the power of two above. -/
theorem onGrid_of_le {f : Binary} {j : ℕ} {s : ℤ} (hp : f.p ≠ 0) (hj : j ≤ 2 ^ f.p) (hs : f.emin - (f.p - 1 : ℕ) ≤ s) :
    OnGrid f (j * 2 ^ s) := by
  rcases hj.lt_or_eq with hj | rfl
  · exact ⟨j, s, rfl, hj, hs⟩
  · refine ⟨1, s + f.p, ?_, Nat.one_lt_two_pow hp, by omega⟩
    rw [zpow_add₀ two_ne_zero, zpow_natCast]
    push_cast
    ring

/-- `m` units of `2^e` in units of `2^g`. -/
def inUnits (m : ℕ) (e g : ℤ) : ℕ := if g ≤ e then m * 2 ^ (e - g).toNat else m / 2 ^ (g - e).toNat

theorem inUnits_eq {m j : ℕ} {e g : ℤ} (h : (m : ℝ) * 2 ^ e = j * 2 ^ g) : inUnits m e g = j := by
  unfold inUnits
  split
  next hge =>
    rw [two_zpow_split hge, ← mul_assoc, mul_left_inj' (two_zpow_pos g).ne'] at h
    exact_mod_cast h
  next hge =>
    rw [two_zpow_split (not_le.1 hge).le, ← mul_assoc, mul_left_inj' (two_zpow_pos e).ne'] at h
    rw [show m = j * 2 ^ (g - e).toNat by exact_mod_cast h, Nat.mul_div_cancel _ (by positivity)]

theorem encodeFin_zero (t : Ty) (neg : Bool) (e : ℤ) : encodeFin t neg 0 e = signed t neg 0 := rfl

theorem encodeFin_eq (t : Ty) (neg : Bool) {m : ℕ} (hm : m ≠ 0) (e : ℤ) : encodeFin t neg m e =
    if t.fmt.emin ≤ e + Nat.log2 m then signed t neg ((e + Nat.log2 m + t.fmt.bias).toNat * 2 ^ t.fmt.fbits
      + inUnits m e (e + Nat.log2 m - t.fmt.fbits) % 2 ^ t.fmt.fbits)
    else signed t neg (inUnits m e (t.fmt.emin - t.fmt.fbits)) := if_neg hm

/-- The encoding of a value on the grid, below the range of the exponent field. -/
theorem HasFormat.encodeFin {t : Ty} {f : Binary} (h : HasFormat t f) {m : ℕ} {e : ℤ} (neg : Bool) (hg : OnGrid f (m * 2 ^ e))
    (hr : (m : ℝ) * 2 ^ e < 2 ^ (f.emin + ((2 ^ (t.width - f.p) : ℕ) : ℤ) - 1)) :
    ∃ ex fr, fr < 2 ^ (f.p - 1) ∧ ex < 2 ^ (t.width - f.p) ∧ encodeFin t neg m e = encoding t f neg ex fr
      ∧ ((magnitude f ex fr : ℚ) : ℝ) = m * 2 ^ e := by
  have hp := h.p_low
  rcases eq_or_ne m 0 with rfl | hm
  · refine ⟨0, 0, by positivity, by positivity, ?_, by simp [magnitude]⟩
    simp [encodeFin_zero, h.signed_zero, encoding]
  have hbin := (approx_exact m e).binade hm
  obtain ⟨j, s, hx, hj, hs⟩ := hg
  have hunits : ∀ g, g ≤ s → (m : ℝ) * 2 ^ e = (j * 2 ^ (s - g).toNat : ℕ) * 2 ^ g := fun g hgs => by
    rw [hx, two_zpow_split hgs, Nat.cast_mul, mul_assoc]
  rw [encodeFin_eq t neg hm, h.emin, h.bias, h.fbits]
  split
  next hnormal =>
    set top := e + Nat.log2 m with htop
    have hgs : top - (f.p - 1 : ℕ) ≤ s := by
      have hlt : (2 : ℝ) ^ top < 2 ^ ((f.p : ℤ) + s) := by
        refine hbin.1.trans_lt ?_
        rw [hx, zpow_add₀ two_ne_zero, zpow_natCast]
        exact mul_lt_mul_of_pos_right (by exact_mod_cast hj) (two_zpow_pos s)
      have := two_zpow_lt.1 hlt
      omega
    have hu := hunits _ hgs
    rw [inUnits_eq hu]
    set J := j * 2 ^ (s - (top - (f.p - 1 : ℕ))).toNat
    have hpow : (2 : ℝ) ^ top = (2 ^ (f.p - 1) : ℕ) * 2 ^ (top - (f.p - 1 : ℕ)) := by
      rw [two_zpow_split (show top - (f.p - 1 : ℕ) ≤ top by omega)]
      congr 4
      omega
    have hlow : 2 ^ (f.p - 1) ≤ J := by
      have := hbin.1
      rw [hu, hpow, mul_le_mul_iff_left₀ (two_zpow_pos _)] at this
      exact_mod_cast this
    have hhigh : J < 2 * 2 ^ (f.p - 1) := by
      have := hbin.2
      rw [hu, zpow_add₀ two_ne_zero, hpow, zpow_one, mul_right_comm, mul_lt_mul_iff_left₀ (two_zpow_pos _)] at this
      rw [mul_comm]
      exact_mod_cast this
    have hex : top < f.emin + ((2 ^ (t.width - f.p) : ℕ) : ℤ) - 1 := (lt_two_zpow_iff hbin).1 hr
    have hmod : J % 2 ^ (f.p - 1) = J - 2 ^ (f.p - 1) := by
      rw [Nat.mod_eq_sub_mod hlow, Nat.mod_eq_of_lt (by omega)]
    refine ⟨(top + (1 - f.emin)).toNat, J - 2 ^ (f.p - 1), by omega, by omega, ?_, ?_⟩
    · rw [h.signed_eq, hmod, encoding, Nat.add_assoc]
    · rw [magnitude_normal f (by omega), hu, Nat.add_sub_of_le hlow]
      congr 2
      omega
  next hsub =>
    have hu := hunits _ hs
    rw [inUnits_eq hu]
    have hlt : j * 2 ^ (s - (f.emin - (f.p - 1 : ℕ))).toNat < 2 ^ (f.p - 1) := by
      have := (lt_two_zpow_iff hbin).2 (not_le.1 hsub)
      rw [hu, two_zpow_split (show f.emin - (f.p - 1 : ℕ) ≤ f.emin by omega), mul_lt_mul_iff_left₀ (two_zpow_pos _)] at this
      rw [show (f.emin - (f.emin - (f.p - 1 : ℕ))).toNat = f.p - 1 by omega] at this
      exact_mod_cast this
    refine ⟨0, _, hlt, by positivity, ?_, ?_⟩
    · rw [h.signed_eq, encoding, zero_mul, add_zero]
    · rw [magnitude_subnormal, hu]

/-! ### Rounding to a precision (R41 to R43) -/

/-- A format to which a result of a binary type is rounded: the type's own, or that of an estimate (R127). -/
structure Precision (fm : Fmt) (f : Binary) : Prop where
  emin : fm.emin = f.emin
  pos : 1 ≤ fm.p
  le : fm.p ≤ f.p
  big : (fm.maxM : ℝ) * 2 ^ fm.maxE =
    if fm.p = f.p then f.top * (2 : ℝ) ^ f.topExp else (2 ^ fm.p - 1) * (2 : ℝ) ^ (f.topExp + f.p - fm.p)
  big_lt : (fm.maxM : ℝ) * 2 ^ fm.maxE < 2 ^ (f.topExp + f.p)

theorem HasFormat.precision {t : Ty} {f : Binary} (h : HasFormat t f) : Precision t.fmt f where
  emin := h.emin
  pos := by have := h.p; have := h.p_low; omega
  le := h.p.le
  big := by rw [if_pos h.p, h.maxM, h.maxE]
  big_lt := by
    rw [h.maxM, h.maxE, add_comm, zpow_add₀ two_ne_zero, zpow_natCast]
    exact mul_lt_mul_of_pos_right (by exact_mod_cast h.top_lt) (two_zpow_pos _)

/-- The 8-bit format of the estimates (R127). -/
theorem HasFormat.precision_est {t : Ty} {f : Binary} (h : HasFormat t f) (ht : t.isBin = true) : Precision t.estFmt f where
  emin := h.emin
  pos := show 1 ≤ 8 by decide
  le := by cases t <;> cases ht <;> (have := h.p; exact this ▸ by decide)
  big := by
    show ((255 : ℕ) : ℝ) * 2 ^ (t.fmt.maxE + t.fmt.p - 8) = if 8 = f.p then _ else ((2 : ℝ) ^ 8 - 1) * 2 ^ (f.topExp + f.p - (8 : ℕ))
    rw [h.maxE, h.p]
    split
    next h8 =>
      have htop : f.top = 255 := by
        have hp8 : t.fmt.p = 8 := h.p.trans h8.symm
        rw [← h.maxM]
        revert hp8
        cases t <;> cases ht <;> decide
      rw [htop, ← h8]
      norm_num
    next => norm_num
  big_lt := by
    show ((255 : ℕ) : ℝ) * 2 ^ (t.fmt.maxE + t.fmt.p - 8) < _
    rw [h.maxE, h.p, show f.topExp + (f.p : ℤ) = (8 : ℕ) + (f.topExp + f.p - 8) by push_cast; ring, zpow_add₀ two_ne_zero,
      zpow_natCast]
    simp only [Nat.cast_ofNat, add_sub_cancel_left]
    exact mul_lt_mul_of_pos_right (by norm_num) (two_zpow_pos _)

section Rounding
variable {t : Ty} {f : Binary} {fm : Fmt} {m : ℕ} {e : ℤ} {sticky : Bool} {x : ℝ}

/-- The exponent of the last place of a magnitude, and that of the smallest subnormal value, in a precision. -/
def lastPlace (fm : Fmt) (m : ℕ) (e : ℤ) : ℤ := e + Nat.log2 m + 1 - fm.p
def lowestPlace (fm : Fmt) : ℤ := fm.emin - (fm.p - 1 : ℕ)

theorem two_zpow_add_nat (a : ℤ) (j : ℕ) : ((2 ^ j : ℕ) : ℝ) * 2 ^ a = 2 ^ (a + j) := by
  rw [add_comm, zpow_add₀ two_ne_zero, zpow_natCast, Nat.cast_pow, Nat.cast_ofNat]

/-- A rounded significand below the range of the exponent field has an encoding. -/
theorem HasFormat.encodeFin_rounded (h : HasFormat t f) (hp : Precision fm f) {j : ℕ} {s : ℤ} (neg : Bool) (hj : j ≤ 2 ^ fm.p)
    (hs : lowestPlace fm ≤ s) (hr : (j : ℝ) * 2 ^ s < 2 ^ (f.emin + ((2 ^ (t.width - f.p) : ℕ) : ℤ) - 1)) :
    ∃ ex fr, fr < 2 ^ (f.p - 1) ∧ ex < 2 ^ (t.width - f.p) ∧ Machine.encodeFin t neg j s = encoding t f neg ex fr
      ∧ ((magnitude f ex fr : ℚ) : ℝ) = j * 2 ^ s := by
  have hpos := hp.pos
  have hle := hp.le
  have hmin := hp.emin
  unfold lowestPlace at hs
  exact h.encodeFin neg (onGrid_of_le (by omega) (hj.trans (Nat.pow_le_pow_right two_pos hle)) (by omega)) hr

/-- A magnitude below the normal range, rounded to the lowest place. -/
theorem HasFormat.encodeFin_subnormal (h : HasFormat t f) (hp : Precision fm f) {mode : Mode} {neg : Bool} {j : ℕ}
    (hj : RoundsTo mode neg (2 ^ lowestPlace fm) x j) (hx : x < 2 ^ f.emin) :
    ∃ ex fr, fr < 2 ^ (f.p - 1) ∧ ex < 2 ^ (t.width - f.p)
      ∧ Machine.encodeFin t neg j (lowestPlace fm) = encoding t f neg ex fr
      ∧ ((magnitude f ex fr : ℚ) : ℝ) = j * 2 ^ lowestPlace fm := by
  have hone : ((2 ^ (fm.p - 1) : ℕ) : ℝ) * 2 ^ lowestPlace fm = 2 ^ f.emin := by
    rw [two_zpow_add_nat, lowestPlace, hp.emin, sub_add_cancel]
  have hle : j ≤ 2 ^ (fm.p - 1) := roundsTo_ge_of_ge (two_zpow_pos _) hj (hone ▸ hx.le)
  have hexp : 2 ^ 4 ≤ 2 ^ (t.width - f.p) := Nat.pow_le_pow_right two_pos h.ebits_low
  refine h.encodeFin_rounded hp neg (hle.trans (Nat.pow_le_pow_right two_pos (Nat.sub_le ..))) le_rfl ?_
  calc (j : ℝ) * 2 ^ lowestPlace fm ≤ (2 ^ (fm.p - 1) : ℕ) * 2 ^ lowestPlace fm :=
        mul_le_mul_of_nonneg_right (by exact_mod_cast hle) (two_zpow_pos _).le
    _ = 2 ^ f.emin := hone
    _ < _ := two_zpow_lt.2 (by omega)

section LastPlace
variable {mode : Mode} {neg : Bool} {j : ℕ} (hj : RoundsTo mode neg (2 ^ lastPlace fm m e) x j)
  (hb : (2 : ℝ) ^ (e + Nat.log2 m) ≤ x ∧ x < 2 ^ (e + Nat.log2 m + 1))
include hj hb

/-- A magnitude of the normal range does not round below it. -/
theorem Precision.emin_le_rounded (hp : Precision fm f) (hx : (2 : ℝ) ^ f.emin ≤ x) :
    (2 : ℝ) ^ f.emin ≤ j * 2 ^ lastPlace fm m e := by
  have hpos := hp.pos
  have hmin : f.emin ≤ e + Nat.log2 m := not_lt.1 fun hlt => hx.not_gt ((lt_two_zpow_iff hb).2 hlt)
  have hone : ((2 ^ (fm.p - 1) : ℕ) : ℝ) * 2 ^ lastPlace fm m e = 2 ^ (e + Nat.log2 m) := by
    rw [two_zpow_add_nat, lastPlace]
    congr 1
    omega
  have hle := roundsTo_le_of_le (two_zpow_pos _) hj (hone.trans_le hb.1)
  calc (2 : ℝ) ^ f.emin ≤ 2 ^ (e + Nat.log2 m) := two_zpow_le.2 hmin
    _ = (2 ^ (fm.p - 1) : ℕ) * 2 ^ lastPlace fm m e := hone.symm
    _ ≤ j * 2 ^ lastPlace fm m e := mul_le_mul_of_nonneg_right (by exact_mod_cast hle) (two_zpow_pos _).le

/-- A magnitude of the normal range, rounded to its last place. -/
theorem HasFormat.encodeFin_normal (h : HasFormat t f) (hp : Precision fm f) (hx : (2 : ℝ) ^ f.emin ≤ x)
    (hle : (j : ℝ) * 2 ^ lastPlace fm m e ≤ fm.maxM * 2 ^ fm.maxE) :
    ∃ ex fr, fr < 2 ^ (f.p - 1) ∧ ex < 2 ^ (t.width - f.p)
      ∧ Machine.encodeFin t neg j (lastPlace fm m e) = encoding t f neg ex fr
      ∧ ((magnitude f ex fr : ℚ) : ℝ) = j * 2 ^ lastPlace fm m e := by
  have hpos := hp.pos
  have hmin : f.emin ≤ e + Nat.log2 m := not_lt.1 fun hlt => hx.not_gt ((lt_two_zpow_iff hb).2 hlt)
  have hone : ((2 ^ fm.p : ℕ) : ℝ) * 2 ^ lastPlace fm m e = 2 ^ (e + Nat.log2 m + 1) := by
    rw [two_zpow_add_nat, lastPlace, sub_add_cancel]
  refine h.encodeFin_rounded hp neg (roundsTo_ge_of_ge (two_zpow_pos _) hj (hone ▸ hb.2.le)) ?_
    ((hle.trans_lt hp.big_lt).trans_le (two_zpow_le.2 h.top_range))
  have := hp.emin
  unfold lowestPlace lastPlace
  omega

end LastPlace

/-- The four outcomes of a rounding, by comparisons of exact values. -/
theorem roundFmt_eq (h : HasFormat t f) (hp : Precision fm f) (mode : Mode) (sat fzo neg : Bool) (hm : m ≠ 0)
    (ha : Approx m e sticky x) :
    let r := roundUnit mode neg m e sticky (lastPlace fm m e)
    let r' := roundUnit mode neg m e sticky (lowestPlace fm)
    ((fm.maxM : ℝ) * 2 ^ fm.maxE < r.1 * 2 ^ lastPlace fm m e →
      roundFmt fm t mode sat fzo neg m e sticky = overflowedIn t f mode sat neg)
    ∧ (r.1 * 2 ^ lastPlace fm m e ≤ (fm.maxM : ℝ) * 2 ^ fm.maxE →
      (r.1 * (2 : ℝ) ^ lastPlace fm m e < 2 ^ f.emin → roundFmt fm t mode sat fzo neg m e sticky =
        if fzo then (signAt t neg, 3) else (encodeFin t neg r'.1 (lowestPlace fm), if r'.2 then 3 else 0))
      ∧ ((2 : ℝ) ^ f.emin ≤ r.1 * 2 ^ lastPlace fm m e → roundFmt fm t mode sat fzo neg m e sticky =
        if x < 2 ^ f.emin then (encodeFin t neg r'.1 (lowestPlace fm), if r'.2 then 1 else 0)
        else (encodeFin t neg r.1 (lastPlace fm m e), if r.2 then 1 else 0))) := by
  intro r r'
  have hover : dyLt fm.maxM fm.maxE r.1 (lastPlace fm m e) = true ↔
      (fm.maxM : ℝ) * 2 ^ fm.maxE < r.1 * 2 ^ lastPlace fm m e := dyLt_iff ..
  have htiny : dyLt r.1 (lastPlace fm m e) 1 fm.emin = true ↔ r.1 * (2 : ℝ) ^ lastPlace fm m e < 2 ^ f.emin := by
    rw [dyLt_iff, Nat.cast_one, one_mul, hp.emin]
  have hsub : dyLt m e 1 fm.emin = true ↔ x < 2 ^ f.emin := by
    rw [dyLt_iff, Nat.cast_one, one_mul, hp.emin, lt_two_zpow_iff ((approx_exact m e).binade hm),
      lt_two_zpow_iff (ha.binade hm)]
  have heq : roundFmt fm t mode sat fzo neg m e sticky =
      if dyLt fm.maxM fm.maxE r.1 (lastPlace fm m e) then overflow t mode neg sat
      else if dyLt r.1 (lastPlace fm m e) 1 fm.emin then
        if fzo then (signed t neg 0, 3) else (encodeFin t neg r'.1 (lowestPlace fm), if r'.2 then 3 else 0)
      else if dyLt m e 1 fm.emin then (encodeFin t neg r'.1 (lowestPlace fm), if r'.2 then 1 else 0)
      else (encodeFin t neg r.1 (lastPlace fm m e), if r.2 then 1 else 0) := rfl
  rw [heq, h.overflow_eq, h.signed_zero]
  refine ⟨fun hv => if_pos (hover.2 hv), fun hv => ⟨fun ht => ?_, fun ht => ?_⟩⟩
  · rw [if_neg (mt hover.1 hv.not_gt), if_pos (htiny.2 ht)]
  · rw [if_neg (mt hover.1 hv.not_gt), if_neg (mt htiny.1 ht.not_gt)]
    simp only [hsub]

/-- The model's rounding in a binary type is that of R41 to R43. -/
theorem roundFmt_rounded (h : HasFormat t f) (hf : binary t = some f) (hp : Precision fm f) (mode : Mode) (sat fzo neg : Bool)
    (hm : m ≠ 0) (ha : Approx m e sticky x) (hst : sticky = true → fm.p ≤ Nat.log2 m) :
    Rounded t fm.p mode sat fzo neg x (roundFmt fm t mode sat fzo neg m e sticky) := by
  intro f' e0 n k big v w hf' hbig hlo hhi hn hv hk hw hw'
  obtain rfl : f = f' := Option.some.inj (hf.symm.trans hf')
  have hb := ha.binade hm
  obtain rfl : e0 = e + Nat.log2 m := binade_unique ⟨hlo, hhi⟩ hb
  rw [← hp.big] at hbig
  have hmin := hp.emin
  have hpos := hp.pos
  have hlast : e + Nat.log2 m + 1 - (fm.p : ℤ) = lastPlace fm m e := rfl
  have hlowest : f.emin + 1 - (fm.p : ℤ) = lowestPlace fm := by unfold lowestPlace; omega
  rw [hlast] at hn hv
  rw [hlowest] at hk hw
  obtain ⟨hr, hinexact⟩ := roundUnit_roundsTo ha (k := lastPlace fm m e)
    (fun hs => by have := hst hs; unfold lastPlace; omega) mode neg
  obtain ⟨hover, hfit⟩ := roundFmt_eq h hp mode sat fzo neg hm ha
  set r := roundUnit mode neg m e sticky (lastPlace fm m e)
  set r' := roundUnit mode neg m e sticky (lowestPlace fm) with hr'def
  obtain rfl := roundsTo_unique (two_zpow_pos _) hn hr
  rw [← hv] at hover hfit hinexact
  rw [← hbig] at hover hfit
  refine ⟨hover, fun hle ht hz => by rw [(hfit hle).1 ht, if_pos hz], fun hle hz => ?_⟩
  by_cases hx : x < 2 ^ f.emin
  · have hlt : e + Nat.log2 m < f.emin := (lt_two_zpow_iff hb).1 hx
    obtain ⟨hr', hinexact'⟩ := roundUnit_roundsTo ha (k := lowestPlace fm)
      (fun hs => by have := hst hs; unfold lowestPlace; omega) mode neg
    rw [← hr'def] at hr' hinexact'
    obtain rfl := roundsTo_unique (two_zpow_pos _) hk hr'
    have hflag : ∀ c : Flags, (w = x → (if r'.2 then c else 0) = 0) ∧ (w ≠ x → (if r'.2 then c else 0) = c) := fun c => by
      rw [hw hx]
      exact ⟨fun hwx => if_neg fun h2 => hinexact'.1 h2 hwx, fun hwx => if_pos (hinexact'.2 hwx)⟩
    obtain ⟨ex, fr, hfr, hex, henc, hmag⟩ := h.encodeFin_subnormal hp hr' hx
    rcases lt_or_ge v (2 ^ f.emin) with ht | ht
    · rw [(hfit hle).1 ht, hz ht]
      exact ⟨⟨ex, fr, hfr, hex, henc, hmag.trans (hw hx).symm⟩, (hflag 3).1, fun hwx _ => (hflag 3).2 hwx,
        fun _ hge => absurd ht hge.not_gt⟩
    · rw [(hfit hle).2 ht, if_pos hx]
      exact ⟨⟨ex, fr, hfr, hex, henc, hmag.trans (hw hx).symm⟩, (hflag 1).1, fun _ hlt => absurd hlt ht.not_gt,
        fun hwx _ => (hflag 1).2 hwx⟩
  · have hge := not_lt.1 hx
    have hvmin : (2 : ℝ) ^ f.emin ≤ v := hv ▸ hp.emin_le_rounded hr hb hge
    obtain ⟨ex, fr, hfr, hex, henc, hmag⟩ := h.encodeFin_normal hr hb hp hge (by rw [← hv, ← hbig]; exact hle)
    rw [(hfit hle).2 hvmin, if_neg hx, hw' hge]
    exact ⟨⟨ex, fr, hfr, hex, henc, hmag.trans hv.symm⟩, fun hwx => if_neg fun h2 => hinexact.1 h2 hwx,
      fun _ hlt => absurd hlt hvmin.not_gt, fun hwx _ => if_pos (hinexact.2 hwx)⟩

end Rounding

end Sys2Proof.Machine
end

section
/-! SUPPORT. Rounding to l6 (02 R33, R34, R44) on exact real values. -/

namespace Sys2Proof.Machine
open Sys2Proof.Safety Sys2Proof.Claims

/-- V(M) in units of 2^-19, with 0 below (R34). -/
def gridUnits (n : ℕ) : ℕ := if n = 0 then 0 else linT n * 2 ^ (n / 4)

theorem gridValue_eq (n : ℕ) : ((gridValue n : ℚ) : ℝ) = gridUnits n * 2 ^ (-19 : ℤ) := by
  rcases eq_or_ne n 0 with rfl | hn
  · simp [gridValue, gridUnits]
  have hT : ([32768, 38968, 46341, 55109].getD (n % 4) 0 : ℚ) = linT n := by
    have : n % 4 < 4 := Nat.mod_lt _ (by decide)
    unfold linT
    interval_cases n % 4 <;> rfl
  rw [gridValue, if_neg hn, gridUnits, if_neg hn, hT, sub_eq_add_neg, zpow_add₀ two_ne_zero, zpow_natCast]
  push_cast
  rw [mul_assoc]

/-- The value of a nonzero code (R34). -/
theorem l6Val_eq {n : ℕ} (hn : n ≠ 0) : ((l6Val n).1 : ℝ) * 2 ^ (l6Val n).2 = gridValue n := by
  rw [gridValue_eq, gridUnits, if_neg hn, l6Val, lin, show ((n / 4 : ℕ) : ℤ) - 15 - 4 = (n / 4 : ℕ) + -19 by ring,
    zpow_add₀ two_ne_zero, zpow_natCast]
  push_cast
  ring

theorem gridUnits_lt : ∀ i < 33, ∀ j < 33, i < j → gridUnits i < gridUnits j := by decide

theorem gridValue_mono {i j : ℕ} (hj : j < 33) (h : i ≤ j) : ((gridValue i : ℚ) : ℝ) ≤ (gridValue j : ℚ) := by
  rcases h.lt_or_eq with h | rfl
  · rw [gridValue_eq, gridValue_eq]
    exact mul_le_mul_of_nonneg_right (by exact_mod_cast (gridUnits_lt i (by omega) j hj h).le) (two_zpow_pos _).le
  · rfl

/-- The number of codes at or below a magnitude: the code of the grid value next below it. -/
theorem count_codes {n : ℕ} (hn : n < 32) {le : ℕ → Bool} (h : ∀ k < 32, k ≠ 0 → (le k = true ↔ k ≤ n)) :
    ((List.range 32).filter fun k => k != 0 && le k).length = n := by
  have hle : (List.range 32).filter (fun k => k != 0 && le k) = (List.range 32).filter fun k => k != 0 && decide (k ≤ n) := by
    refine List.filter_congr fun k hk => ?_
    rcases eq_or_ne k 0 with rfl | h0
    · rfl
    · rw [Bool.eq_iff_iff.2 ((h k (List.mem_range.1 hk) h0).trans decide_eq_true_iff.symm)]
  rw [hle]
  clear hle h le
  revert n
  decide

section RoundL6
variable {m : ℕ} {e : ℤ} {n : ℕ} (hn : n < 32) (hlo : ((gridValue n : ℚ) : ℝ) ≤ m * 2 ^ e)
  (hhi : n < 31 → (m : ℝ) * 2 ^ e < (gridValue (n + 1) : ℚ))
include hn hlo hhi

theorem count_grid :
    ((List.range 32).filter fun k => k != 0 && dyLe (l6Val k).1 (l6Val k).2 m e).length = n := by
  refine count_codes hn fun k hk h0 => ?_
  rw [dyLe_iff, l6Val_eq h0]
  refine ⟨fun hle => ?_, fun hle => (gridValue_mono (by omega) hle).trans hlo⟩
  by_contra hlt
  exact (hhi (by omega)).not_ge ((gridValue_mono (by omega) (by omega : n + 1 ≤ k)).trans hle)

/-- Twice the magnitude lies above the sum of its neighbours on the grid, or is equal to it. -/
def gridAbove (n m : ℕ) (e : ℤ) : Bool := dyLt (gridUnits n + gridUnits (n + 1)) (-19) m (e + 1)
def gridTie (n m : ℕ) (e : ℤ) : Bool := !gridAbove n m e && dyLe (gridUnits n + gridUnits (n + 1)) (-19) m (e + 1)

/-- The model's decision to go up from the grid value next below (R44). -/
def gridUp (mode : Mode) (neg : Bool) (n m : ℕ) (e : ℤ) : Bool :=
  match mode with
  | .rne => gridAbove n m e || (gridTie n m e && n % 2 == 1)
  | .rtz => false
  | .rup => !neg
  | .rdn => neg

end RoundL6

theorem gridSum_eq (n : ℕ) : ((gridValue n + gridValue (n + 1) : ℚ) : ℝ) = (gridUnits n + gridUnits (n + 1) : ℕ) * 2 ^ (-19 : ℤ) := by
  rw [Rat.cast_add, gridValue_eq, gridValue_eq, Nat.cast_add, add_mul]

theorem twice_eq (m : ℕ) (e : ℤ) : 2 * (m * (2 : ℝ) ^ e) = m * 2 ^ (e + 1) := by
  rw [zpow_add_one₀ two_ne_zero]
  ring

theorem gridAbove_iff (n m : ℕ) (e : ℤ) :
    gridAbove n m e = true ↔ ((gridValue n + gridValue (n + 1) : ℚ) : ℝ) < 2 * (m * 2 ^ e) := by
  rw [gridAbove, dyLt_iff, gridSum_eq, twice_eq]

theorem gridTie_iff (n m : ℕ) (e : ℤ) :
    gridTie n m e = true ↔ ((gridValue n + gridValue (n + 1) : ℚ) : ℝ) = 2 * (m * 2 ^ e) := by
  rw [gridTie, Bool.and_eq_true, Bool.not_eq_true', ← Bool.not_eq_true, gridAbove_iff, dyLe_iff, ← gridSum_eq, ← twice_eq, not_lt,
    ← le_antisymm_iff, eq_comm]

theorem gridUp_iff (mode : Mode) (neg : Bool) (n m : ℕ) (e : ℤ) :
    gridUp mode neg n m e = true ↔ GoesUp mode neg n (m * 2 ^ e) := by
  cases mode with
  | rne => simp only [gridUp, GoesUp, Bool.or_eq_true, Bool.and_eq_true, gridAbove_iff, gridTie_iff, beq_iff_eq]
  | rtz => simp [gridUp, GoesUp]
  | rup => simp [gridUp, GoesUp]
  | rdn => simp [gridUp, GoesUp]

/-- A neighbour on the grid as the model sums it. -/
theorem gridUnits_l6Val (n : ℕ) : (if n = 0 then 0 else (l6Val n).1 * 2 ^ ((l6Val n).2 + 19).toNat) = gridUnits n := by
  have hexp : ((l6Val n).2 + 19).toNat = n / 4 := by simp only [l6Val, lin]; omega
  rw [hexp]
  rfl

theorem signed_l6 (neg : Bool) (k : ℕ) : (if k = 0 then 0 else signed .l6 neg k) = gridCode neg k := rfl

theorem overflow_l6 (mode : Mode) (neg sat : Bool) : overflow .l6 mode neg sat = overflowed mode sat neg (gridCode neg 31) 0x20 := by
  cases mode <;> cases neg <;> cases sat <;> decide

/-- The model's rounding to l6, from the grid value next below the magnitude. -/
theorem roundL6_eq {m : ℕ} {e : ℤ} {n : ℕ} (hn : n < 32) (hlo : ((gridValue n : ℚ) : ℝ) ≤ m * 2 ^ e)
    (hhi : n < 31 → (m : ℝ) * 2 ^ e < (gridValue (n + 1) : ℚ)) (mode : Mode) (sat neg : Bool) :
    roundL6 mode sat neg m e =
      if (n != 0 && dyLe m e (l6Val n).1 (l6Val n).2) = true then (gridCode neg n, 0)
      else if n = 31 ∧ (gridAbove n m e = true ∨ gridTie n m e = true ∨ gridUp mode neg n m e = true) then
        overflowed mode sat neg (gridCode neg 31) 0x20
      else (gridCode neg (if gridUp mode neg n m e then n + 1 else n),
        if (if gridUp mode neg n m e then n + 1 else n) = 0 then 3 else 1) := by
  have hnext : (l6Val (n + 1)).1 * 2 ^ ((l6Val (n + 1)).2 + 19).toNat = gridUnits (n + 1) := gridUnits_l6Val (n + 1)
  unfold roundL6
  simp only [count_grid hn hlo hhi, gridUnits_l6Val, hnext, signed_l6, overflow_l6]
  cases mode <;> rfl

theorem gridValue_top : gridValue (31 + 1) = 16 := by norm_num [gridValue]

/-- The model's rounding to l6 is that of R44. -/
theorem roundL6_rounded (m : ℕ) (e : ℤ) (mode : Mode) (sat neg : Bool) :
    RoundedL6 mode sat neg (m * 2 ^ e) (roundL6 mode sat neg m e) := by
  have hnot : ∀ n, n ≠ 0 → ((gridValue n : ℚ) : ℝ) < m * 2 ^ e → ¬(n != 0 && dyLe m e (l6Val n).1 (l6Val n).2) = true := by
    intro n h0 hlt h
    rw [Bool.and_eq_true, dyLe_iff, l6Val_eq h0] at h
    exact hlt.not_ge h.2
  refine ⟨fun n h1 hn hx => ?exact, fun n hn hlo hhi hmid => ?between, fun hlo hup => ?overflow⟩
  case exact =>
    have hgrid := gridUnits_lt n (by omega) (n + 1) (by omega) (by omega)
    rw [roundL6_eq (by omega) hx.le fun h => ?_, if_pos]
    · rw [Bool.and_eq_true, dyLe_iff, l6Val_eq (by omega), hx]
      exact ⟨by simp; omega, le_rfl⟩
    · rw [← hx, gridValue_eq, gridValue_eq]
      exact mul_lt_mul_of_pos_right (by exact_mod_cast hgrid) (two_zpow_pos _)
  case between =>
    have hno : ¬(n != 0 && dyLe m e (l6Val n).1 (l6Val n).2) = true := by
      rcases eq_or_ne n 0 with rfl | h0
      · simp
      · exact hnot n h0 hlo
    rw [roundL6_eq (by omega) hlo.le (fun _ => hhi), if_neg hno]
    refine ⟨fun hup => ?_, fun hup h31 => ?_⟩
    · have hover : ¬(n = 31 ∧ (gridAbove n m e = true ∨ gridTie n m e = true ∨ gridUp mode neg n m e = true)) := by
        rintro ⟨rfl, h⟩
        have hlt := hmid.resolve_left (lt_irrefl 31)
        rw [gridAbove_iff, gridTie_iff, gridUp_iff, gridValue_top] at h
        rcases h with h | h | h
        · exact absurd h hlt.not_gt
        · exact absurd h hlt.ne'
        · exact hup h
      rw [if_neg hover, if_neg (mt (gridUp_iff ..).1 hup)]
    · rw [if_neg fun h => absurd h.1 h31.ne, if_pos ((gridUp_iff ..).2 hup), if_neg n.succ_ne_zero]
  case overflow =>
    rw [roundL6_eq (by decide) hlo.le (by simp), if_neg (hnot 31 (by decide) hlo), if_pos]
    refine ⟨rfl, ?_⟩
    rw [gridUp_iff, gridAbove_iff, gridTie_iff, gridValue_top, ← or_assoc, ← le_iff_lt_or_eq]
    exact hup

end Sys2Proof.Machine
end

section
/-! SUPPORT. The operations that round once (02 R41, R48; 05 R125, R127): the exact value that each of them rounds. -/

namespace Sys2Proof.Machine
open Sys2Proof.Safety Sys2Proof.Claims

/-! ### Rounding in a type, and the estimates' rounding -/

theorem roundFin_roundedIn {t : Ty} {m : ℕ} {e : ℤ} {sticky : Bool} {x : ℝ} (mode : Mode) (sat fzo neg : Bool) (hm : m ≠ 0)
    (ha : Approx m e sticky x) (hst : sticky = true → t ≠ .l6 ∧ 53 ≤ Nat.log2 m) :
    RoundedIn t mode sat fzo neg x (roundFin t mode sat fzo neg m e sticky) := by
  refine ⟨fun ht => ?_, fun f hf => ?_⟩
  · have hexact : sticky = false := by
      by_contra hs
      exact (hst (by simpa using hs)).1 ht
    subst ht hexact
    rw [show x = m * 2 ^ e from ha]
    exact roundL6_rounded m e mode sat neg
  · have h := hasFormat hf
    rw [h.roundFin_eq, ← h.p]
    exact roundFmt_rounded h hf h.precision mode sat fzo neg hm ha fun hs => by
      have := h.p
      have := h.p_high
      have := (hst hs).2
      omega

theorem estimate_rounded {t : Ty} {m : ℕ} {e : ℤ} {sticky : Bool} {x : ℝ} (ht : t.isBin = true) (fzo neg : Bool) (hm : m ≠ 0)
    (ha : Approx m e sticky x) (hst : sticky = true → 53 ≤ Nat.log2 m) :
    ∃ f, Rounded t 8 .rne false fzo neg x ((estimate t fzo neg m e sticky).1, f)
      ∧ (estimate t fzo neg m e sticky).2 = f &&& 62 := by
  obtain ⟨f, hf⟩ : ∃ f, binary t = some f := by cases t <;> cases ht <;> exact ⟨_, rfl⟩
  have h := hasFormat hf
  exact ⟨_, roundFmt_rounded h hf (h.precision_est ht) .rne false fzo neg hm ha
    fun hs => (show 8 ≤ 53 by decide).trans (hst hs), rfl⟩

/-! ### Quotients and roots (R125, R127) -/

theorem approx_of_le {m : ℕ} {e : ℤ} {sticky : Bool} {y : ℝ} (hlo : (m : ℝ) ≤ y) (hhi : y < m + 1)
    (hs : sticky = true ↔ (m : ℝ) ≠ y) : Approx m e sticky (y * 2 ^ e) := by
  have hpos := two_zpow_pos e
  cases sticky with
  | false => exact congrArg (· * (2 : ℝ) ^ e) (not_ne_iff.1 fun h => by simp [h] at hs).symm
  | true =>
    exact ⟨mul_lt_mul_of_pos_right (lt_of_le_of_ne hlo (hs.1 rfl)) hpos, mul_lt_mul_of_pos_right hhi hpos⟩

theorem approx_div (n : ℕ) {d : ℕ} (hd : d ≠ 0) (g : ℤ) : Approx (n / d) g (n % d != 0) ((n : ℝ) / d * 2 ^ g) := by
  have hd' : (0 : ℝ) < d := by exact_mod_cast Nat.pos_of_ne_zero hd
  refine approx_of_le Nat.cast_div_le ((div_lt_iff₀ hd').2 ?_) ?_
  · exact_mod_cast Nat.lt_mul_of_div_lt (Nat.lt_succ_self (n / d)) (Nat.pos_of_ne_zero hd)
  · rw [Ne, eq_div_iff hd'.ne', bne_iff_ne, not_iff_not, ← Nat.dvd_iff_mod_eq_zero, Nat.dvd_iff_div_mul_eq]
    norm_cast

theorem quotient_approx {m m' : ℕ} (hm : m ≠ 0) (hm' : m' ≠ 0) (e e' : ℤ) :
    Approx (quotient m e m' e').1 (quotient m e m' e').2.1 (quotient m e m' e').2.2 (m * 2 ^ e / (m' * 2 ^ e'))
      ∧ 53 ≤ Nat.log2 (quotient m e m' e').1 := by
  set sh := 130 + Nat.log2 m' with hsh
  have hq : quotient m e m' e' = (m * 2 ^ sh / m', e - e' - sh, m * 2 ^ sh % m' != 0) := rfl
  rw [hq]
  constructor
  · have h := approx_div (m * 2 ^ sh) hm' (e - e' - sh)
    have heq : ((m * 2 ^ sh : ℕ) : ℝ) / m' * 2 ^ (e - e' - sh) = m * 2 ^ e / (m' * 2 ^ e') := by
      rw [zpow_sub₀ two_ne_zero, zpow_sub₀ two_ne_zero, zpow_natCast]
      push_cast
      field_simp
    exact heq ▸ h
  · refine (Nat.le_log2 (Nat.div_pos ?_ (Nat.pos_of_ne_zero hm')).ne').2 ((Nat.le_div_iff_mul_le (Nat.pos_of_ne_zero hm')).2 ?_)
    all_goals
      have hlt : m' < 2 ^ (Nat.log2 m' + 1) := Nat.lt_log2_self
      have hsplit : 2 ^ sh = 2 ^ 76 * (2 ^ 53 * 2 ^ (Nat.log2 m' + 1)) := by rw [← pow_add, ← pow_add]; congr 1; omega
      have hle : 2 ^ sh ≤ m * 2 ^ sh := Nat.le_mul_of_pos_left _ (Nat.pos_of_ne_zero hm)
      omega

/-- The root of a number, and whether it is exact. -/
theorem approx_sqrt (n : ℕ) (g : ℤ) : Approx (Nat.sqrt n) g (Nat.sqrt n * Nat.sqrt n != n) (√(n : ℝ) * 2 ^ g) := by
  refine approx_of_le (Real.nat_sqrt_le_real_sqrt) (Real.real_sqrt_lt_nat_sqrt_succ) ?_
  rw [bne_iff_ne, not_iff_not, eq_comm (a := ((Nat.sqrt n : ℕ) : ℝ)), Real.sqrt_eq_iff_mul_self_eq (by positivity) (by positivity)]
  exact_mod_cast eq_comm

theorem sqrt_two_zpow (k : ℤ) : √((2 : ℝ) ^ (2 * k)) = 2 ^ k := by
  rw [two_mul, zpow_add₀ two_ne_zero, Real.sqrt_mul_self (two_zpow_pos k).le]

theorem rootOf_approx {m : ℕ} (hm : m ≠ 0) (e : ℤ) :
    Approx (rootOf m e).1 (rootOf m e).2.1 (rootOf m e).2.2 (√(m * 2 ^ e)) ∧ 53 ≤ Nat.log2 (rootOf m e).1 := by
  obtain ⟨sh, hlow, hg, hr⟩ : ∃ sh : ℕ, 260 ≤ sh ∧ e - sh = 2 * ((e - sh) / 2) ∧ rootOf m e =
      (Nat.sqrt (m * 2 ^ sh), (e - sh) / 2, Nat.sqrt (m * 2 ^ sh) * Nat.sqrt (m * 2 ^ sh) != m * 2 ^ sh) := by
    by_cases h : (e - 260) % 2 = 0
    · exact ⟨260, le_rfl, by omega, by simp only [rootOf, if_pos h]⟩
    · exact ⟨261, by decide, by omega, by simp only [rootOf, if_neg h]⟩
  rw [hr]
  constructor
  · have heq : √((m * 2 ^ sh : ℕ) : ℝ) * 2 ^ ((e - sh) / 2) = √(m * 2 ^ e) := by
      rw [← sqrt_two_zpow, ← hg, ← Real.sqrt_mul (Nat.cast_nonneg _), zpow_sub₀ two_ne_zero, zpow_natCast]
      push_cast
      congr 1
      field_simp
    exact heq ▸ approx_sqrt _ _
  · have hle : 2 ^ 53 ≤ Nat.sqrt (m * 2 ^ sh) := by
      rw [Nat.le_sqrt, ← pow_add]
      calc 2 ^ (53 + 53) ≤ 2 ^ sh := Nat.pow_le_pow_right two_pos (by omega)
        _ ≤ m * 2 ^ sh := Nat.le_mul_of_pos_left _ (Nat.pos_of_ne_zero hm)
    exact (Nat.le_log2 (by omega)).2 hle

/-- The reciprocal of a root, as `frsqe` computes it for an even exponent. -/
theorem approx_rsqrt {m : ℕ} (hm : m ≠ 0) (k : ℕ) (g : ℤ) :
    Approx (Nat.sqrt (2 ^ (2 * k) / m)) (-k - g) (Nat.sqrt (2 ^ (2 * k) / m) * Nat.sqrt (2 ^ (2 * k) / m) * m != 2 ^ (2 * k))
      (√(m * 2 ^ (2 * g)))⁻¹ := by
  have hm' : (0 : ℝ) < m := by exact_mod_cast Nat.pos_of_ne_zero hm
  set N : ℕ := 2 ^ (2 * k)
  set r := Nat.sqrt (N / m)
  have heq : √((N : ℝ) / m) * 2 ^ (-k - g : ℤ) = (√(m * 2 ^ (2 * g)))⁻¹ := by
    have hN : √(N : ℝ) = 2 ^ (k : ℤ) := by
      rw [← sqrt_two_zpow]
      norm_cast
    rw [Real.sqrt_div (Nat.cast_nonneg _), Real.sqrt_mul hm'.le, sqrt_two_zpow, hN, zpow_sub₀ two_ne_zero, zpow_neg]
    field_simp
  rw [← heq]
  have hlo : r * r * m ≤ N := (Nat.le_div_iff_mul_le (Nat.pos_of_ne_zero hm)).1 (Nat.sqrt_le _)
  have hhi : N < (r + 1) * (r + 1) * m := (Nat.div_lt_iff_lt_mul (Nat.pos_of_ne_zero hm)).1 (Nat.lt_succ_sqrt _)
  refine approx_of_le ?_ ?_ ?_
  · rw [Real.le_sqrt (by positivity) (by positivity), le_div_iff₀ hm', pow_two]
    exact_mod_cast hlo
  · rw [Real.sqrt_lt' (by positivity), div_lt_iff₀ hm', pow_two]
    exact_mod_cast hhi
  · rw [bne_iff_ne, not_iff_not, eq_comm (a := (r : ℝ)), Real.sqrt_eq_iff_mul_self_eq (by positivity) (by positivity), div_eq_iff hm'.ne']
    exact_mod_cast eq_comm

theorem ne_zero_of_log2 {m : ℕ} (h : 53 ≤ Nat.log2 m) : m ≠ 0 := by
  rintro rfl
  simp at h

section Finite
variable (t : Ty) (mode : Mode) (fzo n n' : Bool) {m m' : ℕ} (hm : m ≠ 0)
include hm

theorem fdiv_fin (hm' : m' ≠ 0) {e e' : ℤ} : fdiv t mode fzo (.fin n m e) (.fin n' m' e') =
    roundFin t mode false fzo (n != n') (quotient m e m' e').1 (quotient m e m' e').2.1 (quotient m e m' e').2.2 := by
  simp only [fdiv, if_neg hm, if_neg hm']

theorem fsqrt_fin {e : ℤ} : fsqrt t mode fzo (.fin false m e) =
    roundFin t mode false fzo false (rootOf m e).1 (rootOf m e).2.1 (rootOf m e).2.2 := by
  simp only [fsqrt, if_neg hm, Bool.false_eq_true, if_false]

theorem frcpe_fin {e : ℤ} : frcpe t fzo (.fin n m e) =
    estimate t fzo n (quotient 1 0 m e).1 (quotient 1 0 m e).2.1 (quotient 1 0 m e).2.2 := by
  simp only [frcpe, if_neg hm]

end Finite

/-- What `frsqe` rounds: the exponent is made even first. -/
theorem frsqe_eq (t : Ty) (fzo : Bool) {m : ℕ} (hm : m ≠ 0) (e : ℤ) :
    ∃ (r : ℕ) (g : ℤ) (sticky : Bool), frsqe t fzo (.fin false m e) = estimate t fzo false r g sticky
      ∧ Approx r g sticky (√(m * 2 ^ e))⁻¹ ∧ 53 ≤ Nat.log2 r := by
  obtain ⟨m', g, hm', hx, hr⟩ : ∃ (m' : ℕ) (g : ℤ), m' ≠ 0 ∧ (m' : ℝ) * 2 ^ (2 * g) = m * 2 ^ e
      ∧ (if e % 2 = 0 then (m, e) else (2 * m, e - 1)) = (m', 2 * g) := by
    by_cases h : e % 2 = 0
    · exact ⟨m, e / 2, hm, by rw [Int.mul_ediv_cancel' (by omega)], by rw [if_pos h, Int.mul_ediv_cancel' (by omega)]⟩
    · refine ⟨2 * m, (e - 1) / 2, by omega, ?_, by rw [if_neg h, Int.mul_ediv_cancel' (by omega)]⟩
      rw [Int.mul_ediv_cancel' (by omega), zpow_sub_one₀ two_ne_zero]
      push_cast
      field_simp
  have happrox := approx_rsqrt hm' (140 + Nat.log2 m') g
  rw [hx] at happrox
  refine ⟨_, _, _, ?_, happrox, ?_⟩
  · simp only [frsqe, if_neg hm, hr, Bool.false_eq_true, if_false, Int.mul_ediv_cancel_left _ (two_ne_zero (α := ℤ))]
  · have hle : 2 ^ 53 ≤ Nat.sqrt (2 ^ (2 * (140 + Nat.log2 m')) / m') := by
      rw [Nat.le_sqrt, Nat.le_div_iff_mul_le (Nat.pos_of_ne_zero hm')]
      calc 2 ^ 53 * 2 ^ 53 * m' ≤ 2 ^ 53 * 2 ^ 53 * 2 ^ (Nat.log2 m' + 1) := Nat.mul_le_mul_left _ Nat.lt_log2_self.le
        _ = 2 ^ (107 + Nat.log2 m') := by rw [← pow_add, ← pow_add]; congr 1; omega
        _ ≤ _ := Nat.pow_le_pow_right two_pos (by omega)
    exact (Nat.le_log2 (by omega)).2 hle

/-! ### Exact sums (R41, R48) -/

theorem alignVal_eq {k e : ℤ} {m : ℕ} (n : Bool) (h : m ≠ 0 → k ≤ e) :
    (alignVal k n m e : ℝ) * 2 ^ k = (signedValue n m e : ℚ) := by
  have hval : ((m * 2 ^ (e - k).toNat : ℕ) : ℝ) * 2 ^ k = m * 2 ^ e := by
    rcases eq_or_ne m 0 with rfl | hm
    · simp
    · rw [two_zpow_split (h hm), Nat.cast_mul, mul_assoc]
  cases n with
  | false => simpa [alignVal, signedValue] using hval
  | true => simpa [alignVal, signedValue] using hval

/-- The sum in units of a power of two that no term has a bit below. -/
theorem sumUnits_eq {k : ℤ} {ts : List Term} (h : ∀ n m e, Term.fin n m e ∈ ts → m ≠ 0 → k ≤ e) :
    (sumUnits k ts : ℝ) * 2 ^ k = ((ts.map termValue).sum : ℚ) := by
  induction ts with
  | nil => simp [sumUnits]
  | cons x ts ih =>
    have ih := ih fun n m e hmem => h n m e (List.mem_cons_of_mem _ hmem)
    cases x with
    | fin n m e =>
      have hsum : sumUnits k (.fin n m e :: ts) = alignVal k n m e + sumUnits k ts := rfl
      rw [hsum, List.map_cons, List.sum_cons, Rat.cast_add, ← ih, termValue, ← alignVal_eq n (h n m e (List.mem_cons_self ..))]
      push_cast
      ring
    | _ => simpa [sumUnits, termValue] using ih

theorem minExp_none {ts : List Term} (h : minExp ts = none) (n : Bool) (m : ℕ) (e : ℤ) (hmem : Term.fin n m e ∈ ts) : m = 0 := by
  induction ts with
  | nil => simp at hmem
  | cons x ts ih =>
    rcases List.mem_cons.1 hmem with rfl | hmem
    · by_contra hm
      simp [minExp, hm] at h
    · refine ih ?_ hmem
      cases x with
      | fin n' m' e' =>
        by_contra hne
        by_cases hm' : m' = 0 <;> simp [minExp, hm', hne] at h
      | _ => exact h

theorem minExp_some {ts : List Term} {k : ℤ} (h : minExp ts = some k) (n : Bool) (m : ℕ) (e : ℤ) (hmem : Term.fin n m e ∈ ts)
    (hm : m ≠ 0) : k ≤ e := by
  induction ts generalizing k with
  | nil => simp at hmem
  | cons x ts ih =>
    cases x with
    | fin n' m' e' =>
      rw [List.mem_cons, Term.fin.injEq] at hmem
      by_cases hm' : m' = 0
      · rw [minExp, if_pos hm'] at h
        rcases hmem with ⟨-, rfl, -⟩ | hmem
        · exact absurd hm' hm
        · exact ih h hmem
      · rw [minExp, if_neg hm', Option.some.injEq] at h
        cases hts : minExp ts with
        | none =>
          rw [hts] at h
          rcases hmem with ⟨-, -, rfl⟩ | hmem
          · exact h.ge
          · exact absurd (minExp_none hts n m e hmem) hm
        | some k' =>
          rw [hts] at h
          rw [← h]
          rcases hmem with ⟨-, -, rfl⟩ | hmem
          · exact min_le_left ..
          · exact (min_le_right ..).trans (ih hts hmem)
    | _ =>
      refine ih h ?_
      simpa using hmem

theorem sum_of_minExp_none {ts : List Term} (h : minExp ts = none) : (ts.map termValue).sum = 0 := by
  refine List.sum_eq_zero fun v hv => ?_
  obtain ⟨x, hx, rfl⟩ := List.mem_map.1 hv
  cases x with
  | fin n m e => simp [termValue, signedValue, minExp_none h n m e hx]
  | _ => rfl

theorem sumUnits_of_sum_zero {ts : List Term} {k : ℤ} (h : minExp ts = some k) (hv : (ts.map termValue).sum = 0) :
    sumUnits k ts = 0 := by
  have hsum := sumUnits_eq (minExp_some h)
  rw [hv, Rat.cast_zero, mul_eq_zero, or_iff_left (two_zpow_pos k).ne'] at hsum
  exact_mod_cast hsum

/-- A nonzero exact sum in its units: its magnitude and its sign. -/
theorem exists_units_of_sum {ts : List Term} (hv : (ts.map termValue).sum ≠ 0) :
    ∃ k, minExp ts = some k ∧ (sumUnits k ts).natAbs ≠ 0
      ∧ ((sumUnits k ts).natAbs : ℝ) * 2 ^ k = |(((ts.map termValue).sum : ℚ) : ℝ)|
      ∧ (sumUnits k ts < 0 ↔ (ts.map termValue).sum < 0) := by
  cases h : minExp ts with
  | none => exact absurd (sum_of_minExp_none h) hv
  | some k =>
    have hpos := two_zpow_pos k
    have hsum := sumUnits_eq (minExp_some h)
    refine ⟨k, rfl, fun h0 => hv ?_, ?_, ?_⟩
    · rw [Int.natAbs_eq_zero.1 h0, Int.cast_zero, zero_mul] at hsum
      exact_mod_cast hsum.symm
    · rw [← hsum, abs_mul, abs_of_pos hpos, Nat.cast_natAbs, Int.cast_abs]
    · rw [← Rat.cast_lt (K := ℝ), ← hsum, Rat.cast_zero, ← zero_mul ((2 : ℝ) ^ k), mul_lt_mul_iff_left₀ hpos, Int.cast_lt_zero]

theorem not_any_of_allFinite {ts : List Term} (h : AllFinite ts) {c : Term} (hc : ∀ n m e, c ≠ .fin n m e) :
    ts.any (· == c) = false := by
  rw [List.any_eq_false]
  intro x hx
  obtain ⟨n, m, e, rfl⟩ := h x hx
  rw [beq_iff_eq]
  exact (hc n m e).symm

section FiniteSum
variable {ts : List Term} (h : AllFinite ts) (t : Ty) (mode : Mode) (fzo : Bool)
include h

theorem roundSum_of_minExp_none (hk : minExp ts = none) : roundSum t mode fzo ts = (zeroBits t (zeroSign mode ts), 0) := by
  rw [roundSum]
  simp only [not_any_of_allFinite h (c := .snan) nofun, not_any_of_allFinite h (c := .qnan) nofun,
    not_any_of_allFinite h (c := .invalid) nofun, not_any_of_allFinite h (c := .inf true) nofun,
    not_any_of_allFinite h (c := .inf false) nofun, Bool.and_false, Bool.false_eq_true, if_false, hk]

theorem roundSum_of_minExp_some {k : ℤ} (hk : minExp ts = some k) : roundSum t mode fzo ts =
    if sumUnits k ts = 0 then (zeroBits t (zeroSign mode ts), 0)
    else roundFin t mode false fzo (sumUnits k ts < 0) (sumUnits k ts).natAbs k false := by
  rw [roundSum]
  simp only [not_any_of_allFinite h (c := .snan) nofun, not_any_of_allFinite h (c := .qnan) nofun,
    not_any_of_allFinite h (c := .invalid) nofun, not_any_of_allFinite h (c := .inf true) nofun,
    not_any_of_allFinite h (c := .inf false) nofun, Bool.and_false, Bool.false_eq_true, if_false, hk]

theorem roundSum_of_sum_zero (hv : (ts.map termValue).sum = 0) :
    roundSum t mode fzo ts = (zeroBits t (zeroSign mode ts), 0) := by
  cases hk : minExp ts with
  | none => exact roundSum_of_minExp_none h t mode fzo hk
  | some k => rw [roundSum_of_minExp_some h t mode fzo hk, if_pos (sumUnits_of_sum_zero hk hv)]

theorem roundSum_of_sum_ne (hv : (ts.map termValue).sum ≠ 0) :
    RoundedIn t mode false fzo (decide ((ts.map termValue).sum < 0)) |(((ts.map termValue).sum : ℚ) : ℝ)|
      (roundSum t mode fzo ts) := by
  obtain ⟨k, hk, hne, habs, hneg⟩ := exists_units_of_sum hv
  rw [roundSum_of_minExp_some h t mode fzo hk, if_neg (Int.natAbs_ne_zero.1 hne), decide_eq_decide.2 hneg]
  exact roundFin_roundedIn mode false fzo _ hne habs.symm nofun

end FiniteSum

/-- The sign of an exact zero sum (R41). -/
theorem zeroSign_iff (mode : Mode) (ts : List Term) : zeroSign mode ts = true ↔
    (∀ x ∈ ts, ∃ e, x = .fin true 0 e) ∨ (mode = .rdn ∧ ∃ x ∈ ts, ∀ e, x ≠ .fin false 0 e) := by
  rw [zeroSign, Bool.or_eq_true, Bool.and_eq_true, List.all_eq_true, List.any_eq_true, beq_iff_eq]
  refine or_congr (forall₂_congr fun x _ => ?_) (and_congr_right fun _ => exists_congr fun x => and_congr_right fun _ => ?_)
  · cases x <;> simp
  · cases x with
    | fin n m e =>
      refine ⟨fun h e' heq => ?_, fun h => by simpa [imp_iff_not_or] using h e⟩
      obtain ⟨rfl, rfl, -⟩ := Term.fin.inj heq
      simp at h
    | _ => simp

/-- A difference of two finite values, as an absolute value (R125). -/
theorem absDiff_of_ne {n n' : Bool} {a b : ℕ} {e e' : ℤ} (h : signedValue n a e ≠ signedValue n' b e') (t : Ty) (mode : Mode)
    (fzo : Bool) : RoundedIn t mode false fzo false |((signedValue n a e - signedValue n' b e' : ℚ) : ℝ)|
      (absDiff t mode fzo (.fin n a e) (.fin n' b e')) := by
  have hneg : signedValue (!n') b e' = -signedValue n' b e' := by cases n' <;> simp [signedValue]
  have hsum : ([Term.fin n a e, .fin (!n') b e'].map termValue).sum = signedValue n a e - signedValue n' b e' := by
    simp [termValue, hneg, sub_eq_add_neg]
  obtain ⟨k, hk, hne, habs, -⟩ := exists_units_of_sum (hsum ▸ sub_ne_zero.2 h)
  rw [hsum] at habs
  have heq : absDiff t mode fzo (.fin n a e) (.fin n' b e') =
      roundFin t mode false fzo false (sumUnits k [Term.fin n a e, .fin (!n') b e']).natAbs k false := by
    simp only [absDiff, FVal.term, FVal.neg, FVal.isNan, List.any_cons, List.any_nil, Bool.or_false, hk, if_false,
      Bool.false_eq_true]
    exact if_neg (Int.natAbs_ne_zero.1 hne)
  rw [heq]
  exact roundFin_roundedIn mode false fzo false hne habs.symm nofun

/-! ### Conversions to a floating type (R45, R46) -/

theorem intVal_eq_num {t : Ty} {b : ℕ} (h : b < 2 ^ t.width) : intVal t b = num t b := by
  simp [intVal, num, toSigned, sgn, Nat.mod_eq_of_lt h]

theorem zeroBits_eq_zeroOf {t : Ty} (h : t.isInt = false) (neg : Bool) : zeroBits t neg = zeroOf t neg := by
  cases t <;> cases h <;> cases neg <;> rfl

theorem convert_fin {tin tout : Ty} (hin : tin.isInt = false) (hout : tout.isInt = false) {fzi n : Bool} {b a : ℕ} {e : ℤ}
    (h : fval tin fzi b = .fin n a e) (mode : Mode) (sat fzo : Bool) : convert tin tout mode sat fzi fzo b =
      if a = 0 then (zeroOf tout n, 0) else roundFin tout mode sat fzo n a e false := by
  rw [convert, hin, if_neg Bool.false_ne_true, convertF, hout, if_neg Bool.false_ne_true, h, ← zeroBits_eq_zeroOf hout]
  rfl

theorem convert_int {tin tout : Ty} (hin : tin.isInt = true) (hout : tout.isInt = false) {b : ℕ} (hb : b < 2 ^ tin.width)
    (mode : Mode) (sat fzi fzo : Bool) : convert tin tout mode sat fzi fzo b =
      if num tin b = 0 then (0, 0) else roundFin tout mode sat fzo (num tin b < 0) (num tin b).natAbs 0 false := by
  have hz : zeroBits tout false = 0 := by rw [zeroBits_eq_zeroOf hout]; cases tout <;> rfl
  rw [convert, hin, if_pos rfl, convertI, hout, if_neg Bool.false_ne_true, intVal_eq_num hb, hz]

end Sys2Proof.Machine

namespace Sys2Proof.Proofs
open Sys2Proof.Machine Sys2Proof.Safety Sys2Proof.Claims

/-- Settles O15: each operation rounds an exact value, or an approximation of it that is exact to more bits than any format
has, and the model's rounding is that of R41 to R44. -/
theorem roundedResults : Obligations.RoundedResults := by
  refine ⟨?sums, ?operands, ?estimates, ?fromFloat, ?fromInteger⟩
  case sums =>
    rintro t mode fzo ts v ht - hts rfl
    obtain ⟨f, hf⟩ := Option.ne_none_iff_exists'.1 ht
    have hzero : (ts.map termValue).sum = 0 → roundSum t mode fzo ts = (signAt t (zeroSign mode ts), 0) := fun hv => by
      rw [roundSum_of_sum_zero hts t mode fzo hv, (hasFormat hf).zeroBits_eq]
    refine ⟨fun hv => roundSum_of_sum_ne hts t mode fzo hv, fun hv hneg => ?_, fun hv hpos => ?_⟩
    · rw [hzero hv, (zeroSign_iff ..).2 hneg]
    · rw [hzero hv, Bool.eq_false_iff.2 (mt (zeroSign_iff ..).1 hpos)]
      rfl
  case operands =>
    intro t mode fzo n n' a b e e' ht ha hb
    have hl6 : t ≠ .l6 := by rintro rfl; exact ht rfl
    refine ⟨?quotient, ?root, fun hne => absDiff_of_ne hne t mode fzo, fun k => ?scaled⟩
    case quotient =>
      obtain ⟨happrox, hbits⟩ := quotient_approx ha hb e e'
      rw [fdiv_fin t mode fzo n n' ha hb]
      push_cast
      exact roundFin_roundedIn mode false fzo _ (ne_zero_of_log2 hbits) happrox fun _ => ⟨hl6, hbits⟩
    case root =>
      obtain ⟨happrox, hbits⟩ := rootOf_approx ha e
      rw [fsqrt_fin t mode fzo ha]
      push_cast
      exact roundFin_roundedIn mode false fzo _ (ne_zero_of_log2 hbits) happrox fun _ => ⟨hl6, hbits⟩
    case scaled =>
      rw [scaleRound, if_neg ha]
      push_cast
      exact roundFin_roundedIn mode false fzo n ha (approx_exact a (e + k)) nofun
  case estimates =>
    intro t fzo n a e ht ha
    constructor
    · obtain ⟨happrox, hbits⟩ := quotient_approx one_ne_zero ha 0 e
      rw [frcpe_fin t fzo n ha]
      refine estimate_rounded ht fzo n (ne_zero_of_log2 hbits) ?_ fun _ => hbits
      simpa using happrox
    · obtain ⟨r, g, sticky, heq, happrox, hbits⟩ := frsqe_eq t fzo ha e
      rw [heq]
      refine estimate_rounded ht fzo false (ne_zero_of_log2 hbits) ?_ fun _ => hbits
      push_cast
      exact happrox
  case fromFloat =>
    intro tin tout mode sat fzi fzo n b a e hin hout hval
    rw [convert_fin hin hout hval]
    refine ⟨fun ha => ?_, fun ha => if_pos ha⟩
    rw [if_neg ha]
    push_cast
    exact roundFin_roundedIn mode sat fzo n ha (approx_exact a e) nofun
  case fromInteger =>
    rintro tin tout mode sat fzi fzo b v hin hout hb rfl
    rw [convert_int hin hout hb]
    refine ⟨fun hv => ?_, fun hv => if_pos hv⟩
    rw [if_neg hv]
    refine roundFin_roundedIn mode sat fzo _ (Int.natAbs_ne_zero.2 hv) ?_ nofun
    simp [Approx]

end Sys2Proof.Proofs
end

section
/-! SUPPORT. The encodings of a binary type (02 R31, R32): their fields, their values, and their order. -/

namespace Sys2Proof.Machine
open Sys2Proof.Safety Sys2Proof.Claims

/-! ### Two fields of a number -/

theorem fields_div {c r : ℕ} (a : ℕ) (hr : r < c) : (a * c + r) / c = a := by
  rw [mul_comm, Nat.mul_add_div (by omega), Nat.div_eq_of_lt hr, add_zero]

theorem fields_mod {c r : ℕ} (a : ℕ) (hr : r < c) : (a * c + r) % c = r := by
  rw [mul_comm, Nat.mul_add_mod, Nat.mod_eq_of_lt hr]

theorem fields_lt {c r a b : ℕ} (hr : r < c) (ha : a < b) : a * c + r < b * c := by
  calc a * c + r < (a + 1) * c := by rw [Nat.succ_mul]; omega
    _ ≤ b * c := Nat.mul_le_mul_right c ha

/-! ### Magnitudes of encodings -/

/-- The magnitude of the encoding whose bits below the sign are `c`, in units of the smallest subnormal value. -/
def codeUnits (f : Binary) (c : ℕ) : ℕ :=
  if c / 2 ^ (f.p - 1) = 0 then c % 2 ^ (f.p - 1) else (2 ^ (f.p - 1) + c % 2 ^ (f.p - 1)) * 2 ^ (c / 2 ^ (f.p - 1) - 1)

theorem magnitude_eq_units (f : Binary) (ex : ℕ) {fr : ℕ} (hfr : fr < 2 ^ (f.p - 1)) :
    ((magnitude f ex fr : ℚ) : ℝ) = codeUnits f (ex * 2 ^ (f.p - 1) + fr) * 2 ^ (f.emin - (f.p - 1 : ℕ)) := by
  rw [codeUnits, fields_div ex hfr, fields_mod ex hfr]
  rcases eq_or_ne ex 0 with rfl | hex
  · rw [magnitude_subnormal, if_pos rfl]
  · rw [magnitude_normal f hex, if_neg hex,
      show f.emin + (ex : ℤ) - 1 - (f.p - 1 : ℕ) = f.emin - (f.p - 1 : ℕ) + (ex - 1 : ℕ) by omega, zpow_add₀ two_ne_zero,
      zpow_natCast]
    push_cast
    ring

theorem codeUnits_lt_two_pow (f : Binary) (c : ℕ) : codeUnits f c < 2 ^ (f.p - 1) * 2 ^ (c / 2 ^ (f.p - 1)) := by
  have hmod : c % 2 ^ (f.p - 1) < 2 ^ (f.p - 1) := Nat.mod_lt _ (by positivity)
  unfold codeUnits
  split
  next h => simpa [h] using hmod
  next h =>
    obtain ⟨k, hk⟩ := Nat.exists_eq_succ_of_ne_zero h
    rw [hk, Nat.succ_sub_one, pow_succ', ← mul_assoc]
    exact Nat.mul_lt_mul_of_pos_right (by omega) (by positivity)

theorem two_pow_le_codeUnits {f : Binary} {c : ℕ} (h : c / 2 ^ (f.p - 1) ≠ 0) :
    2 ^ (f.p - 1) * 2 ^ (c / 2 ^ (f.p - 1) - 1) ≤ codeUnits f c := by
  rw [codeUnits, if_neg h]
  exact Nat.mul_le_mul_right _ (Nat.le_add_right ..)

/-- Magnitudes are in the order of the encodings' bits. -/
theorem codeUnits_strictMono (f : Binary) : StrictMono (codeUnits f) := by
  intro c d h
  rcases (Nat.div_le_div_right h.le : c / 2 ^ (f.p - 1) ≤ d / 2 ^ (f.p - 1)).lt_or_eq with hlt | heq
  · calc codeUnits f c < 2 ^ (f.p - 1) * 2 ^ (c / 2 ^ (f.p - 1)) := codeUnits_lt_two_pow f c
      _ ≤ 2 ^ (f.p - 1) * 2 ^ (d / 2 ^ (f.p - 1) - 1) :=
        Nat.mul_le_mul_left _ (Nat.pow_le_pow_right two_pos (Nat.le_sub_one_of_lt hlt))
      _ ≤ codeUnits f d := two_pow_le_codeUnits (Nat.zero_lt_of_lt hlt).ne'
  · have hmod : c % 2 ^ (f.p - 1) < d % 2 ^ (f.p - 1) := by
      rw [← Nat.div_add_mod c (2 ^ (f.p - 1)), ← Nat.div_add_mod d (2 ^ (f.p - 1)), heq] at h
      exact Nat.lt_of_add_lt_add_left h
    unfold codeUnits
    rw [heq]
    split
    next => exact hmod
    next => exact Nat.mul_lt_mul_of_pos_right (by omega) (by positivity)

theorem two_zpow_le_magnitude {f : Binary} {ex : ℕ} (hex : ex ≠ 0) (fr : ℕ) :
    (2 : ℝ) ^ (f.emin + ex - 1) ≤ (magnitude f ex fr : ℚ) := by
  rw [magnitude_normal f hex, ← sub_add_cancel (f.emin + (ex : ℤ) - 1) ((f.p - 1 : ℕ) : ℤ), ← two_zpow_add_nat, sub_add_cancel]
  exact mul_le_mul_of_nonneg_right (by exact_mod_cast Nat.le_add_right ..) (two_zpow_pos _).le

section Fields
variable {t : Ty} {f : Binary} {ex fr : ℕ} (hfr : fr < 2 ^ (f.p - 1))
include hfr

theorem magnitude_lt_iff {ex' fr' : ℕ} (hfr' : fr' < 2 ^ (f.p - 1)) : ((magnitude f ex fr : ℚ) : ℝ) < (magnitude f ex' fr' : ℚ) ↔
    ex * 2 ^ (f.p - 1) + fr < ex' * 2 ^ (f.p - 1) + fr' := by
  rw [magnitude_eq_units f ex hfr, magnitude_eq_units f ex' hfr', mul_lt_mul_iff_left₀ (two_zpow_pos _), Nat.cast_lt,
    (codeUnits_strictMono f).lt_iff_lt]

theorem magnitude_inj {ex' fr' : ℕ} (hfr' : fr' < 2 ^ (f.p - 1))
    (h : ((magnitude f ex fr : ℚ) : ℝ) = (magnitude f ex' fr' : ℚ)) : ex = ex' ∧ fr = fr' := by
  rw [magnitude_eq_units f ex hfr, magnitude_eq_units f ex' hfr', mul_left_inj' (two_zpow_pos _).ne', Nat.cast_inj,
    (codeUnits_strictMono f).injective.eq_iff] at h
  have hdiv := fields_div ex hfr
  have hmod := fields_mod ex hfr
  rw [h, fields_div ex' hfr'] at hdiv
  rw [h, fields_mod ex' hfr'] at hmod
  exact ⟨hdiv.symm, hmod.symm⟩

theorem magnitude_onGrid (hp : f.p ≠ 0) : OnGrid f (magnitude f ex fr : ℚ) := by
  have htwo : 2 ^ f.p = 2 * 2 ^ (f.p - 1) := by rw [← pow_succ', Nat.sub_add_cancel (by omega)]
  rcases eq_or_ne ex 0 with rfl | hex
  · exact ⟨fr, _, magnitude_subnormal f fr, by omega, le_rfl⟩
  · exact ⟨_, _, magnitude_normal f hex fr, by omega, by omega⟩

theorem magnitude_lt_range (hex : ex < 2 ^ (t.width - f.p)) :
    ((magnitude f ex fr : ℚ) : ℝ) < 2 ^ (f.emin + ((2 ^ (t.width - f.p) : ℕ) : ℤ) - 1) := by
  have hlt : ((magnitude f ex fr : ℚ) : ℝ) < (magnitude f (2 ^ (t.width - f.p)) 0 : ℚ) := by
    rw [magnitude_lt_iff hfr (by positivity), add_zero]
    exact fields_lt hfr hex
  rw [magnitude_normal f (Nat.two_pow_pos _).ne', add_zero, two_zpow_add_nat, sub_add_cancel] at hlt
  exact hlt

/-- The value of an encoding has that encoding. -/
theorem HasFormat.encodeFin_eq_encoding (h : HasFormat t f) (hex : ex < 2 ^ (t.width - f.p)) {m : ℕ} {e : ℤ} (neg : Bool)
    (hm : (m : ℝ) * 2 ^ e = (magnitude f ex fr : ℚ)) : Machine.encodeFin t neg m e = encoding t f neg ex fr := by
  have hp := h.p_low
  obtain ⟨ex', fr', hfr', -, henc, hmag⟩ := h.encodeFin (m := m) (e := e) neg
    (hm ▸ magnitude_onGrid hfr (by omega)) (hm ▸ magnitude_lt_range hfr hex)
  obtain ⟨rfl, rfl⟩ := magnitude_inj hfr' hfr (hmag.trans hm)
  exact henc

/-! ### The fields of an encoding -/

theorem HasFormat.encoding_mod (h : HasFormat t f) (hex : ex < 2 ^ (t.width - f.p)) (neg : Bool) :
    encoding t f neg ex fr % 2 ^ (t.width - 1) = ex * 2 ^ (f.p - 1) + fr := by
  have hp := h.p_low
  have hw := h.width
  have hlt := fields_lt hfr hex
  rw [← pow_add, show t.width - f.p + (f.p - 1) = t.width - 1 by omega] at hlt
  rw [encoding, signAt, add_assoc]
  cases neg with
  | false => rw [if_neg Bool.false_ne_true, zero_add, Nat.mod_eq_of_lt hlt]
  | true => rw [if_pos rfl, Nat.add_mod_left, Nat.mod_eq_of_lt hlt]

theorem HasFormat.encoding_sign (h : HasFormat t f) (hex : ex < 2 ^ (t.width - f.p)) (neg : Bool) :
    encoding t f neg ex fr / 2 ^ (t.width - 1) = if neg then 1 else 0 := by
  have hp := h.p_low
  have hw := h.width
  have hlt := fields_lt hfr hex
  rw [← pow_add, show t.width - f.p + (f.p - 1) = t.width - 1 by omega] at hlt
  rw [encoding, signAt, add_assoc]
  cases neg with
  | false => rw [if_neg Bool.false_ne_true, zero_add, Nat.div_eq_of_lt hlt]; rfl
  | true => rw [if_pos rfl, Nat.add_div_left _ (by positivity), Nat.div_eq_of_lt hlt]; rfl

theorem HasFormat.encoding_fraction (h : HasFormat t f) (neg : Bool) : encoding t f neg ex fr % 2 ^ (f.p - 1) = fr := by
  have hdvd : 2 ^ (f.p - 1) ∣ signAt t neg := by
    have hp := h.p_low
    have hw := h.width
    unfold signAt
    split
    · exact pow_dvd_pow _ (by omega)
    · exact dvd_zero _
  obtain ⟨c, hc⟩ := hdvd
  rw [encoding, hc, mul_comm, ← add_mul, fields_mod _ hfr]

theorem HasFormat.encoding_exponent (h : HasFormat t f) (hex : ex < 2 ^ (t.width - f.p)) (neg : Bool) :
    encoding t f neg ex fr / 2 ^ (f.p - 1) % 2 ^ (t.width - f.p) = ex := by
  have hp := h.p_low
  have hw := h.width
  have hmod := h.encoding_mod hfr hex neg
  rw [show t.width - 1 = f.p - 1 + (t.width - f.p) by omega, pow_add] at hmod
  rw [← Nat.mod_mul_right_div_self, hmod, fields_div ex hfr]

end Fields

/-- Every number of the type's width is an encoding. -/
theorem HasFormat.exists_encoding {t : Ty} {f : Binary} (h : HasFormat t f) {b : ℕ} (hb : b < 2 ^ t.width) :
    ∃ neg ex fr, fr < 2 ^ (f.p - 1) ∧ ex < 2 ^ (t.width - f.p) ∧ b = encoding t f neg ex fr := by
  have hp := h.p_low
  have hw := h.width
  have hsplit : 2 ^ (t.width - 1) = 2 ^ (f.p - 1) * 2 ^ (t.width - f.p) := by rw [← pow_add]; congr 1; omega
  have htwo : 2 ^ t.width = 2 * 2 ^ (t.width - 1) := by rw [← pow_succ', Nat.sub_add_cancel (by omega)]
  refine ⟨decide (2 ^ (t.width - 1) ≤ b), b % 2 ^ (t.width - 1) / 2 ^ (f.p - 1), b % 2 ^ (t.width - 1) % 2 ^ (f.p - 1),
    Nat.mod_lt _ (by positivity), ?_, ?_⟩
  · rw [Nat.div_lt_iff_lt_mul (by positivity), mul_comm, ← hsplit]
    exact Nat.mod_lt _ (by positivity)
  · rw [encoding, add_assoc, mul_comm, Nat.div_add_mod, signAt]
    by_cases hle : 2 ^ (t.width - 1) ≤ b
    · rw [if_pos (decide_eq_true hle), Nat.mod_eq_sub_mod hle, Nat.mod_eq_of_lt (by omega)]
      omega
    · rw [if_neg (by simpa using hle), Nat.mod_eq_of_lt (by omega), zero_add]

end Sys2Proof.Machine
end

section
/-! SUPPORT. The values of encodings (02 R31, R32, R42): finite values, infinities, and NaNs of both kinds. -/

namespace Sys2Proof.Machine
open Sys2Proof.Safety Sys2Proof.Claims

theorem fval_of_ne_l6 {t : Ty} (ht : t ≠ .l6) (fzi : Bool) (b : ℕ) : fval t fzi b =
    if t = .e4m3 ∧ b % 128 = 127 then .nan false
    else if t.fmt.hasInf ∧ b / 2 ^ t.fmt.fbits % 2 ^ t.fmt.ebits = 2 ^ t.fmt.ebits - 1 then
      (if b % 2 ^ t.fmt.fbits = 0 then .inf (b / t.signBit % 2 = 1)
       else .nan (t ≠ .e5m2 && decide (b % 2 ^ t.fmt.fbits < 2 ^ (t.fmt.fbits - 1))))
    else if b / 2 ^ t.fmt.fbits % 2 ^ t.fmt.ebits = 0 then
      (if fzi then .fin (b / t.signBit % 2 = 1) 0 0
       else .fin (b / t.signBit % 2 = 1) (b % 2 ^ t.fmt.fbits) (t.fmt.emin - t.fmt.fbits))
    else .fin (b / t.signBit % 2 = 1) (b % 2 ^ t.fmt.fbits + 2 ^ t.fmt.fbits)
      ((b / 2 ^ t.fmt.fbits % 2 ^ t.fmt.ebits : ℕ) - t.fmt.bias - t.fmt.fbits) := by
  cases t with
  | l6 => exact absurd rfl ht
  | _ => rfl

section Encoding
variable {t : Ty} {f : Binary} (h : HasFormat t f) {ex fr : ℕ} (hfr : fr < 2 ^ (f.p - 1)) (hex : ex < 2 ^ (t.width - f.p))
  (neg : Bool)
include h hfr hex

/-- The fields that `fval` takes of an encoding. -/
theorem HasFormat.fval_encoding (fzi : Bool) : fval t fzi (encoding t f neg ex fr) =
    if t = .e4m3 ∧ encoding t f neg ex fr % 128 = 127 then .nan false
    else if t ≠ .e4m3 ∧ ex = 2 ^ (t.width - f.p) - 1 then
      (if fr = 0 then .inf neg else .nan (t ≠ .e5m2 && decide (fr < 2 ^ (f.p - 2))))
    else if ex = 0 then (if fzi then .fin neg 0 0 else .fin neg fr (f.emin - (f.p - 1 : ℕ)))
    else .fin neg (fr + 2 ^ (f.p - 1)) (ex - (1 - f.emin) - (f.p - 1 : ℕ)) := by
  have hneg : decide ((if neg then 1 else 0) % 2 = 1) = neg := by cases neg <;> rfl
  rw [fval_of_ne_l6 h.not_l6, h.fbits, h.ebits, h.signBit, h.hasInf, h.emin, h.bias, h.encoding_exponent hfr hex,
    h.encoding_fraction hfr, h.encoding_sign hfr hex, hneg]
  simp only [decide_eq_true_iff]
  rfl

theorem HasFormat.isNan_encoding : IsNan t f (encoding t f neg ex fr) ↔
    if t = .e4m3 then encoding t f neg ex fr % 128 = 127 else ex = 2 ^ (t.width - f.p) - 1 ∧ fr ≠ 0 := by
  rw [IsNan, h.encoding_mod hfr hex, infinity]
  refine ite_congr rfl (fun _ => rfl) (fun _ => propext ⟨fun hlt => ?_, ?_⟩) |>.to_iff
  · have hle : 2 ^ (t.width - f.p) - 1 ≤ ex := by
      by_contra hlt'
      exact hlt.not_gt ((fields_lt hfr (not_le.1 hlt')))
    obtain rfl : ex = 2 ^ (t.width - f.p) - 1 := by omega
    exact ⟨rfl, by omega⟩
  · rintro ⟨rfl, hne⟩
    omega

end Encoding

theorem HasFormat.signalling_encoding {t : Ty} {f : Binary} (h : HasFormat t f) (ex : ℕ) {fr : ℕ} (hfr : fr < 2 ^ (f.p - 1))
    (neg : Bool) : encoding t f neg ex fr / 2 ^ (f.p - 2) % 2 = 0 ↔ fr < 2 ^ (f.p - 2) := by
  have hp := h.p_low
  have hsplit : 2 ^ (f.p - 1) = 2 ^ (f.p - 2) * 2 := by rw [← pow_succ]; congr 1; omega
  have hmod := h.encoding_fraction (ex := ex) hfr neg
  rw [hsplit] at hmod hfr
  rw [← Nat.mod_mul_right_div_self, hmod, Nat.div_eq_zero_iff]
  have := Nat.two_pow_pos (f.p - 2)
  omega

section Values
variable {t : Ty} {f : Binary} (h : HasFormat t f) {ex fr : ℕ} (hfr : fr < 2 ^ (f.p - 1)) (hex : ex < 2 ^ (t.width - f.p))
  (neg fzi : Bool)
include h hfr hex

theorem HasFormat.fval_nan (hn : IsNan t f (encoding t f neg ex fr)) :
    ∃ q, fval t fzi (encoding t f neg ex fr) = .nan q ∧ (q = true ↔ IsSignalling t f (encoding t f neg ex fr)) := by
  have hn' := (h.isNan_encoding hfr hex neg).1 hn
  rw [h.fval_encoding hfr hex]
  by_cases ht : t = .e4m3
  · rw [if_pos ht] at hn'
    exact ⟨false, if_pos ⟨ht, hn'⟩, by simp [IsSignalling, ht]⟩
  · rw [if_neg ht] at hn'
    refine ⟨_, by rw [if_neg fun h => ht h.1, if_pos ⟨ht, hn'.1⟩, if_neg hn'.2], ?_⟩
    rw [IsSignalling, h.signalling_encoding ex hfr]
    simp [hn, ht]

theorem HasFormat.fval_inf (ht : t ≠ .e4m3) (htop : ex + 1 = 2 ^ (t.width - f.p)) (hfr0 : fr = 0) :
    fval t fzi (encoding t f neg ex fr) = .inf neg := by
  rw [h.fval_encoding hfr hex, if_neg fun h => ht h.1, if_pos ⟨ht, by omega⟩, if_pos hfr0]

theorem HasFormat.fval_fin (hn : ¬IsNan t f (encoding t f neg ex fr)) (htop : t = .e4m3 ∨ ex + 1 < 2 ^ (t.width - f.p)) :
    ∃ m e, fval t fzi (encoding t f neg ex fr) = .fin neg m e
      ∧ (m : ℝ) * 2 ^ e = if fzi = true ∧ ex = 0 then 0 else ((magnitude f ex fr : ℚ) : ℝ) := by
  rw [h.isNan_encoding hfr hex] at hn
  rw [h.fval_encoding hfr hex, if_neg fun h => hn (by rw [if_pos h.1]; exact h.2), if_neg fun h => by
    have := htop.resolve_left h.1; omega]
  rcases eq_or_ne ex 0 with rfl | hex0
  · rw [if_pos rfl]
    cases fzi with
    | true => exact ⟨0, 0, rfl, by simp⟩
    | false => exact ⟨_, _, rfl, by rw [if_neg (by simp), magnitude_subnormal]⟩
  · rw [if_neg hex0]
    refine ⟨_, _, rfl, ?_⟩
    rw [if_neg (by simp [hex0]), magnitude_normal f hex0, add_comm fr]
    congr 2
    ring

end Values

end Sys2Proof.Machine
end

section
/-! SUPPORT. The results that need no rounding (02 R32 to R35, R45, R46, R48; 05 R125 to R127): products, the rows of special
values in a sum, quotients and roots of special values, and conversions of NaNs, infinities and integers. -/

namespace Sys2Proof.Machine
open Sys2Proof.Safety Sys2Proof.Claims

/-! ### NaNs -/

theorem isSnan_iff {v : FVal} : v.isSnan = true ↔ v = .nan true := by
  cases v <;> simp [FVal.isSnan]

theorem isNan_iff {v : FVal} : v.isNan = true ↔ v.isSnan = true ∨ v = .nan false := by
  cases v with
  | nan q => cases q <;> simp [FVal.isNan, FVal.isSnan]
  | _ => simp [FVal.isNan, FVal.isSnan]

/-! ### Products (R47, R48) -/

theorem mulTerm_snan {a b : FVal} (h : (a.isSnan || b.isSnan) = true) : mulTerm a b = .snan := by
  rw [Bool.or_eq_true, isSnan_iff, isSnan_iff] at h
  rcases h with rfl | rfl
  · rfl
  · rcases a with q | _ | _
    · cases q <;> rfl
    all_goals rfl

theorem mulTerm_qnan {a b : FVal} (hs : (a.isSnan || b.isSnan) = false) (h : (a.isNan || b.isNan) = true) :
    mulTerm a b = .qnan := by
  rw [Bool.or_eq_false_iff] at hs
  rw [Bool.or_eq_true, isNan_iff, isNan_iff, hs.1, hs.2] at h
  simp only [Bool.false_eq_true, false_or] at h
  rcases h with rfl | rfl
  · rcases b with q | _ | _
    · cases q
      · rfl
      · cases hs.2
    all_goals rfl
  · rcases a with q | _ | _
    · cases q
      · rfl
      · cases hs.1
    all_goals rfl

theorem mulTerm_fin_value (n k : Bool) (m m' : ℕ) (e e' : ℤ) :
    termValue (mulTerm (.fin n m e) (.fin k m' e')) = signedValue n m e * signedValue k m' e' := by
  have hmag : ((m * m' : ℕ) : ℚ) * 2 ^ (e + e') = m * 2 ^ e * (m' * 2 ^ e') := by
    rw [zpow_add₀ two_ne_zero, Nat.cast_mul]
    ring
  cases n <;> cases k <;> simp only [mulTerm, termValue, signedValue, hmag] <;> simp

/-! ### Elements and products of l6 (R33 to R35) -/

section L6
variable (neg : Bool) {n : ℕ} (h1 : 1 ≤ n) (hn : n ≤ 31)
include h1 hn

theorem gridCode_fields : gridCode neg n % 64 = gridCode neg n ∧ gridCode neg n ≠ 32 ∧ gridCode neg n ≠ 0
    ∧ gridCode neg n / 32 = (if neg then 1 else 0) ∧ gridCode neg n % 32 = n := by
  rw [gridCode, if_neg (by omega)]
  cases neg <;> simp <;> omega

theorem fval_l6 (fzi : Bool) : fval .l6 fzi (gridCode neg n) = .fin neg (l6Val n).1 (l6Val n).2 := by
  obtain ⟨hmod, h32, h0, hsign, hmag⟩ := gridCode_fields neg h1 hn
  have hneg : decide ((if neg then 1 else 0) = 1) = neg := by cases neg <;> rfl
  simp only [fval, hmod, if_neg h32, if_neg h0, hsign, hmag, hneg]

end L6

theorem l6Product_codes (na nb : Bool) {a b : ℕ} (ha : 1 ≤ a) (ha' : a ≤ 31) (hb : 1 ≤ b) (hb' : b ≤ 31) :
    l6Product (gridCode na a) (gridCode nb b) = .fin (na != nb) (lin (a + b)).1 ((lin (a + b)).2 - 8) := by
  obtain ⟨hmod, h32, h0, hsign, hmag⟩ := gridCode_fields na ha ha'
  obtain ⟨hmod', h32', h0', hsign', hmag'⟩ := gridCode_fields nb hb hb'
  have hneg : ((if na then 1 else 0) != (if nb then 1 else 0)) = (na != nb) := by cases na <;> cases nb <;> rfl
  simp only [l6Product, hmod, hmod', h32, h32', h0, h0', or_self, if_false, hsign, hsign', hmag, hmag', hneg]

theorem lin_value (n : ℕ) : ((lin n).1 : ℚ) * 2 ^ ((lin n).2 - 8) =
    [32768, 38968, 46341, 55109].getD (n % 4) 0 * (2 : ℚ) ^ ((n / 4 : ℕ) - 23 : ℤ) := by
  have hT : ([32768, 38968, 46341, 55109].getD (n % 4) 0 : ℚ) = linT n := by
    have : n % 4 < 4 := Nat.mod_lt _ (by decide)
    unfold linT
    interval_cases n % 4 <;> rfl
  rw [hT, lin]
  congr 2
  ring

theorem l6Product_nan (x : ℕ) : l6Product 32 x = .qnan ∧ l6Product x 32 = .qnan := by
  simp [l6Product]

theorem l6Product_zero (neg : Bool) {n : ℕ} (h1 : 1 ≤ n) (hn : n ≤ 31) :
    l6Product 0 (gridCode neg n) = .fin neg 0 0 ∧ l6Product (gridCode neg n) 0 = .fin neg 0 0 := by
  obtain ⟨hmod, h32, -, hsign, -⟩ := gridCode_fields neg h1 hn
  cases neg <;> simp [l6Product, hmod, h32, hsign]

/-! ### The rows of R48 -/

theorem any_beq_iff (ts : List Term) (c : Term) : ts.any (· == c) = true ↔ c ∈ ts := by
  simp

section Rows
variable {t : Ty} {ts : List Term} (mode : Mode) (fzo : Bool)

theorem roundSum_snan (h : .snan ∈ ts) : roundSum t mode fzo ts = (t.nan, 16) := if_pos ((any_beq_iff ..).2 h)

theorem roundSum_qnan (h1 : .snan ∉ ts) (h : .qnan ∈ ts) : roundSum t mode fzo ts = (t.nan, 0) := by
  rw [roundSum, if_neg (mt (any_beq_iff ..).1 h1), if_pos ((any_beq_iff ..).2 h)]

theorem roundSum_invalid (h1 : .snan ∉ ts) (h2 : .qnan ∉ ts) (h : .invalid ∈ ts ∨ (.inf true ∈ ts ∧ .inf false ∈ ts)) :
    roundSum t mode fzo ts = (t.nan, 16) := by
  rw [roundSum, if_neg (mt (any_beq_iff ..).1 h1), if_neg (mt (any_beq_iff ..).1 h2)]
  by_cases h3 : .invalid ∈ ts
  · exact if_pos ((any_beq_iff ..).2 h3)
  · obtain ⟨ht, hf⟩ := h.resolve_left h3
    rw [if_neg (mt (any_beq_iff ..).1 h3), if_pos (by rw [Bool.and_eq_true]; exact ⟨(any_beq_iff ..).2 ht, (any_beq_iff ..).2 hf⟩)]
    rfl

theorem roundSum_inf {n : Bool} (h1 : .snan ∉ ts) (h2 : .qnan ∉ ts) (h3 : .invalid ∉ ts) (h : .inf n ∈ ts) (h' : .inf (!n) ∉ ts) :
    roundSum t mode fzo ts = (signed t n t.infMag, 0) := by
  have hmem : ∀ c, ts.any (· == c) = decide (c ∈ ts) := fun c => by rw [Bool.eq_iff_iff, any_beq_iff, decide_eq_true_iff]
  rw [roundSum]
  cases n <;> simp only [Bool.not_true, Bool.not_false] at h' <;> simp [hmem, h1, h2, h3, h, h']

end Rows

end Sys2Proof.Machine
end

section
/-! SUPPORT. Conversions to integers and of special values (02 R45, R46), and rounding to an integral value (05 R136). -/

namespace Sys2Proof.Machine
open Sys2Proof.Safety Sys2Proof.Claims

/-! ### Conversions to integer types (R46) -/

theorem wrap_eq (w : ℕ) (v : ℤ) : wrap w v = (v % 2 ^ w).toNat := by
  rw [wrap, Nat.cast_pow, Nat.cast_ofNat]

/-- The integer that a finite value rounds to, and whether it differs from the value. -/
theorem roundUnit_integer {mode : Mode} {n : Bool} {a k : ℕ} {e : ℤ} (h : RoundsTo mode n 1 ((a * (2 : ℚ) ^ e : ℚ) : ℝ) k) :
    roundUnit mode n a e false 0 = (k, decide ((a * (2 : ℚ) ^ e : ℚ) ≠ k)) := by
  have hx : ((a * (2 : ℚ) ^ e : ℚ) : ℝ) = a * 2 ^ e := by push_cast; rfl
  obtain ⟨hr, hinexact⟩ := roundUnit_roundsTo (k := 0) (approx_exact a e) nofun mode n
  rw [zpow_zero] at hr hinexact
  obtain rfl := roundsTo_unique one_pos (hx ▸ h) hr
  refine Prod.ext rfl (Bool.eq_iff_iff.2 ?_)
  rw [hinexact, decide_eq_true_iff, mul_one, ← hx, ne_comm]
  norm_cast

section ToInt
variable {t : Ty} {mode : Mode} {n : Bool} {a k : ℕ} {e v : ℤ} {nx : Flags}
  (h : RoundsTo mode n 1 ((a * (2 : ℚ) ^ e : ℚ) : ℝ) k) (hv : v = if n then -(k : ℤ) else k)
  (hexact : (a * (2 : ℚ) ^ e : ℚ) = k → nx = 0) (hinexact : (a * (2 : ℚ) ^ e : ℚ) ≠ k → nx = 1)
include h hv hexact hinexact

theorem toInt_fin (sat : Bool) : toInt t mode sat (.fin n a e) =
    if t.intMin ≤ v ∧ v ≤ t.intMax then ((v % 2 ^ t.width).toNat, nx)
    else if sat then (((if v < t.intMin then t.intMin else t.intMax) % 2 ^ t.width).toNat, nx ||| 32)
    else ((v % 2 ^ t.width).toNat, nx ||| 16) := by
  have hnx : (if decide ((a * (2 : ℚ) ^ e : ℚ) ≠ k) = true then Flag.nx else 0) = nx := by
    by_cases heq : (a * (2 : ℚ) ^ e : ℚ) = k
    · rw [hexact heq, if_neg (by simpa using heq)]
    · rw [hinexact heq, if_pos (by simpa using heq)]
      rfl
  simp only [toInt, roundUnit_integer h, ← hv, wrap_eq, hnx]
  rfl

end ToInt

theorem intMin_le_intMax (t : Ty) : t.intMin ≤ t.intMax := by cases t <;> decide

section Convert
variable {tin tout : Ty} {mode : Mode} {sat fzi fzo : Bool} {b : ℕ} (hin : tin.isInt = false)
include hin

theorem convert_of_float : convert tin tout mode sat fzi fzo b = convertF tout mode sat fzo (fval tin fzi b) := by
  rw [convert, hin, if_neg Bool.false_ne_true]

theorem convert_nan {q : Bool} (h : fval tin fzi b = .nan q) : convert tin tout mode sat fzi fzo b =
    if tout.isInt then (0, 16) else (quietNan tout, if q then 16 else 0) := by
  have hnan : tout.isInt = false → tout.nan = quietNan tout := by cases tout <;> decide
  rw [convert_of_float hin, h, convertF]
  cases hout : tout.isInt with
  | true => rfl
  | false => rw [if_neg Bool.false_ne_true, if_neg Bool.false_ne_true, ← hnan hout]; rfl

theorem convert_inf_int {n : Bool} (h : fval tin fzi b = .inf n) (hout : tout.isInt = true) :
    convert tin tout mode sat fzi fzo b =
      if sat then (((if n then tout.intMin else tout.intMax) % 2 ^ tout.width).toNat, 32) else (0, 16) := by
  rw [convert_of_float hin, h, convertF, hout, if_pos rfl, toInt, wrap_eq]
  rfl

theorem convert_inf_float {n : Bool} (h : fval tin fzi b = .inf n) (hout : tout.isInt = false) :
    convert tin tout mode sat fzi fzo b =
      if sat then (signed tout n tout.maxMag, 32) else if tout.fmt.hasInf then (signed tout n tout.infMag, 0) else (tout.nan, 16) := by
  rw [convert_of_float hin, h, convertF, hout, if_neg Bool.false_ne_true]
  rfl

end Convert

theorem convert_int_int {tin tout : Ty} (hin : tin.isInt = true) (hout : tout.isInt = true) {b : ℕ} (hb : b < 2 ^ tin.width)
    (mode : Mode) (sat fzi fzo : Bool) : convert tin tout mode sat fzi fzo b =
      if tout.intMin ≤ num tin b ∧ num tin b ≤ tout.intMax ∨ sat = false then ((num tin b % 2 ^ tout.width).toNat, 0)
      else (((if num tin b < tout.intMin then tout.intMin else tout.intMax) % 2 ^ tout.width).toNat, 32) := by
  rw [convert, hin, if_pos rfl, convertI, hout, if_pos rfl, intVal_eq_num hb]
  simp only [wrap_eq]
  rfl

/-! ### Rounding to an integral value (R136) -/

/-- In the types of the vector unit every magnitude from 2^(p − 1) up is an integer, and the largest ones are above 2^p. -/
theorem integral_range {t : Ty} {f : Binary} (ht : t.isBin = true) (hf : binary t = some f) :
    f.emin ≤ 0 ∧ (f.p : ℤ) ≤ f.emin + (2 ^ (t.width - f.p) - 1 : ℕ) - 1 := by
  cases t <;> cases ht <;> cases hf <;> decide

/-- A large magnitude is an integer. -/
theorem magnitude_integral {f : Binary} {ex fr : ℕ} (hfr : fr < 2 ^ (f.p - 1))
    (hlarge : ((2 ^ (f.p - 1) : ℕ) : ℝ) < (magnitude f ex fr : ℚ)) (hlow : f.emin ≤ 0) :
    ∃ j : ℕ, ((magnitude f ex fr : ℚ) : ℝ) = j := by
  have hex : ex ≠ 0 := by
    rintro rfl
    rw [magnitude_subnormal] at hlarge
    have hone : (2 : ℝ) ^ (f.emin - (f.p - 1 : ℕ)) ≤ 2 ^ (0 : ℤ) := two_zpow_le.2 (by omega)
    have hle : (fr : ℝ) * 2 ^ (f.emin - (f.p - 1 : ℕ)) ≤ fr * 1 :=
      mul_le_mul_of_nonneg_left (by rwa [zpow_zero] at hone) (Nat.cast_nonneg _)
    have : (fr : ℝ) < (2 ^ (f.p - 1) : ℕ) := by exact_mod_cast hfr
    linarith
  rw [magnitude_normal f hex] at hlarge ⊢
  by_cases hs : 0 ≤ f.emin + (ex : ℤ) - 1 - (f.p - 1 : ℕ)
  · exact ⟨_, by rw [two_zpow_split hs, zpow_zero, mul_one, ← Nat.cast_mul]⟩
  · have hhalf : (2 : ℝ) ^ (f.emin + (ex : ℤ) - 1 - (f.p - 1 : ℕ)) ≤ 2 ^ (-1 : ℤ) := two_zpow_le.2 (by omega)
    have hle : ((2 ^ (f.p - 1) + fr : ℕ) : ℝ) * 2 ^ (f.emin + (ex : ℤ) - 1 - (f.p - 1 : ℕ)) ≤ (2 ^ (f.p - 1) + fr : ℕ) * 2 ^ (-1 : ℤ) :=
      mul_le_mul_of_nonneg_left hhalf (Nat.cast_nonneg _)
    have : ((2 ^ (f.p - 1) + fr : ℕ) : ℝ) < 2 * (2 ^ (f.p - 1) : ℕ) := by exact_mod_cast (by omega)
    rw [zpow_neg_one] at hle
    linarith

/-- A magnitude of the vector unit's types rounded to an integer is again one. -/
theorem exists_integral_encoding {t : Ty} {f : Binary} (ht : t.isBin = true) (hf : binary t = some f) {mode : Mode} {neg : Bool}
    {ex fr k : ℕ} (hfr : fr < 2 ^ (f.p - 1)) (hex : ex + 1 < 2 ^ (t.width - f.p))
    (hr : RoundsTo mode neg 1 ((magnitude f ex fr : ℚ) : ℝ) k) :
    ∃ ex' fr', fr' < 2 ^ (f.p - 1) ∧ ex' + 1 < 2 ^ (t.width - f.p) ∧ ((magnitude f ex' fr' : ℚ) : ℝ) = k := by
  have h := hasFormat hf
  have hp := h.p_low
  obtain ⟨hlow, hhigh⟩ := integral_range ht hf
  by_cases hsmall : ((magnitude f ex fr : ℚ) : ℝ) ≤ (2 ^ (f.p - 1) : ℕ)
  · have hk : k ≤ 2 ^ (f.p - 1) := roundsTo_ge_of_ge one_pos hr (by rwa [mul_one])
    have hkp : k < 2 ^ f.p := hk.trans_lt (Nat.pow_lt_pow_right one_lt_two (by omega))
    have hbound : (k : ℝ) < 2 ^ (f.emin + (2 ^ (t.width - f.p) - 1 : ℕ) - 1) := by
      calc (k : ℝ) < (2 ^ f.p : ℕ) := by exact_mod_cast hkp
        _ = 2 ^ (f.p : ℤ) := by rw [zpow_natCast, Nat.cast_pow, Nat.cast_ofNat]
        _ ≤ _ := two_zpow_le.2 hhigh
    have hgrid : OnGrid f (k * 2 ^ (0 : ℤ)) := ⟨k, 0, rfl, hkp, by omega⟩
    obtain ⟨ex', fr', hfr', hex', -, hmag⟩ := h.encodeFin neg hgrid (by
      rw [zpow_zero, mul_one]
      exact hbound.trans (two_zpow_lt.2 (by omega)))
    rw [zpow_zero, mul_one] at hmag
    refine ⟨ex', fr', hfr', ?_, hmag⟩
    by_contra htop
    obtain rfl : ex' = 2 ^ (t.width - f.p) - 1 := by omega
    exact (two_zpow_le_magnitude (by omega) fr').not_gt (hmag ▸ hbound)
  · obtain ⟨j, hj⟩ := magnitude_integral hfr (not_le.1 hsmall) hlow
    rw [hj] at hr
    have hmul := roundsTo_multiple one_pos mode neg j
    rw [mul_one] at hmul
    exact ⟨ex, fr, hfr, hex, by rw [hj, roundsTo_unique one_pos hmul hr]⟩

theorem roundIntegral_fin {t : Ty} {mode : Mode} {n : Bool} {m k : ℕ} {e : ℤ}
    (h : RoundsTo mode n 1 ((m * (2 : ℚ) ^ e : ℚ) : ℝ) k) :
    roundIntegral t mode (.fin n m e) = (encodeFin t n k 0, if (m * (2 : ℚ) ^ e : ℚ) ≠ k then 1 else 0) := by
  simp only [roundIntegral, roundUnit_integer h, decide_eq_true_eq]
  rfl

end Sys2Proof.Machine
end

section
/-! SUPPORT. The order of the values of the vector unit's types (02 R42; 05 R126), and minimum and maximum. -/

namespace Sys2Proof.Machine
open Sys2Proof.Safety Sys2Proof.Claims

/-! ### Encodings with their values -/

/-- A value that is no NaN, and the encoding that has it. -/
inductive Denotes (t : Ty) (f : Binary) : FVal → ℕ → Prop
  | inf (n : Bool) {ex : ℕ} (htop : ex + 1 = 2 ^ (t.width - f.p)) : Denotes t f (.inf n) (encoding t f n ex 0)
  | fin (n : Bool) {ex fr m : ℕ} {e : ℤ} (hfr : fr < 2 ^ (f.p - 1)) (hex : ex + 1 < 2 ^ (t.width - f.p))
    (hm : (m : ℝ) * 2 ^ e = (magnitude f ex fr : ℚ)) : Denotes t f (.fin n m e) (encoding t f n ex fr)

/-- The place in the order of an encoding with a sign and the bits `c` below it: −0 below +0 (R126). -/
def codeKey (n : Bool) (c : ℕ) : ℤ := if n then -1 - c else c

theorem codeKey_top_lt (n n' : Bool) {c d : ℕ} (h : d < c) : (codeKey n c < codeKey n' d ∧ (c ≠ 0 ∨ d ≠ 0)) ↔ n = true := by
  cases n <;> cases n' <;> simp [codeKey] <;> omega

theorem codeKey_lt_top (n n' : Bool) {c d : ℕ} (h : d < c) : (codeKey n d < codeKey n' c ∧ (d ≠ 0 ∨ c ≠ 0)) ↔ n' = false := by
  cases n <;> cases n' <;> simp [codeKey] <;> omega

theorem codeKey_lt_self (n n' : Bool) {c : ℕ} (h : 0 < c) :
    (codeKey n c < codeKey n' c ∧ (c ≠ 0 ∨ c ≠ 0)) ↔ n = true ∧ n' = false := by
  cases n <;> cases n' <;> simp [codeKey] <;> omega

section Encoding
variable {t : Ty} {f : Binary} (h : HasFormat t f) {ex fr : ℕ} (hfr : fr < 2 ^ (f.p - 1)) (hex : ex < 2 ^ (t.width - f.p))
  (n : Bool)
include h hfr hex

theorem HasFormat.encoding_neg_iff : 2 ^ (t.width - 1) ≤ encoding t f n ex fr ↔ n = true := by
  have hsign := h.encoding_sign hfr hex n
  rw [← Nat.one_le_div_iff (by positivity), hsign]
  cases n <;> simp

theorem HasFormat.orderKey_encoding : orderKey t (encoding t f n ex fr) = codeKey n (ex * 2 ^ (f.p - 1) + fr) := by
  have hneg := h.encoding_neg_iff hfr hex n
  cases n with
  | false =>
    rw [orderKey, if_pos (not_le.1 (by simpa using hneg))]
    simp [encoding, signAt, codeKey]
  | true =>
    rw [orderKey, if_neg (not_lt.2 (hneg.2 rfl)), encoding, signAt, if_pos rfl, add_assoc, Nat.add_sub_cancel_left]
    rfl

theorem HasFormat.isSubnormal_encoding : isSubnormal t f (encoding t f n ex fr) = decide (ex = 0 ∧ fr ≠ 0) := by
  rw [isSubnormal, h.encoding_mod hfr hex, decide_eq_decide]
  refine ⟨fun hs => ?_, ?_⟩
  · have h0 : ex = 0 := by
      by_contra hne
      have : 1 * 2 ^ (f.p - 1) ≤ ex * 2 ^ (f.p - 1) := Nat.mul_le_mul_right _ (Nat.pos_of_ne_zero hne)
      omega
    subst h0
    omega
  · rintro ⟨rfl, hne⟩
    omega

/-- An input or a result of the least exponent, flushed. -/
theorem HasFormat.flushed_encoding (z : Bool) : flushed t f z (encoding t f n ex fr) =
    if z = true ∧ ex = 0 then encoding t f n 0 0 else encoding t f n ex fr := by
  have hzero : encoding t f n 0 0 = signAt t n := by rw [encoding, zero_mul, add_zero, add_zero]
  have hsign : decide (2 ^ (t.width - 1) ≤ encoding t f n ex fr) = n := by
    rw [Bool.eq_iff_iff, decide_eq_true_iff, h.encoding_neg_iff hfr hex]
  rw [flushed, h.isSubnormal_encoding hfr hex, hsign, hzero]
  by_cases hz : z = true ∧ ex = 0
  · obtain ⟨rfl, rfl⟩ := hz
    rcases eq_or_ne fr 0 with rfl | hne
    · simp [hzero]
    · simp [hne]
  · rw [if_neg hz, if_neg]
    simp only [Bool.and_eq_true, decide_eq_true_eq]
    exact fun hs => hz ⟨hs.1, hs.2.1⟩

end Encoding

section Bin
variable {t : Ty} {f : Binary} (ht : t.isBin = true) (h : HasFormat t f)
include h

omit h in
include ht in
theorem ne_e4m3_of_isBin : t ≠ .e4m3 := by
  rintro rfl
  cases ht

include ht in
theorem denotes_fval (fzi : Bool) {a : ℕ} (ha : a < 2 ^ t.width) (hn : ¬IsNan t f a) :
    Denotes t f (fval t fzi a) (flushed t f fzi a) := by
  obtain ⟨neg, ex, fr, hfr, hex, rfl⟩ := h.exists_encoding ha
  have hne := ne_e4m3_of_isBin ht
  rw [h.flushed_encoding hfr hex]
  rcases (Nat.succ_le_of_lt hex).lt_or_eq with hlt | htop
  · obtain ⟨m, e, hval, hm⟩ := h.fval_fin hfr hex neg fzi hn (.inr hlt)
    rw [hval]
    by_cases hz : fzi = true ∧ ex = 0
    · rw [if_pos hz] at hm ⊢
      exact .fin neg (by positivity) (by omega) (by rw [hm, magnitude_subnormal, Nat.cast_zero, zero_mul])
    · rw [if_neg hz] at hm ⊢
      exact .fin neg hfr hlt hm
  · have hbits := Nat.pow_le_pow_right two_pos h.ebits_low
    have h0 : fr = 0 := by
      by_contra hne0
      rw [h.isNan_encoding hfr hex, if_neg hne] at hn
      exact hn ⟨by omega, hne0⟩
    subst h0
    rw [h.fval_inf hfr hex neg fzi hne htop rfl, if_neg (by omega)]
    exact .inf neg htop

theorem Denotes.bitsOf {v : FVal} {b : ℕ} (hv : Denotes t f v b) : bitsOf t v = b := by
  cases hv with
  | inf n htop =>
    rw [Machine.bitsOf, h.signed_eq, h.infMag, encoding, infinity, ← htop, Nat.add_sub_cancel, add_zero]
  | fin n hfr hex hm => exact h.encodeFin_eq_encoding hfr (by omega) n hm

end Bin

theorem Denotes.isNan {t : Ty} {f : Binary} {v : FVal} {b : ℕ} (hv : Denotes t f v b) : v.isNan = false := by
  cases hv <;> rfl

/-! ### The order (R126) -/

theorem lt_fin_iff (n n' : Bool) (m m' : ℕ) (e e' : ℤ) : (FVal.fin n m e).lt (.fin n' m' e') = true ↔
    ((signedValue n m e : ℚ) : ℝ) < (signedValue n' m' e' : ℚ) := by
  rw [← alignVal_eq (k := min e e') n fun _ => min_le_left .., ← alignVal_eq (k := min e e') n' fun _ => min_le_right ..,
    mul_lt_mul_iff_left₀ (two_zpow_pos _), Int.cast_lt]
  exact decide_eq_true_iff

/-- A signed number of units. -/
def signedUnits (n : Bool) (u : ℕ) : ℤ := if n then -(u : ℤ) else u

theorem signedValue_eq_units {f : Binary} {ex fr m : ℕ} {e : ℤ} (n : Bool) (hfr : fr < 2 ^ (f.p - 1))
    (hm : (m : ℝ) * 2 ^ e = (magnitude f ex fr : ℚ)) : ((signedValue n m e : ℚ) : ℝ) =
      (signedUnits n (codeUnits f (ex * 2 ^ (f.p - 1) + fr)) : ℝ) * 2 ^ (f.emin - (f.p - 1 : ℕ)) := by
  rw [magnitude_eq_units f ex hfr] at hm
  cases n with
  | false => simpa [signedValue, signedUnits] using hm
  | true => simpa [signedValue, signedUnits] using hm

theorem codeUnits_zero (f : Binary) : codeUnits f 0 = 0 := by simp [codeUnits]

theorem signedUnits_lt_iff (f : Binary) (n n' : Bool) (c d : ℕ) :
    signedUnits n (codeUnits f c) < signedUnits n' (codeUnits f d) ↔ codeKey n c < codeKey n' d ∧ (c ≠ 0 ∨ d ≠ 0) := by
  have hmono := codeUnits_strictMono f
  have hcd := hmono.lt_iff_lt (a := c) (b := d)
  have hdc := hmono.lt_iff_lt (a := d) (b := c)
  have hc := hmono.lt_iff_lt (a := 0) (b := c)
  have hd := hmono.lt_iff_lt (a := 0) (b := d)
  rw [codeUnits_zero] at hc hd
  unfold signedUnits codeKey
  cases n <;> cases n' <;> simp <;> omega

theorem Denotes.lt_iff {t : Ty} {f : Binary} (h : HasFormat t f) {v v' : FVal} {b b' : ℕ} (hv : Denotes t f v b)
    (hv' : Denotes t f v' b') : v.lt v' = true ↔
      orderKey t b < orderKey t b' ∧ (b % 2 ^ (t.width - 1) ≠ 0 ∨ b' % 2 ^ (t.width - 1) ≠ 0) := by
  have hbits := Nat.pow_le_pow_right two_pos h.ebits_low
  have hfrac := Nat.two_pow_pos (f.p - 1)
  cases hv with
  | inf n htop =>
    rw [h.orderKey_encoding hfrac (by omega), h.encoding_mod hfrac (by omega)]
    cases hv' with
    | inf n' htop' =>
      obtain rfl := Nat.succ.inj (htop.trans htop'.symm)
      rw [h.orderKey_encoding hfrac (by omega), h.encoding_mod hfrac (by omega), add_zero,
        codeKey_lt_self n n' (Nat.mul_pos (by omega) hfrac)]
      simp [FVal.lt]
    | fin n' hfr' hex' hm' =>
      rw [h.orderKey_encoding hfr' (by omega), h.encoding_mod hfr' (by omega), add_zero,
        codeKey_top_lt n n' (fields_lt hfr' (by omega))]
      rfl
  | fin n hfr hex hm =>
    rw [h.orderKey_encoding hfr (by omega), h.encoding_mod hfr (by omega)]
    cases hv' with
    | inf n' htop' =>
      rw [h.orderKey_encoding hfrac (by omega), h.encoding_mod hfrac (by omega), add_zero,
        codeKey_lt_top n n' (fields_lt hfr (by omega))]
      simp [FVal.lt]
    | fin n' hfr' hex' hm' =>
      rw [h.orderKey_encoding hfr' (by omega), h.encoding_mod hfr' (by omega), lt_fin_iff, signedValue_eq_units n hfr hm,
        signedValue_eq_units n' hfr' hm', mul_lt_mul_iff_left₀ (two_zpow_pos _), Int.cast_lt, signedUnits_lt_iff]

/-! ### Minimum and maximum (R126) -/

/-- The sign of a value, and the bits below it. -/
theorem Denotes.code {t : Ty} {f : Binary} (h : HasFormat t f) {v : FVal} {b : ℕ} (hv : Denotes t f v b) :
    orderKey t b = codeKey v.isNeg (b % 2 ^ (t.width - 1)) := by
  cases hv with
  | inf n htop => rw [h.orderKey_encoding (Nat.two_pow_pos _) (by omega), h.encoding_mod (Nat.two_pow_pos _) (by omega)]; rfl
  | fin n hfr hex hm => rw [h.orderKey_encoding hfr (by omega), h.encoding_mod hfr (by omega)]; rfl

/-- The model's choice of the lesser operand is by the order of R126. -/
theorem Denotes.lesser_iff {t : Ty} {f : Binary} (h : HasFormat t f) {v v' : FVal} {b b' : ℕ} (hv : Denotes t f v b)
    (hv' : Denotes t f v' b') :
    (v.lt v' || (!v'.lt v && v.isNeg && !v'.isNeg)) = true ↔ orderKey t b < orderKey t b' := by
  have hlt := hv.lt_iff h hv'
  have hgt := hv'.lt_iff h hv
  rw [hv.code h, hv'.code h] at hlt hgt ⊢
  generalize b % 2 ^ (t.width - 1) = c at *
  generalize b' % 2 ^ (t.width - 1) = d at *
  simp only [Bool.or_eq_true, Bool.and_eq_true, Bool.not_eq_true', ← Bool.not_eq_true, hlt, hgt]
  cases v.isNeg <;> cases v'.isNeg <;> simp [codeKey] <;> omega

/-- The chosen operand as `fminmax` returns it. -/
def chosen (t : Ty) (fzo : Bool) (v : FVal) : ℕ × Flags :=
  match v with
  | .fin n m e => if fzo && m != 0 && dyLt m e 1 t.fmt.emin then (signed t n 0, 3) else (bitsOf t v, 0)
  | v => (bitsOf t v, 0)

theorem chosen_fin (t : Ty) (fzo n : Bool) (m : ℕ) (e : ℤ) : chosen t fzo (.fin n m e) =
    if fzo && m != 0 && dyLt m e 1 t.fmt.emin then (signed t n 0, 3) else (bitsOf t (.fin n m e), 0) := rfl

theorem lt_two_zpow_emin_iff {f : Binary} {ex fr m : ℕ} {e : ℤ} (hfr : fr < 2 ^ (f.p - 1))
    (hm : (m : ℝ) * 2 ^ e = (magnitude f ex fr : ℚ)) : (m : ℝ) * 2 ^ e < 2 ^ f.emin ↔ ex = 0 := by
  rw [hm]
  refine ⟨fun hlt => ?_, ?_⟩
  · by_contra hex
    exact hlt.not_ge ((two_zpow_le.2 (by omega)).trans (two_zpow_le_magnitude hex fr))
  · rintro rfl
    rw [magnitude_subnormal]
    calc (fr : ℝ) * 2 ^ (f.emin - (f.p - 1 : ℕ)) < (2 ^ (f.p - 1) : ℕ) * 2 ^ (f.emin - (f.p - 1 : ℕ)) :=
          mul_lt_mul_of_pos_right (by exact_mod_cast hfr) (two_zpow_pos _)
      _ = 2 ^ f.emin := by rw [two_zpow_add_nat, sub_add_cancel]

theorem Denotes.chosen {t : Ty} {f : Binary} (h : HasFormat t f) (fzo : Bool) {v : FVal} {b : ℕ} (hv : Denotes t f v b) :
    chosen t fzo v = (flushed t f fzo b, if fzo && isSubnormal t f b then 3 else 0) := by
  have hbits := hv.bitsOf h
  have htwo := Nat.pow_le_pow_right two_pos h.ebits_low
  cases hv with
  | inf n htop =>
    rw [h.flushed_encoding (Nat.two_pow_pos _) (by omega), if_neg (by omega), h.isSubnormal_encoding (Nat.two_pow_pos _) (by omega)]
    simp [Machine.chosen, hbits]
  | fin n hfr hex hm =>
    rename_i ex fr m e
    have hzero : encoding t f n 0 0 = signAt t n := by rw [encoding, zero_mul, add_zero, add_zero]
    have htiny : dyLt m e 1 t.fmt.emin = true ↔ ex = 0 := by
      rw [dyLt_iff, Nat.cast_one, one_mul, h.emin, lt_two_zpow_emin_iff hfr hm]
    have hm0 : ex = 0 → (m = 0 ↔ fr = 0) := by
      rintro rfl
      rw [magnitude_subnormal] at hm
      rw [← Nat.cast_eq_zero (R := ℝ), ← mul_eq_zero_iff_right (two_zpow_pos e).ne', hm, mul_eq_zero_iff_right (two_zpow_pos _).ne',
        Nat.cast_eq_zero]
    rw [h.flushed_encoding hfr (by omega), h.isSubnormal_encoding hfr (by omega)]
    rw [chosen_fin, hbits, h.signed_zero, hzero]
    by_cases hz : fzo = true ∧ ex = 0
    · obtain ⟨rfl, rfl⟩ := hz
      have hm0 := hm0 rfl
      rcases eq_or_ne fr 0 with rfl | hne
      · simp [hm0, hzero]
      · simp [hm0, htiny, hne]
    · have hcond : (fzo && m != 0 && dyLt m e 1 t.fmt.emin) = false := by
        refine Bool.eq_false_iff.2 fun hc => hz ?_
        rw [Bool.and_eq_true, Bool.and_eq_true, htiny] at hc
        exact ⟨hc.1.1, hc.2⟩
      have hcond' : (fzo && decide (ex = 0 ∧ fr ≠ 0)) = false := by
        refine Bool.eq_false_iff.2 fun hc => hz ?_
        rw [Bool.and_eq_true, decide_eq_true_iff] at hc
        exact ⟨hc.1, hc.2.1⟩
      rw [if_neg hz, hcond, hcond']
      rfl

theorem fminmax_eq_chosen {t : Ty} {a b : FVal} (ha : a.isNan = false) (hb : b.isNan = false) (isMax fzo : Bool) :
    fminmax t isMax fzo a b =
      chosen t fzo (if (a.lt b || (!b.lt a && a.isNeg && !b.isNeg)) != isMax then a else b) := by
  rw [fminmax, ha, hb, Bool.or_self, if_neg Bool.false_ne_true]
  rfl

theorem fminmax_denotes {t : Ty} {f : Binary} (h : HasFormat t f) {v v' : FVal} {x y z : ℕ} (hv : Denotes t f v x)
    (hv' : Denotes t f v' y) (isMax fzo : Bool) (hz : z = if (orderKey t x < orderKey t y) = (isMax = false) then x else y) :
    fminmax t isMax fzo v v' = (flushed t f fzo z, if fzo && isSubnormal t f z then 3 else 0) := by
  have hless := hv.lesser_iff h hv'
  rw [fminmax_eq_chosen hv.isNan hv'.isNan]
  generalize (v.lt v' || (!v'.lt v && v.isNeg && !v'.isNeg)) = less at hless ⊢
  have hcond : (less != isMax) = true ↔ (orderKey t x < orderKey t y) = (isMax = false) := by
    rw [← hless]
    cases less <;> cases isMax <;> simp
  subst hz
  by_cases hc : (less != isMax) = true
  · rw [if_pos hc, if_pos (hcond.1 hc)]
    exact hv.chosen h fzo
  · rw [if_neg hc, if_neg (mt hcond.2 hc)]
    exact hv'.chosen h fzo

/-- A NaN operand of a minimum or maximum. -/
theorem fminmax_nan {t : Ty} {a b : FVal} (h : a.isNan = true ∨ b.isNan = true) (isMax fzo : Bool) :
    fminmax t isMax fzo a b = (t.nan, if a.isSnan || b.isSnan then 16 else 0) := by
  rw [fminmax, if_pos (by rwa [Bool.or_eq_true])]
  rfl

theorem isNan_fval_iff {t : Ty} {f : Binary} (ht : t.isBin = true) (h : HasFormat t f) (fzi : Bool) {a : ℕ} (ha : a < 2 ^ t.width) :
    ((fval t fzi a).isNan = true ↔ IsNan t f a) ∧ ((fval t fzi a).isSnan = true ↔ IsSignalling t f a) := by
  by_cases hn : IsNan t f a
  · obtain ⟨neg, ex, fr, hfr, hex, rfl⟩ := h.exists_encoding ha
    obtain ⟨q, hval, hq⟩ := h.fval_nan hfr hex neg fzi hn
    rw [hval]
    exact ⟨iff_of_true rfl hn, hq⟩
  · have hisNan := (denotes_fval ht h fzi ha hn).isNan
    refine ⟨by simp [hisNan, hn], iff_of_false ?_ fun hs => hn hs.1⟩
    rw [isSnan_iff]
    intro hval
    rw [hval] at hisNan
    cases hisNan

end Sys2Proof.Machine
end

section
/-! SUPPORT. The scale of a block (02 R40), and the tree of a sum (05 R134). -/

namespace Sys2Proof.Machine
open Sys2Proof.Safety Sys2Proof.Claims

/-! ### The scale of a block (R40) -/

/-- The largest binade of the finite values, or none where all of them are zero. -/
theorem amaxLog_spec (vs : List FVal) :
    (amaxLog vs = none ∧ ∀ n m e, FVal.fin n m e ∈ vs → m = 0)
    ∨ ∃ k, amaxLog vs = some k ∧ (∃ n m e, FVal.fin n m e ∈ vs ∧ m ≠ 0 ∧ e + Nat.log2 m = k)
      ∧ ∀ n m e, FVal.fin n m e ∈ vs → m ≠ 0 → e + Nat.log2 m ≤ k := by
  induction vs with
  | nil => exact .inl ⟨rfl, by simp⟩
  | cons v vs ih =>
    have hskip : amaxLog (v :: vs) = amaxLog vs → (∀ n m e, v = FVal.fin n m e → m = 0) →
        (amaxLog (v :: vs) = none ∧ ∀ n m e, FVal.fin n m e ∈ v :: vs → m = 0)
        ∨ ∃ k, amaxLog (v :: vs) = some k ∧ (∃ n m e, FVal.fin n m e ∈ v :: vs ∧ m ≠ 0 ∧ e + Nat.log2 m = k)
          ∧ ∀ n m e, FVal.fin n m e ∈ v :: vs → m ≠ 0 → e + Nat.log2 m ≤ k := by
      intro heq hv
      rw [heq]
      rcases ih with ⟨hnone, hall⟩ | ⟨k, hk, ⟨n, m, e, hmem, hm, he⟩, hall⟩
      · exact .inl ⟨hnone, fun n m e hmem => (List.mem_cons.1 hmem).elim (fun h => hv n m e h.symm) (hall n m e)⟩
      · exact .inr ⟨k, hk, ⟨n, m, e, List.mem_cons_of_mem _ hmem, hm, he⟩, fun n m e hmem hm =>
          (List.mem_cons.1 hmem).elim (fun h => absurd (hv n m e h.symm) hm) (hall n m e · hm)⟩
    cases v with
    | nan q => exact hskip rfl nofun
    | inf n => exact hskip rfl nofun
    | fin n m e =>
      by_cases hm : m = 0
      · exact hskip (if_pos hm) fun n' m' e' h => by cases h; exact hm
      · have heq : amaxLog (.fin n m e :: vs) = some (match amaxLog vs with
            | none => e + Nat.log2 m
            | some k => max (e + Nat.log2 m) k) := if_neg hm
        rw [heq]
        right
        rcases ih with ⟨hnone, hall⟩ | ⟨k, hk, ⟨n', m', e', hmem, hm', he'⟩, hall⟩
        · rw [hnone]
          refine ⟨_, rfl, ⟨n, m, e, List.mem_cons_self .., hm, rfl⟩, fun n' m' e' hmem hm' => ?_⟩
          rcases List.mem_cons.1 hmem with h | hmem
          · cases h; rfl
          · exact absurd (hall n' m' e' hmem) hm'
        · rw [hk]
          refine ⟨_, rfl, ?_, fun n'' m'' e'' hmem'' hm'' => ?_⟩
          · rcases max_choice (e + Nat.log2 m : ℤ) k with h | h
            · exact ⟨n, m, e, List.mem_cons_self .., hm, h.symm⟩
            · exact ⟨n', m', e', List.mem_cons_of_mem _ hmem, hm', he'.trans h.symm⟩
          · rcases List.mem_cons.1 hmem'' with h | hmem''
            · cases h; exact le_max_left ..
            · exact (hall n'' m'' e'' hmem'' hm'').trans (le_max_right ..)

theorem amaxLog_of_zero {vs : List FVal} (h : ∀ n m e, FVal.fin n m e ∈ vs → m = 0) : amaxLog vs = none := by
  rcases amaxLog_spec vs with ⟨hnone, -⟩ | ⟨-, -, ⟨n, m, e, hmem, hm, -⟩, -⟩
  · exact hnone
  · exact absurd (h n m e hmem) hm

/-- The binade of the largest magnitude. -/
theorem amaxLog_of_amax {vs : List FVal} {k : ℤ}
    (hle : ∃ (n : Bool) (m : ℕ) (e : ℤ), .fin n m e ∈ vs ∧ (2 : ℚ) ^ k ≤ m * (2 : ℚ) ^ e)
    (hlt : ∀ (n : Bool) (m : ℕ) (e : ℤ), .fin n m e ∈ vs → m * (2 : ℚ) ^ e < (2 : ℚ) ^ (k + 1)) : amaxLog vs = some k := by
  obtain ⟨n, m, e, hmem, hge⟩ := hle
  replace hge : (2 : ℝ) ^ k ≤ m * 2 ^ e := by simpa using Rat.cast_le (K := ℝ).2 hge
  have hm : m ≠ 0 := by
    rintro rfl
    rw [Nat.cast_zero, zero_mul] at hge
    exact (two_zpow_pos k).not_ge hge
  rcases amaxLog_spec vs with ⟨-, hall⟩ | ⟨k', hk', ⟨n', m', e', hmem', hm', rfl⟩, hall⟩
  · exact absurd (hall n m e hmem) hm
  · have hlow : k < e + Nat.log2 m + 1 := two_zpow_lt.1 (hge.trans_lt ((approx_exact m e).binade hm).2)
    have hm'lt : (m' : ℝ) * 2 ^ e' < 2 ^ (k + 1) := by simpa using Rat.cast_lt (K := ℝ).2 (hlt n' m' e' hmem')
    have hhigh : e' + Nat.log2 m' < k + 1 := two_zpow_lt.1 ((binade_le hm' e').trans_lt hm'lt)
    have := hall n m e hmem hm
    rw [hk']
    congr 1
    omega

/-! ### The tree of a sum (R134) -/

/-- The sum at place `j` of a level. -/
def levelSum (t : Ty) (m : Mode) (l : List FVal) (j : ℕ) : ℕ × Flags :=
  roundSum t m false [(l.getD (2 * j) (.inf false)).term, (l.getD (2 * j + 1) (.inf false)).term]

theorem treeLevel_eq (t : Ty) (m : Mode) (l : List FVal) : treeLevel t m l =
    ((List.range ((l.length + 1) / 2)).map fun j =>
        if 2 * j + 1 < l.length then fval t false (levelSum t m l j).1 else l.getD (2 * j) (.inf false),
      (List.range (l.length / 2)).foldl (fun f j => f ||| (levelSum t m l j).2) 0) := rfl

theorem foldl_or (g : ℕ → Flags) (l : List ℕ) (c : Flags) :
    l.foldl (fun f j => f ||| g j) c = c ||| l.foldl (fun f j => f ||| g j) 0 := by
  induction l generalizing c with
  | nil => simp
  | cons j l ih =>
    have hzero : (0 : Flags) ||| g j = g j := BitVec.zero_or
    rw [List.foldl_cons, List.foldl_cons, ih, ih (0 ||| g j), hzero, BitVec.or_assoc]

/-- The model's pairwise sums are a level of the tree. -/
theorem pairSums_eq_treeLevel (t : Ty) (m : Mode) : ∀ l, pairSums t m l = treeLevel t m l
  | [] => rfl
  | [_] => by simp [pairSums, treeLevel_eq]
  | a :: b :: rest => by
    have hnext : ∀ j, levelSum t m (a :: b :: rest) (j + 1) = levelSum t m rest j := fun j => rfl
    have hhalf : (rest.length + 1 + 1 + 1) / 2 = (rest.length + 1) / 2 + 1 := by omega
    have hhalf' : (rest.length + 1 + 1) / 2 = rest.length / 2 + 1 := by omega
    have hin : ∀ j, 2 * (j + 1) + 1 < rest.length + 1 + 1 ↔ 2 * j + 1 < rest.length := fun j => by omega
    rw [pairSums, pairSums_eq_treeLevel t m rest, treeLevel_eq, treeLevel_eq, List.length_cons, List.length_cons, hhalf, hhalf',
      List.range_succ_eq_map, List.range_succ_eq_map, List.map_cons, List.map_map, List.foldl_cons, List.foldl_map, foldl_or _ _ (0 ||| _)]
    refine Prod.ext ?_ ?_
    · refine congrArg₂ List.cons ?_ (List.map_congr_left fun j _ => ?_)
      · rw [if_pos (by omega)]
        rfl
      · simp only [Function.comp_apply, hin, hnext]
        rfl
    · exact congrArg (· ||| (treeLevel t m rest).2) (BitVec.zero_or (x := (levelSum t m (a :: b :: rest) 0).2)).symm

theorem treeLevel_length (t : Ty) (m : Mode) (l : List FVal) : (treeLevel t m l).1.length = (l.length + 1) / 2 := by
  rw [treeLevel_eq, List.length_map, List.length_range]

theorem treeSum_eq_treeOf {t : Ty} (ht : t.isBin = true) (m : Mode) {k : ℕ} {l : List FVal} (hl : l.length ≤ 2 ^ k) :
    treeSum t m k l = treeOf t m k l := by
  induction k generalizing l with
  | zero =>
    match l with
    | [] => cases t <;> cases ht <;> rfl
    | [v] => rfl
    | a :: b :: rest => simp at hl
  | succ k ih =>
    match l with
    | [] => cases t <;> cases ht <;> rfl
    | [v] => rfl
    | a :: b :: rest =>
      have hlen : (treeLevel t m (a :: b :: rest)).1.length ≤ 2 ^ k := by
        rw [treeLevel_length]
        rw [pow_succ] at hl
        omega
      rw [treeSum, treeOf, pairSums_eq_treeLevel, ih hlen]
      all_goals simp

end Sys2Proof.Machine
end

section
/-! SUPPORT. Quotients, roots and estimates of special values (02 R48; 05 R125, R127), and O19. -/

namespace Sys2Proof.Machine
open Sys2Proof.Safety Sys2Proof.Claims

/-! ### Quotients, roots and estimates of special values -/

section Special
variable (t : Ty) (mode : Mode) (fzo : Bool)

theorem fdiv_snan (v : FVal) : fdiv t mode fzo (.nan true) v = (t.nan, 16) ∧ fdiv t mode fzo v (.nan true) = (t.nan, 16) := by
  refine ⟨rfl, ?_⟩
  rcases v with q | _ | _
  · cases q <;> rfl
  all_goals rfl

theorem fdiv_qnan {v : FVal} (hv : v.isSnan = false) :
    fdiv t mode fzo (.nan false) v = (t.nan, 0) ∧ fdiv t mode fzo v (.nan false) = (t.nan, 0) := by
  rcases v with q | _ | _
  · cases q with
    | true => cases hv
    | false => exact ⟨rfl, rfl⟩
  all_goals exact ⟨rfl, rfl⟩

variable (n n' : Bool) (e e' : ℤ)

section Nonzero
variable {a : ℕ} (ha : a ≠ 0)
include ha

theorem fdiv_by_zero : fdiv t mode fzo (.fin n a e) (.fin n' 0 e') = (signed t (n != n') t.infMag, 8) := by
  simp only [fdiv, if_pos, if_neg ha]
  rfl

theorem fdiv_of_zero : fdiv t mode fzo (.fin n 0 e') (.fin n' a e) = (zeroBits t (n != n'), 0) := by
  simp only [fdiv, if_pos, if_neg ha]

theorem fsqrt_neg : fsqrt t mode fzo (.fin true a e) = (t.nan, 16) := by
  simp only [fsqrt, if_pos, if_neg ha]
  rfl

theorem frsqe_neg : frsqe t fzo (.fin true a e) = (t.nan, 16) := by
  simp only [frsqe, if_pos, if_neg ha]
  rfl

end Nonzero

end Special

end Sys2Proof.Machine

namespace Sys2Proof.Proofs
open Sys2Proof.Machine Sys2Proof.Safety Sys2Proof.Claims

/-- Settles O19: the cases of the model's functions that round nothing, each by the value of its operands. -/
theorem specialValues : Obligations.SpecialValues := by
  refine ⟨?values, ?l6Values, ?products, ?l6Products, ?rows, ?quotients, ?minmax, ?conversions, ?integers, ?integral, ?scales, ?tree⟩
  case values =>
    intro t f fzi neg ex fr hf hfr hex
    have h := hasFormat hf
    refine ⟨fun hn htop => ?_, h.fval_inf hfr hex neg fzi, h.fval_nan hfr hex neg fzi⟩
    obtain ⟨m, e, hval, hm⟩ := h.fval_fin hfr hex neg fzi hn htop
    refine ⟨m, e, hval, ?_, fun hz => h.encodeFin_eq_encoding hfr hex neg ?_⟩
    · rw [← Rat.cast_inj (α := ℝ), apply_ite (Rat.cast (K := ℝ)), Rat.cast_zero, ← hm]
      push_cast
      rfl
    · rw [hm, if_neg (by simp [hz])]
  case l6Values =>
    intro fzi neg n h1 hn
    refine ⟨⟨_, _, fval_l6 neg h1 hn fzi, ?_⟩, rfl, rfl⟩
    rw [← Rat.cast_inj (α := ℝ), ← l6Val_eq (by omega)]
    push_cast
    rfl
  case products =>
    intro a b
    refine ⟨mulTerm_snan, mulTerm_qnan, ?_, ?_, ?_, ?_⟩
    · rintro n k m e rfl rfl hm
      exact ⟨if_neg hm, if_neg hm⟩
    · rintro n k e rfl rfl
      exact ⟨rfl, rfl⟩
    · rintro n k rfl rfl
      rfl
    · rintro n m e k m' e' rfl rfl
      exact ⟨_, _, rfl, mulTerm_fin_value n k m m' e e', mul_eq_zero⟩
  case l6Products =>
    intro a b na nb ha hb
    exact ⟨fun ha1 hb1 => ⟨_, _, l6Product_codes na nb ha1 ha hb1 hb, lin_value (a + b)⟩, (l6Product_nan _).1,
      (l6Product_nan _).2, fun hb1 => l6Product_zero nb hb1 hb⟩
  case rows =>
    intro t f mode fzo ts hf
    have h := hasFormat hf
    rw [← h.nan]
    refine ⟨roundSum_snan mode fzo, roundSum_qnan mode fzo, roundSum_invalid mode fzo, fun n h1 h2 h3 hin hnot _ => ?_⟩
    rw [roundSum_inf mode fzo h1 h2 h3 hin hnot, h.signed_eq, h.infMag]
  case quotients =>
    intro t f mode fzo n n' a e e' v _ hf
    have h := hasFormat hf
    have hinf : ∀ n, signed t n t.infMag = signAt t n + infinity t f := fun n => by rw [h.signed_eq, h.infMag]
    have hpos : signed t false t.infMag = infinity t f := by rw [hinf]; exact Nat.zero_add _
    simp only [← h.nan, ← hinf]
    simp only [← hpos, ← h.zeroBits_eq]
    have hzero : zeroBits t false = 0 := h.zeroBits_eq false
    refine ⟨rfl, rfl, rfl, rfl, fun ha => ⟨fdiv_by_zero t mode fzo n n' e e' ha, fdiv_of_zero t mode fzo n n' e e' ha,
      fsqrt_neg t mode fzo e ha, frsqe_neg t fzo e ha⟩, fun q => ⟨(fdiv_snan t mode fzo v).1, (fdiv_snan t mode fzo v).2,
      fdiv_qnan t mode fzo, rfl, rfl, rfl⟩, rfl, rfl, rfl, rfl, rfl, congrArg (·, 0) hzero, rfl, rfl⟩
  case minmax =>
    intro t f isMax fzi fzo a b ht hf ha hb
    have h := hasFormat hf
    obtain ⟨hna, hsa⟩ := isNan_fval_iff ht h fzi ha
    obtain ⟨hnb, hsb⟩ := isNan_fval_iff ht h fzi hb
    refine ⟨fun hn => ?_, ?_⟩
    · rw [← hna, ← hnb] at hn
      rw [fminmax_nan hn, h.nan, ← hsa, ← hsb, ← Bool.or_eq_true]
      exact ⟨fun hs => by rw [if_pos hs], fun hs => by rw [if_neg hs]⟩
    · rintro x y z hna hnb rfl rfl hz
      have hda := denotes_fval ht h fzi ha hna
      have hdb := denotes_fval ht h fzi hb hnb
      exact ⟨fminmax_denotes h hda hdb isMax fzo hz, hda.lt_iff h hdb⟩
  case conversions =>
    intro tin tout mode sat fzi fzo b hin
    refine ⟨fun q => convert_nan hin, fun n hval => ⟨convert_inf_int hin hval, ?_, ?_, ?_, ?_⟩, ?_⟩
    · intro f hf hsat
      have h := hasFormat hf
      rw [convert_inf_float hin hval h.not_int, if_pos hsat, h.signed_eq, h.maxMag]
    · rintro rfl
      rw [convert_inf_float hin hval rfl]
      cases n <;> rfl
    · rintro rfl rfl
      exact convert_inf_float hin hval rfl
    · intro f hf hne hsat
      have h := hasFormat hf
      rw [convert_inf_float hin hval h.not_int, if_neg (by simp [hsat]), h.hasInf, if_pos (by simp [hne]), h.signed_eq, h.infMag]
    · intro n a k e v nx hout hval hr hv hexact hinexact
      have hbounds := intMin_le_intMax tout
      rw [convert_of_float hin, hval, convertF, if_pos hout, toInt_fin hr hv hexact hinexact]
      refine ⟨fun hlo hhi => if_pos ⟨hlo, hhi⟩, fun hsat hout => ?_, fun hsat hlow => ?_, fun hsat hhigh => ?_⟩
      · rw [if_neg (by omega), if_neg (by simp [hsat])]
      · rw [if_neg (by omega), if_pos hsat, if_pos hlow]
      · rw [if_neg (by omega), if_pos hsat, if_neg (by omega)]
  case integers =>
    intro tin tout mode sat fzi fzo b hin hout hb
    have hbounds := intMin_le_intMax tout
    rw [convert_int_int hin hout hb]
    refine ⟨fun hfit => if_pos hfit.symm, fun hsat hlow => ?_, fun hsat hhigh => ?_⟩
    · rw [if_neg (by simp [hsat]; omega), if_pos hlow]
    · rw [if_neg (by simp [hsat]; omega), if_neg (by omega)]
  case integral =>
    intro t f mode neg ex fr k ht hf hfr hex hr
    have h := hasFormat hf
    have hlt : ex < 2 ^ (t.width - f.p) := by omega
    have hn : ¬IsNan t f (encoding t f neg ex fr) := by
      rw [h.isNan_encoding hfr hlt, if_neg (ne_e4m3_of_isBin ht)]
      omega
    obtain ⟨m, e, hval, hm⟩ := h.fval_fin hfr hlt neg false hn (.inr hex)
    rw [if_neg (by simp)] at hm
    have hm' : (m * (2 : ℚ) ^ e : ℚ) = magnitude f ex fr := by
      rw [← Rat.cast_inj (α := ℝ)]
      push_cast
      exact hm
    obtain ⟨ex', fr', hfr', hex', hk⟩ := exists_integral_encoding ht hf hfr hex hr
    rw [hval, roundIntegral_fin (hm' ▸ hr), hm']
    refine ⟨ex', fr', hfr', hex', by exact_mod_cast hk, ?_, fun heq => if_neg (not_not.2 heq), fun hne => if_pos hne⟩
    exact h.encodeFin_eq_encoding hfr' (by omega) neg (by rw [hk, zpow_zero, mul_one])
  case scales =>
    intro t vs emax ht
    have hemax : t.emax = emax := by rcases ht with ⟨rfl, rfl⟩ | ⟨rfl, rfl⟩ | ⟨rfl, rfl⟩ <;> rfl
    refine ⟨fun hzero => ?_, fun k hle hlt => ?_⟩
    · rw [blockScale, amaxLog_of_zero hzero]
    · rw [blockScale, amaxLog_of_amax hle hlt, hemax]
      exact Int.toNat_of_nonneg (by omega)
  case tree =>
    exact fun t mode l ht hl => treeSum_eq_treeOf ht mode hl

end Sys2Proof.Proofs
end

section
/-! SUPPORT. The elements of a tile in the claims' terms (06 R151, R153, R166): reading them, and packing them into a tile. -/

namespace Sys2Proof.Machine
open Sys2Proof.Safety Sys2Proof.Claims

/-! ### Fields of a number -/

/-- A field that lies inside the low bits. -/
theorem field_of_mod {N p w : ℕ} (h : p + w ≤ N) (x : ℕ) : x % 2 ^ N / 2 ^ p % 2 ^ w = x / 2 ^ p % 2 ^ w := by
  refine Nat.eq_of_testBit_eq fun i => ?_
  simp only [Nat.testBit_mod_two_pow, Nat.testBit_div_two_pow]
  by_cases hi : i < w
  · simp [hi, show i + p < N by omega]
  · simp [hi]

/-- A field of a field. -/
theorem field_of_field {p w q v : ℕ} (h : q + v ≤ w) (x : ℕ) : x / 2 ^ p % 2 ^ w / 2 ^ q % 2 ^ v = x / 2 ^ (p + q) % 2 ^ v := by
  rw [field_of_mod h, Nat.div_div_eq_div_mul, pow_add]

theorem packList_field (w : ℕ) (l : List ℕ) (e : ℕ) : packList w l / 2 ^ (w * e) % 2 ^ w = l.getD e 0 % 2 ^ w := by
  induction l generalizing e with
  | nil => simp [packList]
  | cons x l ih =>
    have hx : x % 2 ^ w < 2 ^ w := Nat.mod_lt _ (Nat.two_pow_pos w)
    cases e with
    | zero => simp [packList]
    | succ e =>
      rw [packList, mul_add_one, add_comm (w * e), pow_add, ← Nat.div_div_eq_div_mul, Nat.add_mul_div_left _ _ (Nat.two_pow_pos w),
        Nat.div_eq_of_lt hx, zero_add, ih]
      simp

/-! ### Elements read -/

theorem tileVal_eq_image (t : Thread) (r : Rt) : tileVal t r = Tile.image t.t[r] := by
  unfold tileVal Tile.image
  cases t.t[r] <;> rfl

/-- The elements of a row lie in its 1,024 bits. -/
theorem cellBits_mul_perRow_le (t : Ty) : cellBits t * t.perRow ≤ 1024 := by cases t <;> decide

theorem element_in_row {t : Ty} {c : ℕ} (hc : c < t.perRow) : cellBits t * c + cellBits t ≤ 1024 :=
  (Nat.mul_le_mul_left (cellBits t) hc).trans (cellBits_mul_perRow_le t)

theorem rowElem_tileRow {t : Ty} {c : ℕ} (hc : c < t.perRow) (img : TileImage) (i : ℕ) :
    rowElem t (tileRow img i) c = cell (cellBits t) img i c :=
  field_of_field (element_in_row hc) _

theorem metaIndex_eq_cell {b e : ℕ} (h : b * e + b ≤ 1024) (img : TileImage) (i : ℕ) :
    metaIndex b (tileRow img i) e = cell b img i e :=
  field_of_field h _

theorem scaledType_iff (t : Ty) : scaledType t = true ↔ t = .e4m3 ∨ t = .e5m2 ∨ t = .l6 := by
  cases t <;> decide

theorem scaleOf_eq_cellScale (t : Ty) (img : TileImage) (i c : ℕ) : scaleOf t img i c = cellScale t img i c := by
  have hcond : (scaledType t && img.tag != 0) = true ↔ (t = .e4m3 ∨ t = .e5m2 ∨ t = .l6) ∧ img.tag ≠ 0 := by
    rw [Bool.and_eq_true, scaledType_iff, bne_iff_ne]
  rw [scaleOf, cellScale, ite_congr (propext hcond) (fun _ => rfl) fun _ => rfl]
  rfl

/-- An operand's element from its code and its scale. -/
def operand (t : Ty) (fzi : Bool) (x : ℕ × Option ℕ) : Operand := { v := fval t fzi x.1, code := x.1, scale := x.2 }

theorem operandRow_eq (t : Ty) (fzi : Bool) (img : TileImage) (i : ℕ) : operandRow t fzi img i =
    (List.range t.perRow).map fun c => operand t fzi (cell (cellBits t) img i c, cellScale t img i c) :=
  List.map_congr_left fun c hc => by
    rw [rowElem_tileRow (List.mem_range.1 hc), scaleOf_eq_cellScale]
    rfl

/-! ### Elements packed -/

theorem plain_plainTile (data : BitVec 32768) : Plain (plainTile data) := ⟨rfl, rfl⟩

/-- Rows of equal length one after the other. -/
theorem flatMap_rows {α : Type} (f : ℕ → ℕ → α) (n m : ℕ) :
    ((List.range n).flatMap fun q => (List.range m).map (f q)) = (List.range (n * m)).map fun e => f (e / m) (e % m) := by
  rw [mul_comm, ← flatMap_range]
  refine List.flatMap_congr fun q _ => List.map_congr_left fun j hj => ?_
  have hj := List.mem_range.1 hj
  rw [Nat.mul_add_div (by omega), Nat.div_eq_of_lt hj, Nat.mul_add_mod, Nat.mod_eq_of_lt hj, add_zero]

theorem getD_map_range {α : Type} {n e : ℕ} (h : e < n) (f : ℕ → α) (d : α) : ((List.range n).map f).getD e d = f e := by
  simp [h]

theorem field_of_ofNat {N p w : ℕ} (h : p + w ≤ N) (x : ℕ) : (BitVec.ofNat N x).toNat / 2 ^ p % 2 ^ w = x / 2 ^ p % 2 ^ w := by
  rw [BitVec.toNat_ofNat, field_of_mod h]

section Packed
variable {f : ℕ → ℕ → ℕ} {r c : ℕ} (hr : r < 32) (hc : c < 32)
include hr hc

/-- Element (r, c) of a tile of 1,024 words packed in order. -/
theorem cell_packed : cell 32 (plainTile (BitVec.ofNat 32768 (packList 32 ((List.range 1024).map fun e => f (e / 32) (e % 32))))) r c =
    f r c % 2 ^ 32 := by
  have hplace : 1024 * r + 32 * c = 32 * (32 * r + c) := by ring
  have hdiv : (32 * r + c) / 32 = r := by omega
  have hmod : (32 * r + c) % 32 = c := by omega
  refine (field_of_ofNat (by omega) _).trans ?_
  rw [hplace, packList_field, getD_map_range (by omega), hdiv, hmod]

/-- Element (r, c) of a tile of i32 elements. -/
theorem cell_tileData : cell 32 (plainTile (tileData .i32 f)) r c = f r c % 2 ^ 32 := by
  refine (field_of_ofNat (by omega) _).trans ?_
  rw [← field_of_field (w := 1024) (by omega), packList_field, getD_map_range hr, field_of_mod (by omega)]
  exact (packList_field 32 _ c).trans (congrArg (· % 2 ^ 32) (getD_map_range hc _ _))

end Packed

/-- The flags of 1,024 elements in order. -/
theorem gather_grid (f : ℕ → ℕ → Flags) :
    gather ((List.range 1024).map fun e => (0, f (e / 32) (e % 32))) = gridFlags fun r c => (0, f r c) := by
  rw [gather, List.foldl_map]
  rfl

theorem gridFlags_congr {f g : ℕ → ℕ → ℕ × Flags} (h : ∀ r c, r < 32 → c < 32 → (f r c).2 = (g r c).2) : gridFlags f = gridFlags g := by
  refine (gather_grid fun r c => (f r c).2).symm.trans (Eq.trans ?_ (gather_grid fun r c => (g r c).2))
  refine congrArg gather (List.map_congr_left fun e he => ?_)
  have he := List.mem_range.1 he
  rw [h (e / 32) (e % 32) (by omega) (by omega)]

end Sys2Proof.Machine
end

section
/-! SUPPORT. The sums of a tile multiply (02 R47 to R51; 06 R166): the model's K-steps and exact i8 sums are those of the claims. -/

namespace Sys2Proof.Machine
open Sys2Proof.Safety Sys2Proof.Claims

/-! ### The K-steps (R47, R48, R50) -/

theorem stepWidth_eq_kStep (t : Ty) : stepWidth t = kStep t := by cases t <;> decide

theorem byScale_eq_timesScale (t : Term) (k : Option ℕ) : t.byScale k = timesScale k t := by cases k <;> rfl

theorem slice_range {n d g : ℕ} (h : d + g ≤ n) : ((List.range n).drop d).take g = (List.range g).map (d + ·) := by
  refine List.ext_getElem (by simp; omega) fun i hi hi' => ?_
  simp

/-- The terms of the steps of two rows of one length. -/
theorem stepTerms_rows (l6 : Bool) (g len : ℕ) (a : ℕ → Option Operand) (b : ℕ → Operand) :
    stepTerms l6 g ((List.range len).map a) ((List.range len).map b) = (List.range (len / g)).map fun n =>
      (List.range g).filterMap fun i => (a (g * n + i)).map fun x => product l6 x (b (g * n + i)) := by
  rw [stepTerms, List.zip_map', List.map_map, List.length_map, List.length_range]
  refine List.map_congr_left fun n hn => ?_
  have hn : n + 1 ≤ len / g := List.mem_range.1 hn
  have hfit : g * n + g ≤ len := (Nat.mul_le_mul_left g hn).trans (Nat.mul_div_le len g)
  rw [← List.map_drop, ← List.map_take, slice_range hfit, List.filterMap_map, List.filterMap_map]
  rfl

/-- The accumulator through `n` steps, one more step at a time. -/
theorem accumulate_eq_stepSums (m : Mode) (fzo : Bool) (g : ℕ) (p : ℕ → Option Term) (acc : FVal) (n : ℕ) :
    accumulate m fzo acc ((List.range n).map fun k => (List.range g).filterMap fun i => p (g * k + i)) =
      stepSums m fzo g p acc n := by
  induction n with
  | zero => rfl
  | succ n ih =>
    rw [accumulate] at ih ⊢
    rw [List.range_succ, List.map_append, List.foldl_append, ih]
    rfl

/-- The exponent of a zero does not matter to a sum. -/
theorem roundSum_zero_exponent (t : Ty) (m : Mode) (fzo n : Bool) (e e' : ℤ) (ts : List Term) :
    roundSum t m fzo (.fin n 0 e :: ts) = roundSum t m fzo (.fin n 0 e' :: ts) := by
  simp [roundSum, minExp, sumUnits, zeroSign]

theorem stepSums_zero_exponent (m : Mode) (fzo n : Bool) (g : ℕ) (p : ℕ → Option Term) (e e' : ℤ) (k : ℕ) :
    stepSums m fzo g p (.fin n 0 e) (k + 1) = stepSums m fzo g p (.fin n 0 e') (k + 1) := by
  induction k with
  | zero => simp only [stepSums, FVal.term, roundSum_zero_exponent _ _ _ _ e e']
  | succ k ih =>
    rw [stepSums, ih]
    rfl

/-- The bits and the flags of an accumulator that starts at a zero. -/
theorem stepSums_zero (m : Mode) (fzo n : Bool) (g : ℕ) (p : ℕ → Option Term) (e e' : ℤ) (k : ℕ) :
    (bitsOf .f32 (stepSums m fzo g p (.fin n 0 e) k).1, (stepSums m fzo g p (.fin n 0 e) k).2) =
      (bitsOf .f32 (stepSums m fzo g p (.fin n 0 e') k).1, (stepSums m fzo g p (.fin n 0 e') k).2) := by
  cases k with
  | zero => rfl
  | succ k => rw [stepSums_zero_exponent m fzo n g p e e']

theorem fval_f32_zero (fzi : Bool) : ∃ e, fval .f32 fzi 0 = .fin false 0 e := by
  cases fzi
  · exact ⟨-149, by decide⟩
  · exact ⟨0, by decide⟩

/-! ### The bits of an accumulator element -/

/-- Only the low 32 bits of a number are an f32 element. -/
theorem fval_f32_mod (fzi : Bool) (b : ℕ) : fval .f32 fzi (b % 2 ^ 32) = fval .f32 fzi b := by
  have hexp : b % 2 ^ 32 / 2 ^ 23 % 2 ^ 8 = b / 2 ^ 23 % 2 ^ 8 := field_of_mod (by decide) b
  have hsign : b % 2 ^ 32 / 2 ^ 31 % 2 ^ 1 = b / 2 ^ 31 % 2 ^ 1 := field_of_mod (by decide) b
  have hfrac : b % 2 ^ 32 % 2 ^ 23 = b % 2 ^ 23 := Nat.mod_mod_of_dvd _ (pow_dvd_pow 2 (by decide))
  have hbits : Ty.f32.fmt.fbits = 23 := rfl
  have ebits : Ty.f32.fmt.ebits = 8 := rfl
  have hpos : Ty.f32.signBit = 2 ^ 31 := rfl
  rw [pow_one] at hsign
  have hl6 : Ty.f32 ≠ .l6 := nofun
  have he4m3 : ∀ P : Prop, ¬(Ty.f32 = .e4m3 ∧ P) := fun _ h => nomatch h.1
  rw [fval_of_ne_l6 hl6, fval_of_ne_l6 hl6, hbits, ebits, hpos, hexp, hsign, hfrac,
    if_neg (he4m3 _), if_neg (he4m3 _)]

theorem bitsOf_fval_f32_lt (fzi : Bool) (b : ℕ) : bitsOf .f32 (fval .f32 fzi b) < 2 ^ 32 := by
  obtain ⟨f, hf⟩ : ∃ f, binary .f32 = some f := ⟨_, rfl⟩
  have h := hasFormat hf
  have hb : b % 2 ^ 32 < 2 ^ Ty.f32.width := Nat.mod_lt _ (by decide)
  rw [← fval_f32_mod]
  by_cases hn : IsNan .f32 f (b % 2 ^ 32)
  · have hnan := ((isNan_fval_iff rfl h fzi hb).1).2 hn
    cases hv : fval .f32 fzi (b % 2 ^ 32) with
    | nan q => exact (by decide : Ty.f32.nan < 2 ^ 32)
    | inf n => rw [hv] at hnan; cases hnan
    | fin n m e => rw [hv] at hnan; cases hnan
  · rw [(denotes_fval rfl h fzi hb hn).bitsOf h, flushed]
    split
    · unfold signAt
      split <;> decide
    · exact hb

theorem bitsOf_stepSums_lt (m : Mode) (fzo : Bool) (g : ℕ) (p : ℕ → Option Term) (fzi : Bool) (b k : ℕ) :
    bitsOf .f32 (stepSums m fzo g p (fval .f32 fzi b) k).1 < 2 ^ 32 := by
  cases k with
  | zero => exact bitsOf_fval_f32_lt fzi b
  | succ k => exact bitsOf_fval_f32_lt false _

/-! ### The exact sum of an i8 multiply (R51) -/

theorem i8Sum_rows (len : ℕ) (a : ℕ → Option Operand) (b : ℕ → Operand) :
    i8Sum ((List.range len).map a) ((List.range len).map b) =
      ((List.range len).map fun k => (a k).elim 0 fun x => toSigned 8 x.code * toSigned 8 (b k).code).sum := by
  have hfold : ∀ (l : List ℕ) (n : ℤ), (l.map fun k => (a k, b k)).foldl (fun n e => match e.1 with
      | none => n
      | some x => n + toSigned 8 x.code * toSigned 8 e.2.code) n =
        n + (l.map fun k => (a k).elim 0 fun x => toSigned 8 x.code * toSigned 8 (b k).code).sum := by
    intro l
    induction l with
    | nil => simp
    | cons k l ih =>
      intro n
      rw [List.map_cons, List.foldl_cons, ih, List.map_cons, List.sum_cons]
      cases a k with
      | none => simp
      | some x => simp [add_assoc]
  rw [i8Sum, List.zip_map']
  exact (hfold _ 0).trans (zero_add _)

theorem toSigned_eq_sgn {w v : ℕ} (h : v < 2 ^ w) : toSigned w v = sgn w v := by
  rw [toSigned, sgn, Nat.mod_eq_of_lt h]
  norm_cast

/-- A signed accumulator is its bits, modulo 2^32. -/
theorem wrap_toSigned_add (v : ℕ) (x : ℤ) : wrap 32 (toSigned 32 v + x) = (((v : ℤ) + x) % 2 ^ 32).toNat := by
  unfold wrap toSigned
  congr 1
  split <;> omega

end Sys2Proof.Machine
end

section
/-! SUPPORT. A tile multiply as a whole (06 R166): the tile and the flags that the model computes from rows of operands, and
how an instruction that writes a tile ends (02 R54, R56; 06 R153, R154, R157). -/

namespace Sys2Proof.Claims
open Sys2Proof.Safety Sys2Proof.Machine

/-! ### The result of a multiply -/

/-- The operands of a multiply as the model takes them: rows of A over the dense index, and rows of B. -/
def MulOp.rows (o : MulOp) : List (List (Option Operand)) :=
  (List.range 32).map fun i => (List.range o.len).map fun k => (o.a i k).map (operand o.t o.fzi)

def MulOp.cols (o : MulOp) : List (List Operand) :=
  (List.range 32).map fun j => (List.range o.len).map fun k => operand o.tb o.fzi (o.b j k)

/-- The elements of an i8 multiply are bytes. -/
def MulOp.Bytes (o : MulOp) : Prop := o.t = .i8 → (∀ i k, ∀ x ∈ o.a i k, x.1 < 2 ^ 8) ∧ ∀ j k, (o.b j k).1 < 2 ^ 8

/-- The accumulator tile that a multiply reads; with `z` it reads none. -/
def MulOp.Accumulates (o : MulOp) (s : State) (old : TileImage) : Prop := o.z = false → old = tileVal s.th o.d

/-- An accumulator element in the model. -/
def MulOp.accumulated (o : MulOp) (s : State) (old : TileImage) (r c : ℕ) : FVal × Flags :=
  accumulate (dynMode s o.dyn) o.fzo (if o.z then .fin false 0 0 else fval .f32 o.fzi (tileElem .f32 old r c))
    (stepTerms (o.t == .l6) (stepWidth o.t) (o.rows.getD (if o.tr then c else r) []) (o.cols.getD (if o.tr then r else c) []))

/-- An accumulator element of an i8 multiply in the model. -/
def MulOp.wrapped (o : MulOp) (old : TileImage) (r c : ℕ) : ℕ :=
  wrap 32 ((if o.z then 0 else toSigned 32 (tileElem .i32 old r c))
    + i8Sum (o.rows.getD (if o.tr then c else r) []) (o.cols.getD (if o.tr then r else c) []))

theorem multiply_float {o : MulOp} (ht : o.t ≠ .i8) (s : State) (old : TileImage) :
    multiply o.t (dynMode s o.dyn) o.fzi o.fzo o.z o.tr old o.rows o.cols =
      (plainTile (BitVec.ofNat 32768 (packList 32 ((List.range 1024).map fun e => bitsOf .f32 (o.accumulated s old (e / 32) (e % 32)).1))),
        gather ((List.range 1024).map fun e => (0, (o.accumulated s old (e / 32) (e % 32)).2))) := by
  have hcells : ((List.range 32).map fun r => (List.range 32).map fun c => o.accumulated s old r c).flatten =
      (List.range 1024).map fun e => o.accumulated s old (e / 32) (e % 32) := by
    rw [← List.flatMap_def]
    exact flatMap_rows _ 32 32
  have heq : multiply o.t (dynMode s o.dyn) o.fzi o.fzo o.z o.tr old o.rows o.cols =
      (plainTile (BitVec.ofNat 32768 (packList 32
          (((List.range 32).map fun r => (List.range 32).map fun c => o.accumulated s old r c).flatten.map fun e => bitsOf .f32 e.1))),
        gather (((List.range 32).map fun r => (List.range 32).map fun c => o.accumulated s old r c).flatten.map fun e => (0, e.2))) := by
    rw [multiply, if_neg ht]
    simp only [MulOp.accumulated]
    cases o.tr <;> rfl
  rw [heq, hcells, List.map_map, List.map_map]
  rfl

theorem multiply_i8 {o : MulOp} (ht : o.t = .i8) (s : State) (old : TileImage) :
    multiply o.t (dynMode s o.dyn) o.fzi o.fzo o.z o.tr old o.rows o.cols = (plainTile (tileData .i32 (o.wrapped old)), 0) := by
  have helem : o.wrapped old = fun r c => wrap 32 ((if o.z then 0 else toSigned 32 (tileElem .i32 old r c))
      + i8Sum (o.rows.getD (if o.tr then c else r) []) (o.cols.getD (if o.tr then r else c) [])) := rfl
  rw [multiply, if_pos ht, helem]
  cases o.tr <;> rfl

section Elements
variable {o : MulOp} {s : State} {old : TileImage} (hold : o.Accumulates s old) {r c : ℕ} (hr : r < 32) (hc : c < 32)
include hr hc

omit hr in
theorem tileElem_accumulator (t : Ty) (ht : cellBits t = 32) (hper : t.perRow = 32) (old : TileImage) (r : ℕ) :
    tileElem t old r c = cell 32 old r c := by
  rw [tileElem, rowElem_tileRow (by rwa [hper]), ht]

theorem MulOp.rows_getD : o.rows.getD (if o.tr then c else r) [] =
    (List.range o.len).map fun k => (o.a (if o.tr then c else r) k).map (operand o.t o.fzi) :=
  getD_map_range (by split <;> assumption) ..

theorem MulOp.cols_getD : o.cols.getD (if o.tr then r else c) [] =
    (List.range o.len).map fun k => operand o.tb o.fzi (o.b (if o.tr then r else c) k) :=
  getD_map_range (by split <;> assumption) ..

omit hr hc in
/-- The product at k, in the model and in the claims. -/
theorem MulOp.product_eq (i j k : ℕ) :
    ((o.a i k).map (operand o.t o.fzi)).map (fun x => Machine.product (o.t == .l6) x (operand o.tb o.fzi (o.b j k))) = o.product i j k := by
  rw [Option.map_map, MulOp.product]
  refine congrArg (fun f => (o.a i k).map f) (funext fun x => ?_)
  rw [Function.comp_apply, Machine.product, byScale_eq_timesScale, byScale_eq_timesScale]
  by_cases ht : o.t = .l6 <;> simp [ht, operand]

include hold

theorem MulOp.accumulated_eq : o.accumulated s old r c =
    stepSums (if o.dyn then modeOf s.th.fcsr else .rne) o.fzo (kStep o.t) (o.product (if o.tr then c else r) (if o.tr then r else c))
      (if o.z then .fin false 0 0 else fval .f32 o.fzi (cell 32 (tileVal s.th o.d) r c)) (o.len / kStep o.t) := by
  have hacc : (if o.z then FVal.fin false 0 0 else fval .f32 o.fzi (tileElem .f32 old r c)) =
      if o.z then .fin false 0 0 else fval .f32 o.fzi (cell 32 (tileVal s.th o.d) r c) := by
    cases hz : o.z with
    | true => rfl
    | false => rw [hold hz, tileElem_accumulator hc .f32 rfl rfl]
  rw [MulOp.accumulated, hacc, MulOp.rows_getD hr hc, MulOp.cols_getD hr hc, stepTerms_rows, ← accumulate_eq_stepSums, stepWidth_eq_kStep]
  simp only [MulOp.product_eq]
  rfl

theorem MulOp.element_float (ht : o.t ≠ .i8) :
    o.element s r c = (bitsOf .f32 (o.accumulated s old r c).1, (o.accumulated s old r c).2) := by
  rw [MulOp.accumulated_eq hold hr hc, MulOp.element, if_neg ht]
  cases o.z with
  | false => rfl
  | true =>
    obtain ⟨e, he⟩ := fval_f32_zero o.fzi
    rw [if_pos rfl, if_pos rfl, he]
    exact stepSums_zero ..

theorem MulOp.element_i8 (ht : o.t = .i8) (hb : o.Bytes) : o.element s r c = (o.wrapped old r c, 0) := by
  obtain ⟨ha, hb⟩ := hb ht
  have hacc : ∀ x : ℤ, wrap 32 ((if o.z then 0 else toSigned 32 (tileElem .i32 old r c)) + x) =
      ((((if o.z then 0 else cell 32 (tileVal s.th o.d) r c : ℕ) : ℤ) + x) % 2 ^ 32).toNat := by
    intro x
    cases hz : o.z with
    | true => simpa using wrap_eq 32 x
    | false =>
      rw [hold hz, tileElem_accumulator hc .i32 rfl rfl]
      exact wrap_toSigned_add _ x
  rw [MulOp.wrapped, hacc, MulOp.rows_getD hr hc, MulOp.cols_getD hr hc, i8Sum_rows, MulOp.element, if_pos ht]
  refine congrArg (fun l : List ℤ => ((((if o.z then 0 else cell 32 (tileVal s.th o.d) r c : ℕ) : ℤ) + l.sum) % 2 ^ 32).toNat)
    (List.map_congr_left fun k _ => ?_) |> congrArg (·, (0 : Flags))
  cases hk : o.a (if o.tr then c else r) k with
  | none => rfl
  | some x => exact congrArg₂ (· * ·) (toSigned_eq_sgn (ha _ _ x hk)).symm (toSigned_eq_sgn (hb _ _)).symm

end Elements

/-- The tile and the flags of a multiply. -/
theorem MulOp.multiply_eq {o : MulOp} {s : State} {old : TileImage} (hold : o.Accumulates s old) (hb : o.Bytes) :
    ∃ img, multiply o.t (dynMode s o.dyn) o.fzi o.fzo o.z o.tr old o.rows o.cols = (img, gridFlags (o.element s)) ∧ Plain img
      ∧ ∀ r c, r < 32 → c < 32 → cell 32 img r c = (o.element s r c).1 := by
  by_cases ht : o.t = .i8
  · have helem : ∀ r c, r < 32 → c < 32 → o.element s r c = (o.wrapped old r c, 0) := fun r c hr hc =>
      MulOp.element_i8 hold hr hc ht hb
    have hflags : gridFlags (o.element s) = 0 :=
      (gridFlags_congr fun r c hr hc => congrArg Prod.snd (helem r c hr hc)).trans (allFlags_zero _ _)
    refine ⟨_, by rw [multiply_i8 ht, hflags], plain_plainTile _, fun r c hr hc => ?_⟩
    rw [cell_tileData hr hc, helem r c hr hc, MulOp.wrapped, wrap_eq]
    omega
  · have helem : ∀ r c, r < 32 → c < 32 →
        o.element s r c = (bitsOf .f32 (o.accumulated s old r c).1, (o.accumulated s old r c).2) := fun r c hr hc =>
      MulOp.element_float hold hr hc ht
    have hflags : gridFlags (o.element s) = gridFlags fun r c => (0, (o.accumulated s old r c).2) :=
      gridFlags_congr fun r c hr hc => by rw [helem r c hr hc]
    refine ⟨_, by rw [multiply_float ht, hflags, ← gather_grid], plain_plainTile _, fun r c hr hc => ?_⟩
    rw [cell_packed (f := fun r c => bitsOf .f32 (o.accumulated s old r c).1) hr hc, helem r c hr hc,
      MulOp.accumulated_eq hold hr hc]
    refine Nat.mod_eq_of_lt ?_
    cases o.z with
    | false => exact bitsOf_stepSums_lt ..
    | true =>
      have hzero : FVal.fin false 0 0 = fval .f32 true 0 := by decide
      rw [if_pos rfl, hzero]
      exact bitsOf_stepSums_lt ..

end Sys2Proof.Claims
end

section
/-! SUPPORT. How an instruction that writes a tile ends (02 R54, R56; 06 R153, R154, R157): the flags of its elements, the
physical tile it takes, and the numeric fault. -/

namespace Sys2Proof.Machine
open Sys2Proof.Safety Sys2Proof.Claims

/-- Flags of which none is enabled are raised in `fcsr` (R54). -/
theorem raiseFlags_ok {s : State} {f : Flags} (h : f &&& enabled s.th = 0) : raiseFlags s f = .ok (withThread s (flagged s.th f)) := by
  rw [raiseFlags, enables_eq_enabled, BitVec.and_comm, if_pos h, orFlags, BitVec.ofNat_toNat]
  rfl

/-! ### Free tiles and the registers that name them -/

section OneThread
variable {s : State} {t : Thread} (ht : t.t = s.th.t)
include ht

/-- The tile registers of a thread, when the current one keeps its own. -/
theorem thread_tiles (n : ℕ) : ((withThread s t).thread n).t = (s.thread n).t := by
  have htid : (withThread s t).tid = s.tid := rfl
  rw [State.thread, State.thread, htid]
  by_cases hn : n = s.tid
  · rw [if_pos hn, if_pos hn]
    exact ht
  · rw [if_neg hn, if_neg hn]
    rfl

theorem freeTiles_withThread (eng : ℕ) : freeTiles (withThread s t) eng = freeTiles s eng := by
  unfold freeTiles liveTiles
  simp only [thread_tiles ht]
  rfl

theorem tilesFor_withThread (eng n : ℕ) : tilesFor (withThread s t) eng n = tilesFor s eng n := by
  unfold tilesFor grantTiles
  simp only [freeTiles_withThread ht]
  rfl

end OneThread

/-- A tile that a thread may take is free. -/
theorem exists_free_tile {s : State} {d : Rt} (h : TileFree s d) : (freeTiles s (tileEngine s d)).headD 0 ∈ freeTiles s (tileEngine s d) := by
  have hlen : 1 ≤ (freeTiles s (tileEngine s d)).length := h.trans (Nat.sub_le _ _)
  cases hf : freeTiles s (tileEngine s d) with
  | nil => rw [hf] at hlen; cases hlen
  | cons p l => exact List.mem_cons_self

/-- A tile register written, and the instruction retired (R153, R154). -/
theorem writeTile_retires {s : State} {t : Thread} {d : Rt} (h : TileFree s d) (ht : t.t = s.th.t) (img : TileImage) :
    ∃ u, writeTile (withThread s t) d img = .ok u ∧ TileWritten s t d img (retire u) := by
  have hneed : needTiles (withThread s t) (tileEngine s d) 1 = .ok () := by
    rw [needTiles, tilesFor_withThread ht]
    exact if_pos h
  have hwrite : writeTile (withThread s t) d img = needTiles (withThread s t) (tileEngine s d) 1 >>= fun _ => .ok
      (((withThread s (putT t d img ((freeTiles (withThread s t) (tileEngine s d)).headD 0))).setEngine (tileEngine s d)
        ((grantTiles (withThread s t) (tileEngine s d)).take s.tid s.cycle (freeTiles (withThread s t) (tileEngine s d)).length)).supersede
          (tileEngine s d) t.t[d]) := rfl
  rw [hwrite, hneed, freeTiles_withThread ht]
  refine ⟨_, rfl, ⟨_, exists_free_tile h, ?_⟩, ?_, ?_⟩
  · rw [retire_eq, withThread_th, State.supersede_th, State.setEngine_th, withThread_th]
  · simp only [MemoryAndOthersKept, retire_mem, retire_parked, retire_tid, retire_contexts, retire_poison, retire_cycle, retire_pmc,
      State.supersede_mem, State.supersede_parked, State.supersede_tid, State.supersede_contexts, State.supersede_poison,
      State.supersede_cycle, State.supersede_pmc, State.setEngine_mem, State.setEngine_parked, State.setEngine_tid,
      State.setEngine_contexts, State.setEngine_poison, State.setEngine_cycle, State.setEngine_pmc]
    exact ⟨rfl, rfl, rfl, rfl, rfl, rfl, rfl⟩
  · rw [retire_cores, State.supersede_cores, State.setEngine_cores]
    rfl

/-! ### The end of an instruction with flags -/

section Ends
variable {s : State} {d : Rt} {img : TileImage} {f : Flags}

/-- With no raised flag enabled, the result is written to a free tile. -/
theorem finish_writeResult (hf : f &&& enabled s.th = 0) (h : TileFree s d) :
    ∃ t, finish s (writeResult s d (img, f)) = .next t ∧ TileWritten s (flagged s.th f) d img t := by
  obtain ⟨u, hu, hw⟩ := writeTile_retires (t := flagged s.th f) h rfl img
  refine ⟨_, ?_, hw⟩
  rw [writeResult, raiseFlags_ok hf, ok_bind, hu]
  rfl

/-- With a raised flag enabled, the instruction ends in a numeric fault. -/
theorem finish_writeResult_fault (hf : f &&& enabled s.th ≠ 0) (hc : CanHold s 1) :
    finish s (writeResult s d (img, f)) = .next (faulted s 0x0E 0 (f.setWidth 64) 0 none) :=
  finish_raiseFlags hc hf rfl _

end Ends

/-! ### Tile registers read -/

theorem useT_bind {α : Type} {s : State} {r : Rt} (h : Readable s.th (.t r)) (k : TileImage → Except Stop α) :
    (useT s r >>= k) = k (tileVal s.th r) := by
  rw [useT_ok h, ok_bind, tileVal_eq_image]

/-- The accumulator is read unless it starts at zero. -/
theorem oldTile_ok {s : State} {d : Rt} {z : Bool} (h : z = false → Readable s.th (.t d)) :
    ∃ old, oldTile s d z = .ok old ∧ (z = false → old = tileVal s.th d) := by
  cases z with
  | true => exact ⟨_, rfl, nofun⟩
  | false => exact ⟨_, useT_ok (h rfl), fun _ => (tileVal_eq_image ..).symm⟩

end Sys2Proof.Machine
end

section
/-! SUPPORT. The four multiplies (06 R165 to R168): the operands that each reads, and the metadata of `tmmas`. -/

namespace Sys2Proof.Claims
open Sys2Proof.Safety Sys2Proof.Machine

/-! ### The end of a multiply -/

/-- A multiply with its operands read writes its result to a free tile, or faults with the flags of its elements. -/
theorem MulOp.ends {o : MulOp} {s : State} {old : TileImage} (hold : o.Accumulates s old) (hb : o.Bytes)
    {x : Host.Outcome State Fault Refusal}
    (hx : x = finish s (writeResult s o.d (multiply o.t (dynMode s o.dyn) o.fzi o.fzo o.z o.tr old o.rows o.cols))) :
    (gridFlags (o.element s) &&& enabled s.th = 0 → TileFree s o.d →
      ∃ t img, x = .next t ∧ TileWritten s (flagged s.th (gridFlags (o.element s))) o.d img t ∧ Plain img
        ∧ ∀ r c, r < 32 → c < 32 → cell 32 img r c = (o.element s r c).1)
    ∧ (gridFlags (o.element s) &&& enabled s.th ≠ 0 → CanHold s 1 →
      x = .next (faulted s 0x0E 0 ((gridFlags (o.element s)).setWidth 64) 0 none)) := by
  obtain ⟨img, hmul, hplain, hcells⟩ := MulOp.multiply_eq hold hb
  rw [hmul] at hx
  refine ⟨fun hf hfree => ?_, fun hf hc => hx.trans (finish_writeResult_fault hf hc)⟩
  obtain ⟨t, ht, hw⟩ := finish_writeResult hf hfree
  exact ⟨t, img, hx.trans ht, hw, hplain, hcells⟩

/-! ### Dense multiplies (R166) -/

section Dense
variable {s : State} {d a b : Rt} {t tb : Ty} {fzi dyn fzo z tr : Bool}

theorem denseOp_rows : (denseOp s d a b t tb fzi dyn fzo z tr).rows =
    (List.range 32).map fun i => (operandRow t fzi (tileVal s.th a) i).map some := by
  refine List.map_congr_left fun i _ => ?_
  rw [operandRow_eq, List.map_map]
  rfl

theorem denseOp_cols (hper : tb.perRow = t.perRow) : (denseOp s d a b t tb fzi dyn fzo z tr).cols =
    (List.range 32).map fun j => operandRow tb fzi (tileVal s.th b) j := by
  refine List.map_congr_left fun j _ => ?_
  rw [operandRow_eq, hper]
  rfl

theorem denseOp_bytes (ht : t = .i8 → tb = .i8) : (denseOp s d a b t tb fzi dyn fzo z tr).Bytes := by
  rintro (h : t = .i8)
  obtain rfl := h
  obtain rfl := ht rfl
  refine ⟨fun i k x hx => ?_, fun j k => Nat.mod_lt _ (by decide)⟩
  cases hx
  exact Nat.mod_lt _ (by decide)

/-- A dense multiply whose registers can be read. -/
theorem denseMultiply_eq (hper : tb.perRow = t.perRow) (hr : ∀ r ∈ (denseOp s d a b t tb fzi dyn fzo z tr).srcs, Readable s.th (.t r))
    (hd : z = false → Readable s.th (.t d)) : ∃ old, (denseOp s d a b t tb fzi dyn fzo z tr).Accumulates s old ∧
      denseMultiply tr d a b t tb fzi dyn fzo z s = finish s (writeResult s d (multiply t (dynMode s dyn) fzi fzo z tr old
        (denseOp s d a b t tb fzi dyn fzo z tr).rows (denseOp s d a b t tb fzi dyn fzo z tr).cols)) := by
  obtain ⟨old, hold, hacc⟩ := oldTile_ok hd
  have ha : Readable s.th (.t a) := hr a (by simp [denseOp])
  have hb : Readable s.th (.t b) := hr b (by simp [denseOp])
  refine ⟨old, hacc, ?_⟩
  rw [denseOp_rows, denseOp_cols hper, denseMultiply, useT_bind ha, useT_bind hb, hold]
  rfl

end Dense

/-! ### The metadata of a sparse multiply (R167, R168) -/

/-- `tmmas` in one shape with the dense multiplies. -/
def sparseOp (s : State) (d a b m : Rt) (t : Ty) (nm : Nm) (fzi dyn fzo z : Bool) : MulOp :=
  { d, srcs := [a, m] ++ (List.range nm.ratio).map fun k => Fin.ofNat 16 (b.val + k), t, tb := t
    fzi, dyn, fzo, z, tr := false, len := nm.ratio * t.perRow
    a := fun i k => ((List.range t.perRow).find? fun e => keptPlace nm (tileVal s.th m) i e == k).map fun e =>
      (cell (cellBits t) (tileVal s.th a) i e, none)
    b := fun j k => (cell (cellBits t) (tileVal s.th (Fin.ofNat 16 (b.val + k / t.perRow))) j (k % t.perRow),
      cellScale t (tileVal s.th (Fin.ofNat 16 (b.val + k / t.perRow))) j (k % t.perRow)) }

theorem mulOp_tmmas (s : State) (d a b m : Rt) (t : Ty) (nm : Nm) (fzi dyn fzo z : Bool) :
    mulOp s (.tmmas d a b m t nm fzi dyn fzo z) = some (sparseOp s d a b m t nm fzi dyn fzo z) := rfl

/-- The numbers of a pattern: N kept of M elements, with indices of b bits. -/
structure PatternFits (nm : Nm) (t : Ty) : Prop where
  kept : 0 < (pattern nm).1
  group : (pattern nm).2.1 = 2 ^ (pattern nm).2.2
  groups : t.perRow / (pattern nm).1 * (pattern nm).1 = t.perRow
  dense : t.perRow / (pattern nm).1 * (pattern nm).2.1 = nm.ratio * t.perRow
  bits : (pattern nm).2.2 * t.perRow ≤ 1024

theorem patternFits (nm : Nm) (t : Ty) : PatternFits nm t := by
  cases nm <;> cases t <;> constructor <;> decide

section Meta
variable {nm : Nm} {t : Ty} (img : TileImage) (i : ℕ)

/-- An index in a metadata row. -/
theorem metaIndex_eq_keptIndex {e : ℕ} (he : e < t.perRow) : metaIndex (pattern nm).2.2 (tileRow img i) e = keptIndex nm img i e :=
  metaIndex_eq_cell ((Nat.mul_le_mul_left _ he).trans (patternFits nm t).bits) img i

theorem expandRow_def (row : ℕ) (kept : List Operand) : expandRow nm row kept =
    (List.range (kept.length / (pattern nm).1)).flatMap fun q => (List.range (pattern nm).2.1).map fun p =>
      ((List.range (pattern nm).1).find? fun i => metaIndex (pattern nm).2.2 row (q * (pattern nm).1 + i) == p).bind fun i =>
        kept[q * (pattern nm).1 + i]? := by
  cases nm <;> rfl

theorem keptPlace_eq_iff {q p j : ℕ} (hj : j < (pattern nm).1) :
    keptPlace nm img i (q * (pattern nm).1 + j) = q * (pattern nm).2.1 + p ↔ keptIndex nm img i (q * (pattern nm).1 + j) = p := by
  rw [keptPlace, fields_div q hj, Nat.add_right_inj]

/-- A kept element's place is in the group of the element. -/
theorem group_of_keptPlace {e p : ℕ} (h : keptPlace nm img i e = p) : e / (pattern nm).1 = p / (pattern nm).2.1 := by
  have hlt : keptIndex nm img i e < (pattern nm).2.1 := by
    rw [(patternFits nm .i8).group]
    exact Nat.mod_lt _ (Nat.two_pow_pos _)
  rw [← h, keptPlace, fields_div _ hlt]

/-- The first number of a range that passes, where all that do are in one block of it. -/
theorem find?_block {k n q : ℕ} (hk : 0 < k) (hq : q < n) {P : ℕ → Bool} (hP : ∀ e, P e = true → e / k = q) :
    (List.range (n * k)).find? P = ((List.range k).find? fun i => P (q * k + i)).map (q * k + ·) := by
  obtain ⟨m, rfl⟩ := Nat.exists_eq_add_of_lt hq
  have hsplit : (q + m + 1) * k = q * k + (k + m * k) := by ring
  have hbefore : (List.range (q * k)).find? P = none := by
    refine List.find?_eq_none.2 fun e he hpe => ?_
    have hlt := (Nat.div_lt_iff_lt_mul hk).2 (List.mem_range.1 he)
    exact hlt.ne (hP e hpe)
  have hafter : (List.range (m * k)).find? (P ∘ fun e => q * k + (k + e)) = none := by
    refine List.find?_eq_none.2 fun e _ hpe => ?_
    have hge : q + 1 ≤ (q * k + (k + e)) / k := (Nat.le_div_iff_mul_le hk).2 (by rw [Nat.succ_mul]; omega)
    exact (Nat.lt_of_succ_le hge).ne' (hP _ hpe)
  have hcomp : ((P ∘ fun e => q * k + e) ∘ fun e => k + e) = P ∘ fun e => q * k + (k + e) := rfl
  rw [hsplit, List.range_add, List.range_add, List.find?_append, hbefore, Option.none_or, List.find?_map, List.find?_append,
    List.find?_map, hcomp, hafter, Option.map_none, Option.or_none]
  rfl

/-- A row of A over the dense index (R168). -/
theorem expandRow_eq (K : ℕ → Operand) : expandRow nm (tileRow img i) ((List.range t.perRow).map K) =
    (List.range (nm.ratio * t.perRow)).map fun p => ((List.range t.perRow).find? fun e => keptPlace nm img i e == p).map K := by
  have hfits := patternFits nm t
  have hN := hfits.kept
  have hM : 0 < (pattern nm).2.1 := by rw [hfits.group]; exact Nat.two_pow_pos _
  rw [expandRow_def, List.length_map, List.length_range, flatMap_rows, hfits.dense]
  refine List.map_congr_left fun p hp => ?_
  have hq : p / (pattern nm).2.1 < t.perRow / (pattern nm).1 :=
    (Nat.div_lt_iff_lt_mul hM).2 (by rw [hfits.dense]; exact List.mem_range.1 hp)
  have hin : ∀ j < (pattern nm).1, p / (pattern nm).2.1 * (pattern nm).1 + j < t.perRow := fun j hj =>
    (fields_lt hj hq).trans_eq hfits.groups
  have hsame : ∀ j ∈ List.range (pattern nm).1,
      (keptPlace nm img i (p / (pattern nm).2.1 * (pattern nm).1 + j) == p) =
        (metaIndex (pattern nm).2.2 (tileRow img i) (p / (pattern nm).2.1 * (pattern nm).1 + j) == p % (pattern nm).2.1) := by
    intro j hj
    have hj := List.mem_range.1 hj
    have hiff := keptPlace_eq_iff img i (q := p / (pattern nm).2.1) (p := p % (pattern nm).2.1) hj
    rw [Nat.div_add_mod'] at hiff
    rw [metaIndex_eq_keptIndex img i (hin j hj), Bool.eq_iff_iff, beq_iff_eq, beq_iff_eq, hiff]
  rw [← hfits.groups, find?_block hN hq fun e he => group_of_keptPlace img i (beq_iff_eq.1 he), hfits.groups, List.find?_congr hsame,
    Option.map_map]
  cases hfind : (List.range (pattern nm).1).find? fun j =>
      metaIndex (pattern nm).2.2 (tileRow img i) (p / (pattern nm).2.1 * (pattern nm).1 + j) == p % (pattern nm).2.1 with
  | none => rfl
  | some j =>
    have hj := hin j (List.mem_range.1 (List.mem_of_find?_eq_some hfind))
    simp [hj]

/-! ### Indices that do not ascend (R168) -/

/-- A group of a metadata row whose indices do not ascend, as the model tests it. -/
def unordered (nm : Nm) (row q : ℕ) : Bool :=
  (List.range ((pattern nm).1 - 1)).any fun j =>
    decide (metaIndex (pattern nm).2.2 row (q * (pattern nm).1 + j + 1) ≤ metaIndex (pattern nm).2.2 row (q * (pattern nm).1 + j))

theorem badGroup_eq (n row : ℕ) : badGroup nm n row = (List.range (n / (pattern nm).1)).find? (unordered nm row) := by
  cases nm <;> rfl

theorem unordered_iff {q : ℕ} (hq : q < t.perRow / (pattern nm).1) : unordered nm (tileRow img i) q = true ↔ ¬Ascends nm img i q := by
  have hfits := patternFits nm t
  by_cases hN : (pattern nm).1 = 2
  · rw [hN] at hq
    have hone : List.range (2 - 1) = [0] := rfl
    rw [unordered, hN, hone, List.any_cons, List.any_nil, Bool.or_false, decide_eq_true_iff, Ascends, add_zero, mul_comm q,
      metaIndex_eq_keptIndex (t := t) img i (by omega), metaIndex_eq_keptIndex (t := t) img i (by omega), ← not_lt]
    exact not_congr ⟨fun h _ => h, fun h => h hN⟩
  · have hone : (pattern nm).1 = 1 := by cases nm <;> trivial
    rw [unordered, hone]
    exact iff_of_false nofun fun h => h fun hN' => absurd hN' hN

theorem badGroup_none (h : ∀ q, q < t.perRow / (pattern nm).1 → Ascends nm img i q) : badGroup nm t.perRow (tileRow img i) = none := by
  rw [badGroup_eq, List.find?_eq_none]
  intro q hq
  rw [unordered_iff img i (List.mem_range.1 hq), not_not]
  exact h q (List.mem_range.1 hq)

theorem badGroup_some {q : ℕ} (hq : q < t.perRow / (pattern nm).1) (h : ¬Ascends nm img i q)
    (hfirst : ∀ q' < q, Ascends nm img i q') : badGroup nm t.perRow (tileRow img i) = some q := by
  rw [badGroup_eq, List.find?_range_eq_some]
  refine ⟨(unordered_iff img i hq).2 h, List.mem_range.2 hq, fun q' hq' => ?_⟩
  rw [Bool.not_eq_true', ← Bool.not_eq_true, unordered_iff img i (hq'.trans hq), not_not]
  exact hfirst q' hq'

omit i in
theorem badRow_none (h : ∀ r q, r < 32 → q < t.perRow / (pattern nm).1 → Ascends nm img r q) : badRow nm t.perRow img = none := by
  rw [badRow, List.findSome?_eq_none_iff]
  intro r hr
  rw [badGroup_none img r fun q => h r q (List.mem_range.1 hr), Option.map_none]

omit i in
theorem badRow_some {r q : ℕ} (hr : r < 32) (hq : q < t.perRow / (pattern nm).1) (h : ¬Ascends nm img r q)
    (hfirst : ∀ r' q', r' < 32 → q' < t.perRow / (pattern nm).1 → (r' < r ∨ (r' = r ∧ q' < q)) → Ascends nm img r' q') :
    badRow nm t.perRow img = some (r, q) := by
  obtain ⟨n, hn⟩ := Nat.exists_eq_add_of_lt hr
  have hrows : List.range 32 = List.range r ++ r :: (List.range n).map (r + 1 + ·) := by
    rw [hn, Nat.add_right_comm, List.range_add, List.range_succ, List.append_assoc]
    rfl
  have hbefore : ∀ r' ∈ List.range r, ((badGroup nm t.perRow (tileRow img r')).map fun q => (r', q)) = none := fun r' hr' => by
    have hr' := List.mem_range.1 hr'
    rw [badGroup_none img r' fun q' hq' => hfirst r' q' (hr'.trans hr) hq' (.inl hr'), Option.map_none]
  refine List.findSome?_eq_some_iff.2 ⟨_, _, _, hrows, ?_, hbefore⟩
  rw [badGroup_some img r hq h fun q' hq' => hfirst r q' hr (hq'.trans hq) (.inr ⟨rfl, hq'⟩), Option.map_some]

end Meta

end Sys2Proof.Claims
end

section
/-! SUPPORT. The sparse multiply (06 R167, R168), and O33. -/

namespace Sys2Proof.Claims
open Sys2Proof.Safety Sys2Proof.Machine

section Sparse
variable {s : State} {d a b m : Rt} {t : Ty} {nm : Nm} {fzi dyn fzo z : Bool}

/-- Neither a type with scales nor an unscaled A leaves a scale in a row of A (R168). -/
theorem cellScale_none {img : TileImage} (h : t = .e4m3 ∨ t = .e5m2 ∨ t = .l6 → img.tag = 0) (i c : ℕ) : cellScale t img i c = none :=
  if_neg fun hs => hs.2 (h hs.1)

theorem sparseOp_rows (h : t = .e4m3 ∨ t = .e5m2 ∨ t = .l6 → (tileVal s.th a).tag = 0) :
    (sparseOp s d a b m t nm fzi dyn fzo z).rows =
      (List.range 32).map fun i => expandRow nm (tileRow (tileVal s.th m) i) (operandRow t fzi (tileVal s.th a) i) := by
  refine List.map_congr_left fun i _ => ?_
  rw [operandRow_eq, expandRow_eq]
  refine List.map_congr_left fun p _ => (Option.map_map ..).trans (congrArg (Option.map · _) (funext fun e => ?_))
  rw [cellScale_none h]
  rfl

theorem sparseOp_cols : (sparseOp s d a b m t nm fzi dyn fzo z).cols = (List.range 32).map fun j =>
    ((List.range nm.ratio).map fun k => tileVal s.th (Fin.ofNat 16 (b.val + k))).flatMap fun y => operandRow t fzi y j := by
  refine List.map_congr_left fun j _ => ?_
  rw [List.flatMap_map]
  simp only [operandRow_eq]
  exact (flatMap_rows (fun q c => operand t fzi (cell (cellBits t) (tileVal s.th (Fin.ofNat 16 (b.val + q))) j c,
    cellScale t (tileVal s.th (Fin.ofNat 16 (b.val + q))) j c)) _ _).symm

theorem sparseOp_bytes : (sparseOp s d a b m t nm fzi dyn fzo z).Bytes := by
  rintro (rfl : t = .i8)
  refine ⟨fun i k x hx => ?_, fun j k => Nat.mod_lt _ (by decide)⟩
  obtain ⟨e, -, rfl⟩ := Option.map_eq_some_iff.1 hx
  exact Nat.mod_lt _ (by decide)

section Reads
variable (hr : ∀ r ∈ (sparseOp s d a b m t nm fzi dyn fzo z).srcs, Readable s.th (.t r)) (hd : z = false → Readable s.th (.t d))
include hr hd

/-- The tiles that `tmmas` reads (R167), before its checks. -/
theorem sparse_reads : ∃ old, (sparseOp s d a b m t nm fzi dyn fzo z).Accumulates s old ∧ oldTile s d z = .ok old
    ∧ Readable s.th (.t a) ∧ Readable s.th (.t m)
    ∧ ((List.range nm.ratio).mapM fun k => useT s (Fin.ofNat 16 (b.val + k))) =
      .ok ((List.range nm.ratio).map fun k => tileVal s.th (Fin.ofNat 16 (b.val + k))) := by
  obtain ⟨old, hold, hacc⟩ := oldTile_ok hd
  refine ⟨old, hacc, hold, hr a (by simp [sparseOp]), hr m (by simp [sparseOp]), mapM_map fun k hk => ?_⟩
  have hmem : Fin.ofNat 16 (b.val + k) ∈ (sparseOp s d a b m t nm fzi dyn fzo z).srcs :=
    List.mem_append_right _ (List.mem_map_of_mem hk)
  rw [useT_ok (hr _ hmem), tileVal_eq_image]

/-- Metadata that do not ascend end `tmmas` (R168). -/
theorem execTmmas_unordered {r q : ℕ} (hbad : badRow nm t.perRow (tileVal s.th m) = some (r, q)) :
    execTmmas d a b m t nm fzi dyn fzo z s = finish s (trapOf 0x02 0 (BitVec.ofNat 64 (r * 256 + q))) := by
  obtain ⟨old, -, hold, ha, hm, hys⟩ := sparse_reads hr hd
  rw [execTmmas, useT_bind ha, useT_bind hm, hys, ok_bind, hold, ok_bind, hbad]

/-- With ascending metadata, `tmmas` goes on to the check of A's scales and to its result. -/
theorem execTmmas_ordered (hbad : badRow nm t.perRow (tileVal s.th m) = none) :
    ∃ old, (sparseOp s d a b m t nm fzi dyn fzo z).Accumulates s old ∧
      execTmmas d a b m t nm fzi dyn fzo z s = finish s (require (!(scaledType t && (tileVal s.th a).tag != 0)) 0x02 >>= fun _ =>
        writeResult s d (multiply t (dynMode s dyn) fzi fzo z false old
          ((List.range 32).map fun i => expandRow nm (tileRow (tileVal s.th m) i) (operandRow t fzi (tileVal s.th a) i))
          (sparseOp s d a b m t nm fzi dyn fzo z).cols)) := by
  obtain ⟨old, hacc, hold, ha, hm, hys⟩ := sparse_reads hr hd
  refine ⟨old, hacc, ?_⟩
  rw [execTmmas, useT_bind ha, useT_bind hm, hys, ok_bind, hold, ok_bind, hbad, sparseOp_cols]

/-- `tmmas` with ascending metadata and an unscaled A. -/
theorem execTmmas_eq (hbad : badRow nm t.perRow (tileVal s.th m) = none)
    (htag : t = .e4m3 ∨ t = .e5m2 ∨ t = .l6 → (tileVal s.th a).tag = 0) :
    ∃ old, (sparseOp s d a b m t nm fzi dyn fzo z).Accumulates s old ∧
      execTmmas d a b m t nm fzi dyn fzo z s = finish s (writeResult s d (multiply t (dynMode s dyn) fzi fzo z false old
        (sparseOp s d a b m t nm fzi dyn fzo z).rows (sparseOp s d a b m t nm fzi dyn fzo z).cols)) := by
  obtain ⟨old, hacc, hexec⟩ := execTmmas_ordered hr hd hbad
  have hcheck : (!(scaledType t && (tileVal s.th a).tag != 0)) = true := by
    rw [Bool.not_eq_true', Bool.and_eq_false_imp, scaledType_iff]
    intro ht
    rw [htag ht]
    rfl
  rw [require, if_pos hcheck, ← sparseOp_rows htag] at hexec
  exact ⟨old, hacc, hexec⟩

/-- A scaled A ends `tmmas` (R168). -/
theorem execTmmas_scaled (hbad : badRow nm t.perRow (tileVal s.th m) = none) (ht : t = .e4m3 ∨ t = .e5m2 ∨ t = .l6)
    (htag : (tileVal s.th a).tag ≠ 0) : execTmmas d a b m t nm fzi dyn fzo z s = finish s (trapOf 0x02) := by
  obtain ⟨old, -, hexec⟩ := execTmmas_ordered hr hd hbad
  have hcheck : (!(scaledType t && (tileVal s.th a).tag != 0)) = false := by
    rw [Bool.not_eq_false', (scaledType_iff t).2 ht]
    exact bne_iff_ne.2 htag
  rw [hexec, require, hcheck]
  rfl

end Reads

end Sparse

/-- The types of `tmmax` have as many elements in a row (R165). -/
theorem perRow_of_tmmax {d a b : Rt} {t tb : Ty} {fzi dyn fzo z : Bool} (h : (Instr.tmmax d a b t tb fzi dyn fzo z).wf = true) :
    tb.perRow = t.perRow ∧ (t = .i8 → tb = .i8) := by
  simp only [Instr.wf, Bool.and_eq_true, Bool.or_eq_true, beq_iff_eq] at h
  obtain ⟨⟨⟨rfl | rfl, rfl | rfl⟩ | ⟨rfl | rfl, rfl | rfl⟩, -⟩, -⟩ := h
  all_goals exact ⟨rfl, nofun⟩

end Sys2Proof.Claims

namespace Sys2Proof.Proofs
open Sys2Proof.Machine Sys2Proof.Safety Sys2Proof.Claims

/-- Settles O33: each multiply hands its operands, in the claims' terms, to one sum per element; `tmmas` first checks its
metadata and the tag of A. -/
theorem tileMultiply : Obligations.TileMultiply := by
  refine ⟨?result, ?unordered, ?scaled⟩
  case result =>
    intro i s o hwf ho hr hz hsparse
    cases i with
    | tmma d a b t fzi dyn fzo z =>
      cases ho
      obtain ⟨old, hacc, hexec⟩ := denseMultiply_eq rfl hr hz
      exact MulOp.ends hacc (denseOp_bytes id) hexec
    | tmmat d a b t fzi dyn fzo z =>
      cases ho
      obtain ⟨old, hacc, hexec⟩ := denseMultiply_eq rfl hr hz
      exact MulOp.ends hacc (denseOp_bytes id) hexec
    | tmmax d a b t tb fzi dyn fzo z =>
      cases ho
      obtain ⟨hper, hi8⟩ := perRow_of_tmmax hwf
      obtain ⟨old, hacc, hexec⟩ := denseMultiply_eq hper hr hz
      exact MulOp.ends hacc (denseOp_bytes hi8) hexec
    | tmmas d a b m t nm fzi dyn fzo z =>
      obtain rfl := Option.some.inj ((mulOp_tmmas ..).symm.trans ho)
      obtain ⟨hasc, htag⟩ := hsparse _ _ _ _ _ _ _ _ _ _ rfl
      obtain ⟨old, hacc, hexec⟩ := execTmmas_eq hr hz (badRow_none _ hasc) htag
      exact MulOp.ends hacc sparseOp_bytes hexec
    | _ => cases ho
  case unordered =>
    intro s o d a b m t nm fzi dyn fzo z r q _ ho hr hz hc hr32 hq hbad hfirst
    obtain rfl := Option.some.inj ((mulOp_tmmas ..).symm.trans ho)
    refine (execTmmas_unordered hr hz (badRow_some _ hr32 hq hbad hfirst)).trans ?_
    rw [trapOf, finish_trap, takeFault_user hc, mul_comm]
    rfl
  case scaled =>
    intro s o d a b m t nm fzi dyn fzo z _ ho hr hz hc hasc ht htag
    obtain rfl := Option.some.inj ((mulOp_tmmas ..).symm.trans ho)
    refine (execTmmas_scaled hr hz (badRow_none _ hasc) ht htag).trans ?_
    rw [trapOf, finish_trap, takeFault_user hc]

end Sys2Proof.Proofs
end

section
/-! SUPPORT. The fields of each instruction's word (03 R78 to R80, and the encoding tables of 04 to 08): the encoder packs
them, and the decoder reads an instruction back from a number that has them. -/

namespace Sys2Proof

/-! ### Words as lists of fields -/

/-- Bits that a list of fields takes: each field is its value and its width, the highest first. -/
def fieldsWidth : List (Nat × Nat) → Nat
  | [] => 0
  | (_, k) :: l => k + fieldsWidth l

/-- The number that has these fields in its low bits. -/
def pack : List (Nat × Nat) → Nat
  | [] => 0
  | (v, _) :: l => v * 2 ^ fieldsWidth l + pack l

/-- Every value fits its field. -/
def Fits : List (Nat × Nat) → Prop
  | [] => True
  | (v, k) :: l => v < 2 ^ k ∧ Fits l

/-- A number has these fields in its low bits. -/
def HasFields (n : Nat) : List (Nat × Nat) → Prop
  | [] => True
  | (v, k) :: l => field n (fieldsWidth l) k = v ∧ HasFields n l

@[simp] theorem fieldsWidth_nil : fieldsWidth [] = 0 := rfl
@[simp] theorem fieldsWidth_cons (v k : Nat) (l : List (Nat × Nat)) : fieldsWidth ((v, k) :: l) = k + fieldsWidth l := rfl
@[simp] theorem fits_nil : Fits [] := trivial
@[simp] theorem fits_cons (v k : Nat) (l : List (Nat × Nat)) : Fits ((v, k) :: l) ↔ v < 2 ^ k ∧ Fits l := Iff.rfl
@[simp] theorem hasFields_nil (n : Nat) : HasFields n [] := trivial
@[simp] theorem hasFields_cons (n v k : Nat) (l : List (Nat × Nat)) :
    HasFields n ((v, k) :: l) ↔ field n (fieldsWidth l) k = v ∧ HasFields n l := Iff.rfl

theorem field_lt (n lo len : Nat) : field n lo len < 2 ^ len := Nat.mod_lt _ (Nat.two_pow_pos _)

/-- A field is a higher part and a lower part. -/
theorem field_add (n lo a b : Nat) : field n lo (a + b) = field n (lo + a) b * 2 ^ a + field n lo a := by
  unfold field
  rw [Nat.pow_add 2 a b, Nat.mod_mul, Nat.div_div_eq_div_mul, ← Nat.pow_add]
  ring

theorem pack_lt : ∀ {l : List (Nat × Nat)}, Fits l → pack l < 2 ^ fieldsWidth l
  | [], _ => Nat.one_pos
  | (v, k) :: l, ⟨hv, hl⟩ => by
    have hp := pack_lt hl
    calc v * 2 ^ fieldsWidth l + pack l < (v + 1) * 2 ^ fieldsWidth l := by rw [Nat.add_mul, Nat.one_mul]; exact Nat.add_lt_add_left hp _
      _ ≤ 2 ^ k * 2 ^ fieldsWidth l := Nat.mul_le_mul_right _ hv
      _ = 2 ^ fieldsWidth ((v, k) :: l) := (Nat.pow_add 2 k (fieldsWidth l)).symm

/-- What lies above some fields does not change them. -/
theorem hasFields_add : ∀ {l : List (Nat × Nat)} (x : Nat), Fits l → HasFields (x * 2 ^ fieldsWidth l + pack l) l
  | [], _, _ => trivial
  | (v, k) :: l, x, ⟨hv, hl⟩ => by
    have he : x * 2 ^ fieldsWidth ((v, k) :: l) + pack ((v, k) :: l) = (x * 2 ^ k + v) * 2 ^ fieldsWidth l + pack l := by
      rw [fieldsWidth_cons, Nat.pow_add]
      show _ + (v * 2 ^ fieldsWidth l + pack l) = _
      ring
    rw [he]
    refine ⟨?_, hasFields_add _ hl⟩
    unfold field
    rw [Nat.add_comm, Nat.add_mul_div_right _ _ (Nat.two_pow_pos _), Nat.div_eq_of_lt (pack_lt hl), Nat.zero_add,
      Nat.mul_add_mod', Nat.mod_eq_of_lt hv]

/-- A number that fits is packed from fields exactly when it has them. -/
theorem hasFields_pack {l : List (Nat × Nat)} (h : Fits l) : HasFields (pack l) l := by
  simpa using hasFields_add 0 h

theorem pack_of_hasFields {n : Nat} : ∀ {l : List (Nat × Nat)}, HasFields n l → pack l = field n 0 (fieldsWidth l)
  | [], _ => (Nat.mod_one _).symm
  | (v, k) :: l, ⟨hv, hl⟩ => by
    rw [fieldsWidth_cons, Nat.add_comm, field_add, Nat.zero_add, ← pack_of_hasFields hl, hv]
    rfl

/-! ### The fields of each instruction's word (R78 to R80, and the encoding tables of 04 to 08) -/

def rowR (op d a b k : Nat) : List (Nat × Nat) := [(op, 6), (d, 5), (a, 5), (b, 5), (k, 11)]
def rowI (op d a i : Nat) : List (Nat × Nat) := [(op, 6), (d, 5), (a, 5), (i, 16)]
def rowInt (d a b w k : Nat) : List (Nat × Nat) := [(1, 6), (d, 5), (a, 5), (b, 5), (w, 1), (0, 5), (k, 5)]
def rowM (op d r x i k : Nat) : List (Nat × Nat) := [(op, 6), (d, 5), (r, 4), (x, 5), (i, 7), (k, 5)]
/-- `lda` and `sta`, whose data register is an `a` register. -/
def rowMA (op d r x i : Nat) : List (Nat × Nat) := [(op, 6), (0, 1), (d, 4), (r, 4), (x, 5), (i, 7), (7, 5)]
def rowA (d r x k s q w : Nat) : List (Nat × Nat) :=
  [(0x18, 6), (d, 5), (r, 4), (x, 5), (k, 4), (s, 3), (q, 2), (w, 1), (0, 2)]
def rowFence (x k s q : Nat) : List (Nat × Nat) := [(0x19, 6), (0, 9), (x, 5), (k, 4), (s, 3), (q, 2), (0, 3)]
def rowHurdle (d a h s k : Nat) : List (Nat × Nat) := [(0x1B, 6), (d, 5), (a, 5), (0, 5), (0, 3), (h, 2), (s, 3), (k, 3)]
def rowPhase (d a b k : Nat) : List (Nat × Nat) := [(0x1B, 6), (d, 5), (a, 5), (b, 5), (0, 3), (0, 5), (k, 3)]
def rowV (op d a b p : Nat) (t : Ty) (i o : Bool) (k : Nat) : List (Nat × Nat) :=
  [(op, 6), (d, 5), (a, 5), (b, 5), (p, 2), (t.code, 4), (b1 i, 1), (b1 o, 1), (k, 3)]
/-- Format F-V without flush bits. -/
def rowLane (op d a b p : Nat) (t : Ty) (k : Nat) : List (Nat × Nat) :=
  [(op, 6), (d, 5), (a, 5), (b, 5), (p, 2), (t.code, 4), (0, 2), (k, 3)]
def rowCompare (d a b p : Nat) (t : Ty) (i : Bool) (k : Nat) : List (Nat × Nat) :=
  [(0x22, 6), (0, 2), (d, 3), (a, 5), (b, 5), (p, 2), (t.code, 4), (b1 i, 1), (0, 1), (k, 3)]
def rowReduce (d a b p : Nat) (t : Ty) (i : Bool) (k : Nat) : List (Nat × Nat) :=
  [(0x26, 6), (d, 5), (a, 5), (b, 5), (p, 2), (t.code, 4), (b1 i, 1), (0, 1), (k, 3)]
def rowConvert (d a : Nat) (u t : Ty) (p : Nat) (z : Bool) (s : Nat) (r : Rm) (f : Bool) : List (Nat × Nat) :=
  [(0x27, 6), (d, 5), (a, 5), (u.code, 4), (t.code, 4), (p, 2), (b1 z, 1), (s, 1), (r.code, 3), (b1 f, 1)]
def rowVMem (d r x i p k : Nat) : List (Nat × Nat) := [(0x29, 6), (d, 5), (r, 4), (x, 5), (i, 7), (p, 2), (k, 3)]
def rowPred (d a p t k : Nat) : List (Nat × Nat) :=
  [(0x2B, 6), (0, 2), (d, 3), (0, 2), (a, 3), (0, 5), (p, 2), (t, 4), (0, 2), (k, 3)]
/-- Format F-T, by the fields of its low ten bits. -/
def rowT (op d a b t : Nat) (l : List (Nat × Nat)) : List (Nat × Nat) := (op, 6) :: (d, 4) :: (a, 4) :: (b, 4) :: (t, 4) :: l
def rowSave (h a k : Nat) (m : BitVec 8) : List (Nat × Nat) :=
  [(0x36, 6), (h, 1), (0, 3), (a, 4), (0, 4), (k, 4), (0, 2), (m.toNat, 8)]
def rowCsr (d a k : Nat) (c : Csr) : List (Nat × Nat) := [(0x39, 6), (d, 5), (a, 5), (k, 4), (c.num, 12)]
def rowHint (h r x : Nat) (l : BitVec 5) (rest : List (Nat × Nat)) : List (Nat × Nat) :=
  (0x3F, 6) :: (h, 6) :: (r, 4) :: (x, 5) :: (l.toNat, 5) :: rest

/-- The fields of an instruction's word, from bit 31 down; a step of another agent has none. -/
def Instr.fields : Instr → List (Nat × Nat)
  | .add d a b w => rowInt d a b (b1 w) 0 | .sub d a b w => rowInt d a b (b1 w) 1 | .and d a b => rowInt d a b 0 2
  | .or d a b => rowInt d a b 0 3 | .xor d a b => rowInt d a b 0 4 | .andn d a b => rowInt d a b 0 5
  | .orn d a b => rowInt d a b 0 6 | .sll d a b w => rowInt d a b (b1 w) 7 | .srl d a b w => rowInt d a b (b1 w) 8
  | .sra d a b w => rowInt d a b (b1 w) 9 | .ror d a b w => rowInt d a b (b1 w) 10 | .slt d a b => rowInt d a b 0 11
  | .sltn d a b => rowInt d a b 0 12 | .min d a b => rowInt d a b 0 13 | .max d a b => rowInt d a b 0 14
  | .minn d a b => rowInt d a b 0 15 | .maxn d a b => rowInt d a b 0 16 | .mul d a b w => rowInt d a b (b1 w) 17
  | .mulh d a b => rowInt d a b 0 18 | .mulhn d a b => rowInt d a b 0 19 | .div d a b w => rowInt d a b (b1 w) 20
  | .divn d a b w => rowInt d a b (b1 w) 21 | .rem d a b w => rowInt d a b (b1 w) 22 | .remn d a b w => rowInt d a b (b1 w) 23
  | .clz d a w => rowInt d a 0 (b1 w) 24 | .ctz d a w => rowInt d a 0 (b1 w) 25 | .popc d a w => rowInt d a 0 (b1 w) 26
  | .sext d a s => rowInt d a s.code 0 27 | .zext d a s => rowInt d a s.code 0 28
  | .sel d a b c => [(1, 6), (d, 5), (a, 5), (b, 5), (0, 1), (c, 5), (29, 5)] | .addi d a i => rowI 2 d a i.toNat
  | .andi d a i => rowI 3 d a i.toNat | .ori d a i => rowI 4 d a i.toNat | .xori d a i => rowI 5 d a i.toNat
  | .slti d a i => rowI 6 d a i.toNat | .sltni d a i => rowI 7 d a i.toNat
  | .slli d a w sh => [(8, 6), (d, 5), (a, 5), (0, 4), (b1 w, 1), (0, 5), (sh, 6)]
  | .srli d a w sh => [(8, 6), (d, 5), (a, 5), (1, 4), (b1 w, 1), (0, 5), (sh, 6)]
  | .srai d a w sh => [(8, 6), (d, 5), (a, 5), (2, 4), (b1 w, 1), (0, 5), (sh, 6)]
  | .rori d a w sh => [(8, 6), (d, 5), (a, 5), (3, 4), (b1 w, 1), (0, 5), (sh, 6)]
  | .luis d a h v => [(9, 6), (d, 5), (a, 5), (h, 4), (v.toNat, 12)]
  | .bext d a pos len => [(0x0B, 6), (d, 5), (a, 5), (0, 3), (0, 1), (pos, 6), (len, 6)]
  | .bins d a pos len => [(0x0B, 6), (d, 5), (a, 5), (1, 3), (0, 1), (pos, 6), (len, 6)]
  | .kld d k => [(0x0A, 6), (d, 5), (0, 5), (0, 5), (k, 8), (0, 3)]
  | .kldIndexed d a k => [(0x0A, 6), (d, 5), (a, 5), (0, 5), (k, 8), (1, 3)]
  | .kldRef d k => [(0x0A, 6), (0, 1), (d, 4), (0, 5), (0, 5), (k, 7), (0, 1), (2, 3)]
  | .kldRefIndexed d a k => [(0x0A, 6), (0, 1), (d, 4), (a, 5), (0, 5), (k, 7), (0, 1), (3, 3)]
  | .beq a b i => rowI 0x0c a b i.toNat | .bne a b i => rowI 0x0d a b i.toNat | .blt a b i => rowI 0x0e a b i.toNat
  | .bge a b i => rowI 0x0f a b i.toNat | .bltn a b i => rowI 0x10 a b i.toNat | .bgen a b i => rowI 0x11 a b i.toNat
  | .pbrAny a g i => [(0x12, 6), (0, 2), (a, 3), (g, 3), (0, 2), (i.toNat, 16)]
  | .pbrAll a g i => [(0x12, 6), (0, 2), (a, 3), (g, 3), (1, 2), (i.toNat, 16)]
  | .pbrNone a g i => [(0x12, 6), (0, 2), (a, 3), (g, 3), (2, 2), (i.toNat, 16)]
  | .jal d i => [(0x13, 6), (d, 5), (i.toNat, 21)] | .jalr d a i => rowI 0x14 d a i.toNat
  | .amov d a => [(0x15, 6), (0, 1), (d, 4), (0, 1), (a, 4), (0, 5), (0, 1), (0, 5), (0, 5)]
  | .aoff d a b s => [(0x15, 6), (0, 1), (d, 4), (0, 1), (a, 4), (b, 5), (0, 1), (0, 2), (s, 3), (1, 5)]
  | .asetf d a b => [(0x15, 6), (0, 1), (d, 4), (0, 1), (a, 4), (b, 5), (0, 1), (0, 5), (2, 5)]
  | .asetb d a b => [(0x15, 6), (0, 1), (d, 4), (0, 1), (a, 4), (b, 5), (0, 1), (0, 5), (3, 5)]
  | .ageto d a => [(0x15, 6), (d, 5), (0, 1), (a, 4), (0, 5), (0, 1), (0, 5), (4, 5)]
  | .agetn d a => [(0x15, 6), (d, 5), (0, 1), (a, 4), (0, 5), (0, 1), (0, 5), (5, 5)]
  | .amake d a b => [(0x15, 6), (0, 1), (d, 4), (a, 5), (b, 5), (0, 1), (0, 5), (6, 5)]
  | .acoord d a b c => [(0x15, 6), (0, 1), (d, 4), (0, 1), (a, 4), (b, 5), (0, 1), (c, 5), (7, 5)]
  | .achk d a b => [(0x15, 6), (d, 5), (0, 1), (a, 4), (b, 5), (0, 1), (0, 5), (8, 5)]
  | .aspace d a sp => [(0x15, 6), (0, 1), (d, 4), (a, 5), (0, 5), (0, 1), (0, 1), (sp, 4), (9, 5)]
  | .ld d r x i s => rowM 0x16 d r x i.toNat s.code | .ldn d r x i s => rowM 0x16 d r x i.toNat (4 + s.code)
  | .lda d r x i => rowMA 0x16 d r x i.toNat | .st d r x i s => rowM 0x17 d r x i.toNat s.code
  | .sta d r x i => rowMA 0x17 d r x i.toNat | .amoswap d r x s q w => rowA d r x 0 s.code q.code (b1 w)
  | .amoadd d r x s q w => rowA d r x 1 s.code q.code (b1 w) | .amoand d r x s q w => rowA d r x 2 s.code q.code (b1 w)
  | .amoor d r x s q w => rowA d r x 3 s.code q.code (b1 w) | .amoxor d r x s q w => rowA d r x 4 s.code q.code (b1 w)
  | .amomin d r x s q w => rowA d r x 5 s.code q.code (b1 w) | .amomax d r x s q w => rowA d r x 6 s.code q.code (b1 w)
  | .amominn d r x s q w => rowA d r x 7 s.code q.code (b1 w) | .amomaxn d r x s q w => rowA d r x 8 s.code q.code (b1 w)
  | .amocas d r x s q w => rowA d r x 9 s.code q.code (b1 w) | .amofadd d r x s q w => rowA d r x 10 s.code q.code (b1 w)
  | .fence s q => rowFence 0 0 s.code q.code | .pacq x s => rowFence x 1 s.code 1 | .hdrain s => rowFence 0 2 s.code 0
  | .msend a b => rowR 0x1A 0 a b 0 | .msendv v a b => rowR 0x1A v a b 1 | .msenda a b => rowR 0x1A 0 a b 2
  | .mrecv d v => rowR 0x1A d 0 v 3 | .mwait d a => rowR 0x1A d a 0 4 | .mpeek d => rowR 0x1A d 0 0 5
  | .mcount d => rowR 0x1A d 0 0 6 | .hurdle h s => rowHurdle 0 0 h s.code 0 | .harrive d h s => rowHurdle d 0 h s.code 1
  | .hwait a h s => rowHurdle 0 a h s.code 2 | .htest d a h s => rowHurdle d a h s.code 3 | .xphase d => rowPhase d 0 0 4
  | .xphaseWait d a => rowPhase d a 0 4 | .xsend d a b => rowPhase d a b 5
  | .cpsetSrc a => [(0x1C, 6), (0, 5), (0, 1), (a, 4), (0, 5), (0, 11)]
  | .cpsetDst a => [(0x1C, 6), (0, 5), (0, 1), (a, 4), (0, 5), (1, 11)] | .cpgo d b => rowR 0x1C d 0 b 2
  | .cpwp d a => rowR 0x1C d a 0 3 | .cpstat d a => rowR 0x1C d a 0 4 | .cpcancel a => rowR 0x1C 0 a 0 5
  | .spawn a => rowR 0x1D 0 a 0 0 | .tqget d => rowR 0x1D d 0 0 1 | .gatedec a b => rowR 0x1D 0 a b 2
  | .tqdone => rowR 0x1D 0 0 0 3
  | .repf c l k sd sa sb => [(0x1E, 6), (0, 10), (c, 4), (l, 3), (k, 2), (b1 sd, 1), (b1 sa, 1), (b1 sb, 1), (0, 4)]
  | .vadd d a b p t i o => rowV 0x20 d a b p t i o 0 | .vsub d a b p t i o => rowV 0x20 d a b p t i o 1
  | .vmul d a b p t i o => rowV 0x20 d a b p t i o 2 | .vmin d a b p t i o => rowV 0x20 d a b p t i o 3
  | .vmax d a b p t i o => rowV 0x20 d a b p t i o 4 | .vabd d a b p t i o => rowV 0x20 d a b p t i o 5
  | .vaddmin d a b p t i o => rowV 0x20 d a b p t i o 6 | .vcopysign d a b p t i o => rowV 0x20 d a b p t i o 7
  | .vfma d a b p t i o => rowV 0x21 d a b p t i o 0 | .vfms d a b p t i o => rowV 0x21 d a b p t i o 1
  | .vfnma d a b p t i o => rowV 0x21 d a b p t i o 2 | .vfnms d a b p t i o => rowV 0x21 d a b p t i o 3
  | .vdiv d a b p t i o => rowV 0x21 d a b p t i o 4 | .vsqrt d a p t i o => rowV 0x21 d a 0 p t i o 5
  | .vrcpe d a p t i o => rowV 0x21 d a 0 p t i o 6 | .vrsqe d a p t i o => rowV 0x21 d a 0 p t i o 7
  | .vceq d a b p t i => rowCompare d a b p t i 0 | .vcne d a b p t i => rowCompare d a b p t i 1
  | .vclt d a b p t i => rowCompare d a b p t i 2 | .vcle d a b p t i => rowCompare d a b p t i 3
  | .vcgt d a b p t i => rowCompare d a b p t i 4 | .vcge d a b p t i => rowCompare d a b p t i 5
  | .vcun d a b p t i => rowCompare d a b p t i 6 | .vclass d a m p t i => rowCompare d a m.toNat p t i 7
  | .viadd d a b p t => rowLane 0x23 d a b p t 0 | .visub d a b p t => rowLane 0x23 d a b p t 1
  | .vimul d a b p t => rowLane 0x23 d a b p t 2 | .vimulh d a b p t => rowLane 0x23 d a b p t 3
  | .vimin d a b p t => rowLane 0x23 d a b p t 4 | .vimax d a b p t => rowLane 0x23 d a b p t 5
  | .viaddmin d a b p t => rowLane 0x23 d a b p t 6 | .viabs d a p t => rowLane 0x23 d a 0 p t 7
  | .vand d a b p t => rowLane 0x24 d a b p t 0 | .vor d a b p t => rowLane 0x24 d a b p t 1
  | .vxor d a b p t => rowLane 0x24 d a b p t 2 | .vandn d a b p t => rowLane 0x24 d a b p t 3
  | .vsll d a b p t => rowLane 0x24 d a b p t 4 | .vsrl d a b p t => rowLane 0x24 d a b p t 5
  | .vsra d a b p t => rowLane 0x24 d a b p t 6 | .vsel d a b p t => rowLane 0x24 d a b p t 7
  | .vshup d a b p t => rowLane 0x25 d a b p t 0 | .vshdn d a b p t => rowLane 0x25 d a b p t 1
  | .vbcl d a b p t => rowLane 0x25 d a b p t 2 | .vperm d a b p t => rowLane 0x25 d a b p t 3
  | .vzip d a b p t h => [(0x25, 6), (d, 5), (a, 5), (b, 5), (p, 2), (t.code, 4), (0, 1), (b1 h, 1), (4, 3)]
  | .vuzp d a b p t h => [(0x25, 6), (d, 5), (a, 5), (b, 5), (p, 2), (t.code, 4), (0, 1), (b1 h, 1), (5, 3)]
  | .vrev d a p t => rowLane 0x25 d a 0 p t 6 | .vcompr d a p t => rowLane 0x25 d a 0 p t 7
  | .vrsum d a p t i => rowReduce d a 0 p t i 0 | .vrsumo d a b p t i => rowReduce d a b p t i 1
  | .vrmax d a p t i => rowReduce d a 0 p t i 2 | .vrmin d a p t i => rowReduce d a 0 p t i 3
  | .vrand d a p t => rowLane 0x26 d a 0 p t 4 | .vror d a p t => rowLane 0x26 d a 0 p t 5
  | .vrcnt d a p t i => rowReduce d a 0 p t i 6 | .vcvt d a tin tout p z s r f => rowConvert d a tin tout p z (b1 s) r f
  | .vrnd d a t p z r f => rowConvert d a t t p z 0 r f | .vqnt d a b p t i o => rowV 0x28 d a b p t i o 0
  | .vdqnt d a b p t i o => rowV 0x28 d a b p t i o 1 | .vscale d a b p t i o => rowV 0x28 d a b p t i o 2
  | .vld d r x i p => rowVMem d r x i.toNat p 0 | .vst d r x i p => rowVMem d r x i.toNat p 1
  | .vlds d r x i p => rowVMem d r x i.toNat p 2 | .vsts d r x i p => rowVMem d r x i.toNat p 3
  | .vldg d r x i p => rowVMem d r x i.toNat p 4 | .vstg d r x i p => rowVMem d r x i.toNat p 5
  | .vldb d r x i p => rowVMem d r x i.toNat p 6 | .vldff d r x i p => rowVMem d r x i.toNat p 7
  | .vmovx d a b t => rowLane 0x2A d a b 0 t 0 | .vxmov d a b t => rowLane 0x2A d a b 0 t 1
  | .vsplat d a p t => rowLane 0x2A d a 0 p t 2
  | .vsplatk d k p t => [(0x2A, 6), (d, 5), (k, 8), (0, 2), (p, 2), (t.code, 4), (0, 2), (3, 3)]
  | .vidx d a b p t => rowLane 0x2A d a b p t 4
  | .vwhile d a b t => [(0x2A, 6), (0, 2), (d, 3), (a, 5), (b, 5), (0, 2), (t.code, 4), (0, 2), (5, 3)]
  | .vgetl d a t => rowLane 0x2A d a 0 0 t 6
  | .pand d a b => [(0x2B, 6), (0, 2), (d, 3), (0, 2), (a, 3), (0, 2), (b, 3), (0, 2), (0, 4), (0, 2), (0, 3)]
  | .por d a b => [(0x2B, 6), (0, 2), (d, 3), (0, 2), (a, 3), (0, 2), (b, 3), (0, 2), (0, 4), (0, 2), (1, 3)]
  | .pxor d a b => [(0x2B, 6), (0, 2), (d, 3), (0, 2), (a, 3), (0, 2), (b, 3), (0, 2), (0, 4), (0, 2), (2, 3)]
  | .pnot d a => rowPred d a 0 0 3
  | .pcnt d a p t => [(0x2B, 6), (d, 5), (0, 2), (a, 3), (0, 5), (p, 2), (t.code, 4), (0, 2), (4, 3)]
  | .pfirst d a p t => rowPred d a p t.code 5
  | .pset d a t => [(0x2B, 6), (0, 2), (d, 3), (a, 5), (0, 5), (0, 2), (t.code, 4), (0, 2), (6, 3)]
  | .pmov d a => rowPred d a 0 0 7 | .tld d a u r c => [(0x30, 6), (d, 4), (a, 4), (0, 3), (b1 u, 1), (0, 4), (r, 5), (c, 5)]
  | .tst d a u r c => [(0x30, 6), (d, 4), (a, 4), (0, 3), (b1 u, 1), (1, 4), (r, 5), (c, 5)]
  | .tzero d => rowT 0x30 d 0 0 2 [(0, 10)] | .tmov d a => rowT 0x30 d a 0 3 [(0, 10)]
  | .tfill d k x => [(0x30, 6), (d, 4), (0, 4), (0, 2), (k.code, 2), (4, 4), (x, 5), (0, 5)]
  | .tmma d a b t i y o z => rowT 0x31 d a b t.code [(0, 2), (0, 4), (b1 i, 1), (b1 y, 1), (b1 o, 1), (b1 z, 1)]
  | .tmmat d a b t i y o z => rowT 0x31 d a b t.code [(1, 2), (0, 4), (b1 i, 1), (b1 y, 1), (b1 o, 1), (b1 z, 1)]
  | .tmmax d a b t u i y o z => rowT 0x31 d a b t.code [(2, 2), (u.code, 4), (b1 i, 1), (b1 y, 1), (b1 o, 1), (b1 z, 1)]
  | .tmmas d a b m t nm i y o z => rowT 0x32 d a b t.code [(m, 4), (nm.code, 2), (b1 i, 1), (b1 y, 1), (b1 o, 1), (b1 z, 1)]
  | .tcvt d a u t r s z f p => rowT 0x33 d a u.code t.code [(0, 2), (r.code, 3), (b1 s, 1), (b1 z, 1), (b1 f, 1), (p, 2)]
  | .tqnt d a bl t r s z f p => rowT 0x33 d a bl t.code [(1, 2), (r.code, 3), (b1 s, 1), (b1 z, 1), (b1 f, 1), (p, 2)]
  | .tscl d a b t r z f m => rowT 0x33 d a b t.code [(2, 2), (r.code, 3), (0, 1), (b1 z, 1), (b1 f, 1), (m.code, 2)]
  | .tadd d a b t r z f => rowT 0x33 d a b t.code [(3, 2), (r.code, 3), (0, 1), (b1 z, 1), (b1 f, 1), (0, 2)]
  | .trdr a k v => rowT 0x34 0 a 0 0 [(k, 5), (v, 5)] | .twrr d k v => rowT 0x34 d 0 1 0 [(k, 5), (v, 5)]
  | .trdc a t k v => rowT 0x34 0 a 2 t.code [(k, 5), (v, 5)] | .twrc d t k v => rowT 0x34 d 0 3 t.code [(k, 5), (v, 5)]
  | .ttrn d a t => rowT 0x34 d a 4 t.code [(0, 10)] | .tring d a => rowT 0x35 d a 0 0 [(0, 10)]
  | .tringS a => rowT 0x35 0 a 0 1 [(0, 10)] | .tringR d => rowT 0x35 d 0 0 2 [(0, 10)]
  | .trjoin h a d => rowT 0x35 h 0 0 3 [(a, 5), (d, 5)] | .trstat h d => rowT 0x35 h 0 0 4 [(0, 5), (d, 5)]
  | .tsave h a m => rowSave h a 0 m | .trstr h a m => rowSave h a 1 m | .trel h m => rowSave h 0 2 m
  | .syscall c => [(0x38, 6), (c.toNat, 15), (0, 11)] | .trap a b => rowR 0x38 0 a b 1
  | .brk c => [(0x38, 6), (c.toNat, 15), (2, 11)] | .eret => [(0x38, 6), (0, 10), (0, 5), (3, 11)]
  | .eretThread d a => rowR 0x38 d a 0 3 | .waiti d a => rowR 0x38 d a 0 4 | .csrrd d c => rowCsr d 0 0 c
  | .csrwr d a c => rowCsr d a 1 c | .csrset d a c => rowCsr d a 2 c | .csrclr d a c => rowCsr d a 3 c
  | .scrubCore d a => rowR 0x3A d a 0 0 | .scrubQuad d a => rowR 0x3A d a 0 0 | .scrubSection d a => rowR 0x3A d a 0 0
  | .scrubQuadShare d a => rowR 0x3A d a 0 0 | .ctxsave d a b => [(0x3A, 6), (d, 5), (a, 5), (0, 1), (b, 4), (1, 11)]
  | .ctxload d a b => [(0x3A, 6), (d, 5), (a, 5), (0, 1), (b, 4), (2, 11)]
  | .tgath1 d a b => [(0x3B, 6), (0, 1), (d, 4), (0, 1), (a, 4), (b, 5), (0, 11)] | .vdot4 d a b => rowR 0x3B d a b 1
  | .nop g => [(0x3F, 6), (0, 6), (g.toNat, 20)] | .hpref r x l v g => rowHint 1 r x l [(v.toNat, 2), (g.toNat, 4)]
  | .hstream r x l g => rowHint 2 r x l [(g.toNat, 6)] | .hevict r x l v g => rowHint 3 r x l [(v.toNat, 2), (g.toNat, 4)]
  | .hprio g n => [(0x3F, 6), (4, 6), (g.toNat, 18), (n.toNat, 2)]
  | .hloop c d => [(0x3F, 6), (5, 6), (c.toNat, 10), (d.toNat, 10)] | .hint h g => [(0x3F, 6), (h.toNat, 6), (g.toNat, 20)]
  | _ => []

/-- The part of the opcode table that an instruction stands in, by its major: 0x01 to 0x0B, 0x0C to 0x14, 0x15 to 0x18, 0x19 to
0x1E, 0x20 to 0x23, 0x24 to 0x28, 0x29 to 0x2B, 0x30 to 0x36, 0x38 to 0x3F, and the rows that have no word. -/
inductive Part where
  | integer | jump | memory | sync | vector | lanes | move | tile | system | none

def Instr.part : Instr → Part
  | .add .. | .sub .. | .and .. | .or .. | .xor .. | .andn .. | .orn .. | .sll .. | .srl .. | .sra .. | .ror .. | .slt ..
  | .sltn .. | .min .. | .max .. | .minn .. | .maxn .. | .mul .. | .mulh .. | .mulhn .. | .div .. | .divn .. | .rem ..
  | .remn .. | .clz .. | .ctz .. | .popc .. | .sext .. | .zext .. | .sel .. | .addi .. | .andi .. | .ori .. | .xori ..
  | .slti .. | .sltni .. | .slli .. | .srli .. | .srai .. | .rori .. | .luis .. | .bext .. | .bins .. | .kld .. | .kldIndexed ..
  | .kldRef .. | .kldRefIndexed .. => .integer
  | .beq .. | .bne .. | .blt .. | .bge .. | .bltn .. | .bgen .. | .pbrAny .. | .pbrAll .. | .pbrNone .. | .jal ..
  | .jalr .. => .jump
  | .amov .. | .aoff .. | .asetf .. | .asetb .. | .ageto .. | .agetn .. | .amake .. | .acoord .. | .achk .. | .aspace ..
  | .ld .. | .ldn .. | .lda .. | .st .. | .sta .. | .amoswap .. | .amoadd .. | .amoand .. | .amoor .. | .amoxor .. | .amomin ..
  | .amomax .. | .amominn .. | .amomaxn .. | .amocas .. | .amofadd .. => .memory
  | .fence .. | .pacq .. | .hdrain .. | .msend .. | .msendv .. | .msenda .. | .mrecv .. | .mwait .. | .mpeek .. | .mcount ..
  | .hurdle .. | .harrive .. | .hwait .. | .htest .. | .xphase .. | .xphaseWait .. | .xsend .. | .cpsetSrc .. | .cpsetDst ..
  | .cpgo .. | .cpwp .. | .cpstat .. | .cpcancel .. | .spawn .. | .tqget .. | .gatedec .. | .tqdone | .repf .. => .sync
  | .vadd .. | .vsub .. | .vmul .. | .vmin .. | .vmax .. | .vabd .. | .vaddmin .. | .vcopysign .. | .vfma .. | .vfms ..
  | .vfnma .. | .vfnms .. | .vdiv .. | .vsqrt .. | .vrcpe .. | .vrsqe .. | .vceq .. | .vcne .. | .vclt .. | .vcle .. | .vcgt ..
  | .vcge .. | .vcun .. | .vclass .. | .viadd .. | .visub .. | .vimul .. | .vimulh .. | .vimin .. | .vimax .. | .viaddmin ..
  | .viabs .. => .vector
  | .vand .. | .vor .. | .vxor .. | .vandn .. | .vsll .. | .vsrl .. | .vsra .. | .vsel .. | .vshup .. | .vshdn .. | .vbcl ..
  | .vperm .. | .vzip .. | .vuzp .. | .vrev .. | .vcompr .. | .vrsum .. | .vrsumo .. | .vrmax .. | .vrmin .. | .vrand ..
  | .vror .. | .vrcnt .. | .vcvt .. | .vrnd .. | .vqnt .. | .vdqnt .. | .vscale .. => .lanes
  | .vld .. | .vst .. | .vlds .. | .vsts .. | .vldg .. | .vstg .. | .vldb .. | .vldff .. | .vmovx .. | .vxmov .. | .vsplat ..
  | .vsplatk .. | .vidx .. | .vwhile .. | .vgetl .. | .pand .. | .por .. | .pxor .. | .pnot .. | .pcnt .. | .pfirst ..
  | .pset .. | .pmov .. => .move
  | .tld .. | .tst .. | .tzero .. | .tmov .. | .tfill .. | .tmma .. | .tmmat .. | .tmmax .. | .tmmas .. | .tcvt .. | .tqnt ..
  | .tscl .. | .tadd .. | .trdr .. | .twrr .. | .trdc .. | .twrc .. | .ttrn .. | .tring .. | .tringS .. | .tringR ..
  | .trjoin .. | .trstat .. | .tsave .. | .trstr .. | .trel .. => .tile
  | .syscall .. | .trap .. | .brk .. | .eret | .eretThread .. | .waiti .. | .csrrd .. | .csrwr .. | .csrset .. | .csrclr ..
  | .scrubCore .. | .scrubQuad .. | .scrubSection .. | .scrubQuadShare .. | .ctxsave .. | .ctxload .. | .tgath1 .. | .vdot4 ..
  | .nop .. | .hpref .. | .hstream .. | .hevict .. | .hprio .. | .hloop .. | .hint .. => .system
  | _ => .none

/-! ### Codes and fields as operands -/

@[simp] theorem Ty.ofCode_code (t : Ty) : Ty.ofCode t.code = some t := by cases t <;> rfl
@[simp] theorem Rm.ofCode_code (r : Rm) : Rm.ofCode r.code = some r := by cases r <;> rfl
@[simp] theorem Scope.ofCode_code (s : Scope) : Scope.ofCode s.code = s := by cases s <;> rfl
@[simp] theorem Ord.ofCode_code (q : Ord) : Ord.ofCode q.code = q := by cases q <;> rfl
@[simp] theorem Width.ofCode_code (k : Width) : Width.ofCode k.code = k := by cases k <;> rfl
@[simp] theorem Nm.ofCode_code (k : Nm) : Nm.ofCode k.code = k := by cases k <;> rfl
@[simp] theorem Csr.ofNum_num (c : Csr) : Csr.ofNum c.num = some c := by cases c <;> rfl

@[simp] theorem b1_beq_one (b : Bool) : (b1 b == 1) = b := by cases b <;> rfl
@[simp] theorem b1_le (b : Bool) : b1 b ≤ 1 := by cases b <;> decide
@[simp] theorem Ty.code_lt (t : Ty) : t.code < 16 := by cases t <;> decide
@[simp] theorem Scope.code_lt (s : Scope) : s.code < 8 := by cases s <;> decide
@[simp] theorem Ord.code_lt (q : Ord) : q.code < 4 := by cases q <;> decide
@[simp] theorem Rm.code_lt (r : Rm) : r.code < 8 := by cases r <;> decide
@[simp] theorem Width.code_lt' (k : Width) : k.code < 32 := by cases k <;> decide
@[simp] theorem Width.code_lt (k : Width) : k.code < 4 := by cases k <;> decide
@[simp] theorem Width3.code_lt (k : Width3) : k.code < 32 := by cases k <;> decide
@[simp] theorem Width3.code_add_lt (k : Width3) : 4 + k.code < 32 := by cases k <;> decide
@[simp] theorem Nm.code_lt (k : Nm) : k.code < 4 := by cases k <;> decide
@[simp] theorem SclMode.code_lt (k : SclMode) : k.code < 4 := by cases k <;> decide
@[simp] theorem Csr.num_lt (c : Csr) : c.num < 4096 := by cases c <;> decide

@[simp] theorem rxAt_eq (n lo : Nat) : rxAt n lo = ⟨field n lo 5, field_lt n lo 5⟩ := rfl
@[simp] theorem raAt_eq (n lo : Nat) : raAt n lo = ⟨field n lo 4, field_lt n lo 4⟩ := rfl
@[simp] theorem rvAt_eq (n lo : Nat) : rvAt n lo = ⟨field n lo 5, field_lt n lo 5⟩ := rfl
@[simp] theorem rpAt_eq (n lo : Nat) : rpAt n lo = ⟨field n lo 3, field_lt n lo 3⟩ := rfl
@[simp] theorem rgAt_eq (n lo : Nat) : rgAt n lo = ⟨field n lo 2, field_lt n lo 2⟩ := rfl
@[simp] theorem rtAt_eq (n lo : Nat) : rtAt n lo = ⟨field n lo 4, field_lt n lo 4⟩ := rfl
@[simp] theorem fin6At_eq (n lo : Nat) : fin6At n lo = ⟨field n lo 6, field_lt n lo 6⟩ := rfl
@[simp] theorem bitOf_eq (n lo : Nat) : bitOf n lo = (field n lo 1 == 1) := rfl
@[simp] theorem zf_eq (n lo len : Nat) : zf n lo len = (field n lo len == 0) := rfl

theorem check_wf {i : Instr} (h : i.wf = true) : check true i = .ok i := by
  simp [check, h]

theorem Instr.canon_wf {i : Instr} (h : i.wf = true) : i.canon.wf = true := by
  unfold Instr.canon
  split
  · rfl
  · rfl
  · rfl
  · exact h

/-! ### The encoder -/

/-- A list of fields is that of an instruction's word: it is what the encoder writes, and what the decoder reads back. -/
structure Encodes (i : Instr) (l : List (Nat × Nat)) : Prop where
  word : i.word = some (pack l)
  width : fieldsWidth l = 32
  fits : Fits l
  decodes : i.wf = true → ∀ n, HasFields n l → decodeNat n = check true i.canon

theorem encodes_integer {i : Instr} (h : i.part = .integer) : Encodes i i.fields := by
  cases i <;> cases h
  all_goals
    delta Instr.fields
    simp only [rowInt, rowI]
    refine ⟨congrArg some (by simp only [pack, fieldsWidth_nil, fieldsWidth_cons, fR, fI]; omega), rfl, by simp <;> omega, fun hw n h => ?_⟩
    simp at h
    delta Instr.canon
    simp [decodeNat, bvAt, decodeInt, decodeShift, decodeLuis, decodeKld, decodeField, h]
  case sext.refl s | zext.refl s => cases s <;> rfl

theorem encodes_jump {i : Instr} (h : i.part = .jump) : Encodes i i.fields := by
  cases i <;> cases h
  all_goals
    delta Instr.fields
    simp only [rowI]
    refine ⟨congrArg some (by simp only [pack, fieldsWidth_nil, fieldsWidth_cons, fI]; omega), rfl, by simp; omega, fun hw n h => ?_⟩
    simp at h
    delta Instr.canon
    simp [decodeNat, bvAt, decodePbr, h]

theorem encodes_memory {i : Instr} (h : i.part = .memory) : Encodes i i.fields := by
  cases i <;> cases h
  all_goals
    delta Instr.fields
    simp only [rowM, rowMA, rowA]
    refine ⟨congrArg some (by simp only [pack, fieldsWidth_nil, fieldsWidth_cons, fR, fM, fA]; omega), rfl, by simp <;> omega, fun hw n h => ?_⟩
    simp at h
    delta Instr.canon
    simp [decodeNat, bvAt, decodeRef, decodeLoad, decodeStore, decodeAmo, h]
  case ld.refl s | ldn.refl s | st.refl s => cases s <;> rfl

theorem encodes_sync {i : Instr} (h : i.part = .sync) : Encodes i i.fields := by
  cases i <;> cases h
  all_goals
    delta Instr.fields
    simp only [rowR, rowFence, rowHurdle, rowPhase]
    refine ⟨congrArg some (by simp only [pack, fieldsWidth_nil, fieldsWidth_cons, fR, fI, fA]; omega), rfl, by simp <;> omega, fun hw n h => ?_⟩
    simp at h
    delta Instr.canon
    simp [decodeNat, decodeFence, decodeMessage, decodeHurdle, decodeCopy, decodeTask, decodeRepf, h]
  case xphaseWait.refl => exact fun ha => absurd ha (bne_iff_ne.mp hw)

theorem encodes_vector {i : Instr} (h : i.part = .vector) : Encodes i i.fields := by
  cases i <;> cases h
  all_goals
    delta Instr.fields
    simp only [rowV, rowLane, rowCompare]
    refine ⟨congrArg some (by simp only [pack, fieldsWidth_nil, fieldsWidth_cons, fV]; omega), rfl, by simp <;> omega, fun hw n h => ?_⟩
    simp at h
    delta Instr.canon
    simp [decodeNat, bvAt, decodeFloat, decodeFused, decodeCompare, decodeVInt, withTy, h]

theorem encodes_lanes {i : Instr} (h : i.part = .lanes) : Encodes i i.fields := by
  cases i <;> cases h
  all_goals
    delta Instr.fields
    simp only [rowV, rowLane, rowReduce, rowConvert]
    refine ⟨congrArg some (by simp only [pack, fieldsWidth_nil, fieldsWidth_cons, fV, fVC]; omega), rfl, by simp, fun hw n h => ?_⟩
    simp at h
    delta Instr.canon
    simp [decodeNat, decodeVLogic, decodePermute, decodeReduce, decodeConvert, decodeScale, withTy, withRm, h]
  case vcvt.refl => exact fun ht => absurd ht (bne_iff_ne.mp hw)

theorem encodes_move {i : Instr} (h : i.part = .move) : Encodes i i.fields := by
  cases i <;> cases h
  all_goals
    delta Instr.fields
    simp only [rowLane, rowVMem, rowPred]
    refine ⟨congrArg some (by simp only [pack, fieldsWidth_nil, fieldsWidth_cons, fV, fM]; omega), rfl, by simp <;> omega, fun hw n h => ?_⟩
    simp at h
    delta Instr.canon
    simp [decodeNat, bvAt, decodeVMem, decodeVMove, decodePred, withTy, h]

theorem encodes_tile {i : Instr} (h : i.part = .tile) : Encodes i i.fields := by
  cases i <;> cases h
  all_goals
    delta Instr.fields
    simp only [rowT, rowSave]
    refine ⟨congrArg some (by simp only [pack, fieldsWidth_nil, fieldsWidth_cons, fT]; omega), rfl, by simp <;> omega, fun hw n h => ?_⟩
    simp at h
    delta Instr.canon
    simp [decodeNat, bvAt, decodeTMem, decodeTMul, decodeTSparse, decodeTConv, decodeTRow, decodeRing, decodeTSave, withTy, withRm, h]
  case tscl.refl m => cases m <;> rfl

theorem encodes_system {i : Instr} (h : i.part = .system) : Encodes i i.fields := by
  cases i <;> cases h
  all_goals
    delta Instr.fields
    simp only [rowR, rowCsr, rowHint]
    refine ⟨congrArg some (by simp only [pack, fieldsWidth_nil, fieldsWidth_cons, fR, fI, fH]; omega), rfl, by simp <;> omega, fun hw n h => ?_⟩
    simp at h
    delta Instr.canon
    simp [decodeNat, bvAt, decodeSystem, decodeCsr, decodePriv, decodeLegacy, decodeHint, h]
  case eretThread.refl d a =>
    intro h0
    obtain ⟨-, hd, ha, -⟩ := h
    rw [field_add n 16 5 5, hd, ha] at h0
    have hz : d = 0 ∧ a = 0 := ⟨Fin.ext (by simp; omega), Fin.ext (by simp; omega)⟩
    simp [Instr.wf, hz] at hw
  case hint.refl k _ =>
    have hk : 6 ≤ k.toNat := of_decide_eq_true hw
    split
    case h_7 => rfl
    all_goals omega

end Sys2Proof
end

section
/-! SUPPORT. What the decoder answers (03 R77 to R82), and O58 and O59: a number decodes only to an instruction whose fields
it has. -/

namespace Sys2Proof

/-! ### What the decoder answers -/

theorem encodes {i : Instr} (h : i.part ≠ .none) : Encodes i i.fields := by
  cases hp : i.part with
  | integer => exact encodes_integer hp
  | jump => exact encodes_jump hp
  | memory => exact encodes_memory hp
  | sync => exact encodes_sync hp
  | vector => exact encodes_vector hp
  | lanes => exact encodes_lanes hp
  | move => exact encodes_move hp
  | tile => exact encodes_tile hp
  | system => exact encodes_system hp
  | none => exact absurd hp h

/-- What a decoder answers for a number is a well-formed instruction that has a word, and the number has that word's fields. -/
def Sound (n : Nat) (r : Except Reject Instr) : Prop :=
  ∀ i, r = .ok i → i.wf = true ∧ i.part ≠ .none ∧ HasFields n i.fields

theorem sound_undef (n : Nat) : Sound n undef := fun _ h => by cases h
theorem sound_reserved (n : Nat) : Sound n reserved := fun _ h => by cases h

theorem sound_check {n : Nat} {z : Bool} {i : Instr} (hp : i.part ≠ .none) (h : z = true → HasFields n i.fields) :
    Sound n (check z i) := by
  intro j hj
  unfold check at hj
  split at hj
  · rename_i hz
    obtain ⟨hz, hw⟩ := Bool.and_eq_true_iff.mp hz
    cases hj
    exact ⟨hw, hp, h hz⟩
  · cases hj

theorem Ty.code_ofCode {c : Nat} {t : Ty} (h : Ty.ofCode c = some t) : t.code = c := by
  unfold Ty.ofCode at h
  split at h <;> cases h <;> rfl

theorem Rm.code_ofCode {c : Nat} {r : Rm} (h : Rm.ofCode c = some r) : r.code = c := by
  unfold Rm.ofCode at h
  split at h <;> cases h <;> rfl

theorem Csr.num_ofNum {c : Nat} {r : Csr} (h : Csr.ofNum c = some r) : r.num = c := by
  unfold Csr.ofNum at h
  split at h <;> cases h <;> rfl

theorem Csr.ofNum_eq {c : Nat} {r : Csr} : Csr.ofNum c = some r ↔ c = r.num :=
  ⟨fun h => (Csr.num_ofNum h).symm, fun h => h ▸ Csr.ofNum_num r⟩

theorem sound_withTy {n lo : Nat} {k : Ty → Except Reject Instr} (h : ∀ t, field n lo 4 = t.code → Sound n (k t)) :
    Sound n (withTy n lo k) := by
  unfold withTy
  split
  · rename_i t ht
    exact h t (Ty.code_ofCode ht).symm
  · exact sound_reserved n

theorem sound_withRm {n lo : Nat} {k : Rm → Except Reject Instr} (h : ∀ r, field n lo 3 = r.code → Sound n (k r)) :
    Sound n (withRm n lo k) := by
  unfold withRm
  split
  · rename_i r hr
    exact h r (Rm.code_ofCode hr).symm
  · exact sound_reserved n

@[simp] theorem b1_beq (n lo : Nat) : b1 (field n lo 1 == 1) = field n lo 1 := by
  have h := field_lt n lo 1
  obtain h | h : field n lo 1 = 0 ∨ field n lo 1 = 1 := by omega
  all_goals simp [h, b1]

@[simp] theorem field_ne_one (n lo : Nat) : (¬field n lo 1 = 1) ↔ field n lo 1 = 0 := by
  have h := field_lt n lo 1
  omega

@[simp] theorem bvAt_toNat (len n lo : Nat) : (bvAt len n lo).toNat = field n lo len :=
  Nat.mod_eq_of_lt (field_lt n lo len)

@[simp] theorem Scope.code_ofCode (n lo : Nat) : (Scope.ofCode (field n lo 3)).code = field n lo 3 := by
  have h := field_lt n lo 3
  generalize field n lo 3 = c at h
  interval_cases c <;> rfl

@[simp] theorem Ord.code_ofCode (n lo : Nat) : (Ord.ofCode (field n lo 2)).code = field n lo 2 := by
  have h := field_lt n lo 2
  generalize field n lo 2 = c at h
  interval_cases c <;> rfl

@[simp] theorem Width.code_ofCode (n lo : Nat) : (Width.ofCode (field n lo 2)).code = field n lo 2 := by
  have h := field_lt n lo 2
  generalize field n lo 2 = c at h
  interval_cases c <;> rfl

@[simp] theorem Nm.code_ofCode (n lo : Nat) : (Nm.ofCode (field n lo 2)).code = field n lo 2 := by
  have h := field_lt n lo 2
  generalize field n lo 2 = c at h
  interval_cases c <;> rfl

/-- In a major of scalar instructions, the operation fields of the row pick the instruction, and the check of its zero fields is what
its word's fields say besides its operands. -/
theorem sound_scalar {n : Nat} (h : field n 26 6 < 0x20) : Sound n (decodeNat n) := by
  unfold decodeNat
  dsimp only
  split
  all_goals rename_i hm
  all_goals try omega
  case h_55 => exact sound_undef n
  all_goals try simp only [decodeInt, decodeShift, decodeLuis, decodeKld, decodeField, decodePbr, decodeRef, decodeLoad,
    decodeStore, decodeAmo, decodeFence, decodeMessage, decodeHurdle, decodeCopy, decodeTask, decodeRepf]
  all_goals repeat' with_reducible first | refine sound_withTy fun _ _ => ?_ | refine sound_withRm fun _ _ => ?_ | split
  all_goals try with_reducible first | exact sound_undef n | exact sound_reserved n
  all_goals
    refine sound_check nofun fun hz => ?_
    delta Instr.fields
    simp only [rowInt, rowI, rowM, rowMA, rowA, rowR, rowFence, rowHurdle, rowPhase]
    simp_all [Width.code, Width3.code]

/-- The same in a major of vector instructions. -/
theorem sound_vector {n : Nat} (h : 0x20 ≤ field n 26 6 ∧ field n 26 6 < 0x30) : Sound n (decodeNat n) := by
  unfold decodeNat
  dsimp only
  split
  all_goals rename_i hm
  all_goals try omega
  case h_55 => exact sound_undef n
  all_goals try simp only [decodeFloat, decodeFused, decodeCompare, decodeVInt, decodeVLogic, decodePermute, decodeReduce,
    decodeConvert, decodeScale, decodeVMem, decodeVMove, decodePred]
  all_goals repeat' with_reducible first | refine sound_withTy fun _ _ => ?_ | refine sound_withRm fun _ _ => ?_ | split
  all_goals try with_reducible first | exact sound_undef n | exact sound_reserved n
  all_goals
    refine sound_check nofun fun hz => ?_
    delta Instr.fields
    simp only [rowV, rowLane, rowCompare, rowReduce, rowConvert, rowVMem, rowPred]
    simp_all
  all_goals
    have hlt := field_lt n 0 3
    omega

/-- The same in a major of tile or system instructions. -/
theorem sound_tile {n : Nat} (h : 0x30 ≤ field n 26 6) : Sound n (decodeNat n) := by
  unfold decodeNat
  dsimp only
  split
  all_goals rename_i hm
  all_goals try omega
  case h_55 => exact sound_undef n
  all_goals try simp only [decodeTMem, decodeTMul, decodeTSparse, decodeTConv, decodeTRow, decodeRing, decodeTSave, decodeSystem,
    decodeCsr, decodePriv, decodeLegacy, decodeHint]
  all_goals repeat' with_reducible first | refine sound_withTy fun _ _ => ?_ | refine sound_withRm fun _ _ => ?_ | split
  all_goals try with_reducible first | exact sound_undef n | exact sound_reserved n
  all_goals
    refine sound_check nofun fun hz => ?_
    delta Instr.fields
    simp only [rowT, rowSave, rowR, rowCsr, rowHint]
    simp_all [SclMode.code, Csr.ofNum_eq]
  case h_4 =>
    have hlt := field_lt n 8 2
    omega

/-- What a decoder answers has the decoded number as its word. -/
theorem decodeNat_sound (n : Nat) : Sound n (decodeNat n) := by
  by_cases h1 : field n 26 6 < 0x20
  · exact sound_scalar h1
  · by_cases h2 : field n 26 6 < 0x30
    · exact sound_vector ⟨Nat.le_of_not_lt h1, h2⟩
    · exact sound_tile (Nat.le_of_not_lt h2)

/-! ### Both directions -/

/-- The rows outside every part of the table are those that have no word. -/
theorem Instr.wordless {i : Instr} (h : i.part = .none) : i.word = none ∧ Claims.Wordless i := by
  cases i <;> cases h
  all_goals exact ⟨rfl, trivial⟩

theorem Instr.part_of_encode {i : Instr} {w : IWord} (h : encode i = some w) : i.part ≠ .none := fun hp => by
  rw [encode, (Instr.wordless hp).1] at h
  cases h

theorem encode_eq {i : Instr} (hp : i.part ≠ .none) : encode i = some (BitVec.ofNat 32 (pack i.fields)) := by
  rw [encode, (encodes hp).word]
  rfl

theorem decode_encode {i : Instr} {w : IWord} (hw : i.wf = true) (h : encode i = some w) : decode w = .ok i.canon := by
  have hp := Instr.part_of_encode h
  have he := encodes hp
  obtain rfl := Option.some.inj ((encode_eq hp).symm.trans h)
  have hlt : pack i.fields < 2 ^ 32 := he.width ▸ pack_lt he.fits
  rw [decode, BitVec.toNat_ofNat, Nat.mod_eq_of_lt hlt, he.decodes hw _ (hasFields_pack he.fits)]
  exact check_wf (Instr.canon_wf hw)

theorem encode_decode {i : Instr} {w : IWord} (h : decode w = .ok i) : i.wf = true ∧ encode i = some w := by
  obtain ⟨hw, hp, hf⟩ := decodeNat_sound w.toNat i h
  refine ⟨hw, (encode_eq hp).trans (congrArg some (BitVec.eq_of_toNat_eq ?_))⟩
  rw [pack_of_hasFields hf, (encodes hp).width, BitVec.toNat_ofNat]
  simpa [field] using w.isLt

end Sys2Proof

namespace Sys2Proof.Proofs
open Sys2Proof.Claims

/-- Settles O58: the encoder packs an instruction's fields, and the decoder answers an instruction exactly for a number that
has its fields. -/
theorem decodeOfEncode : Obligations.DecodeOfEncode := by
  refine ⟨fun i hw hi => ?_, fun i w hw he => decode_encode hw he, fun w i hd => encode_decode hd⟩
  have he := encode_eq fun hp => hi (Instr.wordless hp).2
  exact ⟨_, he, decode_encode hw he⟩

/-- Settles O59: each word decodes by computation. -/
theorem decodeSamples : Obligations.DecodeSamples := by
  unfold Obligations.DecodeSamples
  decide

end Sys2Proof.Proofs
end

section
/-! SUPPORT. The reference check (03 R69, R70) in the claims' terms, and O22. -/

namespace Sys2Proof.Machine
open Sys2Proof.Safety Sys2Proof.Claims

theorem scaleOk_iff {sk blog t : Nat} :
    scaleOk sk blog t = true ↔ sk = 0 ∨ (sk = 1 ∧ (t = 12 ∨ t = 13 ∨ t = 14) ∧ 3 ≤ blog) := by
  simp [scaleOk, and_assoc, or_assoc]

/-- The steps of R70 on the reference's fields. -/
theorem refFault_eq (r : Ref) (fmt : Bool) : refFault r fmt =
    if refBits r 94 2 ≠ 0 then some 0x02 else if 6 ≤ refBits r 80 4 then some 0x07
    else if refBits r 80 4 ≠ 0 ∧ refBits r 44 36 ≠ 0 then some 0x02
    else if refBits r 90 4 = 1 ∨ refBits r 90 4 = 2 then some 0x02
    else if scaleOk (refBits r 88 2) (refBits r 90 4) (refBits r 84 4) = false then some 0x02
    else if fmt = true ∧ refBits r 84 4 = 15 then some 0x02 else none := by
  simp only [refFault, Bool.and_eq_true, Bool.or_eq_true, bne_iff_ne, beq_iff_eq, Bool.not_eq_true']
  rfl

theorem wellFormedRef_iff {r : Ref} : WellFormedRef r ↔ refBits r 94 2 = 0 ∧ refBits r 80 4 ≤ 5
    ∧ ¬(refBits r 80 4 ≠ 0 ∧ refBits r 44 36 ≠ 0) ∧ ¬(refBits r 90 4 = 1 ∨ refBits r 90 4 = 2)
    ∧ scaleOk (refBits r 88 2) (refBits r 90 4) (refBits r 84 4) = true := by
  rw [WellFormedRef, scaleOk_iff]
  simp only [not_and, not_or, not_not, ne_eq, and_assoc]

/-- After steps 1 and 2 the check fails with one cause, exactly where the reference is not well formed. -/
theorem refFault_rest {r : Ref} (fmt : Bool) (h : refBits r 94 2 = 0) (hs : refBits r 80 4 ≤ 5) (hw : ¬WellFormedRef r) :
    refFault r fmt = some 0x02 := by
  rw [refFault_eq, if_neg (not_not.mpr h), if_neg (by omega)]
  rw [wellFormedRef_iff] at hw
  split_ifs with h1 h2 h3
  · rfl
  · rfl
  · rfl
  · rfl
  · exact absurd ⟨h, hs, h1, h2, Bool.not_eq_false _ ▸ h3⟩ hw

/-- A well-formed reference passes the five steps; an instruction that reads the format refuses type code 0xF. -/
theorem refFault_wellFormed {r : Ref} (fmt : Bool) (hw : WellFormedRef r) :
    refFault r fmt = if fmt = true ∧ refBits r 84 4 = 15 then some 0x02 else none := by
  obtain ⟨h, hs, h1, h2, h3⟩ := wellFormedRef_iff.mp hw
  rw [refFault_eq, if_neg (not_not.mpr h), if_neg (by omega), if_neg h1, if_neg h2, if_neg (by simp [h3])]

theorem refFault_reserved {r : Ref} (fmt : Bool) (h : refBits r 94 2 ≠ 0) : refFault r fmt = some 0x02 := by
  rw [refFault_eq, if_pos h]

theorem refFault_space {r : Ref} (fmt : Bool) (h : refBits r 94 2 = 0) (hs : 6 ≤ refBits r 80 4) : refFault r fmt = some 0x07 := by
  rw [refFault_eq, if_neg (not_not.mpr h), if_pos hs]

/-- The check passes exactly for a well-formed reference. -/
theorem refFault_none {r : Ref} : refFault r false = none ↔ WellFormedRef r := by
  refine ⟨fun h => ?_, fun hw => by simp [refFault_wellFormed false hw]⟩
  by_contra hw
  by_cases h1 : refBits r 94 2 = 0
  · by_cases h2 : refBits r 80 4 ≤ 5
    · simp [refFault_rest false h1 h2 hw] at h
    · simp [refFault_space false h1 (by omega)] at h
  · simp [refFault_reserved false h1] at h

/-- Steps 1 to 4 alone (R182). -/
theorem refPlainFault_eq (r : Ref) : refPlainFault r =
    if refBits r 94 2 ≠ 0 then some 0x02 else if 6 ≤ refBits r 80 4 then some 0x07
    else if (refBits r 80 4 ≠ 0 ∧ refBits r 44 36 ≠ 0) ∨ refBits r 90 4 = 1 ∨ refBits r 90 4 = 2 then some 0x02 else none := by
  simp only [refPlainFault, Bool.and_eq_true, Bool.or_eq_true, bne_iff_ne, beq_iff_eq, ← ite_or]
  rfl

end Sys2Proof.Machine

namespace Sys2Proof.Proofs
open Sys2Proof.Machine Sys2Proof.Claims

/-- Settles O22: the steps of the check, one after the other, on the reference's fields. -/
theorem referenceCheck : Obligations.ReferenceCheck :=
  ⟨fun _ => refFault_none, fun _ => refFault_reserved, fun _ => refFault_space, fun _ => refFault_rest,
    fun _ hw => by simp [refFault_wellFormed true hw], refPlainFault_eq⟩

end Sys2Proof.Proofs
end

section
/-! SUPPORT. What a step of the machine does when nothing else is due (03 R77, R82; 09 R242; 15 R369), and O60. -/

namespace Sys2Proof.Machine
open Sys2Proof.Safety Sys2Proof.Claims

/-- The turn changes hands, and with it no thread's record and no memory (R242). -/
theorem State.switchTo_keeps (s : State) (n k : Nat) : (s.switchTo n).thread k = s.thread k ∧ (s.switchTo n).mem = s.mem
    ∧ (s.switchTo n).cores = s.cores ∧ (s.switchTo n).quads = s.quads ∧ (s.switchTo n).gangs = s.gangs := by
  simp [State.switchTo_thread]

/-- At most the round and the cycle change besides. -/
theorem State.advance_keeps (s : State) (k : Nat) : s.advance.thread k = s.thread k ∧ s.advance.mem = s.mem
    ∧ s.advance.cores = s.cores ∧ s.advance.quads = s.quads ∧ s.advance.gangs = s.gangs := by
  unfold State.advance
  split
  · exact State.switchTo_keeps s _ k
  · dsimp only
    split
    · exact State.switchTo_keeps { s with round := _ } _ k
    · split
      · exact State.switchTo_keeps { s with cycle := s.cycle + 1, round := 0 } _ k
      · exact ⟨rfl, rfl, rfl, rfl, rfl⟩

section Turn
variable {s : State} (h1 : dueSplit s = none) (h2 : s.dueInput = none) (h3 : runDue s = none)
include h1 h2 h3

theorem step_passes (hr : runs s s.tid = false) : step s = .next s.advance := by
  simp only [step, h1, h2, h3, hr, Bool.not_false, if_true]

theorem step_waits (hr : runs s s.tid = true) (hw : s.th.wait ≠ .none) : step s = thenAdvance (waitStep s) := by
  simp only [step, h1, h2, h3, hr, Bool.not_true, Bool.false_eq_true, if_false, if_pos hw]

theorem step_runs (hr : runs s s.tid = true) (hw : s.th.wait = .none) : step s = threadStep s := by
  simp only [step, h1, h2, h3, hr, hw, Bool.not_true, Bool.false_eq_true, if_false, ne_eq, not_true_eq_false]

end Turn

/-- The thread takes a fault in its turn. -/
theorem thenAdvance_trap {s : State} (h : CanHold s 1) (f : Trap) :
    thenAdvance (finish s (.error (.trap f))) = .next (faulted s f.cause f.addr f.info f.step f.miss).advance := by
  rw [finish_trap, takeFault_user h]
  rfl

section Thread
variable {s : State}

/-- The fault of a bad entry record comes before every other (R262). -/
theorem nextInstr_entryBad (h : s.th.entryBad = true) : nextInstr s = trapOf 0x02 := by
  simp [nextInstr, h, require, trapOf, bind, Except.bind]

/-- A step fault that is due comes before the fetch (R369). -/
theorem nextInstr_stepDue (h : s.th.entryBad = false) (hd : s.th.stepDue = true) : nextInstr s = trapOf 0x10 := by
  simp [nextInstr, h, hd, require, trapOf, bind, Except.bind]

/-- Otherwise the next instruction is what the fetched bytes are (R77, R82). -/
theorem nextInstr_fetch (h : s.th.entryBad = false) (hd : s.th.stepDue = false) :
    nextInstr s = (fetchBytes s).bind (decodeOrTrap s) := by
  simp [nextInstr, h, hd, require, bind, Except.bind]

theorem threadStep_ok {i : Instr} (h : nextInstr s = .ok i) : threadStep s = thenAdvance (exec i s) := by
  simp only [threadStep, h]

theorem threadStep_trap {f : Trap} (h : nextInstr s = .error (.trap f)) (hc : CanHold s 1) :
    threadStep s = .next (faulted s f.cause f.addr f.info f.step f.miss).advance := by
  simp only [threadStep, h, thenAdvance_trap hc]

theorem decodeOrTrap_ok {bs : List Byte} {i : Instr} (h : decodeBytes bs = .ok i) : decodeOrTrap s bs = .ok i := by
  simp only [decodeOrTrap, h]

theorem decodeOrTrap_undefined {bs : List Byte} (h : decodeBytes bs = .error .undefinedInstruction) :
    decodeOrTrap s bs = .ok (.undefinedInstruction (BitVec.ofNat 32 (leWord bs))) := by
  simp only [decodeOrTrap, h]

/-- The fault of a reserved operand: the privilege fault first (R82). -/
theorem decodeOrTrap_reserved {bs : List Byte} (h : decodeBytes bs = .error .reservedOperand) :
    decodeOrTrap s bs = trapOf (if privilegedWord (BitVec.ofNat 32 (leWord bs)) = true ∧ s.th.privileged = false
      then 0x04 else 0x02) := by
  simp only [decodeOrTrap, h, Bool.and_eq_true, Bool.not_eq_true']
  split <;> rfl

end Thread

end Sys2Proof.Machine

namespace Sys2Proof.Proofs
open Sys2Proof.Machine Sys2Proof.Safety Sys2Proof.Claims

/-- Settles O60: the step is the thread's own, and each case of what it runs is one of `nextInstr`. -/
theorem stepRunsDecoded : Obligations.StepRunsDecoded := by
  refine ⟨fun s h1 h2 h3 hr => ⟨step_waits h1 h2 h3 hr, fun hw => ?_⟩, fun s h1 h2 h3 hr => step_passes h1 h2 h3 hr,
    State.advance_keeps⟩
  rw [step_runs h1 h2 h3 hr hw]
  refine ⟨fun bs i he hd hf hi => threadStep_ok ?_, fun bs he hd hf hi => threadStep_ok ?_,
    fun bs he hd hf hi hc => threadStep_trap (f := { cause := _ }) ?_ hc, fun k he hd hf hc => threadStep_trap (f := k) ?_ hc,
    fun he hd hc => threadStep_trap (f := { cause := 0x10 }) (nextInstr_stepDue he hd) hc,
    fun he hc => threadStep_trap (f := { cause := 0x02 }) (nextInstr_entryBad he) hc⟩
  · rw [nextInstr_fetch he hd, hf]
    exact decodeOrTrap_ok hi
  · rw [nextInstr_fetch he hd, hf]
    exact decodeOrTrap_undefined hi
  · rw [nextInstr_fetch he hd, hf]
    exact decodeOrTrap_reserved hi
  · rw [nextInstr_fetch he hd, hf]
    rfl

end Sys2Proof.Proofs
end

section
/-! SUPPORT. System instructions, waits and hints (03 R82, R84; 08 R226 to R230, R236 to R238), and O44. -/

namespace Sys2Proof.Machine
open Sys2Proof.Safety Sys2Proof.Claims

/-- An instruction that ends in a fault takes it, in a user-level thread with room in its hold buffer. -/
theorem finish_trapOf {s : State} (h : CanHold s 1) (c : Nat) (a i : Word) :
    finish s (trapOf c a i) = .next (faulted s c a i 0 none) := by
  rw [trapOf, finish_trap, takeFault_user h]

/-- A service core's thread goes on in its own handler (R229). -/
theorem finish_trapOf_service {s : State} (h : 4096 ≤ s.tid) (c : Nat) (a i : Word) :
    finish s (trapOf c a i) = .next (withThread s
      { faultRecord s.th c a i 0 none with
        privileged := true, pc := word (Config.serviceHandler.toNat % 2 ^ 44 / 4 * 4) }) := by
  rw [trapOf, finish_trap, takeFault_service h]
  rfl

theorem exec_syscall (c : BitVec 15) (s : State) : exec (.syscall c) s = finish s (trapOf 0x11 0 (word c.toNat)) := by
  rw [word, BitVec.ofNat_toNat]
  rfl

theorem exec_brk (c : BitVec 15) (s : State) : exec (.brk c) s = finish s (trapOf 0x0F 0 (word c.toNat)) := by
  rw [word, BitVec.ofNat_toNat]
  rfl

theorem exec_undefined (w : IWord) (s : State) : exec (.undefinedInstruction w) s = finish s (trapOf 0x01) := rfl

theorem Thread.rx_eq_word (t : Thread) (r : Rx) : t.rx r = word (xVal t r) := by
  rw [← Thread.rx_toNat, word, BitVec.ofNat_toNat, BitVec.setWidth_eq]

theorem Thread.rx_eq_zero (t : Thread) (r : Rx) : t.rx r = 0 ↔ xVal t r = 0 := by
  rw [← Thread.rx_toNat, BitVec.toNat_eq]
  rfl

/-- `trap` compares its first operand with zero (R228). -/
theorem exec_trap {s : State} {a b : Rx} (ha : ReadableX s.th a) (hb : ReadableX s.th b) :
    exec (.trap a b) s = finish s (if xVal s.th a = 0 then .ok (done s) else trapOf 0x0F 0 (word (xVal s.th b))) := by
  show execTrap a b s = _
  simp only [execTrap, useX_ok ha, useX_ok hb, bind, Except.bind, require, beq_iff_eq, Thread.rx_eq_zero]
  rw [Thread.rx_eq_word s.th b]
  by_cases h : xVal s.th a = 0
  · simp only [if_pos h]
    rfl
  · simp only [if_neg h]
    rfl

/-- `waiti` reports the wake bit and the latch and clears the latch, or waits for one of them (R230). -/
theorem exec_waiti {s : State} {a : Rx} (d : Rx) (ha : ReadableX s.th a) :
    exec (.waiti d a) s = .next (if s.th.wake = true ∨ s.th.latch ≠ 0
      then withThread s (goNext (putX { s.th with latch := 0 } d (word ((if s.th.wake then 1 else 0) + 2 * s.th.latch.toNat))))
      else withThread s { s.th with wait := .waiti d (timeOut s (xVal s.th a)) }) := by
  show execWaiti d a s = _
  simp only [execWaiti, useX_ok ha, bind, Except.bind, waitiReady, Bool.or_eq_true, bne_iff_ne]
  split
  · rfl
  · simp only [deadline, Thread.rx_eq_zero, Thread.rx_toNat]
    rfl

/-- A hint retires, whatever it names (R84, R236 to R238). -/
theorem exec_hint {i : Instr} {s : State} (h : (∃ g, i = .nop g) ∨ (∃ r x l g, i = .hstream r x l g)
    ∨ (∃ r x l v g, i = .hevict r x l v g) ∨ (∃ c n, i = .hloop c n) ∨ (∃ k g, i = .hint k g)) : exec i s = .next (done s) := by
  rcases h with ⟨_, rfl⟩ | ⟨_, _, _, _, rfl⟩ | ⟨_, _, _, _, _, rfl⟩ | ⟨_, _, rfl⟩ | ⟨_, _, rfl⟩
  all_goals rfl

/-- A prefetch retires, and changes its quad's count of requests at most (R236, R355). -/
theorem exec_hpref (s : State) (r : Ra) (x : Rx) (l : BitVec 5) (v : BitVec 2) (g : BitVec 4) :
    ∃ qs, exec (.hpref r x l v g) s = .next (done { s with quads := qs }) := by
  show ∃ qs, execHpref r x l v g s = _
  unfold execHpref
  dsimp only
  split
  · exact ⟨s.quads, rfl⟩
  · exact ⟨_, rfl⟩

end Sys2Proof.Machine

namespace Sys2Proof.Proofs
open Sys2Proof.Machine Sys2Proof.Safety Sys2Proof.Claims

/-- Settles O44, one lemma for each instruction. -/
theorem systemInstructions : Obligations.SystemInstructions := by
  refine ⟨fun s c w => ⟨fun h => ⟨?_, ?_, ?_⟩, fun h => ?_⟩, fun s a b ha hb => ⟨fun h => ?_, fun h hc => ?_⟩,
    fun s d a ha => ⟨fun h => ?_, fun h hl => ?_⟩, fun i s h => exec_hint h, fun s g n => rfl, fun s r x l v g => ?_⟩
  · rw [exec_syscall, finish_trapOf h]
  · rw [exec_brk, finish_trapOf h]
  · rw [exec_undefined, finish_trapOf h]
  · rw [exec_syscall, finish_trapOf_service h]
  · rw [exec_trap ha hb, if_pos h, finish_ok]
  · rw [exec_trap ha hb, if_neg h, finish_trapOf hc]
  · rw [exec_waiti d ha, if_pos h]
  · rw [exec_waiti d ha, if_neg (by simp [h, hl])]
  · obtain ⟨qs, h⟩ := exec_hpref s r x l v g
    exact ⟨_, h, rfl, ⟨rfl, rfl, rfl, rfl, rfl, rfl, rfl⟩, rfl⟩

end Sys2Proof.Proofs
end

section
/-! SUPPORT. CSRs (03 R74 to R76; 08 R231, R232): what each reads as and what a write leaves in it, and O45. -/

namespace Sys2Proof.Machine
open Sys2Proof.Safety Sys2Proof.Claims

/-! ### Masks -/

/-- A number's bits under a mask are its field there. -/
theorem and_mask (v k m : Nat) : v &&& (2 ^ k - 1) * 2 ^ m = field v m k * 2 ^ m := by
  refine Nat.eq_of_testBit_eq fun i => ?_
  simp only [field, Nat.testBit_and, Nat.testBit_mul_two_pow, Nat.testBit_two_pow_sub_one, Nat.testBit_mod_two_pow,
    Nat.testBit_div_two_pow]
  by_cases h : m ≤ i
  · simp [h, Bool.and_comm]
  · simp [h]

/-- Bits under a mask of two parts are those of both. -/
theorem and_mask_add {v a b k : Nat} (hb : b < 2 ^ k) : v &&& (a * 2 ^ k + b) = (v &&& a * 2 ^ k) + (v &&& b) := by
  have hv : v &&& a * 2 ^ k = 2 ^ k * (v / 2 ^ k &&& a) := by
    refine Nat.eq_of_testBit_eq fun i => ?_
    simp only [Nat.testBit_and, Nat.testBit_mul_two_pow, Nat.testBit_two_pow_mul, Nat.testBit_div_two_pow]
    by_cases h : k ≤ i
    · simp [h]
    · simp [h]
  rw [hv, Nat.two_pow_add_eq_or_of_lt (Nat.and_le_right.trans_lt hb), ← hv, ← Nat.and_or_distrib_left, Nat.mul_comm a,
    Nat.two_pow_add_eq_or_of_lt hb]

theorem and_eq_word (v : Word) (m : Nat) : v &&& BitVec.ofNat 64 m = word (v.toNat &&& m) := by
  refine BitVec.eq_of_toNat_eq ?_
  rw [BitVec.toNat_and, BitVec.toNat_ofNat, word, BitVec.toNat_ofNat, Nat.and_mod_two_pow, Nat.mod_eq_of_lt v.isLt]

theorem and_fcsr (v : Nat) : v &&& 0x33F3F = v % 2 ^ 6 + v / 2 ^ 8 % 2 ^ 6 * 2 ^ 8 + v / 2 ^ 16 % 4 * 2 ^ 16 := by
  have h := and_mask_add (v := v) (a := 3) (b := 0x3F3F) (k := 16) (by decide)
  have h' := and_mask_add (v := v) (a := 0x3F) (b := 0x3F) (k := 8) (by decide)
  have e1 := and_mask v 2 16
  have e2 := and_mask v 6 8
  have e3 := and_mask v 6 0
  simp only [field, Nat.reducePow, Nat.reduceSub, Nat.reduceMul, Nat.reduceAdd] at *
  omega

/-- The bits below a place. -/
theorem and_low (v k : Nat) : v &&& (2 ^ k - 1) = v % 2 ^ k := Nat.and_two_pow_sub_one_eq_mod v k

theorem and_epc (v : Nat) : v &&& 0xFFFFFFFFFFC = v % 2 ^ 44 / 4 * 4 := by
  have h := and_mask v 42 2
  simp only [field, Nat.reducePow, Nat.reduceSub, Nat.reduceMul] at h
  omega

/-- The two parts of `ortb` (R308). -/
theorem ortbWrite_eq (old v : Word) : ortbWrite old v = word (v.toNat / 2 ^ 7 % 2 ^ 49 * 2 ^ 7
    + if v.toNat % 2 ^ 6 < 37 then v.toNat % 2 ^ 6 else old.toNat % 2 ^ 6) := by
  have hor : ∀ b : Nat, b < 2 ^ 6 → (v &&& 0x00FFFFFFFFFFFF80) ||| word b = word (v.toNat / 2 ^ 7 % 2 ^ 49 * 2 ^ 7 + b) := by
    intro b hb
    refine BitVec.eq_of_toNat_eq ?_
    have hm := and_mask v.toNat 49 7
    have ho := Nat.two_pow_add_eq_or_of_lt (i := 7) (b := b) (by omega) (v.toNat / 2 ^ 7 % 2 ^ 49)
    rw [BitVec.toNat_or, BitVec.toNat_and, word, word, BitVec.toNat_ofNat, BitVec.toNat_ofNat, Nat.mod_eq_of_lt (by omega),
      Nat.mod_eq_of_lt (by omega), Nat.mul_comm, ho, Nat.mul_comm]
    exact congrArg (· ||| b) hm
  have hlow : ∀ w : Word, w &&& 0x3F = word (w.toNat % 2 ^ 6) := fun w => by
    rw [← and_low, ← and_eq_word]
    rfl
  unfold ortbWrite
  dsimp only
  rw [show bits v 0 6 = v.toNat % 2 ^ 6 from by simp [bits, field]]
  split
  · rw [hlow, hor _ (Nat.mod_lt _ (by decide))]
  · rw [hlow, hor _ (Nat.mod_lt _ (by decide))]

/-- The low half of a copy reference (R209). -/
theorem lowHalf_eq (r : Ref) (v : Word) : lowHalf r v = refWith r 0 64 v.toNat := by
  refine BitVec.eq_of_toNat_eq ?_
  have hv := v.isLt
  have hr := r.isLt
  have ho := Nat.two_pow_add_eq_or_of_lt (i := 64) (b := v.toNat) hv (r.toNat / 2 ^ 64)
  simp only [lowHalf, refWith, replaceBits, BitVec.toNat_or, BitVec.toNat_shiftLeft, BitVec.toNat_ushiftRight,
    BitVec.toNat_setWidth, BitVec.toNat_ofNat, Nat.shiftLeft_eq, Nat.shiftRight_eq_div_pow]
  rw [Nat.mod_eq_of_lt (by omega), Nat.mod_eq_of_lt (by omega), Nat.mul_comm, ← ho]
  omega

/-! ### What a CSR reads as (R65, R75, R232) -/

theorem word_setWidth {n : Nat} (v : BitVec n) : v.setWidth 64 = word v.toNat := (BitVec.ofNat_toNat 64 v).symm

theorem word_toNat (v : Word) : word v.toNat = v := by rw [word, BitVec.ofNat_toNat, BitVec.setWidth_eq]

theorem sectionOf_eq (t : Nat) : sectionOf t = if 4096 ≤ t then t - 4096 else t / 64 := by
  simp [sectionOf, isService]

/-- Membership and index of a thread's core in its gang's domain (R272). -/
theorem hdomWord_eq (s : State) (d : Fin 4) : hdomWord s d = word (domainWord s d) := by
  unfold hdomWord domainWord
  cases hg : s.gangs.get? s.th.gang with
  | none => simp [State.gang?, hg, word]
  | some g =>
    have hmem : g.isMember s.tid = true ↔ s.tid < 4096 ∧ (g.cores.idxOf? (s.tid / 2)).isSome ∧ s.tid % 2 < g.threads := by
      simp only [Gang.isMember, isService, coreOf, slotOf, List.isSome_idxOf?, Bool.and_eq_true, Bool.not_eq_true',
        decide_eq_false_iff_not, Nat.not_le, List.contains_iff_mem, and_assoc]
      exact and_congr_right' (and_congr_right' decide_eq_true_iff)
    simp only [State.gang?, hg, Gang.inDomain, Gang.posOf, coreOf, word, hmem]
    generalize (if s.tid < 4096 ∧ (g.cores.idxOf? (s.tid / 2)).isSome ∧ s.tid % 2 < g.threads then 2 ^ 62 else 0) = member
    rcases (g.cores.idxOf? (s.tid / 2)).eq_none_or_eq_some with ho | ⟨p, ho⟩
    · simp [ho]
    · by_cases hp : p ∈ g.domain d
      · simp only [ho, List.contains_iff_mem, hp, if_true]
        congr 1
        omega
      · simp [ho, hp]

/-- A fold that adds where a condition holds is a sum. -/
theorem foldl_add_if (l : List Nat) (p : Nat → Bool) (f : Nat → Nat) (n : Nat) :
    l.foldl (fun n i => if p i then n + f i else n) n = n + (l.map fun i => if p i then f i else 0).sum := by
  induction l generalizing n with
  | nil => rfl
  | cons i l ih =>
    rw [List.foldl_cons, ih, List.map_cons, List.sum_cons]
    split
    · rw [Nat.add_assoc]
    · rw [Nat.zero_add]

theorem Thread.live_eq (t : Thread) : t.live = liveBits t := by
  unfold Thread.live liveBits
  rw [foldl_add_if, Nat.zero_add]
  refine congrArg List.sum (List.map_congr_left fun i hi => ?_)
  have hi : i < 16 := List.mem_range.mp hi
  simp [List.getD_eq_getElem?_getD, hi, Nat.mod_eq_of_lt hi]

theorem coreid_eq (s : State) : csrValue s .coreid = csrRead s .coreid := by
  have hd : onFdie s.tid = decide (dieHere s.tid % 2 = 0) := by
    rw [onFdie, dieOf, sectionOf_eq]
    exact Bool.beq_eq_decide_eq _ _
  simp [csrValue, csrRead, hd, coreOf, word]

theorem tstat_eq (s : State) : csrValue s .tstat = csrRead s .tstat := by
  simp only [csrValue, csrRead, tstatWord, word, Thread.live_eq]
  rfl

/-- The low half of a reference. -/
theorem low_word (r : Ref) : r.setWidth 64 = word (r.toNat % 2 ^ 64) := by
  refine BitVec.eq_of_toNat_eq ?_
  rw [word, BitVec.toNat_setWidth, BitVec.toNat_ofNat, Nat.mod_mod]

/-- A CSR reads as its number. -/
theorem csrValue_eq (s : State) (n : Csr) : csrValue s n = csrRead s n := by
  cases n
  case hdom0 => exact hdomWord_eq s 0
  case hdom1 => exact hdomWord_eq s 1
  case hdom2 => exact hdomWord_eq s 2
  case hdom3 => exact hdomWord_eq s 3
  case lmsplit => exact word_setWidth _
  case smsplit => exact (word_setWidth _).trans (by rw [sectionOf_eq]; rfl)
  case cpsrc => exact low_word _
  case cpdst => exact low_word _
  case coreid => exact coreid_eq s
  case tstat => exact tstat_eq s
  all_goals rfl

/-! ### What a write leaves (R8, R75, R231) -/

theorem and_low_word (v : Word) {k : Nat} (m : Word) (hm : m.toNat = 2 ^ k - 1) :
    v &&& m = word (v.toNat % 2 ^ k) := by
  refine BitVec.eq_of_toNat_eq ?_
  have hlt : v.toNat % 2 ^ k < 2 ^ 64 := (Nat.mod_le _ _).trans_lt v.isLt
  rw [BitVec.toNat_and, hm, and_low, word, BitVec.toNat_ofNat, Nat.mod_eq_of_lt hlt]

theorem bits_low (v : Word) (k : Nat) : bits v 0 k = v.toNat % 2 ^ k := by simp [bits, field]

theorem setWidth_eq_ofNat (v : Word) (k : Nat) : v.setWidth k = BitVec.ofNat k v.toNat := (BitVec.ofNat_toNat k v).symm

/-- At user level a CSR keeps the bits that its fields have. -/
theorem csrUserWrite_eq (s : State) (n : Csr) (v : Word) : csrUserWrite s n v = withThread s (userWrite s.th n v.toNat) := by
  cases n
  case fcsr =>
    have h : v &&& 0x33F3F = word (v.toNat % 2 ^ 6 + v.toNat / 2 ^ 8 % 2 ^ 6 * 2 ^ 8 + v.toNat / 2 ^ 16 % 4 * 2 ^ 16) := by
      rw [← and_fcsr, ← and_eq_word]
      rfl
    simp only [csrUserWrite, userWrite, h]
    rfl
  case cplaunch =>
    simp only [csrUserWrite, userWrite, bits_low, setWidth_eq_ofNat, Nat.reducePow]
    split <;> rfl
  case cpsrc | cpdst => simp only [csrUserWrite, userWrite, lowHalf_eq]; rfl
  case cplen => simp only [csrUserWrite, userWrite, and_low_word v (k := 44) 0xFFFFFFFFFFF rfl]; rfl
  case cpstride | cpshape => simp only [csrUserWrite, userWrite, word_toNat]; rfl
  case cpmode => simp only [csrUserWrite, userWrite, and_low_word v (k := 11) 0x7FF rfl]; rfl
  all_goals rfl

theorem contextId_eq (s : State) : (match s.gang? with | some g => g.ctx | none => 0) = contextId s := by
  unfold contextId State.gang?
  cases s.gangs.get? s.th.gang <;> rfl

theorem ownContext_eq (s : State) (f : Context → Context) :
    s.ownContext f = { s with contexts := s.contexts.put (contextId s) (f (contextOf s s.th.gang)) } :=
  congrArg (fun i => s.setContext i (f (contextOf s s.th.gang))) (contextId_eq s)

/-- At privileged level the fault record, the context's table and keys, and the splits are written too. -/
theorem csrPrivilegedWrite_eq (s : State) (n : Csr) (v : Word) : csrPrivilegedWrite s n v = privilegedWrite s n v.toNat := by
  cases n
  case ortb => simp only [csrPrivilegedWrite, privilegedWrite, ownContext_eq, ortbWrite_eq]
  case keysel =>
    simp only [csrPrivilegedWrite, privilegedWrite, ownContext_eq, and_low_word v (k := 17) 0x1FFFF rfl]
  case lmsplit => simp only [csrPrivilegedWrite, privilegedWrite, setWidth_eq_ofNat]; rfl
  case smsplit =>
    simp only [csrPrivilegedWrite, privilegedWrite, bits_low, setWidth_eq_ofNat, sectionOf_eq]
    split <;> rfl
  case vpool =>
    have h : bitAt v 0 = decide (v.toNat % 2 = 1) := by simp [bitAt]
    simp only [csrPrivilegedWrite, privilegedWrite, h]
    rfl
  case fcause => simp only [csrPrivilegedWrite, privilegedWrite, and_low_word v (k := 9) 0x1FF rfl]; rfl
  case fstep => simp only [csrPrivilegedWrite, privilegedWrite, and_low_word v (k := 16) 0xFFFF rfl]; rfl
  case faddr | finfo => simp only [csrPrivilegedWrite, privilegedWrite, word_toNat]; rfl
  case epc =>
    have h : v &&& 0xFFFFFFFFFFC = word (v.toNat % 2 ^ 44 / 4 * 4) := by
      rw [← and_epc, ← and_eq_word]
      rfl
    simp only [csrPrivilegedWrite, privilegedWrite, h]
    rfl
  all_goals simp only [csrPrivilegedWrite, privilegedWrite, csrUserWrite_eq]

theorem csrWrite_eq (s : State) (n : Csr) (v : Word) : csrWrite s n v = csrWritten s n v.toNat := by
  unfold csrWrite csrWritten
  split
  · exact csrPrivilegedWrite_eq s n v
  · exact csrUserWrite_eq s n v

/-! ### The instructions (R231) -/

/-- A CSR instruction with the right to the CSR. -/
theorem csrOp_ok {s : State} {a : Rx} {n : Csr} {new : Word → Word → Option Word} {w : Option Nat} (d : Rx)
    (hl : s.th.privileged = true ∨ (n ≠ .ortb ∧ n ≠ .keysel)) (ha : ReadableX s.th a)
    (hw : (new (csrRead s n) (s.th.rx a)).map BitVec.toNat = w) :
    csrOp new d a n s = .next (answered (w.elim s (csrWritten s n)) d (csrRead s n)) := by
  have hp : (s.th.privileged || !Csr.privileged n) = true := by
    rcases hl with h | ⟨h, h'⟩
    · simp [h]
    · cases n <;> simp_all [Csr.privileged]
  subst hw
  simp only [csrOp, hp, require, if_true, useX_ok ha, csrValue_eq, bind, Except.bind, csrWrite_eq]
  cases new (csrRead s n) (s.th.rx a) <;> rfl

/-- A CSR instruction without the right to the CSR (R231). -/
theorem csrOp_privilege {s : State} {n : Csr} (new : Word → Word → Option Word) (d a : Rx) (hp : s.th.privileged = false)
    (hn : n = .ortb ∨ n = .keysel) (hc : CanHold s 1) : csrOp new d a n s = .next (faulted s 0x04 0 0 0 none) := by
  have h : (s.th.privileged || !Csr.privileged n) = false := by
    rcases hn with rfl | rfl <;> simp [hp, Csr.privileged]
  simp only [csrOp, h]
  exact finish_trapOf hc 0x04 0 0

/-- The instructions, as the operation that they share. -/
theorem exec_csrForm {i : Instr} {s : State} {d a : Rx} {n : Csr} {w : Option Nat}
    (h : csrForm s.th (csrRead s n).toNat i = some (d, a, n, w)) :
    ∃ new, exec i s = csrOp new d a n s ∧ (new (csrRead s n) (s.th.rx a)).map BitVec.toNat = w := by
  unfold csrForm at h
  split at h <;> simp only [Option.some.injEq, Prod.mk.injEq, reduceCtorEq] at h <;> obtain ⟨rfl, rfl, rfl, rfl⟩ := h
  · exact ⟨fun _ _ => none, rfl, rfl⟩
  · exact ⟨fun _ x => some x, rfl, congrArg some (Thread.rx_toNat ..)⟩
  · refine ⟨fun old x => if _ = 0 then none else some (old ||| x), rfl, ?_⟩
    split
    · rfl
    · rw [Option.map_some, BitVec.toNat_or, Thread.rx_toNat]
  · refine ⟨fun old x => if _ = 0 then none else some (old &&& ~~~x), rfl, ?_⟩
    split
    · rfl
    · rw [Option.map_some, BitVec.toNat_and, BitVec.toNat_not, Thread.rx_toNat]

end Sys2Proof.Machine

namespace Sys2Proof.Proofs
open Sys2Proof.Machine Sys2Proof.Safety Sys2Proof.Claims

/-- Settles O45, by what a CSR reads as and what a write leaves in it. -/
theorem csrInstructions : Obligations.CsrInstructions := by
  intro i s d a n w h
  obtain ⟨new, he, hw⟩ := exec_csrForm h
  refine ⟨fun hl ha => ?_, fun hp hn hc => he.trans (csrOp_privilege new d a hp hn hc)⟩
  rw [he, csrOp_ok d hl ha hw]
  cases w <;> rfl

end Sys2Proof.Proofs
end

section
/-! SUPPORT. Where a scalar access lands in the spaces that are not global, and its faults there (03 R66, R70, R71; 07 R189;
10 R267; 15 R349). -/

namespace Sys2Proof.Machine
open Sys2Proof.Safety Sys2Proof.Claims

/-! ### The address (R189) -/

theorem toInt_eq_sgn {w : Nat} (v : BitVec w) (h : 0 < w) : v.toInt = sgn w v.toNat := by
  obtain ⟨k, rfl⟩ : ∃ k, w = k + 1 := ⟨w - 1, by omega⟩
  have hk : 2 * v.toNat < 2 ^ (k + 1) ↔ v.toNat < 2 ^ (k + 1 - 1) := by
    rw [Nat.add_sub_cancel, Nat.pow_succ]
    omega
  rw [BitVec.toInt_eq_toNat_cond, sgn]
  simp only [hk]
  norm_cast

theorem scalarAddr_eq (t : Thread) (r : Ra) (x : Rx) (m : BitVec 7) (n : Nat) :
    scalarAddr t.a[r] (t.rx x) m n = scalarOff t r x m n := by
  rw [scalarAddr, scalarOff, rx_toInt, toInt_eq_sgn m (by decide)]
  rfl

/-- The access of a load or a store (R314 check 4). -/
def accessOf (st : Bool) : Acc := if st then .store else .load

theorem checkRef_wellFormed {r : Ref} (h : WellFormedRef r) : checkRef r false = .ok () := by
  rw [checkRef, refFault_none.mpr h]

/-- An access in the range of addresses, aligned, is looked up (R189). -/
theorem accessUnit_locate {s : State} {w : Who} {o : Opened} {r : Ref} {a n : Nat} {acc : Acc} (ha : a + n ≤ 2 ^ 44)
    (hal : a % n = 0) (fi : Word) :
    accessUnit s w o r a n n acc fi = locate s w o r a n acc (BitVec.ofInt 64 a) fi := by
  have hr : (decide ((0 : Int) ≤ (a : Int)) && decide ((a : Int) + (n : Int) ≤ 2 ^ 44)) = true := by
    simp only [Bool.and_eq_true, decide_eq_true_eq]
    omega
  unfold accessUnit
  simp only [hr, aligned_cast hal, require_true, bind, Except.bind, Int.toNat_natCast]

theorem accessUnit_range {s : State} {w : Who} {o : Opened} {r : Ref} {a : Int} {n : Nat} (h : a < 0 ∨ 2 ^ 44 < a + n)
    (align : Nat) (acc : Acc) (fi : Word) :
    accessUnit s w o r a n align acc fi = trapOf 0x06 (BitVec.ofInt 64 a) fi := by
  have hr : (decide (0 ≤ a) && decide (a + n ≤ 2 ^ 44)) = false := by
    rw [← Bool.not_eq_true, Bool.and_eq_true, decide_eq_true_eq, decide_eq_true_eq]
    omega
  unfold accessUnit
  rw [hr]
  rfl

theorem accessUnit_alignment {s : State} {w : Who} {o : Opened} {r : Ref} {a : Int} {n align : Nat} (h : 0 ≤ a)
    (h' : a + n ≤ 2 ^ 44) (hal : a % align ≠ 0) (acc : Acc) (fi : Word) :
    accessUnit s w o r a n align acc fi = trapOf 0x05 (BitVec.ofInt 64 a) fi := by
  have hr : (decide (0 ≤ a) && decide (a + n ≤ 2 ^ 44)) = true := by
    rw [Bool.and_eq_true, decide_eq_true_eq, decide_eq_true_eq]
    exact ⟨h, h'⟩
  have hm : (a % (align : Int) == 0) = false := beq_false_of_ne hal
  unfold accessUnit
  rw [hr, hm]
  rfl

/-- After the reference check a scalar access is one access unit (R189). -/
theorem scalarLocs_eq {s : State} {r : Ref} (h : WellFormedRef r) (x : Word) (m : BitVec 7) (n : Nat) (acc : Acc) :
    scalarLocs s r x m n acc =
      (accessUnit s (whoTh s) (openRef s (whoTh s) r acc) r (scalarAddr r x m n) n n acc 0).map
        fun ls => (openRef s (whoTh s) r acc, ls) := by
  unfold scalarLocs
  rw [checkRef_wellFormed h]
  rfl

/-- A scalar access at an exact address in range is looked up there. -/
theorem scalarLocs_locate {s : State} {r : Ra} {x : Rx} {m : BitVec 7} {n a : Nat} (h : WellFormedRef s.th.a[r])
    (ha : scalarOff s.th r x m n = a) (h44 : a + n ≤ 2 ^ 44) (hal : a % n = 0) (acc : Acc) :
    scalarLocs s s.th.a[r] (s.th.rx x) m n acc =
      (locate s (whoTh s) (openRef s (whoTh s) s.th.a[r] acc) s.th.a[r] a n acc (BitVec.ofInt 64 a) 0).map
        fun ls => (openRef s (whoTh s) s.th.a[r] acc, ls) := by
  rw [scalarLocs_eq h, scalarAddr_eq, ha, accessUnit_locate h44 hal]

/-! ### Lines without a marker (R326, R329, R377) -/

theorem forwardLoc_eq {s : State} {l : Loc} (h : ∀ e ∈ s.forwards, e.1 ≠ l.key / 256) : forwardLoc s l = l := by
  have hf : s.forwards.find? (fun e => e.1 == l.key / 256) = none :=
    List.find?_eq_none.mpr fun e he hk => h e he (beq_iff_eq.mp hk)
  unfold forwardLoc
  rw [hf]

theorem marked_of_clean {s : State} {l : Loc} (h : Clean s l.key 1) : marked s l = false := by
  obtain ⟨hp, hf, -⟩ := h 0 (by decide)
  rw [marked, forwardLoc_eq hf]
  simpa using hp

theorem marked_of_marked {s : State} {l : Loc} (h : Marked s l.key) : marked s l = true := by
  obtain ⟨hp, hf, -⟩ := h
  rw [marked, forwardLoc_eq hf]
  simpa using hp

/-- Of the places of an access only its own are the first of a line. -/
theorem mem_firstsBy {n : Nat} {ls : List Loc} {l : Loc} (h : l ∈ firstsBy n ls) : l ∈ ls := by
  have hf : ∀ (ls acc : List Loc), l ∈ ls.foldl (fun acc l => if acc.any fun k => k.key / n == l.key / n then acc else acc ++ [l]) acc →
      l ∈ acc ∨ l ∈ ls := by
    intro ls
    induction ls with
    | nil => exact fun _ h => .inl h
    | cons k ls ih =>
      intro acc h
      rcases ih _ h with h | h
      · dsimp only at h
        split at h
        · exact .inl h
        · rcases List.mem_append.mp h with h | h
          · exact .inl h
          · exact .inr (List.mem_cons.mpr (.inl (List.mem_singleton.mp h)))
      · exact .inr (List.mem_cons_of_mem _ h)
  exact (hf ls [] h).resolve_left List.not_mem_nil

/-- Lines that are not moved and hold no error are not read again. -/
theorem weakLines_eq_nil {s : State} {ls : List Loc}
    (h : ∀ l ∈ ls, (∀ e ∈ s.forwards, e.1 ≠ l.key / 256) ∧ ∀ e ∈ s.weak, e.1 ≠ l.key / 256) : weakLines s ls = [] := by
  unfold weakLines
  split
  · rfl
  · refine List.filter_eq_nil_iff.mpr fun l hl => ?_
    obtain ⟨k, hk, rfl⟩ := List.mem_map.mp (mem_firstsBy hl)
    obtain ⟨hf, hw⟩ := h k hk
    rw [forwardLoc_eq hf]
    rw [List.any_eq_true]
    exact fun ⟨e, he, hk⟩ => hw e he (beq_iff_eq.mp hk)

/-! ### The spaces (R66, R71, R267, R349) -/

theorem whoTh_gang (s : State) : (whoTh s).gang = s.th.gang := by rw [whoTh, whoIs, State.thread_self]
theorem whoTh_sec (s : State) : (whoTh s).sec = sectHere s.tid := sectionOf_eq s.tid

theorem openRef_space {r : Ref} (h : spaceOf r ≠ 0) (s : State) (w : Who) (acc : Acc) : openRef s w r acc = .space := by
  have hp : openPlain s w r acc = .space := if_pos h
  rw [openRef, hp]

/-- A core's place in the gang and section of a thread (R71). -/
theorem reachable_iff {s : State} {c : Nat} : Reachable s c ↔ (sectionOfCore c == (whoTh s).sec
    && (match s.gangs.get? (whoTh s).gang with | some g => g.cores.contains c | none => false)) = true := by
  rw [whoTh_gang, whoTh_sec, Reachable, Bool.and_eq_true, beq_iff_eq]
  refine and_congr Iff.rfl ?_
  cases s.gangs.get? s.th.gang <;> simp

/-- Bytes of a space that a gang's thread reaches, other than space 4 (R71). -/
def extentOf (s : State) (sp : Nat) : Nat :=
  match sp with
  | 1 => localBytes s
  | 2 => 2 ^ 21
  | 3 => allotment s s.th.gang (sectHere s.tid)
  | _ => 2048

/-- The checks of a space by a gang's thread: its extent, and what no store may change. -/
theorem spaceFault_user {s : State} {sp : Nat} (hs : s.tid < 4096) (hsp : sp = 1 ∨ sp = 2 ∨ sp = 3 ∨ sp = 5) (a n : Nat) (st : Bool) :
    spaceFault s (whoTh s) sp a n (accessOf st) = if extentOf s sp < a + n then some 0x06
      else if st = true ∧ (sp = 5 ∨ sp = 1 ∧ a < 2048) then some 0x09 else none := by
  have ho : ((whoTh s).tid.all fun t => !isService t) = true := by simpa [whoTh, whoIs, isService] using hs
  have hst : (accessOf st == .store || accessOf st == .atomic) = st := by cases st <;> rfl
  unfold spaceFault
  simp only [ho, hst, Bool.true_or, Bool.true_and, Bool.not_eq_true', decide_eq_false_iff_not, Nat.not_le, Bool.and_eq_true,
    Bool.or_eq_true, beq_iff_eq, decide_eq_true_eq]
  rcases hsp with rfl | rfl | rfl | rfl
  · simp only [Nat.reduceEqDiff, false_and, if_false, true_and, false_or, or_false]
    rfl
  · simp only [Nat.reduceEqDiff, false_and, and_false, if_false, or_false]
    rfl
  · simp only [Nat.reduceEqDiff, false_and, and_false, if_false, or_false]
    rw [whoTh_gang, whoTh_sec]
    rfl
  · simp only [Nat.reduceEqDiff, false_and, if_false, or_false]
    rfl

/-- The checks of space 4: the core, then its extent and its window (R66, R71). -/
theorem spaceFault_other_core {s : State} {a : Nat} (h : 2048 ≤ a / 2 ^ 32) (n : Nat) (acc : Acc) :
    spaceFault s (whoTh s) 4 a n acc = some 0x06 := if_pos ⟨rfl, h⟩

theorem spaceFault_other_gang {s : State} {a : Nat} (h : a / 2 ^ 32 < 2048) (hr : ¬Reachable s (a / 2 ^ 32)) (n : Nat) (acc : Acc) :
    spaceFault s (whoTh s) 4 a n acc = some 0x09 := by
  refine (if_neg fun h' => Nat.not_le.mpr h h'.2).trans (if_pos ⟨rfl, ?_⟩)
  rw [reachable_iff, Bool.not_eq_true] at hr
  rw [Bool.not_eq_true']
  exact hr

theorem spaceFault_other {s : State} {a : Nat} (h : a / 2 ^ 32 < 2048) (hr : Reachable s (a / 2 ^ 32)) (n : Nat) (st : Bool) :
    spaceFault s (whoTh s) 4 a n (accessOf st) = if localBytesOf s (a / 2 ^ 32) < a % 2 ^ 32 + n then some 0x06
      else if st = true ∧ a % 2 ^ 32 < 2048 then some 0x09 else none := by
  have hst : (accessOf st == .store || accessOf st == .atomic) = st := by cases st <;> rfl
  rw [reachable_iff] at hr
  refine (if_neg fun h' => Nat.not_le.mpr h h'.2).trans ((if_neg fun h' => ?_).trans ?_)
  · exact absurd hr (Bool.not_eq_true _ ▸ Bool.not_eq_true' _ ▸ h'.2)
  · simp only [hst, if_true, beq_self_eq_true, Bool.or_true, Bool.true_and, Nat.reduceBEq, Bool.false_or, Bool.not_eq_true',
      decide_eq_false_iff_not, Nat.not_le, Bool.and_eq_true, decide_eq_true_eq]
    rfl

/-! ### The bytes of a space (R22, R71, R349) -/

/-- Where a byte of a space lies. -/
def spaceKey (s : State) (sp a : Nat) : Nat :=
  match sp with
  | 2 => quadBase (s.tid / 8) + a
  | 3 => sramKey s s.th.gang (sectHere s.tid) a
  | 4 => localBase (a / 2 ^ 32) + a % 2 ^ 32
  | _ => localBase (s.tid / 2) + a

/-- The bytes of an access unit there. -/
def spaceLocs (s : State) (sp a n : Nat) : List Loc :=
  (List.range n).map fun i => { key := spaceKey s sp a + i, crypt := none, dmg := false, space := sp, obj := 0, off := a + i }

theorem spaceLocs_keys (s : State) (sp a n : Nat) : (spaceLocs s sp a n).map (·.key) = (List.range n).map fun i => spaceKey s sp a + i := by
  rw [spaceLocs, List.map_map]
  rfl

theorem locateSpace_fault {s : State} {w : Who} {sp a n c : Nat} {acc : Acc} (h : spaceFault s w sp a n acc = some c) (fa fi : Word) :
    locateSpace s w sp a n acc fa fi = trapOf c fa fi := by
  unfold locateSpace
  rw [h]

theorem quadOfCore_eq (s : State) : quadOfCore (whoTh s).core = s.tid / 8 := Nat.div_div_eq_div_mul s.tid 2 4

/-- After the checks of R71 a load meets storage errors and markers. -/
theorem locateSpace_none {s : State} {sp a n : Nat} {st : Bool} (h : spaceFault s (whoTh s) sp a n (accessOf st) = none) (fa fi : Word) :
    locateSpace s (whoTh s) sp a n (accessOf st) fa fi =
      if st = false ∧ weakLines s (spaceLocs s sp a n) ≠ [] then .error (.reread (weakLines s (spaceLocs s sp a n)))
      else if st = false ∧ (spaceLocs s sp a n).any (marked s) = true then trapOf 0x0B fa fi
      else .ok (spaceLocs s sp a n) := by
  unfold locateSpace
  rw [h, quadOfCore_eq, whoTh_gang, whoTh_sec]
  cases st
  · show (if (!(weakLines s (spaceLocs s sp a n)).isEmpty) = true then _
      else if (spaceLocs s sp a n).any (marked s) = true then _ else _) = _
    simp only [Bool.not_eq_true', List.isEmpty_eq_false_iff, true_and]
    rfl
  · rfl

/-- In lines without a marker a space's bytes are found. -/
theorem locateSpace_clean {s : State} {sp a n : Nat} {st : Bool} (h : spaceFault s (whoTh s) sp a n (accessOf st) = none)
    (hc : Clean s (spaceKey s sp a) n) (fa fi : Word) : locateSpace s (whoTh s) sp a n (accessOf st) fa fi = .ok (spaceLocs s sp a n) := by
  have hl : ∀ l ∈ spaceLocs s sp a n, Clean s l.key 1 := by
    intro l hl
    obtain ⟨i, hi, rfl⟩ := List.mem_map.mp hl
    intro j hj
    obtain rfl : j = 0 := by omega
    exact hc i (List.mem_range.mp hi)
  have hw : weakLines s (spaceLocs s sp a n) = [] := weakLines_eq_nil fun l h => (hl l h 0 (by decide)).2
  have hm : (spaceLocs s sp a n).any (marked s) = false := List.any_eq_false.mpr fun l h => by simp [marked_of_clean (hl l h)]
  rw [locateSpace_none h, hw, hm, if_neg (by simp), if_neg (by simp)]

/-- A load meets the marker of the line that its bytes lie in (R330). -/
theorem locateSpace_marked {s : State} {sp a n : Nat} (h : spaceFault s (whoTh s) sp a n .load = none) (hn : 0 < n)
    (hl : ∀ i, i < n → (spaceKey s sp a + i) / 256 = spaceKey s sp a / 256) (hm : Marked s (spaceKey s sp a)) (fa fi : Word) :
    locateSpace s (whoTh s) sp a n .load fa fi = trapOf 0x0B fa fi := by
  have hk : ∀ l ∈ spaceLocs s sp a n, l.key / 256 = spaceKey s sp a / 256 := by
    intro l hl'
    obtain ⟨i, hi, rfl⟩ := List.mem_map.mp hl'
    exact hl i (List.mem_range.mp hi)
  have hw : weakLines s (spaceLocs s sp a n) = [] := weakLines_eq_nil fun l h => by rw [hk l h]; exact hm.2
  have hany : (spaceLocs s sp a n).any (marked s) = true :=
    List.any_eq_true.mpr ⟨_, List.mem_map.mpr ⟨0, List.mem_range.mpr hn, rfl⟩, marked_of_marked hm⟩
  have := locateSpace_none (st := false) h fa fi
  rw [hw, hany, if_neg (by simp), if_pos ⟨rfl, rfl⟩] at this
  exact this

/-- A size of a scalar access (R188). -/
def ScalarSize (n : Nat) : Prop := n = 1 ∨ n = 2 ∨ n = 4 ∨ n = 8 ∨ n = 16

theorem ScalarSize.pos {n : Nat} (h : ScalarSize n) : 0 < n := by
  rcases h with rfl | rfl | rfl | rfl | rfl <;> decide

/-- A naturally aligned access lies in one line. -/
theorem line_of_aligned {k n : Nat} (hn : ScalarSize n) (hk : k % n = 0) {i : Nat} (hi : i < n) : (k + i) / 256 = k / 256 := by
  rcases hn with rfl | rfl | rfl | rfl | rfl <;> omega

theorem aligned_add {b a n : Nat} (hn : ScalarSize n) (hb : b % 16 = 0) (ha : a % n = 0) : (b + a) % n = 0 := by
  rcases hn with rfl | rfl | rfl | rfl | rfl <;> omega

/-! ### Section memory (R71, R349) -/

/-- The quads of a gang in a section of the package. -/
theorem quadsIn_eq (g : Gang) {sec : Nat} (h : sec < 64) : g.quadsIn sec = quadsHere g sec := by
  have hr : (List.range 512).filter (fun q => q / 8 == sec) = (List.range 8).map (8 * sec + ·) := by
    have hsplit : 512 = 8 * sec + (8 + (504 - 8 * sec)) := by omega
    rw [hsplit, List.range_add, List.range_add, List.filter_append, List.map_append, List.filter_append]
    have h1 : (List.range (8 * sec)).filter (fun q => q / 8 == sec) = [] :=
      List.filter_eq_nil_iff.mpr fun q hq => by
        have := List.mem_range.mp hq
        simp only [beq_iff_eq]
        omega
    have h2 : ((List.range 8).map (8 * sec + ·)).filter (fun q => q / 8 == sec) = (List.range 8).map (8 * sec + ·) :=
      List.filter_eq_self.mpr fun q hq => by
        obtain ⟨i, hi, rfl⟩ := List.mem_map.mp hq
        have := List.mem_range.mp hi
        simp only [beq_iff_eq]
        omega
    have h3 : (((List.range (504 - 8 * sec)).map (8 + ·)).map (8 * sec + ·)).filter (fun q => q / 8 == sec) = [] :=
      List.filter_eq_nil_iff.mpr fun q hq => by
        obtain ⟨i, hi, rfl⟩ := List.mem_map.mp hq
        obtain ⟨j, -, rfl⟩ := List.mem_map.mp hi
        simp only [beq_iff_eq]
        omega
    rw [h1, h2, h3, List.nil_append, List.append_nil]
  have hm : g.quadsIn sec = ((List.range 8).map (8 * sec + ·)).filter fun q => g.cores.any fun c => c / 4 == q := by
    rw [← List.filterMap_eq_filter, List.filterMap_map]
    refine List.filterMap_congr fun i _ => ?_
    simp only [Function.comp_apply, Option.guard, quadOfCore]
    rfl
  rw [hm, quadsHere, ← hr, List.filter_filter]
  exact List.filter_congr fun q _ => Bool.and_comm _ _

theorem allotment_eq {s : State} {g : Gang} (hs : s.tid < 4096) (hg : s.gangs.get? s.th.gang = some g) :
    allotment s s.th.gang (sectHere s.tid) = allotted s g (sectHere s.tid) := by
  have hsec : sectHere s.tid < 64 := by
    rw [sectHere, if_neg (by omega)]
    omega
  unfold allotment allotted
  rw [hg]
  dsimp only
  simp only [quadsIn_eq g hsec, List.isEmpty_iff]
  rfl

theorem sramHere_eq (s : State) (sec : Nat) : ∃ z, sramHere s sec / 8 = 2 ^ 17 * z ∧ sramHere s sec ≤ 2 ^ 22 := by
  refine ⟨4 - (s.sect sec).smsplit.toNat, ?_, Nat.sub_le _ _⟩
  rw [sramHere]
  omega

theorem length_quadsHere (g : Gang) (sec : Nat) : (quadsHere g sec).length ≤ 512 :=
  (List.length_filter_le _ _).trans_eq List.length_range

/-- Bytes of section memory have addresses far below the bound of R189. -/
theorem allotted_le (s : State) (g : Gang) (sec : Nat) : allotted s g sec ≤ 2 ^ 28 := by
  have hq := length_quadsHere g sec
  obtain ⟨-, -, hs⟩ := sramHere_eq s sec
  unfold allotted
  split_ifs
  · exact Nat.zero_le _
  · calc (quadsHere g sec).length * (sramHere s sec / 8) ≤ 512 * 2 ^ 19 := Nat.mul_le_mul hq (by omega)
      _ = 2 ^ 28 := by norm_num
  · omega

/-- The bytes of an aligned access lie in one share, one after the other. -/
theorem share_of_aligned {z a n i : Nat} (hn : ScalarSize n) (ha : a % n = 0) (hi : i < n) :
    (a + i) / (2 ^ 17 * z) = a / (2 ^ 17 * z) ∧ (a + i) % (2 ^ 17 * z) = a % (2 ^ 17 * z) + i := by
  have hd : (a + i) / 2 ^ 17 = a / 2 ^ 17 ∧ (a + i) % 2 ^ 17 = a % 2 ^ 17 + i := by
    rcases hn with rfl | rfl | rfl | rfl | rfl <;> omega
  obtain ⟨hq, hr⟩ := hd
  refine ⟨by rw [← Nat.div_div_eq_div_mul, hq, Nat.div_div_eq_div_mul], ?_⟩
  rw [Nat.mod_mul, Nat.mod_mul, hq, hr, Nat.add_right_comm]

/-- Where the bytes of an aligned access of section memory lie. -/
theorem sramKey_add {s : State} {g : Gang} {a n i : Nat} (hs : s.tid < 4096) (hg : s.gangs.get? s.th.gang = some g)
    (hn : ScalarSize n) (ha : a % n = 0) (hi : i < n) :
    sramKey s s.th.gang (sectHere s.tid) a + i = allottedKey s g (sectHere s.tid) (a + i) := by
  have hsec : sectHere s.tid < 64 := by
    rw [sectHere, if_neg (by omega)]
    omega
  obtain ⟨z, hz, -⟩ := sramHere_eq s (sectHere s.tid)
  have hz' : sramBytes s (sectHere s.tid) / 8 = 2 ^ 17 * z := hz
  obtain ⟨hq, hr⟩ := share_of_aligned (z := z) hn ha hi
  unfold sramKey allottedKey
  rw [hg]
  dsimp only
  rw [quadsIn_eq g hsec, hz, hz', hq, hr]
  split_ifs <;> omega

theorem sramKey_eq {s : State} {g : Gang} {a n : Nat} (hs : s.tid < 4096) (hg : s.gangs.get? s.th.gang = some g)
    (hn : ScalarSize n) (ha : a % n = 0) : sramKey s s.th.gang (sectHere s.tid) a = allottedKey s g (sectHere s.tid) a :=
  sramKey_add hs hg hn ha hn.pos

/-- The first byte of an aligned access of section memory is aligned. -/
theorem allottedKey_aligned {s : State} {g : Gang} {sec a n : Nat} (hn : ScalarSize n) (ha : a % n = 0) :
    allottedKey s g sec a % n = 0 := by
  obtain ⟨z, hz, -⟩ := sramHere_eq s sec
  have hshare : ∀ y, (y * (2 ^ 17 * z) + a % (2 ^ 17 * z)) % n = 0 := by
    intro y
    have hy : y * (2 ^ 17 * z) + a % (2 ^ 17 * z) = 2 ^ 17 * (y * z + a / 2 ^ 17 % z) + a % 2 ^ 17 := by
      rw [Nat.mod_mul]
      ring
    rw [hy]
    generalize y * z + a / 2 ^ 17 % z = w
    rcases hn with rfl | rfl | rfl | rfl | rfl <;> omega
  refine aligned_add hn (b := sectionBase sec) (by unfold sectionBase; omega) ?_
  rw [hz]
  split
  · exact hshare _
  · exact ha

/-! ### The access in each space -/

theorem scalarLocs_space {s : State} {r : Ra} {x : Rx} {m : BitVec 7} {n a : Nat} (h : WellFormedRef s.th.a[r])
    (hsp : spaceOf s.th.a[r] ≠ 0) (ha : scalarOff s.th r x m n = a) (h44 : a + n ≤ 2 ^ 44) (hal : a % n = 0) (acc : Acc) :
    scalarLocs s s.th.a[r] (s.th.rx x) m n acc =
      (locateSpace s (whoTh s) (spaceOf s.th.a[r]) a n acc (BitVec.ofInt 64 a) 0).map fun ls => (.space, ls) := by
  rw [scalarLocs_locate h ha h44 hal, openRef_space hsp]
  rfl

/-- A scalar access that passes its space's checks, in lines without a marker, reaches the bytes there. -/
theorem scalarLocs_spaceLocs {s : State} {r : Ra} {x : Rx} {m : BitVec 7} {n a : Nat} {st : Bool} (h : WellFormedRef s.th.a[r])
    (hsp : spaceOf s.th.a[r] ≠ 0) (ha : scalarOff s.th r x m n = a) (h44 : a + n ≤ 2 ^ 44) (hal : a % n = 0)
    (hf : spaceFault s (whoTh s) (spaceOf s.th.a[r]) a n (accessOf st) = none) (hc : Clean s (spaceKey s (spaceOf s.th.a[r]) a) n) :
    ∃ o ls, scalarLocs s s.th.a[r] (s.th.rx x) m n (accessOf st) = .ok (o, ls) ∧ o.sideEffect = false
      ∧ ls.map (·.key) = (List.range n).map fun i => spaceKey s (spaceOf s.th.a[r]) a + i := by
  refine ⟨.space, spaceLocs s (spaceOf s.th.a[r]) a n, ?_, rfl, spaceLocs_keys s _ a n⟩
  rw [scalarLocs_space h hsp ha h44 hal, locateSpace_clean hf hc]
  rfl

theorem nearBytes_le (s : State) (sp : Nat) : nearBytes s sp ≤ 2 ^ 21 := by
  unfold nearBytes localBytes
  split <;> omega

theorem spaceKey_near {s : State} {sp : Nat} (h : sp = 1 ∨ sp = 2) (a : Nat) : spaceKey s sp a = nearKey s sp a := by
  rcases h with rfl | rfl <;> rfl

theorem extentOf_near {s : State} {sp : Nat} (h : sp = 1 ∨ sp = 2) : extentOf s sp = nearBytes s sp := by
  rcases h with rfl | rfl <;> rfl

theorem localBytesOf_le (s : State) (c : Nat) : localBytesOf s c ≤ 2 ^ 18 := Nat.sub_le _ _

/-- O20 in spaces 1 and 2. -/
theorem scalarLocs_near {s : State} {r : Ra} {x : Rx} {m : BitVec 7} {n a : Nat} {st : Bool} (hs : s.tid < 4096)
    (h : WellFormedRef s.th.a[r]) (hsp : spaceOf s.th.a[r] = 1 ∨ spaceOf s.th.a[r] = 2) (ha : scalarOff s.th r x m n = a)
    (hal : a % n = 0) (he : a + n ≤ nearBytes s (spaceOf s.th.a[r])) (hw : st = true → spaceOf s.th.a[r] = 1 → 2048 ≤ a)
    (hc : Clean s (nearKey s (spaceOf s.th.a[r]) a) n) :
    ∃ o ls, scalarLocs s s.th.a[r] (s.th.rx x) m n (accessOf st) = .ok (o, ls) ∧ o.sideEffect = false
      ∧ ls.map (·.key) = (List.range n).map fun i => nearKey s (spaceOf s.th.a[r]) a + i := by
  have hle := nearBytes_le s (spaceOf s.th.a[r])
  rw [← spaceKey_near hsp] at hc ⊢
  refine scalarLocs_spaceLocs h (by omega) ha (by omega) hal ?_ hc
  rw [spaceFault_user hs (hsp.imp_right .inl), extentOf_near hsp, if_neg (by omega), if_neg]
  rintro ⟨hst, h5 | ⟨h1, h2⟩⟩
  · omega
  · exact absurd (hw hst h1) (by omega)

/-- O20 in space 3. -/
theorem scalarLocs_section {s : State} {g : Gang} {r : Ra} {x : Rx} {m : BitVec 7} {n a : Nat} {st : Bool} (hs : s.tid < 4096)
    (hg : s.gangs.get? s.th.gang = some g) (h : WellFormedRef s.th.a[r]) (hsp : spaceOf s.th.a[r] = 3) (hn : ScalarSize n)
    (ha : scalarOff s.th r x m n = a) (hal : a % n = 0) (he : a + n ≤ allotted s g (sectHere s.tid))
    (hc : Clean s (allottedKey s g (sectHere s.tid) a) n) :
    ∃ o ls, scalarLocs s s.th.a[r] (s.th.rx x) m n (accessOf st) = .ok (o, ls) ∧ o.sideEffect = false
      ∧ ls.map (·.key) = (List.range n).map fun i => allottedKey s g (sectHere s.tid) (a + i) := by
  have hle := allotted_le s g (sectHere s.tid)
  have hkey : spaceKey s 3 a = allottedKey s g (sectHere s.tid) a := sramKey_eq hs hg hn hal
  have hf : spaceFault s (whoTh s) 3 a n (accessOf st) = none := by
    rw [spaceFault_user hs (by decide), if_neg, if_neg (by simp)]
    exact Nat.not_lt.mpr (he.trans_eq (allotment_eq hs hg).symm)
  obtain ⟨o, ls, hl, hse, hk⟩ := scalarLocs_spaceLocs h (by omega) ha (by omega) hal (hsp ▸ hf) (by rw [hsp, hkey]; exact hc)
  refine ⟨o, ls, hl, hse, hk.trans (List.map_congr_left fun i hi => ?_)⟩
  rw [hsp]
  exact sramKey_add hs hg hn hal (List.mem_range.mp hi)

/-- O20 in space 4. -/
theorem scalarLocs_other {s : State} {r : Ra} {x : Rx} {m : BitVec 7} {n a : Nat} {st : Bool} (h : WellFormedRef s.th.a[r])
    (hsp : spaceOf s.th.a[r] = 4) (ha : scalarOff s.th r x m n = a) (hal : a % n = 0) (hc : a / 2 ^ 32 < 2048)
    (hr : Reachable s (a / 2 ^ 32)) (he : a % 2 ^ 32 + n ≤ localBytesOf s (a / 2 ^ 32)) (hw : st = true → 2048 ≤ a % 2 ^ 32)
    (hcl : Clean s (localBase (a / 2 ^ 32) + a % 2 ^ 32) n) :
    ∃ o ls, scalarLocs s s.th.a[r] (s.th.rx x) m n (accessOf st) = .ok (o, ls) ∧ o.sideEffect = false
      ∧ ls.map (·.key) = (List.range n).map fun i => localBase (a / 2 ^ 32) + a % 2 ^ 32 + i := by
  have hle := localBytesOf_le s (a / 2 ^ 32)
  have hf : spaceFault s (whoTh s) 4 a n (accessOf st) = none := by
    rw [spaceFault_other hc hr, if_neg (by omega), if_neg fun hst => Nat.not_lt.mpr (hw hst.1) hst.2]
  have := scalarLocs_spaceLocs h (by omega) ha (by omega) hal (hsp ▸ hf) (by rw [hsp]; exact hcl)
  rw [hsp] at this
  exact this

/-- O20 in space 5. -/
theorem scalarLocs_window {s : State} {r : Ra} {x : Rx} {m : BitVec 7} {n a : Nat} (hs : s.tid < 4096) (h : WellFormedRef s.th.a[r])
    (hsp : spaceOf s.th.a[r] = 5) (ha : scalarOff s.th r x m n = a) (hal : a % n = 0) (he : a + n ≤ 2048)
    (hcl : Clean s (localBase (s.tid / 2) + a) n) :
    ∃ o ls, scalarLocs s s.th.a[r] (s.th.rx x) m n (accessOf false) = .ok (o, ls) ∧ o.sideEffect = false
      ∧ ls.map (·.key) = (List.range n).map fun i => localBase (s.tid / 2) + a + i := by
  have hf : spaceFault s (whoTh s) 5 a n (accessOf false) = none := by
    rw [spaceFault_user hs (by decide), show extentOf s 5 = 2048 from rfl, if_neg (Nat.not_lt.mpr he), if_neg (by simp)]
  have := scalarLocs_spaceLocs h (by omega) ha (by omega) hal (hsp ▸ hf) (by rw [hsp]; exact hcl)
  rw [hsp] at this
  exact this

end Sys2Proof.Machine
end

section
/-! SUPPORT. A scalar access to a global object: the checks of 14 R314 to R318 in the claims' terms, and where its bytes lie. -/

namespace Sys2Proof.Machine
open Sys2Proof.Safety Sys2Proof.Claims

/-! ### Checks 1 to 5 (R310, R314, R340) -/

theorem recordAddr_eq (s : State) (n : Nat) : recordAddr (contextOf s s.th.gang).ortb n = recordAt s n := rfl

theorem bits_logn (v : Word) : bits v 0 6 = v.toNat % 2 ^ 6 := by simp [bits, field]

theorem objRecord_present {s : State} {n : Nat} {o : ObjRec} (h : Present s n o) :
    objRecord s (contextOf s s.th.gang) n = .ok (some o) := by
  obtain ⟨h0, hn, ⟨hp, -⟩, rfl, hv, hg⟩ := h
  unfold objRecord
  rw [bits_logn, if_neg (by omega), recordAddr_eq, hp]
  simp only [Memory.readNat, hv, Bool.true_and, bne_iff_ne, ne_eq, hg, not_false_eq_true, if_true, Bool.not_true, Bool.false_eq_true,
    if_false]

theorem objRecord_absent {s : State} {n : Nat} (h : Absent s n) : objRecord s (contextOf s s.th.gang) n = .ok none := by
  obtain ⟨-, h⟩ := h
  unfold objRecord
  rw [bits_logn, recordAddr_eq]
  by_cases hr : n = 0 ∨ 2 ^ ((contextOf s s.th.gang).ortb.toNat % 2 ^ 6) ≤ n
  · exact if_pos hr
  · obtain ⟨hp, hv⟩ := (h.resolve_left fun h0 => hr (.inl h0)).resolve_left fun h0 => hr (.inr h0)
    rw [if_neg hr, hp]
    rcases hv with hv | hv <;> simp [Memory.readNat, hv]

/-- The key check of the model (R340). -/
theorem keyFits_iff {s : State} {o : ObjRec} : KeyFits s o ↔
    (o.enc && !(bitAt (contextOf s s.th.gang).keysel 16 && decide (o.key ≤ bits (contextOf s s.th.gang).keysel 0 8)
      && decide (bits (contextOf s s.th.gang).keysel 8 8 + o.key ≤ 255))) = false := by
  have hb : bitAt (contextOf s s.th.gang).keysel 16 = decide ((contextOf s s.th.gang).keysel.toNat / 2 ^ 16 % 2 = 1) := by
    rw [bitAt, Nat.testBit_eq_decide_div_mod_eq]
  rw [hb, bits_low]
  unfold KeyFits bits field
  cases o.enc
  · simp
  · simp [and_assoc]

theorem allowed_iff {o : ObjRec} {st : Bool} : (accessOf st).allowed o = true ↔ Permits o st := by cases st <;> exact Iff.rfl

theorem recordGood {s : State} {n : Nat} (h : ∀ e ∈ s.weak, e.1 ≠ recordAt s n / 256) :
    (s.weak.any fun e => e.1 == recordAddr (contextOf s s.th.gang).ortb n / 256) = false :=
  List.any_eq_false.mpr fun e he hk => h e he (beq_iff_eq.mp hk)

/-- The checks of an object whose record is there, one after the other. -/
theorem openPlain_present {s : State} {r : Ref} {o : ObjRec} (hsp : spaceOf r = 0) (h : Present s (refBits r 44 36) o) (st : Bool) :
    openPlain s (whoTh s) r (accessOf st) =
      if o.malformed = true then .bad 0x02 else if refBits r 96 32 ≠ o.gen then .bad 0x08
      else if (accessOf st).allowed o = false then .bad 0x09
      else if (o.enc && !(bitAt (contextOf s s.th.gang).keysel 16 && decide (o.key ≤ bits (contextOf s s.th.gang).keysel 0 8)
        && decide (bits (contextOf s s.th.gang).keysel 8 8 + o.key ≤ 255))) = true then .bad 0x09
      else .object o (bits (contextOf s s.th.gang).keysel 8 8 + o.key) := by
  have hr := objRecord_present h
  have hw := recordGood h.2.2.1.2
  unfold openPlain
  rw [if_neg (show ¬refSpace r ≠ 0 from not_not.mpr hsp), whoTh_gang]
  dsimp only
  rw [show refObj r = refBits r 44 36 from rfl, hw, hr]
  simp only [Bool.false_eq_true, if_false, Bool.not_eq_true']
  rfl

/-- An object that passes checks 1 to 5 is opened. -/
theorem openRef_usable {s : State} {r : Ref} {o : ObjRec} {st : Bool} (hsp : spaceOf r = 0) (h : Usable s r o st) :
    openRef s (whoTh s) r (accessOf st) = .object o (bits (contextOf s s.th.gang).keysel 8 8 + o.key) := by
  obtain ⟨hp, hm, ht, ha, hk, hh⟩ := h
  have ho := openPlain_present hsp hp st
  rw [hm, if_neg (by simp), if_neg (not_not.mpr ht), if_neg (by simp [allowed_iff.mpr ha]), keyFits_iff.mp hk, if_neg (by simp)] at ho
  have hse : (o.se && heatOf s s.th.gang) = false := by
    cases hse : o.se
    · rfl
    · exact hh hse
  unfold openRef
  rw [ho, whoTh_gang]
  dsimp only
  rw [hse, if_neg (by simp)]

/-- The cause of the check that fails, and the object that its fault names. -/
theorem openRef_fault {s : State} {r : Ref} {st : Bool} {c : Nat} {k : Option Miss} (hsp : spaceOf r = 0) (h : ObjectFault s r st c k) :
    openRef s (whoTh s) r (accessOf st) = .bad c ∧ k = if c = 0x08 then missOf r else none := by
  have hbad : ∀ c, openPlain s (whoTh s) r (accessOf st) = .bad c → openRef s (whoTh s) r (accessOf st) = .bad c := fun c h => by
    rw [openRef, h]
  rcases h with ⟨ha, rfl, rfl⟩ | ⟨o, hp, ⟨hm, rfl, rfl⟩ | ⟨hm, ht, rfl, rfl⟩ | ⟨hm, ht, hk, rfl, rfl⟩⟩
  · refine ⟨hbad _ ?_, rfl⟩
    have hr := objRecord_absent ha
    have hw := recordGood ha.1
    unfold openPlain
    rw [if_neg (show ¬refSpace r ≠ 0 from not_not.mpr hsp), whoTh_gang]
    dsimp only
    rw [show refObj r = refBits r 44 36 from rfl, hw, hr]
    rfl
  · exact ⟨hbad _ ((openPlain_present hsp hp st).trans (if_pos hm)), rfl⟩
  · refine ⟨hbad _ ?_, rfl⟩
    rw [openPlain_present hsp hp st, hm, if_neg (by simp), if_pos ht]
  · refine ⟨?_, rfl⟩
    have ho := openPlain_present hsp hp st
    rw [hm, if_neg (by simp), if_neg (not_not.mpr ht)] at ho
    by_cases ha : (accessOf st).allowed o = false
    · exact hbad _ (ho.trans (if_pos ha))
    · rw [if_neg ha] at ho
      have hpm : Permits o st := allowed_iff.mp (Bool.not_eq_false _ ▸ ha)
      by_cases hf : KeyFits s o
      · have hh : o.se = true ∧ heatOf s s.th.gang = true := by
          by_contra hh
          exact hk ⟨hpm, hf, fun hse => Bool.not_eq_true _ ▸ fun h => hh ⟨hse, h⟩⟩
        rw [keyFits_iff.mp hf, if_neg (by simp)] at ho
        unfold openRef
        rw [ho, whoTh_gang]
        dsimp only
        rw [hh.1, hh.2]
        rfl
      · exact hbad _ (ho.trans (if_pos (by rw [keyFits_iff, Bool.not_eq_false] at hf; exact hf)))

/-! ### Coordinates (R315, R316) -/

theorem ObjRec.inUnits_eq (o : ObjRec) (l : List Nat) (i : Nat) : o.inUnits l i = unitsAt o l i := by
  simp [ObjRec.inUnits, unitsAt, ObjRec.d]

/-- The coordinates of a byte offset. -/
def coords (o : ObjRec) (a : Nat) : List Nat := (List.range o.d).map (coordAt o a)

theorem coords_getD {o : ObjRec} {a i : Nat} (h : i < o.d) : (coords o a).getD i 0 = coordAt o a i := by
  simp [coords, List.getD_eq_getElem?_getD, h]

theorem coordsFold (o : ObjRec) (a k : Nat) : (List.range k).foldl (fun (p : List Nat × Nat) i =>
    (p.1 ++ [p.2 / o.stride.getD i 1], p.2 % o.stride.getD i 1)) ([], a) = ((List.range k).map (coordAt o a), restAt o a k) := by
  induction k with
  | zero => rfl
  | succ k ih =>
    rw [List.range_succ, List.foldl_append, ih, List.map_append]
    rfl

theorem coordsOf_eq (o : ObjRec) (a : Nat) : coordsOf o a =
    if (List.range o.d).all (fun i => decide (coordAt o a i < unitsAt o o.ext i)) = true then some (coords o a, restAt o a o.d) else none := by
  have hc : ((List.range o.d).all fun i => decide ((coords o a).getD i 0 < o.inUnits o.ext i)) = true ↔
      ((List.range o.d).all fun i => decide (coordAt o a i < unitsAt o o.ext i)) = true := by
    rw [List.all_eq_true, List.all_eq_true]
    refine forall₂_congr fun i hi => ?_
    rw [coords_getD (List.mem_range.mp hi), o.inUnits_eq]
  unfold coordsOf
  rw [coordsFold]
  exact if_congr hc rfl rfl

theorem inShape_iff {o : ObjRec} {a : Nat} :
    InShape o a ↔ (List.range o.d).all (fun i => decide (coordAt o a i < unitsAt o o.ext i)) = true := by
  simp [InShape, ObjRec.d]

theorem coordsOf_inShape {o : ObjRec} {a : Nat} (h : InShape o a) : coordsOf o a = some (coords o a, restAt o a o.d) := by
  rw [coordsOf_eq, if_pos (inShape_iff.mp h)]

theorem coordsOf_outside {o : ObjRec} {a : Nat} (h : ¬InShape o a) : coordsOf o a = none := by
  rw [coordsOf_eq, if_neg fun h' => h (inShape_iff.mpr h')]

theorem blockIndex_coords (o : ObjRec) (a : Nat) : blockIndex o (coords o a) = blockOf o a := by
  refine List.foldl_ext _ _ 0 fun n i hi => ?_
  dsimp only
  rw [coords_getD (List.mem_range.mp hi), o.inUnits_eq, o.inUnits_eq]

theorem blockOffset_coords (o : ObjRec) (a : Nat) : blockOffset o (coords o a) (restAt o a o.d) = placeIn o a := by
  refine congrArg (fun n => n * o.stride.getD o.dims 0 + restAt o a o.d) (List.foldl_ext _ _ 0 fun n i hi => ?_)
  rw [coords_getD (List.mem_range.mp hi), o.inUnits_eq]

/-! ### The residency block (R316 to R318) -/

/-- The checks of shape and of one block (R314 checks 7 and 8). -/
theorem unitCoords_inShape {o : ObjRec} {a n : Nat} (hn : 0 < n) (hs : ∀ j, j < n → InShape o (a + j)) : unitCoords o a n =
    if blockOf o a ≠ blockOf o (a + n - 1) then trapOf 0x05
    else .ok ((List.range n).map fun j => (coords o (a + j), restAt o (a + j) o.d)) := by
  have hcs : (List.range n).map (fun i => coordsOf o (a + i)) = (List.range n).map fun i => some (coords o (a + i), restAt o (a + i) o.d) :=
    List.map_congr_left fun i hi => coordsOf_inShape (hs i (List.mem_range.mp hi))
  have hf : ((List.range n).map fun i => some (coords o (a + i), restAt o (a + i) o.d)).filterMap id =
      (List.range n).map fun i => (coords o (a + i), restAt o (a + i) o.d) := by
    rw [List.filterMap_map]
    exact List.filterMap_eq_map ▸ rfl
  obtain ⟨m, rfl⟩ : ∃ m, n = m + 1 := ⟨n - 1, by omega⟩
  unfold unitCoords
  rw [hcs]
  dsimp only
  rw [hf, if_neg (by simp)]
  simp only [List.head?_map, List.getLast?_map, List.head?_range, List.getLast?_range, Nat.add_one_ne_zero, if_false, Option.map_some,
    blockIndex_coords, Nat.add_sub_cancel, Nat.add_zero, ne_eq, Option.some.injEq, ← Nat.add_assoc]

theorem unitCoords_outside {o : ObjRec} {a n : Nat} (h : ∃ j, j < n ∧ ¬InShape o (a + j)) : unitCoords o a n = trapOf 0x06 := by
  obtain ⟨j, hj, hs⟩ := h
  have hm : none ∈ (List.range n).map fun i => coordsOf o (a + i) :=
    List.mem_map.mpr ⟨j, List.mem_range.mpr hj, coordsOf_outside hs⟩
  exact if_pos (List.any_eq_true.mpr ⟨none, hm, rfl⟩)

/-- The entry of a block in a good table (R314 checks 9 and 10). -/
theorem blockEntry_eq {s : State} {o : ObjRec} {b : Nat} (h : TableGood s (o.map * 8 + 8 * b)) (obj a : Nat) : blockEntry s o obj a b =
    if (ResEntry.ofNat (entryWord s o b)).valid = true then
      if (ResEntry.ofNat (entryWord s o b)).inconsistent o s.pkg = true then trapOf 0x02 else .ok (ResEntry.ofNat (entryWord s o b))
    else .error (.trap { cause := if (ResEntry.ofNat (entryWord s o b)).lost s then 0x0B else 0x0A
                         miss := some { obj, off := a, gen := o.gen } }) := by
  obtain ⟨hp, hw⟩ := h
  have hw : (s.weak.any fun w => w.1 == (o.map * 8 + 8 * b) / 256) = false :=
    List.any_eq_false.mpr fun e he hk => hw e he (beq_iff_eq.mp hk)
  unfold blockEntry
  dsimp only
  rw [hp, hw]
  have he : ResEntry.ofNat (s.mem.readNat (o.map * 8 + 8 * b) 8) = ResEntry.ofNat (entryWord s o b) := rfl
  rw [he]
  cases (ResEntry.ofNat (entryWord s o b)).valid
  · rfl
  · cases (ResEntry.ofNat (entryWord s o b)).inconsistent o s.pkg <;> rfl

theorem ceilLog2_le_iff (n k : Nat) : ceilLog2 n ≤ k ↔ n ≤ 2 ^ k := by
  have hk : 0 < 2 ^ k := Nat.two_pow_pos k
  unfold ceilLog2
  split
  · omega
  · rw [Nat.succ_le_iff, Nat.log2_lt (by omega)]
    omega

theorem blockBytes_eq (o : ObjRec) : o.dataBytes + o.scaleBytes = blockBytes o := by
  have hu : o.blockUnits = ((List.range (o.dims + 1)).map (unitsAt o o.tile)).prod := by
    rw [List.prod_eq_foldl, List.foldl_map]
    exact List.foldl_ext _ _ 1 fun n i _ => congrArg (n * ·) (o.inUnits_eq o.tile i)
  have hr : o.blockRows = ((List.range o.dims).map fun d => o.tile.getD d 0).prod := by
    rw [List.prod_eq_foldl, List.foldl_map]
    rfl
  rw [ObjRec.dataBytes, ObjRec.scaleBytes, blockBytes, hu, hr, ObjRec.rowElems]

/-- The size code of a block's storage (R316). -/
theorem sizeCode_eq_iff {o : ObjRec} {k : Nat} :
    o.sizeCode = k ↔ blockBytes o ≤ 2 ^ (12 + k) ∧ (k = 0 ∨ 2 ^ (11 + k) < blockBytes o) := by
  have h1 := ceilLog2_le_iff (blockBytes o) (12 + k)
  have h2 := ceilLog2_le_iff (blockBytes o) (11 + k)
  rw [ObjRec.sizeCode, blockBytes_eq, ← h1, ← Nat.not_le, ← h2]
  omega

/-- The check of a valid entry (R318). -/
theorem inconsistent_iff {s : State} {o : ObjRec} {w : Nat} :
    (ResEntry.ofNat w).inconsistent o s.pkg = false ↔ Consistent s o w := by
  have hsize : (ResEntry.ofNat w).size = entrySize w := rfl
  have htier : (ResEntry.ofNat w).tier = entryTier w := rfl
  have hbase : (ResEntry.ofNat w).base * 4096 = entryBase w := by simp [ResEntry.ofNat, field, entryBase]
  have hres : (ResEntry.ofNat w).reserved = (w / 2 ^ 48 % 2 ^ 12 != 0) := rfl
  have hlt : entrySize w < 16 := Nat.mod_lt _ (by decide)
  have hstore : entrySize w = o.sizeCode → o.storage = 2 ^ (12 + entrySize w) := fun h => by rw [ObjRec.storage, ← h, Nat.add_comm]
  have hcode : entrySize w = o.sizeCode ↔
      blockBytes o ≤ 2 ^ (12 + entrySize w) ∧ (entrySize w = 0 ∨ 2 ^ (11 + entrySize w) < blockBytes o) := by
    rw [← sizeCode_eq_iff, eq_comm]
  unfold ResEntry.inconsistent Consistent
  dsimp only
  rw [hsize, htier, hbase, hres]
  simp only [Bool.or_eq_false_iff, Bool.and_eq_false_iff, bne_eq_false_iff_eq, beq_eq_false_iff_ne, decide_eq_false_iff_not,
    Bool.not_eq_false', ne_eq]
  constructor
  · rintro ⟨⟨⟨⟨⟨⟨hr, h15⟩, hs⟩, hal⟩, hpop⟩, ht3⟩, ht2⟩
    rw [hstore hs] at hal hpop
    obtain ⟨hs1, hs2⟩ := hcode.mp hs
    refine ⟨hr, by omega, hs1, hs2, hal, fun h => ?_, fun h => ht3.resolve_left (not_not.mpr h), fun h => ht2.resolve_left (not_not.mpr h)⟩
    obtain ⟨⟨hp, hq⟩, hpkg⟩ := hpop.resolve_left (not_not.mpr h)
    exact ⟨hp, hq, hpkg⟩
  · rintro ⟨hr, h15, hs1, hs2, hal, hpop, ht3, ht2⟩
    have hs := hcode.mpr ⟨hs1, hs2⟩
    rw [hstore hs]
    refine ⟨⟨⟨⟨⟨⟨hr, by omega⟩, hs⟩, hal⟩, ?_⟩, ?_⟩, ?_⟩
    · refine or_iff_not_imp_left.mpr fun h => ?_
      obtain ⟨hp, hq, hpkg⟩ := hpop (not_not.mp h)
      exact ⟨⟨hp, hq⟩, hpkg⟩
    · exact or_iff_not_imp_left.mpr fun h => ht3 (not_not.mp h)
    · exact or_iff_not_imp_left.mpr fun h => ht2 (not_not.mp h)

/-! ### The bytes of an access unit (R314, R341) -/

/-- Where the bytes of an access unit lie in the block of an entry. -/
def objLocs (o : ObjRec) (slot obj a n : Nat) (e : ResEntry) : List Loc :=
  (List.range n).map fun j => byteLoc o slot obj (coords o (a + j), restAt o (a + j) o.d) (a + j) e

theorem byteLoc_key (o : ObjRec) (slot obj a : Nat) (e : ResEntry) :
    (byteLoc o slot obj (coords o a, restAt o a o.d) a e).key = e.storageKey + placeIn o a :=
  congrArg (e.storageKey + ·) (blockOffset_coords o a)

theorem objLocs_keys (o : ObjRec) (slot obj a n : Nat) (e : ResEntry) :
    (objLocs o slot obj a n e).map (·.key) = (List.range n).map fun j => e.storageKey + placeIn o (a + j) := by
  rw [objLocs, List.map_map]
  exact List.map_congr_left fun j _ => byteLoc_key o slot obj (a + j) e

theorem storageKey_eq (w : Nat) : (ResEntry.ofNat w).storageKey = storageAt w := by
  have hbase : (ResEntry.ofNat w).base * 4096 = entryBase w := by simp [ResEntry.ofNat, field, entryBase]
  rw [ResEntry.storageKey, storageAt, hbase]
  rfl

/-- An access unit in the shape and in one block, after checks 7 and 8: checks 9 to 12. -/
theorem locateObject_block {s : State} {o : ObjRec} {a n : Nat} (hn : 0 < n) (hs : ∀ j, j < n → InShape o (a + j))
    (hb : ∀ j, j < n → blockOf o (a + j) = blockOf o a) (slot obj : Nat) (acc : Acc) (late : Bool) :
    locateObject s o slot obj a n acc late = (do
      let e ← blockEntry s o obj a (blockOf o a)
      ownRegions s (objLocs o slot obj a n e)
      poisonCheck s acc o.se (e.lost s || (late && decide (2 ≤ e.tier))) obj a (objLocs o slot obj a n e)
      return objLocs o slot obj a n e) := by
  have hlast : ¬blockOf o a ≠ blockOf o (a + n - 1) := by
    rw [Nat.add_sub_assoc hn, hb _ (by omega)]
    exact not_not.mpr rfl
  have hdedup : (((List.range n).map fun j => (coords o (a + j), restAt o (a + j) o.d)).map fun c => blockIndex o c.1).dedup = [blockOf o a] := by
    have h1 : ((List.range n).map fun j => (coords o (a + j), restAt o (a + j) o.d)).map (fun c => blockIndex o c.1) =
        List.replicate n (blockOf o a) := by
      rw [List.map_map]
      refine List.eq_replicate_iff.mpr ⟨by simp, fun b hb' => ?_⟩
      obtain ⟨j, hj, rfl⟩ := List.mem_map.mp hb'
      exact (blockIndex_coords o (a + j)).trans (hb j (List.mem_range.mp hj))
    rw [h1, List.replicate_dedup (by omega)]
  unfold locateObject
  rw [unitCoords_inShape hn hs, if_neg hlast]
  simp only [bind, Except.bind, hdedup, List.mapM_cons, List.mapM_nil]
  cases blockEntry s o obj a (blockOf o a) with
  | error e => rfl
  | ok e =>
    have hls : (((List.range n).map fun j => (coords o (a + j), restAt o (a + j) o.d)).zip (List.range n)).map (fun p =>
        byteLoc o slot obj p.1 (a + p.2) ((([(blockOf o a, e)].find? fun e => e.1 == blockIndex o p.1.1).map (·.2)).getD (ResEntry.ofNat 0)))
        = objLocs o slot obj a n e := by
      have hz := List.zip_map' (f := fun j => (coords o (a + j), restAt o (a + j) o.d)) (g := id) (l := List.range n)
      rw [List.map_id] at hz
      rw [hz, List.map_map]
      refine List.map_congr_left fun j hj => ?_
      simp [blockIndex_coords, hb j (List.mem_range.mp hj)]
    simp only [pure, Except.pure, hls]
    simp

theorem ownRegions_ok {s : State} {ls : List Loc} (h : ∀ l ∈ ls, s.regions.get? (l.key / 2 ^ 21) = none) : ownRegions s ls = .ok () := by
  have hr : ∀ k ∈ (ls.map fun l => regionOf l.key).dedup, ownRegion s k = .ok () := by
    intro k hk
    obtain ⟨l, hl, rfl⟩ := List.mem_map.mp (List.mem_dedup.mp hk)
    rw [ownRegion, regionOf, h l hl]
  unfold ownRegions
  generalize (ls.map fun l => regionOf l.key).dedup = ks at hr
  induction ks with
  | nil => rfl
  | cons k ks ih =>
    show (do ownRegion s k; ks.forM (ownRegion s)) = _
    rw [hr k List.mem_cons_self]
    exact ih fun j hj => hr j (List.mem_cons_of_mem _ hj)

theorem lost_false {s : State} (h : s.lost = []) (e : ResEntry) : e.lost s = false := by simp [ResEntry.lost, h]

/-- Bytes in lines without a marker pass check 12. -/
theorem poisonCheck_clean {s : State} {ls : List Loc} (h : ∀ l ∈ ls, Clean s l.key 1) (acc : Acc) (se : Bool) (obj a : Nat) :
    poisonCheck s acc se false obj a ls = .ok () := by
  have hw : weakLines s ls = [] := weakLines_eq_nil fun l hl => (h l hl 0 (by decide)).2
  have hm : ls.any (fun l => (acc.reads && !se || (acc == .store && l.dmg)) && (marked s l || false)) = false :=
    List.any_eq_false.mpr fun l hl => by simp [marked_of_clean (h l hl)]
  unfold poisonCheck
  dsimp only
  rw [hw, hm]
  simp

/-- A marked line in an access unit that meets it (R330). -/
theorem poisonCheck_marked {s : State} {acc : Acc} {se : Bool} {ls : List Loc} {l : Loc} (hl : l ∈ ls) (hm : Marked s l.key)
    (hw : acc.reads = true → se = false → weakLines s ls = [])
    (h : (acc.reads = true ∧ se = false) ∨ (acc = .store ∧ l.dmg = true)) (obj a : Nat) :
    poisonCheck s acc se false obj a ls = .error (.trap { cause := 0x0B, miss := some { obj, off := a } }) := by
  have hany : ls.any (fun l => (acc.reads && !se || (acc == .store && l.dmg)) && (marked s l || false)) = true := by
    refine List.any_eq_true.mpr ⟨l, hl, ?_⟩
    rw [marked_of_marked hm]
    rcases h with ⟨h1, h2⟩ | ⟨h1, h2⟩ <;> simp [h1, h2]
  have hweak : (acc.reads && !se && !(weakLines s ls).isEmpty) = false := by
    cases hr : acc.reads
    · rfl
    · cases se
      · rw [hw hr rfl]
        rfl
      · rfl
  unfold poisonCheck
  dsimp only
  rw [hweak, hany, Bool.or_true]
  rfl

/-! ### The access (R70, R189) -/

theorem whoTh_late (s : State) : ((whoTh s).tid.any fun t => (s.thread t).late) = s.th.late := by
  simp [whoTh, whoIs, State.thread_self]

/-- O20 in space 0. -/
theorem scalarLocs_object {s : State} {r : Ra} {x : Rx} {m : BitVec 7} {n a w : Nat} {st : Bool} {o : ObjRec} (h : WellFormedRef s.th.a[r])
    (hsp : spaceOf s.th.a[r] = 0) (hn : 0 < n) (ha : scalarOff s.th r x m n = a) (hal : a % n = 0) (h44 : a + n ≤ 2 ^ 44)
    (hu : Usable s s.th.a[r] o st) (hlost : s.lost = []) (hb : ∀ i, i < n → InShape o (a + i) ∧ blockOf o (a + i) = blockOf o a)
    (ht : TableGood s (o.map * 8 + 8 * blockOf o a)) (hw : w = entryWord s o (blockOf o a)) (hv : w / 2 ^ 63 % 2 = 1)
    (hc : Consistent s o w) (hlate : s.th.late = false) (hl : ∀ i, i < n → Clean s (storageAt w + placeIn o (a + i)) 1
      ∧ s.regions.get? ((storageAt w + placeIn o (a + i)) / 2 ^ 21) = none) :
    ∃ p ls, scalarLocs s s.th.a[r] (s.th.rx x) m n (accessOf st) = .ok (p, ls) ∧ p.sideEffect = o.se
      ∧ ls.map (·.key) = (List.range n).map fun i => storageAt w + placeIn o (a + i) := by
  have he : blockEntry s o (refObj s.th.a[r]) a (blockOf o a) = .ok (ResEntry.ofNat w) := by
    have hv' : (ResEntry.ofNat w).valid = true := by simpa [ResEntry.ofNat, field] using hv
    rw [blockEntry_eq ht, ← hw, if_pos hv', inconsistent_iff.mpr hc, if_neg (by simp)]
  have hkeys : ∀ slot, ∀ l ∈ objLocs o slot (refObj s.th.a[r]) a n (ResEntry.ofNat w),
      Clean s l.key 1 ∧ s.regions.get? (l.key / 2 ^ 21) = none := by
    intro slot l hl'
    obtain ⟨j, hj, rfl⟩ := List.mem_map.mp hl'
    rw [byteLoc_key, storageKey_eq]
    exact hl j (List.mem_range.mp hj)
  obtain ⟨slot, hslot⟩ : ∃ slot, openRef s (whoTh s) s.th.a[r] (accessOf st) = .object o slot := ⟨_, openRef_usable hsp hu⟩
  rw [scalarLocs_locate h ha h44 hal, hslot]
  refine ⟨.object o slot, objLocs o slot (refObj s.th.a[r]) a n (ResEntry.ofNat w), ?_, rfl, (objLocs_keys ..).trans (by rw [storageKey_eq])⟩
  rw [locate, whoTh_late, hlate, locateObject_block hn (fun j hj => (hb j hj).1) fun j hj => (hb j hj).2, he]
  simp only [bind, Except.bind, lost_false hlost, Bool.false_and, Bool.or_false, ownRegions_ok fun l hl => (hkeys _ l hl).2,
    poisonCheck_clean fun l hl => (hkeys _ l hl).1]
  rfl

theorem locateObject_coords {s : State} {o : ObjRec} {a n : Nat} {e : Stop} (h : unitCoords o a n = .error e) (slot obj : Nat) (acc : Acc)
    (late : Bool) : locateObject s o slot obj a n acc late = .error e := by
  rw [locateObject, h]
  rfl

theorem locateObject_entry {s : State} {o : ObjRec} {slot obj a n : Nat} {acc : Acc} {late : Bool} {e : Stop} (hn : 0 < n)
    (hs : ∀ j, j < n → InShape o (a + j)) (hb : ∀ j, j < n → blockOf o (a + j) = blockOf o a)
    (h : blockEntry s o obj a (blockOf o a) = .error e) : locateObject s o slot obj a n acc late = .error e := by
  rw [locateObject_block hn hs hb, h]
  rfl

theorem ofNat_valid (w : Nat) : (ResEntry.ofNat w).valid = decide (w / 2 ^ 63 % 2 = 1) := Bool.beq_eq_decide_eq _ _
theorem ofNat_dmg (w : Nat) : (ResEntry.ofNat w).dmg = decide (w / 2 ^ 62 % 2 = 1) := Bool.beq_eq_decide_eq _ _

/-- A marked line of a block that its access meets (R314 check 12, R330). -/
theorem locateObject_marked {s : State} {o : ObjRec} {obj a n w : Nat} {acc : Acc} (hn : 0 < n)
    (hs : ∀ j, j < n → InShape o (a + j)) (hb : ∀ j, j < n → blockOf o (a + j) = blockOf o a)
    (ht : TableGood s (o.map * 8 + 8 * blockOf o a)) (hw : w = entryWord s o (blockOf o a)) (hlost : s.lost = [])
    (hv : w / 2 ^ 63 % 2 = 1) (hc : Consistent s o w) (hreg : s.regions = []) (hm : Marked s (storageAt w + placeIn o a))
    (hweak : acc.reads = true → s.weak = [])
    (h : (acc.reads = true ∧ o.se = false) ∨ (acc = .store ∧ w / 2 ^ 62 % 2 = 1)) (slot : Nat) :
    locateObject s o slot obj a n acc false = .error (.trap { cause := 0x0B, miss := some { obj, off := a } }) := by
  have he : blockEntry s o obj a (blockOf o a) = .ok (ResEntry.ofNat w) := by
    rw [blockEntry_eq ht, ← hw, if_pos (by rw [ofNat_valid, hv]; rfl), inconsistent_iff.mpr hc, if_neg (by simp)]
  have hr : ownRegions s (objLocs o slot obj a n (ResEntry.ofNat w)) = .ok () := ownRegions_ok fun l _ => by rw [hreg]; rfl
  have hp : poisonCheck s acc o.se false obj a (objLocs o slot obj a n (ResEntry.ofNat w)) =
      .error (.trap { cause := 0x0B, miss := some { obj, off := a } }) := by
    refine poisonCheck_marked (List.mem_map.mpr ⟨0, List.mem_range.mpr hn, rfl⟩) ?_ (fun hr _ => ?_)
      (h.imp_right fun ⟨h1, h2⟩ => ⟨h1, ?_⟩) obj a
    · rw [byteLoc_key, storageKey_eq]
      exact hm
    · simp [weakLines, hweak hr]
    · exact (ofNat_dmg w).trans (decide_eq_true h2)
  rw [locateObject_block hn hs hb, he]
  simp only [bind, Except.bind, lost_false hlost, Bool.false_and, Bool.or_false, hr, hp]

/-- The fault that the checks of a block find. -/
theorem locateObject_fault {s : State} {r : Ref} {a n c : Nat} {st : Bool} {k : Option Miss} (hsp : spaceOf r = 0) (hn : 0 < n)
    (h : BlockFault s r a n st c k) : ∃ o slot, openRef s (whoTh s) r (accessOf st) = .object o slot
      ∧ locateObject s o slot (refObj r) a n (accessOf st) s.th.late = .error (.trap { cause := c, miss := k }) := by
  obtain ⟨o, hu, h⟩ := h
  refine ⟨o, _, openRef_usable hsp hu, ?_⟩
  rcases h with ⟨hout, rfl, rfl⟩ | ⟨hs, ⟨hb, rfl, rfl⟩ | ⟨w, hb, ht, hw, hlost, h⟩⟩
  · exact locateObject_coords (unitCoords_outside hout) ..
  · exact locateObject_coords ((unitCoords_inShape hn hs).trans (if_pos hb)) ..
  rcases h with ⟨hv, hc, rfl, rfl⟩ | ⟨hv, hc, rfl, hse, hlate, hweak, hreg, hm, rfl, rfl⟩ | ⟨hv, hc, rfl, hd, hlate, hreg, hm, rfl, rfl⟩
    | ⟨hv, rfl, rfl⟩
  · refine locateObject_entry hn hs hb ?_
    rw [blockEntry_eq ht, ← hw, if_pos (by rw [ofNat_valid, hv]; rfl), if_pos (Bool.not_eq_false _ ▸ fun h => hc (inconsistent_iff.mp h))]
    rfl
  · rw [hlate]
    exact locateObject_marked hn hs hb ht hw hlost hv hc hreg hm (fun _ => hweak) (.inl ⟨rfl, hse⟩) _
  · rw [hlate]
    exact locateObject_marked hn hs hb ht hw hlost hv hc hreg hm (fun hr => absurd hr (by decide)) (.inr ⟨rfl, hd⟩) _
  · refine locateObject_entry hn hs hb ?_
    rw [blockEntry_eq ht, ← hw, if_neg (by rw [ofNat_valid, hv]; simp), lost_false hlost]
    rfl

end Sys2Proof.Machine

namespace Sys2Proof.Proofs
open Sys2Proof.Machine Sys2Proof.Claims

/-- Settles O20, one lemma for each space. -/
theorem accessAddress : Obligations.AccessAddress := by
  refine ⟨fun s r x m n a st hs h hsp hn => scalarLocs_near hs h hsp, fun s g r x m n a st hs hg h hsp hn => scalarLocs_section hs hg h hsp hn,
    fun s r x m n a c st h hsp hn ha hal hc => ?_, fun s r x m n a hs h hsp hn => scalarLocs_window hs h hsp,
    fun s r x m n a w st o h hsp hn => scalarLocs_object h hsp (ScalarSize.pos hn)⟩
  subst hc
  exact scalarLocs_other h hsp ha hal

end Sys2Proof.Proofs
end

section
/-! SUPPORT. The faults of scalar loads and stores, in their order (03 R70, R71; 07 R189; 08 R225; 14 R314), and O21. -/

namespace Sys2Proof.Machine
open Sys2Proof.Safety Sys2Proof.Claims

/-! ### Loads and stores as the access they share (R188) -/

theorem exec_loadOp {i : Instr} {n : Nat} {f : LoadForm} {d : DestReg} {r : Ra} {x : Rx} {m : BitVec 7}
    (h : loadOp i = some (n, f, d, r, x, m)) (s : State) : exec i s = scalarLoad n f d r x m s := by
  unfold loadOp at h
  split at h
  next d r x m k => cases k <;> cases h <;> rfl
  next d r x m k => cases k <;> cases h <;> rfl
  next => cases h; rfl
  next => cases h

theorem loadOp_size {i : Instr} {n : Nat} {f : LoadForm} {d : DestReg} {r : Ra} {x : Rx} {m : BitVec 7}
    (h : loadOp i = some (n, f, d, r, x, m)) : ScalarSize n := by
  unfold loadOp at h
  unfold ScalarSize
  split at h
  next d r x m k => cases k <;> cases h <;> decide
  next d r x m k => cases k <;> cases h <;> decide
  next => cases h; decide
  next => cases h

/-- A store, with the value of its source, which can be read. -/
theorem exec_storeOp {i : Instr} {n : Nat} {d : DestReg} {r : Ra} {x : Rx} {m : BitVec 7} (h : storeOp i = some (n, d, r, x, m))
    {s : State} (hd : Source s.th d) :
    ScalarSize n ∧ ∃ value v, value s = .ok v ∧ exec i s = scalarStore n value r x m s := by
  unfold storeOp at h
  unfold ScalarSize
  split at h
  next d' r x m k =>
    have hx : d = .x d' → (do return (← useX s d').toNat : Except Stop Nat) = .ok (s.th.rx d').toNat := by
      rintro rfl
      rw [useX_ok (hd.imp_left fun h => DestReg.x.inj h)]
      rfl
    cases k <;> cases h <;>
      exact ⟨by decide, fun s => do return (← useX s d').toNat, _, hx rfl, rfl⟩
  next d r x m =>
    cases h
    have ha : (do return (← useA s d).toNat : Except Stop Nat) = .ok (s.th.a[d]).toNat := by
      rw [useA_ok (hd.resolve_left nofun)]
      rfl
    exact ⟨by decide, fun s => do return (← useA s d).toNat, _, ha, rfl⟩
  next => cases h

/-- The loads and stores of the statement: the size, the operands, and whether it is a store. -/
def ScalarAccess (s : State) (i : Instr) (n : Nat) (r : Ra) (x : Rx) (m : BitVec 7) (st : Bool) : Prop :=
  (∃ f d, loadOp i = some (n, f, d, r, x, m) ∧ st = false) ∨ (∃ d, storeOp i = some (n, d, r, x, m) ∧ st = true ∧ Source s.th d)

theorem ScalarAccess.size {s : State} {i : Instr} {n : Nat} {r : Ra} {x : Rx} {m : BitVec 7} {st : Bool}
    (h : ScalarAccess s i n r x m st) : ScalarSize n := by
  rcases h with ⟨f, d, h, -⟩ | ⟨d, h, -, hd⟩
  · exact loadOp_size h
  · exact (exec_storeOp h hd).1

/-- An access whose bytes are not found for a fault takes that fault, and changes nothing else. -/
theorem ScalarAccess.exec_fault {s : State} {i : Instr} {n : Nat} {r : Ra} {x : Rx} {m : BitVec 7} {st : Bool} {f : Trap}
    (h : ScalarAccess s i n r x m st) (hr : Readable s.th (.a r)) (hx : ReadableX s.th x) (hc : CanHold s 1)
    (hf : scalarLocs s s.th.a[r] (s.th.rx x) m n (accessOf st) = .error (.trap f)) :
    exec i s = .next (faulted s f.cause f.addr f.info f.step f.miss) := by
  rw [← takeFault_user hc]
  rcases h with ⟨form, d, h, rfl⟩ | ⟨d, h, rfl, hd⟩
  · have hf : scalarLocs s s.th.a[r] (s.th.rx x) m n .load = .error (.trap f) := hf
    rw [exec_loadOp h, scalarLoad, useA_ok hr, useX_ok hx]
    simp only [bind, Except.bind, hf, finish_trap]
  · have hf : scalarLocs s s.th.a[r] (s.th.rx x) m n .store = .error (.trap f) := hf
    obtain ⟨-, value, v, hv, he⟩ := exec_storeOp h hd
    rw [he, scalarStore, useA_ok hr, useX_ok hx]
    simp only [bind, Except.bind, hv, hf, finish_trap]

/-! ### The checks before the place (R70, R189) -/

theorem scalarLocs_badRef {s : State} {r : Ref} {c : Nat} (h : refFault r false = some c) (x : Word) (m : BitVec 7) (n : Nat) (acc : Acc) :
    scalarLocs s r x m n acc = .error (.trap { cause := c }) := by
  have hc : checkRef r false = trapOf c := by rw [checkRef, h]
  rw [scalarLocs, hc]
  rfl

theorem scalarLocs_range {s : State} {r : Ra} {x : Rx} {m : BitVec 7} {n : Nat} (h : WellFormedRef s.th.a[r])
    (ha : scalarOff s.th r x m n < 0 ∨ 2 ^ 44 < scalarOff s.th r x m n + n) (acc : Acc) :
    scalarLocs s s.th.a[r] (s.th.rx x) m n acc = .error (.trap { cause := 0x06, addr := BitVec.ofInt 64 (scalarOff s.th r x m n) }) := by
  rw [scalarLocs_eq h, scalarAddr_eq, accessUnit_range ha]
  rfl

theorem scalarLocs_alignment {s : State} {r : Ra} {x : Rx} {m : BitVec 7} {n : Nat} (h : WellFormedRef s.th.a[r])
    (h0 : 0 ≤ scalarOff s.th r x m n) (h44 : scalarOff s.th r x m n + n ≤ 2 ^ 44) (hal : scalarOff s.th r x m n % n ≠ 0) (acc : Acc) :
    scalarLocs s s.th.a[r] (s.th.rx x) m n acc = .error (.trap { cause := 0x05, addr := BitVec.ofInt 64 (scalarOff s.th r x m n) }) := by
  rw [scalarLocs_eq h, scalarAddr_eq, accessUnit_alignment h0 h44 hal]
  rfl

/-! ### The faults of the place (R71, R314) -/

/-- The first check of a space that fails. -/
theorem spaceFault_of_claim {s : State} {r : Ref} {a n c : Nat} {st : Bool} (hs : s.tid < 4096) (hn : 0 < n)
    (h : SpaceFault s r a n st c) : spaceFault s (whoTh s) (spaceOf r) a n (accessOf st) = some c := by
  rcases h with ⟨hsp, he, rfl⟩ | ⟨hsp, rfl, ha, he, rfl⟩ | ⟨hsp, hg, rfl⟩ | ⟨hsp, h⟩ | ⟨hsp, h⟩
  · rw [spaceFault_user hs (hsp.imp_right .inl), extentOf_near hsp, if_pos he]
  · rw [hsp, spaceFault_user hs (by decide), extentOf_near (.inl rfl), if_neg (by omega), if_pos ⟨rfl, .inr ⟨rfl, ha⟩⟩]
  · have he : allotment s s.th.gang (sectHere s.tid) < a + n := by
      cases hgang : s.gangs.get? s.th.gang with
      | none =>
        rw [allotment, hgang]
        show 0 < a + n
        omega
      | some g =>
        rw [allotment_eq hs hgang]
        exact hg g hgang
    rw [hsp, spaceFault_user hs (by decide)]
    exact if_pos he
  · rw [hsp]
    rcases h with ⟨hc, rfl⟩ | ⟨hc, hr, rfl⟩ | ⟨hc, hr, he, rfl⟩ | ⟨hc, hr, rfl, ha, he, rfl⟩
    · exact spaceFault_other_core hc n _
    · exact spaceFault_other_gang hc hr n _
    · rw [spaceFault_other hc hr, if_pos he]
    · rw [spaceFault_other hc hr, if_neg (by omega), if_pos ⟨rfl, ha⟩]
  · rw [hsp, spaceFault_user hs (by decide), show extentOf s 5 = 2048 from rfl]
    rcases h with ⟨he, rfl⟩ | ⟨he, rfl, -, rfl⟩
    · exact if_pos he
    · rw [if_neg (by omega), if_pos ⟨rfl, .inl rfl⟩]

/-- A load of a marked line of a space. -/
def MarkedPlace (s : State) (r : Ref) (a n key : Nat) : Prop :=
  ((spaceOf r = 1 ∨ spaceOf r = 2) ∧ a + n ≤ nearBytes s (spaceOf r) ∧ key = nearKey s (spaceOf r) a)
    ∨ (spaceOf r = 3 ∧ ∃ g, s.gangs.get? s.th.gang = some g ∧ a + n ≤ allotted s g (sectHere s.tid)
      ∧ key = allottedKey s g (sectHere s.tid) a)
    ∨ (spaceOf r = 5 ∧ a + n ≤ 2048 ∧ key = localBase (s.tid / 2) + a)

/-- Such a load passes the checks of its space, and its first byte is aligned. -/
theorem markedPlace_found {s : State} {r : Ref} {a n key : Nat} (hs : s.tid < 4096) (hn : ScalarSize n) (hal : a % n = 0)
    (h : MarkedPlace s r a n key) :
    spaceFault s (whoTh s) (spaceOf r) a n .load = none ∧ spaceKey s (spaceOf r) a = key ∧ key % n = 0 := by
  have hlocal : (localBase (s.tid / 2) + a) % n = 0 := aligned_add hn (by unfold localBase; omega) hal
  have hquad : (quadBase (s.tid / 8) + a) % n = 0 := aligned_add hn (by unfold quadBase; omega) hal
  have huser : ∀ sp, sp = 1 ∨ sp = 2 ∨ sp = 3 ∨ sp = 5 → a + n ≤ extentOf s sp → spaceFault s (whoTh s) sp a n .load = none :=
    fun sp hsp he => by
      have := spaceFault_user hs hsp a n false
      rw [if_neg (by omega), if_neg (by simp)] at this
      exact this
  rcases h with ⟨hsp, he, rfl⟩ | ⟨hsp, g, hg, he, rfl⟩ | ⟨hsp, he, rfl⟩
  · refine ⟨huser _ (hsp.imp_right .inl) (by rw [extentOf_near hsp]; exact he), spaceKey_near hsp a, ?_⟩
    rcases hsp with hsp | hsp <;> rw [hsp]
    · exact hlocal
    · exact hquad
  · rw [hsp]
    exact ⟨huser 3 (by decide) (he.trans_eq (allotment_eq hs hg).symm), sramKey_eq hs hg hn hal, allottedKey_aligned hn hal⟩
  · rw [hsp]
    exact ⟨huser 5 (by decide) he, rfl, hlocal⟩

/-- The first check of the place that fails decides the fault. -/
theorem locate_placeFault {s : State} {r : Ref} {a n c : Nat} {st : Bool} {k : Option Miss} (hs : s.tid < 4096) (hn : ScalarSize n)
    (hal : a % n = 0) (h : PlaceFault s r a n st c k) (fa : Word) :
    locate s (whoTh s) (openRef s (whoTh s) r (accessOf st)) r a n (accessOf st) fa 0 = .error (.trap { cause := c, addr := fa, miss := k }) := by
  rcases h with ⟨hsp, h | h⟩ | ⟨hsp, rfl, h⟩
  · obtain ⟨ho, rfl⟩ := openRef_fault hsp h
    rw [ho]
    rfl
  · obtain ⟨o, slot, ho, hl⟩ := locateObject_fault hsp hn.pos h
    rw [ho, locate, whoTh_late, hl]
    rfl
  · rw [openRef_space hsp]
    show locateSpace s (whoTh s) (spaceOf r) a n (accessOf st) fa 0 = _
    rcases h with h | ⟨rfl, rfl, -, key, hm, h⟩
    · exact locateSpace_fault (spaceFault_of_claim hs hn.pos h) fa 0
    · obtain ⟨hf, rfl, hk⟩ := markedPlace_found hs hn hal h
      exact locateSpace_marked hf hn.pos (fun i hi => line_of_aligned hn hk hi) hm fa 0

end Sys2Proof.Machine

namespace Sys2Proof.Proofs
open Sys2Proof.Machine Sys2Proof.Safety Sys2Proof.Claims

/-- Settles O21: the checks of a scalar access, one after the other. -/
theorem scalarAccessFaults : Obligations.ScalarAccessFaults := by
  intro i s n r x m st hi hr hx hc
  have hi : ScalarAccess s i n r x m st := hi
  refine ⟨fun c h => hi.exec_fault hr hx hc (scalarLocs_badRef h ..), fun h => ⟨fun ha => hi.exec_fault hr hx hc (scalarLocs_range h ha _),
    fun h0 h44 hal => hi.exec_fault hr hx hc (scalarLocs_alignment h h0 h44 hal _)⟩, fun h h0 h44 hal c k hp => ?_⟩
  obtain ⟨a, ha⟩ := Int.eq_ofNat_of_zero_le h0
  rw [ha] at h44 hal hp ⊢
  rw [Int.toNat_natCast] at hp
  refine hi.exec_fault hr hx hc (f := { cause := c, addr := BitVec.ofInt 64 a, miss := k }) ?_
  rw [scalarLocs_locate h ha (by omega) (by omega), locate_placeFault hc.1 hi.size (by omega) hp]
  rfl

end Sys2Proof.Proofs
end

section
/-! SUPPORT. Numbers that registers hold (02 R29; 04 R94), branches and jumps (04 R107 to R111), and O3 and O4. -/

namespace Sys2Proof.Machine
open Sys2Proof.Safety Sys2Proof.Claims

/-! ### Words from numbers -/

theorem ofInt_eq_word (z : Int) : BitVec.ofInt 64 z = word (z % 2 ^ 64).toNat := by
  refine BitVec.eq_of_toNat_eq ?_
  rw [BitVec.toNat_ofInt, word, BitVec.toNat_ofNat]
  omega

/-- A word moved by a signed amount. -/
theorem add_ofInt (x : Word) (z : Int) : x + BitVec.ofInt 64 z = word (((x.toNat : Int) + z) % 2 ^ 64).toNat := by
  rw [← ofInt_eq_word, BitVec.ofInt_add, BitVec.ofInt_natCast, BitVec.ofNat_toNat, BitVec.setWidth_eq]

/-- An immediate of 16 bits as a signed word. -/
theorem signExtend_imm (m : BitVec 16) : m.signExtend 64 = BitVec.ofInt 64 (sgn 16 m.toNat) := by
  rw [BitVec.signExtend, toInt_eq_sgn m (by decide)]

/-! ### Branches (R107, R108) -/

theorem target_eq_away {n : Nat} (hn : 0 < n) (t : Thread) (m : BitVec n) : target t.pc m = away t n m.toNat := by
  rw [target, add_ofInt, toInt_eq_sgn m hn, away]

/-- A branch on two registers whose comparison is the condition. -/
theorem branch_goes {s : State} {a b : Rx} {c : Word → Word → Bool} {m : BitVec 16} {P : Prop} [Decidable P] {p : Word}
    (hp : some (if P then away s.th 16 m.toNat else s.th.pc + 4) = some p) (hr : ∀ r ∈ [a, b], ReadableX s.th r)
    (hc : c (s.th.rx a) (s.th.rx b) = true ↔ P) : branch c a b m s = .next (withThread s (goOn s.th p)) := by
  cases hp
  simp only [branch, useX_ok (hr a (by simp)), useX_ok (hr b (by simp)), ok_bind, hc, ← target_eq_away (by decide : 0 < 16)]
  split <;> rfl

/-- A branch on two predicates whose test is the condition. -/
theorem predBranch_goes {s : State} {a g : Rp} {c : PReg → PReg → Bool} {m : BitVec 16} {P : Prop} [Decidable P] {p : Word}
    (hp : some (if P then away s.th 16 m.toNat else s.th.pc + 4) = some p)
    (hc : c (pVal s.th a &&& pVal s.th g) (pVal s.th g) = true ↔ P) :
    predBranch c a g m s = .next (withThread s (goOn s.th p)) := by
  cases hp
  simp only [predBranch, Thread.rp_eq, hc, ← target_eq_away (by decide : 0 < 16)]
  split <;> rfl

theorem rx_slt (t : Thread) (a b : Rx) : (t.rx a).slt (t.rx b) = true ↔ sgn 64 (xVal t a) < sgn 64 (xVal t b) := by
  rw [BitVec.slt_iff_toInt_lt, rx_toInt, rx_toInt]

theorem rx_ult (t : Thread) (a b : Rx) : (t.rx a).ult (t.rx b) = true ↔ xVal t a < xVal t b := by
  rw [BitVec.ult_iff_toNat_lt, Thread.rx_toNat, Thread.rx_toNat]

theorem rx_eq_iff (t : Thread) (a b : Rx) : t.rx a = t.rx b ↔ xVal t a = xVal t b := by
  rw [BitVec.toNat_eq, Thread.rx_toNat, Thread.rx_toNat]

/-- No bit of two predicates is common. -/
theorem and_eq_zero_iff (p g : PReg) : p &&& g = 0 ↔ ∀ i, i < 128 → p.getLsbD i = true → g.getLsbD i = false := by
  refine ⟨fun h i _ hp => ?_, fun h => BitVec.eq_of_getLsbD_eq fun i hi => ?_⟩
  · have := congrArg (·.getLsbD i) h
    simpa [hp] using this
  · cases hp : p.getLsbD i
    · simp [hp]
    · simp [hp, h i hi hp]

/-- Every bit of one predicate is one of another. -/
theorem and_eq_right_iff (p g : PReg) : p &&& g = g ↔ ∀ i, i < 128 → g.getLsbD i = true → p.getLsbD i = true := by
  refine ⟨fun h i _ hg => ?_, fun h => BitVec.eq_of_getLsbD_eq fun i hi => ?_⟩
  · have := congrArg (·.getLsbD i) h
    simpa [hg] using this
  · cases hg : g.getLsbD i
    · simp [hg]
    · simp [hg, h i hi hg]

/-! ### Jumps (R109 to R111) -/

theorem jalr_target {s : State} (a : Rx) (m : BitVec 16) : s.th.rx a + m.signExtend 64 = word (jalrTarget s.th a m) := by
  rw [signExtend_imm, add_ofInt, Thread.rx_toNat, jalrTarget]

/-- `jalr` forms its target before it writes `xd`, and takes an alignment fault for one that is no multiple of 4. -/
theorem exec_jalr {s : State} {a : Rx} (d : Rx) (m : BitVec 16) (ha : ReadableX s.th a) :
    exec (.jalr d a m) s = finish s (if jalrTarget s.th a m % 4 = 0
      then .ok (withThread s (goOn (putX s.th d (linkOf s.th)) (word (jalrTarget s.th a m))))
      else trapOf 0x05 (word (jalrTarget s.th a m))) := by
  have ht : (word (jalrTarget s.th a m)).toNat = jalrTarget s.th a m := by
    rw [word, BitVec.toNat_ofNat, jalrTarget]
    omega
  show execJalr d a m s = _
  simp only [execJalr, useX_ok ha, ok_bind, jalr_target, ht, require, beq_iff_eq]
  split <;> rfl

end Sys2Proof.Machine

namespace Sys2Proof.Proofs
open Sys2Proof.Machine Sys2Proof.Safety Sys2Proof.Claims

/-- Settles O3: each branch compares as its condition does. -/
theorem branchResult : Obligations.BranchResult := by
  intro i s p hp hr
  cases i with
  | beq a b m => exact branch_goes hp hr (beq_iff_eq.trans (rx_eq_iff ..))
  | bne a b m => exact branch_goes hp hr (bne_iff_ne.trans (rx_eq_iff ..).not)
  | blt a b m => exact branch_goes hp hr (rx_slt ..)
  | bge a b m => exact branch_goes hp hr (by rw [Bool.not_eq_true', ← Bool.not_eq_true, rx_slt, not_lt])
  | bltn a b m => exact branch_goes hp hr (rx_ult ..)
  | bgen a b m => exact branch_goes hp hr (by rw [Bool.not_eq_true', ← Bool.not_eq_true, rx_ult, not_lt])
  | pbrAny a g m => exact predBranch_goes (c := fun k _ => k != 0) hp (by rw [bne_iff_ne, ne_eq, and_eq_zero_iff]; simp)
  | pbrAll a g m => exact predBranch_goes (c := fun k p => k == p) hp (beq_iff_eq.trans (and_eq_right_iff ..))
  | pbrNone a g m => exact predBranch_goes (c := fun k _ => k == 0) hp (beq_iff_eq.trans (and_eq_zero_iff ..))
  | _ => cases hp

/-- Settles O4: the target is formed first, and only an aligned one is taken. -/
theorem jumpResult : Obligations.JumpResult := by
  refine ⟨fun s d m => ?_, fun s d a m ha h => ?_, fun s d a m hc ha h => ?_⟩
  · rw [← target_eq_away (by decide)]
    rfl
  · rw [exec_jalr d m ha, if_pos h, finish_ok]
  · rw [exec_jalr d m ha, if_neg h, finish_trapOf hc]

end Sys2Proof.Proofs
end

section
/-! SUPPORT. The constant window (03 R66 to R68; 04 R105, R106; 14 R330), and O5. -/

namespace Sys2Proof.Machine
open Sys2Proof.Safety Sys2Proof.Claims

/-! ### Words of the window -/

/-- The words that lie in local memory (R66, R67). -/
theorem windowAt_stored {n : Nat} (h : n < 248) (s : State) :
    windowAt s n = word (leNat (s.mem.readList (localBase (s.tid / 2) + 8 * n) 8)) := by
  unfold windowAt
  split
  case h_9 => rfl
  all_goals omega

/-- The words that name a thread's place (R68). -/
theorem identityWord_eq {n : Nat} (h : 248 ≤ n) (h' : n ≤ 255) (s : State) : identityWord s s.tid n = windowAt s n := by
  have hf : onFdie s.tid = decide (dieHere s.tid % 2 = 0) := Bool.eq_iff_iff.mpr (by rw [onFdie_iff, decide_eq_true_eq])
  interval_cases n
  · rfl
  · rfl
  · exact congrArg word (sectionOf_eq s.tid)
  · exact congrArg (fun n => word (n / 16)) (sectionOf_eq s.tid)
  · rfl
  · rw [identityWord, State.thread_self]
    rfl
  · rfl
  · simp only [identityWord, hf, decide_eq_true_eq]
    rfl

theorem ownWindow_eq {n : Nat} (h : n ≤ 255) (s : State) : ownWindow s n = windowAt s n := by
  unfold ownWindow windowWord
  split
  · next h8 => exact identityWord_eq h8 h s
  · next h8 => exact (windowAt_stored (Nat.not_le.mp h8) s).symm

/-- A word that can be read is read (R105). -/
theorem useWindow_good {s : State} {n : Nat} (h : n ≤ 255) (hg : WindowGood s n) : useWindow s n = .ok (windowAt s n) := by
  unfold useWindow
  rw [ownWindow_eq h]
  split
  · rfl
  · next h8 =>
    have hc : Clean s (localBase (s.tid / 2) + 8 * n) 8 := hg.resolve_left h8
    have hw : weakLines s [windowLoc s n] = [] := weakLines_eq_nil fun l hl => by
      rw [List.mem_singleton.mp hl]
      exact (hc 0 (by decide)).2
    have hm : marked s (windowLoc s n) = false := marked_of_clean fun i hi => hc i (by omega)
    rw [hw, hm]
    rfl

/-- A stored word in a marked line takes a poison fault (R330). -/
theorem useWindow_marked {s : State} {n : Nat} (h : WindowMarked s n) : useWindow s n = trapOf 0x0B (word (8 * n)) := by
  obtain ⟨hn, hm⟩ := h
  have hw : weakLines s [windowLoc s n] = [] := weakLines_eq_nil fun l hl => by
    rw [List.mem_singleton.mp hl]
    exact hm.2
  have hp : marked s (windowLoc s n) = true := marked_of_marked hm
  unfold useWindow
  rw [if_neg (Nat.not_le.mpr hn), hw, hp]
  rfl

/-- The second word of a reference lies in the line of the first. -/
theorem windowGood_next {s : State} {n : Nat} (hn : n % 2 = 0) (h : WindowGood s n) : WindowGood s (n + 1) := by
  rcases Nat.lt_or_ge n 248 with h8 | h8
  case inr => exact .inl (by omega)
  refine .inr fun i hi => ?_
  have hc := h.resolve_left (Nat.not_le.mpr h8) 0 (by decide)
  have hsize : ScalarSize 16 := .inr (.inr (.inr (.inr rfl)))
  have hline : (localBase (s.tid / 2) + 8 * n + (8 + i)) / 256 = (localBase (s.tid / 2) + 8 * n) / 256 :=
    line_of_aligned hsize (aligned_add hsize (by unfold localBase; omega) (by omega)) (by omega)
  rw [show localBase (s.tid / 2) + 8 * (n + 1) + i = localBase (s.tid / 2) + 8 * n + (8 + i) by omega, hline]
  exact hc

theorem useWindowRef_good {s : State} {n : Nat} (h : n + 1 ≤ 255) (hn : n % 2 = 0) (hg : WindowGood s n) :
    useWindowRef s n = .ok (windowAt s (n + 1) ++ windowAt s n) := by
  rw [useWindowRef, useWindow_good (by omega) hg, useWindow_good h (windowGood_next hn hg)]
  rfl

theorem useWindowRef_marked {s : State} {n : Nat} (h : WindowMarked s n) : useWindowRef s n = trapOf 0x0B (word (8 * n)) := by
  rw [useWindowRef, useWindow_marked h]
  rfl

/-! ### The four forms (R105, R106) -/

/-- An indexed form of a word checks its index and reads the word. -/
theorem exec_kldIndexed {s : State} {a : Rx} (d : Rx) (k : Fin 256) (ha : ReadableX s.th a) :
    exec (.kldIndexed d a k) s = finish s (if k.val + xVal s.th a ≤ 255
      then (useWindow s (k.val + xVal s.th a)).map fun v => withThread s (goNext (putX s.th d v))
      else trapOf 0x06 (word (8 * (k.val + xVal s.th a)))) := by
  show execKldIndexed d a k s = _
  simp only [execKldIndexed, useX_ok ha, ok_bind, Thread.rx_toNat, require, decide_eq_true_eq]
  split
  · cases useWindow s (k.val + xVal s.th a) <;> rfl
  · rfl

/-- An indexed form of a reference checks that both words lie in the window, and then that the first is even. -/
theorem exec_kldRefIndexed {s : State} {a : Rx} (d : Ra) (k : Fin 128) (ha : ReadableX s.th a) :
    exec (.kldRefIndexed d a k) s = finish s (if 2 * k.val + xVal s.th a + 1 ≤ 255
      then if (2 * k.val + xVal s.th a) % 2 = 0
        then (useWindowRef s (2 * k.val + xVal s.th a)).map fun v => withThread s (goNext (putA s.th d v))
        else trapOf 0x05 (word (8 * (2 * k.val + xVal s.th a)))
      else trapOf 0x06 (word (8 * (2 * k.val + xVal s.th a)))) := by
  show execKldRefIndexed d a k s = _
  simp only [execKldRefIndexed, useX_ok ha, ok_bind, Thread.rx_toNat, require, decide_eq_true_eq, beq_iff_eq]
  split
  · split
    · cases useWindowRef s (2 * k.val + xVal s.th a) <;> rfl
    · rfl
  · rfl

theorem exec_kld (d : Rx) (k : Fin 256) (s : State) :
    exec (.kld d k) s = finish s ((useWindow s k.val).map fun v => withThread s (goNext (putX s.th d v))) := by
  show execKld d k s = _
  unfold execKld
  cases useWindow s k.val <;> rfl

theorem exec_kldRef (d : Ra) (k : Fin 128) (s : State) :
    exec (.kldRef d k) s = finish s ((useWindowRef s (2 * k.val)).map fun v => withThread s (goNext (putA s.th d v))) := by
  show execKldRef d k s = _
  unfold execKldRef
  cases useWindowRef s (2 * k.val) <;> rfl

/-- A read of a marked line ends in its poison fault. -/
theorem finish_poisoned {s : State} {α : Type} (hc : CanHold s 1) (n : Nat) (f : α → State) :
    finish s ((trapOf 0x0B (word n)).map f) = .next (faulted s 0x0B (word n) 0 0 none) := finish_trapOf hc 0x0B (word n) 0

end Sys2Proof.Machine

namespace Sys2Proof.Proofs
open Sys2Proof.Machine Sys2Proof.Safety Sys2Proof.Claims

/-- Settles O5, by what a read of one or two words of the window answers. -/
theorem constantWindow : Obligations.ConstantWindow := by
  refine ⟨fun s d k => ⟨fun hg => ?_, fun hm hc => ?_⟩, fun s d k => ⟨fun hg => ?_, fun hm hc => ?_⟩,
    fun s d a k ha => ⟨fun h hg => ?_, fun hm hc => ?_, fun h hc => ?_⟩, fun s d a k n hn ha => ?_⟩
  · rw [exec_kld, useWindow_good (by omega) hg]
    rfl
  · rw [exec_kld, useWindow_marked hm, finish_poisoned hc]
  · rw [exec_kldRef, useWindowRef_good (by omega) (by omega) hg]
    rfl
  · rw [exec_kldRef, useWindowRef_marked hm, finish_poisoned hc, ← Nat.mul_assoc]
  · rw [exec_kldIndexed d k ha, if_pos h, useWindow_good h hg]
    rfl
  · have hn := hm.1
    rw [exec_kldIndexed d k ha, if_pos (by omega), useWindow_marked hm, finish_poisoned hc]
  · rw [exec_kldIndexed d k ha, if_neg (by omega), finish_trapOf hc]
  · subst hn
    rw [exec_kldRefIndexed d k ha]
    refine ⟨fun hm h0 hc => ?_, fun h h0 hg => ?_, fun h hc => ?_, fun h h1 hc => ?_⟩
    · have hn := hm.1
      rw [if_pos (by omega), if_pos h0, useWindowRef_marked hm, finish_poisoned hc]
    · rw [if_pos h, if_pos h0, useWindowRef_good h h0 hg]
      rfl
    · rw [if_neg (by omega), finish_trapOf hc]
    · rw [if_pos h, if_neg (by omega), finish_trapOf hc]

end Sys2Proof.Proofs
end

section
/-! SUPPORT. References' fields (04 R113 to R115), and O6. -/

namespace Sys2Proof.Machine
open Sys2Proof.Safety Sys2Proof.Claims

/-- An operation on a reference and an `x` register writes its result (R113, R114). -/
theorem refOp_writes {s : State} {a : Ra} {b : Rx} (f : Ref → Word → Ref) (d : Ra) (ha : Readable s.th (.a a)) (hb : ReadableX s.th b) :
    refOp f d a b s = .next (withThread s (goNext (putA s.th d (f s.th.a[a] (s.th.rx b))))) := by
  rw [refOp, useA_ok ha, useX_ok hb]
  rfl

/-- A field of a reference goes to an `x` register (R113). -/
theorem refGet_writes {s : State} {a : Ra} (f : Ref → Nat) (d : Rx) (ha : Readable s.th (.a a)) :
    refGet f d a s = .next (withThread s (goNext (putX s.th d (word (f s.th.a[a]))))) := by
  rw [refGet, useA_ok ha]
  rfl

end Sys2Proof.Machine

namespace Sys2Proof.Proofs
open Sys2Proof.Machine Sys2Proof.Safety Sys2Proof.Claims

/-- Settles O6: each operation writes one field of its source, computed from the fields and its `x` register. -/
theorem referenceFields : Obligations.ReferenceFields := by
  intro i s e h ha hx
  cases i with
  | amov d a =>
    cases h
    exact refOp_writes (fun r _ => r) d (ha a (by simp [refSources])) (.inl rfl)
  | aoff d a b k =>
    cases h
    rw [← Thread.rx_toNat]
    exact refOp_writes _ d (ha a (by simp [refSources])) (hx b (by simp [refSources]))
  | asetf d a b | asetb d a b =>
    cases h
    rw [← Thread.rx_toNat]
    exact refOp_writes _ d (ha a (by simp [refSources])) (hx b (by simp [refSources]))
  | ageto d a | agetn d a =>
    cases h
    exact refGet_writes _ d (ha a (by simp [refSources]))
  | aspace d a sp =>
    cases h
    show execAspace d a sp s = _
    rw [execAspace, useX_ok (hx a (by simp [refSources])), ← Thread.rx_toNat]
    rfl
  | _ => cases h

end Sys2Proof.Proofs
end

section
/-! SUPPORT. References made from object records, and the causes that `achk` gives (03 R66, R70, R71; 04 R116 to R118; 14 R310,
R311, R314, R315), and O31. -/

namespace Sys2Proof.Machine
open Sys2Proof.Safety Sys2Proof.Claims

/-! ### References from a record (R116, R117) -/

theorem usableRecord_ok {s : State} {n : Nat} {o : ObjRec} (h : Record s n o) (fa : Word) : usableRecord s n fa = .ok o := by
  obtain ⟨hr, hm⟩ := h
  rw [usableRecord, hr]
  simp [hm]

theorem usableRecord_absent {s : State} {n : Nat} (h : objRecord s (contextOf s s.th.gang) n = .ok none) (fa : Word) :
    usableRecord s n fa = .error (.trap { cause := 0x08, addr := fa, miss := some { obj := n, off := 0 } }) := by
  rw [usableRecord, h]

/-- The reference that `amake` makes of a record (R116). -/
def recordRef (o : ObjRec) (n off : Nat) : Ref :=
  BitVec.ofNat 128 (o.gen * 2 ^ 96 + o.blog * 2 ^ 90 + o.sk * 2 ^ 88 + o.type * 2 ^ 84 + n * 2 ^ 44 + off % 2 ^ 44)

/-- `amake` checks the number, and then its record. -/
theorem exec_amake {s : State} {a b : Rx} (d : Ra) (ha : ReadableX s.th a) (hb : ReadableX s.th b) :
    exec (.amake d a b) s = finish s (if xVal s.th a ≠ 0 ∧ xVal s.th a < 2 ^ 36
      then (usableRecord s (xVal s.th a) (word (xVal s.th a))).map fun o =>
        withThread s (goNext (putA s.th d (recordRef o (xVal s.th a) (xVal s.th b))))
      else trapOf 0x08 (word (xVal s.th a))) := by
  show execAmake d a b s = _
  have hn : (s.th.rx a != 0 && decide (xVal s.th a < 2 ^ 36)) = true ↔ xVal s.th a ≠ 0 ∧ xVal s.th a < 2 ^ 36 := by
    rw [Bool.and_eq_true, bne_iff_ne, decide_eq_true_eq, ne_eq, Thread.rx_eq_zero]
  simp only [execAmake, useX_ok ha, useX_ok hb, ok_bind, require, hn, Thread.rx_toNat]
  rw [Thread.rx_eq_word]
  split
  · cases usableRecord s (xVal s.th a) (word (xVal s.th a)) <;> rfl
  · rfl

/-- What two coordinates add: the check of their shape, and then that of an l6 group (R117). -/
theorem coordOffset_eq (o : ObjRec) (row col : Nat) (fa : Word) : coordOffset o row col fa =
    if row < (if o.dims = 0 then 1 else o.ext.getD (o.dims - 1) 0) ∧ col < o.ext.getD o.dims 0
    then if o.type = 14 → col % 4 = 0 then .ok (coordAdd o row col) else trapOf 0x05
    else trapOf 0x06 fa := by
  have hdim : (o.d = 1) = (o.dims = 0) := by simp [ObjRec.d]
  have hrow : o.d - 2 = o.dims - 1 := by simp [ObjRec.d]
  have hcol : o.d - 1 = o.dims := Nat.add_sub_cancel ..
  have hgroup : (o.type != 14 || col % 4 == 0) = true ↔ (o.type = 14 → col % 4 = 0) := by
    simp [imp_iff_not_or]
  have hadd : row * (if o.dims = 0 then 0 else o.stride.getD (o.dims - 1) 0) = if o.dims = 0 then 0 else row * o.stride.getD (o.dims - 1) 0 := by
    rw [mul_ite, Nat.mul_zero]
  simp only [coordOffset, hdim, hrow, hcol, require, Bool.and_eq_true, decide_eq_true_eq, hgroup, hadd]
  by_cases hin : row < (if o.dims = 0 then 1 else o.ext.getD (o.dims - 1) 0) ∧ col < o.ext.getD o.dims 0
  · rw [if_pos hin, if_pos hin]
    by_cases hc : o.type = 14 → col % 4 = 0
    · rw [if_pos hc, if_pos hc]
      rfl
    · rw [if_neg hc, if_neg hc]
      rfl
  · rw [if_neg hin, if_neg hin]
    rfl

/-- `acoord` on a reference whose record is there adds the offset of two coordinates (R117). -/
theorem exec_acoord {s : State} {a : Ra} {b c : Rx} {o : ObjRec} (d : Ra) (ha : Readable s.th (.a a)) (hb : ReadableX s.th b)
    (hc : ReadableX s.th c) (hw : WellFormedRef s.th.a[a]) (hsp : spaceOf s.th.a[a] = 0) (ho : Record s (refBits s.th.a[a] 44 36) o)
    (ht : refBits s.th.a[a] 96 32 = o.gen) :
    exec (.acoord d a b c) s =
      finish s ((coordOffset o (xVal s.th b) (xVal s.th c) (word (refBits s.th.a[a] 0 44))).map fun k =>
        withThread s (goNext (putA s.th d (refWith s.th.a[a] 0 44 (refBits s.th.a[a] 0 44 + k))))) := by
  have hsp : (refSpace s.th.a[a] == 0) = true := beq_iff_eq.mpr hsp
  have ht : (refTag s.th.a[a] == o.gen) = true := beq_iff_eq.mpr ht
  have ho : usableRecord s (refObj s.th.a[a]) 0 = .ok o := usableRecord_ok ho 0
  show execAcoord d a b c s = _
  simp only [execAcoord, useA_ok ha, useX_ok hb, useX_ok hc, ok_bind, Thread.rx_toNat, checkRef_wellFormed hw, hsp, ht, ho, require_true]
  show finish s (coordOffset o (xVal s.th b) (xVal s.th c) (word (refBits s.th.a[a] 0 44)) >>= _) = _
  cases coordOffset o (xVal s.th b) (xVal s.th c) (word (refBits s.th.a[a] 0 44)) <;> rfl

/-! ### Rows of an object (R311, R315) -/

/-- Each row lies within one step of the dimension before it, and the innermost unit has a byte (R311). -/
def RowsNest (o : ObjRec) : Prop :=
  0 < o.stride.getD o.dims 1 ∧ ∀ i, i < o.dims → o.stride.getD (i + 1) 1 * unitsAt o o.ext (i + 1) ≤ o.stride.getD i 1

theorem unitBytes_pos (t : Nat) : 0 < unitBytes t := by
  unfold unitBytes
  split
  · decide
  · next u _ _ => cases u <;> decide
  · decide

theorem getD_zero_le (l : List Nat) (i : Nat) : l.getD i 0 ≤ l.getD i 1 := by
  rw [List.getD_eq_getElem?_getD, List.getD_eq_getElem?_getD]
  cases l[i]? with
  | none => exact Nat.zero_le 1
  | some x => exact le_rfl

/-- A stride that is not zero is listed. -/
theorem getD_one {l : List Nat} {i : Nat} (h : l.getD i 0 ≠ 0) : l.getD i 1 = l.getD i 0 := by
  rw [List.getD_eq_getElem?_getD] at h
  rw [List.getD_eq_getElem?_getD, List.getD_eq_getElem?_getD]
  cases hl : l[i]? with
  | none => simp [hl] at h
  | some x => rfl

theorem rowsNest_of_wellFormed {o : ObjRec} (h : o.malformed = false) : RowsNest o := by
  simp only [ObjRec.malformed, Bool.or_eq_false_iff, bne_eq_false_iff_eq, List.any_eq_false, List.mem_range, Bool.or_eq_true, beq_iff_eq,
    decide_eq_true_eq, not_or, Nat.not_lt, o.inUnits_eq, and_assoc] at h
  obtain ⟨-, -, -, -, hunit, -, hrows, -⟩ := h
  have hinner : o.stride.getD o.dims 0 ≠ 0 := hunit.symm ▸ (unitBytes_pos o.type).ne'
  refine ⟨by rw [getD_one hinner]; omega, fun i hi => ?_⟩
  obtain ⟨h0, -, hle⟩ := hrows i hi
  rw [getD_one h0]
  exact hle.trans (getD_zero_le ..)

/-- An offset with room for `j` more bytes in its innermost row has room for them in every dimension. -/
theorem room_of_innermost {o : ObjRec} {a j : Nat} (ho : RowsNest o) (ha : InShape o a)
    (hj : restAt o a o.dims + j < o.stride.getD o.dims 1 * unitsAt o o.ext o.dims) {d k : Nat} (hd : d + k = o.dims) :
    restAt o a d + j < o.stride.getD d 1 * unitsAt o o.ext d := by
  induction k generalizing d with
  | zero =>
    rw [Nat.add_zero] at hd
    rwa [hd]
  | succ k ih =>
    have hrest : restAt o a d % o.stride.getD d 1 + j < o.stride.getD d 1 := (ih (d := d + 1) (by omega)).trans_le (ho.2 d (by omega))
    calc restAt o a d + j = o.stride.getD d 1 * coordAt o a d + (restAt o a d % o.stride.getD d 1 + j) := by
          rw [← Nat.add_assoc, coordAt, Nat.div_add_mod]
      _ < o.stride.getD d 1 * (coordAt o a d + 1) := by
          rw [Nat.mul_succ]
          omega
      _ ≤ o.stride.getD d 1 * unitsAt o o.ext d := Nat.mul_le_mul_left _ (ha d (by omega))

/-- Within the innermost row an offset moves no outer coordinate. -/
theorem restAt_add {o : ObjRec} {a j : Nat} (ho : RowsNest o) (ha : InShape o a)
    (hj : restAt o a o.dims + j < o.stride.getD o.dims 1 * unitsAt o o.ext o.dims) {d : Nat} (hd : d ≤ o.dims) :
    restAt o (a + j) d = restAt o a d + j := by
  induction d with
  | zero => rfl
  | succ d ih =>
    have hroom : restAt o a (d + 1) + j < o.stride.getD d 1 :=
      (room_of_innermost ho ha hj (Nat.add_sub_cancel' hd)).trans_le (ho.2 d hd)
    show restAt o (a + j) d % o.stride.getD d 1 = _
    rw [ih (by omega), ← Nat.mod_add_mod]
    exact Nat.mod_eq_of_lt hroom

theorem inShape_add {o : ObjRec} {a j : Nat} (ho : RowsNest o) (ha : InShape o a)
    (hj : restAt o a o.dims + j < o.stride.getD o.dims 1 * unitsAt o o.ext o.dims) : InShape o (a + j) := by
  intro d hd
  refine Nat.div_lt_of_lt_mul ?_
  rw [restAt_add ho ha hj hd]
  exact room_of_innermost ho ha hj (Nat.add_sub_cancel' hd)

/-- The bytes from an offset to the end of its innermost row. -/
def rowRest (o : ObjRec) (a : Nat) : Nat :=
  (unitsAt o o.ext o.dims - coordAt o a o.dims) * o.stride.getD o.dims 1 - restAt o a (o.dims + 1)

theorem rowRest_eq {o : ObjRec} {a : Nat} (ho : RowsNest o) (ha : InShape o a) :
    restAt o a o.dims + rowRest o a = o.stride.getD o.dims 1 * unitsAt o o.ext o.dims ∧ 0 < rowRest o a := by
  have hlt : restAt o a (o.dims + 1) < o.stride.getD o.dims 1 := Nat.mod_lt _ ho.1
  have hdiv : o.stride.getD o.dims 1 * coordAt o a o.dims + restAt o a (o.dims + 1) = restAt o a o.dims := Nat.div_add_mod ..
  obtain ⟨k, hk⟩ := Nat.exists_eq_add_of_lt (ha o.dims le_rfl)
  rw [Nat.add_assoc] at hk
  have hrun : rowRest o a = o.stride.getD o.dims 1 * k + o.stride.getD o.dims 1 - restAt o a (o.dims + 1) := by
    rw [rowRest, hk, Nat.add_sub_cancel_left, Nat.mul_comm, Nat.mul_succ]
  rw [hk, Nat.mul_add, Nat.mul_succ]
  omega

/-- The shape check, row by row, is that of each byte (R315). -/
theorem inShape_true_iff {o : ObjRec} (ho : RowsNest o) {k n : Nat} (h : n ≤ k) (a : Nat) :
    inShape o k a n = true ↔ ∀ j, j < n → InShape o (a + j) := by
  induction k generalizing a n with
  | zero =>
    obtain rfl : n = 0 := by omega
    simp [inShape]
  | succ k ih =>
    by_cases hn : n = 0
    · simp [inShape, hn]
    by_cases ha : InShape o a
    · obtain ⟨hrow, hpos⟩ := rowRest_eq ho ha
      have hstep : inShape o (k + 1) a n = inShape o k (a + rowRest o a) (n - rowRest o a) := by
        rw [inShape, if_neg hn, coordsOf_inShape ha]
        dsimp only
        rw [coords_getD (Nat.lt_succ_self o.dims), o.inUnits_eq]
        rfl
      rw [hstep, ih (by omega)]
      refine ⟨fun hs j hj => ?_, fun hs j hj => Nat.add_assoc a .. ▸ hs (rowRest o a + j) (by omega)⟩
      by_cases hr : j < rowRest o a
      · exact inShape_add ho ha (by omega)
      · have := hs (j - rowRest o a) (by omega)
        rwa [Nat.add_assoc, Nat.add_sub_cancel' (by omega)] at this
    · have hstep : inShape o (k + 1) a n = false := by rw [inShape, if_neg hn, coordsOf_outside ha]
      rw [hstep]
      exact ⟨nofun, fun hs => absurd (hs 0 (by omega)) ha⟩

/-! ### The causes of `achk` (R118) -/

/-- What a fault of the checks of a space other than 0 and 4 tells. -/
theorem spaceFault_user_some {s : State} {sp a n c : Nat} {st : Bool} (hs : s.tid < 4096) (hsp : sp = 1 ∨ sp = 2 ∨ sp = 3 ∨ sp = 5)
    (h : spaceFault s (whoTh s) sp a n (accessOf st) = some c) : (extentOf s sp < a + n ∧ c = 0x06)
      ∨ (a + n ≤ extentOf s sp ∧ st = true ∧ (sp = 5 ∨ sp = 1 ∧ a < 2048) ∧ c = 0x09) := by
  rw [spaceFault_user hs hsp] at h
  split_ifs at h with he hst
  · exact .inl ⟨he, (Option.some.inj h).symm⟩
  · exact .inr ⟨Nat.not_lt.mp he, hst.1, hst.2, (Option.some.inj h).symm⟩

/-- What a fault of the checks of space 4 tells. -/
theorem spaceFault_other_some {s : State} {a n c : Nat} {st : Bool} (h : spaceFault s (whoTh s) 4 a n (accessOf st) = some c) :
    (2048 ≤ a / 2 ^ 32 ∧ c = 0x06) ∨ (a / 2 ^ 32 < 2048 ∧ ¬Reachable s (a / 2 ^ 32) ∧ c = 0x09)
      ∨ (a / 2 ^ 32 < 2048 ∧ Reachable s (a / 2 ^ 32) ∧ localBytesOf s (a / 2 ^ 32) < a % 2 ^ 32 + n ∧ c = 0x06)
      ∨ (a / 2 ^ 32 < 2048 ∧ Reachable s (a / 2 ^ 32) ∧ st = true ∧ a % 2 ^ 32 < 2048
        ∧ a % 2 ^ 32 + n ≤ localBytesOf s (a / 2 ^ 32) ∧ c = 0x09) := by
  by_cases hc : 2048 ≤ a / 2 ^ 32
  · rw [spaceFault_other_core hc] at h
    exact .inl ⟨hc, (Option.some.inj h).symm⟩
  rw [Nat.not_le] at hc
  by_cases hr : Reachable s (a / 2 ^ 32)
  · rw [spaceFault_other hc hr] at h
    split_ifs at h with he hst
    · exact .inr (.inr (.inl ⟨hc, hr, he, (Option.some.inj h).symm⟩))
    · exact .inr (.inr (.inr ⟨hc, hr, hst.1, hst.2, Nat.not_lt.mp he, (Option.some.inj h).symm⟩))
  · rw [spaceFault_other_gang hc hr] at h
    exact .inr (.inl ⟨hc, hr, (Option.some.inj h).symm⟩)

/-- A fault of a space's checks is one of the claims'. -/
theorem claim_of_spaceFault {s : State} {r : Ref} {a n c : Nat} {st : Bool} (hs : s.tid < 4096) (h0 : spaceOf r ≠ 0) (h5 : spaceOf r ≤ 5)
    (h : spaceFault s (whoTh s) (spaceOf r) a n (accessOf st) = some c) : SpaceFault s r a n st c := by
  unfold SpaceFault
  by_cases h4 : spaceOf r = 4
  · exact .inr (.inr (.inr (.inl ⟨h4, spaceFault_other_some (h4 ▸ h)⟩)))
  have hsp : spaceOf r = 1 ∨ spaceOf r = 2 ∨ spaceOf r = 3 ∨ spaceOf r = 5 := by omega
  rcases spaceFault_user_some hs hsp h with ⟨he, rfl⟩ | ⟨he, rfl, hw, rfl⟩
  · rcases hsp with hsp | hsp | hsp | hsp <;> rw [hsp] at he
    · exact .inl ⟨.inl hsp, hsp ▸ he, rfl⟩
    · exact .inl ⟨.inr hsp, hsp ▸ he, rfl⟩
    · exact .inr (.inr (.inl ⟨hsp, fun g hg => allotment_eq hs hg ▸ he, rfl⟩))
    · exact .inr (.inr (.inr (.inr ⟨hsp, .inl ⟨he, rfl⟩⟩)))
  · rcases hw with hsp | ⟨hsp, ha⟩ <;> rw [hsp] at he
    · exact .inr (.inr (.inr (.inr ⟨hsp, .inr ⟨he, rfl, hs, rfl⟩⟩)))
    · exact .inr (.inl ⟨hsp, rfl, ha, he, rfl⟩)

/-- The shape check of a range of bytes (R118, R315). -/
theorem shapeCause_eq {o : ObjRec} {a n c : Nat} (hm : o.malformed = false)
    (h : ((2 ^ 44 < n ∨ ∃ j, j < n ∧ ¬InShape o (a + j)) ∧ c = 0x06) ∨ (n ≤ 2 ^ 44 ∧ (∀ j, j < n → InShape o (a + j)) ∧ c = 0)) :
    (if n ≤ 2 ^ 44 ∧ inShape o n a n = true then 0 else 0x06) = c := by
  have hi := inShape_true_iff (rowsNest_of_wellFormed hm) (le_refl n) a
  rcases h with ⟨h, rfl⟩ | ⟨hn, hs, rfl⟩
  · refine if_neg fun ⟨hn, hs⟩ => ?_
    rcases h with h | ⟨j, hj, h⟩
    · omega
    · exact h (hi.mp hs j hj)
  · exact if_pos ⟨hn, hi.mpr hs⟩

theorem openPlain_absent {s : State} {r : Ref} (hsp : spaceOf r = 0) (h : Absent s (refBits r 44 36)) (st : Bool) :
    openPlain s (whoTh s) r (accessOf st) = .bad 0x08 := by
  have ho := (openRef_fault (st := st) hsp (.inl ⟨h, rfl, rfl⟩)).1
  unfold openRef at ho
  split at ho
  · split at ho <;> cases ho
  · exact ho

/-- The checks of a global reference's object, and then of its shape. -/
theorem achkCause_object {s : State} {r : Ref} {n c : Nat} {st : Bool} {o : ObjRec} (hw : WellFormedRef r) (hsp : spaceOf r = 0)
    (hp : Present s (refBits r 44 36) o)
    (h : (o.malformed = true ∧ c = 0x02) ∨ (o.malformed = false ∧ refBits r 96 32 ≠ o.gen ∧ c = 0x08)
      ∨ (o.malformed = false ∧ refBits r 96 32 = o.gen ∧ ¬(Permits o st ∧ KeyFits s o) ∧ c = 0x09)
      ∨ (o.malformed = false ∧ refBits r 96 32 = o.gen ∧ Permits o st ∧ KeyFits s o
        ∧ (((2 ^ 44 < n ∨ ∃ j, j < n ∧ ¬InShape o (refBits r 0 44 + j)) ∧ c = 0x06)
          ∨ (n ≤ 2 ^ 44 ∧ (∀ j, j < n → InShape o (refBits r 0 44 + j)) ∧ c = 0)))) :
    achkCause s r n (accessOf st) = .ok c := by
  rw [achkCause, refFault_none.mpr hw, openPlain_present hsp hp]
  rcases h with ⟨hm, rfl⟩ | ⟨hm, ht, rfl⟩ | ⟨hm, ht, hk, rfl⟩ | ⟨hm, ht, ha, hk, h⟩
  · rw [if_pos hm]
  · rw [hm, if_neg (by simp), if_pos ht]
  · rw [hm, if_neg (by simp), if_neg (not_not.mpr ht), ← ite_or, if_pos]
    rwa [← allowed_iff, keyFits_iff, not_and_or, Bool.not_eq_true, Bool.not_eq_false] at hk
  · rw [hm, if_neg (by simp), if_neg (not_not.mpr ht), if_neg (by simp [allowed_iff.mpr ha]), keyFits_iff.mp hk, if_neg (by simp)]
    exact congrArg Except.ok (shapeCause_eq hm h)

/-- The cause of R118 for a load or a store of some bytes. -/
theorem achkCause_eq {s : State} {r : Ref} {n c : Nat} {st : Bool} (hn : 0 < n) (h : AchkCause s r n st c) :
    achkCause s r n (accessOf st) = .ok c := by
  rcases h with h | ⟨hw, hsp, ⟨ha, rfl⟩ | ⟨o, hp, h⟩⟩ | ⟨hw, hsp, hs, h⟩
  · rw [achkCause, h]
  · rw [achkCause, refFault_none.mpr hw, openPlain_absent hsp ha]
  · exact achkCause_object hw hsp hp h
  · have ho : openPlain s (whoTh s) r (accessOf st) = .space := if_pos hsp
    rw [achkCause, refFault_none.mpr hw, ho]
    dsimp only
    rcases h with h | ⟨h, rfl⟩
    · rw [show refSpace r = spaceOf r from rfl, show refOff r = refBits r 0 44 from rfl, spaceFault_of_claim hs hn h]
    · cases hf : spaceFault s (whoTh s) (refSpace r) (refOff r) n (accessOf st) with
      | none => rfl
      | some c => exact absurd (claim_of_spaceFault hs hsp hw.2.1 hf) (h c)

/-- `achk` writes both causes, for one byte where its length is 0. -/
theorem exec_achk {s : State} {a : Ra} {b : Rx} {ld st : Nat} (d : Rx) (ha : Readable s.th (.a a)) (hb : ReadableX s.th b)
    (hl : achkCause s s.th.a[a] (if xVal s.th b = 0 then 1 else xVal s.th b) .load = .ok ld)
    (hs : achkCause s s.th.a[a] (if xVal s.th b = 0 then 1 else xVal s.th b) .store = .ok st) :
    exec (.achk d a b) s = .next (withThread s (goNext (putX s.th d (word (ld + 256 * st))))) := by
  show execAchk d a b s = _
  simp only [execAchk, useA_ok ha, useX_ok hb, ok_bind, Thread.rx_eq_zero, Thread.rx_toNat, hl, hs]
  rfl

end Sys2Proof.Machine

namespace Sys2Proof.Proofs
open Sys2Proof.Machine Sys2Proof.Safety Sys2Proof.Claims

/-- Settles O31: the checks of each instruction in their order, and its one register. -/
theorem referenceRecords : Obligations.ReferenceRecords := by
  refine ⟨fun s d a b o ha hb h1 hn ho => ?_, fun s d a b ha hb hc => ⟨fun hn => ?_, fun h0 hn ho => ?_⟩,
    fun s d a b c o ha hb hc hw hsp ho ht => ?_, fun s d a b ld st ha hb hl hs => exec_achk d ha hb hl hs,
    fun s d a b ld st ha hb hl hs => exec_achk d ha hb (achkCause_eq ?_ hl) (achkCause_eq ?_ hs)⟩
  · rw [exec_amake d ha hb, if_pos ⟨by omega, hn⟩, usableRecord_ok ho]
    rfl
  · rw [exec_amake d ha hb, if_neg (by omega), finish_trapOf hc]
  · rw [exec_amake d ha hb, if_pos ⟨h0, hn⟩, usableRecord_absent ho]
    exact (finish_trap ..).trans (congrArg _ (takeFault_user hc _))
  · dsimp only
    rw [exec_acoord d ha hb hc hw hsp ho ht, coordOffset_eq]
    refine ⟨fun hr hk hg => ?_, fun h hf => ?_, fun hr hk h6 hg hf => ?_⟩
    · rw [if_pos ⟨hr, hk⟩, if_pos hg]
      rfl
    · rw [if_neg (by omega)]
      exact finish_trapOf hf 0x06 _ 0
    · rw [if_pos ⟨hr, hk⟩, if_neg fun h => hg (h h6)]
      exact finish_trapOf hf 0x05 0 0
  · split <;> omega
  · split <;> omega

end Sys2Proof.Proofs
end

section
/-! SUPPORT. The values of the integer instructions as functions of numbers (04 R96 to R104), and O1. -/

namespace Sys2Proof.Machine
open Sys2Proof.Safety Sys2Proof.Claims

/-! ### Both widths of an operation (R97) -/

theorem sextW_ofInt (z : Int) : sextW (BitVec.ofInt 32 z) = BitVec.ofInt 64 (sgn 32 (z % 2 ^ 32).toNat) := by
  have hz : (BitVec.ofInt 32 z).toNat = (z % 2 ^ 32).toNat := BitVec.toNat_ofInt z
  rw [sextW, BitVec.signExtend, toInt_eq_sgn _ (by decide), hz]

theorem lowW_toNat (v : Word) : (lowW v).toNat = v.toNat % 2 ^ 32 := BitVec.toNat_setWidth 32 v

theorem wide_true (f32 : BitVec 32 → BitVec 32 → BitVec 32) (f64 : Word → Word → Word) (x y : Word) :
    wide true f32 f64 x y = sextW (f32 (lowW x) (lowW y)) := rfl
theorem wide_false (f32 : BitVec 32 → BitVec 32 → BitVec 32) (f64 : Word → Word → Word) (x y : Word) :
    wide false f32 f64 x y = f64 x y := rfl
theorem width_true : width true = 32 := rfl
theorem width_false : width false = 64 := rfl
theorem result_true (z : Int) : result true z = sextW (BitVec.ofInt 32 z) := (sextW_ofInt z).symm
theorem result_false (z : Int) : result false z = BitVec.ofInt 64 z := rfl

/-- The bits that a `.w` form takes of a source. -/
theorem xVal_low (t : Thread) (r : Rx) : xVal t r % 2 ^ 32 = (lowW (t.rx r)).toNat := by rw [lowW_toNat, Thread.rx_toNat]
theorem xVal_mod (t : Thread) (r : Rx) : xVal t r % 2 ^ 64 = (t.rx r).toNat := by
  rw [← Thread.rx_toNat, Nat.mod_eq_of_lt (t.rx r).isLt]

/-- An operation given at both widths by a function of unsigned numbers. -/
theorem un_of_value {f32 : BitVec 32 → BitVec 32 → BitVec 32} {f64 : Word → Word → Word} {w : Bool} (f : Nat → Nat → Nat)
    (h32 : w = true → ∀ x y, f32 x y = BitVec.ofNat 32 (f x.toNat y.toNat))
    (h64 : w = false → ∀ x y, f64 x y = BitVec.ofNat 64 (f x.toNat y.toNat)) (t : Thread) (d a b : Rx) :
    un t w d a b f = some (d, wide w f32 f64 (t.rx a) (t.rx b)) := by
  cases w
  · rw [un, wide_false, width_false, result_false, xVal_mod, xVal_mod, h64 rfl, BitVec.ofInt_natCast]
  · rw [un, wide_true, width_true, result_true, xVal_low, xVal_low, h32 rfl, BitVec.ofInt_natCast]

/-- An operation given at both widths by a function of signed numbers. -/
theorem si_of_value {f32 : BitVec 32 → BitVec 32 → BitVec 32} {f64 : Word → Word → Word} {w : Bool} (f : Int → Int → Int)
    (h32 : w = true → ∀ x y, f32 x y = BitVec.ofInt 32 (f x.toInt y.toInt))
    (h64 : w = false → ∀ x y, f64 x y = BitVec.ofInt 64 (f x.toInt y.toInt)) (t : Thread) (d a b : Rx) :
    si t w d a b f = some (d, wide w f32 f64 (t.rx a) (t.rx b)) := by
  cases w
  · rw [si, wide_false, width_false, result_false, xVal_mod, xVal_mod, h64 rfl, toInt_eq_sgn _ (by decide), toInt_eq_sgn _ (by decide)]
  · rw [si, wide_true, width_true, result_true, xVal_low, xVal_low, h32 rfl, toInt_eq_sgn _ (by decide), toInt_eq_sgn _ (by decide)]

/-! ### Values at every width (R96, R98) -/

section Values
variable {n : Nat} (x y : BitVec n)

theorem ofNat_of_toNat {v : BitVec n} {k : Nat} (h : v.toNat = k % 2 ^ n) : v = BitVec.ofNat n k :=
  BitVec.eq_of_toNat_eq (h.trans (BitVec.toNat_ofNat k n).symm)

theorem ofInt_of_toInt {v : BitVec n} {k : Int} (h : v.toInt = k.bmod (2 ^ n)) : v = BitVec.ofInt n k :=
  BitVec.eq_of_toInt_eq (h.trans (BitVec.toInt_ofInt k).symm)

theorem add_value : x + y = BitVec.ofNat n (x.toNat + y.toNat) := ofNat_of_toNat (BitVec.toNat_add x y)
theorem mul_value : x * y = BitVec.ofNat n (x.toNat * y.toNat) := ofNat_of_toNat (BitVec.toNat_mul x y)
theorem sub_value : x - y = BitVec.ofInt n (x.toInt - y.toInt) := ofInt_of_toInt BitVec.toInt_sub

theorem shiftLeft_value (k : Nat) : x <<< k = BitVec.ofNat n (x.toNat * 2 ^ k) :=
  ofNat_of_toNat (by rw [BitVec.toNat_shiftLeft, Nat.shiftLeft_eq])

theorem shiftRight_value (k : Nat) : x >>> k = BitVec.ofNat n (x.toNat / 2 ^ k) := by
  rw [← Nat.shiftRight_eq_div_pow, ← BitVec.toNat_ushiftRight, BitVec.ofNat_toNat, BitVec.setWidth_eq]

theorem sshiftRight_value (k : Nat) : x.sshiftRight k = BitVec.ofInt n (x.toInt / 2 ^ k) := by
  rw [BitVec.sshiftRight, Int.shiftRight_eq_div_pow]
  norm_cast

/-- A rotation puts the two parts of the number in the other order. -/
theorem rotateRight_value {k : Nat} (h : k < n) : x.rotateRight k = BitVec.ofNat n (rotR n x.toNat k) := by
  have hn : 2 ^ n = 2 ^ (n - k) * 2 ^ k := by rw [← Nat.pow_add, Nat.sub_add_cancel h.le]
  have hlow : x.toNat / 2 ^ k < 2 ^ (n - k) := Nat.div_lt_of_lt_mul (by rw [Nat.mul_comm, ← hn]; exact x.isLt)
  have hhigh : x.toNat * 2 ^ (n - k) % 2 ^ n = 2 ^ (n - k) * (x.toNat % 2 ^ k) := by
    rw [Nat.mul_comm, hn, Nat.mul_mod_mul_left]
  have hval : (x.rotateRight k).toNat = rotR n x.toNat k := by
    rw [BitVec.toNat_rotateRight, Nat.mod_eq_of_lt h, Nat.shiftRight_eq_div_pow, Nat.shiftLeft_eq, rotR, hhigh, Nat.or_comm,
      ← Nat.two_pow_add_eq_or_of_lt hlow, Nat.add_comm]
  rw [← hval, BitVec.ofNat_toNat, BitVec.setWidth_eq]

theorem toInt_eq_zero_iff : y.toInt = 0 ↔ y = 0 := by
  rw [← BitVec.toInt_inj]
  exact BitVec.toInt_zero (w := n) ▸ Iff.rfl

theorem toNat_eq_zero_iff : y.toNat = 0 ↔ y = 0 := by
  rw [BitVec.toNat_eq]
  exact BitVec.toNat_zero (w := n) ▸ Iff.rfl

theorem quotS_value : quotS x y = BitVec.ofInt n (quot x.toInt y.toInt) := by
  simp only [quotS, quot, toInt_eq_zero_iff]
  split
  · rw [BitVec.ofInt_neg]
    exact BitVec.neg_one_eq_allOnes.symm
  · exact ofInt_of_toInt (BitVec.toInt_sdiv x y)

theorem remS_value : remS x y = BitVec.ofInt n (remd x.toInt y.toInt) := by
  simp only [remS, remd, toInt_eq_zero_iff]
  split
  · rw [BitVec.ofInt_toInt]
  · rw [← BitVec.toInt_srem, BitVec.ofInt_toInt]

theorem quotU_value : quotU x y = BitVec.ofNat n (if y.toNat = 0 then 2 ^ n - 1 else x.toNat / y.toNat) := by
  simp only [quotU, toNat_eq_zero_iff]
  split
  · exact ofNat_of_toNat (by rw [BitVec.toNat_allOnes, Nat.mod_eq_of_lt (Nat.sub_one_lt (Nat.two_pow_pos n).ne')])
  · rw [← BitVec.toNat_udiv, BitVec.ofNat_toNat, BitVec.setWidth_eq]

theorem remU_value : remU x y = BitVec.ofNat n (if y.toNat = 0 then x.toNat else x.toNat % y.toNat) := by
  simp only [remU, toNat_eq_zero_iff]
  split
  · rw [BitVec.ofNat_toNat, BitVec.setWidth_eq]
  · rw [← BitVec.toNat_umod, BitVec.ofNat_toNat, BitVec.setWidth_eq]

/-! ### Counts of bits (R96) -/

theorem size_eq_log2 {v : Nat} (h : v ≠ 0) : Nat.size v = Nat.log2 v + 1 :=
  le_antisymm (Nat.size_le.mpr Nat.lt_log2_self) (Nat.lt_size.mpr (Nat.log2_self_le h))

theorem countLeading_value : countLeading x = leadingZeros n x.toNat := by
  unfold countLeading leadingZeros
  split
  · next h => simp [h]
  · next h =>
    rw [size_eq_log2 (mt (toNat_eq_zero_iff x).mp h)]
    omega

/-- An odd number times a power of two has that many zeros below its lowest 1. -/
theorem takeWhile_testBit {k m j : Nat} (h : m % 2 = 1) :
    ((List.range (k + (j + 1))).takeWhile fun i => !(2 ^ k * m).testBit i) = List.range k := by
  have hlow : ∀ i ∈ List.range k, (!(2 ^ k * m).testBit i) = true := fun i hi => by
    have := List.mem_range.mp hi
    rw [Nat.testBit_two_pow_mul, decide_eq_false (by omega)]
    rfl
  have hone : (2 ^ k * m).testBit k = true := by
    rw [Nat.testBit_two_pow_mul, Nat.sub_self, Nat.testBit_zero]
    simp [h]
  rw [List.range_add, List.takeWhile_append_of_pos hlow, List.range_succ_eq_map, List.map_cons, Nat.add_zero,
    List.takeWhile_cons_of_neg (by simp [hone]), List.append_nil]

theorem trailingZeros_eq {n k m : Nat} (h : m % 2 = 1) : trailingZeros n (2 ^ k * m) = k := by
  have hm : m ≠ 0 := by omega
  rw [trailingZeros, if_neg (Nat.mul_ne_zero (Nat.two_pow_pos k).ne' hm), padicValNat.mul (Nat.two_pow_pos k).ne' hm,
    padicValNat.prime_pow, padicValNat.eq_zero_of_not_dvd (by omega), Nat.add_zero]

theorem countTrailing_value : countTrailing x = trailingZeros n x.toNat := by
  unfold countTrailing
  by_cases h : x.toNat = 0
  · simp [h, trailingZeros, List.takeWhile_eq_self_iff.mpr]
  · obtain ⟨k, m, hm, hx⟩ := Nat.exists_eq_two_pow_mul_odd h
    have hm : m % 2 = 1 := Nat.odd_iff.mp hm
    have hk : k < n := (Nat.pow_lt_pow_iff_right (by decide)).mp
      (lt_of_le_of_lt (Nat.le_mul_of_pos_right _ (by omega)) (hx ▸ x.isLt))
    obtain ⟨j, rfl⟩ := Nat.exists_eq_add_of_lt hk
    rw [hx, trailingZeros_eq hm, Nat.add_assoc, takeWhile_testBit hm, List.length_range]

/-- The lowest digit, and the others. -/
theorem ones_step (v : Nat) : ones v = v % 2 + ones (v / 2) := by
  rcases Nat.eq_zero_or_pos v with rfl | h
  · rfl
  · rw [ones, Nat.digits_def' (by decide) h, List.sum_cons, ones]

theorem count_testBit {k v : Nat} (h : v < 2 ^ k) : ((List.range k).filter fun i => v.testBit i).length = ones v := by
  induction k generalizing v with
  | zero =>
    obtain rfl : v = 0 := by omega
    rfl
  | succ k ih =>
    have hrest : (((List.range k).map Nat.succ).filter fun i => v.testBit i).length = ones (v / 2) := by
      rw [List.filter_map, List.length_map, ← ih (v := v / 2) (by omega)]
      simp only [Function.comp_def, Nat.succ_eq_add_one, Nat.testBit_succ]
    rw [List.range_succ_eq_map, List.filter_cons, ones_step, ← hrest, Nat.testBit_zero]
    rcases Nat.mod_two_eq_zero_or_one v with h | h
    · simp [h]
    · simp [h, Nat.add_comm]

theorem countOnes_value : countOnes x = ones x.toNat := count_testBit x.isLt

theorem countLeading_le : countLeading x ≤ n := by
  unfold countLeading
  split <;> omega

theorem countTrailing_le : countTrailing x ≤ n := by
  simpa [countTrailing] using (List.takeWhile_sublist fun i => !x.toNat.testBit i).length_le (l₂ := List.range n)

theorem countOnes_le : countOnes x ≤ n := by
  simpa [countOnes] using List.length_filter_le (fun i => x.toNat.testBit i) (List.range n)

end Values

/-- A number that fits in 31 bits is its own sign extension. -/
theorem sextW_ofNat {k : Nat} (h : k < 2 ^ 31) : sextW (BitVec.ofNat 32 k) = BitVec.ofNat 64 k := by
  have hk : ((k : Int) % 2 ^ 32).toNat = k := by omega
  rw [← BitVec.ofInt_natCast, sextW_ofInt, hk, sgn, if_pos (by omega), BitVec.ofInt_natCast]

/-- A count in both widths. -/
theorem un_of_count {c : ∀ n, BitVec n → Nat} {w : Bool} {f : Nat → Nat} (hle : ∀ n x, c n x ≤ n)
    (h : ∀ x : BitVec (width w), c (width w) x = f x.toNat) (t : Thread) (d a : Rx) :
    un t w d a 0 (fun x _ => f x) = some (d, countBy w (c 32) (c 64) (t.rx a)) := by
  rw [un_of_value (fun x _ => f x) (f32 := fun x _ => BitVec.ofNat 32 (f x.toNat)) (f64 := fun x _ => BitVec.ofNat 64 (f x.toNat))
    (fun _ _ _ => rfl) (fun _ _ _ => rfl)]
  cases w
  · exact congrArg (fun k => some (d, BitVec.ofNat 64 k)) (h (t.rx a)).symm
  · have hlt : f (lowW (t.rx a)).toNat < 2 ^ 31 := (h (lowW (t.rx a))).symm.trans_lt ((hle 32 _).trans_lt (by decide))
    rw [wide_true, sextW_ofNat hlt]
    exact congrArg (fun k => some (d, BitVec.ofNat 64 k)) (h (lowW (t.rx a))).symm

/-! ### Shifts and rotations in both widths (R96, R97, R102) -/

theorem width_dvd (w : Bool) : width w ∣ 2 ^ width w := by
  cases w
  · exact pow_dvd_pow 2 (show 6 ≤ 64 by decide)
  · exact pow_dvd_pow 2 (show 5 ≤ 32 by decide)

/-- A count of the width's low bits is a count of the whole register. -/
theorem un_count (t : Thread) (w : Bool) (d a b : Rx) (f : Nat → Nat → Nat) :
    un t w d a b (fun x y => f x (y % width w)) = un t w d a 0 fun x _ => f x ((t.rx b).toNat % width w) := by
  simp only [un, Nat.mod_mod_of_dvd _ (width_dvd w), Thread.rx_toNat]

theorem un_of_shift {f32 : BitVec 32 → Nat → BitVec 32} {f64 : Word → Nat → Word} {w : Bool} {f : Nat → Nat → Nat}
    (h32 : w = true → ∀ x k, k < 32 → f32 x k = BitVec.ofNat 32 (f x.toNat k))
    (h64 : w = false → ∀ x k, k < 64 → f64 x k = BitVec.ofNat 64 (f x.toNat k)) (t : Thread) (d a : Rx) (k : Nat) :
    un t w d a 0 (fun x _ => f x (k % width w)) = some (d, shiftBy w f32 f64 (t.rx a) k) := by
  rw [un_of_value (fun x _ => f x (k % width w)) (f32 := fun x _ => f32 x (k % 32)) (f64 := fun x _ => f64 x (k % 64))]
  · cases w <;> rfl
  · rintro rfl x _
    exact h32 rfl x _ (Nat.mod_lt _ (by decide))
  · rintro rfl x _
    exact h64 rfl x _ (Nat.mod_lt _ (by decide))

theorem un_shiftLeft (t : Thread) (w : Bool) (d a : Rx) (k : Nat) : un t w d a 0 (fun x _ => x * 2 ^ (k % width w)) =
    some (d, shiftBy w (fun v n => v <<< n) (fun v n => v <<< n) (t.rx a) k) :=
  un_of_shift (f := fun x k => x * 2 ^ k) (fun _ x k _ => shiftLeft_value x k) (fun _ x k _ => shiftLeft_value x k) ..

theorem un_shiftRight (t : Thread) (w : Bool) (d a : Rx) (k : Nat) : un t w d a 0 (fun x _ => x / 2 ^ (k % width w)) =
    some (d, shiftBy w (fun v n => v >>> n) (fun v n => v >>> n) (t.rx a) k) :=
  un_of_shift (f := fun x k => x / 2 ^ k) (fun _ x k _ => shiftRight_value x k) (fun _ x k _ => shiftRight_value x k) ..

theorem un_rotateRight (t : Thread) (w : Bool) (d a : Rx) (k : Nat) : un t w d a 0 (fun x _ => rotR (width w) x (k % width w)) =
    some (d, shiftBy w (fun v n => v.rotateRight n) (fun v n => v.rotateRight n) (t.rx a) k) := by
  refine un_of_shift (f := rotR (width w)) ?_ ?_ ..
  · rintro rfl x k hk
    exact rotateRight_value x hk
  · rintro rfl x k hk
    exact rotateRight_value x hk

/-- The arithmetic shift. -/
theorem si_shiftRight (t : Thread) (w : Bool) (d a b : Rx) (k : Nat) : si t w d a b (fun x _ => x / 2 ^ (k % width w)) =
    some (d, shiftBy w (fun v n => v.sshiftRight n) (fun v n => v.sshiftRight n) (t.rx a) k) := by
  rw [si_of_value (fun x _ => x / 2 ^ (k % width w)) (f32 := fun x _ => x.sshiftRight (k % 32)) (f64 := fun x _ => x.sshiftRight (k % 64))]
  · cases w <;> rfl
  · rintro rfl x _
    exact sshiftRight_value x _
  · rintro rfl x _
    exact sshiftRight_value x _

/-! ### Values of 64 bits (R96, R99 to R101) -/

theorem un_word {g : Word → Word → Word} (f : Nat → Nat → Nat) (h : ∀ x y, g x y = BitVec.ofNat 64 (f x.toNat y.toNat)) (t : Thread)
    (d a b : Rx) : un t false d a b f = some (d, g (t.rx a) (t.rx b)) :=
  un_of_value f (w := false) (f32 := fun _ _ => 0) (fun h => nomatch h) (fun _ => h) t d a b

theorem si_word {g : Word → Word → Word} (f : Int → Int → Int) (h : ∀ x y, g x y = BitVec.ofInt 64 (f x.toInt y.toInt)) (t : Thread)
    (d a b : Rx) : si t false d a b f = some (d, g (t.rx a) (t.rx b)) :=
  si_of_value f (w := false) (f32 := fun _ _ => 0) (fun h => nomatch h) (fun _ => h) t d a b

section Words
variable (x y : Word)

theorem and_value : x &&& y = BitVec.ofNat 64 (x.toNat &&& y.toNat) := by
  rw [← BitVec.toNat_and, BitVec.ofNat_toNat, BitVec.setWidth_eq]
theorem or_value : x ||| y = BitVec.ofNat 64 (x.toNat ||| y.toNat) := by
  rw [← BitVec.toNat_or, BitVec.ofNat_toNat, BitVec.setWidth_eq]
theorem xor_value : x ^^^ y = BitVec.ofNat 64 (x.toNat ^^^ y.toNat) := by
  rw [← BitVec.toNat_xor, BitVec.ofNat_toNat, BitVec.setWidth_eq]

theorem andn_value : x &&& ~~~y = BitVec.ofNat 64 (x.toNat &&& (2 ^ 64 - 1 - y.toNat)) := by
  rw [and_value, BitVec.toNat_not]
theorem orn_value : x ||| ~~~y = BitVec.ofNat 64 (x.toNat ||| (2 ^ 64 - 1 - y.toNat)) := by
  rw [or_value, BitVec.toNat_not]

theorem flagWord_ofNat {c : Bool} {P : Prop} [Decidable P] (h : c = true ↔ P) : flagWord c = word (if P then 1 else 0) := by
  simp only [flagWord, h]
  split <;> rfl

theorem slt_value : flagWord (x.slt y) = BitVec.ofInt 64 (if x.toInt < y.toInt then 1 else 0) := by
  rw [flagWord_ofNat BitVec.slt_iff_toInt_lt]
  split <;> rfl

theorem ult_value : flagWord (x.ult y) = BitVec.ofNat 64 (if x.toNat < y.toNat then 1 else 0) :=
  flagWord_ofNat BitVec.ult_iff_toNat_lt

theorem mulHigh_value : mulHigh x.toNat y.toNat = BitVec.ofNat 64 (x.toNat * y.toNat / 2 ^ 64) := by
  rw [mulHigh, ← BitVec.ofInt_natCast]
  norm_cast

end Words

/-- The lesser of two numbers, by a test that is strict. -/
theorem select_min {α : Type} [LinearOrder α] {u v : α} {c : Bool} (h : c = true ↔ u < v) (f : α → Word) :
    (if c then f u else f v) = f (if u ≤ v then u else v) := by
  rcases lt_trichotomy u v with hlt | rfl | hgt
  · rw [if_pos (h.mpr hlt), if_pos hlt.le]
  · rw [ite_self, ite_self]
  · rw [if_neg (mt h.mp hgt.not_gt), if_neg hgt.not_ge]

/-- The greater of two numbers, by a test that is strict. -/
theorem select_max {α : Type} [LinearOrder α] {u v : α} {c : Bool} (h : c = true ↔ u < v) (f : α → Word) :
    (if c then f v else f u) = f (if u ≤ v then v else u) := by
  rcases lt_trichotomy u v with hlt | rfl | hgt
  · rw [if_pos (h.mpr hlt), if_pos hlt.le]
  · rw [ite_self, ite_self]
  · rw [if_neg (mt h.mp hgt.not_gt), if_neg hgt.not_ge]

section Extremes
variable (x y : Word)

theorem min_value : (if x.slt y then x else y) = BitVec.ofInt 64 (if x.toInt ≤ y.toInt then x.toInt else y.toInt) := by
  rw [← select_min BitVec.slt_iff_toInt_lt (BitVec.ofInt 64), BitVec.ofInt_toInt, BitVec.ofInt_toInt]

theorem max_value : (if x.slt y then y else x) = BitVec.ofInt 64 (if x.toInt ≤ y.toInt then y.toInt else x.toInt) := by
  rw [← select_max BitVec.slt_iff_toInt_lt (BitVec.ofInt 64), BitVec.ofInt_toInt, BitVec.ofInt_toInt]

theorem minn_value : (if x.ult y then x else y) = BitVec.ofNat 64 (if x.toNat ≤ y.toNat then x.toNat else y.toNat) := by
  rw [← select_min BitVec.ult_iff_toNat_lt (BitVec.ofNat 64), BitVec.ofNat_toNat, BitVec.ofNat_toNat, BitVec.setWidth_eq, BitVec.setWidth_eq]

theorem maxn_value : (if x.ult y then y else x) = BitVec.ofNat 64 (if x.toNat ≤ y.toNat then y.toNat else x.toNat) := by
  rw [← select_max BitVec.ult_iff_toNat_lt (BitVec.ofNat 64), BitVec.ofNat_toNat, BitVec.ofNat_toNat, BitVec.setWidth_eq, BitVec.setWidth_eq]

end Extremes

/-! ### Replaced bits (R103, R104) -/

theorem testBit_replaceBits (x lo len v i : Nat) :
    (replaceBits x lo len v).testBit i = if lo ≤ i ∧ i < lo + len then v.testBit (i - lo) else x.testBit i := by
  have hx : x / 2 ^ lo % 2 ^ len * 2 ^ lo + (2 ^ lo * (2 ^ len * (x / 2 ^ lo / 2 ^ len)) + x % 2 ^ lo) = x := by
    rw [Nat.mul_comm _ (2 ^ lo), ← Nat.add_assoc, ← Nat.mul_add, Nat.mod_add_div, Nat.div_add_mod]
  have hr : replaceBits x lo len v = 2 ^ lo * (2 ^ len * (x / 2 ^ lo / 2 ^ len) + v % 2 ^ len) + x % 2 ^ lo := by
    rw [replaceBits, Nat.mul_add, Nat.mul_comm (2 ^ lo) (v % 2 ^ len)]
    omega
  rw [hr, Nat.testBit_two_pow_mul_add _ (Nat.mod_lt _ (Nat.two_pow_pos lo)),
    Nat.testBit_two_pow_mul_add _ (Nat.mod_lt _ (Nat.two_pow_pos len)), Nat.testBit_mod_two_pow, Nat.testBit_mod_two_pow,
    Nat.testBit_div_two_pow, Nat.testBit_div_two_pow]
  by_cases h1 : i < lo
  · simp [h1]
  · by_cases h2 : i < lo + len
    · simp [h1, h2, show i - lo < len by omega, Nat.not_lt.mp h1]
    · rw [if_neg h1, if_neg (by omega), if_neg (by omega), show i - lo - len + len + lo = i by omega]

/-- A word with the bits under a mask taken from another one. -/
theorem masked_value {x v mask : Word} {lo len k : Nat} (hmask : ∀ i, i < 64 → mask.getLsbD i = decide (lo ≤ i ∧ i < lo + len))
    (hv : ∀ i, i < 64 → lo ≤ i → i < lo + len → v.getLsbD i = k.testBit (i - lo)) :
    (x &&& ~~~mask) ||| (v &&& mask) = word (replaceBits x.toNat lo len k) := by
  refine BitVec.eq_of_getLsbD_eq fun i hi => ?_
  have hx : x.toNat.testBit i = x.getLsbD i := rfl
  rw [word, BitVec.getLsbD_ofNat, testBit_replaceBits, hx, BitVec.getLsbD_or, BitVec.getLsbD_and, BitVec.getLsbD_and, BitVec.getLsbD_not,
    hmask i hi, decide_eq_true hi]
  by_cases h : lo ≤ i ∧ i < lo + len
  · rw [if_pos h, hv i hi h.1 h.2, decide_eq_true h]
    simp
  · rw [if_neg h, decide_eq_false h]
    simp

/-- The mask of `len` bits at `lo`. -/
theorem mask_getLsbD (lo len i : Nat) (hi : i < 64) :
    (BitVec.ofNat 64 ((2 ^ len - 1) * 2 ^ lo)).getLsbD i = decide (lo ≤ i ∧ i < lo + len) := by
  rw [BitVec.getLsbD_ofNat, Nat.testBit_mul_two_pow, Nat.testBit_two_pow_sub_one, decide_eq_true hi, Bool.true_and, ← Bool.decide_and]
  exact decide_eq_decide.mpr (by omega)

theorem insertField_value (old x : Word) (pos len : Nat) :
    insertField old x pos len = word (replaceBits old.toNat pos len x.toNat) := by
  refine masked_value (mask_getLsbD pos len) fun i hi h1 h2 => ?_
  have hlen : i - pos < len := by omega
  rw [BitVec.getLsbD_ofNat, Nat.testBit_mul_two_pow, Nat.testBit_mod_two_pow]
  simp [hi, h1, hlen]

theorem spliceChunk_value (x : Word) {h : Nat} (hh : h < 6) (v : BitVec 12) :
    spliceChunk x h v = word (replaceBits x.toNat (12 * h) (min 12 (64 - 12 * h)) v.toNat) := by
  refine masked_value (fun i hi => ?_) fun i hi h1 h2 => ?_
  · rw [show (0xFFF : Nat) = 2 ^ 12 - 1 from rfl, mask_getLsbD (12 * h) 12 i hi]
    exact decide_eq_decide.mpr (by omega)
  · rw [BitVec.getLsbD_ofNat, Nat.testBit_mul_two_pow]
    simp [hi, h1]

/-! ### Extensions and immediates (R100, R101) -/

theorem sext_value (t : Thread) (a : Rx) (n : Nat) : BitVec.ofInt 64 (sgn n (xVal t a % 2 ^ n)) = sextTo n (t.rx a).toNat := by
  rw [sextTo, Thread.rx_toNat, ← toSigned_eq_sgn (Nat.mod_lt _ (Nat.two_pow_pos n)), toSigned, toSigned, Nat.mod_mod]

theorem zext_value (t : Thread) (a : Rx) (n : Nat) : word (xVal t a % 2 ^ n) = zextLow n (t.rx a) := by
  rw [zextLow, Thread.rx_toNat, word]

theorem imm_toNat (m : BitVec 16) : (m.setWidth 64).toNat = m.toNat :=
  (BitVec.toNat_setWidth 64 m).trans (Nat.mod_eq_of_lt (m.isLt.trans (by decide)))

section Immediates
variable (t : Thread) (a : Rx) (m : BitVec 16)

theorem addi_value : word (((xVal t a : Int) + sgn 16 m.toNat) % 2 ^ 64).toNat = t.rx a + m.signExtend 64 := by
  rw [signExtend_imm, add_ofInt, Thread.rx_toNat]

theorem andi_value : word (xVal t a &&& m.toNat) = t.rx a &&& m.setWidth 64 := by
  rw [and_value, imm_toNat, Thread.rx_toNat, word]

theorem ori_value : word (xVal t a ||| m.toNat) = t.rx a ||| m.setWidth 64 := by
  rw [or_value, imm_toNat, Thread.rx_toNat, word]

theorem xori_value : word (xVal t a ^^^ m.toNat) = t.rx a ^^^ m.setWidth 64 := by
  rw [xor_value, imm_toNat, Thread.rx_toNat, word]

theorem slti_value : word (if sgn 64 (xVal t a) < sgn 16 m.toNat then 1 else 0) = flagWord ((t.rx a).slt (m.signExtend 64)) := by
  refine (flagWord_ofNat ?_).symm
  rw [BitVec.slt_iff_toInt_lt, rx_toInt, BitVec.toInt_signExtend_of_le (by decide), toInt_eq_sgn m (by decide)]

theorem sltni_value :
    word (if (xVal t a : Int) < sgn 16 m.toNat % 2 ^ 64 then 1 else 0) = flagWord ((t.rx a).ult (m.signExtend 64)) := by
  refine (flagWord_ofNat ?_).symm
  have hm : (m.signExtend 64).toNat = (sgn 16 m.toNat % 2 ^ 64).toNat := by rw [signExtend_imm]; exact BitVec.toNat_ofInt _
  rw [BitVec.ult_iff_toNat_lt, Thread.rx_toNat, hm]
  omega

end Immediates

/-! ### The instructions -/

section Writes
variable {s : State} {d d' a b : Rx} {v : Word} {e : Option (Rx × Word)}

/-- An instruction of two sources writes the value that it computes from them (R93). -/
theorem writeRR_writes {f : Word → Word → Word} (h : e = some (d', v)) (hr : ∀ r ∈ [a, b], ReadableX s.th r)
    (hv : e = some (d, f (s.th.rx a) (s.th.rx b))) : writeRR f d a b s = .next (withThread s (goNext (putX s.th d' v))) := by
  obtain ⟨rfl, rfl⟩ := Prod.mk.inj (Option.some.inj (hv.symm.trans h))
  rw [writeRR, useX_ok (hr a (by simp)), useX_ok (hr b (by simp))]
  rfl

/-- An instruction of one source. -/
theorem writeR_writes {f : Word → Word} (h : e = some (d', v)) (hr : ∀ r ∈ [a], ReadableX s.th r)
    (hv : e = some (d, f (s.th.rx a))) : writeR f d a s = .next (withThread s (goNext (putX s.th d' v))) := by
  obtain ⟨rfl, rfl⟩ := Prod.mk.inj (Option.some.inj (hv.symm.trans h))
  rw [writeR, useX_ok (hr a (by simp))]
  rfl

theorem writeR_value {f : Word → Word} {x : Word} (h : some (d, x) = some (d', v)) (hr : ∀ r ∈ [a], ReadableX s.th r)
    (hx : x = f (s.th.rx a)) : writeR f d a s = .next (withThread s (goNext (putX s.th d' v))) :=
  writeR_writes h hr (hx ▸ rfl)

/-- `sel` reads three (R99). -/
theorem sel_writes {c : Rx} (h : some (d, word (if xVal s.th c ≠ 0 then xVal s.th a else xVal s.th b)) = some (d', v))
    (hr : ∀ r ∈ [a, b, c], ReadableX s.th r) : exec (.sel d a b c) s = .next (withThread s (goNext (putX s.th d' v))) := by
  obtain ⟨rfl, rfl⟩ := Prod.mk.inj (Option.some.inj h)
  show execSel d a b c s = _
  simp only [execSel, useX_ok (hr a (by simp)), useX_ok (hr b (by simp)), useX_ok (hr c (by simp)), ok_bind, Thread.rx_eq_word s.th a,
    Thread.rx_eq_word s.th b, ne_eq, Thread.rx_eq_zero, apply_ite word]
  rfl

end Writes

/-- Major 0x01: each operation's value is that of its row (R96 to R100). -/
theorem exec_integer {i : Instr} {s : State} {d : Rx} {v : Word} (h : integerWrites s.th i = some (d, v))
    (hr : ∀ r ∈ integerSources i, ReadableX s.th r) : exec i s = .next (withThread s (goNext (putX s.th d v))) := by
  cases i with
  | add => exact writeRR_writes h hr (un_of_value (· + ·) (fun _ => add_value) (fun _ => add_value) ..)
  | sub => exact writeRR_writes h hr (si_of_value (· - ·) (fun _ => sub_value) (fun _ => sub_value) ..)
  | and => exact writeRR_writes h hr (un_word (· &&& ·) and_value ..)
  | or => exact writeRR_writes h hr (un_word (· ||| ·) or_value ..)
  | xor => exact writeRR_writes h hr (un_word (· ^^^ ·) xor_value ..)
  | andn => exact writeRR_writes h hr (un_word (fun x y => x &&& (2 ^ 64 - 1 - y)) andn_value ..)
  | orn => exact writeRR_writes h hr (un_word (fun x y => x ||| (2 ^ 64 - 1 - y)) orn_value ..)
  | sll => exact writeRR_writes h hr ((un_count (f := fun x k => x * 2 ^ k) ..).trans (un_shiftLeft ..))
  | srl => exact writeRR_writes h hr ((un_count (f := fun x k => x / 2 ^ k) ..).trans (un_shiftRight ..))
  | sra d a b w => exact writeRR_writes h hr (Thread.rx_toNat s.th b ▸ si_shiftRight s.th w d a 0 (s.th.rx b).toNat)
  | ror d a b w => exact writeRR_writes h hr ((un_count (f := rotR (width w)) ..).trans (un_rotateRight ..))
  | slt => exact writeRR_writes h hr (si_word (fun x y => if x < y then 1 else 0) slt_value ..)
  | sltn => exact writeRR_writes h hr (un_word (fun x y => if x < y then 1 else 0) ult_value ..)
  | min => exact writeRR_writes h hr (si_word (fun x y => if x ≤ y then x else y) min_value ..)
  | max => exact writeRR_writes h hr (si_word (fun x y => if x ≤ y then y else x) max_value ..)
  | minn => exact writeRR_writes h hr (un_word (fun x y => if x ≤ y then x else y) minn_value ..)
  | maxn => exact writeRR_writes h hr (un_word (fun x y => if x ≤ y then y else x) maxn_value ..)
  | mul => exact writeRR_writes h hr (un_of_value (· * ·) (fun _ => mul_value) (fun _ => mul_value) ..)
  | mulh => exact writeRR_writes h hr (si_word (fun x y => x * y / 2 ^ 64) (fun _ _ => rfl) ..)
  | mulhn => exact writeRR_writes h hr (un_word (fun x y => x * y / 2 ^ 64) mulHigh_value ..)
  | div => exact writeRR_writes h hr (si_of_value quot (fun _ => quotS_value) (fun _ => quotS_value) ..)
  | divn d a b w =>
    refine writeRR_writes h hr (un_of_value (fun x y => if y = 0 then 2 ^ width w - 1 else x / y) ?_ ?_ ..)
    · rintro rfl
      exact quotU_value
    · rintro rfl
      exact quotU_value
  | rem => exact writeRR_writes h hr (si_of_value remd (fun _ => remS_value) (fun _ => remS_value) ..)
  | remn => exact writeRR_writes h hr (un_of_value (fun x y => if y = 0 then x else x % y) (fun _ => remU_value) (fun _ => remU_value) ..)
  | clz => exact writeR_writes h hr (un_of_count (fun _ => countLeading_le) countLeading_value ..)
  | ctz => exact writeR_writes h hr (un_of_count (fun _ => countTrailing_le) countTrailing_value ..)
  | popc => exact writeR_writes h hr (un_of_count (fun _ => countOnes_le) countOnes_value ..)
  | sext d a k =>
    refine writeR_value h hr ?_
    cases k
    · exact sext_value s.th a 8
    · exact sext_value s.th a 16
    · exact sext_value s.th a 32
  | zext d a k =>
    refine writeR_value h hr ?_
    cases k
    · exact zext_value s.th a 8
    · exact zext_value s.th a 16
    · exact zext_value s.th a 32
  | sel => exact sel_writes h hr
  | _ => cases h

/-- The immediate, shift-immediate, `luis` and bit-field forms (R101 to R104). -/
theorem exec_immediate {i : Instr} {s : State} {d : Rx} {v : Word} (h : immediateWrites s.th i = some (d, v))
    (hr : ∀ r ∈ integerSources i, ReadableX s.th r) : exec i s = .next (withThread s (goNext (putX s.th d v))) := by
  cases i with
  | addi => exact writeR_value h hr (addi_value ..)
  | andi => exact writeR_value h hr (andi_value ..)
  | ori => exact writeR_value h hr (ori_value ..)
  | xori => exact writeR_value h hr (xori_value ..)
  | slti => exact writeR_value h hr (slti_value ..)
  | sltni => exact writeR_value h hr (sltni_value ..)
  | slli => exact writeR_writes h hr (un_shiftLeft ..)
  | srli => exact writeR_writes h hr (un_shiftRight ..)
  | srai => exact writeR_writes h hr (si_shiftRight _ _ _ _ 0 _)
  | rori => exact writeR_writes h hr (un_rotateRight ..)
  | luis d a k v =>
    refine writeR_value h hr ?_
    rw [spliceChunk_value _ k.isLt, Thread.rx_toNat]
  | bext d a pos len =>
    refine writeR_value h hr ?_
    rw [extractField, Thread.rx_toNat, word]
  | bins d a pos len =>
    refine writeRR_writes h hr ?_
    rw [insertField_value, Thread.rx_toNat, Thread.rx_toNat]
    rfl
  | _ => cases h

end Sys2Proof.Machine

namespace Sys2Proof.Proofs
open Sys2Proof.Machine Sys2Proof.Claims

/-- Settles O1: each row's value, on numbers, is the machine's, on bit vectors. -/
theorem integerResult : Obligations.IntegerResult :=
  ⟨fun _ _ _ _ h hr => exec_integer h hr, fun _ _ _ _ _ h hr => exec_immediate h hr⟩

end Sys2Proof.Proofs
end

section
/-! SUPPORT. The identity of division on the results of two instructions (04 R98), and O2. -/

namespace Sys2Proof.Machine
open Sys2Proof.Safety Sys2Proof.Claims

/-! ### Numbers of one width -/

section Width
variable {n : Nat}

/-- A signed number and its bits agree modulo the width. -/
theorem sgn_modEq (v : Nat) : (v : Int) ≡ sgn n v [ZMOD (2 ^ n : Nat)] := by
  unfold sgn
  split
  · exact Int.ModEq.refl _
  · exact Int.modEq_iff_dvd.mpr ⟨-1, by push_cast; ring⟩

theorem sgn_range {v : Nat} (hn : 0 < n) (hv : v < 2 ^ n) : -(2 ^ (n - 1) : Nat) ≤ sgn n v ∧ sgn n v < (2 ^ (n - 1) : Nat) := by
  have h2 : 2 ^ n = 2 * 2 ^ (n - 1) := by rw [← Nat.pow_succ', Nat.succ_eq_add_one, Nat.sub_add_cancel hn]
  have hz : (2 : Int) ^ n = (2 ^ n : Nat) := by norm_cast
  rw [sgn, hz]
  split <;> omega

/-- A number in the signed range is the signed value of its bits. -/
theorem sgn_of_range {z : Int} (hn : 0 < n) (h : -(2 ^ (n - 1) : Nat) ≤ z) (h' : z < (2 ^ (n - 1) : Nat)) :
    sgn n (z % (2 ^ n : Nat)).toNat = z := by
  have h2 : 2 ^ n = 2 * 2 ^ (n - 1) := by rw [← Nat.pow_succ', Nat.succ_eq_add_one, Nat.sub_add_cancel hn]
  have hz : (2 : Int) ^ n = (2 ^ n : Nat) := by norm_cast
  rw [sgn, hz]
  rcases lt_or_ge z 0 with hneg | hpos
  · have hmod : z % (2 ^ n : Nat) = z + (2 ^ n : Nat) := by
      rw [← Int.add_emod_right]
      exact Int.emod_eq_of_lt (by omega) (by omega)
    rw [hmod, if_neg (by omega)]
    omega
  · rw [Int.emod_eq_of_lt hpos (by omega), if_pos (by omega)]
    omega

theorem sgn_ne_zero {v : Nat} (hv : v < 2 ^ n) (h : v ≠ 0) : sgn n v ≠ 0 := by
  have hz : (2 : Int) ^ n = (2 ^ n : Nat) := by norm_cast
  rw [sgn, hz]
  split <;> omega

/-- A product and a sum whose parts agree with integers modulo the width. -/
theorem identity_of_modEq {p k y x : Nat} {q r y' x' : Int} (hp : (p : Int) ≡ q [ZMOD (2 ^ n : Nat)])
    (hk : (k : Int) ≡ r [ZMOD (2 ^ n : Nat)]) (hy : (y : Int) ≡ y' [ZMOD (2 ^ n : Nat)]) (hx : (x : Int) ≡ x' [ZMOD (2 ^ n : Nat)])
    (h : q * y' + r = x') (hlt : x < 2 ^ n) : (p * y + k) % 2 ^ n = x := by
  have hsum : ((p * y + k : Nat) : Int) ≡ x [ZMOD (2 ^ n : Nat)] := by
    push_cast
    exact (((hp.mul hy).add hk).trans (h ▸ Int.ModEq.refl _)).trans hx.symm
  have hnat : (p * y + k) % 2 ^ n = x % 2 ^ n := (Int.natCast_modEq_iff).mp hsum
  rw [hnat, Nat.mod_eq_of_lt hlt]

end Width

/-- The low bits of a result are those of its number. -/
theorem result_low (w : Bool) (z : Int) : (result w z).toNat % 2 ^ width w = (z % (2 ^ width w : Nat)).toNat := by
  cases w
  · rw [result_false, width_false, BitVec.toNat_ofInt]
    omega
  · rw [result, if_pos rfl, width_true, BitVec.toNat_ofInt]
    unfold sgn
    split <;> omega

theorem result_modEq (w : Bool) (z : Int) : ((result w z).toNat : Int) ≡ z [ZMOD (2 ^ width w : Nat)] := by
  have h := result_low w z
  have hpos := Int.emod_nonneg z (show ((2 ^ width w : Nat) : Int) ≠ 0 by positivity)
  show _ % _ = _ % _
  rw [← Int.natCast_mod, h, Int.toNat_of_nonneg hpos]

/-! ### Quotients and remainders (R98) -/

theorem quot_mul_add_remd (x y : Int) : quot x y * y + remd x y = x := by
  unfold quot remd
  split
  · next h => simp [h]
  · rw [Int.mul_comm]
    exact Int.mul_tdiv_add_tmod x y

theorem abs_remd_lt (x : Int) {y : Int} (h : y ≠ 0) : |remd x y| < |y| := by
  rw [remd, if_neg h, Int.abs_eq_natAbs, Int.abs_eq_natAbs, Int.natAbs_tmod]
  exact_mod_cast Nat.mod_lt _ (Int.natAbs_pos.mpr h)

/-- A remainder has the dividend's sign. -/
theorem remd_mul_nonneg (x : Int) {y : Int} (h : y ≠ 0) : 0 ≤ remd x y * x := by
  rw [remd, if_neg h]
  rcases le_total 0 x with hx | hx
  · exact mul_nonneg (Int.tmod_nonneg y hx) hx
  · have hneg := Int.tmod_nonneg y (Int.neg_nonneg_of_nonpos hx)
    rw [Int.neg_tmod] at hneg
    exact mul_nonneg_of_nonpos_of_nonpos (by omega) hx

/-- A remainder fits in the width of its divisor. -/
theorem sgn_remd {n y : Nat} (hn : 0 < n) (hy : y < 2 ^ n) (h : y ≠ 0) (x : Int) :
    sgn n (remd x (sgn n y) % (2 ^ n : Nat)).toNat = remd x (sgn n y) := by
  have hlt := abs_lt.mp (abs_remd_lt x (sgn_ne_zero hy h))
  obtain ⟨hlo, hhi⟩ := sgn_range hn hy
  have hle : |sgn n y| ≤ (2 ^ (n - 1) : Nat) := abs_le.mpr ⟨hlo, hhi.le⟩
  exact sgn_of_range hn (by omega) (by omega)

/-- The unsigned quotient and remainder. -/
theorem udiv_mul_add_umod (x y k : Nat) : (if y = 0 then k else x / y) * y + (if y = 0 then x else x % y) = x := by
  split
  · next h => rw [h, Nat.mul_zero, Nat.zero_add]
  · exact Nat.div_add_mod' x y

/-- What a register other than `x0` holds after an instruction has written it. -/
theorem written_toNat {s : State} {d : Rx} (hd : d ≠ 0) (v : Word) :
    (((withThread s (goNext (putX s.th d v))).th.x[d]).toNat) = v.toNat := by
  have h := putX_val s.th d d v
  rw [if_pos ⟨rfl, hd⟩, xVal, if_neg hd] at h
  exact h

theorem width_pos (w : Bool) : 0 < width w := by cases w <;> decide

end Sys2Proof.Machine

namespace Sys2Proof.Proofs
open Sys2Proof.Machine Sys2Proof.Safety Sys2Proof.Claims

/-- Settles O2: the identity holds on integers, and each result agrees with its integer modulo the width. -/
theorem divisionIdentity : Obligations.DivisionIdentity := by
  intro s a b d e w x y hd he ha hb hx hy
  have hxlt : x < 2 ^ width w := hx ▸ Nat.mod_lt _ (Nat.two_pow_pos _)
  have hylt : y < 2 ^ width w := hy ▸ Nat.mod_lt _ (Nat.two_pow_pos _)
  have hr : ∀ r ∈ [a, b], ReadableX s.th r := by simp [ha, hb]
  have hlow : ∀ z : Int, (((result w z).toNat % 2 ^ width w : Nat) : Int) ≡ z [ZMOD (2 ^ width w : Nat)] := fun z =>
    Int.natCast_mod (result w z).toNat _ ▸ (Int.mod_modEq _ _).trans (result_modEq w z)
  subst hx hy
  refine ⟨⟨_, _, _, exec_integer (i := .div d a b w) rfl hr, exec_integer (i := .rem e a b w) rfl hr, rfl, ?_, fun h0 => ?_⟩,
    ⟨_, _, _, exec_integer (i := .divn d a b w) rfl hr, exec_integer (i := .remn e a b w) rfl hr, rfl, ?_, fun h0 => ?_⟩⟩
  · rw [written_toNat hd, written_toNat he]
    exact identity_of_modEq (result_modEq w _) (hlow _) (sgn_modEq _) (sgn_modEq _) (quot_mul_add_remd _ _) hxlt
  · rw [written_toNat he, result_low, sgn_remd (width_pos w) hylt h0]
    exact ⟨abs_remd_lt _ (sgn_ne_zero hylt h0), remd_mul_nonneg _ (sgn_ne_zero hylt h0)⟩
  · rw [written_toNat hd, written_toNat he]
    exact identity_of_modEq (result_modEq w _) (hlow _) (.refl _) (.refl _) (by exact_mod_cast udiv_mul_add_umod _ _ _) hxlt
  · rw [written_toNat he, result_low, ← Int.natCast_mod, Int.toNat_natCast]
    exact (Nat.mod_le _ _).trans_lt ((if_neg h0).trans_lt (Nat.mod_lt _ (Nat.pos_of_ne_zero h0)))

end Sys2Proof.Proofs
end

section
/-! SUPPORT. The elements that a register takes from an operation on lanes (05 R120, R121, R135), and O7 and O9. -/

namespace Sys2Proof.Machine
open Sys2Proof.Safety Sys2Proof.Claims

/-! ### The elements of a register (R60, R120) -/

theorem width_mul_laneCount (t : Ty) : t.width * laneCount t = 1024 := by cases t <;> rfl

theorem laneCount_pos (t : Ty) : 0 < laneCount t := by cases t <;> decide

theorem lane_lt (w : Nat) (v : VReg) (e : Nat) : lane w v e < 2 ^ w := Nat.mod_lt _ (Nat.two_pow_pos w)

@[simp] theorem lane_mod (w : Nat) (v : VReg) (e : Nat) : lane w v e % 2 ^ w = lane w v e := Nat.mod_eq_of_lt (lane_lt w v e)

theorem elem_eq_lane (w e : Nat) (v : VReg) : elem w e v = lane w v e := rfl

theorem lane_fits {t : Ty} {e : Nat} (h : e < laneCount t) : t.width * e + t.width ≤ 1024 :=
  (Nat.mul_le_mul_left t.width h).trans_eq (width_mul_laneCount t)

theorem lane_packList {w e : Nat} (h : w * e + w ≤ 1024) (l : List Nat) :
    lane w (BitVec.ofNat 1024 (packList w l)) e = l.getD e 0 % 2 ^ w :=
  (field_of_ofNat h _).trans (packList_field w l e)

/-- A list of merged elements: computed where the predicate is true, and kept elsewhere. -/
theorem lane_merged {w n e : Nat} (h : w * e + w ≤ 1024) (hn : e < n) (on : Nat → Bool) (f : Nat → Nat × Flags) (old : VReg) :
    lane w (BitVec.ofNat 1024 (packList w (((List.range n).map fun e => if on e then f e else (elem w e old, 0)).map (·.1)))) e =
      if on e then (f e).1 % 2 ^ w else lane w old e := by
  rw [lane_packList h, List.map_map, getD_map_range hn, Function.comp_apply, apply_ite Prod.fst, apply_ite (· % 2 ^ w)]
  exact if_congr Iff.rfl rfl (lane_mod w old e)

theorem lane_mapLanes {t : Ty} {e : Nat} (h : e < laneCount t) (g : PReg) (old : VReg) (f : Nat → Nat × Flags) :
    lane t.width (mapLanes t g old f).1 e = if isActive t g e then (f e).1 % 2 ^ t.width else lane t.width old e :=
  lane_merged (lane_fits h) (lanes_eq_laneCount t ▸ h) (active t g) f old

theorem low_lt (t : Ty) (x : Int) : (low t x).1 < 2 ^ t.width := by
  have h : (0 : Int) < 2 ^ t.width := Int.pow_pos (by decide)
  have := Int.emod_lt_of_pos x h
  have := Int.emod_nonneg x h.ne'
  zify
  rwa [low, Int.toNat_of_nonneg this]

theorem wrap_eq_low (t : Ty) (x : Int) : wrap t.width x = (low t x).1 := wrap_eq t.width x

/-- The bits that move of an element (R36). -/
theorem mod_values (t : Ty) (x : Nat) : x % t.values = moved t x := by
  rw [Ty.values, moved]
  split <;> rfl

/-! ### Operations on lanes (R121, R125 to R127, R130 to R132, R136) -/

/-- With its types here, its registers readable and no raised flag enabled, an operation writes its result. -/
theorem VecOp.exec_result {v : VecOp} {s : State} (ht : ∀ t ∈ v.types, TypeHere s t) (hr : v.CanRead s)
    (hf : (v.result s).2 &&& enabled s.th = 0) :
    v.exec s = .next (withThread s (goNext (putV (flagged s.th (v.result s).2) v.d (v.result s).1))) := by
  rw [VecOp.exec, VecOp.run_eq ht hr, raiseFlags_ok hf]
  rfl

/-- The operation of the machine writes the elements of a lane operation of the claims. -/
structure VecOp.Writes (v : VecOp) (o : LaneOp) : Prop where
  lanes : ∀ m p vd va vb e, e < laneCount o.t → lane o.t.width (v.f m p vd va vb).1 e =
    if o.all = true ∨ isActive o.t p e = true then
      (o.f m (isActive o.t p) (lane o.t.width vd) (lane o.t.width va) (lane o.t.width vb) e).1 % 2 ^ o.t.width
    else lane o.t.width vd e

/-- A merging operation whose elements have the same bits. -/
theorem merging_writes {o : LaneOp} {f : Mode → VReg → VReg → VReg → Nat → Nat × Flags} (hall : o.all = false)
    (h : ∀ m p vd va vb e, (f m vd va vb e).1 % 2 ^ o.t.width =
      (o.f m (isActive o.t p) (lane o.t.width vd) (lane o.t.width va) (lane o.t.width vb) e).1 % 2 ^ o.t.width) :
    (merging o.t o.d o.a o.b o.g o.reads f).Writes o := by
  refine ⟨fun m p vd va vb e he => ?_⟩
  simp only [merging, lane_mapLanes he, h m p, hall, Bool.false_eq_true, false_or]

section Shapes
variable (t : Ty) (d a : Rv) (g : Rg)

theorem floatOp_writes (b : Option Rv) (fzi reads : Bool) (f : Mode → FVal → FVal → FVal → Nat × Flags) :
    (floatOp t d a b g fzi reads f).Writes (floats d a b g t fzi reads f) :=
  merging_writes (o := floats d a b g t fzi reads f) rfl fun _ _ _ _ _ _ => rfl

theorem intOp_writes (b : Option Rv) (reads : Bool) {f k : Int → Int → Int → Int} (h : ∀ z x y, f z x y = k z x y) :
    (intOp t d a b g reads f).Writes (ints d a b g t reads k) :=
  merging_writes (o := ints d a b g t reads k) rfl fun _ _ vd va vb e => by
    simp only [ints, elem_eq_lane, intVal_eq_num (lane_lt ..), wrap_eq_low, h]

theorem bitOp_writes (b : Rv) {f k : Nat → Nat → Nat} (h : ∀ x y, x < 2 ^ t.width → f x y % 2 ^ t.width = k x y % 2 ^ t.width) :
    (bitOp t d a b g f).Writes (rawLanes d a (some b) g t fun va vb e => k (va e) (vb e)) :=
  merging_writes (o := rawLanes d a (some b) g t fun va vb e => k (va e) (vb e)) rfl fun _ _ _ va vb e => by
    simp only [rawLanes, elem_eq_lane, Nat.mod_mod, h _ _ (lane_lt ..)]

theorem permOp_writes (b : Option Rv) {f k : (Nat → Nat) → (Nat → Nat) → Nat → Nat} (h : ∀ va vb e, f va vb e = k va vb e) :
    (permOp t d a b g f).Writes (Claims.moves d a b g t k) :=
  merging_writes (o := Claims.moves d a b g t k) rfl fun _ _ _ va vb e => by
    simp only [Claims.moves, rawLanes, elem_eq_lane, mod_values, h]

end Shapes

theorem isActive_allOnes {t : Ty} {e : Nat} (h : e < laneCount t) : isActive t (BitVec.allOnes 128) e = true := by
  have hb : t.width / 8 * e < 128 := by
    have hpos : 0 < t.width / 8 := by cases t <;> decide
    have hmul : t.width / 8 * laneCount t = 128 := by cases t <;> rfl
    exact hmul ▸ Nat.mul_lt_mul_of_pos_left h hpos
  rw [isActive, BitVec.getLsbD_allOnes, decide_eq_true hb]

/-- `vsel` writes every element from one of its sources. -/
theorem selOp_writes (d a b : Rv) (g : Rg) (t : Ty) {o : LaneOp} (ho : laneOp (.vsel d a b g t) = some o) : (selOp d a b g t).Writes o := by
  have hsel : ∀ p va vb e, e < laneCount t → lane t.width (mapBits t (BitVec.allOnes 128) 0
      fun e => elem t.width e (if active t p e then va else vb)).1 e =
        (if isActive t p e then lane t.width va e else lane t.width vb e) % 2 ^ t.width := by
    intro p va vb e he
    rw [mapBits, lane_mapLanes he, if_pos (isActive_allOnes he)]
    exact congrArg (· % 2 ^ t.width) (apply_ite (elem t.width e) (isActive t p e = true) va vb)
  cases ho
  exact ⟨fun _ p _ va vb e he => (hsel p va vb e he).trans (if_pos (.inl rfl)).symm⟩

/-- `vcompr` writes the active elements at the low places, and zero above them. -/
theorem comprOp_writes (d a : Rv) (g : Rg) (t : Ty) {o : LaneOp} (ho : laneOp (.vcompr d a g t) = some o) : (comprOp d a g t).Writes o := by
  have hcompr : ∀ p va e, e < laneCount t → lane t.width (BitVec.ofNat 1024 (packList t.width
      (((List.range t.lanes).filter (active t p)).map fun e => elem t.width e va % t.values))) e =
        moved t ((((List.range (laneCount t)).filter (isActive t p)).map (lane t.width va))[e]?.getD 0) % 2 ^ t.width := by
    intro p va e he
    rw [lane_packList (lane_fits he), List.getD_eq_getElem?_getD, List.getElem?_map, List.getElem?_map, lanes_eq_laneCount]
    refine congrArg (· % 2 ^ t.width) ?_
    show Option.getD (Option.map _ ((List.range (laneCount t)).filter (isActive t p))[e]?) 0 = _
    cases ((List.range (laneCount t)).filter (isActive t p))[e]? with
    | none => exact (Nat.zero_mod _).symm
    | some i => exact mod_values t _
  cases ho
  exact ⟨fun _ p _ va _ e he => (hcompr p va e he).trans (if_pos (.inl rfl)).symm⟩

/-- The operation of a lane operation of the claims writes its elements. -/
theorem writes_of_laneOp {i : Instr} {o : LaneOp} {v : VecOp} (h : laneOp i = some o) (hv : frameOp i = some v) : v.Writes o := by
  cases i with
  | vadd | vsub | vmul | vmin | vmax | vabd | vaddmin | vfma | vfms | vfnma | vfnms | vdiv | vsqrt | vrcpe | vrsqe | vrnd =>
    cases h
    cases hv
    exact floatOp_writes _ _ _ _ _ _ _ _
  | viadd | visub | vimul | vimin =>
    cases h
    cases hv
    exact intOp_writes _ _ _ _ _ _ fun _ _ _ => rfl
  | vimulh d a b g t =>
    cases h
    cases hv
    exact intOp_writes _ _ _ _ _ _ fun _ _ _ => by rw [Nat.cast_pow, Nat.cast_ofNat]
  | vimax =>
    cases h
    cases hv
    exact intOp_writes _ _ _ _ _ _ fun _ x y => max_def x y
  | viaddmin d a b g t =>
    cases h
    cases hv
    exact intOp_writes _ _ _ _ _ _ fun z x y => by
      dsimp only
      rw [wrap_eq_low, intVal_eq_num (low_lt ..), min_def]
  | viabs =>
    cases h
    cases hv
    exact intOp_writes _ _ _ _ _ _ fun _ x _ => Int.natCast_natAbs x
  | vcopysign =>
    cases h
    cases hv
    exact merging_writes (o := rawLanes ..) rfl fun _ _ _ _ _ _ => rfl
  | vand | vor | vxor | vandn | vsrl =>
    cases h
    cases hv
    exact bitOp_writes _ _ _ _ _ fun _ _ _ => rfl
  | vsll =>
    cases h
    cases hv
    exact bitOp_writes _ _ _ _ _ fun _ _ _ => (Nat.mod_mod _ _).symm
  | vsra d a b g t =>
    cases h
    cases hv
    refine bitOp_writes t d a g b (f := fun x y => wrap t.width (toSigned t.width x / (2 ^ (y % t.width) : Nat)))
      (k := fun x y => (sgn t.width x / 2 ^ (y % t.width) % 2 ^ t.width).toNat) fun x y hx => ?_
    rw [toSigned_eq_sgn hx, wrap_eq, Nat.cast_pow, Nat.cast_ofNat]
  | vsel => cases hv; exact selOp_writes _ _ _ _ _ h
  | vcompr => cases hv; exact comprOp_writes _ _ _ _ h
  | vshdn d a b g t =>
    cases h
    cases hv
    refine permOp_writes _ _ _ _ _ fun _ _ e => if_congr ?_ rfl rfl
    have : 0 < laneCount t := laneCount_pos t
    rw [lanes_eq_laneCount]
    omega
  | vshup d a b g t | vperm d a b g t | vrev d a g t =>
    cases h
    cases hv
    exact permOp_writes _ _ _ _ _ fun _ _ _ => by simp only [lanes_eq_laneCount]
  | vzip d a b g t hi | vuzp d a b g t hi =>
    cases h
    cases hv
    simp only [zipOp, uzpOp, lanes_eq_laneCount]
    exact permOp_writes t d a g (some b) fun _ _ _ => rfl
  | _ => cases h

theorem VecOp.Writes.result {v : VecOp} {o : LaneOp} (hw : v.Writes o) (h : v.Raises o) (s : State) {e : Nat} (he : e < laneCount o.t) :
    lane o.t.width (v.result s).1 e = if o.all = true ∨ isActive o.t (govern s.th o.g) e = true then
      (o.value s e).1 % 2 ^ o.t.width else lane o.t.width s.th.v[o.d] e := by
  simp only [VecOp.result, hw.lanes _ _ _ _ _ _ he, h.a, h.b, h.g, h.d]
  rfl

/-! ### Conversions (R135) -/

/-- The elements of a conversion, and zero beyond them. -/
theorem lane_cvtOp (d a : Rv) (tin tout : Ty) (g : Rg) (fzi sat : Bool) (rm : Rm) (fzo : Bool) (s : State) {e : Nat}
    (he : e < laneCount tout) : lane tout.width ((cvtOp d a tin tout g fzi sat rm fzo).result s).1 e =
      if cvtLanes tin tout ≤ e then 0
      else if isActive tin (govern s.th g) e then
        (convert tin tout (rmMode rm (modeOf s.th.fcsr)) sat fzi fzo (lane tin.width s.th.v[a] e)).1 % 2 ^ tout.width
      else lane tout.width s.th.v[d] e := by
  split
  · next hn =>
    refine (lane_packList (lane_fits he) _).trans ?_
    rw [List.getD_eq_default _ _ (by simpa using hn), Nat.zero_mod]
  · next hn => exact lane_merged (lane_fits he) (Nat.lt_of_not_le hn) (active tin (govern s.th g)) _ _

end Sys2Proof.Machine

namespace Sys2Proof.Proofs
open Sys2Proof.Machine Sys2Proof.Safety Sys2Proof.Claims

/-- Settles O7: each lane operation is an operation of the machine that reads, raises and writes what it says. -/
theorem vectorElements : Obligations.VectorElements := by
  intro i s o _ hi ht hr hf
  obtain ⟨v, hv, h⟩ := frameOp_of_laneOp hi
  have ht : ∀ t ∈ v.types, TypeHere s t := by simpa [h.types] using ht
  refine ⟨(v.result s).1, ?_, fun e he => (writes_of_laneOp hi hv).result h s he⟩
  rw [exec_eq_of_frameOp hv, VecOp.exec_result ht (h.canRead hr) (by rwa [h.result_flags]), h.result_flags, h.d]

/-- Settles O9: a conversion is an operation of the machine on the elements that both formats have. -/
theorem vectorConvert : Obligations.VectorConvert := by
  rintro s d a tin tout g fzi sat fzo rm n one rfl htin htout ha hd rfl hf
  have ht : ∀ t ∈ (cvtOp d a tin tout g fzi sat rm fzo).types, TypeHere s t :=
    List.forall_mem_cons.2 ⟨htin, List.forall_mem_singleton.2 htout⟩
  have hflags := cvtOp_result_flags d a tin tout g fzi sat rm fzo s
  refine ⟨((cvtOp d a tin tout g fzi sat rm fzo).result s).1, ?_, fun e he => lane_cvtOp d a tin tout g fzi sat rm fzo s he⟩
  have h := VecOp.exec_result ht (cvtOp_canRead fzi sat rm fzo ha hd) (hflags ▸ hf)
  rw [hflags] at h
  exact h

end Sys2Proof.Proofs
end

section
/-! SUPPORT. What compares, reductions, block scales, moves and predicate operations write (05 R128, R129, R133, R134, R137 to
R141), and O10 to O14. -/

namespace Sys2Proof.Machine
open Sys2Proof.Safety Sys2Proof.Claims

/-! ### Predicates of elements (R60) -/

theorem bytes_mul_laneCount (t : Ty) : t.bytes * laneCount t = 128 := by cases t <;> rfl

theorem bytes_pos (t : Ty) : 0 < t.bytes := by cases t <;> decide

/-- A predicate made of elements' conditions has all bits of each element at its condition. -/
theorem isLanePred_lanePred (t : Ty) (c : Nat → Bool) : IsLanePred t c (lanePred t c) := by
  intro j hj
  have hpos := bytes_pos t
  have hj' : j / t.bytes < t.lanes := by
    rw [lanes_eq_laneCount, Nat.div_lt_iff_lt_mul hpos, mul_comm, bytes_mul_laneCount]
    exact hj
  have hr : j % t.bytes < t.bytes := Nat.mod_lt _ hpos
  have hfield := packList_field t.bytes ((List.range t.lanes).map fun e => if c e then 2 ^ t.bytes - 1 else 0) (j / t.bytes)
  rw [getD_map_range hj'] at hfield
  have hbit := congrArg (fun x => x.testBit (j % t.bytes)) hfield
  simp only [Nat.testBit_mod_two_pow, Nat.testBit_div_two_pow, hr, decide_true, Bool.true_and, Nat.mod_add_div] at hbit
  rw [lanePred, BitVec.getLsbD_ofNat, decide_eq_true hj, Bool.true_and, hbit]
  show _ = c (j / t.bytes)
  cases c (j / t.bytes)
  · exact Nat.zero_testBit _
  · exact (Nat.testBit_two_pow_sub_one _ _).trans (decide_eq_true hr)

/-! ### Flags raised -/

/-- Flags of which none is enabled are raised, and the instruction goes on. -/
theorem finish_raiseFlags_ok {s : State} {f f' : Flags} (hf : f &&& enabled s.th = 0) (heq : f' = f) (k : State → Except Stop State) :
    finish s (raiseFlags s f' >>= k) = finish s (k (withThread s (flagged s.th f))) := by
  rw [heq, raiseFlags_ok hf, ok_bind]

/-! ### Compares (R128, R129) -/

/-- A condition of the machine says of each ordering of two elements what the claims' conditions say. -/
structure Cond.Says (c : Cond) (nan quiet : Bool) (onInt : Int → Int → Bool) (onVal : FVal → FVal → Bool) : Prop where
  nan : c.nan = nan
  ordered : c.ordered = !quiet
  ints : ∀ a b : Int, (if a < b then c.lt else if a = b then c.eq else c.gt) = onInt a b
  vals : ∀ x y : FVal, (if x.lt y then c.lt else if y.lt x then c.gt else c.eq) = onVal x y

theorem compareElem_eq {c : Cond} {nan quiet : Bool} {onInt : Int → Int → Bool} {onVal : FVal → FVal → Bool}
    (h : c.Says nan quiet onInt onVal) {t : Ty} {x y : Nat} (hx : x < 2 ^ t.width) (hy : y < 2 ^ t.width) (fzi : Bool) :
    compareElem c t fzi x y = compares t fzi nan quiet onInt onVal x y := by
  obtain ⟨rfl, hq, hi, hv⟩ := h
  simp only [compareElem, compares, intVal_eq_num hx, intVal_eq_num hy, hi, hv, hq]

theorem condEq_says : condEq.Says false true (· == ·) fun x y => !x.lt y && !y.lt x where
  nan := rfl
  ordered := rfl
  ints a b := by simp only [condEq]; grind
  vals x y := by cases x.lt y <;> cases y.lt x <;> rfl

theorem condNe_says : condNe.Says true true (· != ·) fun x y => x.lt y || y.lt x where
  nan := rfl
  ordered := rfl
  ints a b := by simp only [condNe]; grind
  vals x y := by cases x.lt y <;> cases y.lt x <;> rfl

theorem condLt_says : condLt.Says false false (· < ·) fun x y => x.lt y where
  nan := rfl
  ordered := rfl
  ints a b := by simp only [condLt]; grind
  vals x y := by cases x.lt y <;> cases y.lt x <;> rfl

theorem condLe_says : condLe.Says false false (· ≤ ·) fun x y => x.lt y || !y.lt x where
  nan := rfl
  ordered := rfl
  ints a b := by simp only [condLe]; grind
  vals x y := by cases x.lt y <;> cases y.lt x <;> rfl

theorem condGt_says : condGt.Says false false (· > ·) fun x y => !x.lt y && y.lt x where
  nan := rfl
  ordered := rfl
  ints a b := by simp only [condGt]; grind
  vals x y := by cases x.lt y <;> cases y.lt x <;> rfl

theorem condGe_says : condGe.Says false false (· ≥ ·) fun x y => !x.lt y where
  nan := rfl
  ordered := rfl
  ints a b := by simp only [condGe]; grind
  vals x y := by cases x.lt y <;> cases y.lt x <;> rfl

theorem condUn_says : condUn.Says true true (fun _ _ => false) fun _ _ => false where
  nan := rfl
  ordered := rfl
  ints a b := by simp only [condUn, ite_self]
  vals x y := by simp only [condUn, ite_self]

/-- Every compare of the claims is a compare of the machine, with the same condition and flags of two elements. -/
theorem exec_eq_compareOp {i : Instr} {o : CompareOp} (h : compareOp i = some o) :
    ∃ f, (∀ s, exec i s = compare f o.d o.a o.b o.g o.t s) ∧
      ∀ x y, x < 2 ^ o.t.width → y < 2 ^ o.t.width → f x y = o.f x y := by
  cases i with
  | vceq d a b g t i => cases h; exact ⟨_, fun _ => rfl, fun x y hx hy => compareElem_eq condEq_says hx hy i⟩
  | vcne d a b g t i => cases h; exact ⟨_, fun _ => rfl, fun x y hx hy => compareElem_eq condNe_says hx hy i⟩
  | vclt d a b g t i => cases h; exact ⟨_, fun _ => rfl, fun x y hx hy => compareElem_eq condLt_says hx hy i⟩
  | vcle d a b g t i => cases h; exact ⟨_, fun _ => rfl, fun x y hx hy => compareElem_eq condLe_says hx hy i⟩
  | vcgt d a b g t i => cases h; exact ⟨_, fun _ => rfl, fun x y hx hy => compareElem_eq condGt_says hx hy i⟩
  | vcge d a b g t i => cases h; exact ⟨_, fun _ => rfl, fun x y hx hy => compareElem_eq condGe_says hx hy i⟩
  | vcun d a b g t i => cases h; exact ⟨_, fun _ => rfl, fun x y hx hy => compareElem_eq condUn_says hx hy i⟩
  | vclass d a m g t fzi =>
    cases h
    exact ⟨fun x _ => (bitAt m (classOf t (fval t fzi x)), 0), fun _ => rfl, fun _ _ _ _ => rfl⟩
  | _ => cases h

/-- A compare raises its flags and writes its predicate. -/
theorem compare_result {s : State} {o : CompareOp} {f : Nat → Nat → Bool × Flags}
    (hs : ∀ x y, x < 2 ^ o.t.width → y < 2 ^ o.t.width → f x y = o.f x y) (ht : TypeHere s o.t) (ha : Readable s.th (.v o.a))
    (hb : ∀ b ∈ o.b, Readable s.th (.v b)) (hf : o.flags s &&& enabled s.th = 0) :
    compare f o.d o.a o.b o.g o.t s = .next (withThread s (goNext (putP (flagged s.th (o.flags s)) o.d
      (lanePred o.t fun e => isActive o.t (govern s.th o.g) e && (o.holds s e).1)))) := by
  obtain ⟨d, a, b, g, t, k⟩ := o
  have hres : ∀ vb e, f (elem t.width e s.th.v[a]) (elem t.width e vb) = k (lane t.width s.th.v[a] e) (lane t.width vb e) :=
    fun vb e => hs _ _ (lane_lt ..) (lane_lt ..)
  have hflags : ∀ r : Nat → Bool × Flags, gather (((List.range t.lanes).filter (active t (s.th.rg g))).map fun e => (0, (r e).2)) =
      allFlags (laneCount t) (isActive t (govern s.th g)) fun e => (r e).2 :=
    fun r => lanes_eq_laneCount t ▸ gather_filtered _ _ _
  rw [compare, requireType_ok ht, useV_ok ha]
  cases b with
  | none =>
    simp only [ok_bind, pure_bind, hres]
    exact finish_raiseFlags_ok hf (hflags _) _
  | some b =>
    simp only [useV_ok (hb b rfl), ok_bind, hres]
    exact finish_raiseFlags_ok hf (hflags _) _

/-! ### Reductions (R133, R134) -/

theorem extendTo_eq (t : Ty) (x : Nat) :
    extendTo t x = if t.signed then BitVec.ofInt 64 (sgn t.width (x % 2 ^ t.width)) else word (x % 2 ^ t.width) := by
  rw [extendTo, sextTo, ← toSigned_eq_sgn (Nat.mod_lt _ (Nat.two_pow_pos _))]
  unfold toSigned
  rw [Nat.mod_mod]
  rfl

/-- A fold over elements as numbers. -/
theorem foldl_intVal {t : Ty} {l : List Nat} (h : ∀ x ∈ l, x < 2 ^ t.width) (f : Int → Int → Int) (n : Int) :
    l.foldl (fun n x => f n (intVal t x)) n = (l.map (num t)).foldl f n := by
  rw [List.foldl_map]
  exact List.foldl_ext _ _ _ fun n x hx => by rw [intVal_eq_num (h x hx)]

theorem intSum_eq {t : Ty} {l : List Nat} (h : ∀ x ∈ l, x < 2 ^ t.width) (n : Int) :
    intSum t n l = (low t (n + (l.map (num t)).sum)).1 := by
  rw [intSum, wrap_eq_low, foldl_intVal h, ← List.sum_cons, List.sum_eq_foldl, List.foldl_cons, zero_add]

theorem num_modEq (t : Ty) (x : Nat) : (x : Int) ≡ num t x [ZMOD (2 ^ t.width : Nat)] := by
  rw [num]
  split
  · exact sgn_modEq x
  · rfl

/-- The low bits of a sum do not depend on the upper bits of a number in it. -/
theorem low_add_intVal (t : Ty) (x : Nat) (n : Int) : low t (intVal t (x % 2 ^ t.width) + n) = low t (x + n) := by
  have hx : num t (x % 2 ^ t.width) ≡ x [ZMOD (2 ^ t.width : Nat)] :=
    (num_modEq t _).symm.trans (by exact_mod_cast Int.mod_modEq x (2 ^ t.width : Nat))
  rw [intVal_eq_num (Nat.mod_lt _ (Nat.two_pow_pos _)), low, low]
  exact_mod_cast congrArg (fun z : Int => (z.toNat, (0 : Flags))) (hx.add_right n)

theorem extreme_eq {t : Ty} {l : List Nat} (h : ∀ x ∈ l, x < 2 ^ t.width) (isMax fzi : Bool) :
    extreme isMax t fzi l =
      if t.isInt then low t ((l.map (num t)).foldl (if isMax then max else min) (if isMax then t.intMin else t.intMax))
      else extreme isMax t fzi l := by
  split
  · next hi =>
    rw [extreme, if_pos hi]
    dsimp only
    rw [wrap_eq_low, ← foldl_intVal h]
    cases isMax <;> rfl
  · rfl

/-- Every reduction of the claims is one of the machine with the same value and flags; `x0` stands for the scalar source of one
that has none. -/
theorem exec_eq_reduceOp {i : Instr} {o : ReduceOp} (h : reduceOp i = some o) :
    ∃ f : Word → Mode → List Nat → Nat × Flags, (∀ s, exec i s = finish s (do
        requireType s o.t
        let x ← useX s o.b
        reduceWith (f x) o.ext o.d o.a o.g o.t s)) ∧
      ∀ x m l, (∀ e ∈ l, e < 2 ^ o.t.width) → f x m l = o.f m x.toNat l := by
  cases i with
  | vrsum d a g t fzi =>
    cases h
    refine ⟨fun _ m xs => if t.isInt then (intSum t 0 xs, 0) else treeSum t m 7 (xs.map (fval t fzi)),
      fun s => congrArg (finish s) (reduceWith_checked ..).symm, fun _ _ l hl => ?_⟩
    simp only [intSum_eq hl, zero_add]
    rfl
  | vrsumo d a b g t fzi =>
    cases h
    refine ⟨_, fun _ => rfl, fun x m l hl => ?_⟩
    simp only [intSum_eq hl, low_add_intVal, List.isEmpty_iff]
    rfl
  | vrmax | vrmin =>
    cases h
    exact ⟨fun _ => _, fun s => congrArg (finish s) (reduceWith_checked ..).symm, fun _ _ _ hl => extreme_eq hl _ _⟩
  | vrand | vror =>
    cases h
    exact ⟨fun _ => _, fun s => congrArg (finish s) (reduceWith_checked ..).symm, fun _ _ _ _ => rfl⟩
  | vrcnt d a g t fzi =>
    cases h
    refine ⟨fun _ => _, fun s => congrArg (finish s) (reduceWith_checked ..).symm, fun _ _ l _ => ?_⟩
    simp only [← List.countP_eq_length_filter]
    refine congrArg (fun q => (List.countP q l, (0 : Flags))) (funext fun x => ?_)
    rw [zeroElem]
    split <;> rfl
  | _ => cases h

theorem mem_activeLanes {t : Ty} {g : PReg} {v : VReg} {x : Nat} (h : x ∈ activeLanes t g v) : x < 2 ^ t.width := by
  obtain ⟨e, -, rfl⟩ := List.mem_map.1 h
  exact lane_lt ..

/-- A reduction raises its flags and writes its value. -/
theorem reduceOp_result {i : Instr} {s : State} {o : ReduceOp} (hi : reduceOp i = some o) (ht : TypeHere s o.t)
    (ha : Readable s.th (.v o.a)) (hb : ReadableX s.th o.b) (hf : (o.value s).2 &&& enabled s.th = 0) :
    exec i s = .next (withThread s (goNext (putX (flagged s.th (o.value s).2) o.d (o.ext (o.value s).1)))) := by
  obtain ⟨f, hexec, hs⟩ := exec_eq_reduceOp hi
  have hvalue : f (s.th.rx o.b) (modeOf s.th.fcsr)
      (((List.range o.t.lanes).filter (active o.t (s.th.rg o.g))).map fun e => elem o.t.width e s.th.v[o.a]) = o.value s := by
    rw [lanes_eq_laneCount]
    exact (hs _ _ _ fun _ => mem_activeLanes).trans (by rw [Thread.rx_toNat]; rfl)
  simp only [hexec, useX_ok hb, reduceWith, requireType_ok ht, useV_ok ha, ok_bind, hvalue]
  exact finish_raiseFlags_ok hf rfl _

/-! ### Block scales (R137 to R139) -/

theorem vqnt_result {s : State} {d a : Rv} {b : Rx} {g : Rg} {t : Ty} {fzi fzo : Bool} {k : Nat} {one : Nat → Nat × Flags}
    (ha : Readable s.th (.v a)) (hd : KeptReadable s 32 (isActive .f32 (govern s.th g)) d)
    (hk : k = blockScale t ((activeLanes .f32 (govern s.th g) s.th.v[a]).map (fval .f32 fzi)))
    (hone : one = fun e => scaleRound .f32 .rne fzo (127 - (k : Int)) (fval .f32 fzi (lane 32 s.th.v[a] e)))
    (hf : allFlags 32 (isActive .f32 (govern s.th g)) (fun e => (one e).2) &&& enabled s.th = 0) :
    exec (.vqnt d a b g t fzi fzo) s = .next (withThread s (goNext (putX (putV
      (flagged s.th (allFlags 32 (isActive .f32 (govern s.th g)) fun e => (one e).2)) d
      (mapLanes .f32 (govern s.th g) s.th.v[d] one).1) b (word k)))) := by
  have hscale : blockScale t (((List.range 32).filter (active .f32 (govern s.th g))).map fun e =>
      fval .f32 fzi (lane 32 s.th.v[a] e)) = k := by
    rw [hk, activeLanes, List.map_map]
    rfl
  show execVqnt d a b g t fzi fzo s = _
  simp only [execVqnt, useV_ok ha, rg_eq_govern, oldLanes_active (t := .f32) hd, ok_bind, hscale, elem_eq_lane, ← hone]
  exact finish_raiseFlags_ok hf (mapLanes_flags ..) _

/-- Elements of 32 bits, merged under the low bits of a predicate. -/
def wideLanes (g : PReg) (old : VReg) (f : Nat → Nat × Flags) : List (Nat × Flags) :=
  (List.range 32).map fun e => if g.getLsbD e then f e else (elem 32 e old, 0)

theorem lane_wideLanes {e : Nat} (h : e < 32) (g : PReg) (old : VReg) (f : Nat → Nat × Flags) :
    lane 32 (BitVec.ofNat 1024 (packList 32 ((wideLanes g old f).map (·.1)))) e =
      if g.getLsbD e then (f e).1 % 2 ^ 32 else lane 32 old e :=
  lane_merged (by omega) h g.getLsbD f old

theorem vdqnt_result {s : State} {d a : Rv} {b : Rx} {g : Rg} {t : Ty} {fzi fzo : Bool} {one : Nat → Nat × Flags}
    (ha : Readable s.th (.v a)) (hd : KeptReadable s 32 (fun e => (govern s.th g).getLsbD e) d) (hb : ReadableX s.th b)
    (hone : one = fun e =>
      let x := fval t fzi (lane 8 s.th.v[a] e)
      if xVal s.th b % 256 = 255 ∨ x.isNan = true then (Ty.nan .f32, 0)
      else scaleRound .f32 .rne fzo ((xVal s.th b % 256 : Nat) - 127) x)
    (hf : allFlags 32 (fun e => (govern s.th g).getLsbD e) (fun e => (one e).2) &&& enabled s.th = 0) :
    exec (.vdqnt d a b g t fzi fzo) s = .next (withThread s (goNext (putV
      (flagged s.th (allFlags 32 (fun e => (govern s.th g).getLsbD e) fun e => (one e).2)) d
      (BitVec.ofNat 1024 (packList 32 ((wideLanes (govern s.th g) s.th.v[d] one).map (·.1))))))) := by
  have hscale : bits (s.th.rx b) 0 8 = xVal s.th b % 256 := by
    rw [bits, field, Thread.rx_toNat, Nat.pow_zero, Nat.div_one]
    rfl
  show execVdqnt d a b g t fzi fzo s = _
  simp only [execVdqnt, useV_ok ha, useX_ok hb, rg_eq_govern, ok_bind, hscale, bitAt_eq_getLsbD, oldLanes_ok hd, hone, elem_eq_lane]
  subst hone
  exact finish_raiseFlags_ok hf (gather_merged ..) _

theorem vscale_result {s : State} {d a : Rv} {b : Rx} {g : Rg} {t : Ty} {fzi fzo : Bool} {one : Nat → Nat × Flags}
    (ht : TypeHere s t) (ha : Readable s.th (.v a)) (hd : KeptReadable s (laneCount t) (isActive t (govern s.th g)) d)
    (hb : ReadableX s.th b)
    (hone : one = fun e => scaleRound t (modeOf s.th.fcsr) fzo (max (-8192) (min 8192 (sgn 64 (xVal s.th b))))
      (fval t fzi (lane t.width s.th.v[a] e)))
    (hf : allFlags (laneCount t) (isActive t (govern s.th g)) (fun e => (one e).2) &&& enabled s.th = 0) :
    exec (.vscale d a b g t fzi fzo) s = .next (withThread s (goNext (putV
      (flagged s.th (allFlags (laneCount t) (isActive t (govern s.th g)) fun e => (one e).2)) d
      (mapLanes t (govern s.th g) s.th.v[d] one).1))) := by
  show execVscale d a b g t fzi fzo s = _
  simp only [execVscale, requireType_ok ht, useV_ok ha, useX_ok hb, rg_eq_govern, oldLanes_active hd, ok_bind, rx_toInt, elem_eq_lane,
    clampExp, ← hone]
  exact finish_raiseFlags_ok hf (mapLanes_flags ..) _

/-! ### Elements filled (R132, R140) -/

theorem readableX_of_source {t : Thread} {r : Rx} (h : Source t (.x r)) : ReadableX t r :=
  h.imp DestReg.x.inj id

theorem readable_of_source {t : Thread} {r : Rv} (h : Source t (.v r)) : Readable t (.v r) :=
  h.resolve_left nofun

theorem moved_lt (t : Ty) (x : Nat) : moved t x < 2 ^ t.width :=
  (Nat.mod_lt _ (Nat.two_pow_pos _)).trans_le (Nat.pow_le_pow_right (by decide) (by cases t <;> decide))

/-- Each element's value fits its place. -/
theorem fillOp_lt {i : Instr} {s : State} {d : Rv} {g : Rg} {f : Nat → Nat} (h : fillOp s i = some (d, g, f)) (e : Nat) :
    f e < 2 ^ (vecType i).width := by
  cases i with
  | vsplat | vsplatk => cases h; exact moved_lt ..
  | vidx => cases h; exact Nat.mod_lt _ (Nat.two_pow_pos _)
  | vbcl d a b g t =>
    cases h
    dsimp only [vecType]
    split
    · exact moved_lt ..
    · exact Nat.two_pow_pos _
  | _ => cases h

/-- The state with filled elements, at the next word. -/
def filled (s : State) (d : Rv) (g : Rg) (t : Ty) (f : Nat → Nat) : State :=
  withThread s (goNext (putV s.th d (mapBits t (govern s.th g) s.th.v[d] f).1))

theorem fillLanes_ok {s : State} {d : Rv} {g : Rg} {t : Ty} (f : Nat → Nat)
    (hd : KeptReadable s (laneCount t) (isActive t (govern s.th g)) d) : fillLanes d g t s f = .ok (filled s d g t f) := by
  rw [fillLanes, rg_eq_govern, oldLanes_active hd]
  rfl

@[simp] theorem flagged_zero (t : Thread) : flagged t 0 = t := by
  have h : t.fcsr ||| (0 : Flags).setWidth 64 = t.fcsr := BitVec.or_zero
  rw [flagged, h]

theorem raiseFlags_zero (s : State) : raiseFlags s 0 = .ok s := by
  have h : (0 : Flags) &&& enabled s.th = 0 := BitVec.zero_and
  rw [raiseFlags_ok h, flagged_zero]
  rfl

/-- `vbcl` spreads one element, or zero. -/
theorem vbcl_result {s : State} {d a : Rv} {b : Rx} {g : Rg} {t : Ty} (ht : TypeHere s t) (ha : Readable s.th (.v a))
    (hb : ReadableX s.th b)
    (hd : KeptReadable s (laneCount t) (isActive t (govern s.th g)) d) :
    exec (.vbcl d a b g t) s = .next (filled s d g t fun _ =>
      if xVal s.th b < laneCount t then moved t (lane t.width s.th.v[a] (xVal s.th b)) else 0) := by
  show execVbcl d a b g t s = _
  simp only [execVbcl, requireType_ok ht, useX_ok hb, ok_bind, Thread.rx_toNat, lanes_eq_laneCount]
  have hr := rawLanes_raises t d a none g
    (fun _ _ va _ _ => (if xVal s.th b < laneCount t then elem t.width (xVal s.th b) va else 0) % t.values) fun _ _ _ => 0
  have hread : LaneReadable s (rawLanes d a none g t fun _ _ _ => 0) :=
    ⟨ha, nofun, fun h => hd (h.resolve_left nofun).2⟩
  have hflags := (hr.result_flags s).trans (allFlags_zero ..)
  have hrun := VecOp.run_eq (List.forall_mem_singleton.2 ht) (hr.canRead hread)
  have hbits : (if xVal s.th b < laneCount t then elem t.width (xVal s.th b) s.th.v[a] else 0) % t.values =
      if xVal s.th b < laneCount t then moved t (lane t.width s.th.v[a] (xVal s.th b)) else 0 := by
    rw [mod_values, elem_eq_lane, apply_ite (moved t)]
    exact if_congr Iff.rfl rfl (Nat.zero_mod _)
  rw [permOp, hrun, hflags, raiseFlags_zero, filled, mapBits, ← hbits]
  rfl

/-- An instruction that fills elements writes them. -/
theorem fillOp_result {i : Instr} {s : State} {d : Rv} {g : Rg} {f : Nat → Nat} (h : fillOp s i = some (d, g, f))
    (ht : TypeHere s (vecType i)) (hw : ∀ k t, i = .vsplatk d k g t → WindowGood s k.val) (hs : ∀ r ∈ fillSources i, Source s.th r)
    (hd : KeptReadable s (laneCount (vecType i)) (isActive (vecType i) (govern s.th g)) d) :
    exec i s = .next (filled s d g (vecType i) f) := by
  cases i with
  | vsplat d a g t =>
    cases h
    dsimp only [vecType] at ht hd
    show execVsplat d a g t s = _
    have ha : ReadableX s.th a := readableX_of_source (hs _ (by simp [fillSources]))
    simp only [execVsplat, requireType_ok ht, useX_ok ha, ok_bind, fillLanes_ok _ hd, splatBits, Thread.rx_toNat, mod_values]
    rfl
  | vsplatk d k g t =>
    cases h
    dsimp only [vecType] at ht hd
    show execVsplatk d k g t s = _
    simp only [execVsplatk, requireType_ok ht, useWindow_good (Nat.le_of_lt_succ k.isLt) (hw k t rfl), ok_bind,
      fillLanes_ok _ hd, splatBits, mod_values]
    rfl
  | vidx d a b g t =>
    cases h
    dsimp only [vecType] at ht hd
    show execVidx d a b g t s = _
    have ha : ReadableX s.th a := readableX_of_source (hs _ (by simp [fillSources]))
    have hb : ReadableX s.th b := readableX_of_source (hs _ (by simp [fillSources]))
    simp only [execVidx, requireType_ok ht, useX_ok ha, useX_ok hb, ok_bind, fillLanes_ok _ hd, Thread.rx_toNat]
    rfl
  | vbcl d a b g t =>
    cases h
    exact vbcl_result ht (readable_of_source (hs _ (by simp [fillSources]))) (readableX_of_source (hs _ (by simp [fillSources]))) hd
  | _ => cases h

theorem vsplatk_poisoned {s : State} {d : Rv} {k : Fin 256} {g : Rg} {t : Ty} (ht : TypeHere s t) (hm : WindowMarked s k.val)
    (hc : CanHold s 1) : exec (.vsplatk d k g t) s = .next (faulted s 0x0B (word (8 * k.val)) 0 0 none) := by
  show execVsplatk d k g t s = _
  rw [execVsplatk, requireType_ok ht, useWindow_marked hm]
  exact finish_trapOf hc _ _ _

/-! ### One element written (R140) -/

theorem lane_setElem {w e k : Nat} (he : w * e + w ≤ 1024) (v : VReg) (x : Nat) :
    lane w (setElem w k v x) e = if e = k then x % 2 ^ w else lane w v e := by
  have hbits : setElem w k v x = BitVec.ofNat 1024 (replaceBits v.toNat (w * k) w x) := rfl
  rw [hbits]
  refine (field_of_ofNat he _).trans (Nat.eq_of_testBit_eq fun i => ?_)
  simp only [lane, apply_ite (fun n => Nat.testBit n i), Nat.testBit_mod_two_pow, Nat.testBit_div_two_pow, testBit_replaceBits]
  by_cases hi : i < w
  · have hplace : w * k ≤ i + w * e ∧ i + w * e < w * k + w ↔ e = k := by
      have hdiv : (i + w * e) / w = e := by
        rw [Nat.add_mul_div_left _ _ (Nat.zero_lt_of_lt hi), Nat.div_eq_of_lt hi, zero_add]
      rw [← Nat.mul_add_one, mul_comm w k, mul_comm w (k + 1), ← Nat.le_div_iff_mul_le (Nat.zero_lt_of_lt hi),
        ← Nat.div_lt_iff_lt_mul (Nat.zero_lt_of_lt hi), hdiv]
      omega
    simp only [hi, hplace, decide_true, Bool.true_and]
    refine ite_congr rfl (fun h => ?_) fun _ => rfl
    rw [h, Nat.add_sub_cancel]
  · simp only [hi, decide_false, Bool.false_and, ite_self]

theorem vxmov_result {s : State} {d : Rv} {a b : Rx} {t : Ty} (ht : TypeHere s t) (ha : ReadableX s.th a) (hb : ReadableX s.th b)
    (hd : xVal s.th b < laneCount t → Readable s.th (.v d)) :
    exec (.vxmov d a b t) s = .next (withThread s (goNext (if xVal s.th b < laneCount t
      then putV s.th d (setElem t.width (xVal s.th b) s.th.v[d] (moved t (xVal s.th a))) else s.th))) := by
  show execVxmov d a b t s = _
  simp only [execVxmov, requireType_ok ht, useX_ok ha, useX_ok hb, ok_bind, Thread.rx_toNat, splatBits, mod_values, lanes_eq_laneCount]
  split
  · next h =>
    rw [useV_ok (hd h)]
    rfl
  · rfl

/-! ### Predicates and scalars written (R140, R141) -/

/-- The first element that is set in both predicates. -/
theorem head_bothSet (s : State) (a : Rp) (g : Rg) (t : Ty) {e : Nat} (he : e < laneCount t) :
    ((bothSet s a g t).head? == some e) =
      (isActive t (pVal s.th a) e && isActive t (govern s.th g) e &&
        (List.range e).all fun k => !(isActive t (pVal s.th a) k && isActive t (govern s.th g) k)) := by
  rw [Bool.eq_iff_iff, beq_iff_eq, bothSet, List.head?_filter, lanes_eq_laneCount]
  refine List.find?_range_eq_some.trans ?_
  simp only [Bool.and_eq_true, List.all_eq_true, List.mem_range, he, true_and]
  rfl

/-- A predicate operation, or `vwhile`, writes its conditions. -/
theorem predOp_result {i : Instr} {s : State} {d : Rp} {c : Nat → Bool} (h : predOp s i = some (d, c)) (ht : TypeHere s (vecType i))
    (hs : ∀ r ∈ predSources i, ReadableX s.th r) :
    ∃ p : PReg, exec i s = .next (withThread s (goNext (putP s.th d p))) ∧ ∀ j, j < 128 → p.getLsbD j = c j := by
  cases i with
  | pand => cases h; exact ⟨_, rfl, fun _ _ => BitVec.getLsbD_and⟩
  | por => cases h; exact ⟨_, rfl, fun _ _ => BitVec.getLsbD_or⟩
  | pxor => cases h; exact ⟨_, rfl, fun _ _ => BitVec.getLsbD_xor⟩
  | pnot => cases h; exact ⟨_, rfl, fun _ hj => by rw [BitVec.getLsbD_not, decide_eq_true hj, Bool.true_and]; rfl⟩
  | pmov => cases h; exact ⟨_, rfl, fun _ _ => rfl⟩
  | pfirst d a g t =>
    cases h
    dsimp only [vecType] at ht
    refine ⟨lanePred t fun e => (bothSet s a g t).head? == some e, ?_, fun j hj => ?_⟩
    · show execPfirst d a g t s = _
      rw [execPfirst, requireType_ok ht]
      rfl
    · have he : j / t.bytes < laneCount t := by
        rwa [Nat.div_lt_iff_lt_mul (bytes_pos t), mul_comm, bytes_mul_laneCount]
      exact (isLanePred_lanePred _ _ j hj).trans (head_bothSet s a g t he)
  | pset d a t =>
    cases h
    dsimp only [vecType] at ht
    refine ⟨lanePred t fun e => bitAt (s.th.rx a) (e % 64), ?_, fun j hj => ?_⟩
    · show execPset d a t s = _
      rw [execPset, requireType_ok ht, useX_ok (hs _ (List.mem_singleton_self _))]
      rfl
    · rw [isLanePred_lanePred _ _ j hj, bitAt, Thread.rx_toNat]
  | vwhile d a b t =>
    cases h
    dsimp only [vecType] at ht
    refine ⟨lanePred t fun e => decide ((s.th.rx a).toNat + e < (s.th.rx b).toNat), ?_, fun j hj => ?_⟩
    · show execVwhile d a b t s = _
      rw [execVwhile, requireType_ok ht, useX_ok (hs a (by simp [predSources])), useX_ok (hs b (by simp [predSources]))]
      rfl
    · rw [isLanePred_lanePred _ _ j hj, Thread.rx_toNat, Thread.rx_toNat]
  | _ => cases h

/-- The bits of an element, extended by its type. -/
theorem extendTo_moved (t : Ty) (v : VReg) (e : Nat) : extendTo t (moved t (lane t.width v e)) =
    if t.signed then BitVec.ofInt 64 (sgn t.width (lane t.width v e)) else word (moved t (lane t.width v e)) := by
  rw [extendTo_eq, Nat.mod_eq_of_lt (moved_lt ..)]
  split
  · next h =>
    have hl : t ≠ .l6 := fun hl => by rw [hl] at h; cases h
    rw [moved, if_neg hl, lane_mod]
  · rfl

/-- `vmovx`, `vgetl` and `pcnt` write their value. -/
theorem laneScalar_result {i : Instr} {s : State} {d : Rx} {v : Word} (h : laneScalar s i = some (d, v)) (ht : TypeHere s (vecType i))
    (hs : ∀ r ∈ laneScalarSources i, Source s.th r) : exec i s = .next (withThread s (goNext (putX s.th d v))) := by
  cases i with
  | vmovx d a b t =>
    cases h
    dsimp only [vecType] at ht
    have ha : Readable s.th (.v a) := readable_of_source (hs _ (by simp [laneScalarSources]))
    have hb : ReadableX s.th b := readableX_of_source (hs _ (by simp [laneScalarSources]))
    show execVmovx d a b t s = _
    rw [execVmovx, requireType_ok ht, useV_ok ha, useX_ok hb]
    simp only [ok_bind, Thread.rx_toNat, lanes_eq_laneCount, mod_values, elem_eq_lane, extendTo_moved]
    rfl
  | vgetl d a t =>
    cases h
    dsimp only [vecType] at ht
    have ha : ReadableX s.th a := readableX_of_source (hs _ (by simp [laneScalarSources]))
    show execVgetl d a t s = _
    rw [execVgetl, requireType_ok ht, useX_ok ha]
    simp only [ok_bind, Thread.rx_toNat, lanes_eq_laneCount]
    rfl
  | pcnt d a g t =>
    cases h
    dsimp only [vecType] at ht
    show execPcnt d a g t s = _
    rw [execPcnt, requireType_ok ht, bothSet, ← List.countP_eq_length_filter, lanes_eq_laneCount]
    rfl
  | _ => cases h

end Sys2Proof.Machine
namespace Sys2Proof.Proofs
open Sys2Proof.Machine Sys2Proof.Safety Sys2Proof.Claims

/-- Settles O10: a compare of the machine has the condition and the flags of the claims' compare at each active element. -/
theorem vectorCompare : Obligations.VectorCompare := by
  intro i s o _ hi ht ha hb hf
  obtain ⟨f, hexec, hs⟩ := exec_eq_compareOp hi
  exact ⟨_, (hexec s).trans (compare_result hs ht ha hb hf), isLanePred_lanePred _ _⟩

/-- Settles O11: a reduction of the machine has the value and the flags of the claims' reduction of the active elements. -/
theorem vectorReduce : Obligations.VectorReduce :=
  fun _ _ _ _ hi ht ha hb hf => reduceOp_result hi ht ha hb hf

/-- Settles O12: the block's scale and the scaled elements, merged under the predicate. -/
theorem blockScaleResult : Obligations.BlockScaleResult := by
  refine ⟨?quantise, ?dequantise, ?scale⟩
  case quantise =>
    exact fun s d a b g t fzi fzo k one ha hd hk hone hf =>
      ⟨_, vqnt_result ha hd hk hone hf, fun e he => lane_mapLanes (t := .f32) he _ _ _⟩
  case dequantise =>
    exact fun s d a b g t fzi fzo one ha hd hb hone hf =>
      ⟨_, vdqnt_result ha hd hb hone hf, fun e he => lane_wideLanes he _ _ _⟩
  case scale =>
    exact fun s d a b g t fzi fzo one _ ht ha hd hb hone hf =>
      ⟨_, vscale_result ht ha hd hb hone hf, fun e he => lane_mapLanes he _ _ _⟩

/-- Settles O13: what fills the active elements, and the one element that `vxmov` writes. -/
theorem vectorFill : Obligations.VectorFill := by
  refine ⟨?fill, ?move, ?poisoned⟩
  case fill =>
    intro i s d g f h ht hw hs hd
    refine ⟨_, fillOp_result h ht hw hs hd, fun e he => ?_⟩
    rw [mapBits, lane_mapLanes he, Nat.mod_eq_of_lt (fillOp_lt h e)]
  case move =>
    refine fun s d a b t ht ha hb => ⟨fun hn => ?_,
      fun hn hd => ⟨setElem t.width (xVal s.th b) s.th.v[d] (moved t (xVal s.th a)), ?_, fun e he => ?_⟩⟩
    · rw [vxmov_result ht ha hb fun h => absurd h hn.not_gt, if_neg hn.not_gt]
    · rw [vxmov_result ht ha hb fun _ => hd, if_pos hn]
    · rw [lane_setElem (lane_fits he), Nat.mod_eq_of_lt (moved_lt ..)]
  case poisoned => exact fun s d k g t ht hm hc => vsplatk_poisoned ht hm hc

/-- Settles O14: predicate operations by their bits, and the three moves to `xd` by their values. -/
theorem predicateAndScalarResult : Obligations.PredicateAndScalarResult :=
  ⟨fun _ _ _ _ h ht hs => predOp_result h ht hs, fun _ _ _ _ h ht hs => laneScalar_result h ht hs⟩

end Sys2Proof.Proofs
end

section
/-! SUPPORT. Operations run one after the other (05 R146 to R149): what a step number changes, what a run keeps, and O16. -/

namespace Sys2Proof.Machine
open Sys2Proof.Safety Sys2Proof.Claims

/-! ### One operation -/

theorem bind_eq_ok {α β : Type} {x : Except Stop α} {k : α → Except Stop β} {b : β} :
    (x >>= k) = .ok b ↔ ∃ a, x = .ok a ∧ k a = .ok b := by
  cases x with
  | error e => exact ⟨nofun, nofun⟩
  | ok a => exact ⟨fun h => ⟨a, rfl, h⟩, fun ⟨_, ha, h⟩ => by cases ha; exact h⟩

theorem raiseFlags_eq_ok {s u : State} {f : Flags} {n : Nat} :
    raiseFlags s f n = .ok u ↔ enables s.th.fcsr &&& f = 0 ∧ s.setTh { s.th with fcsr := orFlags s.th.fcsr f } = u := by
  unfold raiseFlags
  split
  · next h => exact ⟨fun he => ⟨h, Except.ok.inj he⟩, fun ⟨_, he⟩ => congrArg _ he⟩
  · next h => exact ⟨nofun, fun ⟨hf, _⟩ => absurd hf h⟩

theorem bind_eq_error {α β : Type} {x : Except Stop α} {k : α → Except Stop β} {e : Stop} :
    (x >>= k) = .error e ↔ x = .error e ∨ ∃ a, x = .ok a ∧ k a = .error e := by
  cases x with
  | error e' => exact ⟨fun h => .inl (congrArg _ (Except.error.inj h)), fun h => congrArg _ (Except.error.inj (h.resolve_right nofun))⟩
  | ok a => exact ⟨fun h => .inr ⟨a, rfl, h⟩, fun h => by
      obtain ⟨_, ha, h⟩ := h.resolve_left nofun
      cases ha
      exact h⟩

/-- What an operation answers before it raises its flags. -/
def VecOp.computed (o : VecOp) (s : State) : Except Stop (VReg × Flags) := do
  for t in o.types do requireType s t
  let va ← useV s o.a
  let vb ← (match o.b with
    | some b => useV s b
    | none => pure 0 : Except Stop VReg)
  let vd ← (if o.keeps (s.th.rg o.g) then useV s o.d else pure (s.th.rv o.d) : Except Stop VReg)
  return o.f (modeOf s.th.fcsr) (s.th.rg o.g) vd va vb

theorem VecOp.run_eq_computed (o : VecOp) (s : State) (n : Nat) :
    o.run s n = (do
      let r ← o.computed s
      return (← raiseFlags s r.2 n).wv o.d r.1) := by
  obtain ⟨d, a, b, g, types, keeps, f⟩ := o
  by_cases hk : keeps (s.th.rg g) = true
  · cases b <;> simp only [VecOp.run, VecOp.computed, bind_assoc, pure_bind, if_pos hk]
  · cases b <;> simp only [VecOp.run, VecOp.computed, bind_assoc, pure_bind, if_neg hk]

/-- An operation that completes has computed its result and raised its flags, at any step. -/
theorem VecOp.run_eq_ok {o : VecOp} {s u : State} {n : Nat} : o.run s n = .ok u ↔ ∃ r, o.computed s = .ok r ∧
    enables s.th.fcsr &&& r.2 = 0 ∧ (s.setTh { s.th with fcsr := orFlags s.th.fcsr r.2 }).wv o.d r.1 = u := by
  simp only [VecOp.run_eq_computed, bind_eq_ok, raiseFlags_eq_ok]
  constructor
  · rintro ⟨r, hr, _, ⟨hf, rfl⟩, h⟩
    exact ⟨r, hr, hf, Except.ok.inj h⟩
  · rintro ⟨r, hr, hf, rfl⟩
    exact ⟨r, hr, _, ⟨hf, rfl⟩, rfl⟩

/-- What completes at one step completes so at any. -/
theorem VecOp.run_ok_step {o : VecOp} {s u : State} {n : Nat} (h : o.run s n = .ok u) (m : Nat) : o.run s m = .ok u :=
  VecOp.run_eq_ok.2 (VecOp.run_eq_ok.1 h)

theorem VecOp.run_pc {o : VecOp} {s u : State} {n : Nat} (h : o.run s n = .ok u) : u.th.pc = s.th.pc := by
  obtain ⟨r, -, -, rfl⟩ := VecOp.run_eq_ok.1 h
  rfl

/-- A register that cannot be read has no step in its fault. -/
theorem useV_trap_step {s : State} {r : Rv} {k : Trap} (h : useV s r = .error (.trap k)) : k.step = 0 := by
  obtain h | ⟨_, -, h⟩ := bind_eq_error.1 h
  · rw [ready] at h
    split at h
    · cases h
    · split at h <;> cases h
      rfl
  · cases h

/-- With its types here, an operation faults without a step until it raises its flags. -/
theorem VecOp.computed_trap_step {o : VecOp} {s : State} {k : Trap} (ht : ∀ t ∈ o.types, TypeHere s t)
    (h : o.computed s = .error (.trap k)) : k.step = 0 := by
  rw [VecOp.computed, requireTypes_ok ht] at h
  obtain ha | ⟨_, -, h⟩ := bind_eq_error.1 h
  · exact useV_trap_step ha
  · obtain hb | ⟨_, -, h⟩ := bind_eq_error.1 h
    · split at hb
      · exact useV_trap_step hb
      · cases hb
    · obtain hd | ⟨_, -, h⟩ := bind_eq_error.1 h
      · split at hd
        · exact useV_trap_step hd
        · cases hd
      · cases h

/-- The fault of an operation of step `n` is at the first step as it is at any, but for the step number. -/
theorem VecOp.run_trap_first {o : VecOp} {s : State} {n : Nat} {k : Trap} (ht : ∀ t ∈ o.types, TypeHere s t)
    (h : o.run s n = .error (.trap k)) : o.run s 0 = .error (.trap { k with step := 0 }) := by
  rw [VecOp.run_eq_computed] at h ⊢
  obtain hc | ⟨r, hr, h⟩ := bind_eq_error.1 h
  · rw [hc, ← VecOp.computed_trap_step ht hc]
    rfl
  · rw [hr, ok_bind]
    obtain hf | ⟨_, -, h⟩ := bind_eq_error.1 h
    · unfold raiseFlags at hf ⊢
      split at hf
      · cases hf
      · next he =>
        cases hf
        rw [if_neg he]
        rfl
    · cases h

/-! ### Operations in order -/

/-- Operations one after the other. -/
def runAll (l : List VecOp) (s : State) : Except Stop State := l.foldlM (fun u o => o.run u 0) s

/-- Operations one after the other, each with its step number (R147). -/
def runSteps (l : List (Nat × VecOp)) (s : State) : Except Stop State := l.foldlM (fun u e => atStep e.1 (e.2.run u e.1)) s

theorem runSteps_cons_ok {e : Nat × VecOp} {l : List (Nat × VecOp)} {s u : State} (h : e.2.run s 0 = .ok u) :
    runSteps (e :: l) s = runSteps l u := by
  rw [runSteps, List.foldlM_cons, VecOp.run_ok_step h]
  rfl

theorem runAll_cons {o : VecOp} {l : List VecOp} {s t : State} (h : runAll (o :: l) s = .ok t) :
    ∃ u, o.run s 0 = .ok u ∧ runAll l u = .ok t := by
  rw [runAll, List.foldlM_cons] at h
  exact bind_eq_ok.1 h

theorem runAll_pc {l : List VecOp} {s t : State} (h : runAll l s = .ok t) : t.th.pc = s.th.pc := by
  induction l generalizing s with
  | nil => cases h; rfl
  | cons o l ih =>
    obtain ⟨u, hu, hl⟩ := runAll_cons h
    exact (ih hl).trans (VecOp.run_pc hu)

/-- Operations that all complete do so with their step numbers. -/
theorem runSteps_append {l : List (Nat × VecOp)} {s t : State} (h : runAll (l.map (·.2)) s = .ok t) (r : List (Nat × VecOp)) :
    runSteps (l ++ r) s = runSteps r t := by
  induction l generalizing s with
  | nil => cases h; rfl
  | cons e l ih =>
    obtain ⟨u, hu, hl⟩ := runAll_cons h
    rw [List.cons_append, runSteps_cons_ok hu, ih hl]

/-- An operation that faults ends the run with its step number. -/
theorem runSteps_trap {e : Nat × VecOp} {s : State} {k : Trap} (h : e.2.run s e.1 = .error (.trap k)) (l : List (Nat × VecOp)) :
    runSteps (e :: l) s = .error (.trap { k with step := e.1 }) := by
  rw [runSteps, List.foldlM_cons, h]
  rfl

/-! ### The operations of a frame -/

/-- The operations of a frame's repetitions, in the order of R147. -/
def Frame.all (f : Frame) (ops : List VecOp) : List VecOp := (List.range f.cnt).flatMap fun i => ops.map fun o => f.at' o i

/-- The same with their step numbers. -/
def Frame.steps (f : Frame) (ops : List VecOp) : List (Nat × VecOp) :=
  (List.range f.cnt).flatMap fun i => ((List.range ops.length).zip ops).map fun e => (i * ops.length + e.1, f.at' e.2 i)

theorem Frame.steps_snd (f : Frame) (ops : List VecOp) : (f.steps ops).map (·.2) = f.all ops := by
  rw [Frame.steps, Frame.all, List.map_flatMap]
  refine List.flatMap_congr fun i _ => ?_
  have hzip : ((List.range ops.length).zip ops).map (·.2) = ops := List.map_snd_zip (by simp)
  rw [List.map_map]
  conv_rhs => rw [← hzip, List.map_map]
  rfl

theorem Frame.steps_fst (f : Frame) (ops : List VecOp) : (f.steps ops).map (·.1) = List.range (f.cnt * ops.length) := by
  have hrow : ∀ i, (((List.range ops.length).zip ops).map fun e => (i * ops.length + e.1, f.at' e.2 i)).map (·.1) =
      (List.range ops.length).map fun j => i * ops.length + j := by
    intro i
    have hzip : ((List.range ops.length).zip ops).map (·.1) = List.range ops.length := List.map_fst_zip (by simp)
    rw [List.map_map]
    conv_rhs => rw [← hzip, List.map_map]
    rfl
  rw [Frame.steps, List.map_flatMap, List.flatMap_congr fun i _ => hrow i, flatMap_rows]
  refine (List.map_congr_left fun e _ => ?_).trans (List.map_id _)
  rw [mul_comm, Nat.div_add_mod, id]

/-- The operation at place `n` has step number `n`. -/
theorem Frame.steps_getElem {f : Frame} {ops : List VecOp} {n : Nat} {o : VecOp} (h : (f.all ops)[n]? = some o) :
    (f.steps ops)[n]? = some (n, o) := by
  rw [← Frame.steps_snd, List.getElem?_map, Option.map_eq_some_iff] at h
  obtain ⟨e, he, rfl⟩ := h
  have hn := congrArg (fun l => l[n]?) (Frame.steps_fst f ops)
  simp only [List.getElem?_map, he, Option.map_some] at hn
  obtain ⟨_, hn⟩ := List.getElem?_eq_some_iff.1 hn.symm
  rw [List.getElem_range] at hn
  rw [he, hn]

theorem shiftReg_val {on : Bool} {n : Nat} {r : Rv} (h : on = true → r.val + n ≤ 31) :
    (shiftReg on n r).val = r.val + if on then n else 0 := by
  unfold shiftReg
  split
  · next hon => exact Nat.mod_eq_of_lt (Nat.lt_succ_of_le (h hon))
  · rfl

theorem Frame.mem_group {f : Frame} {i : Nat} (hi : i < f.cnt) {on : Bool} (h : on = true) (r : Rv) :
    r.val + i * f.step ∈ f.group on r := by
  rw [Frame.group, if_pos h]
  exact List.mem_map_of_mem (List.mem_range.2 hi)

/-- The registers that an accepted operation names in a repetition. -/
theorem Frame.at_regs {f : Frame} {o : VecOp} {i : Nat} (h : f.accepts o = true) (hi : i < f.cnt) :
    (f.at' o i).d.val = o.d.val + (if f.sd then i * f.step else 0) ∧ (f.at' o i).a.val = o.a.val + (if f.sa then i * f.step else 0)
      ∧ ∀ b, o.b = some b → ∃ b', (f.at' o i).b = some b' ∧ b'.val = b.val + if f.sb then i * f.step else 0 := by
  rw [Frame.accepts, Bool.and_eq_true, Bool.and_eq_true] at h
  obtain ⟨⟨hall, -⟩, -⟩ := h
  simp only [List.all_append, Bool.and_eq_true, List.all_eq_true, decide_eq_true_eq] at hall
  obtain ⟨⟨hd, ha⟩, hb⟩ := hall
  refine ⟨shiftReg_val fun hon => hd _ (mem_group hi hon _), shiftReg_val fun hon => ha _ (mem_group hi hon _), fun b h => ?_⟩
  rw [h] at hb
  exact ⟨shiftReg f.sb (i * f.step) b, congrArg (Option.map _) h, shiftReg_val fun hon => hb _ (mem_group hi hon _)⟩

/-! ### The words of a frame -/

theorem length_of_mapM {α β : Type} {f : α → Except Stop β} {l : List α} {r : List β} (h : l.mapM f = .ok r) :
    r.length = l.length := by
  induction l generalizing r with
  | nil => cases h; rfl
  | cons x l ih =>
    rw [List.mapM_cons] at h
    obtain ⟨_, -, h⟩ := bind_eq_ok.1 h
    obtain ⟨ys, hys, h⟩ := bind_eq_ok.1 h
    cases h
    exact congrArg Nat.succ (ih hys)

/-- The operation of a body word is that of the instruction that it decodes to. -/
theorem frameOp_of_frameWord {s : State} {bs : List Byte} {o : VecOp} (h : frameWord s bs = .ok (some o)) :
    ∃ i, decodeBytes bs = .ok i ∧ frameOp i = some o := by
  rw [frameWord] at h
  split at h
  · cases h
  · cases h
  · next i hi =>
    refine ⟨i, hi, ?_⟩
    obtain ⟨_, -, h⟩ := bind_eq_ok.1 h
    exact Except.ok.inj h

/-- The frame of a `repf` and its accepted operations. -/
structure FrameRuns (s : State) (cnt1 : Fin 16) (len1 : Fin 8) (step : Fin 3) (sd sa sb : Bool) (f : Frame) (ops : List VecOp) : Prop where
  frame : f = { cnt := cnt1.val + 1, step := 2 ^ step.val, sd, sa, sb }
  words : ∃ words, frameBytes s (len1.val + 1) = .ok words ∧ words.mapM (frameWord s) = .ok (ops.map some)
  accepts : ops.all f.accepts = true

section Runs
variable {s : State} {cnt1 : Fin 16} {len1 : Fin 8} {step : Fin 3} {sd sa sb : Bool} {f : Frame} {ops : List VecOp}
  (h : FrameRuns s cnt1 len1 step sd sa sb f ops)
include h

theorem FrameRuns.length : ops.length = len1.val + 1 := by
  obtain ⟨words, hwords, hops⟩ := h.words
  have := (length_of_mapM hops).trans (length_of_mapM hwords)
  simpa using this

/-- A frame whose words are fetched and accepted does its operations and goes on behind its body. -/
theorem FrameRuns.exec_eq : exec (.repf cnt1 len1 step sd sa sb) s = finish s (do
    let t ← runSteps (f.steps ops) s
    return retireTo t (t.th.pc + BitVec.ofNat 64 (4 + 4 * (len1.val + 1)))) := by
  have hlen := h.length
  obtain ⟨rfl, ⟨words, hwords, hops⟩, hacc⟩ := h
  have hall : ∀ p : VecOp → Bool, ((ops.map some).all fun o => o.any p) = ops.all p := fun p => List.all_map
  have hbody : (ops.map some).filterMap id = ops := by simp
  rw [← hlen] at hwords ⊢
  show execRepf cnt1 len1 step sd sa sb s = _
  simp only [execRepf, ← hlen, hwords, ok_bind, hops, hall, hacc, hbody]
  rfl

theorem FrameRuns.exec_ok {t : State} (hrun : runAll (f.all ops) s = .ok t) : exec (.repf cnt1 len1 step sd sa sb) s =
    .next (withThread t (goOn t.th (s.th.pc + BitVec.ofNat 64 (4 + 4 * (len1.val + 1))))) := by
  have hsteps : runSteps (f.steps ops) s = .ok t := by
    have happ := runSteps_append (l := f.steps ops) (by rwa [Frame.steps_snd]) []
    rwa [List.append_nil] at happ
  rw [h.exec_eq, hsteps, ok_bind, runAll_pc hrun]
  rfl

theorem FrameRuns.exec_trap {t : State} {n : Nat} {k : Trap} {o : VecOp} (hc : CanHold s 1)
    (hrun : runAll ((f.all ops).take n) s = .ok t) (ho : (f.all ops)[n]? = some o) (hk : o.run t n = .error (.trap k)) :
    exec (.repf cnt1 len1 step sd sa sb) s = .next (faulted s k.cause k.addr k.info n k.miss) := by
  obtain ⟨hn, he⟩ := List.getElem?_eq_some_iff.1 (Frame.steps_getElem ho)
  have hsplit : f.steps ops = (f.steps ops).take n ++ (n, o) :: (f.steps ops).drop (n + 1) := by
    rw [← he, List.getElem_cons_drop, List.take_append_drop]
  have hsteps : runSteps (f.steps ops) s = .error (.trap { k with step := n }) := by
    rw [hsplit, runSteps_append (by rwa [List.map_take, Frame.steps_snd]), runSteps_trap hk]
  rw [h.exec_eq, hsteps]
  exact congrArg Host.Outcome.next (takeFault_user hc _)

end Runs

theorem Frame.all_length (f : Frame) (ops : List VecOp) : (f.all ops).length = f.cnt * ops.length := by
  simp [Frame.all]

end Sys2Proof.Machine

namespace Sys2Proof.Proofs
open Sys2Proof.Machine Sys2Proof.Safety Sys2Proof.Claims

/-- Settles O16: a run of operations does not depend on the steps that they would fault at, and the operation at place n has step n. -/
theorem repeatFrame : Obligations.RepeatFrame := by
  refine ⟨?frame, ?word, ?registers⟩
  case frame =>
    intro s cnt1 len1 step sd sa sb words ops f hf hwords hops hacc
    have h : FrameRuns s cnt1 len1 step sd sa sb f ops := ⟨hf, ⟨words, hwords, hops⟩, hacc⟩
    refine ⟨fun t hrun => h.exec_ok hrun, fun n hn t k hrun hk hc => ?_⟩
    have hlen : n < (f.all ops).length := by
      rw [Frame.all_length, h.length, hf, mul_comm]
      exact hn
    exact h.exec_trap hc hrun (List.getElem?_eq_getElem hlen) (hk _ (List.getElem?_eq_getElem hlen))
  case word =>
    intro s bs o h
    obtain ⟨i, hi, ho⟩ := frameOp_of_frameWord h
    refine ⟨i, hi, fun t u n _ hrun => ?_, fun t n k ht hc hrun => ?_⟩
    · rw [exec_eq_of_frameOp ho, VecOp.exec, VecOp.run_ok_step hrun]
      rfl
    · rw [exec_eq_of_frameOp ho, VecOp.exec, VecOp.run_trap_first ht hrun]
      exact congrArg Host.Outcome.next (takeFault_user hc _)
  case registers =>
    intro f o i h hi
    obtain ⟨hd, ha, hb⟩ := Frame.at_regs h hi
    exact ⟨hd, ha, hb, fun hnone => congrArg (Option.map _) hnone, rfl, rfl, rfl⟩

end Sys2Proof.Proofs
end

section
/-! SUPPORT. The refutation of O24 (05 R143; 14 R330; 16 R377): an l6 element whose group lies in two lines. -/

namespace Sys2Proof.Proofs
open Sys2Proof.Machine Sys2Proof.Safety Sys2Proof.Claims

/-- A reference to l6 elements at offset 254 of the scratchpad: the first group of three bytes ends in the next line. -/
def straddlingRef : Ref := BitVec.ofNat 128 (14 * 2 ^ 84 + 2 * 2 ^ 80 + 254)

/-- The load of l6 elements from there, under the predicate that is always true. -/
def straddlingLoad : Instr := .vld 4 2 0 0 0

/-- A thread with that reference in `a2`. The line of the group's first two bytes carries the poison marker, and the storage of
the third byte's line holds an uncorrectable error. -/
def straddling : State :=
  let s := State.reset.withProgram 0
  { s with th := { s.th with a := s.th.a.set 2 straddlingRef }
           poison := [quadBase 0 / 256], weak := [(quadBase 0 / 256 + 1, false)] }

theorem straddling_readable (r : DestReg) : Readable straddling.th r :=
  ⟨fun _ h => (List.not_mem_nil h).elim, fun _ h => (List.not_mem_nil h).elim⟩

theorem straddling_canHold : CanHold straddling 1 :=
  ⟨by decide +kernel, by decide +kernel, .inl (by decide +kernel)⟩

theorem straddling_wellFormed : WellFormedRef straddlingRef := by
  unfold WellFormedRef
  decide +kernel

/-- The registers, the reference and the type of the load pass the checks before the elements'. -/
theorem straddling_vecReady : VecReady straddling ⟨4, 2, 0, true, .x 0, rowAt 0 0⟩ .l6 :=
  ⟨straddling_readable _, .inl rfl, straddling_wellFormed, by decide +kernel, fun _ => ⟨rfl, by decide +kernel⟩⟩

theorem straddling_marked : Marked straddling (nearKey straddling 2 254) := by
  unfold Marked
  decide +kernel

/-- Element 0 is in the scratchpad, and its first byte in the marked line. -/
theorem straddling_placeFault : PlaceFault straddling straddlingRef 254 3 false 0x0B none := by
  have hspace : spaceOf straddlingRef = 2 := by decide +kernel
  refine .inr ⟨by rw [hspace]; decide, rfl, .inr ⟨rfl, rfl, straddling_canHold.1, _, straddling_marked, .inl ⟨.inr hspace, ?_, ?_⟩⟩⟩
  · rw [hspace]
    decide
  · rw [hspace]

theorem straddling_elementFault : ElementFault straddling straddlingRef (rowAt 0 0 straddling.th straddlingRef .l6 0) (elemBytes .l6)
    (elemAlign .l6) false 0x0B none := by
  have haddr : rowAt 0 0 straddling.th straddlingRef .l6 0 = 254 := by decide +kernel
  rw [haddr]
  exact .inr (.inr ⟨by decide, by decide, by decide, straddling_placeFault⟩)

/-- The storage errors that an outcome leaves. -/
def weakAfter : Host.Outcome State Fault Refusal → List (Nat × Bool)
  | .next u => u.weak
  | _ => []

/-- The load reads the line of the error again (R377), which then holds none, and takes no fault. -/
theorem straddlingLoad_rereads : weakAfter (exec straddlingLoad straddling) = [] := by
  decide +kernel

/-- Refutes O24: where an l6 group straddles a marked line and one with a storage error, the statement asks for the poison fault of
the first line, which leaves the error as it is, and the machine first reads the second line again. -/
theorem not_vectorTileFaults : ¬ Obligations.VectorTileFaults := by
  rintro ⟨hvec, -⟩
  obtain ⟨-, helems⟩ := hvec straddlingLoad straddling _ false (.inl ⟨rfl, rfl⟩) (straddling_readable _) (.inl rfl) straddling_canHold
  obtain ⟨-, -, hfirst⟩ := helems .l6 straddling_wellFormed (by decide +kernel)
  have hfault := hfirst 0 0x0B none straddling_vecReady nofun (by decide) (by decide +kernel) nofun straddling_elementFault
  have hweak := straddlingLoad_rereads
  rw [hfault] at hweak
  cases hweak

end Sys2Proof.Proofs
end

section
/-! SUPPORT. What the race detector, the pacer and the quota leave as it is, and that every byte then reads the same (07 R190; 11 R296;
15 R355; 16 R386). -/

namespace Sys2Proof.Machine
open Sys2Proof.Safety Sys2Proof.Claims

/-! ### States in which every byte reads the same -/

/-- Nothing differs that a thread's registers or the value of a byte depends on. -/
structure SeenAlike (s t : State) : Prop where
  th : t.th = s.th
  parked : t.parked = s.parked
  tid : t.tid = s.tid
  mem : t.mem = s.mem
  cores : t.cores = s.cores
  cycle : t.cycle = s.cycle
  seq : t.seq = s.seq
  pkg : t.pkg = s.pkg
  keys : t.keys = s.keys
  podKeys : t.podKeys = s.podKeys
  forwards : t.forwards = s.forwards
  journal : ∀ q, (t.quad q).journal = (s.quad q).journal
  outside : ∀ q, (t.quad q).outside = (s.quad q).outside
  overs : ∀ q, (t.quad q).overs = (s.quad q).overs
  heatBuf : ∀ n, (t.sect n).heatBuf = (s.sect n).heatBuf

namespace SeenAlike

theorem refl (s : State) : SeenAlike s s :=
  ⟨rfl, rfl, rfl, rfl, rfl, rfl, rfl, rfl, rfl, rfl, rfl, fun _ => rfl, fun _ => rfl, fun _ => rfl, fun _ => rfl⟩

theorem trans {s t u : State} (h : SeenAlike s t) (k : SeenAlike t u) : SeenAlike s u where
  th := k.th.trans h.th
  parked := k.parked.trans h.parked
  tid := k.tid.trans h.tid
  mem := k.mem.trans h.mem
  cores := k.cores.trans h.cores
  cycle := k.cycle.trans h.cycle
  seq := k.seq.trans h.seq
  pkg := k.pkg.trans h.pkg
  keys := k.keys.trans h.keys
  podKeys := k.podKeys.trans h.podKeys
  forwards := k.forwards.trans h.forwards
  journal q := (k.journal q).trans (h.journal q)
  outside q := (k.outside q).trans (h.outside q)
  overs q := (k.overs q).trans (h.overs q)
  heatBuf n := (k.heatBuf n).trans (h.heatBuf n)

theorem foldl {α : Type} {f : State → α → State} (h : ∀ s a, SeenAlike s (f s a)) (l : List α) (s : State) :
    SeenAlike s (l.foldl f s) := by
  induction l generalizing s with
  | nil => exact refl s
  | cons a l ih => exact (h s a).trans (ih (f s a))

theorem setGang (s : State) (n : Nat) (g : Gang) : SeenAlike s (s.setGang n g) :=
  ⟨rfl, rfl, rfl, rfl, rfl, rfl, rfl, rfl, rfl, rfl, rfl, fun _ => rfl, fun _ => rfl, fun _ => rfl, fun _ => rfl⟩

theorem setSect {s : State} {n : Nat} {k : Section} (hk : k.heatBuf = (s.sect n).heatBuf) : SeenAlike s (s.setSect n k) where
  th := rfl
  parked := rfl
  tid := rfl
  mem := rfl
  cores := rfl
  cycle := rfl
  seq := rfl
  pkg := rfl
  keys := rfl
  podKeys := rfl
  forwards := rfl
  journal _ := rfl
  outside _ := rfl
  overs _ := rfl
  heatBuf m := by
    rw [State.setSect_sect]
    split
    · next h => rw [h, hk]
    · rfl

theorem setQuad {s : State} {n : Nat} {k : Quad} (hj : k.journal = (s.quad n).journal) (ho : k.outside = (s.quad n).outside)
    (hv : k.overs = (s.quad n).overs) : SeenAlike s (s.setQuad n k) where
  th := rfl
  parked := rfl
  tid := rfl
  mem := rfl
  cores := rfl
  cycle := rfl
  seq := rfl
  pkg := rfl
  keys := rfl
  podKeys := rfl
  forwards := rfl
  journal q := by
    rw [State.setQuad_quad]
    split
    · next h => rw [h, hj]
    · rfl
  outside q := by
    rw [State.setQuad_quad]
    split
    · next h => rw [h, ho]
    · rfl
  overs q := by
    rw [State.setQuad_quad]
    split
    · next h => rw [h, hv]
    · rfl
  heatBuf _ := rfl

/-! ### What leaves every byte as it reads -/

theorem appendTrace (s : State) (n : Nat) (rs : List TraceRec) :
    SeenAlike s (if rs.isEmpty then s else s.setSect n ((s.sect n).append rs)) := by
  split
  · exact refl s
  · exact setSect rfl

theorem detectWord (s : State) (tid : Nat) (write : Bool) (m : Moment) (me : Seen) (l : Loc) (n : Nat) :
    SeenAlike s (s.detectWord tid write m me l n) := by
  unfold State.detectWord
  dsimp only
  split
  · exact refl s
  · exact trans (appendTrace ..) (setGang ..)

theorem detect (s : State) (tid : Nat) (write atomic : Bool) (m : Moment) (retired : Nat) (ls : List Loc) :
    SeenAlike s (s.detect tid write atomic m retired ls) := by
  unfold State.detect
  split
  · exact foldl (fun u l => detectWord u ..) _ s
  · exact refl s

theorem detectUnits (s : State) (tid : Nat) (m : Moment) (retired : Nat) (units : List (List WByte)) :
    SeenAlike s (s.detectUnits tid m retired units) :=
  foldl (fun u _ => detect u ..) units s

theorem traceWrite (s : State) (kind : Nat) (rank : Option Nat) (ls : List Loc) : SeenAlike s (s.traceWrite kind rank ls) := by
  refine foldl (fun u l => foldl (fun v e => ?_) _ u) _ s
  split
  · exact refl v
  · exact setSect rfl

theorem payPacer {s u : State} {n : Nat} (h : payPacer s n = .ok u) : SeenAlike s u := by
  unfold Machine.payPacer at h
  dsimp only at h
  split at h
  · cases h
    exact refl s
  · split at h
    · cases h
      exact setQuad rfl rfl rfl
    · cases h

theorem takeQuota {s u : State} {w : Who} {n : Nat} {fa : Word} (h : takeQuota s w n fa = .ok u) : SeenAlike s u := by
  unfold Machine.takeQuota at h
  dsimp only at h
  split at h
  · cases h
    exact refl s
  · split at h
    · cases h
      exact setQuad rfl rfl rfl
    · split at h <;> cases h

theorem loadUnits {s u : State} {units : List (List Loc)} {vals : List (List Byte)} (h : loadUnits s units = .ok (vals, u)) :
    SeenAlike s u := by
  obtain ⟨_, -, h⟩ := bind_eq_ok.1 h
  obtain ⟨v, hv, h⟩ := bind_eq_ok.1 h
  cases h
  exact (payPacer hv).trans (foldl (fun u _ => detect u ..) units v)

/-! ### What a byte reads as -/

section View
variable {s t : State} (h : SeenAlike s t)
include h

theorem core (c : Nat) : t.core c = s.core c := by rw [State.core, State.core, h.cores]

theorem thread (n : Nat) : t.thread n = s.thread n := by rw [State.thread, State.thread, h.tid, h.th, h.parked]

theorem whoTh : whoTh t = whoTh s := by
  rw [Machine.whoTh, Machine.whoTh, h.tid, whoIs, whoIs, h.thread]

theorem journalOf (key : Nat) : t.journalOf key = s.journalOf key := by
  unfold State.journalOf
  simp only [h.core, h.journal]

theorem forwardLoc (l : Loc) : forwardLoc t l = forwardLoc s l := by
  unfold Machine.forwardLoc
  rw [h.forwards, h.pkg]

theorem storedByte (l : Loc) : storedByte t l = storedByte s l := by
  unfold Machine.storedByte plainLine cryptKey
  rw [h.mem, h.keys, h.podKeys]

theorem coherentByte (sec : Nat) (l : Loc) : coherentByte t sec l = coherentByte s sec l := by
  unfold Machine.coherentByte heatByte
  simp only [h.forwardLoc, h.heatBuf, h.storedByte]

theorem ownSince (seq key : Nat) : ownSince t seq key = ownSince s seq key := by
  unfold Machine.ownSince
  simp only [h.overs]

theorem heldAt (q seq : Nat) (e : HeldEffect) (key : Nat) : e.at' t q seq key = e.at' s q seq key := by
  unfold HeldEffect.at'
  rw [h.ownSince]

theorem heldOver (q key : Nat) (b : Byte) : heldOver t q key b = heldOver s q key b := by
  unfold Machine.heldOver
  simp only [h.core, h.heldAt, h.outside]

theorem baseByte (w : Who) (l : Loc) : baseByte t w l = baseByte s w l := by
  unfold Machine.baseByte identityWord
  simp only [h.thread, h.pkg, h.mem, h.journalOf, h.cycle, h.coherentByte]

theorem viewByte (w : Who) (l : Loc) : viewByte t w l = viewByte s w l := by
  unfold Machine.viewByte
  simp only [h.baseByte, h.heldOver]

theorem viewBytes (w : Who) (ls : List Loc) : viewBytes t w ls = viewBytes s w ls :=
  List.map_congr_left fun l _ => h.viewByte w l

end View

end SeenAlike

end Sys2Proof.Machine
end

section
/-! SUPPORT. Elements in memory (05 R142 to R145): the checks before the elements, the bytes of an access unit, and a register made of
loaded elements; O27 and O28. -/

namespace Sys2Proof.Machine
open Sys2Proof.Safety Sys2Proof.Claims

/-! ### The reference and the addresses (R142, R143) -/

/-- What a vector memory instruction's checks answer before the elements'. -/
def vecRefOf (s : State) (v : VecMem) (t : Ty) (acc : Acc) : VecRef := ⟨s.th.a[v.r], t, openRef s (whoTh s) s.th.a[v.r] acc⟩

theorem checkRef_format {r : Ref} {t : Ty} (hw : WellFormedRef r) (ht : Ty.ofCode (refBits r 84 4) = some t) :
    checkRef r true = .ok () := by
  have h15 : refBits r 84 4 ≠ 15 := fun h => by
    rw [h] at ht
    cases ht
  rw [checkRef, refFault_wellFormed true hw, if_neg fun h => h15 h.2]

/-- An index that is a multiple of 4 as a register's number is one as a signed number. -/
theorem toInt_emod_four (x : Word) : x.toInt % 4 = (x.toNat % 4 : Nat) := by
  rw [BitVec.toInt_eq_toNat_cond]
  split <;> omega

theorem vecRef_ok {s : State} {a : Ra} {l6 : Bool} {x : Word} {t : Ty} (m : BitVec 7) (acc : Acc) (ha : Readable s.th (.a a))
    (hw : WellFormedRef s.th.a[a]) (ht : Ty.ofCode (refBits s.th.a[a] 84 4) = some t) (hl : t = .l6 → l6 = true ∧ x.toNat % 4 = 0) :
    vecRef s a l6 x m acc = .ok ⟨s.th.a[a], t, openRef s (whoTh s) s.th.a[a] acc⟩ := by
  have htype : (Ty.ofCode (refType s.th.a[a])).getD .i8 = t := by
    rw [show Ty.ofCode (refType s.th.a[a]) = some t from ht]
    rfl
  rw [vecRef, useA_ok ha, ok_bind, checkRef_format hw ht, ok_bind]
  simp only [htype]
  by_cases h6 : t = .l6
  · obtain ⟨hl6, hx⟩ := hl h6
    have hx : (x.toInt % 4 == 0) = true := by
      rw [toInt_emod_four, hx]
      rfl
    rw [if_pos h6, hl6, hx]
    rfl
  · rw [if_neg h6]
    rfl

theorem rowAddr_eq (s : State) (v : VecMem) (t : Ty) (acc : Acc) (x : Rx) (m : BitVec 7) :
    rowAddr (vecRefOf s v t acc) (s.th.rx x) m = rowAt x m s.th s.th.a[v.r] t := by
  funext e
  simp only [rowAddr, rowAt, rx_toInt, toInt_eq_sgn m (by decide : 0 < 7), lanes_eq_laneCount, vecRefOf]
  rfl

theorem strideAddr_eq (s : State) (v : VecMem) (t : Ty) (acc : Acc) (x : Rx) (m : BitVec 7) :
    strideAddr (vecRefOf s v t acc) (s.th.rx x) m = strideAt x m s.th s.th.a[v.r] t := by
  funext e
  simp only [strideAddr, strideAt, rx_toInt, toInt_eq_sgn m (by decide : 0 < 7), vecRefOf]
  rfl

theorem gatherAddr_eq (s : State) (v : VecMem) (t : Ty) (acc : Acc) (x : Rv) (m : BitVec 7) :
    gatherAddr (vecRefOf s v t acc) s.th.v[x] m = gatherAt x m s.th s.th.a[v.r] t := by
  funext e
  simp only [gatherAddr, gatherAt, toInt_eq_sgn m (by decide : 0 < 7), vecRefOf, elem_eq_lane, add_mul, add_assoc]
  rfl

theorem oneAddr_eq (s : State) (v : VecMem) (t : Ty) (acc : Acc) (x : Rx) (m : BitVec 7) :
    oneAddr (vecRefOf s v t acc) (s.th.rx x) m = oneAt x m s.th s.th.a[v.r] t := by
  funext e
  simp only [oneAddr, oneAt, rx_toInt, toInt_eq_sgn m (by decide : 0 < 7), vecRefOf]
  rfl

theorem exec_vecLoad {i : Instr} {s : State} {v : VecMem} {t : Ty} (h : vecLoad i = some v) (hv : VecReady s v t) :
    exec i s = finish s (vectorLoad v.d v.g s (vecRefOf s v t .load) (v.addr s.th s.th.a[v.r] t)) := by
  obtain ⟨ha, hx, hw, ht, hl⟩ := hv
  cases i with
  | vld d r x m g =>
    cases h
    have hx : ReadableX s.th x := readableX_of_source hx
    have hl : t = .l6 → true = true ∧ (s.th.rx x).toNat % 4 = 0 := fun h6 => by
      rw [Thread.rx_toNat]
      exact hl h6
    show execVld d r x m g s = _
    rw [execVld, useX_ok hx, ok_bind, vecRef_ok m .load ha hw ht hl, ok_bind]
    exact congrArg (fun f => finish s (vectorLoad d g s _ f)) (rowAddr_eq s ⟨d, r, g, true, .x x, rowAt x m⟩ t .load x m)
  | vlds d r x m g =>
    cases h
    have hx : ReadableX s.th x := readableX_of_source hx
    show execVlds d r x m g s = _
    rw [execVlds, useX_ok hx, ok_bind, vecRef_ok m .load ha hw ht fun h6 => absurd (hl h6).1 nofun, ok_bind]
    exact congrArg (fun f => finish s (vectorLoad d g s _ f)) (strideAddr_eq s ⟨d, r, g, false, .x x, strideAt x m⟩ t .load x m)
  | vldg d r x m g =>
    cases h
    show execVldg d r x m g s = _
    rw [execVldg, useV_ok (readable_of_source hx), ok_bind, vecRef_ok m .load ha hw ht fun h6 => absurd (hl h6).1 nofun, ok_bind]
    exact congrArg (fun f => finish s (vectorLoad d g s _ f)) (gatherAddr_eq s ⟨d, r, g, false, .v x, gatherAt x m⟩ t .load x m)
  | vldb d r x m g =>
    cases h
    have hx : ReadableX s.th x := readableX_of_source hx
    show execVldb d r x m g s = _
    rw [execVldb, useX_ok hx, ok_bind, vecRef_ok m .load ha hw ht fun h6 => absurd (hl h6).1 nofun, ok_bind]
    exact congrArg (fun f => finish s (vectorLoad d g s _ f)) (oneAddr_eq s ⟨d, r, g, false, .x x, oneAt x m⟩ t .load x m)
  | _ => cases h

theorem exec_vecStore {i : Instr} {s : State} {v : VecMem} {t : Ty} (h : vecStore i = some v) (hv : VecReady s v t) :
    exec i s = finish s (vectorStore v.d v.g s (vecRefOf s v t .store) (v.addr s.th s.th.a[v.r] t)) := by
  obtain ⟨ha, hx, hw, ht, hl⟩ := hv
  cases i with
  | vst d r x m g =>
    cases h
    have hx : ReadableX s.th x := readableX_of_source hx
    have hl : t = .l6 → true = true ∧ (s.th.rx x).toNat % 4 = 0 := fun h6 => by
      rw [Thread.rx_toNat]
      exact hl h6
    show execVst d r x m g s = _
    rw [execVst, useX_ok hx, ok_bind, vecRef_ok m .store ha hw ht hl, ok_bind]
    exact congrArg (fun f => finish s (vectorStore d g s _ f)) (rowAddr_eq s ⟨d, r, g, true, .x x, rowAt x m⟩ t .store x m)
  | vsts d r x m g =>
    cases h
    have hx : ReadableX s.th x := readableX_of_source hx
    show execVsts d r x m g s = _
    rw [execVsts, useX_ok hx, ok_bind, vecRef_ok m .store ha hw ht fun h6 => absurd (hl h6).1 nofun, ok_bind]
    exact congrArg (fun f => finish s (vectorStore d g s _ f)) (strideAddr_eq s ⟨d, r, g, false, .x x, strideAt x m⟩ t .store x m)
  | vstg d r x m g =>
    cases h
    show execVstg d r x m g s = _
    rw [execVstg, useV_ok (readable_of_source hx), ok_bind, vecRef_ok m .store ha hw ht fun h6 => absurd (hl h6).1 nofun, ok_bind]
    exact congrArg (fun f => finish s (vectorStore d g s _ f)) (gatherAddr_eq s ⟨d, r, g, false, .v x, gatherAt x m⟩ t .store x m)
  | _ => cases h

/-! ### Where the bytes of a unit lie -/

theorem unitCoords_length {o : ObjRec} {a n : Nat} {cs : List (List Nat × Nat)} (h : unitCoords o a n = .ok cs) : cs.length = n := by
  unfold unitCoords at h
  dsimp only at h
  split at h
  · cases h
  · next hall =>
    split at h
    · cases h
    · cases h
      rw [List.length_filterMap_eq_countP, List.countP_eq_length.2 ?_, List.length_map, List.length_range]
      intro c hc
      rw [Bool.not_eq_true, List.any_eq_false] at hall
      exact Option.isSome_iff_ne_none.2 fun hn => hall c hc (by rw [show c = none from hn]; rfl)

/-- An access unit of `n` bytes has `n` places. -/
theorem locate_length {s : State} {w : Who} {o : Opened} {r : Ref} {a n : Nat} {acc : Acc} {fa fi : Word} {ls : List Loc}
    (h : locate s w o r a n acc fa fi = .ok ls) : ls.length = n := by
  unfold locate at h
  split at h
  · cases h
  · cases h
  · unfold locateSpace at h
    dsimp only at h
    split at h
    · cases h
    · split at h
      all_goals
        split at h
        · cases h
        · split at h
          · cases h
          · cases h
            rw [List.length_map, List.length_range]
  · rw [faultAt_ok] at h
    obtain ⟨cs, hcs, h⟩ := bind_eq_ok.1 h
    obtain ⟨es, -, h⟩ := bind_eq_ok.1 h
    obtain ⟨_, -, h⟩ := bind_eq_ok.1 h
    obtain ⟨_, -, h⟩ := bind_eq_ok.1 h
    cases h
    rw [List.length_map, List.length_zip, unitCoords_length hcs, List.length_range, Nat.min_self]

theorem elemUnit_length {s : State} {w : Who} {o : Opened} {r : Ref} {a : Int} {n align : Nat} {acc : Acc} {fi : Word} {ls : List Loc}
    (h : elemUnit s w o r a n align acc fi = .ok ls) : ls.length = n := by
  obtain ⟨_, -, h⟩ := bind_eq_ok.1 h
  obtain ⟨_, -, h⟩ := bind_eq_ok.1 h
  exact locate_length h

theorem elemLocs_ok {s : State} {v : VecMem} {t : Ty} {acc : Acc} {e : Nat} {ls : List Loc} (h : ElemAt s v t acc e ls) :
    elemLocs s (vecRefOf s v t acc) acc (v.addr s.th s.th.a[v.r] t) e = .ok (e, ls) :=
  bind_eq_ok.2 ⟨ls, h, rfl⟩

/-- The lookups of the elements of a list. -/
theorem mapM_elemLocs {s : State} {v : VecMem} {t : Ty} {acc : Acc} {l : List Nat} {ls : Nat → List Loc}
    (h : ∀ e ∈ l, ElemAt s v t acc e (ls e)) :
    l.mapM (elemLocs s (vecRefOf s v t acc) acc (v.addr s.th s.th.a[v.r] t)) = .ok (l.map fun e => (e, ls e)) :=
  mapM_map fun e he => elemLocs_ok (h e he)

theorem viewBytes_length (s : State) (w : Who) (ls : List Loc) : (viewBytes s w ls).length = ls.length := List.length_map _

/-! ### A register made of loaded elements (R36, R142) -/

theorem packList_snoc (w : Nat) (l : List Nat) (x : Nat) : packList w (l ++ [x]) = packList w l + x % 2 ^ w * 2 ^ (w * l.length) := by
  induction l with
  | nil => simp [packList]
  | cons y l ih =>
    rw [List.cons_append, packList, ih, packList, List.length_cons, Nat.mul_add_one, pow_add]
    ring

/-- Packed elements are a sum of elements at their places. -/
theorem packList_eq_sum (w n : Nat) (f : Nat → Nat) :
    packList w ((List.range n).map f) = ((List.range n).map fun e => f e % 2 ^ w * 2 ^ (w * e)).sum := by
  induction n with
  | zero => rfl
  | succ n ih =>
    rw [List.range_succ, List.map_append, List.map_append, List.sum_append, ← ih, List.map_singleton, packList_snoc, List.length_map,
      List.length_range, List.map_singleton, List.sum_singleton]

/-- What pieces add to a number, from the bytes at their places. -/
def addPieces (f : Loc → Byte) (n : Nat) (ps : List Piece) : Nat :=
  ps.foldl (fun n p => n + field (f p.loc).toNat p.lo p.len * 2 ^ p.pos) n

theorem assemble_eq (f : Loc → Byte) (n : Nat) (ps : List Piece) : assemble n ps (ps.map fun p => f p.loc) = addPieces f n ps := by
  rw [assemble, addPieces]
  induction ps generalizing n with
  | nil => rfl
  | cons p ps ih => exact ih _

theorem field_byte (b : Byte) : field b.toNat 0 8 = b.toNat := by
  rw [field, Nat.pow_zero, Nat.div_one]
  exact Nat.mod_eq_of_lt b.isLt

/-- Whole bytes add their little-endian number. -/
theorem addPieces_bytes (f : Loc → Byte) (pos : Nat) (ls : List Loc) (i n : Nat) :
    addPieces f n (((List.range' i ls.length).zip ls).map fun q => { loc := q.2, lo := 0, len := 8, pos := pos + 8 * q.1 }) =
      n + leNat (ls.map f) * 2 ^ (pos + 8 * i) := by
  induction ls generalizing i n with
  | nil => simp [addPieces, leNat]
  | cons l ls ih =>
    rw [List.length_cons, List.range'_succ, List.zip_cons_cons, List.map_cons, addPieces, List.foldl_cons]
    refine (ih (i + 1) _).trans ?_
    rw [field_byte, List.map_cons, leNat, Nat.mul_add_one, ← add_assoc, pow_add _ _ 8]
    ring

/-- The six bits of an l6 element are taken from the bytes that they reach into (R36). -/
theorem field_l6 {a b c k : Nat} (ha : a < 256) (hb : b < 256) (hk : k < 4) :
    field a (max (6 * k) 0 - 0) (min (6 * k + 6) 8 - max (6 * k) 0) * 2 ^ (max (6 * k) 0 - 6 * k)
      + field b (max (6 * k) 8 - 8) (min (6 * k + 6) 16 - max (6 * k) 8) * 2 ^ (max (6 * k) 8 - 6 * k)
      + field c (max (6 * k) 16 - 16) (min (6 * k + 6) 24 - max (6 * k) 16) * 2 ^ (max (6 * k) 16 - 6 * k) =
    (a + 256 * (b + 256 * c)) / 2 ^ (6 * k) % 64 := by
  obtain rfl | rfl | rfl | rfl : k = 0 ∨ k = 1 ∨ k = 2 ∨ k = 3 := by omega
  all_goals
    simp only [field]
    norm_num
    omega

/-- The pieces of an element add the element at its place. -/
theorem addPieces_elem (f : Loc → Byte) {t : Ty} {ls : List Loc} (h : ls.length = elemBytes t) (e n : Nat) :
    addPieces f n (elemPieces t (e % 4) (t.width * e) ls) = n + elemOf t e (ls.map f) * 2 ^ (t.width * e) := by
  by_cases h6 : t = .l6
  · subst h6
    obtain ⟨a, b, c, rfl⟩ := List.length_eq_three.1 h
    have hk : e % 4 < 4 := Nat.mod_lt _ (by decide)
    have hsum := field_l6 (c := (f c).toNat) (f a).isLt (f b).isLt hk
    have hval : elemOf .l6 e ([a, b, c].map f) =
        ((f a).toNat + 256 * ((f b).toNat + 256 * (f c).toNat)) / 2 ^ (6 * (e % 4)) % 64 := rfl
    have hfold : addPieces f n (elemPieces .l6 (e % 4) (Ty.l6.width * e) [a, b, c]) = n
        + field (f a).toNat (max (6 * (e % 4)) 0 - 0) (min (6 * (e % 4) + 6) 8 - max (6 * (e % 4)) 0)
          * 2 ^ (Ty.l6.width * e + (max (6 * (e % 4)) 0 - 6 * (e % 4)))
        + field (f b).toNat (max (6 * (e % 4)) 8 - 8) (min (6 * (e % 4) + 6) 16 - max (6 * (e % 4)) 8)
          * 2 ^ (Ty.l6.width * e + (max (6 * (e % 4)) 8 - 6 * (e % 4)))
        + field (f c).toNat (max (6 * (e % 4)) 16 - 16) (min (6 * (e % 4) + 6) 24 - max (6 * (e % 4)) 16)
          * 2 ^ (Ty.l6.width * e + (max (6 * (e % 4)) 16 - 6 * (e % 4))) := rfl
    rw [hfold, hval, ← hsum]
    simp only [pow_add]
    ring
  · have hps : elemPieces t (e % 4) (t.width * e) ls =
        ((List.range' 0 ls.length).zip ls).map fun q => { loc := q.2, lo := 0, len := 8, pos := t.width * e + 8 * q.1 } := by
      rw [elemPieces, List.range_eq_range']
      exact List.map_congr_left fun q _ => if_neg h6
    rw [hps, addPieces_bytes, elemOf, if_neg h6, Nat.mul_zero, Nat.add_zero]

theorem elemOf_lt {t : Ty} {bs : List Byte} (h : bs.length = elemBytes t) (e : Nat) : elemOf t e bs < 2 ^ t.width := by
  rw [elemOf]
  split
  · next h6 =>
    rw [h6]
    exact (Nat.mod_lt _ (by decide)).trans (by decide)
  · next h6 =>
    have hlen : 8 * bs.length = t.width := by
      rw [h, elemBytes, if_neg h6]
      cases t <;> rfl
    exact hlen ▸ leNat_lt bs

/-- A register with the loaded elements where `on` holds, and the old ones elsewhere. -/
def loaded (t : Ty) (on : Nat → Bool) (old : VReg) (bytes : Nat → List Byte) : VReg :=
  BitVec.ofNat 1024 (packList t.width ((List.range (laneCount t)).map fun e => if on e then elemOf t e (bytes e) else lane t.width old e))

theorem lane_loaded {t : Ty} {on : Nat → Bool} {old : VReg} {bytes : Nat → List Byte}
    (h : ∀ e, e < laneCount t → on e = true → (bytes e).length = elemBytes t) {e : Nat} (he : e < laneCount t) :
    lane t.width (loaded t on old bytes) e = if on e then elemOf t e (bytes e) else lane t.width old e := by
  rw [loaded, lane_packList (lane_fits he), getD_map_range he]
  split
  · next hon => exact Nat.mod_eq_of_lt (elemOf_lt (h e he hon) e)
  · exact lane_mod ..

/-- The active elements of a list, by a predicate on element numbers. -/
def chosenLanes (t : Ty) (on : Nat → Bool) : List Nat := (List.range (laneCount t)).filter on

theorem any_chosen {t : Ty} {on : Nat → Bool} {e : Nat} (he : e < laneCount t) (ls : Nat → List Loc) :
    (((chosenLanes t on).map fun e => (e, ls e)).any fun f => f.1 == e) = on e := by
  rw [Bool.eq_iff_iff, List.any_map, List.any_eq_true]
  constructor
  · rintro ⟨k, hk, hke⟩
    rw [Function.comp_apply, beq_iff_eq] at hke
    exact hke ▸ (List.mem_filter.1 hk).2
  · exact fun hon => ⟨e, List.mem_filter.2 ⟨List.mem_range.2 he, hon⟩, beq_self_eq_true e⟩

/-- Adding the pieces of elements, one element after the other. -/
theorem addPieces_flatMap (f : Loc → Byte) {t : Ty} {ls : Nat → List Loc} {l : List Nat} (h : ∀ e ∈ l, (ls e).length = elemBytes t)
    (n : Nat) : addPieces f n ((l.map fun e => (e, ls e)).flatMap fun g => elemPieces t (g.1 % 4) (t.width * g.1) g.2) =
      n + (l.map fun e => elemOf t e ((ls e).map f) * 2 ^ (t.width * e)).sum := by
  induction l generalizing n with
  | nil => rfl
  | cons e l ih =>
    obtain ⟨he, hl⟩ := List.forall_mem_cons.1 h
    rw [List.map_cons, List.flatMap_cons, addPieces, List.foldl_append, ← addPieces, ← addPieces, addPieces_elem f he, ih hl,
      List.map_cons, List.sum_cons, add_assoc]

/-- A sum over the chosen elements is one over all, with zero for the others. -/
theorem sum_chosen (t : Ty) (on : Nat → Bool) (f : Nat → Nat) :
    ((chosenLanes t on).map f).sum = ((List.range (laneCount t)).map fun e => if on e then f e else 0).sum := by
  rw [chosenLanes]
  induction List.range (laneCount t) with
  | nil => rfl
  | cons e l ih =>
    rw [List.filter_cons, List.map_cons, List.sum_cons, ← ih]
    split
    · rw [List.map_cons, List.sum_cons]
    · rw [Nat.zero_add]

/-- What the machine makes of the bytes of the chosen elements. -/
theorem assembled_eq {t : Ty} {on : Nat → Bool} {old : VReg} {ls : Nat → List Loc} (f : Loc → Byte)
    (h : ∀ e, e < laneCount t → on e = true → (ls e).length = elemBytes t) :
    BitVec.ofNat 1024 (addPieces f
      (packList t.width ((List.range t.lanes).map fun e =>
        if ((chosenLanes t on).map fun e => (e, ls e)).any fun f => f.1 == e then 0 else elem t.width e old))
      (((chosenLanes t on).map fun e => (e, ls e)).flatMap fun g => elemPieces t (g.1 % 4) (t.width * g.1) g.2)) =
    loaded t on old fun e => (ls e).map f := by
  have hmem : ∀ e ∈ chosenLanes t on, (ls e).length = elemBytes t := fun e he =>
    h e (List.mem_range.1 (List.mem_filter.1 he).1) (List.mem_filter.1 he).2
  rw [addPieces_flatMap f hmem, sum_chosen, lanes_eq_laneCount, packList_eq_sum, loaded, packList_eq_sum, ← List.sum_map_add]
  refine congrArg (fun l => BitVec.ofNat 1024 (List.sum l)) (List.map_congr_left fun e he => ?_)
  have he : e < laneCount t := List.mem_range.1 he
  rw [any_chosen he]
  split
  · next hon =>
    have hlt := elemOf_lt (bs := (ls e).map f) ((List.length_map _).trans (h e he hon)) e
    rw [Nat.zero_mod, Nat.zero_mul, Nat.zero_add, Nat.mod_eq_of_lt hlt]
  · rw [Nat.add_zero]
    rfl

/-! ### Loads (R142 to R144) -/

/-- The chosen elements are loaded, and the others kept. -/
theorem loadElems_ok {s u : State} {v : VecRef} {d : Rv} {on : Nat → Bool} {ls : Nat → List Loc} {vals : List (List Byte)}
    (hd : KeptReadable s (laneCount v.t) on d) (hls : ∀ e, e < laneCount v.t → on e = true → (ls e).length = elemBytes v.t)
    (hse : v.o.sideEffect = false) (hu : loadUnits s ((chosenLanes v.t on).map ls).dedup = .ok (vals, u)) :
    loadElems s v d ((chosenLanes v.t on).map fun e => (e, ls e)) =
      .ok (withThread u (putV u.th d (loaded v.t on s.th.v[d] fun e => viewBytes s (whoTh s) (ls e)))) := by
  have hold : ∀ k : VReg → Except Stop State, (if decide (((chosenLanes v.t on).map fun e => (e, ls e)).length = v.t.lanes) = true
      then pure (s.th.rv d) >>= k else useV s d >>= k) = k s.th.v[d] := by
    intro k
    split
    · rfl
    · next hall =>
      rw [List.length_map, lanes_eq_laneCount, decide_eq_true_eq] at hall
      refine useV_bind (hd ?_) k
      by_contra hno
      push Not at hno
      exact hall (by rw [chosenLanes, List.filter_eq_self.2 fun e he => by simpa using hno e (List.mem_range.1 he), List.length_range])
  have hunits : (((chosenLanes v.t on).map fun e => (e, ls e)).map (·.2)).dedup = ((chosenLanes v.t on).map ls).dedup := by
    rw [List.map_map]
    rfl
  have hview : viewByte u (whoTh u) = viewByte s (whoTh s) := funext fun l => by
    rw [(SeenAlike.loadUnits hu).whoTh, (SeenAlike.loadUnits hu).viewByte]
  unfold loadElems
  refine (hold _).trans ?_
  simp only [hse, Bool.false_and, Bool.false_eq_true, if_false, hunits, hu, ok_bind, hview]
  rw [assemble_eq (viewByte s (whoTh s)), assembled_eq _ hls]
  rfl

/-- A vector load whose elements' accesses pass loads them. -/
theorem vecLoad_ok {i : Instr} {s u : State} {v : VecMem} {t : Ty} {ls : Nat → List Loc} {vals : List (List Byte)}
    (h : vecLoad i = some v) (hv : VecReady s v t) (hd : KeptReadable s (laneCount t) (isActive t (govern s.th v.g)) v.d)
    (hls : ∀ e, e < laneCount t → isActive t (govern s.th v.g) e = true → ElemAt s v t .load e (ls e))
    (hse : (openRef s (whoTh s) s.th.a[v.r] .load).sideEffect = false)
    (hu : loadUnits s ((chosenLanes t (isActive t (govern s.th v.g))).map ls).dedup = .ok (vals, u)) :
    exec i s = .next (done (withThread u (putV u.th v.d
      (loaded t (isActive t (govern s.th v.g)) s.th.v[v.d] fun e => viewBytes s (whoTh s) (ls e))))) := by
  have hactive : activeElems t (s.th.rg v.g) = chosenLanes t (isActive t (govern s.th v.g)) := by
    rw [activeElems, lanes_eq_laneCount]
    rfl
  have hload := loadElems_ok (v := vecRefOf s v t .load) hd (fun e he hon => elemUnit_length (hls e he hon)) hse hu
  have hchosen : ∀ e ∈ chosenLanes t (isActive t (govern s.th v.g)), ElemAt s v t .load e (ls e) := fun e he =>
    hls e (List.mem_range.1 (List.mem_filter.1 he).1) (List.mem_filter.1 he).2
  rw [exec_vecLoad h hv, vectorLoad]
  simp only [show (vecRefOf s v t .load).t = t from rfl, hactive] at hload ⊢
  rw [mapM_elemLocs hchosen, ok_bind, hload]
  rfl

/-! ### The load that stops at its first fault (R144) -/

/-- Elements whose accesses pass, up to the end or to one whose access faults. -/
theorem firstFault_ok {s : State} {v : VecRef} {addr : Nat → Int} {l r : List Nat} {ls : Nat → List Loc} {stop : Option Nat}
    (h : ∀ e ∈ l, elemLocs s v .load addr e = .ok (e, ls e)) (hr : firstFault s v addr r = .ok ([], stop)) :
    firstFault s v addr (l ++ r) = .ok (l.map fun e => (e, ls e), stop) := by
  induction l with
  | nil => exact hr
  | cons e l ih =>
    obtain ⟨he, hl⟩ := List.forall_mem_cons.1 h
    rw [List.cons_append, firstFault, he]
    simp only [ih hl, ok_bind]
    rfl

/-- The predicate is cut at the element whose access faulted. -/
def cutAt (p : Rg) (t : Ty) (g : PReg) (s : State) : Option Nat → State
  | none => s
  | some k => s.wp ⟨p.val, by omega⟩ (clearFrom t g k)

/-- What `vldff` does with its active elements. -/
def loadUntilFault (s : State) (v : VecRef) (d : Rv) (p : Rg) (addr : Nat → Int) : List Nat → Except Stop State
  | [] => return retire s
  | e :: es => do
    let first ← elemLocs s v .load addr e
    let (us, stop) ← firstFault s v addr es
    return retire (cutAt p v.t (s.th.rg p) (← loadElems s v d (first :: us)) stop)

theorem exec_vldff {s : State} {d : Rv} {r : Ra} {x : Rx} {m : BitVec 7} {g : Rg} {t : Ty}
    (hv : VecReady s ⟨d, r, g, true, .x x, rowAt x m⟩ t) : exec (.vldff d r x m g) s =
      finish s (loadUntilFault s (vecRefOf s ⟨d, r, g, true, .x x, rowAt x m⟩ t .load) d g (rowAt x m s.th s.th.a[r] t)
        (chosenLanes t (isActive t (govern s.th g)))) := by
  obtain ⟨ha, hx, hw, ht, hl⟩ := hv
  have hx : ReadableX s.th x := readableX_of_source hx
  have hl : t = .l6 → true = true ∧ (s.th.rx x).toNat % 4 = 0 := fun h6 => by
    rw [Thread.rx_toNat]
    exact hl h6
  have hactive : activeElems t (s.th.rg g) = chosenLanes t (isActive t (govern s.th g)) := by
    rw [activeElems, lanes_eq_laneCount]
    rfl
  show execVldff d r x m g s = _
  rw [execVldff, useX_ok hx, ok_bind, vecRef_ok m .load ha hw ht hl, ok_bind,
    ← rowAddr_eq s ⟨d, r, g, true, .x x, rowAt x m⟩ t .load x m]
  dsimp only
  rw [hactive]
  refine congrArg (finish s) ?_
  cases chosenLanes t (isActive t (govern s.th g)) with
  | nil => rfl
  | cons e es =>
    rfl

/-- Elements that pass, and then none or one whose access faults: the former are loaded, and the predicate is cut at the latter. -/
theorem loadUntilFault_ok {s u : State} {v : VecRef} {d : Rv} {p : Rg} {addr : Nat → Int} {l r : List Nat} {ls : Nat → List Loc}
    {stop : Option Nat} (hne : l ≠ []) (h : ∀ e ∈ l, elemLocs s v .load addr e = .ok (e, ls e))
    (hr : firstFault s v addr r = .ok ([], stop)) (hload : loadElems s v d (l.map fun e => (e, ls e)) = .ok u) :
    loadUntilFault s v d p addr (l ++ r) = .ok (retire (cutAt p v.t (s.th.rg p) u stop)) := by
  cases l with
  | nil => exact absurd rfl hne
  | cons e l =>
    obtain ⟨he, hl⟩ := List.forall_mem_cons.1 h
    rw [List.map_cons] at hload
    rw [List.cons_append, loadUntilFault, he, ok_bind, firstFault_ok hl hr, ok_bind]
    simp only [hload]
    rfl

theorem range_split {k n : Nat} (h : k ≤ n) : List.range n = List.range k ++ List.range' k (n - k) := by
  have happ := List.range'_append_1 (s := 0) (m := k) (n := n - k)
  rw [Nat.zero_add, Nat.add_sub_cancel' h] at happ
  rw [List.range_eq_range', List.range_eq_range', happ]

/-- The chosen elements below a number. -/
theorem chosenLanes_below {t : Ty} {k : Nat} (h : k ≤ laneCount t) (on : Nat → Bool) :
    chosenLanes t (fun e => decide (e < k) && on e) = (List.range k).filter on := by
  have hlow : (List.range k).filter (fun e => decide (e < k) && on e) = (List.range k).filter on :=
    List.filter_congr fun e he => by rw [decide_eq_true (List.mem_range.1 he), Bool.true_and]
  have hhigh : (List.range' k (laneCount t - k)).filter (fun e => decide (e < k) && on e) = [] :=
    List.filter_eq_nil_iff.2 fun e he => by
      rw [decide_eq_false (Nat.not_lt.2 (List.mem_range'_1.1 he).1), Bool.false_and]
      exact Bool.false_ne_true
  rw [chosenLanes, range_split h, List.filter_append, hlow, hhigh, List.append_nil]

theorem chosenLanes_split {t : Ty} {k : Nat} (h : k ≤ laneCount t) (on : Nat → Bool) : chosenLanes t on =
    chosenLanes t (fun e => decide (e < k) && on e) ++ (List.range' k (laneCount t - k)).filter on := by
  rw [chosenLanes_below h, chosenLanes, range_split h, List.filter_append]

/-- The rest of a list of active elements stops at its first element, whose access faults, or is empty. -/
theorem firstFault_rest {s : State} {v : VecRef} {addr : Nat → Int} {t : Ty} {on : Nat → Bool} {stop : Nat}
    (hstop : stop < laneCount t → on stop = true ∧ ∃ k, elemLocs s v .load addr stop = .error (.trap k)) :
    firstFault s v addr ((List.range' stop (laneCount t - stop)).filter on) =
      .ok ([], if stop < laneCount t then some stop else none) := by
  by_cases hlt : stop < laneCount t
  · obtain ⟨hon, k, hk⟩ := hstop hlt
    obtain ⟨n, hn⟩ : ∃ n, laneCount t - stop = n + 1 := ⟨laneCount t - stop - 1, by omega⟩
    rw [hn, List.range'_succ, List.filter_cons_of_pos hon, firstFault, hk, if_pos hlt]
  · rw [Nat.sub_eq_zero_of_le (Nat.not_lt.1 hlt), if_neg hlt]
    rfl

end Sys2Proof.Machine

namespace Sys2Proof.Proofs
open Sys2Proof.Machine Sys2Proof.Safety Sys2Proof.Claims

/-- Settles O27: the pieces of each active element add it at its place among the kept ones. -/
theorem vectorLoadResult : Obligations.VectorLoadResult := by
  intro i s u v t ls vals h hv hd hls hse hu
  refine ⟨_, vecLoad_ok h hv hd hls hse hu, fun e he => lane_loaded (fun k hk hon => ?_) he⟩
  exact (viewBytes_length ..).trans (elemUnit_length (hls k hk hon))

/-- Settles O28: the active elements below the one that stops the load are loaded as by `vld`. -/
theorem vectorFirstFault : Obligations.VectorFirstFault := by
  rintro s d r x m g t v rfl hv
  refine ⟨fun hnone => ?none, fun first k hfirst hon hoff hk hc => ?first,
    fun stop ls u vals hg hle hsome hls hstop hd hse hu => ?later⟩
  case none =>
    have hempty : chosenLanes t (isActive t (govern s.th g)) = [] :=
      List.filter_eq_nil_iff.2 fun e he => by rw [hnone e (List.mem_range.1 he)]; exact Bool.false_ne_true
    rw [exec_vldff hv, hempty]
    rfl
  case first =>
    have hlow : chosenLanes t (fun e => decide (e < first) && isActive t (govern s.th g) e) = [] := by
      rw [chosenLanes_below hfirst.le]
      exact List.filter_eq_nil_iff.2 fun e he => by rw [hoff e (List.mem_range.1 he)]; exact Bool.false_ne_true
    obtain ⟨n, hn⟩ : ∃ n, laneCount t - first = n + 1 := ⟨laneCount t - first - 1, by omega⟩
    have hlocs : elemLocs s (vecRefOf s ⟨d, r, g, true, .x x, rowAt x m⟩ t .load) .load (rowAt x m s.th s.th.a[r] t) first =
        .error (.trap k) := bind_eq_error.2 (.inl hk)
    rw [exec_vldff hv, chosenLanes_split hfirst.le, hlow, List.nil_append, hn, List.range'_succ, List.filter_cons_of_pos hon,
      loadUntilFault, hlocs]
    exact congrArg Host.Outcome.next (takeFault_user hc k)
  case later =>
    have hstop : stop < laneCount t → isActive t (govern s.th g) stop = true ∧ ∃ k,
        elemLocs s (vecRefOf s ⟨d, r, g, true, .x x, rowAt x m⟩ t .load) .load (rowAt x m s.th s.th.a[r] t) stop = .error (.trap k) :=
      fun h => (hstop h).imp_right fun ⟨k, hk⟩ => ⟨k, bind_eq_error.2 (.inl hk)⟩
    have hmem : ∀ e ∈ (List.range stop).filter (isActive t (govern s.th g)),
        ElemAt s ⟨d, r, g, true, .x x, rowAt x m⟩ t .load e (ls e) :=
      fun e he => hls e (List.mem_range.1 (List.mem_filter.1 he).1) (List.mem_filter.1 he).2
    have hon : ∀ e, (decide (e < stop) && isActive t (govern s.th g) e) = true ↔ e < stop ∧ isActive t (govern s.th g) e = true :=
      fun e => by rw [Bool.and_eq_true, decide_eq_true_eq]
    have hlen : ∀ e, e < laneCount t → (decide (e < stop) && isActive t (govern s.th g) e) = true → (ls e).length = elemBytes t :=
      fun e _ he => elemUnit_length (hls e ((hon e).1 he).1 ((hon e).1 he).2)
    rw [← chosenLanes_below hle] at hu hmem
    have hload := loadElems_ok (v := vecRefOf s ⟨d, r, g, true, .x x, rowAt x m⟩ t .load) hd hlen hse hu
    have hne : chosenLanes t (fun e => decide (e < stop) && isActive t (govern s.th g) e) ≠ [] := by
      obtain ⟨e, he, hact⟩ := hsome
      exact List.ne_nil_of_mem (List.mem_filter.2 ⟨List.mem_range.2 (he.trans_le hle), (hon e).2 ⟨he, hact⟩⟩)
    have hrun := loadUntilFault_ok (p := g) hne (fun e he => elemLocs_ok (hmem e he)) (firstFault_rest hstop) hload
    refine ⟨loaded t (fun e => decide (e < stop) && isActive t (govern s.th g) e) s.th.v[d] fun e => viewBytes s (whoTh s) (ls e),
      ?_, fun e he => ?_⟩
    · rw [exec_vldff hv, chosenLanes_split hle]
      refine (congrArg (finish s) hrun).trans ?_
      split <;> rfl
    · exact (lane_loaded (fun k hk hact => (viewBytes_length ..).trans (hlen k hk hact)) he).trans (if_congr (hon e) rfl rfl)

end Sys2Proof.Proofs
end

section
/-! SUPPORT. Vector stores (05 R142, R143, R145; 07 R184): the bytes of an element, the bits of an l6 element in its group, and the groups
by lines; O29. -/

namespace Sys2Proof.Machine
open Sys2Proof.Safety Sys2Proof.Claims

/-! ### The bytes of an element (R5, R142) -/

theorem leBytes_getElem? {n j : Nat} (h : j < n) (v : Nat) : (leBytes n v)[j]? = some (BitVec.ofNat 8 (v / 256 ^ j)) := by
  induction n generalizing j v with
  | zero => omega
  | succ n ih =>
    cases j with
    | zero => rw [Nat.pow_zero, Nat.div_one]; rfl
    | succ j =>
      rw [leBytes, List.getElem?_cons_succ, ih (Nat.lt_of_succ_lt_succ h), Nat.div_div_eq_div_mul, Nat.pow_succ, mul_comm 256]

theorem wbytes_getElem? {ls : List Loc} {bs : List Byte} {j : Nat} {l : Loc} {b : Byte} (hl : ls[j]? = some l) (hb : bs[j]? = some b) :
    (wbytes ls bs)[j]? = some { loc := l, val := b, mask := 0xFF } := by
  rw [wbytes, List.getElem?_zipWith, hl, hb]

theorem storeElems_bytes {v : VecRef} (h : v.t ≠ .l6) (data : VReg) (es : List (Nat × List Loc)) :
    storeElems v data es = es.map fun f => wbytes f.2 (leBytes v.t.bytes (lane v.t.width data f.1)) := if_neg h

/-! ### Fields of six bits (R36) -/

/-- A field added to a number that has no bit in its place. -/
theorem testBit_add_field {n x k : Nat} (hx : x < 2 ^ 6) (hn : ∀ i, i / 6 = k → n.testBit i = false) (p : Nat) :
    (n + x * 2 ^ (6 * k)).testBit p = if p / 6 = k then x.testBit (p % 6) else n.testBit p := by
  have hzero : n / 2 ^ (6 * k) % 2 ^ 6 = 0 := by
    refine Nat.eq_of_testBit_eq fun i => ?_
    rw [Nat.testBit_mod_two_pow, Nat.testBit_div_two_pow, Nat.zero_testBit]
    by_cases hi : i < 6
    · rw [hn _ (by omega), Bool.and_false]
    · rw [decide_eq_false hi, Bool.false_and]
  have hsum : n + x * 2 ^ (6 * k) = replaceBits n (6 * k) 6 x := by
    rw [replaceBits, hzero, Nat.zero_mul, Nat.sub_zero, Nat.mod_eq_of_lt hx]
  rw [hsum, testBit_replaceBits]
  by_cases hp : p / 6 = k
  · rw [if_pos (by omega), if_pos hp]
    congr 1
    omega
  · rw [if_neg (by omega), if_neg hp]

/-- Fields at different places, added one after the other. -/
theorem testBit_add_fields {α : Type} {l : List α} {k x : α → Nat} (hx : ∀ f, x f < 2 ^ 6) (hk : (l.map k).Nodup) {n : Nat}
    (hn : ∀ f ∈ l, ∀ i, i / 6 = k f → n.testBit i = false) (p : Nat) :
    (l.foldl (fun n f => n + x f * 2 ^ (6 * k f)) n).testBit p =
      (n.testBit p || l.any fun f => k f == p / 6 && (x f).testBit (p % 6)) := by
  induction l generalizing n with
  | nil => rw [List.foldl_nil, List.any_nil, Bool.or_false]
  | cons f l ih =>
    rw [List.map_cons, List.nodup_cons] at hk
    obtain ⟨hf, hl⟩ := List.forall_mem_cons.1 hn
    have hbit := testBit_add_field (hx f) hf
    have hrest : ∀ g ∈ l, ∀ i, i / 6 = k g → (n + x f * 2 ^ (6 * k f)).testBit i = false := fun g hg i hi => by
      rw [hbit, if_neg fun h => hk.1 (List.mem_map.2 ⟨g, hg, hi.symm.trans h⟩), hl g hg i hi]
    rw [List.foldl_cons, ih hk.2 hrest, hbit, List.any_cons]
    by_cases hp : p / 6 = k f
    · rw [if_pos hp, hf p hp, Bool.false_or, hp, beq_self_eq_true, Bool.true_and]
    · rw [if_neg hp, beq_false_of_ne (Ne.symm hp), Bool.false_and, Bool.false_or]

/-! ### The groups of l6 elements (R142) -/

/-- The elements of a store that lie in one group of three bytes. -/
def groupOf (es : List (Nat × List Loc)) (ls : List Loc) : List (Nat × List Loc) := es.filter fun f => f.2 == ls

/-- The 24 bits that elements give their group, and the bits of it that they write. -/
def groupVal (data : VReg) (mine : List (Nat × List Loc)) : Nat :=
  mine.foldl (fun n f => n + elem 8 f.1 data % 64 * 2 ^ (6 * (f.1 % 4))) 0
def groupMask (mine : List (Nat × List Loc)) : Nat := mine.foldl (fun n f => n + 63 * 2 ^ (6 * (f.1 % 4))) 0

/-- The bytes of a group of which some bits are written. -/
def groupCells (ls : List Loc) (val mask : Nat) : List WByte :=
  (((List.zip ls (leBytes 3 val)).zip (leBytes 3 mask)).map fun c => { loc := c.1.1, val := c.1.2, mask := c.2 }).filter
    fun c => c.mask != 0

theorem storeElems_l6 {v : VecRef} (h : v.t = .l6) (data : VReg) (es : List (Nat × List Loc)) : storeElems v data es =
    (es.map (·.2)).dedup.map fun ls => groupCells ls (groupVal data (groupOf es ls)) (groupMask (groupOf es ls)) := if_pos h

theorem mem_groupCells {ls : List Loc} {val mask : Nat} {c : WByte} (hlen : ls.length = 3) : c ∈ groupCells ls val mask ↔
    c.mask ≠ 0 ∧ ∃ j, ls[j]? = some c.loc ∧ c.val = BitVec.ofNat 8 (val / 256 ^ j)
      ∧ c.mask = BitVec.ofNat 8 (mask / 256 ^ j) := by
  rw [groupCells, List.mem_filter, List.mem_map, bne_iff_ne, and_comm]
  refine and_congr_right fun _ => ?_
  constructor
  · rintro ⟨⟨⟨l, b⟩, m⟩, hmem, rfl⟩
    obtain ⟨j, hj⟩ := List.mem_iff_getElem?.1 hmem
    obtain ⟨hlb, hm⟩ := List.getElem?_zip_eq_some.1 hj
    obtain ⟨hl, hb⟩ := List.getElem?_zip_eq_some.1 hlb
    have hj3 : j < 3 := hlen ▸ (List.getElem?_eq_some_iff.1 hl).1
    rw [leBytes_getElem? hj3, Option.some_inj] at hb hm
    exact ⟨j, hl, hb.symm, hm.symm⟩
  · rintro ⟨j, hj, hv, hm⟩
    have hj3 : j < 3 := hlen ▸ (List.getElem?_eq_some_iff.1 hj).1
    have hval : (leBytes 3 val)[j]? = some c.val := by rw [leBytes_getElem? hj3, hv]
    have hmask : (leBytes 3 mask)[j]? = some c.mask := by rw [leBytes_getElem? hj3, hm]
    exact ⟨⟨⟨c.loc, c.val⟩, c.mask⟩,
      List.mem_iff_getElem?.2 ⟨j, List.getElem?_zip_eq_some.2 ⟨List.getElem?_zip_eq_some.2 ⟨hj, hval⟩, hmask⟩⟩, rfl⟩

theorem ofNat_byte_getLsbD {b : Nat} (hb : b < 8) (x j : Nat) : (BitVec.ofNat 8 (x / 256 ^ j)).getLsbD b = x.testBit (8 * j + b) := by
  rw [BitVec.getLsbD_ofNat, decide_eq_true hb, Bool.true_and, show 256 ^ j = 2 ^ (8 * j) by rw [Nat.pow_mul],
    Nat.testBit_div_two_pow, add_comm]

theorem mem_groupOf {es : List (Nat × List Loc)} {ls : List Loc} {f : Nat × List Loc} :
    f ∈ groupOf es ls ↔ f ∈ es ∧ f.2 = ls := by
  rw [groupOf, List.mem_filter, beq_iff_eq]

section Group
variable {es : List (Nat × List Loc)} (hnd : es.Nodup) (hinj : ∀ f ∈ es, ∀ g ∈ es, f.2 = g.2 → f.1 % 4 = g.1 % 4 → f = g)
include hnd hinj

theorem groupOf_places (ls : List Loc) : ((groupOf es ls).map fun f => f.1 % 4).Nodup := by
  refine (List.Nodup.filter _ hnd).map_on fun f hf g hg hk => ?_
  rw [mem_groupOf] at hf hg
  exact hinj f hf.1 g hg.1 (hf.2.trans hg.2.symm) hk

theorem testBit_groupVal (data : VReg) (ls : List Loc) (p : Nat) : (groupVal data (groupOf es ls)).testBit p =
    (groupOf es ls).any fun f => f.1 % 4 == p / 6 && (elem 8 f.1 data % 64).testBit (p % 6) := by
  rw [groupVal, testBit_add_fields (x := fun f => elem 8 f.1 data % 64) (fun f => Nat.mod_lt _ (by decide))
    (groupOf_places hnd hinj ls) (fun _ _ _ _ => Nat.zero_testBit _), Nat.zero_testBit, Bool.false_or]

/-- A bit of an element's place is that bit of the element. -/
theorem testBit_groupVal_place (data : VReg) {f : Nat × List Loc} (hf : f ∈ es) {p : Nat} (hp : f.1 % 4 = p / 6) :
    (groupVal data (groupOf es f.2)).testBit p = (lane 8 data f.1).testBit (p % 6) := by
  have hbit : (elem 8 f.1 data % 64).testBit (p % 6) = (lane 8 data f.1).testBit (p % 6) := by
    rw [show 64 = 2 ^ 6 from rfl, Nat.testBit_mod_two_pow, decide_eq_true (Nat.mod_lt _ (by decide)), Bool.true_and]
    rfl
  rw [testBit_groupVal hnd hinj, ← hbit, Bool.eq_iff_iff, List.any_eq_true]
  constructor
  · rintro ⟨g, hg, hgp⟩
    obtain ⟨hge, hgf⟩ := mem_groupOf.1 hg
    obtain ⟨hplace, hgbit⟩ := Bool.and_eq_true_iff.1 hgp
    rwa [hinj g hge f hf hgf ((beq_iff_eq.1 hplace).trans hp.symm)] at hgbit
  · exact fun h => ⟨f, mem_groupOf.2 ⟨hf, rfl⟩, Bool.and_eq_true_iff.2 ⟨beq_iff_eq.2 hp, h⟩⟩

theorem testBit_groupMask (ls : List Loc) (p : Nat) : (groupMask (groupOf es ls)).testBit p =
    (groupOf es ls).any fun f => f.1 % 4 == p / 6 := by
  have h63 : ∀ p, Nat.testBit 63 (p % 6) = true := fun p => by
    have : p % 6 < 6 := Nat.mod_lt _ (by decide)
    interval_cases p % 6 <;> rfl
  rw [groupMask, testBit_add_fields (x := fun _ => 63) (fun f => by decide) (groupOf_places hnd hinj ls)
    (fun _ _ _ _ => Nat.zero_testBit _), Nat.zero_testBit, Bool.false_or]
  simp only [h63, Bool.and_true]

/-- Each of its six bits is written by a cell of its group. -/
theorem bit_written (hls : ∀ f ∈ es, f.2.length = 3) (data : VReg) {f : Nat × List Loc} (hf : f ∈ es) {p : Nat} {l : Loc}
    (hp : f.1 % 4 = p / 6) (hl : f.2[p / 8]? = some l) :
    ∃ c ∈ groupCells f.2 (groupVal data (groupOf es f.2)) (groupMask (groupOf es f.2)),
      c.loc = l ∧ c.mask.getLsbD (p % 8) = true ∧ c.val.getLsbD (p % 8) = (lane 8 data f.1).testBit (p % 6) := by
  have hp8 : 8 * (p / 8) + p % 8 = p := Nat.div_add_mod p 8
  have hmask : (BitVec.ofNat 8 (groupMask (groupOf es f.2) / 256 ^ (p / 8))).getLsbD (p % 8) = true := by
    rw [ofNat_byte_getLsbD (Nat.mod_lt _ (by decide)), hp8, testBit_groupMask hnd hinj, List.any_eq_true]
    exact ⟨f, mem_groupOf.2 ⟨hf, rfl⟩, beq_iff_eq.2 hp⟩
  have hval : (BitVec.ofNat 8 (groupVal data (groupOf es f.2) / 256 ^ (p / 8))).getLsbD (p % 8) = (lane 8 data f.1).testBit (p % 6) := by
    rw [ofNat_byte_getLsbD (Nat.mod_lt _ (by decide)), hp8, testBit_groupVal_place hnd hinj data hf hp]
  have hne : BitVec.ofNat 8 (groupMask (groupOf es f.2) / 256 ^ (p / 8)) ≠ 0 := fun h0 => by
    rw [h0] at hmask
    simp at hmask
  exact ⟨⟨l, _, _⟩, (mem_groupCells (hls f hf)).2 ⟨hne, p / 8, hl, rfl, rfl⟩, rfl, hmask, hval⟩

/-- Each bit that a cell of a group writes is one of an element of the group. -/
theorem written_bit (data : VReg) {ls : List Loc} (hlen : ls.length = 3) {c : WByte}
    (hc : c ∈ groupCells ls (groupVal data (groupOf es ls)) (groupMask (groupOf es ls))) {b : Nat} (hb : c.mask.getLsbD b = true) :
    ∃ f ∈ es, ∃ p, p % 8 = b ∧ f.1 % 4 = p / 6 ∧ f.2[p / 8]? = some c.loc := by
  obtain ⟨-, j, hj, -, hm⟩ := (mem_groupCells hlen).1 hc
  have hb8 : b < 8 := BitVec.lt_of_getLsbD hb
  rw [hm, ofNat_byte_getLsbD hb8, testBit_groupMask hnd hinj, List.any_eq_true] at hb
  obtain ⟨f, hf, hplace⟩ := hb
  obtain ⟨hfe, rfl⟩ := mem_groupOf.1 hf
  refine ⟨f, hfe, 8 * j + b, by omega, beq_iff_eq.1 hplace, ?_⟩
  rwa [show (8 * j + b) / 8 = j by omega]

end Group

/-! ### Groups by lines (R145) -/

theorem mem_byLine {units : List (List WByte)} {u : List WByte} {c : WByte} (hu : u ∈ units) (hc : u.head? = some c) :
    ∃ g ∈ byLine units, u ∈ g ∧ ∀ w ∈ g, ∃ d, w.head? = some d ∧ d.loc.key / 256 = c.loc.key / 256 := by
  obtain ⟨r, rfl⟩ := List.head?_eq_some_iff.1 hc
  have hline : c.loc.key / 256 ∈ storeLines units :=
    List.mem_dedup.2 (List.mem_map.2 ⟨c, List.mem_flatten.2 ⟨_, hu, List.mem_cons_self⟩, rfl⟩)
  refine ⟨_, List.mem_map.2 ⟨_, hline, rfl⟩, List.mem_filter.2 ⟨hu, beq_self_eq_true _⟩, fun w hw => ?_⟩
  obtain ⟨-, hw⟩ := List.mem_filter.1 hw
  cases w with
  | nil => cases hw
  | cons d w => exact ⟨d, rfl, beq_iff_eq.1 hw⟩

/-! ### The instruction (R145) -/

/-- A vector store whose elements' accesses pass makes one store of them. -/
theorem vecStore_ok {i : Instr} {s u : State} {v : VecMem} {t : Ty} {ls : Nat → List Loc} {es : List Nat} (h : vecStore i = some v)
    (hv : VecReady s v t) (hd : Readable s.th (.v v.d))
    (hu : storeUnits s (spaceOf s.th.a[v.r]) (byLine (storeElems (vecRefOf s v t .store) s.th.v[v.d] (es.map fun e => (e, ls e))))
      (match es with
        | [] => 0
        | e :: _ => BitVec.ofInt 64 (v.addr s.th s.th.a[v.r] t e)) = .ok u)
    (hes : es = (List.range (laneCount t)).filter (isActive t (govern s.th v.g))) (hls : ∀ e ∈ es, ElemAt s v t .store e (ls e)) :
    exec i s = .next (done u) := by
  have hactive : activeElems t (s.th.rg v.g) = es := by
    rw [activeElems, lanes_eq_laneCount, hes]
    rfl
  rw [exec_vecStore h hv, vectorStore, useV_ok hd, ok_bind, show (vecRefOf s v t .store).t = t from rfl, hactive, mapM_elemLocs hls,
    ok_bind]
  have hfinish := congrArg (fun r => finish s (r >>= fun u => pure (retire u))) hu
  cases es with
  | nil => exact hfinish
  | cons e es => exact hfinish

end Sys2Proof.Machine
namespace Sys2Proof.Proofs
open Sys2Proof.Machine Sys2Proof.Safety Sys2Proof.Claims

/-- Settles O29: one store of the active elements; the bits of an l6 group are fields at different places. -/
theorem vectorStoreResult : Obligations.VectorStoreResult := by
  refine ⟨?run, ?bytes, ?bits, ?lines⟩
  case run => exact fun i s u v t ls es h hv hd hes hls hu => vecStore_ok h hv hd hu hes hls
  case bytes =>
    intro v data es n f ht hn hlen
    have hbytes : f.2.length = v.t.bytes := hlen
    rw [storeElems_bytes ht, List.length_map]
    refine ⟨rfl, wbytes f.2 (leBytes v.t.bytes (lane v.t.width data f.1)), by rw [List.getElem?_map, hn, Option.map_some], ?_,
      fun j l hl => ?_⟩
    · rw [wbytes, List.length_zipWith, leBytes_length, hbytes, Nat.min_self]
    · have hj : j < v.t.bytes := hbytes ▸ (List.getElem?_eq_some_iff.1 hl).1
      exact ⟨_, wbytes_getElem? hl (leBytes_getElem? hj _), rfl, rfl, BitVec.toNat_ofNat ..⟩
  case bits =>
    intro v data es ht hnd hls hinj
    rw [storeElems_l6 ht]
    refine ⟨fun f hf p l hlo hhi hl => ?_, fun unit hunit c hc b hb => ?_⟩
    · obtain ⟨c, hc, hloc, hmask, hval⟩ := bit_written hnd hinj (fun f hf => (hls f hf).1) data hf (by omega : f.1 % 4 = p / 6) hl
      rw [show p % 6 = p - 6 * (f.1 % 4) by omega] at hval
      exact ⟨_, List.mem_map.2 ⟨f.2, List.mem_dedup.2 (List.mem_map.2 ⟨f, hf, rfl⟩), rfl⟩, c, hc, hloc, hmask, hval⟩
    · obtain ⟨ls, hmem, rfl⟩ := List.mem_map.1 hunit
      obtain ⟨g, hg, rfl⟩ := List.mem_map.1 (List.mem_dedup.1 hmem)
      obtain ⟨f, hf, p, hp, hplace, hl⟩ := written_bit hnd hinj data (hls g hg).1 hc hb
      exact ⟨f, hf, p, hp, by omega, by omega, hl⟩
  case lines => exact fun units => ⟨List.length_map _, fun g hg => by
      obtain ⟨n, -, rfl⟩ := List.mem_map.1 hg
      exact List.filter_sublist, fun u hu c hc => mem_byLine hu hc⟩

end Sys2Proof.Proofs
end

section
/-! SUPPORT. A store of groups (05 R145; 07 R184, R190; 09 R247, R254): what an own write changes, the lines that groups take, effects
that enter a hold buffer, and what a quad sees of the newest one; O30. -/

namespace Sys2Proof.Machine
open Sys2Proof.Safety Sys2Proof.Claims

/-! ### A write to the quad's own memories (R254) -/

theorem Memory.read_foldl_write {m : Memory} (h : m.wf = true) (cs : List WByte) (k : Nat) :
    (cs.foldl (fun m c => m.write c.loc.key c.val) m).read k =
      match cs.reverse.find? fun c => c.loc.key == k with
      | some c => c.val
      | none => m.read k := by
  induction cs using List.reverseRecOn with
  | nil => rfl
  | append_singleton cs c ih =>
    rw [List.foldl_append, List.foldl_cons, List.foldl_nil, List.reverse_append, List.reverse_singleton, List.singleton_append]
    by_cases hk : c.loc.key = k
    · rw [List.find?_cons_of_pos (p := fun c : WByte => c.loc.key == k) (beq_iff_eq.2 hk), ← hk]
      exact Memory.read_write_same (Memory.foldl_write_wf cs (·.loc.key) (·.val) h) ..
    · rw [List.find?_cons_of_neg (p := fun c : WByte => c.loc.key == k) (by rwa [beq_iff_eq]), Memory.read_write_other _ (Ne.symm hk), ih]

theorem WByte.onto_whole {c : WByte} (h : c.mask = 0xFF) (old : Byte) : c.onto old = c.val := by
  rw [WByte.onto, h]
  show (old &&& ~~~BitVec.allOnes 8) ||| (c.val &&& BitVec.allOnes 8) = c.val
  rw [BitVec.not_allOnes, BitVec.and_zero, BitVec.and_allOnes, BitVec.zero_or]

/-- Nothing differs but what records a write keeps for later. -/
structure RecordsOnly (s t : State) : Prop where
  th : t.th = s.th
  parked : t.parked = s.parked
  cycle : t.cycle = s.cycle
  mem : t.mem = s.mem

namespace RecordsOnly

theorem refl (s : State) : RecordsOnly s s := ⟨rfl, rfl, rfl, rfl⟩

theorem trans {s t u : State} (h : RecordsOnly s t) (k : RecordsOnly t u) : RecordsOnly s u :=
  ⟨k.th.trans h.th, k.parked.trans h.parked, k.cycle.trans h.cycle, k.mem.trans h.mem⟩

theorem of_seenAlike {s t : State} (h : SeenAlike s t) : RecordsOnly s t := ⟨h.th, h.parked, h.cycle, h.mem⟩

theorem setQuad (s : State) (q : Nat) (k : Quad) : RecordsOnly s (s.setQuad q k) := ⟨rfl, rfl, rfl, rfl⟩

theorem heatJournal (s : State) (gang key : Nat) : RecordsOnly s (s.heatJournal gang key) := by
  unfold State.heatJournal
  split
  · exact refl s
  · split
    · exact ⟨rfl, rfl, rfl, rfl⟩
    · exact refl s

theorem setJournal (s : State) (key : Nat) (j : List JournalByte) : RecordsOnly s (s.setJournal key j) := by
  unfold State.setJournal
  split
  · exact ⟨rfl, rfl, rfl, rfl⟩
  · split
    · exact setQuad ..
    · exact refl s

theorem setMem {s t : State} (h : RecordsOnly s t) (m : Memory) : RecordsOnly (s.setMem m) (t.setMem m) :=
  ⟨h.th, h.parked, h.cycle, rfl⟩

/-- An own write of a whole byte changes the byte, and beside it only records. -/
theorem ownWrite {c : WByte} (hc : c.mask = 0xFF) (s : State) (gang : Nat) :
    RecordsOnly (s.setMem (s.mem.write c.loc.key c.val)) (s.ownWrite gang c) := by
  have hheat := heatJournal s gang c.loc.key
  have hjournal := fun j => hheat.trans (setJournal (s.heatJournal gang c.loc.key) c.loc.key j)
  unfold State.ownWrite
  dsimp only
  rw [WByte.onto_whole hc]
  split
  · split
    · rw [State.setQuad_mem, (hjournal _).mem]
      exact ((hjournal _).trans (setQuad ..)).setMem _
    · rw [(hjournal _).mem]
      exact (hjournal _).setMem _
  · rw [(hjournal _).mem]
    exact (hjournal _).setMem _

/-- Own writes of whole bytes, one after the other. -/
theorem ownWrites {cs : List WByte} (h : ∀ c ∈ cs, c.mask = 0xFF) (s : State) :
    RecordsOnly (s.setMem (cs.foldl (fun m c => m.write c.loc.key c.val) s.mem)) (cs.foldl (fun s c => s.ownWrite s.th.gang c) s) := by
  induction cs generalizing s with
  | nil => exact refl s
  | cons c cs ih =>
    obtain ⟨hc, hcs⟩ := List.forall_mem_cons.1 h
    have hwrite := ownWrite hc s s.th.gang
    have hrest := ih hcs (s.ownWrite s.th.gang c)
    rw [hwrite.mem] at hrest
    exact (hwrite.setMem _).trans hrest

end RecordsOnly

/-! ### A store that is performed at once (R184) -/

theorem ownStore_ok {s t : State} {units : List (List WByte)} (h : ownStore s units = .ok t)
    (hc : ∀ c ∈ units.flatten, c.mask = 0xFF ∧ marked s c.loc = false) :
    RecordsOnly ((s.setMem (units.flatten.foldl (fun m c => m.write c.loc.key c.val) s.mem)).setTh { s.th with ownAt := some s.cycle })
      t := by
  have hkept : (units.map fun u => u.filter fun c => !marked s c.loc) = units :=
    (List.map_congr_left fun u hu => List.filter_eq_self.2 fun c hcu => by
      rw [(hc c (List.mem_flatten.2 ⟨u, hu, hcu⟩)).2, Bool.not_false]).trans (List.map_id _)
  have hlines : markedLines s units.flatten = [] := by
    rw [markedLines, List.filter_eq_nil_iff.2 fun c hcu => by rw [(hc c hcu).2]; exact Bool.false_ne_true, List.foldl_nil]
  unfold ownStore at h
  obtain ⟨_, -, h⟩ := bind_eq_ok.1 h
  obtain ⟨_, -, h⟩ := bind_eq_ok.1 h
  dsimp only at h
  rw [hkept, hlines, List.foldl_nil] at h
  cases h
  have hw := RecordsOnly.ownWrites (fun c hcu => (hc c hcu).1) s
  refine RecordsOnly.trans ?_ (.of_seenAlike ((SeenAlike.detectUnits ..).trans (SeenAlike.foldl (fun _ _ => .traceWrite ..) ..)))
  exact ⟨congrArg₂ (fun th c => { th with ownAt := some c }) hw.th hw.cycle, hw.parked, hw.cycle, hw.mem⟩

/-! ### Lines of the quota (R386) -/

theorem mem_storeLines {units : List (List WByte)} {n : Nat} : n ∈ storeLines units ↔ ∃ c ∈ units.flatten, c.loc.key / 256 = n := by
  rw [storeLines, List.mem_dedup, List.mem_map]

/-- The groups take each line of the store once. -/
theorem groupLines_flatten (gs : List (List (List WByte))) (seen : List Nat) : (groupLines seen gs).flatten.Nodup
    ∧ ∀ n, n ∈ (groupLines seen gs).flatten ↔ n ∉ seen ∧ n ∈ storeLines gs.flatten := by
  induction gs generalizing seen with
  | nil => exact ⟨List.nodup_nil, fun n => ⟨fun h => absurd h List.not_mem_nil, fun h => absurd h.2 List.not_mem_nil⟩⟩
  | cons g gs ih =>
    obtain ⟨hnd, hmem⟩ := ih (seen ++ (storeLines g).filter fun n => !seen.contains n)
    have hnew : ∀ n, n ∈ (storeLines g).filter (fun n => !seen.contains n) ↔ n ∈ storeLines g ∧ n ∉ seen := fun n => by
      rw [List.mem_filter, Bool.not_eq_true', List.contains_eq_mem, decide_eq_false_iff_not]
    have hlines : ∀ n, n ∈ storeLines (g :: gs).flatten ↔ n ∈ storeLines g ∨ n ∈ storeLines gs.flatten := fun n => by
      simp only [mem_storeLines, List.flatten_cons, List.flatten_append, List.mem_append, or_and_right, exists_or]
    rw [groupLines, List.flatten_cons]
    refine ⟨List.nodup_append'.2 ⟨(List.nodup_dedup _).filter _, hnd, fun n hn hr => ((hmem n).1 hr).1 (List.mem_append_right _ hn)⟩,
      fun n => ?_⟩
    rw [List.mem_append, hmem, hnew, List.mem_append, hnew, hlines]
    tauto

theorem groupLines_length (gs : List (List (List WByte))) : (groupLines [] gs).flatten.length = (storeLines gs.flatten).length := by
  obtain ⟨hnd, hmem⟩ := groupLines_flatten gs []
  refine ((List.perm_ext_iff_of_nodup hnd (List.nodup_dedup _)).2 fun n => (hmem n).trans ?_).length_eq
  exact and_iff_right List.not_mem_nil

/-! ### Effects that enter the hold buffer (R185, R247) -/

/-- An effect of the current thread that enters its core's hold buffer. -/
theorem pushHold_took (s : State) (e : HeldEffect) (tiles : List (Nat × Nat)) (took : List Nat) :
    pushHold s s.tid e tiles took = entered s e tiles took := by
  unfold pushHold
  simp [State.thread_self, State.setThread, State.setCore, coreOf, newEntry, claimAfter, entered]

theorem entered_hold (s : State) (e : HeldEffect) (tiles : List (Nat × Nat)) (took : List Nat) (c : Nat) :
    ((entered s e tiles took).core c).hold =
      if c = s.tid / 2 then (s.core c).hold ++ [newEntry s (s.th.relMark.getD 0) e tiles took] else (s.core c).hold := by
  refine (congrArg Core.hold (State.setCore_core s (s.tid / 2) c _)).trans ?_
  split
  · next h => rw [h]
  · rfl

/-- The entry of an effect of a thread in its hold buffer, but for its order and what it waits for. -/
def heldAs (e : HoldEntry) : HeldEffect × Nat × Nat := (e.effect, e.tid, e.cycle)

/-- From one state to the next the current thread has put effects into its hold buffer, in order, and has done nothing else that
shows. -/
structure Entered (s t : State) (es : List HeldEffect) : Prop where
  hold : (t.core (s.tid / 2)).hold.map heldAs = (s.core (s.tid / 2)).hold.map heldAs ++ es.map fun e => (e, s.tid, s.cycle)
  seq : t.seq = s.seq + es.length
  mem : t.mem = s.mem
  parked : t.parked = s.parked
  tid : t.tid = s.tid
  cycle : t.cycle = s.cycle
  regs : RegsKept s.th t.th [] [] [] [] []

namespace Entered

theorem of_seenAlike {s t : State} (h : SeenAlike s t) : Entered s t [] where
  hold := by rw [h.core, List.map_nil, List.append_nil]
  seq := h.seq
  mem := h.mem
  parked := h.parked
  tid := h.tid
  cycle := h.cycle
  regs := by
    rw [h.th]
    exact ⟨fun _ _ => rfl, fun _ _ => rfl, fun _ _ => rfl, fun _ _ => rfl, fun _ _ => rfl⟩

theorem trans {s t u : State} {es fs : List HeldEffect} (h : Entered s t es) (k : Entered t u fs) : Entered s u (es ++ fs) where
  hold := by
    have hk := k.hold
    rw [h.tid, h.cycle] at hk
    rw [hk, h.hold, List.map_append, List.append_assoc]
  seq := by rw [k.seq, h.seq, List.length_append, Nat.add_assoc]
  mem := k.mem.trans h.mem
  parked := k.parked.trans h.parked
  tid := k.tid.trans h.tid
  cycle := k.cycle.trans h.cycle
  regs := ⟨fun r hr => (k.regs.x r hr).trans (h.regs.x r hr), fun r hr => (k.regs.a r hr).trans (h.regs.a r hr),
    fun r hr => (k.regs.v r hr).trans (h.regs.v r hr), fun r hr => (k.regs.p r hr).trans (h.regs.p r hr),
    fun r hr => (k.regs.t r hr).trans (h.regs.t r hr)⟩

theorem entered (s : State) (e : HeldEffect) (tiles : List (Nat × Nat)) (took : List Nat) :
    Entered s (entered s e tiles took) [e] where
  hold := by
    rw [entered_hold, if_pos rfl, List.map_append]
    rfl
  seq := rfl
  mem := rfl
  parked := rfl
  tid := rfl
  cycle := rfl
  regs := ⟨fun _ _ => rfl, fun _ _ => rfl, fun _ _ => rfl, fun _ _ => rfl, fun _ _ => rfl⟩

theorem pushHolds (l : List (Nat × List (List WByte))) (tiles : Nat → List (Nat × Nat)) (took : Nat → List Nat) (s : State) :
    Entered s (l.foldl (fun s g => pushHold s s.tid (.store g.2) (tiles g.1) (took g.1)) s) (l.map fun g => .store g.2) := by
  induction l generalizing s with
  | nil => exact of_seenAlike (.refl s)
  | cons g l ih =>
    rw [List.foldl_cons, List.map_cons, pushHold_took]
    exact (entered ..).trans (ih _)

end Entered

/-- A store of a gang's thread that is held takes one entry for each group. -/
theorem storeUnits_held {s u : State} {sp : Nat} {groups : List (List (List WByte))} {fa : Word} (h1 : sp ≠ 1) (h2 : sp ≠ 2)
    (hc : CanHold s groups.length)
    (hu : takeQuota s (whoTh s) (if sp = 0 then (storeLines groups.flatten).length else 0) fa = .ok u)
    (hr : requestOver s s.tid true (unitLocs groups.flatten) = false) :
    ∃ t, storeUnits s sp groups fa = .ok t ∧ Entered s t (groups.map .store) := by
  have huser : isService s.tid = false := by
    rw [isService, decide_eq_false (Nat.not_le.2 hc.1)]
  have hlines : (if sp = 0 then groupLines [] groups else []).flatten.length
      = if sp = 0 then (storeLines groups.flatten).length else 0 := by
    split
    · exact groupLines_length groups
    · rfl
  unfold storeUnits
  rw [if_neg (not_or.2 ⟨h1, h2⟩), huser, if_neg Bool.false_ne_true, hr, Bool.not_false, await_true, ok_bind, needEntries_ok hc, ok_bind]
  dsimp only
  rw [hlines, hu, ok_bind]
  refine ⟨_, rfl, ?_⟩
  have hall : ((List.range groups.length).zip groups).map (fun g => HeldEffect.store g.2) = groups.map .store := by
    rw [← Function.comp_def HeldEffect.store Prod.snd, ← List.map_map, List.map_snd_zip (by rw [List.length_range])]
  have hpush := Entered.pushHolds ((List.range groups.length).zip groups) (fun n => [].getD n [])
    (fun n => (if sp = 0 then groupLines [] groups else []).getD n []) (u.detectUnits s.tid .retired s.cycle groups.flatten)
  rw [hall] at hpush
  have hquota := SeenAlike.takeQuota hu
  rw [hquota.tid, hquota.cycle]
  exact (Entered.of_seenAlike (hquota.trans (.detectUnits ..))).trans hpush

/-! ### The newest held effect (R190) -/

theorem mem_insertBySeq {α : Type} {e x : Nat × α} {l : List (Nat × α)} : x ∈ insertBySeq e l ↔ x = e ∨ x ∈ l := by
  induction l with
  | nil => exact List.mem_cons
  | cons f l ih =>
    rw [insertBySeq]
    split
    · exact List.mem_cons
    · rw [List.mem_cons, ih, List.mem_cons]
      exact or_left_comm

theorem mem_sortBySeq {α : Type} {x : Nat × α} {l : List (Nat × α)} : x ∈ l.foldr insertBySeq [] ↔ x ∈ l := by
  induction l with
  | nil => rfl
  | cons e l ih => rw [List.foldr_cons, mem_insertBySeq, ih, List.mem_cons]

theorem insertBySeq_newest {α : Type} {x : Nat × α} {l : List (Nat × α)} (h : ∀ e ∈ l, e.1 < x.1) :
    insertBySeq x l = l ++ [x] := by
  induction l with
  | nil => rfl
  | cons f l ih =>
    obtain ⟨hf, hl⟩ := List.forall_mem_cons.1 h
    rw [insertBySeq, if_neg (Nat.not_le.2 hf), ih hl, List.cons_append]

theorem insertBySeq_before {α : Type} {e x : Nat × α} (h : e.1 ≤ x.1) (l : List (Nat × α)) :
    ∃ r, insertBySeq e (l ++ [x]) = r ++ [x] := by
  induction l with
  | nil => exact ⟨[e], if_pos h⟩
  | cons f l ih =>
    obtain ⟨r, hr⟩ := ih
    rw [List.cons_append, insertBySeq]
    split
    · exact ⟨e :: f :: l, rfl⟩
    · exact ⟨f :: r, congrArg (f :: ·) hr⟩

/-- What is newer than all the rest comes last. -/
theorem sortBySeq_newest {α : Type} {x : Nat × α} {l : List (Nat × α)} (hx : x ∈ l) (h : ∀ e ∈ l, e = x ∨ e.1 < x.1) :
    ∃ r, l.foldr insertBySeq [] = r ++ [x] := by
  induction l with
  | nil => cases hx
  | cons e l ih =>
    obtain ⟨he, hl⟩ := List.forall_mem_cons.1 h
    rw [List.foldr_cons]
    by_cases hxl : x ∈ l
    · obtain ⟨r, hr⟩ := ih hxl hl
      rw [hr]
      exact insertBySeq_before (he.elim (fun h => h ▸ Nat.le_refl _) Nat.le_of_lt) r
    · obtain rfl := (List.mem_cons.1 hx).resolve_right hxl
      refine ⟨_, insertBySeq_newest fun f hf => ?_⟩
      have hf := mem_sortBySeq.1 hf
      exact (hl f hf).resolve_left fun h => hxl (h ▸ hf)

theorem overlay_newest {n : Nat} {c : WByte} {l : List (Nat × WByte)} (hx : (n, c) ∈ l) (h : ∀ e ∈ l, e = (n, c) ∨ e.1 < n)
    (b : Byte) : ∃ old, ((l.foldr insertBySeq []).map (·.2)).foldl (fun b c => c.onto b) b = c.onto old := by
  obtain ⟨r, hr⟩ := sortBySeq_newest hx h
  rw [hr, List.map_append, List.foldl_append]
  exact ⟨_, rfl⟩

/-- A byte that the newest held effect of a quad writes, and writes once, is the byte written on what lay there. -/
theorem heldOver_newest {s : State} {q key n i : Nat} {c : WByte} {e : HoldEntry} (hi : i < 4) (he : e ∈ (s.core (4 * q + i)).hold)
    (hn : e.seq = n) (hc : c ∈ e.effect.at' s q e.seq key)
    (hheld : ∀ j, j < 4 → ∀ f ∈ (s.core (4 * q + j)).hold, f.seq < n ∨ f.seq = n ∧ ∀ d ∈ f.effect.at' s q f.seq key, d = c)
    (hwait : ∀ h, ∀ o ∈ (s.quad h).outside, o.seq < n) (b : Byte) : ∃ old, heldOver s q key b = c.onto old := by
  unfold heldOver
  refine overlay_newest (n := n) (c := c) ?mem (fun x hx => ?newest) b
  case mem =>
    exact List.mem_append_left _ (List.mem_flatMap.2 ⟨i, List.mem_range.2 hi, List.mem_flatMap.2 ⟨e, he, List.mem_map.2
      ⟨c, hc, by rw [hn]⟩⟩⟩)
  case newest =>
    rcases List.mem_append.1 hx with hx | hx
    · obtain ⟨j, hj, hx⟩ := List.mem_flatMap.1 hx
      obtain ⟨f, hf, hx⟩ := List.mem_flatMap.1 hx
      obtain ⟨d, hd, rfl⟩ := List.mem_map.1 hx
      rcases hheld j (List.mem_range.1 hj) f hf with hlt | ⟨heq, hall⟩
      · exact .inr hlt
      · exact .inl (Prod.ext heq (hall d hd))
    · split at hx
      · cases hx
      · obtain ⟨o, ho, hx⟩ := List.mem_flatMap.1 hx
        obtain ⟨d, -, rfl⟩ := List.mem_map.1 hx
        exact .inr (hwait _ o (List.mem_filter.1 ho).1)

theorem Table.mem_of_get? {α : Type} {t : Table α} {k : Nat} {a : α} (h : t.get? k = some a) : (k, a) ∈ t := by
  induction t with
  | nil => cases h
  | cons e t ih =>
    obtain ⟨i, b⟩ := e
    rw [Table.get?] at h
    split at h
    · next hi =>
      cases h
      rw [hi]
      exact List.mem_cons_self
    · exact List.mem_cons_of_mem _ (ih h)

theorem quad_of_forall {s : State} {p : Quad → Prop} (h : ∀ e ∈ s.quads, p e.2) (h0 : p Quad.zero) (q : Nat) : p (s.quad q) := by
  unfold State.quad
  cases hq : s.quads.get? q with
  | none => exact h0
  | some k => exact h _ (Table.mem_of_get? hq)

theorem ownSince_newest {s : State} {n : Nat} (h : ∀ q, ∀ o ∈ (s.quad q).overs, o.1 ≤ n) (key : Nat) :
    ownSince s n key = false := by
  unfold ownSince
  split
  · next q _ =>
    rw [List.any_eq_false]
    intro o ho hand
    exact absurd (of_decide_eq_true (Bool.and_eq_true_iff.1 hand).2) (Nat.not_lt.2 (h q o ho))
  · rfl

theorem mem_at_unit {s : State} {q n key : Nat} {unit : List WByte} {d : WByte} (h : ownSince s n key = false) :
    d ∈ HeldEffect.at' s q n (.store [unit]) key ↔ d ∈ unit ∧ d.loc.key = key := by
  unfold HeldEffect.at'
  rw [h, if_neg (fun h => Bool.false_ne_true h.2)]
  simp only [List.flatMap_cons, List.flatMap_nil, List.append_nil, List.mem_filter, beq_iff_eq]

/-- A store that has just been held is what its quad reads. -/
theorem viewByte_entered {s : State} {w : Who} {c : WByte} {unit : List WByte} (hc : c ∈ unit) (hnd : (unit.map (·.loc.key)).Nodup)
    (hmask : c.mask = 0xFF) (hin : w.inside = true) (hq : quadOfCore w.core = s.tid / 8)
    (hheld : ∀ j, j < 4 → ∀ e ∈ (s.core (4 * (s.tid / 8) + j)).hold, e.seq < s.seq)
    (hquads : ∀ e ∈ s.quads, (∀ o ∈ e.2.outside, o.seq < s.seq) ∧ ∀ o ∈ e.2.overs, o.1 ≤ s.seq) :
    viewByte (entered s (.store [unit]) []) w c.loc = c.val := by
  have hquad : ∀ q, (∀ o ∈ (s.quad q).outside, o.seq < s.seq) ∧ ∀ o ∈ (s.quad q).overs, o.1 ≤ s.seq :=
    quad_of_forall (p := fun k => (∀ o ∈ k.outside, o.seq < s.seq) ∧ ∀ o ∈ k.overs, o.1 ≤ s.seq) hquads
      ⟨fun o ho => absurd ho List.not_mem_nil, fun o ho => absurd ho List.not_mem_nil⟩
  have hsince : ownSince (entered s (.store [unit]) []) s.seq c.loc.key = false := ownSince_newest (fun q => (hquad q).2) _
  have hcore : 4 * (s.tid / 8) + s.tid / 2 % 4 = s.tid / 2 := by omega
  have hnew : newEntry s (s.th.relMark.getD 0) (.store [unit]) [] ∈
      ((entered s (.store [unit]) []).core (4 * (s.tid / 8) + s.tid / 2 % 4)).hold := by
    rw [entered_hold, if_pos hcore]
    exact List.mem_append_right _ List.mem_cons_self
  have hrest : ∀ j, j < 4 → ∀ f ∈ ((entered s (.store [unit]) []).core (4 * (s.tid / 8) + j)).hold, f.seq < s.seq ∨
      f.seq = s.seq ∧ ∀ d ∈ f.effect.at' (entered s (.store [unit]) []) (s.tid / 8) f.seq c.loc.key, d = c := fun j hj f hf => by
    rw [entered_hold] at hf
    split at hf
    · rcases List.mem_append.1 hf with hf | hf
      · exact .inl (hheld j hj f hf)
      · obtain rfl := List.mem_singleton.1 hf
        refine .inr ⟨rfl, fun d hd => ?_⟩
        obtain ⟨hd, hkey⟩ := (mem_at_unit hsince).1 hd
        exact List.inj_on_of_nodup_map hnd hd hc hkey
    · exact .inl (hheld j hj f hf)
  obtain ⟨old, hold⟩ := heldOver_newest (Nat.mod_lt _ (by decide)) hnew rfl ((mem_at_unit hsince).2 ⟨hc, rfl⟩) hrest
    (fun h => (hquad h).1) (baseByte (entered s (.store [unit]) []) w c.loc)
  rw [viewByte, if_pos hin, hq, hold, WByte.onto_whole hmask]

end Sys2Proof.Machine

namespace Sys2Proof.Proofs
open Sys2Proof.Machine Sys2Proof.Safety Sys2Proof.Claims

/-- Settles O30: own writes one after the other, hold-buffer entries one after the other, and the newest held effect last. -/
theorem storeGroups : Obligations.StoreGroups := by
  refine ⟨?near, ?held, ?seen⟩
  case near =>
    intro s t sp groups fa hsp hmem hrun hcells
    unfold storeUnits at hrun
    rw [if_pos hsp] at hrun
    have hdone := ownStore_ok hrun hcells
    have hread : ∀ k, t.mem.read k = _ := fun k => (congrArg (·.read k) hdone.mem).trans
      (Memory.read_foldl_write hmem groups.flatten.flatten k)
    refine ⟨fun k c hc => by rw [hread, hc], fun k hk => ?_, hdone.th, hdone.parked⟩
    rw [hread, List.find?_eq_none.2 fun c hc => by rw [beq_iff_eq]; exact hk c (List.mem_reverse.1 hc)]
  case held =>
    intro s u sp groups fa h1 h2 hc hu hr
    obtain ⟨t, ht, h⟩ := storeUnits_held h1 h2 hc hu (by rwa [unitLocs, List.flatMap_def, ← List.map_flatten])
    refine ⟨t, ht, ?_, ?_, h.mem, h.parked, h.regs⟩
    · exact h.hold.trans (by rw [List.map_map]; rfl)
    · rw [h.seq, List.length_map]
  case seen => exact fun s w c unit hc hnd hmask _ hin hq hheld hquads => viewByte_entered hc hnd hmask hin hq hheld hquads

end Sys2Proof.Proofs
end

section
/-! SUPPORT. What reset leaves (06 R155; 09 R259; 10 R263); O56. -/

namespace Sys2Proof.Machine

/-- At reset every thread, the current one among them, is a record of zeros. -/
theorem reset_thread (k : Nat) : State.reset.thread k = Thread.zero := by
  unfold State.thread
  split <;> rfl

theorem reset_engine (e : Nat) : State.reset.engine e = Engine.zero := by
  unfold State.engine
  split <;> rfl

end Sys2Proof.Machine

namespace Sys2Proof.Proofs
open Sys2Proof.Machine Sys2Proof.Safety Sys2Proof.Claims

/-- Settles O56: every table of the reset state is empty, so that each lookup answers with its default record. -/
theorem resetLeaves : Obligations.ResetLeaves := by
  refine ⟨fun k => ?registers, fun q => ⟨rfl, rfl⟩, fun e => ?engines, fun c => ⟨rfl, rfl⟩, fun n => rfl, fun d f => rfl,
    fun k => rfl, rfl, ?measurement, rfl, rfl, rfl, rfl⟩
  case registers =>
    rw [reset_thread]
    exact ⟨fun r => Vector.getElem_replicate _, fun r => Vector.getElem_replicate _, fun r => Vector.getElem_replicate _,
      fun r => Vector.getElem_replicate _, fun r => Vector.getElem_replicate _, rfl, rfl, rfl⟩
  case engines =>
    rw [reset_engine]
    exact ⟨rfl, rfl, rfl⟩
  case measurement =>
    intro n hn
    have hmeas : State.reset.pmc.meas = List.replicate 4 (List.replicate 64 0) := rfl
    rw [hmeas, List.getD_eq_getElem _ _ (by rwa [List.length_replicate]), List.getElem_replicate]

end Sys2Proof.Proofs
end

section
/-! SUPPORT. Tile data of any element type, and how a tile move ends (06 R151, R153, R164, R173); O32. -/

namespace Sys2Proof.Machine
open Sys2Proof.Safety Sys2Proof.Claims

/-! ### Elements of a tile -/

theorem packed_eq_cellBits (t : Ty) : t.packed = cellBits t := rfl

theorem tileElem_eq_cell {t : Ty} {c : ℕ} (hc : c < t.perRow) (img : TileImage) (i : ℕ) : tileElem t img i c = cell (cellBits t) img i c :=
  rowElem_tileRow hc img i

theorem cell_lt (w : ℕ) (img : TileImage) (i c : ℕ) : cell w img i c < 2 ^ w := Nat.mod_lt _ (Nat.two_pow_pos w)

@[simp] theorem cell_mod (w : ℕ) (img : TileImage) (i c : ℕ) : cell w img i c % 2 ^ w = cell w img i c := Nat.mod_eq_of_lt (cell_lt ..)

/-- Element (r, c) of a tile whose data are packed for its type. -/
theorem cell_of_tileData {t : Ty} {f : ℕ → ℕ → ℕ} {r c : ℕ} (hr : r < 32) (hc : c < t.perRow) (scale : BitVec 4096) (tag : ℕ) :
    cell (cellBits t) { data := tileData t f, scale, tag } r c = f r c % 2 ^ cellBits t := by
  have hrow := element_in_row hc
  refine (field_of_ofNat (by omega) _).trans ?_
  rw [← field_of_field (w := 1024) hrow, packList_field, getD_map_range hr, field_of_mod hrow]
  exact (packList_field _ _ c).trans (congrArg (· % 2 ^ cellBits t) (getD_map_range hc _ _))

/-- The types of row moves fill their rows. -/
theorem cellBits_of_isRow {t : Ty} (h : t.isRow = true) : cellBits t = t.width :=
  if_neg fun ht => by simp [ht, Ty.isRow] at h

/-- A row written. -/
theorem cell_setElem {n k : ℕ} (hn : n < 32) (data : BitVec 32768) (x : ℕ) (scale : BitVec 4096) (tag : ℕ) :
    cell 1024 { data := setElem 1024 k data x, scale, tag } n 0 =
      if n = k then x % 2 ^ 1024 else cell 1024 { data, scale, tag } n 0 := by
  have hbits : setElem 1024 k data x = BitVec.ofNat 32768 (replaceBits data.toNat (1024 * k) 1024 x) := rfl
  have hplace : 1024 * n + 1024 * 0 + 1024 ≤ 32768 := by omega
  unfold cell
  rw [hbits, field_of_ofNat hplace]
  refine Nat.eq_of_testBit_eq fun i => ?_
  simp only [apply_ite (fun m => Nat.testBit m i), Nat.testBit_mod_two_pow, Nat.testBit_div_two_pow, testBit_replaceBits]
  by_cases hi : i < 1024
  · have hin : 1024 * k ≤ i + (1024 * n + 1024 * 0) ∧ i + (1024 * n + 1024 * 0) < 1024 * k + 1024 ↔ n = k := by omega
    simp only [hi, hin, decide_true, Bool.true_and]
    refine ite_congr rfl (fun h => ?_) fun _ => rfl
    rw [h]
    congr 1
    omega
  · simp only [hi, decide_false, Bool.false_and, ite_self]

/-! ### How a tile move ends -/

theorem emptyTile_th (s : State) (d : Rt) : (emptyTile s d).th = dropT s.th d := by
  rw [emptyTile, State.supersede_th]
  rfl

/-- A tile register made empty, and the instruction retired. -/
theorem emptyTile_retires (s : State) (d : Rt) :
    (retire (emptyTile s d)).th = goNext (dropT s.th d) ∧ MemoryAndOthersKept s (retire (emptyTile s d)) := by
  refine ⟨?_, ?_⟩
  · rw [retire_eq, withThread_th, emptyTile_th]
  · simp only [MemoryAndOthersKept, retire_mem, retire_parked, retire_tid, retire_contexts, retire_poison, retire_cycle, retire_pmc,
      emptyTile_mem, emptyTile_parked, emptyTile_tid, emptyTile_contexts, emptyTile_poison, emptyTile_cycle, emptyTile_pmc, and_self]

/-- A tile register written by the current thread as it is. -/
theorem writeTile_ok {s : State} {d : Rt} (h : TileFree s d) (img : TileImage) :
    ∃ u, writeTile s d img = .ok u ∧ TileWritten s s.th d img (retire u) :=
  writeTile_retires (s := s) (t := s.th) h rfl img

/-- An instruction that has read its sources and writes a tile. -/
theorem finish_writeTile {s : State} {d : Rt} (h : TileFree s d) (img : TileImage) :
    ∃ t, finish s (writeTile s d img >>= fun u => .ok (retire u)) = .next t ∧ TileWritten s s.th d img t := by
  obtain ⟨u, hu, hw⟩ := writeTile_ok h img
  exact ⟨_, by rw [hu]; rfl, hw⟩

end Sys2Proof.Machine

namespace Sys2Proof.Proofs
open Sys2Proof.Machine Sys2Proof.Safety Sys2Proof.Claims

theorem tmov_result {s : State} {d a : Rt} (ha : Readable s.th (.t a)) :
    (s.th.t[a] = none → ∃ t, exec (.tmov d a) s = .next t ∧ t.th = goNext (dropT s.th d) ∧ MemoryAndOthersKept s t)
    ∧ (s.th.t[a] ≠ none → TileFree s d → ∃ t, exec (.tmov d a) s = .next t ∧ TileWritten s s.th d (tileVal s.th a) t) := by
  have hexec : exec (.tmov d a) s = execTmov d a s := rfl
  rw [hexec, execTmov, useT_bind ha]
  refine ⟨fun h => ?_, fun h hfree => ?_⟩
  · rw [h]
    exact ⟨_, rfl, emptyTile_retires s d⟩
  · obtain ⟨k, hk⟩ := Option.ne_none_iff_exists'.1 h
    rw [hk]
    exact finish_writeTile hfree _

theorem fillBits_mul_count (k : Width) : fillBits k * (32768 / fillBits k) = 32768 := by cases k <;> norm_num [fillBits]

theorem execTfill_eq (d : Rt) (k : Width) (x : Rx) (s : State) : execTfill d k x s = finish s (useX s x >>= fun v =>
    writeTile s d (plainTile (BitVec.ofNat 32768 (packList (fillBits k)
      (List.replicate (32768 / fillBits k) (v.toNat % 2 ^ fillBits k))))) >>= fun u => .ok (retire u)) := by
  cases k <;> rfl

theorem tfill_result {s : State} {d : Rt} {k : Width} {x : Rx} (hx : ReadableX s.th x) (hfree : TileFree s d) :
    ∃ t img, exec (.tfill d k x) s = .next t ∧ TileWritten s s.th d img t ∧ Plain img
      ∧ ∀ e, e < 32768 / fillBits k → img.data.toNat / 2 ^ (fillBits k * e) % 2 ^ fillBits k = xVal s.th x % 2 ^ fillBits k := by
  have hexec : exec (.tfill d k x) s = execTfill d k x s := rfl
  rw [hexec, execTfill_eq, useX_ok hx, ok_bind, Thread.rx_toNat]
  obtain ⟨t, ht, hw⟩ := finish_writeTile hfree _
  refine ⟨t, _, ht, hw, plain_plainTile _, fun e he => ?_⟩
  have hin : fillBits k * e + fillBits k ≤ 32768 := (Nat.mul_le_mul_left (fillBits k) he).trans_eq (fillBits_mul_count k)
  rw [plainTile, field_of_ofNat hin, packList_field, List.getD_eq_getElem _ _ (by rwa [List.length_replicate]), List.getElem_replicate, Nat.mod_mod]

theorem trdr_result {s : State} {a : Rt} {k : Rx} {v : Rv} (ha : Readable s.th (.t a)) (hk : ReadableX s.th k) :
    exec (.trdr a k v) s = .next (withThread s (goNext (putV s.th v (if xVal s.th k < 32
      then BitVec.ofNat 1024 (cell 1024 (tileVal s.th a) (xVal s.th k) 0) else 0)))) := by
  have hexec : exec (.trdr a k v) s = execTrdr a k v s := rfl
  rw [hexec, execTrdr, useT_bind ha, useX_ok hk, ok_bind, Thread.rx_toNat]
  rfl

theorem twrr_result {s : State} {d : Rt} {k : Rx} {v : Rv} (hk : ReadableX s.th k) (hv : Readable s.th (.v v)) :
    (32 ≤ xVal s.th k → exec (.twrr d k v) s = .next (done s))
    ∧ (xVal s.th k < 32 → Readable s.th (.t d) → TileFree s d →
      ∃ t img, exec (.twrr d k v) s = .next t ∧ TileWritten s s.th d img t ∧ img.scale = (tileVal s.th d).scale
        ∧ img.tag = (tileVal s.th d).tag
        ∧ ∀ i, i < 32 → cell 1024 img i 0 = if i = xVal s.th k then s.th.v[v].toNat else cell 1024 (tileVal s.th d) i 0) := by
  have hexec : exec (.twrr d k v) s = execTwrr d k v s := rfl
  rw [hexec, execTwrr, useX_ok hk, ok_bind, useV_ok hv, ok_bind, Thread.rx_toNat]
  refine ⟨fun h => by rw [if_pos h]; rfl, fun h hd hfree => ?_⟩
  rw [if_neg (Nat.not_le.2 h), useT_bind hd]
  obtain ⟨t, ht, hw⟩ := finish_writeTile hfree _
  refine ⟨t, _, ht, hw, rfl, rfl, fun i hi => ?_⟩
  rw [cell_setElem hi, Nat.mod_eq_of_lt (BitVec.isLt _)]

theorem trdc_result {s : State} {a : Rt} {t : Ty} {k : Rx} {v : Rv} (ht : t.isRow = true) (ha : Readable s.th (.t a))
    (hk : ReadableX s.th k) :
    ∃ y : VReg, exec (.trdc a t k v) s = .next (withThread s (goNext (putV s.th v y)))
      ∧ ∀ i, i < 1024 / t.width → lane t.width y i =
          if i < 32 ∧ xVal s.th k < t.perRow then cell t.width (tileVal s.th a) i (xVal s.th k) else 0 := by
  have hexec : exec (.trdc a t k v) s = execTrdc a t k v s := rfl
  rw [hexec, execTrdc, useT_bind ha, useX_ok hk, ok_bind, Thread.rx_toNat]
  refine ⟨_, rfl, fun i hi => ?_⟩
  by_cases hc : xVal s.th k < t.perRow
  · have hin : t.width * i + t.width ≤ 1024 := (Nat.mul_le_mul_left t.width hi).trans (Nat.mul_div_le _ _)
    rw [if_pos hc, lane_packList hin]
    by_cases h32 : i < 32
    · rw [getD_map_range h32, tileElem_eq_cell hc, cellBits_of_isRow ht, cell_mod, if_pos ⟨h32, hc⟩]
    · rw [List.getD_eq_default _ _ (by simpa using h32), if_neg fun h => h32 h.1, Nat.zero_mod]
  · rw [if_neg hc, if_neg fun h => hc h.2]
    rw [lane, BitVec.ofNat_eq_ofNat, BitVec.toNat_zero, Nat.zero_div, Nat.zero_mod]

theorem twrc_result {s : State} {d : Rt} {t : Ty} {k : Rx} {v : Rv} (ht : t.isRow = true) (hk : ReadableX s.th k)
    (hv : Readable s.th (.v v)) :
    (t.perRow ≤ xVal s.th k → exec (.twrc d t k v) s = .next (done s))
    ∧ (xVal s.th k < t.perRow → Readable s.th (.t d) → TileFree s d →
      ∃ u img, exec (.twrc d t k v) s = .next u ∧ TileWritten s s.th d img u ∧ img.scale = (tileVal s.th d).scale
        ∧ img.tag = (tileVal s.th d).tag
        ∧ ∀ i c, i < 32 → c < t.perRow → cell t.width img i c =
            if c = xVal s.th k then lane t.width s.th.v[v] i else cell t.width (tileVal s.th d) i c) := by
  have hexec : exec (.twrc d t k v) s = execTwrc d t k v s := rfl
  rw [hexec, execTwrc, useX_ok hk, ok_bind, useV_ok hv, ok_bind, Thread.rx_toNat]
  refine ⟨fun h => by rw [if_pos h]; rfl, fun h hd hfree => ?_⟩
  rw [if_neg (Nat.not_le.2 h), useT_bind hd]
  obtain ⟨u, hu, hw⟩ := finish_writeTile hfree _
  refine ⟨u, _, hu, hw, rfl, rfl, fun i c hi hc => ?_⟩
  rw [← cellBits_of_isRow ht, cell_of_tileData hi hc, tileElem_eq_cell hc, cellBits_of_isRow ht]
  split
  · exact lane_mod ..
  · exact cell_mod ..

theorem ttrn_result {s : State} {d a : Rt} {t : Ty} (ht : t.isRow = true) (ha : Readable s.th (.t a)) (hfree : TileFree s d) :
    ∃ u img, exec (.ttrn d a t) s = .next u ∧ TileWritten s s.th d img u ∧ Plain img
      ∧ ∀ h i j, h < t.perRow / 32 → i < 32 → j < 32 →
          cell t.width img j (32 * h + i) = cell t.width (tileVal s.th a) i (32 * h + j) := by
  have hexec : exec (.ttrn d a t) s = execTtrn d a t s := rfl
  rw [hexec, execTtrn, useT_bind ha]
  obtain ⟨u, hu, hw⟩ := finish_writeTile hfree _
  refine ⟨u, _, hu, hw, plain_plainTile _, fun h i j hh hi hj => ?_⟩
  have hrow : 32 * h + 32 ≤ t.perRow := by omega
  have hmod : (32 * h + i) % 32 = i := by omega
  have hdiv : (32 * h + i) / 32 * 32 + j = 32 * h + j := by omega
  rw [← cellBits_of_isRow ht, plainTile, cell_of_tileData hj (by omega), hmod, hdiv, tileElem_eq_cell (by omega), cell_mod]

/-- Settles O32: each move reads its sources, and ends in an emptied tile, a written tile or a written vector register. -/
theorem tileMoves : Obligations.TileMoves := by
  refine ⟨fun s d => ⟨_, rfl, emptyTile_retires s d⟩, fun s d a _ ha => tmov_result ha, fun s d k x hx hfree => tfill_result hx hfree,
    fun s a k v ha hk => trdr_result ha hk, fun s d k v hk hv => twrr_result hk hv, ?_, ?_, ?_⟩
  · exact fun s a t k v hwf ha hk => trdc_result hwf ha hk
  · exact fun s d t k v hwf hk hv => twrc_result hwf hk hv
  · intro s d a t hwf ha hfree
    exact ttrn_result (Bool.and_eq_true_iff.1 hwf).1 ha hfree

end Sys2Proof.Proofs
end

section
/-! SUPPORT. Grids of elements with flags: their packing, their flags and the end of their instruction (06 R157, R169 to R172); O34. -/

namespace Sys2Proof.Machine
open Sys2Proof.Safety Sys2Proof.Claims

/-! ### A grid of elements, row by row -/

/-- The rows of a grid of `n` elements each. -/
def gridRows (n : ℕ) (f : ℕ → ℕ → ℕ × Flags) : List (List (ℕ × Flags)) :=
  (List.range 32).map fun r => (List.range n).map (f r)

theorem gridRows_getD {n : ℕ} {f : ℕ → ℕ → ℕ × Flags} {r c : ℕ} (hr : r < 32) (hc : c < n) :
    ((gridRows n f).getD r []).getD c (0, 0) = f r c := by
  rw [gridRows, getD_map_range hr, getD_map_range hc]

theorem gridRows_congr {n : ℕ} {f g : ℕ → ℕ → ℕ × Flags} (h : ∀ r c, c < n → f r c = g r c) : gridRows n f = gridRows n g :=
  List.map_congr_left fun r _ => List.map_congr_left fun c hc => h r c (List.mem_range.1 hc)

/-- The elements of a grid in order. -/
theorem gridRows_flatten (n : ℕ) (f : ℕ → ℕ → ℕ × Flags) :
    (gridRows n f).flatten = (List.range (32 * n)).map fun e => f (e / n) (e % n) := flatMap_rows f 32 n

theorem gather_gridRows (n : ℕ) (f : ℕ → ℕ → ℕ × Flags) :
    gather (gridRows n f).flatten = allFlags (32 * n) (fun _ => true) fun e => (f (e / n) (e % n)).2 := by
  rw [gridRows_flatten, gather, List.foldl_map]
  rfl

/-! ### The flags of a part of a grid -/

theorem gather_getLsbD (l : List (ℕ × Flags)) (k : ℕ) : (gather l).getLsbD k = l.any fun e => e.2.getLsbD k := by
  have hfold : ∀ (l : List (ℕ × Flags)) (a : Flags),
      (l.foldl (fun a b => a ||| b.2) a).getLsbD k = (a.getLsbD k || l.any fun e => e.2.getLsbD k) := by
    intro l
    induction l with
    | nil => simp
    | cons e l ih =>
      intro a
      rw [List.foldl_cons, ih, BitVec.getLsbD_or, List.any_cons, Bool.or_assoc]
  rw [gather, hfold]
  simp

/-- The columns of a row that lie in part `p` of four. -/
def inPart (p : ℕ) (f : ℕ → ℕ → ℕ × Flags) (keep : ℕ → ℕ → ℕ) (r c : ℕ) : ℕ × Flags :=
  if 32 * p ≤ c ∧ c < 32 * p + 32 then f r (c - 32 * p) else (keep r c, 0)

/-- Elements that are kept raise no flag. -/
theorem gather_inPart {p : ℕ} (hp : p < 4) (f : ℕ → ℕ → ℕ × Flags) (keep : ℕ → ℕ → ℕ) :
    gather (gridRows 128 (inPart p f keep)).flatten = gather (gridRows 32 f).flatten := by
  refine BitVec.eq_of_getLsbD_eq fun k _ => ?_
  rw [gather_getLsbD, gather_getLsbD, Bool.eq_iff_iff]
  simp only [gridRows, List.any_eq_true, List.mem_flatten, List.mem_map, List.mem_range, exists_exists_and_eq_and]
  constructor
  · rintro ⟨_, ⟨r, hr, c, hc, rfl⟩, hbit⟩
    by_cases hin : 32 * p ≤ c ∧ c < 32 * p + 32
    · rw [inPart, if_pos hin] at hbit
      exact ⟨_, ⟨r, hr, c - 32 * p, by omega, rfl⟩, hbit⟩
    · rw [inPart, if_neg hin] at hbit
      simp at hbit
  · rintro ⟨_, ⟨r, hr, c, hc, rfl⟩, hbit⟩
    refine ⟨_, ⟨r, hr, 32 * p + c, by omega, rfl⟩, ?_⟩
    rw [inPart, if_pos (by omega), Nat.add_sub_cancel_left]
    exact hbit

/-! ### The end of a grid instruction -/

theorem rmMode_eq_theMode (t : Thread) (rm : Rm) : rmMode rm (modeOf t.fcsr) = theMode t rm := by cases rm <;> rfl

/-- A grid instruction writes its tile, or faults with an enabled flag. -/
def GridEnds (i : Instr) (s : State) (o : GridOp) : Prop :=
  (o.flags &&& enabled s.th = 0 → TileFree s o.d →
      ∃ t img, exec i s = .next t ∧ TileWritten s (flagged s.th o.flags) o.d img t ∧ o.Holds img)
  ∧ (o.flags &&& enabled s.th ≠ 0 → CanHold s 1 → exec i s = .next (faulted s 0x0E 0 (o.flags.setWidth 64) 0 none))

theorem gridOp_ends {i : Instr} {s : State} {o : GridOp} {img : TileImage}
    (hexec : exec i s = finish s (writeResult s o.d (img, o.flags))) (hholds : o.Holds img) :
    GridEnds i s o := by
  refine ⟨fun hf hfree => ?_, fun hf hc => hexec.trans (finish_writeResult_fault hf hc)⟩
  obtain ⟨t, ht, hw⟩ := finish_writeResult hf hfree
  exact ⟨t, img, hexec.trans ht, hw, hholds⟩

/-- A plain tile holds a grid without scales whose elements it has. -/
theorem holds_plain {o : GridOp} {data : BitVec 32768} (htag : o.tag = 0) (hscale : o.scale = fun _ => 0)
    (hcells : ∀ r c, r < 32 → c < o.n → cell o.w (plainTile data) r c = (o.f r c).1 % 2 ^ o.w) : o.Holds (plainTile data) := by
  refine ⟨htag.symm, fun k _ => ?_, hcells⟩
  rw [hscale, plainTile, BitVec.ofNat_eq_ofNat, BitVec.toNat_zero, Nat.zero_div, Nat.zero_mod]

/-! ### `tscl` and `tadd` (R172) -/

theorem eachElem_eq (f : ℕ → ℕ → ℕ × Flags) : eachElem f =
    (plainTile (BitVec.ofNat 32768 (packList 32 ((List.range 1024).map fun e => (f (e / 32) (e % 32)).1))),
      gather (gridRows 32 f).flatten) := by
  have hcells : ((List.range 32).flatMap fun i => (List.range 32).map fun j => f i j) = (gridRows 32 f).flatten := rfl
  rw [eachElem, hcells]
  rw [gridRows_flatten, List.map_map]
  rfl

/-- An instruction that computes each of 1,024 elements. -/
theorem eachElem_ends {i : Instr} {s : State} {o : GridOp} {f : ℕ → ℕ → ℕ × Flags}
    (hexec : exec i s = finish s (writeResult s o.d (eachElem f))) (hw : o.w = 32) (hn : o.n = 32) (htag : o.tag = 0)
    (hscale : o.scale = fun _ => 0) (hf : ∀ r c, c < 32 → f r c = o.f r c) :
    GridEnds i s o := by
  have hflags : gather (gridRows 32 f).flatten = o.flags := by
    rw [gridRows_congr hf, gather_gridRows, GridOp.flags, hn]
  rw [eachElem_eq, hflags] at hexec
  refine gridOp_ends hexec (holds_plain htag hscale fun r c hr hc => ?_)
  rw [hn] at hc
  rw [hw, cell_packed (f := fun r c => (f r c).1) hr hc, hf r c hc]

theorem tscl_ends {s : State} {d a b : Rt} {t : Ty} {rm : Rm} {i o : Bool} {k : SclMode} {g : GridOp}
    (hg : gridOp s (.tscl d a b t rm i o k) = some g) (hs : ∀ r ∈ g.srcs, Readable s.th (.t r)) :
    GridEnds (.tscl d a b t rm i o k) s g := by
  cases hg
  have hexec : exec (.tscl d a b t rm i o k) s = execTscl d a b t rm i o k s := rfl
  rw [execTscl, useT_bind (hs a List.mem_cons_self), useT_bind (hs b (by simp)), rmMode_eq_theMode] at hexec
  refine eachElem_ends hexec rfl rfl rfl rfl fun r c hc => ?_
  have hx : ∀ img i c, c < 32 → tileElem .f32 img i c = cell 32 img i c := fun img i c hc => tileElem_eq_cell (t := .f32) hc img i
  cases k <;> simp only [hx _ _ _ hc, hx _ _ 0 (by decide), if_pos, if_neg, reduceCtorEq, not_false_eq_true]

theorem tadd_ends {s : State} {d a b : Rt} {t : Ty} {rm : Rm} {i o : Bool} {g : GridOp} (ht : t = .f32 ∨ t = .i32)
    (hg : gridOp s (.tadd d a b t rm i o) = some g) (hs : ∀ r ∈ g.srcs, Readable s.th (.t r)) :
    GridEnds (.tadd d a b t rm i o) s g := by
  cases hg
  have hexec : exec (.tadd d a b t rm i o) s = execTadd d a b t rm i o s := rfl
  rw [execTadd, useT_bind (hs a List.mem_cons_self), useT_bind (hs b (by simp)), rmMode_eq_theMode] at hexec
  refine eachElem_ends hexec rfl rfl rfl rfl fun r c hc => ?_
  have hx : ∀ img, tileElem .f32 img r c = cell 32 img r c := fun img => tileElem_eq_cell (t := .f32) hc img r
  simp only [hx]
  rcases ht with rfl | rfl <;> rfl

/-! ### `tcvt` (R170) -/

/-- An instruction that packs a grid for its type. -/
theorem tileData_ends {i : Instr} {s : State} {o : GridOp} {t : Ty} {f : ℕ → ℕ → ℕ × Flags}
    (hexec : exec i s = finish s (writeResult s o.d
      (plainTile (tileData t fun i c => (((gridRows t.perRow f).getD i []).getD c (0, 0)).1), gather (gridRows t.perRow f).flatten)))
    (hw : o.w = cellBits t) (hn : o.n = t.perRow) (htag : o.tag = 0) (hscale : o.scale = fun _ => 0)
    (hf : ∀ r c, c < t.perRow → f r c = o.f r c) : GridEnds i s o := by
  have hflags : gather (gridRows t.perRow f).flatten = o.flags := by
    rw [gridRows_congr hf, gather_gridRows, GridOp.flags, hn]
  rw [hflags] at hexec
  refine gridOp_ends hexec (holds_plain htag hscale fun r c hr hc => ?_)
  rw [hn] at hc
  rw [hw, plainTile, cell_of_tileData hr hc, gridRows_getD hr hc, hf r c hc]

/-- Element `c` of row `r` of a conversion, of a source and the old content of the destination. -/
def cvtCell (tout tin : Ty) (m : Mode) (sat fzi fzo : Bool) (part : ℕ) (x old : TileImage) (r c : ℕ) : ℕ × Flags :=
  let one := fun c => convertScaled tin tout m sat fzi fzo (rowElem tin (tileRow x r) c) (scaleOf tin x r c)
  if tout.perRow ≤ tin.perRow then one (part * tout.perRow + c)
  else if part * tin.perRow ≤ c ∧ c < (part + 1) * tin.perRow then one (c - part * tin.perRow)
  else (rowElem tout (tileRow old r) c, 0)

theorem execTcvt_eq (d a : Rt) (tout tin : Ty) (rm : Rm) (sat fzi fzo : Bool) (part : Fin 4) (s : State) :
    execTcvt d a tout tin rm sat fzi fzo part s = finish s (useT s a >>= fun x => oldTile s d (tout.perRow ≤ tin.perRow) >>= fun old =>
      let rows := gridRows tout.perRow (cvtCell tout tin (rmMode rm (modeOf s.th.fcsr)) sat fzi fzo part.val x old)
      writeResult s d (plainTile (tileData tout fun i c => ((rows.getD i []).getD c (0, 0)).1), gather rows.flatten)) := rfl

theorem convertScaled_eq (tin tout : Ty) (m : Mode) (sat fzi fzo : Bool) (x : ℕ) (scale : Option ℕ) :
    convertScaled tin tout m sat fzi fzo x scale = convertCell tin tout m sat fzi fzo x scale := by cases scale <;> rfl

/-- A source element of a narrowing conversion lies in its row. -/
theorem narrow_in_row {tout tin : Ty} {p c : ℕ} (hle : tout.perRow ≤ tin.perRow) (hp : p < cvtParts tout tin) (hc : c < tout.perRow) :
    p * tout.perRow + c < tin.perRow := by
  rw [cvtParts, if_pos hle] at hp
  have h := (Nat.le_div_iff_mul_le (by omega)).1 hp
  rw [Nat.succ_mul] at h
  omega

theorem tcvt_ends {s : State} {d a : Rt} {tout tin : Ty} {rm : Rm} {sat i o : Bool} {p : Fin 4} {g : GridOp}
    (hp : p.val < cvtParts tout tin) (hg : gridOp s (.tcvt d a tout tin rm sat i o p) = some g)
    (hs : ∀ r ∈ g.srcs, Readable s.th (.t r)) :
    GridEnds (.tcvt d a tout tin rm sat i o p) s g := by
  cases hg
  dsimp only at hs
  have hread : decide (tout.perRow ≤ tin.perRow) = false → Readable s.th (.t d) := fun h =>
    hs d (by rw [if_neg (of_decide_eq_false h)]; exact List.mem_cons_of_mem _ List.mem_cons_self)
  obtain ⟨old, hold, hval⟩ := oldTile_ok hread
  have hexec : exec (.tcvt d a tout tin rm sat i o p) s = execTcvt d a tout tin rm sat i o p s := rfl
  rw [execTcvt_eq, useT_bind (hs a List.mem_cons_self), hold, ok_bind, rmMode_eq_theMode] at hexec
  dsimp only at hexec
  refine tileData_ends hexec rfl rfl rfl rfl fun r c hc => ?_
  dsimp only [cvtCell]
  by_cases hle : tout.perRow ≤ tin.perRow
  · have hin := narrow_in_row hle hp hc
    rw [if_pos hle, if_pos hle, convertScaled_eq, rowElem_tileRow hin, scaleOf_eq_cellScale]
  · rw [if_neg hle, if_neg hle, Nat.succ_mul]
    refine ite_congr rfl (fun hpart => ?_) fun _ => ?_
    · rw [convertScaled_eq, rowElem_tileRow (by omega), scaleOf_eq_cellScale]
    · rw [rowElem_tileRow hc, hval (decide_eq_false hle)]

/-! ### `tqnt` (R171) -/

/-- The scale of block `q` of a row's values. -/
def blockOf (t : Ty) (size : ℕ) (v : ℕ → FVal) (q : ℕ) : ℕ := blockScale t ((List.range size).map fun j => v (q * size + j))

/-- Element `c` of a row quantised at the scale of its block. -/
def quantised (t : Ty) (m : Mode) (sat fzo : Bool) (size : ℕ) (v : ℕ → FVal) (c : ℕ) : ℕ × Flags :=
  convertF t m sat fzo ((v c).scale (127 - (blockOf t size v (c / size) : Int)))

/-- The blocks' scales of a row, and its quantised elements, as the model computes them. -/
def quantRow (t : Ty) (m : Mode) (sat fzo : Bool) (size : ℕ) (v : ℕ → FVal) : List ℕ × List (ℕ × Flags) :=
  let vals := (List.range 32).map v
  let blocks := (List.range (32 / size)).map fun q => (vals.drop (q * size)).take size
  let scales := blocks.map (blockScale t)
  (scales, (List.zip blocks scales).flatMap fun e => e.1.map fun v => convertF t m sat fzo (v.scale (127 - (e.2 : Int))))

theorem quantRow_congr {v u : ℕ → FVal} (h : ∀ c, c < 32 → v c = u c) (t : Ty) (m : Mode) (sat fzo : Bool) (size : ℕ) :
    quantRow t m sat fzo size v = quantRow t m sat fzo size u := by
  have hvals : (List.range 32).map v = (List.range 32).map u := List.map_congr_left fun c hc => h c (List.mem_range.1 hc)
  rw [quantRow, quantRow, hvals]

theorem quantRow_eq {size : ℕ} (hsize : 32 / size * size = 32) (t : Ty) (m : Mode) (sat fzo : Bool) (v : ℕ → FVal) :
    quantRow t m sat fzo size v =
      ((List.range (32 / size)).map (blockOf t size v), (List.range 32).map (quantised t m sat fzo size v)) := by
  have hblocks : ((List.range (32 / size)).map fun q => (((List.range 32).map v).drop (q * size)).take size) =
      (List.range (32 / size)).map fun q => (List.range size).map fun j => v (q * size + j) := by
    refine List.map_congr_left fun q hq => ?_
    have hfit : q * size + size ≤ 32 := by
      rw [← Nat.succ_mul, ← hsize]
      exact Nat.mul_le_mul_right size (List.mem_range.1 hq)
    rw [← List.map_drop, ← List.map_take, slice_range hfit, List.map_map]
    rfl
  have hsplit : ∀ c, v (c / size * size + c % size) = v c := fun c => by rw [mul_comm, Nat.div_add_mod]
  rw [quantRow, hblocks, List.map_map, List.zip_map', List.flatMap_map]
  refine Prod.ext rfl (Eq.trans ?_ ((flatMap_rows (fun q j => quantised t m sat fzo size v (q * size + j)) (32 / size) size).trans ?_))
  · refine List.flatMap_congr fun q _ => ?_
    rw [List.map_map]
    refine List.map_congr_left fun j hj => ?_
    have hdiv : (q * size + j) / size = q := by
      have hj := List.mem_range.1 hj
      rw [mul_comm, Nat.mul_add_div (by omega), Nat.div_eq_of_lt hj, add_zero]
    rw [quantised, hdiv]
    rfl
  · rw [hsize]
    exact List.map_congr_left fun c _ => by rw [mul_comm, Nat.div_add_mod]

theorem blockScale_lt (t : Ty) (vs : List FVal) : blockScale t vs < 256 := by
  unfold blockScale
  split
  · decide
  · omega

/-- The scale byte `k` of a quantised tile. -/
def quantScale (t : Ty) (size part : ℕ) (v : ℕ → ℕ → FVal) (old : BitVec 4096) (k : ℕ) : ℕ :=
  if 32 * part / size ≤ k % 16 ∧ k % 16 < 32 * part / size + 32 / size then blockOf t size (v (k / 16)) (k % 16 - 32 * part / size)
  else elem 8 k old

theorem tileData_congr {t : Ty} {f g : ℕ → ℕ → ℕ} (h : ∀ r c, r < 32 → c < t.perRow → f r c = g r c) : tileData t f = tileData t g := by
  unfold tileData
  exact congrArg (fun l => BitVec.ofNat 32768 (packList 1024 l)) (List.map_congr_left fun r hr =>
    congrArg (packList t.packed) (List.map_congr_left fun c hc => h r c (List.mem_range.1 hr) (List.mem_range.1 hc)))

/-- The tile that a `tqnt` writes from its source and the old content of its destination, and its flags. -/
def quantTile (t : Ty) (m : Mode) (sat fzi fzo : Bool) (blog part : ℕ) (x old : TileImage) : TileImage × Flags :=
  let v := fun r c => fval .f32 fzi (cell 32 x r c)
  let q := fun r => quantised t m sat fzo (2 ^ blog) (v r)
  ({ data := tileData t fun r c => (inPart part q (tileElem t old) r c).1
     scale := BitVec.ofNat 4096 (packList 8 ((List.range 512).map (quantScale t (2 ^ blog) part v old.scale)))
     tag := blog }, gather (gridRows 32 q).flatten)

theorem execTqnt_eq {blog : Fin 16} (hsize : 32 / 2 ^ blog.val * 2 ^ blog.val = 32) (d a : Rt) (t : Ty) (rm : Rm) (sat fzi fzo : Bool)
    (part : Fin 4) (s : State) : execTqnt d a blog t rm sat fzi fzo part s = finish s (useT s a >>= fun x => useT s d >>= fun old =>
      writeResult s d (quantTile t (rmMode rm (modeOf s.th.fcsr)) sat fzi fzo blog.val part.val x old)) := by
  generalize hm : rmMode rm (modeOf s.th.fcsr) = m
  have hrows : ∀ x : TileImage, ((List.range 32).map fun i =>
      quantRow t m sat fzo (2 ^ blog.val) fun c => fval .f32 fzi (rowElem .f32 (tileRow x i) c)) = (List.range 32).map fun i =>
        ((List.range (32 / 2 ^ blog.val)).map (blockOf t (2 ^ blog.val) fun c => fval .f32 fzi (cell 32 x i c)),
          (List.range 32).map (quantised t m sat fzo (2 ^ blog.val) fun c => fval .f32 fzi (cell 32 x i c))) :=
    fun x => List.map_congr_left fun i _ => (quantRow_congr (fun c hc => congrArg (fval .f32 fzi)
      (rowElem_tileRow (t := .f32) hc x i)) ..).trans (quantRow_eq hsize ..)
  have hexec : execTqnt d a blog t rm sat fzi fzo part s = finish s (useT s a >>= fun x => useT s d >>= fun old =>
      let rows := (List.range 32).map fun i =>
        quantRow t m sat fzo (2 ^ blog.val) fun c => fval .f32 fzi (rowElem .f32 (tileRow x i) c)
      let data := tileData t fun i c =>
        if 32 * part.val ≤ c ∧ c < 32 * part.val + 32 then (((rows.getD i ([], [])).2).getD (c - 32 * part.val) (0, 0)).1
        else tileElem t old i c
      let scale := packList 8 ((List.range 512).map fun k =>
        if 32 * part.val / 2 ^ blog.val ≤ k % 16 ∧ k % 16 < 32 * part.val / 2 ^ blog.val + 32 / 2 ^ blog.val
        then ((rows.getD (k / 16) ([], [])).1).getD (k % 16 - 32 * part.val / 2 ^ blog.val) 0 else elem 8 k old.scale)
      writeResult s d ({ data, scale := BitVec.ofNat 4096 scale, tag := blog.val }, gather (rows.flatMap fun r => r.2))) := by
    rw [← hm]
    rfl
  rw [hexec]
  refine congrArg (finish s) (congrArg (useT s a >>= ·) (funext fun x => congrArg (useT s d >>= ·) (funext fun old =>
    congrArg (writeResult s d) ?_)))
  rw [hrows x, quantTile]
  refine Prod.ext (TileImage.mk.injEq .. ▸ ⟨tileData_congr fun r c hr _ => ?_, congrArg (fun l => BitVec.ofNat 4096 (packList 8 l))
    (List.map_congr_left fun k hk => ?_), rfl⟩) ?_
  · rw [getD_map_range hr]
    dsimp only [inPart]
    split
    · rw [getD_map_range (by omega)]
    · rfl
  · have hk := List.mem_range.1 hk
    rw [getD_map_range (by omega)]
    dsimp only [quantScale]
    split
    · rw [getD_map_range (by omega)]
    · rfl
  · rw [List.flatMap_map]
    rfl

/-- The grid of a `tqnt`. -/
theorem tqnt_op {s : State} {d a : Rt} {blog : Fin 16} {t : Ty} {rm : Rm} {sat i o : Bool} {p : Fin 4} {g : GridOp}
    (hg : gridOp s (.tqnt d a blog t rm sat i o p) = some g) :
    g.d = d ∧ g.srcs = [a, d] ∧ g.w = cellBits t ∧ g.n = 128 ∧ g.tag = blog.val
    ∧ g.scale = quantScale t (2 ^ blog.val) p.val (fun r c => fval .f32 i (cell 32 (tileVal s.th a) r c)) (tileVal s.th d).scale
    ∧ g.f = inPart p.val (fun r => quantised t (theMode s.th rm) sat o (2 ^ blog.val) fun c => fval .f32 i (cell 32 (tileVal s.th a) r c))
        (fun r c => cell (cellBits t) (tileVal s.th d) r c) := by
  cases hg
  exact ⟨rfl, rfl, rfl, rfl, rfl, rfl, rfl⟩

theorem tqnt_ends {s : State} {d a : Rt} {blog : Fin 16} {t : Ty} {rm : Rm} {sat i o : Bool} {p : Fin 4} {g : GridOp}
    (hwf : (Instr.tqnt d a blog t rm sat i o p).wf = true) (hg : gridOp s (.tqnt d a blog t rm sat i o p) = some g)
    (hs : ∀ r ∈ g.srcs, Readable s.th (.t r)) : GridEnds (.tqnt d a blog t rm sat i o p) s g := by
  simp only [Instr.wf, Bool.and_eq_true, decide_eq_true_eq] at hwf
  obtain ⟨⟨⟨hlo, hhi⟩, ht⟩, -⟩ := hwf
  have hsize : 32 / 2 ^ blog.val * 2 ^ blog.val = 32 := by
    generalize blog.val = n at hlo hhi
    interval_cases n <;> rfl
  have hper : t.perRow = 128 := by cases t <;> first | rfl | cases ht
  obtain ⟨rfl, hsrcs, hw, hn, htag, hscale, hf⟩ := tqnt_op hg
  rw [hsrcs] at hs
  have hexec : exec (.tqnt g.d a blog t rm sat i o p) s = execTqnt g.d a blog t rm sat i o p s := rfl
  rw [execTqnt_eq hsize, useT_bind (hs a List.mem_cons_self), useT_bind (hs _ (by simp)), rmMode_eq_theMode] at hexec
  have hflags : g.flags = (quantTile t (theMode s.th rm) sat i o blog.val p.val (tileVal s.th a) (tileVal s.th g.d)).2 := by
    rw [GridOp.flags, hn, hf, ← gather_gridRows, gather_inPart p.isLt, quantTile]
  rw [← Prod.mk.eta (p := quantTile ..), ← hflags] at hexec
  refine gridOp_ends hexec ⟨htag.symm, fun k hk => ?_, fun r c hr hc => ?_⟩
  · rw [hscale, quantTile]
    have hbyte : 256 = 2 ^ 8 := rfl
    dsimp only
    rw [hbyte, field_of_ofNat (by omega), packList_field, getD_map_range hk]
    refine Nat.mod_eq_of_lt ?_
    unfold quantScale
    split
    · exact blockScale_lt ..
    · exact Nat.mod_lt _ (by decide)
  · rw [hn] at hc
    rw [hw, hf, quantTile]
    dsimp only
    rw [cell_of_tileData hr (hper ▸ hc), inPart, inPart]
    split
    · rfl
    · rw [tileElem_eq_cell (hper ▸ hc)]

end Sys2Proof.Machine

namespace Sys2Proof.Proofs
open Sys2Proof.Machine Sys2Proof.Safety Sys2Proof.Claims

/-- Settles O34: each instruction of major 0x33 computes a grid of elements, whose flags are raised before its tile is written. -/
theorem tileConvert : Obligations.TileConvert := by
  intro i s g hwf hg hs
  cases i with
  | tcvt d a tout tin rm sat i o p =>
    simp only [Instr.wf, Bool.and_eq_true, decide_eq_true_eq] at hwf
    exact tcvt_ends hwf.1.2 hg hs
  | tqnt => exact tqnt_ends hwf hg hs
  | tscl => exact tscl_ends hg hs
  | tadd =>
    simp only [Instr.wf, Bool.and_eq_true, Bool.or_eq_true, beq_iff_eq] at hwf
    exact tadd_ends (hwf.1.1.imp_right fun h => h.1.1.1) hg hs
  | _ => cases hg

end Sys2Proof.Proofs
end

section
/-! SUPPORT. The bytes of a tile's access units, as a load gathers and a store spreads them (06 R150, R151, R162, R163); O35. -/

namespace Sys2Proof.Machine
open Sys2Proof.Safety Sys2Proof.Claims

/-! ### Lists with their positions -/

theorem filterMap_range_getElem? {α β : Type} (l : List α) (g : ℕ → α → β) :
    ((List.range l.length).filterMap fun j => (l[j]?).map fun a => g j a) = l.mapIdx g := by
  induction l generalizing g with
  | nil => rfl
  | cons a l ih =>
    rw [List.length_cons, List.range_succ_eq_map, List.mapIdx_cons, ← ih, List.filterMap_cons, List.filterMap_map]
    rfl

theorem map_zip_range {α β : Type} (l : List α) (g : ℕ → α → β) :
    (((List.range l.length).zip l).map fun e => g e.1 e.2) = l.mapIdx g := by
  refine List.ext_getElem (by simp) fun i _ _ => ?_
  simp

theorem map_mapIdx {α β γ : Type} (l : List α) (g : ℕ → α → β) (f : β → γ) : (l.mapIdx g).map f = l.mapIdx fun j a => f (g j a) :=
  List.ext_getElem (by simp) fun i _ _ => by simp

theorem wbytes_leBytes (ls : List Loc) (x : ℕ) : wbytes ls (leBytes ls.length x) =
    ls.mapIdx fun j l => { loc := l, val := BitVec.ofNat 8 (x / 2 ^ (8 * j)), mask := 0xFF } := by
  refine List.ext_getElem? fun j => ?_
  rw [List.getElem?_mapIdx]
  by_cases hj : j < ls.length
  · rw [wbytes_getElem? (List.getElem?_eq_getElem hj) (leBytes_getElem? hj x), List.getElem?_eq_getElem hj, pow_mul]
    rfl
  · have hlen : (wbytes ls (leBytes ls.length x)).length ≤ j := by
      rw [wbytes, List.length_zipWith]
      omega
    rw [List.getElem?_eq_none hlen, List.getElem?_eq_none (Nat.not_lt.1 hj), Option.map_none]

/-! ### The bytes that a load gathers -/

theorem uses_eq_not_unused (v : TileRef) (u : TileUnit) : v.uses u.pos = !unused v u := by
  unfold TileRef.uses unused
  have hat : scaleAt = 32768 := rfl
  have hrow : (v.t != .l6 || decide (u.pos % 1024 < 768)) = !(v.t == .l6 && decide (768 ≤ u.pos % 1024)) := by
    rw [Bool.not_and, ← decide_not, decide_eq_decide.2 Nat.not_le]
    rfl
  have hblock : decide ((u.pos - 32768) / 8 % 16 < v.t.perRow / 2 ^ v.blog) =
      !decide (v.t.perRow / 2 ^ v.blog ≤ (u.pos - 32768) / 8 % 16) := by
    rw [← decide_not, decide_eq_decide.2 Nat.not_le]
  rw [hat, apply_ite (not ·), hrow, hblock]

theorem addPieces_eq_sum (f : Loc → Byte) (n : ℕ) (ps : List Piece) :
    addPieces f n ps = n + (ps.map fun p => field (f p.loc).toNat p.lo p.len * 2 ^ p.pos).sum := by
  induction ps generalizing n with
  | nil => rfl
  | cons p ps ih =>
    rw [List.map_cons, List.sum_cons, ← add_assoc]
    exact ih _

/-- The pieces of one unit. -/
theorem tilePieces_cons (v : TileRef) (u : TileUnit) (us : List TileUnit) : tilePieces v (u :: us) =
    u.locs.mapIdx (fun j l => { loc := l, lo := 0, len := if v.uses u.pos then 8 else 0, pos := u.pos + 8 * j }) ++ tilePieces v us := by
  rw [tilePieces, List.flatMap_cons]
  exact congrArg (· ++ _) (map_zip_range u.locs fun j l =>
    ({ loc := l, lo := 0, len := if v.uses u.pos then 8 else 0, pos := u.pos + 8 * j } : Piece))

theorem placed_cons (u : TileUnit) (us : List TileUnit) :
    placed (u :: us) = u.locs.mapIdx (fun j l => (l, u.pos + 8 * j)) ++ placed us := by
  rw [placed, List.flatMap_cons, filterMap_range_getElem?]
  rfl

theorem gathered_append (f : Loc → Byte) (ps qs : List (Loc × ℕ)) : gathered f (ps ++ qs) = gathered f ps + gathered f qs := by
  rw [gathered, List.map_append, List.sum_append]
  rfl

/-- The pieces of a load add up to the bytes of its used units. -/
theorem pieces_sum (f : Loc → Byte) (v : TileRef) (us : List TileUnit) :
    ((tilePieces v us).map fun p => field (f p.loc).toNat p.lo p.len * 2 ^ p.pos).sum =
      gathered f (placed (us.filter fun w => !unused v w)) := by
  induction us with
  | nil => rfl
  | cons u us ih =>
    rw [tilePieces_cons, List.map_append, List.sum_append, ih, map_mapIdx, uses_eq_not_unused]
    cases hu : unused v u with
    | true =>
      rw [List.filter_cons_of_neg (by simp [hu])]
      refine Nat.add_eq_right.2 (List.sum_eq_zero fun x hx => ?_)
      obtain ⟨j, hj, rfl⟩ := List.mem_mapIdx.1 hx
      simp [field, Nat.mod_one]
    | false =>
      rw [List.filter_cons_of_pos (by simp [hu]), placed_cons, gathered_append, gathered.eq_1 f (u.locs.mapIdx _), map_mapIdx]
      simp only [Bool.not_false, if_true, field_byte]

/-! ### The number of a tile register -/

/-- A bit above a field does not change it. -/
theorem field_add_high {p w k : ℕ} (h : p + w ≤ k) (n : ℕ) : (2 ^ k + n) / 2 ^ p % 2 ^ w = n / 2 ^ p % 2 ^ w := by
  obtain ⟨m, rfl⟩ := Nat.exists_eq_add_of_le h
  rw [add_assoc, pow_add, Nat.mul_add_div (Nat.two_pow_pos p), pow_add, Nat.mul_add_mod]

theorem ofNat_add_high {w k : ℕ} (h : w ≤ k) (n : ℕ) : BitVec.ofNat w (2 ^ k + n) = BitVec.ofNat w n := by
  obtain ⟨m, rfl⟩ := Nat.exists_eq_add_of_le h
  refine BitVec.eq_of_toNat_eq ?_
  rw [BitVec.toNat_ofNat, BitVec.toNat_ofNat, pow_add, Nat.mul_add_mod]

theorem ofNat_field_add_high {p w k : ℕ} (h : p + w ≤ k) (n : ℕ) :
    BitVec.ofNat w ((2 ^ k + n) / 2 ^ p) = BitVec.ofNat w (n / 2 ^ p) :=
  BitVec.eq_of_toNat_eq (by rw [BitVec.toNat_ofNat, BitVec.toNat_ofNat, field_add_high h])

theorem tileImage_ofNat_live (n : ℕ) : TileImage.ofNat (2 ^ liveAt + n) = TileImage.ofNat n := by
  have htag : field (2 ^ liveAt + n) tagAt 4 = field n tagAt 4 := field_add_high (by decide) n
  rw [TileImage.ofNat, TileImage.ofNat, ofNat_add_high (by decide), ofNat_field_add_high (by decide), htag]

/-- What a `tld` assembles from its bytes. -/
theorem assembled_tile (s : State) (v : TileRef) (us : List TileUnit) :
    TileImage.ofNat (assemble (2 ^ liveAt + v.blog * 2 ^ tagAt) (tilePieces v us)
      ((tilePieces v us).map fun p => viewByte s (whoTh s) p.loc)) = loadedTile s v us := by
  have htag : tagAt = 36864 := rfl
  rw [assemble_eq, addPieces_eq_sum, pieces_sum, add_assoc, tileImage_ofNat_live, htag, loadedTile]

/-- The bytes of a store, unit by unit. -/
theorem tileCells_eq_tileStore (v : TileRef) (img : TileImage) (us : List TileUnit) : tileCells v img us = tileStore v img us := by
  refine List.map_congr_left fun u _ => ?_
  have hat : scaleAt = 32768 := rfl
  rw [hat, ← tileNat, wbytes_leBytes, filterMap_range_getElem?, uses_eq_not_unused]
  refine congrArg (List.mapIdx · u.locs) (funext fun j => funext fun l => ?_)
  cases unused v u with
  | true => simp
  | false =>
    rw [Bool.not_false, if_pos rfl, Nat.div_div_eq_div_mul, ← pow_add]
    rfl

/-! ### How `tld` and `tst` end (R162, R163) -/

theorem tileName_eq_tileNamed (s : State) (r : Rt) : tileName s r = tileNamed s r := by
  unfold tileName tileNamed
  cases s.th.t[r] <;> rfl

/-- A user-level thread's effect enters its core's hold buffer (R185). -/
theorem hold_eq_entered {s : State} (h : s.tid < 4096) (e : HeldEffect) (ts : List (ℕ × ℕ)) : s.hold e ts = entered s e ts := by
  have hservice : isService s.tid = false := decide_eq_false (Nat.not_le.2 h)
  rw [State.hold, hservice, if_neg Bool.false_ne_true]
  exact pushHold_self s e ts

theorem heldBy_entered (s : State) (e : HeldEffect) (ts : List (ℕ × ℕ)) :
    heldBy (entered s e ts) (s.tid / 2) = heldBy s (s.tid / 2) ++ [e] := by
  rw [heldBy, entered_hold, if_pos rfl, List.map_append]
  rfl

@[simp] theorem heldBy_retire (s : State) (c : ℕ) : heldBy (retire s) c = heldBy s c := rfl

theorem heldBy_markPend (s : State) (r : DestReg) (c : ℕ) : heldBy (s.markPend r) c = heldBy s c := by
  rw [heldBy, heldBy, State.core, State.core, State.markPend_cores]

section Tld
variable {s : State} {d : Rt} {a : Ra} {tr : Bool} {r c : Rx} {v : TileRef} {o : Opened} {us : List TileUnit}
  (hr : ReadableX s.th r) (hc : ReadableX s.th c) (hv : tileRef s a tr none = .ok v)
  (hus : tileUnits s v tr (xVal s.th r) (xVal s.th c) .load = .ok (o, us))
include hr hc hv hus

theorem execTld_eq : exec (.tld d a tr r c) s = finish s (if o.sideEffect = true
    then heldLoad s (.loadElems (tilePieces v us) (2 ^ liveAt + v.blog * 2 ^ tagAt) (.t d)) [.t d] >>= fun u => .ok (retire u)
    else loadUnits s (us.map fun u => u.locs) >>= fun p =>
      writeTile p.2 d (TileImage.ofNat (assemble (2 ^ liveAt + v.blog * 2 ^ tagAt) (tilePieces v us)
        ((tilePieces v us).map fun q => viewByte p.2 (whoTh p.2) q.loc))) >>= fun u => .ok (retire u)) := by
  have hexec : exec (.tld d a tr r c) s = execTld d a tr r c s := rfl
  rw [hexec, execTld, useX_ok hr, ok_bind, useX_ok hc, ok_bind, hv, ok_bind, Thread.rx_toNat, Thread.rx_toNat, hus]
  rfl

theorem tld_writes {u : State} {vals : List (List Byte)} (hse : o.sideEffect = false)
    (hload : loadUnits s (us.map fun k => k.locs) = .ok (vals, u)) (hfree : TileFree u d) :
    ∃ t, exec (.tld d a tr r c) s = .next t ∧ TileWritten u u.th d (loadedTile u v us) t := by
  obtain ⟨w, hw, hwritten⟩ := writeTile_ok hfree (loadedTile u v us)
  refine ⟨_, ?_, hwritten⟩
  rw [execTld_eq hr hc hv hus, hse, if_neg Bool.false_ne_true, hload, ok_bind]
  dsimp only
  rw [assembled_tile, hw]
  rfl

/-- A load from a side-effect object marks its register and enters the hold buffer (R184, R186). -/
theorem tld_held (hse : o.sideEffect = true) (hcan : CanHold s 1) :
    ∃ t, exec (.tld d a tr r c) s = .next t ∧ t.th.pc = s.th.pc + 4 ∧ t.mem = s.mem ∧ t.th.t = s.th.t
      ∧ (.t d, s.seq) ∈ t.th.pend ∧ (heldBy t (s.tid / 2)).length = (heldBy s (s.tid / 2)).length + 1 := by
  rw [execTld_eq hr hc hv hus, hse, if_pos rfl, heldLoad, needEntries_ok hcan, ok_bind]
  refine ⟨_, rfl, ?_⟩
  rw [List.foldl_cons, List.foldl_nil, hold_eq_entered (by rw [State.markPend_tid]; exact hcan.1)]
  refine ⟨rfl, rfl, rfl, List.mem_cons_self, ?_⟩
  have hheld := heldBy_entered (s.markPend (.t d)) (.loadElems (tilePieces v us) (2 ^ liveAt + v.blog * 2 ^ tagAt) (.t d)) []
  rw [State.markPend_tid, heldBy_markPend] at hheld
  rw [heldBy_retire, hheld]
  exact List.length_append

end Tld

theorem tst_stores {s u : State} {d : Rt} {a : Ra} {tr : Bool} {r c : Rx} {v : TileRef} {o : Opened} {us : List TileUnit}
    (hr : ReadableX s.th r) (hc : ReadableX s.th c) (hd : Readable s.th (.t d))
    (hv : tileRef s a tr (some (tileVal s.th d).tag) = .ok v)
    (hus : tileUnits s v tr (xVal s.th r) (xVal s.th c) .store = .ok (o, us))
    (hstore : storeUnits s (spaceOf v.r) [tileStore v (tileVal s.th d) us]
      (word (((us.flatMap fun k => k.locs.map fun l => l.off)).headD 0)) [tileNamed s d] = .ok u) :
    exec (.tst d a tr r c) s = .next (done u) := by
  have hexec : exec (.tst d a tr r c) s = execTst d a tr r c s := rfl
  rw [← tileCells_eq_tileStore, ← tileName_eq_tileNamed] at hstore
  rw [hexec, execTst, useX_ok hr, ok_bind, useX_ok hc, ok_bind, useT_bind hd, hv, ok_bind, Thread.rx_toNat, Thread.rx_toNat, hus]
  exact congrArg (fun x : Except Stop State => finish s (x >>= fun u => .ok (retire u))) hstore

/-! ### The access units of a block (R159, R162, R317) -/

theorem mapM_getElem? {α β : Type} {f : α → Except Stop β} {l : List α} {bs : List β} (h : l.mapM f = .ok bs) {n : ℕ} {x : α}
    (hx : l[n]? = some x) : ∃ b, bs[n]? = some b ∧ f x = .ok b := by
  induction l generalizing bs n with
  | nil => cases hx
  | cons y l ih =>
    rw [List.mapM_cons] at h
    obtain ⟨b, hb, h⟩ := bind_eq_ok.1 h
    obtain ⟨cs, hcs, h⟩ := bind_eq_ok.1 h
    cases h
    cases n with
    | zero =>
      cases hx
      exact ⟨b, rfl, hb⟩
    | succ n => exact ih hcs hx

/-- The access unit of element, or l6 group, `p` of a block. -/
def globalUnit (s : State) (v : TileRef) (k : ObjRec) (o : Opened) (tr : Bool) (xr xc : ℕ) (acc : Acc) (p : ℕ × ℕ) : Except Stop TileUnit :=
  elemUnit s (whoTh s) o v.r (planeAddr v k (tileCoord tr xr xc p.1 (p.2 * if v.t = .l6 then 4 else 1))) (accessBytes v.t)
    (accessAlign v.t) acc (tileInfo p.1 p.2) >>= fun ls => .ok { locs := ls, pos := 1024 * p.1 + 8 * accessBytes v.t * p.2 }

/-- The elements, or l6 groups, of a tile, row by row. -/
def rowPlaces (n : ℕ) : List (ℕ × ℕ) := (List.range 32).flatMap fun i => (List.range n).map fun c => (i, c)

theorem rowPlaces_eq (n : ℕ) : rowPlaces n = (List.range (32 * n)).map fun e => (e / n, e % n) := flatMap_rows Prod.mk 32 n

theorem rowPlaces_getElem? {n i c : ℕ} (hi : i < 32) (hc : c < n) : (rowPlaces n)[i * n + c]? = some (i, c) := by
  have hlt : i * n + c < 32 * n := by
    have h := Nat.mul_le_mul_right n hi
    rw [Nat.succ_mul] at h
    omega
  have hdiv : (i * n + c) / n = i := by rw [mul_comm, Nat.mul_add_div (by omega), Nat.div_eq_of_lt hc, add_zero]
  have hmod : (i * n + c) % n = c := by rw [mul_comm, Nat.mul_add_mod, Nat.mod_eq_of_lt hc]
  rw [rowPlaces_eq, List.getElem?_map, List.getElem?_range hlt, Option.map_some, hdiv, hmod]

theorem mem_rowPlaces {n : ℕ} {p : ℕ × ℕ} : p ∈ rowPlaces n ↔ ∃ i, i < 32 ∧ ∃ c, c < n ∧ (i, c) = p := by
  simp only [rowPlaces, List.mem_flatMap, List.mem_map, List.mem_range]

theorem globalUnits_plain {s : State} {v : TileRef} {k : ObjRec} {o : Opened} {tr : Bool} {xr xc : ℕ} {acc : Acc} {us : List TileUnit}
    (hscaled : v.scaled = false) (h : globalUnits s v k o tr xr xc acc = .ok us) :
    (rowPlaces (rowUnits v.t)).mapM (globalUnit s v k o tr xr xc acc) = .ok us := by
  rw [globalUnits, hscaled] at h
  obtain ⟨-, -, h⟩ := bind_eq_ok.1 h
  cases hout : outsideElem v k tr xr xc with
  | some p =>
    rw [hout] at h
    cases h
  | none =>
    rw [hout] at h
    obtain ⟨-, -, h⟩ := bind_eq_ok.1 h
    obtain ⟨-, -, h⟩ := bind_eq_ok.1 h
    obtain ⟨data, hdata, h⟩ := bind_eq_ok.1 h
    cases h
    exact hdata

theorem tileUnits_object {s : State} {v : TileRef} {tr : Bool} {xr xc : ℕ} {acc : Acc} {k : ObjRec} {slot : ℕ} {us : List TileUnit}
    (h : tileUnits s v tr xr xc acc = .ok (.object k slot, us)) : globalUnits s v k (.object k slot) tr xr xc acc = .ok us := by
  rw [tileUnits] at h
  cases hopen : openRef s (whoTh s) v.r acc with
  | bad c =>
    rw [hopen] at h
    cases h
  | broken e =>
    rw [hopen] at h
    cases h
  | space =>
    rw [hopen] at h
    obtain ⟨_, -, h⟩ := bind_eq_ok.1 h
    cases h
  | object k' slot' =>
    rw [hopen] at h
    obtain ⟨_, hus, h⟩ := bind_eq_ok.1 h
    cases h
    exact hus

theorem accessBytes_eq (t : Ty) : accessBytes t = elemBytes t := by cases t <;> rfl
theorem accessAlign_eq (t : Ty) : accessAlign t = elemAlign t := by cases t <;> rfl

theorem rowUnits_le (t : Ty) : rowUnits t ≤ 256 := by cases t <;> decide

theorem tileInfo_eq {i c : ℕ} (hi : i < 256) (hc : c < 256) : tileInfo i c = word (256 * i + c) := by
  rw [tileInfo, Nat.mod_eq_of_lt hi, Nat.mod_eq_of_lt hc, mul_comm]
  rfl

theorem planeAddr_eq (v : TileRef) (k : ObjRec) (tr : Bool) (xr xc i c : ℕ) :
    planeAddr v k (tileCoord tr xr xc i (c * if v.t = .l6 then 4 else 1)) = elementAt v k tr xr xc i c := by
  have hstep : (c * if v.t = .l6 then 4 else 1) = if v.t = .l6 then 4 * c else c := by split <;> omega
  rw [hstep]
  cases tr <;> rfl

/-- The units of a block of a global object. -/
theorem tileUnits_global {s : State} {v : TileRef} {k : ObjRec} {slot : ℕ} {tr : Bool} {xr xc : ℕ} {acc : Acc} {us : List TileUnit}
    (hscaled : v.scaled = false) (h : tileUnits s v tr xr xc acc = .ok (.object k slot, us)) :
    us.length = 32 * rowCells v.t ∧ ∀ i c, i < 32 → c < rowCells v.t → ∃ w, us[i * rowCells v.t + c]? = some w
      ∧ w.pos = 1024 * i + 8 * elemBytes v.t * c
      ∧ elemUnit s (whoTh s) (.object k slot) v.r (elementAt v k tr xr xc i c) (elemBytes v.t) (elemAlign v.t) acc
          (word (256 * i + c)) = .ok w.locs := by
  have hmap := globalUnits_plain hscaled (tileUnits_object h)
  have hcells : rowUnits v.t = rowCells v.t := rfl
  rw [hcells] at hmap
  refine ⟨?_, fun i c hi hc => ?_⟩
  · rw [length_of_mapM hmap, rowPlaces_eq, List.length_map, List.length_range]
  · obtain ⟨w, hw, hunit⟩ := mapM_getElem? hmap (rowPlaces_getElem? hi hc)
    obtain ⟨ls, hls, hunit⟩ := bind_eq_ok.1 hunit
    cases hunit
    have hle := rowUnits_le v.t
    rw [planeAddr_eq, accessBytes_eq, accessAlign_eq, tileInfo_eq (by omega) (by omega)] at hls
    exact ⟨_, hw, by rw [accessBytes_eq], hls⟩

/-! ### The access units of an image in a near space (R160, R162) -/

/-- The unit of element `p` of an image at offset `a`. -/
def nearUnit (s : State) (v : TileRef) (a : ℕ) (p : ℕ × ℕ) : TileUnit :=
  { locs := spaceLocs s (refSpace v.r) (a + (128 * p.1 + accessBytes v.t * p.2)) (accessBytes v.t)
    pos := 1024 * p.1 + 8 * accessBytes v.t * p.2 }

theorem accessBytes_mul_rowUnits {t : Ty} (h : t ≠ .l6) : accessBytes t * rowUnits t = 128 := by
  cases t <;> first | rfl | exact absurd rfl h

theorem nearKey_add (s : State) (sp a k : ℕ) : nearKey s sp (a + k) = nearKey s sp a + k := by
  unfold nearKey
  split <;> rw [add_assoc]

/-- The bytes of one unit. -/
theorem placed_nearUnit (s : State) (v : TileRef) (a : ℕ) (p : ℕ × ℕ) (hsp : refSpace v.r = 1 ∨ refSpace v.r = 2) :
    ((nearUnit s v a p).locs.mapIdx fun j l => (l.key, (nearUnit s v a p).pos + 8 * j)) = (List.range (accessBytes v.t)).map fun j =>
      (nearKey s (refSpace v.r) a + (128 * p.1 + accessBytes v.t * p.2 + j), 1024 * p.1 + 8 * accessBytes v.t * p.2 + 8 * j) := by
  refine List.ext_getElem (by simp [nearUnit, spaceLocs]) fun j _ _ => ?_
  simp only [nearUnit, spaceLocs, spaceKey_near hsp, nearKey_add, List.getElem_mapIdx, List.getElem_map, List.getElem_range, add_assoc]

theorem placed_keys (us : List TileUnit) :
    (placed us).map (fun p => (p.1.key, p.2)) = us.flatMap fun u => u.locs.mapIdx fun j l => (l.key, u.pos + 8 * j) := by
  rw [placed, List.map_flatMap]
  exact List.flatMap_congr fun u _ => by rw [filterMap_range_getElem?, map_mapIdx]

/-- An image's units follow one another byte by byte. -/
theorem placed_nearUnits (s : State) (v : TileRef) (a : ℕ) (ht : v.t ≠ .l6) (hsp : refSpace v.r = 1 ∨ refSpace v.r = 2) :
    (placed ((rowPlaces (rowUnits v.t)).map (nearUnit s v a))).map (fun p => (p.1.key, p.2)) =
      (List.range 4096).map fun j => (nearKey s (refSpace v.r) a + j, 8 * j) := by
  have hrow := accessBytes_mul_rowUnits ht
  have hlen : 4096 = accessBytes v.t * (32 * rowUnits v.t) := by rw [Nat.mul_left_comm, hrow]
  rw [placed_keys, rowPlaces_eq, List.map_map, List.flatMap_map, hlen, ← flatMap_range]
  refine List.flatMap_congr fun e _ => (placed_nearUnit s v a _ hsp).trans (List.map_congr_left fun j _ => ?_)
  have hplace : 128 * (e / rowUnits v.t) + accessBytes v.t * (e % rowUnits v.t) = accessBytes v.t * e := by
    rw [← hrow, mul_assoc, ← mul_add, Nat.div_add_mod]
  refine Prod.ext (congrArg (fun n => nearKey s (refSpace v.r) a + (n + j)) hplace) ?_
  dsimp only
  rw [← hplace]
  ring

theorem spaceUnits_near {s : State} {v : TileRef} {xr n : ℕ} (hscaled : v.scaled = false) (ht : v.t ≠ .l6)
    (hn : refOff v.r + 4096 * xr = n) (halign : n % 128 = 0)
    (hfault : ∀ k m, k + m ≤ 4096 → spaceFault s (whoTh s) (refSpace v.r) (n + k) m .load = none)
    (hclean : ∀ k m, k + m ≤ 4096 → Clean s (spaceKey s (refSpace v.r) (n + k)) m) :
    spaceUnits s v xr 0 .load = .ok ((rowPlaces (rowUnits v.t)).map (nearUnit s v n)) := by
  have hwhole : spaceFault s (whoTh s) (refSpace v.r) n 4096 .load = none := hfault 0 4096 (le_refl _)
  have hunits : (rowPlaces (rowUnits v.t)).mapM (fun p : ℕ × ℕ => locateSpace s (whoTh s) (refSpace v.r)
      (n + (128 * p.1 + accessBytes v.t * p.2)) (accessBytes v.t) .load (BitVec.ofNat 64 (n + (128 * p.1 + accessBytes v.t * p.2)))
      (tileInfo p.1 p.2) >>= fun ls => .ok ({ locs := ls, pos := 1024 * p.1 + 8 * accessBytes v.t * p.2 } : TileUnit)) =
      .ok ((rowPlaces (rowUnits v.t)).map (nearUnit s v n)) := mapM_map fun p hp => by
    obtain ⟨i, hi, c, hc, rfl⟩ := mem_rowPlaces.1 hp
    have hrow := (Nat.mul_le_mul_left (accessBytes v.t) hc).trans_eq (accessBytes_mul_rowUnits ht)
    rw [Nat.mul_succ] at hrow
    have hin : 128 * i + accessBytes v.t * c + accessBytes v.t ≤ 4096 := by omega
    exact congrArg (fun x : Except Stop (List Loc) => x >>= fun ls => .ok ({ locs := ls, pos := _ } : TileUnit))
      (locateSpace_clean (st := false) (hfault _ _ hin) (hclean _ _ hin) _ _)
  unfold spaceUnits
  simp only [hscaled, ht, Bool.false_eq_true, if_false, hn, halign, hwhole, beq_self_eq_true, require_true, ok_bind, List.mapM_nil]
  exact (congrArg (fun x : Except Stop (List TileUnit) => x >>= fun us => .ok (us ++ [] ++ [])) hunits).trans
    (by rw [ok_bind, List.append_nil, List.append_nil])

theorem tileUnits_near {s : State} {v : TileRef} {xr n : ℕ} (hs : s.tid < 4096)
    (hsp : spaceOf v.r = 1 ∨ spaceOf v.r = 2) (hscaled : v.scaled = false) (ht : v.t ≠ .l6) (hn : n = refBits v.r 0 44 + 4096 * xr)
    (halign : n % 128 = 0) (hfit : n + 4096 ≤ nearBytes s (spaceOf v.r)) (hclean : Clean s (nearKey s (spaceOf v.r) n) 4096) :
    ∃ us, tileUnits s v false xr 0 .load = .ok (.space, us)
      ∧ (placed us).map (fun p => (p.1.key, p.2)) = (List.range 4096).map fun j => (nearKey s (spaceOf v.r) n + j, 8 * j) := by
  have hspace : refSpace v.r = spaceOf v.r := rfl
  rw [← hspace] at hsp hfit hclean ⊢
  have hfault : ∀ k m, k + m ≤ 4096 → spaceFault s (whoTh s) (refSpace v.r) (n + k) m .load = none := fun k m hk => by
    refine (spaceFault_user (st := false) hs (by omega) (n + k) m).trans ?_
    rw [extentOf_near hsp, if_neg (by omega), if_neg (by simp)]
  have hclean : ∀ k m, k + m ≤ 4096 → Clean s (spaceKey s (refSpace v.r) (n + k)) m := fun k m hk i hi => by
    rw [spaceKey_near hsp, nearKey_add, add_assoc]
    exact hclean (k + i) (by omega)
  have hunits := spaceUnits_near hscaled ht hn.symm halign hfault hclean
  refine ⟨_, ?_, placed_nearUnits s v n ht hsp⟩
  rw [tileUnits, openRef_space (by rw [← hspace]; omega)]
  exact congrArg (fun x : Except Stop (List TileUnit) => x >>= fun us => .ok (Opened.space, us)) hunits

end Sys2Proof.Machine

namespace Sys2Proof.Proofs
open Sys2Proof.Machine Sys2Proof.Safety Sys2Proof.Claims

/-- Settles O35: a load gathers the bytes of its units, a store spreads the tile over them, and the units lie where the reference says. -/
theorem tileMemory : Obligations.TileMemory := by
  refine ⟨fun s u d a tr r c v o us vals hr hc hv hus => ⟨tld_writes hr hc hv hus, tld_held hr hc hv hus⟩,
    fun s u d a tr r c v o us => tst_stores, fun s v k slot tr xr xc acc us _ => tileUnits_global, fun s v xr n hs _ => tileUnits_near hs⟩

end Sys2Proof.Proofs
end

section
/-! SUPPORT. Engines of a quad, and when the head of a hold buffer is released (06 R174 to R177; 09 R247, R248); O37, O47. -/

namespace Sys2Proof.Machine
open Sys2Proof.Safety Sys2Proof.Claims

/-! ### Engines -/

theorem State.setEngine_engine (s : State) (e f : ℕ) (k : Engine) : (s.setEngine e k).engine f = if f = e then k else s.engine f := by
  unfold State.setEngine State.engine
  by_cases hq : f / 2 = e / 2
  · rw [State.setQuad_quad, if_pos hq, hq]
    by_cases hf : f = e
    · subst hf
      rw [if_pos rfl]
      by_cases h : f % 2 = 0 <;> simp [h]
    · rw [if_neg hf]
      by_cases h : e % 2 = 0
      · simp [h, show f % 2 ≠ 0 by omega]
      · simp [h, show f % 2 = 0 by omega]
  · have hf : f ≠ e := fun h => hq (h ▸ rfl)
    simp only [State.setQuad_quad, if_neg hq, if_neg hf]

theorem State.engine_congr {s t : State} (h : t.quads = s.quads) (e : ℕ) : t.engine e = s.engine e := by
  simp only [State.engine, State.quad, h]

/-- What a superseded tile changes in an engine: its late frees only. -/
theorem supersede_engine (s : State) (e f : ℕ) (old : Option Tile) :
    ∃ l, (s.supersede e old).engine f = { s.engine f with late := l } := by
  cases old with
  | none => exact ⟨_, rfl⟩
  | some k =>
    rw [State.supersede, State.setEngine_engine]
    split
    · next h => exact ⟨_, by rw [h]⟩
    · exact ⟨_, rfl⟩

/-! ### Engines that differ on the ring alone -/

/-- The ring's part of an engine taken from another. -/
def Engine.onRing (e r : Engine) : Engine :=
  { e with view := r.view, ring := r.ring, credits := r.credits, slots := r.slots, nextSlot := r.nextSlot, foreign := r.foreign,
           arriving := r.arriving, leaves := r.leaves }

theorem Engine.onRing_self (e : Engine) : e.onRing e = e := rfl

theorem Engine.grant_onRing (e r : Engine) (c : ℕ) : (e.onRing r).grant c = (e.grant c).onRing r := by
  have hnext : (e.onRing r).next? c = e.next? c := rfl
  unfold Engine.grant
  rw [hnext]
  cases e.next? c <;> rfl

theorem Engine.grants_onRing (n : ℕ) (e r : Engine) (c : ℕ) : (e.onRing r).grants n c = (e.grants n c).onRing r := by
  induction n generalizing e with
  | zero => rfl
  | succ n ih => rw [Engine.grants, Engine.grant_onRing, ih, Engine.grants]

theorem Engine.gather_onRing (e r : Engine) (c n : ℕ) : (e.onRing r).gather c n = (e.gather c n).onRing r := by
  have hnext : (e.onRing r).next? c = e.next? c := rfl
  have hwait : (e.onRing r).waiters c = e.waiters c := rfl
  have hlate : (e.onRing r).late = e.late := rfl
  have hgrant : (e.onRing r).granted c = e.granted c := rfl
  unfold Engine.gather
  rw [hnext, hwait, hlate, hgrant]
  cases e.next? c with
  | none => rfl
  | some w =>
    dsimp only
    split
    · split <;> rfl
    · rfl

theorem Engine.take_onRing (e r : Engine) (t c n : ℕ) : (e.onRing r).take t c n = (e.take t c n).onRing r := by
  have hsnap : (e.onRing r).noteSnap c n = (e.noteSnap c n).onRing r := by
    have h : (e.onRing r).snap = e.snap := rfl
    unfold Engine.noteSnap
    rw [h]
    split <;> rfl
  unfold Engine.take
  rw [hsnap]
  rfl

/-- Two states whose engine differs on the ring alone, with the same tile registers. -/
structure RingApart (s t : State) (e : ℕ) (r : Engine) : Prop where
  engine : t.engine e = (s.engine e).onRing r
  tiles : ∀ n, (t.thread n).t = (s.thread n).t
  cycle : t.cycle = s.cycle

section Apart
variable {s t : State} {e : ℕ} {r : Engine} (h : RingApart s t e r)
include h

theorem RingApart.freeTiles_eq : freeTiles t e = freeTiles s e := by
  unfold freeTiles liveTiles
  simp only [h.tiles, h.engine]
  rfl

theorem RingApart.grantTiles_eq : grantTiles t e = (grantTiles s e).onRing r := by
  unfold grantTiles
  rw [h.freeTiles_eq, h.engine, h.cycle]
  dsimp only
  rw [Engine.grants_onRing, Engine.gather_onRing]
  rfl

theorem RingApart.tilesFor_eq (n : ℕ) : tilesFor t e n = tilesFor s e n := by
  unfold tilesFor
  rw [h.freeTiles_eq, h.grantTiles_eq, h.cycle]
  rfl

end Apart

/-- A tile written in a state that differs from one with a free tile on the ring alone. -/
theorem RingApart.writeTile_ok {s t : State} {d : Rt} {r : Engine} (h : RingApart s t (tileEngine s d) r) (htid : t.tid = s.tid)
    (hfree : TileFree s d) (img : TileImage) :
    ∃ u k, writeTile t d img = .ok u ∧ (∃ p ∈ freeTiles s (tileEngine s d), u.th = putT t.th d img p) ∧ u.mem = t.mem
      ∧ u.cores = t.cores ∧ u.engine (tileEngine s d) = Engine.onRing k r := by
  have heng : tileEngine t d = tileEngine s d := by rw [tileEngine, tileEngine, htid]
  have hwrite : writeTile t d img = needTiles t (tileEngine t d) 1 >>= fun _ => .ok
      (((withThread t (putT t.th d img ((freeTiles t (tileEngine t d)).headD 0))).setEngine (tileEngine t d)
        ((grantTiles t (tileEngine t d)).take t.tid t.cycle (freeTiles t (tileEngine t d)).length)).supersede
          (tileEngine t d) t.th.t[d]) := rfl
  have hneed : needTiles t (tileEngine s d) 1 = .ok () := by
    rw [needTiles, h.tilesFor_eq, htid]
    exact if_pos hfree
  rw [heng, hneed, ok_bind, h.freeTiles_eq, h.grantTiles_eq, Engine.take_onRing] at hwrite
  obtain ⟨l, hl⟩ := supersede_engine ((withThread t (putT t.th d img ((freeTiles s (tileEngine s d)).headD 0))).setEngine
    (tileEngine s d) (((grantTiles s (tileEngine s d)).take t.tid t.cycle (freeTiles s (tileEngine s d)).length).onRing r))
    (tileEngine s d) (tileEngine s d) t.th.t[d]
  rw [State.setEngine_engine, if_pos rfl] at hl
  refine ⟨_, { (grantTiles s (tileEngine s d)).take t.tid t.cycle (freeTiles s (tileEngine s d)).length with late := l }, hwrite,
    ⟨_, exists_free_tile hfree, ?_⟩, ?_, ?_, hl⟩
  · rw [State.supersede_th, State.setEngine_th, withThread_th]
  · rw [State.supersede_mem, State.setEngine_mem, withThread_mem]
  · rw [State.supersede_cores, State.setEngine_cores]
    rfl

/-! ### The current thread's ring effects -/

theorem entered_engine (s : State) (x : HeldEffect) (ts : List (ℕ × ℕ)) (e : ℕ) : (entered s x ts).engine e = s.engine e :=
  State.engine_congr rfl e

theorem heldBy_setEngine (s : State) (e c : ℕ) (k : Engine) : heldBy (s.setEngine e k) c = heldBy s c := by
  rw [heldBy, heldBy, State.core, State.core, State.setEngine_cores]

theorem heldBy_congr {s t : State} (h : t.cores = s.cores) (c : ℕ) : heldBy t c = heldBy s c := by
  rw [heldBy, heldBy, State.core, State.core, h]

theorem thread_tiles_of {s t : State} (htid : t.tid = s.tid) (hparked : t.parked = s.parked) (ht : t.th.t = s.th.t) (n : ℕ) :
    (t.thread n).t = (s.thread n).t := by
  unfold State.thread
  rw [htid, hparked]
  split
  · exact ht
  · rfl

/-- The ring's part of an engine changed, and an effect held. -/
theorem ringApart_entered (s : State) (e : ℕ) (r : Engine) (h : r = (s.engine e).onRing r) (x : HeldEffect) (ts : List (ℕ × ℕ)) :
    RingApart s (entered (s.setEngine e r) x ts) e r where
  engine := by rw [entered_engine, State.setEngine_engine, if_pos rfl, ← h]
  tiles := thread_tiles_of rfl rfl rfl
  cycle := rfl

theorem RingApart.trans {s t u : State} {e : ℕ} {q r : Engine} (h : RingApart s t e q) (k : RingApart t u e r) : RingApart s u e r where
  engine := by
    rw [k.engine, h.engine]
    rfl
  tiles n := (k.tiles n).trans (h.tiles n)
  cycle := k.cycle.trans h.cycle

theorem joinedHere_iff {s : State} {e : ℕ} : joinedHere s e = true ↔ Claims.Joined s e := by
  unfold joinedHere Claims.Joined
  cases (s.engine e).view <;> simp

theorem view_other_iff {s : State} {e : ℕ} : ((s.engine e).view.any fun j => j.owner != s.tid) = true ↔ JoinedByOther s e := by
  unfold JoinedByOther
  cases (s.engine e).view <;> simp

theorem ringReady_ok {s : State} {e : ℕ} (hj : Claims.Joined s e) (hr : JoinReleased s e) : ringReady s e = .ok () := by
  have hnone : ((pendingJoins s e).any fun p => p.1 == s.tid) = false := by
    simp only [List.any_eq_false, beq_iff_eq]
    exact hr
  rw [ringReady, joinedHere_iff.2 hj, hnone]
  rfl

/-! ### When the head of a hold buffer is due (R248) -/

theorem not_waitingAtBanks {s : State} {p : OutsideWrite → Bool} (h : ∀ k ∈ s.quads, ∀ o ∈ k.2.outside, o.copy = none → p o = false) :
    waitingAtBanks s p = false := by
  unfold waitingAtBanks
  rw [List.any_eq_false]
  intro k hk
  rw [Bool.not_eq_true, List.any_eq_false]
  intro o ho hp
  rw [Bool.and_eq_true, Option.isNone_iff_eq_none] at hp
  rw [h k hk o ho hp.1] at hp
  exact Bool.false_ne_true hp.2

theorem performedBelow_of_clear {s : State} {q n : ℕ} (h : QuadClear s q n) : performedBelow s q n = true := by
  obtain ⟨hheld, hbanks⟩ := h
  rw [performedBelow, Bool.and_eq_true, Bool.not_eq_true', not_waitingAtBanks]
  · refine ⟨?_, rfl⟩
    simp only [List.all_eq_true, List.mem_range, decide_eq_true_eq]
    exact hheld
  · intro k hk o ho hcopy
    by_cases hq : o.core / 4 = q
    · simp [Nat.not_lt.2 (hbanks k hk o ho hcopy hq)]
    · simp [quadOfCore, hq]

theorem ownVisible_of {s : State} {q n : ℕ} (h : OwnVisible s q n) : ownVisible s q n = true := by
  have hold : ∀ j : List JournalByte, (∀ e ∈ j, n < e.seq ∨ e.cycle + 128 < s.cycle) →
      (j.all fun e => decide (n < e.seq) || !recent s.cycle e) = true := fun j hj => by
    rw [List.all_eq_true]
    intro e he
    have hrecent : recent s.cycle e = decide (s.cycle ≤ e.cycle + 128) := rfl
    rcases hj e he with h | h
    · rw [decide_eq_true h, Bool.true_or]
    · rw [hrecent, decide_eq_false (Nat.not_le.2 h), Bool.not_false, Bool.or_true]
  refine Bool.and_eq_true_iff.2 ⟨hold _ h.1, List.all_eq_true.2 fun i hi => hold _ (h.2 i (List.mem_range.1 hi))⟩

theorem sharesByte_iff {as bs : List Loc} : sharesByte as bs = true ↔ ∃ l ∈ as, ∃ m ∈ bs, Loc.key l = Loc.key m := by
  simp only [sharesByte, List.any_eq_true, beq_iff_eq]

theorem conflicts_iff {a b : HeldEffect} : a.conflicts b = true ↔ Clash a b := by
  rw [HeldEffect.conflicts, Bool.or_eq_true, sharesByte_iff, sharesByte_iff, Clash]

theorem not_olderConflict {s : State} {core : ℕ} {e : HoldEntry} (h : ∀ f, OlderEffect s (core / 4) e.seq f → ¬Clash e.effect f) :
    olderConflict s core e = false := by
  rw [olderConflict, Bool.or_eq_false_iff, not_waitingAtBanks]
  · refine ⟨?_, rfl⟩
    simp only [List.any_eq_false, List.any_eq_true, List.mem_range, not_exists, not_and, Bool.and_eq_true, decide_eq_true_eq,
      conflicts_iff]
    exact fun i hi f hf hlt => h _ (.inl ⟨i, hi, f, hf, hlt, rfl⟩)
  · intro k hk o ho hcopy
    by_contra hne
    simp only [Bool.not_eq_false, Bool.and_eq_true, beq_iff_eq, decide_eq_true_eq, conflicts_iff] at hne
    exact h _ (.inr ⟨k, hk, o, ho, hcopy, hne.1.1, hne.1.2, rfl⟩) hne.2

theorem not_olderAtEndpoint {s : State} {core : ℕ} {e : HoldEntry}
    (h : ∀ n, e.effect.endpoint = some n → (∀ i, i < 4 → ∀ f ∈ (s.core (4 * (core / 4) + i)).hold, f.seq < e.seq → f.effect.endpoint ≠ some n)
      ∧ ∀ l ∈ (s.engine n).leaves, e.seq ≤ l.2.1) : olderAtEndpoint s core e = false := by
  unfold olderAtEndpoint
  cases hend : e.effect.endpoint with
  | none => rfl
  | some n =>
    obtain ⟨hheld, hleaves⟩ := h n hend
    rw [Option.any_some, Bool.or_eq_false_iff]
    constructor
    · simp only [heldAtEndpoint, List.any_eq_false, List.any_eq_true, List.mem_range, not_exists, not_and, Bool.and_eq_true,
        decide_eq_true_eq, beq_iff_eq]
      exact hheld
    · simp only [List.any_eq_false, decide_eq_true_eq, Nat.not_lt]
      exact hleaves

theorem headDue_of_due {s : State} {core : ℕ} {e : HoldEntry} (h : Due s core e) : headDue s core e = true := by
  obtain ⟨hwindow, hidle, hafter, hacq, hclash, hend, htq⟩ := h
  have hwin : decide (e.cycle + Config.holdWindow ≤ s.cycle) = true := decide_eq_true hwindow
  have hphase : ((s.quad (quadOfCore core)).phase == .idle) = true := beq_iff_eq.2 hidle
  have hrel : (e.after == 0 || (performedBelow s (quadOfCore core) e.after && ownVisible s (quadOfCore core) e.seq)) = true := by
    by_cases h0 : e.after = 0
    · rw [h0]
      rfl
    · obtain ⟨hclear, hown⟩ := hafter h0
      have hq : quadOfCore core = core / 4 := rfl
      rw [hq, performedBelow_of_clear hclear, ownVisible_of hown, Bool.and_self, Bool.or_true]
  have hwait : (waitingAtBanks s fun o => o.tid == e.tid && decide (o.seq < e.acq) && o.effect.isRequest) = false :=
    not_waitingAtBanks fun k hk o ho hcopy => by
      by_contra hne
      simp only [Bool.not_eq_false, Bool.and_eq_true, beq_iff_eq, decide_eq_true_eq] at hne
      rw [hacq k hk o ho hcopy hne.1.1 hne.1.2] at hne
      exact Bool.false_ne_true hne.2
  have htasks : (e.effect == .tqdone && (s.thread e.tid).tq.any fun n => decide (n < e.seq)) = false := by
    by_cases hdone : e.effect = .tqdone
    · have hnone : ((s.thread e.tid).tq.any fun n => decide (n < e.seq)) = false := by
        simp only [List.any_eq_false, decide_eq_true_eq, Nat.not_lt]
        exact htq hdone
      rw [hnone, Bool.and_false]
    · rw [beq_false_of_ne hdone, Bool.false_and]
  rw [headDue, hwin, hphase, hrel, hwait, not_olderConflict hclash, not_olderAtEndpoint hend, htasks]
  rfl

/-- The head that is due is released with what its effect does, where the effect leaves the hold buffer. -/
theorem releaseHead_of_atHead {s u : State} {core : ℕ} {e : HoldEntry} {rest : List HoldEntry} (h : AtHead s core e rest)
    (hu : performEffect s core e.seq e.tid e.effect = some u) (hold : (u.core core).hold = (s.core core).hold) :
    ReleasedTo s (u.setCore core { u.core core with hold := rest, released := some s.cycle }) core rest := by
  obtain ⟨hhead, hseq, hdue, hlimit⟩ := h
  have hrest : (u.core core).hold.filter (fun f => f.seq != e.seq) = rest := by
    rw [hold, hhead, List.filter_cons_of_neg (by simp)]
    exact List.filter_eq_self.2 fun f hf => bne_iff_ne.2 (hseq f hf)
  refine ⟨?_, by rw [State.setCore_core, if_pos rfl], by rw [State.setCore_core, if_pos rfl]⟩
  rw [releaseHead, hhead]
  dsimp only
  rw [headDue_of_due hdue, hlimit, if_pos rfl, if_pos rfl, if_neg (by simp), if_neg (Nat.not_lt_zero _), hu, ← hrest]

end Sys2Proof.Machine
end

section
/-! SUPPORT. The instructions of the baton ring, and what their effects do at release (06 R174 to R178); O37. -/

namespace Sys2Proof.Machine
open Sys2Proof.Safety Sys2Proof.Claims

/-! ### Joins and leaves (R176) -/

theorem joinable_iff {s : State} {e : ℕ} {x : Word} : joinable s e x = true ↔ RingMask s e x.toNat ∧ ¬JoinedByOther s e := by
  have hlow : bits x 16 48 = 0 ↔ x.toNat < 2 ^ 16 := by
    have h : bits x 16 48 = x.toNat / 2 ^ 16 % 2 ^ 48 := rfl
    have hx := x.isLt
    rw [h]
    omega
  have hview : ((s.engine e).view.all fun j => j.owner == s.tid) = true ↔ ¬JoinedByOther s e := by
    rw [← view_other_iff]
    cases (s.engine e).view <;> simp
  have hgang : ∀ m, maskInGang s e m = true ↔ ∃ g, s.gangs.get? s.th.gang = some g ∧ ∀ p, p < 16 → m.testBit p = true →
      ∃ c ∈ g.cores, c / 4 = (e / 16 * 16 + p) / 2 := fun m => by
    have hgang? : s.gang? = s.gangs.get? s.th.gang := rfl
    unfold maskInGang
    rw [hgang?]
    cases s.gangs.get? s.th.gang with
    | none => simp
    | some g =>
      simp only [List.all_eq_true, List.mem_range, Bool.or_eq_true, Bool.not_eq_true', List.any_eq_true, beq_iff_eq,
        Option.some.injEq, exists_eq_left', ringEngine, quadOfCore, ← Bool.not_eq_true, or_iff_not_imp_left, not_not]
  unfold joinable RingMask
  simp only [Bool.and_eq_true, beq_iff_eq, hlow, decide_eq_true_eq, hgang, hview]
  constructor
  · rintro ⟨⟨⟨⟨hx, hpos⟩, htwo⟩, hg⟩, hother⟩
    have hmask : bits x 0 16 = x.toNat := (congrArg (· % 2 ^ 16) (Nat.div_one _)).trans (Nat.mod_eq_of_lt hx)
    rw [hmask] at hpos htwo hg
    exact ⟨⟨hx, hpos, htwo, hg⟩, hother⟩
  · rintro ⟨⟨hx, hpos, htwo, hg⟩, hother⟩
    have hmask : bits x 0 16 = x.toNat := (congrArg (· % 2 ^ 16) (Nat.div_one _)).trans (Nat.mod_eq_of_lt hx)
    rw [hmask]
    exact ⟨⟨⟨⟨hx, hpos⟩, htwo⟩, hg⟩, hother⟩

/-- A join or leave that is held. -/
theorem changeJoin_retires {s : State} (hs : s.tid < 4096) (e : ℕ) (j : Option Join) (d : Rx) :
    (retire ((changeJoin s e j).wx d 0)).th = goNext (putX { s.th with relMark := none } d 0)
      ∧ (retire ((changeJoin s e j).wx d 0)).mem = s.mem
      ∧ ((retire ((changeJoin s e j).wx d 0)).engine e).view = j
      ∧ ((retire ((changeJoin s e j).wx d 0)).engine e).ring = (s.engine e).ring
      ∧ heldBy (retire ((changeJoin s e j).wx d 0)) (s.tid / 2) = heldBy s (s.tid / 2) ++ [.ringJoin e j] := by
  have hchange : changeJoin s e j = entered (s.setEngine e { s.engine e with view := j }) (.ringJoin e j) [] :=
    hold_eq_entered (s := s.setEngine e { s.engine e with view := j }) hs _ _
  have hengine : (retire ((changeJoin s e j).wx d 0)).engine e = { s.engine e with view := j } := by
    refine (State.engine_congr (s := changeJoin s e j) rfl e).trans ?_
    rw [hchange, entered_engine, State.setEngine_engine, if_pos rfl]
  rw [hengine]
  refine ⟨?_, ?_, rfl, rfl, ?_⟩
  · rw [hchange]
    rfl
  · rw [hchange]
    rfl
  · refine (heldBy_congr (s := changeJoin s e j) rfl _).trans ?_
    rw [hchange]
    exact (heldBy_entered _ _ _).trans (congrArg (· ++ _) (heldBy_setEngine ..))

theorem not_joinable {s : State} {th : Rt} {a : Rx} (h : ¬RingMask s (tileEngine s th) (xVal s.th a) ∨ JoinedByOther s (tileEngine s th)) :
    ¬joinable s (tileEngine s th) (s.th.rx a) = true := by
  rw [joinable_iff, Thread.rx_toNat]
  rintro ⟨hmask, hother⟩
  rcases h with h | h
  · exact h hmask
  · exact hother h

theorem rx_eq_zero_iff {s : State} {a : Rx} : s.th.rx a = 0 ↔ xVal s.th a = 0 := by
  rw [← Thread.rx_toNat, BitVec.toNat_eq]
  rfl

theorem not_ringMask_zero {s : State} {e : ℕ} : ¬RingMask s e 0 := fun ⟨_, hpos, _⟩ => by
  rw [Nat.zero_testBit] at hpos
  cases hpos

section Trjoin
variable {s : State} {th : Rt} {a d : Rx} (ha : ReadableX s.th a)
include ha

theorem execTrjoin_eq : exec (.trjoin th a d) s = finish s (
    if joinable s (tileEngine s th) (s.th.rx a) then needEntries s 1 >>= fun _ =>
      .ok (retire ((changeJoin s (tileEngine s th) (some { owner := s.tid, mask := bits (s.th.rx a) 0 16 })).wx d 0))
    else if s.th.rx a = 0 then
      if joinedHere s (tileEngine s th) then needEntries s 1 >>= fun _ => .ok (retire ((changeJoin s (tileEngine s th) none).wx d 0))
      else .ok (retire (s.wx d 0))
    else if (s.engine (tileEngine s th)).view.any fun j => j.owner != s.tid then .ok (retire (s.wx d 1))
    else .ok (retire (s.wx d 2))) := by
  have hexec : exec (.trjoin th a d) s = execTrjoin th a d s := rfl
  rw [hexec, execTrjoin, useX_ok ha]
  rfl

theorem trjoin_result {e : ℕ} (he : e = tileEngine s th) :
    (RingMask s e (xVal s.th a) → ¬JoinedByOther s e → CanHold s 1 →
      ∃ t, exec (.trjoin th a d) s = .next t ∧ t.th = goNext (putX { s.th with relMark := none } d 0) ∧ t.mem = s.mem
        ∧ (t.engine e).view = some ⟨s.tid, xVal s.th a⟩ ∧ (t.engine e).ring = (s.engine e).ring
        ∧ heldBy t (s.tid / 2) = heldBy s (s.tid / 2) ++ [.ringJoin e (some ⟨s.tid, xVal s.th a⟩)])
    ∧ (xVal s.th a = 0 → Claims.Joined s e → CanHold s 1 →
      ∃ t, exec (.trjoin th a d) s = .next t ∧ t.th = goNext (putX { s.th with relMark := none } d 0) ∧ t.mem = s.mem
        ∧ (t.engine e).view = none ∧ (t.engine e).ring = (s.engine e).ring
        ∧ heldBy t (s.tid / 2) = heldBy s (s.tid / 2) ++ [.ringJoin e none])
    ∧ (xVal s.th a = 0 → ¬Claims.Joined s e → exec (.trjoin th a d) s = .next (withThread s (goNext (putX s.th d 0))))
    ∧ (xVal s.th a ≠ 0 → JoinedByOther s e → exec (.trjoin th a d) s = .next (withThread s (goNext (putX s.th d 1))))
    ∧ (xVal s.th a ≠ 0 → ¬RingMask s e (xVal s.th a) → ¬JoinedByOther s e →
      exec (.trjoin th a d) s = .next (withThread s (goNext (putX s.th d 2)))) := by
  subst he
  rw [execTrjoin_eq ha]
  refine ⟨fun hmask hother hcan => ?join, fun h0 hj hcan => ?leave, fun h0 hj => ?nothing, fun h0 hother => ?other,
    fun h0 hmask hother => ?refused⟩
  case join =>
    have hbits : bits (s.th.rx a) 0 16 = xVal s.th a := by
      rw [← Thread.rx_toNat] at hmask ⊢
      exact (congrArg (· % 2 ^ 16) (Nat.div_one _)).trans (Nat.mod_eq_of_lt hmask.1)
    rw [if_pos (joinable_iff.2 ⟨by rwa [Thread.rx_toNat], hother⟩), needEntries_ok hcan, hbits]
    exact ⟨_, rfl, changeJoin_retires hcan.1 ..⟩
  case leave =>
    rw [if_neg (not_joinable (.inl (h0 ▸ not_ringMask_zero))), if_pos (rx_eq_zero_iff.2 h0), if_pos (joinedHere_iff.2 hj),
      needEntries_ok hcan]
    exact ⟨_, rfl, changeJoin_retires hcan.1 ..⟩
  case nothing =>
    rw [if_neg (not_joinable (.inl (h0 ▸ not_ringMask_zero))), if_pos (rx_eq_zero_iff.2 h0),
      if_neg fun h => hj (joinedHere_iff.1 h)]
    rfl
  case other =>
    rw [if_neg (not_joinable (.inr hother)), if_neg fun h => h0 (rx_eq_zero_iff.1 h), if_pos (view_other_iff.2 hother)]
    rfl
  case refused =>
    rw [if_neg (not_joinable (.inl hmask)), if_neg fun h => h0 (rx_eq_zero_iff.1 h),
      if_neg fun h => hother (view_other_iff.1 h)]
    rfl

end Trjoin

/-! ### The word of `trstat` (R178) -/

theorem trstat_result {s : State} {th : Rt} {d : Rx} {e foreign joined : ℕ} (he : e = tileEngine s th)
    (hforeign : foreign = if (s.engine e).foreign then 1 else 0) (hjoined : Claims.Joined s e → joined = 1)
    (hnot : ¬Claims.Joined s e → joined = 0) :
    exec (.trstat th d) s = .next (withThread s (goNext (putX s.th d (word (e % 16 * 2 ^ 20 + foreign * 2 ^ 19 + joined * 2 ^ 18
      + (s.engine e).credits * 2 ^ 8 + ((s.engine e).slots.filter fun k => !k.consumed).length))))) := by
  subst he
  have hf : (if (s.engine (tileEngine s th)).foreign then 2 ^ 19 else 0) = foreign * 2 ^ 19 := by
    rw [hforeign]
    split <;> rfl
  have hj : (if joinedHere s (tileEngine s th) then 2 ^ 18 else 0) = joined * 2 ^ 18 := by
    by_cases h : Claims.Joined s (tileEngine s th)
    · rw [if_pos (joinedHere_iff.2 h), hjoined h, Nat.one_mul]
    · rw [if_neg fun k => h (joinedHere_iff.1 k), hnot h, Nat.zero_mul]
  have hword : trstatWord s (tileEngine s th) = word (tileEngine s th % 16 * 2 ^ 20 + foreign * 2 ^ 19 + joined * 2 ^ 18
      + (s.engine (tileEngine s th)).credits * 2 ^ 8 + ((s.engine (tileEngine s th)).slots.filter fun k => !k.consumed).length) := by
    rw [trstatWord, hf, hj]
    rfl
  rw [← hword]
  rfl

/-! ### Sends and receives (R177) -/

/-- A send takes a credit and holds its copy. -/
theorem send_eq {s : State} (hs : s.tid < 4096) (e : ℕ) (a : Rt) (img : TileImage) : ∃ ts,
    send s e a img = entered (s.setEngine e { s.engine e with credits := (s.engine e).credits - 1 }) (.ringSend e img) ts :=
  ⟨_, hold_eq_entered (s := s.setEngine e { s.engine e with credits := (s.engine e).credits - 1 }) hs _ _⟩

theorem heldBy_ringEntered (s : State) (e : ℕ) (r : Engine) (x : HeldEffect) (ts : List (ℕ × ℕ)) :
    heldBy (entered (s.setEngine e r) x ts) (s.tid / 2) = heldBy s (s.tid / 2) ++ [x] :=
  (heldBy_entered _ _ _).trans (congrArg (· ++ _) (heldBy_setEngine ..))

/-- The slots of an endpoint once the tile of one has been received. -/
def consumedSlots (k : RingSlot) (slots : List RingSlot) : List RingSlot :=
  slots.map fun f => if f.num = k.num then { f with consumed := true } else f

/-- A receive, in a state that differs from one with a free tile on the ring alone. -/
theorem receive_ok {s t : State} {d : Rt} {r : Engine} {k : RingSlot} (h : RingApart s t (tileEngine s d) r) (htid : t.tid = s.tid)
    (hs : s.tid < 4096) (hk : Oldest t (tileEngine s d) k) (hfree : TileFree s d) :
    ∃ u, receive t (tileEngine s d) d = .ok u ∧ u.mem = t.mem
      ∧ (∃ p ∈ freeTiles s (tileEngine s d), u.th = putT { t.th with relMark := none } d k.img p)
      ∧ (u.engine (tileEngine s d)).credits = (t.engine (tileEngine s d)).credits
      ∧ (u.engine (tileEngine s d)).slots = consumedSlots k (t.engine (tileEngine s d)).slots
      ∧ heldBy u (t.tid / 2) = heldBy t (t.tid / 2) ++ [.ringCredit (tileEngine s d) k.num] := by
  have heq : receive t (tileEngine s d) d = writeTile (entered (t.setEngine (tileEngine s d)
      { t.engine (tileEngine s d) with slots := consumedSlots k (t.engine (tileEngine s d)).slots })
      (.ringCredit (tileEngine s d) k.num) []) d k.img := by
    have hold : oldestTile t (tileEngine s d) = some k := hk
    rw [receive, hold]
    exact congrArg (writeTile · d k.img) (hold_eq_entered (s := t.setEngine (tileEngine s d)
      { t.engine (tileEngine s d) with slots := consumedSlots k (t.engine (tileEngine s d)).slots }) (htid ▸ hs) _ _)
  obtain ⟨u, m, hu, hth, hmem, hcores, heng⟩ := (h.trans (ringApart_entered t (tileEngine s d)
    { t.engine (tileEngine s d) with slots := consumedSlots k (t.engine (tileEngine s d)).slots } rfl
    (.ringCredit (tileEngine s d) k.num) [])).writeTile_ok htid hfree k.img
  refine ⟨u, heq.trans hu, hmem, hth, by rw [heng]; rfl, by rw [heng]; rfl, ?_⟩
  rw [heldBy_congr hcores, heldBy_ringEntered]

theorem ringApart_refl (s : State) (e : ℕ) : RingApart s s e (s.engine e) := ⟨rfl, fun _ => rfl, rfl⟩

theorem retire_engine (s : State) (e : ℕ) : (retire s).engine e = s.engine e := State.engine_congr rfl e

theorem await_pos {n : ℕ} (h : 0 < n) : await (decide (0 < n)) = .ok () := by
  rw [decide_eq_true h]
  rfl

theorem tringS_result {s : State} {a : Rt} {e : ℕ} (he : e = tileEngine s a) (hj : Claims.Joined s e) (hr : JoinReleased s e)
    (ha : Readable s.th (.t a)) (hcredit : 0 < (s.engine e).credits) (hcan : CanHold s 1) :
    ∃ t, exec (.tringS a) s = .next t ∧ t.th = goNext { s.th with relMark := none } ∧ t.mem = s.mem
      ∧ (t.engine e).credits = (s.engine e).credits - 1
      ∧ heldBy t (s.tid / 2) = heldBy s (s.tid / 2) ++ [.ringSend e (tileVal s.th a)] := by
  obtain ⟨ts, hsend⟩ := send_eq hcan.1 e a (tileVal s.th a)
  have hexec : exec (.tringS a) s = finish s (ringReady s e >>= fun _ => useT s a >>= fun img =>
      await (decide (0 < (s.engine e).credits)) >>= fun _ => needEntries s 1 >>= fun _ => .ok (retire (send s e a img))) := by
    rw [he]
    rfl
  rw [hexec, ringReady_ok hj hr, ok_bind, useT_bind ha, await_pos hcredit, ok_bind, needEntries_ok hcan, ok_bind, hsend]
  refine ⟨_, rfl, rfl, rfl, ?_, heldBy_ringEntered ..⟩
  rw [retire_engine, entered_engine, State.setEngine_engine, if_pos rfl]

theorem tringR_result {s : State} {d : Rt} {e : ℕ} {k : RingSlot} (he : e = tileEngine s d) (hj : Claims.Joined s e)
    (hr : JoinReleased s e) (hk : Oldest s e k) (hcan : CanHold s 1) (hfree : TileFree s d) :
    ∃ t, exec (.tringR d) s = .next t ∧ t.mem = s.mem
      ∧ (∃ p ∈ freeTiles s e, t.th = goNext (putT { s.th with relMark := none } d k.img p))
      ∧ (t.engine e).slots = (s.engine e).slots.map (fun f => if f.num = k.num then { f with consumed := true } else f)
      ∧ heldBy t (s.tid / 2) = heldBy s (s.tid / 2) ++ [.ringCredit e k.num] := by
  subst he
  obtain ⟨u, hu, hmem, ⟨p, hp, hth⟩, -, hslots, hheld⟩ := receive_ok (ringApart_refl s _) rfl hcan.1 hk hfree
  have hold : oldestTile s (tileEngine s d) = some k := hk
  have hexec : exec (.tringR d) s = finish s (ringReady s (tileEngine s d) >>= fun _ =>
      await (oldestTile s (tileEngine s d)).isSome >>= fun _ => needEntries s 1 >>= fun _ =>
      receive s (tileEngine s d) d >>= fun u => .ok (retire u)) := rfl
  rw [hexec, ringReady_ok hj hr, ok_bind, hold, needEntries_ok hcan, hu]
  exact ⟨_, rfl, hmem, ⟨p, hp, congrArg goNext hth⟩, hslots, hheld⟩

theorem tring_result {s : State} {d a : Rt} {e : ℕ} {k : RingSlot} (hwf : (Instr.tring d a).wf = true) (he : e = tileEngine s a)
    (hj : Claims.Joined s e) (hr : JoinReleased s e) (ha : Readable s.th (.t a)) (hk : Oldest s e k)
    (hcredit : 0 < (s.engine e).credits) (hcan : CanHold s 2) (hfree : TileFree s d) :
    ∃ t, exec (.tring d a) s = .next t ∧ t.mem = s.mem
      ∧ (∃ p ∈ freeTiles s e, t.th = goNext (putT { s.th with relMark := none } d k.img p))
      ∧ (t.engine e).credits = (s.engine e).credits - 1
      ∧ (t.engine e).slots = (s.engine e).slots.map (fun f => if f.num = k.num then { f with consumed := true } else f)
      ∧ heldBy t (s.tid / 2) = heldBy s (s.tid / 2) ++ [.ringSend e (tileVal s.th a), .ringCredit e k.num] := by
  have hhalf : d.val / 8 = a.val / 8 := beq_iff_eq.1 hwf
  have hed : e = tileEngine s d := he.trans (by rw [tileEngine, tileEngine, hhalf])
  have hold : oldestTile s e = some k := hk
  have hexec : exec (.tring d a) s = finish s (ringReady s e >>= fun _ => useT s a >>= fun img =>
      await (oldestTile s e).isSome >>= fun _ => await (decide (0 < (s.engine e).credits)) >>= fun _ =>
      needEntries s 2 >>= fun _ => receive (send s e a img) e d >>= fun u => .ok (retire u)) := by
    rw [he]
    rfl
  rw [hexec, ringReady_ok hj hr, ok_bind, useT_bind ha, hold, await_pos hcredit, needEntries_ok hcan]
  obtain ⟨ts, hsend⟩ := send_eq hcan.1 e a (tileVal s.th a)
  have hapart := ringApart_entered s e { s.engine e with credits := (s.engine e).credits - 1 } rfl (.ringSend e (tileVal s.th a)) ts
  have heng := hapart.engine
  have hheldSend := heldBy_ringEntered s e { s.engine e with credits := (s.engine e).credits - 1 } (.ringSend e (tileVal s.th a)) ts
  rw [← hsend] at hapart heng hheldSend
  have htid : (send s e a (tileVal s.th a)).tid = s.tid := by rw [hsend]; rfl
  have hmem : (send s e a (tileVal s.th a)).mem = s.mem := by rw [hsend]; rfl
  have hth : (send s e a (tileVal s.th a)).th = { s.th with relMark := none } := by rw [hsend]; rfl
  have hk' : Oldest (send s e a (tileVal s.th a)) e k := by
    rw [Oldest, heng]
    exact hk
  generalize send s e a (tileVal s.th a) = w at *
  subst hed
  obtain ⟨u, hu, humem, ⟨p, hp, huth⟩, hcredits, hslots, hheld⟩ := receive_ok hapart htid hcan.1 hk' hfree
  refine ⟨retire u, congrArg (fun x : Except Stop State => finish s (x >>= fun u => .ok (retire u))) hu, humem.trans hmem,
    ⟨p, hp, ?_⟩, ?_, ?_, ?_⟩
  · rw [retire_eq, withThread_th, huth, hth]
  · refine hcredits.trans ?_
    rw [heng]
    rfl
  · refine hslots.trans ?_
    rw [heng]
    rfl
  · rw [htid] at hheld
    rw [heldBy_retire, hheld, hheldSend, List.append_assoc]
    rfl

/-- A thread that has not joined faults. -/
theorem ring_not_joined {s : State} {i : Instr} {d a : Rt} (hi : i = .tring d a ∨ i = .tringS a ∨ i = .tringR a)
    (hj : ¬Claims.Joined s (tileEngine s a)) (hcan : CanHold s 1) : exec i s = .next (faulted s 0x02 0 0 0 none) := by
  have hready : ringReady s (tileEngine s a) = trapOf 0x02 0 0 := by
    rw [ringReady, Bool.eq_false_iff.2 fun h => hj (joinedHere_iff.1 h)]
    rfl
  have hends : ∀ f : Unit → Except Stop State, finish s (ringReady s (tileEngine s a) >>= f) = .next (faulted s 0x02 0 0 0 none) := fun f => by
    rw [hready]
    exact finish_trapOf hcan _ _ _
  rcases hi with rfl | rfl | rfl
  · exact hends _
  · exact hends _
  · exact hends _

/-! ### What the ring's effects do at their release (R176, R177) -/

theorem ringNext_of_nextSet {mask pos p : ℕ} (h : NextSet mask pos p) : ringNext mask pos = p := by
  obtain ⟨n, hlo, hhi, rfl, hbit, hnone⟩ := h
  have hfind : (List.range 16).find? (fun i => mask.testBit ((pos + 1 + i) % 16)) = some (n - 1) := by
    rw [List.find?_range_eq_some]
    refine ⟨?_, List.mem_range.2 (by omega), fun j hj => ?_⟩
    · rwa [show pos + 1 + (n - 1) = pos + n by omega]
    · rw [show pos + 1 + j = pos + (j + 1) by omega, hnone (j + 1) (by omega) (by omega)]
      rfl
  rw [ringNext, List.find?_map]
  refine (congrArg (fun o : Option ℕ => (o.map fun i => (pos + 1 + i) % 16).getD pos) hfind).trans ?_
  rw [Option.map_some, Option.getD_some, show pos + 1 + (n - 1) = pos + n by omega]

theorem returnCredit_engine (s : State) (e pos f : ℕ) : (s.returnCredit e pos).engine f =
    if f = ringEngine e pos then { s.engine f with credits := min 16 ((s.engine f).credits + 1) } else s.engine f := by
  rw [State.returnCredit, State.setEngine_engine]
  split
  · next h => rw [h]
  · rfl

theorem returnCredit_keeps (s : State) (e pos f : ℕ) : ((s.returnCredit e pos).engine f).ring = (s.engine f).ring
    ∧ ((s.returnCredit e pos).engine f).slots = (s.engine f).slots := by
  rw [returnCredit_engine]
  split <;> exact ⟨rfl, rfl⟩

/-- Credits that return change no memory, no core, and no endpoint's join or slots. -/
theorem returnCredits_keep (l : List RingSlot) (s : State) (e : ℕ) :
    (l.foldl (fun s k => s.returnCredit e k.sender) s).mem = s.mem ∧ (l.foldl (fun s k => s.returnCredit e k.sender) s).cores = s.cores
      ∧ ∀ f, ((l.foldl (fun s k => s.returnCredit e k.sender) s).engine f).ring = (s.engine f).ring
        ∧ ((l.foldl (fun s k => s.returnCredit e k.sender) s).engine f).slots = (s.engine f).slots := by
  induction l generalizing s with
  | nil => exact ⟨rfl, rfl, fun _ => ⟨rfl, rfl⟩⟩
  | cons k l ih =>
    obtain ⟨hmem, hcores, hkeep⟩ := ih (s.returnCredit e k.sender)
    refine ⟨hmem, hcores, fun f => ?_⟩
    obtain ⟨hring, hslots⟩ := hkeep f
    obtain ⟨hring', hslots'⟩ := returnCredit_keeps s e k.sender f
    exact ⟨hring.trans hring', hslots.trans hslots'⟩

section Released
variable {s : State} {core : ℕ} {e : HoldEntry} {rest : List HoldEntry} (h : AtHead s core e rest)
include h

/-- An effect that leaves memory and the cores as they are is released with its state's engines. -/
theorem released_engines {u : State} (hu : performEffect s core e.seq e.tid e.effect = some u) (hmem : u.mem = s.mem)
    (hcores : u.cores = s.cores) : ∃ t, ReleasedTo s t core rest ∧ t.mem = s.mem ∧ ∀ f, t.engine f = u.engine f := by
  have hold : (u.core core).hold = (s.core core).hold := by rw [State.core, State.core, hcores]
  exact ⟨_, releaseHead_of_atHead h hu hold, hmem, fun f => State.engine_congr rfl f⟩

theorem ringSend_released {n : ℕ} {img : TileImage} {j : Join} {p : ℕ} (he : e.effect = .ringSend n img) (hring : (s.engine n).ring = some j)
    (hnext : NextSet j.mask (n % 16) p) : ∃ u, ReleasedTo s u core rest ∧ u.mem = s.mem
      ∧ (u.engine (n / 16 * 16 + p)).arriving = (s.engine (n / 16 * 16 + p)).arriving ++ [(n % 16, img)] := by
  have hperform : performEffect s core e.seq e.tid e.effect = some (s.setEngine (n / 16 * 16 + p)
      { s.engine (n / 16 * 16 + p) with arriving := (s.engine (n / 16 * 16 + p)).arriving ++ [(n % 16, img)] }) := by
    rw [he, performEffect, performRingSend, hring]
    dsimp only
    rw [ringNext_of_nextSet hnext]
    rfl
  obtain ⟨t, ht, hmem, heng⟩ := released_engines h hperform rfl rfl
  exact ⟨t, ht, hmem, by rw [heng, State.setEngine_engine, if_pos rfl]⟩

theorem ringCredit_released {n i : ℕ} {k : RingSlot} (he : e.effect = .ringCredit n i)
    (hslot : (s.engine n).slots.find? (fun k => k.num == i) = some k) (hne : k.sender ≠ n % 16) :
    ∃ u, ReleasedTo s u core rest ∧ u.mem = s.mem ∧ (u.engine n).slots = (s.engine n).slots.filter (fun f => f.num != i)
        ∧ (u.engine (n / 16 * 16 + k.sender)).credits = Nat.min 16 ((s.engine (n / 16 * 16 + k.sender)).credits + 1) := by
  have hperform : performEffect s core e.seq e.tid e.effect = some ((s.setEngine n
      { s.engine n with slots := (s.engine n).slots.filter fun f => f.num != i }).returnCredit n k.sender) := by
    rw [he, performEffect, performRingCredit, hslot]
  have hsender : n / 16 * 16 + k.sender ≠ n := by omega
  obtain ⟨t, ht, hmem, heng⟩ := released_engines h hperform rfl rfl
  refine ⟨t, ht, hmem, ?_, ?_⟩
  · rw [heng, (returnCredit_keeps ..).2, State.setEngine_engine, if_pos rfl]
  · have hdest : n / 16 * 16 + k.sender = ringEngine n k.sender := rfl
    rw [heng, returnCredit_engine, if_pos hdest, State.setEngine_engine, if_neg hsender]

theorem ringJoin_released {n : ℕ} {j : Join} (he : e.effect = .ringJoin n (some j)) :
    ∃ u, ReleasedTo s u core rest ∧ u.mem = s.mem ∧ (u.engine n).ring = some j
      ∧ (u.engine n).credits = 16 ∧ (u.engine n).foreign = false ∧ (u.engine n).slots = (s.engine n).slots := by
  have hperform : performEffect s core e.seq e.tid e.effect = some (s.setEngine n
      { s.engine n with ring := some j, credits := 16, foreign := false }) := by
    rw [he]
    rfl
  obtain ⟨t, ht, hmem, heng⟩ := released_engines h hperform rfl rfl
  refine ⟨t, ht, hmem, ?_⟩
  rw [heng, State.setEngine_engine, if_pos rfl]
  exact ⟨rfl, rfl, rfl, rfl⟩

theorem ringLeave_released {n : ℕ} (he : e.effect = .ringJoin n none) :
    ∃ u, ReleasedTo s u core rest ∧ u.mem = s.mem ∧ (u.engine n).ring = none ∧ (u.engine n).slots = [] := by
  have hperform : performEffect s core e.seq e.tid e.effect = some ((s.engine n).slots.foldl (fun s k => s.returnCredit n k.sender)
      (s.setEngine n { s.engine n with ring := none, slots := [] })) := by
    rw [he]
    rfl
  obtain ⟨hmem, hcores, hkeep⟩ := returnCredits_keep (s.engine n).slots (s.setEngine n { s.engine n with ring := none, slots := [] }) n
  obtain ⟨hring, hslots⟩ := hkeep n
  obtain ⟨t, ht, hmemt, heng⟩ := released_engines h hperform (hmem.trans rfl) (hcores.trans rfl)
  rw [State.setEngine_engine, if_pos rfl] at hring hslots
  exact ⟨t, ht, hmemt, by rw [heng, hring], by rw [heng, hslots]⟩

end Released

end Sys2Proof.Machine

namespace Sys2Proof.Proofs
open Sys2Proof.Machine Sys2Proof.Safety Sys2Proof.Claims

/-- Settles O37: a ring instruction changes the ring's part of its engine and holds its effect, and the effect at the head of a hold
buffer changes the endpoints that it names. -/
theorem ringInstructions : Obligations.RingInstructions := by
  refine ⟨fun s th a d e he ha => trjoin_result ha he, fun s th d e foreign joined => trstat_result, fun s a e => tringS_result,
    fun s d e k => tringR_result, fun s d a e k => tring_result, fun s i d a => ring_not_joined, fun s core e rest n h => ?_⟩
  exact ⟨fun img j p he hring hnext => ringSend_released h he hring hnext, fun i k he hslot _ hne => ringCredit_released h he hslot hne,
    fun j he => ringJoin_released h he, fun he => ringLeave_released h he⟩

end Sys2Proof.Proofs
end

section
/-! SUPPORT. Arrivals, messages and start messages at their release (07 R198, R201, R202, R206; 09 R248); O47. -/

namespace Sys2Proof.Machine
open Sys2Proof.Safety Sys2Proof.Claims

/-! ### Threads of states that differ elsewhere -/

theorem thread_congr {s t : State} (htid : t.tid = s.tid) (hparked : t.parked = s.parked) (hth : t.th = s.th) (n : ℕ) :
    t.thread n = s.thread n := by
  unfold State.thread
  rw [htid, hparked, hth]

theorem core_congr {s t : State} (h : t.cores = s.cores) (c : ℕ) : t.core c = s.core c := by
  rw [State.core, State.core, h]

@[simp] theorem setCore_thread (s : State) (c n : ℕ) (k : Core) : (s.setCore c k).thread n = s.thread n := rfl

/-- A changed thread, and the number of the next entry, leave the others. -/
theorem onlyThreadOf_setThread {s u : State} {k : ℕ} {t : Thread} (hthread : ∀ j, u.thread j = (s.setThread k t).thread j)
    (hmem : u.mem = s.mem) : OnlyThreadOf s u k ∧ u.thread k = t := by
  refine ⟨⟨fun j hj => ?_, hmem⟩, ?_⟩
  · rw [hthread, State.setThread_thread, if_neg hj]
  · rw [hthread, State.setThread_thread, if_pos rfl]

/-! ### The hold window (R248) -/

/-- No entry is released before its hold window has passed. -/
theorem releaseHead_young {s : State} {core : ℕ} {e : HoldEntry} {rest : List HoldEntry} (hhead : (s.core core).hold = e :: rest)
    (hyoung : s.cycle < e.cycle + 128) : releaseHead s core = none := by
  have hdue : headDue s core e = false := by
    have hwindow : decide (e.cycle + Config.holdWindow ≤ s.cycle) = false := decide_eq_false (Nat.not_le.2 hyoung)
    rw [headDue, hwindow]
    simp only [Bool.false_and]
  rw [releaseHead, hhead]
  dsimp only
  rw [hdue, Bool.not_false, if_pos rfl]

theorem holdRelease_young {s : State} {core : ℕ} {e : HoldEntry} {rest : List HoldEntry} (hhead : (s.core core).hold = e :: rest)
    (hyoung : s.cycle < e.cycle + 128) : exec (.holdRelease core) s = .next s := by
  have hrelease : releaseUpTo 4 s core = s := by rw [releaseUpTo, releaseHead_young hhead hyoung]
  exact congrArg Host.Outcome.next hrelease

section AtHead
variable {s : State} {core : ℕ} {e : HoldEntry} {rest : List HoldEntry} (h : AtHead s core e rest)
include h

/-- An effect that its destination does not accept stays at the head. -/
theorem releaseHead_refused (hnone : performEffect s core e.seq e.tid e.effect = none) : releaseHead s core = none := by
  obtain ⟨hhead, -, hdue, hlimit⟩ := h
  rw [releaseHead, hhead]
  dsimp only
  rw [headDue_of_due hdue, hlimit, if_pos rfl, if_pos rfl, if_neg (by simp), if_neg (Nat.not_lt_zero _), hnone]

/-- What a released effect leaves as its own step made it. -/
theorem released_keeps {u : State} (hu : performEffect s core e.seq e.tid e.effect = some u)
    (hold : (u.core core).hold = (s.core core).hold) :
    ∃ t, ReleasedTo s t core rest ∧ t.mem = u.mem ∧ (∀ n, t.thread n = u.thread n) ∧ t.gangs = u.gangs
      ∧ ∀ c, (t.core c).starting = (u.core c).starting := by
  refine ⟨_, releaseHead_of_atHead h hu hold, rfl, fun n => setCore_thread .., rfl, fun c => ?_⟩
  rw [State.setCore_core]
  split
  · next hc => rw [hc]
  · rfl

/-! ### Arrivals (R206) -/

theorem arrive_released {dom : Fin 4} {lvl : Scope} (he : e.effect = .arrive dom lvl) :
    ∃ u, ReleasedTo s u core rest ∧ OnlyThreadOf s u e.tid
      ∧ u.thread e.tid = { s.thread e.tid with signalled := bump (s.thread e.tid).signalled (6 * dom.val + lvl.code - 1) } := by
  have hperform : performEffect s core e.seq e.tid e.effect = some (s.setThread e.tid
      { s.thread e.tid with signalled := bump (s.thread e.tid).signalled (6 * dom.val + lvl.code - 1) }) := by
    rw [he]
    rfl
  obtain ⟨u, hu, hmem, hthread, -, -⟩ := released_keeps h hperform (by rw [core_congr (State.setThread_cores ..)])
  exact ⟨u, hu, onlyThreadOf_setThread hthread (hmem.trans (State.setThread_mem ..))⟩

end AtHead

/-! ### Messages (R198, R201) -/

theorem free_iff {s : State} {k : ℕ} : (s.thread k).free = true ↔ ¬Alive s k := by
  unfold Thread.free Alive
  rw [Bool.or_eq_true, beq_iff_eq, beq_iff_eq, not_and_or, not_not, not_not]

theorem placeOf_resident {s : State} {gang rank : ℕ} {g : Gang} {c : ℕ} (hg : s.gangs.get? gang = some g) (hres : g.resident = true)
    (hc : g.cores[rank / 2]? = some c) : placeOf s gang rank = .resident (2 * c + rank % 2) := by
  unfold placeOf
  rw [hg]
  dsimp only
  rw [if_pos hres, Gang.tidOf, hc]
  rfl

theorem keepOutside_gangs (s : State) (gang rank : ℕ) (m : Message) : ∃ g, s.keepOutside gang rank m = { s with gangs := g } := by
  unfold State.keepOutside
  split
  · split
    · exact ⟨_, rfl⟩
    · exact ⟨_, rfl⟩
  · split
    · exact ⟨_, rfl⟩
    · exact ⟨_, rfl⟩
  · exact ⟨_, rfl⟩

/-- A delivery to a resident thread that has not ended. -/
theorem deliver_alive {s : State} {gang rank k : ℕ} {m : Message} (hplace : placeOf s gang rank = .resident k) (halive : Alive s k) :
    deliver s gang rank m = match (s.thread k).accept { m with seq := s.seq } (s.moving gang (k / 2)) with
      | some t => .done ({ s.setThread k t with seq := s.seq + 1 }.keepOutside gang rank { m with seq := s.seq })
      | none => .full := by
  have hfree : (s.thread k).free = false := Bool.eq_false_iff.2 fun h => free_iff.1 h halive
  rw [deliver, hplace]
  dsimp only
  rw [hfree, if_neg Bool.false_ne_true]
  rfl

theorem accept_room {s : State} {gang k : ℕ} (m : Message) (h : RoomInInbox s gang k) :
    ∃ t, (s.thread k).accept m (s.moving gang (k / 2)) = some t ∧ t.wake = true ∧ t.inbox = (s.thread k).inbox ++ [m] := by
  obtain ⟨hmoving, hrun, hinbox, hover, hspill⟩ := h
  refine ⟨_, if_pos ⟨?_, hrun, hinbox, hover, hspill⟩, rfl, rfl⟩
  rw [hmoving]
  rfl

theorem accept_noRoom {s : State} {gang k : ℕ} (m : Message) (h : ¬RoomInInbox s gang k) :
    (s.thread k).accept m (s.moving gang (k / 2)) = if (s.thread k).overflow.length < 256 ∧ (s.thread k).spill = [] then
      some { s.thread k with overflow := (s.thread k).overflow ++ [m], wake := true, events := (m.seq, 1) :: (s.thread k).events }
    else none := by
  refine if_neg fun ⟨hmoving, hrun, hinbox, hover, hspill⟩ => h ⟨?_, hrun, hinbox, hover, hspill⟩
  rwa [Bool.not_eq_true'] at hmoving

/-- A delivery that is made changes one thread, and gangs. -/
theorem deliver_done {s : State} {gang rank k : ℕ} {m : Message} {t : Thread} (hplace : placeOf s gang rank = .resident k)
    (halive : Alive s k) (ht : (s.thread k).accept { m with seq := s.seq } (s.moving gang (k / 2)) = some t) :
    ∃ u, deliver s gang rank m = .done u ∧ u.mem = s.mem ∧ u.cores = s.cores ∧ u.thread k = t := by
  rw [deliver_alive hplace halive, ht]
  obtain ⟨g, hg⟩ := keepOutside_gangs { s.setThread k t with seq := s.seq + 1 } gang rank { m with seq := s.seq }
  dsimp only
  refine ⟨_, rfl, ?_, ?_, ?_⟩
  · rw [hg]
    exact State.setThread_mem ..
  · rw [hg]
    exact State.setThread_cores ..
  · rw [hg]
    exact (thread_congr (s := s.setThread k t) rfl rfl rfl k).trans ((State.setThread_thread ..).trans (if_pos rfl))

theorem deliver_dead {s : State} {gang rank k : ℕ} {m : Message} (hplace : placeOf s gang rank = .resident k) (hdead : ¬Alive s k) :
    deliver s gang rank m = .dead := by
  rw [deliver, hplace]
  dsimp only
  rw [free_iff.2 hdead, if_pos rfl]

/-- The answer to a message that finds no thread (R199, R201). -/
def answerTo (o : Outgoing) : Message :=
  serviceMessage 0 (headerWord 3 0 (headerTag o.msg.header) noRank) (answerWords (BitVec.ofNat 64 o.rank) o.msg.header)

theorem answerTo_kind (o : Outgoing) : (answerTo o).header.toNat / 2 ^ 60 % 8 = 3 := by
  have hheader : (answerTo o).header = BitVec.ofNat 64 (2 ^ 63 + 3 % 8 * 2 ^ 60 + 0 % 64 * 2 ^ 54
      + headerTag o.msg.header % 2 ^ 16 * 2 ^ 32 + noRank % 2 ^ 32) := rfl
  rw [hheader, BitVec.toNat_ofNat]
  omega

theorem answerTo_payload (o : Outgoing) : (answerTo o).payload.toNat = o.rank % 2 ^ 64 + o.msg.header.toNat * 2 ^ 64 := by
  have hpayload : (answerTo o).payload = BitVec.ofNat 1024 (packList 64 [(BitVec.ofNat 64 o.rank).toNat, o.msg.header.toNat, 0, 0, 0, 0, 0, 0]) := rfl
  have hheader := o.msg.header.isLt
  have hpack : packList 64 [(BitVec.ofNat 64 o.rank).toNat, o.msg.header.toNat, 0, 0, 0, 0, 0, 0]
      = o.rank % 2 ^ 64 + o.msg.header.toNat * 2 ^ 64 := by
    simp only [packList, BitVec.toNat_ofNat, Nat.mod_mod, Nat.mod_eq_of_lt hheader, Nat.zero_mod, Nat.mul_zero, Nat.add_zero]
    exact congrArg _ (Nat.mul_comm ..)
  have hlt : o.rank % 2 ^ 64 + o.msg.header.toNat * 2 ^ 64 < 2 ^ 128 := by omega
  rw [hpayload, hpack, BitVec.toNat_ofNat]
  exact Nat.mod_eq_of_lt (hlt.trans (Nat.pow_lt_pow_right (by decide) (by decide)))

section Message
variable {s : State} {core : ℕ} {e : HoldEntry} {rest : List HoldEntry} {o : Outgoing} {g : Gang} {c k : ℕ} (h : AtHead s core e rest)
  (he : e.effect = .message o) (hg : s.gangs.get? o.gang = some g) (hres : g.resident = true) (hc : g.cores[o.rank / 2]? = some c)
  (hk : k = 2 * c + o.rank % 2)
include h he hg hres hc hk

theorem message_accepted {t : Thread} (halive : Alive s k)
    (ht : (s.thread k).accept { o.msg with seq := s.seq } (s.moving o.gang (k / 2)) = some t) :
    ∃ u, ReleasedTo s u core rest ∧ u.mem = s.mem ∧ u.thread k = t := by
  obtain ⟨v, hv, hmem, hcores, hthread⟩ := deliver_done (hk ▸ placeOf_resident hg hres hc) halive ht
  have hperform : performEffect s core e.seq e.tid e.effect = some v := by rw [he, performEffect, hv]
  obtain ⟨u, hu, humem, huth, -, -⟩ := released_keeps h hperform (by rw [core_congr hcores])
  exact ⟨u, hu, humem.trans hmem, (huth k).trans hthread⟩

theorem message_to_inbox (halive : Alive s k) (hroom : RoomInInbox s o.gang k) :
    ∃ u, ReleasedTo s u core rest ∧ u.mem = s.mem ∧ (u.thread k).wake = true
      ∧ (u.thread k).inbox = (s.thread k).inbox ++ [{ o.msg with seq := s.seq }] := by
  obtain ⟨t, ht, hwake, hinbox⟩ := accept_room { o.msg with seq := s.seq } hroom
  obtain ⟨u, hu, hmem, rfl⟩ := message_accepted h he hg hres hc hk halive ht
  exact ⟨u, hu, hmem, hwake, hinbox⟩

theorem message_to_overflow (halive : Alive s k) (hroom : ¬RoomInInbox s o.gang k) (hlen : (s.thread k).overflow.length < 256)
    (hspill : (s.thread k).spill = []) :
    ∃ u, ReleasedTo s u core rest ∧ u.mem = s.mem ∧ (u.thread k).wake = true ∧ (u.thread k).inbox = (s.thread k).inbox
      ∧ (u.thread k).overflow = (s.thread k).overflow ++ [{ o.msg with seq := s.seq }] := by
  have hacc := accept_noRoom { o.msg with seq := s.seq } hroom
  rw [if_pos ⟨hlen, hspill⟩] at hacc
  obtain ⟨u, hu, hmem, hthread⟩ := message_accepted h he hg hres hc hk halive hacc
  refine ⟨u, hu, hmem, ?_⟩
  rw [hthread]
  exact ⟨rfl, rfl, rfl⟩

theorem message_waits (halive : Alive s k) (hroom : ¬RoomInInbox s o.gang k)
    (hfull : 256 ≤ (s.thread k).overflow.length ∨ (s.thread k).spill ≠ []) : releaseHead s core = none := by
  have hacc := accept_noRoom { o.msg with seq := s.seq } hroom
  rw [if_neg (by rintro ⟨hlen, hspill⟩; rcases hfull with h | h; exacts [absurd hlen (Nat.not_lt.2 h), h hspill])] at hacc
  refine releaseHead_refused h ?_
  rw [he, performEffect, deliver_alive (hk ▸ placeOf_resident hg hres hc) halive, hacc]

/-- A message that finds no thread is answered (R201). -/
theorem message_answered {g' : ℕ × Gang} {c' k' r : ℕ} (hdead : ¬Alive s k) (hkind : o.msg.header.toNat / 2 ^ 60 % 8 < 2)
    (hsender : o.msg.sender = .member g'.1 r) (hg' : s.gangs.get? g'.1 = some g'.2) (hres' : g'.2.resident = true)
    (hc' : g'.2.cores[r / 2]? = some c') (hk' : k' = 2 * c' + r % 2) (halive : Alive s k') (hborn : (s.thread k').born = o.msg.born)
    (hroom : RoomInInbox s g'.1 k') :
    ∃ u m, ReleasedTo s u core rest ∧ u.mem = s.mem ∧ (u.thread k').inbox = (s.thread k').inbox ++ [m]
      ∧ m.header.toNat / 2 ^ 60 % 8 = 3 ∧ m.payload.toNat = o.rank % 2 ^ 64 + o.msg.header.toNat * 2 ^ 64 := by
  have hplace' : placeOf s g'.1 r = .resident k' := hk' ▸ placeOf_resident hg' hres' hc'
  have hbornOf : bornOf s (.member g'.1 r) = o.msg.born := by
    rw [bornOf, hplace']
    exact hborn
  obtain ⟨t, ht, -, hinbox⟩ := accept_room { answerTo o with seq := s.seq } hroom
  obtain ⟨v, hv, hmem, hcores, hthread⟩ := deliver_done hplace' halive ht
  have hlow : headerKind o.msg.header < 2 := hkind
  have hperform : performEffect s core e.seq e.tid e.effect = some v := by
    rw [he, performEffect, deliver_dead (hk ▸ placeOf_resident hg hres hc) hdead]
    dsimp only
    rw [State.undeliverable, if_neg (Nat.not_le.2 hlow), State.answer, hsender, hbornOf, if_neg (not_not.2 rfl), State.tellAnswer]
    dsimp only [State.reach]
    exact congrArg (fun d : Delivery => some (match d with | .done s' => s' | _ => s)) hv
  obtain ⟨u, hu, humem, huth, -, -⟩ := released_keeps h hperform (by rw [core_congr hcores])
  refine ⟨u, { answerTo o with seq := s.seq }, hu, humem.trans hmem, ?_, answerTo_kind o, answerTo_payload o⟩
  rw [huth, hthread, hinbox]

end Message

/-! ### Start messages (R202, R274) -/

theorem freeSlot_test {s : State} {c i : ℕ} : ((s.thread (2 * c + i)).free && !((s.thread (2 * c + i)).run == .ended
    && (s.thread (2 * c + i)).stoppedAt == s.cycle) && !((s.core c).starting.any fun e => e.1 == i)) = true ↔ SlotFree s c i := by
  rw [Bool.and_eq_true, Bool.and_eq_true, Bool.not_eq_true', Bool.not_eq_true', free_iff, ← Bool.not_eq_true, ← Bool.not_eq_true,
    Bool.and_eq_true, beq_iff_eq, beq_iff_eq, List.any_eq_true, and_assoc, SlotFree]
  simp only [not_exists, not_and, beq_iff_eq]

theorem find?_second {p : ℕ → Bool} (h0 : p 0 = false) (h1 : p 1 = true) : [0, 1].find? p = some 1 := by
  rw [List.find?_cons_of_neg (Bool.eq_false_iff.1 h0), List.find?_cons_of_pos h1]

theorem freeSlot_some {s : State} {c i : ℕ} (hi : i < 2) (hfree : SlotFree s c i) (hfirst : ∀ j, j < i → ¬SlotFree s c j) :
    freeSlot s c = some i := by
  unfold freeSlot
  obtain rfl | rfl : i = 0 ∨ i = 1 := by omega
  · exact List.find?_cons_of_pos (freeSlot_test.2 hfree)
  · exact find?_second (Bool.eq_false_iff.2 (mt freeSlot_test.1 (hfirst 0 Nat.zero_lt_one))) (freeSlot_test.2 hfree)

theorem freeSlot_none {s : State} {c : ℕ} (h : ∀ j, j < 2 → ¬SlotFree s c j) : freeSlot s c = none := by
  unfold freeSlot
  rw [List.find?_eq_none]
  intro j hj
  refine mt freeSlot_test.1 (h j ?_)
  simp only [List.mem_cons, List.not_mem_nil, or_false] at hj
  omega

section Start
variable {s : State} {core : ℕ} {e : HoldEntry} {rest : List HoldEntry} {m : StartMsg} {g : Gang} {c : ℕ} (h : AtHead s core e rest)
  (he : e.effect = .start m) (hg : s.gangs.get? m.gang = some g) (hclosing : g.closing = none) (hres : g.resident = true)
  (hswitch : g.switching = false) (hc : g.cores[m.pos]? = some c)
include hg hclosing hres hswitch hc

/-- Where a start message goes at a resident gang. -/
theorem deliverStart_eq : deliverStart s m =
    if (g.starts.get? m.pos).getD [] ≠ [] then s.queueStart m.gang g m else match freeSlot s c with
      | some i => .done (s.setCore c { s.core c with starting := (s.core c).starting ++ [(i, s.cycle, m)] })
      | none => s.queueStart m.gang g m := by
  rw [deliverStart, hg]
  dsimp only
  rw [hclosing, hres, hswitch, hc]
  rfl

theorem deliverStart_queued (hwait : (g.starts.get? m.pos).getD [] ≠ [] ∨ ∀ j, j < 2 → ¬SlotFree s c j) :
    deliverStart s m = s.queueStart m.gang g m := by
  rw [deliverStart_eq hg hclosing hres hswitch hc]
  by_cases hq : (g.starts.get? m.pos).getD [] = []
  · rw [if_neg (not_not.2 hq), freeSlot_none (hwait.resolve_left (not_not.2 hq))]
  · rw [if_pos hq]

include h he

theorem start_takes_context {i : ℕ} (hq : (g.starts.get? m.pos).getD [] = []) (hi : i < 2) (hfree : SlotFree s c i)
    (hfirst : ∀ j, j < i → ¬SlotFree s c j) :
    ∃ u, ReleasedTo s u core rest ∧ u.mem = s.mem ∧ (u.core c).starting = (s.core c).starting ++ [(i, s.cycle, m)] := by
  have hperform : performEffect s core e.seq e.tid e.effect =
      some (s.setCore c { s.core c with starting := (s.core c).starting ++ [(i, s.cycle, m)] }) := by
    rw [he, performEffect, deliverStart_eq hg hclosing hres hswitch hc, if_neg (not_not.2 hq), freeSlot_some hi hfree hfirst]
  obtain ⟨u, hu, hmem, -, -, hstarting⟩ := released_keeps h hperform (by
    rw [State.setCore_core]
    split
    · next hcc => rw [hcc]
    · rfl)
  refine ⟨u, hu, hmem, ?_⟩
  rw [hstarting, State.setCore_core, if_pos rfl]

theorem start_queued (hwait : (g.starts.get? m.pos).getD [] ≠ [] ∨ ∀ j, j < 2 → ¬SlotFree s c j) :
    (((g.starts.get? m.pos).getD []).length < 32 → ∃ u g', ReleasedTo s u core rest ∧ u.mem = s.mem
      ∧ u.gangs.get? m.gang = some g' ∧ g'.starts.get? m.pos = some ((g.starts.get? m.pos).getD [] ++ [m]))
    ∧ (32 ≤ ((g.starts.get? m.pos).getD []).length → releaseHead s core = none) := by
  have hqueue : s.queueStart m.gang g m = if ((g.starts.get? m.pos).getD []).length < 32
      then .done (s.setGang m.gang { g with starts := g.starts.put m.pos ((g.starts.get? m.pos).getD [] ++ [m]) }) else .full := rfl
  refine ⟨fun hlen => ?_, fun hlen => releaseHead_refused h ?_⟩
  · have hperform : performEffect s core e.seq e.tid e.effect =
        some (s.setGang m.gang { g with starts := g.starts.put m.pos ((g.starts.get? m.pos).getD [] ++ [m]) }) := by
      rw [he, performEffect, deliverStart_queued hg hclosing hres hswitch hc hwait, hqueue, if_pos hlen]
    obtain ⟨u, hu, hmem, -, hgangs, -⟩ := released_keeps h hperform rfl
    exact ⟨u, _, hu, hmem, by rw [hgangs]; exact Table.get?_put_same _ _ _, Table.get?_put_same _ _ _⟩
  · rw [he, performEffect, deliverStart_queued hg hclosing hres hswitch hc hwait, hqueue, if_neg (Nat.not_lt.2 hlen)]

end Start

end Sys2Proof.Machine
end

section
/-! SUPPORT. Waits that end, inboxes, ring arrivals and late frees (06 R177; 07 R196, R198, R204, R207; 08 R230; 09 R246); O47. -/

namespace Sys2Proof.Machine
open Sys2Proof.Safety Sys2Proof.Claims

/-! ### A change of one thread -/

theorem State.switchTo_tid (s : State) (n : ℕ) : (s.switchTo n).tid = n := by
  unfold State.switchTo
  split
  · next h => exact h.symm
  · rfl

theorem State.switchTo_th (s : State) (n : ℕ) : (s.switchTo n).th = s.thread n := by
  have hself := State.thread_self (s.switchTo n)
  rw [State.switchTo_tid, State.switchTo_thread] at hself
  exact hself.symm

theorem withThread_other (s : State) (t : Thread) {n : ℕ} (h : n ≠ s.tid) : (withThread s t).thread n = s.thread n :=
  (if_neg h).trans (if_neg h).symm

theorem withThread_current (s : State) (t : Thread) : (withThread s t).thread s.tid = t := if_pos rfl

/-- A change that leaves all but the thread's record as it is. -/
theorem onThread_withThread {s : State} {k : ℕ} {t : Thread} {f : State → State}
    (hf : f (s.switchTo k) = withThread (s.switchTo k) t) : OnlyThreadOf s (s.onThread k f) k ∧ (s.onThread k f).thread k = t := by
  have hon : s.onThread k f = (withThread (s.switchTo k) t).switchTo s.tid := congrArg (State.switchTo · s.tid) hf
  rw [hon]
  refine ⟨⟨fun j hj => ?_, ?_⟩, ?_⟩
  · rw [State.switchTo_thread, withThread_other _ _ (by rwa [State.switchTo_tid]), State.switchTo_thread]
  · rw [State.switchTo_mem, withThread_mem, State.switchTo_mem]
  · rw [State.switchTo_thread]
    have hcur := withThread_current (s.switchTo k) t
    rwa [State.switchTo_tid] at hcur

/-! ### Inboxes (R198) -/

/-- The thread whose inbox has taken the oldest message of its overflow queue. -/
def Thread.movedUp (t : Thread) (m : Message) (rest : List Message) (n : ℕ) : Thread :=
  { t with overflow := rest, inbox := t.inbox ++ [{ m with seq := n, outside := true }],
           arrivals := t.arrivals ++ [{ m with seq := n, outside := true }] }

theorem refill_movedUp {t : Thread} {m : Message} {rest : List Message} (n : ℕ) (hover : t.overflow = m :: rest)
    (hroom : t.inbox.length < 16) (hrun : t.run = .running) : t.refill n false = some (t.movedUp m rest n) := by
  have hgo : ¬(t.run = .stopped ∨ t.free ∨ false = true) := by
    rw [Thread.free, hrun]
    decide
  rw [Thread.refill, if_neg hgo, hover]
  exact if_pos hroom

theorem refillInbox_movedUp {s : State} {k : ℕ} {m : Message} {rest : List Message} (hover : (s.thread k).overflow = m :: rest)
    (hroom : (s.thread k).inbox.length < 16) (hrun : (s.thread k).run = .running)
    (hmoving : s.moving (s.thread k).gang (k / 2) = false) :
    ∃ u, exec (.inboxRefill k) s = .next u ∧ OnlyThreadOf s u k ∧ u.thread k = (s.thread k).movedUp m rest s.seq := by
  have hstill : s.moving (s.thread k).gang (coreOf k) = false := hmoving
  have hrefill : refillInbox s k = some { s.setThread k ((s.thread k).movedUp m rest s.seq) with seq := s.seq + 1 } := by
    rw [refillInbox, hstill, refill_movedUp s.seq hover hroom hrun]
  exact ⟨_, congrArg (fun o : Option State => Host.Outcome.next (o.getD s)) hrefill,
    onlyThreadOf_setThread (fun j => thread_congr rfl rfl rfl j) (State.setThread_mem ..)⟩

/-- The oldest message of the overflow queue takes a free slot. -/
theorem refillInbox_moves {s : State} {k : ℕ} {m : Message} {rest : List Message} (hover : (s.thread k).overflow = m :: rest)
    (hroom : (s.thread k).inbox.length < 16) (hrun : (s.thread k).run = .running)
    (hmoving : s.moving (s.thread k).gang (k / 2) = false) :
    ∃ u, exec (.inboxRefill k) s = .next u ∧ OnlyThreadOf s u k ∧ (u.thread k).overflow = rest
      ∧ (u.thread k).inbox = (s.thread k).inbox ++ [{ m with seq := s.seq, outside := true }] := by
  obtain ⟨u, hexec, honly, hthread⟩ := refillInbox_movedUp hover hroom hrun hmoving
  refine ⟨u, hexec, honly, ?_⟩
  rw [hthread]
  exact ⟨rfl, rfl⟩

/-! ### Waits that end (R196, R204, R207, R230) -/

theorem going_iff {s : State} {k : ℕ} : going s k = true ↔ Going s k := by
  rw [going, Bool.and_eq_true, Bool.or_eq_true, beq_iff_eq, beq_iff_eq, isService, decide_eq_true_iff]
  exact Iff.rfl

theorem mwaitReady_iff {t : Thread} : mwaitReady t = true ↔ MessageHere t := by
  rw [mwaitReady, Bool.or_eq_true, Bool.not_eq_true', List.isEmpty_eq_false_iff, MessageHere]

theorem waitiReady_iff {t : Thread} : waitiReady t = true ↔ EventHere t := by
  rw [waitiReady, Bool.or_eq_true, bne_iff_ne, EventHere]

section Wait
variable {s : State} {k : ℕ} (hgo : Going s k)
include hgo

theorem mwait_wakes {d : Rx} {dl : Option ℕ} (hwait : (s.thread k).wait = .mwait d dl) (hmsg : MessageHere (s.thread k)) :
    ∃ u, exec (.mwaitWake k) s = .next u ∧ OnlyThreadOf s u k
      ∧ u.thread k = goNext (putX { s.thread k with wake := false } d 0) := by
  have hwakes : mwaitWakes s k = some d := by
    rw [mwaitWakes, hwait]
    dsimp only
    rw [going_iff.2 hgo, mwaitReady_iff.2 hmsg, Bool.and_self, if_pos rfl]
  have hexec : exec (.mwaitWake k) s = .next (s.onThread k fun s => mwaitDone s d) := by
    rw [show exec (.mwaitWake k) s = execMwaitWake k s from rfl, execMwaitWake, hwakes]
  exact ⟨_, hexec, onThread_withThread (by rw [← State.switchTo_th]; rfl)⟩

theorem mwait_ends {d : Rx} {dl : Option ℕ} {c : ℕ} (hwait : (s.thread k).wait = .mwait d dl) (hnone : ¬MessageHere (s.thread k))
    (hdl : dl = some c) (hc : c ≤ s.cycle) :
    ∃ u, exec (.mwaitTimeout k) s = .next u ∧ OnlyThreadOf s u k ∧ u.thread k = goNext (putX (s.thread k) d 1) := by
  have hpassed : passed s dl = true := by
    rw [hdl]
    exact decide_eq_true hc
  have hends : mwaitEnds s k = some d := by
    rw [mwaitEnds, hwait]
    dsimp only
    rw [going_iff.2 hgo, Bool.eq_false_iff.2 (mt mwaitReady_iff.1 hnone), hpassed, Bool.not_false, Bool.and_self, Bool.and_self, if_pos rfl]
  have hexec : exec (.mwaitTimeout k) s = .next (s.onThread k fun s => retire (s.wx d 1)) := by
    rw [show exec (.mwaitTimeout k) s = execMwaitTimeout k s from rfl, execMwaitTimeout, hends]
  exact ⟨_, hexec, onThread_withThread (by rw [← State.switchTo_th]; rfl)⟩

theorem waiti_wakes {d : Rx} {dl : Option ℕ} (hwait : (s.thread k).wait = .waiti d dl) (hevent : EventHere (s.thread k)) :
    ∃ u, exec (.waitiWake k) s = .next u ∧ OnlyThreadOf s u k
      ∧ u.thread k = goNext (putX { s.thread k with latch := 0 } d
          (word ((if (s.thread k).wake then 1 else 0) + 2 * (s.thread k).latch.toNat))) := by
  have hwakes : waitiWakes s k = some d := by
    rw [waitiWakes, hwait]
    dsimp only
    rw [going_iff.2 hgo, waitiReady_iff.2 hevent, Bool.and_self, if_pos rfl]
  have hexec : exec (.waitiWake k) s = .next (s.onThread k fun s => waitiDone s d) := by
    rw [show exec (.waitiWake k) s = execWaitiWake k s from rfl, execWaitiWake, hwakes]
  exact ⟨_, hexec, onThread_withThread (by rw [← State.switchTo_th]; rfl)⟩

theorem waiti_ends {d : Rx} {dl : Option ℕ} {c : ℕ} (hwait : (s.thread k).wait = .waiti d dl) (hnone : ¬EventHere (s.thread k))
    (hdl : dl = some c) (hc : c ≤ s.cycle) :
    ∃ u, exec (.waitiTimeout k) s = .next u ∧ OnlyThreadOf s u k ∧ u.thread k = goNext (putX (s.thread k) d 8) := by
  have hpassed : passed s dl = true := by
    rw [hdl]
    exact decide_eq_true hc
  have hends : waitiEnds s k = some d := by
    rw [waitiEnds, hwait]
    dsimp only
    rw [going_iff.2 hgo, Bool.eq_false_iff.2 (mt waitiReady_iff.1 hnone), hpassed, Bool.not_false, Bool.and_self, Bool.and_self, if_pos rfl]
  have hexec : exec (.waitiTimeout k) s = .next (s.onThread k fun s => retire (s.wx d 8)) := by
    rw [show exec (.waitiTimeout k) s = execWaitiTimeout k s from rfl, execWaitiTimeout, hends]
  exact ⟨_, hexec, onThread_withThread (by rw [← State.switchTo_th]; rfl)⟩

theorem phase_matches {v c : ℕ} {d : Rx} {g : Gang} {t : Slots} (hwait : (s.thread k).wait = .phase d v)
    (hg : s.gangs.get? (s.thread k).gang = some g) (hslots : g.slots = some t) (hstop : (s.thread k).stoppedAt < s.cycle)
    (hphase : (s.core (k / 2)).phase = some c) (hv : (if t.period = 0 then 0 else (s.cycle - 1 - c) % t.period) = v) :
    ∃ u, exec (.phaseClockMatch k) s = .next u ∧ OnlyThreadOf s u k ∧ u.thread k = goNext (putX (s.thread k) d (word v)) := by
  have hclock : phaseClock { s with cycle := s.cycle - 1 } (coreOf k) t.period = some v := by
    rw [← hv]
    exact congrArg (Option.map fun c => if t.period = 0 then 0 else (s.cycle - 1 - c) % t.period) hphase
  have hmatch : phaseMatches s k = some (d, v) := by
    rw [phaseMatches, hwait, hg]
    dsimp only
    rw [hslots, going_iff.2 hgo]
    dsimp only
    rw [if_pos ⟨hstop, hclock⟩]
  have hexec : exec (.phaseClockMatch k) s = .next (s.onThread k fun s => retire (s.wx d (BitVec.ofNat 64 v))) := by
    rw [show exec (.phaseClockMatch k) s = execPhaseClockMatch k s from rfl, execPhaseClockMatch, hmatch]
  exact ⟨_, hexec, onThread_withThread (by rw [← State.switchTo_th]; rfl)⟩

theorem pacq_completes {q bound : ℕ} {sc : Scope} (hwait : (s.thread k).wait = .pacq q bound sc) (hvis : QuadVisible s q bound) :
    ∃ u, exec (.pacqComplete k) s = .next u ∧ OnlyThreadOf s u k
      ∧ u.thread k = goNext (acquired (s.switchTo k) sc (s.thread k)) := by
  have hdone : pacqDone s k = some sc := by
    rw [pacqDone, hwait]
    dsimp only
    rw [going_iff.2 hgo, visibleBelow, performedBelow_of_clear hvis.1, ownVisible_of hvis.2, Bool.and_self, Bool.and_self, if_pos rfl]
  have hexec : exec (.pacqComplete k) s = .next (s.onThread k fun s => retire (acquireAt s sc)) := by
    rw [show exec (.pacqComplete k) s = execPacqComplete k s from rfl, execPacqComplete, hdone]
  exact ⟨_, hexec, onThread_withThread (by rw [← State.switchTo_th]; rfl)⟩

end Wait

/-! ### Ring arrivals (R177) and late frees (R246) -/

theorem returnCredit_arriving (t : State) (e pos f : ℕ) : ((t.returnCredit e pos).engine f).arriving = (t.engine f).arriving
    ∧ ((t.returnCredit e pos).engine f).foreign = (t.engine f).foreign := by
  rw [returnCredit_engine]
  split
  · next h => exact ⟨by rw [h], by rw [h]⟩
  · exact ⟨rfl, rfl⟩

section Ring
variable {s : State} {e pos : ℕ} {img : TileImage} {rest : List (ℕ × TileImage)} (harr : (s.engine e).arriving = (pos, img) :: rest)
include harr

theorem ringArrival_slot {j : Join} (hj : (s.engine e).ring = some j) (hprev : ringPrev j.mask (e % 16) = pos)
    (hroom : (s.engine e).slots.length < 16) :
    ∃ u, exec (.ringTileArrival e) s = .next u ∧ u.mem = s.mem ∧ (u.engine e).arriving = rest
      ∧ (u.engine e).slots = (s.engine e).slots ++ [⟨(s.engine e).nextSlot, img, pos, false⟩] := by
  have hmine : ((s.engine e).ring.any fun j => ringPrev j.mask (e % 16) == pos) = true := by
    rw [hj]
    exact beq_iff_eq.2 hprev
  have harrive : ringArrival s e = s.setEngine e { s.engine e with
      arriving := rest, slots := (s.engine e).slots ++ [⟨(s.engine e).nextSlot, img, pos, false⟩], nextSlot := (s.engine e).nextSlot + 1 } := by
    rw [ringArrival, harr]
    dsimp only
    exact if_pos (Bool.and_eq_true_iff.2 ⟨hmine, decide_eq_true hroom⟩)
  refine ⟨_, congrArg Host.Outcome.next harrive, rfl, ?_, ?_⟩
  · rw [State.setEngine_engine, if_pos rfl]
  · rw [State.setEngine_engine, if_pos rfl]

theorem ringArrival_foreign (hother : ∀ j, (s.engine e).ring = some j → ringPrev j.mask (e % 16) ≠ pos) :
    ∃ u, exec (.ringTileArrival e) s = .next u ∧ u.mem = s.mem ∧ (u.engine e).arriving = rest
      ∧ (u.engine e).slots = (s.engine e).slots ∧ ((s.engine e).ring ≠ none → (u.engine e).foreign = true) := by
  have hmine : ((s.engine e).ring.any fun j => ringPrev j.mask (e % 16) == pos) = false := by
    cases hring : (s.engine e).ring with
    | none => rfl
    | some j => exact beq_false_of_ne (hother j hring)
  have harrive : ringArrival s e = (s.setEngine e { s.engine e with
      arriving := rest, foreign := (s.engine e).foreign || (s.engine e).ring.isSome }).returnCredit e pos := by
    rw [ringArrival, harr]
    dsimp only
    rw [hmine, Bool.false_and, if_neg Bool.false_ne_true]
  obtain ⟨hrest, hforeign⟩ := returnCredit_arriving (s.setEngine e { s.engine e with
      arriving := rest, foreign := (s.engine e).foreign || (s.engine e).ring.isSome }) e pos e
  obtain ⟨-, hslots⟩ := returnCredit_keeps (s.setEngine e { s.engine e with
      arriving := rest, foreign := (s.engine e).foreign || (s.engine e).ring.isSome }) e pos e
  rw [State.setEngine_engine, if_pos rfl] at hrest hforeign hslots
  refine ⟨_, congrArg Host.Outcome.next harrive, rfl, hrest, hslots, fun hring => ?_⟩
  rw [hforeign, Option.isSome_iff_ne_none.2 hring, Bool.or_true]

end Ring

theorem noteSnap_late (k : Engine) (c n : ℕ) : (k.noteSnap c n).late = k.late := by
  unfold Engine.noteSnap
  split <;> rfl

theorem lateFreeable_iff {s : State} {e : ℕ} {l : LateTile} :
    lateFreeable s e l = true ↔ (∃ c, l.splitAt = some c ∧ c + 128 < s.cycle) ∧ l.phys ∉ namedTiles s e := by
  rw [lateFreeable, Bool.and_eq_true, Option.any_eq_true, Bool.not_eq_true', ← Bool.not_eq_true, List.contains_iff_mem]
  simp only [decide_eq_true_eq]
  exact Iff.rfl

theorem lateFree_keeps (s : State) (e : ℕ) : ∃ u, exec (.lateFree e) s = .next u ∧ u.mem = s.mem
    ∧ ∀ l, l ∈ (u.engine e).late ↔ l ∈ (s.engine e).late
        ∧ ¬((∃ c, l.splitAt = some c ∧ c + 128 < s.cycle) ∧ l.phys ∉ namedTiles s e) := by
  refine ⟨_, rfl, rfl, fun l => ?_⟩
  rw [State.setEngine_engine, if_pos rfl]
  dsimp only
  rw [noteSnap_late, List.mem_filter, Bool.not_eq_true', ← Bool.not_eq_true, lateFreeable_iff]

end Sys2Proof.Machine
end

section
/-! SUPPORT. Hurdle generations and the members that wait for them (07 R206, R207; 10 R270, R271, R273); O47. -/

namespace Sys2Proof.Machine
open Sys2Proof.Safety Sys2Proof.Claims

/-! ### Events of threads -/

/-- Nothing that a hurdle looks at differs but the gangs: threads may have been told of events, and clocks reset. -/
structure EventsOnly (s u : State) : Prop where
  mem : u.mem = s.mem
  gangs : u.gangs = s.gangs
  quads : u.quads = s.quads
  thread : ∀ k, ∃ wake latch events, u.thread k = { s.thread k with wake, latch, events }

theorem EventsOnly.refl (s : State) : EventsOnly s s := ⟨rfl, rfl, rfl, fun _ => ⟨_, _, _, rfl⟩⟩

theorem EventsOnly.trans {s t u : State} (h : EventsOnly s t) (h' : EventsOnly t u) : EventsOnly s u := by
  refine ⟨h'.mem.trans h.mem, h'.gangs.trans h.gangs, h'.quads.trans h.quads, fun k => ?_⟩
  obtain ⟨_, _, _, hk⟩ := h.thread k
  obtain ⟨w, l, e, hk'⟩ := h'.thread k
  exact ⟨w, l, e, by rw [hk', hk]⟩

theorem EventsOnly.foldl {α : Type} {f : State → α → State} (hf : ∀ s a, EventsOnly s (f s a)) (l : List α) (s : State) :
    EventsOnly s (l.foldl f s) := by
  induction l generalizing s with
  | nil => exact .refl s
  | cons a l ih => exact (hf s a).trans (ih (f s a))

theorem EventsOnly.setCore (s : State) (c : ℕ) (k : Core) : EventsOnly s (s.setCore c k) := ⟨rfl, rfl, rfl, fun _ => ⟨_, _, _, rfl⟩⟩

theorem EventsOnly.ite {s u : State} {p : Prop} [Decidable p] (h : EventsOnly s u) : EventsOnly s (if p then u else s) := by
  split
  · exact h
  · exact .refl s

/-- A thread of which only the event fields change. -/
theorem EventsOnly.setThread {s u : State} {t : ℕ} {k : Thread} (hu : ∀ j, u.thread j = (s.setThread t k).thread j) (hmem : u.mem = s.mem)
    (hgangs : u.gangs = s.gangs) (hquads : u.quads = s.quads)
    (hk : ∃ wake latch events, k = { s.thread t with wake, latch, events }) : EventsOnly s u := by
  refine ⟨hmem, hgangs, hquads, fun j => ?_⟩
  rw [hu, State.setThread_thread]
  split
  · next hj => rwa [hj]
  · exact ⟨_, _, _, rfl⟩

theorem hurdleEvent_eventsOnly (lvl : Scope) (n : ℕ) (dom : Fin 4) (s : State) (t : ℕ) : EventsOnly s (hurdleEvent lvl n dom s t) := by
  unfold hurdleEvent
  dsimp only
  split
  · exact .refl s
  · split
    · exact .setThread (k := { s.thread t with
        wake := (s.thread t).wake || (2 : BitVec 3).getLsbD 0
        latch := (s.thread t).latch ||| ((2 : BitVec 3) >>> 1).setWidth 2
        events := (s.seq, 2) :: (s.thread t).events }) (fun j => thread_congr rfl rfl rfl j) (State.event_mem ..) (State.event_gangs ..)
        (State.event_quads ..) ⟨_, _, _, rfl⟩
    · exact .setThread (fun _ => rfl) (State.setThread_mem ..) (State.setThread_gangs ..) (State.setThread_quads ..) ⟨_, _, _, rfl⟩

/-! ### Generations -/

theorem setCompleted_completed (g : Gang) (dom : Fin 4) (lvl : Scope) (inst n : ℕ) :
    (g.setCompleted dom lvl inst n).completed dom lvl inst = n := by
  have hgens : (g.setCompleted dom lvl inst n).gens = (⟨dom.val, lvl.code, inst⟩, n) :: g.gens.filter fun e => e.1 != ⟨dom.val, lvl.code, inst⟩ := rfl
  have hfirst := List.find?_cons_of_pos (p := fun e : GenKey × ℕ => e.1 == ⟨dom.val, lvl.code, inst⟩) (a := (⟨dom.val, lvl.code, inst⟩, n))
    (l := g.gens.filter fun e => e.1 != ⟨dom.val, lvl.code, inst⟩) (beq_self_eq_true _)
  rw [Gang.completed, hgens, hfirst]
  rfl

/-- The gang that a completion leaves: only the generation, and the race detector's words, have changed. -/
def Gang.withCompleted (g : Gang) (dom : Fin 4) (lvl : Scope) (inst n : ℕ) : Gang :=
  if g.isHeatPair dom lvl then { g.setCompleted dom lvl inst n with shadows := [] } else g.setCompleted dom lvl inst n

theorem withCompleted_completed (g : Gang) (dom : Fin 4) (lvl : Scope) (inst n : ℕ) :
    (g.withCompleted dom lvl inst n).completed dom lvl inst = n := by
  unfold Gang.withCompleted
  split
  · exact setCompleted_completed ..
  · exact setCompleted_completed ..

theorem withCompleted_instOf (g : Gang) (dom : Fin 4) (lvl : Scope) (inst n c : ℕ) :
    (g.withCompleted dom lvl inst n).instOf lvl c = g.instOf lvl c := by
  unfold Gang.withCompleted
  split <;> rfl

theorem completeHurdle_eventsOnly (s : State) (gang : ℕ) (g : Gang) (dom : Fin 4) (lvl : Scope) (inst : ℕ) :
    EventsOnly (s.setGang gang (g.withCompleted dom lvl inst (g.completed dom lvl inst + 1))) (completeHurdle s gang g dom lvl inst) := by
  exact (EventsOnly.ite (EventsOnly.foldl (fun s c => .setCore s c _) _ _)).trans (EventsOnly.foldl (hurdleEvent_eventsOnly lvl _ dom) _ _)

theorem nextComplete_of_arrived {s : State} {g : Gang} {dom : Fin 4} {lvl : Scope} {inst : ℕ} (h : AllArrived s g dom lvl inst) :
    nextComplete s g dom lvl inst = true := by
  obtain ⟨hall, k, hk, hhere⟩ := h
  rw [nextComplete, Bool.and_eq_true, List.all_eq_true, List.any_eq_true]
  refine ⟨fun j hj => ?_, k, hk, decide_eq_true hhere⟩
  rw [Bool.or_eq_true, List.contains_iff_mem, decide_eq_true_iff]
  exact hall j hj

theorem heatOff {g : Gang} {dom : Fin 4} {lvl : Scope} (h : g.heatMode = false ∨ dom ≠ 0 ∨ lvl ≠ g.scope) :
    (g.heatMode && g.isHeatPair dom lvl) = false := by
  rw [Bool.and_eq_false_iff, Gang.isHeatPair, Bool.and_eq_false_iff, beq_eq_false_iff_ne, beq_eq_false_iff_ne]
  exact h.imp_right (Or.imp_left fun hd h0 => hd (Fin.ext h0))

/-- The core of a member lies in the part of the gang that the generation is of (R271). -/
theorem instOf_member {g : Gang} {dom : Fin 4} {lvl : Scope} {inst k : ℕ} (hk : k ∈ g.members dom lvl inst) (hnodup : g.cores.Nodup) :
    g.instOf lvl (coreOf k) = inst := by
  obtain ⟨p, hp, hk⟩ := List.mem_flatMap.1 hk
  obtain ⟨-, hinst⟩ := List.mem_filter.1 hp
  cases hc : g.cores[p]? with
  | none =>
    rw [hc] at hk
    cases hk
  | some c =>
    rw [hc] at hk
    obtain ⟨i, hi, rfl⟩ := List.mem_map.1 hk
    have hi2 : i < 2 := (List.mem_range.1 hi).trans_le (Nat.min_le_left _ _)
    have hcore : coreOf (2 * c + i) = c := by
      unfold coreOf
      omega
    obtain ⟨hlt, rfl⟩ := List.getElem?_eq_some_iff.1 hc
    have hpos : g.posOf g.cores[p] = some p := by
      rw [Gang.posOf, List.idxOf?_eq_some_iff]
      refine ⟨hlt, rfl, fun j hj h => ?_⟩
      exact absurd ((List.Nodup.getElem_inj_iff hnodup).1 h) (Nat.ne_of_lt hj)
    rw [hcore, Gang.instOf, hpos]
    exact beq_iff_eq.1 hinst

/-! ### The members that go on -/

theorem hurdleWaits_iff {s : State} {k n : ℕ} {dom : Fin 4} {lvl : Scope} {f : HurdleEnd} {g : Gang}
    (hwait : (s.thread k).wait = .hurdle dom lvl n f) (hg : s.gangs.get? (s.thread k).gang = some g) :
    hurdleWaits s k = true ↔ n ≤ g.completed dom lvl (g.instOf lvl (coreOf k)) ∧ Going s k := by
  rw [hurdleWaits, hwait, hg]
  dsimp only
  rw [Bool.and_eq_true, decide_eq_true_iff, going_iff]

/-- What the end of a hurdle instruction puts in its register (R206, R207). -/
def putEnd (f : HurdleEnd) (n : ℕ) (t : Thread) : Thread :=
  match f with
  | .plain => t
  | .phase d => putX t d (word n)
  | .test d => putX t d 1

theorem acquireAt_eq (s : State) (sc : Scope) : acquireAt s sc = withThread s (acquired s sc s.th) := rfl

theorem withThread_wx (s : State) (t : Thread) (d : Rx) (v : Word) : (withThread s t).wx d v = withThread s (putX t d v) := rfl

theorem retire_withThread (s : State) (t : Thread) : retire (withThread s t) = withThread s (goNext t) := rfl

/-- The turn of a member whose generation is complete. -/
theorem waitStep_hurdle {s : State} {n : ℕ} {dom : Fin 4} {lvl : Scope} {f : HurdleEnd} (hwait : s.th.wait = .hurdle dom lvl n f)
    (hover : hurdleWaits s s.tid = true) :
    waitStep s = .next (withThread s (goNext (putEnd f n (acquired s lvl s.th)))) := by
  have hself : s.switchTo s.tid = s := if_pos rfl
  rw [waitStep, hwait]
  dsimp only
  rw [if_pos hover, hurdleResume, State.onThread, hself, hwait]
  dsimp only
  have hback : (withThread s (goNext (putEnd f n (acquired s lvl s.th)))).switchTo s.tid = withThread s _ := if_pos rfl
  refine congrArg Host.Outcome.next ((congrArg (State.switchTo · s.tid) ?_).trans hback)
  rw [acquireAt_eq]
  cases f with
  | plain => exact retire_withThread ..
  | phase d => exact (congrArg retire (withThread_wx ..)).trans (retire_withThread ..)
  | test d => exact (congrArg retire (withThread_wx ..)).trans (retire_withThread ..)

theorem putX_x {t : Thread} {d : Rx} (hd : d ≠ 0) (v : Word) : (putX t d v).x[d] = v := by
  rw [putX, if_neg hd]
  exact Vector.getElem_set_self ..

theorem putEnd_pc (f : HurdleEnd) (n : ℕ) (t : Thread) : (putEnd f n t).pc = t.pc := by
  cases f with
  | plain => rfl
  | phase d => exact apply_ite Thread.pc _ t _ |>.trans (ite_self _)
  | test d => exact apply_ite Thread.pc _ t _ |>.trans (ite_self _)

/-- A generation completes, and each member that waits for it goes on in its turn. -/
theorem hurdle_completes {s : State} {gang : ℕ} {g : Gang} {dom : Fin 4} {lvl : Scope} {inst n : ℕ} (hg : s.gangs.get? gang = some g)
    (hres : g.resident = true) (harr : AllArrived s g dom lvl inst) (hgoes : instanceGoes s g lvl inst = true)
    (hheat : g.heatMode = false ∨ dom ≠ 0 ∨ lvl ≠ g.scope) (hn : n = g.completed dom lvl inst + 1) :
    ∃ u, exec (.hurdleCompletion gang dom lvl inst) s = .next u ∧ u.mem = s.mem
      ∧ (∃ g', u.gangs.get? gang = some g' ∧ g'.completed dom lvl inst = n)
      ∧ ∀ k ∈ g.members dom lvl inst, ∀ f, g.cores.Nodup → (s.thread k).gang = gang → Going s k →
        (s.thread k).wait = .hurdle dom lvl n f →
        waitOver u k = true ∧ ∃ w, waitStep (u.switchTo k) = .next w ∧ w.th.wait = .none ∧ w.th.pc = (s.thread k).pc + 4
          ∧ (f = .plain → w.th.x = (s.thread k).x)
          ∧ (∀ d, f = .phase d → d ≠ 0 → w.th.x[d] = word n) ∧ (∀ d, f = .test d → d ≠ 0 → w.th.x[d] = 1) := by
  have hdue : hurdleDue s g dom lvl inst = true := by
    rw [hurdleDue, hres, nextComplete_of_arrived harr, hgoes, heatOff hheat]
    rfl
  have hstep : hurdleStep s gang dom lvl inst = completeHurdle s gang g dom lvl inst := by
    rw [hurdleStep, hg]
    exact if_pos hdue
  have hevents := completeHurdle_eventsOnly s gang g dom lvl inst
  rw [← hn] at hevents
  have hgang : (completeHurdle s gang g dom lvl inst).gangs.get? gang = some (g.withCompleted dom lvl inst n) := by
    rw [hevents.gangs, State.setGang_gangs, Table.get?_put_same]
  refine ⟨_, congrArg Host.Outcome.next hstep, hevents.mem, ⟨_, hgang, withCompleted_completed ..⟩, fun k hk f hnodup hkgang hkgo hwait => ?_⟩
  obtain ⟨wake, latch, events, hthread⟩ : ∃ wake latch events,
      (completeHurdle s gang g dom lvl inst).thread k = { s.thread k with wake, latch, events } := hevents.thread k
  have hover : ∀ v : State, v.thread k = (completeHurdle s gang g dom lvl inst).thread k →
      v.gangs = (completeHurdle s gang g dom lvl inst).gangs → v.quads = (completeHurdle s gang g dom lvl inst).quads →
      hurdleWaits v k = true := fun v hv hgangs hquads => by
    have hvwait : (v.thread k).wait = .hurdle dom lvl n f := by
      rw [hv, hthread]
      exact hwait
    have hvgang : v.gangs.get? (v.thread k).gang = some (g.withCompleted dom lvl inst n) := by
      rw [hgangs, hv, hthread, ← hgang]
      exact congrArg _ hkgang
    refine (hurdleWaits_iff hvwait hvgang).2 ⟨?_, ?_, ?_⟩
    · rw [withCompleted_instOf, instOf_member hk hnodup, withCompleted_completed]
    · rw [hv, hthread]
      exact hkgo.1
    · refine hkgo.2.imp_right fun h => ?_
      rw [State.quad, hquads, hevents.quads]
      exact h
  refine ⟨?_, ?_⟩
  · have hwaits := hover _ rfl rfl rfl
    rw [waitOver, hthread]
    dsimp only
    rw [hwait]
    exact hwaits
  · have hth : ((completeHurdle s gang g dom lvl inst).switchTo k).th = { s.thread k with wake, latch, events } := by
      rw [State.switchTo_th, hthread]
    have hturn := waitStep_hurdle (s := (completeHurdle s gang g dom lvl inst).switchTo k) (n := n) (dom := dom) (lvl := lvl) (f := f)
      (by rw [hth]; exact hwait) (by
        rw [State.switchTo_tid]
        exact hover _ (State.switchTo_thread ..) (State.switchTo_gangs ..) (State.switchTo_quads ..))
    refine ⟨_, hturn, rfl, ?_, ?_, ?_, ?_⟩
    · refine (congrArg (· + 4) (putEnd_pc f n _)).trans ?_
      rw [hth]
      rfl
    · rintro rfl
      have hx := congrArg Thread.x hth
      exact hx
    · rintro d rfl hd
      exact putX_x hd _
    · rintro d rfl hd
      exact putX_x hd _

end Sys2Proof.Machine
end

section
/-! SUPPORT. Replies of held requests (07 R186, R187, R219); O47. -/

namespace Sys2Proof.Machine
open Sys2Proof.Safety Sys2Proof.Claims

/-! ### One register written -/

/-- A register holds the number that a reply gave it, and can be read; a write to `x0` is discarded. -/
def RegHolds (t : Thread) (e : DestReg × ℕ) : Prop :=
  (∀ d, e.1 = .x d → d ≠ 0 → t.x[d] = word e.2 ∧ ReadableX t d)
    ∧ (∀ d, e.1 = .a d → t.a[d] = BitVec.ofNat 128 e.2 ∧ Readable t (.a d))
    ∧ (∀ d, e.1 = .v d → t.v[d] = BitVec.ofNat 1024 e.2 ∧ Readable t (.v d))

/-- Two threads agree about an `x`, `a` or `v` register. -/
def RegAlike (t t' : Thread) (d : DestReg) : Prop :=
  (∀ r, d = .x r → t'.x[r] = t.x[r]) ∧ (∀ r, d = .a r → t'.a[r] = t.a[r]) ∧ (∀ r, d = .v r → t'.v[r] = t.v[r])

theorem RegAlike.refl (t : Thread) (d : DestReg) : RegAlike t t d := ⟨fun _ _ => rfl, fun _ _ => rfl, fun _ _ => rfl⟩

theorem RegAlike.trans {t u w : Thread} {d : DestReg} (h : RegAlike t u d) (h' : RegAlike u w d) : RegAlike t w d :=
  ⟨fun r hr => (h'.1 r hr).trans (h.1 r hr), fun r hr => (h'.2.1 r hr).trans (h.2.1 r hr), fun r hr => (h'.2.2 r hr).trans (h.2.2 r hr)⟩

/-- The thread that `writeDest` leaves for a register other than a tile. -/
def putDest (t : Thread) (d : DestReg) (v : ℕ) : Thread :=
  match d with
  | .x r => putX t r (BitVec.ofNat 64 v)
  | .a r => putA t r (BitVec.ofNat 128 v)
  | .v r => putV t r (BitVec.ofNat 1024 v)
  | .t _ => t

theorem writeDest_eq {s : State} {d : DestReg} (hd : ∀ r, d ≠ .t r) (v : ℕ) : writeDest s d v = .ok (withThread s (putDest s.th d v)) := by
  cases d with
  | x r => rfl
  | a r => rfl
  | v r => rfl
  | t r => exact absurd rfl (hd r)

/-- A register and its marks are all that differs between two threads. -/
structure RegWritten (t t' : Thread) (d : DestReg) (v : ℕ) : Prop where
  form : ∃ x a v pend poison, t' = { t with x, a, v, pend, poison }
  pend_sub : ∀ p ∈ t'.pend, p ∈ t.pend
  pend_keep : ∀ p ∈ t.pend, d ≠ p.1 → p ∈ t'.pend
  poison_sub : ∀ p ∈ t'.poison, p ∈ t.poison
  poison_keep : ∀ p ∈ t.poison, d ≠ p.1 → p ∈ t'.poison
  keeps : ∀ d', d ≠ d' → RegAlike t t' d'
  holds : RegHolds t' (d, v)

/-- A thread whose waits and marks of one register are cleared. -/
theorem RegWritten.of_clean {t t' : Thread} {d : DestReg} {v : ℕ} (hform : ∃ x a v pend poison, t' = { t with x, a, v, pend, poison })
    (hpend : t'.pend = t.pend.filter fun e => e.1 != d) (hpoison : t'.poison = t.poison.filter fun e => e.1 != d)
    (hkeeps : ∀ d', d ≠ d' → RegAlike t t' d') (hholds : Readable t' d → RegHolds t' (d, v)) : RegWritten t t' d v := by
  refine ⟨hform, fun p hp => ?_, fun p hp hd => ?_, fun p hp => ?_, fun p hp hd => ?_, hkeeps, hholds ⟨fun e he => ?_, fun e he => ?_⟩⟩
  · rw [hpend] at hp
    exact (List.mem_filter.1 hp).1
  · rw [hpend]
    exact List.mem_filter.2 ⟨hp, bne_iff_ne.2 hd.symm⟩
  · rw [hpoison] at hp
    exact (List.mem_filter.1 hp).1
  · rw [hpoison]
    exact List.mem_filter.2 ⟨hp, bne_iff_ne.2 hd.symm⟩
  · rw [hpend] at he
    exact bne_iff_ne.1 (List.mem_filter.1 he).2
  · rw [hpoison] at he
    exact bne_iff_ne.1 (List.mem_filter.1 he).2

theorem putX_written (t : Thread) (r : Rx) (v : ℕ) : RegWritten t (putX t r (BitVec.ofNat 64 v)) (.x r) v := by
  by_cases hr : r = 0
  · have hput : putX t r (BitVec.ofNat 64 v) = t := if_pos hr
    rw [hput]
    refine ⟨⟨_, _, _, _, _, rfl⟩, fun _ h => h, fun _ h _ => h, fun _ h => h, fun _ h _ => h, fun d _ => .refl t d, ?_, ?_, ?_⟩
    · rintro d ⟨⟩ hd
      exact absurd hr hd
    · rintro d ⟨⟩
    · rintro d ⟨⟩
  · have hput : putX t r (BitVec.ofNat 64 v) = { t with x := t.x.set r (BitVec.ofNat 64 v), pend := t.pend.filter fun e => e.1 != .x r,
                                                        poison := t.poison.filter fun e => e.1 != .x r } := if_neg hr
    rw [hput]
    refine .of_clean ⟨_, _, _, _, _, rfl⟩ rfl rfl (fun d hd => ⟨?_, fun _ _ => rfl, fun _ _ => rfl⟩) (fun hread => ⟨?_, ?_, ?_⟩)
    · rintro q rfl
      exact Vector.getElem_set_ne r.isLt q.isLt fun h => hd (congrArg _ (Fin.ext h))
    · rintro d ⟨⟩ -
      exact ⟨Vector.getElem_set_self .., .inr hread⟩
    · rintro d ⟨⟩
    · rintro d ⟨⟩

theorem putA_written (t : Thread) (r : Ra) (v : ℕ) : RegWritten t (putA t r (BitVec.ofNat 128 v)) (.a r) v := by
  refine .of_clean ⟨_, _, _, _, _, rfl⟩ rfl rfl (fun d hd => ⟨fun _ _ => rfl, ?_, fun _ _ => rfl⟩) (fun hread => ⟨?_, ?_, ?_⟩)
  · rintro q rfl
    exact Vector.getElem_set_ne r.isLt q.isLt fun h => hd (congrArg _ (Fin.ext h))
  · rintro d ⟨⟩
  · rintro d ⟨⟩
    exact ⟨Vector.getElem_set_self .., hread⟩
  · rintro d ⟨⟩

theorem putV_written (t : Thread) (r : Rv) (v : ℕ) : RegWritten t (putV t r (BitVec.ofNat 1024 v)) (.v r) v := by
  refine .of_clean ⟨_, _, _, _, _, rfl⟩ rfl rfl (fun d hd => ⟨fun _ _ => rfl, fun _ _ => rfl, ?_⟩) (fun hread => ⟨?_, ?_, ?_⟩)
  · rintro q rfl
    exact Vector.getElem_set_ne r.isLt q.isLt fun h => hd (congrArg _ (Fin.ext h))
  · rintro d ⟨⟩
  · rintro d ⟨⟩
  · rintro d ⟨⟩
    exact ⟨Vector.getElem_set_self .., hread⟩

theorem putDest_written {d : DestReg} (hd : ∀ r, d ≠ .t r) (t : Thread) (v : ℕ) : RegWritten t (putDest t d v) d v := by
  cases d with
  | x r => exact putX_written t r v
  | a r => exact putA_written t r v
  | v r => exact putV_written t r v
  | t r => exact absurd rfl (hd r)

/-! ### All registers of a reply -/

/-- The registers of a list are written, or marked, and no other. -/
structure RepliedBy (r : Reply) (t t' : Thread) (ws : List (DestReg × ℕ)) : Prop where
  form : ∃ x a v pend poison, t' = { t with x, a, v, pend, poison }
  pend_sub : ∀ p ∈ t'.pend, p ∈ t.pend
  pend_keep : ∀ p ∈ t.pend, (∀ e ∈ ws, e.1 ≠ p.1) → p ∈ t'.pend
  poison_sub : r.poisoned = false → ∀ p ∈ t'.poison, p ∈ t.poison
  poison_keep : ∀ p ∈ t.poison, (∀ e ∈ ws, e.1 ≠ p.1) → p ∈ t'.poison
  keeps : ∀ d, (∀ e ∈ ws, e.1 ≠ d) → RegAlike t t' d
  holds : r.poisoned = false → ∀ e ∈ ws, RegHolds t' e
  marks : r.poisoned = true → ∀ e ∈ ws, e.1 ≠ .x 0 → (e.1, r.obj, r.addr) ∈ t'.poison

theorem RepliedBy.nil (r : Reply) (t : Thread) : RepliedBy r t t [] := by
  refine ⟨⟨_, _, _, _, _, rfl⟩, fun _ h => h, fun _ h _ => h, fun _ _ h => h, fun _ h _ => h, fun d _ => .refl t d, ?_, ?_⟩
  · rintro - e ⟨⟩
  · rintro - e ⟨⟩

/-- A register that no later write names keeps what it holds. -/
theorem RegHolds.keeps {t t' : Thread} {e : DestReg × ℕ} (h : RegHolds t e) (halike : RegAlike t t' e.1)
    (hpend : ∀ p ∈ t'.pend, p ∈ t.pend) (hpoison : ∀ p ∈ t'.poison, p ∈ t.poison) : RegHolds t' e := by
  have hread : ∀ d, Readable t d → Readable t' d := fun d hd => ⟨fun p hp => hd.1 p (hpend p hp), fun p hp => hd.2 p (hpoison p hp)⟩
  refine ⟨fun d he hd => ?_, fun d he => ?_, fun d he => ?_⟩
  · obtain ⟨hx, hr⟩ := h.1 d he hd
    exact ⟨(halike.1 d he).trans hx, hr.imp_right (hread _)⟩
  · obtain ⟨ha, hr⟩ := h.2.1 d he
    exact ⟨(halike.2.1 d he).trans ha, hread _ hr⟩
  · obtain ⟨hv, hr⟩ := h.2.2 d he
    exact ⟨(halike.2.2 d he).trans hv, hread _ hr⟩

theorem RepliedBy.cons {r : Reply} {t u w : Thread} {e : DestReg × ℕ} {ws : List (DestReg × ℕ)} (h : RepliedBy r t u [e])
    (h' : RepliedBy r u w ws) (hother : ∀ f ∈ ws, f.1 ≠ e.1) : RepliedBy r t w (e :: ws) := by
  have hone : ∀ {d : DestReg}, (∀ f ∈ e :: ws, f.1 ≠ d) → ∀ f ∈ [e], f.1 ≠ d := fun hd f hf =>
    hd f (List.mem_cons.2 (.inl (List.mem_singleton.1 hf)))
  have hrest : ∀ {d : DestReg}, (∀ f ∈ e :: ws, f.1 ≠ d) → ∀ f ∈ ws, f.1 ≠ d := fun hd f hf => hd f (List.mem_cons_of_mem _ hf)
  refine ⟨?_, fun p hp => h.pend_sub p (h'.pend_sub p hp), fun p hp hd => h'.pend_keep p (h.pend_keep p hp (hone hd)) (hrest hd),
    fun hr p hp => h.poison_sub hr p (h'.poison_sub hr p hp), fun p hp hd => h'.poison_keep p (h.poison_keep p hp (hone hd)) (hrest hd),
    fun d hd => (h.keeps d (hone hd)).trans (h'.keeps d (hrest hd)), fun hr f hf => ?_, fun hr f hf hf0 => ?_⟩
  · obtain ⟨_, _, _, _, _, rfl⟩ := h.form
    obtain ⟨x, a, v, pend, poison, rfl⟩ := h'.form
    exact ⟨x, a, v, pend, poison, rfl⟩
  · rcases List.mem_cons.1 hf with rfl | hf
    · exact (h.holds hr f List.mem_cons_self).keeps (h'.keeps _ hother) h'.pend_sub (h'.poison_sub hr)
    · exact h'.holds hr f hf
  · rcases List.mem_cons.1 hf with rfl | hf
    · exact h'.poison_keep _ (h.marks hr f List.mem_cons_self hf0) hother
    · exact h'.marks hr f hf hf0

/-- A state that differs in the current thread, and in the numbers that nothing gives. -/
def withFresh (s : State) (t : Thread) (n : ℕ) : State := { withThread s t with fresh := n }

theorem replyWrite_replied {s : State} {r : Reply} {e : DestReg × ℕ} (htile : ∀ d, e.1 ≠ .t d)
    (hpend : e.1 ≠ .x 0 → (e.1, r.seq) ∈ s.th.pend) :
    ∃ t n, replyWrite r s e = .ok (withFresh s t n) ∧ RepliedBy r s.th t [e] := by
  have hsingle : ∀ {d : DestReg}, (∀ f ∈ [e], f.1 ≠ d) → e.1 ≠ d := fun hd => hd e List.mem_cons_self
  by_cases hmem : (e.1, r.seq) ∈ s.th.pend
  · have hcontains : s.th.pend.contains (e.1, r.seq) = true := List.contains_iff_mem.2 hmem
    cases hpois : r.poisoned with
    | false =>
      have hw := putDest_written htile s.th e.2
      refine ⟨_, s.fresh, ?_, hw.form, hw.pend_sub, fun p hp hd => hw.pend_keep p hp (hsingle hd), fun _ => hw.poison_sub,
        fun p hp hd => hw.poison_keep p hp (hsingle hd), fun d hd => hw.keeps d (hsingle hd), fun _ f hf => ?_, fun hr => ?_⟩
      · rw [replyWrite, if_pos hcontains, hpois, if_neg Bool.false_ne_true]
        exact writeDest_eq htile e.2
      · rw [List.mem_singleton.1 hf]
        exact hw.holds
      · rw [hpois] at hr
        cases hr
    | true =>
      have hw := putDest_written htile s.th (freeBits s.fresh 576 % 2 ^ liveAt + 2 ^ liveAt)
      obtain ⟨x, a, v, pend, poison, hform⟩ := hw.form
      refine ⟨{ putDest s.th e.1 (freeBits s.fresh 576 % 2 ^ liveAt + 2 ^ liveAt) with
          poison := (e.1, r.obj, r.addr) :: (putDest s.th e.1 (freeBits s.fresh 576 % 2 ^ liveAt + 2 ^ liveAt)).poison },
        s.fresh + 577, ?_, ⟨x, a, v, pend, _, by rw [hform]⟩, hw.pend_sub, fun p hp hd => hw.pend_keep p hp (hsingle hd), fun hr => ?_,
        fun p hp hd => List.mem_cons_of_mem _ (hw.poison_keep p hp (hsingle hd)), fun d hd => hw.keeps d (hsingle hd), fun hr => ?_,
        fun _ f hf _ => ?_⟩
      · rw [replyWrite, if_pos hcontains, hpois, if_pos rfl, writeDest_eq htile]
        rfl
      · rw [hpois] at hr
        cases hr
      · rw [hpois] at hr
        cases hr
      · rw [List.mem_singleton.1 hf]
        exact List.mem_cons_self
  · have hzero : e.1 = .x 0 := not_not.1 fun h => hmem (hpend h)
    have hcontains : ¬s.th.pend.contains (e.1, r.seq) = true := fun h => hmem (List.contains_iff_mem.1 h)
    refine ⟨s.th, s.fresh, ?_, ⟨_, _, _, _, _, rfl⟩, fun _ h => h, fun _ h _ => h, fun _ _ h => h, fun _ h _ => h, fun d _ => .refl _ d,
      fun _ f hf => ?_, fun _ f hf hf0 => ?_⟩
    · rw [replyWrite, if_neg hcontains]
      rfl
    · rw [List.mem_singleton.1 hf]
      refine ⟨fun d hd h0 => ?_, fun d hd => ?_, fun d hd => ?_⟩
      · rw [hzero] at hd
        cases hd
        exact absurd rfl h0
      · rw [hzero] at hd
        cases hd
      · rw [hzero] at hd
        cases hd
    · rw [List.mem_singleton.1 hf] at hf0
      exact absurd hzero hf0

theorem replyWrites_replied {r : Reply} {ws : List (DestReg × ℕ)} (hnodup : (ws.map (·.1)).Nodup) (htile : ∀ e ∈ ws, ∀ d, e.1 ≠ .t d)
    {s : State} (hpend : ∀ e ∈ ws, e.1 ≠ .x 0 → (e.1, r.seq) ∈ s.th.pend) :
    ∃ t n, ws.foldlM (replyWrite r) s = .ok (withFresh s t n) ∧ RepliedBy r s.th t ws := by
  induction ws generalizing s with
  | nil => exact ⟨s.th, s.fresh, rfl, .nil r s.th⟩
  | cons e ws ih =>
    obtain ⟨hnot, hnodup⟩ := List.nodup_cons.1 hnodup
    have hother : ∀ f ∈ ws, f.1 ≠ e.1 := fun f hf h => hnot (List.mem_map.2 ⟨f, hf, h⟩)
    obtain ⟨t, n, hwrite, hone⟩ := replyWrite_replied (htile e List.mem_cons_self) (hpend e List.mem_cons_self)
    obtain ⟨t', n', hfold, hrest⟩ := ih hnodup (fun f hf => htile f (List.mem_cons_of_mem _ hf)) (s := withFresh s t n)
      fun f hf h0 => hone.pend_keep _ (hpend f (List.mem_cons_of_mem _ hf) h0) fun g hg => by
        rw [List.mem_singleton.1 hg]
        exact (hother f hf).symm
    refine ⟨t', n', ?_, hone.cons hrest hother⟩
    rw [List.foldlM_cons, hwrite]
    exact hfold

/-! ### A reply reaches the current thread -/

/-- The thread once its registers are written: the reply is no longer waited for (R186, R219, R262). -/
def Thread.replied (t : Thread) (r : Reply) : Thread :=
  { t with pend := t.pend.filter fun p => p.2 != r.seq, tq := t.tq.filter fun n => n != r.seq, entryBad := t.entryBad || r.bad,
           task := if r.task.isSome then r.task else t.task }

/-- What acquires change in a thread (R290, R296). -/
def Thread.AcquiresOnly (t t' : Thread) : Prop := ∃ acquires acqWaits, t' = { t with acquires, acqWaits }

theorem Thread.AcquiresOnly.trans {t u w : Thread} (h : t.AcquiresOnly u) (h' : u.AcquiresOnly w) : t.AcquiresOnly w := by
  obtain ⟨_, _, rfl⟩ := h
  obtain ⟨a, b, rfl⟩ := h'
  exact ⟨a, b, rfl⟩

theorem noteAcquires_acquiresOnly (l : List (ℕ × Scope)) (c : ℕ) (t : Thread) :
    t.AcquiresOnly (l.foldl (fun k w => k.noteAcquire w.2 c) t) := by
  induction l generalizing t with
  | nil => exact ⟨_, _, rfl⟩
  | cons w l ih => exact .trans ⟨_, _, rfl⟩ (ih _)

theorem settleAcquires_current (s : State) : (s.settleAcquires s.tid).mem = s.mem ∧ s.th.AcquiresOnly (s.settleAcquires s.tid).th := by
  unfold State.settleAcquires
  dsimp only
  split
  · exact ⟨rfl, _, _, rfl⟩
  · refine ⟨State.setThread_mem .., ?_⟩
    rw [State.setThread, if_pos rfl, State.thread_self]
    exact .trans ⟨_, _, rfl⟩ (noteAcquires_acquiresOnly _ _ _)

/-- The acquire of a reply, and the task that it brings (R219, R290). -/
def Reply.noted (r : Reply) (s : State) : State := if r.scope = .thread then s else s.setTh (s.th.noteAcquire r.scope s.cycle)

def Reply.handed (r : Reply) (s : State) : State :=
  match r.task with
  | some k => s.setTh { s.th with task := some k }
  | none => s

/-- A reply's end in a state whose registers it has written. -/
def Reply.ended (r : Reply) (s : State) : State :=
  r.handed (r.noted (s.setTh { s.th with
    pend := s.th.pend.filter fun p => p.2 != r.seq, tq := s.th.tq.filter fun n => n != r.seq, entryBad := s.th.entryBad || r.bad }))

theorem ended_eq (r : Reply) (s : State) : ∃ t, r.ended s = withThread s t ∧ (s.th.replied r).AcquiresOnly t := by
  have hnoted : ∀ t, ∃ u, r.noted (s.setTh t) = s.setTh u ∧ t.AcquiresOnly u := fun t => by
    unfold Reply.noted
    split
    · exact ⟨t, rfl, _, _, rfl⟩
    · exact ⟨_, rfl, _, _, rfl⟩
  obtain ⟨_, hu, acquires, acqWaits, rfl⟩ := hnoted { s.th with
    pend := s.th.pend.filter fun p => p.2 != r.seq, tq := s.th.tq.filter fun n => n != r.seq, entryBad := s.th.entryBad || r.bad }
  rw [Reply.ended, hu, Reply.handed]
  refine ⟨_, ?_, acquires, acqWaits, rfl⟩
  cases htask : r.task with
  | none =>
    rw [Thread.replied, htask]
    rfl
  | some k =>
    rw [Thread.replied, htask]
    rfl

/-- A reply whose registers can be written now. -/
theorem replyArrives_ok {s u : State} {r : Reply} (hmine : ∃ e ∈ s.th.pend, e.2 = r.seq)
    (htiles : r.tiles s.th = [] ∨ ∃ d, r.tiles s.th = [d] ∧ needTiles s (tileEngine s d) 1 = .ok ())
    (hfold : r.writes.foldlM (replyWrite r) s = .ok u) : replyArrives r s = .ok (r.ended u) := by
  have hpend : ((s.th.pend.any fun p => p.2 == r.seq) || s.th.tq.contains r.seq) = true := by
    obtain ⟨e, he, hseq⟩ := hmine
    rw [Bool.or_eq_true, List.any_eq_true]
    exact .inl ⟨e, he, beq_iff_eq.2 hseq⟩
  have hend : ∀ t, (match r.task with
      | some k => (.ok (State.setTh t { t.th with task := some k }) : Except Stop State)
      | none => .ok t) = .ok (r.handed t) := fun t => by
    unfold Reply.handed
    cases r.task <;> rfl
  unfold replyArrives
  dsimp only
  rw [hpend, hfold]
  refine Eq.trans ?_ (hend _)
  rcases htiles with h | ⟨d, h, hn⟩
  · rw [h]
    rfl
  · rw [h]
    dsimp only
    rw [show needTiles s (engineOf s.tid (halfOf d)) ([].length + 1) = .ok () from hn]
    rfl

theorem asThread_current {s u : State} {f : State → Except Stop State} (hf : f s = .ok u) (htid : u.tid = s.tid) :
    s.asThread s.tid f = .ok u := by
  have hself : s.switchTo s.tid = s := if_pos rfl
  have hback : u.switchTo s.tid = u := if_pos htid.symm
  rw [State.asThread, hself, hf]
  dsimp only
  rw [hback]

/-- The only reply of a core is written. -/
theorem reply_written {s u : State} {core : ℕ} {r : Reply} (hreplies : (s.core core).replies = [r]) (htid : r.tid = s.tid)
    (hwritten : r.written = none) (hidle : (s.quad (core / 4)).phase = .idle) (harrives : replyArrives r s = .ok (r.ended u))
    (hutid : u.tid = s.tid) :
    ∃ w, exec (.heldRequestReply core) s = .next w ∧ w.mem = u.mem ∧ (u.th.replied r).AcquiresOnly w.th := by
  obtain ⟨t, hended, hacq⟩ := ended_eq r u
  rw [hended] at harrives
  have hthread := asThread_current harrives hutid
  have hold : ([r].filter fun r => r.written.all fun c => decide (s.cycle ≤ c + Config.holdWindow)) = [r] :=
    List.filter_cons_of_pos (by rw [hwritten]; rfl)
  have hphase : ¬((s.quad (quadOfCore core)).phase != .idle) = true := fun h => bne_iff_ne.1 h hidle
  obtain ⟨k, hk⟩ : ∃ k, writeReply s core = some (((withThread u t).setCore core k).settleAcquires s.tid) := by
    refine ⟨{ (withThread u t).core core with
      replies := [r].map fun k => if k.seq = r.seq then { k with written := some s.cycle } else k }, ?_⟩
    rw [writeReply]
    dsimp only
    rw [hreplies, hold, if_neg hphase, List.findSome?_cons, hwritten, Option.isSome_none, if_neg Bool.false_ne_true, htid, hthread]
  have hsettle := settleAcquires_current ((withThread u t).setCore core k)
  rw [show ((withThread u t).setCore core k).tid = s.tid from hutid] at hsettle
  exact ⟨_, congrArg (fun o : Option State => Host.Outcome.next (o.getD s)) hk, hsettle.1, hacq.trans hsettle.2⟩

theorem replied_pend {t t' : Thread} {r : Reply} (h : (t.replied r).AcquiresOnly t') : ∀ e ∈ t'.pend, e.2 ≠ r.seq := by
  obtain ⟨_, _, rfl⟩ := h
  intro e he
  exact bne_iff_ne.1 (List.mem_filter.1 he).2

theorem replied_readable {t t' : Thread} {r : Reply} (h : (t.replied r).AcquiresOnly t') {d : DestReg} (hd : Readable t d) :
    Readable t' d := by
  obtain ⟨_, _, rfl⟩ := h
  exact ⟨fun e he => hd.1 e (List.mem_filter.1 he).1, hd.2⟩

theorem replied_holds {t t' : Thread} {r : Reply} (h : (t.replied r).AcquiresOnly t') {e : DestReg × ℕ} (he : RegHolds t e) :
    RegHolds t' e := by
  refine he.keeps ?_ (fun p hp => ?_) (fun p hp => ?_)
  · obtain ⟨_, _, rfl⟩ := h
    exact .refl _ _
  · obtain ⟨_, _, rfl⟩ := h
    exact (List.mem_filter.1 hp).1
  · obtain ⟨_, _, rfl⟩ := h
    exact hp

theorem tiles_eq_nil {r : Reply} {t : Thread} (h : ∀ e ∈ r.writes, ∀ d, e.1 ≠ .t d) : r.tiles t = [] := by
  rw [Reply.tiles, List.filterMap_eq_nil_iff]
  intro e he
  split
  · next d hd => exact absurd hd (h e he d)
  · rfl

theorem reply_registers {s : State} {core : ℕ} {r : Reply} (hreplies : (s.core core).replies = [r]) (htid : r.tid = s.tid)
    (hwritten : r.written = none) (hidle : (s.quad (core / 4)).phase = .idle) (hnodup : (r.writes.map (·.1)).Nodup)
    (htile : ∀ e ∈ r.writes, ∀ d, e.1 ≠ .t d) (hmine : ∃ e ∈ s.th.pend, e.2 = r.seq)
    (hpend : ∀ e ∈ r.writes, e.1 ≠ .x 0 → (e.1, r.seq) ∈ s.th.pend) :
    ∃ u, exec (.heldRequestReply core) s = .next u ∧ u.mem = s.mem ∧ u.th.pc = s.th.pc ∧ (∀ e ∈ u.th.pend, e.2 ≠ r.seq)
      ∧ u.th.entryBad = (s.th.entryBad || r.bad) ∧ u.th.task = (if r.task.isSome then r.task else s.th.task)
      ∧ (r.poisoned = false → ∀ e ∈ r.writes, RegHolds u.th e)
      ∧ (r.poisoned = true → ∀ e ∈ r.writes, e.1 ≠ .x 0 → (e.1, r.obj, r.addr) ∈ u.th.poison)
      ∧ (∀ d, (∀ e ∈ r.writes, e.1 ≠ d) → RegAlike s.th u.th d) := by
  obtain ⟨t, n, hfold, hreplied⟩ := replyWrites_replied hnodup htile hpend
  obtain ⟨w, hexec, hmem, hacq⟩ := reply_written hreplies htid hwritten hidle
    (replyArrives_ok hmine (.inl (tiles_eq_nil htile)) hfold) rfl
  refine ⟨w, hexec, hmem, ?_, replied_pend hacq, ?_, ?_, fun hr e he => replied_holds hacq (hreplied.holds hr e he), fun hr e he h0 => ?_,
    fun d hd => (hreplied.keeps d hd).trans ?_⟩
  all_goals
    have hmarks := hreplied.marks
    obtain ⟨_, _, _, _, _, rfl⟩ := hreplied.form
    obtain ⟨acquires, acqWaits, hw⟩ := hacq
    rw [hw]
  · rfl
  · rfl
  · rfl
  · exact hmarks hr e he h0
  · exact .refl _ _

theorem writeTile_tid {s u : State} {d : Rt} {img : TileImage} (hfree : TileFree s d) (hu : writeTile s d img = .ok u) : u.tid = s.tid := by
  obtain ⟨w, hw, -, ⟨-, -, htid, -⟩, -⟩ := writeTile_ok hfree img
  rw [Except.ok.inj (hu.symm.trans hw)]
  exact htid

theorem tileVal_putT (t : Thread) (d : Rt) (img : TileImage) (p : ℕ) : tileVal (putT t d img p) d = img := by
  have ht : (putT t d img p).t[d] = some { data := img.data, scale := img.scale, tag := img.tag, phys := p } := Vector.getElem_set_self ..
  rw [tileVal, ht]

theorem reply_tile {s : State} {core : ℕ} {r : Reply} {d : Rt} {v : ℕ} (hreplies : (s.core core).replies = [r]) (htid : r.tid = s.tid)
    (hwritten : r.written = none) (hidle : (s.quad (core / 4)).phase = .idle) (hwrites : r.writes = [(.t d, v)])
    (hpend : (.t d, r.seq) ∈ s.th.pend) (hpois : r.poisoned = false) (hlive : v.testBit liveAt = true) (hfree : TileFree s d) :
    ∃ u, exec (.heldRequestReply core) s = .next u ∧ u.mem = s.mem ∧ u.th.pc = s.th.pc
      ∧ tileVal u.th d = TileImage.ofNat v ∧ Readable u.th (.t d) := by
  have hcontains : s.th.pend.contains (.t d, r.seq) = true := List.contains_iff_mem.2 hpend
  obtain ⟨u, k, hwrite, ⟨p, -, hth⟩, hmem, -, -⟩ := (ringApart_refl s _).writeTile_ok rfl hfree (TileImage.ofNat v)
  have hfold : r.writes.foldlM (replyWrite r) s = .ok u := by
    rw [hwrites, List.foldlM_cons, replyWrite, if_pos hcontains, hpois, if_neg Bool.false_ne_true, writeDest, if_pos hlive, hwrite]
    rfl
  have htiles : r.tiles s.th = [d] := by
    rw [Reply.tiles, hwrites, List.filterMap_cons]
    dsimp only
    rw [hcontains, hpois, hlive]
    rfl
  have hneed : needTiles s (tileEngine s d) 1 = .ok () := if_pos hfree
  obtain ⟨w, hexec, hwmem, hacq⟩ := reply_written hreplies htid hwritten hidle
    (replyArrives_ok ⟨_, hpend, rfl⟩ (.inr ⟨d, htiles, hneed⟩) hfold) (writeTile_tid hfree hwrite)
  have hread : Readable u.th (.t d) := by
    rw [hth]
    exact ⟨fun e he => bne_iff_ne.1 (List.mem_filter.1 he).2, fun e he => bne_iff_ne.1 (List.mem_filter.1 he).2⟩
  have hpc : u.th.pc = s.th.pc := by rw [hth, putT]
  have htile : tileVal u.th d = TileImage.ofNat v := by rw [hth, tileVal_putT]
  refine ⟨w, hexec, hwmem.trans hmem, ?_, ?_, replied_readable hacq hread⟩
  · obtain ⟨_, _, hw⟩ := hacq
    rw [hw]
    exact hpc
  · obtain ⟨_, _, hw⟩ := hacq
    rw [hw]
    exact htile

end Sys2Proof.Machine

namespace Sys2Proof.Proofs
open Sys2Proof.Machine Sys2Proof.Safety Sys2Proof.Claims

/-- Settles O47: one lemma for each kind of event. -/
theorem holdEvents : Obligations.HoldEvents := by
  refine ⟨fun _ _ _ _ => holdRelease_young, fun _ _ _ _ _ _ h he => arrive_released h he, fun s core e rest o g c k h he hg hres hc hk => ?_,
    fun s core e rest m g c h he hg hclosing hres hswitch hc => ?_, fun s core r hreplies htid hwritten hidle hnodup htile hmine hpend => ?_,
    fun _ _ _ _ _ => reply_tile, fun _ _ _ _ => refillInbox_moves, fun s k d dl hwait hgo => ?_, fun s k d dl hwait hgo => ?_,
    fun _ _ _ _ _ _ _ => hurdle_completes, fun _ _ _ _ _ _ _ hwait hgo => phase_matches hgo hwait,
    fun s e pos img rest harr => ⟨fun _ => ringArrival_slot harr, ringArrival_foreign harr⟩,
    fun _ _ _ _ _ hwait hgo => pacq_completes hgo hwait, lateFree_keeps⟩
  · exact ⟨message_to_inbox h he hg hres hc hk, message_to_overflow h he hg hres hc hk, message_waits h he hg hres hc hk,
      fun _ _ _ _ => message_answered h he hg hres hc hk⟩
  · exact ⟨fun _ => start_takes_context h he hg hclosing hres hswitch hc, start_queued h he hg hclosing hres hswitch hc⟩
  · obtain ⟨u, hexec, hmem, hpc, hwaits, hbad, htask, hholds, hmarks, hkeeps⟩ :=
      reply_registers hreplies htid hwritten hidle hnodup htile hmine hpend
    refine ⟨u, hexec, hmem, hpc, hwaits, hbad, htask, hholds, hmarks, fun d hd => (hkeeps (.x d) hd).1 d rfl,
      fun d hd => (hkeeps (.a d) hd).2.1 d rfl, fun d hd => (hkeeps (.v d) hd).2.2 d rfl⟩
  · exact ⟨mwait_wakes hgo hwait, fun _ => mwait_ends hgo hwait⟩
  · exact ⟨waiti_wakes hgo hwait, fun _ => waiti_ends hgo hwait⟩

end Sys2Proof.Proofs
end

section
/-! SUPPORT. A `trstr` of two tiles whose thread has been granted more tiles than it waits for (06 R154, R182); O36. -/

namespace Sys2Proof.Machine
open Sys2Proof.Safety Sys2Proof.Claims

/-! ### Images -/

/-- An image has a place for its first byte. -/
theorem imageBytes_ne_nil {s : State} {o : Opened} {r : Ref} {at' n : ℕ} {acc : Acc} {first ls : List Loc}
    (hfirst : accessUnit s (whoTh s) o r ((refOff r + at' + 0 : ℕ) : ℤ) 1 1 acc (imageInfo (at' + 0)) = .ok first) (hne : first ≠ [])
    (h : imageBytes s o r at' (n + 1) acc = .ok ls) : ls ≠ [] := by
  rw [imageBytes, List.range_succ_eq_map, List.mapM_cons, hfirst] at h
  rintro rfl
  cases hrest : ((List.range n).map Nat.succ).mapM (fun i =>
      accessUnit s (whoTh s) o r ((refOff r + at' + i : ℕ) : ℤ) 1 1 acc (imageInfo (at' + i))) with
  | error e =>
    rw [hrest] at h
    cases h
  | ok bs =>
    rw [hrest] at h
    have hflat : (first :: bs).flatten = [] := Except.ok.inj h
    exact hne (List.append_eq_nil_iff.1 hflat).1

theorem awaitLoad_free {s : State} {ls : List Loc} (h : FreeToGo s ls) : awaitLoad s ls = .ok () := by
  unfold awaitLoad awaitAcquire
  simp [h.acquires, h.stores, h.loads, h.user, Nat.not_lt.mpr h.own, await_true, bind, Except.bind]

theorem loadGoes_of_free {s : State} {ls : List Loc} (h : FreeToGo s ls) : LoadGoes s ls :=
  ⟨⟨h.acquires, fun _ => ⟨h.stores, h.own⟩⟩, h.loads, fun hs => absurd h.user (by rw [isService, decide_eq_true hs]; decide)⟩

/-- A part of an image, restored. -/
def restorePart (h : List Byte) (s : State) (p : Rt × List Loc) : Except Stop State :=
  restoreTile s p.1 (if p.2.isEmpty then none else some (imageOf h p.1 (viewBytes s (whoTh s) p.2)))

/-- A `trstr` of tiles 0 and 1, both live in the image. -/
theorem trstr_two {s u : State} {a : Ra} {r : Ref} {o : Opened} {head l₀ l₁ : List Loc} {h : List Byte} {vals : List (List Byte)}
    (href : imageRef s a .load = .ok (r, o)) (hse : o.sideEffect = false) (hhead : imageBytes s o r 0 64 .load = .ok head)
    (hawait : awaitLoad s head = .ok ()) (hh : viewBytes s (whoTh s) head = h) (hok₀ : headerBad h 0 = false) (hok₁ : headerBad h 1 = false)
    (hlive₀ : headerLive h 0 = true) (hlive₁ : headerLive h 1 = true) (h₀ : imageBytes s o r 64 4608 .load = .ok l₀)
    (h₁ : imageBytes s o r 4672 4608 .load = .ok l₁) (hne₀ : l₀ ≠ []) (hne₁ : l₁ ≠ [])
    (hneed : needTiles s (engineOf s.tid 0) 2 = .ok ())
    (hload : loadUnits s ((head ++ [l₀, l₁].flatten).map fun l => [l]) = .ok (vals, u)) :
    exec (.trstr 0 a 3) s = finish s ([(0, l₀), (1, l₁)].foldlM (restorePart h) u >>= fun s => .ok (retire s)) := by
  have hmask : maskTiles 0 3 = [0, 1] := by decide
  have hparts : (maskTiles 0 3).mapM (fun t => do
      require (!headerBad h t) 0x02
      if headerLive h t then
        return (t, ← imageBytes s o r (tileAt t) 4608 .load)
      else return (t, [])) = (.ok [(0, l₀), (1, l₁)] : Except Stop (List (Rt × List Loc))) := by
    rw [hmask]
    simp only [List.mapM_cons, List.mapM_nil, hok₀, hok₁, hlive₀, hlive₁, Bool.not_false, require_true, if_true]
    rw [show tileAt 0 = 64 from rfl, show tileAt 1 = 4672 from rfl, h₀, h₁]
    rfl
  have hcount : (([((0 : Rt), l₀), (1, l₁)]).filter fun p => !p.2.isEmpty) = [(0, l₀), (1, l₁)] := by
    simp [hne₀, hne₁]
  rw [show exec (.trstr 0 a 3) s = execTrstr 0 a 3 s from rfl]
  unfold execTrstr
  rw [href, ok_bind]
  dsimp only
  rw [hhead, ok_bind, hse, if_neg Bool.false_ne_true, hawait, ok_bind, hh, hparts, ok_bind, hcount]
  have hloads : loadUnits s ((head :: ([((0 : Rt), l₀), (1, l₁)]).map (·.2)).flatten.map fun l => [l]) = .ok (vals, u) := hload
  rw [show needTiles s (engineOf s.tid (0 : Fin 2).val) ([((0 : Rt), l₀), (1, l₁)]).length = .ok () from hneed, hloads]
  rfl

theorem restorePart_live {s : State} {h : List Byte} {d : Rt} {l : List Loc} (hne : l ≠ []) :
    restorePart h s (d, l) = writeTile s d (imageOf h d (viewBytes s (whoTh s) l)) := by
  have hfull : l.isEmpty = false := List.isEmpty_eq_false_iff.2 hne
  rw [restorePart, hfull, if_neg Bool.false_ne_true, restoreTile]

theorem writeTile_stuck {s : State} {d : Rt} {img : TileImage} {e : Stop} (h : needTiles s (tileEngine s d) 1 = .error e) :
    writeTile s d img = .error e := by
  have hneed : needTiles s (engineOf s.tid (halfOf d)) 1 = .error e := h
  unfold writeTile
  dsimp only
  rw [hneed]
  rfl

/-- Free tiles depend on the physical tiles of registers, not on what the tiles hold. -/
theorem tilesFor_congr {s t : State} {e n : ℕ}
    (hphys : ∀ k, (t.thread k).t.toList.map (Option.map Tile.phys) = (s.thread k).t.toList.map (Option.map Tile.phys))
    (heng : t.engine e = s.engine e) (hcycle : t.cycle = s.cycle) : tilesFor t e n = tilesFor s e n := by
  have hget : ∀ k i, ((t.thread k).t.toList.getD i none).map Tile.phys = ((s.thread k).t.toList.getD i none).map Tile.phys := fun k i => by
    have hmap : ∀ l : List (Option Tile), (l.map (Option.map Tile.phys)).getD i none = (l.getD i none).map Tile.phys := fun l =>
      List.getD_map (f := Option.map Tile.phys) (d := none) ..
    rw [← hmap, hphys, hmap]
  have hfree : freeTiles t e = freeTiles s e := by
    unfold freeTiles liveTiles
    simp only [hget, heng]
  unfold tilesFor grantTiles
  rw [hfree, heng, hcycle]

end Sys2Proof.Machine

namespace Sys2Proof.Proofs
open Sys2Proof.Machine Sys2Proof.Safety Sys2Proof.Claims

/-! ### The state of the refutation -/

/-- A reference to byte 128 of the scratchpad (R69). -/
def scratchImage : Ref := BitVec.ofNat 128 (3 * 2 ^ 84 + 2 * 2 ^ 80 + 128)

/-- The engine whose 96 free tiles are granted: two to thread 0, which waits for one, and 94 to thread 1, which waits for 100. -/
def overGranted : Engine :=
  { State.reset.engine 0 with
    waiting := [{ tid := 0, last := State.reset.cycle, need := 1, got := 2 },
      { tid := 1, last := State.reset.cycle, need := 100, got := 94 }] }

/-- The reset state with that engine, and an image of two live tiles in the scratchpad: a header, and zeros. -/
def shortState : State :=
  { (State.reset.setEngine 0 overGranted).setTh { State.reset.th with a := State.reset.th.a.set 2 scratchImage } with
    mem := State.reset.mem.writeList (quadBase 0 + 128) [0xC3, 0xC3] }

/-- The header of live tiles 0 and 1, both with tag 3. -/
def twoLive : List Byte := [0xC3, 0xC3] ++ List.replicate 62 0

/-- A result that is found passes a test. -/
def foundAnd {α : Type} (r : Except Stop α) (p : α → Bool) : Bool :=
  match r with
  | .ok a => p a
  | .error _ => false

theorem exists_of_foundAnd {α : Type} {r : Except Stop α} {p : α → Bool} (h : foundAnd r p = true) : ∃ a, r = .ok a ∧ p a = true := by
  cases r with
  | ok a => exact ⟨a, rfl, h⟩
  | error e => cases h

theorem shortState_unmarked : Unmarked shortState := ⟨by decide +kernel, by decide +kernel, by decide +kernel⟩

theorem shortState_outside (q : ℕ) : (shortState.quad q).outside = [] := by
  have hquad : shortState.quad q = (State.reset.setEngine 0 overGranted).quad q := rfl
  rw [hquad, State.setEngine, State.setQuad_quad]
  split
  · rfl
  · rfl

theorem shortState_free (ls : List Loc) : FreeToGo shortState ls where
  acquires := by decide +kernel
  stores := by decide +kernel
  own := by decide +kernel
  release := by decide +kernel
  loads := rfl
  writes := rfl
  outside := by
    rw [List.any_eq_false]
    intro l _
    unfold outsideWaits
    split
    · exact Bool.false_ne_true
    · rw [shortState_outside]
      exact Bool.false_ne_true
  user := rfl

/-- The image's places. -/
theorem shortState_image (at' n : ℕ) (h : 128 + at' + n ≤ 2 ^ 21) :
    ∃ ls, imageBytes shortState .space scratchImage at' n .load = .ok ls := by
  have hs : refSpace scratchImage = 2 := by decide +kernel
  have ho : refOff scratchImage = 128 := by decide +kernel
  refine imageBytes_ok shortState_unmarked (by rw [ho]; omega) fun i hi => ?_
  rw [hs, ho]
  exact spaceFault_scratchpad (by decide +kernel) (by omega)

theorem shortState_tile (at' : ℕ) (h : 128 + at' + 4608 ≤ 2 ^ 21)
    (hfirst : foundAnd (accessUnit shortState (whoTh shortState) .space scratchImage ((refOff scratchImage + at' + 0 : ℕ) : ℤ) 1 1 .load
      (imageInfo (at' + 0))) (fun ls => !ls.isEmpty) = true) :
    ∃ ls, imageBytes shortState .space scratchImage at' 4608 .load = .ok ls ∧ ls ≠ [] := by
  obtain ⟨ls, hls⟩ := shortState_image at' 4608 h
  obtain ⟨first, hbyte, hne⟩ := exists_of_foundAnd hfirst
  rw [Bool.not_eq_true', List.isEmpty_eq_false_iff] at hne
  exact ⟨ls, hls, imageBytes_ne_nil hbyte hne hls⟩

/-- The state once tile 0 is restored. -/
def oneRestored (img : TileImage) : State :=
  ((shortState.setTh (putT shortState.th 0 img 0)).setEngine 0
    ((grantTiles shortState 0).take 0 shortState.cycle (freeTiles shortState 0).length)).supersede 0 none

theorem writeTile_first (img : TileImage) : writeTile shortState 0 img = .ok (oneRestored img) := by
  have hneed : needTiles shortState 0 1 = .ok () := if_pos (by decide +kernel)
  have hhead : (freeTiles shortState 0).headD 0 = 0 := by decide +kernel
  have hwrite : writeTile shortState 0 img = needTiles shortState 0 1 >>= fun _ => .ok
      (((shortState.setTh (putT shortState.th 0 img ((freeTiles shortState 0).headD 0))).setEngine 0
        ((grantTiles shortState 0).take 0 shortState.cycle (freeTiles shortState 0).length)).supersede 0 none) := rfl
  rw [hwrite, hneed, hhead]
  rfl

/-- The tile that thread 0 had been granted in excess goes to thread 1. -/
theorem oneRestored_tilesFor (img : TileImage) : tilesFor (oneRestored img) 0 0 = 0 := by
  have hsame : tilesFor (oneRestored img) 0 0 = tilesFor (oneRestored { data := 0, scale := 0, tag := 0 }) 0 0 := by
    refine tilesFor_congr (fun k => ?_) rfl rfl
    by_cases hk : k = 0
    · rw [hk]
      rfl
    · have hthread : (oneRestored img).thread k = (oneRestored { data := 0, scale := 0, tag := 0 }).thread k :=
        (if_neg hk).trans (if_neg hk).symm
      rw [hthread]
  rw [hsame]
  decide +kernel

theorem writeTile_second (img img' : TileImage) : writeTile (oneRestored img) 1 img' = .error (.tiles 0 1) := by
  have hneed : needTiles (oneRestored img) 0 1 = .error (.tiles 0 1) := by
    rw [needTiles, if_neg]
    rw [show (oneRestored img).tid = 0 from rfl, oneRestored_tilesFor]
    exact Nat.not_succ_le_zero 0
  have heng : tileEngine (oneRestored img) 1 = 0 := by
    rw [tileEngine, show (oneRestored img).tid = 0 from rfl]
    decide
  exact writeTile_stuck (by rw [heng]; exact hneed)

/-- The second tile waits, so the instruction does not retire. -/
theorem shortState_waits {head l₀ l₁ : List Loc} (hhead : imageBytes shortState .space scratchImage 0 64 .load = .ok head)
    (hh : viewBytes shortState (whoTh shortState) head = twoLive)
    (h₀ : imageBytes shortState .space scratchImage 64 4608 .load = .ok l₀)
    (h₁ : imageBytes shortState .space scratchImage 4672 4608 .load = .ok l₁) (hne₀ : l₀ ≠ []) (hne₁ : l₁ ≠ []) :
    ∃ t, exec (.trstr 0 2 3) shortState = .next t ∧ t.th.pc = shortState.th.pc := by
  have hloads := loadUnits_plain (units := (head ++ [l₀, l₁].flatten).map fun l => [l]) (shortState_free _) (by decide +kernel)
    (fun g hg => nomatch hg)
  have hexec := trstr_two (a := 2) rfl rfl hhead (awaitLoad_free (shortState_free head)) hh (by decide) (by decide) (by decide) (by decide)
    h₀ h₁ hne₀ hne₁ (if_pos (by decide +kernel)) hloads
  refine ⟨shortState.awaitTile 0 1, ?_, rfl⟩
  rw [hexec, List.foldlM_cons, restorePart_live hne₀, writeTile_first, ok_bind, List.foldlM_cons, restorePart_live hne₁, writeTile_second]
  rfl

/-- Refutes O36: a thread that has been granted two tiles and waits for one takes one, and the other goes to a thread that waits, so the
second tile of a `trstr` waits although two were free for it (R154, R182). -/
theorem not_tileImages : ¬Obligations.TileImages := by
  unfold Obligations.TileImages
  rintro ⟨-, hrestore, -⟩
  obtain ⟨head, hhead, hh⟩ := exists_of_foundAnd (r := imageBytes shortState .space scratchImage 0 64 .load)
    (p := fun ls => decide (viewBytes shortState (whoTh shortState) ls = twoLive)) (by decide +kernel)
  have hh := of_decide_eq_true hh
  obtain ⟨l₀, h₀, hne₀⟩ := shortState_tile 64 (by decide) (by decide +kernel)
  obtain ⟨l₁, h₁, hne₁⟩ := shortState_tile 4672 (by decide) (by decide +kernel)
  obtain ⟨t, hexec, hpc⟩ := shortState_waits hhead hh h₀ h₁ hne₀ hne₁
  have hplaces : ∀ d ∈ [(0 : Rt), 1], imageBytes shortState .space scratchImage (64 + 4608 * (d.val % 8)) 4608 .load
      = .ok (if d = 0 then l₀ else l₁) := fun d hd => by
    rcases List.mem_cons.1 hd with rfl | hd
    · exact h₀
    · rw [List.mem_singleton.1 hd]
      exact h₁
  obtain ⟨hgood, -⟩ := hrestore shortState shortState 0 2 3 scratchImage .space head (fun d => if d = 0 then l₀ else l₁)
    [0, 1] twoLive _ rfl rfl (loadGoes_of_free (shortState_free head)) hhead hh.symm
  obtain ⟨u, hexec', hpc', -⟩ := hgood (by unfold HeaderOk; decide) (by decide) hplaces
    (loadUnits_plain (shortState_free _) (by decide +kernel) fun g hg => nomatch hg) (by decide +kernel) (by decide +kernel)
  rw [hexec] at hexec'
  obtain rfl := Host.Outcome.next.inj hexec'
  rw [hpc] at hpc'
  exact absurd hpc' (by decide +kernel)

end Sys2Proof.Proofs
end
